-- ==== Sys2Proof/Word.lean ====
section
/-! DEFINITION. The words of the Jugemas: bytes, 32-bit registers and the wider words of its formats (R13). -/
namespace Sys2Proof

/-- One byte. -/
abbrev Byte := BitVec 8

/-- A register of the BAR0 window (R13). -/
abbrev Word := BitVec 32

/-- A 64-bit word: seeds, digests, DMA addresses, Claoxel times in seconds. -/
abbrev DWord := BitVec 64

end Sys2Proof
end

