-- ==== Sys2Proof/Syntax.lean ====
section
/-! DEFINITION. The commands of the module, one constructor for each row of the opcode table, and the formats that
commands and state share. -/
namespace Sys2Proof

/-! ## Formats shared by commands and state -/

/-- The Claoxel fabric header (Table 1.13), field by field; every number is the field's value. -/
structure Cfh where
  ver : Nat
  epoch : Nat
  cls : Nat
  poison : Bool
  retractable : Bool
  mirrored : Bool
  ecn : Nat
  first : Bool
  last : Bool
  part : Nat
  colour : Nat
  dst : Nat
  src : Nat
  len : Nat
  flowSeq : Nat
  job : Nat
  group : Nat
  gen : Nat
  chunk : Nat
  step : Nat
  rank : Nat
  format : Nat
  injSec : Nat
  injNs : Nat
  digest : Nat
  deriving DecidableEq, Repr

/-- The link cell header of a packet's cells (Table 7.2), without the credit return it may carry. -/
structure LinkHdr where
  vc : Nat
  cls : Nat
  wadiSel : Bool
  misroute : Nat
  start : Bool
  gen : Nat
  originDune : Nat
  originX : Nat
  originY : Nat
  originZ : Nat
  ctx : Nat
  deriving DecidableEq, Repr

/-- The credit return fields of a link cell (Table 7.2). -/
structure CreditRet where
  cls : Nat
  vc : Nat
  cells : Nat
  deriving DecidableEq, Repr

/-- An Ethernet frame: addresses, VLAN tags as (TPID, tag control word) from the outermost, EtherType, and the bytes from the
EtherType's end to the frame check sequence (R135). -/
structure EthFrame where
  dst : Nat
  src : Nat
  tags : List (Nat × Nat)
  etype : Nat
  body : List Byte
  deriving DecidableEq, Repr

/-- A next-hop entry (R145): a 64-bit result, the next hop's MAC address and VID. -/
structure NextHop where
  result : Nat
  mac : Nat
  vid : Nat
  deriving DecidableEq, Repr

/-- A table record (Table 6.6), used by learning messages, preloads and the update window. -/
structure TblRec where
  op : Nat
  table : Nat
  plen : Nat
  isStatic : Bool
  relay : Bool
  flagsRest : Nat
  owner : Nat
  version : Nat
  key : Nat
  keyTail : Nat
  result : Nat
  nhMac : Nat
  nhVid : Nat
  vidRest : Nat
  rest : Nat
  deriving DecidableEq, Repr

/-- One section of an image as it is read from its source: the SHA-384 digest of its ciphertext, the additional data with which
its tag verifies under the image key (none where it verifies with none), and its plaintext. -/
structure ImgSection where
  digest : Nat
  tagOver : Option Nat
  text : List Byte
  deriving DecidableEq, Repr

/-- A signature record (Table 2.3) as the verifier sees it: SIGNER, whether its reserved bytes are 0, KEY_HASH, and whether the
ECDSA and the ML-DSA signatures over the signed message verify under that key. -/
structure SigRec where
  signer : Nat
  reservedZero : Bool
  keyHash : Nat
  ecdsaOk : Bool
  mldsaOk : Bool
  deriving DecidableEq, Repr

/-- An image as it is read from its source: the 256 header bytes as one big-endian number, the two signature
records, the directory entries as 128-byte big-endian numbers, and the boot sections by directory index (R41 to R45). -/
structure Image where
  header : Nat
  sigs : List SigRec
  dir : List Nat
  boot : List (Nat × ImgSection)
  deriving DecidableEq, Repr

/-- What a header read finds at one source: nothing readable, or the header's 256 bytes and how many bytes the
source holds (R57, IMG_ERR 01h). -/
structure HdrRead where
  readable : Bool
  header : Nat
  bytes : Nat
  deriving DecidableEq, Repr

/-- One source of an image (IMG_STATUS.SLOT). -/
inductive ImgSlot where
  | slot0
  | slot1
  | host
  deriving DecidableEq, Repr


/-- A frame of a management port that reached it, as its header tells (R86): which kind of traffic it carries. -/
inductive MgmtFrame where
  | arp (vid : Nat) (forPort : Bool)
  | nd (vid : Nat) (forPort : Bool)
  | echo (vid : Nat) (v6 forPort : Bool)
  | ptp (vid : Nat)
  | udp (vid : Nat) (v6 forPort fragment : Bool) (dport : Nat)
  | other
  deriving DecidableEq, Repr

/-- What I3C can read (R85). -/
inductive I3cReg where
  | deviceId
  | readySum
  | resetCause
  | duneState
  | sensor (n : Fin 208)
  | pwr (off : Fin 46)
  deriving DecidableEq, Repr

/-- A PTP message of IEEE 1588-2019 as the boundary clock uses it (R189): its domain, and its kind with the times or
the data set it carries. Times are in units of 2^-16 ns. -/
inductive PtpBody where
  | sync (t1 : Int) (twoStep : Bool)
  | followUp (t1 : Int)
  | delayReq
  | delayResp (t4 : Int)
  | pdelayReq
  | pdelayResp (t2 t3 : Int)
  | announce (prio1 clockClass accuracy variance prio2 identity steps sender utc : Nat)
  deriving DecidableEq, Repr

structure PtpMsg where
  domain : Nat
  sender : Nat
  body : PtpBody
  deriving DecidableEq, Repr

/-- An error the scrubber finds in one table word (R156): the table (00h exact match, 01h stash, 10h + s trie stage s,
20h next hop), the word, and whether it can be corrected. Where a trie word lies is the allocator's choice, so a trie word
comes with the addresses whose lookups read it, as the key field and prefix length of Table 6.6. -/
structure ScrubErr where
  table : Nat
  word : Nat
  key : Nat
  plen : Nat
  correctable : Bool
  deriving DecidableEq, Repr

/-- Where a packet arrives: the lane of its port, and the bad word that its lookup reads, if it reads one (R156). -/
structure Arrival where
  lane : Fin 8
  err : Option ScrubErr
  deriving DecidableEq, Repr

/-- The readings of one telemetry update (R406), in the registers' units. -/
structure PwrReadings where
  vin48 : Nat
  iin48 : Nat
  pin48 : Nat
  vaux5 : Nat
  paux5 : Nat
  dunes : List Nat
  tiles : List Nat
  oasis : List Nat
  plt : Nat
  deriving DecidableEq, Repr



/-- A peer's HELLO (Table 15.4). -/
structure HelloMsg where
  nonce : Nat
  serial : Nat
  hallPart : Nat
  wellFormed : Bool
  deriving DecidableEq, Repr

/-- A peer's CERT (Table 15.4): whether the certificates chain to the vendor or the owner key (R367 step 1), whether the
report's signature verifies, and what the report says. -/
structure CertMsg where
  chainOk : Bool
  reportSigOk : Bool
  nonce : Nat
  ownerHash : Nat
  debugOpen : Bool
  wellFormed : Bool
  deriving DecidableEq, Repr

/-- A seal (R369): what it says, and whether its tag verifies the frame. -/
structure SealMsg where
  epoch : Nat
  frame : Nat
  cells : Nat
  next : Bool
  tagOk : Bool
  deriving DecidableEq, Repr

/-- A datagram of a register session (R380): a handshake segment of the client, as the root of trust sees it, or a frame
of register accesses, each an address with the value it writes or none for a read. -/
inductive SessionMsg where
  | hello (m : HelloMsg)
  | cert (chainOk reportSigOk : Bool) (nonce keyHash : Nat)
  | finish (sigOk : Bool)
  | refuse
  | frame (epoch no : Nat) (next tagOk : Bool) (accesses : List (BitVec 26 × Option Word))
  deriving DecidableEq, Repr

/-- What a pace monitor of a dune reports: bank accesses per µs of its buffer (R110), or a ripple's handshakes per µs (Table 10.12). -/
inductive PaceReading where
  | bank (d : Fin 8) (n : BitVec 16)
  | ripple (d : Fin 8) (r : Fin 32) (pace : BitVec 16)
  deriving DecidableEq, Repr

/-- What telemetry reports of a lane (R306): P_FAR, and whether the peer's receive lane has lock. -/
structure PeerReport where
  pfar : BitVec 16
  locked : Bool
  deriving DecidableEq, Repr

/-- What the root of trust finds of a key package: whether the owner record verifies and the key unwraps (R364). -/
structure PackageCheck where
  sigOk : Bool
  unwrapOk : Bool
  deriving DecidableEq, Repr

/-- What the root of trust finds of a transfer order: whether the proof and the owner record verify (R362). -/
structure TransferCheck where
  proofOk : Bool
  ownerOk : Bool
  deriving DecidableEq, Repr

/-- What besides the addition may happen in an ACC: nothing, a residue mismatch (R344), an uncorrectable word in the
input's buffer (R353), or an input packet that fails its digest at the engine's read (R341). -/
inductive AccEvent where
  | fine
  | residue
  | poison
  | digest
  deriving DecidableEq, Repr

/-- A path message (Table 13.9). Coordinates are in the layout of Table 12.3. -/
structure PathMsg where
  id : Nat
  reason : Nat
  origin : Nat
  target : Nat
  pair : Nat
  dir : Nat
  w0 : Nat
  w : Nat
  sec : Nat
  ns : Nat
  deriving DecidableEq, Repr

/-- What a margin test found of one engine and one delay line: the lowest offset passed in −mV, or none where 0 mV
failed (R355). -/
structure MarginRes where
  engines : List (Option Nat)
  lines : List (Option Nat)
  deriving DecidableEq, Repr

/-- What a Mirage spine receives from its twin (R396): a copy of a packet for service 0002h, or a shadow record of a
COLL packet that the twin sends. -/
inductive TwinItem where
  | copy (c : Cfh) (payload : List Byte)
  | shadow (digest group gen step chunk dst : Nat)
  deriving DecidableEq, Repr

/-! ## Commands -/

/-- A command to the module: what reaches it from outside, or a step of one of its own engines and sequencers, with
the operands the step depends on. -/
inductive Instr where
  /-- AUX_POWER_UP (R402). -/
  | auxPowerUp
  /-- RESET_RELEASE (R65). -/
  | resetRelease (straps : Fin 4)
  /-- RESET_ASSERT (R404). -/
  | resetAssert
  /-- AUX_INPUT_LOSS (R77). -/
  | auxInputLoss
  /-- VIN48_GOOD (R65). -/
  | vin48Good
  /-- VIN48_OUT_OF_RANGE (R400). -/
  | vin48OutOfRange
  /-- VAUX5_OUT_OF_RANGE (R406). -/
  | vaux5OutOfRange
  /-- THERMAL_TRIP (R78). -/
  | thermalTrip (sensor : Fin 208)
  /-- SEQUENCED_DUNE_OFF (R78). -/
  | sequencedDuneOff
  /-- SOFTWARE_WARM_RESET (R77). -/
  | softwareWarmReset (v : Word)
  /-- SOFTWARE_COLD_RESET (R77). -/
  | softwareColdReset (v : Word)
  /-- IMAGE_RELOAD (R63). -/
  | imageReload (v : Word)
  /-- IMAGE_SEAL (R61). -/
  | imageSeal (v : Word)
  /-- IMAGE_HEADER_READ (R57). -/
  | imageHeaderRead (h0 h1 : HdrRead) (hostOk : Bool)
  /-- IMAGE_VERIFY_DONE (R58). -/
  | imageVerifyDone (img : Image)
  /-- DUNE_DOMAIN_ENABLE (R67). -/
  | duneDomainEnable
  /-- DUNE_RAILS_REGULATED (R67). -/
  | duneRailsRegulated (d : Fin 8)
  /-- DUNE_RAMP_TIMEOUT (R67). -/
  | duneRampTimeout (d : Fin 8)
  /-- DUNE_CAL_DONE (R67). -/
  | duneCalDone (d : Fin 8) (paceOk : Bool)
  /-- DUNE_TEST_DONE (R67). -/
  | duneTestDone (d : Fin 8) (memOk : Bool)
  /-- BULK_SECTION_ACTIVATE (R58). -/
  | bulkSectionActivate (d : Fin 8) (idx : Fin 256) (sec : ImgSection)
  /-- OASIS_TRAINING_DONE (R71). -/
  | oasisTrainingDone (k : Fin 12) (ok : Bool)
  /-- OASIS_STACK_FAULT (R128). -/
  | oasisStackFault (k : Fin 12)
  /-- ENGINE_SELF_TEST_DONE (R70). -/
  | engineSelfTestDone (g : Fin 4096) (ok : Bool)
  /-- TRIM_USER_WRITE (R75). -/
  | trimUserWrite (v : Word)
  /-- REGISTER_WRITE (R14). -/
  | registerWrite (a : BitVec 26) (v : Word)
  /-- BAD_ACCESS (R82). -/
  | badAccess (a : BitVec 26) (isRead : Bool)
  /-- OFFLINE_DUNE_ACCESS (R82). -/
  | offlineDuneAccess (a : BitVec 26) (isRead : Bool)
  /-- COUNTER_LO_READ (R132). -/
  | counterLoRead (a : BitVec 26)
  /-- HOST_SUBMIT (R88). -/
  | hostSubmit (d : Fin 8) (q : Fin 2048) (off : Fin 64) (bytes : List Byte)
  /-- DOORBELL_SUBMIT (R92). -/
  | doorbellSubmit (c : Cfh) (payload : List Byte)
  /-- DOORBELL_COUNTER_ADD (R92). -/
  | doorbellCounterAdd (c : Cfh) (payload : List Byte)
  /-- CQ_ENABLE (R89). -/
  | cqEnable (d : Fin 8) (q : Fin 2048) (v : Word)
  /-- CQ_DISABLE (R384). -/
  | cqDisable (d : Fin 8) (q : Fin 2048) (v : Word)
  /-- CQ_QUIESCED_TO_DISABLED (R386). -/
  | cqQuiescedToDisabled (d : Fin 8) (q : Fin 2048)
  /-- EVENT_COUNTER_WRITE (R95). -/
  | eventCounterWrite (d : Fin 8) (i : Fin 4095) (v : Word)
  /-- COMMAND_DISPATCH (R90). -/
  | commandDispatch (d : Fin 8) (q : Fin 2048)
  /-- WAIT_TIMEOUT (R96). -/
  | waitTimeout (d : Fin 8) (q : Fin 2048)
  /-- NOP (R93). -/
  | nop (d : Fin 8) (q : Fin 2048)
  /-- ABORT (R102). -/
  | abort (d : Fin 8) (q : Fin 2048)
  /-- CNQ_ENABLE (R420). -/
  | cnqEnable (d : Fin 8) (n : Fin 2048) (v : Word)
  /-- CNQ_DISABLE (R420). -/
  | cnqDisable (d : Fin 8) (n : Fin 2048) (v : Word)
  /-- CNQ_HEAD_WRITE (R105). -/
  | cnqHeadWrite (d : Fin 8) (n : Fin 2048) (v : Word)
  /-- CNQ_READ_TIMEOUT (R105). -/
  | cnqReadTimeout (d : Fin 8) (n : Fin 2048)
  /-- CNQ_FLUSH (R106). -/
  | cnqFlush (d : Fin 8) (n : Fin 2048)
  /-- CNQ_FABRIC_SEND (R107). -/
  | cnqFabricSend (d : Fin 8) (n : Fin 2048)
  /-- MGMT_ADDR_WRITE (R86). -/
  | mgmtAddrWrite (p : Fin 2) (v6 : Bool) (w : Fin 4) (v : Word)
  /-- MGMT_LINK_UP (R86). -/
  | mgmtLinkUp (p : Fin 2)
  /-- MGMT_ADDR_CONFLICT (R86). -/
  | mgmtAddrConflict (p : Fin 2) (v6 : Bool)
  /-- MGMT_ARP_RX (R86). -/
  | mgmtArpRx (p : Fin 2) (vid : Fin 4096) (target sender : BitVec 32) (mac : BitVec 48)
  /-- MGMT_ND_RX (R86). -/
  | mgmtNdRx (p : Fin 2) (vid : Fin 4096) (target sender : BitVec 128) (mac : BitVec 48)
  /-- MGMT_ECHO_RX (R86). -/
  | mgmtEchoRx (p : Fin 2) (vid : Fin 4096) (v6 : Bool) (dst src : BitVec 128) (data : List Byte)
  /-- MGMT_FRAME_DISCARD (R86). -/
  | mgmtFrameDiscard (p : Fin 2) (f : MgmtFrame)
  /-- I3C_READ (R85). -/
  | i3cRead (r : I3cReg)
  /-- I3C_RESET_CTRL_WRITE (R85). -/
  | i3cResetCtrlWrite (v : Word)
  /-- SESSION_DATAGRAM (R380). -/
  | sessionDatagram (p : Fin 2) (v6 : Bool) (ip : BitVec 128) (sport : BitVec 16) (g : SessionMsg)
  /-- SESSION_IDLE_TIMEOUT (R380). -/
  | sessionIdleTimeout (p : Fin 2) (v6 : Bool) (ip : BitVec 128) (sport : BitVec 16)
  /-- FABRIC_PACKET_INGRESS (R134). -/
  | fabricPacketIngress (port : Fin 4096) (a : Arrival) (h : LinkHdr) (cr : Option CreditRet) (c : Cfh) (payload : List Byte)
  /-- ETHERNET_FRAME_INGRESS (R135). -/
  | ethernetFrameIngress (port : Fin 4096) (a : Arrival) (f : EthFrame)
  /-- PACKET_ADMIT (R118). -/
  | packetAdmit (out : Fin 8) (lane : Fin 2048)
  /-- SPILL_REFILL_ARRIVE (R127). -/
  | spillRefillArrive (d : Fin 8) (q : Fin 16384) (bad : Bool)
  /-- PORT_TRANSMIT_SELECT (R205). -/
  | portTransmitSelect (port : Fin 4096)
  /-- CREDIT_RETURN_RX (R164). -/
  | creditReturnRx (port : Fin 4096) (h : LinkHdr) (cr : CreditRet)
  /-- CREDIT_ONLY_CELL_SEND (R164). -/
  | creditOnlyCellSend (port : Fin 4096)
  /-- PACE_LOW (R110). -/
  | paceLow (m : PaceReading)
  /-- POOL_MAX_WRITE (R114). -/
  | poolMaxWrite (d : Fin 8) (p : Fin 16) (c : Fin 8) (v : Word)
  /-- POLICER_ENABLE (R122). -/
  | policerEnable (d : Fin 8) (i : Fin 8192) (v : Word)
  /-- MIRROR_SESSION_ENABLE (R131). -/
  | mirrorSessionEnable (d : Fin 8) (m : Fin 64) (v : Word)
  /-- PUNT_DELIVER (R139). -/
  | puntDeliver (d : Fin 8)
  /-- FWD_UPDATE_GO (R147). -/
  | fwdUpdateGo (v : Word)
  /-- REPLICA_APPLY (R148). -/
  | replicaApply (d : Fin 8)
  /-- LEARNING_MESSAGE (R153). -/
  | learningMessage (port : Fin 4096) (c : Cfh) (payload : List Byte)
  /-- SCRUB_PASS (R156). -/
  | scrubPass (d : Fin 8) (errs : List ScrubErr)
  /-- TABLE_REBUILD (R156). -/
  | tableRebuild (d : Fin 8) (shadowBad : Bool)
  /-- REFRESH_REQUEST_RX (R157). -/
  | refreshRequestRx (port : Fin 4096) (r : TblRec)
  /-- REFRESH_TIMEOUT (R157). -/
  | refreshTimeout (d : Fin 8)
  /-- SHADOW_REBUILD (R157). -/
  | shadowRebuild
  /-- SPRAY_SAMPLE (R162). -/
  | spraySample
  /-- ESCAPE_TO_ENTRY (R170). -/
  | escapeToEntry (port : Fin 4096) (cls : Fin 8)
  /-- WADI_ALLOWANCE_LAPSE (R168). -/
  | wadiAllowanceLapse (port : Fin 4096)
  /-- RESEQUENCE_TIMEOUT (R175). -/
  | resequenceTimeout (d : Fin 8) (k : Fin 262144)
  /-- SOURCE_CONTEXT_EXPIRE (R172). -/
  | sourceContextExpire (d : Fin 8) (ctx : BitVec 16)
  /-- DEST_CONTEXT_EXPIRE (R173). -/
  | destContextExpire (d : Fin 8) (k : Fin 262144)
  /-- THROTTLE_UPDATE (R177). -/
  | throttleUpdate
  /-- UTILISATION_WINDOW (R178). -/
  | utilisationWindow
  /-- ROUTING_TABLE_DATA (R181). -/
  | routingTableData (w : Option Word)
  /-- VERSION_WRITABLE (R181). -/
  | versionWritable (b : Bool)
  /-- FLIP_ARM (R182). -/
  | flipArm (v : Word)
  /-- FLIP_CANCEL (R182). -/
  | flipCancel (v : Word)
  /-- EPOCH_FLIP (R183). -/
  | epochFlip
  /-- SERVO_UPDATE (R193). -/
  | servoUpdate (moving : Bool)
  /-- FINE_QUALIFY (R193). -/
  | fineQualify
  /-- REFUSED_SOURCE_QUALIFY (R196). -/
  | refusedSourceQualify
  /-- HOLDOVER_LIMIT (R198). -/
  | holdoverLimit
  /-- PTP_MESSAGE_RX (R189). -/
  | ptpMessageRx (kind : Fin 5) (port : Fin 4096) (m : PtpMsg)
  /-- PTP_SYNC_SEND (R189). -/
  | ptpSyncSend (mgmt : Bool)
  /-- PTP_ANNOUNCE_SEND (R189). -/
  | ptpAnnounceSend (mgmt : Bool)
  /-- ANNOUNCE_TIMEOUT (R189). -/
  | announceTimeout (kind : Fin 5) (port : Fin 4096)
  /-- FINE_TIME_MARKER (R191). -/
  | fineTimeMarker (port : Fin 4096) (sub : Fin 8) (rx back : Int)
  /-- TIM_ACCEPT (R196). -/
  | timAccept (v : Word)
  /-- TIM_ACQUIRE (R196). -/
  | timAcquire (v : Word)
  /-- TIM_CAPTURE (R203). -/
  | timCapture (v : Word)
  /-- REF_QUALIFY (R199). -/
  | refQualify
  /-- REF_LOSS (R199). -/
  | refLoss
  /-- PPS_IN_EDGE (R200). -/
  | ppsInEdge (widthNs : Nat)
  /-- PPS_LOSS (R200). -/
  | ppsLoss
  /-- PPS_OUT_PULSE (R201). -/
  | ppsOutPulse
  /-- GATE_ENTRY_START (R209). -/
  | gateEntryStart (pg : Fin 256)
  /-- GATE_LIST_ARM (R211). -/
  | gateListArm (pg : Fin 256) (v : Word)
  /-- GATE_LIST_CANCEL (R211). -/
  | gateListCancel (pg : Fin 256) (v : Word)
  /-- GATE_LIST_DISABLE (R209). -/
  | gateListDisable (pg : Fin 256) (v : Word)
  /-- GATE_BASE_REACHED (R212). -/
  | gateBaseReached (pg : Fin 256)
  /-- GATE_LIST_RESUME (R221). -/
  | gateListResume (pg : Fin 256)
  /-- GATE_LIST_DATA_WRITE (R209). -/
  | gateListDataWrite (d : Fin 8) (w : Option Word)
  /-- SHAPER_RATE_WRITE (R217). -/
  | shaperRateWrite (d : Fin 8) (k : Fin 256) (c : Fin 8) (v : Word)
  /-- TASK_GENERATE (R232). -/
  | taskGenerate (d : Fin 8) (q : Fin 2048)
  /-- ENGINE_CLAIM (R233). -/
  | engineClaim (g : Fin 4096)
  /-- UCODE_NOP (R228). -/
  | ucodeNop (g : Fin 4096)
  /-- END (R226). -/
  | endTask (g : Fin 4096) (imm : Word)
  /-- BR (R228). -/
  | br (g : Fin 4096) (a : Fin 16) (m : Fin 64) (imm : Word)
  /-- LOOP (R228). -/
  | loop (g : Fin 4096) (d : Fin 16) (imm : Word)
  /-- CALL (R228). -/
  | call (g : Fin 4096) (imm : Word)
  /-- RET (R228). -/
  | ret (g : Fin 4096)
  /-- FAULT (R230). -/
  | fault (g : Fin 4096) (imm : Word)
  /-- SYNC (R226). -/
  | sync (g : Fin 4096)
  /-- SLI (R228). -/
  | sli (g : Fin 4096) (d : Fin 16) (imm : Word)
  /-- SLUI (R228). -/
  | slui (g : Fin 4096) (d : Fin 16) (imm : Word)
  /-- SADD (R228). -/
  | sadd (g : Fin 4096) (d a b : Fin 16) (imm : Word)
  /-- SSUB (R228). -/
  | ssub (g : Fin 4096) (d a b : Fin 16)
  /-- SMUL (R228). -/
  | smul (g : Fin 4096) (d a b : Fin 16)
  /-- SLOG (R228). -/
  | slog (g : Fin 4096) (d a b : Fin 16) (m : Fin 64) (imm : Word)
  /-- SPRM (R228). -/
  | sprm (g : Fin 4096) (d : Fin 16) (imm : Word)
  /-- SCMP (R228). -/
  | scmp (g : Fin 4096) (d a b : Fin 16) (m : Fin 64)
  /-- ACC (R251). -/
  | acc (g : Fin 4096) (m : Fin 64) (row : Fin 32) (imm : Word) (ev : AccEvent)
  /-- ACCV (R251). -/
  | accv (g : Fin 4096) (a : Fin 16) (m : Fin 64) (row : Fin 32) (imm : Word) (upset : Bool)
  /-- ACLR (R250). -/
  | aclr (g : Fin 4096) (row : Fin 32) (imm : Word)
  /-- OUTR (R254). -/
  | outr (g : Fin 4096) (m : Fin 64) (row : Fin 32) (imm : Word)
  /-- NXT (R228). -/
  | nxt (g : Fin 4096) (d : Fin 16)
  /-- INLD (R249). -/
  | inld (g : Fin 4096) (d : Fin 16) (m : Fin 64)
  /-- OUTV (R254). -/
  | outv (g : Fin 4096) (a : Fin 16) (m : Fin 64) (imm : Word)
  /-- OSEL (R228). -/
  | osel (g : Fin 4096) (a : Fin 16)
  /-- VADD (R228). -/
  | vadd (g : Fin 4096) (d a b : Fin 16) (m : Fin 64)
  /-- VSUB (R228). -/
  | vsub (g : Fin 4096) (d a b : Fin 16) (m : Fin 64)
  /-- VMUL (R228). -/
  | vmul (g : Fin 4096) (d a b : Fin 16) (m : Fin 64)
  /-- VFMA (R228). -/
  | vfma (g : Fin 4096) (d a b : Fin 16) (m : Fin 64)
  /-- VDIV (R228). -/
  | vdiv (g : Fin 4096) (d a b : Fin 16)
  /-- VSQRT (R228). -/
  | vsqrt (g : Fin 4096) (d a : Fin 16)
  /-- VMXN (R228). -/
  | vmxn (g : Fin 4096) (d a b : Fin 16) (m : Fin 64)
  /-- VSEL (R228). -/
  | vsel (g : Fin 4096) (d a b : Fin 16) (imm : Word)
  /-- VCMP (R228). -/
  | vcmp (g : Fin 4096) (d a b : Fin 16) (m : Fin 64)
  /-- VBCS (R228). -/
  | vbcs (g : Fin 4096) (d a : Fin 16) (m : Fin 64)
  /-- VRED (R228). -/
  | vred (g : Fin 4096) (d a : Fin 16) (m : Fin 64)
  /-- VCVT (R228). -/
  | vcvt (g : Fin 4096) (d a : Fin 16) (m : Fin 64)
  /-- VIDX (R228). -/
  | vidx (g : Fin 4096) (d a : Fin 16)
  /-- VLOG (R228). -/
  | vlog (g : Fin 4096) (d a b : Fin 16) (m : Fin 64) (imm : Word)
  /-- VRNG (R256). -/
  | vrng (g : Fin 4096) (d a : Fin 16)
  /-- VSRT (R228). -/
  | vsrt (g : Fin 4096) (d a b : Fin 16)
  /-- LDS (R228). -/
  | lds (g : Fin 4096) (d a : Fin 16) (imm : Word)
  /-- STS (R228). -/
  | sts (g : Fin 4096) (a b : Fin 16) (imm : Word)
  /-- ASV (R250). -/
  | asv (g : Fin 4096) (a : Fin 16) (row : Fin 32) (imm : Word)
  /-- ARS (R250). -/
  | ars (g : Fin 4096) (a : Fin 16) (m : Fin 64) (row : Fin 32) (imm : Word) (upset : Bool)
  /-- OLD (R226). -/
  | old (g : Fin 4096) (d a b : Fin 16)
  /-- OLD_COMPLETE (R226). -/
  | oldComplete (g : Fin 4096) (bad : Bool)
  /-- OST (R226). -/
  | ost (g : Fin 4096) (d a b : Fin 16)
  /-- HST (R228). -/
  | hst (g : Fin 4096) (a b : Fin 16)
  /-- VMOV (R228). -/
  | vmov (g : Fin 4096) (d a : Fin 16) (m : Fin 64)
  /-- TASK_COMMIT (R226). -/
  | taskCommit (g : Fin 4096)
  /-- ENGINE_ENABLE (R244). -/
  | engineEnable (d : Fin 8) (v : Word)
  /-- ENGINE_DISABLE_DRAIN (R241). -/
  | engineDisableDrain (d : Fin 8) (v : Word)
  /-- ENGINE_DISABLE_IMMEDIATE (R242). -/
  | engineDisableImmediate (d : Fin 8) (v : Word)
  /-- ENGINE_ZEROED (R244). -/
  | engineZeroed (g : Fin 4096)
  /-- BRC_FAULT2_READ (R230). -/
  | brcFault2Read (d : Fin 8)
  /-- SUM (R237). -/
  | sum (d : Fin 8) (q : Fin 2048)
  /-- MAX (R237). -/
  | max (d : Fin 8) (q : Fin 2048)
  /-- MIN (R237). -/
  | min (d : Fin 8) (q : Fin 2048)
  /-- MEAN (R237). -/
  | mean (d : Fin 8) (q : Fin 2048)
  /-- SPARSE_MERGE (R237). -/
  | sparseMerge (d : Fin 8) (q : Fin 2048)
  /-- TOPK (R237). -/
  | topk (d : Fin 8) (q : Fin 2048)
  /-- HIST (R237). -/
  | hist (d : Fin 8) (q : Fin 2048)
  /-- NORM2 (R237). -/
  | norm2 (d : Fin 8) (q : Fin 2048)
  /-- MOE_DISPATCH (R237). -/
  | moeDispatch (d : Fin 8) (q : Fin 2048)
  /-- MOE_COMBINE (R237). -/
  | moeCombine (d : Fin 8) (q : Fin 2048)
  /-- QUANT (R237). -/
  | quant (d : Fin 8) (q : Fin 2048)
  /-- SGD_MOM (R238). -/
  | sgdMom (d : Fin 8) (q : Fin 2048)
  /-- ADAM_F32 (R238). -/
  | adamF32 (d : Fin 8) (q : Fin 2048)
  /-- SIGN_UPD (R238). -/
  | signUpd (d : Fin 8) (q : Fin 2048)
  /-- OWNER_KERNEL (R236). -/
  | ownerKernel (d : Fin 8) (q : Fin 2048)
  /-- ALLREDUCE (R272). -/
  | allreduce (d : Fin 8) (q : Fin 2048)
  /-- REDUCE (R272). -/
  | reduce (d : Fin 8) (q : Fin 2048)
  /-- BROADCAST (R272). -/
  | broadcast (d : Fin 8) (q : Fin 2048)
  /-- SHARD_UPDATE (R288). -/
  | shardUpdate (d : Fin 8) (q : Fin 2048)
  /-- BARRIER (R289). -/
  | barrier (d : Fin 8) (q : Fin 2048)
  /-- MEMBER_SWAP (R295). -/
  | memberSwap (d : Fin 8) (q : Fin 2048)
  /-- GROUP_SET (R292). -/
  | groupSet (d : Fin 8) (q : Fin 2048)
  /-- GROUP_FREE (R277). -/
  | groupFree (d : Fin 8) (q : Fin 2048)
  /-- CARAVAN_ROOT (R297). -/
  | caravanRoot (d : Fin 8) (q : Fin 2048)
  /-- CARAVAN_NODE (R298). -/
  | caravanNode (d : Fin 8) (q : Fin 2048)
  /-- LAUNCH (R281). -/
  | launch (c : Cfh) (payload : List Byte)
  /-- CONTRIBUTION_RX (R282). -/
  | contributionRx (c : Cfh) (payload : List Byte)
  /-- PARTIAL_RX (R284). -/
  | partialRx (c : Cfh) (payload : List Byte)
  /-- RESULT_RX (R287). -/
  | resultRx (c : Cfh) (payload : List Byte)
  /-- RECEIPT (R289). -/
  | receipt (c : Cfh) (payload : List Byte)
  /-- RACK (R289). -/
  | rack (c : Cfh) (payload : List Byte)
  /-- READY (R289). -/
  | ready (c : Cfh) (payload : List Byte)
  /-- COMMIT (R289). -/
  | commit (c : Cfh) (payload : List Byte)
  /-- ABORT_REQ (R291). -/
  | abortReq (c : Cfh) (payload : List Byte)
  /-- COLL_ABORT (R291). -/
  | collAbort (c : Cfh) (payload : List Byte)
  /-- SWAP (R295). -/
  | swap (grp : BitVec 16)
  /-- COMMIT_DEADLINE (R290). -/
  | commitDeadline (grp : BitVec 16) (step : Word)
  /-- COMMIT_GRACE_EXPIRY (R290). -/
  | commitGraceExpiry (grp : BitVec 16) (step : Word)
  /-- ABORT_REQ_GRACE_EXPIRY (R291). -/
  | abortReqGraceExpiry (grp : BitVec 16) (step : Word)
  /-- CARAVAN_FETCH (R297). -/
  | caravanFetch (tid : BitVec 16)
  /-- CARAVAN_DATA (R298). -/
  | caravanData (c : Cfh) (payload : List Byte)
  /-- CARAVAN_HEARTBEAT_SEND (R299). -/
  | caravanHeartbeatSend (tid : BitVec 16)
  /-- CARAVAN_HEARTBEAT (R299). -/
  | caravanHeartbeat (c : Cfh) (payload : List Byte)
  /-- CARAVAN_ACK (R299). -/
  | caravanAck (c : Cfh) (payload : List Byte)
  /-- CARAVAN_NACK (R298). -/
  | caravanNack (c : Cfh) (payload : List Byte)
  /-- CARAVAN_ATTACH (R299). -/
  | caravanAttach (c : Cfh) (payload : List Byte)
  /-- CARAVAN_DONE (R300). -/
  | caravanDone (c : Cfh) (payload : List Byte)
  /-- PARENT_SILENCE (R299). -/
  | parentSilence (tid : BitVec 16)
  /-- CARAVAN_DEADLINE (R300). -/
  | caravanDeadline (tid : BitVec 16)
  /-- SWEEP_DONE (R308). -/
  | sweepDone (l : Fin 2048) (rx : Bool) (found : Option Nat)
  /-- IDENTITY_VERIFY (R307). -/
  | identityVerify (l : Fin 2048) (rx : Bool) (ident : Option (BitVec 8 × BitVec 16))
  /-- LANE_FAILED_RETRY (R307). -/
  | laneFailedRetry (l : Fin 2048) (rx : Bool)
  /-- PILOT_IDENTITY_RX (R311). -/
  | pilotIdentityRx (l : Fin 2048) (chan : BitVec 8) (ident : BitVec 16)
  /-- LANE_LOCK_LOST (R311). -/
  | laneLockLost (l : Fin 2048) (rx : Bool)
  /-- TELEMETRY_REPORT (R312). -/
  | telemetryReport (l : Fin 2048) (r : PeerReport)
  /-- TELEMETRY_LOST (R313). -/
  | telemetryLost (l : Fin 2048)
  /-- SPARE_WARM_DONE (R314). -/
  | spareWarmDone (t : Fin 64) (sp : Fin 4)
  /-- SPARE_TUNE_DONE (R314). -/
  | spareTuneDone (t : Fin 64) (sp : Fin 4)
  /-- SPARE_LOCK_DONE (R314). -/
  | spareLockDone (t : Fin 64) (sp : Fin 4)
  /-- SPARE_VERIFY_DONE (R314). -/
  | spareVerifyDone (t : Fin 64) (sp : Fin 4) (ok : Bool)
  /-- SPARE_DRIFT (R314). -/
  | spareDrift (t : Fin 64) (sp : Fin 4)
  /-- SWAP_EXECUTE (R315). -/
  | swapExecute (l : Fin 2048)
  /-- LASER_LOST (R317). -/
  | laserLost (l : Fin 2048)
  /-- SWAP_REQUEST (R314). -/
  | swapRequest (t : Fin 64) (v : Word)
  /-- BYPASS_REQUEST (R322). -/
  | bypassRequest (dir : Fin 6) (target : BitVec 24) (width : Fin 256)
  /-- PATH_RESERVE (R323). -/
  | pathReserve (m : PathMsg)
  /-- PATH_RESERVED (R323). -/
  | pathReserved (m : PathMsg)
  /-- PATH_DENY (R323). -/
  | pathDeny (m : PathMsg)
  /-- PATH_ARM (R320). -/
  | pathArm (m : PathMsg)
  /-- PATH_ARMED (R323). -/
  | pathArmed (m : PathMsg) (sender : BitVec 24)
  /-- PATH_ARM_DEADLINE (R323). -/
  | pathArmDeadline (pid : BitVec 16)
  /-- PATH_CANCEL (R323). -/
  | pathCancel (m : PathMsg)
  /-- PATH_RESERVE_EXPIRY (R323). -/
  | pathReserveExpiry (origin : BitVec 24) (pid : BitVec 16)
  /-- PATH_RELEASE (R325). -/
  | pathRelease (m : PathMsg)
  /-- PATH_RELEASE_START (R325). -/
  | pathReleaseStart (pid : BitVec 16)
  /-- CROSS_CONNECT_CHANGE (R319). -/
  | crossConnectChange (t : Fin 64) (slot : Fin 32)
  /-- PATH_LANE_START (R324). -/
  | pathLaneStart (origin : BitVec 24) (pid : BitVec 16)
  /-- FIBRE_PROBE (R326). -/
  | fibreProbe (t : Fin 64) (f : Fin 4) (peer : Bool)
  /-- PEER_PILOT_SEEN (R326). -/
  | peerPilotSeen (t : Fin 64) (f : Fin 4) (power : BitVec 16)
  /-- PROBE_TIMEOUT (R326). -/
  | probeTimeout (t : Fin 64) (f : Fin 4)
  /-- HOLD_DONE (R326). -/
  | holdDone (t : Fin 64) (f : Fin 4) (power : BitVec 16)
  /-- LOSS_OF_PILOT (R327). -/
  | lossOfPilot (t : Fin 64) (f : Fin 4) (power : BitVec 16)
  /-- SIROCCO_START (R330). -/
  | siroccoStart (t : Fin 64) (v : Word)
  /-- SIROCCO_ABORT (R332). -/
  | siroccoAbort (t : Fin 64) (v : Word)
  /-- SIROCCO_RUN_DONE (R332). -/
  | siroccoRunDone (t : Fin 64) (vals : List Word)
  /-- CHK_UNIT_START (R338). -/
  | chkUnitStart (d : Fin 8) (u : Fin 64) (v : Word)
  /-- CHK_UNIT_DONE (R338). -/
  | chkUnitDone (d : Fin 8) (u : Fin 64) (bad : Bool)
  /-- CHK_UNIT_STOP (R338). -/
  | chkUnitStop (d : Fin 8) (u : Fin 64) (v : Word)
  /-- RESEND (R341). -/
  | resend (c : Cfh) (payload : List Byte)
  /-- RESEND_TIMEOUT (R341). -/
  | resendTimeout (grp : BitVec 16) (step : Word) (rank chunk : BitVec 24)
  /-- AUDIT_DONE (R345). -/
  | auditDone (grp : BitVec 16) (step : Word) (chunk : BitVec 24) (g2 : Fin 4096) (second : BitVec 64) (third : Option (BitVec 64))
  /-- HOLD_EXPIRY (R347). -/
  | holdExpiry (grp : BitVec 16) (step : Word)
  /-- RETRACT_REQUEST (R350). -/
  | retractRequest (c : Cfh) (payload : List Byte)
  /-- RETRACT (R351). -/
  | retract (c : Cfh) (payload : List Byte)
  /-- REPLAY_RESERVE_FAIL (R351). -/
  | replayReserveFail (grp : BitVec 16) (step : Word)
  /-- MARGIN_START (R355). -/
  | marginStart (d : Fin 8) (v : Word)
  /-- MARGIN_TEMP_REACHED (R355). -/
  | marginTempReached (d : Fin 8)
  /-- MARGIN_COLD_TIMEOUT (R355). -/
  | marginColdTimeout (d : Fin 8)
  /-- MARGIN_DONE (R356). -/
  | marginDone (d : Fin 8) (r : MarginRes)
  /-- MARGIN_STOP (R356). -/
  | marginStop (d : Fin 8) (v : Word)
  /-- QUARANTINE_RELEASE (R357). -/
  | quarantineRelease (d : Fin 8) (v : Word)
  /-- OWNERSHIP_TRANSFER (R363). -/
  | ownershipTransfer (v : Word) (chk : TransferCheck)
  /-- KEY_PACKAGE (R364). -/
  | keyPackage (v : Word) (chk : PackageCheck)
  /-- DEBUG_TOKEN (R376). -/
  | debugToken (v : Word) (sigOk : Bool)
  /-- DEBUG_TOKEN_EXPIRY (R376). -/
  | debugTokenExpiry
  /-- DBG_CLOSE (R376). -/
  | dbgClose (v : Word)
  /-- ATTEST (R377). -/
  | attest (v : Word)
  /-- HELLO (R366). -/
  | hello (port : Fin 4096) (m : HelloMsg)
  /-- CERT (R367). -/
  | cert (port : Fin 4096) (m : CertMsg)
  /-- FINISH (R368). -/
  | finish (port : Fin 4096) (sigOk wellFormed : Bool)
  /-- REFUSE (R367). -/
  | refuse (port : Fin 4096) (reason : Fin 256)
  /-- HANDSHAKE_TIMEOUT (R367). -/
  | handshakeTimeout (port : Fin 4096)
  /-- REFUSED_RETRY (R367). -/
  | refusedRetry (port : Fin 4096)
  /-- FRAME_CLOSE (R369). -/
  | frameClose (port : Fin 4096)
  /-- LINK_SEAL (R370). -/
  | linkSeal (port : Fin 4096) (m : SealMsg)
  /-- SEAL_MISSING (R370). -/
  | sealMissing (port : Fin 4096)
  /-- REKEY (R371). -/
  | rekey (port : Fin 4096) (able : Bool)
  /-- TRIAD_DISAGREE (R382). -/
  | triadDisagree (a b c : Option Word)
  /-- TRIAD_REJOIN (R382). -/
  | triadRejoin (selfTestOk : Bool)
  /-- TRIAD_PROBATION_END (R382). -/
  | triadProbationEnd
  /-- HELD_BEACON_SEND (R393). -/
  | heldBeaconSend
  /-- HELD_BEACON (R393). -/
  | heldBeacon (port : Fin 4096) (payload : List Byte)
  /-- HELD_BEACON_ABSENCE (R393). -/
  | heldBeaconAbsence (port : Fin 4096)
  /-- FN_ENABLE (R385). -/
  | fnEnable (v : Word)
  /-- FN_DISABLE_DRAIN (R384). -/
  | fnDisableDrain (v : Word)
  /-- FN_DISABLE_IMMEDIATE (R384). -/
  | fnDisableImmediate (v : Word)
  /-- DRAIN_TIMEOUT (R385). -/
  | drainTimeout
  /-- ORDER_SUBMIT (R388). -/
  | orderSubmit (v : Word) (verdicts : List (Bool × Bool))
  /-- ORDER_SEGMENT_RX (R387). -/
  | orderSegmentRx (seg : List Byte) (verdicts : List (Bool × Bool))
  /-- EXPEL (R389). -/
  | expel
  /-- UNEXPEL (R389). -/
  | unexpel
  /-- FENCE (R390). -/
  | fence
  /-- UNFENCE (R391). -/
  | unfence
  /-- PROMOTE (R396). -/
  | promote
  /-- TWIN_SHADOW_RX (R396). -/
  | twinShadowRx (port : Fin 4096) (item : TwinItem)
  /-- PWR_TELEMETRY_UPDATE (R406). -/
  | pwrTelemetryUpdate (r : PwrReadings)
  /-- PWR_PEAK_READ (R406). -/
  | pwrPeakRead
  /-- PEER_PILOT_LOST (R326). -/
  | peerPilotLost (t : Fin 64) (f : Fin 4)
  /-- LPM_OLD_SPACE_FREE (R146). -/
  | lpmOldSpaceFree
  /-- BYPASS_RELEASE (R325). -/
  | bypassRelease (dir : Fin 6)
  /-- NEIGHBOUR_ADVERTISEMENT_RX (R86). -/
  | neighbourAdvertisementRx (p : Fin 2) (v6 : Bool) (ip : BitVec 128) (mac : BitVec 48)
  /-- TRIAD_IN_LOCK_STEP (R68). -/
  | triadInLockStep
  deriving DecidableEq, Repr

end Sys2Proof
end

