-- ==== Sys2Proof/Config.lean ====
section
/-! DEFINITION. What the spec leaves open: constants without a body, of which nothing can be proved. Each is applied
to the counter `free` of State, or to the operands it depends on. -/
namespace Sys2Proof

/-- A value the spec leaves open, one for each index (log 5). -/
opaque Config.free : Nat → Nat

/-- The generator of a dune's WRED draws (R121): the draw after each index, by dune. -/
opaque Config.wredDraw : Nat → Nat → Nat

/-- A temperature sensor's reading, in 0.01 °C, at each index (R85). -/
opaque Config.sensor : Nat → Nat → Nat

/-- AES-256-GCM of a mirror record (R130, R374): byte `i` of the ciphertext and tag behind the clear head, by hall partition, JOB, epoch
of the mirror key, index of the IV, record and `i` (log 21). -/
opaque Config.mirrorByte : Nat → Nat → Nat → Nat → List Byte → Nat → Byte

/-- AES-256-GCM of a link (R369): byte `i` of the ciphertext of a packet's cells, by the link's nonce, epoch, frame, cells sent in the
frame before it, plaintext and `i` (log 21). -/
opaque Config.linkByte : Nat → Nat → Nat → Nat → List Byte → Nat → Byte

/-- The frequency correction that the servo holds after it has slewed an offset, from the offset and the correction before: the gains of
its proportional-integral part are not stated (R193). -/
opaque Config.servoFreq : Int → Int → Int

/-- The frequency correction by which a qualified 10 MHz reference disciplines the counter (R199). -/
opaque Config.refFreq : Nat → Int

/-- SHA-384 of a byte string, as a number (FIPS 180-4; the model does not compute it, log 21). -/
opaque Config.sha384 : List Byte → Nat

/-- The signature record by the device identity key over a report (R377; the key never leaves the root of trust). -/
opaque Config.dikSign : List Byte → List Byte

/-- Public shares of a key agreement, fresh at each index (R366; their private halves never leave the root of trust). -/
opaque Config.keyShare : Nat → List Byte

/-- AES-256-GCM of a register session's frame with its seal (R369, R380): by epoch, frame number and plaintext. -/
opaque Config.sessionCipher : Nat → Nat → List Byte → List Byte

/-- The payload of the NaN that a vector operation makes, by its operands (R228: not stated, log 5). -/
opaque Config.nanPayload : Nat → Nat → Nat → Nat

/-- What a scalar or vector instruction gives where the spec states no result (a reserved mode, a NaN among the lanes), by
opcode and operands (log 5). -/
opaque Config.vecFree : Nat → Nat → Nat → Nat

/-- What a kernel command leaves in bytes of its output or workspace that no rule fills (the rest of a TOPK list, rows that no token
takes, partial results), at each place: a function of the kernel with its parameters and of its input bytes alone (R227, R267). -/
opaque Config.fillByte : List Nat → List Byte → Nat → Byte

end Sys2Proof
end

