-- ==== Sys2Proof/Machine/RegMap.lean ====
section
/-! DEFINITION. The register map: every register of the BAR0 window with its address, its instances, the access
of its bits and its reset value, from the register tables of spec/00 to spec/17 (R13, R14, R81). A register's name
here is its name there; the place of a field is named `F.<REGISTER>_<FIELD>`. -/
namespace Sys2Proof.Machine

/-- The place of a field in a 32-bit register, [hi:lo] as R13 writes it. -/
structure BitRange where
  hi : Nat
  lo : Nat
  deriving DecidableEq, Repr

/-- One register of the map: the byte address of its first instance, the instances as (count, stride) pairs from
the widest stride down, the masks of its RW, RWL, W1C and WO bits (every other bit is RO), and its reset value. -/
structure RegRow where
  base : Nat
  dims : List (Nat × Nat)
  rw : Nat
  rwl : Nat
  w1c : Nat
  wo : Nat
  reset : Nat
  deriving DecidableEq, Repr

/-! ## Addresses (R81) -/

namespace Reg

/-- IMG_STATUS of Table 2.15. -/
def IMG_STATUS : Nat := 0x10008
/-- IMG_ERR of Table 2.15. -/
def IMG_ERR : Nat := 0x10020
/-- PLT_TRIM_SEL of Table 3.7. -/
def PLT_TRIM_SEL : Nat := 0xA00
/-- PLT_TRIM_USER of Table 3.7. -/
def PLT_TRIM_USER : Nat := 0xA04
/-- PLT_TRIM_FACTORY of Table 3.7. -/
def PLT_TRIM_FACTORY : Nat := 0xA08
/-- PLT_TRIM_EFF of Table 3.7. -/
def PLT_TRIM_EFF : Nat := 0xA0C
/-- PLT_RESET_CTRL of Table 3.9. -/
def PLT_RESET_CTRL : Nat := 0xB00
/-- PLT_RESET_CAUSE of Table 3.9. -/
def PLT_RESET_CAUSE : Nat := 0xB04
/-- HIF_MP_CFG of Table 4.15. -/
def HIF_MP_CFG (i : Nat) : Nat := 0x20100 + i * 0x40
/-- HIF_MP_V4 of Table 4.15. -/
def HIF_MP_V4 (i : Nat) : Nat := 0x20104 + i * 0x40
/-- HIF_MP_V4_PLEN of Table 4.15. -/
def HIF_MP_V4_PLEN (i : Nat) : Nat := 0x20108 + i * 0x40
/-- HIF_MP_GW4 of Table 4.15. -/
def HIF_MP_GW4 (i : Nat) : Nat := 0x2010C + i * 0x40
/-- HIF_MP_V6 of Table 4.15. -/
def HIF_MP_V6 (i j : Nat) : Nat := 0x20110 + i * 0x40 + j * 0x4
/-- HIF_MP_V6_PLEN of Table 4.15. -/
def HIF_MP_V6_PLEN (i : Nat) : Nat := 0x20120 + i * 0x40
/-- HIF_MP_GW6 of Table 4.15. -/
def HIF_MP_GW6 (i j : Nat) : Nat := 0x20124 + i * 0x40 + j * 0x4
/-- HIF_MP_MAC_HI of Table 4.15. -/
def HIF_MP_MAC_HI (i : Nat) : Nat := 0x20134 + i * 0x40
/-- HIF_MP_MAC_LO of Table 4.15. -/
def HIF_MP_MAC_LO (i : Nat) : Nat := 0x20138 + i * 0x40
/-- HIF_MP_DISCARD of Table 4.15. -/
def HIF_MP_DISCARD (i : Nat) : Nat := 0x2013C + i * 0x40
/-- HIF_FSR_EXP of Table 4.16. -/
def HIF_FSR_EXP : Nat := 0x20200
/-- HIF_FSR_DST of Table 4.16. -/
def HIF_FSR_DST (i : Nat) : Nat := 0x20204 + i * 0x4
/-- HIF_FSR_SENT of Table 4.16. -/
def HIF_FSR_SENT : Nat := 0x20214
/-- HIF_CQ_JOB of Table 4.5. -/
def HIF_CQ_JOB (i j : Nat) : Nat := 0x2360004 + i * 0x400000 + j * 0x20
/-- HIF_CQ_WAIT_TMO of Table 4.5. -/
def HIF_CQ_WAIT_TMO (i j : Nat) : Nat := 0x2360008 + i * 0x400000 + j * 0x20
/-- HIF_CQ_STATUS of Table 4.5. -/
def HIF_CQ_STATUS (i j : Nat) : Nat := 0x236000C + i * 0x400000 + j * 0x20
/-- HIF_CQ_DROP of Table 4.5. -/
def HIF_CQ_DROP (i j : Nat) : Nat := 0x2360010 + i * 0x400000 + j * 0x20
/-- HIF_CNQ_BASE_LO of Table 4.13. -/
def HIF_CNQ_BASE_LO (i j : Nat) : Nat := 0x2370004 + i * 0x400000 + j * 0x20
/-- HIF_CNQ_BASE_HI of Table 4.13. -/
def HIF_CNQ_BASE_HI (i j : Nat) : Nat := 0x2370008 + i * 0x400000 + j * 0x20
/-- HIF_CNQ_HEAD of Table 4.13. -/
def HIF_CNQ_HEAD (i j : Nat) : Nat := 0x237000C + i * 0x400000 + j * 0x20
/-- HIF_CNQ_TAIL of Table 4.13. -/
def HIF_CNQ_TAIL (i j : Nat) : Nat := 0x2370010 + i * 0x400000 + j * 0x20
/-- HIF_CNQ_TMO of Table 4.13. -/
def HIF_CNQ_TMO (i j : Nat) : Nat := 0x2370014 + i * 0x400000 + j * 0x20
/-- HIF_CNQ_CTRL of Table 4.13. -/
def HIF_CNQ_CTRL (i j : Nat) : Nat := 0x2370018 + i * 0x400000 + j * 0x20
/-- HIF_CNQ_DROPS of Table 4.13. -/
def HIF_CNQ_DROPS (i j : Nat) : Nat := 0x237001C + i * 0x400000 + j * 0x20
/-- HIF_ERR of Table 4.14. -/
def HIF_ERR : Nat := 0x20000
/-- HIF_DB_DENIED of Table 4.14. -/
def HIF_DB_DENIED : Nat := 0x20004
/-- HIF_APERTURE_BAD of Table 4.14. -/
def HIF_APERTURE_BAD : Nat := 0x20008
/-- HIF_OFFLINE_CNT of Table 4.14. -/
def HIF_OFFLINE_CNT : Nat := 0x2000C
/-- SWC_POOL_MAX of Table 5.6. -/
def SWC_POOL_MAX (i j k : Nat) : Nat := 0x2001000 + i * 0x400000 + j * 0x40 + k * 0x8
/-- SWC_POOL_BUDGET of Table 5.6. -/
def SWC_POOL_BUDGET (i j k : Nat) : Nat := 0x2001004 + i * 0x400000 + j * 0x40 + k * 0x8
/-- SWC_POOL_STATUS of Table 5.6. -/
def SWC_POOL_STATUS (i j k : Nat) : Nat := 0x2001800 + i * 0x400000 + j * 0x40 + k * 0x8
/-- SWC_POOL_XOFF of Table 5.6. -/
def SWC_POOL_XOFF (i j k : Nat) : Nat := 0x2001804 + i * 0x400000 + j * 0x40 + k * 0x8
/-- SWC_OCC of Table 5.7. -/
def SWC_OCC (i : Nat) : Nat := 0x2000010 + i * 0x400000
/-- SWC_SPILL_HWM of Table 5.7. -/
def SWC_SPILL_HWM (i : Nat) : Nat := 0x2000020 + i * 0x400000
/-- SWC_SPILL_LWM of Table 5.7. -/
def SWC_SPILL_LWM (i : Nat) : Nat := 0x200002C + i * 0x400000
/-- SWC_EVT of Table 5.7. -/
def SWC_EVT (i : Nat) : Nat := 0x2000024 + i * 0x400000
/-- SWC_NOTIFY of Table 5.7. -/
def SWC_NOTIFY (i : Nat) : Nat := 0x2000028 + i * 0x400000
/-- SWC_SPILL_QUOTA of Table 5.7. -/
def SWC_SPILL_QUOTA (i j : Nat) : Nat := 0x2001400 + i * 0x400000 + j * 0x4
/-- FWD_CFG of Table 6.8. -/
def FWD_CFG : Nat := 0x2100000
/-- FWD_ETH_CFG of Table 6.8. -/
def FWD_ETH_CFG : Nat := 0x2100004
/-- FWD_STATUS of Table 6.8. -/
def FWD_STATUS (i : Nat) : Nat := 0x2100008 + i * 0x400000
/-- FWD_UPD_SEQ of Table 6.8. -/
def FWD_UPD_SEQ (i : Nat) : Nat := 0x210000C + i * 0x400000
/-- FWD_EVT of Table 6.8. -/
def FWD_EVT (i : Nat) : Nat := 0x2100010 + i * 0x400000
/-- FWD_NOTIFY of Table 6.8. -/
def FWD_NOTIFY (i : Nat) : Nat := 0x2100014 + i * 0x400000
/-- FWD_SCRUB of Table 6.8. -/
def FWD_SCRUB (i : Nat) : Nat := 0x2100018 + i * 0x400000
/-- FWD_OCC_EM of Table 6.8. -/
def FWD_OCC_EM (i : Nat) : Nat := 0x2100020 + i * 0x400000
/-- FWD_OCC_LPM of Table 6.8. -/
def FWD_OCC_LPM (i : Nat) : Nat := 0x2100024 + i * 0x400000
/-- FWD_OCC_NH of Table 6.8. -/
def FWD_OCC_NH (i : Nat) : Nat := 0x2100028 + i * 0x400000
/-- FWD_UPD_DATA of Table 6.9. -/
def FWD_UPD_DATA (i : Nat) : Nat := 0x2100100 + i * 0x4
/-- FWD_UPD_CTRL of Table 6.9. -/
def FWD_UPD_CTRL : Nat := 0x2100130
/-- FWD_OWNER of Table 6.9. -/
def FWD_OWNER (i : Nat) : Nat := 0x2100180 + i * 0x4
/-- FWD_RMAC_LO of Table 6.9. -/
def FWD_RMAC_LO (i : Nat) : Nat := 0x2100200 + i * 0x10
/-- FWD_RMAC_HI of Table 6.9. -/
def FWD_RMAC_HI (i : Nat) : Nat := 0x2100204 + i * 0x10
/-- FWD_LPM_DEF of Table 6.9. -/
def FWD_LPM_DEF (i : Nat) : Nat := 0x2100208 + i * 0x10
/-- RTE_CFG of Table 7.7. -/
def RTE_CFG : Nat := 0x2180000
/-- RTE_WADI_RSV of Table 7.7. -/
def RTE_WADI_RSV : Nat := 0x2180004
/-- RTE_STATUS of Table 7.7. -/
def RTE_STATUS : Nat := 0x2180008
/-- RTE_FLIP_SEC of Table 7.7. -/
def RTE_FLIP_SEC (i : Nat) : Nat := 0x2180010 + i * 0x4
/-- RTE_FLIP_NS of Table 7.7. -/
def RTE_FLIP_NS : Nat := 0x2180018
/-- RTE_FLIP_CTRL of Table 7.7. -/
def RTE_FLIP_CTRL : Nat := 0x218001C
/-- RTE_FLIP_DIG of Table 7.7. -/
def RTE_FLIP_DIG (i : Nat) : Nat := 0x2180020 + i * 0x4
/-- RTE_VER_DIG of Table 7.7. -/
def RTE_VER_DIG (i : Nat) : Nat := 0x2180028 + i * 0x4
/-- RTE_THROTTLE of Table 7.7. -/
def RTE_THROTTLE : Nat := 0x2180040
/-- RTE_SAT of Table 7.7. -/
def RTE_SAT : Nat := 0x2180044
/-- RTE_RSQ_HOLD of Table 7.7. -/
def RTE_RSQ_HOLD : Nat := 0x2180048
/-- RTE_EVT of Table 7.8. -/
def RTE_EVT : Nat := 0x2180030
/-- RTE_NOTIFY of Table 7.8. -/
def RTE_NOTIFY : Nat := 0x2180034
/-- RTE_TBL_SEL of Table 7.9. -/
def RTE_TBL_SEL : Nat := 0x2180100
/-- RTE_TBL_DATA of Table 7.9. -/
def RTE_TBL_DATA : Nat := 0x2180104
/-- RTE_DIR_LOAD of Table 7.9. -/
def RTE_DIR_LOAD (i : Nat) : Nat := 0x2180180 + i * 0x4
/-- RTE_AXIS_LOAD of Table 7.9. -/
def RTE_AXIS_LOAD (i : Nat) : Nat := 0x21801A0 + i * 0x4
/-- RTE_WADI_PORT of Table 7.9. -/
def RTE_WADI_PORT (i : Nat) : Nat := 0x21801C0 + i * 0x4
/-- TIM_CTRL of Table 8.4. -/
def TIM_CTRL : Nat := 0x40000
/-- TIM_STATUS of Table 8.4. -/
def TIM_STATUS : Nat := 0x40004
/-- TIM_CFG of Table 8.4. -/
def TIM_CFG : Nat := 0x40008
/-- TIM_STEP_TH of Table 8.4. -/
def TIM_STEP_TH : Nat := 0x4000C
/-- TIM_NOW_SEC of Table 8.4. -/
def TIM_NOW_SEC (i : Nat) : Nat := 0x40010 + i * 0x4
/-- TIM_NOW_NS of Table 8.4. -/
def TIM_NOW_NS : Nat := 0x40018
/-- TIM_NOW_FRAC of Table 8.4. -/
def TIM_NOW_FRAC : Nat := 0x4001C
/-- TIM_OFFSET of Table 8.4. -/
def TIM_OFFSET : Nat := 0x40020
/-- TIM_REF_OFS of Table 8.4. -/
def TIM_REF_OFS (i : Nat) : Nat := 0x40024 + i * 0x4
/-- TIM_HOLD_ERR of Table 8.4. -/
def TIM_HOLD_ERR : Nat := 0x4002C
/-- TIM_EVT of Table 8.4. -/
def TIM_EVT : Nat := 0x40030
/-- TIM_NOTIFY of Table 8.4. -/
def TIM_NOTIFY : Nat := 0x40034
/-- TIM_UTC_OFS of Table 8.4. -/
def TIM_UTC_OFS : Nat := 0x40038
/-- TIM_CNT_REFUSED of Table 8.4. -/
def TIM_CNT_REFUSED : Nat := 0x4003C
/-- TIM_HOLD_CFG of Table 8.5. -/
def TIM_HOLD_CFG : Nat := 0x40040
/-- TIM_PPS_CFG of Table 8.5. -/
def TIM_PPS_CFG : Nat := 0x40050
/-- TIM_PPS_TOD of Table 8.5. -/
def TIM_PPS_TOD (i : Nat) : Nat := 0x40054 + i * 0x4
/-- TIM_PPS_IN_SEC of Table 8.5. -/
def TIM_PPS_IN_SEC (i : Nat) : Nat := 0x40060 + i * 0x4
/-- TIM_PPS_IN_NS of Table 8.5. -/
def TIM_PPS_IN_NS : Nat := 0x40068
/-- TIM_PPS_IN_FRAC of Table 8.5. -/
def TIM_PPS_IN_FRAC : Nat := 0x4006C
/-- TIM_REF_CFG of Table 8.5. -/
def TIM_REF_CFG : Nat := 0x40070
/-- TIM_MPORT of Table 8.5. -/
def TIM_MPORT (i : Nat) : Nat := 0x40F00 + i * 0x4
/-- TIM_PORT of Table 8.5. -/
def TIM_PORT (i : Nat) : Nat := 0x41000 + i * 0x4
/-- SCH_PG_CTRL of Table 9.5. -/
def SCH_PG_CTRL (i j : Nat) : Nat := 0x2200100 + i * 0x400000 + j * 0x40
/-- SCH_PG_STATUS of Table 9.5. -/
def SCH_PG_STATUS (i j : Nat) : Nat := 0x2200104 + i * 0x400000 + j * 0x40
/-- SCH_PG_CYCLE of Table 9.5. -/
def SCH_PG_CYCLE (i j : Nat) : Nat := 0x2200108 + i * 0x400000 + j * 0x40
/-- SCH_PG_COUNT of Table 9.5. -/
def SCH_PG_COUNT (i j : Nat) : Nat := 0x220010C + i * 0x400000 + j * 0x40
/-- SCH_PG_BASE_SEC of Table 9.5. -/
def SCH_PG_BASE_SEC (i j k : Nat) : Nat := 0x2200110 + i * 0x400000 + j * 0x40 + k * 0x4
/-- SCH_PG_BASE_NS of Table 9.5. -/
def SCH_PG_BASE_NS (i j : Nat) : Nat := 0x2200118 + i * 0x400000 + j * 0x40
/-- SCH_PG_GUARD_SEC of Table 9.5. -/
def SCH_PG_GUARD_SEC (i j : Nat) : Nat := 0x220011C + i * 0x400000 + j * 0x40
/-- SCH_PG_GUARD_NS of Table 9.5. -/
def SCH_PG_GUARD_NS (i j : Nat) : Nat := 0x2200120 + i * 0x400000 + j * 0x40
/-- SCH_PG_GUARD_LEN of Table 9.5. -/
def SCH_PG_GUARD_LEN (i j : Nat) : Nat := 0x2200124 + i * 0x400000 + j * 0x40
/-- SCH_PG_CYCNT of Table 9.5. -/
def SCH_PG_CYCNT (i j : Nat) : Nat := 0x2200128 + i * 0x400000 + j * 0x40
/-- SCH_EVT of Table 9.6. -/
def SCH_EVT (i : Nat) : Nat := 0x2200000 + i * 0x400000
/-- SCH_NOTIFY of Table 9.6. -/
def SCH_NOTIFY (i : Nat) : Nat := 0x2200004 + i * 0x400000
/-- SCH_GL_SEL of Table 9.6. -/
def SCH_GL_SEL (i : Nat) : Nat := 0x2200010 + i * 0x400000
/-- SCH_GL_DATA_HI of Table 9.6. -/
def SCH_GL_DATA_HI (i : Nat) : Nat := 0x2200014 + i * 0x400000
/-- SCH_GL_DATA_LO of Table 9.6. -/
def SCH_GL_DATA_LO (i : Nat) : Nat := 0x2200018 + i * 0x400000
/-- SCH_SHP_RATE of Table 9.7. -/
def SCH_SHP_RATE (i j k : Nat) : Nat := 0x2210000 + i * 0x400000 + j * 0x80 + k * 0x10
/-- SCH_SHP_BURST of Table 9.7. -/
def SCH_SHP_BURST (i j k : Nat) : Nat := 0x2210004 + i * 0x400000 + j * 0x80 + k * 0x10
/-- SCH_SHP_TOKENS of Table 9.7. -/
def SCH_SHP_TOKENS (i j k : Nat) : Nat := 0x2210008 + i * 0x400000 + j * 0x80 + k * 0x10
/-- SCH_PORT_PRIO of Table 9.7. -/
def SCH_PORT_PRIO (i j : Nat) : Nat := 0x2220000 + i * 0x400000 + j * 0x8
/-- SCH_PORT_CW of Table 9.7. -/
def SCH_PORT_CW (i j : Nat) : Nat := 0x2220004 + i * 0x400000 + j * 0x8
/-- SCH_QW of Table 9.7. -/
def SCH_QW (i j : Nat) : Nat := 0x2230000 + i * 0x400000 + j * 0x4
/-- BRC_CFG of Table 10.11. -/
def BRC_CFG (i : Nat) : Nat := 0x2280000 + i * 0x400000
/-- BRC_EVT of Table 10.11. -/
def BRC_EVT (i : Nat) : Nat := 0x2280004 + i * 0x400000
/-- BRC_NOTIFY of Table 10.11. -/
def BRC_NOTIFY (i : Nat) : Nat := 0x2280008 + i * 0x400000
/-- BRC_UCODE of Table 10.11. -/
def BRC_UCODE (i : Nat) : Nat := 0x228000C + i * 0x400000
/-- BRC_DIS_CTRL of Table 10.11. -/
def BRC_DIS_CTRL (i : Nat) : Nat := 0x2280010 + i * 0x400000
/-- BRC_DIS_STATUS of Table 10.11. -/
def BRC_DIS_STATUS (i : Nat) : Nat := 0x2280014 + i * 0x400000
/-- BRC_FAULT0 of Table 10.11. -/
def BRC_FAULT0 (i : Nat) : Nat := 0x2280020 + i * 0x400000
/-- BRC_FAULT1 of Table 10.11. -/
def BRC_FAULT1 (i : Nat) : Nat := 0x2280024 + i * 0x400000
/-- BRC_FAULT2 of Table 10.11. -/
def BRC_FAULT2 (i : Nat) : Nat := 0x2280028 + i * 0x400000
/-- BRC_ENG_STATE of Table 10.12. -/
def BRC_ENG_STATE (i j : Nat) : Nat := 0x2281000 + i * 0x400000 + j * 0x4
/-- BRC_TQ of Table 10.12. -/
def BRC_TQ (i j : Nat) : Nat := 0x2282000 + i * 0x400000 + j * 0x4
/-- BRC_PACE of Table 10.12. -/
def BRC_PACE (i j : Nat) : Nat := 0x2282100 + i * 0x400000 + j * 0x4
/-- NUM_SEED_SEL of Table 11.9. -/
def NUM_SEED_SEL : Nat := 0x80000
/-- NUM_SEED_LO of Table 11.9. -/
def NUM_SEED_LO : Nat := 0x80004
/-- NUM_SEED_HI of Table 11.9. -/
def NUM_SEED_HI : Nat := 0x80008
/-- NUM_EVT of Table 11.9. -/
def NUM_EVT : Nat := 0x80010
/-- NUM_NOTIFY of Table 11.9. -/
def NUM_NOTIFY : Nat := 0x80014
/-- COL_CFG of Table 12.10. -/
def COL_CFG : Nat := 0x100000
/-- COL_STRAG of Table 12.10. -/
def COL_STRAG : Nat := 0x100004
/-- COL_EVT of Table 12.10. -/
def COL_EVT : Nat := 0x100008
/-- COL_NOTIFY of Table 12.10. -/
def COL_NOTIFY : Nat := 0x10000C
/-- COL_GRP_SEL of Table 12.10. -/
def COL_GRP_SEL : Nat := 0x100100
/-- COL_GRP_STATUS of Table 12.10. -/
def COL_GRP_STATUS : Nat := 0x100104
/-- COL_GRP_STEP of Table 12.10. -/
def COL_GRP_STEP : Nat := 0x100108
/-- COL_GRP_LOCAL of Table 12.10. -/
def COL_GRP_LOCAL : Nat := 0x10010C
/-- COL_GRP_STRAG of Table 12.10. -/
def COL_GRP_STRAG : Nat := 0x100110
/-- OPT_TILE_STATUS of Table 13.14. -/
def OPT_TILE_STATUS (i : Nat) : Nat := 0x800000 + i * 0x10000
/-- OPT_EVT of Table 13.14. -/
def OPT_EVT (i : Nat) : Nat := 0x800004 + i * 0x10000
/-- OPT_NOTIFY of Table 13.14. -/
def OPT_NOTIFY (i : Nat) : Nat := 0x800008 + i * 0x10000
/-- OPT_CFG of Table 13.14. -/
def OPT_CFG (i : Nat) : Nat := 0x80000C + i * 0x10000
/-- OPT_SWAP_CTRL of Table 13.14. -/
def OPT_SWAP_CTRL (i : Nat) : Nat := 0x800010 + i * 0x10000
/-- OPT_LANE_STATUS of Table 13.15. -/
def OPT_LANE_STATUS (i j : Nat) : Nat := 0x800100 + i * 0x10000 + j * 0x10
/-- OPT_LANE_PWR of Table 13.15. -/
def OPT_LANE_PWR (i j : Nat) : Nat := 0x800104 + i * 0x10000 + j * 0x10
/-- OPT_LANE_BIAS of Table 13.15. -/
def OPT_LANE_BIAS (i j : Nat) : Nat := 0x800108 + i * 0x10000 + j * 0x10
/-- OPT_LANE_PILOT of Table 13.15. -/
def OPT_LANE_PILOT (i j : Nat) : Nat := 0x80010C + i * 0x10000 + j * 0x10
/-- OPT_FIBRE of Table 13.15. -/
def OPT_FIBRE (i j : Nat) : Nat := 0x800300 + i * 0x10000 + j * 0x4
/-- OPT_SPARE of Table 13.15. -/
def OPT_SPARE (i j : Nat) : Nat := 0x800400 + i * 0x10000 + j * 0x4
/-- OPT_XC of Table 13.15. -/
def OPT_XC (i j : Nat) : Nat := 0x800500 + i * 0x10000 + j * 0x4
/-- OPT_SIR_CTRL of Table 13.16. -/
def OPT_SIR_CTRL (i : Nat) : Nat := 0x800600 + i * 0x10000
/-- OPT_SIR_CFG of Table 13.16. -/
def OPT_SIR_CFG (i : Nat) : Nat := 0x800604 + i * 0x10000
/-- OPT_SIR_RANGE of Table 13.16. -/
def OPT_SIR_RANGE (i : Nat) : Nat := 0x800608 + i * 0x10000
/-- OPT_SIR_STATUS of Table 13.16. -/
def OPT_SIR_STATUS (i : Nat) : Nat := 0x80060C + i * 0x10000
/-- OPT_SIR_RESULT of Table 13.16. -/
def OPT_SIR_RESULT (i j : Nat) : Nat := 0x808000 + i * 0x10000 + j * 0x4
/-- CHK_CFG of Table 14.4. -/
def CHK_CFG (i : Nat) : Nat := 0x2300000 + i * 0x400000
/-- CHK_HOLD of Table 14.4. -/
def CHK_HOLD (i : Nat) : Nat := 0x230000C + i * 0x400000
/-- CHK_EVT of Table 14.4. -/
def CHK_EVT (i : Nat) : Nat := 0x2300004 + i * 0x400000
/-- CHK_NOTIFY of Table 14.4. -/
def CHK_NOTIFY (i : Nat) : Nat := 0x2300008 + i * 0x400000
/-- CHK_QUAR_CTRL of Table 14.4. -/
def CHK_QUAR_CTRL (i : Nat) : Nat := 0x2300010 + i * 0x400000
/-- CHK_QUAR_STATUS of Table 14.4. -/
def CHK_QUAR_STATUS (i : Nat) : Nat := 0x2300014 + i * 0x400000
/-- CHK_MARGIN_CTRL of Table 14.5. -/
def CHK_MARGIN_CTRL (i : Nat) : Nat := 0x2300020 + i * 0x400000
/-- CHK_MARGIN_CFG of Table 14.5. -/
def CHK_MARGIN_CFG (i : Nat) : Nat := 0x2300024 + i * 0x400000
/-- CHK_MARGIN_STATUS of Table 14.5. -/
def CHK_MARGIN_STATUS (i : Nat) : Nat := 0x2300028 + i * 0x400000
/-- CHK_MARGIN_RES of Table 14.5. -/
def CHK_MARGIN_RES (i j : Nat) : Nat := 0x2300200 + i * 0x400000 + j * 0x4
/-- PLT_FSR_HEAD of Table 14.7. -/
def PLT_FSR_HEAD : Nat := 0xC00
/-- PLT_FSR_STATUS of Table 14.7. -/
def PLT_FSR_STATUS : Nat := 0xC04
/-- PLT_FSR_SEL of Table 14.7. -/
def PLT_FSR_SEL : Nat := 0xC08
/-- PLT_FSR_LEN of Table 14.7. -/
def PLT_FSR_LEN : Nat := 0xC0C
/-- PLT_FSR_DATA of Table 14.7. -/
def PLT_FSR_DATA (i : Nat) : Nat := 0x4000 + i * 0x4
/-- CHK_UNIT_CFG of Table 14.8. -/
def CHK_UNIT_CFG (i j : Nat) : Nat := 0x2304000 + i * 0x400000 + j * 0x80
/-- CHK_UNIT_QUEUE of Table 14.8. -/
def CHK_UNIT_QUEUE (i j : Nat) : Nat := 0x2304004 + i * 0x400000 + j * 0x80
/-- CHK_UNIT_PART of Table 14.8. -/
def CHK_UNIT_PART (i j : Nat) : Nat := 0x2304044 + i * 0x400000 + j * 0x80
/-- SEC_CTRL of Table 15.9. -/
def SEC_CTRL : Nat := 0x50000
/-- SEC_STATUS of Table 15.9. -/
def SEC_STATUS : Nat := 0x50004
/-- SEC_PKG_ADDR of Table 15.9. -/
def SEC_PKG_ADDR (i : Nat) : Nat := 0x50008 + i * 0x4
/-- SEC_PKG_LEN of Table 15.9. -/
def SEC_PKG_LEN : Nat := 0x50010
/-- SEC_EVT of Table 15.9. -/
def SEC_EVT : Nat := 0x50014
/-- SEC_NOTIFY of Table 15.9. -/
def SEC_NOTIFY : Nat := 0x50018
/-- SEC_DBG_NONCE of Table 15.9. -/
def SEC_DBG_NONCE (i : Nat) : Nat := 0x50020 + i * 0x4
/-- SEC_DBG_REMAIN of Table 15.9. -/
def SEC_DBG_REMAIN : Nat := 0x50040
/-- SEC_MIRROR_EPOCH of Table 15.9. -/
def SEC_MIRROR_EPOCH : Nat := 0x50044
/-- SEC_CERT_LEN of Table 15.9. -/
def SEC_CERT_LEN : Nat := 0x50048
/-- SEC_LOG_SEL of Table 15.9. -/
def SEC_LOG_SEL : Nat := 0x5004C
/-- SEC_ATT_NONCE of Table 15.9. -/
def SEC_ATT_NONCE (i : Nat) : Nat := 0x50060 + i * 0x4
/-- SEC_REPORT of Table 15.9. -/
def SEC_REPORT (i : Nat) : Nat := 0x51000 + i * 0x4
/-- SEC_CERTS of Table 15.9. -/
def SEC_CERTS (i : Nat) : Nat := 0x54000 + i * 0x4
/-- SEC_LOGWIN of Table 15.9. -/
def SEC_LOGWIN (i : Nat) : Nat := 0x58000 + i * 0x4
/-- SEC_LINK of Table 15.9. -/
def SEC_LINK (i : Nat) : Nat := 0x5C000 + i * 0x4
/-- MGT_TRIAD of Table 16.8. -/
def MGT_TRIAD : Nat := 0x60000
/-- MGT_EVT of Table 16.8. -/
def MGT_EVT : Nat := 0x60004
/-- MGT_NOTIFY of Table 16.8. -/
def MGT_NOTIFY : Nat := 0x60008
/-- MGT_FN_CTRL of Table 16.8. -/
def MGT_FN_CTRL : Nat := 0x60010
/-- MGT_FN_STATUS of Table 16.8. -/
def MGT_FN_STATUS : Nat := 0x60014
/-- MGT_FN_CFG of Table 16.8. -/
def MGT_FN_CFG : Nat := 0x60018
/-- MGT_CFG of Table 16.8. -/
def MGT_CFG : Nat := 0x6001C
/-- MGT_ORD_ADDR of Table 16.9. -/
def MGT_ORD_ADDR (i : Nat) : Nat := 0x60020 + i * 0x4
/-- MGT_ORD_LEN of Table 16.9. -/
def MGT_ORD_LEN : Nat := 0x60028
/-- MGT_ORD_CTRL of Table 16.9. -/
def MGT_ORD_CTRL : Nat := 0x6002C
/-- MGT_ORD_STATUS of Table 16.9. -/
def MGT_ORD_STATUS : Nat := 0x60030
/-- MGT_ORD_LAST of Table 16.9. -/
def MGT_ORD_LAST (i : Nat) : Nat := 0x60034 + i * 0x4
/-- MGT_EXPEL of Table 16.9. -/
def MGT_EXPEL : Nat := 0x6003C
/-- MGT_FENCE of Table 16.9. -/
def MGT_FENCE (i : Nat) : Nat := 0x60040 + i * 0x4
/-- MGT_PEER_HELD of Table 16.9. -/
def MGT_PEER_HELD : Nat := 0x600A0
/-- MGT_PEER_SERIAL of Table 16.9. -/
def MGT_PEER_SERIAL (i : Nat) : Nat := 0x600A4 + i * 0x4
/-- MGT_MIRAGE_CFG of Table 16.10. -/
def MGT_MIRAGE_CFG : Nat := 0x600C0
/-- MGT_TWIN_CFG of Table 16.10. -/
def MGT_TWIN_CFG : Nat := 0x600C4
/-- MGT_TWIN_STATUS of Table 16.10. -/
def MGT_TWIN_STATUS : Nat := 0x600C8
/-- MGT_PORT_GEN of Table 16.10. -/
def MGT_PORT_GEN (i : Nat) : Nat := 0x64000 + i * 0x4
/-- PWR_STATUS of Table 17.13. -/
def PWR_STATUS : Nat := 0x70000
/-- PWR_VIN48 of Table 17.13. -/
def PWR_VIN48 : Nat := 0x70004
/-- PWR_IIN48 of Table 17.13. -/
def PWR_IIN48 : Nat := 0x70008
/-- PWR_PIN48 of Table 17.13. -/
def PWR_PIN48 : Nat := 0x7000C
/-- PWR_VAUX5 of Table 17.13. -/
def PWR_VAUX5 : Nat := 0x70010
/-- PWR_PAUX5 of Table 17.13. -/
def PWR_PAUX5 : Nat := 0x70014
/-- PWR_LIMIT of Table 17.13. -/
def PWR_LIMIT : Nat := 0x70018
/-- PWR_EVT of Table 17.13. -/
def PWR_EVT : Nat := 0x7001C
/-- PWR_NOTIFY of Table 17.13. -/
def PWR_NOTIFY : Nat := 0x70020
/-- PWR_DUNE of Table 17.13. -/
def PWR_DUNE (i : Nat) : Nat := 0x70040 + i * 0x4
/-- PWR_TILES of Table 17.13. -/
def PWR_TILES (i : Nat) : Nat := 0x70060 + i * 0x4
/-- PWR_OASIS of Table 17.13. -/
def PWR_OASIS (i : Nat) : Nat := 0x70080 + i * 0x4
/-- PWR_PLT of Table 17.13. -/
def PWR_PLT : Nat := 0x700B0
/-- PWR_PEAK of Table 17.13. -/
def PWR_PEAK : Nat := 0x700B4
/-- PLT_DEVICE_ID of Table 0.2. -/
def PLT_DEVICE_ID : Nat := 0x0
/-- IMG_CTRL of Table 2.13. -/
def IMG_CTRL : Nat := 0x10000
/-- IMG_SRC of Table 2.14. -/
def IMG_SRC : Nat := 0x10004
/-- IMG_HOST_LEN of R63. -/
def IMG_HOST_LEN : Nat := 0x1000C
/-- IMG_HOST_ADDR_LO of R63. -/
def IMG_HOST_ADDR_LO : Nat := 0x10010
/-- IMG_HOST_ADDR_HI of R63. -/
def IMG_HOST_ADDR_HI : Nat := 0x10014
/-- IMG_SEQ of R63. -/
def IMG_SEQ : Nat := 0x10018
/-- IMG_MIN_SEQ of R63. -/
def IMG_MIN_SEQ : Nat := 0x1001C
/-- IMG_INFO of R63. -/
def IMG_INFO : Nat := 0x10024
/-- IMG_HASH of R63. -/
def IMG_HASH (i : Nat) : Nat := 0x10040 + i * 0x4
/-- IMG_SECT_FAIL of R63. -/
def IMG_SECT_FAIL (i : Nat) : Nat := 0x10080 + i * 0x4
/-- PLT_READY_SUM of Table 3.5. -/
def PLT_READY_SUM : Nat := 0x200
/-- PLT_READY_EVT of Table 3.5. -/
def PLT_READY_EVT : Nat := 0x204
/-- PLT_UR_LANE of R74. -/
def PLT_UR_LANE (i : Nat) : Nat := 0x300 + i * 0x4
/-- PLT_UR_PORT of R74. -/
def PLT_UR_PORT (i : Nat) : Nat := 0x400 + i * 0x4
/-- PLT_UR_ENG of R74. -/
def PLT_UR_ENG (i : Nat) : Nat := 0x500 + i * 0x4
/-- PLT_UR_RIPPLE of R74. -/
def PLT_UR_RIPPLE (i : Nat) : Nat := 0x700 + i * 0x4
/-- PLT_UR_GROUP of R74. -/
def PLT_UR_GROUP (i : Nat) : Nat := 0x800 + i * 0x4
/-- PLT_DUNE_STATE of Table 3.3. -/
def PLT_DUNE_STATE : Nat := 0xB08
/-- PLT_EARLY_DB of R72. -/
def PLT_EARLY_DB : Nat := 0xB20
/-- HIF_CQ_CFG of Table 4.4. -/
def HIF_CQ_CFG (i j : Nat) : Nat := 0x2360000 + i * 0x400000 + j * 0x20
/-- HIF_CNQ_CFG of Table 4.12. -/
def HIF_CNQ_CFG (i j : Nat) : Nat := 0x2370000 + i * 0x400000 + j * 0x20
/-- HIF_CNT of R95. -/
def HIF_CNT (i j : Nat) : Nat := 0x2380000 + i * 0x400000 + j * 0x4
/-- HIF_MSIX_TABLE of R83. -/
def HIF_MSIX_TABLE (i j : Nat) : Nat := 0x28000 + i * 0x10 + j * 0x4
/-- HIF_MSIX_PBA of R83. -/
def HIF_MSIX_PBA (i : Nat) : Nat := 0x30000 + i * 0x4
/-- SWC_QCFG0 of Table 5.8. -/
def SWC_QCFG0 (i j : Nat) : Nat := 0x2040000 + i * 0x400000 + j * 0x8
/-- SWC_QCFG1 of Table 5.8. -/
def SWC_QCFG1 (i j : Nat) : Nat := 0x2040004 + i * 0x400000 + j * 0x8
/-- SWC_WRED0 of Table 5.9. -/
def SWC_WRED0 (i j : Nat) : Nat := 0x2008000 + i * 0x400000 + j * 0x10
/-- SWC_WRED1 of Table 5.9. -/
def SWC_WRED1 (i j : Nat) : Nat := 0x2008004 + i * 0x400000 + j * 0x10
/-- SWC_WRED2 of Table 5.9. -/
def SWC_WRED2 (i j : Nat) : Nat := 0x2008008 + i * 0x400000 + j * 0x10
/-- SWC_POL0 of Table 5.9. -/
def SWC_POL0 (i j : Nat) : Nat := 0x2010000 + i * 0x400000 + j * 0x10
/-- SWC_POL1 of Table 5.9. -/
def SWC_POL1 (i j : Nat) : Nat := 0x2010004 + i * 0x400000 + j * 0x10
/-- SWC_POL2 of Table 5.9. -/
def SWC_POL2 (i j : Nat) : Nat := 0x2010008 + i * 0x400000 + j * 0x10
/-- SWC_POL3 of Table 5.9. -/
def SWC_POL3 (i j : Nat) : Nat := 0x201000C + i * 0x400000 + j * 0x10
/-- SWC_MIR0 of Table 5.10. -/
def SWC_MIR0 (i j : Nat) : Nat := 0x2060000 + i * 0x400000 + j * 0x20
/-- SWC_MIR1 of Table 5.10. -/
def SWC_MIR1 (i j : Nat) : Nat := 0x2060004 + i * 0x400000 + j * 0x20
/-- SWC_MIR2 of Table 5.10. -/
def SWC_MIR2 (i j : Nat) : Nat := 0x2060008 + i * 0x400000 + j * 0x20
/-- SWC_MIR3 of Table 5.10. -/
def SWC_MIR3 (i j : Nat) : Nat := 0x206000C + i * 0x400000 + j * 0x20
/-- SWC_MIR4 of Table 5.10. -/
def SWC_MIR4 (i j : Nat) : Nat := 0x2060010 + i * 0x400000 + j * 0x20
/-- CHK_UNIT_POLY of Table 14.9, LO word. -/
def CHK_UNIT_POLY (i j : Nat) : Nat := 0x2304008 + i * 0x400000 + j * 0x80
/-- CHK_UNIT_INIT of Table 14.9, LO word. -/
def CHK_UNIT_INIT (i j : Nat) : Nat := 0x2304010 + i * 0x400000 + j * 0x80
/-- CHK_UNIT_XOROUT of Table 14.9, LO word. -/
def CHK_UNIT_XOROUT (i j : Nat) : Nat := 0x2304018 + i * 0x400000 + j * 0x80
/-- CHK_UNIT_FOLD of Table 14.9, LO word. -/
def CHK_UNIT_FOLD (i j : Nat) : Nat := 0x2304020 + i * 0x400000 + j * 0x80
/-- CHK_UNIT_EXPECT of Table 14.9, LO word. -/
def CHK_UNIT_EXPECT (i j : Nat) : Nat := 0x2304028 + i * 0x400000 + j * 0x80
/-- CHK_UNIT_RESULT of Table 14.9, LO word. -/
def CHK_UNIT_RESULT (i j : Nat) : Nat := 0x2304030 + i * 0x400000 + j * 0x80
/-- CHK_UNIT_ADDR of Table 14.9, LO word. -/
def CHK_UNIT_ADDR (i j : Nat) : Nat := 0x2304038 + i * 0x400000 + j * 0x80
/-- CHK_UNIT_LEN of Table 14.9. -/
def CHK_UNIT_LEN (i j : Nat) : Nat := 0x2304040 + i * 0x400000 + j * 0x80
/-- CHK_UNIT_PKTS of Table 14.9, LO word. -/
def CHK_UNIT_PKTS (i j : Nat) : Nat := 0x2304050 + i * 0x400000 + j * 0x80
/-- CHK_UNIT_MISS of Table 14.9, LO word. -/
def CHK_UNIT_MISS (i j : Nat) : Nat := 0x2304058 + i * 0x400000 + j * 0x80
/-- CHK_UNIT_STATUS of Table 14.9. -/
def CHK_UNIT_STATUS (i j : Nat) : Nat := 0x2304048 + i * 0x400000 + j * 0x80
/-- SWC_CLASS7_DROP of Table 5.11, LO word. -/
def SWC_CLASS7_DROP (i : Nat) : Nat := 0x2000100 + i * 0x400000
/-- SWC_LL_NO_CREDIT of Table 5.11, LO word. -/
def SWC_LL_NO_CREDIT (i : Nat) : Nat := 0x2000108 + i * 0x400000
/-- SWC_SPILL_OUT of Table 5.11, LO word. -/
def SWC_SPILL_OUT (i : Nat) : Nat := 0x2000110 + i * 0x400000
/-- SWC_SPILL_IN of Table 5.11, LO word. -/
def SWC_SPILL_IN (i : Nat) : Nat := 0x2000118 + i * 0x400000
/-- SWC_SPILL_STARVE of Table 5.11, LO word. -/
def SWC_SPILL_STARVE (i : Nat) : Nat := 0x2000120 + i * 0x400000
/-- SWC_SPILL_LOST of Table 5.11, LO word. -/
def SWC_SPILL_LOST (i : Nat) : Nat := 0x2000128 + i * 0x400000
/-- SWC_MIRROR_DROP of Table 5.11, LO word. -/
def SWC_MIRROR_DROP (i : Nat) : Nat := 0x2000130 + i * 0x400000
/-- SWC_POLICER_LOSSLESS of Table 5.11, LO word. -/
def SWC_POLICER_LOSSLESS (i : Nat) : Nat := 0x2000138 + i * 0x400000
/-- SWC_Q_ENQ_CELLS of Table 5.11, LO word. -/
def SWC_Q_ENQ_CELLS (i j : Nat) : Nat := 0x2080000 + i * 0x400000 + j * 0x20
/-- SWC_Q_DEQ_CELLS of Table 5.11, LO word. -/
def SWC_Q_DEQ_CELLS (i j : Nat) : Nat := 0x2080008 + i * 0x400000 + j * 0x20
/-- SWC_Q_DROP_PKTS of Table 5.11, LO word. -/
def SWC_Q_DROP_PKTS (i j : Nat) : Nat := 0x2080010 + i * 0x400000 + j * 0x20
/-- SWC_Q_PUSHOUT_PKTS of Table 5.11, LO word. -/
def SWC_Q_PUSHOUT_PKTS (i j : Nat) : Nat := 0x2080018 + i * 0x400000 + j * 0x20
/-- FWD_MISS of Table 6.11, LO word. -/
def FWD_MISS (i : Nat) : Nat := 0x2101000 + i * 0x400000
/-- FWD_REBUILD_HIT of Table 6.11, LO word. -/
def FWD_REBUILD_HIT (i : Nat) : Nat := 0x2101008 + i * 0x400000
/-- FWD_PUNT_DROP of Table 6.11, LO word. -/
def FWD_PUNT_DROP (i : Nat) : Nat := 0x2101010 + i * 0x400000
/-- FWD_BAD_VER of Table 6.11, LO word. -/
def FWD_BAD_VER (i : Nat) : Nat := 0x2101018 + i * 0x400000
/-- FWD_PART_MISMATCH of Table 6.11, LO word. -/
def FWD_PART_MISMATCH (i : Nat) : Nat := 0x2101020 + i * 0x400000
/-- FWD_MODE_MISMATCH of Table 6.11, LO word. -/
def FWD_MODE_MISMATCH (i : Nat) : Nat := 0x2101028 + i * 0x400000
/-- FWD_ETH_PARSE of Table 6.11, LO word. -/
def FWD_ETH_PARSE (i : Nat) : Nat := 0x2101030 + i * 0x400000
/-- FWD_IP_HDR_ERR of Table 6.11, LO word. -/
def FWD_IP_HDR_ERR (i : Nat) : Nat := 0x2101038 + i * 0x400000
/-- FWD_ECC_CORR of Table 6.11, LO word. -/
def FWD_ECC_CORR (i : Nat) : Nat := 0x2101040 + i * 0x400000
/-- FWD_ECC_UNCORR of Table 6.11, LO word. -/
def FWD_ECC_UNCORR (i : Nat) : Nat := 0x2101048 + i * 0x400000
/-- FWD_LEARN_DROP of Table 6.11, LO word. -/
def FWD_LEARN_DROP (i : Nat) : Nat := 0x2101050 + i * 0x400000
/-- FWD_VER_TIE of Table 6.11, LO word. -/
def FWD_VER_TIE (i : Nat) : Nat := 0x2101058 + i * 0x400000
/-- FWD_LEARN_RX of Table 6.11, LO word. -/
def FWD_LEARN_RX (i : Nat) : Nat := 0x2101060 + i * 0x400000
/-- FWD_PUNT_CFG of R139. -/
def FWD_PUNT_CFG (i : Nat) : Nat := 0x210001C + i * 0x400000
/-- RTE_UNREACH of Table 7.10, LO word. -/
def RTE_UNREACH (i : Nat) : Nat := 0x2181000 + i * 0x400000
/-- RTE_BAD_TARGET of Table 7.10, LO word. -/
def RTE_BAD_TARGET (i : Nat) : Nat := 0x2181008 + i * 0x400000
/-- RTE_ESC_PKTS of Table 7.10, LO word. -/
def RTE_ESC_PKTS (i : Nat) : Nat := 0x2181010 + i * 0x400000
/-- RTE_WADI_PKTS of Table 7.10, LO word. -/
def RTE_WADI_PKTS (i : Nat) : Nat := 0x2181018 + i * 0x400000
/-- RTE_RSQ_LOST_PKTS of Table 7.10, LO word. -/
def RTE_RSQ_LOST_PKTS (i : Nat) : Nat := 0x2181020 + i * 0x400000
/-- RTE_RSQ_RELEASED of Table 7.10, LO word. -/
def RTE_RSQ_RELEASED (i : Nat) : Nat := 0x2181028 + i * 0x400000
/-- RTE_RSQ_OOO of Table 7.10, LO word. -/
def RTE_RSQ_OOO (i : Nat) : Nat := 0x2181030 + i * 0x400000
/-- RTE_RSQ_NOCTX of Table 7.10, LO word. -/
def RTE_RSQ_NOCTX (i : Nat) : Nat := 0x2181038 + i * 0x400000
/-- RTE_CTX_FULL of Table 7.10, LO word. -/
def RTE_CTX_FULL (i : Nat) : Nat := 0x2181040 + i * 0x400000
/-- RTE_OVERSIZE of Table 7.10, LO word. -/
def RTE_OVERSIZE (i : Nat) : Nat := 0x2181048 + i * 0x400000
/-- RTE_LINK_HDR_ERR of Table 7.10, LO word. -/
def RTE_LINK_HDR_ERR (i : Nat) : Nat := 0x2181050 + i * 0x400000
/-- RTE_BYPASS_REQS of Table 7.10, LO word. -/
def RTE_BYPASS_REQS (i : Nat) : Nat := 0x2181058 + i * 0x400000
/-- RTE_EPOCH_FALLBACK of Table 7.10, LO word. -/
def RTE_EPOCH_FALLBACK (i : Nat) : Nat := 0x2181060 + i * 0x400000
/-- RTE_TBL_REFUSED of Table 7.10, LO word. -/
def RTE_TBL_REFUSED (i : Nat) : Nat := 0x2181068 + i * 0x400000
/-- SCH_FIT_WAITS of Table 9.8, LO word. -/
def SCH_FIT_WAITS (i j : Nat) : Nat := 0x2240000 + i * 0x400000 + j * 0x20
/-- SCH_IMPOSED_WAITS of Table 9.8, LO word. -/
def SCH_IMPOSED_WAITS (i j : Nat) : Nat := 0x2240008 + i * 0x400000 + j * 0x20
/-- SCH_NOFIT_DROP of Table 9.8, LO word. -/
def SCH_NOFIT_DROP (i j : Nat) : Nat := 0x2240010 + i * 0x400000 + j * 0x20
/-- SCH_OVERRUN of Table 9.8, LO word. -/
def SCH_OVERRUN (i j : Nat) : Nat := 0x2240018 + i * 0x400000 + j * 0x20
/-- BRC_TASKS of Table 10.12, LO word. -/
def BRC_TASKS (i : Nat) : Nat := 0x2288000 + i * 0x400000
/-- BRC_STEALS of Table 10.12, LO word. -/
def BRC_STEALS (i : Nat) : Nat := 0x2288008 + i * 0x400000
/-- BRC_RESTART_DIS of Table 10.12, LO word. -/
def BRC_RESTART_DIS (i : Nat) : Nat := 0x2288010 + i * 0x400000
/-- BRC_RESTART_CHK of Table 10.12, LO word. -/
def BRC_RESTART_CHK (i : Nat) : Nat := 0x2288018 + i * 0x400000
/-- BRC_DISCARDS of Table 10.12, LO word. -/
def BRC_DISCARDS (i : Nat) : Nat := 0x2288020 + i * 0x400000
/-- BRC_FAULTS of Table 10.12, LO word. -/
def BRC_FAULTS (i : Nat) : Nat := 0x2288028 + i * 0x400000
/-- NUM_SAT of Table 11.10, LO word. -/
def NUM_SAT (i : Nat) : Nat := 0x81000 + i * 0x40
/-- NUM_UFL of Table 11.10, LO word. -/
def NUM_UFL (i : Nat) : Nat := 0x81008 + i * 0x40
/-- NUM_ESC_BLOCKS of Table 11.10, LO word. -/
def NUM_ESC_BLOCKS (i : Nat) : Nat := 0x81010 + i * 0x40
/-- NUM_NAN_POISON of Table 11.10, LO word. -/
def NUM_NAN_POISON (i : Nat) : Nat := 0x81018 + i * 0x40
/-- NUM_RESID_STALE of Table 11.10, LO word. -/
def NUM_RESID_STALE (i : Nat) : Nat := 0x81020 + i * 0x40
/-- NUM_ACC_OVF of Table 11.10, LO word. -/
def NUM_ACC_OVF (i : Nat) : Nat := 0x81028 + i * 0x40
/-- COL_CONTRIB of Table 12.11, LO word. -/
def COL_CONTRIB : Nat := 0x101000
/-- COL_STRAY of Table 12.11, LO word. -/
def COL_STRAY : Nat := 0x101008
/-- COL_DUP of Table 12.11, LO word. -/
def COL_DUP : Nat := 0x101010
/-- COL_PARTIAL_TX of Table 12.11, LO word. -/
def COL_PARTIAL_TX : Nat := 0x101018
/-- COL_RESULT_TX of Table 12.11, LO word. -/
def COL_RESULT_TX : Nat := 0x101020
/-- COL_COMMITS of Table 12.11, LO word. -/
def COL_COMMITS : Nat := 0x101028
/-- COL_ABORTS of Table 12.11, LO word. -/
def COL_ABORTS : Nat := 0x101030
/-- COL_TIMEOUTS of Table 12.11, LO word. -/
def COL_TIMEOUTS : Nat := 0x101038
/-- COL_SWAPS of Table 12.11, LO word. -/
def COL_SWAPS : Nat := 0x101040
/-- COL_CARAVAN_BYTES of Table 12.11, LO word. -/
def COL_CARAVAN_BYTES : Nat := 0x101048
/-- OPT_SWAPS of R335, LO word. -/
def OPT_SWAPS (i : Nat) : Nat := 0x801000 + i * 0x10000
/-- OPT_FORCED_SWAPS of R335, LO word. -/
def OPT_FORCED_SWAPS (i : Nat) : Nat := 0x801008 + i * 0x10000
/-- OPT_LOCK_WRONG of R335, LO word. -/
def OPT_LOCK_WRONG (i : Nat) : Nat := 0x801010 + i * 0x10000
/-- OPT_EYE_EVENTS of R335, LO word. -/
def OPT_EYE_EVENTS (i : Nat) : Nat := 0x801018 + i * 0x10000
/-- OPT_XC_CHANGES of R335, LO word. -/
def OPT_XC_CHANGES (i : Nat) : Nat := 0x801020 + i * 0x10000
/-- OPT_XC_DENIED_CNT of R335, LO word. -/
def OPT_XC_DENIED_CNT (i : Nat) : Nat := 0x801028 + i * 0x10000
/-- OPT_RETIRED_CNT of R335, LO word. -/
def OPT_RETIRED_CNT (i : Nat) : Nat := 0x801030 + i * 0x10000
/-- OPT_SIR_RUNS of R335, LO word. -/
def OPT_SIR_RUNS (i : Nat) : Nat := 0x801038 + i * 0x10000
/-- OPT_CTRL_REFUSED of R335, LO word. -/
def OPT_CTRL_REFUSED (i : Nat) : Nat := 0x801040 + i * 0x10000
/-- CHK_DIGEST_FAIL of Table 14.6, LO word. -/
def CHK_DIGEST_FAIL (i : Nat) : Nat := 0x2308000 + i * 0x400000
/-- CHK_RESIDUE of Table 14.6, LO word. -/
def CHK_RESIDUE (i : Nat) : Nat := 0x2308008 + i * 0x400000
/-- CHK_AUDIT_FAIL of Table 14.6, LO word. -/
def CHK_AUDIT_FAIL (i : Nat) : Nat := 0x2308010 + i * 0x400000
/-- CHK_RESENDS of Table 14.6, LO word. -/
def CHK_RESENDS (i : Nat) : Nat := 0x2308018 + i * 0x400000
/-- CHK_RETRACTS of Table 14.6, LO word. -/
def CHK_RETRACTS (i : Nat) : Nat := 0x2308020 + i * 0x400000
/-- CHK_POISONED of Table 14.6, LO word. -/
def CHK_POISONED (i : Nat) : Nat := 0x2308028 + i * 0x400000
/-- CHK_QUARANTINES of Table 14.6, LO word. -/
def CHK_QUARANTINES (i : Nat) : Nat := 0x2308030 + i * 0x400000
/-- CHK_CTRL_REFUSED of Table 14.6, LO word. -/
def CHK_CTRL_REFUSED (i : Nat) : Nat := 0x2308038 + i * 0x400000
/-- CHK_RES_EVT of Table 14.6, LO word. -/
def CHK_RES_EVT (i j : Nat) : Nat := 0x2309000 + i * 0x400000 + j * 0x8
/-- SEC_HS_FAIL of R381, LO word. -/
def SEC_HS_FAIL : Nat := 0x5E000
/-- SEC_TAG_FAIL of R381, LO word. -/
def SEC_TAG_FAIL : Nat := 0x5E008
/-- SEC_REKEYS of R381, LO word. -/
def SEC_REKEYS : Nat := 0x5E010
/-- SEC_PKG_REFUSED of R381, LO word. -/
def SEC_PKG_REFUSED : Nat := 0x5E018
/-- SEC_UNVERIFIED_PKTS of R381, LO word. -/
def SEC_UNVERIFIED_PKTS : Nat := 0x5E020
/-- MGT_RESYNCS of R398, LO word. -/
def MGT_RESYNCS : Nat := 0x61000
/-- MGT_ORDERS_OK of R398, LO word. -/
def MGT_ORDERS_OK : Nat := 0x61008
/-- MGT_ORDERS_REFUSED of R398, LO word. -/
def MGT_ORDERS_REFUSED : Nat := 0x61010
/-- MGT_EXPEL_DROP of R398, LO word. -/
def MGT_EXPEL_DROP : Nat := 0x61018
/-- MGT_FN_DISCARD of R398, LO word. -/
def MGT_FN_DISCARD : Nat := 0x61020
/-- MGT_HELD_REFUSED of R398, LO word. -/
def MGT_HELD_REFUSED : Nat := 0x61028
/-- MGT_BEACONS_RX of R398, LO word. -/
def MGT_BEACONS_RX : Nat := 0x61030
/-- MGT_MIRAGE_MATCH of R398, LO word. -/
def MGT_MIRAGE_MATCH : Nat := 0x61038
/-- MGT_MIRAGE_MISMATCH of R398, LO word. -/
def MGT_MIRAGE_MISMATCH : Nat := 0x61040

end Reg

/-! ## Places of fields -/

namespace F

def IMG_STATUS_STATE : BitRange := ⟨31, 28⟩
def IMG_STATUS_SLOT : BitRange := ⟨27, 26⟩
def IMG_STATUS_SEALED : BitRange := ⟨25, 25⟩
def IMG_STATUS_SEAL_PENDING : BitRange := ⟨24, 24⟩
def IMG_STATUS_RB_EXHAUSTED : BitRange := ⟨23, 23⟩
def IMG_STATUS_DEGRADED : BitRange := ⟨22, 22⟩
def IMG_STATUS_SECTIONS_DONE : BitRange := ⟨8, 0⟩
def IMG_ERR_CODE : BitRange := ⟨31, 24⟩
def IMG_ERR_SECTION : BitRange := ⟨15, 0⟩
def PLT_TRIM_SEL_PARAM : BitRange := ⟨31, 24⟩
def PLT_TRIM_SEL_INDEX : BitRange := ⟨23, 0⟩
def PLT_TRIM_USER_DELTA : BitRange := ⟨15, 0⟩
def PLT_TRIM_FACTORY_VALUE : BitRange := ⟨15, 0⟩
def PLT_TRIM_EFF_CLAMPED : BitRange := ⟨31, 31⟩
def PLT_TRIM_EFF_PENDING : BitRange := ⟨30, 30⟩
def PLT_TRIM_EFF_INVALID : BitRange := ⟨29, 29⟩
def PLT_TRIM_EFF_VALUE : BitRange := ⟨15, 0⟩
def PLT_RESET_CTRL_KEY : BitRange := ⟨31, 24⟩
def PLT_RESET_CTRL_COLD : BitRange := ⟨1, 1⟩
def PLT_RESET_CTRL_WARM : BitRange := ⟨0, 0⟩
def PLT_RESET_CAUSE_CAUSE : BitRange := ⟨31, 24⟩
def PLT_RESET_CAUSE_TRIPPED : BitRange := ⟨8, 8⟩
def PLT_RESET_CAUSE_TRIP_SENSOR : BitRange := ⟨7, 0⟩
def HIF_MP_CFG_IPV4_EN : BitRange := ⟨31, 31⟩
def HIF_MP_CFG_IPV6_EN : BitRange := ⟨30, 30⟩
def HIF_MP_CFG_ICMP_EN : BitRange := ⟨29, 29⟩
def HIF_MP_CFG_VID : BitRange := ⟨11, 0⟩
def HIF_MP_V4_ADDR : BitRange := ⟨31, 0⟩
def HIF_MP_V4_PLEN_PLEN : BitRange := ⟨5, 0⟩
def HIF_MP_GW4_GW : BitRange := ⟨31, 0⟩
def HIF_MP_V6_ADDR : BitRange := ⟨31, 0⟩
def HIF_MP_V6_PLEN_PLEN : BitRange := ⟨7, 0⟩
def HIF_MP_GW6_GW : BitRange := ⟨31, 0⟩
def HIF_MP_MAC_HI_MAC : BitRange := ⟨15, 0⟩
def HIF_MP_MAC_LO_MAC : BitRange := ⟨31, 0⟩
def HIF_MP_DISCARD_COUNT : BitRange := ⟨31, 0⟩
def HIF_FSR_EXP_EN : BitRange := ⟨31, 31⟩
def HIF_FSR_EXP_PORT : BitRange := ⟨30, 30⟩
def HIF_FSR_EXP_AF : BitRange := ⟨29, 29⟩
def HIF_FSR_EXP_DPORT : BitRange := ⟨15, 0⟩
def HIF_FSR_DST_ADDR : BitRange := ⟨31, 0⟩
def HIF_FSR_SENT_COUNT : BitRange := ⟨31, 0⟩
def HIF_CQ_JOB_JOB : BitRange := ⟨15, 0⟩
def HIF_CQ_WAIT_TMO_TMO : BitRange := ⟨19, 0⟩
def HIF_CQ_STATUS_STATE : BitRange := ⟨31, 28⟩
def HIF_CQ_STATUS_ERR_CAUSE : BitRange := ⟨27, 24⟩
def HIF_CQ_STATUS_OCCUPANCY : BitRange := ⟨16, 0⟩
def HIF_CQ_DROP_COUNT : BitRange := ⟨31, 0⟩
def HIF_CNQ_BASE_LO_BASE_LO : BitRange := ⟨31, 0⟩
def HIF_CNQ_BASE_HI_BASE_HI : BitRange := ⟨31, 0⟩
def HIF_CNQ_HEAD_HEAD : BitRange := ⟨31, 0⟩
def HIF_CNQ_TAIL_TAIL : BitRange := ⟨31, 0⟩
def HIF_CNQ_TMO_TMO : BitRange := ⟨19, 0⟩
def HIF_CNQ_CTRL_FLUSH : BitRange := ⟨31, 31⟩
def HIF_CNQ_CTRL_FLUSH_PENDING : BitRange := ⟨7, 7⟩
def HIF_CNQ_CTRL_FLUSH_DONE : BitRange := ⟨6, 6⟩
def HIF_CNQ_CTRL_TMO_EVT : BitRange := ⟨5, 5⟩
def HIF_CNQ_CTRL_HALF_EVT : BitRange := ⟨4, 4⟩
def HIF_CNQ_CTRL_DROP_EVT : BitRange := ⟨3, 3⟩
def HIF_CNQ_DROPS_COUNT : BitRange := ⟨31, 0⟩
def HIF_ERR_OFFLINE_ACC : BitRange := ⟨31, 31⟩
def HIF_ERR_APERTURE_BAD : BitRange := ⟨30, 30⟩
def HIF_ERR_DB_DENIED : BitRange := ⟨29, 29⟩
def HIF_ERR_CQ_ERROR : BitRange := ⟨28, 28⟩
def HIF_ERR_BAD_ACCESS : BitRange := ⟨27, 27⟩
def HIF_ERR_MP_CONFLICT : BitRange := ⟨26, 26⟩
def HIF_ERR_CNQ_BUSY : BitRange := ⟨25, 25⟩
def HIF_ERR_CQ_ERR_DUNE : BitRange := ⟨7, 0⟩
def HIF_DB_DENIED_COUNT : BitRange := ⟨31, 0⟩
def HIF_APERTURE_BAD_COUNT : BitRange := ⟨31, 0⟩
def HIF_OFFLINE_CNT_COUNT : BitRange := ⟨31, 0⟩
def SWC_POOL_MAX_MAX : BitRange := ⟨18, 0⟩
def SWC_POOL_BUDGET_BUDGET : BitRange := ⟨15, 0⟩
def SWC_POOL_STATUS_XOFF_ERR : BitRange := ⟨31, 31⟩
def SWC_POOL_STATUS_XOFF : BitRange := ⟨30, 30⟩
def SWC_POOL_STATUS_SPILLING : BitRange := ⟨29, 29⟩
def SWC_POOL_STATUS_OCC : BitRange := ⟨18, 0⟩
def SWC_POOL_XOFF_XOFF : BitRange := ⟨19, 0⟩
def SWC_OCC_OCC : BitRange := ⟨18, 0⟩
def SWC_SPILL_HWM_HWM : BitRange := ⟨18, 0⟩
def SWC_SPILL_LWM_LWM : BitRange := ⟨18, 0⟩
def SWC_EVT_POOL_CFG_ERR : BitRange := ⟨31, 31⟩
def SWC_EVT_XOFF_ERR : BitRange := ⟨30, 30⟩
def SWC_EVT_LL_NO_CREDIT : BitRange := ⟨29, 29⟩
def SWC_EVT_SPILL_LOST : BitRange := ⟨28, 28⟩
def SWC_EVT_POLICER_CFG_ERR : BitRange := ⟨27, 27⟩
def SWC_EVT_MIRROR_CFG_ERR : BitRange := ⟨26, 26⟩
def SWC_EVT_PACE_LOW : BitRange := ⟨25, 25⟩
def SWC_NOTIFY_EN : BitRange := ⟨31, 31⟩
def SWC_NOTIFY_CNQ : BitRange := ⟨10, 0⟩
def SWC_SPILL_QUOTA_PAGES : BitRange := ⟨31, 0⟩
def FWD_CFG_LEARN_FABRIC : BitRange := ⟨31, 31⟩
def FWD_CFG_LEARN_MAC : BitRange := ⟨30, 30⟩
def FWD_CFG_LEARN_LIMIT : BitRange := ⟨7, 0⟩
def FWD_ETH_CFG_CFH_ETYPE : BitRange := ⟨31, 16⟩
def FWD_STATUS_REPLICA : BitRange := ⟨31, 30⟩
def FWD_STATUS_REBUILD_ACTIVE : BitRange := ⟨29, 29⟩
def FWD_STATUS_STASH_OCC : BitRange := ⟨10, 0⟩
def FWD_UPD_SEQ_SEQ : BitRange := ⟨31, 0⟩
def FWD_EVT_ECC_CORR : BitRange := ⟨31, 31⟩
def FWD_EVT_ECC_UNCORR : BitRange := ⟨30, 30⟩
def FWD_EVT_STASH_HIGH : BitRange := ⟨29, 29⟩
def FWD_EVT_INSERT_FAIL : BitRange := ⟨28, 28⟩
def FWD_EVT_LEARN_DROP : BitRange := ⟨27, 27⟩
def FWD_EVT_PUNT_DROP : BitRange := ⟨26, 26⟩
def FWD_EVT_REFRESH_FAIL : BitRange := ⟨25, 25⟩
def FWD_EVT_SHADOW_LOST : BitRange := ⟨24, 24⟩
def FWD_NOTIFY_EN : BitRange := ⟨31, 31⟩
def FWD_NOTIFY_CNQ : BitRange := ⟨10, 0⟩
def FWD_SCRUB_TOMB_PASSES : BitRange := ⟨23, 16⟩
def FWD_SCRUB_PERIOD_MS : BitRange := ⟨6, 0⟩
def FWD_OCC_EM_ENTRIES : BitRange := ⟨21, 0⟩
def FWD_OCC_LPM_UNITS : BitRange := ⟨20, 0⟩
def FWD_OCC_NH_ENTRIES : BitRange := ⟨16, 0⟩
def FWD_UPD_DATA_DATA : BitRange := ⟨31, 0⟩
def FWD_UPD_CTRL_GO : BitRange := ⟨31, 31⟩
def FWD_UPD_CTRL_BUSY : BitRange := ⟨30, 30⟩
def FWD_UPD_CTRL_RESULT : BitRange := ⟨23, 16⟩
def FWD_OWNER_OWNER_ID : BitRange := ⟨15, 0⟩
def FWD_RMAC_LO_MAC : BitRange := ⟨31, 0⟩
def FWD_RMAC_HI_MAC : BitRange := ⟨15, 0⟩
def FWD_LPM_DEF_VALID : BitRange := ⟨31, 31⟩
def FWD_LPM_DEF_NH : BitRange := ⟨15, 0⟩
def RTE_CFG_ESC_TMO : BitRange := ⟨27, 24⟩
def RTE_CFG_SPRAY_H : BitRange := ⟨23, 16⟩
def RTE_CFG_LIFETIME_US : BitRange := ⟨15, 0⟩
def RTE_WADI_RSV_MGT : BitRange := ⟨31, 24⟩
def RTE_WADI_RSV_OTHER : BitRange := ⟨23, 16⟩
def RTE_STATUS_ACTIVE : BitRange := ⟨31, 31⟩
def RTE_STATUS_A_WRITABLE : BitRange := ⟨30, 30⟩
def RTE_STATUS_B_WRITABLE : BitRange := ⟨29, 29⟩
def RTE_STATUS_ARMED : BitRange := ⟨28, 28⟩
def RTE_STATUS_FLIP_RESULT : BitRange := ⟨19, 16⟩
def RTE_STATUS_WADI_UP : BitRange := ⟨13, 8⟩
def RTE_FLIP_SEC_SEC : BitRange := ⟨31, 0⟩
def RTE_FLIP_NS_NS : BitRange := ⟨29, 0⟩
def RTE_FLIP_CTRL_KEY : BitRange := ⟨31, 24⟩
def RTE_FLIP_CTRL_CANCEL : BitRange := ⟨2, 2⟩
def RTE_FLIP_CTRL_ARM : BitRange := ⟨1, 1⟩
def RTE_FLIP_DIG_DIG : BitRange := ⟨31, 0⟩
def RTE_VER_DIG_DIG : BitRange := ⟨31, 0⟩
def RTE_THROTTLE_TH_THR : BitRange := ⟨31, 16⟩
def RTE_THROTTLE_TH_ECN : BitRange := ⟨15, 0⟩
def RTE_SAT_SAT_PCT : BitRange := ⟨31, 24⟩
def RTE_SAT_IDLE_PCT : BitRange := ⟨23, 16⟩
def RTE_SAT_PERSIST_US : BitRange := ⟨15, 0⟩
def RTE_RSQ_HOLD_CELLS : BitRange := ⟨15, 0⟩
def RTE_EVT_UNREACH : BitRange := ⟨31, 31⟩
def RTE_EVT_BAD_TARGET : BitRange := ⟨30, 30⟩
def RTE_EVT_WADI_BUDGET : BitRange := ⟨29, 29⟩
def RTE_EVT_WADI_DOWN : BitRange := ⟨28, 28⟩
def RTE_EVT_RSQ_TIMEOUT : BitRange := ⟨27, 27⟩
def RTE_EVT_RSQ_NOCTX : BitRange := ⟨26, 26⟩
def RTE_EVT_CTX_FULL : BitRange := ⟨25, 25⟩
def RTE_EVT_IMBALANCE : BitRange := ⟨24, 24⟩
def RTE_EVT_BYPASS_REQ : BitRange := ⟨23, 23⟩
def RTE_EVT_FLIP_DONE : BitRange := ⟨22, 22⟩
def RTE_EVT_FLIP_REFUSED : BitRange := ⟨21, 21⟩
def RTE_EVT_TBL_REFUSED : BitRange := ⟨20, 20⟩
def RTE_EVT_OVERSIZE : BitRange := ⟨19, 19⟩
def RTE_EVT_LINK_HDR_ERR : BitRange := ⟨18, 18⟩
def RTE_NOTIFY_EN : BitRange := ⟨31, 31⟩
def RTE_NOTIFY_CNQ : BitRange := ⟨10, 0⟩
def RTE_TBL_SEL_VER : BitRange := ⟨31, 31⟩
def RTE_TBL_SEL_MASK : BitRange := ⟨30, 30⟩
def RTE_TBL_SEL_INDEX : BitRange := ⟨17, 0⟩
def RTE_TBL_DATA_DATA : BitRange := ⟨31, 0⟩
def RTE_DIR_LOAD_UTIL : BitRange := ⟨31, 25⟩
def RTE_DIR_LOAD_WEIGHT : BitRange := ⟨24, 16⟩
def RTE_DIR_LOAD_LOAD : BitRange := ⟨15, 0⟩
def RTE_AXIS_LOAD_SATURATED : BitRange := ⟨31, 31⟩
def RTE_AXIS_LOAD_IDLE : BitRange := ⟨30, 30⟩
def RTE_AXIS_LOAD_LOAD : BitRange := ⟨15, 0⟩
def RTE_WADI_PORT_VALID : BitRange := ⟨31, 31⟩
def RTE_WADI_PORT_PORT : BitRange := ⟨10, 0⟩
def TIM_CTRL_KEY : BitRange := ⟨31, 24⟩
def TIM_CTRL_CAPTURE : BitRange := ⟨2, 2⟩
def TIM_CTRL_ACCEPT : BitRange := ⟨1, 1⟩
def TIM_CTRL_ACQUIRE : BitRange := ⟨0, 0⟩
def TIM_STATUS_STATE : BitRange := ⟨31, 28⟩
def TIM_STATUS_REFUSED : BitRange := ⟨27, 27⟩
def TIM_STATUS_REF_OK : BitRange := ⟨26, 26⟩
def TIM_STATUS_PPS_OK : BitRange := ⟨25, 25⟩
def TIM_STATUS_EVER_READY : BitRange := ⟨24, 24⟩
def TIM_STATUS_SRC_KIND : BitRange := ⟨23, 20⟩
def TIM_STATUS_SRC_PORT : BitRange := ⟨10, 0⟩
def TIM_CFG_DOMAIN : BitRange := ⟨31, 24⟩
def TIM_STEP_TH_NS : BitRange := ⟨29, 0⟩
def TIM_NOW_SEC_SEC : BitRange := ⟨31, 0⟩
def TIM_NOW_NS_NS : BitRange := ⟨29, 0⟩
def TIM_NOW_FRAC_FRAC : BitRange := ⟨15, 0⟩
def TIM_OFFSET_THETA : BitRange := ⟨31, 0⟩
def TIM_REF_OFS_THETA : BitRange := ⟨31, 0⟩
def TIM_HOLD_ERR_BOUND : BitRange := ⟨31, 0⟩
def TIM_EVT_READY_CHG : BitRange := ⟨31, 31⟩
def TIM_EVT_FINE_CHG : BitRange := ⟨30, 30⟩
def TIM_EVT_STEP_REFUSED : BitRange := ⟨29, 29⟩
def TIM_EVT_STEP_APPLIED : BitRange := ⟨28, 28⟩
def TIM_EVT_SOURCE_CHANGE : BitRange := ⟨27, 27⟩
def TIM_EVT_HOLDOVER : BitRange := ⟨26, 26⟩
def TIM_EVT_LATE_ACTION : BitRange := ⟨25, 25⟩
def TIM_EVT_FINE_MISMATCH : BitRange := ⟨24, 24⟩
def TIM_EVT_PPS_LOSS : BitRange := ⟨23, 23⟩
def TIM_EVT_REF_LOSS : BitRange := ⟨22, 22⟩
def TIM_EVT_CTRL_REFUSED : BitRange := ⟨21, 21⟩
def TIM_NOTIFY_EN : BitRange := ⟨31, 31⟩
def TIM_NOTIFY_DUNE : BitRange := ⟨13, 11⟩
def TIM_NOTIFY_CNQ : BitRange := ⟨10, 0⟩
def TIM_UTC_OFS_OFS : BitRange := ⟨15, 0⟩
def TIM_CNT_REFUSED_COUNT : BitRange := ⟨31, 0⟩
def TIM_HOLD_CFG_REF_RATE : BitRange := ⟨15, 8⟩
def TIM_PPS_CFG_IN_EN : BitRange := ⟨31, 31⟩
def TIM_PPS_CFG_OUT_EN : BitRange := ⟨30, 30⟩
def TIM_PPS_CFG_IN_CLASS : BitRange := ⟨29, 22⟩
def TIM_PPS_CFG_OUT_OFS : BitRange := ⟨19, 0⟩
def TIM_PPS_TOD_SEC : BitRange := ⟨31, 0⟩
def TIM_PPS_IN_SEC_SEC : BitRange := ⟨31, 0⟩
def TIM_PPS_IN_NS_NS : BitRange := ⟨29, 0⟩
def TIM_PPS_IN_FRAC_FRAC : BitRange := ⟨15, 0⟩
def TIM_REF_CFG_EN : BitRange := ⟨31, 31⟩
def TIM_MPORT_PTP_EN : BitRange := ⟨31, 31⟩
def TIM_MPORT_TRANSPORT : BitRange := ⟨30, 29⟩
def TIM_MPORT_ASYM : BitRange := ⟨19, 0⟩
def TIM_PORT_PTP_EN : BitRange := ⟨31, 31⟩
def TIM_PORT_FINE_EN : BitRange := ⟨30, 30⟩
def TIM_PORT_ASYM : BitRange := ⟨19, 0⟩
def SCH_PG_CTRL_KEY : BitRange := ⟨31, 24⟩
def SCH_PG_CTRL_DISABLE : BitRange := ⟨3, 3⟩
def SCH_PG_CTRL_CANCEL : BitRange := ⟨2, 2⟩
def SCH_PG_CTRL_ARM : BitRange := ⟨1, 1⟩
def SCH_PG_STATUS_STATE : BitRange := ⟨31, 28⟩
def SCH_PG_STATUS_ACTIVE : BitRange := ⟨27, 27⟩
def SCH_PG_STATUS_RESULT : BitRange := ⟨23, 20⟩
def SCH_PG_STATUS_CUR_ENTRY : BitRange := ⟨11, 0⟩
def SCH_PG_CYCLE_NS : BitRange := ⟨29, 0⟩
def SCH_PG_COUNT_COUNT : BitRange := ⟨12, 0⟩
def SCH_PG_BASE_SEC_SEC : BitRange := ⟨31, 0⟩
def SCH_PG_BASE_NS_NS : BitRange := ⟨29, 0⟩
def SCH_PG_GUARD_SEC_SEC : BitRange := ⟨31, 0⟩
def SCH_PG_GUARD_NS_NS : BitRange := ⟨29, 0⟩
def SCH_PG_GUARD_LEN_NS : BitRange := ⟨29, 0⟩
def SCH_PG_CYCNT_COUNT : BitRange := ⟨31, 0⟩
def SCH_EVT_CHG_DONE : BitRange := ⟨31, 31⟩
def SCH_EVT_ARM_REFUSED : BitRange := ⟨30, 30⟩
def SCH_EVT_SUSPENDED : BitRange := ⟨29, 29⟩
def SCH_EVT_IMPOSED : BitRange := ⟨28, 28⟩
def SCH_EVT_GL_REFUSED : BitRange := ⟨27, 27⟩
def SCH_EVT_CTRL_REFUSED : BitRange := ⟨26, 26⟩
def SCH_EVT_OVERRUN : BitRange := ⟨25, 25⟩
def SCH_NOTIFY_EN : BitRange := ⟨31, 31⟩
def SCH_NOTIFY_CNQ : BitRange := ⟨10, 0⟩
def SCH_GL_SEL_BANK : BitRange := ⟨31, 31⟩
def SCH_GL_SEL_PG : BitRange := ⟨28, 24⟩
def SCH_GL_SEL_INDEX : BitRange := ⟨11, 0⟩
def SCH_GL_DATA_HI_DATA : BitRange := ⟨31, 0⟩
def SCH_GL_DATA_LO_DATA : BitRange := ⟨31, 0⟩
def SCH_SHP_RATE_RATE : BitRange := ⟨21, 0⟩
def SCH_SHP_BURST_BURST : BitRange := ⟨23, 0⟩
def SCH_SHP_TOKENS_TOKENS : BitRange := ⟨31, 0⟩
def SCH_PORT_PRIO_PRIO : BitRange := ⟨20, 0⟩
def SCH_PORT_CW_CW : BitRange := ⟨27, 0⟩
def SCH_QW_WEIGHT : BitRange := ⟨7, 0⟩
def BRC_CFG_STEAL_EN : BitRange := ⟨31, 31⟩
def BRC_CFG_STEAL_MIN : BitRange := ⟨7, 0⟩
def BRC_EVT_FAULT : BitRange := ⟨31, 31⟩
def BRC_EVT_DIS_DONE : BitRange := ⟨30, 30⟩
def BRC_EVT_POOL_EMPTY : BitRange := ⟨29, 29⟩
def BRC_EVT_PACE_LOW : BitRange := ⟨28, 28⟩
def BRC_NOTIFY_EN : BitRange := ⟨31, 31⟩
def BRC_NOTIFY_CNQ : BitRange := ⟨10, 0⟩
def BRC_UCODE_LIB_WORDS : BitRange := ⟨26, 16⟩
def BRC_DIS_CTRL_KEY : BitRange := ⟨31, 24⟩
def BRC_DIS_CTRL_ENABLE : BitRange := ⟨23, 23⟩
def BRC_DIS_CTRL_DISABLE : BitRange := ⟨22, 22⟩
def BRC_DIS_CTRL_IMMEDIATE : BitRange := ⟨21, 21⟩
def BRC_DIS_CTRL_SCOPE : BitRange := ⟨20, 19⟩
def BRC_DIS_CTRL_INDEX : BitRange := ⟨8, 0⟩
def BRC_DIS_STATUS_RESULT : BitRange := ⟨31, 28⟩
def BRC_DIS_STATUS_PENDING : BitRange := ⟨27, 27⟩
def BRC_DIS_STATUS_REMAIN : BitRange := ⟨9, 0⟩
def BRC_FAULT0_CODE : BitRange := ⟨31, 24⟩
def BRC_FAULT0_GRAIN : BitRange := ⟨8, 0⟩
def BRC_FAULT1_QUEUE : BitRange := ⟨26, 16⟩
def BRC_FAULT1_WORD : BitRange := ⟨10, 0⟩
def BRC_FAULT2_TAG : BitRange := ⟨15, 0⟩
def BRC_ENG_STATE_STATE : BitRange := ⟨31, 28⟩
def BRC_ENG_STATE_SLOT0 : BitRange := ⟨27, 27⟩
def BRC_ENG_STATE_SLOT1 : BitRange := ⟨26, 26⟩
def BRC_ENG_STATE_HOME : BitRange := ⟨20, 16⟩
def BRC_TQ_OCC : BitRange := ⟨24, 16⟩
def BRC_PACE_LOW : BitRange := ⟨16, 16⟩
def BRC_PACE_PACE : BitRange := ⟨15, 0⟩
def NUM_SEED_SEL_INDEX : BitRange := ⟨3, 0⟩
def NUM_SEED_LO_SEED : BitRange := ⟨31, 0⟩
def NUM_SEED_HI_SEED : BitRange := ⟨31, 0⟩
def NUM_EVT_ESCALATED : BitRange := ⟨31, 31⟩
def NUM_EVT_SATURATED : BitRange := ⟨30, 30⟩
def NUM_EVT_NAN_POISON : BitRange := ⟨29, 29⟩
def NUM_EVT_RESID_STALE : BitRange := ⟨28, 28⟩
def NUM_EVT_ACC_OVF : BitRange := ⟨27, 27⟩
def NUM_NOTIFY_EN : BitRange := ⟨31, 31⟩
def NUM_NOTIFY_DUNE : BitRange := ⟨13, 11⟩
def NUM_NOTIFY_CNQ : BitRange := ⟨10, 0⟩
def COL_CFG_MAX_OPEN : BitRange := ⟨27, 24⟩
def COL_CFG_GRACE_US : BitRange := ⟨15, 0⟩
def COL_STRAG_AUTO : BitRange := ⟨31, 31⟩
def COL_STRAG_COUNT : BitRange := ⟨23, 16⟩
def COL_STRAG_LATE_US : BitRange := ⟨15, 0⟩
def COL_EVT_STRAY : BitRange := ⟨31, 31⟩
def COL_EVT_RESV_DENIED : BitRange := ⟨30, 30⟩
def COL_EVT_LAUNCH_MISMATCH : BitRange := ⟨29, 29⟩
def COL_EVT_DEADLINE : BitRange := ⟨28, 28⟩
def COL_EVT_ABORTED : BitRange := ⟨27, 27⟩
def COL_EVT_REGROUPED : BitRange := ⟨26, 26⟩
def COL_EVT_STRAGGLER : BitRange := ⟨25, 25⟩
def COL_EVT_SWAP_DONE : BitRange := ⟨24, 24⟩
def COL_EVT_PARENT_LOST : BitRange := ⟨23, 23⟩
def COL_EVT_CARAVAN_FAIL : BitRange := ⟨22, 22⟩
def COL_NOTIFY_EN : BitRange := ⟨31, 31⟩
def COL_NOTIFY_DUNE : BitRange := ⟨13, 11⟩
def COL_NOTIFY_CNQ : BitRange := ⟨10, 0⟩
def COL_GRP_SEL_GROUP : BitRange := ⟨15, 0⟩
def COL_GRP_STATUS_STATE : BitRange := ⟨31, 28⟩
def COL_GRP_STATUS_OPEN : BitRange := ⟨27, 24⟩
def COL_GRP_STATUS_GEN : BitRange := ⟨23, 16⟩
def COL_GRP_STATUS_JOB : BitRange := ⟨15, 0⟩
def COL_GRP_STEP_NEXT_STEP : BitRange := ⟨31, 0⟩
def COL_GRP_LOCAL_WORKING : BitRange := ⟨17, 0⟩
def COL_GRP_STRAG_VALID : BitRange := ⟨31, 31⟩
def COL_GRP_STRAG_RANK : BitRange := ⟨23, 0⟩
def OPT_TILE_STATUS_PRESENT : BitRange := ⟨31, 31⟩
def OPT_TILE_STATUS_POWERED : BitRange := ⟨30, 30⟩
def OPT_TILE_STATUS_BYPASS : BitRange := ⟨29, 29⟩
def OPT_TILE_STATUS_SPARES_FREE : BitRange := ⟨14, 12⟩
def OPT_EVT_WARN : BitRange := ⟨31, 31⟩
def OPT_EVT_PREPARE : BitRange := ⟨30, 30⟩
def OPT_EVT_SWAP_DONE : BitRange := ⟨29, 29⟩
def OPT_EVT_FORCED : BitRange := ⟨28, 28⟩
def OPT_EVT_RETIRED : BitRange := ⟨27, 27⟩
def OPT_EVT_LOCK_WRONG : BitRange := ⟨26, 26⟩
def OPT_EVT_RX_FAIL : BitRange := ⟨25, 25⟩
def OPT_EVT_TX_FAIL : BitRange := ⟨24, 24⟩
def OPT_EVT_EYE_SAFE : BitRange := ⟨23, 23⟩
def OPT_EVT_EYE_RESTORED : BitRange := ⟨22, 22⟩
def OPT_EVT_XC_DONE : BitRange := ⟨21, 21⟩
def OPT_EVT_XC_DENIED : BitRange := ⟨20, 20⟩
def OPT_EVT_SIROCCO_DONE : BitRange := ⟨19, 19⟩
def OPT_EVT_TELEM_LOST : BitRange := ⟨18, 18⟩
def OPT_EVT_LASER_LOST : BitRange := ⟨17, 17⟩
def OPT_NOTIFY_EN : BitRange := ⟨31, 31⟩
def OPT_NOTIFY_CNQ : BitRange := ⟨10, 0⟩
def OPT_CFG_P_TGT : BitRange := ⟨31, 16⟩
def OPT_SWAP_CTRL_KEY : BitRange := ⟨31, 24⟩
def OPT_SWAP_CTRL_REQ : BitRange := ⟨5, 5⟩
def OPT_SWAP_CTRL_LANE : BitRange := ⟨4, 0⟩
def OPT_LANE_STATUS_TX_STATE : BitRange := ⟨31, 28⟩
def OPT_LANE_STATUS_RX_STATE : BitRange := ⟨27, 24⟩
def OPT_LANE_STATUS_AGE : BitRange := ⟨23, 21⟩
def OPT_LANE_STATUS_EXPRESS : BitRange := ⟨20, 20⟩
def OPT_LANE_STATUS_SIROCCO : BitRange := ⟨19, 19⟩
def OPT_LANE_STATUS_TELEM_OK : BitRange := ⟨18, 18⟩
def OPT_LANE_STATUS_FAILS : BitRange := ⟨17, 16⟩
def OPT_LANE_STATUS_LASER : BitRange := ⟨13, 8⟩
def OPT_LANE_PWR_P_FAR : BitRange := ⟨31, 16⟩
def OPT_LANE_PWR_MARGIN : BitRange := ⟨15, 0⟩
def OPT_LANE_BIAS_BIAS : BitRange := ⟨31, 16⟩
def OPT_LANE_BIAS_PCT : BitRange := ⟨7, 0⟩
def OPT_LANE_PILOT_CHAN : BitRange := ⟨31, 24⟩
def OPT_LANE_PILOT_ID : BitRange := ⟨23, 8⟩
def OPT_FIBRE_PWR : BitRange := ⟨31, 30⟩
def OPT_FIBRE_PILOT : BitRange := ⟨15, 0⟩
def OPT_SPARE_STATE : BitRange := ⟨31, 28⟩
def OPT_SPARE_LANE : BitRange := ⟨21, 16⟩
def OPT_XC_MODE : BitRange := ⟨31, 30⟩
def OPT_XC_OUT_FIBRE : BitRange := ⟨29, 28⟩
def OPT_XC_ARMED : BitRange := ⟨27, 27⟩
def OPT_XC_NEXT_MODE : BitRange := ⟨26, 25⟩
def OPT_XC_NEXT_FIBRE : BitRange := ⟨24, 23⟩
def OPT_XC_PATH_ID : BitRange := ⟨15, 0⟩
def OPT_SIR_CTRL_KEY : BitRange := ⟨31, 24⟩
def OPT_SIR_CTRL_ABORT : BitRange := ⟨1, 1⟩
def OPT_SIR_CTRL_START : BitRange := ⟨0, 0⟩
def OPT_SIR_CFG_MODE : BitRange := ⟨31, 30⟩
def OPT_SIR_CFG_FIBRE : BitRange := ⟨29, 28⟩
def OPT_SIR_CFG_WAVE : BitRange := ⟨27, 25⟩
def OPT_SIR_CFG_COMPARE : BitRange := ⟨24, 24⟩
def OPT_SIR_CFG_LOG2_AVG : BitRange := ⟨23, 20⟩
def OPT_SIR_RANGE_FIRST : BitRange := ⟨27, 16⟩
def OPT_SIR_RANGE_END : BitRange := ⟨11, 0⟩
def OPT_SIR_STATUS_STATE : BitRange := ⟨31, 28⟩
def OPT_SIR_STATUS_STATUS : BitRange := ⟨23, 16⟩
def OPT_SIR_STATUS_SHOTS : BitRange := ⟨15, 0⟩
def OPT_SIR_RESULT_DATA : BitRange := ⟨31, 0⟩
def CHK_CFG_RESEND_MAX : BitRange := ⟨31, 28⟩
def CHK_CFG_RETRACT_MAX : BitRange := ⟨27, 24⟩
def CHK_CFG_RESEND_US : BitRange := ⟨15, 0⟩
def CHK_HOLD_HOLD_MS : BitRange := ⟨15, 0⟩
def CHK_EVT_DIGEST_FAIL : BitRange := ⟨31, 31⟩
def CHK_EVT_RESIDUE : BitRange := ⟨30, 30⟩
def CHK_EVT_AUDIT_FAIL : BitRange := ⟨29, 29⟩
def CHK_EVT_READY_SPLIT : BitRange := ⟨28, 28⟩
def CHK_EVT_RETRACT_REQ : BitRange := ⟨27, 27⟩
def CHK_EVT_REPLAY_DONE : BitRange := ⟨26, 26⟩
def CHK_EVT_REPLAY_FAIL : BitRange := ⟨25, 25⟩
def CHK_EVT_LATE_DETECT : BitRange := ⟨24, 24⟩
def CHK_EVT_POISON : BitRange := ⟨23, 23⟩
def CHK_EVT_QUARANTINE : BitRange := ⟨22, 22⟩
def CHK_EVT_MARGIN_DONE : BitRange := ⟨21, 21⟩
def CHK_EVT_UNIT_MISMATCH : BitRange := ⟨20, 20⟩
def CHK_NOTIFY_EN : BitRange := ⟨31, 31⟩
def CHK_NOTIFY_CNQ : BitRange := ⟨10, 0⟩
def CHK_QUAR_CTRL_KEY : BitRange := ⟨31, 24⟩
def CHK_QUAR_CTRL_RELEASE : BitRange := ⟨23, 23⟩
def CHK_QUAR_CTRL_GRAIN : BitRange := ⟨8, 0⟩
def CHK_QUAR_STATUS_RESULT : BitRange := ⟨31, 28⟩
def CHK_MARGIN_CTRL_KEY : BitRange := ⟨31, 24⟩
def CHK_MARGIN_CTRL_STOP : BitRange := ⟨6, 6⟩
def CHK_MARGIN_CTRL_START : BitRange := ⟨5, 5⟩
def CHK_MARGIN_CTRL_RIPPLE : BitRange := ⟨4, 0⟩
def CHK_MARGIN_CFG_MIN_TEMP : BitRange := ⟨31, 24⟩
def CHK_MARGIN_CFG_GUARD_MV : BitRange := ⟨23, 16⟩
def CHK_MARGIN_CFG_PACE_TAPS : BitRange := ⟨7, 0⟩
def CHK_MARGIN_STATUS_STATE : BitRange := ⟨31, 28⟩
def CHK_MARGIN_STATUS_RESULT : BitRange := ⟨27, 24⟩
def CHK_MARGIN_STATUS_STEP : BitRange := ⟨23, 20⟩
def CHK_MARGIN_STATUS_FAILED : BitRange := ⟨4, 0⟩
def CHK_MARGIN_RES_ENG_MV : BitRange := ⟨31, 24⟩
def PLT_FSR_HEAD_SEQ : BitRange := ⟨31, 0⟩
def PLT_FSR_STATUS_NEW : BitRange := ⟨31, 31⟩
def PLT_FSR_STATUS_OVERWRITE : BitRange := ⟨30, 30⟩
def PLT_FSR_STATUS_COUNT : BitRange := ⟨12, 0⟩
def PLT_FSR_SEL_SEQ : BitRange := ⟨31, 0⟩
def PLT_FSR_LEN_VALID : BitRange := ⟨31, 31⟩
def PLT_FSR_LEN_LEN : BitRange := ⟨8, 0⟩
def PLT_FSR_DATA_DATA : BitRange := ⟨31, 0⟩
def CHK_UNIT_CFG_START : BitRange := ⟨31, 31⟩
def CHK_UNIT_CFG_BUSY : BitRange := ⟨30, 30⟩
def CHK_UNIT_CFG_SRC : BitRange := ⟨29, 28⟩
def CHK_UNIT_CFG_REFIN : BitRange := ⟨27, 27⟩
def CHK_UNIT_CFG_REFOUT : BitRange := ⟨26, 26⟩
def CHK_UNIT_CFG_CMP_EN : BitRange := ⟨25, 25⟩
def CHK_UNIT_CFG_CFH_FOLD : BitRange := ⟨24, 24⟩
def CHK_UNIT_CFG_STOP : BitRange := ⟨23, 23⟩
def CHK_UNIT_CFG_WIDTH_M1 : BitRange := ⟨21, 16⟩
def CHK_UNIT_QUEUE_QUEUE : BitRange := ⟨13, 0⟩
def CHK_UNIT_PART_PART : BitRange := ⟨3, 0⟩
def SEC_CTRL_KEY : BitRange := ⟨31, 24⟩
def SEC_CTRL_DBG_CLOSE : BitRange := ⟨3, 3⟩
def SEC_CTRL_ATTEST : BitRange := ⟨2, 2⟩
def SEC_CTRL_PKG : BitRange := ⟨1, 1⟩
def SEC_STATUS_SEALED : BitRange := ⟨31, 31⟩
def SEC_STATUS_DEBUG_OPEN : BitRange := ⟨30, 30⟩
def SEC_STATUS_OWNER_SET : BitRange := ⟨29, 29⟩
def SEC_STATUS_OWNER_SLOT : BitRange := ⟨28, 27⟩
def SEC_STATUS_BUSY : BitRange := ⟨26, 26⟩
def SEC_STATUS_RESULT : BitRange := ⟨19, 16⟩
def SEC_PKG_ADDR_ADDR : BitRange := ⟨31, 0⟩
def SEC_PKG_LEN_LEN : BitRange := ⟨15, 0⟩
def SEC_EVT_LINK_UP : BitRange := ⟨31, 31⟩
def SEC_EVT_HS_FAIL : BitRange := ⟨30, 30⟩
def SEC_EVT_TAG_FAIL : BitRange := ⟨29, 29⟩
def SEC_EVT_REKEY_FAIL : BitRange := ⟨28, 28⟩
def SEC_EVT_PKG_DONE : BitRange := ⟨27, 27⟩
def SEC_EVT_DEBUG_OPENED : BitRange := ⟨26, 26⟩
def SEC_EVT_DEBUG_CLOSED : BitRange := ⟨25, 25⟩
def SEC_EVT_OWNER_CHANGED : BitRange := ⟨24, 24⟩
def SEC_EVT_REPORT_READY : BitRange := ⟨23, 23⟩
def SEC_EVT_PEER_DEBUG : BitRange := ⟨22, 22⟩
def SEC_NOTIFY_EN : BitRange := ⟨31, 31⟩
def SEC_NOTIFY_DUNE : BitRange := ⟨13, 11⟩
def SEC_NOTIFY_CNQ : BitRange := ⟨10, 0⟩
def SEC_DBG_NONCE_NONCE : BitRange := ⟨31, 0⟩
def SEC_DBG_REMAIN_SECONDS : BitRange := ⟨16, 0⟩
def SEC_MIRROR_EPOCH_EPOCH : BitRange := ⟨31, 0⟩
def SEC_CERT_LEN_LEN : BitRange := ⟨13, 0⟩
def SEC_LOG_SEL_SEQ : BitRange := ⟨31, 0⟩
def SEC_ATT_NONCE_NONCE : BitRange := ⟨31, 0⟩
def SEC_REPORT_DATA : BitRange := ⟨31, 0⟩
def SEC_CERTS_DATA : BitRange := ⟨31, 0⟩
def SEC_LOGWIN_DATA : BitRange := ⟨31, 0⟩
def SEC_LINK_STATE : BitRange := ⟨31, 28⟩
def SEC_LINK_REASON : BitRange := ⟨23, 16⟩
def SEC_LINK_EPOCH : BitRange := ⟨15, 0⟩
def MGT_TRIAD_STATE : BitRange := ⟨31, 28⟩
def MGT_TRIAD_CORE_OK : BitRange := ⟨27, 25⟩
def MGT_TRIAD_HELD_CAUSE : BitRange := ⟨23, 16⟩
def MGT_EVT_RESYNC : BitRange := ⟨31, 31⟩
def MGT_EVT_DUAL : BitRange := ⟨30, 30⟩
def MGT_EVT_HELD : BitRange := ⟨29, 29⟩
def MGT_EVT_ORDER_DONE : BitRange := ⟨28, 28⟩
def MGT_EVT_ORDER_REFUSED : BitRange := ⟨27, 27⟩
def MGT_EVT_ORDER_LATE : BitRange := ⟨26, 26⟩
def MGT_EVT_FENCED : BitRange := ⟨25, 25⟩
def MGT_EVT_PEER_HELD : BitRange := ⟨24, 24⟩
def MGT_EVT_DRAIN_TMO : BitRange := ⟨23, 23⟩
def MGT_EVT_FN_DONE : BitRange := ⟨22, 22⟩
def MGT_EVT_MIRAGE_MISMATCH : BitRange := ⟨21, 21⟩
def MGT_EVT_MIRAGE_FAILED : BitRange := ⟨20, 20⟩
def MGT_EVT_MIRAGE_PROMOTED : BitRange := ⟨19, 19⟩
def MGT_EVT_TWIN_PASSED : BitRange := ⟨18, 18⟩
def MGT_NOTIFY_EN : BitRange := ⟨31, 31⟩
def MGT_NOTIFY_DUNE : BitRange := ⟨13, 11⟩
def MGT_NOTIFY_CNQ : BitRange := ⟨10, 0⟩
def MGT_FN_CTRL_KEY : BitRange := ⟨31, 24⟩
def MGT_FN_CTRL_ENABLE : BitRange := ⟨23, 23⟩
def MGT_FN_CTRL_DISABLE : BitRange := ⟨22, 22⟩
def MGT_FN_CTRL_IMMEDIATE : BitRange := ⟨21, 21⟩
def MGT_FN_CTRL_KIND : BitRange := ⟨20, 19⟩
def MGT_FN_CTRL_INDEX : BitRange := ⟨13, 0⟩
def MGT_FN_STATUS_RESULT : BitRange := ⟨31, 28⟩
def MGT_FN_STATUS_PENDING : BitRange := ⟨27, 27⟩
def MGT_FN_STATUS_STATE : BitRange := ⟨26, 24⟩
def MGT_FN_STATUS_REMAIN : BitRange := ⟨23, 0⟩
def MGT_FN_CFG_DRAIN_TMO_MS : BitRange := ⟨15, 0⟩
def MGT_CFG_HELD_AVOID : BitRange := ⟨31, 31⟩
def MGT_ORD_ADDR_ADDR : BitRange := ⟨31, 0⟩
def MGT_ORD_LEN_LEN : BitRange := ⟨15, 0⟩
def MGT_ORD_CTRL_KEY : BitRange := ⟨31, 24⟩
def MGT_ORD_CTRL_SUBMIT : BitRange := ⟨0, 0⟩
def MGT_ORD_STATUS_RESULT : BitRange := ⟨31, 28⟩
def MGT_ORD_STATUS_BUSY : BitRange := ⟨27, 27⟩
def MGT_ORD_STATUS_SIGS_VALID : BitRange := ⟨23, 20⟩
def MGT_ORD_LAST_SEQ : BitRange := ⟨31, 0⟩
def MGT_EXPEL_SELF_EXPELLED : BitRange := ⟨31, 31⟩
def MGT_EXPEL_COUNT : BitRange := ⟨10, 0⟩
def MGT_FENCE_STATE : BitRange := ⟨31, 28⟩
def MGT_FENCE_ELECTRICAL : BitRange := ⟨27, 27⟩
def MGT_PEER_HELD_VALID : BitRange := ⟨31, 31⟩
def MGT_PEER_HELD_PORT : BitRange := ⟨10, 0⟩
def MGT_PEER_SERIAL_SERIAL : BitRange := ⟨31, 0⟩
def MGT_MIRAGE_CFG_PROMOTE_SWAP : BitRange := ⟨31, 31⟩
def MGT_MIRAGE_CFG_FAIL_MAX : BitRange := ⟨23, 16⟩
def MGT_MIRAGE_CFG_STEPS : BitRange := ⟨15, 0⟩
def MGT_TWIN_CFG_ROLE : BitRange := ⟨31, 30⟩
def MGT_TWIN_CFG_PORT : BitRange := ⟨10, 0⟩
def MGT_TWIN_STATUS_PASSED : BitRange := ⟨31, 31⟩
def MGT_TWIN_STATUS_MATCHED : BitRange := ⟨15, 0⟩
def MGT_PORT_GEN_GEN0 : BitRange := ⟨31, 31⟩
def PWR_STATUS_VIN48_GOOD : BitRange := ⟨31, 31⟩
def PWR_STATUS_VAUX5_OK : BitRange := ⟨30, 30⟩
def PWR_VIN48_VOLT : BitRange := ⟨15, 0⟩
def PWR_IIN48_CURR : BitRange := ⟨15, 0⟩
def PWR_PIN48_POWER : BitRange := ⟨15, 0⟩
def PWR_VAUX5_VOLT : BitRange := ⟨15, 0⟩
def PWR_PAUX5_POWER : BitRange := ⟨15, 0⟩
def PWR_LIMIT_WATTS : BitRange := ⟨15, 0⟩
def PWR_EVT_OVER_LIMIT : BitRange := ⟨31, 31⟩
def PWR_EVT_VIN48_RANGE : BitRange := ⟨30, 30⟩
def PWR_EVT_VAUX5_RANGE : BitRange := ⟨29, 29⟩
def PWR_NOTIFY_EN : BitRange := ⟨31, 31⟩
def PWR_NOTIFY_DUNE : BitRange := ⟨13, 11⟩
def PWR_NOTIFY_CNQ : BitRange := ⟨10, 0⟩
def PWR_DUNE_POWER : BitRange := ⟨15, 0⟩
def PWR_TILES_POWER : BitRange := ⟨15, 0⟩
def PWR_OASIS_POWER : BitRange := ⟨15, 0⟩
def PWR_PLT_POWER : BitRange := ⟨15, 0⟩
def PWR_PEAK_POWER : BitRange := ⟨15, 0⟩
def PLT_DEVICE_ID_MEMBER : BitRange := ⟨31, 16⟩
def PLT_DEVICE_ID_VARIANT : BitRange := ⟨15, 12⟩
def PLT_DEVICE_ID_STEP_LETTER : BitRange := ⟨7, 4⟩
def PLT_DEVICE_ID_STEP_DIGIT : BitRange := ⟨3, 0⟩
def IMG_CTRL_KEY : BitRange := ⟨31, 24⟩
def IMG_CTRL_SEAL : BitRange := ⟨2, 2⟩
def IMG_CTRL_RELOAD : BitRange := ⟨1, 1⟩
def IMG_SRC_SRC : BitRange := ⟨1, 0⟩
def IMG_HOST_ADDR_LO_ADDR : BitRange := ⟨31, 12⟩
def IMG_INFO_PERSONALITY : BitRange := ⟨31, 24⟩
def IMG_INFO_CONTRACT_VER : BitRange := ⟨23, 8⟩
def IMG_INFO_CONTRACT_MAX : BitRange := ⟨7, 0⟩
def PLT_READY_SUM_MGT_READY : BitRange := ⟨31, 31⟩
def PLT_READY_SUM_TIM_READY : BitRange := ⟨30, 30⟩
def PLT_READY_SUM_TIM_FINE : BitRange := ⟨29, 29⟩
def PLT_READY_SUM_ALL_READY : BitRange := ⟨28, 28⟩
def PLT_READY_SUM_DUNE_PWR : BitRange := ⟨27, 20⟩
def PLT_READY_SUM_SWC_READY : BitRange := ⟨19, 12⟩
def PLT_READY_SUM_OASIS : BitRange := ⟨11, 0⟩
def PLT_READY_EVT_MGT_READY : BitRange := ⟨31, 31⟩
def PLT_READY_EVT_TIM_READY : BitRange := ⟨30, 30⟩
def PLT_READY_EVT_TIM_FINE : BitRange := ⟨29, 29⟩
def PLT_READY_EVT_UNIT : BitRange := ⟨28, 28⟩
def PLT_READY_EVT_DUNE_PWR : BitRange := ⟨27, 20⟩
def PLT_READY_EVT_SWC_READY : BitRange := ⟨19, 12⟩
def PLT_READY_EVT_OASIS : BitRange := ⟨11, 0⟩
def HIF_CQ_CFG_ENABLE : BitRange := ⟨31, 31⟩
def HIF_CQ_CFG_LOG2_SIZE : BitRange := ⟨28, 24⟩
def HIF_CQ_CFG_PART : BitRange := ⟨23, 20⟩
def HIF_CQ_CFG_JOB_CHECK : BitRange := ⟨19, 19⟩
def HIF_CQ_CFG_CNQ : BitRange := ⟨10, 0⟩
def HIF_CNQ_CFG_ENABLE : BitRange := ⟨31, 31⟩
def HIF_CNQ_CFG_TYPE : BitRange := ⟨30, 29⟩
def HIF_CNQ_CFG_DEST : BitRange := ⟨28, 28⟩
def HIF_CNQ_CFG_LOG2_SIZE : BitRange := ⟨27, 23⟩
def HIF_CNQ_CFG_INTR_EN : BitRange := ⟨22, 22⟩
def HIF_CNQ_CFG_VECTOR : BitRange := ⟨21, 11⟩
def HIF_CNT_VALUE : BitRange := ⟨19, 0⟩
def SWC_QCFG0_SPILL_EN : BitRange := ⟨31, 31⟩
def SWC_QCFG0_PRIO : BitRange := ⟨30, 28⟩
def SWC_QCFG0_YEL_PROF : BitRange := ⟨27, 22⟩
def SWC_QCFG0_RED_PROF : BitRange := ⟨21, 16⟩
def SWC_QCFG0_QMAX : BitRange := ⟨15, 0⟩
def SWC_QCFG1_REFILL_MARK : BitRange := ⟨15, 0⟩
def SWC_WRED0_MIN_TH : BitRange := ⟨18, 0⟩
def SWC_WRED1_MAX_TH : BitRange := ⟨18, 0⟩
def SWC_WRED2_MAX_P : BitRange := ⟨31, 24⟩
def SWC_WRED2_W_EXP : BitRange := ⟨3, 0⟩
def SWC_POL0_EN : BitRange := ⟨31, 31⟩
def SWC_POL0_AWARE : BitRange := ⟨30, 30⟩
def SWC_POL0_CIR : BitRange := ⟨21, 0⟩
def SWC_POL1_PIR : BitRange := ⟨21, 0⟩
def SWC_POL2_CBS : BitRange := ⟨23, 0⟩
def SWC_POL3_PBS : BitRange := ⟨23, 0⟩
def SWC_MIR0_EN : BitRange := ⟨31, 31⟩
def SWC_MIR0_SRC_KIND : BitRange := ⟨30, 29⟩
def SWC_MIR0_TO_FIFO : BitRange := ⟨28, 28⟩
def SWC_MIR0_SRC_PORT : BitRange := ⟨10, 0⟩
def SWC_MIR1_DEST : BitRange := ⟨10, 0⟩
def SWC_MIR2_TRUNC : BitRange := ⟨13, 0⟩
def SWC_MIR3_SAMPLE_N : BitRange := ⟨23, 0⟩
def SWC_MIR4_DEST_EP : BitRange := ⟨23, 0⟩
def CHK_UNIT_STATUS_MISMATCH : BitRange := ⟨31, 31⟩
def CHK_UNIT_STATUS_DONE : BitRange := ⟨30, 30⟩
def CHK_UNIT_STATUS_ERR : BitRange := ⟨29, 29⟩
def FWD_PUNT_CFG_EN : BitRange := ⟨31, 31⟩
def FWD_PUNT_CFG_SNAP : BitRange := ⟨23, 16⟩
def FWD_PUNT_CFG_CNQ : BitRange := ⟨10, 0⟩

end F

/-! ## Rows, by region of the window -/

def regRowsIMG : List RegRow := [
  ⟨0x10008, [], 0, 0, 0, 0, 0⟩,
  ⟨0x10020, [], 0, 0, 0, 0, 0xFFFF⟩,
  ⟨0x10000, [], 0, 0, 0, 0xFF000006, 0⟩,
  ⟨0x10004, [], 3, 0, 0, 0, 0⟩,
  ⟨0x1000C, [], 0xFFFFFFFF, 0, 0, 0, 0⟩,
  ⟨0x10010, [], 0xFFFFF000, 0, 0, 0, 0⟩,
  ⟨0x10014, [], 0xFFFFFFFF, 0, 0, 0, 0⟩,
  ⟨0x10018, [], 0, 0, 0, 0, 0⟩,
  ⟨0x1001C, [], 0, 0, 0, 0, 0⟩,
  ⟨0x10024, [], 0, 0, 0, 0, 1⟩,
  ⟨0x10040, [(12, 4)], 0, 0, 0, 0, 0⟩,
  ⟨0x10080, [(8, 4)], 0, 0, 0, 0, 0⟩]

def regRowsPLT : List RegRow := [
  ⟨0xA00, [], 0xFFFFFFFF, 0, 0, 0, 0⟩,
  ⟨0xA04, [], 0, 0xFFFF, 0, 0, 0⟩,
  ⟨0xA08, [], 0, 0, 0, 0, 0⟩,
  ⟨0xA0C, [], 0, 0, 0, 0, 0⟩,
  ⟨0xB00, [], 0, 0, 0, 0xFF000003, 0⟩,
  ⟨0xB04, [], 0, 0, 0, 0, 0⟩,
  ⟨0xC00, [], 0, 0, 0, 0, 0⟩,
  ⟨0xC04, [], 0, 0, 0xC0000000, 0, 0⟩,
  ⟨0xC08, [], 0xFFFFFFFF, 0, 0, 0, 0⟩,
  ⟨0xC0C, [], 0, 0, 0, 0, 0⟩,
  ⟨0x4000, [(128, 4)], 0, 0, 0, 0, 0⟩,
  ⟨0, [], 0, 0, 0, 0, 0x4A470010⟩,
  ⟨0x200, [], 0, 0, 0, 0, 0⟩,
  ⟨0x204, [], 0, 0, 0xFFFFFFFF, 0, 0⟩,
  ⟨0x300, [(64, 4)], 0, 0, 0, 0, 0⟩,
  ⟨0x400, [(64, 4)], 0, 0, 0, 0, 0⟩,
  ⟨0x500, [(128, 4)], 0, 0, 0, 0, 0⟩,
  ⟨0x700, [(8, 4)], 0, 0, 0, 0, 0⟩,
  ⟨0x800, [(128, 4)], 0, 0, 0, 0, 0⟩,
  ⟨0xB08, [], 0, 0, 0, 0, 0⟩,
  ⟨0xB20, [], 0, 0, 0, 0, 0⟩]

def regRowsHIF : List RegRow := [
  ⟨0x20100, [(2, 0x40)], 0xE0000FFF, 0, 0, 0, 0x20000000⟩,
  ⟨0x20104, [(2, 0x40)], 0xFFFFFFFF, 0, 0, 0, 0⟩,
  ⟨0x20108, [(2, 0x40)], 0x3F, 0, 0, 0, 0⟩,
  ⟨0x2010C, [(2, 0x40)], 0xFFFFFFFF, 0, 0, 0, 0⟩,
  ⟨0x20110, [(2, 0x40), (4, 4)], 0xFFFFFFFF, 0, 0, 0, 0⟩,
  ⟨0x20120, [(2, 0x40)], 0xFF, 0, 0, 0, 0⟩,
  ⟨0x20124, [(2, 0x40), (4, 4)], 0xFFFFFFFF, 0, 0, 0, 0⟩,
  ⟨0x20134, [(2, 0x40)], 0, 0, 0, 0, 0⟩,
  ⟨0x20138, [(2, 0x40)], 0, 0, 0, 0, 0⟩,
  ⟨0x2013C, [(2, 0x40)], 0, 0, 0, 0, 0⟩,
  ⟨0x20200, [], 0xE000FFFF, 0, 0, 0, 0⟩,
  ⟨0x20204, [(4, 4)], 0xFFFFFFFF, 0, 0, 0, 0⟩,
  ⟨0x20214, [], 0, 0, 0, 0, 0⟩,
  ⟨0x20000, [], 0, 0, 0xFE000000, 0, 0⟩,
  ⟨0x20004, [], 0, 0, 0, 0, 0⟩,
  ⟨0x20008, [], 0, 0, 0, 0, 0⟩,
  ⟨0x2000C, [], 0, 0, 0, 0, 0⟩,
  ⟨0x28000, [(2048, 0x10), (4, 4)], 0xFFFFFFFF, 0, 0, 0, 0⟩,
  ⟨0x30000, [(64, 4)], 0, 0, 0, 0, 0⟩]

def regRowsW6 : List RegRow := [
  ⟨0x2360004, [(8, 0x400000), (2048, 0x20)], 0xFFFF, 0, 0, 0, 0⟩,
  ⟨0x2360008, [(8, 0x400000), (2048, 0x20)], 0xFFFFF, 0, 0, 0, 0⟩,
  ⟨0x236000C, [(8, 0x400000), (2048, 0x20)], 0, 0, 0, 0, 0⟩,
  ⟨0x2360010, [(8, 0x400000), (2048, 0x20)], 0, 0, 0, 0, 0⟩,
  ⟨0x2370004, [(8, 0x400000), (2048, 0x20)], 0xFFFFFFFF, 0, 0, 0, 0⟩,
  ⟨0x2370008, [(8, 0x400000), (2048, 0x20)], 0xFFFFFFFF, 0, 0, 0, 0⟩,
  ⟨0x237000C, [(8, 0x400000), (2048, 0x20)], 0xFFFFFFFF, 0, 0, 0, 0⟩,
  ⟨0x2370010, [(8, 0x400000), (2048, 0x20)], 0, 0, 0, 0, 0⟩,
  ⟨0x2370014, [(8, 0x400000), (2048, 0x20)], 0xFFFFF, 0, 0, 0, 0⟩,
  ⟨0x2370018, [(8, 0x400000), (2048, 0x20)], 0, 0, 0x78, 0x80000000, 0⟩,
  ⟨0x237001C, [(8, 0x400000), (2048, 0x20)], 0, 0, 0, 0, 0⟩,
  ⟨0x2300000, [(8, 0x400000)], 0xFF00FFFF, 0, 0, 0, 0x32000064⟩,
  ⟨0x230000C, [(8, 0x400000)], 0xFFFF, 0, 0, 0, 0x3E8⟩,
  ⟨0x2300004, [(8, 0x400000)], 0, 0, 0xFFF00000, 0, 0⟩,
  ⟨0x2300008, [(8, 0x400000)], 0x800007FF, 0, 0, 0, 0⟩,
  ⟨0x2300010, [(8, 0x400000)], 0, 0, 0, 0xFF8001FF, 0⟩,
  ⟨0x2300014, [(8, 0x400000)], 0, 0, 0, 0, 0⟩,
  ⟨0x2300020, [(8, 0x400000)], 0, 0, 0, 0xFF00007F, 0⟩,
  ⟨0x2300024, [(8, 0x400000)], 0xFFFF00FF, 0, 0, 0, 0x371E0002⟩,
  ⟨0x2300028, [(8, 0x400000)], 0, 0, 0, 0, 0⟩,
  ⟨0x2300200, [(8, 0x400000), (16, 4)], 0, 0, 0, 0, 0⟩,
  ⟨0x2304000, [(8, 0x400000), (64, 0x80)], 0x3F3F0000, 0, 0, 0x80800000, 0x3F0000⟩,
  ⟨0x2304004, [(8, 0x400000), (64, 0x80)], 0x3FFF, 0, 0, 0, 0⟩,
  ⟨0x2304044, [(8, 0x400000), (64, 0x80)], 0xF, 0, 0, 0, 0⟩,
  ⟨0x2360000, [(8, 0x400000), (2048, 0x20)], 0x9F0807FF, 0, 0, 0, 0x6000000⟩,
  ⟨0x2370000, [(8, 0x400000), (2048, 0x20)], 0xFFFFF800, 0, 0, 0, 0x3020000⟩,
  ⟨0x2304008, [(8, 0x400000), (64, 0x80), (2, 4)], 0xFFFFFFFF, 0, 0, 0, 0⟩,
  ⟨0x2304010, [(8, 0x400000), (64, 0x80), (2, 4)], 0xFFFFFFFF, 0, 0, 0, 0⟩,
  ⟨0x2304018, [(8, 0x400000), (64, 0x80), (2, 4)], 0xFFFFFFFF, 0, 0, 0, 0⟩,
  ⟨0x2304020, [(8, 0x400000), (64, 0x80), (2, 4)], 0xFFFFFFFF, 0, 0, 0, 0⟩,
  ⟨0x2304028, [(8, 0x400000), (64, 0x80), (2, 4)], 0xFFFFFFFF, 0, 0, 0, 0⟩,
  ⟨0x2304030, [(8, 0x400000), (64, 0x80), (2, 4)], 0, 0, 0, 0, 0⟩,
  ⟨0x2304038, [(8, 0x400000), (64, 0x80), (2, 4)], 0xFFFFFFFF, 0, 0, 0, 0⟩,
  ⟨0x2304040, [(8, 0x400000), (64, 0x80)], 0xFFFFFFFF, 0, 0, 0, 0⟩,
  ⟨0x2304050, [(8, 0x400000), (64, 0x80), (2, 4)], 0, 0, 0, 0, 0⟩,
  ⟨0x2304058, [(8, 0x400000), (64, 0x80), (2, 4)], 0, 0, 0, 0, 0⟩,
  ⟨0x2304048, [(8, 0x400000), (64, 0x80)], 0, 0, 0xE0000000, 0, 0⟩,
  ⟨0x2308000, [(8, 0x400000), (2, 4)], 0, 0, 0, 0, 0⟩,
  ⟨0x2308008, [(8, 0x400000), (2, 4)], 0, 0, 0, 0, 0⟩,
  ⟨0x2308010, [(8, 0x400000), (2, 4)], 0, 0, 0, 0, 0⟩,
  ⟨0x2308018, [(8, 0x400000), (2, 4)], 0, 0, 0, 0, 0⟩,
  ⟨0x2308020, [(8, 0x400000), (2, 4)], 0, 0, 0, 0, 0⟩,
  ⟨0x2308028, [(8, 0x400000), (2, 4)], 0, 0, 0, 0, 0⟩,
  ⟨0x2308030, [(8, 0x400000), (2, 4)], 0, 0, 0, 0, 0⟩,
  ⟨0x2308038, [(8, 0x400000), (2, 4)], 0, 0, 0, 0, 0⟩,
  ⟨0x2309000, [(8, 0x400000), (512, 8), (2, 4)], 0, 0, 0, 0, 0⟩]

def regRowsW0 : List RegRow := [
  ⟨0x2001000, [(8, 0x400000), (16, 0x40), (8, 8)], 0x7FFFF, 0, 0, 0, 0⟩,
  ⟨0x2001004, [(8, 0x400000), (16, 0x40), (8, 8)], 0xFFFF, 0, 0, 0, 0⟩,
  ⟨0x2001800, [(8, 0x400000), (16, 0x40), (8, 8)], 0, 0, 0, 0, 0⟩,
  ⟨0x2001804, [(8, 0x400000), (16, 0x40), (8, 8)], 0, 0, 0, 0, 0⟩,
  ⟨0x2000010, [(8, 0x400000)], 0, 0, 0, 0, 0⟩,
  ⟨0x2000020, [(8, 0x400000)], 0x7FFFF, 0, 0, 0, 0x56000⟩,
  ⟨0x200002C, [(8, 0x400000)], 0x7FFFF, 0, 0, 0, 0x50000⟩,
  ⟨0x2000024, [(8, 0x400000)], 0, 0, 0xFE000000, 0, 0⟩,
  ⟨0x2000028, [(8, 0x400000)], 0x800007FF, 0, 0, 0, 0⟩,
  ⟨0x2001400, [(8, 0x400000), (16, 4)], 0xFFFFFFFF, 0, 0, 0, 0x40000⟩,
  ⟨0x2040000, [(8, 0x400000), (16384, 8)], 0xFFFFFFFF, 0, 0, 0, 0x8000FFFF⟩,
  ⟨0x2040004, [(8, 0x400000), (16384, 8)], 0xFFFF, 0, 0, 0, 0⟩,
  ⟨0x2008000, [(8, 0x400000), (64, 0x10)], 0x7FFFF, 0, 0, 0, 0⟩,
  ⟨0x2008004, [(8, 0x400000), (64, 0x10)], 0x7FFFF, 0, 0, 0, 0⟩,
  ⟨0x2008008, [(8, 0x400000), (64, 0x10)], 0xFF00000F, 0, 0, 0, 0⟩,
  ⟨0x2010000, [(8, 0x400000), (8192, 0x10)], 0xC03FFFFF, 0, 0, 0, 0⟩,
  ⟨0x2010004, [(8, 0x400000), (8192, 0x10)], 0x3FFFFF, 0, 0, 0, 0⟩,
  ⟨0x2010008, [(8, 0x400000), (8192, 0x10)], 0xFFFFFF, 0, 0, 0, 0⟩,
  ⟨0x201000C, [(8, 0x400000), (8192, 0x10)], 0xFFFFFF, 0, 0, 0, 0⟩,
  ⟨0x2060000, [(8, 0x400000), (64, 0x20)], 0xF00007FF, 0, 0, 0, 0⟩,
  ⟨0x2060004, [(8, 0x400000), (64, 0x20)], 0x7FF, 0, 0, 0, 0⟩,
  ⟨0x2060008, [(8, 0x400000), (64, 0x20)], 0x3FFF, 0, 0, 0, 0x40⟩,
  ⟨0x206000C, [(8, 0x400000), (64, 0x20)], 0xFFFFFF, 0, 0, 0, 1⟩,
  ⟨0x2060010, [(8, 0x400000), (64, 0x20)], 0xFFFFFF, 0, 0, 0, 0⟩,
  ⟨0x2000100, [(8, 0x400000), (2, 4)], 0, 0, 0, 0, 0⟩,
  ⟨0x2000108, [(8, 0x400000), (2, 4)], 0, 0, 0, 0, 0⟩,
  ⟨0x2000110, [(8, 0x400000), (2, 4)], 0, 0, 0, 0, 0⟩,
  ⟨0x2000118, [(8, 0x400000), (2, 4)], 0, 0, 0, 0, 0⟩,
  ⟨0x2000120, [(8, 0x400000), (2, 4)], 0, 0, 0, 0, 0⟩,
  ⟨0x2000128, [(8, 0x400000), (2, 4)], 0, 0, 0, 0, 0⟩,
  ⟨0x2000130, [(8, 0x400000), (2, 4)], 0, 0, 0, 0, 0⟩,
  ⟨0x2000138, [(8, 0x400000), (2, 4)], 0, 0, 0, 0, 0⟩]

def regRowsW2 : List RegRow := [
  ⟨0x2100000, [], 0xC00000FF, 0, 0, 0, 0x10⟩,
  ⟨0x2100004, [], 0, 0, 0, 0, 0⟩,
  ⟨0x2100008, [(8, 0x400000)], 0, 0, 0, 0, 0⟩,
  ⟨0x210000C, [(8, 0x400000)], 0, 0, 0, 0, 0⟩,
  ⟨0x2100010, [(8, 0x400000)], 0, 0, 0xFF000000, 0, 0⟩,
  ⟨0x2100014, [(8, 0x400000)], 0x800007FF, 0, 0, 0, 0⟩,
  ⟨0x2100018, [(8, 0x400000)], 0xFF007F, 0, 0, 0, 0xA0064⟩,
  ⟨0x2100020, [(8, 0x400000)], 0, 0, 0, 0, 0⟩,
  ⟨0x2100024, [(8, 0x400000)], 0, 0, 0, 0, 0⟩,
  ⟨0x2100028, [(8, 0x400000)], 0, 0, 0, 0, 0⟩,
  ⟨0x2100100, [(12, 4)], 0xFFFFFFFF, 0, 0, 0, 0⟩,
  ⟨0x2100130, [], 0, 0, 0, 0x80000000, 0⟩,
  ⟨0x2100180, [(16, 4)], 0, 0xFFFF, 0, 0, 0⟩,
  ⟨0x2100200, [(16, 0x10)], 0xFFFFFFFF, 0, 0, 0, 0⟩,
  ⟨0x2100204, [(16, 0x10)], 0xFFFF, 0, 0, 0, 0⟩,
  ⟨0x2100208, [(16, 0x10)], 0x8000FFFF, 0, 0, 0, 0⟩,
  ⟨0x2101000, [(8, 0x400000), (2, 4)], 0, 0, 0, 0, 0⟩,
  ⟨0x2101008, [(8, 0x400000), (2, 4)], 0, 0, 0, 0, 0⟩,
  ⟨0x2101010, [(8, 0x400000), (2, 4)], 0, 0, 0, 0, 0⟩,
  ⟨0x2101018, [(8, 0x400000), (2, 4)], 0, 0, 0, 0, 0⟩,
  ⟨0x2101020, [(8, 0x400000), (2, 4)], 0, 0, 0, 0, 0⟩,
  ⟨0x2101028, [(8, 0x400000), (2, 4)], 0, 0, 0, 0, 0⟩,
  ⟨0x2101030, [(8, 0x400000), (2, 4)], 0, 0, 0, 0, 0⟩,
  ⟨0x2101038, [(8, 0x400000), (2, 4)], 0, 0, 0, 0, 0⟩,
  ⟨0x2101040, [(8, 0x400000), (2, 4)], 0, 0, 0, 0, 0⟩,
  ⟨0x2101048, [(8, 0x400000), (2, 4)], 0, 0, 0, 0, 0⟩,
  ⟨0x2101050, [(8, 0x400000), (2, 4)], 0, 0, 0, 0, 0⟩,
  ⟨0x2101058, [(8, 0x400000), (2, 4)], 0, 0, 0, 0, 0⟩,
  ⟨0x2101060, [(8, 0x400000), (2, 4)], 0, 0, 0, 0, 0⟩,
  ⟨0x210001C, [(8, 0x400000)], 0x80FF07FF, 0, 0, 0, 0x20000⟩]

def regRowsW3 : List RegRow := [
  ⟨0x2180000, [], 0xFFFFFFF, 0, 0, 0, 0x24003E8⟩,
  ⟨0x2180004, [], 0, 0xFFFF0000, 0, 0, 0x8210000⟩,
  ⟨0x2180008, [], 0, 0, 0, 0, 0x20000000⟩,
  ⟨0x2180010, [(2, 4)], 0xFFFFFFFF, 0, 0, 0, 0⟩,
  ⟨0x2180018, [], 0x3FFFFFFF, 0, 0, 0, 0⟩,
  ⟨0x218001C, [], 0, 0, 0, 0xFF000006, 0⟩,
  ⟨0x2180020, [(2, 4)], 0xFFFFFFFF, 0, 0, 0, 0⟩,
  ⟨0x2180028, [(2, 4)], 0, 0, 0, 0, 0⟩,
  ⟨0x2180040, [], 0xFFFFFFFF, 0, 0, 0, 0x800060⟩,
  ⟨0x2180044, [], 0xFFFFFFFF, 0, 0, 0, 0x5A1900C8⟩,
  ⟨0x2180048, [], 0xFFFF, 0, 0, 0, 0x200⟩,
  ⟨0x2180030, [], 0, 0, 0xFFFC0000, 0, 0⟩,
  ⟨0x2180034, [], 0x800007FF, 0, 0, 0, 0⟩,
  ⟨0x2180100, [], 0xC003FFFF, 0, 0, 0, 0x80000000⟩,
  ⟨0x2180104, [], 0xFFFFFFFF, 0, 0, 0, 0⟩,
  ⟨0x2180180, [(6, 4)], 0, 0, 0, 0, 0x1000000⟩,
  ⟨0x21801A0, [(3, 4)], 0, 0, 0, 0, 0x40000000⟩,
  ⟨0x21801C0, [(6, 4)], 0, 0, 0, 0, 0⟩,
  ⟨0x2181000, [(8, 0x400000), (2, 4)], 0, 0, 0, 0, 0⟩,
  ⟨0x2181008, [(8, 0x400000), (2, 4)], 0, 0, 0, 0, 0⟩,
  ⟨0x2181010, [(8, 0x400000), (2, 4)], 0, 0, 0, 0, 0⟩,
  ⟨0x2181018, [(8, 0x400000), (2, 4)], 0, 0, 0, 0, 0⟩,
  ⟨0x2181020, [(8, 0x400000), (2, 4)], 0, 0, 0, 0, 0⟩,
  ⟨0x2181028, [(8, 0x400000), (2, 4)], 0, 0, 0, 0, 0⟩,
  ⟨0x2181030, [(8, 0x400000), (2, 4)], 0, 0, 0, 0, 0⟩,
  ⟨0x2181038, [(8, 0x400000), (2, 4)], 0, 0, 0, 0, 0⟩,
  ⟨0x2181040, [(8, 0x400000), (2, 4)], 0, 0, 0, 0, 0⟩,
  ⟨0x2181048, [(8, 0x400000), (2, 4)], 0, 0, 0, 0, 0⟩,
  ⟨0x2181050, [(8, 0x400000), (2, 4)], 0, 0, 0, 0, 0⟩,
  ⟨0x2181058, [(8, 0x400000), (2, 4)], 0, 0, 0, 0, 0⟩,
  ⟨0x2181060, [(8, 0x400000), (2, 4)], 0, 0, 0, 0, 0⟩,
  ⟨0x2181068, [(8, 0x400000), (2, 4)], 0, 0, 0, 0, 0⟩]

def regRowsTIM : List RegRow := [
  ⟨0x40000, [], 0, 0, 0, 0xFF000007, 0⟩,
  ⟨0x40004, [], 0, 0, 0, 0, 0⟩,
  ⟨0x40008, [], 0, 0xFF000000, 0, 0, 0⟩,
  ⟨0x4000C, [], 0x3FFFFFFF, 0, 0, 0, 0x64⟩,
  ⟨0x40010, [(2, 4)], 0, 0, 0, 0, 0⟩,
  ⟨0x40018, [], 0, 0, 0, 0, 0⟩,
  ⟨0x4001C, [], 0, 0, 0, 0, 0⟩,
  ⟨0x40020, [], 0, 0, 0, 0, 0⟩,
  ⟨0x40024, [(2, 4)], 0, 0, 0, 0, 0⟩,
  ⟨0x4002C, [], 0, 0, 0, 0, 0⟩,
  ⟨0x40030, [], 0, 0, 0xFFE00000, 0, 0⟩,
  ⟨0x40034, [], 0x80003FFF, 0, 0, 0, 0⟩,
  ⟨0x40038, [], 0, 0, 0, 0, 0⟩,
  ⟨0x4003C, [], 0, 0, 0, 0, 0⟩,
  ⟨0x40040, [], 0xFF00, 0, 0, 0, 0x100⟩,
  ⟨0x40050, [], 0xFFCFFFFF, 0, 0, 0, 0x1800000⟩,
  ⟨0x40054, [(2, 4)], 0xFFFFFFFF, 0, 0, 0, 0⟩,
  ⟨0x40060, [(2, 4)], 0, 0, 0, 0, 0⟩,
  ⟨0x40068, [], 0, 0, 0, 0, 0⟩,
  ⟨0x4006C, [], 0, 0, 0, 0, 0⟩,
  ⟨0x40070, [], 0x80000000, 0, 0, 0, 0⟩,
  ⟨0x40F00, [(2, 4)], 0xE00FFFFF, 0, 0, 0, 0⟩,
  ⟨0x41000, [(2048, 4)], 0xC00FFFFF, 0, 0, 0, 0xC0000000⟩]

def regRowsW4 : List RegRow := [
  ⟨0x2200100, [(8, 0x400000), (32, 0x40)], 0, 0, 0, 0xFF00000E, 0⟩,
  ⟨0x2200104, [(8, 0x400000), (32, 0x40)], 0, 0, 0, 0, 0⟩,
  ⟨0x2200108, [(8, 0x400000), (32, 0x40)], 0x3FFFFFFF, 0, 0, 0, 0⟩,
  ⟨0x220010C, [(8, 0x400000), (32, 0x40)], 0x1FFF, 0, 0, 0, 0⟩,
  ⟨0x2200110, [(8, 0x400000), (32, 0x40), (2, 4)], 0xFFFFFFFF, 0, 0, 0, 0⟩,
  ⟨0x2200118, [(8, 0x400000), (32, 0x40)], 0x3FFFFFFF, 0, 0, 0, 0⟩,
  ⟨0x220011C, [(8, 0x400000), (32, 0x40)], 0, 0, 0, 0, 0⟩,
  ⟨0x2200120, [(8, 0x400000), (32, 0x40)], 0, 0, 0, 0, 0⟩,
  ⟨0x2200124, [(8, 0x400000), (32, 0x40)], 0, 0, 0, 0, 0⟩,
  ⟨0x2200128, [(8, 0x400000), (32, 0x40)], 0, 0, 0, 0, 0⟩,
  ⟨0x2200000, [(8, 0x400000)], 0, 0, 0xFE000000, 0, 0⟩,
  ⟨0x2200004, [(8, 0x400000)], 0x800007FF, 0, 0, 0, 0⟩,
  ⟨0x2200010, [(8, 0x400000)], 0x9F000FFF, 0, 0, 0, 0x80000000⟩,
  ⟨0x2200014, [(8, 0x400000)], 0xFFFFFFFF, 0, 0, 0, 0⟩,
  ⟨0x2200018, [(8, 0x400000)], 0xFFFFFFFF, 0, 0, 0, 0⟩,
  ⟨0x2210000, [(8, 0x400000), (256, 0x80), (8, 0x10)], 0x3FFFFF, 0, 0, 0, 0⟩,
  ⟨0x2210004, [(8, 0x400000), (256, 0x80), (8, 0x10)], 0xFFFFFF, 0, 0, 0, 0⟩,
  ⟨0x2210008, [(8, 0x400000), (256, 0x80), (8, 0x10)], 0, 0, 0, 0, 0⟩,
  ⟨0x2220000, [(8, 0x400000), (256, 8)], 0x1FFFFF, 0, 0, 0, 0x33767⟩,
  ⟨0x2220004, [(8, 0x400000), (256, 8)], 0xFFFFFFF, 0, 0, 0, 0x1111111⟩,
  ⟨0x2230000, [(8, 0x400000), (12288, 4)], 0xFF, 0, 0, 0, 1⟩,
  ⟨0x2240000, [(8, 0x400000), (32, 0x20), (2, 4)], 0, 0, 0, 0, 0⟩,
  ⟨0x2240008, [(8, 0x400000), (32, 0x20), (2, 4)], 0, 0, 0, 0, 0⟩,
  ⟨0x2240010, [(8, 0x400000), (32, 0x20), (2, 4)], 0, 0, 0, 0, 0⟩,
  ⟨0x2240018, [(8, 0x400000), (32, 0x20), (2, 4)], 0, 0, 0, 0, 0⟩]

def regRowsW5 : List RegRow := [
  ⟨0x2280000, [(8, 0x400000)], 0x800000FF, 0, 0, 0, 0x80000002⟩,
  ⟨0x2280004, [(8, 0x400000)], 0, 0, 0xF0000000, 0, 0⟩,
  ⟨0x2280008, [(8, 0x400000)], 0x800007FF, 0, 0, 0, 0⟩,
  ⟨0x228000C, [(8, 0x400000)], 0, 0, 0, 0, 0⟩,
  ⟨0x2280010, [(8, 0x400000)], 0, 0, 0, 0xFFF801FF, 0⟩,
  ⟨0x2280014, [(8, 0x400000)], 0, 0, 0, 0, 0⟩,
  ⟨0x2280020, [(8, 0x400000)], 0, 0, 0, 0, 0⟩,
  ⟨0x2280024, [(8, 0x400000)], 0, 0, 0, 0, 0⟩,
  ⟨0x2280028, [(8, 0x400000)], 0, 0, 0, 0, 0⟩,
  ⟨0x2281000, [(8, 0x400000), (512, 4)], 0, 0, 0, 0, 0⟩,
  ⟨0x2282000, [(8, 0x400000), (32, 4)], 0, 0, 0, 0, 0⟩,
  ⟨0x2282100, [(8, 0x400000), (32, 4)], 0, 0, 0, 0, 0⟩,
  ⟨0x2288000, [(8, 0x400000), (2, 4)], 0, 0, 0, 0, 0⟩,
  ⟨0x2288008, [(8, 0x400000), (2, 4)], 0, 0, 0, 0, 0⟩,
  ⟨0x2288010, [(8, 0x400000), (2, 4)], 0, 0, 0, 0, 0⟩,
  ⟨0x2288018, [(8, 0x400000), (2, 4)], 0, 0, 0, 0, 0⟩,
  ⟨0x2288020, [(8, 0x400000), (2, 4)], 0, 0, 0, 0, 0⟩,
  ⟨0x2288028, [(8, 0x400000), (2, 4)], 0, 0, 0, 0, 0⟩]

def regRowsNUM : List RegRow := [
  ⟨0x80000, [], 0xF, 0, 0, 0, 0⟩,
  ⟨0x80004, [], 0, 0, 0, 0, 0⟩,
  ⟨0x80008, [], 0, 0, 0, 0, 0⟩,
  ⟨0x80010, [], 0, 0, 0xF8000000, 0, 0⟩,
  ⟨0x80014, [], 0x80003FFF, 0, 0, 0, 0⟩,
  ⟨0x81000, [(16, 0x40), (2, 4)], 0, 0, 0, 0, 0⟩,
  ⟨0x81008, [(16, 0x40), (2, 4)], 0, 0, 0, 0, 0⟩,
  ⟨0x81010, [(16, 0x40), (2, 4)], 0, 0, 0, 0, 0⟩,
  ⟨0x81018, [(16, 0x40), (2, 4)], 0, 0, 0, 0, 0⟩,
  ⟨0x81020, [(16, 0x40), (2, 4)], 0, 0, 0, 0, 0⟩,
  ⟨0x81028, [(16, 0x40), (2, 4)], 0, 0, 0, 0, 0⟩]

def regRowsCOL : List RegRow := [
  ⟨0x100000, [], 0xF00FFFF, 0, 0, 0, 0x2000064⟩,
  ⟨0x100004, [], 0x80FFFFFF, 0, 0, 0, 0x40032⟩,
  ⟨0x100008, [], 0, 0, 0xFFC00000, 0, 0⟩,
  ⟨0x10000C, [], 0x80003FFF, 0, 0, 0, 0⟩,
  ⟨0x100100, [], 0xFFFF, 0, 0, 0, 0⟩,
  ⟨0x100104, [], 0, 0, 0, 0, 0⟩,
  ⟨0x100108, [], 0, 0, 0, 0, 0⟩,
  ⟨0x10010C, [], 0, 0, 0, 0, 0⟩,
  ⟨0x100110, [], 0, 0, 0, 0, 0⟩,
  ⟨0x101000, [(2, 4)], 0, 0, 0, 0, 0⟩,
  ⟨0x101008, [(2, 4)], 0, 0, 0, 0, 0⟩,
  ⟨0x101010, [(2, 4)], 0, 0, 0, 0, 0⟩,
  ⟨0x101018, [(2, 4)], 0, 0, 0, 0, 0⟩,
  ⟨0x101020, [(2, 4)], 0, 0, 0, 0, 0⟩,
  ⟨0x101028, [(2, 4)], 0, 0, 0, 0, 0⟩,
  ⟨0x101030, [(2, 4)], 0, 0, 0, 0, 0⟩,
  ⟨0x101038, [(2, 4)], 0, 0, 0, 0, 0⟩,
  ⟨0x101040, [(2, 4)], 0, 0, 0, 0, 0⟩,
  ⟨0x101048, [(2, 4)], 0, 0, 0, 0, 0⟩]

def regRowsOPT : List RegRow := [
  ⟨0x800000, [(64, 0x10000)], 0, 0, 0, 0, 0x4000⟩,
  ⟨0x800004, [(64, 0x10000)], 0, 0, 0xFFFE0000, 0, 0⟩,
  ⟨0x800008, [(64, 0x10000)], 0x800007FF, 0, 0, 0, 0⟩,
  ⟨0x80000C, [(64, 0x10000)], 0xFFFF0000, 0, 0, 0, 0xFCE00000⟩,
  ⟨0x800010, [(64, 0x10000)], 0, 0, 0, 0xFF00003F, 0⟩,
  ⟨0x800100, [(64, 0x10000), (32, 0x10)], 0, 0, 0, 0, 0⟩,
  ⟨0x800104, [(64, 0x10000), (32, 0x10)], 0, 0, 0, 0, 0⟩,
  ⟨0x800108, [(64, 0x10000), (32, 0x10)], 0, 0, 0, 0, 0⟩,
  ⟨0x80010C, [(64, 0x10000), (32, 0x10)], 0, 0, 0, 0, 0⟩,
  ⟨0x800300, [(64, 0x10000), (4, 4)], 0, 0, 0, 0, 0⟩,
  ⟨0x800400, [(64, 0x10000), (4, 4)], 0, 0, 0, 0, 0x3F0000⟩,
  ⟨0x800500, [(64, 0x10000), (32, 4)], 0, 0, 0, 0, 0⟩,
  ⟨0x800600, [(64, 0x10000)], 0, 0, 0, 0xFF000003, 0⟩,
  ⟨0x800604, [(64, 0x10000)], 0xFFF00000, 0, 0, 0, 0⟩,
  ⟨0x800608, [(64, 0x10000)], 0xFFF0FFF, 0, 0, 0, 0xFA0⟩,
  ⟨0x80060C, [(64, 0x10000)], 0, 0, 0, 0, 0⟩,
  ⟨0x808000, [(64, 0x10000), (4096, 4)], 0, 0, 0, 0, 0⟩,
  ⟨0x801000, [(64, 0x10000), (2, 4)], 0, 0, 0, 0, 0⟩,
  ⟨0x801008, [(64, 0x10000), (2, 4)], 0, 0, 0, 0, 0⟩,
  ⟨0x801010, [(64, 0x10000), (2, 4)], 0, 0, 0, 0, 0⟩,
  ⟨0x801018, [(64, 0x10000), (2, 4)], 0, 0, 0, 0, 0⟩,
  ⟨0x801020, [(64, 0x10000), (2, 4)], 0, 0, 0, 0, 0⟩,
  ⟨0x801028, [(64, 0x10000), (2, 4)], 0, 0, 0, 0, 0⟩,
  ⟨0x801030, [(64, 0x10000), (2, 4)], 0, 0, 0, 0, 0⟩,
  ⟨0x801038, [(64, 0x10000), (2, 4)], 0, 0, 0, 0, 0⟩,
  ⟨0x801040, [(64, 0x10000), (2, 4)], 0, 0, 0, 0, 0⟩]

def regRowsSEC : List RegRow := [
  ⟨0x50000, [], 0, 0, 0, 0xFF00000E, 0⟩,
  ⟨0x50004, [], 0, 0, 0, 0, 0x40000000⟩,
  ⟨0x50008, [(2, 4)], 0xFFFFFFFF, 0, 0, 0, 0⟩,
  ⟨0x50010, [], 0xFFFF, 0, 0, 0, 0⟩,
  ⟨0x50014, [], 0, 0, 0xFFC00000, 0, 0⟩,
  ⟨0x50018, [], 0x80003FFF, 0, 0, 0, 0⟩,
  ⟨0x50020, [(8, 4)], 0, 0, 0, 0, 0⟩,
  ⟨0x50040, [], 0, 0, 0, 0, 0⟩,
  ⟨0x50044, [], 0, 0, 0, 0, 0⟩,
  ⟨0x50048, [], 0, 0, 0, 0, 0⟩,
  ⟨0x5004C, [], 0xFFFFFFFF, 0, 0, 0, 0⟩,
  ⟨0x50060, [(8, 4)], 0xFFFFFFFF, 0, 0, 0, 0⟩,
  ⟨0x51000, [(2048, 4)], 0, 0, 0, 0, 0⟩,
  ⟨0x54000, [(4096, 4)], 0, 0, 0, 0, 0⟩,
  ⟨0x58000, [(16, 4)], 0, 0, 0, 0, 0⟩,
  ⟨0x5C000, [(2048, 4)], 0, 0, 0, 0, 0⟩,
  ⟨0x5E000, [(2, 4)], 0, 0, 0, 0, 0⟩,
  ⟨0x5E008, [(2, 4)], 0, 0, 0, 0, 0⟩,
  ⟨0x5E010, [(2, 4)], 0, 0, 0, 0, 0⟩,
  ⟨0x5E018, [(2, 4)], 0, 0, 0, 0, 0⟩,
  ⟨0x5E020, [(2, 4)], 0, 0, 0, 0, 0⟩]

def regRowsMGT : List RegRow := [
  ⟨0x60000, [], 0, 0, 0, 0, 0xE000000⟩,
  ⟨0x60004, [], 0, 0, 0xFFFC0000, 0, 0⟩,
  ⟨0x60008, [], 0x80003FFF, 0, 0, 0, 0⟩,
  ⟨0x60010, [], 0, 0, 0, 0xFFF83FFF, 0⟩,
  ⟨0x60014, [], 0, 0, 0, 0, 0⟩,
  ⟨0x60018, [], 0xFFFF, 0, 0, 0, 0x3E8⟩,
  ⟨0x6001C, [], 0x80000000, 0, 0, 0, 0x80000000⟩,
  ⟨0x60020, [(2, 4)], 0xFFFFFFFF, 0, 0, 0, 0⟩,
  ⟨0x60028, [], 0xFFFF, 0, 0, 0, 0⟩,
  ⟨0x6002C, [], 0, 0, 0, 0xFF000001, 0⟩,
  ⟨0x60030, [], 0, 0, 0, 0, 0⟩,
  ⟨0x60034, [(2, 4)], 0, 0, 0, 0, 0⟩,
  ⟨0x6003C, [], 0, 0, 0, 0, 0⟩,
  ⟨0x60040, [(16, 4)], 0, 0, 0, 0, 0⟩,
  ⟨0x600A0, [], 0, 0, 0, 0, 0⟩,
  ⟨0x600A4, [(4, 4)], 0, 0, 0, 0, 0⟩,
  ⟨0x600C0, [], 0x80FFFFFF, 0, 0, 0, 0x30040⟩,
  ⟨0x600C4, [], 0, 0xC00007FF, 0, 0, 0⟩,
  ⟨0x600C8, [], 0, 0, 0, 0, 0⟩,
  ⟨0x64000, [(2048, 4)], 0x80000000, 0, 0, 0, 0⟩,
  ⟨0x61000, [(2, 4)], 0, 0, 0, 0, 0⟩,
  ⟨0x61008, [(2, 4)], 0, 0, 0, 0, 0⟩,
  ⟨0x61010, [(2, 4)], 0, 0, 0, 0, 0⟩,
  ⟨0x61018, [(2, 4)], 0, 0, 0, 0, 0⟩,
  ⟨0x61020, [(2, 4)], 0, 0, 0, 0, 0⟩,
  ⟨0x61028, [(2, 4)], 0, 0, 0, 0, 0⟩,
  ⟨0x61030, [(2, 4)], 0, 0, 0, 0, 0⟩,
  ⟨0x61038, [(2, 4)], 0, 0, 0, 0, 0⟩,
  ⟨0x61040, [(2, 4)], 0, 0, 0, 0, 0⟩]

def regRowsPWR : List RegRow := [
  ⟨0x70000, [], 0, 0, 0, 0, 0⟩,
  ⟨0x70004, [], 0, 0, 0, 0, 0⟩,
  ⟨0x70008, [], 0, 0, 0, 0, 0⟩,
  ⟨0x7000C, [], 0, 0, 0, 0, 0⟩,
  ⟨0x70010, [], 0, 0, 0, 0, 0⟩,
  ⟨0x70014, [], 0, 0, 0, 0, 0⟩,
  ⟨0x70018, [], 0xFFFF, 0, 0, 0, 0x12C0⟩,
  ⟨0x7001C, [], 0, 0, 0xE0000000, 0, 0⟩,
  ⟨0x70020, [], 0x80003FFF, 0, 0, 0, 0⟩,
  ⟨0x70040, [(8, 4)], 0, 0, 0, 0, 0⟩,
  ⟨0x70060, [(8, 4)], 0, 0, 0, 0, 0⟩,
  ⟨0x70080, [(12, 4)], 0, 0, 0, 0, 0⟩,
  ⟨0x700B0, [], 0, 0, 0, 0, 0⟩,
  ⟨0x700B4, [], 0, 0, 0, 0, 0⟩]

def regRowsW7 : List RegRow := [
  ⟨0x2380000, [(8, 0x400000), (4095, 4)], 0xFFFFF, 0, 0, 0, 0⟩]

def regRowsW1 : List RegRow := [
  ⟨0x2080000, [(8, 0x400000), (16384, 0x20), (2, 4)], 0, 0, 0, 0, 0⟩,
  ⟨0x2080008, [(8, 0x400000), (16384, 0x20), (2, 4)], 0, 0, 0, 0, 0⟩,
  ⟨0x2080010, [(8, 0x400000), (16384, 0x20), (2, 4)], 0, 0, 0, 0, 0⟩,
  ⟨0x2080018, [(8, 0x400000), (16384, 0x20), (2, 4)], 0, 0, 0, 0, 0⟩]

/-! ## Lookup -/

/-- Whether `o` is the offset of an instance given by the (count, stride) pairs. -/
def dimsHit : List (Nat × Nat) → Nat → Bool
  | [], o => o == 0
  | (n, st) :: rest, o => decide (o / st < n) && dimsHit rest (o % st)

/-- Whether the address `a` is one of the instances of the row. -/
def rowHits (r : RegRow) (a : Nat) : Bool :=
  decide (r.base ≤ a) && dimsHit r.dims (a - r.base)

/-- The rows of the region of the window in which `a` lies (Table 4.1). -/
def rowsAt (a : Nat) : List RegRow :=
  if 0x2000000 ≤ a then
    match (a - 0x2000000) % 0x400000 / 0x80000 with
    | 0 => regRowsW0 | 1 => regRowsW1 | 2 => regRowsW2 | 3 => regRowsW3
    | 4 => regRowsW4 | 5 => regRowsW5 | 6 => regRowsW6 | _ => regRowsW7
  else if 0x800000 ≤ a then regRowsOPT
  else if 0x100000 ≤ a then regRowsCOL
  else if 0x80000 ≤ a then regRowsNUM
  else if 0x70000 ≤ a then regRowsPWR
  else if 0x60000 ≤ a then regRowsMGT
  else if 0x50000 ≤ a then regRowsSEC
  else if 0x40000 ≤ a then regRowsTIM
  else if 0x20000 ≤ a then regRowsHIF
  else if 0x10000 ≤ a then regRowsIMG
  else regRowsPLT

/-- The row of the register at address `a`; none for reserved space. -/
def regRow (a : Nat) : Option RegRow :=
  (rowsAt a).find? (fun r => rowHits r a)

/-- The one home of a register. The erg-level registers of FWD and RTE show in the window of every dune
(spec/06 and spec/07, Registers); their home is the window of dune 0. -/
def regHome (a : Nat) : Nat :=
  if 0x2400000 ≤ a then
    let o := (a - 0x2000000) % 0x400000
    if (o / 0x80000 == 2 || o / 0x80000 == 3) && (regRow a).isNone && (regRow (0x2000000 + o)).isSome then
      0x2000000 + o
    else a
  else a

/-- The dune in whose window the address lies, or none for the platform die's registers (R81). -/
def windowDune (a : Nat) : Option Nat :=
  if 0x2000000 ≤ a ∧ a < 0x4000000 then some ((a - 0x2000000) / 0x400000) else none

/-- Queues that may spill (R126, Table 5.8): egress queues of classes 3 and 6, and staging queues. -/
def spillEligible (q : Nat) : Bool :=
  if q < 4096 then q % 8 == 3 || q % 8 == 6 else decide (q < 12288)

/-- The value a register holds after reset. SWC_QCFG0.SPILL_EN is 1 for the queues that may spill and 0 elsewhere, and
REFILL_MARK is 256 for egress and staging queues (Table 5.8; ports wider than one lane take theirs with the image). OPT_LANE_STATUS.LASER of lane i resets to i (Table 13.14); every other
register resets to the constant of its row. Reserved space reads 0 (R82). -/
def regReset (a : Nat) : Word :=
  match regRow a with
  | none => 0
  | some r =>
    if r.base = 0x2040000 then
      BitVec.ofNat 32 (if spillEligible ((a - 0x2040000) % 0x400000 / 8) then r.reset else r.reset % 2 ^ 31)
    else if r.base = 0x2040004 then
      BitVec.ofNat 32 (if (a - 0x2040004) % 0x400000 / 8 < 12288 then 256 else 0)
    else if r.base = 0x800100 then
      BitVec.ofNat 32 (r.reset + ((a - 0x800100) % 0x10000 / 0x10) * 2 ^ F.OPT_LANE_STATUS_LASER.lo)
    else BitVec.ofNat 32 r.reset

end Sys2Proof.Machine
end

