-- ==== Sys2Proof/Machine/Maps.lean ====
section
/-! DEFINITION. Sparse maps in canonical form, and the small list, bit-field and byte-order helpers that the rest of
the machine shares. A map lists only the keys whose value differs from what an unlisted key reads as, in strictly
rising order, so that equal maps are equal data. -/
namespace Sys2Proof.Machine

/-- A sparse map from numbers. -/
abbrev SMap (α : Type) := List (Nat × α)

/-- The value at a key; `d` is what an unlisted key reads as. -/
def SMap.get {α : Type} (d : Nat → α) : SMap α → Nat → α
  | [], a => d a
  | (k, v) :: m, a => if k = a then v else SMap.get d m a

/-- Drop a key. -/
def SMap.del {α : Type} : SMap α → Nat → SMap α
  | [], _ => []
  | (k, v) :: m, a => if k = a then SMap.del m a else (k, v) :: SMap.del m a

/-- List a key with a value, in its place. -/
def SMap.ins {α : Type} : SMap α → Nat → α → SMap α
  | [], a, x => [(a, x)]
  | (k, v) :: m, a, x =>
    if a < k then (a, x) :: (k, v) :: m
    else if a = k then (a, x) :: m
    else (k, v) :: SMap.ins m a x

/-- Set a key; a key that takes the value an unlisted key reads as is no longer listed. -/
def SMap.put {α : Type} [DecidableEq α] (d : Nat → α) (m : SMap α) (a : Nat) (x : α) : SMap α :=
  match m with
  | [] => if x = d a then [] else [(a, x)]
  | e :: m => if x = d a then SMap.del (e :: m) a else SMap.ins (e :: m) a x

/-- The canonical form, above a lower bound of the keys: keys strictly rising, no value that an unlisted key reads as. -/
def SMap.wfFrom {α : Type} [DecidableEq α] (d : Nat → α) : Nat → SMap α → Bool
  | _, [] => true
  | lo, (k, v) :: m => decide (lo ≤ k) && decide (v ≠ d k) && SMap.wfFrom d (k + 1) m

/-- The canonical form. -/
def SMap.wf {α : Type} [DecidableEq α] (d : Nat → α) (m : SMap α) : Bool :=
  SMap.wfFrom d 0 m

/-- Drop every key that `p` names. -/
def SMap.drop {α : Type} (p : Nat → Bool) (m : SMap α) : SMap α :=
  m.filter (fun e => !p e.1)

/-! ## Optional values: an unlisted key reads as none -/

/-- Look up a key in a map whose unlisted keys hold nothing. -/
def SMap.find {α : Type} : SMap α → Nat → Option α
  | [], _ => none
  | (k, v) :: m, a => if k = a then some v else SMap.find m a

/-- Update the value at a key, starting from `z` where the key is unlisted. -/
def SMap.upd {α : Type} (z : α) (m : SMap α) (a : Nat) (f : α → α) : SMap α :=
  SMap.ins m a (f ((SMap.find m a).getD z))

/-! ## Lists -/

/-- Replace element `i`, if there is one. -/
def setAt {α : Type} : List α → Nat → α → List α
  | [], _, _ => []
  | _ :: t, 0, x => x :: t
  | h :: t, i + 1, x => h :: setAt t i x

/-- Change element `i`, if there is one. -/
def modAt {α : Type} : List α → Nat → (α → α) → List α
  | [], _, _ => []
  | h :: t, 0, f => f h :: t
  | h :: t, i + 1, f => h :: modAt t i f

/-- Element `i` or `z`. -/
def getAt {α : Type} (z : α) (l : List α) (i : Nat) : α := (l[i]?).getD z

/-- Change the first element that `p` accepts. -/
def modFirst {α : Type} (p : α → Bool) (f : α → α) : List α → List α
  | [] => []
  | h :: t => if p h then f h :: t else h :: modFirst p f t

/-- The sum of a list of numbers. -/
def sumNat (l : List Nat) : Nat := l.foldl (· + ·) 0

/-- The largest of a list of numbers; 0 for none. -/
def maxNat (l : List Nat) : Nat := l.foldl max 0

/-- The least of a list of numbers; none for an empty list. -/
def minNat? (l : List Nat) : Option Nat :=
  l.foldl (fun o x => match o with | none => some x | some y => some (min x y)) none

/-- Insert in ascending order of a key. -/
def insertBy {α : Type} (key : α → Nat) (x : α) : List α → List α
  | [] => [x]
  | h :: t => if key x < key h then x :: h :: t else h :: insertBy key x t

/-- Stable sort in ascending order of a key. -/
def sortBy {α : Type} (key : α → Nat) (l : List α) : List α :=
  l.foldl (fun acc x => insertBy key x acc) []

/-! ## Bits, fields and byte order -/

/-- Bit `i` of a number. -/
def bitAt (n i : Nat) : Bool := n / 2 ^ i % 2 == 1

/-- The field of `w` bits from bit `lo` up. -/
def bitsAt (n lo w : Nat) : Nat := n / 2 ^ lo % 2 ^ w

/-- One as a number. -/
def b2n (b : Bool) : Nat := if b then 1 else 0

/-- The positions below `w` at which the number has a 1, in ascending order. -/
def onesBelow (n w : Nat) : List Nat := (List.range w).filter (fun i => bitAt n i)

/-- The number of ones below `w`. -/
def popCount (n w : Nat) : Nat := (onesBelow n w).length

/-- A big-endian byte string as a number (R13). -/
def beNat (l : List Byte) : Nat := l.foldl (fun acc b => acc * 256 + b.toNat) 0

/-- A number as `n` big-endian bytes (R13). -/
def natBe : Nat → Nat → List Byte
  | 0, _ => []
  | n + 1, v => BitVec.ofNat 8 (v / 256 ^ n) :: natBe n v

/-- The big-endian number in bytes `off` to `off + len - 1` of a byte string. -/
def beAt (l : List Byte) (off len : Nat) : Nat := beNat ((l.drop off).take len)

/-- The big-endian number in bytes `off` to `off + len - 1` of a structure of `n` bytes held as one number. -/
def fieldBe (n v off len : Nat) : Nat := v / 256 ^ (n - off - len) % 256 ^ len

/-- A number of `w` bits read as two's complement. -/
def signedOf (w n : Nat) : Int :=
  if n % 2 ^ w < 2 ^ (w - 1) then (n % 2 ^ w : Nat) else (n % 2 ^ w : Nat) - (2 ^ w : Nat)

/-- A number in two's complement of `w` bits. -/
def encodeSigned (w : Nat) (i : Int) : Nat := (i % (2 ^ w : Nat)).toNat

/-- Add, stopping at `top`. -/
def satAdd (top a b : Nat) : Nat := min top (a + b)

end Sys2Proof.Machine
end

