-- ==== Sys2Proof/Machine/State.lean ====
section
/-! DEFINITION. Everything the spec gives the module to hold, as plain data, and the state after reset. Registers live in
one sparse map by BAR0 address; what lies behind them is held block by block. -/
namespace Sys2Proof.Machine

/-! ## Platform die (spec/03, spec/14, spec/17) -/

/-- A Fault Signature Record (Tables 14.2 and 14.3), item by item. -/
structure Fsr where
  seq : Nat
  typ : Nat
  path : List Nat
  loc : List (Nat × Nat)
  sec : Nat
  ns : Nat
  timReady : Bool
  volt : Nat
  temp : Nat
  pace : Nat
  counts : List (Nat × Nat)
  part : Nat
  coll : List (Nat × Nat)
  detail : List (Nat × Nat)
  deriving DecidableEq, Repr

/-- Why dune domains are being switched off in order (Tables 3.10 and 17.5; R390). -/
inductive SeqKind where
  | trip
  | cold (cause : Nat)
  | fence (sys : Nat)
  deriving DecidableEq, Repr

/-- A power-down sequence in progress and the dunes it has still to switch off, in order. -/
structure DownSeq where
  kind : SeqKind
  todo : List Nat
  deriving DecidableEq, Repr

/-- The platform die's state behind its registers. -/
structure PlatState where
  auxOk : Bool
  vin48Good : Bool
  booting : Bool
  running : Bool
  straps : Nat
  conditionsLeft : Bool
  seq : Option DownSeq
  coldPending : Option Nat
  resetHeld : Bool
  fsrRing : List Fsr
  quarantine : List Nat
  selfTestFailed : List Nat
  oasisFails : SMap Nat
  creditsWithheld : Bool
  trimUser : SMap Int
  trimApplied : SMap Int
  deriving DecidableEq, Repr

/-- One-time-programmable memory of the platform die, with the laser record (R334): lasers off for good and retired lanes,
spares in use as (tile × 4 + spare, flat lane), and spares that failed. -/
structure OtpState where
  serial : Nat
  variant : Nat
  etherType : Nat
  vendorKey : Nat
  macs : List Nat
  ownerSlots : List (Option Nat)
  trims : SMap Int
  cert : List Byte
  laserMax : SMap Nat
  deadLasers : List Nat
  retiredLanes : List Nat
  usedSpares : List (Nat × Nat)
  failedSpares : List Nat
  deriving DecidableEq, Repr

/-- The levels of the management pins (Table 17.6). `driven` is false while VAUX5 is absent (R408). -/
structure PinState where
  resetN : Bool
  pgAux : Bool
  pgMain : Bool
  thermTripN : Bool
  ppsOut : Bool
  driven : Bool
  deriving DecidableEq, Repr

/-! ## Image (spec/02) -/

/-- A partition or system of section 0002h (Table 2.7). In spine personality every stack belongs to every scope. -/
structure Scope where
  num : Nat
  hallPart : Nat
  oasisGb : Nat
  ripples : Nat
  dunes : Nat
  stackMask : Nat
  deriving DecidableEq, Repr

/-- A port record (Table 2.9). -/
structure PortRec where
  num : Nat
  first : Nat
  width : Nat
  mode : Nat
  role : Nat
  dir : Nat
  deriving DecidableEq, Repr

/-- The torus record (Table 2.8): one (SIZE, COORD, DATELINE) per dimension. -/
structure Torus where
  dims : Nat
  axes : List (Nat × Nat × Nat)
  bypassTiles : Nat
  deriving DecidableEq, Repr

/-- A group record of the unit tree (Table 2.6). -/
structure UnitGroup where
  num : Nat
  level : Nat
  ofGroups : Bool
  members : List Nat
  deriving DecidableEq, Repr

/-- What the boot sections of the accepted image say, with the two digests that the attestation report names (Table 15.7). -/
structure ImgCfg where
  groups : List UnitGroup
  quotas : List (Nat × Nat)
  scopes : List Scope
  torus : Torus
  ports : List PortRec
  quorumK : Nat
  quorumN : Nat
  policyFlags : Nat
  partmapDigest : Nat
  policyDigest : Nat
  clearJobs : List Nat
  mgrKeys : List Nat
  contract : Nat
  seeds : List Nat
  trims : List (Nat × Nat × Int)
  deriving DecidableEq, Repr

/-- The image load (R57 to R62). -/
structure ImgState where
  header : Nat
  dir : List Nat
  cfg : ImgCfg
  tried : List ImgSlot
  cur : ImgSlot
  accepted : Bool
  active : List (Nat × Nat)
  discarded : List Nat
  bulk : List (Nat × List Byte)
  deriving DecidableEq, Repr

/-! ## Host interface (spec/04) -/

/-- STATE of a command's state word (R99). FREE has no slot. -/
inductive CmdState where
  | queued
  | waiting
  | running
  | claimed
  | done
  deriving DecidableEq, Repr

/-- One occupied slot of a command queue: the descriptor as a 64-byte big-endian number, its state word, and what its
completion record will carry. `no` numbers the slots of a queue in order of acceptance; `bad` marks a TAG that was
outstanding at acceptance (R94); `holds` marks a kernel command whose phase-1 tasks are not all generated (R90). -/
structure Slot where
  no : Nat
  desc : Nat
  st : CmdState
  status : Nat
  digest : Nat
  escalated : Nat
  saturated : Nat
  bad : Bool
  holds : Bool
  deriving DecidableEq, Repr

/-- A command queue's ring (R88, R99), with the size exponent and the completion queue that its last enable took from HIF_CQ_CFG
(log 202). -/
structure Cq where
  slots : List Slot
  nextNo : Nat
  log2 : Nat
  cnq : Nat
  deriving DecidableEq, Repr

/-- A packet for a FIFO: TYPE, whether it was cut, and its payload (R103). -/
structure FifoPkt where
  typ : Nat
  trunc : Bool
  payload : List Byte
  deriving DecidableEq, Repr

/-- A completion or notification queue behind its registers: the geometry latched at enable (R420), PHASE, the record
or byte count, the records that wait to be read as (command queue, slot number), staged packets, the mark for LOST,
the items of a fabric-destination queue, the instant of the read timer's last restart, and how many staged packets a pending
flush still waits for. -/
structure Cnq where
  typ : Nat
  dest : Nat
  log2 : Nat
  base : Nat
  phase : Bool
  count : Nat
  unread : List (Nat × Nat)
  staged : List FifoPkt
  lost : Bool
  gathered : List (List Byte)
  gatherAt : Nat
  timerAt : Nat
  flushLeft : Nat
  deriving DecidableEq, Repr

/-- A management port's state behind its registers (R86). -/
structure MgmtPort where
  linkUp : Bool
  v4Off : Bool
  v6Off : Bool
  gwMac4 : Option Nat
  gwMac6 : Option Nat
  echoSec : Nat
  echoCnt : Nat
  deriving DecidableEq, Repr

structure HifState where
  cqs : SMap Cq
  cnqs : SMap Cnq
  ports : List MgmtPort
  fsrSec : Nat
  fsrCnt : Nat
  deriving DecidableEq, Repr

/-! ## Switch core (spec/05) -/

/-- A packet inside the module: its Ethernet header, if it has one, its fabric header, if it has one, its payload,
and what ingress decided for it: `target` is the coordinate of a remote destination, `inOasis` names the stack on which the
resequencer holds cells of a packet, and how many of them (R174). -/
structure SwPkt where
  eth : Option EthFrame
  cfh : Option Cfh
  payload : List Byte
  cells : Nat
  cls : Nat
  colour : Nat
  scope : Nat
  inPort : Nat
  inLane : Nat
  inVc : Nat
  outPort : Nat
  staging : Option Nat
  vcSet : Nat
  link : LinkHdr
  nh : Option NextHop
  target : Option Nat
  inOasis : Option (Nat × Nat)
  deriving DecidableEq, Repr

/-- A 4 KB page of a spilling queue: its stack, whether its refill was requested, and the packets its cells are of. -/
structure SpillPage where
  stack : Nat
  requested : Bool
  cells : List Nat
  deriving DecidableEq, Repr

/-- A hardware queue (R111, R127): its packets by number, and the cells of head, pages and tail as packet numbers. -/
structure HwQueue where
  pkts : List (Nat × SwPkt)
  head : List Nat
  pages : List SpillPage
  tail : List Nat
  spilling : Bool
  avg : Nat
  nextNo : Nat
  headSince : Nat
  deriving DecidableEq, Repr

/-- A policer's buckets, in units of 2^-16/8,000 byte, and the instant of their last refill (R122). -/
structure PolState where
  tc : Nat
  tp : Nat
  at_ : Nat
  deriving DecidableEq, Repr

/-- A punted packet that waits in a dune's punt queue (R138, R139). -/
structure PuntPkt where
  reason : Nat
  cls : Nat
  port : Nat
  len : Nat
  sec : Nat
  ns : Nat
  bytes : List Byte
  scope : Nat
  cells : Nat
  deriving DecidableEq, Repr

/-- The switch core behind its registers. `spillOn` holds 1 for each pool whose empty queues stand in spilling state (R126),
`allowed` the size of each standing allowance granted (R168), `puntStaged` the punted packets that a FIFO has staged and whose
cells are not freed yet, by dune and queue (R139). -/
structure SwcState where
  mesh : List SwPkt
  queues : SMap HwQueue
  granted : SMap Nat
  held : SMap Nat
  returns : SMap Nat
  policers : SMap PolState
  mirrorCnt : SMap Nat
  punt : SMap (List PuntPkt)
  spillUsed : SMap Nat
  rxErr : SMap Nat
  latched : SMap (BitVec 32)
  spillOn : SMap Nat
  allowed : SMap Nat
  puntStaged : SMap (List PuntPkt)
  tags : SMap Nat
  deriving DecidableEq, Repr

/-! ## Forwarding (spec/06) -/

/-- An exact-match entry (Table 6.3). -/
structure EmEntry where
  owner : Nat
  version : Nat
  isStatic : Bool
  tomb : Bool
  age : Nat
  key : Nat
  result : Nat
  deriving DecidableEq, Repr

/-- A route as its record gave it (R145, R153): scope, address family, prefix length and bits (left-justified in the family's
width), its version and owner, its next-hop index, and the RESULT of the record. A route of length 0 is the scope's /0 route. -/
structure Route where
  part : Nat
  v6 : Bool
  plen : Nat
  bits : Nat
  owner : Nat
  version : Nat
  isStatic : Bool
  tomb : Bool
  nh : Nat
  result : Nat
  deriving DecidableEq, Repr

/-- A slot word of the trie (R145): NH with NH_VALID, and CHILD with CHILD_VALID. -/
structure TrieSlot where
  nh : Option Nat
  child : Option Nat
  deriving DecidableEq, Repr

/-- A node word of the trie (R145): RUN_MAP, one bit for each entry, and BASE. -/
structure TrieNode where
  runMap : BitVec 256
  base : BitVec 20
  deriving DecidableEq, Repr

/-- One copy of the tables: exact-match entries by flat slot index; the routes by their records; next hops; the trie's words,
that is the entries of the root blocks (scope × 65,536 + index), node words (stage × 65,536 + number) and slot words (stage ×
1,048,576 + number); and the next hop of each scope's /0 route. An absent word is empty. -/
structure Tables where
  em : SMap EmEntry
  routes : List Route
  nhs : SMap NextHop
  root : SMap TrieSlot
  nodes : SMap TrieNode
  slots : SMap TrieSlot
  defs : SMap Nat
  deriving DecidableEq, Repr

/-- One write of the sequencer to a replica (R142, R146); `fill` is a replay of the shadow copy (R149). -/
inductive SlotWrite where
  | em (slot : Nat) (e : EmEntry)
  | clear (slot : Nat)
  | routes (r : List Route)
  | nh (i : Nat) (n : NextHop)
  | nhClear (i : Nat)
  | root (i : Nat) (w : TrieSlot)
  | node (i : Nat) (w : TrieNode)
  | nodeClear (i : Nat)
  | slot (i : Nat) (w : TrieSlot)
  | slotClear (i : Nat)
  | lpmDef (part : Nat) (nh : Option Nat)
  | unmark (table word : Nat)
  | fill (t : Tables)
  deriving DecidableEq, Repr

/-- A sequenced change that a dune has still to apply (R147, R148). -/
structure SeqChange where
  seq : Nat
  writes : List SlotWrite
  deriving DecidableEq, Repr

/-- A word marked for rebuild (R156): the dune, the table and word, and for a trie word the addresses that read it. -/
structure Mark where
  dune : Nat
  table : Nat
  word : Nat
  key : Nat
  plen : Nat
  deriving DecidableEq, Repr

/-- A mark whose shadow word is bad: the keys asked of the neighbours and not yet answered, as (table, key field, prefix
length), and the instant at which the wait ends (R157). -/
structure Refresh where
  dune : Nat
  table : Nat
  word : Nat
  keys : List (Nat × Nat × Nat)
  due : Nat
  deriving DecidableEq, Repr

/-- The update sequencer's shadow copy for a group of dunes that share their tables, on the stack that holds it: all dunes in
spine personality, the dunes of one system in system personality (R32, R147). `lost` says that its stack went offline and
no rebuild has ended; `stashOrder` holds the stash entries, oldest first (R143); `pendingFree` holds the trie space that is
not free again yet, as (stage, node number, BASE, slots, instant) (R146). -/
structure Shadow where
  tables : Tables
  lost : Bool
  stack : Option Nat
  stashOrder : List Nat
  pendingFree : List (Nat × Nat × Nat × Nat × Nat)
  deriving DecidableEq, Repr

structure FwdState where
  shadows : SMap Shadow
  replicas : SMap Tables
  queues : SMap (List SeqChange)
  seq : Nat
  marks : List Mark
  refresh : List Refresh
  learnAt : SMap (Nat × Nat)
  deriving DecidableEq, Repr

/-! ## Routing (spec/07) -/

/-- A routing-table version (R160): its spray mask and its entries by index. -/
structure RteTable where
  mask : SMap (BitVec 32)
  entries : SMap (BitVec 32)
  ever : Bool
  lastActive : Nat
  deriving DecidableEq, Repr

/-- A source context (R172): scope, destination, class, next FLOW_SEQ, generation, last use. -/
structure SrcCtx where
  live : Bool
  part : Nat
  dst : Nat
  cls : Nat
  next : Nat
  gen : Nat
  last : Nat
  deriving DecidableEq, Repr

/-- A destination context (R173): key, EXPECT once a START packet fixed it, and the packets held. -/
structure DstCtx where
  dune : Nat
  origin : Nat
  originDune : Nat
  ctx : Nat
  gen : Nat
  expect : Option Nat
  held : List SwPkt
  heldAt : Nat
  last : Nat
  deriving DecidableEq, Repr

/-- Routing and flow control behind the registers. `rsv` is the RTE_WADI_RSV in force (R184), `selSent` the instant at which a
port last sent WADI_SEL (R168). -/
structure RteState where
  tables : List RteTable
  armed : Option Nat
  src : SMap SrcCtx
  srcLast : SMap Nat
  dst : List DstCtx
  wrr : SMap Int
  load : SMap Nat
  rates : SMap Nat
  rateSeq : Nat
  rateChanged : Bool
  rateSentAt : Nat
  satRun : SMap Nat
  lowRun : SMap Nat
  sentCells : SMap Nat
  reqAt : SMap Nat
  hot : SMap (List Nat)
  sampleCnt : SMap Nat
  wadiSel : SMap Nat
  expressPorts : List (PortRec × Nat)
  bypassAsked : SMap Nat
  rsv : BitVec 32
  selSent : SMap Nat
  deriving DecidableEq, Repr

/-! ## Sandglass (spec/08) -/

/-- The data set an Announce message carries, in the order in which the best master clock algorithm of IEEE 1588
compares it (R189). -/
structure PtpDs where
  prio1 : Nat
  clockClass : Nat
  accuracy : Nat
  variance : Nat
  prio2 : Nat
  identity : Nat
  steps : Nat
  sender : Nat
  utc : Nat
  deriving DecidableEq, Repr

/-- A foreign master heard on a PTP port: the kind and port, its data set and when its last Announce came (R189). -/
structure ForeignMaster where
  kind : Nat
  port : Nat
  ds : PtpDs
  heardAt : Nat
  deriving DecidableEq, Repr

/-- A port's best foreign master as a time source: its kind and port (TIM_STATUS.SRC_KIND), its data set, its latest
offset by PTP messages and the one that the servo uses (R191), in units of 2^-16 ns, whether it is refused, since when its offset has
stayed within the threshold, the times of its message exchange, and whether its last Sync waits for a Follow_Up. -/
structure TimSource where
  kind : Nat
  port : Nat
  ds : PtpDs
  ptp : Option Int
  theta : Option Int
  refused : Bool
  goodSince : Option Nat
  delay : Int
  t1 : Option Int
  t2 : Option Int
  t3 : Option Int
  awaits : Bool
  deriving DecidableEq, Repr

/-- The servo and its inputs (R189 to R201). `lanes` holds the two marker phases of a flat lane, received and returned;
`holdBound` is in units of 2^-16 ps; `ppsOutAt` is the instant of the last output pulse and `ppsFall` that of its end; `freq` and
`refFreq` are the frequency corrections by the servo and by the 10 MHz reference, in units of 2^-16 ns per ms, of which `freqAcc`
millionths of a unit have not reached the counter yet; `moving` says whether a sensor moves (R198). -/
structure TimState where
  foreign : List ForeignMaster
  sources : List TimSource
  cur : Option (Nat × Nat)
  fineSince : Option Nat
  badRun : Nat
  acceptPending : Bool
  holdBound : Nat
  holdAt : Nat
  lanes : SMap (Int × Int)
  readyAt : Nat
  ppsAt : Option Nat
  ppsOutAt : Nat
  ppsFall : Nat
  freq : Int
  refFreq : Int
  freqAcc : Int
  moving : Bool
  deriving DecidableEq, Repr

/-! ## Scheduled traffic (spec/09) -/

/-- A gate list in force or armed: its bank, its entry count, its cycle length in ns and the instant of its BASE. -/
structure GateGeom where
  bank : Nat
  count : Nat
  cycle : Nat
  base : Nat
  deriving DecidableEq, Repr

/-- A port group's gate engine (R207 to R215): the entries of both banks, the running list, the armed list, the instant at
which an image list was activated, declared intervals as (port, instant, length), the instant up to which entry starts have been run,
the waits counted, since when the list has run, and the cycles that it started before its last suspension. -/
structure PortGroup where
  bank0 : SMap Nat
  bank1 : SMap Nat
  list : Option GateGeom
  armed : Option GateGeom
  activatedAt : Nat
  imposed : List (Nat × Nat × Nat)
  doneTo : Nat
  fitWaited : List (Nat × Nat)
  runsSince : Nat
  cycles : Nat
  deriving DecidableEq, Repr

/-- Shapers as (tokens in 2^-16/8,000 bytes, instant of the last update), virtual times (R217, R218), and the packet that each port
sends as (class, instant of its end). -/
structure SchState where
  groups : SMap PortGroup
  sending : SMap (Nat × Nat)
  shapers : SMap (Int × Nat)
  vtime : SMap Nat
  deriving DecidableEq, Repr

/-! ## Root of trust and links (spec/15) -/

/-- An attestation log entry (R378); `obj` is the digest of the object concerned, or the port number. -/
structure LogEntry where
  typ : Nat
  seq : Nat
  sec : Nat
  ns : Nat
  obj : Nat
  deriving DecidableEq, Repr

/-- An entry of the expel list (R389): kind and subject. -/
structure ExpelEntry where
  kind : Nat
  subject : Nat
  deriving DecidableEq, Repr

/-- The root of trust's store and sessions (R361 to R365, R375 to R380, R388, R389). -/
structure RotState where
  minSeq : Nat
  raises : Nat
  imageKeys : List Nat
  mirrorRoots : List Nat
  pkgSeq : Nat
  coldOpen : Bool
  tokenScopes : Nat
  token : Bool
  log : List LogEntry
  logNext : Nat
  logTrunc : Bool
  logDigest : Nat
  expel : List ExpelEntry
  deriving DecidableEq, Repr

/-- A received frame whose tag is not yet verified (R370): the COLL groups and steps it carried, and how many packets
of other classes. -/
structure RxFrame where
  epoch : Nat
  no : Nat
  colls : List (Nat × Nat)
  others : Nat
  deriving DecidableEq, Repr

/-- A link's state (Table 15.5) and since when (in HANDSHAKE since the last message, in UP since the transmit epoch began), its
handshake and its encryption behind SEC_LINK (R366 to R371). -/
structure SecLink where
  st : Nat
  since : Nat
  nonce : Nat
  peerSerial : Nat
  gotHello : Bool
  gotCert : Bool
  sentFinish : Bool
  txEpoch : Nat
  txFrame : Nat
  txCells : Nat
  txNext : Option Nat
  rxEpoch : Nat
  rxFrame : Nat
  rxNext : Option Nat
  rx : List RxFrame
  deriving DecidableEq, Repr

/-- A register session of a management port (R380): its client's address and port, whether its handshake is done, this end's nonce,
the client's serial, the frames and epochs of both directions as on a link, and when the last datagram came. -/
structure Session where
  mp : Nat
  v6 : Bool
  ip : Nat
  sport : Nat
  up : Bool
  gotCert : Bool
  nonce : Nat
  peerSerial : Nat
  rxEpoch : Nat
  rxFrame : Nat
  rxNext : Option Nat
  txEpoch : Nat
  txFrame : Nat
  txNext : Option Nat
  since : Nat
  heardAt : Nat
  deriving DecidableEq, Repr

structure SecState where
  links : SMap SecLink
  sessions : List Session
  deriving DecidableEq, Repr

/-! ## Barchan engines (spec/10, spec/11) -/

/-- A contribution's exact value in units of 2^-149, or a special value (R248). -/
inductive XVal where
  | fin (n : Int)
  | pinf
  | ninf
  | nan
  deriving DecidableEq, Repr

/-- A long accumulator (Table 11.3). -/
structure Acc where
  empty : Bool
  nan : Bool
  pinf : Bool
  ninf : Bool
  val : Int
  deriving DecidableEq, Repr

/-- Where a task's input lies: in Oasis in a format, in a held packet in a format, or an exact partial (R285). -/
inductive InSrc where
  | oasis (part off fmt : Nat)
  | packet (fmt : Nat) (b : List Byte)
  | exact (a : List Acc)
  deriving DecidableEq, Repr

/-- What a task serves: segment work of a kernel command, or a chunk of a collective at a stage: 0 reduces the local
contributions, i adds the partial of axis i of ORDER, 4 rounds (R284, R286). -/
inductive TaskFor where
  | kernel (fq no : Nat)
  | coll (grp step chunk stage : Nat)
  deriving DecidableEq, Repr

/-- A task (R231). -/
structure Task where
  no : Nat
  owner : TaskFor
  opcode : Nat
  op : Nat
  phase : Nat
  seg : Nat
  base : Nat
  count : Nat
  inputs : List InSrc
  home : Nat
  excluded : Option Nat
  checks : Nat
  deriving DecidableEq, Repr

/-- A row of accumulators or, with `vec`, a vector queued for the packer: output stream, format, rounding selector, 32 values. -/
structure OutRow where
  stream : Nat
  fmt : Nat
  round : Nat
  vec : Bool
  vals : List XVal
  deriving DecidableEq, Repr

/-- A task in an engine's slot with its registers (Table 10.1, R224). Unlisted registers and scratch bytes read 0,
unlisted accumulators are EMPTY. `loads` and `stores` are (scratch, Oasis, bytes). -/
structure TaskCtx where
  task : Task
  pc : Nat
  s : SMap Nat
  v : SMap Nat
  f : SMap Nat
  stack : List Nat
  acc : SMap Acc
  scratch : SMap Byte
  input : Nat
  pos : Nat
  loads : List (Nat × Nat × Nat)
  stores : List (Nat × Nat × Nat)
  out : List OutRow
  osel : Nat
  ovf : Nat
  poison : Bool
  sat : Bool
  nan : Bool
  syncing : Bool
  ending : Bool
  deriving DecidableEq, Repr

/-- An engine: its two slots, and an enable that waits for DISABLED (R244). -/
structure Engine where
  slot0 : Option TaskCtx
  slot1 : Option TaskCtx
  heldEnable : Bool
  deriving DecidableEq, Repr

/-- A kernel command whose tasks are being generated or run: its queue and slot number, its descriptor and parameter block, the next
phase-1 task, tasks in all and committed in this phase, and its totals so far: escalated blocks, saturations, underflows,
residual records not added as they stand, accumulator overflows and poisoned segments. -/
structure KRun where
  fq : Nat
  no : Nat
  opcode : Nat
  desc : Nat
  params : Nat
  next : Nat
  total : Nat
  done : Nat
  phase : Nat
  esc : Nat
  sat : Nat
  ufl : Nat
  stale : Nat
  ovf : Nat
  poison : Nat
  deriving DecidableEq, Repr

/-- A disable request (R244): its mode, SCOPE and INDEX, the flat grains it covers, and the queued tasks and the accepted commands that
a drain under R243 still owes. -/
structure DisReq where
  immediate : Bool
  scope : Nat
  index : Nat
  engines : List Nat
  owedTasks : List Nat
  owedCmds : List (Nat × Nat)
  deriving DecidableEq, Repr

/-- The engines and their work. `captured` holds, by dune, the code of the FAULT or END of the fault that BRC_FAULT0 to BRC_FAULT2 show
until they are read (R228, R230). -/
structure BrcState where
  engines : SMap Engine
  queues : SMap (List Task)
  runs : List KRun
  captured : SMap Nat
  dis : SMap DisReq
  emptyPools : List (Nat × Nat)
  nextTask : Nat
  deriving DecidableEq, Repr

/-! ## Collectives and Caravan (spec/12, spec/14, spec/16) -/

/-- A local entry of a group (Table 12.3), with its late steps in a row (R294) and, for a Mirage entry, its matches,
mismatches in a row and whether its shadowing has ended (R395). -/
structure Member where
  rank : Nat
  ep : Nat
  role : Nat
  late : Nat
  matched : Nat
  fails : Nat
  ended : Bool
  deriving DecidableEq, Repr

/-- A contribution held: of a rank, or of the Mirage member that shadows it. -/
structure Contrib where
  rank : Nat
  chunk : Nat
  mirage : Bool
  bytes : List Byte
  digest : Nat
  at_ : Nat
  deriving DecidableEq, Repr

/-- A partial being received for a chunk: the sender's tag, the bytes so far, and whether LAST was admitted. -/
structure PartRx where
  chunk : Nat
  tag : Nat
  bytes : List Byte
  closed : Bool
  deriving DecidableEq, Repr

/-- A result packet of a chunk, with what rounding it counted. -/
structure ResPkt where
  chunk : Nat
  bytes : List Byte
  digest : Nat
  esc : Nat
  sat : Nat
  poison : Bool
  deriving DecidableEq, Repr

/-- A chunk's progress: how many stages are done, the spine's partial, and whether a task is queued or running. -/
structure Chunk where
  c : Nat
  stage : Nat
  part : Option (List Acc)
  raw : Option (List Byte)
  busy : Bool
  poison : Bool
  deriving DecidableEq, Repr

/-- A failed attempt's count: rank or tag, chunk, attempts, and when the last RESEND was sent (R341). -/
structure Attempt where
  rank : Nat
  chunk : Nat
  n : Nat
  at_ : Nat
  deriving DecidableEq, Repr

/-- A READY that the root holds (R289). -/
structure ReadyMsg where
  coord : Nat
  digest : Nat
  esc : Nat
  sat : Nat
  poison : Bool
  deriving DecidableEq, Repr

/-- Where a part of a collective's reservation lies: its dune, its cells on chip, its spill pages and the stack that holds them. -/
structure Placed where
  dune : Nat
  chip : Nat
  pages : Nat
  stack : Nat
  deriving DecidableEq, Repr

/-- A collective that has been dispatched (R275 to R291). `audited` lists the owned chunks whose audit has ended (R345); `ufl`,
`stale` and `ovf` are this spine's counts; `waiting` marks a replay that has not reserved yet (R351); `placed`
lists what the reservation takes of a dune's pool 4 and of its spill pages (R117); `since` is when it ended, or when the replay
began to wait; `oldEps` gives the endpoints that ranks had at dispatch where a swap has changed them since (R295). -/
structure Coll where
  step : Nat
  gen : Nat
  fq : Nat
  no : Nat
  opcode : Nat
  redop : Nat
  fmtIn : Nat
  fmtOut : Nat
  policy : Nat
  seedSel : Nat
  count : Nat
  params : Nat
  order : Option Nat
  sig : Nat
  deadline : Option Nat
  cells : Nat
  win : Nat
  members : Nat
  nIn : Nat
  nOut : Nat
  placed : List Placed
  queues : List (Nat × Nat)
  oasis : Nat
  launched : Bool
  heardFrom : List Nat
  contribs : List Contrib
  chunks : List Chunk
  partials : List PartRx
  results : List ResPkt
  shardCopy : List (Nat × List Byte)
  residCopy : List (Nat × List Byte)
  receipts : List Nat
  racked : List Nat
  readySent : Bool
  readies : List ReadyMsg
  decided : Option Nat
  abortAt : Option Nat
  abortBy : Option (Nat × Nat)
  attempts : List Attempt
  audited : List Nat
  ufl : Nat
  stale : Nat
  ovf : Nat
  replay : Bool
  waiting : Bool
  since : Nat
  oldEps : List (Nat × Nat)
  ended : Option Nat
  deriving DecidableEq, Repr

/-- A LAUNCH that arrived before the step's own command was dispatched: step, sender, signature and ORDER. -/
structure EarlyLaunch where
  step : Nat
  coord : Nat
  sig : Nat
  order : Nat
  deriving DecidableEq, Repr

/-- A member swap that waits for the step boundary (R295): the command that asked for it, if one did, the rank, the spare's
endpoint, and whether a COMMIT has arrived since. -/
structure SwapReq where
  cmd : Option (Nat × Nat)
  rank : Nat
  spare : Nat
  ready : Bool
  deriving DecidableEq, Repr

/-- A group (Tables 12.3 and 12.4). Coordinates are in the layout of Table 12.3. `kept` holds the collectives that have
ended and whose contributions and copies are still held (R347). -/
structure Group where
  part : Nat
  job : Nat
  gen : Nat
  size : Nat
  root : Nat
  lo : Nat
  ext : Nat
  nextStep : Nat
  entries : List Member
  opened : List Coll
  kept : List Coll
  stragRank : Option Nat
  retracts : List (Nat × Nat)
  swap : Option SwapReq
  early : List EarlyLaunch
  wrr : SMap Int
  deriving DecidableEq, Repr

/-- Who a Caravan node sends to: a child or attached spine, or a recipient, and how far it has been served and has
acknowledged. -/
structure CarPeer where
  ep : Nat
  spine : Bool
  sent : Nat
  acked : Nat
  done : Bool
  deriving DecidableEq, Repr

/-- A Caravan transfer at this spine (R296 to R300). `verified` counts the contiguous bytes verified; `partialBytes`
those of the chunk being received. -/
structure Caravan where
  tid : Nat
  fq : Nat
  no : Nat
  part : Nat
  isRoot : Bool
  fetch : Bool
  len : Nat
  cache : Nat
  parent : Nat
  backup : Nat
  peers : List CarPeer
  total : Nat
  storage : Nat
  object : Nat
  expect : Nat
  deadline : Option Nat
  verified : Nat
  partialBytes : Nat
  fetched : Nat
  heardAt : Nat
  onBackup : Bool
  matched : Nat
  mismatched : Nat
  counts : List (Nat × Nat × Nat)
  deriving DecidableEq, Repr

structure ColState where
  groups : SMap Group
  caravans : List Caravan
  deriving DecidableEq, Repr

/-! ## Light tiles (spec/13) -/

/-- A lane's loops behind its registers: the resonances excluded and the heater power at lock, by direction (transmit,
receive), consecutive failures, the bias in 1/2,000 of 10 µA, since when the margin allows OK, the spare held, since when
that spare is VERIFIED, and the planned swap as (instant, imposed). -/
structure LaneSt where
  txExcl : List Nat
  rxExcl : List Nat
  txAt : Nat
  rxAt : Nat
  txFails : Nat
  rxFails : Nat
  bias : Nat
  okSince : Option Nat
  spare : Option Nat
  spareSince : Option Nat
  swap : Option (Nat × Bool)
  reportAt : Nat
  peerLocked : Bool
  deriving DecidableEq, Repr

/-- An express or passing path at this spine (R322 to R325). Roles: 0 origin, 1 intermediate, 2 target. States: 0
reserved, 1 armed, 2 in use, 3 being released, 4 release sent. -/
structure Path where
  id : Nat
  origin : Nat
  target : Nat
  pair : Nat
  dir : Nat
  w0 : Nat
  w : Nat
  role : Nat
  st : Nat
  expiry : Nat
  at_ : Nat
  answered : List Nat
  started : Bool
  partNo : Nat
  deriving DecidableEq, Repr

/-- A cross-connect change armed for a slot (R320): tile, slot, instant, mode, fibre, path (origin, id). -/
structure XcArm where
  tile : Nat
  slot : Nat
  at_ : Nat
  mode : Nat
  fibre : Nat
  origin : Nat
  id : Nat
  deriving DecidableEq, Repr

/-- A Sirocco run of a tile (R330): lane and spare in use, and the settings latched at START. -/
structure SirRun where
  lane : Nat
  spare : Nat
  mode : Nat
  fibre : Nat
  cmp : Bool
  shots : Nat
  first : Nat
  last : Nat
  deriving DecidableEq, Repr

structure OptState where
  lanes : SMap LaneSt
  spareFails : SMap Nat
  fibreId : SMap Nat
  fullLevel : SMap Int
  probeDue : SMap Nat
  paths : List Path
  nextPath : Nat
  arms : List XcArm
  runs : SMap SirRun
  baselines : List (Nat × Nat)
  deriving DecidableEq, Repr

/-! ## Integrity (spec/14) -/

/-- A margin test in progress in a dune (R355). -/
structure Margin where
  ripple : Nat
  running : Bool
  deriving DecidableEq, Repr

structure ChkState where
  margins : SMap Margin
  resEvents : SMap (List Nat)
  deriving DecidableEq, Repr

/-! ## Management (spec/16) -/

/-- A function request in progress (R385). -/
structure FnReq where
  enable : Bool
  immediate : Bool
  kind : Nat
  index : Nat
  at_ : Nat
  deriving DecidableEq, Repr

/-- An order that was accepted (R388). -/
structure ArmedOrder where
  action : Nat
  tkind : Nat
  target : Nat
  num : Nat
  hallPart : Nat
  ep : Nat
  instant : Nat
  late : Bool
  deriving DecidableEq, Repr

/-- The management side behind its registers: the proven cores and the core on probation (R382), when resynchronisations
began and of which core, since when the triad is in HELD, the request in progress, port states where they are not ENABLED (0 DISABLED, 2
DRAINING, 3 QUIESCED), the armed order, an order being assembled from fabric segments, partitions whose UNFENCE waits,
when each port's last beacon arrived, and the shadow records of a Mirage spine. -/
structure MgtState where
  proven : List Nat
  probation : Option Nat
  retired : Option Nat
  resyncs : List (Nat × Nat)
  heldAt : Nat
  fn : Option FnReq
  ports : SMap Nat
  order : Option ArmedOrder
  segs : List (Nat × List Byte)
  unfence : List Nat
  beacons : SMap Nat
  shadows : List (Nat × Nat × Nat × Nat × Nat × Nat)
  twinSent : List (Nat × Nat × Nat × Nat × Nat × Nat)
  deriving DecidableEq, Repr

/-! ## What the module emits -/

/-- A message of a management port (R86, R87, R189). -/
inductive MgmtMsg where
  | arpProbe (ip : Nat)
  | arpAnnounce (ip : Nat)
  | arpRequest (ip : Nat)
  | arpReply (ip toIp toMac : Nat)
  | dadProbe (ip : Nat)
  | ndSolicit (ip : Nat)
  | ndAdvert (ip toIp toMac : Nat)
  | echoReply (v6 : Bool) (dst : Nat) (data : List Byte)
  | udp (v6 : Bool) (dst sport dport : Nat) (payload : List Byte)
  | ptp (transport : Nat) (body : PtpBody)
  deriving DecidableEq, Repr

/-- An item that leaves the module. -/
inductive Out where
  | msix (v : Nat)
  | readData (addr v : Nat)
  | msg (port : Option Nat) (c : Cfh) (payload : List Byte)
  | packet (port : Nat) (p : SwPkt) (cr : Option CreditRet) (wire : List Byte)
  | ptp (port : Nat) (body : PtpBody)
  | linkFrame (port da sa etype : Nat) (c : Cfh) (payload : List Byte)
  | creditCell (port : Nat) (h : LinkHdr) (cr : CreditRet) (wire : List Byte)
  | mgmt (port vid : Nat) (m : MgmtMsg)
  | i3cData (v : Nat)
  | i3cNack
  | i3cIbi
  | ppsRise
  deriving DecidableEq, Repr

/-! ## The state -/

/-- The module's state. -/
structure State where
  regs : SMap (BitVec 32)
  oasis : List Host.Cell
  hostMem : List Host.Cell
  clock : Nat
  free : Nat
  plat : PlatState
  otp : OtpState
  pins : PinState
  img : ImgState
  rot : RotState
  hif : HifState
  swc : SwcState
  fwd : FwdState
  rte : RteState
  tim : TimState
  sch : SchState
  sec : SecState
  brc : BrcState
  col : ColState
  opt : OptState
  chk : ChkState
  mgt : MgtState
  outbox : List Out
  pending : List Instr
  deriving DecidableEq, Repr

/-- Why a run stops with a fault. No command of the spec stops the module, so none is ever raised; the type has the one
constructor that a closed inductive needs. -/
inductive Fault where
  /-- Raised by nothing: every command of the table has an effect, or none, and the module goes on. Safe. -/
  | none
  deriving DecidableEq, Repr

/-- Why a command has no meaning. -/
inductive Refusal where
  /-- Raised by Dispatch for a row of the table without a meaning yet, by its mnemonic. Safe. -/
  | notModelled (mnemonic : String)
  deriving DecidableEq, Repr

/-- No image: nothing is configured. -/
def ImgCfg.empty : ImgCfg where
  groups := []
  quotas := []
  scopes := []
  torus := ⟨0, [], 0⟩
  ports := []
  quorumK := 3
  quorumN := 5
  policyFlags := 0
  partmapDigest := 0
  policyDigest := 0
  clearJobs := []
  mgrKeys := []
  contract := 0
  seeds := []
  trims := []

/-- The image load at the start of a load. -/
def ImgState.empty : ImgState where
  header := 0
  dir := []
  cfg := ImgCfg.empty
  tried := []
  cur := .slot0
  accepted := false
  active := []
  discarded := []
  bulk := []

def PlatState.empty : PlatState where
  auxOk := false
  vin48Good := false
  booting := false
  running := false
  straps := 0
  conditionsLeft := false
  seq := none
  coldPending := none
  resetHeld := true
  fsrRing := []
  quarantine := []
  selfTestFailed := []
  oasisFails := []
  creditsWithheld := false
  trimUser := []
  trimApplied := []

/-- One-time-programmable memory as the model takes it to be (log 7): an LC part, with an owner key enrolled. -/
def OtpState.shipped : OtpState where
  serial := 0
  variant := 0
  etherType := 0
  vendorKey := 0
  macs := [0, 0]
  ownerSlots := [some 0, none, none, none]
  trims := []
  cert := []
  laserMax := []
  deadLasers := []
  retiredLanes := []
  usedSpares := []
  failedSpares := []

/-- The pins without a supply (R403, R408): the reset input is pulled low, no output is driven. -/
def PinState.unpowered : PinState where
  resetN := false
  pgAux := false
  pgMain := false
  thermTripN := true
  ppsOut := false
  driven := false

/-- The root of trust before anything was installed (log 7): debug is open (R375), image key generation 1 is held. -/
def RotState.shipped : RotState where
  minSeq := 0
  raises := 0
  imageKeys := [1]
  mirrorRoots := []
  pkgSeq := 0
  coldOpen := true
  tokenScopes := 0
  token := false
  log := []
  logNext := 0
  logTrunc := false
  logDigest := 0
  expel := []

def SecState.empty : SecState where
  links := []
  sessions := []

def MgmtPort.empty : MgmtPort where
  linkUp := false
  v4Off := false
  v6Off := false
  gwMac4 := none
  gwMac6 := none
  echoSec := 0
  echoCnt := 0

def HifState.empty : HifState where
  cqs := []
  cnqs := []
  ports := [MgmtPort.empty, MgmtPort.empty]
  fsrSec := 0
  fsrCnt := 0

def SwcState.empty : SwcState where
  mesh := []
  queues := []
  granted := []
  held := []
  returns := []
  policers := []
  mirrorCnt := []
  punt := []
  spillUsed := []
  rxErr := []
  latched := []
  spillOn := []
  allowed := []
  puntStaged := []
  tags := []

def Tables.empty : Tables where
  em := []
  routes := []
  nhs := []
  root := []
  nodes := []
  slots := []
  defs := []

def Shadow.empty : Shadow where
  tables := Tables.empty
  lost := false
  stack := none
  stashOrder := []
  pendingFree := []

def FwdState.empty : FwdState where
  shadows := []
  replicas := []
  queues := []
  seq := 0
  marks := []
  refresh := []
  learnAt := []

def RteTable.empty : RteTable where
  mask := []
  entries := []
  ever := false
  lastActive := 0

def RteState.empty : RteState where
  tables := [RteTable.empty, RteTable.empty]
  armed := none
  src := []
  srcLast := []
  dst := []
  wrr := []
  load := []
  rates := []
  rateSeq := 0
  rateChanged := false
  rateSentAt := 0
  satRun := []
  lowRun := []
  sentCells := []
  reqAt := []
  hot := []
  sampleCnt := []
  wadiSel := []
  expressPorts := []
  bypassAsked := []
  rsv := 0x08210000
  selSent := []

def TimState.empty : TimState where
  foreign := []
  sources := []
  cur := none
  fineSince := none
  badRun := 0
  acceptPending := false
  holdBound := 0
  holdAt := 0
  lanes := []
  readyAt := 0
  ppsAt := none
  ppsOutAt := 0
  ppsFall := 0
  freq := 0
  refFreq := 0
  freqAcc := 0
  moving := false

def SchState.empty : SchState where
  groups := []
  sending := []
  shapers := []
  vtime := []

def BrcState.empty : BrcState where
  engines := []
  queues := []
  runs := []
  captured := []
  dis := []
  emptyPools := []
  nextTask := 0

def ColState.empty : ColState where
  groups := []
  caravans := []

def OptState.empty : OptState where
  lanes := []
  spareFails := []
  fibreId := []
  fullLevel := []
  probeDue := []
  paths := []
  nextPath := 0
  arms := []
  runs := []
  baselines := []

def ChkState.empty : ChkState where
  margins := []
  resEvents := []

def MgtState.empty : MgtState where
  proven := [0, 1, 2]
  probation := none
  retired := none
  resyncs := []
  heldAt := 0
  fn := none
  ports := []
  order := none
  segs := []
  unfence := []
  beacons := []
  shadows := []
  twinSent := []

/-- The machine right after reset, before a supply is applied: every register at its reset value, nothing stored,
every queue empty. A run is brought up by AUX_POWER_UP, RESET_RELEASE, TRIAD_IN_LOCK_STEP and the commands of the
image load (log 9). -/
def State.reset : State where
  regs := []
  oasis := []
  hostMem := []
  clock := 0
  free := 0
  plat := PlatState.empty
  otp := OtpState.shipped
  pins := PinState.unpowered
  img := ImgState.empty
  rot := RotState.shipped
  hif := HifState.empty
  swc := SwcState.empty
  fwd := FwdState.empty
  rte := RteState.empty
  tim := TimState.empty
  sch := SchState.empty
  sec := SecState.empty
  brc := BrcState.empty
  col := ColState.empty
  opt := OptState.empty
  chk := ChkState.empty
  mgt := MgtState.empty
  outbox := []
  pending := []

end Sys2Proof.Machine
end

