-- ==== Sys2Proof/Machine/Ops.lean ====
section
/-! DEFINITION. The named operations over registers, time, memory, events and vectors that every family shares. -/
namespace Sys2Proof.Machine

/-! ## Bit ranges of a register (R13) -/

/-- The number in a field of a register value. -/
def getF (w : Word) (f : BitRange) : Nat := bitsAt w.toNat f.lo (f.hi - f.lo + 1)

/-- A register value with a field replaced by a number, cut to the field's width. -/
def setF (w : Word) (f : BitRange) (n : Nat) : Word :=
  BitVec.ofNat 32 (w.toNat - getF w f * 2 ^ f.lo + (n % 2 ^ (f.hi - f.lo + 1)) * 2 ^ f.lo)

/-! ## Registers -/

/-- The value of the register whose home is at address `a` (R14: a read returns the current value). -/
def rd (s : State) (a : Nat) : Word := SMap.get regReset s.regs (regHome a)

/-- Set a register, as the hardware does. -/
def wr (s : State) (a : Nat) (v : Word) : State :=
  { s with regs := SMap.put regReset s.regs (regHome a) v }

/-- The number in a field. -/
def rf (s : State) (a : Nat) (f : BitRange) : Nat := getF (rd s a) f

/-- Whether a one-bit field is 1. -/
def rb (s : State) (a : Nat) (f : BitRange) : Bool := rf s a f == 1

/-- Set a field, as the hardware does. -/
def wf (s : State) (a : Nat) (f : BitRange) (n : Nat) : State := wr s a (setF (rd s a) f n)

/-- Set several fields of one register. -/
def wfs (s : State) (a : Nat) (l : List (BitRange × Nat)) : State :=
  wr s a (l.foldl (fun w e => setF w e.1 e.2) (rd s a))

/-- A register as a whole number. -/
def rn (s : State) (a : Nat) : Nat := (rd s a).toNat

/-- Set a whole register to a number. -/
def wn (s : State) (a : Nat) (n : Nat) : State := wr s a (BitVec.ofNat 32 n)

/-- A 64-bit value held as a LO word at `a` and a HI word 4 bytes above (R132). -/
def rn64 (s : State) (a : Nat) : Nat := rn s a + 2 ^ 32 * rn s (a + 4)

/-- Set a 64-bit value held as a LO word and a HI word. -/
def wn64 (s : State) (a n : Nat) : State := wn (wn s a (n % 2 ^ 32)) (a + 4) (n / 2 ^ 32 % 2 ^ 32)

/-- A 64-bit value held as a HI word at `a` and a LO word 4 bytes above (registers named _HI, _LO). -/
def rnHL (s : State) (a : Nat) : Nat := 2 ^ 32 * rn s a + rn s (a + 4)

/-- Set a 64-bit value held as a HI word and a LO word. -/
def wnHL (s : State) (a n : Nat) : State := wn (wn s a (n / 2 ^ 32 % 2 ^ 32)) (a + 4) (n % 2 ^ 32)

/-- Add to a 64-bit counter, which saturates at all ones (R132). -/
def bump64 (s : State) (a n : Nat) : State := wn64 s a (satAdd (2 ^ 64 - 1) (rn64 s a) n)

/-- Add to a 32-bit count, which saturates at FFFF_FFFFh. -/
def bump32 (s : State) (a n : Nat) : State := wn s a (satAdd (2 ^ 32 - 1) (rn s a) n)

/-- Bit `i` of a map of bits held in words from address `a` up (Table 3.5: bit n mod 32 of word n div 32). -/
def mapBit (s : State) (a i : Nat) : Bool := bitAt (rn s (a + i / 32 * 4)) (i % 32)

/-- Set bit `i` of a map of bits. -/
def setMapBit (s : State) (a i : Nat) (b : Bool) : State :=
  let w := rn s (a + i / 32 * 4)
  wn s (a + i / 32 * 4) (w - b2n (bitAt w (i % 32)) * 2 ^ (i % 32) + b2n b * 2 ^ (i % 32))

/-- The bits of a row that a software write sets: RW bits, and RWL bits until the image is sealed (Table 0.4). -/
def writableMask (s : State) (r : RegRow) : Nat :=
  if rb s Reg.IMG_STATUS F.IMG_STATUS_SEALED then r.rw else r.rw ||| r.rwl

/-- Bits of a register that are RO although its row gives them RW: SPILL_EN of a queue that cannot spill (Table 5.8) and
the budget of a pool without one (R115: classes 0, 1, 2, 3 and 5 have one). -/
def fixedBits (r : RegRow) (a : Nat) : Nat :=
  if r.base = 0x2040000 then (if spillEligible ((a - 0x2040000) % 0x400000 / 8) then 0 else 2 ^ 31)
  else if r.base = 0x2001004 then (if [0, 1, 2, 3, 5].contains ((a - 0x2001004) % 0x40 / 8) then 0 else 2 ^ 32 - 1)
  else 0

/-- What a software write of `v` leaves in a register (Table 0.4, R15): writable bits take the value, W1C bits
written 1 clear, every other bit stays. -/
def writeValue (s : State) (r : RegRow) (a : Nat) (old v : Word) : Word :=
  let m := BitVec.ofNat 32 (writableMask s r) &&& ~~~(BitVec.ofNat 32 (fixedBits r a))
  let c := BitVec.ofNat 32 r.w1c
  ((old &&& ~~~m) ||| (v &&& m)) &&& ~~~(v &&& c)

/-- A software write of a register that has no behaviour of its own (R14, R82: reserved space ignores writes). -/
def softWrite (s : State) (a : Nat) (v : Word) : State :=
  match regRow (regHome a) with
  | none => s
  | some r => wr s a (writeValue s r (regHome a) (rd s a) v)

/-! ## Time (R185, R186) -/

/-- One nanosecond of the counter. -/
def nsUnit : Nat := 65536

/-- One second of the counter. -/
def secUnit : Nat := 65536000000000

/-- SEC of the counter. -/
def nowSec (s : State) : Nat := s.clock / secUnit

/-- NS of the counter. -/
def nowNs (s : State) : Nat := s.clock / nsUnit % 1000000000

/-- FRAC of the counter. -/
def nowFrac (s : State) : Nat := s.clock % nsUnit

/-- The instant SEC, NS as a count of the counter's units. -/
def instant (sec ns : Nat) : Nat := (sec * 1000000000 + ns) * nsUnit

/-- TIME of a completion record (R98). -/
def time48 (s : State) : Nat := s.clock / nsUnit % 2 ^ 48

/-- The time fields of a notification: 64-bit seconds, then 32-bit nanoseconds. -/
def timeBytes (s : State) : List Byte := natBe 8 (nowSec s) ++ natBe 4 (nowNs s)

/-- Lower 32 bits of seconds, then nanoseconds, as INJECT_TIME and the mirror record carry them (R186). -/
def timeBytes8 (s : State) : List Byte := natBe 4 (nowSec s % 2 ^ 32) ++ natBe 4 (nowNs s)

/-! ## Free values -/

/-- The next free value: nothing is known of it. -/
def freeNat (s : State) : Nat := Config.free s.free

/-- Consume a free value. -/
def tickFree (s : State) : State := { s with free := s.free + 1 }

/-! ## Output and interrupts (R83) -/

/-- An item leaves the module. A packet that it originates onto a port of the first generation carries VER 0h (R397); the port
of a message that is still to be routed is not decided here (log 52). -/
def emit (s : State) (o : Out) : State :=
  let o' := match o with
    | .msg (some p) c b => if rb s (Reg.MGT_PORT_GEN p) F.MGT_PORT_GEN_GEN0 then .msg (some p) { c with ver := 0 } b else o
    | _ => o
  { s with outbox := s.outbox ++ [o'] }

/-- Signal an MSI-X vector: a masked vector (bit 0 of its vector control word) is held in the pending-bit array. The table's words
are 0, unmasked, at reset (DESIGN CHOICE, log 201). -/
def signal (s : State) (v : Nat) : State :=
  if bitAt (rn s (Reg.HIF_MSIX_TABLE v 3)) 0 then setMapBit s (Reg.HIF_MSIX_PBA 0) v true
  else emit s (.msix v)

/-- Record an HIF error (Table 14.4 of spec/04: Table 4.14) and signal vector 7. -/
def hifErr (s : State) (f : BitRange) : State := signal (wf s Reg.HIF_ERR f 1) 7

/-! ## Memory -/

/-- What a byte of memory that nothing has written reads as: zero (DESIGN CHOICE, log 6). -/
def memDefault (_ : Nat) : Byte := 0

/-- The address of byte `off` of a partition's or system's Oasis space in the one list of cells (R236). -/
def oasisAddr (part off : Nat) : Nat := part * 2 ^ 48 + off

/-- One byte of Oasis. -/
def oasisByte (s : State) (part off : Nat) : Byte := SMap.get memDefault s.oasis (oasisAddr part off)

/-- Set one byte of Oasis. -/
def oasisSet (s : State) (part off : Nat) (b : Byte) : State :=
  { s with oasis := SMap.put memDefault s.oasis (oasisAddr part off) b }

/-- `n` bytes of Oasis from `off` up. -/
def oasisRead (s : State) (part off n : Nat) : List Byte :=
  (List.range n).map (fun i => oasisByte s part (off + i))

/-- Store bytes in Oasis from `off` up. -/
def oasisWrite (s : State) (part : Nat) : Nat → List Byte → State
  | _, [] => s
  | off, b :: bs => oasisWrite (oasisSet s part off b) part (off + 1) bs

/-- Store bytes in host memory by DMA from address `a` up. -/
def hostWrite (s : State) : Nat → List Byte → State
  | _, [] => s
  | a, b :: bs => hostWrite { s with hostMem := SMap.put memDefault s.hostMem (a % 2 ^ 64) b } (a + 1) bs

/-- Bytes of host memory. -/
def hostRead (s : State) (a n : Nat) : List Byte :=
  (List.range n).map (fun i => SMap.get memDefault s.hostMem ((a + i) % 2 ^ 64))

/-! ## Scopes and units (R17, R21, R25) -/

/-- Dune of a flat ripple. -/
def rippleDune (r : Nat) : Nat := r / 32

/-- The image's scope that holds a flat ripple (R30, R31). -/
def scopeOfRipple (s : State) (r : Nat) : Option Scope :=
  s.img.cfg.scopes.find? (fun p => bitAt p.ripples r)

/-- The number of the scope that holds a flat ripple; 0 before an image is loaded. -/
def partOfRipple (s : State) (r : Nat) : Nat := ((scopeOfRipple s r).map (·.num)).getD 0

/-- A scope by number. -/
def scopeOf (s : State) (p : Nat) : Option Scope := s.img.cfg.scopes.find? (fun x => x.num == p)

/-- The HALL_PART of a scope (Table 2.7). -/
def hallPart (s : State) (p : Nat) : Nat := ((scopeOf s p).map (·.hallPart)).getD 0

/-- The record of a port: a port of the image, or an express port, which the model numbers 2,048 and its first lane
(R324: it has no port number). -/
def portRec (s : State) (p : Nat) : Option PortRec :=
  if p < 2048 then s.img.cfg.ports.find? (fun x => x.num == p)
  else (s.rte.expressPorts.find? (fun x => x.1.num == p)).map (·.1)

/-- Dune of a port: the dune of its first lane. -/
def portDune (s : State) (p : Nat) : Nat := ((portRec s p).map (fun r => r.first / 256)).getD 0

/-- Scope of a port: the scope of its first lane's ripple. -/
def portScope (s : State) (p : Nat) : Nat := ((portRec s p).map (fun r => partOfRipple s (r.first / 8))).getD 0

/-- Ripple of a command queue, completion queue or counter index of a dune (R88, R92, R95). -/
def cqRipple (d q : Nat) : Nat := d * 32 + q / 64

/-- Scope of a command queue. -/
def cqScope (s : State) (d q : Nat) : Nat := partOfRipple s (cqRipple d q)

/-! ## States of the module that many rules ask for -/

/-- The code of a dune's state (Table 3.3). -/
def duneSt (s : State) (d : Nat) : Nat := bitsAt (rn s Reg.PLT_DUNE_STATE) (4 * d) 4

/-- Whether a dune is in UP. -/
def duneUp (s : State) (d : Nat) : Bool := duneSt s d == 4

/-- The dunes in UP, in ascending order. -/
def dunesUp (s : State) : List Nat := (List.range 8).filter (duneUp s)

/-- Whether a lane is ready. -/
def laneReady (s : State) (l : Nat) : Bool := mapBit s (Reg.PLT_UR_LANE 0) l

/-- Whether a port is ready (Table 3.4); an express port while all its lanes are (R324). -/
def portReady (s : State) (p : Nat) : Bool :=
  if p < 2048 then mapBit s (Reg.PLT_UR_PORT 0) p
  else match portRec s p with
    | none => false
    | some r => (List.range r.width).all (fun i => laneReady s (r.first + i))

/-- Whether a ripple is ready. -/
def rippleReady (s : State) (r : Nat) : Bool := mapBit s (Reg.PLT_UR_RIPPLE 0) r

/-- Whether an engine is ready. -/
def engineReady (s : State) (g : Nat) : Bool := mapBit s (Reg.PLT_UR_ENG 0) g

/-- Whether an Oasis stack is online. -/
def stackReady (s : State) (k : Nat) : Bool := bitAt (rf s Reg.PLT_READY_SUM F.PLT_READY_SUM_OASIS) k

/-- The dune that holds a stack's controller (Table 1.2). -/
def stackDune (k : Nat) : Nat := getAt 0 [0, 0, 1, 2, 2, 3, 4, 4, 5, 6, 6, 7] k

/-- The ready stacks of a scope, in ascending order (R71). -/
def readyStacks (s : State) (p : Nat) : List Nat :=
  match scopeOf s p with
  | none => []
  | some x => (List.range 12).filter (fun k => bitAt x.stackMask k && stackReady s k)

/-- Whether TIM_READY is set. -/
def timReady (s : State) : Bool := rb s Reg.PLT_READY_SUM F.PLT_READY_SUM_TIM_READY

/-- Whether MGT_READY is set. -/
def mgtReady (s : State) : Bool := rb s Reg.PLT_READY_SUM F.PLT_READY_SUM_MGT_READY

/-- Whether the triad is in HELD (Table 16.1, code 3h). -/
def held (s : State) : Bool := rf s Reg.MGT_TRIAD F.MGT_TRIAD_STATE == 3

/-- Whether the image is in system personality. -/
def isSystem (s : State) : Bool := fieldBe 256 s.img.header 10 1 == 1

/-- Whether a KEY field holds A5h. -/
def keyOk (v : Word) : Bool := bitsAt v.toNat 24 8 == 0xA5

/-- Whether bit `i` of a written word is 1. -/
def wbit (v : Word) (i : Nat) : Bool := bitAt v.toNat i

/-- Whether the platform die runs and answers on BAR0 (Table 3.1). -/
def platUp (s : State) : Bool := s.plat.running

end Sys2Proof.Machine
end

