-- ==== Sys2Proof/Machine/Events.lean ====
section
/-! DEFINITION. Notification and mirror FIFOs (spec/04: R103 to R106, R420) and the event registers of the blocks with
their notifications and vectors. -/
namespace Sys2Proof.Machine

/-! ## FIFOs -/

/-- A completion or notification queue that has never been enabled. -/
def Cnq.empty : Cnq where
  typ := 0
  dest := 0
  log2 := 6
  base := 0
  phase := true
  count := 0
  unread := []
  staged := []
  lost := false
  gathered := []
  gatherAt := 0
  timerAt := 0
  flushLeft := 0

/-- Flat number of a command or completion queue. -/
def flatQ (d n : Nat) : Nat := d * 2048 + n

/-- A completion or notification queue. -/
def cnqOf (s : State) (d n : Nat) : Cnq := (SMap.find s.hif.cnqs (flatQ d n)).getD Cnq.empty

/-- Replace a completion or notification queue. -/
def setCnq (s : State) (d n : Nat) (q : Cnq) : State :=
  { s with hif := { s.hif with cnqs := SMap.ins s.hif.cnqs (flatQ d n) q } }

/-- Whether a completion or notification queue is enabled; TYPE 11b acts as disabled (Table 4.12). -/
def cnqOn (s : State) (d n : Nat) : Bool := rb s (Reg.HIF_CNQ_CFG d n) F.HIF_CNQ_CFG_ENABLE && (cnqOf s d n).typ != 3

/-- Whether a queue is an enabled FIFO of a kind: 1 notification, 2 mirror (Table 4.12). -/
def fifoOn (s : State) (d n kind : Nat) : Bool := cnqOn s d n && (cnqOf s d n).typ == kind

/-- The vector of a queue; a value below 64 acts as 64 (Table 4.12). -/
def cnqVector (s : State) (d n : Nat) : Nat := max 64 (rf s (Reg.HIF_CNQ_CFG d n) F.HIF_CNQ_CFG_VECTOR)

/-- Signal a queue's vector while INTR_EN is 1 (R105, R106). -/
def cnqSignal (s : State) (d n : Nat) : State :=
  if rb s (Reg.HIF_CNQ_CFG d n) F.HIF_CNQ_CFG_INTR_EN then signal s (cnqVector s d n) else s

/-- Set a notice bit of HIF_CNQ_CTRL and signal the vector (R105). -/
def cnqNotice (s : State) (d n : Nat) (f : BitRange) : State :=
  cnqSignal (wf s (Reg.HIF_CNQ_CTRL d n) f 1) d n

/-- A payload padded with zeros to a multiple of 8 bytes (R103). -/
def pad8 (l : List Byte) : List Byte := l ++ List.replicate ((8 - l.length % 8) % 8) 0

/-- The framed size of a packet (R104). -/
def framedSize (p : FifoPkt) : Nat := 8 + (pad8 p.payload).length

/-- The length word of R103. -/
def lengthWord (p : FifoPkt) (lost wrap : Bool) : List Byte :=
  natBe 8 (2 ^ 63 + b2n p.trunc * 2 ^ 62 + b2n lost * 2 ^ 61 + b2n wrap * 2 ^ 60 + p.typ % 256 * 2 ^ 48
    + p.payload.length % 2 ^ 32)

/-- The bytes of a framed packet. -/
def framedBytes (p : FifoPkt) (lost : Bool) : List Byte := lengthWord p lost false ++ pad8 p.payload

/-- The occupied space of a FIFO in host memory, from HEAD to TAIL in ring order (R104). -/
def fifoOcc (size head tail : Nat) : Nat := (tail + size - head % size) % size

/-- Where a packet may start: (behind a WRAP word?, offset), or not now (R104). -/
def fifoFit (size head tail framed : Nat) : Option (Bool × Nat) :=
  let occ := fifoOcc size head tail
  if tail + framed ≤ size then (if occ + framed + 8 ≤ size then some (false, tail) else none)
  else if occ + (size - tail) + framed + 8 ≤ size then some (true, 0) else none

/-- Bytes that wait in a fabric-destination FIFO. -/
def gatheredBytes (q : Cnq) : Nat := sumNat (q.gathered.map List.length)

/-- Where the next packet of a queue may start, whatever its destination. -/
def cnqFit (s : State) (d n : Nat) (framed : Nat) : Option (Bool × Nat) :=
  let q := cnqOf s d n
  let size := 2 ^ q.log2
  if q.dest = 1 then (if gatheredBytes q + framed + 8 ≤ size then some (false, 0) else none)
  else fifoFit size (rn s (Reg.HIF_CNQ_HEAD d n)) (rn s (Reg.HIF_CNQ_TAIL d n)) framed

/-- The fill of a queue: unread records of a ring, occupied bytes of a FIFO (R105). -/
def cnqFill (s : State) (d n : Nat) : Nat :=
  let q := cnqOf s d n
  if q.typ = 0 then q.unread.length
  else if q.dest = 1 then gatheredBytes q
  else fifoOcc (2 ^ q.log2) (rn s (Reg.HIF_CNQ_HEAD d n)) (rn s (Reg.HIF_CNQ_TAIL d n))

/-- What follows a rise of the fill from `old`: the read timer restarts when the queue was empty, and the half-fill
notice is raised when the fill reaches half the queue (R105). -/
def cnqGrew (s : State) (d n old : Nat) : State :=
  let q := cnqOf s d n
  let half := 2 ^ q.log2 / 2
  let s1 := if old = 0 then setCnq s d n { q with timerAt := s.clock } else s
  if old < half ∧ half ≤ cnqFill s1 d n then cnqNotice s1 d n F.HIF_CNQ_CTRL_HALF_EVT else s1

/-- Write a packet that fits, at the place `at_` (R103, R104). -/
def fifoStart (s : State) (d n : Nat) (p : FifoPkt) (at_ : Bool × Nat) : State :=
  let q := cnqOf s d n
  let old := cnqFill s d n
  let bytes := framedBytes p q.lost
  if q.dest = 1 then
    let q' := { q with lost := false, gathered := q.gathered ++ [bytes],
                       gatherAt := if q.gathered.isEmpty then s.clock else q.gatherAt }
    cnqGrew (setCnq s d n q') d n old
  else
    let tail := rn s (Reg.HIF_CNQ_TAIL d n)
    let s1 := if at_.1 then hostWrite s (q.base + tail) (lengthWord ⟨0, false, []⟩ false true) else s
    let s2 := hostWrite s1 (q.base + at_.2) bytes
    let s3 := wn s2 (Reg.HIF_CNQ_TAIL d n) ((at_.2 + bytes.length) % 2 ^ q.log2)
    cnqGrew (setCnq s3 d n { q with lost := false, count := q.count + bytes.length }) d n old

/-- Drop a FIFO packet: counted, DROP_EVT set, LOST in the next packet written (R104). -/
def fifoDrop (s : State) (d n : Nat) : State :=
  let s1 := setCnq s d n { cnqOf s d n with lost := true }
  let s2 := bump32 s1 (Reg.HIF_CNQ_DROPS d n) 1
  cnqNotice s2 d n F.HIF_CNQ_CTRL_DROP_EVT

/-- A packet for a queue that is not an enabled FIFO of its kind is dropped at once: counted there, DROP_EVT set, no
vector (R104). -/
def fifoReject (s : State) (d n : Nat) : State :=
  wf (bump32 s (Reg.HIF_CNQ_DROPS d n) 1) (Reg.HIF_CNQ_CTRL d n) F.HIF_CNQ_CTRL_DROP_EVT 1

/-- The outcome of offering a packet to a FIFO. -/
inductive FifoAnswer where
  | written
  | staged
  | dropped
  deriving DecidableEq, Repr

/-- Offer a notification or punt packet (R104): it starts if nothing is staged and it fits, else it waits in the 64 KB
staging buffer, else it is dropped. -/
def fifoPut (s : State) (d n : Nat) (p : FifoPkt) : State × FifoAnswer :=
  if !fifoOn s d n 1 then (fifoReject s d n, .dropped)
  else
    let q := cnqOf s d n
    if framedSize p + 8 > 2 ^ q.log2 then (fifoDrop s d n, .dropped)
    else
      match (if q.staged.isEmpty then cnqFit s d n (framedSize p) else none) with
      | some place => (fifoStart s d n p place, .written)
      | none =>
        if sumNat (q.staged.map framedSize) + framedSize p ≤ 65536 then
          (setCnq s d n { q with staged := q.staged ++ [p] }, .staged)
        else (fifoDrop s d n, .dropped)

/-- Offer a mirror copy (R104): it starts or is dropped at once. -/
def mirrorPut (s : State) (d n : Nat) (p : FifoPkt) : State × FifoAnswer :=
  if !fifoOn s d n 2 then (fifoReject s d n, .dropped)
  else
    match cnqFit s d n (framedSize p) with
    | some place => (fifoStart s d n p place, .written)
    | none => (fifoDrop s d n, .dropped)

/-- Start staged packets in order, as far as they fit (R104). -/
def startStaged (d n : Nat) : List FifoPkt → State → State
  | [], s => setCnq s d n { cnqOf s d n with staged := [] }
  | p :: ps, s =>
    match cnqFit s d n (framedSize p) with
    | some place => startStaged d n ps (fifoStart s d n p place)
    | none => setCnq s d n { cnqOf s d n with staged := p :: ps }

/-- Start staged packets; a pending flush is done once the packets that were staged before it are written (R106). -/
def drainStaged (s : State) (d n : Nat) : State :=
  let before := (cnqOf s d n).staged.length
  let s1 := startStaged d n (cnqOf s d n).staged s
  let left := (cnqOf s d n).flushLeft - (before - (cnqOf s1 d n).staged.length)
  let s2 := setCnq s1 d n { cnqOf s1 d n with flushLeft := left }
  if rb s2 (Reg.HIF_CNQ_CTRL d n) F.HIF_CNQ_CTRL_FLUSH_PENDING && left == 0 then
    cnqNotice (wf s2 (Reg.HIF_CNQ_CTRL d n) F.HIF_CNQ_CTRL_FLUSH_PENDING 0) d n F.HIF_CNQ_CTRL_FLUSH_DONE
  else s2

/-! ## Events -/

/-- Set an event bit and, with EN set, report it to a notification FIFO. -/
def raise (s : State) (evt : Nat) (f : BitRange) (en : Bool) (d n : Nat) (typ : Nat) (payload : List Byte) : State :=
  let s1 := wf s evt f 1
  if en then (fifoPut s1 d n ⟨typ, false, payload⟩).1 else s1

/-- The lowest dune in UP, or dune 0: where the erg-level RTE_NOTIFY reports (DESIGN CHOICE, log 12). -/
def ergDune (s : State) : Nat := (dunesUp s).headD 0

/-- An SWC event: TYPE 05h (R132). -/
def swcEvent (s : State) (d : Nat) (f : BitRange) (part queue : Nat) : State :=
  raise s (Reg.SWC_EVT d) f (rb s (Reg.SWC_NOTIFY d) F.SWC_NOTIFY_EN) d (rf s (Reg.SWC_NOTIFY d) F.SWC_NOTIFY_CNQ) 0x05
    (natBe 1 f.lo ++ natBe 1 part ++ natBe 2 queue ++ timeBytes s)

/-- An FWD event: TYPE 06h. -/
def fwdEvent (s : State) (d : Nat) (f : BitRange) (table word : Nat) : State :=
  raise s (Reg.FWD_EVT d) f (rb s (Reg.FWD_NOTIFY d) F.FWD_NOTIFY_EN) d (rf s (Reg.FWD_NOTIFY d) F.FWD_NOTIFY_CNQ) 0x06
    (natBe 1 f.lo ++ natBe 1 table ++ natBe 2 0 ++ natBe 4 word ++ timeBytes s)

/-- An RTE event: TYPE 07h. -/
def rteEvent (s : State) (f : BitRange) (dir port : Nat) : State :=
  raise s Reg.RTE_EVT f (rb s Reg.RTE_NOTIFY F.RTE_NOTIFY_EN) (ergDune s) (rf s Reg.RTE_NOTIFY F.RTE_NOTIFY_CNQ) 0x07
    (natBe 1 f.lo ++ natBe 1 dir ++ natBe 2 port ++ timeBytes s)

/-- A TIM event: TYPE 08h, vector 2 (R203). -/
def timEvent (s : State) (f : BitRange) : State :=
  let src := if rf s Reg.TIM_STATUS F.TIM_STATUS_SRC_KIND = 1 then rf s Reg.TIM_STATUS F.TIM_STATUS_SRC_PORT else 0xFFFF
  signal (raise s Reg.TIM_EVT f (rb s Reg.TIM_NOTIFY F.TIM_NOTIFY_EN) (rf s Reg.TIM_NOTIFY F.TIM_NOTIFY_DUNE)
    (rf s Reg.TIM_NOTIFY F.TIM_NOTIFY_CNQ) 0x08
    (natBe 1 f.lo ++ natBe 1 (rf s Reg.TIM_STATUS F.TIM_STATUS_STATE) ++ natBe 2 src ++ timeBytes s)) 2

/-- An SCH event: TYPE 09h (R222). -/
def schEvent (s : State) (d : Nat) (f : BitRange) (g : Nat) : State :=
  raise s (Reg.SCH_EVT d) f (rb s (Reg.SCH_NOTIFY d) F.SCH_NOTIFY_EN) d (rf s (Reg.SCH_NOTIFY d) F.SCH_NOTIFY_CNQ) 0x09
    (natBe 1 f.lo ++ natBe 1 g ++ natBe 2 0 ++ timeBytes s)

/-- A BRC event: TYPE 0Ah (R245), with what the event says of itself after the bit. -/
def brcEvent (s : State) (d : Nat) (f : BitRange) (body : List Byte) : State :=
  raise s (Reg.BRC_EVT d) f (rb s (Reg.BRC_NOTIFY d) F.BRC_NOTIFY_EN) d (rf s (Reg.BRC_NOTIFY d) F.BRC_NOTIFY_CNQ) 0x0A
    (natBe 1 f.lo ++ body ++ timeBytes s)

/-- A NUM event: TYPE 0Bh (R271). -/
def numEvent (s : State) (f : BitRange) (body : List Byte) : State :=
  raise s Reg.NUM_EVT f (rb s Reg.NUM_NOTIFY F.NUM_NOTIFY_EN) (rf s Reg.NUM_NOTIFY F.NUM_NOTIFY_DUNE)
    (rf s Reg.NUM_NOTIFY F.NUM_NOTIFY_CNQ) 0x0B (natBe 1 f.lo ++ body ++ timeBytes s)

/-- A COL event: TYPE 0Ch (R302). -/
def colEvent (s : State) (f : BitRange) (body : List Byte) : State :=
  raise s Reg.COL_EVT f (rb s Reg.COL_NOTIFY F.COL_NOTIFY_EN) (rf s Reg.COL_NOTIFY F.COL_NOTIFY_DUNE)
    (rf s Reg.COL_NOTIFY F.COL_NOTIFY_CNQ) 0x0C (natBe 1 f.lo ++ body ++ timeBytes s)

/-- An OPT event of a tile: TYPE 0Dh, vector 5 (R335). -/
def optEvent (s : State) (t : Nat) (f : BitRange) (body : List Byte) : State :=
  signal (raise s (Reg.OPT_EVT t) f (rb s (Reg.OPT_NOTIFY t) F.OPT_NOTIFY_EN) (t / 8)
    (rf s (Reg.OPT_NOTIFY t) F.OPT_NOTIFY_CNQ) 0x0D (natBe 1 f.lo ++ body ++ timeBytes s)) 5

/-- A CHK event: TYPE 0Eh, vector 6 (R359): partition, a 16-bit object, STEP. -/
def chkEvent (s : State) (d : Nat) (f : BitRange) (part obj step : Nat) : State :=
  signal (raise s (Reg.CHK_EVT d) f (rb s (Reg.CHK_NOTIFY d) F.CHK_NOTIFY_EN) d (rf s (Reg.CHK_NOTIFY d) F.CHK_NOTIFY_CNQ) 0x0E
    (natBe 1 f.lo ++ natBe 1 part ++ natBe 2 obj ++ natBe 4 step ++ timeBytes s)) 6

/-- A SEC event: TYPE 0Fh, vector 3 (R381). -/
def secEvent (s : State) (f : BitRange) (body : List Byte) : State :=
  signal (raise s Reg.SEC_EVT f (rb s Reg.SEC_NOTIFY F.SEC_NOTIFY_EN) (rf s Reg.SEC_NOTIFY F.SEC_NOTIFY_DUNE)
    (rf s Reg.SEC_NOTIFY F.SEC_NOTIFY_CNQ) 0x0F (natBe 1 f.lo ++ body ++ timeBytes s)) 3

/-- An MGT event: TYPE 10h, vector 4 (R398). -/
def mgtEvent (s : State) (f : BitRange) (body : List Byte) : State :=
  signal (raise s Reg.MGT_EVT f (rb s Reg.MGT_NOTIFY F.MGT_NOTIFY_EN) (rf s Reg.MGT_NOTIFY F.MGT_NOTIFY_DUNE)
    (rf s Reg.MGT_NOTIFY F.MGT_NOTIFY_CNQ) 0x10 (natBe 1 f.lo ++ body ++ timeBytes s)) 4

/-- A PWR event: TYPE 12h (R406). -/
def pwrEvent (s : State) (f : BitRange) : State :=
  raise s Reg.PWR_EVT f (rb s Reg.PWR_NOTIFY F.PWR_NOTIFY_EN) (rf s Reg.PWR_NOTIFY F.PWR_NOTIFY_DUNE)
    (rf s Reg.PWR_NOTIFY F.PWR_NOTIFY_CNQ) 0x12 (natBe 1 f.lo ++ natBe 3 0 ++ timeBytes s)

/-! ## Fault Signature Records (spec/14: R358; spec/04: R87) -/

/-- CBOR head of a major type and an argument, in core deterministic encoding. -/
def cborHead (major n : Nat) : List Byte :=
  if n < 24 then natBe 1 (major * 32 + n)
  else if n < 2 ^ 8 then natBe 1 (major * 32 + 24) ++ natBe 1 n
  else if n < 2 ^ 16 then natBe 1 (major * 32 + 25) ++ natBe 2 n
  else if n < 2 ^ 32 then natBe 1 (major * 32 + 26) ++ natBe 4 n
  else natBe 1 (major * 32 + 27) ++ natBe 8 n

/-- CBOR of an unsigned number. -/
def cborU (n : Nat) : List Byte := cborHead 0 n

/-- CBOR of a map from unsigned to unsigned. -/
def cborMap (l : List (Nat × Nat)) : List Byte :=
  cborHead 5 l.length ++ (l.map (fun e => cborU e.1 ++ cborU e.2)).flatten

/-- The CBOR bytes of a record (Table 14.2). -/
def fsrBytes (serial : Nat) (r : Fsr) : List Byte :=
  let items : List (List Byte) := [
    cborU 0 ++ cborU 1,
    cborU 1 ++ cborU r.seq,
    cborU 2 ++ cborHead 2 16 ++ natBe 16 serial,
    cborU 3 ++ cborHead 3 2 ++ [0x42, 0x30],
    cborU 4 ++ cborU r.typ,
    cborU 5 ++ cborHead 4 r.path.length ++ (r.path.map cborU).flatten,
    cborU 6 ++ cborMap r.loc,
    cborU 7 ++ cborHead 4 2 ++ cborU r.sec ++ cborU r.ns,
    cborU 8 ++ natBe 1 (if r.timReady then 0xF5 else 0xF4),
    cborU 9 ++ cborU r.volt,
    cborU 10 ++ cborU r.temp,
    cborU 11 ++ cborU r.pace,
    cborU 12 ++ cborMap r.counts,
    cborU 13 ++ cborU r.part]
    ++ r.coll.map (fun e => cborU e.1 ++ cborU e.2)
    ++ [cborU 17 ++ cborMap r.detail]
  cborHead 5 items.length ++ items.flatten

/-- Show the record that PLT_FSR_SEL names in its window (Table 14.7). -/
def fsrShow (s : State) : State :=
  let sel := rn s Reg.PLT_FSR_SEL
  match s.plat.fsrRing.find? (fun r => r.seq == sel) with
  | none =>
    (List.range 128).foldl (fun t i => wn t (Reg.PLT_FSR_DATA i) 0) (wn s Reg.PLT_FSR_LEN 0)
  | some r =>
    let b := fsrBytes s.otp.serial r
    (List.range 128).foldl (fun t i => wn t (Reg.PLT_FSR_DATA i) (beNat ((((b.drop (4 * i)).take 4) ++ [0, 0, 0, 0]).take 4)))
      (wn s Reg.PLT_FSR_LEN (2 ^ 31 + b.length))

/-! ## Management ports (R86) -/

/-- A management port. -/
def mpOf (s : State) (p : Nat) : MgmtPort := getAt MgmtPort.empty s.hif.ports p
def setMp (s : State) (p : Nat) (x : MgmtPort) : State := { s with hif := { s.hif with ports := setAt s.hif.ports p x } }

/-- VID of a port's frames; 0 for untagged. -/
def mpVid (s : State) (p : Nat) : Nat := rf s (Reg.HIF_MP_CFG p) F.HIF_MP_CFG_VID

/-- A port's IPv4 and IPv6 addresses and gateways. -/
def mpV4 (s : State) (p : Nat) : Nat := rn s (Reg.HIF_MP_V4 p)
def mpV6 (s : State) (p : Nat) : Nat := rnHL s (Reg.HIF_MP_V6 p 0) * 2 ^ 64 + rnHL s (Reg.HIF_MP_V6 p 2)
def mpGw4 (s : State) (p : Nat) : Nat := rn s (Reg.HIF_MP_GW4 p)
def mpGw6 (s : State) (p : Nat) : Nat := rnHL s (Reg.HIF_MP_GW6 p 0) * 2 ^ 64 + rnHL s (Reg.HIF_MP_GW6 p 2)

/-- Whether an address family of a port is enabled and not turned off by a conflict. -/
def mpFamily (s : State) (p : Nat) (v6 : Bool) : Bool :=
  if v6 then rb s (Reg.HIF_MP_CFG p) F.HIF_MP_CFG_IPV6_EN && !(mpOf s p).v6Off
  else rb s (Reg.HIF_MP_CFG p) F.HIF_MP_CFG_IPV4_EN && !(mpOf s p).v4Off

/-- Whether a destination lies in a port's prefix, or is link-local. -/
def mpOnLink (s : State) (p : Nat) (v6 : Bool) (dst : Nat) : Bool :=
  let plen := if v6 then min 128 (rn s (Reg.HIF_MP_V6_PLEN p)) else min 32 (rn s (Reg.HIF_MP_V4_PLEN p))
  let sh := 2 ^ ((if v6 then 128 else 32) - plen)
  let own := if v6 then mpV6 s p else mpV4 s p
  dst / sh == own / sh || (v6 && dst / 2 ^ 118 == 0x3FA)

/-- A port's gateway of a family; 0 where it has none. -/
def mpGw (s : State) (p : Nat) (v6 : Bool) : Nat := if v6 then mpGw6 s p else mpGw4 s p

/-- Whether a port can reach an address: it lies in its prefix, or a gateway is set (R86, Table 4.15). -/
def mpReaches (s : State) (p : Nat) (v6 : Bool) (dst : Nat) : Bool := mpOnLink s p v6 dst || mpGw s p v6 != 0

/-- Send a message to an address that a port reaches; a gateway whose link-layer address is not known is asked for it first. -/
def mpSend (s : State) (p : Nat) (v6 : Bool) (dst : Nat) (m : MgmtMsg) : State :=
  let known := if v6 then (mpOf s p).gwMac6.isSome else (mpOf s p).gwMac4.isSome
  let asked := if mpOnLink s p v6 dst || known then s
    else emit s (.mgmt p (mpVid s p) (if v6 then .ndSolicit (mpGw s p v6) else .arpRequest (mpGw s p v6)))
  if mpReaches s p v6 dst then emit asked (.mgmt p (mpVid s p) m) else s

/-- Send a record to the collector as it is stored, at most 1,000 in a second of the counter (R87). -/
def fsrExport (s : State) (r : Fsr) : State :=
  let port := rf s Reg.HIF_FSR_EXP F.HIF_FSR_EXP_PORT
  let v6 := rb s Reg.HIF_FSR_EXP F.HIF_FSR_EXP_AF
  let famOn := mpFamily s port v6
  let sent := if s.hif.fsrSec = nowSec s then s.hif.fsrCnt else 0
  let dst := if v6 then 2 ^ 96 * rn s (Reg.HIF_FSR_DST 0) + 2 ^ 64 * rn s (Reg.HIF_FSR_DST 1) + 2 ^ 32 * rn s (Reg.HIF_FSR_DST 2)
               + rn s (Reg.HIF_FSR_DST 3) else rn s (Reg.HIF_FSR_DST 3)
  if rb s Reg.HIF_FSR_EXP F.HIF_FSR_EXP_EN && famOn && decide (sent < 1000) && mpReaches s port v6 dst then
    let s1 := { s with hif := { s.hif with fsrSec := nowSec s, fsrCnt := sent + 1 } }
    let s2 := mpSend s1 port v6 dst (.udp v6 dst 4713 (rf s Reg.HIF_FSR_EXP F.HIF_FSR_EXP_DPORT)
      (natBe 2 0x4653 ++ natBe 1 1 ++ natBe 1 0 ++ natBe 4 r.seq ++ fsrBytes s.otp.serial r))
    bump32 s2 Reg.HIF_FSR_SENT 1
  else s

/-- Store a Fault Signature Record (FSR_STORE, R358) and export it (FSR_EXPORT, R87). Voltage, temperature and pace
are readings: free values. -/
def fsrStore (s : State) (typ : Nat) (path : List Nat) (loc counts : List (Nat × Nat)) (part : Nat)
    (coll detail : List (Nat × Nat)) : State :=
  let seq := rn s Reg.PLT_FSR_HEAD + 1
  let r : Fsr :=
    { seq := seq, typ := typ, path := path, loc := loc, sec := nowSec s, ns := nowNs s, timReady := timReady s,
      volt := Config.free s.free % 2 ^ 16, temp := Config.free (s.free + 1) % 2 ^ 16, pace := Config.free (s.free + 2) % 2 ^ 16,
      counts := counts, part := part, coll := coll, detail := detail }
  let full := decide (4096 ≤ s.plat.fsrRing.length)
  let ring := (if full then s.plat.fsrRing.drop 1 else s.plat.fsrRing) ++ [r]
  let s1 := { s with plat := { s.plat with fsrRing := ring }, free := s.free + 3 }
  let s2 := wfs (wn s1 Reg.PLT_FSR_HEAD seq) Reg.PLT_FSR_STATUS
    [(F.PLT_FSR_STATUS_NEW, 1), (F.PLT_FSR_STATUS_COUNT, ring.length)]
  let s3 := if full then wf s2 Reg.PLT_FSR_STATUS F.PLT_FSR_STATUS_OVERWRITE 1 else s2
  fsrShow (fsrExport (signal s3 6) r)

end Sys2Proof.Machine
end

