-- ==== Sys2Proof/Machine/Complete.lean ====
section
/-! DEFINITION. Command queues, state words, claims, completion records and event counters (spec/04: R88 to R102). -/
namespace Sys2Proof.Machine

/-! ## Descriptors (Table 4.7) -/

def dOpcode (v : Nat) : Nat := fieldBe 64 v 0 1
def dFlags (v : Nat) : Nat := fieldBe 64 v 1 1
def dFence (v : Nat) : Bool := bitAt (dFlags v) 7
def dIntr (v : Nat) : Bool := bitAt (dFlags v) 6
def dOpflags (v : Nat) : Nat := dFlags v % 16
def dTag (v : Nat) : Nat := fieldBe 64 v 2 2
def dGroup (v : Nat) : Nat := fieldBe 64 v 4 2
def dGen (v : Nat) : Nat := fieldBe 64 v 6 1
def dRedop (v : Nat) : Nat := fieldBe 64 v 7 1
def dFmtIn (v : Nat) : Nat := fieldBe 64 v 8 1
def dFmtOut (v : Nat) : Nat := fieldBe 64 v 9 1
def dPolicy (v : Nat) : Nat := fieldBe 64 v 10 1
def dSeedSel (v : Nat) : Nat := fieldBe 64 v 11 1 / 16
def dCount (v : Nat) : Nat := fieldBe 64 v 12 4
def dSrc (v : Nat) : Nat := fieldBe 64 v 16 6
def dDst (v : Nat) : Nat := fieldBe 64 v 24 6
/-- WAIT `i` as (counter index, value). -/
def dWait (v i : Nat) : Nat × Nat := (fieldBe 64 v (32 + 4 * i) 4 / 2 ^ 20, fieldBe 64 v (32 + 4 * i) 4 % 2 ^ 20)
/-- The waits in use: index FFFh means no wait (R95). -/
def dWaits (v : Nat) : List (Nat × Nat) := ((List.range 4).map (dWait v)).filter (fun w => w.1 != 0xFFF)
def dSignal (v : Nat) : Nat := fieldBe 64 v 48 2 / 16

/-- Whether every reserved bit of a descriptor is 0 (R93). -/
def dReservedZero (v : Nat) : Bool :=
  dFlags v / 16 % 4 == 0 && fieldBe 64 v 11 1 % 16 == 0 && fieldBe 64 v 22 2 == 0 && fieldBe 64 v 30 2 == 0
    && fieldBe 64 v 48 2 % 16 == 0 && fieldBe 64 v 50 14 == 0

/-! ## Status codes (Table 4.10) -/

def stOk : Nat := 0x00
def stAborted : Nat := 0x01
def stAbortLate : Nat := 0x02
def stRetracted : Nat := 0x03
def stPoisoned : Nat := 0x04
def stRegrouped : Nat := 0x05
def stFenced : Nat := 0x06
def stDigestFail : Nat := 0x07
def stTimeout : Nat := 0x08
def stDenied : Nat := 0x09
def stRangeEscalated : Nat := 0x0A
def stBadDescriptor : Nat := 0x0B

/-! ## Queues -/

/-- A command queue that has never been enabled. -/
def Cq.empty : Cq where
  slots := []
  nextNo := 0
  log2 := 6
  cnq := 0

/-- A command queue's ring. -/
def cqOf (s : State) (d q : Nat) : Cq := (SMap.find s.hif.cqs (flatQ d q)).getD Cq.empty

/-- Replace a command queue's ring, and show its occupancy. -/
def setCq (s : State) (d q : Nat) (c : Cq) : State :=
  wf { s with hif := { s.hif with cqs := SMap.ins s.hif.cqs (flatQ d q) c } }
    (Reg.HIF_CQ_STATUS d q) F.HIF_CQ_STATUS_OCCUPANCY c.slots.length

/-- A command queue's state code (Table 4.3): 0h DISABLED, 1h ENABLED, 2h ERROR, 3h DRAINING, 4h QUIESCED. -/
def cqState (s : State) (d q : Nat) : Nat := rf s (Reg.HIF_CQ_STATUS d q) F.HIF_CQ_STATUS_STATE

/-- Ring entries that HIF_CQ_CFG asks for, as an exponent from 6 to 16 (Table 4.4). -/
def cqAskLog2 (s : State) (d q : Nat) : Nat := min 16 (max 6 (rf s (Reg.HIF_CQ_CFG d q) F.HIF_CQ_CFG_LOG2_SIZE))

/-- The completion queue that HIF_CQ_CFG asks for. -/
def cqAskCnq (s : State) (d q : Nat) : Nat := rf s (Reg.HIF_CQ_CFG d q) F.HIF_CQ_CFG_CNQ

/-- Ring entries in force. -/
def cqSize (s : State) (d q : Nat) : Nat := 2 ^ (cqOf s d q).log2

/-- The completion queue that a command queue is bound to: the 11 bits of CNQ that its enable took. -/
def cqCnq (s : State) (d q : Nat) : Nat := (cqOf s d q).cnq % 2 ^ 11

/-- An enable takes a queue's geometry from HIF_CQ_CFG. A later write of LOG2_SIZE or CNQ changes the register alone, so that the
room that the enable found in the completion ring stays (R89; DESIGN CHOICE, log 202). -/
def latchCq (s : State) (d q : Nat) : State := setCq s d q { cqOf s d q with log2 := cqAskLog2 s d q, cnq := cqAskCnq s d q }

/-- Whether some command queue of a dune is in ERROR, for HIF_ERR.CQ_ERR_DUNE. -/
def duneHasCqError (s : State) (d : Nat) : Bool :=
  s.hif.cqs.any (fun e => e.1 / 2048 == d && cqState s d (e.1 % 2048) == 2)

/-- Show which dunes hold a queue in ERROR (Table 4.14). -/
def showCqErrors (s : State) : State :=
  wf s Reg.HIF_ERR F.HIF_ERR_CQ_ERR_DUNE
    (sumNat ((List.range 8).map (fun d => b2n (duneHasCqError s d) * 2 ^ d)))

/-- Move a command queue to a state; ENABLE reads 1 in ENABLED and ERROR only (Table 4.4). -/
def setCqState (s : State) (d q st : Nat) : State :=
  let s1 := wf s (Reg.HIF_CQ_STATUS d q) F.HIF_CQ_STATUS_STATE st
  showCqErrors (wf s1 (Reg.HIF_CQ_CFG d q) F.HIF_CQ_CFG_ENABLE (b2n (st == 1 || st == 2)))

/-- Enter ERROR with a cause (Table 4.3). -/
def cqError (s : State) (d q cause : Nat) : State :=
  let s1 := if (SMap.find s.hif.cqs (flatQ d q)).isSome then s else setCq s d q Cq.empty
  hifErr (setCqState (wf s1 (Reg.HIF_CQ_STATUS d q) F.HIF_CQ_STATUS_ERR_CAUSE cause) d q 2) F.HIF_ERR_CQ_ERROR

/-- Whether a command has still to be dispatched. -/
def slotPending (x : Slot) : Bool := x.st == .queued || x.st == .waiting

/-- Whether a command is not yet claimed. -/
def slotOpen (x : Slot) : Bool := x.st == .queued || x.st == .waiting || x.st == .running

/-- The first command that is not dispatched is WAITING at the head of its queue (R99). -/
def headWaiting (l : List Slot) : List Slot := modFirst slotPending (fun x => { x with st := .waiting }) l

/-- Append descriptors in arrival order (R88); a TAG that is outstanding marks the newcomer (R94). -/
def appendDescs : List Nat → Cq → Cq
  | [], c => { c with slots := headWaiting c.slots }
  | v :: vs, c =>
    let x : Slot := { no := c.nextNo, desc := v, st := .queued, status := 0, digest := 0, escalated := 0, saturated := 0,
                      bad := c.slots.any (fun y => dTag y.desc == dTag v), holds := false }
    appendDescs vs { c with slots := c.slots ++ [x], nextNo := c.nextNo + 1 }

/-- Offer descriptors to a command queue (R88): accepted whole in ENABLED when all of them fit, OVERFLOW when they do
not, refused and counted in any other state. -/
def cqOffer (s : State) (d q : Nat) (descs : List Nat) : State :=
  if cqState s d q = 1 then
    let c := cqOf s d q
    if c.slots.length + descs.length ≤ cqSize s d q then setCq s d q (appendDescs descs c)
    else bump32 (cqError s d q 1) (Reg.HIF_CQ_DROP d q) 1
  else bump32 s (Reg.HIF_CQ_DROP d q) 1

/-! ## Event counters (R95, R96) -/

/-- An event counter. -/
def counter (s : State) (d i : Nat) : Nat := rf s (Reg.HIF_CNT d i) F.HIF_CNT_VALUE

/-- Add to an event counter, modulo 2^20. -/
def addCounter (s : State) (d i n : Nat) : State := wf s (Reg.HIF_CNT d i) F.HIF_CNT_VALUE (counter s d i + n)

/-- Whether a wait is met: (counter − value) mod 2^20 is less than 2^19 (R96). -/
def waitMet (s : State) (d : Nat) (w : Nat × Nat) : Bool :=
  decide ((counter s d w.1 + 2 ^ 20 - w.2) % 2 ^ 20 < 2 ^ 19)

/-- Scope of an event counter: that of ripple i div 128 of its dune (R95). -/
def counterScope (s : State) (d i : Nat) : Nat := partOfRipple s (d * 32 + i / 128)

/-! ## Records and claims (R97 to R101) -/

/-- The 16 bytes of a completion record (Table 4.9). -/
def recordBytes (time : Nat) (phase : Bool) (x : Slot) : List Byte :=
  natBe 2 (dTag x.desc) ++ natBe 1 x.status ++ natBe 6 time
    ++ natBe 3 (b2n phase * 2 ^ 23 + min 2047 x.escalated * 2 ^ 12 + min 4095 x.saturated)
    ++ natBe 4 (Nat.xor (x.digest / 2 ^ 32) (x.digest % 2 ^ 32))

/-- Write a completion record into its ring, or gather it for a fabric endpoint (R98, R106, R107). -/
def writeRecord (s : State) (d q : Nat) (x : Slot) : State :=
  let n := cqCnq s d q
  let k := cnqOf s d n
  let old := cnqFill s d n
  let bytes := recordBytes (time48 s) k.phase x
  let size := 2 ^ k.log2
  let tail := rn s (Reg.HIF_CNQ_TAIL d n)
  let wraps := decide (tail + 1 = size)
  let k' := { k with unread := k.unread ++ [(flatQ d q, x.no)], count := k.count + 1,
                     phase := if wraps then !k.phase else k.phase,
                     gathered := if k.dest = 1 then k.gathered ++ [bytes] else k.gathered,
                     gatherAt := if k.gathered.isEmpty then s.clock else k.gatherAt }
  let s1 := if k.dest = 1 then s else hostWrite s (k.base + 16 * tail) bytes
  let s2 := cnqGrew (setCnq (wn s1 (Reg.HIF_CNQ_TAIL d n) ((tail + 1) % size)) d n k') d n old
  if dIntr x.desc then cnqSignal s2 d n else s2

/-- Add 1 to the SIGNAL counter where the status allows it (R97). -/
def signalCounter (s : State) (d : Nat) (x : Slot) : State :=
  if dSignal x.desc ≠ 0xFFF ∧
      (x.status = stOk ∨ x.status = stRangeEscalated ∨ (dOpcode x.desc = 1 ∧ x.status = stAbortLate)) then
    addCounter s d (dSignal x.desc) 1
  else s

/-- Whether a command can still be claimed. -/
def claimable (s : State) (d q no : Nat) : Bool := (cqOf s d q).slots.any (fun x => x.no == no && slotOpen x)

/-- Whether a cold reset or a thermal trip has stopped the work in flight: no task is taken and no record written (R77, Table
3.10). -/
def workStopped (s : State) : Bool := s.plat.creditsWithheld

/-- One atomic claim of a command with a status and, with it, its single completion record and its signal
(COMMAND_CLAIM, R100). A command that is CLAIMED or DONE is left alone, and so is every command once a cold reset or a trip has
stopped the work in flight (R77). -/
def claim (s : State) (d q no status : Nat) : State :=
  let c := cqOf s d q
  match (if workStopped s then none else c.slots.find? (fun x => x.no == no && slotOpen x)) with
  | none => s
  | some x =>
    let x' := { x with st := .done, status := status, holds := false }
    let s1 := setCq s d q { c with slots := headWaiting (modFirst (fun y => y.no == no) (fun _ => x') c.slots) }
    signalCounter (writeRecord s1 d q x') d x'

/-- Set what a command's record will carry: the result digest and the counts of escalated blocks and saturations. -/
def setResult (s : State) (d q no digest esc sat : Nat) : State :=
  let c := cqOf s d q
  let put := fun (y : Slot) => { y with digest := digest, escalated := esc, saturated := sat }
  setCq s d q { c with slots := modFirst (fun y => y.no == no) put c.slots }

/-- Change one slot of a queue. -/
def modSlot (s : State) (d q no : Nat) (f : Slot → Slot) : State :=
  let c := cqOf s d q
  setCq s d q { c with slots := modFirst (fun y => y.no == no) f c.slots }

/-- The oldest RUNNING command of a queue whose opcode `p` accepts. -/
def runningSlot (s : State) (d q : Nat) (p : Nat → Bool) : Option Slot :=
  (cqOf s d q).slots.find? (fun x => x.st == .running && p (dOpcode x.desc))

/-- The command at the head of a queue: the first not yet dispatched. -/
def headSlot (s : State) (d q : Nat) : Option Slot := (cqOf s d q).slots.find? slotPending

/-- Free a slot once its record has been read; a DRAINING queue without a slot is QUIESCED (R89, Table 4.3). -/
def releaseSlot (s : State) (fq no : Nat) : State :=
  let d := fq / 2048
  let q := fq % 2048
  let c := cqOf s d q
  let s1 := setCq s d q { c with slots := c.slots.filter (fun x => x.no != no) }
  if cqState s1 d q = 3 ∧ (cqOf s1 d q).slots.isEmpty then setCqState s1 d q 4 else s1

/-- Free the slots of the records that have been read, oldest first. -/
def releaseAll : List (Nat × Nat) → State → State
  | [], s => s
  | (fq, no) :: l, s => releaseAll l (releaseSlot s fq no)

/-- Release the `k` oldest records of a completion ring (R89). -/
def releaseRecords (s : State) (d n k : Nat) : State :=
  let q := cnqOf s d n
  releaseAll (q.unread.take k) (setCnq s d n { q with unread := q.unread.drop k })

/-- Put a queue into DRAINING; with nothing in the ring it is QUIESCED (Table 4.3). -/
def drainCq (s : State) (d q : Nat) : State :=
  if cqState s d q = 1 ∨ cqState s d q = 2 then
    let s1 := setCqState s d q 3
    if (cqOf s1 d q).slots.isEmpty then setCqState s1 d q 4 else s1
  else s

/-- Claim every open command of a queue that `p` accepts with a status, in ring order. -/
def claimSlots (d q status : Nat) : List Slot → State → State
  | [], s => s
  | x :: l, s => claimSlots d q status l (claim s d q x.no status)

/-- Claim every open command of a queue, but the collectives, with a status (R384: collectives end as R291 states). -/
def claimQueue (s : State) (d q status : Nat) : State :=
  claimSlots d q status
    ((cqOf s d q).slots.filter (fun x => slotOpen x && !(x.st == .running && decide (0x10 ≤ dOpcode x.desc ∧ dOpcode x.desc < 0x40)))) s

end Sys2Proof.Machine
end

