-- ==== Sys2Proof/Machine/Image.lean ====
section
/-! DEFINITION. The Lebuna image: what its bytes say, the verification order, sealing (spec/02: R41 to R64). -/
namespace Sys2Proof.Machine

/-! ## Header and directory (Tables 2.2 and 2.4) -/

def hMagic (h : Nat) : Nat := fieldBe 256 h 0 4
def hFormatVer (h : Nat) : Nat := fieldBe 256 h 4 2
def hMember (h : Nat) : Nat := fieldBe 256 h 6 2
def hVariantMask (h : Nat) : Nat := fieldBe 256 h 8 1
def hMinStep (h : Nat) : Nat := fieldBe 256 h 9 1
def hPersonality (h : Nat) : Nat := fieldBe 256 h 10 1
def hFlags (h : Nat) : Nat := fieldBe 256 h 11 1
def hAutoSeal (h : Nat) : Bool := bitAt (hFlags h) 0
def hAdvance (h : Nat) : Bool := bitAt (hFlags h) 1
def hImageSeq (h : Nat) : Nat := fieldBe 256 h 12 4
def hContract (h : Nat) : Nat := fieldBe 256 h 16 2
def hSectionCount (h : Nat) : Nat := fieldBe 256 h 18 2
def hImageLen (h : Nat) : Nat := fieldBe 256 h 20 8
def hKeyId (h : Nat) : Nat := fieldBe 256 h 28 4

def eType (e : Nat) : Nat := fieldBe 128 e 0 2
def eScopeKind (e : Nat) : Nat := fieldBe 128 e 2 1
def eScopeNum (e : Nat) : Nat := fieldBe 128 e 3 1
def eRecords (e : Nat) : Nat := fieldBe 128 e 4 4
def eOffset (e : Nat) : Nat := fieldBe 128 e 8 8
def eLength (e : Nat) : Nat := fieldBe 128 e 16 8
def eIv (e : Nat) : Nat := fieldBe 128 e 24 12
def eDigest (e : Nat) : Nat := fieldBe 128 e 52 48

/-- The additional authenticated data of a section: its directory entry with the TAG field 0 (R46). -/
def eAad (e : Nat) : Nat := e - fieldBe 128 e 36 16 * 2 ^ 608

/-- The image hash: SHA-384 of the header and the whole directory, which both signatures sign (R43, R44). -/
def imageHash (img : Image) : Nat := Config.sha384 (natBe 256 img.header ++ (img.dir.map (natBe 128)).flatten)

/-- The highest contract version that stepping B0 implements (IMG_INFO.CONTRACT_MAX). -/
def contractMax : Nat := 1

/-- The stepping B0 as MIN_STEP codes it. -/
def stepB0 : Nat := 0x10

/-- Step 1 of R58: the header rules of Table 2.2; 00h where all hold, else the code of Table 2.12. `limit` is the most
bytes that the source allows. Which code a header that breaks several rules records is not stated (DESIGN CHOICE, log 189). -/
def headerCode (variant limit : Nat) (r : HdrRead) : Nat :=
  let h := r.header
  if !r.readable then 0x01
  else if hMagic h ≠ 0x4C424E41 ∨ hFormatVer h ≠ 1 ∨ hMember h ≠ 0x4A47 then 0x02
  else if !bitAt (hVariantMask h) variant || decide (stepB0 < hMinStep h) then 0x03
  else if 1 < hPersonality h ∨ hFlags h / 4 ≠ 0 ∨ hSectionCount h = 0 ∨ 256 < hSectionCount h ∨ 2 ^ 28 < hImageLen h
      ∨ limit < hImageLen h ∨ fieldBe 256 h 64 192 ≠ 0 then 0x02
  else if hContract h = 0 ∨ contractMax < hContract h then 0x0E
  else if r.bytes < hImageLen h then 0x01
  else 0x00

/-- Whether a section type is in Table 2.5. -/
def knownType (t : Nat) : Bool := [1, 2, 3, 4, 5, 6, 0x10, 0x11, 0x12, 0x20, 0x21, 0x30].contains t

/-- Boot sections are decrypted by the platform die (Table 2.5). -/
def bootType (t : Nat) : Bool := decide (t < 0x10)

/-- Types counted per image take SCOPE_KIND 00h (R47). -/
def perImage (t : Nat) : Bool := [1, 2, 3, 4, 5, 6, 0x12, 0x20].contains t

/-- Types that must be present (Table 2.5). -/
def requiredTypes : List Nat := [1, 2, 3, 4, 5, 0x12, 0x20]

/-- Whether the scope fields of an entry fit its type and the personality (R45, R47). -/
def scopeKindOk (pers e : Nat) : Bool :=
  let k := eScopeKind e
  if perImage (eType e) then k == 0 && eScopeNum e == 0
  else (k == 0 && eScopeNum e == 0) || (k == 1 && pers == 0 && decide (eScopeNum e < 16))
    || (k == 2 && pers == 1 && decide (eScopeNum e < 8))

/-- Whether no two elements of a list are related by `p`. -/
def noPair {α : Type} (p : α → α → Bool) : List α → Bool
  | [] => true
  | x :: l => !(l.any (p x)) && noPair p l

/-- Step 4 of R58: the directory rules of R45, R46 and R47. No step checks how wide the gap between two sections is, nor that the
padding is zero (R41; DESIGN CHOICE, log 190). -/
def directoryOk (h : Nat) (dir : List Nat) : Bool :=
  let dirEnd := 9856 + 128 * dir.length
  dir.length == hSectionCount h
  && dir.all (fun e => knownType (eType e) && scopeKindOk (hPersonality h) e && fieldBe 128 e 100 28 == 0
      && eOffset e % 4096 == 0 && decide (dirEnd ≤ eOffset e) && decide (eOffset e + eLength e ≤ hImageLen h))
  && noPair (fun a b => eIv a == eIv b) dir
  && noPair (fun a b => decide (eOffset a < eOffset b + eLength b ∧ eOffset b < eOffset a + eLength a)) dir
  && noPair (fun a b => eType a == eType b && (perImage (eType a) ||
      (eScopeKind a == eScopeKind b && eScopeNum a == eScopeNum b))) dir
  && requiredTypes.all (fun t => dir.any (fun e => eType e == t))
  && decide (sumNat ((dir.filter (fun e => bootType (eType e))).map eLength) ≤ 8 * 2 ^ 20)

/-! ## Records of the boot sections -/

/-- Cut a byte string into pieces of `n` bytes, at most `fuel` of them. -/
def pieces (n : Nat) : Nat → List Byte → List (List Byte)
  | 0, _ => []
  | fuel + 1, l => if l.isEmpty then [] else l.take n :: pieces n fuel (l.drop n)

/-- One record of the unit tree and the bytes behind it (Table 2.6). -/
structure TreeRec where
  kind : Nat
  level : Nat
  num : Nat
  flags : Nat
  quota : Nat
  reserved : Nat
  members : List Nat
  deriving DecidableEq, Repr

/-- The records of the unit tree; none where they do not fill the section exactly. -/
def treeRecs : Nat → List Byte → Option (List TreeRec)
  | 0, l => if l.isEmpty then some [] else none
  | n + 1, l =>
    let cnt := beAt l 4 2
    if l.length < 16 + 4 * cnt then none
    else
      (treeRecs n (l.drop (16 + 4 * cnt))).map (fun r =>
        { kind := beAt l 0 1, level := beAt l 1 1, num := beAt l 2 2, flags := beAt l 6 1, quota := beAt l 8 4,
          reserved := beAt l 7 1 + beAt l 12 4, members := (List.range cnt).map (fun i => beAt l (16 + 4 * i) 4) } :: r)

/-- How many units a level has (R17). -/
def levelCount (lv : Nat) : Nat := if lv = 0 then 4096 else if lv = 1 then 256 else 8

/-- Whether the numbers of a list are strictly ascending. -/
def ascending : List Nat → Bool
  | a :: b :: l => decide (a < b) && ascending (b :: l)
  | _ => true

/-- The record rules of a group record (R26, R49), given the groups before it. A unit or group is a direct member of at most one
group of the same level, whatever the depth of nesting (DESIGN CHOICE, log 191). -/
def groupRecOk (before : List TreeRec) (r : TreeRec) : Bool :=
  r.flags / 2 == 0 && r.reserved == 0 && r.quota == 0 && decide (r.num < 4096) && decide (r.level ≤ 2)
  && decide (2 ≤ r.members.length) && noPair (· == ·) r.members
  && before.all (fun b => b.num != r.num)
  && (if r.flags % 2 = 1 then r.members.all (fun m => before.any (fun b => b.num == m && b.level == r.level))
      else r.members.all (fun m => decide (m < levelCount r.level)))
  && before.all (fun b => !(b.level == r.level && b.flags % 2 == r.flags % 2 && b.members.any (fun m => r.members.contains m)))

/-- The record rules of all records of the unit tree, in order (R49). -/
def treeOk : List TreeRec → List TreeRec → Bool
  | _, [] => true
  | before, r :: l =>
    if r.kind = 1 then groupRecOk before r && treeOk (before ++ [r]) l
    else r.kind == 2 && r.level == 1 && r.num == 0 && r.flags == 0 && r.reserved == 0 && r.members.length == 1
      && r.members.all (fun m => decide (m < 256)) && treeOk before l

/-- The groups of the unit tree. -/
def treeGroups (l : List TreeRec) : List UnitGroup :=
  (l.filter (fun r => r.kind == 1)).map (fun r => ⟨r.num, r.level, r.flags % 2 == 1, r.members⟩)

/-- The quota records of the unit tree as (flat ripple, cells). -/
def treeQuotas (l : List TreeRec) : List (Nat × Nat) :=
  (l.filter (fun r => r.kind == 2)).map (fun r => (r.members.headD 0, r.quota))

/-- Bits of the ripples of the dunes of a mask. -/
def duneRipples (mask : Nat) : Nat := sumNat ((onesBelow mask 8).map (fun d => (2 ^ 32 - 1) * 2 ^ (32 * d)))

/-- Bits of the dunes that hold a ripple of a mask. -/
def rippleDunes (mask : Nat) : Nat :=
  sumNat ((List.range 8).map (fun d => b2n (bitsAt mask (32 * d) 32 != 0) * 2 ^ d))

/-- A partition record (Table 2.7). -/
def partitionRec (l : List Byte) : Scope :=
  let m := beAt l 16 32
  { num := beAt l 0 1, hallPart := beAt l 2 2, oasisGb := beAt l 4 4, ripples := m, dunes := rippleDunes m, stackMask := 0xFFF }

/-- A system record (Table 2.7); its Oasis is its whole stacks, 64 GB each. -/
def systemRec (l : List Byte) : Scope :=
  let m := beAt l 1 1
  { num := beAt l 0 1, hallPart := beAt l 2 2, oasisGb := 64 * popCount (beAt l 4 2) 12, ripples := duneRipples m, dunes := m,
    stackMask := beAt l 4 2 }

/-- The scopes of section 0002h. -/
def scopesOf (pers : Nat) (t : List Byte) : List Scope :=
  if pers = 0 then (pieces 48 17 t).map partitionRec else (pieces 16 9 t).map systemRec

/-- The record rules of section 0002h (R51, Table 2.7). -/
def scopesOk (pers : Nat) (t : List Byte) : Bool :=
  let l := scopesOf pers t
  let size := if pers = 0 then 48 else 16
  let most := if pers = 0 then 16 else 8
  t.length % size == 0 && decide (1 ≤ l.length) && decide (l.length ≤ most)
  && l.all (fun x => decide (x.num < most) && decide (x.hallPart < 4096) && decide (x.stackMask < 4096))
  && noPair (fun a b => a.num == b.num) l && noPair (fun a b => a.hallPart == b.hallPart) l
  && (pieces size 17 t).all (fun r => if pers = 0 then beAt r 1 1 == 0 && beAt r 8 8 == 0 else beAt r 6 10 == 0)
  && (pers != 0 || decide (sumNat (l.map (·.oasisGb)) ≤ 768))

/-- R30 and R31: every ripple, or every dune, belongs to exactly one scope; a system holds at least one stack, and only
stacks on its own dunes (Table 1.2). A STACK_MASK off the system's dunes breaks R31 and Table 2.7 alike: it is recorded as 0Dh, not
0Bh (DESIGN CHOICE, log 192). -/
def scopeMapOk (pers : Nat) (l : List Scope) : Bool :=
  noPair (fun a b => (List.range 256).any (fun r => bitAt a.ripples r && bitAt b.ripples r)) l
  && (List.range 256).all (fun r => l.any (fun x => bitAt x.ripples r))
  && (pers == 0 || l.all (fun x => x.stackMask != 0 && (onesBelow x.stackMask 12).all (fun k => bitAt x.dunes (stackDune k))))

/-- The torus record (Table 2.8). -/
def torusOf (t : List Byte) : Torus :=
  { dims := beAt t 0 1, axes := (List.range 3).map (fun i => (beAt t (4 + 4 * i) 1, beAt t (5 + 4 * i) 1, beAt t (6 + 4 * i) 1)),
    bypassTiles := beAt t 16 8 }

/-- A port record (Table 2.9). -/
def portOf (l : List Byte) : PortRec :=
  ⟨beAt l 0 2, beAt l 2 2, beAt l 4 1, beAt l 5 1, beAt l 6 1, beAt l 7 1⟩

/-- The port records of section 0003h. -/
def portsOf (t : List Byte) : List PortRec := (pieces 8 2049 (t.drop 32)).map portOf

/-- The record rules of the torus record (R52, Table 2.8). -/
def torusOk (t : List Byte) : Bool :=
  let x := torusOf t
  decide (32 ≤ t.length) && decide (x.dims ≤ 3) && beAt t 1 3 == 0 && beAt t 24 8 == 0
  && (List.range 3).all (fun i =>
      let a := getAt (0, 0, 0) x.axes i
      beAt t (7 + 4 * i) 1 == 0 &&
      (if i < x.dims then decide (2 ≤ a.1 ∧ a.1 ≤ 64 ∧ a.2.1 < a.1 ∧ a.2.2 < a.1) else a == (0, 0, 0)))

/-- The record rules of the port records (Table 2.9). -/
def portRecsOk (t : List Byte) : Bool :=
  let l := portsOf t
  let x := torusOf t
  (t.length - 32) % 8 == 0 && decide (l.length ≤ 2048)
  && l.all (fun p => decide (p.num < 2048) && [1, 2, 4, 8].contains p.width && decide (p.first < 2048) && p.first % p.width == 0
      && decide (p.mode ≤ 1) && decide (p.role ≤ 3) && (if p.role = 1 then decide (p.dir < 2 * x.dims) else p.dir == 0))
  && noPair (fun a b => a.num == b.num) l

/-- Whether a light tile is fitted (R5, R415): on the 1,024-lane part those with t mod 8 from 0 to 3. -/
def tileFitted (variant tile : Nat) : Bool := variant != 1 || decide (tile % 8 < 4)

/-- R5 and R53: which rule of the port map is broken, if any. -/
def portMapOk (variant : Nat) (l : List PortRec) (x : Torus) (sc : List Scope) : Bool :=
  noPair (fun a b => decide (a.first < b.first + b.width ∧ b.first < a.first + a.width)) l
  && l.all (fun p => !bitAt x.bypassTiles (p.first / 32) && tileFitted variant (p.first / 32)
      && sc.any (fun c => bitAt c.ripples (p.first / 8)))
  && (onesBelow x.bypassTiles 64).all (tileFitted variant)

/-- R50: the quotas of the 32 ripples of a dune sum to no more than 393,216 cells; of two records for one ripple the first counts
(DESIGN CHOICE, log 193). -/
def quotasOk (q : List (Nat × Nat)) : Bool :=
  (List.range 8).all (fun d => decide (sumNat ((List.range 32).map (fun r =>
    ((q.find? (fun e => e.1 == d * 32 + r)).map (·.2)).getD 12288)) ≤ 393216))

/-- The record rules of the security policy (R54, Table 2.10). -/
def policyOk (t : List Byte) : Bool :=
  let k := beAt t 0 1
  let n := beAt t 1 1
  decide (8 ≤ t.length) && decide (1 ≤ n ∧ n ≤ 8) && decide (n < 2 * k ∧ k ≤ n) && beAt t 2 1 / 4 == 0 && beAt t 4 4 == 0
  && t.length == 8 + 48 * n + 2 * beAt t 3 1

/-- The record rules of the arithmetic contract (R55). -/
def contractOk (h : Nat) (t : List Byte) : Bool :=
  t.length == 136 && beAt t 0 2 == hContract h && beAt t 2 6 == 0

/-- Whether PARAM is known and INDEX is in its range (Table 3.6, R56). -/
def trimInRange (param idx : Nat) : Bool :=
  match param with
  | 1 => decide (idx < 64 * 36)
  | 2 => decide (idx < 2 ^ 13 ∧ idx % 2 ^ 12 < 2048)
  | 3 => decide (idx < 2048)
  | 4 => decide (idx < 2 ^ 14 ∧ idx % 2 ^ 12 < 2048)
  | 5 => decide (idx < 256 * 64)
  | 6 => decide (idx < 208)
  | 7 => decide (idx < 2 ^ 13 ∧ idx % 2 ^ 12 < 2048)
  | 8 => decide (idx < 12 * 64)
  | _ => false

/-- The light tile that an index of a parameter addresses, if it addresses one (Table 3.6). -/
def trimTile (param idx : Nat) : Option Nat :=
  match param with
  | 1 => some (idx / 36)
  | 2 | 4 | 7 => some (idx % 2 ^ 12 / 32)
  | 3 => some (idx / 32)
  | 6 => if 128 ≤ idx ∧ idx < 192 then some (idx - 128) else none
  | _ => none

/-- Whether PLT_TRIM_SEL selects a trim: PARAM known, INDEX in range, and no absent tile behind it (Table 3.7). -/
def trimIndexOk (variant param idx : Nat) : Bool :=
  trimInRange param idx && ((trimTile param idx).map (tileFitted variant)).getD true

/-- The records of the trim overlay (R56). -/
def trimsOf (t : List Byte) : List (Nat × Nat × Int) :=
  (pieces 8 (t.length / 8 + 1) t).map (fun r => (beAt r 0 2, beAt r 2 3, signedOf 16 (beAt r 6 2)))

/-- The record rules of the trim overlay (R56): PARAM known and INDEX in range, be its tile fitted or not. -/
def trimsOk (t : List Byte) : Bool :=
  t.length % 8 == 0 && (trimsOf t).all (fun e => trimInRange e.1 e.2.1)
  && (pieces 8 (t.length / 8 + 1) t).all (fun r => beAt r 5 1 == 0)

/-- The record rules of a boot section by its type, and that RECORD_COUNT counts its records. -/
def bootRecordsOk (h e : Nat) (t : List Byte) : Bool :=
  match eType e with
  | 1 =>
    match treeRecs (eRecords e) t with
    | none => false
    | some l => treeOk [] l && decide ((l.filter (fun r => r.kind == 1)).length ≤ 4096)
        && decide (sumNat (l.map (fun r => r.members.length)) ≤ 65536)
  | 2 => scopesOk (hPersonality h) t && eRecords e == (scopesOf (hPersonality h) t).length
  | 3 => torusOk t && portRecsOk t && eRecords e == 1 + (portsOf t).length
  | 4 => policyOk t && eRecords e == 1
  | 5 => contractOk h t && eRecords e == 1
  | 6 => trimsOk t && eRecords e == t.length / 8
  | _ => false

/-! ## Verification (R58) -/

/-- The first two checks of a section: its ciphertext's digest against DIGEST, then its tag over the entry with TAG 0 (R46, R58);
00h where both pass. -/
def sealCode (e : Nat) (x : ImgSection) : Nat :=
  if x.digest ≠ eDigest e then 0x09 else if x.tagOver ≠ some (eAad e) then 0x0A else 0x00

/-- A boot section's check: 00h where it passes, else the code of Table 2.12 (step 5 of R58). -/
def bootCode (h e : Nat) (x : ImgSection) : Nat :=
  if sealCode e x ≠ 0 then sealCode e x
  else if x.text.length ≠ eLength e ∨ !bootRecordsOk h e x.text then 0x0B
  else 0x00

/-- The code of the boot section at a directory index; one that the source does not yield has no matching digest. -/
def bootCodeAt (img : Image) (i e : Nat) : Nat :=
  match img.boot.find? (fun b => b.1 == i) with
  | none => 0x09
  | some b => bootCode img.header e b.2

/-- Directory indices and entries of an image's boot sections, in directory order. -/
def bootEntries (img : Image) : List (Nat × Nat) :=
  ((List.range img.dir.length).zip img.dir).filter (fun e => bootType (eType e.2))

/-- The first failing boot section as (code, directory index), in directory order. -/
def bootFailure (img : Image) : List (Nat × Nat) → Option (Nat × Nat)
  | [] => none
  | (i, e) :: l => if bootCodeAt img i e = 0 then bootFailure img l else some (bootCodeAt img i e, i)

/-- How many boot sections pass step 5 before the load stops (R58). -/
def bootsPassed (img : Image) : Nat := ((bootEntries img).takeWhile (fun e => bootCodeAt img e.1 e.2 == 0)).length

/-- The plaintext of the boot section of a type. -/
def bootText (img : Image) (t : Nat) : List Byte :=
  let d := (List.range img.dir.length).zip img.dir
  match d.find? (fun e => eType e.2 == t) with
  | none => []
  | some e => ((img.boot.find? (fun b => b.1 == e.1)).map (fun b => b.2.text)).getD []

/-- Directory index of the section of a type. -/
def sectionIndex (dir : List Nat) (t : Nat) : Nat := dir.findIdx (fun e => eType e == t)

/-- What the boot sections say. -/
def imageCfg (img : Image) : ImgCfg :=
  let tree := (treeRecs (eRecords (getAt 0 img.dir (sectionIndex img.dir 1))) (bootText img 1)).getD []
  let pol := bootText img 4
  let n := beAt pol 1 1
  let con := bootText img 5
  { groups := treeGroups tree, quotas := treeQuotas tree,
    scopes := scopesOf (hPersonality img.header) (bootText img 2),
    torus := torusOf (bootText img 3), ports := portsOf (bootText img 3),
    quorumK := beAt pol 0 1, quorumN := n, policyFlags := beAt pol 2 1,
    partmapDigest := Config.sha384 (bootText img 2 ++ bootText img 3), policyDigest := Config.sha384 pol,
    clearJobs := (List.range (beAt pol 3 1)).map (fun i => beAt pol (8 + 48 * n + 2 * i) 2),
    mgrKeys := (List.range n).map (fun i => beAt pol (8 + 48 * i) 48),
    contract := beAt con 0 2, seeds := (List.range 16).map (fun i => beAt con (8 + 8 * i) 8),
    trims := trimsOf (bootText img 6) }

/-- Step 6 of R58: the cross-section rules; the directory index that IMG_ERR.SECTION names, or none where all hold. -/
def crossFailure (variant : Nat) (img : Image) : Option Nat :=
  let c := imageCfg img
  let dir := img.dir
  if !scopeMapOk (hPersonality img.header) c.scopes then some (sectionIndex dir 2)
  else if !quotasOk c.quotas then some (sectionIndex dir 1)
  else if !portMapOk variant c.ports c.torus c.scopes then some (sectionIndex dir 3)
  else
    let bad := (List.range dir.length).find? (fun i =>
      let e := getAt 0 dir i
      eScopeKind e != 0 && !(c.scopes.any (fun x => x.num == eScopeNum e)))
    bad

/-- Whether a signature record is valid: its signer, its reserved bytes (DESIGN CHOICE, log 197), its key and both signatures
(R43, R44). -/
def sigValid (signer key : Nat) (r : SigRec) : Bool :=
  r.signer == signer && r.reservedZero && r.keyHash == key && r.ecdsaOk && r.mldsaOk

/-- Steps 2 to 6 of R58 on an image: none where it passes, else (code, section) for IMG_ERR. -/
def verifyImage (variant : Nat) (ownerKey : Option Nat) (vendorKey minSeq : Nat) (keyIds : List Nat) (img : Image) :
    Option (Nat × Nat) :=
  let sig := fun (i signer key : Nat) =>
    match img.sigs[i]? with
    | none => false
    | some r => sigValid signer key r
  if !sig 0 1 vendorKey then some (0x04, 0xFFFF)
  else if !(match ownerKey with | none => false | some k => sig 1 2 k) then some (0x05, 0xFFFF)
  else if hImageSeq img.header < minSeq then some (0x06, 0xFFFF)
  else if !keyIds.contains (hKeyId img.header) then some (0x07, 0xFFFF)
  else if !directoryOk img.header img.dir then some (0x08, 0xFFFF)
  else
    match bootFailure img (bootEntries img) with
    | some f => some f
    | none => (crossFailure variant img).map (fun i => (0x0D, i))

/-! ## States of the load (Table 2.11) -/

def imgIdle : Nat := 0
def imgFetch : Nat := 1
def imgSig : Nat := 2
def imgBootSect : Nat := 3
def imgPower : Nat := 4
def imgBulk : Nat := 5
def imgLoaded : Nat := 6
def imgFailed : Nat := 7

/-- The load's state code. -/
def imgSt (s : State) : Nat := rf s Reg.IMG_STATUS F.IMG_STATUS_STATE

/-- Move the load to a state; each change signals vector 1 (R83). -/
def setImgSt (s : State) (n : Nat) : State :=
  if imgSt s = n then s else signal (wf s Reg.IMG_STATUS F.IMG_STATUS_STATE n) 1

/-- Address of the image in host memory (R63). -/
def hostImageAddr (s : State) : Nat := rn s Reg.IMG_HOST_ADDR_HI * 2 ^ 32 + rn s Reg.IMG_HOST_ADDR_LO

/-- `n` bytes at an offset of the image in host memory, as a big-endian number (R57). -/
def hostImage (s : State) (off n : Nat) : Nat := beNat (hostRead s (hostImageAddr s + off) n)

/-- Whether a section read from the load's source can have its digest: in host mode it is the digest of the ciphertext that host
memory holds at the entry's offset; the model does not hold the flash (log 11). -/
def sectionHeld (s : State) (e : Nat) (x : ImgSection) : Bool :=
  s.img.cur != .host || x.digest == Config.sha384 (hostRead s (hostImageAddr s + eOffset e) (eLength e))

/-- Whether an image can have been read from the load's source: in host mode its directory, its signature records' fields and its
boot sections are those of host memory (R57). -/
def sourceHolds (s : State) (img : Image) : Bool :=
  s.img.cur != .host ||
  (img.dir == (List.range (hSectionCount img.header)).map (fun i => hostImage s (9856 + 128 * i) 128)
    && img.sigs.map (fun r => (r.signer, r.reservedZero, r.keyHash)) == (List.range 2).map (fun i =>
      (hostImage s (256 + 4800 * i) 1, hostImage s (257 + 4800 * i) 3 == 0 && hostImage s (5031 + 4800 * i) 25 == 0, hostImage s (260 + 4800 * i) 48))
    && img.boot.all (fun b => sectionHeld s (getAt 0 img.dir b.1) b.2))

/-- IMG_STATUS.SLOT of a source. -/
def slotCode : ImgSlot → Nat
  | .slot0 => 0
  | .slot1 => 1
  | .host => 2

/-- The slots in the order in which a load tries them (R57). A flash slot holds half the flash, which bounds IMAGE_LEN. Where both
headers fail step 1, slot 0 is tried first (DESIGN CHOICE, log 194). -/
def slotOrder (src variant : Nat) (h0 h1 : HdrRead) : List ImgSlot :=
  match src with
  | 0 =>
    let ok0 := headerCode variant h0.bytes h0 = 0
    let ok1 := headerCode variant h1.bytes h1 = 0
    if ok0 ∧ ok1 then (if hImageSeq h0.header < hImageSeq h1.header then [.slot1, .slot0] else [.slot0, .slot1])
    else if ok1 then [.slot1, .slot0] else [.slot0, .slot1]
  | 1 => [.slot0]
  | 2 => [.slot1]
  | _ => [.host]

/-- A source of the load has failed: its code is in IMG_ERR, and the other flash slot is fetched in automatic mode if
it is untried (SLOT_FALLBACK, R57); else the load ends in FAILED, which drops a pending seal (R61). `done` boot sections of the
source had passed step 5. -/
def imageFail (s : State) (slot : ImgSlot) (code sect done : Nat) : State :=
  let s1 := wfs s Reg.IMG_ERR [(F.IMG_ERR_CODE, code), (F.IMG_ERR_SECTION, sect)]
  let s2 := wfs s1 Reg.IMG_STATUS [(F.IMG_STATUS_SLOT, slotCode slot), (F.IMG_STATUS_SECTIONS_DONE, done)]
  let s3 := { s2 with img := { s2.img with tried := s2.img.tried ++ [slot] } }
  if rf s Reg.IMG_SRC F.IMG_SRC_SRC = 0 ∧ s3.img.tried.length < 2 then setImgSt s3 imgFetch
  else setImgSt (wf s3 Reg.IMG_STATUS F.IMG_STATUS_SEAL_PENDING 0) imgFailed

/-- Indices and entries of the bulk sections of the loaded image. -/
def bulkEntries (s : State) : List (Nat × Nat) :=
  ((List.range s.img.dir.length).zip s.img.dir).filter (fun e => !bootType (eType e.2))

/-- The dunes of a directory entry's scope. -/
def entryDunes (s : State) (e : Nat) : List Nat :=
  if eScopeKind e = 0 then List.range 8
  else match scopeOf s (eScopeNum e) with
    | none => []
    | some x => onesBelow x.dunes 8

/-- Whether a directory entry is of a forwarding preload. -/
def isPreload (e : Nat) : Bool := eType e == 0x10 || eType e == 0x11

/-- Whether a section counts as activated in a dune: a preload only once the dune's replica is LIVE (R149). -/
def activeIn (s : State) (i e d : Nat) : Bool :=
  s.img.active.contains (i, d) && (!isPreload e || rf s (Reg.FWD_STATUS d) F.FWD_STATUS_REPLICA == 3)

/-- Whether a bulk section counts as activated: in every dune of its scope, leaving out dunes in FAILED (R58). With every dune of
the scope in FAILED it does not count (DESIGN CHOICE, log 195). -/
def bulkActivated (s : State) (i e : Nat) : Bool :=
  !s.img.discarded.contains i &&
  (entryDunes s e).all (fun d => duneSt s d == 5 || activeIn s i e d)
  && (entryDunes s e).any (activeIn s i e)

/-- Whether the section of a type is active in a dune. -/
def typeActive (s : State) (t d : Nat) : Bool :=
  (bulkEntries s).any (fun e => eType e.2 == t && s.img.active.contains (e.1, d))

/-- Whether a section of a type that covers dune `d` was discarded. -/
def typeDiscarded (s : State) (t d : Nat) : Bool :=
  (bulkEntries s).any (fun e => eType e.2 == t && s.img.discarded.contains e.1 && (entryDunes s e.2).contains d)

/-- Show how many sections of the accepted image are done: its boot sections and the bulk sections activated (R58). -/
def showSections (s : State) : State :=
  let boots := (s.img.dir.filter (fun e => bootType (eType e))).length
  let bulks := ((bulkEntries s).filter (fun e => bulkActivated s e.1 e.2)).length
  if s.img.accepted then wf s Reg.IMG_STATUS F.IMG_STATUS_SECTIONS_DONE (boots + bulks) else s

/-- Seal the image (R61, R62): RWL fields become read-only, and with ADVANCE_ROLLBACK the minimum sequence rises. RB_EXHAUSTED
becomes set at a seal with the flag after the 255th raise, and not before (DESIGN CHOICE, log 196). -/
def sealNow (s : State) : State :=
  let s1 := wfs s Reg.IMG_STATUS [(F.IMG_STATUS_SEALED, 1), (F.IMG_STATUS_SEAL_PENDING, 0)]
  let s2 := wf s1 Reg.SEC_STATUS F.SEC_STATUS_SEALED 1
  let seq := hImageSeq s.img.header
  if hAdvance s.img.header then
    if 255 ≤ s.rot.raises then wf s2 Reg.IMG_STATUS F.IMG_STATUS_RB_EXHAUSTED 1
    else if s.rot.minSeq < seq then
      wn { s2 with rot := { s2.rot with minSeq := seq, raises := s2.rot.raises + 1 } } Reg.IMG_MIN_SEQ seq
    else s2
  else s2

end Sys2Proof.Machine
end

