-- ==== Sys2Proof/Machine/Tables.lean ====
section
/-! DEFINITION. The forwarding tables: hashing, cuckoo insertion, the trie and the update sequencer (spec/06: R133,
R140 to R154). -/
namespace Sys2Proof.Machine

/-! ## CRCs (R140, R163, R181) -/

/-- Shift a reflected CRC register by `n` bits. -/
def crcBits (poly : Nat) : Nat → Nat → Nat
  | 0, c => c
  | n + 1, c => crcBits poly n (if c % 2 = 1 then Nat.xor (c / 2) poly else c / 2)

/-- A reflected CRC over bytes. -/
def crcBytes (poly init : Nat) (l : List Byte) : Nat :=
  l.foldl (fun c b => crcBits poly 8 (Nat.xor c b.toNat)) init

/-- CRC-32C (polynomial 1EDC_6F41h, reflected, initial value and final XOR FFFF_FFFFh). -/
def crc32c (l : List Byte) : Nat := Nat.xor (crcBytes 0x82F63B78 0xFFFFFFFF l) 0xFFFFFFFF

/-- The CRC-32 of IEEE 802.3. -/
def crc32 (l : List Byte) : Nat := Nat.xor (crcBytes 0xEDB88320 0xFFFFFFFF l) 0xFFFFFFFF

/-- Shift an unreflected 64-bit CRC register by `n` bits. -/
def crc64Bits (poly : Nat) : Nat → Nat → Nat
  | 0, c => c
  | n + 1, c => crc64Bits poly n (if c / 2 ^ 63 = 1 then Nat.xor (c * 2 % 2 ^ 64) poly else c * 2 % 2 ^ 64)

/-- The CRC-64 of ECMA-182: polynomial 42F0_E1EB_A9EA_3693h, unreflected, initial value and final XOR 0. -/
def crc64 (init : Nat) (l : List Byte) : Nat :=
  l.foldl (fun c b => crc64Bits 0x42F0E1EBA9EA3693 8 (Nat.xor c (b.toNat * 2 ^ 56))) init

/-! ## Keys (Table 6.1) -/

/-- KTYPE of a key. -/
def keyType (k : Nat) : Nat := k / 2 ^ 76 % 16

/-- PARTITION of a key. -/
def keyPart (k : Nat) : Nat := k / 2 ^ 64 % 4096

/-- Whether a record's key is well-formed: KTYPE 1h to 3h and its zero bits zero. -/
def keyFormOk (k : Nat) : Bool :=
  decide (k < 2 ^ 80) &&
  (match keyType k with
   | 1 => bitsAt k 24 40 == 0
   | 2 => bitsAt k 51 13 == 0
   | 3 => bitsAt k 60 4 == 0
   | _ => false)

def endpointKey (hp dst : Nat) : Nat := 1 * 2 ^ 76 + hp * 2 ^ 64 + dst
def flowKey (hp cls src dst : Nat) : Nat := 2 * 2 ^ 76 + hp * 2 ^ 64 + cls * 2 ^ 48 + src * 2 ^ 24 + dst
def macKey (hp vid mac : Nat) : Nat := 3 * 2 ^ 76 + hp * 2 ^ 64 + vid * 2 ^ 48 + mac

/-- First flat slot of bucket h0(k) of half 0. -/
def bucket0 (k : Nat) : Nat := crc32c (natBe 10 k) % 2 ^ 18 * 4

/-- First flat slot of bucket h1(k) of half 1. -/
def bucket1 (k : Nat) : Nat := 1048576 + crc32 (natBe 10 k) % 2 ^ 18 * 4

/-- Flat index of stash entry 0. -/
def stashBase : Nat := 2097152

/-- Whether the entry at a slot holds the key. -/
def emHolds (em : SMap EmEntry) (k i : Nat) : Bool :=
  match SMap.find em i with
  | none => false
  | some e => e.key == k

/-- The slots where a key may sit: its buckets and the stash entries in use. -/
def emPlaces (em : SMap EmEntry) (k : Nat) : List Nat :=
  (List.range 4).map (bucket0 k + ·) ++ (List.range 4).map (bucket1 k + ·) ++ (em.map (·.1)).filter (fun i => decide (stashBase ≤ i))

/-- The slot that holds a key. -/
def emFind (em : SMap EmEntry) (k : Nat) : Option Nat := (emPlaces em k).find? (emHolds em k)

/-- The entry that holds a key. -/
def emEntry (em : SMap EmEntry) (k : Nat) : Option EmEntry := (emFind em k).bind (SMap.find em)

/-- The first free slot of a bucket. -/
def freeSlot (em : SMap EmEntry) (b : Nat) : Option Nat :=
  ((List.range 4).map (b + ·)).find? (fun i => (SMap.find em i).isNone)

/-- The other bucket of the key that sits at slot `i`. -/
def altBucket (em : SMap EmEntry) (i : Nat) : Nat :=
  match SMap.find em i with
  | none => 0
  | some e => if i < 1048576 then bucket1 e.key else bucket0 e.key

/-- The breadth-first search of `em_insert` (R142): a path of slots and the free slot at its end. -/
def emSearch (em : SMap EmEntry) : Nat → List (List Nat) → Option (List Nat)
  | 0, _ => none
  | _, [] => none
  | fuel + 1, path :: rest =>
    let a := altBucket em (path.getLastD 0)
    match freeSlot em a with
    | some f => some (path ++ [f])
    | none =>
      if path.length < 4 then
        emSearch em fuel (rest ++ (((List.range 4).map (a + ·)).filter (fun i => !path.contains i)).map (fun i => path ++ [i]))
      else emSearch em fuel rest

/-- The moves along a path, from the free end: copy first, then clear (R142). -/
def emMoves (em : SMap EmEntry) : List Nat → List SlotWrite
  | a :: b :: l =>
    emMoves em (b :: l) ++
      (match SMap.find em a with
       | none => []
       | some e => [.em b e, .clear a])
  | _ => []

/-- The outcome of an insertion: the slot writes and a RESULT code of Table 6.10. -/
structure InsertPlan where
  writes : List SlotWrite
  code : Nat
  slot : Nat
  deriving DecidableEq, Repr

/-- A place in the two buckets for a key that is not held: a free slot, or the end of a chain. -/
def emHome (em : SMap EmEntry) (e : EmEntry) : Option (List SlotWrite) :=
  match freeSlot em (bucket0 e.key) with
  | some i => some [.em i e]
  | none =>
    match freeSlot em (bucket1 e.key) with
    | some i => some [.em i e]
    | none =>
      let roots := ((List.range 4).map (bucket0 e.key + ·) ++ (List.range 4).map (bucket1 e.key + ·)).map (fun i => [i])
      (emSearch em 680 roots).map (fun p => emMoves em p ++ [.em (p.headD 0) e])

/-- `em_insert` (R142). -/
def emInsert (em : SMap EmEntry) (e : EmEntry) : InsertPlan :=
  match emFind em e.key with
  | some i => ⟨[.em i e], 0x00, i⟩
  | none =>
    if 2097152 ≤ em.length then ⟨[], 0x04, 0⟩
    else
      match emHome em e with
      | some w => ⟨w, 0x00, 0⟩
      | none =>
        match ((List.range 1024).map (stashBase + ·)).find? (fun i => (SMap.find em i).isNone) with
        | some t => ⟨[.em t e], 0x01, t⟩
        | none => ⟨[], 0x04, 0⟩

/-! ## The trie (R144 to R146) -/

/-- Width of an address family's bits. -/
def afWidth (v6 : Bool) : Nat := if v6 then 128 else 32

/-- The stage at which a prefix length ends (R145). -/
def routeStage (plen : Nat) : Nat := if plen ≤ 16 then 0 else (plen - 16 + 7) / 8

/-- The top `n` bits of an address. -/
def topBits (v6 : Bool) (bits n : Nat) : Nat := bits / 2 ^ (afWidth v6 - n)

/-- An address or prefix as the trie reads it: left-justified in 128 bits. Both families index one root block (R144, Table 6.4). -/
def trieAddr (v6 : Bool) (bits : Nat) : Nat := bits * 2 ^ (128 - afWidth v6)

/-- The index bits of a stage: 16 in stage 0, then 8 in each (Table 6.4). -/
def trieIndex (a st : Nat) : Nat := if st = 0 then a / 2 ^ 112 else a / 2 ^ (112 - 8 * st) % 256

/-- The last stage that a family reaches (R145). -/
def lastStage (v6 : Bool) : Nat := if v6 then 12 else 2

/-- A slot word that holds nothing. -/
def TrieSlot.empty : TrieSlot where
  nh := none
  child := none

/-- The set bits of RUN_MAP[e:0]. -/
def runsUpTo (m : BitVec 256) (e : Nat) : Nat := ((List.range (e + 1)).filter (fun i => m.getLsbD i)).length

/-- A root entry. -/
def rootSlot (t : Tables) (part i : Nat) : TrieSlot := (SMap.find t.root (part * 65536 + i)).getD TrieSlot.empty

/-- The number of the slot word that entry `e` of a node reads: BASE + popcount(RUN_MAP[e:0]) − 1 (R145). -/
def slotNo (n : TrieNode) (e : Nat) : Nat := n.base.toNat + runsUpTo n.runMap e - 1

/-- The slot word of an entry of a node (R145). -/
def nodeSlot (t : Tables) (st child e : Nat) : TrieSlot :=
  match SMap.find t.nodes (st * 65536 + child) with
  | none => TrieSlot.empty
  | some n => (SMap.find t.slots (st * 1048576 + slotNo n e)).getD TrieSlot.empty

/-- The walk of R145 from stage `st` on, at the slot `s` that the stage before has read; the answer is the next hop and the
last stage read. -/
def trieWalk (t : Tables) (v6 : Bool) (a : Nat) : Nat → Nat → TrieSlot → Option Nat → Option Nat × Nat
  | 0, st, _, nh => (nh, st - 1)
  | fuel + 1, st, s, nh =>
    let found := s.nh.orElse (fun _ => nh)
    match s.child with
    | none => (found, st - 1)
    | some c => if lastStage v6 < st then (found, st - 1) else trieWalk t v6 a fuel (st + 1) (nodeSlot t st c (trieIndex a st)) found

/-- A lookup (R145): the next hop of the longest match, else of the scope's /0 route, and the last stage read. -/
def lpmLookup (t : Tables) (part : Nat) (v6 : Bool) (addr : Nat) : Option Nat × Nat :=
  let a := trieAddr v6 addr
  trieWalk t v6 a 13 1 (rootSlot t part (trieIndex a 0)) (SMap.find t.defs part)

/-- The node on an address's path at a stage. -/
def pathNode (t : Tables) (part a : Nat) : Nat → Option Nat
  | 0 => none
  | 1 => (rootSlot t part (trieIndex a 0)).child
  | st + 1 => (pathNode t part a st).bind (fun c => (nodeSlot t st c (trieIndex a st)).child)

/-- Next hop of an entry of a stage: that of the longest prefix placed there that covers it; of two equally long ones, an IPv4
and an IPv6 prefix, the one changed last (DESIGN CHOICE, log 203). `top` is the entry's address bits, 16 + 8 × stage of them. -/
def coverNh (l : List Route) (hp st top : Nat) : Option Nat :=
  ((l.filter (fun r => !r.tomb && r.plen != 0 && r.part == hp && routeStage r.plen == st
    && top / 2 ^ (16 + 8 * st - r.plen) == trieAddr r.v6 r.bits / 2 ^ (128 - r.plen))).foldl
    (fun (b : Option (Nat × Nat)) r => match b with
      | none => some (r.plen, r.nh)
      | some (p, n) => if p < r.plen then some (r.plen, r.nh) else some (p, n)) none).map (·.2)

/-- Whether some route needs a node on an address's path at a stage. -/
def nodeNeeded (l : List Route) (hp a st : Nat) : Bool :=
  l.any (fun r => !r.tomb && r.part == hp && decide (st ≤ routeStage r.plen)
    && trieAddr r.v6 r.bits / 2 ^ (120 - 8 * st) == a / 2 ^ (120 - 8 * st))

/-- RUN_MAP and the slot words of a node's entries: each run of identical entries shares one slot (R145). -/
def trieRuns : Nat → Option TrieSlot → List TrieSlot → Nat × List TrieSlot
  | _, _, [] => (0, [])
  | i, prev, x :: l =>
    let r := trieRuns (i + 1) (some x) l
    if prev = some x then r else (2 ^ i + r.1, x :: r.2)

/-- Node limit of a stage (Table 6.4). -/
def nodeLimit (st : Nat) : Nat := if st ≤ 2 then 65536 else 32768

/-- Slot limit of a stage. -/
def slotLimit (st : Nat) : Nat := if st ≤ 2 then 1048576 else 524288

/-- Units of a set of routes: 1 for an IPv4 prefix, 2 for an IPv6 prefix (R146). -/
def routeUnits (l : List Route) : Nat := sumNat ((l.filter (fun r => !r.tomb && r.plen != 0)).map (fun r => if r.v6 then 2 else 1))

/-- The slot ranges of a stage that are in use or not free yet, as (BASE, slots). -/
def slotBlocks (t : Tables) (pend : List (Nat × Nat × Nat × Nat × Nat)) (st : Nat) : List (Nat × Nat) :=
  (t.nodes.filter (fun e => e.1 / 65536 == st)).map (fun e => (e.2.base.toNat, runsUpTo e.2.runMap 255))
  ++ (pend.filter (fun e => e.1 == st)).map (fun e => (e.2.2.1, e.2.2.2.1))

/-- A free node number and the start of `n` free slots in a stage, the lowest of each (DESIGN CHOICE, log 203); none where the
stage has none (R146). -/
def trieSpace (t : Tables) (pend : List (Nat × Nat × Nat × Nat × Nat)) (st n : Nat) : Option (Nat × Nat) :=
  let used := (t.nodes.filter (fun e => e.1 / 65536 == st)).map (fun e => e.1 % 65536) ++ (pend.filter (fun e => e.1 == st)).map (·.2.1)
  let node := if used.length < nodeLimit st then (List.range (used.length + 1)).find? (fun i => !used.contains i) else none
  let blocks := slotBlocks t pend st
  let starts := sortBy id (0 :: blocks.map (fun b => b.1 + b.2))
  let base := starts.find? (fun x => decide (x + n ≤ slotLimit st) && blocks.all (fun b => decide (x + n ≤ b.1) || decide (b.1 + b.2 ≤ x)))
  match node, base with
  | some i, some x => some (i, x)
  | _, _ => none

/-- The writes of a change of the trie as they are put together from the last stage up: the child that the path's entry of the
next stage up gets, the writes, the space to be freed, and whether every stage had room. -/
structure TrieBuild where
  child : Option Nat
  writes : List SlotWrite
  freed : List (Nat × Nat × Nat × Nat)
  ok : Bool
  deriving DecidableEq, Repr

/-- The writes that give up a node, and its space. -/
def dropNode (t : Tables) (st : Nat) (old : Option Nat) : List SlotWrite × List (Nat × Nat × Nat × Nat) :=
  match old.bind (fun i => (SMap.find t.nodes (st * 65536 + i)).map (fun n => (i, n))) with
  | none => ([], [])
  | some (i, n) =>
    let k := runsUpTo n.runMap 255
    (.nodeClear (st * 65536 + i) :: (List.range k).map (fun j => .slotClear (st * 1048576 + n.base.toNat + j)), [(st, i, n.base.toNat, k)])

/-- One stage of a change on the path of `a` (R146): the node stays as it is, has the one slot of the path's entry rewritten, is
built anew in free space, or is given up. -/
def buildNode (t : Tables) (new : List Route) (pend : List (Nat × Nat × Nat × Nat × Nat)) (hp sc a st : Nat) (b : TrieBuild) : TrieBuild :=
  let old := pathNode t sc a st
  let e0 := trieIndex a st
  let gone := dropNode t st old
  if !nodeNeeded new hp a st then { b with child := none, writes := b.writes ++ gone.1, freed := b.freed ++ gone.2 }
  else
    let was := (List.range 256).map (fun e => match old with
      | none => TrieSlot.empty
      | some c => nodeSlot t st c e)
    let now := (List.range 256).map (fun e =>
      let x : TrieSlot := ⟨coverNh new hp st (a / 2 ^ (120 - 8 * st) * 256 + e), if e = e0 then b.child else (getAt TrieSlot.empty was e).child⟩
      x)
    let oldE := getAt TrieSlot.empty was e0
    let newE := getAt TrieSlot.empty now e0
    match old.bind (fun i => (SMap.find t.nodes (st * 65536 + i)).map (fun n => (i, n))) with
    | some (i, n) =>
      if now = was then { b with child := some i }
      else if oldE.child.isSome && newE.child.isSome && oldE.nh == newE.nh && now.set e0 oldE == was then
        { b with child := some i, writes := b.writes ++ [.slot (st * 1048576 + slotNo n e0) newE] }
      else
        let r := trieRuns 0 none now
        match trieSpace t pend st r.2.length with
        | none => { b with ok := false }
        | some (j, x) =>
          { child := some j, ok := b.ok, freed := b.freed ++ gone.2,
            writes := b.writes ++ r.2.zipIdx.map (fun w => .slot (st * 1048576 + x + w.2) w.1)
              ++ [.node (st * 65536 + j) ⟨BitVec.ofNat 256 r.1, BitVec.ofNat 20 x⟩] ++ gone.1 }
    | none =>
      let r := trieRuns 0 none now
      match trieSpace t pend st r.2.length with
      | none => { b with ok := false }
      | some (j, x) =>
        { b with child := some j, writes := b.writes ++ r.2.zipIdx.map (fun w => .slot (st * 1048576 + x + w.2) w.1)
            ++ [.node (st * 65536 + j) ⟨BitVec.ofNat 256 r.1, BitVec.ofNat 20 x⟩] }

/-- The stages of a change, last one first. -/
def buildStages (t : Tables) (new : List Route) (pend : List (Nat × Nat × Nat × Nat × Nat)) (hp sc a : Nat) : Nat → TrieBuild → TrieBuild
  | 0, b => b
  | st + 1, b => buildStages t new pend hp sc a st (buildNode t new pend hp sc a (st + 1) b)

/-- The change of the trie's words for a route (R146): the new nodes, then the root entries that the prefix covers or whose child
is new. `hp` is the HALL_PART of the routes, `sc` the number of the scope whose root block it is. -/
def buildTrie (t : Tables) (new : List Route) (pend : List (Nat × Nat × Nat × Nat × Nat)) (hp sc : Nat) (r : Route) : TrieBuild :=
  let a := trieAddr r.v6 r.bits
  let st := routeStage r.plen
  let b := buildStages t new pend hp sc a st ⟨none, [], [], true⟩
  let i0 := trieIndex a 0
  let covered := if st = 0 then (List.range (2 ^ (16 - r.plen))).map (i0 / 2 ^ (16 - r.plen) * 2 ^ (16 - r.plen) + ·) else [i0]
  let roots := covered.filterMap (fun i =>
    let old := rootSlot t sc i
    let w : TrieSlot := ⟨coverNh new hp 0 i, if st = 0 then old.child else b.child⟩
    if w = old then none else some (SlotWrite.root (sc * 65536 + i) w))
  { b with writes := b.writes ++ roots }

/-! ## Replicas -/

/-- Apply one slot write to a copy of the tables. -/
def applyWrite (t : Tables) : SlotWrite → Tables
  | .em i e => { t with em := SMap.ins t.em i e }
  | .clear i => { t with em := SMap.del t.em i }
  | .routes r => { t with routes := r }
  | .nh i n => { t with nhs := SMap.ins t.nhs i n }
  | .nhClear i => { t with nhs := SMap.del t.nhs i }
  | .root i w => { t with root := if w = TrieSlot.empty then SMap.del t.root i else SMap.ins t.root i w }
  | .node i w => { t with nodes := SMap.ins t.nodes i w }
  | .nodeClear i => { t with nodes := SMap.del t.nodes i }
  | .slot i w => { t with slots := SMap.ins t.slots i w }
  | .slotClear i => { t with slots := SMap.del t.slots i }
  | .lpmDef p none => { t with defs := SMap.del t.defs p }
  | .lpmDef p (some i) => { t with defs := SMap.ins t.defs p i }
  | .unmark _ _ => t
  | .fill u => u

/-- A dune's replica. -/
def replica (s : State) (d : Nat) : Tables := (SMap.find s.fwd.replicas d).getD Tables.empty

/-- Whether a dune serves a scope. -/
def duneServes (s : State) (d part : Nat) : Bool :=
  match scopeOf s part with
  | none => false
  | some x => if isSystem s then bitAt x.dunes d else true

/-- The scope whose HALL_PART is `hp`. -/
def scopeByHall (s : State) (hp : Nat) : Option Scope := s.img.cfg.scopes.find? (fun x => x.hallPart == hp)

/-! ## Shadow copies (R32, R147) -/

/-- Key of the shadow copy that serves a scope: one for the erg in spine personality, where every dune serves every partition;
one for each system in system personality. -/
def zoneOf (s : State) (part : Nat) : Nat := if isSystem s then part else 0

/-- The keys of the shadow copies. -/
def zones (s : State) : List Nat := if isSystem s then s.img.cfg.scopes.map (·.num) else [0]

/-- Key of the shadow copy of a dune's tables. -/
def duneZone (s : State) (d : Nat) : Nat := ((zones s).find? (fun z => !isSystem s || duneServes s d z)).getD 0

/-- The dunes in UP whose tables a shadow copy is of. -/
def zoneDunes (s : State) (z : Nat) : List Nat := (dunesUp s).filter (fun d => duneZone s d == z)

/-- The ready stacks on which a shadow copy may lie, in ascending order (R147). -/
def zoneStacks (s : State) (z : Nat) : List Nat :=
  (List.range 12).filter (fun k => stackReady s k && s.img.cfg.scopes.any (fun x => (!isSystem s || x.num == z) && bitAt x.stackMask k))

/-- A shadow copy. -/
def shadowOf (s : State) (z : Nat) : Shadow := (SMap.find s.fwd.shadows z).getD Shadow.empty

/-- Replace a shadow copy. -/
def setShadow (s : State) (z : Nat) (x : Shadow) : State := { s with fwd := { s.fwd with shadows := SMap.ins s.fwd.shadows z x } }

/-- The tables of the shadow copy that serves a scope. -/
def shadowTabs (s : State) (part : Nat) : Tables := (shadowOf s (zoneOf s part)).tables

/-- Show a dune's table occupancy (Table 6.8). -/
def showTables (s : State) (d : Nat) : State :=
  let t := replica s d
  let stash := (t.em.filter (fun e => decide (stashBase ≤ e.1))).length
  let s1 := wf s (Reg.FWD_STATUS d) F.FWD_STATUS_STASH_OCC stash
  let s2 := wf s1 (Reg.FWD_OCC_EM d) F.FWD_OCC_EM_ENTRIES t.em.length
  let s3 := wf s2 (Reg.FWD_OCC_LPM d) F.FWD_OCC_LPM_UNITS (routeUnits t.routes)
  let s4 := wf s3 (Reg.FWD_OCC_NH d) F.FWD_OCC_NH_ENTRIES t.nhs.length
  wf s4 (Reg.FWD_STATUS d) F.FWD_STATUS_REBUILD_ACTIVE (b2n (s.fwd.marks.any (fun m => m.dune == d)))

/-- Remove the rebuild mark of a word. -/
def unmark (s : State) (d table word : Nat) : State :=
  { s with fwd := { s.fwd with marks := s.fwd.marks.filter (fun m => !(m.dune == d && m.table == table && m.word == word)) } }

/-- Clear the marks that the rebuild writes of a change name. -/
def unmarkAll (d : Nat) : List SlotWrite → State → State
  | [], s => s
  | .unmark t w :: l, s => unmarkAll d l (unmark s d t w)
  | _ :: l, s => unmarkAll d l s

/-- Whether a change is a replay of the shadow copy. -/
def isFill : SlotWrite → Bool
  | .fill _ => true
  | _ => false

/-- Apply a sequenced change in a dune (R148); with the replay of the shadow copy its replica is LIVE (R149). -/
def applyChange (s : State) (d : Nat) (c : SeqChange) : State :=
  let t := c.writes.foldl applyWrite (replica s d)
  let s1 := { s with fwd := { s.fwd with replicas := SMap.ins s.fwd.replicas d t } }
  let s2 := if c.writes.any isFill then wf s1 (Reg.FWD_STATUS d) F.FWD_STATUS_REPLICA 3 else s1
  showTables (wn (unmarkAll d c.writes s2) (Reg.FWD_UPD_SEQ d) c.seq) d

/-- The changes a dune has still to apply. -/
def changeQueue (s : State) (d : Nat) : List SeqChange := (SMap.find s.fwd.queues d).getD []

/-- The stash entries of a copy in order of age after some writes: those that are gone leave, new ones join at the end (R143). -/
def nextStash (t : Tables) (order : List Nat) (writes : List SlotWrite) : List Nat :=
  let kept := order.filter (fun i => (SMap.find t.em i).isSome && !(writes.any (fun w => w == .clear i)))
  kept ++ (writes.filterMap (fun w => match w with
    | .em i _ => if stashBase ≤ i && !kept.contains i then some i else none
    | _ => none))

/-- Sequence a change: the shadow copy takes it first, then the dunes named are sent it in order (R147). -/
def sequence (s : State) (z : Nat) (dunes : List Nat) (writes : List SlotWrite) (touchShadow : Bool) : State :=
  let seq := (s.fwd.seq + 1) % 2 ^ 32
  let c : SeqChange := ⟨seq, writes⟩
  let q := dunes.foldl (fun m d => SMap.upd [] m d (· ++ [c])) s.fwd.queues
  let x := shadowOf s z
  let t := writes.foldl applyWrite x.tables
  let sh := if touchShadow then SMap.ins s.fwd.shadows z { x with tables := t, stashOrder := nextStash t x.stashOrder writes } else s.fwd.shadows
  { s with fwd := { s.fwd with seq := seq, queues := q, shadows := sh } }

/-- Sequence a change of the tables that serve a scope: it goes to every dune in UP that holds them (R147). -/
def change (s : State) (part : Nat) (writes : List SlotWrite) : State :=
  sequence s (zoneOf s part) (zoneDunes s (zoneOf s part)) writes true

/-- The stack that holds a shadow copy is gone: until a rebuild there is no shadow (R157). -/
def shadowLose (s : State) (z : Nat) : State :=
  let s1 := setShadow s z { shadowOf s z with lost := true, stack := none }
  (zoneDunes s1 z).foldl (fun t d => fwdEvent t d F.FWD_EVT_SHADOW_LOST 0 0) s1

/-- The shadow copies that lay on some stacks are lost (R157). -/
def shadowsLose (s : State) (gone : Nat → Bool) : State :=
  ((zones s).filter (fun z => (shadowOf s z).stack.any gone)).foldl shadowLose s

/-- A shadow copy lies on the lowest-numbered ready stack of its scope (R147). -/
def placeShadow (s : State) (z : Nat) : State :=
  let x := shadowOf s z
  if x.lost then s else setShadow s z { x with stack := (zoneStacks s z).head? }

/-- Place every shadow copy. -/
def placeShadows (s : State) : State := (zones s).foldl placeShadow s

/-- The lowest dune in UP whose tables a shadow copy is of. -/
def zoneDune (s : State) (z : Nat) : Option Nat := (zoneDunes s z).head?

/-- A dune's replica with the changes that it has still to apply. -/
def replicaAhead (s : State) (d : Nat) : Tables := ((changeQueue s d).map (·.writes)).flatten.foldl applyWrite (replica s d)

/-- The copy that changes start from: the shadow, or without one the replica of the lowest dune in UP. -/
def baseTables (s : State) (z : Nat) : Tables :=
  if (shadowOf s z).lost then ((zoneDune s z).map (replicaAhead s)).getD Tables.empty else (shadowOf s z).tables

/-- The dunes in UP that serve a scope. -/
def servingDunes (s : State) (part : Nat) : List Nat := (dunesUp s).filter (fun d => duneServes s d part)

/-! ## Records (Table 6.6) -/

/-- A record of 48 bytes. -/
def recOf (l : List Byte) : TblRec :=
  let em := beAt l 1 1 = 0
  { op := beAt l 0 1, table := beAt l 1 1, plen := beAt l 2 1, isStatic := bitAt (beAt l 3 1) 0, relay := bitAt (beAt l 3 1) 1,
    flagsRest := beAt l 3 1 / 4, owner := beAt l 4 2, version := beAt l 6 2,
    key := if em then beAt l 8 10 else beAt l 8 16, keyTail := if em then beAt l 18 6 else 0,
    result := beAt l 24 8, nhMac := beAt l 32 6, nhVid := beAt l 38 2 % 4096, vidRest := beAt l 38 2 / 4096, rest := beAt l 40 8 }

/-- The bytes of a record. -/
def recBytes (r : TblRec) : List Byte :=
  natBe 1 r.op ++ natBe 1 r.table ++ natBe 1 r.plen ++ natBe 1 (b2n r.isStatic + 2 * b2n r.relay + 4 * r.flagsRest)
    ++ natBe 2 r.owner ++ natBe 2 r.version
    ++ (if r.table = 0 then natBe 10 r.key ++ natBe 6 r.keyTail else natBe 16 r.key)
    ++ natBe 8 r.result ++ natBe 6 r.nhMac ++ natBe 2 (r.vidRest * 4096 + r.nhVid) ++ natBe 8 r.rest

/-- The key field of a trie record: AF, reserved bits, PARTITION, and address bits 127 to 16. -/
def keyFieldV6 (k : Nat) : Bool := bitAt k 127
def keyFieldPart (k : Nat) : Nat := k / 2 ^ 112 % 4096
/-- The address bits of a key field in its family's width. -/
def keyFieldAddr (k : Nat) : Nat := if keyFieldV6 k then k % 2 ^ 112 * 2 ^ 16 else k / 2 ^ 80 % 2 ^ 32
/-- The key field of a route. -/
def routeKeyField (part : Nat) (v6 : Bool) (bits : Nat) : Nat :=
  b2n v6 * 2 ^ 127 + part * 2 ^ 112 + (if v6 then bits / 2 ^ 16 else bits * 2 ^ 80)

def recV6 (r : TblRec) : Bool := keyFieldV6 r.key
def recTriePart (r : TblRec) : Nat := keyFieldPart r.key
def recAddr (r : TblRec) : Nat := keyFieldAddr r.key

/-- The HALL_PART a record names. -/
def recPart (r : TblRec) : Nat := if r.table = 0 then keyPart r.key else recTriePart r

/-- Whether a record is well-formed (Table 6.6, R133, R145). -/
def recOk (r : TblRec) : Bool :=
  (r.op == 1 || r.op == 2 || r.op == 3) && r.flagsRest == 0 && r.rest == 0 &&
  (if r.table = 0 then r.plen == 0 && r.keyTail == 0 && keyFormOk r.key && r.nhMac == 0 && r.nhVid == 0 && r.vidRest == 0
   else r.table == 1 && r.vidRest == 0 && r.key / 2 ^ 124 % 8 == 0
     && (if recV6 r then decide (r.plen ≤ 112) else decide (r.plen ≤ 32) && r.key % 2 ^ 80 == 0))

/-- Where a record comes from (R147, R154). -/
inductive RecSource where
  | window
  | preload
  | learn
  | local
  deriving DecidableEq, Repr

/-- The order of R153 on (version, owner, tombstone, result): whether A beats B, and whether it was a tie. -/
def beats (av ao : Nat) (at_ : Bool) (ar : Nat) (bv bo : Nat) (bt : Bool) (br : Nat) : Bool × Bool :=
  let diff := (av + 65536 - bv) % 65536
  if 1 ≤ diff ∧ diff ≤ 32767 then (true, false)
  else if 32769 ≤ diff then (false, false)
  else if ao ≠ bo then (decide (bo < ao), true)
  else if at_ ≠ bt then (at_, true)
  else (decide (br < ar), true)

/-- OWNER_ID of a scope (FWD_OWNER). -/
def ownerId (s : State) (part : Nat) : Nat := rf s (Reg.FWD_OWNER part) F.FWD_OWNER_OWNER_ID

/-- The order and protection rules for a record against what is held: 00h to go on, else 02h or 03h, and whether a tie
was decided (R153, R154). `held` is (version, owner, static, tombstone, result). -/
def recDecision (s : State) (src : RecSource) (part : Nat) (r : TblRec) (held : Option (Nat × Nat × Bool × Bool × Nat)) :
    Nat × Bool :=
  match src with
  | .window | .preload => (0x00, false)
  | .learn | .local =>
    if src == .learn && r.owner == ownerId s part then (0x03, false)
    else
      match held with
      | none => (0x00, false)
      | some (v, o, st, tb, res) =>
        if st then (0x03, false)
        else if src == .learn && o == ownerId s part && r.owner != o then (0x03, false)
        else
          let b := beats r.version r.owner (r.op == 2) r.result v o tb res
          (if b.1 then 0x00 else 0x02, b.2)

/-- Find or place a next hop: its index, or none when the table is full (R145). -/
def nhPlace (nhs : SMap NextHop) (n : NextHop) : Option Nat :=
  match nhs.find? (fun e => e.2 == n) with
  | some e => some e.1
  | none => if nhs.length < 65536 then (List.range (nhs.length + 1)).find? (fun i => (SMap.find nhs i).isNone) else none

/-- The exact-match part of a change: slot writes and RESULT. A tombstone keeps its record's RESULT, by which R153 compares. -/
def emChange (t : Tables) (r : TblRec) : InsertPlan :=
  emInsert t.em { owner := r.owner, version := r.version, isStatic := r.isStatic, tomb := r.op == 2, age := 0, key := r.key, result := r.result }

/-- Re-home the oldest stash entry, if a place is found for it (R143). -/
def rehome (t : Tables) (order : List Nat) : List SlotWrite :=
  match order with
  | [] => []
  | i :: _ =>
    match SMap.find t.em i with
    | none => []
    | some e =>
      match emHome t.em e with
      | none => []
      | some w => w ++ [.clear i]

/-- Sequence an update of a scope's tables, after which the sequencer tries to re-home the oldest stash entry (R143, R147). -/
def update (s : State) (part : Nat) (writes : List SlotWrite) : State :=
  let s1 := change s part writes
  let x := shadowOf s1 (zoneOf s part)
  let w := rehome x.tables x.stashOrder
  if w.isEmpty then s1 else change s1 part w

/-- The trie part of a change: its writes, its RESULT, and the space it leaves. -/
structure TriePlan where
  writes : List SlotWrite
  code : Nat
  freed : List (Nat × Nat × Nat × Nat)
  deriving DecidableEq, Repr

/-- Whether a route is the one that a record names. A scope has one /0 route, whatever its family (R145). -/
def sameRoute (r : TblRec) (x : Route) : Bool :=
  x.part == recTriePart r && x.plen == r.plen && (r.plen == 0 || (x.v6 == recV6 r && topBits x.v6 x.bits x.plen == topBits x.v6 (recAddr r) x.plen))

/-- A route change (R145, R146). A next hop that no route names any more is cleared with the change (log 46). -/
def trieChange (s : State) (sc : Scope) (r : TblRec) : TriePlan :=
  let t := shadowTabs s sc.num
  let pend := (shadowOf s (zoneOf s sc.num)).pendingFree
  let others := t.routes.filter (fun x => !sameRoute r x)
  let hop : NextHop := ⟨r.result, r.nhMac, r.nhVid⟩
  let base : Route := { part := recTriePart r, v6 := recV6 r, plen := r.plen, bits := recAddr r, owner := r.owner,
                        version := r.version, isStatic := r.isStatic, tomb := r.op == 2, nh := 0, result := r.result }
  match (if r.op = 2 then some 0 else nhPlace t.nhs hop) with
  | none => ⟨[], 0x06, []⟩
  | some i =>
    let new := (if r.op = 2 then base else { base with nh := i }) :: others
    let old := ((t.routes.filter (fun x => sameRoute r x && !x.tomb)).map (·.nh)).filter (fun j => !new.any (fun x => !x.tomb && x.nh == j))
    let hops := if r.op = 2 then [] else [SlotWrite.nh i hop]
    let b := if r.plen = 0 then ⟨none, [.lpmDef sc.num (if r.op = 2 then none else some i)], [], true⟩
      else buildTrie t new pend (recTriePart r) sc.num base
    if 1048576 < routeUnits new ∨ !b.ok then ⟨[], 0x05, []⟩
    else ⟨hops ++ b.writes ++ [.routes new] ++ old.map .nhClear, 0x00, b.freed⟩

/-- Raise INSERT_FAIL in every dune that would have received the change (Table 6.8). -/
def insertFail (s : State) (part table : Nat) : State :=
  (servingDunes s part).foldl (fun t d => fwdEvent t d F.FWD_EVT_INSERT_FAIL table 0) s

/-- Count a tie decided by R153 in every dune in UP that serves the scope. -/
def countTie (s : State) (part : Nat) : State :=
  (servingDunes s part).foldl (fun t d => bump64 t (Reg.FWD_VER_TIE d) 1) s

/-- FWD_LPM_DEF shows the scope's /0 route as the sequencer has it. -/
def showDef (s : State) (part : Nat) : State :=
  match SMap.find (shadowTabs s part).defs part with
  | none => wf s (Reg.FWD_LPM_DEF part) F.FWD_LPM_DEF_VALID 0
  | some i => wfs s (Reg.FWD_LPM_DEF part) [(F.FWD_LPM_DEF_VALID, 1), (F.FWD_LPM_DEF_NH, i)]

/-- What a key or a route holds, as R153 compares it: version, owner, static, tombstone, RESULT. -/
def heldAs (t : Tables) (r : TblRec) : Option (Nat × Nat × Bool × Bool × Nat) :=
  if r.table = 0 then (emEntry t.em r.key).map (fun e => (e.version, e.owner, e.isStatic, e.tomb, e.result))
  else (t.routes.find? (sameRoute r)).map (fun x => (x.version, x.owner, x.isStatic, x.tomb, x.result))

/-- Sequence a change of routes, whose old space is free 1 µs later (R146). -/
def storeTrie (s : State) (part : Nat) (writes : List SlotWrite) (freed : List (Nat × Nat × Nat × Nat)) : State :=
  let s1 := update s part writes
  let x := shadowOf s1 (zoneOf s part)
  let due := s.clock + 1000 * nsUnit
  showDef (setShadow s1 (zoneOf s part)
    { x with pendingFree := x.pendingFree ++ freed.map (fun f => (f.1, f.2.1, f.2.2.1, f.2.2.2, due)) }) part

/-- Take a route out of a scope's tables as if it had never been there. -/
def dropRoute (s : State) (sc : Scope) (x : Route) : State :=
  let t := shadowTabs s sc.num
  let left := t.routes.filter (· != x)
  let b := if x.plen = 0 then ⟨none, [.lpmDef sc.num none], [], true⟩
    else buildTrie t left (shadowOf s (zoneOf s sc.num)).pendingFree x.part sc.num x
  let hop := if x.tomb || left.any (fun y => !y.tomb && y.nh == x.nh) then [] else [SlotWrite.nhClear x.nh]
  if b.ok then storeTrie s sc.num (b.writes ++ [.routes left] ++ hop) b.freed else s

/-- Take a record that the order lets in into the tables of its scope: the new state and a RESULT code (R142, R146). -/
def storeRecord (s : State) (sc : Scope) (r : TblRec) : State × Nat :=
  if r.table = 0 then
    let p := emChange (shadowTabs s sc.num) r
    if p.code = 0x04 then (insertFail s sc.num 0, 0x04) else (update s sc.num p.writes, p.code)
  else
    let p := trieChange s sc r
    if p.code ≠ 0 then (insertFail s sc.num (if p.code = 0x06 then 0x20 else 0x10 + routeStage r.plen), p.code)
    else (storeTrie s sc.num p.writes p.freed, 0x00)

/-- Apply a record through the sequencer (R147, R153, R154): the new state and a RESULT code. -/
def applyRecord (s : State) (src : RecSource) (r : TblRec) : State × Nat :=
  if !recOk r || r.op == 3 then (s, 0x07)
  else
    match scopeByHall s (recPart r) with
    | none => (s, 0x07)
    | some sc =>
      if src == .learn && r.isStatic then (s, 0x07)
      else
        let d := recDecision s src sc.num r (heldAs (shadowTabs s sc.num) r)
        let s1 := if d.2 then countTie s sc.num else s
        if d.1 ≠ 0 then (s1, d.1) else storeRecord s1 sc r

/-! ## Results (Table 6.2) -/

def resAction (r : Nat) : Nat := bitsAt r 60 4
def resEthClass (r : Nat) : Nat := bitsAt r 57 3
def resPolEn (r : Nat) : Bool := bitAt r 56
def resPolicer (r : Nat) : Nat := bitsAt r 43 13
def resMirEn (r : Nat) : Bool := bitAt r 42
def resMirror (r : Nat) : Nat := bitsAt r 36 6
def resTarget (r : Nat) : Nat := bitsAt r 0 36
/-- The port of ACTION 0h and 4h. -/
def resPort (r : Nat) : Nat := bitsAt r 0 11
/-- The staging index of ACTION 4h. -/
def resStaging (r : Nat) : Nat := bitsAt r 16 13

/-- A result with an ACTION and a TARGET and nothing else. -/
def resOf (action target : Nat) : Nat := action * 2 ^ 60 + target

/-- TARGET of a coordinate (Table 6.2): X [17:12], Y [11:6], Z [5:0]. -/
def targetOf (c : Nat) : Nat := c / 2 ^ 6 % 2 ^ 18

end Sys2Proof.Machine
end

