-- ==== Sys2Proof/Machine/Ready.lean ====
section
/-! DEFINITION. Ready bits, the configured set and PLT_READY_EVT (spec/03: R68, R70, R73, R74; spec/01: R25), and the
dune states behind them. -/
namespace Sys2Proof.Machine

/-! ## What makes a port or group ready -/

/-- State code of a lane's direction (Table 13.5). -/
def laneDir (s : State) (l : Nat) (rx : Bool) : Nat :=
  rf s (Reg.OPT_LANE_STATUS (l / 32) (l % 32)) (if rx then F.OPT_LANE_STATUS_RX_STATE else F.OPT_LANE_STATUS_TX_STATE)

/-- The lanes of a port record. -/
def portLanes (r : PortRec) : List Nat := (List.range r.width).map (r.first + ·)

/-- Whether a tile is in BYPASS_TILES (Table 2.8). -/
def bypassTile (s : State) (t : Nat) : Bool := bitAt s.img.cfg.torus.bypassTiles t

/-- A port's function state: 0 DISABLED, 1 ENABLED, 2 DRAINING, 3 QUIESCED (R384). -/
def portFn (s : State) (p : Nat) : Nat := SMap.get (fun _ => 1) s.mgt.ports p

/-- Whether a port stays shut because the spine shadows a twin and the port is not the twin port (R396). -/
def mirageShut (s : State) (p : Nat) : Bool :=
  rf s Reg.MGT_TWIN_CFG F.MGT_TWIN_CFG_ROLE == 2 && p != rf s Reg.MGT_TWIN_CFG F.MGT_TWIN_CFG_PORT

/-- Whether every forwarding preload (0010h, 0011h) that covers a port's scope is activated or discarded (Table 3.4). -/
def preloadsDone (s : State) (part : Nat) : Bool :=
  (bulkEntries s).all (fun e =>
    if (eType e.2 == 0x10 || eType e.2 == 0x11) && (eScopeKind e.2 == 0 || eScopeNum e.2 == part) then
      bulkActivated s e.1 e.2 || s.img.discarded.contains e.1
    else true)

/-- Whether section 0012h or 0020h, which every dune needs, was discarded: its ports, ripples and engines are not ready
(Table 2.17). -/
def duneBulkBad (s : State) (d : Nat) : Bool := typeDiscarded s 0x12 d || typeDiscarded s 0x20 d

/-- Whether a port meets the ready conditions of Table 3.4, and is neither disabled (R386) nor shut by the role of a Mirage spine (R396). -/
def portMeets (s : State) (r : PortRec) : Bool :=
  (portLanes r).all (laneReady s) && duneUp s (r.first / 256) && !duneBulkBad s (r.first / 256) && preloadsDone s (partOfRipple s (r.first / 8))
    && portFn s r.num == 1 && !mirageShut s r.num

/-- Whether a unit of a level is ready (Table 1.4): grain, ripple or dune. -/
def unitReady (s : State) (level n : Nat) : Bool :=
  if level = 0 then engineReady s n else if level = 1 then rippleReady s n else duneUp s n

/-- Show the ready bits of the groups, in their order in the unit tree, so that members come first (R25, R26). -/
def showGroups : List UnitGroup → State → State
  | [], s => s
  | g :: l, s =>
    showGroups l (setMapBit s (Reg.PLT_UR_GROUP 0) g.num
      (g.members.all (fun m => if g.ofGroups then mapBit s (Reg.PLT_UR_GROUP 0) m else unitReady s g.level m)))

/-- Show the ready bits of the ports. -/
def showPorts : List PortRec → State → State
  | [], s => s
  | r :: l, s => showPorts l (setMapBit s (Reg.PLT_UR_PORT 0) r.num (portMeets s r))

/-! ## The configured set (R74) -/

/-- Whether a lane is left out of the configured set. -/
def laneLeftOut (s : State) (l : Nat) : Bool :=
  !tileFitted s.otp.variant (l / 32) || bypassTile s (l / 32) || s.otp.retiredLanes.contains l
    || laneDir s l true == 5 || laneDir s l false == 5 || duneSt s (l / 256) == 5

/-- State code of an engine (Table 10.9). -/
def engSt (s : State) (g : Nat) : Nat := rf s (Reg.BRC_ENG_STATE (g / 512) (g % 512)) F.BRC_ENG_STATE_STATE

/-- Whether an engine is left out of the configured set. -/
def engLeftOut (s : State) (g : Nat) : Bool :=
  s.plat.selfTestFailed.contains g || engSt s g == 5 || engSt s g == 6 || duneSt s (g / 512) == 5

/-- Whether a group contains an item that is left out. -/
def groupLeftOut (s : State) : List UnitGroup → List Nat → List Nat
  | [], out => out
  | g :: l, out =>
    let bad := g.members.any (fun m =>
      if g.ofGroups then out.contains m
      else if g.level = 0 then engLeftOut s m
      else if g.level = 1 then duneSt s (m / 32) == 5 || (List.range 16).any (fun k => engLeftOut s (m * 16 + k))
      else duneSt s m == 5 || (List.range 512).any (fun k => engLeftOut s (m * 512 + k)))
    groupLeftOut s l (if bad then g.num :: out else out)

/-- Whether every bit of the configured set is set (R74). -/
def configuredReady (s : State) : Bool :=
  let c := s.img.cfg
  let noGroups := groupLeftOut s c.groups []
  c.ports.all (fun r =>
    (portLanes r).all (fun l => laneLeftOut s l || laneReady s l)
      && ((portLanes r).any (laneLeftOut s) || portReady s r.num))
  && (List.range 256).all (fun r => duneSt s (r / 32) == 5 || rippleReady s r)
  && (List.range 4096).all (fun g => engLeftOut s g || engineReady s g)
  && c.groups.all (fun g => noGroups.contains g.num || mapBit s (Reg.PLT_UR_GROUP 0) g.num)

/-! ## Recomputing (READINESS_UPDATE) -/

/-- Bits d of the dunes whose state `p` accepts. -/
def duneMask (s : State) (p : Nat → Bool) : Nat := sumNat ((List.range 8).map (fun d => b2n (p (duneSt s d)) * 2 ^ d))

/-- The words of the unit-level maps that are not zero. -/
def unitMaps (s : State) : SMap (BitVec 32) := s.regs.filter (fun e => decide (0x300 ≤ e.1 ∧ e.1 < 0xA00))

/-- Recompute the ready bits that follow from others. -/
def recomputeReady (s : State) : State :=
  let s1 := wfs s Reg.PLT_READY_SUM [(F.PLT_READY_SUM_DUNE_PWR, duneMask s (fun c => c == 2 || c == 3 || c == 4)),
    (F.PLT_READY_SUM_SWC_READY, duneMask s (fun c => c == 4))]
  let s2 := (List.range 8).foldl (fun t d => wn t (Reg.PLT_UR_RIPPLE d) (if duneUp s d && !duneBulkBad s d then 2 ^ 32 - 1 else 0)) s1
  let s3 := showGroups s2.img.cfg.groups (showPorts s2.img.cfg.ports s2)
  wf s3 Reg.PLT_READY_SUM F.PLT_READY_SUM_ALL_READY
    (b2n (rb s3 Reg.PLT_READY_SUM F.PLT_READY_SUM_TIM_FINE && s3.img.accepted && configuredReady s3))

/-- Report changes against an earlier state: each changed bit of PLT_READY_SUM sets its bit of PLT_READY_EVT, and a
change in a unit-level map sets UNIT; vector 0 is signalled (R73, Table 4.2). -/
def announceReady (old s : State) : State :=
  let sum := ((rd old Reg.PLT_READY_SUM ^^^ rd s Reg.PLT_READY_SUM) &&& ~~~(BitVec.ofNat 32 (2 ^ 28)))
    ||| (if unitMaps old = unitMaps s then 0 else BitVec.ofNat 32 (2 ^ 28))
  if sum = 0 then s else signal (wr s Reg.PLT_READY_EVT (rd s Reg.PLT_READY_EVT ||| sum)) 0

/-- The state after a change, with the ready bits that depend on it and the events of those that moved; `old` is the
state before. -/
def refreshReady (old s : State) : State := announceReady old (recomputeReady s)

/-! ## Setting ready bits -/

/-- Set or clear a lane's ready bit. -/
def setLaneReady (s : State) (l : Nat) (b : Bool) : State := setMapBit s (Reg.PLT_UR_LANE 0) l b

/-- Set or clear an engine's ready bit. -/
def setEngReady (s : State) (g : Nat) (b : Bool) : State := setMapBit s (Reg.PLT_UR_ENG 0) g b

/-- Set or clear a stack's ready bit. -/
def setStackReady (s : State) (k : Nat) (b : Bool) : State :=
  let w := rf s Reg.PLT_READY_SUM F.PLT_READY_SUM_OASIS
  wf s Reg.PLT_READY_SUM F.PLT_READY_SUM_OASIS (w - b2n (bitAt w k) * 2 ^ k + b2n b * 2 ^ k)

/-- Move a dune to a state of Table 3.3. -/
def setDuneSt (s : State) (d c : Nat) : State :=
  let w := rn s Reg.PLT_DUNE_STATE
  wn s Reg.PLT_DUNE_STATE (w - bitsAt w (4 * d) 4 * 2 ^ (4 * d) + c * 2 ^ (4 * d))

/-- Move an engine to a state of Table 10.9. -/
def setEngSt (s : State) (g c : Nat) : State := wf s (Reg.BRC_ENG_STATE (g / 512) (g % 512)) F.BRC_ENG_STATE_STATE c

/-- Move a lane's direction to a state of Table 13.5. -/
def setLaneDir (s : State) (l : Nat) (rx : Bool) (c : Nat) : State :=
  wf s (Reg.OPT_LANE_STATUS (l / 32) (l % 32)) (if rx then F.OPT_LANE_STATUS_RX_STATE else F.OPT_LANE_STATUS_TX_STATE) c

/-- PLT_PG_MAIN: high while some dune domain is in CAL, TEST or UP (R66); a change raises an I3C in-band interrupt (R85). -/
def showPgMain (s : State) : State :=
  let on := (List.range 8).any (fun d => duneSt s d == 2 || duneSt s d == 3 || duneSt s d == 4)
  if on == s.pins.pgMain then s
  else emit { s with pins := { s.pins with pgMain := on } } .i3cIbi

end Sys2Proof.Machine
end

