-- ==== Sys2Proof/Machine/Switch.lean ====
section
/-! DEFINITION. The switch core's shared operations: quotas, pools, hardware queues, WRED, policers, push-out, spilling,
mirror copies, credits, and what a unit or group of the image has of it (spec/05: R108 to R131; spec/07: R164, R168, R169;
spec/01: R25). -/
namespace Sys2Proof.Machine

/-! ## Quotas and pools (R50, R114, R115) -/

/-- Buffer quota of a flat ripple in cells (R50). The first record that names the ripple counts (DESIGN CHOICE, log 193). -/
def rippleQuota (s : State) (r : Nat) : Nat := ((s.img.cfg.quotas.find? (fun e => e.1 == r)).map (·.2)).getD 12288

/-- Q of a scope in a dune: the quotas of its ripples there. -/
def scopeQuota (s : State) (d part : Nat) : Nat :=
  match scopeOf s part with
  | none => 0
  | some x => sumNat (((List.range 32).filter (fun r => bitAt x.ripples (d * 32 + r))).map (fun r => rippleQuota s (d * 32 + r)))

/-- The dunes that hold ripples of a scope. -/
def scopeDunes (s : State) (part : Nat) : List Nat :=
  match scopeOf s part with
  | none => []
  | some x => onesBelow x.dunes 8

/-! ## What a unit or group presents (R25, Tables 1.3 and 1.4) -/

/-- The units of each group in ascending flat index, groups in their order in the unit tree, so that members come first. -/
def groupUnits : List UnitGroup → SMap (List Nat) → SMap (List Nat)
  | [], m => m
  | g :: l, m =>
    groupUnits l (SMap.ins m g.num (sortBy id (if g.ofGroups then g.members.flatMap (fun k => (SMap.find m k).getD []) else g.members)))

/-- The flat ripples of a unit of a level: a ripple itself, or a dune's; a grain owns none. -/
def unitRipples (level n : Nat) : List Nat :=
  if level = 1 then [n] else if level = 2 then (List.range 32).map (n * 32 + ·) else []

/-- The lanes of a flat ripple; none where its tile is absent (R5, R21). -/
def rippleLanes (s : State) (r : Nat) : List Nat :=
  if tileFitted s.otp.variant (r / 4) then (List.range 8).map (r * 8 + ·) else []

/-- A unit descriptor (Table 1.4): the level a group imitates, its number, its units, and its combined lane set; then its four
queue sub-ranges as flat queue indexes in member order (Table 5.2), its engines, and its buffer quota in cells. -/
structure UnitView where
  level : Nat
  number : Nat
  members : List Nat
  lanes : List Nat
  egress : List Nat
  staging : List Nat
  command : List Nat
  completion : List Nat
  engines : List Nat
  quota : Nat
  deriving DecidableEq, Repr

/-- `n` flat queue indexes of each ripple, in order, from local index `base` up. -/
def rippleQueues (base n : Nat) (rs : List Nat) : List Nat :=
  rs.flatMap (fun r => (List.range n).map (fun i => r / 32 * 16384 + base + r % 32 * n + i))

/-- What the units of a level present together: the lane sets, queue sub-ranges and engines of all, and the sum of the quotas (R25). -/
def unitView (s : State) (level number : Nat) (units : List Nat) : UnitView :=
  let rs := units.flatMap (unitRipples level)
  { level := level, number := number, members := units, lanes := rs.flatMap (rippleLanes s),
    egress := rippleQueues 0 128 rs, staging := rippleQueues 4096 256 rs, command := rippleQueues 12288 64 rs,
    completion := rippleQueues 14336 64 rs,
    engines := if level = 0 then units else rs.flatMap (fun r => (List.range 16).map (r * 16 + ·)),
    quota := sumNat (rs.map (rippleQuota s)) }

/-- The descriptor of a group of the image (R25). -/
def groupView (s : State) (g : UnitGroup) : UnitView :=
  unitView s g.level g.num ((SMap.find (groupUnits s.img.cfg.groups []) g.num).getD [])

/-! ## Pools (R114, R115) -/

def poolMax (s : State) (d p c : Nat) : Nat := rf s (Reg.SWC_POOL_MAX d p c) F.SWC_POOL_MAX_MAX
def poolBudget (s : State) (d p c : Nat) : Nat := rf s (Reg.SWC_POOL_BUDGET d p c) F.SWC_POOL_BUDGET_BUDGET
def poolOcc (s : State) (d p c : Nat) : Nat := rf s (Reg.SWC_POOL_STATUS d p c) F.SWC_POOL_STATUS_OCC

/-- Free cells of a pool. -/
def poolFree (s : State) (d p c : Nat) : Nat := poolMax s d p c - poolOcc s d p c

/-- The classes whose credits follow R115. -/
def creditClass (c : Nat) : Bool := [0, 1, 2, 3, 5].contains c

/-- Whether a class is lossless: 0 to 5. -/
def lossless (c : Nat) : Bool := decide (c < 6)

/-- XOFF(d, p, c) = SWC_POOL_MAX − Σ SWC_POOL_BUDGET (R115). -/
def xoffOf (s : State) (d p c : Nat) : Int :=
  (poolMax s d p c : Nat) - (sumNat ((scopeDunes s p).map (fun i => poolBudget s i p c)) : Nat)

/-- Cells of a fabric packet with LENGTH `len` (R108). -/
def fabricCells (len : Nat) : Nat := (48 + len + 255) / 256

/-- Cells of an Ethernet frame of `n` bytes. -/
def frameCells (n : Nat) : Nat := (n + 255) / 256

/-- The number that stands for the module itself where a packet names its ingress port. -/
def ownPort : Nat := 4096

/-- Whether a packet is a mirror copy that the module has made (R130). -/
def isCopy (k : SwPkt) : Bool := k.inPort == ownPort && (k.cfh.map (·.mirrored)).getD false

/-- The pool that a packet's cells are charged to: 7 for a mirror copy, else its class (R114, R131). -/
def pktPool (k : SwPkt) : Nat := if isCopy k then 7 else k.cls

/-! ## Hardware queues (R111, R112, R127) -/

def HwQueue.empty : HwQueue where
  pkts := []
  head := []
  pages := []
  tail := []
  spilling := false
  avg := 0
  nextNo := 0
  headSince := 0

/-- A hardware queue of a dune. -/
def hwq (s : State) (d q : Nat) : HwQueue := (SMap.find s.swc.queues (d * 16384 + q)).getD HwQueue.empty

/-- Key of a queue's start tag at a port's class, by the port's flat first lane (R218). -/
def queueTag (lane c q : Nat) : Nat := (lane * 16 + c) * 16384 + q
/-- Key of a class's start tag at a port. -/
def classTag (lane c : Nat) : Nat := 2 ^ 32 + lane * 8 + c

/-- The port and class whose fair queuing a queue takes part in: those of its first packet (R205). -/
def memberOf (x : HwQueue) : Option (Nat × Nat) := x.pkts.head?.map (fun e => (e.2.outPort, e.2.cls))

/-- A queue takes part in a port's class no more, and the class in the port's where it was the last: the start tags are discarded (R218). -/
def leaveMember (s : State) (d q : Nat) (m : Nat × Nat) : State :=
  let lane := ((portRec s m.1).map (·.first)).getD 0
  let t := SMap.del s.swc.tags (queueTag lane m.2 q)
  let busy := s.swc.queues.any (fun e => e.1 / 16384 == d && memberOf e.2 == some m)
  { s with swc := { s.swc with tags := if busy then t else SMap.del t (classTag lane m.2) } }

/-- Replace a hardware queue. -/
def setHwq (s : State) (d q : Nat) (x : HwQueue) : State :=
  let was := memberOf (hwq s d q)
  let s1 := { s with swc := { s.swc with queues := SMap.ins s.swc.queues (d * 16384 + q) x } }
  match was with
  | none => s1
  | some m => if memberOf x = some m then s1 else leaveMember s1 d q m

/-- Cells of a queue on chip. -/
def qChip (x : HwQueue) : Nat := x.head.length + x.tail.length

/-- Cells of a queue on chip and in Oasis. -/
def qOcc (x : HwQueue) : Nat := qChip x + sumNat (x.pages.map (fun p => p.cells.length))

/-- Local egress queue of a lane, set and class (R112). -/
def egressQ (lane set cls : Nat) : Nat := lane % 256 * 16 + set * 8 + cls

/-- Egress queue of a port for a set and class. -/
def portQ (s : State) (p set cls : Nat) : Nat := egressQ (((portRec s p).map (·.first)).getD 0) set cls

/-! ## Spilling state (R126) -/

/-- Whether the packets of a class may spill from a queue: class 3 and 6 egress queues, and staging queues that hold BULK, BEST or
COLL cells. -/
def spillEn (s : State) (d q c : Nat) : Bool :=
  rb s (Reg.SWC_QCFG0 d q) F.SWC_QCFG0_SPILL_EN && spillEligible q && (c == 3 || c == 4 || c == 6)

/-- Whether the dune and pool ask a queue to enter spilling state. -/
def spillPressure (s : State) (d p c : Nat) : Bool :=
  decide (rf s (Reg.SWC_SPILL_HWM d) F.SWC_SPILL_HWM_HWM < rf s (Reg.SWC_OCC d) F.SWC_OCC_OCC)
  || decide (7 * poolMax s d p c < 8 * poolOcc s d p c)

/-- SWC_SPILL_LWM; a value above HWM acts as HWM. -/
def spillLwm (s : State) (d : Nat) : Nat :=
  min (rf s (Reg.SWC_SPILL_LWM d) F.SWC_SPILL_LWM_LWM) (rf s (Reg.SWC_SPILL_HWM d) F.SWC_SPILL_HWM_HWM)

/-- Whether the dune and pool let a queue without a page leave spilling state. -/
def spillEased (s : State) (d p c : Nat) : Bool :=
  decide (rf s (Reg.SWC_OCC d) F.SWC_OCC_OCC < spillLwm s d) && decide (4 * poolOcc s d p c < 3 * poolMax s d p c)

/-- Key of a pool. -/
def poolKey (d p c : Nat) : Nat := (d * 16 + p) * 8 + c

/-- Whether the empty queues of a pool stand in spilling state. -/
def spillOn (s : State) (d p c : Nat) : Bool := SMap.get (fun _ => 0) s.swc.spillOn (poolKey d p c) == 1

/-- Note whether the empty queues of a pool enter or leave spilling state. -/
def spillLatch (d : Nat) (s : State) (pc : Nat × Nat) : State :=
  let on := if spillPressure s d pc.1 pc.2 then 1 else if spillEased s d pc.1 pc.2 then 0 else b2n (spillOn s d pc.1 pc.2)
  { s with swc := { s.swc with spillOn := SMap.put (fun _ => 0) s.swc.spillOn (poolKey d pc.1 pc.2) on } }

/-- A queue that holds packets enters spilling state, its cells becoming its head, or leaves it with no page in Oasis (R126,
Table 5.4). -/
def spillMark (d : Nat) (s : State) (q : Nat) : State :=
  let x := hwq s d q
  match x.pkts with
  | [] => s
  | (_, k) :: _ =>
    if !x.spilling then (if spillEn s d q k.cls && spillPressure s d k.scope k.cls then setHwq s d q { x with spilling := true } else s)
    else if x.pages.isEmpty && spillEased s d k.scope k.cls then
      setHwq s d q { x with spilling := false, head := x.head ++ x.tail, tail := [] }
    else s

/-- Every queue of a dune after its occupancy, a pool's or their marks have moved (R126). -/
def spillMarks (s : State) (d : Nat) : State :=
  let s1 := (s.img.cfg.scopes.flatMap (fun x => [(x.num, 3), (x.num, 4), (x.num, 6)])).foldl (spillLatch d) s
  ((s1.swc.queues.filter (fun e => e.1 / 16384 == d)).map (fun e => e.1 % 16384)).foldl (spillMark d) s1

/-! ## Occupancy (R114, R115) -/

/-- Show a pool's status (Table 5.6); XOFF_ERR reports as it sets (R115), and the dune's queues follow (R126). -/
def showPool (s : State) (d p c : Nat) : State :=
  let x := xoffOf s d p c
  let occ := poolOcc s d p c
  let bad := creditClass c && decide (x < 0)
  let was := rb s (Reg.SWC_POOL_STATUS d p c) F.SWC_POOL_STATUS_XOFF_ERR
  let s1 := wn s (Reg.SWC_POOL_XOFF d p c) (encodeSigned 20 x)
  let s2 := wfs s1 (Reg.SWC_POOL_STATUS d p c)
    [(F.SWC_POOL_STATUS_XOFF_ERR, b2n bad), (F.SWC_POOL_STATUS_XOFF, b2n (creditClass c && decide (x < (occ : Nat)))),
     (F.SWC_POOL_STATUS_SPILLING, b2n (decide (7 * poolMax s d p c < 8 * occ)))]
  spillMarks (if bad && !was then swcEvent s2 d F.SWC_EVT_XOFF_ERR p 0xFFFF else s2) d

/-- Show a class's pools of a scope in all its dunes. -/
def showPools (s : State) (p c : Nat) : State := (scopeDunes s p).foldl (fun t d => showPool t d p c) s

/-- Set a pool's occupancy and the dune's total with it. -/
def setPoolOcc (s : State) (d p c n : Nat) : State :=
  let old := poolOcc s d p c
  let s1 := wf s (Reg.SWC_POOL_STATUS d p c) F.SWC_POOL_STATUS_OCC n
  showPool (wf s1 (Reg.SWC_OCC d) F.SWC_OCC_OCC (rf s1 (Reg.SWC_OCC d) F.SWC_OCC_OCC + n - old)) d p c

/-- Charge cells to a pool. -/
def charge (s : State) (d p c n : Nat) : State := setPoolOcc s d p c (poolOcc s d p c + n)

/-- Return cells to a pool. -/
def discharge (s : State) (d p c n : Nat) : State := setPoolOcc s d p c (poolOcc s d p c - n)

/-- Charge a packet's cells to its pool; cells of class COLL stand in a reservation that is already charged (R117). -/
def chargePkt (s : State) (d p c n : Nat) : State := if c = 4 then s else charge s d p c n

/-- Return a packet's cells to its pool. -/
def dischargePkt (s : State) (d p c n : Nat) : State := if c = 4 then s else discharge s d p c n

/-! ## Spilling and refilling (R126, R127) -/

/-- Pages that a scope uses in a dune. -/
def pagesUsed (s : State) (d p : Nat) : Nat := SMap.get (fun _ => 0) s.swc.spillUsed (d * 16 + p)

def setPagesUsed (s : State) (d p n : Nat) : State :=
  { s with swc := { s.swc with spillUsed := SMap.put (fun _ => 0) s.swc.spillUsed (d * 16 + p) n } }

/-- Spill room of a scope in a dune: a free page of its quota, which OASIS_GB bounds too, and a ready stack of its scope
(R126, Table 5.7). -/
def spillRoom (s : State) (d p : Nat) : Bool :=
  decide (pagesUsed s d p < rn s (Reg.SWC_SPILL_QUOTA d p))
  && decide (sumNat ((List.range 8).map (fun i => pagesUsed s i p)) * 4096 < (((scopeOf s p).map (·.oasisGb)).getD 0) * 2 ^ 30)
  && !(readyStacks s p).isEmpty

/-- Move tail pages of 16 cells to Oasis while there is room (SPILL_PAGE_WRITE, R127). The stack is one of the scope's
ready stacks in turn (DESIGN CHOICE, log 13). -/
def writePages (d q p c : Nat) : Nat → State → State
  | 0, s => s
  | n + 1, s =>
    let x := hwq s d q
    if 16 ≤ x.tail.length ∧ spillRoom s d p then
      let st := readyStacks s p
      let page : SpillPage := ⟨getAt 0 st (pagesUsed s d p % st.length), false, x.tail.take 16⟩
      let s1 := setHwq s d q { x with pages := x.pages ++ [page], tail := x.tail.drop 16 }
      let s2 := setPagesUsed s1 d p (pagesUsed s1 d p + 1)
      writePages d q p c n (bump64 (dischargePkt s2 d p c 16) (Reg.SWC_SPILL_OUT d) 1)
    else s

/-- Cells of the head together with the pages requested. -/
def headAndAsked (x : HwQueue) : Nat :=
  x.head.length + sumNat ((x.pages.filter (·.requested)).map (fun p => p.cells.length))

/-- The packet at a queue's head, if all its cells are in the head. -/
def headPkt (x : HwQueue) : Option SwPkt :=
  match x.pkts with
  | [] => none
  | (n, p) :: _ => if (x.head.take p.cells).length = p.cells ∧ (x.head.take p.cells).all (· == n) then some p else none

/-- Cells below which a queue asks for a page: REFILL_MARK, and no fewer than its first packet has, since that packet's cells leave
the head one by one. -/
def refillMark (s : State) (d q : Nat) : Nat :=
  let m := rf s (Reg.SWC_QCFG1 d q) F.SWC_QCFG1_REFILL_MARK
  if m = 0 then 0 else max m (((hwq s d q).pkts.head?.map (fun e => e.2.cells)).getD 0)

/-- Request pages, oldest first, while the head with the requested pages is below the mark (R127). -/
def askPages (d q : Nat) : Nat → State → State
  | 0, s => s
  | n + 1, s =>
    let x := hwq s d q
    if headAndAsked x < refillMark s d q ∧ x.pages.any (fun p => !p.requested) then
      askPages d q n (setHwq s d q { x with pages := modFirst (fun p => !p.requested) (fun p => { p with requested := true }) x.pages })
    else s

/-- The tail joins the head. -/
def tailToHead (x : HwQueue) : HwQueue := { x with head := x.head ++ x.tail, tail := [] }

/-- A tail shorter than a page joins the head when the queue holds no page and its first packet is not whole in the head (R127). -/
def joinTail (s : State) (d q : Nat) : State :=
  let x := hwq s d q
  if x.pages.isEmpty && (headPkt x).isNone then setHwq s d q (tailToHead x) else s

/-- Link a packet whose cells are already charged into a queue: its cells join the tail of a spilling queue, else the
head (R127), and count in ENQ_CELLS. An empty queue stands in spilling state as its pool's queues do. -/
def enqueue (s : State) (d q : Nat) (pk : SwPkt) : State :=
  let x := hwq s d q
  let sp := x.spilling || (x.pkts.isEmpty && spillEn s d q pk.cls && spillOn s d pk.scope pk.cls)
  let cells := List.replicate pk.cells x.nextNo
  let x1 := { x with pkts := x.pkts ++ [(x.nextNo, pk)], nextNo := x.nextNo + 1,
                     headSince := if x.pkts.isEmpty then s.clock else x.headSince,
                     head := if sp then x.head else x.head ++ cells,
                     tail := if sp then x.tail ++ cells else x.tail, spilling := sp }
  let s1 := bump64 (setHwq s d q x1) (Reg.SWC_Q_ENQ_CELLS d q) pk.cells
  joinTail (askPages d q 4096 (writePages d q pk.scope pk.cls 64 s1)) d q

/-- A queue without a packet is in spilling state no more of its own. -/
def restQueue (x : HwQueue) : HwQueue := if x.pkts.isEmpty then { x with spilling := false } else x

/-- Take the packet at a queue's head out of it; its cells leave the pool (R127). -/
def dequeue (s : State) (d q : Nat) : State :=
  let x := hwq s d q
  match headPkt x with
  | none => s
  | some p =>
    let x1 := restQueue { x with pkts := x.pkts.drop 1, head := x.head.drop p.cells, headSince := s.clock }
    let s1 := bump64 (dischargePkt (setHwq s d q x1) d p.scope (pktPool p) p.cells) (Reg.SWC_Q_DEQ_CELLS d q) p.cells
    joinTail (askPages d q 4096 s1) d q

/-- Remove the packets that `gone` accepts from a queue with all their cells. -/
def dropPkts (x : HwQueue) (gone : Nat → SwPkt → Bool) : HwQueue :=
  let bad := ((x.pkts.filter (fun e => gone e.1 e.2)).map (·.1))
  restQueue { x with pkts := x.pkts.filter (fun e => !gone e.1 e.2), head := x.head.filter (fun n => !bad.contains n),
                     tail := x.tail.filter (fun n => !bad.contains n),
                     pages := (x.pages.map (fun p => { p with cells := p.cells.filter (fun n => !bad.contains n) })).filter (fun p => !p.cells.isEmpty) }

/-- Discard every packet of a queue: cells on chip are discharged, pages freed. The second part is the number of cells. -/
def flushQueue (s : State) (d q : Nat) : State × Nat :=
  let x := hwq s d q
  let chip := x.head ++ x.tail
  let s1 := x.pkts.foldl (fun t e =>
    let here := (chip.filter (fun n => n == e.1)).length
    if here = 0 then t else dischargePkt t d e.2.scope (pktPool e.2) here) s
  let s2 := match x.pkts with
    | [] => s1
    | e :: _ => setPagesUsed s1 d e.2.scope (pagesUsed s1 d e.2.scope - x.pages.length)
  (setHwq s2 d q { HwQueue.empty with nextNo := x.nextNo, avg := x.avg }, qOcc x)

/-! ## WRED (R120, R121) -/

/-- AVG ← AVG + (OCC − AVG) × 2^−W_EXP, in cells with 8 fractional bits. -/
def wredAvg (avg occ wexp : Nat) : Nat := ((avg : Int) + ((occ * 256 : Nat) - (avg : Int)) / (2 ^ wexp : Nat)).toNat

/-- The drop probability in units of 1/65,536; thresholds in cells, AVG with 8 fractional bits. -/
def wredP (minTh maxTh maxP avg : Nat) : Nat :=
  if maxTh = 0 then 0
  else if maxTh * 256 ≤ avg then 65536
  else if avg < minTh * 256 ∨ maxTh ≤ minTh then 0
  else maxP * 256 * (avg - minTh * 256) / ((maxTh - minTh) * 256)

/-- The profile of a queue for a colour: 1 yellow, 2 and 3 red (R119). -/
def wredProfile (s : State) (d q colour : Nat) : Nat :=
  if colour < 2 then rf s (Reg.SWC_QCFG0 d q) F.SWC_QCFG0_YEL_PROF else rf s (Reg.SWC_QCFG0 d q) F.SWC_QCFG0_RED_PROF

/-- Update AVG at a packet arrival. A green packet takes W_EXP of the yellow profile (DESIGN CHOICE, log 34). -/
def wredArrive (s : State) (d q colour : Nat) : State :=
  let x := hwq s d q
  setHwq s d q { x with avg := wredAvg x.avg (qOcc x) (rf s (Reg.SWC_WRED2 d (wredProfile s d q colour)) F.SWC_WRED2_W_EXP) }

/-- Whether WRED drops a packet of a colour: the draw is free (R121). -/
def wredDrop (s : State) (d q colour : Nat) : Bool :=
  let n := wredProfile s d q colour
  decide (colour ≠ 0) && decide (Config.wredDraw d s.free % 65536 <
    wredP (rf s (Reg.SWC_WRED0 d n) F.SWC_WRED0_MIN_TH) (rf s (Reg.SWC_WRED1 d n) F.SWC_WRED1_MAX_TH)
      (rf s (Reg.SWC_WRED2 d n) F.SWC_WRED2_MAX_P) (hwq s d q).avg)

/-! ## Push-out (R124, R125) -/

/-- The packet that push-out may evict from a queue for pool 6 of a scope: its last one but for mirror copies, which are no cells of
that pool, with every cell on chip. -/
def victimPkt (p : Nat) (x : HwQueue) : Option (Nat × SwPkt) :=
  match (x.pkts.filter (fun e => !isCopy e.2)).getLast? with
  | none => none
  | some e => if e.2.cls == 6 && e.2.scope == p && !x.pages.any (fun g => g.cells.contains e.1) then some e else none

/-- Whether a queue holds class 6 cells: a class 6 egress queue, or a staging queue. -/
def bestQueue (q : Nat) : Bool := (decide (q < 4096) && q % 8 == 6) || decide (4096 ≤ q ∧ q < 12288)

/-- Push-out priority of a queue. -/
def qPrio (s : State) (d q : Nat) : Nat := rf s (Reg.SWC_QCFG0 d q) F.SWC_QCFG0_PRIO

/-- Whether push-out for an arriving priority may evict from a queue. -/
def isVictim (s : State) (d p prio q : Nat) : Bool :=
  bestQueue q && decide (qPrio s d q < prio) && (victimPkt p (hwq s d q)).isSome

/-- The class 6 queues of a pool that push-out may take from for an arriving priority: lowest PRIO, then the highest
on-chip occupancy, then the lowest index. -/
def pushVictim (s : State) (d p prio : Nat) : Option Nat :=
  let ok := s.swc.queues.filter (fun e => e.1 / 16384 == d && isVictim s d p prio (e.1 % 16384))
  (ok.foldl (fun (best : Option (Nat × Nat × Nat)) e =>
    let pr := qPrio s d (e.1 % 16384)
    let n := qChip e.2
    match best with
    | none => some (pr, n, e.1 % 16384)
    | some b => if pr < b.1 ∨ (pr = b.1 ∧ b.2.1 < n) then some (pr, n, e.1 % 16384) else best) none).map (·.2.2)

/-- Evict a queue's last packet and count it. -/
def evict (s : State) (d p q : Nat) : State :=
  match victimPkt p (hwq s d q) with
  | none => s
  | some v =>
    let s1 := setHwq s d q (dropPkts (hwq s d q) (fun no _ => no == v.1))
    bump64 (discharge s1 d p 6 v.2.cells) (Reg.SWC_Q_PUSHOUT_PKTS d q) 1

/-- Evict whole packets until `n` cells of the pool are free, from the tail of one victim until it has no more to give, then of the
next; none where the victims cannot free them. -/
def pushOut (d p prio n : Nat) : Nat → Option Nat → State → Option State
  | 0, _, s => if n ≤ poolFree s d p 6 then some s else none
  | fuel + 1, cur, s =>
    if n ≤ poolFree s d p 6 then some s
    else
      match (cur.filter (isVictim s d p prio)).or (pushVictim s d p prio) with
      | none => none
      | some q => pushOut d p prio n fuel (some q) (evict s d p q)

/-! ## Policers (R122, R123) -/

/-- One byte in a policer's token unit, 2^-16/8,000 byte. -/
def polByte : Nat := 8000 * 65536

/-- Whether a policer acts as disabled: PIR below CIR or PBS below CBS (R123). -/
def polBad (s : State) (d i : Nat) : Bool :=
  decide (rf s (Reg.SWC_POL1 d i) F.SWC_POL1_PIR < rf s (Reg.SWC_POL0 d i) F.SWC_POL0_CIR)
  || decide (rf s (Reg.SWC_POL3 d i) F.SWC_POL3_PBS < rf s (Reg.SWC_POL2 d i) F.SWC_POL2_CBS)

/-- A policer's full buckets. -/
def polFull (s : State) (d i : Nat) : PolState :=
  ⟨rf s (Reg.SWC_POL2 d i) F.SWC_POL2_CBS * polByte, rf s (Reg.SWC_POL3 d i) F.SWC_POL3_PBS * polByte, s.clock⟩

/-- A policer's buckets refilled from the elapsed time. -/
def polNow (s : State) (d i : Nat) : PolState :=
  match SMap.find s.swc.policers (d * 8192 + i) with
  | none => polFull s d i
  | some b =>
    let dt := s.clock - b.at_
    let f := polFull s d i
    ⟨min f.tc (b.tc + dt * rf s (Reg.SWC_POL0 d i) F.SWC_POL0_CIR), min f.tp (b.tp + dt * rf s (Reg.SWC_POL1 d i) F.SWC_POL1_PIR), s.clock⟩

/-- The two-rate three-colour marker (R122): colour 0 green, 1 yellow, 2 red; the bytes are in the token unit. -/
def polMark (aware : Bool) (colour n : Nat) (b : PolState) : Nat × PolState :=
  if aware && decide (2 ≤ colour) then (2, b)
  else if b.tp < n then (2, b)
  else if aware && colour == 1 then (1, { b with tp := b.tp - n })
  else if b.tc < n then (1, { b with tp := b.tp - n })
  else (0, { b with tp := b.tp - n, tc := b.tc - n })

/-- A policer's decision on a packet of `bytes` (POLICER_DECISION): the new colour. A disabled policer marks every packet green
(R123). -/
def polDecide (s : State) (d i cls colour bytes : Nat) : State × Nat :=
  if lossless cls then (bump64 s (Reg.SWC_POLICER_LOSSLESS d) 1, colour)
  else if !rb s (Reg.SWC_POL0 d i) F.SWC_POL0_EN then (s, 0)
  else if polBad s d i then (swcEvent s d F.SWC_EVT_POLICER_CFG_ERR 0xFF 0xFFFF, 0)
  else
    let r := polMark (rb s (Reg.SWC_POL0 d i) F.SWC_POL0_AWARE) colour (bytes * polByte) (polNow s d i)
    ({ s with swc := { s.swc with policers := SMap.ins s.swc.policers (d * 8192 + i) r.2 } }, r.1)

/-! ## Mirror copies (R129 to R131) -/

/-- The 48 bytes of a fabric header (Table 1.13). -/
def cfhBytes (c : Cfh) : List Byte :=
  natBe 1 (c.ver * 16 + c.epoch * 8 + c.cls)
  ++ natBe 1 (b2n c.poison * 128 + b2n c.retractable * 64 + b2n c.mirrored * 32 + c.ecn * 8 + b2n c.first * 4 + b2n c.last * 2)
  ++ natBe 2 (c.part * 16 + c.colour * 4)
  ++ natBe 3 c.dst ++ natBe 3 c.src ++ natBe 2 (c.len * 4) ++ natBe 4 c.flowSeq ++ natBe 2 c.job ++ natBe 2 c.group ++ natBe 1 c.gen
  ++ natBe 3 c.chunk ++ natBe 4 c.step ++ natBe 3 c.rank ++ natBe 1 c.format ++ natBe 4 c.injSec ++ natBe 4 c.injNs
  ++ natBe 8 c.digest

/-- The header of a packet that the module originates: fields its kind does not use are 0 (R33); DIGEST is 0 (R339). -/
def originCfh (s : State) (cls part dst src job len : Nat) : Cfh :=
  ⟨1, rf s Reg.RTE_STATUS F.RTE_STATUS_ACTIVE, cls, false, false, false, 0, true, true, part, 0, dst, src, len, 0, job, 0, 0, 0, 0, 0, 0,
   nowSec s % 2 ^ 32, nowNs s, 0⟩

/-- VER of what the module originates onto a port: 0 on a port of the first generation (R397). -/
def genVer (s : State) (port : Nat) : Nat := if rb s (Reg.MGT_PORT_GEN port) F.MGT_PORT_GEN_GEN0 then 0 else 1

/-- Whether a port is in Ethernet mode. -/
def portEth (s : State) (p : Nat) : Bool := ((portRec s p).map (fun r => r.mode == 1)).getD false

/-- The bytes of an Ethernet frame without its check sequence; the body of a frame with a CFH stands apart from it. -/
def ethBytes (f : EthFrame) : List Byte :=
  natBe 6 f.dst ++ natBe 6 f.src ++ ((f.tags.map (fun t => natBe 2 t.1 ++ natBe 2 t.2)).flatten) ++ natBe 2 f.etype ++ f.body

/-- The bytes of a packet from its first byte: the CFH and payload, or the Ethernet frame from its destination address to its
check sequence. -/
def pktBytes (eth : Option EthFrame) (cfh : Option Cfh) (payload : List Byte) : List Byte :=
  let inner := match cfh with
    | none => payload
    | some c => cfhBytes c ++ payload
  match eth with
  | none => inner
  | some f =>
    let b := ethBytes f ++ inner
    b ++ (natBe 4 (crc32 b)).reverse

/-- TRUNC between 64 and 8,192 and a multiple of 64; other values act as the nearest such value. -/
def mirTrunc (n : Nat) : Nat := min 8192 (max 64 ((n + 32) / 64 * 64))

/-- The sessions of a dune whose source is a port, in a direction (0 ingress, 1 egress), or a named flow session. -/
def mirSessions (s : State) (d kind port : Nat) : List Nat :=
  (List.range 64).filter (fun m =>
    rb s (Reg.SWC_MIR0 d m) F.SWC_MIR0_EN && rf s (Reg.SWC_MIR0 d m) F.SWC_MIR0_SRC_KIND == kind
    && rf s (Reg.SWC_MIR0 d m) F.SWC_MIR0_SRC_PORT == port)

/-- No link header: a frame, or a packet that starts here. -/
def LinkHdr.none_ : LinkHdr := ⟨0, 0, false, 0, false, 0, 0, 0, 0, 0, 0⟩

/-- A packet that the module originates, for a port of its own choice. -/
def ownPkt (port part : Nat) (c : Cfh) (payload : List Byte) : SwPkt where
  eth := none
  cfh := some c
  payload := payload
  cells := fabricCells payload.length
  cls := c.cls
  colour := 0
  scope := part
  inPort := ownPort
  inLane := 0
  inVc := 0
  outPort := port
  staging := none
  vcSet := 0
  link := { LinkHdr.none_ with cls := c.cls }
  nh := none
  target := none
  inOasis := none

/-- Bytes of a mirror record before encryption (Table 5.5), cut so that the whole record takes at most TRUNC bytes. -/
def mirrorPlain (s : State) (d m src port : Nat) (clear : Bool) (body : List Byte) : List Byte :=
  let room := mirTrunc (rf s (Reg.SWC_MIR2 d m) F.SWC_MIR2_TRUNC) - 16 - (if clear then 0 else 16)
  natBe 1 m ++ natBe 1 (src * 64) ++ natBe 2 (port % 2048 + d * 8192) ++ natBe 2 body.length ++ natBe 2 0 ++ timeBytes8 s ++ body.take room

/-- A mirror record under the mirror key of a JOB (R130, R374): the first 16 bytes stand in clear as additional authenticated data, the
rest is ciphertext, and a 16-byte tag follows. -/
def mirrorSeal (s : State) (part job : Nat) (plain : List Byte) : List Byte :=
  plain.take 16 ++ (List.range (plain.length - 16 + 16)).map
    (fun i => Config.mirrorByte (hallPart s part) job (rn s Reg.SEC_MIRROR_EPOCH) s.free plain i)

/-- Whether an analysis port can take a copy of so many cells now: ready, in fabric mode, of the source's scope, its class 6 queue
neither spilling nor full, and room in pool 7 of its dune (R131; log 205). -/
def copyFits (s : State) (dest part n : Nat) : Bool :=
  let d := portDune s dest
  let q := portQ s dest 0 6
  let x := hwq s d q
  portReady s dest && !portEth s dest && portScope s dest == part
  && !(x.spilling || (x.pkts.isEmpty && spillEn s d q 6 && spillOn s d part 6))
  && decide (qOcc x + n ≤ rf s (Reg.SWC_QCFG0 d q) F.SWC_QCFG0_QMAX * 16) && decide (n ≤ poolFree s d part 7)

/-- One copy of a source packet for a session, if the sample takes it (MIRROR_COPY). `src` is the SOURCE code of Table
5.5. A copy to a FIFO is written at once or dropped (R104); one to an analysis port waits in its class 6 queue, charged to pool 7
(R131). -/
def mirrorOne (s : State) (d m src port part : Nat) (eth : Option EthFrame) (cfh : Option Cfh) (payload : List Byte) : State :=
  let n := max 1 (rf s (Reg.SWC_MIR3 d m) F.SWC_MIR3_SAMPLE_N)
  let cnt := SMap.get (fun _ => 0) s.swc.mirrorCnt (d * 64 + m) + 1
  let s1 := { s with swc := { s.swc with mirrorCnt := SMap.put (fun _ => 0) s.swc.mirrorCnt (d * 64 + m) (if cnt < n then cnt else 0) } }
  if cnt < n then s1
  else
    let job := (cfh.map (·.job)).getD 0
    let clear := s.img.cfg.clearJobs.contains job
    let body := pktBytes eth cfh payload
    let plain := mirrorPlain s d m src port clear body
    let record := if clear then plain else mirrorSeal s part job plain
    let cells := fabricCells record.length
    let s2 := if clear then s1 else tickFree s1
    let dest := rf s (Reg.SWC_MIR1 d m) F.SWC_MIR1_DEST
    if !clear && !s.rot.mirrorRoots.contains (hallPart s part) then bump64 s1 (Reg.SWC_MIRROR_DROP d) 1
    else if rb s (Reg.SWC_MIR0 d m) F.SWC_MIR0_TO_FIFO then
      if poolFree s2 d part 7 < cells then bump64 s2 (Reg.SWC_MIRROR_DROP d) 1
      else
        let r := mirrorPut s2 d dest ⟨m, decide (plain.length < 16 + body.length), record⟩
        if r.2 = .dropped then bump64 r.1 (Reg.SWC_MIRROR_DROP d) 1 else r.1
    else if copyFits s2 dest part cells then
      let c := originCfh s 6 (hallPart s part) (rf s (Reg.SWC_MIR4 d m) F.SWC_MIR4_DEST_EP) 0 job record.length
      let k := ownPkt dest part { c with mirrored := true, flowSeq := rn s Reg.SEC_MIRROR_EPOCH, ver := genVer s dest } record
      enqueue (chargePkt s2 (portDune s dest) part 7 cells) (portDune s dest) (portQ s dest 0 6) k
    else bump64 s2 (Reg.SWC_MIRROR_DROP d) 1

/-- Copies of a packet for a list of sessions; a packet with CFH.MIRRORED is never copied (R129). -/
def mirrorAll (s : State) (d src port part : Nat) (eth : Option EthFrame) (cfh : Option Cfh) (payload : List Byte) (l : List Nat) : State :=
  if (cfh.map (·.mirrored)).getD false then s
  else l.foldl (fun t m => mirrorOne t d m src port part eth cfh payload) s

/-- A packet that the module originates for a port: it waits in the port's set-0 queue, charged to its pool, and leaves under the
port's credits, gates and mirror sessions as any other; on an Ethernet port it leaves at once (log 52). -/
def sendOwn (s : State) (port : Nat) (c : Cfh) (payload : List Byte) : State :=
  if portEth s port then emit s (.msg (some port) c payload)
  else
    let k := ownPkt port (portScope s port) { c with ver := genVer s port } payload
    enqueue (chargePkt s (portDune s port) k.scope k.cls k.cells) (portDune s port) (portQ s port 0 k.cls) k

/-- The router MAC address of a scope (FWD_RMAC). -/
def routerMac (s : State) (part : Nat) : Nat := rf s (Reg.FWD_RMAC_HI part) F.FWD_RMAC_HI_MAC * 2 ^ 32 + rn s (Reg.FWD_RMAC_LO part)

/-- A message of the link itself as it leaves: a cell packet, or on a port in Ethernet mode a frame to every station with the CFH in
front of the message (R372). -/
def linkOut (s : State) (port : Nat) (c : Cfh) (payload : List Byte) : Out :=
  if portEth s port then
    .linkFrame port (2 ^ 48 - 1) (routerMac s (portScope s port)) (rf s Reg.FWD_ETH_CFG F.FWD_ETH_CFG_CFH_ETYPE) c payload
  else .msg (some port) c payload

/-- A message of the link itself, a handshake or a seal, which waits in no queue; egress sessions of the port copy it (R129). -/
def linkMsg (s : State) (port : Nat) (c : Cfh) (payload : List Byte) : State :=
  mirrorAll (emit s (linkOut s port c payload)) (portDune s port) 1 port (portScope s port) none (some c) payload
    (mirSessions s (portDune s port) 1 port)

/-! ## Credits (R115, R164, R168, R169) -/

/-- Key of a port's credits of a class and virtual channel. -/
def credKey (port cls vc : Nat) : Nat := port * 64 + cls * 4 + vc

/-- Credits granted upstream and not yet had back. -/
def granted (s : State) (port cls vc : Nat) : Nat := SMap.get (fun _ => 0) s.swc.granted (credKey port cls vc)

/-- Credits the port holds towards its peer. -/
def credHeld (s : State) (port cls vc : Nat) : Nat := SMap.get (fun _ => 0) s.swc.held (credKey port cls vc)

/-- Cells of returns that wait to be sent. -/
def returnsPending (s : State) (port cls vc : Nat) : Nat := SMap.get (fun _ => 0) s.swc.returns (credKey port cls vc)

def setGranted (s : State) (port cls vc n : Nat) : State :=
  { s with swc := { s.swc with granted := SMap.put (fun _ => 0) s.swc.granted (credKey port cls vc) n } }

def setCredHeld (s : State) (port cls vc n : Nat) : State :=
  { s with swc := { s.swc with held := SMap.put (fun _ => 0) s.swc.held (credKey port cls vc) n } }

def setReturns (s : State) (port cls vc n : Nat) : State :=
  { s with swc := { s.swc with returns := SMap.put (fun _ => 0) s.swc.returns (credKey port cls vc) n } }

/-- RTE_WADI_RSV of a class (Table 7.7, R170), as it was latched at the last link attestation or dune enable (R184). -/
def wadiRsv (s : State) (c : Nat) : Nat :=
  if c = 0 then max 8 (getF s.rte.rsv F.RTE_WADI_RSV_MGT) else max 33 (getF s.rte.rsv F.RTE_WADI_RSV_OTHER)

/-- A port's role, 0 where it has no record. -/
def portRole (s : State) (p : Nat) : Nat := ((portRec s p).map (·.role)).getD 0

/-- A torus port's direction. -/
def portDir (s : State) (p : Nat) : Option Nat := (portRec s p).bind (fun r => if r.role = 1 then some r.dir else none)

/-- The torus ports of a direction, in ascending number. -/
def dirPorts (s : State) (dir : Nat) : List Nat :=
  sortBy id ((s.img.cfg.ports.filter (fun r => r.role == 1 && r.dir == dir)).map (·.num))

/-- Home dune of a direction: that of its lowest-numbered port (R167). -/
def homeDune (s : State) (dir : Nat) : Option Nat := (dirPorts s dir).head?.map (portDune s)

/-- The Wadi port of a direction (R167). -/
def wadiPort (s : State) (dir : Nat) : Option Nat :=
  match homeDune s dir with
  | none => none
  | some h => ((dirPorts s dir).filter (fun p => portDune s p == h && portReady s p)).head?

/-- RSV(d, p, c): a reserve for each Wadi list (two a direction homed in d) and each ejection list (one for each port of the
scope in d) (R169); without a torus there are none. -/
def rsvCells (s : State) (d p c : Nat) : Nat :=
  let lists := 2 * ((List.range 6).filter (fun dir => homeDune s dir == some d)).length
  let ejects := (s.img.cfg.ports.filter (fun r => r.first / 256 == d && partOfRipple s (r.first / 8) == p && r.role != 1)).length
  if s.img.cfg.torus.dims = 0 then 0 else (lists + ejects) * wadiRsv s c

/-- Sum of the credits of a class, over the virtual channels that `vc` accepts, granted by the ports of a scope in a dune and
not yet had back as cells admitted: cells on their way across the mesh count still. -/
def outstanding (s : State) (d p c : Nat) (vc : Nat → Bool) : Nat :=
  sumNat ((s.swc.granted.filter (fun e =>
    e.1 / 4 % 16 == c && vc (e.1 % 4) && portDune s (e.1 / 64) == d && portScope s (e.1 / 64) == p)).map (·.2))
  + sumNat ((s.swc.mesh.filter (fun k => k.cls == c && vc k.inVc && k.eth.isNone && portDune s k.inPort == d && k.scope == p)).map (·.cells))

/-- The standing allowances of a class that the ports of a scope in a dune have granted (R168). -/
def allowances (s : State) (d p c : Nat) : Nat :=
  sumNat ((s.swc.allowed.filter (fun e => e.1 / 4 % 16 == c && portDune s (e.1 / 64) == d && portScope s (e.1 / 64) == p)).map (·.2))

/-- Cells of a pool that stand in Wadi and ejection lists, the set-1 queues of a dune. -/
def set1Cells (s : State) (d p c : Nat) : Nat :=
  sumNat ((s.swc.queues.filter (fun e => e.1 / 16384 == d && decide (e.1 % 16384 < 4096) && e.1 % 16 == 8 + c)).map (fun e =>
    sumNat ((e.2.pkts.filter (fun k => k.2.scope == p)).map (fun k => k.2.cells))))

/-- Whether the list of a port's group is armed: the group is in RUNNING or CHANGE (R69, R117, R210). -/
def schedOpen (s : State) (port : Nat) : Bool :=
  let r := ((portRec s port).map (fun r => r.first / 8)).getD 0
  let st := rf s (Reg.SCH_PG_STATUS (r / 32) (r % 32)) F.SCH_PG_STATUS_STATE
  timReady s && (st == 2 || st == 3)

/-- Whether a port may grant credits at all now: its work has not been stopped and it does not shadow a twin (Table 3.10, R385,
R396). -/
def grantsNow (s : State) (port : Nat) : Bool :=
  !s.plat.creditsWithheld && portFn s port == 1 && !mirageShut s port

/-- Whether new credits of a class may be granted on a port: OCC ≤ XOFF in every dune of its scope, none negative (R115), and SCHED
only while its group's list is armed (R69, R117). -/
def newCredit (s : State) (port c : Nat) : Bool :=
  let p := portScope s port
  creditClass c && grantsNow s port && (c != 5 || schedOpen s port)
  && (scopeDunes s p).all (fun d => decide ((poolOcc s d p c : Int) ≤ xoffOf s d p c) && decide (0 ≤ xoffOf s d p c))

/-- Whether adaptive credits of a class may be granted on a port: as any new credit, and the adaptive occupancy is at most
XOFF − RSV in every dune (R169). -/
def mayGrant (s : State) (port c : Nat) : Bool :=
  let p := portScope s port
  newCredit s port c
  && (scopeDunes s p).all (fun d => decide (((poolOcc s d p c - set1Cells s d p c : Nat) : Int) ≤ xoffOf s d p c - (rsvCells s d p c : Nat)))

/-- Credits of a class that a port has granted on all its virtual channels. -/
def grantedAll (s : State) (port c : Nat) : Nat := sumNat ((List.range 4).map (granted s port c))

/-- Adaptive credits a port may still be granted for a class: up to the budget less the allowances, and 256 a lane over both
virtual-channel sets (R115, R168). -/
def grantRoom (s : State) (port c : Nat) : Nat :=
  let p := portScope s port
  let d := portDune s port
  let lanes := ((portRec s port).map (·.width)).getD 1
  min (poolBudget s d p c - allowances s d p c - outstanding s d p c (fun v => v == 0)) (256 * lanes - grantedAll s port c)

/-- Grant a port's adaptive credits of a class; they travel as returns (R164). Ports take the budget in the order in which
they are served (DESIGN CHOICE, log 35). -/
def grantClass (s : State) (port c : Nat) : State :=
  let n := grantRoom s port c
  if mayGrant s port c ∧ 0 < n then
    setReturns (setGranted s port c 0 (granted s port c 0 + n)) port c 0 (returnsPending s port c 0 + n)
  else s

/-! ## Placement (R280) -/

/-- The flat ripples of a scope in a dune, ascending. -/
def scopeRipples (s : State) (part d : Nat) : List Nat :=
  ((List.range 32).map (d * 32 + ·)).filter (fun r => (scopeOfRipple s r).any (fun x => x.num == part))

/-- The flat ripple in which a chunk is placed. -/
def chunkRipple (s : State) (part c : Nat) : Nat :=
  let ds := scopeDunes s part
  let rs := scopeRipples s part (getAt 0 ds (c % ds.length))
  getAt 0 rs (c / ds.length % rs.length)

/-- Chunks of a collective. -/
def collChunks (c : Coll) : Nat := (c.count + 511) / 512

/-- Staging cells that a collective still needs: those of the chunks that its window takes and whose local reduction has not committed
(Table 12.5, R279). -/
def collStaging (c : Coll) : Nat :=
  min c.win (collChunks c - (c.chunks.filter (fun h => h.stage != 0)).length) * (c.members * c.nIn)

/-- Transit cells that a collective still needs, of partials and of results, for the chunks that its window takes (Table 12.5, R279). -/
def collTransit (c : Coll) : Nat :=
  min c.win (collChunks c - (c.chunks.filter (fun h => h.stage == 5)).length) * 2 * 83
  + min c.win (collChunks c - c.results.length) * 2 * c.nOut

/-! ## COLL credits (R117, R282) -/

/-- The local port behind which an endpoint lies, by a dune's forwarding tables. -/
def endpointPort (s : State) (d hp ep : Nat) : Option Nat :=
  match emEntry (replica s d).em (endpointKey hp ep) with
  | none => none
  | some e => if !e.tomb && (resAction e.result == 0 || resAction e.result == 4) then some (resPort e.result) else none

/-- The local working members of a group behind a port. -/
def membersBehind (s : State) (port : Nat) (x : Group) : List Member :=
  x.entries.filter (fun m => m.role == 0 && endpointPort s (portDune s port) (hallPart s x.part) m.ep == some port)

/-- COLL credits that a rack-facing port stands for: W × n_in for each local working member behind it, less what the members' cells
still hold: contributions whose chunk has not been reduced locally (R279, R282). -/
def rackColl (s : State) (port : Nat) : Nat :=
  sumNat ((s.col.groups.filter (fun g => g.2.part == portScope s port)).map (fun g =>
    let ms := membersBehind s port g.2
    sumNat (g.2.opened.map (fun c =>
      let held := (c.contribs.filter (fun b => ms.any (fun m => m.rank == b.rank)
        && !c.chunks.any (fun h => h.c == b.chunk && h.stage != 0))).length
      (c.win * ms.length - held) * c.nIn))))

/-- COLL credits that the other ports of a scope stand for together: what its open collectives have reserved for partials and results
(how it is shared out is a DESIGN CHOICE, log 36). -/
def transitColl (s : State) (p : Nat) : Nat :=
  sumNat ((s.col.groups.filter (fun g => g.2.part == p)).map (fun g => sumNat (g.2.opened.map (fun c => c.cells - collStaging c))))

/-- COLL credits that a port may still be granted: what it stands for, less what is on its way, and 256 a lane. -/
def collRoom (s : State) (port : Nat) : Nat :=
  let p := portScope s port
  let stands :=
    if portRole s port = 0 then
      rackColl s port - grantedAll s port 4 - sumNat ((s.swc.mesh.filter (fun k => k.cls == 4 && k.inPort == port)).map (·.cells))
    else
      transitColl s p - sumNat (((s.img.cfg.ports.filter (fun r => r.role != 0 && portScope s r.num == p)).map (·.num)).map (fun q => grantedAll s q 4))
        - sumNat ((s.swc.mesh.filter (fun k => k.cls == 4 && k.scope == p && portRole s k.inPort != 0)).map (·.cells))
        - sumNat (s.swc.queues.map (fun e => sumNat ((e.2.pkts.filter (fun k => k.2.cls == 4 && k.2.scope == p)).map (fun k => k.2.cells))))
  min stands (256 * ((portRec s port).map (·.width)).getD 1 - grantedAll s port 4)

/-- Grant a port's COLL credits. -/
def grantColl (s : State) (port : Nat) : State :=
  let n := collRoom s port
  if grantsNow s port ∧ 0 < n then
    setReturns (setGranted s port 4 0 (granted s port 4 0 + n)) port 4 0 (returnsPending s port 4 0 + n)
  else s

/-! ## Standing allowances (R168) -/

/-- Grant a standing allowance on a virtual channel, once, under the condition of R115; one that must wait is tried again. -/
def grantAllowance (s : State) (port vc c : Nat) : State :=
  if (SMap.find s.swc.allowed (credKey port c vc)).isSome || !newCredit s port c then s
  else
    let n := wadiRsv s c
    let s1 := { s with swc := { s.swc with allowed := SMap.ins s.swc.allowed (credKey port c vc) n } }
    setReturns (setGranted s1 port c vc (granted s1 port c vc + n)) port c vc (returnsPending s1 port c vc + n)

/-- The virtual channels of a torus port that have an allowance: ENTRY, and DL0 and DL1 while WADI_SEL arrives. -/
def allowedVcs (s : State) (port : Nat) : List Nat := 1 :: (if (SMap.find s.rte.wadiSel port).isSome then [2, 3] else [])

/-- Grant a torus port's allowances that it has not granted yet. -/
def grantAllowances (s : State) (port : Nat) : State :=
  if portRole s port = 1 then
    (allowedVcs s port).foldl (fun t vc => [0, 1, 2, 3, 5].foldl (fun u c => grantAllowance u port vc c) t) s
  else s

/-- Grant what a port may grant now: its allowances, its adaptive credits of every class, and its COLL credits. -/
def grantPort (s : State) (port : Nat) : State :=
  if portEth s port || (portRec s port).isNone then s
  else grantColl ([0, 1, 2, 3, 5].foldl (fun t c => grantClass t port c) (grantAllowances s port)) port

/-- Grant what the ports of a scope may grant now. -/
def grantScope (s : State) (p : Nat) : State :=
  ((s.img.cfg.ports.filter (fun r => portScope s r.num == p)).map (·.num)).foldl grantPort s

/-- Whether a scope's allowances of a class in a dune exceed its budget, or its reserve exceeds XOFF: WADI_BUDGET (R168, R169). -/
def wadiBudgetBad (s : State) (d p c : Nat) : Bool :=
  decide (poolBudget s d p c < allowances s d p c) || decide (xoffOf s d p c < (rsvCells s d p c : Nat))

/-- Set WADI_BUDGET where a class of a scope is over its budget in a dune; `dir` and `port` are what the event names. -/
def checkBudget (s : State) (d p dir port : Nat) : State :=
  if s.img.cfg.torus.dims != 0 && [0, 1, 2, 3, 5].any (wadiBudgetBad s d p) then rteEvent s F.RTE_EVT_WADI_BUDGET dir port else s

/-- RTE_WADI_RSV is applied: at a link attestation or a dune enable (R184). -/
def latchRsv (s : State) : State := { s with rte := { s.rte with rsv := rd s Reg.RTE_WADI_RSV } }

/-- A port's link is attested: its allowances and credits are granted, and the budgets are looked at (R168, R184). -/
def grantEntry (s : State) (port : Nat) : State :=
  checkBudget (grantPort (latchRsv s) port) (portDune s port) (portScope s port) ((portDir s port).getD 0xFF) port

/-- Give a landing room's credit back: it may be used again at once (R168). -/
def returnRoom (s : State) (p cls vc n : Nat) : State :=
  if vc = 0 then s
  else setReturns (setGranted s p cls vc (granted s p cls vc + n)) p cls vc (returnsPending s p cls vc + n)

/-- What follows when a packet has left its ingress slice: a landing room's credit returns while its allowance stands, and new credits
may be granted. -/
def leftSlice (s : State) (p cls vc n : Nat) : State :=
  grantPort (if vc != 0 && (SMap.find s.swc.allowed (credKey p cls vc)).isSome then returnRoom s p cls vc n else s) p

/-- Forget a port's credits in both directions, when its link goes down. -/
def dropCredits (s : State) (port : Nat) : State :=
  let keep := fun (m : SMap Nat) => SMap.drop (fun k => k / 64 == port) m
  { s with swc := { s.swc with granted := keep s.swc.granted, held := keep s.swc.held, returns := keep s.swc.returns,
                               allowed := keep s.swc.allowed },
           rte := { s.rte with selSent := SMap.del s.rte.selSent port, wadiSel := SMap.del s.rte.wadiSel port } }

/-! ## Punted packets (R139) -/

/-- Free the cells of a FIFO's punted packets that are staged no more: each is freed once it has been written or dropped. -/
def freePunts (s : State) (d n : Nat) : State :=
  let key := d * 2048 + n
  let l := SMap.get (fun _ => []) s.swc.puntStaged key
  let k := ((cnqOf s d n).staged.filter (fun p => p.typ == 0x11)).length
  (l.take (l.length - k)).foldl (fun t p => dischargePkt t d p.scope p.cls p.cells)
    { s with swc := { s.swc with puntStaged := SMap.put (fun _ => []) s.swc.puntStaged key (l.drop (l.length - k)) } }

end Sys2Proof.Machine
end

