-- ==== Sys2Proof/Machine/Route.lean ====
section
/-! DEFINITION. The routing choice: coordinates, candidates, spraying, the escape channel, source and destination
contexts (spec/07: R158 to R175, R180). -/
namespace Sys2Proof.Machine

/-! ## Coordinates (R158, R159) -/

/-- A coordinate in the layout of Table 12.3: X [23:18], Y [17:12], Z [11:6]. -/
def coordOf (x y z : Nat) : Nat := x * 2 ^ 18 + y * 2 ^ 12 + z * 2 ^ 6

/-- Coordinate on a dimension of a coordinate word. -/
def coordAt (c dim : Nat) : Nat := c / 2 ^ (18 - 6 * dim) % 64

/-- A coordinate word with one dimension replaced. -/
def coordSet (c dim v : Nat) : Nat := c - coordAt c dim * 2 ^ (18 - 6 * dim) + v * 2 ^ (18 - 6 * dim)

/-- Number of torus dimensions. -/
def torusDims (s : State) : Nat := s.img.cfg.torus.dims

/-- SIZE of a dimension; 1 where it is unused. -/
def dimSize (s : State) (dim : Nat) : Nat :=
  if dim < torusDims s then (getAt (1, 0, 0) s.img.cfg.torus.axes dim).1 else 1

/-- Own coordinate on a dimension. -/
def ownAt (s : State) (dim : Nat) : Nat := (getAt (1, 0, 0) s.img.cfg.torus.axes dim).2.1

/-- DATELINE of a dimension. -/
def datelineAt (s : State) (dim : Nat) : Nat := (getAt (1, 0, 0) s.img.cfg.torus.axes dim).2.2

/-- The spine's own coordinate. -/
def ownCoord (s : State) : Nat := coordOf (ownAt s 0) (ownAt s 1) (ownAt s 2)

/-- The coordinate that TARGET of a result names: X [17:12], Y [11:6], Z [5:0]. -/
def targetCoord (t : Nat) : Nat := t % 2 ^ 18 * 2 ^ 6

/-- Whether a target is one that a result with ACTION 1h may name (R158). -/
def targetOk (s : State) (c : Nat) : Bool :=
  torusDims s != 0 && c != ownCoord s && (List.range 3).all (fun i => decide (coordAt c i < dimSize s i))

/-- Offset of a target on a dimension (R159). -/
def dimOffset (s : State) (c dim : Nat) : Nat :=
  (coordAt c dim + dimSize s dim - ownAt s dim % dimSize s dim) % dimSize s dim

/-- The minimal directions of a dimension: code 2 × dimension for +, plus 1 for −. -/
def dimDirs (s : State) (c dim : Nat) : List Nat :=
  let n := dimSize s dim
  let o := dimOffset s c dim
  if o = 0 then []
  else if 2 * o < n then [2 * dim] else if n < 2 * o then [2 * dim + 1] else [2 * dim, 2 * dim + 1]

/-- The minimal set of a packet (R159). -/
def minimalDirs (s : State) (c : Nat) : List Nat := (dimDirs s c 0 ++ dimDirs s c 1) ++ dimDirs s c 2

/-! ## The routing table (R160, R161, R180) -/

/-- A routing-table version: 0 A, 1 B. -/
def rteTable (s : State) (v : Nat) : RteTable := getAt RteTable.empty s.rte.tables v

/-- Replace a version. -/
def setRteTable (s : State) (v : Nat) (t : RteTable) : State := { s with rte := { s.rte with tables := setAt s.rte.tables v t } }

/-- The active version. -/
def activeVer (s : State) : Nat := rf s Reg.RTE_STATUS F.RTE_STATUS_ACTIVE

/-- Index of a coordinate's entry (R160). -/
def entryIndex (s : State) (c : Nat) : Nat :=
  coordAt c 0 + dimSize s 0 * (coordAt c 1 + dimSize s 1 * coordAt c 2)

/-- An entry of a version; an unlisted one is 0. -/
def rteEntry (s : State) (v i : Nat) : Nat := (SMap.get (fun _ => 0) (rteTable s v).entries i).toNat

/-- Whether a port's bit is set in a version's spray mask. -/
def sprayBit (s : State) (v p : Nat) : Bool :=
  decide (2048 ≤ p) || bitAt (SMap.get (fun _ => 0) (rteTable s v).mask (p / 32)).toNat (p % 32)

/-- Whether a peer's beacons say that it is held, so that its port is avoided (R393). -/
def avoidPort (s : State) (p : Nat) : Bool :=
  rb s Reg.MGT_CFG F.MGT_CFG_HELD_AVOID && (SMap.find s.mgt.beacons p).isSome

/-- Whether an imposed interval of its swap keeps a port out of the candidate set now: from 10 µs before it to its end (R316). -/
def imposedOut (s : State) (p : Nat) : Bool :=
  match portRec s p with
  | none => false
  | some r =>
    match SMap.find s.sch.groups (r.first / 8) with
    | none => false
    | some g => g.imposed.any (fun e => e.1 == p && decide (e.2.1 ≤ s.clock + 10000 * nsUnit) && decide (s.clock < e.2.1 + e.2.2))

/-- The ready torus ports of a direction in the spray mask, with the ports that are avoided left out unless nothing else
remains (R161, R316, R393). -/
def candPorts (s : State) (v part dir : Nat) : List Nat :=
  let all := (dirPorts s dir).filter (fun p => portReady s p && sprayBit s v p && portScope s p == part)
  let good := all.filter (fun p => !avoidPort s p && !imposedOut s p)
  if good.isEmpty then all.take 1 else good

/-- The candidate directions of a packet (R161). -/
def candDirs (s : State) (v part c misroute : Nat) : List Nat :=
  let e := rteEntry s v (entryIndex s c)
  let minimal := minimalDirs s c
  let allowed := if bitAt e 31 then
      (List.range 6).filter (fun d => bitAt e d && (minimal.contains d || (bitAt e 30 && decide (misroute < 2))))
    else minimal
  allowed.filter (fun d => !(candPorts s v part d).isEmpty)

/-! ## The bypass pool (R321) -/

/-- The tiles of the bypass pool in ascending order. -/
def poolTiles (s : State) : List Nat := (List.range 64).filter (fun t => bitAt s.img.cfg.torus.bypassTiles t)

/-- The tile of fibre pair `q`; 64, no tile, beyond the pool. -/
def pairTile (s : State) (q : Nat) : Nat := getAt 64 (poolTiles s) (q / 2)

/-- The fibre of pair `q` that faces direction `dir` (even directions are +). -/
def pairFibre (q dir : Nat) : Nat := 2 * (q % 2) + dir % 2

/-- First flat lane of an end of a path: of the origin, whose fibre faces the path's direction, or of the target, whose fibre
faces the opposite one. -/
def pathFirst (s : State) (p : Path) : Nat :=
  pairTile s p.pair * 32 + pairFibre p.pair (if p.role = 2 then p.dir + 1 else p.dir) * 8 + p.w0

/-- Whether a port is the express port of a path that its origin is releasing: it is no candidate any more (R325). -/
def portReleased (s : State) (p : Nat) : Bool :=
  s.opt.paths.any (fun x => x.role == 0 && decide (3 ≤ x.st) && 2048 + pathFirst s x == p)

/-- The origin's paths whose express port leaves ready are released (R325). -/
def expressLost (old s : State) : State :=
  let f := fun (x : Path) =>
    if x.role = 0 ∧ x.st = 2 ∧ portReady old (2048 + pathFirst s x) ∧ !portReady s (2048 + pathFirst s x) then { x with st := 3 } else x
  { s with opt := { s.opt with paths := s.opt.paths.map f } }

/-- Ready express ports towards a target for a scope (R161, R324). -/
def expressTo (s : State) (part c : Nat) : List Nat :=
  ((s.rte.expressPorts.filter (fun e => e.2 == c && portReady s e.1.num && !portReleased s e.1.num
    && partOfRipple s (e.1.first / 8) == part)).map (fun e => e.1.num))

/-- The version that routes a packet, and whether it is the fallback (R180). -/
def routeVersion (s : State) (epoch : Nat) : Nat × Bool :=
  if (rteTable s epoch).ever then (epoch, false) else (activeVer s, true)

/-! ## Spraying (R162, R163) -/

/-- One round of a smooth weighted round-robin over (key, weight) candidates: every value is raised by its weight, the
highest is chosen, the first of equals wins, and the sum of the weights is subtracted from it. -/
def swrr (m : SMap Int) (l : List (Nat × Nat)) : Option (Nat × SMap Int) :=
  let val := fun (e : Nat × Nat) => SMap.get (fun _ => 0) m e.1 + (e.2 : Int)
  match l.foldl (fun (b : Option (Nat × Int)) e =>
      match b with
      | none => some (e.1, val e)
      | some x => if x.2 < val e then some (e.1, val e) else some x) none with
  | none => none
  | some best =>
    let total := sumNat (l.map (·.2))
    some (best.1, l.foldl (fun acc e =>
      SMap.put (fun _ => 0) acc e.1 (if e.1 = best.1 then val e - (total : Int) else val e)) m)

/-- Key of a dune's direction round-robin of a class: directions 0 to 5, express ports from 8 up. -/
def dirKey (d cls cand : Nat) : Nat := (d * 8 + cls) * 2 ^ 13 + cand

/-- Key of a dune's port round-robin of a class and direction. -/
def portKey (d cls dir p : Nat) : Nat := 2 ^ 24 + ((d * 8 + cls) * 8 + dir) * 2 ^ 12 + p

/-- W_d of a direction (RTE_DIR_LOAD). -/
def dirWeight (s : State) (dir : Nat) : Nat := rf s (Reg.RTE_DIR_LOAD dir) F.RTE_DIR_LOAD_WEIGHT

/-- The path hash of R163: bits [10:0] of CRC-32C over SRC, DST and CLASS. -/
def pathHash (c : Cfh) : Nat := crc32c (natBe 3 c.src ++ natBe 3 c.dst ++ natBe 1 c.cls) % 2 ^ 11

/-- Choose the output port of a packet: sprayed in turn, or unsprayed by the path hash. The answer is the direction (8 for
an express port) and the port, with the round-robins moved on. -/
def choosePort (s : State) (d v part target misroute : Nat) (sprayed : Bool) (c : Cfh) : Option (State × Nat × Nat) :=
  let dirs := candDirs s v part target misroute
  let exps := expressTo s part target
  if sprayed then
    let cands := dirs.map (fun x => (dirKey d c.cls x, dirWeight s x)) ++ exps.map (fun p => (dirKey d c.cls (8 + p), 256))
    match swrr s.rte.wrr cands with
    | none => none
    | some (k, m) =>
      let x := k % 2 ^ 13
      if 8 ≤ x then some ({ s with rte := { s.rte with wrr := m } }, 8, x - 8)
      else
        let ports := (candPorts s v part x).map (fun p => (portKey d c.cls x p, ((portRec s p).map (·.width)).getD 1))
        match swrr m ports with
        | none => none
        | some (k2, m2) => some ({ s with rte := { s.rte with wrr := m2 } }, x, k2 % 2 ^ 12)
  else
    match dirs with
    | [] => match exps with
      | [] => none
      | p :: _ => some (s, 8, p)
    | x :: _ =>
      let ports := candPorts s v part x
      some (s, x, getAt 0 ports (pathHash c % ports.length))

/-! ## The escape channel (R165, R166) -/

/-- Next direction of a packet in the Wadi channel; none at its target. -/
def wadiDir (s : State) (c : Nat) : Option Nat := (minimalDirs s c).head?

/-- Whether the link in a direction that leaves this spine is its dimension's dateline link (R165). -/
def datelineLink (s : State) (dir : Nat) : Bool :=
  let dim := dir / 2
  let n := dimSize s dim
  let dl := datelineAt s dim
  if dir % 2 = 0 then ownAt s dim == (dl + n - 1) % n else ownAt s dim == dl

/-- VC of a Wadi packet on its next link, given the VC and dimension on which it arrived (none when it enters): 2 DL0, 3 DL1. -/
def wadiVc (s : State) (dir : Nat) (arrived : Option (Nat × Nat)) : Nat :=
  let onDl1 := match arrived with
    | none => false
    | some (vc, dim) => vc == 3 && dim == dir / 2
  if onDl1 || datelineLink s dir then 3 else 2

/-! ## Source contexts (R172) -/

/-- LIFETIME_US in units of the counter (values below 100 act as 100). -/
def lifetime (s : State) : Nat := max 100 (rf s Reg.RTE_CFG F.RTE_CFG_LIFETIME_US) * 1000 * nsUnit

/-- Classes that are sequenced (R172). -/
def sequencedClass (c : Nat) : Bool := decide (c < 5)

/-- What a source context gives a packet: CTX (0 for none), GEN, FLOW_SEQ, START. -/
structure Sequencing where
  ctx : Nat
  gen : Nat
  seq : Nat
  start : Bool
  deriving DecidableEq, Repr

/-- Key of a source key that is sent unsequenced. -/
def srcKey (d part dst cls : Nat) : Nat := ((d * 4096 + part) * 2 ^ 24 + dst) * 8 + cls

/-- The next FLOW_SEQ, skipping 0. -/
def nextSeq (n : Nat) : Nat := if (n + 1) % 2 ^ 32 = 0 then 1 else (n + 1) % 2 ^ 32

/-- Take the next sequence number of a key in an ingress dune, allocating a context for a new key; a new key that finds none free is
counted, and stays unsequenced until it has been idle for half a lifetime (R172). -/
def takeSeq (s : State) (d part dst cls : Nat) : State × Sequencing :=
  let own := s.rte.src.find? (fun e => e.1 / 65536 == d && e.2.live && e.2.part == part && e.2.dst == dst && e.2.cls == cls)
  match own with
  | some (k, x) =>
    let start := decide (lifetime s / 2 ≤ s.clock - x.last)
    let x' := { x with next := nextSeq x.next, last := s.clock }
    ({ s with rte := { s.rte with src := SMap.ins s.rte.src k x' } }, ⟨k % 65536, x.gen, x.next, start⟩)
  | none =>
    let k := srcKey d part dst cls
    let quiet := match SMap.find s.rte.srcLast k with
      | none => true
      | some t => decide (lifetime s / 2 ≤ s.clock - t)
    let busy := s.rte.src.filter (fun e => e.1 / 65536 == d && e.2.live)
    let free := if quiet && decide (busy.length < 65535) then
        ((List.range (busy.length + 1)).map (· + 1)).find? (fun i => !(busy.any (fun e => e.1 % 65536 == i)))
      else none
    match free with
    | none =>
      let s1 := { s with rte := { s.rte with srcLast := SMap.ins s.rte.srcLast k s.clock } }
      (if quiet then rteEvent (bump64 s1 (Reg.RTE_CTX_FULL d) 1) F.RTE_EVT_CTX_FULL 0xFF 0xFFFF else s1, ⟨0, 0, 0, false⟩)
    | some i =>
      let gen := match SMap.find s.rte.src (d * 65536 + i) with
        | none => 0
        | some x => (x.gen + 1) % 4
      let x : SrcCtx := ⟨true, part, dst, cls, 2, gen, s.clock⟩
      ({ s with rte := { s.rte with src := SMap.ins s.rte.src (d * 65536 + i) x, srcLast := SMap.del s.rte.srcLast k } },
        ⟨i, gen, 1, true⟩)

/-! ## Destination contexts (R173 to R175) -/

/-- Whether a destination context of a dune is the one a packet's link header names. -/
def dstIs (d : Nat) (h : LinkHdr) (x : DstCtx) : Bool :=
  x.dune == d && x.origin == coordOf h.originX h.originY h.originZ && x.originDune == h.originDune && x.ctx == h.ctx && x.gen == h.gen

/-- FLOW_SEQ of a packet. -/
def flowSeqOf (p : SwPkt) : Nat := (p.cfh.map (·.flowSeq)).getD 0

/-- Distance of a sequence number ahead of another, modulo 2^32. -/
def seqAhead (a b : Nat) : Nat := (a + 2 ^ 32 - b) % 2 ^ 32

/-- Held packets that follow in sequence from `e`, the next EXPECT, and those that stay held. -/
def releaseRun : Nat → Nat → List SwPkt → List SwPkt × Nat × List SwPkt
  | 0, e, held => ([], e, held)
  | n + 1, e, held =>
    match held.find? (fun p => flowSeqOf p == e) with
    | none => ([], e, held)
    | some p =>
      let r := releaseRun n (nextSeq e) (held.filter (fun x => flowSeqOf x != e))
      (p :: r.1, r.2.1, r.2.2)

/-- Held packets in order of their distance from EXPECT. -/
def heldOrder (e : Nat) (l : List SwPkt) : List SwPkt := sortBy (fun p => seqAhead (flowSeqOf p) e) l

/-- The queue that a packet is linked into: its staging queue if it has one, else the egress queue of its port. -/
def pktQueue (s : State) (p : SwPkt) : Nat :=
  match p.staging with
  | some i => 4096 + i
  | none => portQ s p.outPort p.vcSet p.cls

/-- Pages of so many cells. -/
def pagesOf (n : Nat) : Nat := (n + 15) / 16

/-- The cells of a held packet that went to Oasis are read back: they take on-chip space again, their pages are free and count as
refilled (R127, R174). -/
def unspill (s : State) (d : Nat) (p : SwPkt) : State :=
  match p.inOasis with
  | none => s
  | some (_, n) =>
    let s1 := setPagesUsed (chargePkt s d p.scope p.cls n) d p.scope (pagesUsed s d p.scope - pagesOf n)
    bump64 s1 (Reg.SWC_SPILL_IN d) (pagesOf n)

/-- Link packets in order into their queues; cells held in Oasis are refilled first (R174). -/
def linkAll (d : Nat) : List SwPkt → State → State
  | [], s => s
  | p :: l, s =>
    let s1 := unspill s d p
    linkAll d l (enqueue s1 d (pktQueue s1 p) { p with inOasis := none })

/-- Replace a destination context. -/
def setDst (s : State) (x : DstCtx) (h : LinkHdr) : State :=
  { s with rte := { s.rte with dst := modFirst (dstIs x.dune h) (fun _ => x) s.rte.dst } }

/-- The resequencer: link a charged packet, hold it, or link it with its successors (R173, R174). -/
def resequence (s : State) (d : Nat) (p : SwPkt) : State :=
  let h := p.link
  let late := fun (t : State) => linkAll d [p] (bump64 t (Reg.RTE_RSQ_OOO d) 1)
  if h.ctx = 0 ∨ !sequencedClass p.cls then linkAll d [p] s
  else
    match s.rte.dst.find? (dstIs d h) with
    | none =>
      if h.vc ≠ 0 ∧ h.start = false then linkAll d [p] s
      else if 262144 ≤ (s.rte.dst.filter (fun x => x.dune == d)).length then
        rteEvent (linkAll d [p] (bump64 s (Reg.RTE_RSQ_NOCTX d) 1)) F.RTE_EVT_RSQ_NOCTX 0xFF p.outPort
      else
        let base : DstCtx := ⟨d, coordOf h.originX h.originY h.originZ, h.originDune, h.ctx, h.gen, none, [], s.clock, s.clock⟩
        if h.start then
          linkAll d [p] { s with rte := { s.rte with dst := s.rte.dst ++ [{ base with expect := some (nextSeq (flowSeqOf p)) }] } }
        else { s with rte := { s.rte with dst := s.rte.dst ++ [{ base with held := [p] }] } }
    | some x =>
      match x.expect with
      | none =>
        if h.start then
          let r := releaseRun x.held.length (nextSeq (flowSeqOf p)) x.held
          linkAll d (p :: r.1) (setDst s { x with expect := some r.2.1, held := r.2.2, heldAt := s.clock, last := s.clock } h)
        else if h.vc ≠ 0 then linkAll d [p] (setDst s { x with last := s.clock } h)
        else setDst s { x with held := x.held ++ [p], last := s.clock } h
      | some e =>
        let ahead := seqAhead (flowSeqOf p) e
        if 2 ^ 31 < ahead then late (setDst s { x with last := s.clock } h)
        else if ahead = 0 then
          let r := releaseRun x.held.length (nextSeq e) x.held
          linkAll d (p :: r.1) (setDst s { x with expect := some r.2.1, held := r.2.2, heldAt := s.clock, last := s.clock } h)
        else if h.vc ≠ 0 then
          let before := heldOrder e (x.held.filter (fun q => decide (seqAhead (flowSeqOf q) e < ahead)))
          let rest := x.held.filter (fun q => decide (ahead < seqAhead (flowSeqOf q) e))
          let r := releaseRun rest.length (nextSeq (flowSeqOf p)) rest
          linkAll d (before ++ p :: r.1)
            (setDst s { x with expect := some r.2.1, held := r.2.2, heldAt := s.clock, last := s.clock } h)
        else
          setDst s { x with held := x.held ++ [p], heldAt := if x.held.isEmpty then s.clock else x.heldAt, last := s.clock } h

/-! ## Wadi ports (R167) -/

/-- The port whose set-1 queues hold a direction's Wadi lists: its Wadi port, else the port that last was it, else the one that first
will be (R167). -/
def wadiHolder (s : State) (dir : Nat) : Option Nat :=
  match wadiPort s dir with
  | some p => some p
  | none =>
    let old := rf s (Reg.RTE_WADI_PORT dir) F.RTE_WADI_PORT_PORT
    if (dirPorts s dir).contains old && homeDune s dir == some (portDune s old) then some old else (dirPorts s dir).head?

/-- Move the set-1 queues of the port that has held a direction's lists to its new Wadi port, with the packets on their way to them. -/
def moveWadiLists (s : State) (d old new : Nat) : State :=
  let there := fun (k : SwPkt) => if k.outPort = old ∧ k.vcSet = 1 then { k with outPort := new } else k
  (List.range 6).foldl (fun t c =>
    let a := portQ t old 1 c
    let b := portQ t new 1 c
    let x := hwq t d a
    let y := hwq t d b
    if x.pkts.isEmpty then t
    else
      let z := x.pkts.foldl (fun (acc : HwQueue) e =>
        { acc with pkts := acc.pkts ++ [(acc.nextNo, there e.2)], head := acc.head ++ List.replicate e.2.cells acc.nextNo, nextNo := acc.nextNo + 1 }) y
      setHwq (setHwq t d a { HwQueue.empty with nextNo := x.nextNo, avg := x.avg }) d b z)
    { s with swc := { s.swc with mesh := s.swc.mesh.map there } }

/-- Show a direction's Wadi port as it now is; a new one takes the lists, and with none left WADI_DOWN is raised
(WADI_PORT_TAKEOVER). A port that stops setting WADI_SEL notes when it last did (R168). `old` is the state before. -/
def showWadi (old s : State) (dir : Nat) : State :=
  let a := Reg.RTE_WADI_PORT dir
  let was := rb s a F.RTE_WADI_PORT_VALID
  let prev := rf s a F.RTE_WADI_PORT_PORT
  let up := rf s Reg.RTE_STATUS F.RTE_STATUS_WADI_UP
  let quit := fun (t : State) => if was then { t with rte := { t.rte with selSent := SMap.ins t.rte.selSent prev t.clock } } else t
  match wadiPort s dir with
  | some p =>
    if was && prev == p then s
    else
      let s1 := wfs (quit s) a [(F.RTE_WADI_PORT_VALID, 1), (F.RTE_WADI_PORT_PORT, p)]
      let s2 := wf s1 Reg.RTE_STATUS F.RTE_STATUS_WADI_UP (up - b2n (bitAt up dir) * 2 ^ dir + 2 ^ dir)
      let s3 := { s2 with rte := { s2.rte with selSent := SMap.del s2.rte.selSent p } }
      match wadiHolder old dir with
      | some h => if h != p && portDune s3 h == portDune s3 p then moveWadiLists s3 (portDune s3 p) h p else s3
      | none => s3
  | none =>
    if was then
      let s1 := wf (quit s) a F.RTE_WADI_PORT_VALID 0
      rteEvent (wf s1 Reg.RTE_STATUS F.RTE_STATUS_WADI_UP (up - b2n (bitAt up dir) * 2 ^ dir)) F.RTE_EVT_WADI_DOWN dir 0xFFFF
    else s

/-- Show the Wadi ports of every direction. -/
def showWadis (old s : State) : State := (List.range 6).foldl (showWadi old) s

/-- The ready bits and the Wadi ports after a change; `old` is the state before (READINESS_UPDATE). -/
def settle (old s : State) : State := showWadis old (expressLost old (refreshReady old s))

end Sys2Proof.Machine
end

