-- ==== Sys2Proof/Machine/Trust.lean ====
section
/-! DEFINITION. What the root of trust does for other blocks: the attestation log, debug access, the owner slots and the
mirror epoch (spec/15: R362, R374 to R378). -/
namespace Sys2Proof.Machine

/-! ## The attestation log (R378) -/

/-- The 64 bytes of an entry. A link tag failure carries its port in bytes 16 and 17. -/
def logBytes (e : LogEntry) : List Byte :=
  natBe 1 e.typ ++ natBe 3 0 ++ natBe 4 e.seq ++ natBe 4 (e.sec % 2 ^ 32) ++ natBe 4 e.ns
    ++ (if e.typ = 9 then natBe 2 e.obj ++ natBe 46 0 else natBe 48 e.obj)

/-- Store bytes in a window of registers, four to a word from the most significant; words past the end read 0. -/
def showBytes (reg : Nat → Nat) (words : Nat) (l : List Byte) (s : State) : State :=
  (List.range words).foldl (fun t i => wn t (reg i) (beNat ((((l.drop (4 * i)).take 4) ++ [0, 0, 0, 0]).take 4))) s

/-- Show the entry that SEC_LOG_SEL names; zero if it is not held (Table 15.9). -/
def showLog (s : State) : State :=
  match s.rot.log.find? (fun e => e.seq == rn s Reg.SEC_LOG_SEL) with
  | none => showBytes Reg.SEC_LOGWIN 16 [] s
  | some e => showBytes Reg.SEC_LOGWIN 16 (logBytes e) s

/-- Write an entry: the newest 1,024 are kept, and the digest chain takes it. -/
def secLog (s : State) (typ obj : Nat) : State :=
  let e : LogEntry := ⟨typ, s.rot.logNext, nowSec s, nowNs s, obj⟩
  let full := decide (1024 ≤ s.rot.log.length)
  let rot := { s.rot with log := (if full then s.rot.log.drop 1 else s.rot.log) ++ [e], logNext := s.rot.logNext + 1,
                          logTrunc := s.rot.logTrunc || full, logDigest := Config.sha384 (natBe 48 s.rot.logDigest ++ logBytes e) }
  showLog { s with rot := rot }

/-! ## Owner slots (R362) -/

/-- The highest programmed owner slot. -/
def ownerSlot (s : State) : Option Nat :=
  ((List.range 4).filter (fun i => (getAt none s.otp.ownerSlots i).isSome)).getLast?

/-- The hash of the current owner key. -/
def ownerKey (s : State) : Option Nat := (ownerSlot s).bind (fun i => getAt none s.otp.ownerSlots i)

/-- Show the owner slots in SEC_STATUS. -/
def showOwner (s : State) : State :=
  wfs s Reg.SEC_STATUS [(F.SEC_STATUS_OWNER_SET, b2n (ownerSlot s).isSome), (F.SEC_STATUS_OWNER_SLOT, (ownerSlot s).getD 0)]

/-! ## Debug access (R375, R376) -/

/-- The debug scopes that are open: all from cold reset until the first dune domain is enabled, then those of a token in force. -/
def debugScopes (s : State) : Nat := if s.rot.coldOpen then 3 else if s.rot.token then s.rot.tokenScopes else 0

/-- Show whether debug access is open, and a token's time left where none is in force. -/
def showDebug (s : State) : State :=
  let s1 := wf s Reg.SEC_STATUS F.SEC_STATUS_DEBUG_OPEN (b2n (debugScopes s != 0))
  if s.rot.token then s1 else wn s1 Reg.SEC_DBG_REMAIN 0

/-- Debug access closes in part or whole: a log entry and DEBUG_CLOSED. -/
def debugClosed (s : State) : State := secEvent (secLog (showDebug s) 4 0) F.SEC_EVT_DEBUG_CLOSED (natBe 1 0 ++ natBe 2 0xFFFF)

/-- The token in force ends (R376). -/
def tokenEnd (s : State) : State := if s.rot.token then debugClosed { s with rot := { s.rot with token := false } } else s

/-- The first dune domain is enabled: what cold reset had opened closes; a token in force stays (R375). -/
def debugColdEnd (s : State) : State :=
  if !s.rot.coldOpen then s
  else
    let s1 := { s with rot := { s.rot with coldOpen := false } }
    if s.rot.token then showDebug s1 else debugClosed s1

/-- Sealing closes debug, a token's scopes too (R61, R375). -/
def debugClose (s : State) : State :=
  if s.rot.coldOpen || s.rot.token then debugClosed { s with rot := { s.rot with coldOpen := false, token := false } } else s

/-- A fresh nonce for debug tokens: 32 random bytes. -/
def newDebugNonce (s : State) : State :=
  let t := (List.range 8).foldl (fun t i => wn t (Reg.SEC_DBG_NONCE i) (Config.free (s.free + i))) s
  { t with free := s.free + 8 }

/-- Show the seed that NUM_SEED_SEL selects (R55, Table 11.9). -/
def showSeed (s : State) : State :=
  let v := getAt 0 s.img.cfg.seeds (rf s Reg.NUM_SEED_SEL F.NUM_SEED_SEL_INDEX)
  wn (wn s Reg.NUM_SEED_LO (v % 2 ^ 32)) Reg.NUM_SEED_HI (v / 2 ^ 32 % 2 ^ 32)

/-- Raise MIRROR_EPOCH (R374). -/
def mirrorEpochUp (s : State) : State := wn s Reg.SEC_MIRROR_EPOCH (rn s Reg.SEC_MIRROR_EPOCH + 1)

/-- Seal the image and log what that does (R61, R62, R378). -/
def sealLogged (s : State) : State :=
  if rb s Reg.IMG_STATUS F.IMG_STATUS_SEALED then s
  else
    let s1 := debugClose (secLog (sealNow s) 2 (beNat ((List.range 12).flatMap (fun i => natBe 4 (rn s (Reg.IMG_HASH i))))))
    if s1.rot.minSeq = s.rot.minSeq then s1 else secLog s1 8 (beNat ((List.range 12).flatMap (fun i => natBe 4 (rn s (Reg.IMG_HASH i)))))

end Sys2Proof.Machine
end

