-- ==== Sys2Proof/Machine/Learn.lean ====
section
/-! DEFINITION. Learn events and the relay of learning records (spec/06: R138, R151 to R155, Table 6.2). -/
namespace Sys2Proof.Machine

/-! ## Relaying (R155) -/

/-- The neighbours of a scope: for each torus direction its lowest ready port, and every ready Clos port. -/
def neighbourPorts (s : State) (part : Nat) : List Nat :=
  let torus := (List.range 6).filterMap (fun d => ((dirPorts s d).filter (fun p => portReady s p && portScope s p == part)).head?)
  let clos := sortBy id ((s.img.cfg.ports.filter (fun r => r.role == 2 && portReady s r.num && portScope s r.num == part)).map (·.num))
  torus ++ clos

/-- The neighbour that a port leads to, as one of `neighbourPorts`: ports of one direction share theirs. -/
def sameNeighbour (s : State) (a b : Nat) : Bool :=
  a == b || (portRole s a == 1 && portRole s b == 1 && portDir s a == portDir s b)

/-- A learning message of one record (R151). -/
def learnMsg (s : State) (part : Nat) (r : TblRec) : Cfh × List Byte :=
  let body := natBe 1 1 ++ natBe 1 1 ++ natBe 2 (ownerId s part) ++ natBe 4 0 ++ recBytes r
  (originCfh s 0 (hallPart s part) 0xFFFFFE 0 0 body.length, body)

/-- Send a record to every neighbour of a scope but the one behind a port. -/
def relayRec (s : State) (part : Nat) (except : Option Nat) (r : TblRec) : State :=
  ((neighbourPorts s part).filter (fun p => match except with
    | none => true
    | some e => !sameNeighbour s p e)).foldl (fun t p =>
      let m := learnMsg t part r
      sendOwn t p m.1 m.2) s

/-- The copy of a local learn event that is relayed: ACTION 1h with this spine's coordinate. -/
def relayedCopy (s : State) (r : TblRec) : TblRec :=
  { r with result := if r.op = 2 then r.result else resOf 1 (targetOf (ownCoord s)) }

/-! ## Learn events (R152) -/

/-- Count an event that is discarded in a dune. -/
def learnDrop (s : State) (d : Nat) : State := fwdEvent (bump64 s (Reg.FWD_LEARN_DROP d) 1) d F.FWD_EVT_LEARN_DROP 0 0

/-- Whether a key at a port asks for a learn event: absent, a tombstone, or own with another TARGET. -/
def learnWanted (s : State) (part key port : Nat) : Bool :=
  match emEntry (shadowTabs s part).em key with
  | none => true
  | some e => e.tomb || (e.owner == ownerId s part && resTarget e.result != port)

/-- The record of a learn event. -/
def learnRec (s : State) (part key port op : Nat) : TblRec :=
  let v := match emEntry (shadowTabs s part).em key with
    | none => 1
    | some e => (e.version + 1) % 65536
  { op := op, table := 0, plen := 0, isStatic := false, relay := false, flagsRest := 0, owner := ownerId s part, version := v,
    key := key, keyTail := 0, result := if op = 2 then 0 else resOf 0 port, nhMac := 0, nhVid := 0, vidRest := 0, rest := 0 }

/-- Learn events of a dune in the current µs, up to LEARN_LIMIT of them. -/
def learnRoom (s : State) (d : Nat) : Bool :=
  let us := s.clock / (1000 * nsUnit)
  let c := SMap.get (fun _ => (0, 0)) s.fwd.learnAt d
  decide ((if c.1 = us then c.2 else 0) < rf s Reg.FWD_CFG F.FWD_CFG_LEARN_LIMIT)

/-- Count a learn event of a dune in the current µs. -/
def learnCount (s : State) (d : Nat) : State :=
  let us := s.clock / (1000 * nsUnit)
  let c := SMap.get (fun _ => (0, 0)) s.fwd.learnAt d
  { s with fwd := { s.fwd with learnAt := SMap.ins s.fwd.learnAt d (us, (if c.1 = us then c.2 else 0) + 1) } }

/-- A source seen on a rack-facing port (LEARN_EVENT): learned through the sequencer and relayed, or discarded in HELD and
beyond LEARN_LIMIT. -/
def learnSeen (s : State) (d part key port : Nat) : State :=
  if !learnWanted s part key port then s
  else if held s then learnDrop s d
  else if !learnRoom s d then learnDrop s d
  else
    let r := learnRec s part key port 1
    let a := applyRecord (learnCount s d) .local r
    if a.2 ≤ 1 then relayRec a.1 part none (relayedCopy a.1 r) else a.1

/-- The keys that a scope owns and that name a port, directly or behind a staging queue (ACTION 0h and 4h). -/
def ownKeysAt (s : State) (part port : Nat) : List Nat :=
  ((shadowTabs s part).em.filter (fun e => !e.2.tomb && e.2.owner == ownerId s part && keyPart e.2.key == hallPart s part
    && (resAction e.2.result == 0 || resAction e.2.result == 4) && resPort e.2.result == port)).map (fun e => e.2.key)

/-- A rack-facing port has left ready: its own entries become tombstones at version + 1 (R152); in HELD the events are
discarded and counted (R150). -/
def learnLost (s : State) (port : Nat) : State :=
  if portRole s port ≠ 0 ∨ (portRec s port).isNone then s
  else
    let part := portScope s port
    (ownKeysAt s part port).foldl (fun t k =>
      if held t then learnDrop t (portDune t port)
      else
        let r := learnRec t part k port 2
        let a := applyRecord t .local r
        if a.2 ≤ 1 then relayRec a.1 part none r else a.1) s

end Sys2Proof.Machine
end

