-- ==== Sys2Proof/Machine/Gates.lean ====
section
/-! DEFINITION. Gate lists, the fit rule, guard windows, imposed intervals, shapers and fair queuing (spec/09: R204 to
R221). Instants are in the counter's units of 2^-16 ns. -/
namespace Sys2Proof.Machine

/-! ## Entries (Table 9.1) -/

def gKind (e : Nat) : Nat := bitsAt e 62 2
def gSigEn (e : Nat) : Bool := bitAt e 61
def gSigCnt (e : Nat) : Nat := bitsAt e 49 12
def gGates (e : Nat) : Nat := bitsAt e 40 8
def gDur (e : Nat) : Nat := bitsAt e 0 30

/-- Whether an entry opens a class. -/
def gOpen (c e : Nat) : Bool := gKind e == 0 && bitAt (gGates e) c

/-- Whether an entry is a GUARD. -/
def gGuard (e : Nat) : Bool := gKind e == 1

/-! ## Port groups -/

def PortGroup.empty : PortGroup where
  bank0 := []
  bank1 := []
  list := none
  armed := none
  activatedAt := 0
  imposed := []
  doneTo := 0
  fitWaited := []
  runsSince := 0
  cycles := 0

/-- A port group by flat ripple. -/
def pgOf (s : State) (g : Nat) : PortGroup := (SMap.find s.sch.groups g).getD PortGroup.empty

/-- Replace a port group. -/
def setPg (s : State) (g : Nat) (x : PortGroup) : State := { s with sch := { s.sch with groups := SMap.ins s.sch.groups g x } }

/-- SCH_PG_STATUS of a port group. -/
def pgReg (g : Nat) : Nat := Reg.SCH_PG_STATUS (g / 32) (g % 32)

/-- State code of a port group (Table 9.2). -/
def pgSt (s : State) (g : Nat) : Nat := rf s (pgReg g) F.SCH_PG_STATUS_STATE

/-- The bank that ACTIVE names. -/
def pgActive (s : State) (g : Nat) : Nat := rf s (pgReg g) F.SCH_PG_STATUS_ACTIVE

/-- A bank of a port group. -/
def pgBank (x : PortGroup) (b : Nat) : SMap Nat := if b = 0 then x.bank0 else x.bank1

/-- The entries of a list. -/
def geomEntries (x : PortGroup) (k : GateGeom) : List Nat :=
  (List.range k.count).map (SMap.get (fun _ => 0) (pgBank x k.bank))

/-- The port group of a port. -/
def portGroup (s : State) (p : Nat) : Nat := ((portRec s p).map (fun r => r.first / 8)).getD 0

/-- The list that gates a group now: the running list in RUNNING and CHANGE (R210). -/
def gateList (s : State) (g : Nat) : Option GateGeom :=
  if pgSt s g = 2 ∨ pgSt s g = 3 then (pgOf s g).list else none

/-! ## Runs of entries -/

/-- The lengths of the maximal runs of entries that `p` accepts, in ns, in a list read once. -/
def runsOf (p : Nat → Bool) : List Nat → Nat → List Nat
  | [], acc => [acc]
  | e :: l, acc => if p e then runsOf p l (acc + gDur e) else acc :: runsOf p l 0

/-- The longest contiguous run that `p` accepts, wrapping from the last entry to the first; none where every entry is
accepted. -/
def longestRun (p : Nat → Bool) (l : List Nat) : Option Nat :=
  if l.all p then none else some (maxNat (runsOf p (l ++ l) 0))

/-- Whether a list of entries is valid for a port group, but for its capacity (R207, R208, Table 9.1). -/
def listShapeOk (s : State) (g cycle : Nat) (l : List Nat) : Bool :=
  decide (1 ≤ l.length) && decide (1000 ≤ cycle ∧ cycle ≤ 10 ^ 9) && sumNat (l.map gDur) == cycle
  && l.all (fun e => decide (gKind e ≤ 1) && !bitAt e 48 && decide (gGates e < 128) && bitsAt e 30 10 == 0
      && decide (1 ≤ gDur e ∧ gDur e ≤ 10 ^ 9) && (gKind e == 0 || gGates e == 0)
      && (!gSigEn e || (gSigCnt e != 0xFFF && counterScope s (g / 32) (gSigCnt e) == partOfRipple s g)))
  && (List.range 6).all (fun c => match longestRun (gOpen c) l with
      | none => true
      | some n => decide (300 ≤ n))

/-- Whether a list of entries is valid for a port group and fits a bank of 4,096 entries (R207, R208). -/
def listOk (s : State) (g cycle : Nat) (l : List Nat) : Bool := decide (l.length ≤ 4096) && listShapeOk s g cycle l

/-! ## The gate state at an instant -/

/-- Walk to the entry that is in force `off` ns into the cycle: its index and how far into it. -/
def walkEntry : List Nat → Nat → Nat → Nat × Nat
  | [], i, off => (i, off)
  | e :: l, i, off => if off < gDur e then (i, off) else walkEntry l (i + 1) (off - gDur e)

/-- The entry in force at an instant, and the instant at which it began. -/
def entryAt (x : PortGroup) (k : GateGeom) (t : Nat) : Nat × Nat :=
  let c := k.cycle * nsUnit
  let into := (t - k.base) % c
  let w := walkEntry (geomEntries x k) 0 (into / nsUnit)
  (w.1, t - (w.2 * nsUnit + into % nsUnit))

/-- Whether a class's gate is open at an instant (R207, R210). -/
def gateOpenAt (s : State) (g c t : Nat) : Bool :=
  match gateList s g with
  | none => c != 5
  | some k => gOpen c (getAt 0 (geomEntries (pgOf s g) k) (entryAt (pgOf s g) k t).1)

/-- Whether an instant lies in a guard window of a group (R214). -/
def guardAt (s : State) (g t : Nat) : Bool :=
  match gateList s g with
  | none => false
  | some k => gGuard (getAt 0 (geomEntries (pgOf s g) k) (entryAt (pgOf s g) k t).1)

/-- How long from the start of entry `i` until an entry begins that `p` refuses, in ns, following the list around once;
none where no entry is refused. -/
def runFrom (p : Nat → Bool) (l : List Nat) (i : Nat) : Option Nat :=
  if l.all p then none
  else some (sumNat (((l.drop i ++ l).takeWhile p).map gDur))

/-- The first instant after `t` at which an entry with the class's gate closed begins in a list. -/
def closeAfter (x : PortGroup) (k : GateGeom) (c t : Nat) : Option Nat :=
  let e := entryAt x k t
  (runFrom (gOpen c) (geomEntries x k) e.1).map (fun n => e.2 + n * nsUnit)

/-- The least of two optional instants. -/
def soonest : Option Nat → Option Nat → Option Nat
  | none, b => b
  | a, none => a
  | some a, some b => some (min a b)

/-- The end of the window that the lists set for a class at `t`: the next closing entry, or an armed base change (R213). -/
def listEnd (s : State) (g c t : Nat) : Option Nat :=
  let x := pgOf s g
  let armed := if pgSt s g = 1 ∨ pgSt s g = 3 then x.armed else none
  let own := match gateList s g with
    | none => none
    | some k => closeAfter x k c t
  match armed with
  | none => own
  | some a =>
    if a.base ≤ t then own
    else
      match own with
      | some e => if e < a.base then some e
                  else if gOpen c (getAt 0 (geomEntries x a) 0) then closeAfter x a c a.base else some a.base
      | none => if gOpen c (getAt 0 (geomEntries x a) 0) then closeAfter x a c a.base else some a.base

/-- The start of the first imposed interval of a port that has not ended at `t` (R215). -/
def imposedStart (s : State) (p t : Nat) : Option Nat :=
  ((pgOf s (portGroup s p)).imposed.filter (fun e => e.1 == p && decide (t < e.2.1 + e.2.2))).foldl
    (fun o e => soonest o (some e.2.1)) none

/-- The start of the next imposed interval of a port after `t`; `t` itself inside one (R215). -/
def imposedEnd (s : State) (p t : Nat) : Option Nat := (imposedStart s p t).map (max t)

/-- Whether a port has a gate list: an express port, on lanes that belong to no port of the image, is never gated (R53, R215). -/
def portGated (p : Nat) : Bool := decide (p < 2048)

/-- Whether a port's group is in a guard window at an instant (R214). -/
def portGuard (s : State) (p t : Nat) : Bool := portGated p && guardAt s (portGroup s p) t

/-- The instant E of the fit rule for a class of a port (R213). -/
def windowEnd (s : State) (p c t : Nat) : Option Nat := soonest (listEnd s (portGroup s p) c t) (imposedEnd s p t)

/-- Wire bytes of a packet on a port: 272 a cell in fabric mode, the frame and 20 bytes in Ethernet mode (R206). -/
def wireBytes (eth : Bool) (cells bytes : Nat) : Nat := if eth then bytes + 20 else 272 * cells

/-- Wire time of B bytes on W lanes, in units of 2^-16 ns (R206). -/
def wireTime (b w : Nat) : Nat := b * 2048 / w

/-- Whether a packet of a class may start at `t` (R213); an express port has no gate list, but starts nothing that would end after the
start of an interval imposed on it (R316). -/
def fitsAt (s : State) (p c t wire : Nat) : Bool :=
  let gated := portGated p
  (!gated || gateOpenAt s (portGroup s p) c t) &&
    (if gated then windowEnd s p c t else imposedEnd s p t).all (fun e => decide (t + wire ≤ e))

/-! ## Guard windows (R214) -/

/-- The entries of a list from a cycle start on, with the instants at which they begin. -/
def timedEntries : List Nat → Nat → List (Nat × Nat)
  | [], _ => []
  | e :: l, t => (t, e) :: timedEntries l (t + gDur e * nsUnit)

/-- The first guard window that starts at `from_` or later in a timed list, given whether the entry before it was a guard:
its start and length in ns. -/
def firstGuard (from_ : Nat) : List (Nat × Nat) → Bool → Option (Nat × Nat)
  | [], _ => none
  | (t, e) :: l, before =>
    if gGuard e && !before && decide (from_ ≤ t) then
      some (t, sumNat ((((t, e) :: l).takeWhile (fun x => gGuard x.2)).map (fun x => gDur x.2)))
    else firstGuard from_ l (gGuard e)

/-- The next guard window of a group that starts at least `ahead` ns ahead and ends before any armed base change. -/
def nextGuard (s : State) (g ahead : Nat) : Option (Nat × Nat) :=
  match gateList s g with
  | none => none
  | some k =>
    let x := pgOf s g
    let from_ := s.clock + ahead * nsUnit
    let c := k.cycle * nsUnit
    let start := k.base + (from_ - k.base) / c * c
    let l := geomEntries x k
    let before := gGuard (l.getLastD 0)
    match firstGuard from_ (timedEntries (l ++ l ++ l) start) before with
    | none => none
    | some w =>
      match (if pgSt s g = 3 then x.armed else none) with
      | none => some w
      | some a => if w.1 + w.2 * nsUnit ≤ a.base then some w else none

/-- The guard windows of a timed list, given whether the entry before it was a guard. -/
def guardWindows : List (Nat × Nat) → Bool → List (Nat × Nat)
  | [], _ => []
  | (t, e) :: l, before =>
    let rest := guardWindows l (gGuard e)
    if gGuard e && !before then (t, sumNat ((((t, e) :: l).takeWhile (fun x => gGuard x.2)).map (fun x => gDur x.2))) :: rest else rest

/-- Start of the next guard window of a group that is at least 2 µs long, starts at `from_` or later and ends before any armed
base change (R315). -/
def swapWindow (s : State) (g from_ : Nat) : Option Nat :=
  match gateList s g with
  | none => none
  | some k =>
    let x := pgOf s g
    let c := k.cycle * nsUnit
    let start := k.base + (from_ - k.base) / c * c
    let l := geomEntries x k
    let fits := fun (w : Nat × Nat) => decide (from_ ≤ w.1) && decide (2000 ≤ w.2)
      && (match (if pgSt s g = 3 then x.armed else none) with
        | none => true
        | some a => decide (w.1 + w.2 * nsUnit ≤ a.base))
    ((guardWindows (timedEntries (l ++ l ++ l) start) (gGuard (l.getLastD 0))).find? fits).map (·.1)

/-- Cycles that a group has started since its active bank took effect; none starts while the list is suspended (DEDUCED, log 213). -/
def cyclesNow (s : State) (g : Nat) : Nat :=
  let x := pgOf s g
  match gateList s g with
  | none => x.cycles
  | some k => x.cycles + (s.clock - x.runsSince) / (k.cycle * nsUnit) + 1

/-- Show SCH_PG_GUARD, CUR_ENTRY and SCH_PG_CYCNT of a group. -/
def showPg (s : State) (g : Nat) : State :=
  let d := g / 32
  let i := g % 32
  let w := (nextGuard s g 1000).getD (0, 0)
  let s1 := wn (wn (wn s (Reg.SCH_PG_GUARD_SEC d i) (w.1 / secUnit)) (Reg.SCH_PG_GUARD_NS d i) (w.1 / nsUnit % 10 ^ 9))
    (Reg.SCH_PG_GUARD_LEN d i) w.2
  wn (wf s1 (pgReg g) F.SCH_PG_STATUS_CUR_ENTRY (((gateList s g).map (fun k => (entryAt (pgOf s g) k s.clock).1)).getD 0))
    (Reg.SCH_PG_CYCNT d i) (cyclesNow s g % 2 ^ 32)

/-- Move a group to a state. -/
def setPgSt (s : State) (g st : Nat) : State := showPg (wf s (pgReg g) F.SCH_PG_STATUS_STATE st) g

/-- Set RESULT of a group. -/
def setPgResult (s : State) (g r : Nat) : State := wf s (pgReg g) F.SCH_PG_STATUS_RESULT r

/-! ## Entry starts (R209) -/

/-- How many times the instant `base + off`, repeated every `cycle`, falls in [lo, hi]. -/
def startsIn (base off cycle lo hi : Nat) : Nat :=
  let first := base + off
  let upTo := fun (t : Nat) => if t < first then 0 else (t - first) / cycle + 1
  upTo hi - (if lo = 0 then 0 else upTo (lo - 1))

/-- Add the starts of the entries with SIG_EN that fell in [lo, hi], entry by entry. -/
def sigStarts (d : Nat) (k : GateGeom) (lo hi : Nat) : List (Nat × Nat) → State → State
  | [], s => s
  | (off, e) :: l, s =>
    let n := if gSigEn e then startsIn k.base off (k.cycle * nsUnit) lo hi else 0
    sigStarts d k lo hi l (if n = 0 then s else addCounter s d (gSigCnt e) n)

/-- Run a group's entry starts up to an instant; none is run twice (R209). -/
def runEntriesTo (s : State) (g to_ : Nat) : State :=
  match gateList s g with
  | none => s
  | some k =>
    let x := pgOf s g
    if to_ < x.doneTo then s
    else
      let s1 := sigStarts (g / 32) k x.doneTo to_ (timedEntries (geomEntries x k) 0) s
      setPg s1 g { pgOf s1 g with doneTo := to_ + 1 }

/-- Run a group's entry starts up to now: a step forward runs those it jumped over (R209). -/
def runEntries (s : State) (g : Nat) : State := if (gateList s g).isNone then s else showPg (runEntriesTo s g s.clock) g

/-- A step of the counter with packets in flight: each completes, and one that ends in a window closed to it is counted (R209). -/
def overrun (old : State) (s : State) (e : Nat × (Nat × Nat)) : State :=
  if e.2.2 ≤ old.clock then s
  else
    let fin := s.clock + (e.2.2 - old.clock)
    let g := portGroup s e.1
    let s1 := { s with sch := { s.sch with sending := SMap.ins s.sch.sending e.1 (e.2.1, fin) } }
    if !portGated e.1 || gateOpenAt s1 g e.2.1 (fin - 1) then s1
    else schEvent (bump64 s1 (Reg.SCH_OVERRUN (g / 32) (g % 32)) 1) (g / 32) F.SCH_EVT_OVERRUN (g % 32)

/-! ## Changes of state (Table 9.2) -/

/-- The armed list of a group takes effect at its BASE, once the starts of the old list's entries before it have been run (R209,
R212). -/
def gateTakeEffect (s : State) (g : Nat) : State :=
  match (pgOf s g).armed with
  | none => s
  | some a =>
    let s0 := runEntriesTo s g (a.base - 1)
    let s1 := setPg s0 g { pgOf s0 g with list := some a, armed := none, doneTo := a.base, fitWaited := [], runsSince := a.base, cycles := 0 }
    let s2 := setPgResult (wf s1 (pgReg g) F.SCH_PG_STATUS_ACTIVE a.bank) g 2
    runEntries (schEvent (setPgSt s2 g 2) (g / 32) F.SCH_EVT_CHG_DONE (g % 32)) g

/-- The first cycle start of a list at or after an instant. -/
def cycleStartFrom (k : GateGeom) (t : Nat) : Nat :=
  if t ≤ k.base then k.base else k.base + (t - k.base + k.cycle * nsUnit - 1) / (k.cycle * nsUnit) * (k.cycle * nsUnit)

/-- The instant at which a suspended list resumes (R221). -/
def resumeAt (s : State) (g : Nat) (k : GateGeom) : Nat :=
  cycleStartFrom k (max s.tim.readyAt (pgOf s g).activatedAt + 100000 * nsUnit)

/-- TIM_READY has cleared: the group is suspended and an armed bank discarded (R194, Table 9.2). -/
def suspendPg (s : State) (g : Nat) : State :=
  if pgSt s g = 1 ∨ pgSt s g = 2 ∨ pgSt s g = 3 then
    let x := pgOf s g
    let s1 := if x.armed.isSome then setPgResult s g 6 else s
    let s2 := setPgSt (setPg s1 g { x with armed := none, cycles := cyclesNow s g }) g 4
    schEvent s2 (g / 32) F.SCH_EVT_SUSPENDED (g % 32)
  else s

/-- TIM_READY has set: a suspended group without a list is in NONE (Table 9.2). -/
def unsuspendPg (s : State) (g : Nat) : State :=
  if pgSt s g = 4 ∧ (pgOf s g).list.isNone then setPgSt s g 0 else s

/-- Declare an idle interval of `len` ns at an instant on a port (IMPOSED_INTERVAL, R215); intervals that have ended are
forgotten. -/
def imposeInterval (s : State) (p at_ len : Nat) : State :=
  let g := portGroup s p
  let x := pgOf s g
  setPg s g { x with imposed := x.imposed.filter (fun e => decide (s.clock < e.2.1 + e.2.2)) ++ [(p, at_, len * nsUnit)] }

/-! ## Shapers (R217) -/

/-- One byte in the token unit. -/
def shapeByte : Nat := 8000 * 65536

/-- Key of a port's shaper of a class, by flat first lane. -/
def shapeKey (lane c : Nat) : Nat := lane * 8 + c

def shapeRate (s : State) (lane c : Nat) : Nat := rf s (Reg.SCH_SHP_RATE (lane / 256) (lane % 256) c) F.SCH_SHP_RATE_RATE
def shapeBurst (s : State) (lane c : Nat) : Nat := rf s (Reg.SCH_SHP_BURST (lane / 256) (lane % 256) c) F.SCH_SHP_BURST_BURST

/-- TOKENS of a shaper brought up to now, in the token unit. -/
def shapeNow (s : State) (lane c : Nat) : Int :=
  let x := SMap.get (fun _ => ((0 : Int), 0)) s.sch.shapers (shapeKey lane c)
  min (shapeBurst s lane c * shapeByte : Nat) (x.1 + (shapeRate s lane c * (s.clock - x.2) : Nat))

/-- Set TOKENS, and show them in whole bytes. -/
def setTokens (s : State) (lane c : Nat) (t : Int) : State :=
  let s1 := { s with sch := { s.sch with shapers := SMap.ins s.sch.shapers (shapeKey lane c) (t, s.clock) } }
  wn s1 (Reg.SCH_SHP_TOKENS (lane / 256) (lane % 256) c) (encodeSigned 32 (t / (shapeByte : Nat)))

/-- Whether a class's head conforms. -/
def shapeOk (s : State) (lane c : Nat) : Bool := shapeRate s lane c == 0 || decide (0 ≤ shapeNow s lane c)

/-- A decision at a port brings the tokens of its shapers up to date (R217). -/
def shapeAll (s : State) (lane : Nat) : State :=
  (List.range 7).foldl (fun t c => if shapeRate t lane c = 0 then t else setTokens t lane c (shapeNow t lane c)) s

/-- Take a packet's wire bytes from its shaper. -/
def shapeTake (s : State) (lane c b : Nat) : State :=
  if shapeRate s lane c = 0 then s else setTokens s lane c (shapeNow s lane c - (b * shapeByte : Nat))

/-! ## Fair queuing (R218) -/

/-- Whether tag `a` is smaller than tag `b`. -/
def tagBefore (a b : Nat) : Bool :=
  let n := (b + 2 ^ 48 - a) % 2 ^ 48
  decide (1 ≤ n ∧ n < 2 ^ 47)

/-- Key of the queue arbiter of a port's class. -/
def queueArb (lane c : Nat) : Nat := lane * 16 + c
/-- Key of the class arbiter of a port's priority. -/
def classArb (lane prio : Nat) : Nat := lane * 16 + 8 + prio

def vtimeOf (s : State) (k : Nat) : Nat := SMap.get (fun _ => 0) s.sch.vtime k

/-- Give members that have become non-empty the tag V, and drop the tags of empty ones; a queue's own tag is discarded as it leaves
(`setHwq`). -/
def joinMembers (s : State) (arb : Nat) : List (Nat × Bool) → State
  | [] => s
  | (k, busy) :: l =>
    let tags := if busy then (if (SMap.find s.swc.tags k).isSome then s.swc.tags else SMap.ins s.swc.tags k (vtimeOf s arb))
                else SMap.del s.swc.tags k
    joinMembers { s with swc := { s.swc with tags := tags } } arb l

/-- The member with the smallest tag among (tag key, name), the first of equals. -/
def smallestTag (s : State) (l : List (Nat × Nat)) : Option (Nat × Nat) :=
  l.foldl (fun o e => match o with
    | none => some e
    | some b => if tagBefore ((SMap.find s.swc.tags e.1).getD 0) ((SMap.find s.swc.tags b.1).getD 0) then some e else some b) none

/-- A packet of `b` wire bytes starts from a member of weight `w`: V ← S, S ← S + floor(B × 256 / w). -/
def serveMember (s : State) (arb key b w : Nat) : State :=
  let t := (SMap.find s.swc.tags key).getD 0
  { s with sch := { s.sch with vtime := SMap.put (fun _ => 0) s.sch.vtime arb t },
           swc := { s.swc with tags := SMap.ins s.swc.tags key ((t + b * 256 / max 1 w) % 2 ^ 48) } }

end Sys2Proof.Machine
end

