-- ==== Sys2Proof/Machine/Clock.lean ====
section
/-! DEFINITION. The Sandglass states, their ready bits and the choice of a source (spec/08: R189 to R199). Offsets are in
the counter's units of 2^-16 ns. -/
namespace Sys2Proof.Machine

/-! ## States (Table 8.2) -/

def timFree : Nat := 0
def timAcquiring : Nat := 1
def timTrack : Nat := 2
def timLocked : Nat := 3
def timFineSt : Nat := 4
def timHoldover : Nat := 5

/-- TIM_STATUS.STATE. -/
def timSt (s : State) : Nat := rf s Reg.TIM_STATUS F.TIM_STATUS_STATE

/-- Move to a state; entering HOLDOVER is an event and starts the bound's clock (R198). -/
def setTimSt (s : State) (st : Nat) : State :=
  let was := timSt s
  let s1 := wf s Reg.TIM_STATUS F.TIM_STATUS_STATE st
  if st = timHoldover ∧ was ≠ timHoldover then timEvent { s1 with tim := { s1.tim with holdAt := s1.clock } } F.TIM_EVT_HOLDOVER else s1

/-- EVER_READY. -/
def everReady (s : State) : Bool := rb s Reg.TIM_STATUS F.TIM_STATUS_EVER_READY

/-- TIM_FINE. -/
def timFine (s : State) : Bool := rb s Reg.PLT_READY_SUM F.PLT_READY_SUM_TIM_FINE

/-- Set or clear TIM_FINE with its event; ALL_READY follows (R74). -/
def setTimFine (s : State) (b : Bool) : State :=
  if timFine s == b then s
  else refreshReady s (timEvent (wf s Reg.PLT_READY_SUM F.PLT_READY_SUM_TIM_FINE (b2n b)) F.TIM_EVT_FINE_CHG)

/-- Set or clear TIM_READY with its event. Setting it sets EVER_READY and frees groups without a list; clearing it suspends
every gate list (TIM_READY_CLEAR, R194). -/
def setTimReady (s : State) (b : Bool) : State :=
  if timReady s == b then s
  else
    let s1 := refreshReady s (timEvent (wf s Reg.PLT_READY_SUM F.PLT_READY_SUM_TIM_READY (b2n b)) F.TIM_EVT_READY_CHG)
    if b then
      let s2 := { wf s1 Reg.TIM_STATUS F.TIM_STATUS_EVER_READY 1 with tim := { s1.tim with readyAt := s1.clock } }
      (s2.sch.groups.map (·.1)).foldl unsuspendPg s2
    else (s1.sch.groups.map (·.1)).foldl suspendPg s1

/-! ## Sources (R189) -/

/-- TIM_CFG.DOMAIN; larger values act as 127. -/
def ptpDomain (s : State) : Nat := min 127 (rf s Reg.TIM_CFG F.TIM_CFG_DOMAIN)

/-- TIM_STEP_TH in the counter's units; values outside 1 to 10^9 act as the nearest limit. -/
def stepTh (s : State) : Nat := min (10 ^ 9) (max 1 (rf s Reg.TIM_STEP_TH F.TIM_STEP_TH_NS)) * nsUnit

/-- Whether a data set is better than another: the first field that differs decides, and the lower value wins. -/
def dsBetter (a b : PtpDs) : Bool :=
  let l := fun (x : PtpDs) => [x.prio1, x.clockClass, x.accuracy, x.variance, x.prio2, x.identity, x.steps, x.sender]
  let rec go : List Nat → List Nat → Bool
    | x :: xs, y :: ys => if x < y then true else if y < x then false else go xs ys
    | _, _ => false
  go (l a) (l b)

/-- The best of a list of sources by data set. -/
def bestOf (l : List TimSource) : Option TimSource :=
  l.foldl (fun o x => match o with
    | none => some x
    | some b => if dsBetter x.ds b.ds then some x else some b) none

/-- The identity of the module's clock: its serial number's low 64 bits (PRESUMED, log 38). -/
def ownClockId (s : State) : Nat := s.otp.serial % 2 ^ 64

/-- The data set of the module's own clock; clockClass 248 (R189, R195; the other values log 38). -/
def ownDs (s : State) : PtpDs := ⟨128, 248, 0xFE, 0xFFFF, 128, ownClockId s, 0, ownClockId s, rf s Reg.TIM_UTC_OFS F.TIM_UTC_OFS_OFS⟩

/-- The source that the best master clock algorithm selects among those better than the own clock, a refused one only where no other is
heard (R189, R195). -/
def bestSource (s : State) : Option TimSource :=
  let l := s.tim.sources.filter (fun x => dsBetter x.ds (ownDs s))
  match bestOf (l.filter (fun x => !x.refused)) with
  | some x => some x
  | none => bestOf l

/-- Whether a source is the one of a kind and port. -/
def sourceIs (k p : Nat) (x : TimSource) : Bool := x.kind == k && x.port == p

/-- A source that has been heard. -/
def sourceOf (s : State) (k p : Nat) : Option TimSource := s.tim.sources.find? (sourceIs k p)

/-- The current source. -/
def curSource (s : State) : Option TimSource := s.tim.cur.bind (fun c => sourceOf s c.1 c.2)

/-- Change a source. -/
def modSource (s : State) (k p : Nat) (f : TimSource → TimSource) : State :=
  { s with tim := { s.tim with sources := modFirst (sourceIs k p) f s.tim.sources } }

/-- Show the current source in TIM_STATUS and TIM_UTC_OFS. -/
def showSource (s : State) : State :=
  match curSource s with
  | none => wfs s Reg.TIM_STATUS [(F.TIM_STATUS_SRC_KIND, 0), (F.TIM_STATUS_SRC_PORT, 0), (F.TIM_STATUS_REFUSED, 0)]
  | some x => wf (wfs s Reg.TIM_STATUS [(F.TIM_STATUS_SRC_KIND, x.kind), (F.TIM_STATUS_SRC_PORT, if x.kind = 1 then x.port else 0),
      (F.TIM_STATUS_REFUSED, b2n x.refused)]) Reg.TIM_UTC_OFS F.TIM_UTC_OFS_OFS x.ds.utc

/-- Select the source anew (Table 8.2, R195): a change is an event; FREE goes to ACQUIRE or TRACK; with no source left,
ACQUIRE goes to FREE and a following state to HOLDOVER. -/
def selectSource (s : State) : State :=
  let new := (bestSource s).map (fun x => (x.kind, x.port))
  let s1 := showSource { s with tim := { s.tim with cur := new } }
  let s2 := if new = s.tim.cur then s1 else if new.isSome then timEvent s1 F.TIM_EVT_SOURCE_CHANGE else s1
  let st := timSt s2
  if new.isSome then
    (if st = timFree then setTimSt s2 (if everReady s2 then timTrack else timAcquiring) else s2)
  else if st = timAcquiring then setTimSt s2 timFree
  else if st = timTrack ∨ st = timLocked ∨ st = timFineSt then setTimFine (setTimSt s2 timHoldover) false
  else s2

/-- A source is lost: it is forgotten, and another is selected or the clock coasts (R190, R195). -/
def sourceLost (s : State) (k p : Nat) : State :=
  if (sourceOf s k p).isNone then s
  else selectSource { s with tim := { s.tim with sources := s.tim.sources.filter (fun x => !sourceIs k p x),
                                                  foreign := s.tim.foreign.filter (fun x => !(x.kind == k && x.port == p)) } }

/-! ## The holdover bound (R198) -/

/-- The bound's growth in ns per second. -/
def holdRate (s : State) : Nat :=
  if rb s Reg.TIM_STATUS F.TIM_STATUS_REF_OK then max 1 (rf s Reg.TIM_HOLD_CFG F.TIM_HOLD_CFG_REF_RATE)
  else if s.tim.moving then 50 else 20

/-- Let the bound grow to now and show it, in ps, saturating. -/
def growBound (s : State) : State :=
  let b := s.tim.holdBound + (s.clock - s.tim.holdAt) * holdRate s / 10 ^ 6
  wn { s with tim := { s.tim with holdBound := b, holdAt := s.clock } } Reg.TIM_HOLD_ERR (min (2 ^ 32 - 1) (b / 65536))

/-- Start the bound at the offset that an accepted update left (R198). -/
def startBound (s : State) (theta : Nat) : State :=
  let b := theta * 1000
  wn { s with tim := { s.tim with holdBound := b, holdAt := s.clock } } Reg.TIM_HOLD_ERR (min (2 ^ 32 - 1) (b / 65536))

end Sys2Proof.Machine
end

