-- ==== Sys2Proof/Machine/Links.lean ====
section
/-! DEFINITION. Links between ports: their states, what a link going down takes with it, and the start of a handshake
(spec/15: R366, R367, Table 15.5; spec/03: Table 3.4; spec/13: R311). -/
namespace Sys2Proof.Machine

/-- A lane that has never been started. -/
def LaneSt.empty : LaneSt where
  txExcl := []
  rxExcl := []
  txAt := 0
  rxAt := 0
  txFails := 0
  rxFails := 0
  bias := 0
  okSince := none
  spare := none
  spareSince := none
  swap := none
  reportAt := 0
  peerLocked := false

/-- A lane's loops. -/
def laneOf (s : State) (l : Nat) : LaneSt := (SMap.find s.opt.lanes l).getD LaneSt.empty

/-- A link that has never been up. -/
def SecLink.empty : SecLink where
  st := 0
  since := 0
  nonce := 0
  peerSerial := 0
  gotHello := false
  gotCert := false
  sentFinish := false
  txEpoch := 0
  txFrame := 0
  txCells := 0
  txNext := none
  rxEpoch := 0
  rxFrame := 0
  rxNext := none
  rx := []

/-- A port's link. -/
def linkOf (s : State) (p : Nat) : SecLink := (SMap.find s.sec.links p).getD SecLink.empty

/-- Replace a port's link and show its state; an express port has no SEC_LINK register. -/
def setLink (s : State) (p : Nat) (x : SecLink) : State :=
  let s1 := { s with sec := { s.sec with links := SMap.ins s.sec.links p x } }
  if p < 2048 then
    wfs s1 (Reg.SEC_LINK p) [(F.SEC_LINK_STATE, x.st), (F.SEC_LINK_EPOCH, x.txEpoch)]
  else s1

def linkOff : Nat := 0
def linkHandshake : Nat := 1
def linkRefused : Nat := 2
def linkUp : Nat := 3

/-- State of a port's link (Table 15.5). -/
def linkSt (s : State) (p : Nat) : Nat := (linkOf s p).st

/-- The ports of the image and the express ports. -/
def allPorts (s : State) : List PortRec := s.img.cfg.ports ++ s.rte.expressPorts.map (·.1)

/-- The port that a flat lane belongs to. -/
def portOfLane (s : State) (l : Nat) : Option PortRec :=
  (allPorts s).find? (fun r => decide (r.first ≤ l ∧ l < r.first + r.width))

/-- Set or clear the ready bits of all lanes of a port. -/
def setPortLanes (r : PortRec) (b : Bool) (s : State) : State := (portLanes r).foldl (fun t l => setLaneReady t l b) s

/-- A link leaves its state for another that carries no traffic: its lanes leave ready, its credits are forgotten, its
learned sources become tombstones, and a time source behind it is lost (Table 15.5, R152, R190). -/
def linkLeaves (s : State) (p st : Nat) : State :=
  match portRec s p with
  | none => s
  | some r =>
    let was := (portLanes r).any (laneReady s)
    let s1 := setPortLanes r false (setLink s p { SecLink.empty with st := st, since := s.clock })
    if was then sourceLost (learnLost (settle s (dropCredits s1 p)) p) 1 p else s1

/-- A link goes to OFF. -/
def linkDown (s : State) (p : Nat) : State := if linkSt s p = linkOff then s else linkLeaves s p linkOff

/-- A message of the handshake to the peer of a port (R366, Table 15.4), in segments of at most 8,192 payload bytes with the head
of eight bytes in each. -/
def handshakeMsg (s : State) (p typ reason : Nat) (body : List Byte) : State :=
  let segs := max 1 ((body.length + 8183) / 8184)
  (List.range segs).foldl (fun t i =>
    let payload := natBe 1 typ ++ natBe 1 i ++ natBe 1 segs ++ natBe 1 reason ++ natBe 4 body.length ++ (body.drop (8184 * i)).take 8184
    linkMsg t p (originCfh t 0 (hallPart t (portScope t p)) 0xFFFFFA 0 0 payload.length) payload) s

/-- Enter HANDSHAKE: a fresh nonce, and HELLO is sent. -/
def startHandshake (s : State) (p : Nat) : State :=
  let nonce := Config.free s.free % 2 ^ 256
  let s1 := setLink { s with free := s.free + 2 } p { SecLink.empty with st := linkHandshake, since := s.clock, nonce := nonce }
  handshakeMsg s1 p 0x50 0 (natBe 32 nonce ++ natBe 16 s.otp.serial ++ natBe 2 (hallPart s (portScope s p)) ++ Config.keyShare (s.free + 1))

/-- Whether every lane of a port is LOCKED in both directions. -/
def portLocked (s : State) (r : PortRec) : Bool :=
  (portLanes r).all (fun l => laneDir s l false == 4 && laneDir s l true == 4)

/-- Whether every transmit fibre of a port is FULL: a lane carries traffic only then (R326). -/
def portLit (s : State) (r : PortRec) : Bool :=
  (portLanes r).all (fun l => rf s (Reg.OPT_FIBRE (l / 32) (l / 8 % 4)) F.OPT_FIBRE_PWR == 3)

/-- Whether the peer has reported its receive lock of every lane of a port (R306, Table 13.4). -/
def portPeers (s : State) (r : PortRec) : Bool := (portLanes r).all (fun l => (laneOf s l).peerLocked)

/-- Start the handshake of an enabled port in OFF once every lane of it is LOCKED at both ends: a port whose peer is not there yet waits
in OFF (Table 15.5, R311, R386; the peer's lock as telemetry reports it: DEDUCED, log 223). -/
def tryHandshake (s : State) (p : Nat) : State :=
  match portRec s p with
  | none => s
  | some r =>
    if linkSt s p = linkOff ∧ portLocked s r ∧ portPeers s r ∧ portLit s r ∧ duneUp s (r.first / 256) ∧ portFn s p = 1 ∧ !mirageShut s p then
      startHandshake s p
    else s

end Sys2Proof.Machine
end

