-- ==== Sys2Proof/Machine/Tile.lean ====
section
/-! DEFINITION. Light tiles: lanes, spares, fibres and the laser record (spec/13: R303 to R334). -/
namespace Sys2Proof.Machine

/-! ## Trims (spec/03: R75, R76) -/

/-- Key of a trim. -/
def trimKey (p i : Nat) : Nat := p * 2 ^ 24 + i

def trimUser (s : State) (p i : Nat) : Int := SMap.get (fun _ => 0) s.plat.trimUser (trimKey p i)
def trimFactory (s : State) (p i : Nat) : Int := SMap.get (fun _ => 0) s.otp.trims (trimKey p i)

/-- The limits of a parameter (Table 3.6). -/
def trimLimits : Nat → Int × Int
  | 1 => (2000, 18000)
  | 2 => (0, 400)
  | 3 => (60, 300)
  | 4 => (-128, 127)
  | 5 => (0, 255)
  | 6 => (-500, 500)
  | 7 => (0, 20000)
  | _ => (0, 127)

def clampInt (l : Int × Int) (x : Int) : Int := max l.1 (min l.2 x)

/-- The effective value: clamp(factory + user, lower, upper). -/
def trimEff (s : State) (p i : Nat) : Int := clampInt (trimLimits p) (trimFactory s p i + trimUser s p i)

/-- Parameters whose user value is applied at once: TIA gain, ADC offset, sensor offset, and the timestamp path delay, which
the next timestamp takes. -/
def trimAtOnce (p : Nat) : Bool := [3, 4, 6, 7].contains p

/-- The value that the hardware works with. -/
def trimApplied (s : State) (p i : Nat) : Int :=
  if trimAtOnce p then trimEff s p i
  else (SMap.find s.plat.trimApplied (trimKey p i)).getD (clampInt (trimLimits p) (trimFactory s p i))

/-- Show the trim that PLT_TRIM_SEL names (Table 3.7, R76). -/
def showTrim (s : State) : State :=
  let p := rf s Reg.PLT_TRIM_SEL F.PLT_TRIM_SEL_PARAM
  let i := rf s Reg.PLT_TRIM_SEL F.PLT_TRIM_SEL_INDEX
  if !trimIndexOk s.otp.variant p i then
    let s1 := wn (wn s Reg.PLT_TRIM_USER 0) Reg.PLT_TRIM_FACTORY 0
    wfs s1 Reg.PLT_TRIM_EFF [(F.PLT_TRIM_EFF_CLAMPED, 0), (F.PLT_TRIM_EFF_PENDING, 0), (F.PLT_TRIM_EFF_INVALID, 1), (F.PLT_TRIM_EFF_VALUE, 0)]
  else
    let s1 := wn (wn s Reg.PLT_TRIM_USER (encodeSigned 16 (trimUser s p i))) Reg.PLT_TRIM_FACTORY (encodeSigned 16 (trimFactory s p i))
    wfs s1 Reg.PLT_TRIM_EFF [(F.PLT_TRIM_EFF_CLAMPED, b2n (trimEff s p i != trimFactory s p i + trimUser s p i)),
      (F.PLT_TRIM_EFF_PENDING, b2n (trimApplied s p i != trimEff s p i)), (F.PLT_TRIM_EFF_INVALID, 0),
      (F.PLT_TRIM_EFF_VALUE, encodeSigned 16 (trimEff s p i))]

/-- Apply a trim's effective value to the hardware. -/
def applyTrim (s : State) (p i : Nat) : State :=
  showTrim { s with plat := { s.plat with trimApplied := SMap.ins s.plat.trimApplied (trimKey p i) (trimEff s p i) } }

/-- Load the image's trim records as user values (R56). -/
def loadTrims (s : State) : State :=
  let m := s.img.cfg.trims.foldl (fun m e => SMap.put (fun _ => 0) m (trimKey e.1 e.2.1) e.2.2) []
  showTrim { s with plat := { s.plat with trimUser := m } }

/-! ## Lanes -/

/-- Replace a lane's loops and show its consecutive failures, the larger of both directions' (log 22). -/
def setLaneOf (s : State) (l : Nat) (x : LaneSt) : State :=
  wf { s with opt := { s.opt with lanes := SMap.ins s.opt.lanes l x } } (Reg.OPT_LANE_STATUS (l / 32) (l % 32))
    F.OPT_LANE_STATUS_FAILS (min 3 (max x.txFails x.rxFails))

/-- Fails of a direction. -/
def dirFails (x : LaneSt) (rx : Bool) : Nat := if rx then x.rxFails else x.txFails
def setDirFails (x : LaneSt) (rx : Bool) (n : Nat) : LaneSt := if rx then { x with rxFails := n } else { x with txFails := n }
/-- Excluded resonances of a direction (R309). -/
def dirExcl (x : LaneSt) (rx : Bool) : List Nat := if rx then x.rxExcl else x.txExcl
def setDirExcl (x : LaneSt) (rx : Bool) (l : List Nat) : LaneSt := if rx then { x with rxExcl := l } else { x with txExcl := l }
/-- Heater power at lock. -/
def dirAt (x : LaneSt) (rx : Bool) : Nat := if rx then x.rxAt else x.txAt
def setDirAt (x : LaneSt) (rx : Bool) (n : Nat) : LaneSt := if rx then { x with rxAt := n } else { x with txAt := n }

/-- What an OPT event says after its bit: tile, lane within the tile or FFh, spare or FFh (R335). -/
def optBody (t lane spare : Nat) : List Byte := natBe 1 t ++ natBe 1 lane ++ natBe 1 spare

/-- The laser that drives a lane. -/
def laneLaser (s : State) (l : Nat) : Nat := rf s (Reg.OPT_LANE_STATUS (l / 32) (l % 32)) F.OPT_LANE_STATUS_LASER

/-- AGE of a lane (Table 13.6). -/
def laneAge (s : State) (l : Nat) : Nat := rf s (Reg.OPT_LANE_STATUS (l / 32) (l % 32)) F.OPT_LANE_STATUS_AGE
def setLaneAge (s : State) (l a : Nat) : State := wf s (Reg.OPT_LANE_STATUS (l / 32) (l % 32)) F.OPT_LANE_STATUS_AGE a

/-- Unit path of a lane: erg, dune, ripple. -/
def lanePath (l : Nat) : List Nat := [0, l / 256, l / 8 % 32]

/-- Whether a lane may run: its tile is fitted, it is not retired and the device is not expelled (R5, R318, R389). -/
def laneUsable (s : State) (l : Nat) : Bool :=
  tileFitted s.otp.variant (l / 32) && !s.otp.retiredLanes.contains l && !rb s Reg.MGT_EXPEL F.MGT_EXPEL_SELF_EXPELLED

/-- Put a direction of a lane at SWEEP (LANE_START). -/
def laneStart (s : State) (l : Nat) (rx : Bool) : State := if laneUsable s l then setLaneDir s l rx 1 else s

/-- A direction of a lane leaves LOCKED or is stopped: it takes state `st`; its lane leaves ready and its link goes to OFF. -/
def laneLeaves (s : State) (l : Nat) (rx : Bool) (st : Nat) : State :=
  let s1 := setLaneDir s l rx st
  match portOfLane s1 l with
  | none => if laneReady s1 l then settle s1 (setLaneReady s1 l false) else s1
  | some r => linkDown s1 r.num

/-! ## Spares (Table 13.7) -/

def spareSt (s : State) (t k : Nat) : Nat := rf s (Reg.OPT_SPARE t k) F.OPT_SPARE_STATE
/-- The lane a spare serves, 3Fh for none. -/
def spareLane (s : State) (t k : Nat) : Nat := rf s (Reg.OPT_SPARE t k) F.OPT_SPARE_LANE

/-- Show how many spares of a tile are FREE. -/
def showSpares (s : State) (t : Nat) : State :=
  wf s (Reg.OPT_TILE_STATUS t) F.OPT_TILE_STATUS_SPARES_FREE (((List.range 4).filter (fun k => spareSt s t k == 0)).length)

/-- Move a spare to a state, serving a lane. -/
def setSpare (s : State) (t k st lane : Nat) : State :=
  showSpares (wfs s (Reg.OPT_SPARE t k) [(F.OPT_SPARE_STATE, st), (F.OPT_SPARE_LANE, lane)]) t

/-- The lowest-numbered FREE spare; one in SIROCCO counts as FREE (R315). -/
def freeSpare (s : State) (t : Nat) : Option Nat := (List.range 4).find? (fun k => spareSt s t k == 0 || spareSt s t k == 7)

/-! ## Sirocco runs (R330 to R333) -/

/-- The head of the result record (R332). -/
def sirHead (s : State) (t mode status bins first : Nat) : State :=
  let s1 := wn (wn s (Reg.OPT_SIR_RESULT t 0) (mode * 2 ^ 24 + status * 2 ^ 16 + bins)) (Reg.OPT_SIR_RESULT t 1) (first * 2 ^ 16)
  wn (wn s1 (Reg.OPT_SIR_RESULT t 2) (nowSec s % 2 ^ 32)) (Reg.OPT_SIR_RESULT t 3) (nowNs s)

/-- End a tile's run with a status (R332, R333): the spare is FREE again, the lane leaves SIROCCO. -/
def sirEnd (s : State) (t status : Nat) : State :=
  match SMap.find s.opt.runs t with
  | none => s
  | some r =>
    let s1 := { s with opt := { s.opt with runs := SMap.del s.opt.runs t } }
    let s2 := wf (setSpare s1 t r.spare 0 0x3F) (Reg.OPT_LANE_STATUS t r.lane) F.OPT_LANE_STATUS_SIROCCO 0
    let s3 := wfs s2 (Reg.OPT_SIR_STATUS t) [(F.OPT_SIR_STATUS_STATE, 2), (F.OPT_SIR_STATUS_STATUS, status)]
    optEvent (sirHead s3 t r.mode status (r.last - r.first) r.first) t F.OPT_EVT_SIROCCO_DONE (optBody t 0xFF 0xFF)

/-- Bin values of a run that ended early: those of the shots already taken, which the spec does not state. -/
def sirPartial (s : State) (t : Nat) : State :=
  match SMap.find s.opt.runs t with
  | none => s
  | some r =>
    let n := r.last - r.first
    let put := fun (u : State) (i : Nat) => wn u (Reg.OPT_SIR_RESULT t (4 + i)) (Config.free (s.free + i))
    let s1 := (List.range n).foldl put s
    let taken := Config.free (s.free + n) % (r.shots + 1)
    wf { s1 with free := s.free + n + 1 } (Reg.OPT_SIR_STATUS t) F.OPT_SIR_STATUS_SHOTS (min 65535 taken)

/-- An action that needs a lane of the tile, or its spare, ends the run with PREEMPTED (SIROCCO_PREEMPT, R333). -/
def sirPreempt (s : State) (t : Nat) (needs : SirRun → Bool) : State :=
  match SMap.find s.opt.runs t with
  | none => s
  | some r => if needs r then sirEnd (sirPartial s t) t 2 else s

/-- Take a FREE spare of a tile for another use. -/
def takeSpare (s : State) (t k st lane : Nat) : State := setSpare (sirPreempt s t (fun r => r.spare == k)) t k st lane

/-! ## The laser record and what follows from it (R310, R317, R318, R334) -/

/-- Trim index of the laser that drives a lane (R303). -/
def laserIndex (s : State) (l : Nat) : Nat := l / 32 * 36 + laneLaser s l

/-- Switch a spare to a lane for good: it is IN_USE, and the laser before it is off. -/
def switchSpare (s : State) (l k : Nat) : State :=
  let t := l / 32
  let s1 := { s with otp := { s.otp with deadLasers := s.otp.deadLasers ++ [laserIndex s l],
                                         usedSpares := s.otp.usedSpares.filter (fun e => e.2 != l) ++ [(t * 4 + k, l)] } }
  wf (setSpare s1 t k 8 (l % 32)) (Reg.OPT_LANE_STATUS t (l % 32)) F.OPT_LANE_STATUS_LASER (32 + k)

/-- Mark a spare FAILED in the record. -/
def failSpare (s : State) (t k : Nat) : State :=
  let s1 := { s with otp := { s.otp with failedSpares := if s.otp.failedSpares.contains (t * 4 + k) then s.otp.failedSpares else s.otp.failedSpares ++ [t * 4 + k] } }
  setSpare s1 t k 6 0x3F

/-- The spare that drives a lane has failed, or its lane is retired: it no longer serves (log 23). -/
def dropLaneSpare (s : State) (l : Nat) : State :=
  match s.otp.usedSpares.find? (fun e => e.2 == l) with
  | none => s
  | some e => failSpare { s with otp := { s.otp with usedSpares := s.otp.usedSpares.filter (fun x => x.2 != l) } } (l / 32) (e.1 % 4)

/-- Release the spare that a lane holds for a swap. -/
def freeLaneSpare (s : State) (l : Nat) : State :=
  match (laneOf s l).spare with
  | none => s
  | some k => setLaneOf (setSpare s (l / 32) k 0 0x3F) l { laneOf s l with spare := none, spareSince := none, swap := none }

/-- Retire a lane (LANE_RETIRE, R318). -/
def retireLane (s : State) (l : Nat) : State :=
  let t := l / 32
  let s0 := dropLaneSpare (freeLaneSpare s l) l
  let s1 := { s0 with otp := { s0.otp with retiredLanes := s0.otp.retiredLanes ++ [l], deadLasers := s0.otp.deadLasers ++ [laserIndex s0 l] } }
  let s2 := laneLeaves (laneLeaves (setLaneAge s1 l 5) l false 0) l true 0
  let s3 := bump64 (optEvent s2 t F.OPT_EVT_RETIRED (optBody t (l % 32) 0xFF)) (Reg.OPT_RETIRED_CNT t) 1
  settle s3 (fsrStore s3 0x0C (lanePath l) [(0, l), (1, t), (2, laneLaser s3 l)] [] (partOfRipple s3 (l / 8)) [] [])

/-! ## Tiles -/

/-- Fibre power state (Table 13.10). -/
def fibreSt (s : State) (t f : Nat) : Nat := rf s (Reg.OPT_FIBRE t f) F.OPT_FIBRE_PWR
def setFibre (s : State) (t f st : Nat) : State := wf s (Reg.OPT_FIBRE t f) F.OPT_FIBRE_PWR st

/-- A fibre enters SAFE, and is due for a probe after `wait`: at once at power-up and at the start of an express path, else in
5 s (R326). -/
def fibreSafe (s : State) (t f wait : Nat) : State :=
  setFibre { s with opt := { s.opt with probeDue := SMap.ins s.opt.probeDue (t * 4 + f) (s.clock + wait) } } t f 0

/-- Show what a tile's registers hold apart from its work: fitted, powered, bypass, blocked slots, and the laser record. -/
def tileShow (s : State) (t : Nat) : State :=
  if !tileFitted s.otp.variant t then s
  else
    let c := duneSt s (t / 8)
    let s1 := wfs s (Reg.OPT_TILE_STATUS t) [(F.OPT_TILE_STATUS_PRESENT, 1), (F.OPT_TILE_STATUS_POWERED, b2n (c == 2 || c == 3 || c == 4)),
      (F.OPT_TILE_STATUS_BYPASS, b2n (bypassTile s t))]
    let s2 := if bypassTile s t then (List.range 32).foldl (fun u i => wf u (Reg.OPT_XC t i) F.OPT_XC_MODE 2) s1 else s1
    let s3 := (s.otp.failedSpares.filter (fun k => k / 4 == t)).foldl (fun u k => setSpare u t (k % 4) 6 0x3F) s2
    let s4 := (s.otp.usedSpares.filter (fun e => e.1 / 4 == t)).foldl (fun u e =>
      wf (setSpare u t (e.1 % 4) 8 (e.2 % 32)) (Reg.OPT_LANE_STATUS t (e.2 % 32)) F.OPT_LANE_STATUS_LASER (32 + e.1 % 4)) s3
    showSpares ((s.otp.retiredLanes.filter (fun l => l / 32 == t)).foldl (fun u l => setLaneAge u l 5) s4) t

/-- The tiles of a dune. -/
def duneTiles (d : Nat) : List Nat := (List.range 8).map (d * 8 + ·)

/-- A dune's tiles are powered: their fibres enter SAFE (R326). -/
def tilesPowered (s : State) (d : Nat) : State :=
  ((duneTiles d).filter (tileFitted s.otp.variant)).foldl (fun u t => (List.range 4).foldl (fun v f => fibreSafe v t f 0) (tileShow u t)) s

/-- A dune has entered UP: every lane of its tiles that is not on a bypass tile starts in both directions (LANE_START, R308). -/
def startLanes (s : State) (d : Nat) : State :=
  ((duneTiles d).filter (fun t => tileFitted s.otp.variant t && !bypassTile s t)).foldl (fun u t =>
    (List.range 32).foldl (fun v i => laneStart (laneStart v (t * 32 + i) false) (t * 32 + i) true) u) s

/-- Every laser goes off: every link goes down and every direction to OFF (Tables 3.10 and 17.5). -/
def lasersOff (s : State) : State :=
  let s1 := (allPorts s).foldl (fun u r => linkDown u r.num) s
  ((List.range 2048).filter (fun l => laneDir s1 l false != 0 || laneDir s1 l true != 0)).foldl
    (fun u l => laneLeaves (laneLeaves u l false 0) l true 0) s1

end Sys2Proof.Machine
end

