-- ==== Sys2Proof/Machine/Reset.lean ====
section
/-! DEFINITION. What a dune loses with its power, and what the resets keep (spec/03: R67, R77 to R79, R419, Table 3.8;
spec/17: R402 to R408). -/
namespace Sys2Proof.Machine

/-! ## What belongs to a dune -/

/-- Whether the register at an address is one of the erg-level registers of FWD and RTE, which show in every dune window
(R419). -/
def ergLevel (a : Nat) : Bool :=
  let o := (a - 0x2000000) % 0x400000
  decide (0x2000000 ≤ a) && decide (a < 0x2400000) && (o / 0x80000 == 2 || o / 0x80000 == 3) && (regRow (a + 0x400000)).isNone

/-- Whether the register at an address loses its contents with a dune's power: its window, and its light tiles. -/
def duneOwns (d a : Nat) : Bool :=
  (windowDune a == some d && !ergLevel a) || (decide (0x800000 ≤ a ∧ a < 0xC00000) && (a - 0x800000) / 0x80000 == d)

/-- Dune of a spraying key (direction round-robins below 2^24, port round-robins above). -/
def wrrDune (k : Nat) : Nat := if k < 2 ^ 24 then k / 2 ^ 13 / 8 else (k - 2 ^ 24) / 2 ^ 12 / 64

/-- Dune of a start tag's key (a queue's below 2^32, a class's above). -/
def tagDune (k : Nat) : Nat := if k < 2 ^ 32 then k / 2 ^ 26 else (k - 2 ^ 32) / 2048

/-- A dune's registers and everything behind them are gone (R419). In spine personality the Oasis of every scope is spread
over all stacks, so its contents are lost with any dune that holds one; in system personality with the system's dunes
(DESIGN CHOICE, log 24). -/
def loseDune (s : State) (d : Nat) : State :=
  let hasStacks := (List.range 12).any (fun k => stackDune k == d)
  let gone := (s.img.cfg.scopes.filter (fun x => !isSystem s || bitAt x.dunes d)).map (·.num)
  let hif := { s.hif with cqs := SMap.drop (fun k => k / 2048 == d) s.hif.cqs, cnqs := SMap.drop (fun k => k / 2048 == d) s.hif.cnqs }
  let cr := fun (m : SMap Nat) => SMap.drop (fun k => portDune s (k / 64) == d) m
  let swc := { s.swc with mesh := s.swc.mesh.filter (fun p => portDune s p.outPort != d && portDune s p.inPort != d),
                          queues := SMap.drop (fun k => k / 16384 == d) s.swc.queues, granted := cr s.swc.granted,
                          held := cr s.swc.held, returns := cr s.swc.returns,
                          policers := SMap.drop (fun k => k / 8192 == d) s.swc.policers,
                          mirrorCnt := SMap.drop (fun k => k / 64 == d) s.swc.mirrorCnt,
                          punt := SMap.drop (fun k => k == d) s.swc.punt, spillUsed := SMap.drop (fun k => k / 16 == d) s.swc.spillUsed,
                          rxErr := SMap.drop (fun k => portDune s k == d) s.swc.rxErr,
                          spillOn := SMap.drop (fun k => k / 128 == d) s.swc.spillOn, allowed := cr s.swc.allowed,
                          puntStaged := SMap.drop (fun k => k / 2048 == d) s.swc.puntStaged,
                          tags := SMap.drop (fun k => tagDune k == d) s.swc.tags,
                          latched := SMap.drop (duneOwns d) s.swc.latched }
  let fwd := { s.fwd with replicas := SMap.drop (fun k => k == d) s.fwd.replicas, queues := SMap.drop (fun k => k == d) s.fwd.queues,
                          marks := s.fwd.marks.filter (fun m => m.dune != d), refresh := s.fwd.refresh.filter (fun m => m.dune != d) }
  let rte := { s.rte with src := SMap.drop (fun k => k / 65536 == d) s.rte.src, srcLast := SMap.drop (fun k => k / 2 ^ 39 == d) s.rte.srcLast,
                          dst := s.rte.dst.filter (fun x => x.dune != d),
                          expressPorts := s.rte.expressPorts.filter (fun e => e.1.first / 256 != d), wrr := SMap.drop (fun k => wrrDune k == d) s.rte.wrr }
  let sch := { s.sch with groups := SMap.drop (fun k => k / 32 == d) s.sch.groups, sending := SMap.drop (fun k => portDune s k == d) s.sch.sending,
                          shapers := SMap.drop (fun k => k / 2048 == d) s.sch.shapers,
                          vtime := SMap.drop (fun k => k / 4096 == d) s.sch.vtime }
  let brc := { s.brc with engines := SMap.drop (fun k => k / 512 == d) s.brc.engines, queues := SMap.drop (fun k => k / 32 == d) s.brc.queues,
                          runs := s.brc.runs.filter (fun r => r.fq / 2048 != d), captured := SMap.del s.brc.captured d,
                          dis := SMap.drop (fun k => k % 16 == d) s.brc.dis, emptyPools := s.brc.emptyPools.filter (fun e => e.1 != d) }
  let groups := s.col.groups.map (fun e => (e.1, { e.2 with opened := e.2.opened.filter (fun c => c.fq / 2048 != d) }))
  let col := { s.col with groups := groups, caravans := s.col.caravans.filter (fun c => c.fq / 2048 != d) }
  let opt := { s.opt with lanes := SMap.drop (fun k => k / 256 == d) s.opt.lanes, spareFails := SMap.drop (fun k => k / 32 == d) s.opt.spareFails, fibreId := SMap.drop (fun k => k / 32 == d) s.opt.fibreId,
                          fullLevel := SMap.drop (fun k => k / 32 == d) s.opt.fullLevel, probeDue := SMap.drop (fun k => k / 32 == d) s.opt.probeDue,
                          paths := s.opt.paths.filter (fun x => pairTile s x.pair / 8 != d),
                          arms := s.opt.arms.filter (fun a => a.tile / 8 != d), runs := SMap.drop (fun k => k / 8 == d) s.opt.runs }
  let chk := { s.chk with margins := SMap.drop (fun k => k == d) s.chk.margins, resEvents := SMap.drop (fun k => k / 512 == d) s.chk.resEvents }
  let oasis := if hasStacks then s.oasis.filter (fun c => !gone.contains (c.1 / 2 ^ 48)) else s.oasis
  showCqErrors { s with regs := SMap.drop (duneOwns d) s.regs, oasis := oasis, hif := hif, swc := swc, fwd := fwd, rte := rte, sch := sch,
                        brc := brc, col := col, opt := opt, chk := chk }

/-- Clear the ready bits of a dune's engines and stacks. -/
def duneUnready (s : State) (d : Nat) : State :=
  let s1 := (List.range 16).foldl (fun t i => wn t (Reg.PLT_UR_ENG (d * 16 + i)) 0) s
  (List.range 12).foldl (fun t k => if stackDune k = d then setStackReady t k false else t) s1

/-- The power readings of a dune's domain, its tiles and its stacks are 0 while it is off (R406). -/
def duneUnread (s : State) (d : Nat) : State :=
  (List.range 12).foldl (fun t k => if stackDune k = d then wn t (Reg.PWR_OASIS k) 0 else t) (wn (wn s (Reg.PWR_DUNE d) 0) (Reg.PWR_TILES d) 0)

/-- A dune domain goes off, with its Oasis stacks, its tiles and all it holds; it is left in state `st` (Table 3.3). -/
def duneOff (s : State) (d st : Nat) : State :=
  let s1 := (allPorts s).foldl (fun t r => if r.first / 256 = d then linkDown t r.num else t) s
  let s2 := (List.range 256).foldl (fun t i => setLaneReady t (d * 256 + i) false) (duneUnready s1 d)
  let img := { s2.img with active := s2.img.active.filter (fun e => e.2 != d) }
  let s3 := setDuneSt (loseDune { duneUnread s2 d with img := img } d) d st
  let s4 := placeShadows (shadowsLose s3 (fun k => stackDune k == d))
  settle s (showPgMain ((duneTiles d).foldl tileShow s4))

/-! ## Warm reset (Table 3.8) -/

/-- Whether a register is a 64-bit counter of an erg-level block (R132). -/
def blockCounter (a : Nat) : Bool :=
  decide (0x81000 ≤ a ∧ a < 0x82000) || decide (0x5E000 ≤ a ∧ a < 0x5E100) || decide (0x61000 ≤ a ∧ a < 0x61100)

/-- Registers that a warm reset leaves as they are though software writes them: the addresses of the management ports, their own
and those of their gateways (R86; log 182). -/
def warmKept (a : Nat) : Bool :=
  decide (0x20100 ≤ a ∧ a < 0x20180) && [0x04, 0x0C, 0x10, 0x14, 0x18, 0x1C, 0x24, 0x28, 0x2C, 0x30].contains (a % 0x40)

/-- RO registers of the platform die that a warm reset clears: unit ready maps, dune states, fences, requests, and the readings of the
domains that it turns off (R406). -/
def warmCleared (a : Nat) : Bool :=
  decide (0x300 ≤ a ∧ a < 0xA00) || a == Reg.PLT_DUNE_STATE || decide (0x60040 ≤ a ∧ a < 0x60080) || decide (0x70040 ≤ a ∧ a < 0x700B0) || a == Reg.MGT_FN_STATUS
    || decide (0x5C000 ≤ a ∧ a < 0x5E000) || blockCounter a

/-- What a warm reset leaves of a register; none where it takes its reset value (Table 0.4). RO bits of the platform die that
nothing clears stay, the count PLT_EARLY_DB among them (DESIGN CHOICE, log 198). -/
def warmValue (e : Nat × Word) : Option (Nat × Word) :=
  let a := e.1
  if warmKept a then some e
  else if warmCleared a || (decide (0x80000 ≤ a) && !ergLevel a) then none
  else
    match regRow a with
    | none => none
    | some r =>
      let reset := if ergLevel a then ~~~(BitVec.ofNat 32 r.rwl) else BitVec.ofNat 32 (Nat.lor r.rw r.w1c)
      let v := (e.2 &&& ~~~reset) ||| (regReset a &&& reset)
      if v = regReset a then none else some (a, v)

/-- The ports that stay DISABLED in every boot: all of an expelled device, and those that a link entry of the expel list
names (R389). -/
def closedPorts (s : State) : SMap Nat :=
  if rb s Reg.MGT_EXPEL F.MGT_EXPEL_SELF_EXPELLED then s.img.cfg.ports.foldl (fun m r => SMap.ins m r.num 0) []
  else (s.rot.expel.filter (fun e => e.kind == 2)).foldl (fun m e => SMap.ins m e.subject 0) []

/-- Every dune domain off at once and all software state at its reset value; the platform die, its time, the image, sealing
and the root of trust stay (Table 3.8). Work in flight ends without records (R77); vector 0 reports the cause (Table 4.2). -/
def warmReset (s : State) (cause : Nat) : State :=
  let s1 := (allPorts s).foldl (fun t r => linkDown t r.num) s
  let plat := { s1.plat with selfTestFailed := [], oasisFails := [], creditsWithheld := false }
  let hif := { s1.hif with cqs := [], cnqs := [] }
  let img := { s1.img with active := [] }
  let mgt := { s1.mgt with fn := none, ports := closedPorts s1, unfence := [], shadows := [], twinSent := [] }
  let s2 := { s1 with regs := s1.regs.filterMap warmValue, oasis := [], plat := plat, hif := hif, img := img, mgt := mgt,
                      swc := SwcState.empty, fwd := { FwdState.empty with seq := s1.fwd.seq }, rte := RteState.empty,
                      sch := SchState.empty, sec := { s1.sec with links := [] }, brc := BrcState.empty, col := ColState.empty,
                      opt := OptState.empty, chk := ChkState.empty }
  let s3 := wfs s2 Reg.PLT_READY_SUM [(F.PLT_READY_SUM_DUNE_PWR, 0), (F.PLT_READY_SUM_SWC_READY, 0), (F.PLT_READY_SUM_OASIS, 0)]
  let s4 := wf (wf s3 Reg.IMG_SRC F.IMG_SRC_SRC s3.plat.straps) Reg.PLT_RESET_CAUSE F.PLT_RESET_CAUSE_CAUSE cause
  let s5 := wf s4 Reg.FWD_ETH_CFG F.FWD_ETH_CFG_CFH_ETYPE s4.otp.etherType
  signal (settle s (showSeed (showPgMain (showSections (loadTrims ((List.range 64).foldl tileShow s5)))))) 0

/-! ## Cold reset -/

/-- Registers that every cold reset keeps: the record ring's, the mirror epoch, the order sequence, the expel list, and what
the power telemetry reads; the image reload reset also keeps the image source (R63). -/
def coldKept (reload : Bool) (a : Nat) : Bool :=
  [Reg.PLT_FSR_HEAD, Reg.SEC_MIRROR_EPOCH, Reg.MGT_ORD_LAST 0, Reg.MGT_ORD_LAST 1, Reg.MGT_EXPEL, Reg.PWR_STATUS, Reg.PWR_VIN48,
    Reg.PWR_IIN48, Reg.PWR_PIN48, Reg.PWR_VAUX5, Reg.PWR_PAUX5].contains a
  || (reload && [Reg.IMG_SRC, Reg.IMG_HOST_LEN, Reg.IMG_HOST_ADDR_LO, Reg.IMG_HOST_ADDR_HI].contains a)

/-- What the root of trust keeps over a cold reset: its store and the expel list; the log starts again, debug is open and
no token is in force (R375, R376, R378). -/
def rotCold (r : RotState) : RotState :=
  { r with coldOpen := true, tokenScopes := 0, token := false, log := [], logNext := 0, logTrunc := false, logDigest := 0 }

/-- The platform die restarts from ROM (Table 3.1): everything is at its reset value but what no reset clears, and the image load begins. -/
def platformRestart (s : State) (cause : Nat) : State :=
  let reload := cause == 3
  let plat := { PlatState.empty with auxOk := true, vin48Good := s.plat.vin48Good, booting := true, straps := s.plat.straps,
                                     resetHeld := false, fsrRing := s.plat.fsrRing, quarantine := s.plat.quarantine }
  let pins := { s.pins with resetN := true, thermTripN := true, ppsOut := false, pgMain := false }
  let s1 := { State.reset with regs := s.regs.filter (fun e => coldKept reload e.1), hostMem := s.hostMem, free := s.free,
                               plat := plat, otp := s.otp, pins := pins, rot := rotCold s.rot, outbox := s.outbox, pending := s.pending }
  let s2 := wf (wf s1 Reg.PLT_FSR_STATUS F.PLT_FSR_STATUS_COUNT s.plat.fsrRing.length) Reg.PLT_RESET_CAUSE F.PLT_RESET_CAUSE_CAUSE cause
  let s3 := if reload then s2 else wf s2 Reg.IMG_SRC F.IMG_SRC_SRC s2.plat.straps
  let s4 := wn (wf s3 Reg.PLT_DEVICE_ID F.PLT_DEVICE_ID_VARIANT s3.otp.variant) Reg.IMG_MIN_SEQ s3.rot.minSeq
  let s5 := (List.range 2).foldl (fun t p => wn (wn t (Reg.HIF_MP_MAC_HI p) (getAt 0 t.otp.macs p / 2 ^ 32)) (Reg.HIF_MP_MAC_LO p)
    (getAt 0 t.otp.macs p % 2 ^ 32)) s4
  let s6 := wf (showOwner s5) Reg.FWD_ETH_CFG F.FWD_ETH_CFG_CFH_ETYPE s5.otp.etherType
  let s7 := showBytes Reg.SEC_CERTS ((s6.otp.cert.length + 3) / 4) s6.otp.cert (wn s6 Reg.SEC_CERT_LEN s6.otp.cert.length)
  let s8 := setImgSt ((List.range 64).foldl tileShow (newDebugNonce s7)) imgFetch
  if reload then signal s8 0 else s8

/-- The dunes whose domain is powered, dune 7 first. -/
def poweredDunes (s : State) : List Nat := ((List.range 8).filter (fun d => [1, 2, 3, 4].contains (duneSt s d))).reverse

/-- The dunes that a reset or a trip takes to OFF, dune 7 first: those powered and those in FAILED (Table 3.3). -/
def offDunes (s : State) : List Nat := ((List.range 8).filter (fun d => duneSt s d != 0)).reverse

/-- End a cold reset once no domain is powered: the platform die restarts, or waits for PLT_RESET_N to be released. -/
def coldEnd (s : State) (cause : Nat) : State :=
  if s.plat.resetHeld then
    { s with plat := { s.plat with seq := none, running := false, booting := false, coldPending := some cause } }
  else platformRestart s cause

/-- Start a cold reset: credits withheld, engines take no new tasks, lasers off, then the domains in order (Table 17.5); in a
trip sequence it waits for its end (R79). A second cause while a cold sequence runs does not change the cause that
PLT_RESET_CAUSE will show (DESIGN CHOICE, log 199). -/
def coldStart (s : State) (cause : Nat) : State :=
  match s.plat.seq with
  | some ⟨.trip, _⟩ => { s with plat := { s.plat with coldPending := some cause } }
  | some ⟨.cold _, _⟩ => s
  | _ =>
    let s1 := lasersOff { s with plat := { s.plat with creditsWithheld := true } }
    let todo := offDunes s1
    if todo.isEmpty then coldEnd s1 cause
    else { s1 with plat := { s1.plat with seq := some ⟨.cold cause, todo⟩ } }

/-- Loss of the auxiliary input (R77, R408): everything goes off at once; the record ring and the quarantine list go too. -/
def auxLoss (s : State) : State :=
  let keep := [Reg.SEC_MIRROR_EPOCH, Reg.MGT_ORD_LAST 0, Reg.MGT_ORD_LAST 1, Reg.MGT_EXPEL]
  { State.reset with regs := s.regs.filter (fun e => keep.contains e.1), hostMem := s.hostMem, free := s.free,
                     plat := { PlatState.empty with vin48Good := s.plat.vin48Good }, otp := s.otp, rot := rotCold s.rot,
                     outbox := s.outbox, pending := s.pending }

end Sys2Proof.Machine
end

