-- ==== Sys2Proof/Machine/Fence.lean ====
section
/-! DEFINITION. Fence states of partitions and systems (spec/16: R390, R391, Table 16.6). -/
namespace Sys2Proof.Machine

/-- MGT_FENCE.STATE of a scope: 0 ACTIVE, 1 FENCING, 2 FENCED, 3 UNFENCING. -/
def fenceSt (s : State) (p : Nat) : Nat := rf s (Reg.MGT_FENCE p) F.MGT_FENCE_STATE
def setFenceSt (s : State) (p st : Nat) : State := wf s (Reg.MGT_FENCE p) F.MGT_FENCE_STATE st

/-- Whether a scope is fenced or being fenced: it accepts no function request, no doorbell and no collective. -/
def fenced (s : State) (p : Nat) : Bool := fenceSt s p == 1 || fenceSt s p == 2

/-- The system that a dune belongs to, in system personality. -/
def duneSystem (s : State) (d : Nat) : Option Nat :=
  if isSystem s then (s.img.cfg.scopes.find? (fun x => bitAt x.dunes d)).map (·.num) else none

/-- Whether a dune is shut off by the electrical fence of its system. -/
def duneFenced (s : State) (d : Nat) : Bool :=
  match duneSystem s d with
  | none => false
  | some p => fenced s p

/-- An unfence: a partition is ACTIVE at once, its functions stay DISABLED; a system's dunes may be enabled again (R391). -/
def unfenceStart (s : State) (p : Nat) : State :=
  let s1 := wf s (Reg.MGT_FENCE p) F.MGT_FENCE_ELECTRICAL 0
  if isSystem s then setFenceSt s1 p 3 else setFenceSt s1 p 0

/-- The last step of a fence has ended: FENCED with its event, and an UNFENCE that waited begins (R390). -/
def fenceEnd (s : State) (p : Nat) : State :=
  let s1 := mgtEvent (setFenceSt s p 2) F.MGT_EVT_FENCED (natBe 1 p ++ natBe 2 0xFFFF)
  if s1.mgt.unfence.contains p then
    unfenceStart { s1 with mgt := { s1.mgt with unfence := s1.mgt.unfence.filter (fun x => x != p) } } p
  else s1

/-- The electrical fence of a system: its powered dunes go off in descending order, once no other sequence runs; with none powered it
has ended (R390 step 6). -/
def fenceSeq (s : State) (p : Nat) : State :=
  if s.plat.seq.isSome then s
  else
    let todo := (poweredDunes s).filter (fun d => duneSystem s d == some p)
    if todo.isEmpty then fenceEnd s p else { s with plat := { s.plat with seq := some ⟨.fence p, todo⟩ } }

/-- The next system whose electrical fence waits for a sequence to end. -/
def fenceNext (s : State) : State :=
  match (List.range 16).find? (fun p => fenceSt s p == 1) with
  | none => s
  | some p => if isSystem s then fenceSeq s p else s

/-- A dune has entered UP or FAILED: a system being unfenced is ACTIVE once every dune of it has. -/
def unfenceCheck (s : State) (d : Nat) : State :=
  match duneSystem s d with
  | none => s
  | some p =>
    match scopeOf s p with
    | none => s
    | some x => if fenceSt s p = 3 ∧ (onesBelow x.dunes 8).all (fun i => duneSt s i == 4 || duneSt s i == 5) then setFenceSt s p 0 else s

end Sys2Proof.Machine
end

