-- ==== Sys2Proof/Machine/Held.lean ====
section
/-! DEFINITION. Register writes in HELD (spec/16: R392): which take effect, what a refused one clears and counts, and where
the blocks record it (spec/08: R202; spec/09: R212; spec/13: R334; spec/14). -/
namespace Sys2Proof.Machine

/-- The registers of the exceptions of R392 that are written without restriction: PLT_RESET_CTRL, the SEC control and package
registers, the order registers and HIF_CNQ_HEAD. IMG_CTRL and HIF_CNQ_CTRL have single exempt bits. -/
def heldExempt (a : Nat) : Bool :=
  a == Reg.PLT_RESET_CTRL || a == Reg.SEC_CTRL || a == Reg.SEC_PKG_ADDR 0 || a == Reg.SEC_PKG_ADDR 1 || a == Reg.SEC_PKG_LEN
  || a == Reg.MGT_ORD_ADDR 0 || a == Reg.MGT_ORD_ADDR 1 || a == Reg.MGT_ORD_LEN || a == Reg.MGT_ORD_CTRL
  || ((regRow a).map (fun r => r.base == 0x237000C)).getD false

/-- Whether a write is a clearing write only: every field but the W1C bits is written 0 where it is WO, and with the value that
it holds where it is RW. -/
def clearingOnly (s : State) (r : RegRow) (a : Nat) (v : Word) : Bool :=
  let m := BitVec.ofNat 32 (writableMask s r)
  r.w1c != 0 && (v &&& BitVec.ofNat 32 r.wo) == 0 && (v &&& m) == (rd s a &&& m)

/-- Where a block records a write that HELD refuses. -/
def heldBlock (s : State) (a : Nat) : State :=
  let o := (a - 0x2000000) % 0x400000
  let d := (a - 0x2000000) / 0x400000
  if 0x40000 ≤ a ∧ a < 0x50000 then timEvent s F.TIM_EVT_CTRL_REFUSED
  else if 0x800000 ≤ a ∧ a < 0xC00000 then bump64 s (Reg.OPT_CTRL_REFUSED ((a - 0x800000) / 0x10000)) 1
  else if a < 0x2000000 then s
  else if 0x200000 ≤ o ∧ o < 0x280000 then schEvent s d F.SCH_EVT_CTRL_REFUSED 0xFF
  else if 0x300000 ≤ o ∧ o < 0x340000 then bump64 s (Reg.CHK_CTRL_REFUSED d) 1
  else s

/-- Count a refused write, and record it in its block. -/
def heldRefuse (s : State) (a : Nat) : State := heldBlock (bump64 s Reg.MGT_HELD_REFUSED 1) a

/-- A write that HELD refuses: it clears the W1C bits that it writes as 1, and it counts unless it only clears (R392). Of the TIM
registers every write is refused, one that clears too (R202; DEDUCED, log 210). -/
def heldWrite (s : State) (a : Nat) (v : Word) : State :=
  match regRow (regHome a) with
  | none => s
  | some r => if 0x40000 ≤ a ∧ a < 0x50000 then heldRefuse s a else
    let s1 := wr s a (rd s a &&& ~~~(v &&& BitVec.ofNat 32 r.w1c))
    if clearingOnly s r a v then s1 else heldRefuse s1 a

end Sys2Proof.Machine
end

