-- ==== Sys2Proof/Machine/Bulk.lean ====
section
/-! DEFINITION. Bulk sections of the image: their record and capacity rules, what their activation in a dune does, and
what a discarded section takes with it (spec/02: R48, R58, R59, Table 2.17; spec/06: R149; spec/07: R160; spec/09: R219
to R221; spec/10: R239). -/
namespace Sys2Proof.Machine

/-- The scopes of a directory entry. -/
def entryScopes (s : State) (e : Nat) : List Scope :=
  if eScopeKind e = 0 then s.img.cfg.scopes else (scopeOf s (eScopeNum e)).toList

/-! ## Record formats -/

/-- The records of a preload section (R149). -/
def preloadRecs (t : List Byte) : List TblRec := (pieces 48 (t.length / 48 + 1) t).map recOf

/-- The entry count of a routing-table section: the product of the sizes, 0 without a torus (R160). -/
def torusCells (s : State) : Nat :=
  if torusDims s = 0 then 0 else dimSize s 0 * dimSize s 1 * dimSize s 2

/-- One record of a gate section (R219): port group, cycle, phase, entries. -/
structure GateRec where
  pg : Nat
  count : Nat
  cycle : Nat
  phase : Nat
  rest : Nat
  entries : List Nat
  deriving DecidableEq, Repr

/-- The records of a gate section; none where they do not fill it exactly. -/
def gateRecs : Nat → List Byte → Option (List GateRec)
  | 0, l => if l.isEmpty then some [] else none
  | n + 1, l =>
    let c := beAt l 2 2
    if l.length < 16 + 8 * c then none
    else
      (gateRecs n (l.drop (16 + 8 * c))).map (fun r =>
        { pg := beAt l 0 2, count := c, cycle := beAt l 4 4, phase := beAt l 8 4, rest := beAt l 12 4,
          entries := (List.range c).map (fun i => beAt l (16 + 8 * i) 8) } :: r)

/-- BASE, WORDS and ENTRIES of a microcode section. -/
def ucBase (t : List Byte) : Nat := beAt t 0 2
def ucWords (t : List Byte) : Nat := beAt t 2 2
def ucEntries (t : List Byte) : Nat := beAt t 4 1
/-- Word index of entry `k`. -/
def ucEntry (t : List Byte) (k : Nat) : Nat := beAt t (16 + 4 * k) 2

/-- The text of the library section, once it is active somewhere. -/
def libText (s : State) : Option (List Byte) :=
  ((bulkEntries s).find? (fun e => eType e.2 == 0x20)).bind (fun e => (s.img.bulk.find? (fun b => b.1 == e.1)).map (·.2))

/-- The text of a scope's owner microcode section. -/
def ownerText (s : State) (part : Nat) : Option (List Byte) :=
  ((bulkEntries s).find? (fun e => eType e.2 == 0x21 && (entryScopes s e.2).any (fun x => x.num == part))).bind
    (fun e => (s.img.bulk.find? (fun b => b.1 == e.1)).map (·.2))

/-- Code word `k` of a microcode section. -/
def ucWord (t : List Byte) (k : Nat) : Nat := beAt t (16 + 4 * ucEntries t + 8 * k) 8

/-- The fields of a microcode word (Table 10.2). -/
def uwOp (w : Nat) : Nat := bitsAt w 58 6
def uwD (w : Nat) : Nat := bitsAt w 54 4
def uwA (w : Nat) : Nat := bitsAt w 50 4
def uwB (w : Nat) : Nat := bitsAt w 46 4
def uwM (w : Nat) : Nat := bitsAt w 40 6
def uwRow (w : Nat) : Nat := bitsAt w 35 5
def uwImm (w : Nat) : Nat := w % 2 ^ 32

/-- The bits of a word that an opcode uses besides OP, from the operands of Table 10.3: D, A, B, M, ROW and IMM. -/
def uwUsed (op : Nat) : Nat :=
  let d := 0xF * 2 ^ 54
  let a := 0xF * 2 ^ 50
  let b := 0xF * 2 ^ 46
  let m := 0x3F * 2 ^ 40
  let row := 0x1F * 2 ^ 35
  let imm := 0xFFFFFFFF
  match op with
  | 0x01 | 0x06 => 0xFF
  | 0x02 => a + m + imm
  | 0x03 | 0x08 | 0x09 => d + imm
  | 0x04 => imm
  | 0x0A => d + a + b + imm
  | 0x0B | 0x0C | 0x1C | 0x27 | 0x2C | 0x2D => d + a + b
  | 0x0D | 0x25 => d + a + b + m + imm
  | 0x0E => d + 0xF
  | 0x0F | 0x18 | 0x19 | 0x1A | 0x1B | 0x1E => d + a + b + m
  | 0x10 | 0x13 => m + row + imm
  | 0x11 => a + m + row + imm
  | 0x2B => a + 2 ^ 40 + row + imm
  | 0x12 => row + imm
  | 0x14 => d
  | 0x15 => d + m
  | 0x16 => a + m + imm
  | 0x17 => a
  | 0x1D | 0x24 | 0x26 => d + a
  | 0x1F => d + a + b + 3
  | 0x20 => 3 * 2 ^ 54 + a + b + m
  | 0x21 | 0x22 | 0x23 | 0x2F => d + a + m
  | 0x28 => d + a + imm
  | 0x29 => a + b + imm
  | 0x2A => a + row + imm
  | 0x2E => a + b
  | _ => 0

/-- Whether the rows ROW to ROW + IMM[4:0] lie within 0 to 15 (R228). -/
def uwSpanOk (row imm : Nat) : Bool := decide (row + imm % 32 ≤ 15)

/-- A microcode word from its fields (Table 10.2). -/
def uwMk (op d a b m row imm : Nat) : Nat := op * 2 ^ 58 + d * 2 ^ 54 + a * 2 ^ 50 + b * 2 ^ 46 + m * 2 ^ 40 + row * 2 ^ 35 + imm

/-- The format that M names for a task's `fmt` (Table 10.2); which one a code from 0Fh to 3Eh names is open (log 215). -/
def uwFmt (fmt m : Nat) : Nat := if m = 63 then fmt else if m ≤ 14 then m else Config.vecFree 0x61 m fmt % 15

/-- The word of a branch's target: a signed offset from the branch's own word (R228). -/
def uwTarget (at_ imm : Nat) : Nat := (at_ + imm + (if imm < 2 ^ 31 then 0 else 2 ^ 64 - 2 ^ 32)) % 2 ^ 64

/-- The check of the word at index `at_` when its section, of words `base` to `base + words` - 1, is loaded (R229). -/
def uwOk (libEntries : List Nat) (base words at_ w : Nat) : Bool :=
  let op := uwOp w
  let imm := uwImm w
  let tgt := uwTarget at_ imm
  let inside := decide (base ≤ tgt ∧ tgt < base + words)
  decide (op < 0x30) && (List.range 58).all (fun i => !bitAt w i || bitAt (uwUsed op) i)
  && (if [0x10, 0x11, 0x12, 0x13, 0x2A, 0x2B].contains op then uwSpanOk (uwRow w) imm else true)
  && (if op = 0x13 ∨ op = 0x16 then imm / 32 % 4 != 3 else true)
  && (if op = 0x02 ∨ op = 0x03 then inside else true)
  && (if op = 0x04 then inside || libEntries.contains tgt else true)

/-- The entries of the library section. -/
def libEntries (s : State) : List Nat := match libText s with
  | none => []
  | some l => (List.range 14).map (ucEntry l)

/-- Whether every code word of a section passes its check (R229). -/
def ucWordsOk (entries : List Nat) (t : List Byte) : Bool :=
  (List.range (ucWords t)).all (fun k => uwOk entries (ucBase t) (ucWords t) (ucBase t + k) (ucWord t k))

/-- The record rules of a microcode section (R229, R239). -/
def microcodeOk (s : State) (lib : Bool) (t : List Byte) : Bool :=
  let n := ucEntries t
  let inside := fun k => decide (ucBase t ≤ ucEntry t k ∧ ucEntry t k < ucBase t + ucWords t)
  t.length == 16 + 4 * n + 8 * ucWords t && beNat ((t.drop 5).take 11) == 0 && decide (16 ≤ t.length)
  && (if lib then ucBase t == 0 && n == 16 && (List.range 14).all inside && ucEntry t 14 == 0xFFFF && ucEntry t 15 == 0xFFFF
      else decide (1 ≤ n ∧ n ≤ 32) && (List.range n).all inside
        && (match libText s with
            | none => true
            | some l => decide (ucWords l ≤ ucBase t)))
  && ucWordsOk (if lib then (List.range 14).map (ucEntry t) else libEntries s) t

/-- Whether an owner microcode section has to wait for the library section, which its check reads: neither active nor discarded as yet
(R229, R239; DESIGN CHOICE, log 217). -/
def awaitsLibrary (s : State) (e : Nat) : Bool :=
  eType e == 0x21 && (libText s).isNone
    && (bulkEntries s).any (fun b => eType b.2 == 0x20 && !s.img.discarded.contains b.1)

/-- The record rules of a bulk section by its type, with RECORD_COUNT. -/
def bulkRecordsOk (s : State) (e : Nat) (t : List Byte) : Bool :=
  let halls := (entryScopes s e).map (·.hallPart)
  let preload := fun (table : Nat) =>
    t.length % 48 == 0 && eRecords e == t.length / 48
    && (preloadRecs t).all (fun r => r.op == 1 && r.table == table && recOk r && halls.contains (recPart r))
  match eType e with
  | 0x10 => preload 0
  | 0x11 => preload 1
  | 0x12 => t.length == 256 + 4 * torusCells s && eRecords e == torusCells s + 1
      && (List.range (torusCells s)).all (fun i => bitsAt (beAt t (256 + 4 * i) 4) 6 24 == 0)
  | 0x20 => eRecords e == 1 && microcodeOk s true t
  | 0x21 => eRecords e == 1 && microcodeOk s false t
  | _ =>
    match gateRecs (eRecords e) t with
    | none => false
    | some l => ascending (l.map (·.pg)) && l.all (fun r => decide (r.pg < 256) && r.rest == 0 && decide (r.phase < r.cycle)
        && (entryScopes s e).any (fun x => bitAt x.ripples r.pg)
        && listShapeOk s r.pg r.cycle r.entries)

/-- Whether a bulk section is within the capacity of its target (R48, R239). -/
def bulkFits (e : Nat) (t : List Byte) : Bool :=
  match eType e with
  | 0x10 => decide (eRecords e ≤ 2097152)
  | 0x11 => decide (sumNat ((preloadRecs t).map (fun r => if recV6 r then 2 else 1)) ≤ 1048576)
  | 0x20 | 0x21 => decide (ucBase t + ucWords t ≤ 2048)
  | 0x30 => ((gateRecs (eRecords e) t).getD []).all (fun r => decide (r.count ≤ 4096))
  | _ => true

/-- The check of a bulk section in a dune (R58 step 8): 00h, or the code of the first check that fails. A text that differs
from what another dune activated is a changed source, whose digest no longer matches (R59). -/
def bulkCode (s : State) (i e : Nat) (x : ImgSection) : Nat :=
  let same := match s.img.bulk.find? (fun b => b.1 == i) with
    | none => true
    | some b => b.2 == x.text
  if !same then 0x09
  else if sealCode e x ≠ 0 then sealCode e x
  else if x.text.length ≠ eLength e ∨ !bulkRecordsOk s e x.text then 0x0B
  else if !bulkFits e x.text then 0x0C
  else 0x00

/-! ## Activation -/

/-- The routing table of a section: the mask, bit p in byte 255 − p div 8, and the entries (R160). -/
def routingOf (cells : Nat) (t : List Byte) : RteTable where
  mask := (List.range 64).foldl (fun m w => SMap.put (fun _ => 0) m w (BitVec.ofNat 32 (beAt t (252 - 4 * w) 4))) []
  entries := (List.range cells).foldl (fun m i => SMap.put (fun _ => 0) m i (BitVec.ofNat 32 (beAt t (256 + 4 * i) 4))) []
  ever := true
  lastActive := 0

/-- Load an image gate list into bank 0 of its group, which enters SUSPENDED (R220, R221). -/
def loadGates (s : State) (r : GateRec) : State :=
  let bank := (List.range r.count).foldl (fun m i => SMap.put (fun _ => 0) m i (getAt 0 r.entries i)) []
  let k : GateGeom := ⟨0, r.count, r.cycle, r.phase * nsUnit⟩
  let x := { pgOf s r.pg with bank0 := bank, list := some k, activatedAt := s.clock, cycles := 0 }
  schEvent (setPgSt (wf (setPg s r.pg x) (pgReg r.pg) F.SCH_PG_STATUS_ACTIVE 0) r.pg 4) (r.pg / 32) F.SCH_EVT_SUSPENDED (r.pg % 32)

/-- What the activation of a section in a dune does. A preload passes through the sequencer once, with its first activation;
the routing table and the microcode are the same in every dune. -/
def bulkApply (s : State) (d e : Nat) (first : Bool) (t : List Byte) : State :=
  match eType e with
  | 0x10 | 0x11 =>
    let s1 := if first then (preloadRecs t).foldl (fun u r => (applyRecord u .preload r).1) s else s
    if duneUp s d then s1 else wf s1 (Reg.FWD_STATUS d) F.FWD_STATUS_REPLICA 1
  | 0x12 => if first then setRteTable s 0 (routingOf (torusCells s) t) else s
  | 0x20 => wf s (Reg.BRC_UCODE d) F.BRC_UCODE_LIB_WORDS (ucWords t)
  | 0x30 => (((gateRecs (eRecords e) t).getD []).filter (fun r => r.pg / 32 == d)).foldl loadGates s
  | _ => s

/-! ## Discarding (R59, Table 2.17) -/

/-- Take a preload's records out of the tables again. -/
def unload (s : State) (r : TblRec) : State :=
  match scopeByHall s (recPart r) with
  | none => s
  | some sc =>
    if r.table = 0 then
      match (shadowTabs s sc.num).em.find? (fun e => e.2.key == r.key && e.2.owner == r.owner && e.2.version == r.version && e.2.result == r.result) with
      | none => s
      | some e => update s sc.num [.clear e.1]
    else
      match (shadowTabs s sc.num).routes.find? (fun x => sameRoute r x && x.owner == r.owner && x.version == r.version) with
      | none => s
      | some x => dropRoute s sc x

/-- Engines lose their microcode: not ready, and OFF where they held no task. -/
def microcodeLost (s : State) (gone : Nat → Bool) : State :=
  ((List.range 4096).filter (fun g => engineReady s g && gone g)).foldl (fun u g =>
    let u1 := setEngReady u g false
    if engSt u1 g = 1 then setEngSt u1 g 0 else u1) s

/-- Take back what an activated section had done. -/
def bulkUndo (s : State) (e : Nat) (t : List Byte) : State :=
  match eType e with
  | 0x10 | 0x11 => (preloadRecs t).foldl unload s
  | 0x12 => microcodeLost (setRteTable s 0 RteTable.empty) (fun _ => true)
  | 0x20 => microcodeLost ((List.range 8).foldl (fun u d => wf u (Reg.BRC_UCODE d) F.BRC_UCODE_LIB_WORDS 0) s) (fun _ => true)
  | 0x21 => microcodeLost s (fun g => (entryScopes s e).any (fun x => bitAt x.ripples (g / 16)))
  | _ => ((gateRecs (eRecords e) t).getD []).foldl (fun u r =>
      let x := pgOf u r.pg
      if x.list == some ⟨0, r.count, r.cycle, r.phase * nsUnit⟩ then
        setPgSt (setPg u r.pg { x with bank0 := [], list := none, armed := none }) r.pg 0
      else u) s

/-- Discard a section from every dune of its scope (BULK_SECTION_DISCARD). -/
def bulkDiscard (s : State) (i e code : Nat) : State :=
  let s1 := match s.img.bulk.find? (fun b => b.1 == i) with
    | none => s
    | some b => bulkUndo s e b.2
  let img := { s1.img with active := s1.img.active.filter (fun a => a.1 != i), discarded := s1.img.discarded ++ [i],
                           bulk := s1.img.bulk.filter (fun b => b.1 != i) }
  let s2 := wfs { s1 with img := img } Reg.IMG_ERR [(F.IMG_ERR_CODE, code), (F.IMG_ERR_SECTION, i)]
  let s3 := wf (setMapBit s2 (Reg.IMG_SECT_FAIL 0) i true) Reg.IMG_STATUS F.IMG_STATUS_DEGRADED 1
  if eType e = 0x12 ∨ eType e = 0x20 then microcodeLost s3 (fun _ => true) else s3

/-- LOADED once every bulk section is activated or discarded; a pending seal or AUTO_SEAL takes effect (IMAGE_LOADED, R61). -/
def checkLoaded (s : State) : State :=
  if imgSt s = imgBulk ∧ (bulkEntries s).all (fun e => bulkActivated s e.1 e.2 || s.img.discarded.contains e.1) then
    let s1 := setImgSt s imgLoaded
    if hAutoSeal s1.img.header || rb s1 Reg.IMG_STATUS F.IMG_STATUS_SEAL_PENDING then sealLogged s1 else s1
  else s

/-! ## Command -/

/-- BULK_SECTION_ACTIVATE (R58 step 8, R59): a section streamed into a powered dune of its scope, not active there and not
discarded, is checked, and activated or discarded. In HELD, where the sequencer applies no change, a preload waits (R150); owner
microcode waits for the library. -/
def execBulkSectionActivate (d : Fin 8) (idx : Fin 256) (sec : ImgSection) (s : State) : Host.Outcome State Fault Refusal :=
  let i := idx.val
  .next (match s.img.dir[i]? with
    | none => s
    | some e =>
      if bootType (eType e) ∨ !s.img.accepted ∨ !([2, 3, 4].contains (duneSt s d)) ∨ !(entryDunes s e).contains d.val
          ∨ s.img.active.contains (i, d.val) ∨ s.img.discarded.contains i ∨ !sectionHeld s e sec ∨ (isPreload e ∧ held s) ∨ awaitsLibrary s e then s
      else
        let code := bulkCode s i e sec
        if code = 0 then
          let first := !(s.img.active.any (fun a => a.1 == i))
          let img := { s.img with active := s.img.active ++ [(i, d.val)],
                                  bulk := if s.img.bulk.any (fun b => b.1 == i) then s.img.bulk else s.img.bulk ++ [(i, sec.text)] }
          settle s (checkLoaded (showSections (bulkApply { s with img := img } d e first sec.text)))
        else settle s (checkLoaded (showSections (bulkDiscard s i e code))))

end Sys2Proof.Machine
end

