-- ==== Sys2Proof/Machine/Units.lean ====
section
/-! DEFINITION. Check units, the contribution digest, and the messages of collectives (spec/14: R336 to R339; spec/12: R274,
Table 12.6). -/
namespace Sys2Proof.Machine

/-! ## The check value (R337) -/

/-- The `n` low bits of a number in reverse order. -/
def reflectBits : Nat → Nat → Nat
  | 0, _ => 0
  | n + 1, v => v % 2 * 2 ^ n + reflectBits n (v / 2)

/-- `n` shifts of a check register of width `w`. -/
def checkBits (w poly : Nat) : Nat → Nat → Nat
  | 0, r => r
  | n + 1, r => checkBits w poly n (if r / 2 ^ (w - 1) % 2 = 1 then Nat.xor (r * 2 % 2 ^ w) (poly % 2 ^ w) else r * 2 % 2 ^ w)

/-- The parameters of a check unit. -/
structure CheckCfg where
  w : Nat
  poly : Nat
  init : Nat
  xorout : Nat
  refin : Bool
  refout : Bool
  deriving DecidableEq, Repr

/-- The check value of a byte string under a fold. -/
def checkValue (c : CheckCfg) (fold : Nat) (l : List Byte) : Nat :=
  let r := l.foldl (fun r b =>
    let x := if c.refin then reflectBits 8 b.toNat else b.toNat
    checkBits c.w c.poly 8 (Nat.xor r (x * 2 ^ (c.w - 8)))) (Nat.xor c.init fold % 2 ^ c.w)
  Nat.xor (if c.refout then reflectBits c.w r else r) (c.xorout % 2 ^ c.w)

/-- The fold of a step, chunk and generation: STEP, CHUNK and GEN from the most significant end. -/
def stepFold (step chunk gen : Nat) : Nat := step % 2 ^ 32 * 2 ^ 32 + chunk % 2 ^ 24 * 256 + gen % 256

/-- The parameters of the contribution digest (R339). -/
def digestCfg : CheckCfg := ⟨64, 0x42F0E1EBA9EA3693, 0, 0, false, false⟩

/-- The contribution digest of a payload: CRC-64 of the payload and the three RANK bytes, folded with STEP, CHUNK and GEN (R339). -/
def collDigest (step chunk gen rank : Nat) (payload : List Byte) : Nat :=
  checkValue digestCfg (stepFold step chunk gen) (payload ++ natBe 3 rank)

/-- The parameters that a unit's registers hold. -/
def unitCfg (s : State) (d u : Nat) : CheckCfg :=
  let a := Reg.CHK_UNIT_CFG d u
  ⟨max 7 (rf s a F.CHK_UNIT_CFG_WIDTH_M1) + 1, rn64 s (Reg.CHK_UNIT_POLY d u), rn64 s (Reg.CHK_UNIT_INIT d u),
   rn64 s (Reg.CHK_UNIT_XOROUT d u), rb s a F.CHK_UNIT_CFG_REFIN, rb s a F.CHK_UNIT_CFG_REFOUT⟩

/-- HOST_CHECK_ALLOWED of the image (Table 2.10, R336). -/
def hostCheckAllowed (s : State) : Bool := bitAt s.img.cfg.policyFlags 1

/-- A mismatch of a unit: MISMATCH, its count and the event (R338). -/
def unitMismatch (s : State) (d u part step : Nat) : State :=
  chkEvent (bump64 (wf s (Reg.CHK_UNIT_STATUS d u) F.CHK_UNIT_STATUS_MISMATCH 1) (Reg.CHK_UNIT_MISS d u) 1)
    d F.CHK_EVT_UNIT_MISMATCH part u step

/-- What a unit in queue mode does with a dequeued packet (R337, R338). -/
def unitPacket (s : State) (d u part : Nat) (cfh : Option Cfh) (payload : List Byte) : State :=
  let a := Reg.CHK_UNIT_CFG d u
  let folds := rb s a F.CHK_UNIT_CFG_CFH_FOLD
  let v := match cfh with
    | some c => if folds then checkValue (unitCfg s d u) (stepFold c.step c.chunk c.gen) (payload ++ natBe 3 c.rank)
                else checkValue (unitCfg s d u) (rn64 s (Reg.CHK_UNIT_FOLD d u)) payload
    | none => checkValue (unitCfg s d u) (rn64 s (Reg.CHK_UNIT_FOLD d u)) payload
  let s1 := bump64 (if hostCheckAllowed s then wn64 s (Reg.CHK_UNIT_RESULT d u) v else s) (Reg.CHK_UNIT_PKTS d u) 1
  match cfh with
  | none => s1
  | some c =>
    if rb s a F.CHK_UNIT_CFG_CMP_EN && v != c.digest % 2 ^ (unitCfg s d u).w then unitMismatch s1 d u part c.step else s1

/-- The units of a dune that monitor a local queue: running, in queue mode, on that queue. -/
def monitors (s : State) (d q : Nat) : List Nat :=
  (s.regs.filterMap (fun e =>
    let o := e.1 - Reg.CHK_UNIT_CFG d 0
    if Reg.CHK_UNIT_CFG d 0 ≤ e.1 ∧ o < 64 * 0x80 ∧ o % 0x80 = 0 ∧ getF e.2 F.CHK_UNIT_CFG_BUSY = 1 ∧ getF e.2 F.CHK_UNIT_CFG_SRC = 1 then
      some (o / 0x80) else none)).filter (fun u => rf s (Reg.CHK_UNIT_QUEUE d u) F.CHK_UNIT_QUEUE_QUEUE == q)

/-- Pass a dequeued packet to the units that monitor its queue. -/
def monitorPkt (s : State) (d q part : Nat) (cfh : Option Cfh) (payload : List Byte) : State :=
  (monitors s d q).foldl (fun t u => unitPacket t d u part cfh payload) s

/-! ## Groups and control messages (spec/12) -/

/-- A service endpoint of a spine (Table 12.12). -/
def serviceEp (base coord : Nat) : Nat := base + coord / 2 ^ 6 % 2 ^ 18

/-- The coordinate of a service endpoint. -/
def epCoord (ep : Nat) : Nat := ep % 2 ^ 18 * 2 ^ 6

/-- The collective service endpoint of a spine. -/
def collEp (coord : Nat) : Nat := serviceEp 0xE00000 coord

/-- A group by number. -/
def groupOf (s : State) (g : Nat) : Option Group := SMap.find s.col.groups g

/-- Replace a group. -/
def setGroup (s : State) (g : Nat) (x : Group) : State := { s with col := { s.col with groups := SMap.ins s.col.groups g x } }

/-- A control message (Table 12.6). -/
structure ColMsg where
  typ : Nat
  status : Nat
  order : Nat
  step : Nat
  rank : Nat
  digest : Nat
  esc : Nat
  sat : Nat
  deriving DecidableEq, Repr

/-- A control message with nothing but its TYPE, STATUS and STEP. -/
def ColMsg.plain (typ status step : Nat) : ColMsg := ⟨typ, status, 0, step, 0xFFFFFF, 0, 0, 0⟩

/-- The 32 bytes of a control message. -/
def colMsgBytes (grp gen : Nat) (m : ColMsg) : List Byte :=
  natBe 1 m.typ ++ natBe 1 m.status ++ natBe 2 grp ++ natBe 1 gen ++ natBe 1 m.order ++ natBe 2 0 ++ natBe 4 m.step ++ natBe 3 m.rank
    ++ natBe 1 0 ++ natBe 8 m.digest ++ natBe 4 m.esc ++ natBe 4 m.sat

/-- Whether the spine shadows a twin: it sends nothing but on the twin port (R396). -/
def isMirageSpine (s : State) : Bool := rf s Reg.MGT_TWIN_CFG F.MGT_TWIN_CFG_ROLE == 2

/-- Send a control message of a group to an endpoint, from the spine's own service endpoint. -/
def colSend (s : State) (grp : Nat) (x : Group) (dst : Nat) (m : ColMsg) : State :=
  if isMirageSpine s then s else emit s (.msg none (originCfh s 0 (hallPart s x.part) dst (collEp (ownCoord s)) x.job 32) (colMsgBytes grp x.gen m))

/-- Ask the root to abort a collective with a status (R291). What the spine waits for is noted with the collective. -/
def abortRequest (s : State) (grp step status : Nat) (by_ : Option (Nat × Nat)) : State :=
  match groupOf s grp with
  | none => s
  | some x =>
    let mark := fun (c : Coll) => if c.abortAt.isSome then { c with abortBy := if c.abortBy.isSome then c.abortBy else by_ }
      else { c with abortAt := some s.clock, abortBy := by_ }
    let x' := { x with opened := modFirst (fun c => c.step == step) mark x.opened }
    colSend (setGroup s grp x') grp x' (collEp x.root) (ColMsg.plain 0x15 status step)

end Sys2Proof.Machine
end

