-- ==== Sys2Proof/Machine/Pool.lean ====
section
/-! DEFINITION. The engine pool: engines and their slots, task queues, restarts, kernel runs, and the drains that end (spec/10: R224,
R231 to R235, R240 to R244, Table 10.9). -/
namespace Sys2Proof.Machine

def engOff : Nat := 0
def engIdle : Nat := 1
def engRunning : Nat := 2
def engDraining : Nat := 3
def engQuiesced : Nat := 4
def engDisabled : Nat := 5
def engQuarantined : Nat := 6

/-! ## Engines and task queues -/

/-- An engine by flat grain. -/
def engOf (s : State) (g : Nat) : Engine := (SMap.find s.brc.engines g).getD ⟨none, none, false⟩

/-- A slot of an engine. -/
def slotOf (e : Engine) (b : Bool) : Option TaskCtx := if b then e.slot1 else e.slot0

/-- An engine with a slot replaced. -/
def putSlot (e : Engine) (b : Bool) (x : Option TaskCtx) : Engine := if b then { e with slot1 := x } else { e with slot0 := x }

/-- Whether a slot's task issues instructions: it has not reached END. -/
def issuing (x : Option TaskCtx) : Bool := match x with
  | none => false
  | some c => !c.ending

/-- The slot whose task issues instructions (R224). -/
def issuingSlot (e : Engine) : Option Bool := if issuing e.slot0 then some false else if issuing e.slot1 then some true else none

/-- Replace an engine, and show its slots and the home ripple of its issuing task. -/
def setEng (s : State) (g : Nat) (e : Engine) : State :=
  let home := match issuingSlot e with
    | none => 0
    | some b => ((slotOf e b).map (fun c => c.task.home % 32)).getD 0
  wfs { s with brc := { s.brc with engines := SMap.ins s.brc.engines g e } } (Reg.BRC_ENG_STATE (g / 512) (g % 512))
    [(F.BRC_ENG_STATE_SLOT0, b2n e.slot0.isSome), (F.BRC_ENG_STATE_SLOT1, b2n e.slot1.isSome), (F.BRC_ENG_STATE_HOME, home)]

/-- Tasks queued at a flat ripple, oldest first. -/
def tqOf (s : State) (r : Nat) : List Task := (SMap.find s.brc.queues r).getD []

/-- Replace a ripple's task queue and show its occupancy. -/
def setTq (s : State) (r : Nat) (l : List Task) : State :=
  wf { s with brc := { s.brc with queues := SMap.ins s.brc.queues r l } } (Reg.BRC_TQ (r / 32) (r % 32)) F.BRC_TQ_OCC (min 256 l.length)

/-- Room in a ripple's task queue (R232). -/
def tqRoom (s : State) (r : Nat) : Bool := decide ((tqOf s r).length < 256)

/-- Queue a new task at its home ripple: it takes the next task number. -/
def queueTask (s : State) (t : Task) : State :=
  let s1 := { s with brc := { s.brc with nextTask := s.brc.nextTask + 1 } }
  setTq s1 t.home (tqOf s t.home ++ [{ t with no := s.brc.nextTask }])

/-- The context of a task at dispatch: registers 0, accumulators EMPTY, scratch 0 (R224). -/
def freshCtx (t : Task) (pc : Nat) : TaskCtx where
  task := t
  pc := pc
  s := []
  v := []
  f := []
  stack := []
  acc := []
  scratch := []
  input := 0
  pos := 0
  loads := []
  stores := []
  out := []
  osel := 0
  ovf := 0
  poison := false
  sat := false
  nan := false
  syncing := false
  ending := false

/-- Whether a task's command can still be claimed, or its collective has not ended (R235). -/
def taskLive (s : State) (t : Task) : Bool :=
  match t.owner with
  | .kernel fq no => claimable s (fq / 2048) (fq % 2048) no
  | .coll grp step _ _ => match groupOf s grp with
    | none => false
    | some x => x.opened.any (fun c => c.step == step && c.ended.isNone)

/-- Scope of an engine. -/
def engPart (s : State) (g : Nat) : Nat := partOfRipple s (g / 16)

/-- The unit path of an engine (R17). -/
def engPath (g : Nat) : List Nat := [0, g / 512, g / 16 % 32, g % 16]

/-! ## Runs of kernel commands -/

/-- The run of a command. -/
def runOf (s : State) (fq no : Nat) : Option KRun := s.brc.runs.find? (fun r => r.fq == fq && r.no == no)

/-- Replace a run. -/
def setRun (s : State) (r : KRun) : State :=
  { s with brc := { s.brc with runs := modFirst (fun x => x.fq == r.fq && x.no == r.no) (fun _ => r) s.brc.runs } }

/-! ## Restarts (R234) -/

/-- Put a stopped task back at the head of its home queue. -/
def requeue (s : State) (t : Task) : State := setTq s t.home (t :: tqOf s t.home)

/-- Stop an engine's tasks that have not begun to commit (R242): each is restarted, or discarded where its command has been
claimed (R235). -/
def stopSlot (g : Nat) (s : State) (b : Bool) : State :=
  let e := engOf s g
  match slotOf e b with
  | none => s
  | some c =>
    if c.ending then s
    else
      let s1 := setEng s g (putSlot e b none)
      if taskLive s c.task then requeue (bump64 s1 (Reg.BRC_RESTART_DIS (g / 512)) 1) c.task
      else bump64 s1 (Reg.BRC_DISCARDS (g / 512)) 1

/-- Stop both slots. -/
def stopTasks (s : State) (g : Nat) : State := stopSlot g (stopSlot g s false) true

/-- Whether an engine holds no task. -/
def engFree (e : Engine) : Bool := e.slot0.isNone && e.slot1.isNone

/-! ## Draining (R241 to R244) -/

/-- Whether a task is still queued or in an engine. -/
def taskPresent (s : State) (n : Nat) : Bool :=
  s.brc.queues.any (fun e => e.2.any (fun t => t.no == n))
  || s.brc.engines.any (fun e => [e.2.slot0, e.2.slot1].any (fun x => match x with
    | none => false
    | some c => c.task.no == n))

/-- Whether a drain still owes work (R243): a task queued before it, or a command accepted before it that is not claimed. -/
def stillOwed (s : State) (r : DisReq) : Bool :=
  r.owedTasks.any (taskPresent s) || r.owedCmds.any (fun c => claimable s (c.1 / 2048) (c.1 % 2048) c.2)

/-- Whether some drain owes a command's tasks (R243). -/
def owedCmd (s : State) (c : Nat × Nat) : Bool := s.brc.dis.any (fun e => e.2.owedCmds.contains c)

/-- Whether some request keeps an engine claiming. -/
def keptClaiming (s : State) (g : Nat) : Bool := s.brc.dis.any (fun e => e.2.engines.contains g && stillOwed s e.2)

/-- Engines of a request that count in REMAIN: not yet DISABLED. -/
def disLeft (s : State) (r : DisReq) : Nat := (r.engines.filter (fun g => engSt s g != 5 && engSt s g != 6)).length

/-- Show a dune's request; with no engine left it is done (R244, Table 10.11). -/
def showDis (s : State) (d : Nat) : State :=
  match SMap.find s.brc.dis d with
  | none => s
  | some r =>
    let n := disLeft s r
    let s1 := wfs s (Reg.BRC_DIS_STATUS d) [(F.BRC_DIS_STATUS_REMAIN, n), (F.BRC_DIS_STATUS_PENDING, b2n (n != 0))]
    if n = 0 then
      brcEvent { s1 with brc := { s1.brc with dis := SMap.del s1.brc.dis d } } d F.BRC_EVT_DIS_DONE
        (natBe 1 (engPart s (r.engines.headD (d * 512))) ++ natBe 2 0xFFFF)
    else s1

/-- Drop the engine parts of management requests whose engines are all DISABLED. -/
def dropDone (s : State) : State :=
  { s with brc := { s.brc with dis := s.brc.dis.filter (fun e => decide (e.1 < 16) || disLeft s e.2 != 0) } }

/-- A pool is no longer empty: an engine of it has entered IDLE (R243). -/
def poolBack (s : State) (g : Nat) : State :=
  { s with brc := { s.brc with emptyPools := s.brc.emptyPools.filter (fun e => e != (g / 512, engPart s g)) } }

/-- An engine without tasks leaves RUNNING for IDLE, or DRAINING for QUIESCED once nothing is owed (Table 10.9). -/
def settleEng (s : State) (g : Nat) : State :=
  if !engFree (engOf s g) then s
  else if engSt s g = engRunning then poolBack (setEngSt s g engIdle) g
  else if engSt s g = engDraining ∧ !keptClaiming s g then setEngSt s g engQuiesced
  else s

/-- Settle every engine of the pending requests, and show them. -/
def settleDrains (s : State) : State :=
  let gs := (s.brc.dis.map (fun e => e.2.engines)).flatten
  let s1 := gs.foldl settleEng s
  dropDone ((List.range 8).foldl showDis s1)

/-- An engine enters IDLE and is ready. -/
def enterIdle (s : State) (g : Nat) : State := poolBack (setEngReady (setEngSt s g engIdle) g true) g

/-- Whether the pool of a scope in a dune is empty. -/
def poolEmpty (s : State) (d part : Nat) : Bool := s.brc.emptyPools.contains (d, part)

/-- Whether an engine can do work: IDLE or RUNNING. -/
def engWorks (s : State) (g : Nat) : Bool := engSt s g == engIdle || engSt s g == engRunning

end Sys2Proof.Machine
end

