-- ==== Sys2Proof/Machine/Num.lean ====
section
/-! DEFINITION. The arithmetic contract: formats, exact values, the long accumulator, rounding, the range sentinel, residuals
and the contract generator (spec/11: R246 to R266). Exact values are integers in units of 2^-149. -/
namespace Sys2Proof.Machine

/-! ## Formats (Table 11.1) -/

/-- An element format: bits, exponent bits (0 for the integer formats), mantissa bits (64 for the integer formats, whose
codes are their magnitudes), the power of two of its least unit over 2^-149 (with scale byte 0 for the scaled formats), the
code of the largest finite magnitude, whether it has infinities, and how it is stored: 0 unscaled, 1 a scale per block of 32,
2 a scale per segment. -/
structure Fmt where
  bits : Nat
  ebits : Nat
  mbits : Nat
  shift : Nat
  top : Nat
  inf : Bool
  kind : Nat
  deriving DecidableEq, Repr

/-- The formats of Table 11.1. -/
def fmtOf : Nat → Fmt
  | 0 => ⟨32, 8, 23, 0, 0x7F7FFFFF, true, 0⟩
  | 1 => ⟨16, 8, 7, 16, 0x7F7F, true, 0⟩
  | 2 => ⟨16, 5, 10, 125, 0x7BFF, true, 0⟩
  | 3 => ⟨8, 4, 3, 140, 0x7E, false, 0⟩
  | 4 => ⟨8, 5, 2, 133, 0x7B, true, 0⟩
  | 5 => ⟨8, 4, 3, 13, 0x7E, false, 1⟩
  | 6 => ⟨6, 3, 2, 18, 0x1F, false, 1⟩
  | 7 => ⟨6, 2, 3, 19, 0x1F, false, 1⟩
  | 8 => ⟨4, 2, 1, 21, 7, false, 1⟩
  | 9 => ⟨4, 2, 1, 21, 7, false, 2⟩
  | 10 => ⟨8, 0, 64, 22, 127, false, 2⟩
  | 11 => ⟨4, 0, 64, 22, 7, false, 2⟩
  | 12 => ⟨2, 0, 64, 22, 1, false, 2⟩
  | 13 => ⟨2, 0, 64, 22, 1, false, 2⟩
  | _ => ⟨1, 0, 64, 22, 1, false, 2⟩

/-- The magnitude of a code in least units of its format. -/
def magUnits (mbits c : Nat) : Nat :=
  if c / 2 ^ mbits = 0 then c else (2 ^ mbits + c % 2 ^ mbits) * 2 ^ (c / 2 ^ mbits - 1)

/-- The least unit of a format under a scale byte, in units of 2^-149. -/
def unitOf (f : Fmt) (scale : Nat) : Nat := 2 ^ (f.shift + if f.kind = 0 then 0 else scale)

/-- An element's exact value (R248). -/
def decodeEl (fmt scale raw : Nat) : XVal :=
  let f := fmtOf fmt
  let u : Int := (unitOf f scale : Nat)
  let half := 2 ^ (f.bits - 1)
  if f.kind ≠ 0 ∧ scale = 0xFF then .nan
  else if fmt = 14 then .fin (if raw % 2 = 1 then -u else u)
  else if fmt = 13 then .fin (if raw % 4 = 1 then u else if raw % 4 = 3 then -u else 0)
  else if f.ebits = 0 then .fin (u * (if raw < half then (raw : Int) else (raw : Int) - (2 ^ f.bits : Nat)))
  else
    let m := raw % half
    let neg := raw / half % 2 = 1
    if f.inf ∧ m / 2 ^ f.mbits = 2 ^ f.ebits - 1 then
      if m % 2 ^ f.mbits ≠ 0 then .nan else if neg then .ninf else .pinf
    else if (fmt = 3 ∨ fmt = 5) ∧ m = 0x7F then .nan
    else .fin (if neg then -(u * (magUnits f.mbits m : Nat)) else u * (magUnits f.mbits m : Nat))

/-! ## Storage (Table 11.2) -/

/-- Pack codes, the element of lower index in the more significant bits, and the last byte filled with zeros (R247). -/
def packCodes (bits : Nat) (l : List Nat) : List Byte :=
  let n := (l.length * bits + 7) / 8
  natBe n (l.foldl (fun v c => v * 2 ^ bits + c % 2 ^ bits) 0 * 2 ^ (n * 8 - l.length * bits))

/-- The first `n` codes of packed bytes. -/
def unpackCodes (bits n : Nat) (l : List Byte) : List Nat :=
  let v := beNat l
  (List.range n).map (fun i => v / 2 ^ (l.length * 8 - bits * (i + 1)) % 2 ^ bits)

/-- Bytes of a segment of `n` elements. -/
def segBytes (fmt n : Nat) : Nat :=
  let f := fmtOf fmt
  if f.kind = 0 then n * f.bits / 8
  else if f.kind = 1 then (n + 31) / 32 * (1 + 4 * f.bits)
  else 8 + (n * f.bits + 63) / 64 * 8

/-- Bytes of a tensor of `n` elements. -/
def tensorBytes (fmt n : Nat) : Nat := n / 512 * segBytes fmt 512 + (if n % 512 = 0 then 0 else segBytes fmt (n % 512))

/-- The exact values of a segment of `n` elements (R247, R248). -/
def decodeSeg (fmt n : Nat) (l : List Byte) : List XVal :=
  let f := fmtOf fmt
  if f.kind = 0 then (unpackCodes f.bits n l).map (decodeEl fmt 0)
  else if f.kind = 1 then
    let rec_ := 1 + 4 * f.bits
    ((List.range ((n + 31) / 32)).map (fun b =>
      (unpackCodes f.bits (min 32 (n - 32 * b)) ((l.drop (b * rec_ + 1)).take (4 * f.bits))).map
        (decodeEl fmt ((l.getD (b * rec_) 0).toNat)))).flatten
  else (unpackCodes f.bits n (l.drop 8)).map (decodeEl fmt ((l.headD 0).toNat))

/-- The exact values of a tensor, segment by segment. -/
def decodeTensor (fmt : Nat) (n : Nat) (l : List Byte) : List XVal :=
  ((List.range ((n + 511) / 512)).map (fun i =>
    decodeSeg fmt (min 512 (n - 512 * i)) ((l.drop (i * segBytes fmt 512)).take (segBytes fmt (min 512 (n - 512 * i)))))).flatten

/-! ## The long accumulator (R250 to R252) -/

/-- An accumulator after ACLR. -/
def accEmpty : Acc := ⟨true, false, false, false, 0⟩

/-- An accumulator that holds a value. -/
def accOf : XVal → Acc
  | .fin n => ⟨false, false, false, false, n⟩
  | .pinf => ⟨false, false, true, false, 0⟩
  | .ninf => ⟨false, false, false, true, 0⟩
  | .nan => ⟨false, true, false, false, 0⟩

/-- What an accumulator holds; EMPTY reads 0. -/
def accVal (a : Acc) : XVal := if a.nan then .nan else if a.pinf then .pinf else if a.ninf then .ninf else .fin (if a.empty then 0 else a.val)

/-- Whether an exact sum lies in the range of VALUE (R252). -/
def accFits (n : Int) : Bool := decide (-(2 ^ 315 : Int) ≤ n ∧ n < 2 ^ 315)

/-- The order −∞ < finite < +∞ (R251). -/
def xLe : XVal → XVal → Bool
  | .ninf, _ => true
  | _, .pinf => true
  | .fin a, .fin b => decide (a ≤ b)
  | _, _ => false

/-- Combine a contribution with an accumulator under operation 0 sum, 1 max, 2 min (R251, Table 11.4), and whether the
addition overflowed (R252). -/
def accAdd (op : Nat) (a : Acc) (x : XVal) : Acc × Bool :=
  if x = .nan ∨ accVal a = .nan then (accOf .nan, false)
  else if a.empty then
    match x with
    | .fin n => if accFits n then (accOf x, false) else (accOf .nan, true)
    | _ => (accOf x, false)
  else if op = 1 then (accOf (if xLe x (accVal a) then accVal a else x), false)
  else if op = 2 then (accOf (if xLe (accVal a) x then accVal a else x), false)
  else match accVal a, x with
    | .fin m, .fin n => if accFits (m + n) then (accOf (.fin (m + n)), false) else (accOf .nan, true)
    | .fin _, y => (accOf y, false)
    | y, .fin _ => (accOf y, false)
    | y, z => (accOf (if y = z then y else .nan), false)

/-- Combine two accumulators exactly: an EMPTY one contributes nothing. -/
def accMerge (op : Nat) (a b : Acc) : Acc × Bool := if b.empty then (a, false) else accAdd op a (accVal b)

/-- Combine lists of accumulators and values, and count the overflows. -/
def accAddAll (op : Nat) (as : List Acc) (xs : List XVal) : List Acc × Nat :=
  let r := (as.zip xs).map (fun p => accAdd op p.1 p.2)
  (r.map (·.1), (r.filter (·.2)).length)

/-- Combine two lists of accumulators, and count the overflows. -/
def accMergeAll (op : Nat) (as bs : List Acc) : List Acc × Nat :=
  let r := (as.zip bs).map (fun p => accMerge op p.1 p.2)
  (r.map (·.1), (r.filter (·.2)).length)

/-- The 40 bytes of an accumulator (Table 11.3). -/
def accBytes (a : Acc) : List Byte :=
  natBe 40 (b2n a.empty * 2 ^ 319 + b2n a.nan * 2 ^ 318 + b2n a.pinf * 2 ^ 317 + b2n a.ninf * 2 ^ 316 + (a.val % (2 ^ 316 : Int)).toNat)

/-- An accumulator from its 40 bytes. -/
def accOfBytes (l : List Byte) : Acc :=
  let v := beNat (l.take 40)
  let n : Nat := v % 2 ^ 316
  ⟨bitAt v 319, bitAt v 318, bitAt v 317, bitAt v 316, if n < 2 ^ 315 then (n : Int) else (n : Int) - 2 ^ 316⟩

/-! ## The contract generator (R256) -/

/-- A round of Philox-4×32. -/
def philoxRound (k0 k1 : Nat) (c : Nat × Nat × Nat × Nat) : Nat × Nat × Nat × Nat :=
  let p0 := 0xD2511F53 * c.1
  let p1 := 0xCD9E8D57 * c.2.2.1
  (Nat.xor (Nat.xor (p1 / 2 ^ 32) c.2.1) k0, p1 % 2 ^ 32, Nat.xor (Nat.xor (p0 / 2 ^ 32) c.2.2.2) k1, p0 % 2 ^ 32)

/-- `n` rounds, with the key raised after each. -/
def philoxRounds : Nat → Nat → Nat → Nat × Nat × Nat × Nat → Nat × Nat × Nat × Nat
  | 0, _, _, c => c
  | n + 1, k0, k1, c => philoxRounds n ((k0 + 0x9E3779B9) % 2 ^ 32) ((k1 + 0xBB67AE85) % 2 ^ 32) (philoxRound k0 k1 c)

/-- The 32-bit draw for an element: seed, element index, chunk, step and job. -/
def philox (seed index chunk step job : Nat) : Nat :=
  (philoxRounds 10 (seed % 2 ^ 32) (seed / 2 ^ 32 % 2 ^ 32)
    (index % 2 ^ 32, chunk % 2 ^ 24, step % 2 ^ 32, job % 2 ^ 16 * 2 ^ 16)).1

/-! ## Rounding (R253 to R255) -/

/-- The code of a magnitude `n`/`d` in least units rounded down, the remainder, and the distance to the next code, both
over `d`. -/
def roundDown (mbits n d : Nat) : Nat × Nat × Nat :=
  let q := n / d
  let k := if q < 2 ^ (mbits + 1) then 0 else Nat.log2 q - mbits
  (k * 2 ^ mbits + q / 2 ^ k, n - q / 2 ^ k * 2 ^ k * d, 2 ^ k * d)

/-- The code of a magnitude rounded to nearest, ties to an even code (R254), or stochastically with a draw (R255). -/
def roundMag (mbits : Nat) (stoch : Option Nat) (neg : Bool) (n d : Nat) : Nat :=
  let (c, rem, step) := roundDown mbits n d
  if rem = 0 then c
  else match stoch with
    | none => if 2 * rem < step then c else if step < 2 * rem then c + 1 else c + c % 2
    | some r =>
      if neg then (if r < (step - rem) * 2 ^ 32 / step then c else c + 1)
      else (if r < rem * 2 ^ 32 / step then c + 1 else c)

/-- A value to round: `num`/`den` in units of 2^-149, or a special value. -/
inductive RVal where
  | fin (num : Int) (den : Nat)
  | pinf
  | ninf
  | nan
  deriving DecidableEq, Repr

/-- A written element: its code, its value in units of 2^-149 unless it is NaN or infinite, whether it exceeded its format,
whether it saturated, and whether it is NaN. -/
structure Written where
  code : Nat
  val : Option Int
  exc_ : Bool
  sat : Bool
  nan : Bool
  deriving DecidableEq, Repr

/-- The code of a signed magnitude in a format; a zero is +0. -/
def signedCode (f : Fmt) (neg : Bool) (m : Nat) : Nat :=
  if m = 0 ∨ !neg then m else if f.ebits = 0 then 2 ^ f.bits - m else 2 ^ (f.bits - 1) + m

/-- The canonical NaN of a format with one (R263). -/
def nanCode : Nat → Nat
  | 0 => 0x7FC00000
  | 1 => 0x7FC0
  | 2 => 0x7E00
  | 4 => 0x7E
  | _ => 0x7F

/-- Write a magnitude code. -/
def writeMag (fmt scale : Nat) (neg : Bool) (m : Nat) (exc_ : Bool) : Written :=
  let f := fmtOf fmt
  let q : Int := ((magUnits f.mbits m * unitOf f scale : Nat) : Int)
  if fmt = 14 then ⟨b2n neg, some (if neg then -q else q), exc_, exc_, false⟩
  else ⟨signedCode f neg m, some (if neg then -q else q), exc_, exc_, false⟩

/-- Write one element under a scale, saturated where it exceeds (R254, R255, R258, R259, R263). -/
def writeEl (fmt scale : Nat) (stoch : Option Nat) (x : RVal) : Written :=
  let f := fmtOf fmt
  let infCode := (2 ^ f.ebits - 1) * 2 ^ f.mbits
  match x with
  | .nan => ⟨nanCode fmt, none, false, false, true⟩
  | .pinf => if f.inf then ⟨infCode, none, false, false, false⟩ else writeMag fmt scale false f.top true
  | .ninf => if f.inf then ⟨2 ^ (f.bits - 1) + infCode, none, false, false, false⟩ else writeMag fmt scale true f.top true
  | .fin num den =>
    let neg := decide (num < 0)
    let n := num.natAbs
    let d := den * unitOf f scale
    if fmt = 14 then writeMag fmt scale neg 1 false
    else if fmt = 13 then writeMag fmt scale neg (min 1 (roundMag f.mbits stoch neg n d)) false
    else if magUnits f.mbits f.top * d < n then writeMag fmt scale neg f.top true
    else writeMag fmt scale neg (roundMag f.mbits stoch neg n d) false

/-- The output scale of a block or segment (R253), and whether it would be above FEh. -/
def outScale (fmt : Nat) (den : Nat) (xs : List RVal) : Nat × Bool :=
  let f := fmtOf fmt
  let fins := xs.filterMap (fun x => match x with
    | .fin n _ => some n.natAbs
    | _ => none)
  if f.kind = 0 then (0, false)
  else if fmt < 13 then
    let m := fins.foldl max 0
    let unit := magUnits f.mbits f.top * (den * 2 ^ f.shift)
    let t := (m + unit - 1) / unit
    let i := if t ≤ 1 then 0 else Nat.log2 (t - 1) + 1
    if m = 0 then (0x7F, false) else (min i 254, decide (254 < i))
  else
    let sum := fins.foldl (· + ·) 0
    let d := den * max 1 fins.length
    let l := Nat.log2 (sum / d)
    let i := (if 3 * 2 ^ l * d ≤ 2 * sum then l + 1 else l) - 22
    if sum = 0 then (0x7F, false) else if sum / d = 0 then (0, false) else (min i 254, decide (254 < i))

/-- What a span under one scale is written as: its scale byte, its elements, whether its scale is above FEh, and whether it is
written as NaN whole. -/
structure Span where
  scale : Nat
  els : List Written
  capped : Bool
  whole : Bool
  deriving DecidableEq, Repr

/-- An element of a span that is written as NaN whole. -/
def nanWhole (fmt : Nat) (x : RVal) : Written :=
  ⟨0, none, decide ((x = .pinf ∨ x = .ninf) ∧ (fmtOf fmt).kind = 1), false, false⟩

/-- Write a span: a block of a block-scaled format, a segment of a segment-scaled one, or elements without a scale. `r` gives
the draw of each index under stochastic rounding. -/
def writeSpan (fmt den : Nat) (r : Option (Nat → Nat)) (first : Nat) (xs : List RVal) : Span :=
  let (scale, capped) := outScale fmt den xs
  if (fmtOf fmt).kind ≠ 0 ∧ fmt ≠ 5 ∧ xs.contains .nan then ⟨0xFF, xs.map (nanWhole fmt), capped, true⟩
  else
    let els := xs.zipIdx.map (fun p => writeEl fmt scale (r.map (fun g => g (first + p.2))) p.1)
    ⟨scale, if capped ∧ 13 ≤ fmt then els.map (fun e => { e with sat := e.val != some 0 }) else els, capped, false⟩

/-! ## The range sentinel (R258 to R262) -/

/-- The escalation chain of a format (Table 11.6). -/
def escChain : Nat → List Nat
  | 1 | 2 => [0]
  | 3 | 4 => [1, 0]
  | 6 => [5]
  | 7 => [6, 5]
  | 8 => [7, 6, 5]
  | 9 | 10 | 11 | 12 => [5]
  | _ => []

/-- Whether a written block exceeds its format (R258). -/
def spanExceeds (fmt : Nat) (p : Span) (els : List Written) : Bool :=
  els.any (·.exc_) || (p.capped && (fmtOf fmt).kind == 1)

/-- Split a list into pieces of 32. -/
def blocksOf {α : Type} (l : List α) : List (List α) := (List.range ((l.length + 31) / 32)).map (fun b => (l.drop (32 * b)).take 32)

/-- Write an escalated block: in the first format of the chain in which it does not exceed, else in the last (R260). -/
def escalateBlock (den : Nat) (r : Option (Nat → Nat)) (first : Nat) (xs : List RVal) : List Nat → Nat × Span
  | [] => (0, ⟨0, [], false, false⟩)
  | [g] => (g, writeSpan g den r first xs)
  | g :: rest =>
    let p := writeSpan g den r first xs
    if spanExceeds g p p.els then escalateBlock den r first xs rest else (g, p)

/-- A block record of a span in a format: the scale byte of a block-scaled format, then 32 elements. -/
def spanRecord (fmt : Nat) (p : Span) : List Byte :=
  let body := packCodes (fmtOf fmt).bits (p.els.map (·.code) ++ List.replicate (32 - p.els.length) 0)
  if (fmtOf fmt).kind = 1 then natBe 1 p.scale ++ body else body

/-- A segment rounded: its bytes, for each block of its annex the format and the record where it was escalated, the residuals as FP32 words, saturations, escalated blocks, underflows, whether
a NaN was written, and whether it is poisoned (R264). -/
structure Rounded where
  data : List Byte
  annex : List (Nat × List Byte)
  resid : List Nat
  sat : Nat
  esc : Nat
  ufl : Nat
  nan : Bool
  poison : Bool
  deriving DecidableEq, Repr

/-- The bits of a value rounded to FP32 to nearest even, saturating (R265). -/
def fp32Sat (num : Int) (den : Nat) : Nat := (writeEl 0 0 none (.fin num den)).code

/-- The residual of an element (R265): an infinite value that is written as a finite one saturates it. -/
def residOf (x : RVal) (w : Written) : Nat :=
  match x, w.val with
  | .fin n d, some q => fp32Sat (n - q * (d : Int)) d
  | .pinf, some _ => 0x7F7FFFFF
  | .ninf, some _ => 0xFF7FFFFF
  | _, _ => 0

/-- Fill bytes with zeros up to a length. -/
def padTo (n : Nat) (l : List Byte) : List Byte := l ++ List.replicate (n - l.length) 0

/-- The bytes of the primary area of a segment (Table 11.2). -/
def layoutSeg (fmt : Nat) (spans : List Span) : List Byte :=
  let f := fmtOf fmt
  if f.kind = 0 then packCodes f.bits ((spans.map (fun p => p.els.map (·.code))).flatten)
  else if f.kind = 1 then (spans.map (spanRecord fmt)).flatten
  else
    let p := spans.headD ⟨0x7F, [], false, false⟩
    natBe 1 p.scale ++ natBe 7 0 ++ padTo ((p.els.length * f.bits + 63) / 64 * 8) (packCodes f.bits (p.els.map (·.code)))

/-- The annex of a segment from its blocks (Table 11.7): the tags, then the records of the escalated ones. -/
def annexBytes (blks : List (Nat × List Byte)) : List Byte :=
  let tags := (blks.take 16).map (fun b => (BitVec.ofNat 8 b.1 : Byte)) ++ List.replicate (16 - blks.length) 0xFF
  padTo 2112 ((blks.take 16).foldl (fun l b => if b.2.isEmpty then l else padTo ((l.length + 7) / 8 * 8) l ++ b.2) tags)

/-- Round a segment once (R253 to R265): `den` is the divisor of every value, `first` the index of its first element. -/
def roundSeg (fmt den : Nat) (r : Option (Nat → Nat)) (escalate : Bool) (first : Nat) (xs : List RVal) : Rounded :=
  let kind := (fmtOf fmt).kind
  let spans := if kind = 1 then (blocksOf xs).zipIdx.map (fun p => writeSpan fmt den r (first + 32 * p.2) p.1)
    else [writeSpan fmt den r first xs]
  let whole := spans.any (·.whole)
  let prim := blocksOf ((spans.map (·.els)).flatten)
  let caps := if kind = 1 then spans.map (·.capped) else prim.map (fun _ => false)
  let blks := ((blocksOf xs).zip (prim.zip caps)).zipIdx.map (fun p =>
    let exc_ := p.1.2.1.any (·.exc_) || p.1.2.2
    if escalate && exc_ && !(escChain fmt).isEmpty then
      let e := escalateBlock den r (first + 32 * p.2) p.1.1 (escChain fmt)
      (e.1, e.2.els, spanRecord e.1 e.2)
    else (fmt, p.1.2.1, []))
  let fin := (blks.map (·.2.1)).flatten
  ⟨layoutSeg fmt spans, blks.map (fun b => (b.1, b.2.2)), (xs.zip fin).map (fun p => residOf p.1 p.2), (fin.filter (·.sat)).length,
   (blks.filter (fun b => b.1 != fmt)).length,
   ((xs.zip fin).filter (fun p => match p.1, p.2.val with
     | .fin n _, some q => n != 0 && q == 0
     | _, _ => false)).length,
   whole || fin.any (·.nan), whole && kind == 2⟩

/-- The value to round of an accumulator divided by a divisor, with a residual added back (R254, R266). -/
def toRound (den : Nat) (resid : Int) : XVal → RVal
  | .fin n => .fin (n + resid * (den : Int)) den
  | .pinf => .pinf
  | .ninf => .ninf
  | .nan => .nan

/-- Residuals of a record of FP32 words (R266): the values, a NaN or an infinity taken as 0, and whether one was. -/
def residVals (words : List Nat) : List Int × Bool :=
  let xs := words.map (decodeEl 0 0)
  (xs.map (fun x => match x with
    | .fin n => n
    | _ => 0), xs.any (fun x => match x with
    | .fin _ => false
    | _ => true))

/-- A residual record of 2,112 bytes (R265). -/
def residRecord (step : Nat) (resid : List Nat) : List Byte :=
  padTo 2112 (natBe 4 step ++ natBe 1 1 ++ natBe 3 0 ++ (resid.map (natBe 4)).flatten)

/-- The residuals that a record gives to `n` elements (R266): none where it fails the test; and whether it counts in
NUM_RESID_STALE. `step` is the collective's step; a kernel command asks only for VALID. -/
def residRead (step : Option Nat) (n : Nat) (rec_ : List Byte) : List Int × Bool :=
  let valid := bitAt (beNat ((rec_.drop 4).take 1)) 0
  let ok := valid && match step with
    | none => true
    | some s => beNat (rec_.take 4) == (s + 2 ^ 32 - 1) % 2 ^ 32
  if ok then residVals ((List.range n).map (fun i => beNat ((rec_.drop (8 + 4 * i)).take 4)))
  else (List.replicate n 0, true)

/-! ## FP32 operations of the lanes (R228, IEEE 754-2019, round to nearest even) -/

/-- The sign and the magnitude, in units of 2^-149, of an FP32 word; none for NaN and infinities. -/
def fpFin (w : Nat) : Option (Bool × Nat) :=
  if w / 2 ^ 23 % 256 = 255 then none else some (bitAt w 31, magUnits 23 (w % 2 ^ 31))

/-- Whether an FP32 word is NaN. -/
def fpNan (w : Nat) : Bool := decide (0x7F800000 < w % 2 ^ 31)

/-- Whether an FP32 word is an infinity. -/
def fpInf (w : Nat) : Bool := decide (w % 2 ^ 31 = 0x7F800000)

/-- The exact signed value of a finite word. -/
def fpVal (w : Nat) : Int := let m : Int := (magUnits 23 (w % 2 ^ 31) : Nat); if bitAt w 31 then -m else m

/-- A word from its sign and a magnitude `n`/`d`, rounded to nearest even; what rounds beyond the largest is an infinity. -/
def fpMk (neg : Bool) (n d : Nat) : Nat := b2n neg * 2 ^ 31 + min 0x7F800000 (roundMag 23 none neg n d)

/-- A NaN whose sign and payload the spec leaves open, a function of the operation and its operands. -/
def fpNanOf (op a b : Nat) : Nat :=
  let p := Config.nanPayload op a b
  p / 2 ^ 23 % 2 * 2 ^ 31 + 0x7F800001 + p % (2 ^ 23 - 1)

/-- A word from an exact signed value `n`/`d` that is not zero, or a zero of the given sign. -/
def fpOfInt (zneg : Bool) (n : Int) (d : Nat) : Nat := if n = 0 then b2n zneg * 2 ^ 31 else fpMk (decide (n < 0)) n.natAbs d

/-- The opposite. -/
def fpNeg (w : Nat) : Nat := (w + 2 ^ 31) % 2 ^ 32

/-- Addition. -/
def fpAdd (a b : Nat) : Nat :=
  if fpNan a ∨ fpNan b ∨ (fpInf a ∧ fpInf b ∧ a ≠ b) then fpNanOf 0x18 a b
  else if fpInf a then a else if fpInf b then b
  else fpOfInt (bitAt a 31 && bitAt b 31) (fpVal a + fpVal b) 1

/-- Subtraction. -/
def fpSub (a b : Nat) : Nat :=
  if fpNan a ∨ fpNan b ∨ (fpInf a ∧ a = b) then fpNanOf 0x19 a b else fpAdd a (fpNeg b)

/-- Multiplication. -/
def fpMul (a b : Nat) : Nat :=
  let neg := bitAt a 31 != bitAt b 31
  if fpNan a ∨ fpNan b ∨ (fpInf a ∧ b % 2 ^ 31 = 0) ∨ (fpInf b ∧ a % 2 ^ 31 = 0) then fpNanOf 0x1A a b
  else if fpInf a ∨ fpInf b then b2n neg * 2 ^ 31 + 0x7F800000
  else fpMk neg ((fpVal a).natAbs * (fpVal b).natAbs) (2 ^ 149)

/-- Fused multiply-add `a × b + c`, rounded once. -/
def fpFma (a b c : Nat) : Nat :=
  let neg := bitAt a 31 != bitAt b 31
  let inf := b2n neg * 2 ^ 31 + 0x7F800000
  if fpNan a ∨ fpNan b ∨ fpNan c ∨ (fpInf a ∧ b % 2 ^ 31 = 0) ∨ (fpInf b ∧ a % 2 ^ 31 = 0)
      ∨ ((fpInf a ∨ fpInf b) ∧ fpInf c ∧ c ≠ inf) then fpNanOf 0x1B a (b * 2 ^ 32 + c)
  else if fpInf a ∨ fpInf b then inf
  else if fpInf c then c
  else fpOfInt (neg && bitAt c 31) (fpVal a * fpVal b + fpVal c * 2 ^ 149) (2 ^ 149)

/-- Division, correctly rounded. -/
def fpDiv (a b : Nat) : Nat :=
  let neg := bitAt a 31 != bitAt b 31
  let zero := fun w => decide (w % 2 ^ 31 = 0)
  if fpNan a ∨ fpNan b ∨ (fpInf a ∧ fpInf b) ∨ (zero a ∧ zero b) then fpNanOf 0x1C a b
  else if fpInf a ∨ zero b then b2n neg * 2 ^ 31 + 0x7F800000
  else if fpInf b ∨ zero a then b2n neg * 2 ^ 31
  else fpMk neg ((fpVal a).natAbs * 2 ^ 149) (fpVal b).natAbs

/-- The integer square root below 2^k more than `r`. -/
def isqrtGo (n : Nat) : Nat → Nat → Nat
  | 0, r => r
  | k + 1, r => isqrtGo n k (if (r + 2 ^ k) * (r + 2 ^ k) ≤ n then r + 2 ^ k else r)

/-- Square root, correctly rounded: the root rounded down at double width with a sticky unit. -/
def fpSqrt (a : Nat) : Nat :=
  if a % 2 ^ 31 = 0 then a
  else if fpNan a ∨ bitAt a 31 then fpNanOf 0x1D a 0
  else if fpInf a then a
  else
    let n := (fpVal a).natAbs * 2 ^ 149
    let t := isqrtGo n 220 0
    fpMk false (2 * t + (if t * t = n then 0 else 1)) 2

/-- Whether two words compare: neither is NaN. -/
def fpOrd (a b : Nat) : Bool := !fpNan a && !fpNan b

/-- A key that orders words that are not NaN; zeros of both signs are equal. -/
def fpKey (w : Nat) : Int := let m : Int := ((w % 2 ^ 31 : Nat) : Int); if bitAt w 31 then -m else m

/-- The signed value of a 32-bit word. -/
def i32 (w : Nat) : Int := if w % 2 ^ 32 < 2 ^ 31 then ((w % 2 ^ 32 : Nat) : Int) else ((w % 2 ^ 32 : Nat) : Int) - 2 ^ 32

/-- FP32 to INT32, to nearest even, saturating; of a NaN the result is open (Table 10.3, VCVT). -/
def fpToInt (w : Nat) : Nat :=
  if fpNan w then Config.vecFree 0x23 w 0 % 2 ^ 32
  else if fpInf w then (if bitAt w 31 then 2 ^ 31 else 2 ^ 31 - 1)
  else
    let n := (fpVal w).natAbs
    let q := n / 2 ^ 149
    let rem := n % 2 ^ 149
    let m := if 2 * rem < 2 ^ 149 then q else if 2 ^ 149 < 2 * rem then q + 1 else q + q % 2
    if bitAt w 31 then (2 ^ 32 - min m (2 ^ 31)) % 2 ^ 32 else min m (2 ^ 31 - 1)

/-- INT32 to FP32. -/
def fpOfI32 (w : Nat) : Nat := fpOfInt false (i32 w * 2 ^ 149) 1

/-- An exact value converted to FP32 as INLD does (R249): beyond the largest finite word it is an infinity, NaN is 7FC0_0000h. -/
def fpOfX : XVal → Nat
  | .nan => 0x7FC00000
  | .pinf => 0x7F800000
  | .ninf => 0xFF800000
  | .fin n =>
    let neg := decide (n < 0)
    if magUnits 23 0x7F7FFFFF < n.natAbs then b2n neg * 2 ^ 31 + 0x7F800000 else fpOfInt false n 1

/-- The exact value of an FP32 word. -/
def xOfFp (w : Nat) : XVal := decodeEl 0 0 (w % 2 ^ 32)

end Sys2Proof.Machine
end

