-- ==== Sys2Proof/Machine/Box.lean ====
section
/-! DEFINITION. The geometry of a group's box, the ring schedule, the placement of chunks, and the exact partial form (spec/12:
R280, R283 to R285; Tables 12.2, 12.3, 12.7). -/
namespace Sys2Proof.Machine

/-! ## Fields of a collective's parameter block (Table 12.2) -/

def cpSec (p : Nat) : Nat := fieldBe 64 p 0 4
def cpNs (p : Nat) : Nat := fieldBe 64 p 4 4
def cpOrder (p : Nat) : Nat := fieldBe 64 p 8 1
def cpWin (p : Nat) : Nat := if fieldBe 64 p 9 1 = 0 then 16 else fieldBe 64 p 9 1
def cpStateK (p : Nat) : Nat := fieldBe 64 p 10 1
def cpRootRank (p : Nat) : Nat := fieldBe 64 p 13 3
def cpShard (p : Nat) : Nat := fieldBe 64 p 16 6
def cpResid (p : Nat) : Nat := fieldBe 64 p 24 6
def cpPrm (p i : Nat) : Nat := fieldBe 64 p (32 + 4 * i) 4

/-! ## Boxes and chains -/

/-- Extent of a group's box on an axis (0 X, 1 Y, 2 Z). -/
def boxExt (x : Group) (a : Nat) : Nat := coordAt x.ext a + 1

/-- The axes that an ORDER code names (Table 12.2). -/
def orderAxes : Nat → List Nat
  | 2 => [0, 2, 1]
  | 3 => [1, 0, 2]
  | 4 => [1, 2, 0]
  | 5 => [2, 0, 1]
  | 6 => [2, 1, 0]
  | _ => [0, 1, 2]

/-- The ORDER code of a list of axes. -/
def axesOrder : List Nat → Nat
  | [0, 2, 1] => 2
  | [1, 0, 2] => 3
  | [1, 2, 0] => 4
  | [2, 0, 1] => 5
  | [2, 1, 0] => 6
  | _ => 1

/-- Spines in the box. -/
def boxSize (x : Group) : Nat := boxExt x 0 * boxExt x 1 * boxExt x 2

/-- The coordinate word of a spine of the box, by its digits: an axis of extent 1 has the box's origin. -/
def boxCoord (x : Group) (d : Nat → Nat) : Nat :=
  let at_ := fun a => if boxExt x a = 1 then coordAt x.lo a else d a
  coordOf (at_ 0) (at_ 1) (at_ 2)

/-- Every spine of the box, X fastest. -/
def boxSpines (x : Group) : List Nat :=
  (List.range (boxSize x)).map (fun i => boxCoord x (fun a =>
    if a = 0 then i % boxExt x 0 else if a = 1 then i / boxExt x 0 % boxExt x 1 else i / (boxExt x 0 * boxExt x 1)))

/-- The digit of chunk `c` on the `i`-th axis of an order (R283). -/
def chunkDigit (x : Group) (order c i : Nat) : Nat :=
  let ax := orderAxes order
  let m := fun k => boxExt x (getAt 0 ax k)
  if i = 0 then c % m 0 else if i = 1 then c / m 0 % m 1 else c / (m 0 * m 1) % m 2

/-- The place of an axis in an order. -/
def axisPlace (order a : Nat) : Nat := (orderAxes order).idxOf a

/-- The owner of a chunk (R283). -/
def chunkOwner (x : Group) (order c : Nat) : Nat := boxCoord x (fun a => chunkDigit x order c (axisPlace order a))

/-- Whether a spine takes part in the chain on the `i`-th axis (R284): it has the chunk's digits on the earlier axes. -/
def onChain (x : Group) (order c i coord : Nat) : Bool :=
  (List.range i).all (fun k =>
    let a := getAt 0 (orderAxes order) k
    boxExt x a == 1 || coordAt coord a == chunkDigit x order c k)

/-- How many transfers a spine is from the start of its chain on the `i`-th axis. -/
def chainPlace (x : Group) (order c i coord : Nat) : Nat :=
  let a := getAt 0 (orderAxes order) i
  let n := boxExt x a
  let j := chunkDigit x order c i
  if c % 2 = 0 then (coordAt coord a + n - (j + 1) % n) % n else ((j + n - 1) % n + n - coordAt coord a) % n

/-- The neighbour `k` hops in a direction on an axis. -/
def alongAxis (x : Group) (a coord : Nat) (plus : Bool) : Nat :=
  let n := boxExt x a
  coordSet coord a (if plus then (coordAt coord a + 1) % n else (coordAt coord a + n - 1) % n)

/-- The spine that follows on the chain of the `i`-th axis. -/
def chainNext (x : Group) (order c i coord : Nat) : Nat := alongAxis x (getAt 0 (orderAxes order) i) coord (c % 2 == 0)

/-- The spine that precedes on the chain of the `i`-th axis. -/
def chainPrev (x : Group) (order c i coord : Nat) : Nat := alongAxis x (getAt 0 (orderAxes order) i) coord (c % 2 != 0)

/-- The spine tag of a coordinate (R284). -/
def spineTag (coord : Nat) : Nat := 0x800000 + coord / 64

/-- The places in an order of the axes with more than one spine. -/
def longAxes (x : Group) (order : Nat) : List Nat := (List.range 3).filter (fun i => boxExt x (getAt 0 (orderAxes order) i) != 1)

/-- The spines a held result goes on to (R287): along each axis of the reverse order, from the spines that share the digits of
the earlier axes, the next on the chain unless it is the last. A spine that got the result on axis `i` sends it on along that
axis and along every axis before it in ORDER; `got` is 3 at the owner. -/
def resultNext (x : Group) (order c got coord : Nat) : List Nat :=
  ((longAxes x order).filter (fun i => decide (i ≤ got))).filterMap (fun i =>
    let a := getAt 0 (orderAxes order) i
    let n := boxExt x a
    let gone := if c % 2 = 0 then (coordAt coord a + n - chunkDigit x order c i) % n
                else (chunkDigit x order c i + n - coordAt coord a) % n
    if (i < got ∧ gone = 0) ∨ (i = got ∧ gone + 1 < n) then some (chainNext x order c i coord) else none)

/-- The axis (by its place in the order) on which a spine gets a chunk's result: the last on which it differs from the owner;
none at the owner. -/
def resultAxis (x : Group) (order c coord : Nat) : Option Nat :=
  ((longAxes x order).filter (fun i => coordAt coord (getAt 0 (orderAxes order) i) != chunkDigit x order c i)).head?

/-! ## Collectives -/

/-- Elements of a chunk. -/
def chunkLen (c : Coll) (k : Nat) : Nat := min 512 (c.count - 512 * k)

/-- An open collective of a group. -/
def collIn (x : Group) (step : Nat) : Option Coll := x.opened.find? (fun c => c.step == step)

/-- A collective of a group by number. -/
def collOf (s : State) (grp step : Nat) : Option Coll := (groupOf s grp).bind (fun x => collIn x step)

/-- Replace a collective. -/
def setColl (s : State) (grp : Nat) (c : Coll) : State := match groupOf s grp with
  | none => s
  | some x => setGroup s grp { x with opened := modFirst (fun y => y.step == c.step) (fun _ => c) x.opened }

/-- State words per element of the optimizer that a REDOP names (R288). -/
def shardWords (c : Coll) : Nat := if c.redop = 0x0C then 3 else if c.redop = 0x0B ∨ c.redop = 0x0D then 2 else cpStateK c.params

/-- The place of a chunk's shard, and of its residual record, in Oasis at its owner (R286, R288). -/
def shardAddr (x : Group) (c : Coll) (k : Nat) : Nat := cpShard c.params + k / boxSize x * (2048 * shardWords c)
def residAddr (x : Group) (c : Coll) (k : Nat) : Nat := cpResid c.params + k / boxSize x * 2112

/-! ## The exact partial form (R285, Table 12.7) -/

/-- Bits of the smallest two's complement width of a value; 0 for 0. -/
def widthOf (n : Int) : Nat :=
  if n = 0 then 0 else if n < 0 then (if n = -1 then 1 else Nat.log2 (-n - 1).toNat + 2) else Nat.log2 n.toNat + 2

/-- The record of a block of accumulators; elements past the chunk's end are values 0. -/
def partialRecord (as : List Acc) : List Byte :=
  if as.all (·.empty) then natBe 8 (2 ^ 44)
  else
    let xs := (as.map accVal ++ List.replicate (32 - as.length) (XVal.fin 0))
    let ns := xs.map (fun x => match x with
      | .fin n => n
      | _ => 0)
    let codes := xs.map (fun x => match x with
      | .fin _ => 0
      | .nan => 1
      | .pinf => 2
      | .ninf => 3)
    let g := ns.foldl (fun d n => Nat.gcd d n.natAbs) 0
    let l := if g = 0 then 0 else Nat.log2 (Nat.gcd g (2 ^ 320))
    let w := (ns.map (fun n => widthOf (n / 2 ^ l))).foldl max 0
    let special := codes.any (· != 0)
    let bytes := (32 * w + 63) / 64 * 8
    natBe 8 (l * 2 ^ 55 + w * 2 ^ 46 + b2n special * 2 ^ 45)
      ++ (if special then natBe 8 (codes.foldl (fun v c => v * 4 + c) 0) else [])
      ++ natBe bytes (ns.foldl (fun v n => v * 2 ^ w + encodeSigned w (n / 2 ^ l)) 0 * 2 ^ (8 * bytes - 32 * w))

/-- The records of a chunk's accumulators. -/
def partialRecords (as : List Acc) : List (List Byte) := (blocksOf as).map partialRecord

/-- The packets of a partial, filled from the first (R285). -/
def fillPackets : List Byte → List (List Byte) → List (List Byte)
  | cur, [] => if cur.isEmpty then [] else [cur]
  | cur, r :: rest => if cur.length + r.length ≤ 8192 then fillPackets (cur ++ r) rest else cur :: fillPackets r rest

/-- Bytes of the record at the front of a byte string. -/
def recordLen (l : List Byte) : Nat :=
  let h := beAt l 0 8
  8 + (if bitAt h 45 then 8 else 0) + (if bitAt h 44 then 0 else (32 * bitsAt h 46 9 + 63) / 64 * 8)

/-- The accumulators of a record. -/
def recordAccs (l : List Byte) : List Acc :=
  let h := beAt l 0 8
  if bitAt h 44 then List.replicate 32 accEmpty
  else
    let lo := bitsAt h 55 9
    let w := bitsAt h 46 9
    let special := bitAt h 45
    let codes := if special then beAt l 8 8 else 0
    let off := if special then 16 else 8
    let bytes := (32 * w + 63) / 64 * 8
    let v := beAt l off bytes
    (List.range 32).map (fun i =>
      let c := codes / 4 ^ (31 - i) % 4
      let f := v / 2 ^ (8 * bytes - w * (i + 1)) % 2 ^ w
      accOf (if c = 1 then .nan else if c = 2 then .pinf else if c = 3 then .ninf
        else .fin ((if f < 2 ^ (w - 1) ∨ w = 0 then (f : Int) else (f : Int) - (2 ^ w : Nat)) * 2 ^ lo)))

/-- Split a byte string into whole records; none where it does not consist of them. -/
def splitRecords : Nat → List Byte → Option (List (List Byte))
  | 0, l => if l.isEmpty then some [] else none
  | n + 1, l =>
    if l.isEmpty then some []
    else if l.length < 8 ∨ l.length < recordLen l then none
    else (splitRecords n (l.drop (recordLen l))).map (fun r => l.take (recordLen l) :: r)

/-- The accumulators of a partial of `n` elements. -/
def partialAccs (n : Nat) (l : List Byte) : Option (List Acc) :=
  (splitRecords 16 l).bind (fun rs => if rs.length = (n + 31) / 32 then some (((rs.map recordAccs).flatten).take n) else none)

end Sys2Proof.Machine
end

