-- ==== Sys2Proof/Machine/Output.lean ====
section
/-! DEFINITION. What an engine knows of a task's command, how it rounds and packs output, and what a commit writes (spec/10: R226, R228,
R236, R237, Table 10.6; spec/11: R254 to R266; spec/12: R286, R288). -/
namespace Sys2Proof.Machine

/-! ## The parameter block of a kernel command (Table 10.6) -/

def kpIn (p : Nat) : Nat := fieldBe 64 p 0 6
def kpCount (p : Nat) : Nat := fieldBe 64 p 6 2
def kpStride (p : Nat) : Nat := fieldBe 64 p 8 6
def kpPrm (p i : Nat) : Nat := fieldBe 64 p (16 + 4 * i) 4
def kpAux (p : Nat) : Nat := fieldBe 64 p 48 6
def kpWork (p : Nat) : Nat := fieldBe 64 p 54 6

/-- The seed that a SEED_SEL names (R55, R256). -/
def seedOf (s : State) (sel : Nat) : Nat := getAt 0 s.img.cfg.seeds sel

/-- Bytes of a scope's Oasis space (R11, Table 2.7). -/
def spaceOf (s : State) (part : Nat) : Nat := ((scopeOf s part).map (·.oasisGb)).getD 0 * 2 ^ 30

/-- Whether bytes lie outside a scope's space. -/
def outsideSpace (s : State) (part off len : Nat) : Bool := decide (spaceOf s part < off + len)

/-- JOB of a command queue. -/
def cqJob (s : State) (d q : Nat) : Nat := rf s (Reg.HIF_CQ_JOB d q) F.HIF_CQ_JOB_JOB

/-- What the engine knows of a task's command: its queue and TAG, scope, JOB, STEP and CHUNK, formats, POLICY and seed, the
divisor of MEAN, and the SPRM parameters that do not depend on the task. IN_COUNT is a kernel command's; a collective's task counts its
own inputs. -/
structure TaskInfo where
  fq : Nat
  no : Nat
  tag : Nat
  part : Nat
  job : Nat
  step : Nat
  chunk : Nat
  fmtIn : Nat
  fmtOut : Nat
  policy : Nat
  seed : Nat
  divisor : Int
  stride : Nat
  aux : Nat
  work : Nat
  dst : Nat
  inCount : Option Nat
  prm : List Nat
  deriving DecidableEq, Repr

/-- The divisor of MEAN (R237): PRM0, 0 meaning IN_COUNT; 1 for every other kernel. -/
def kernelDivisor (opcode params : Nat) : Int :=
  if opcode = 0x43 then (if kpPrm params 0 = 0 then (kpCount params : Int) else i32 (kpPrm params 0)) else 1

/-- What the engine knows of a run's tasks. -/
def runInfo (s : State) (r : KRun) : TaskInfo :=
  let d := r.fq / 2048
  let q := r.fq % 2048
  let v := r.desc
  { fq := r.fq, no := r.no, tag := dTag v, part := cqScope s d q, job := cqJob s d q, step := 0, chunk := 0, fmtIn := dFmtIn v,
    fmtOut := dFmtOut v, policy := dPolicy v, seed := seedOf s (dSeedSel v), divisor := kernelDivisor r.opcode r.params,
    stride := kpStride r.params, aux := kpAux r.params, work := kpWork r.params, dst := dDst v, inCount := some (kpCount r.params),
    prm := (List.range 8).map (kpPrm r.params) }

/-- A collective by number, whether it is still open or kept (R347). -/
def collAny (s : State) (grp step : Nat) : Option (Group × Coll) := match groupOf s grp with
  | none => none
  | some x => ((x.opened ++ x.kept).find? (fun c => c.step == step)).map (fun c => (x, c))

/-- What the engine knows of a collective's tasks (R256, R286, R288). -/
def collInfo (s : State) (x : Group) (c : Coll) (k : Nat) : TaskInfo :=
  let slot := (cqOf s (c.fq / 2048) (c.fq % 2048)).slots.find? (fun y => y.no == c.no)
  { fq := c.fq, no := c.no, tag := (slot.map (fun y => dTag y.desc)).getD 0, part := x.part, job := x.job, step := c.step, chunk := k,
    fmtIn := c.fmtIn, fmtOut := c.fmtOut, policy := c.policy, seed := seedOf s c.seedSel,
    divisor := if c.opcode ≠ 0x13 ∧ c.redop = 3 then (x.size : Int) else 1, stride := 0, aux := shardAddr x c k, work := 0, dst := 0, inCount := none,
    prm := (List.range 8).map (cpPrm c.params) }

/-- What the engine knows of a task. -/
def infoOf (s : State) (t : Task) : Option TaskInfo := match t.owner with
  | .kernel fq no => (runOf s fq no).map (runInfo s)
  | .coll grp step k _ => (collAny s grp step).map (fun p => collInfo s p.1 p.2 k)

/-- Whether POLICY rounds stochastically, escalates, and keeps residuals (Table 11.5). -/
def polStoch (p : Nat) : Bool := p / 64 % 4 == 1
def polEscalate (p : Nat) : Bool := bitAt p 5
def polResid (p : Nat) : Bool := bitAt p 4

/-- The draw of an element of a command (R256): the index is the element's within the command, or within the chunk. -/
def drawOf (i : TaskInfo) (index : Nat) : Nat := philox i.seed index i.chunk i.step i.job

/-- The draws under a POLICY; none under round-to-nearest-even. -/
def drawsOf (i : TaskInfo) : Option (Nat → Nat) := if polStoch i.policy then some (drawOf i) else none

/-! ## Output (R261, R262) -/

/-- Merge the packer's rows into runs of one kind, format and rounding. -/
def outRuns : List OutRow → List OutRow
  | [] => []
  | r :: rest => match outRuns rest with
    | a :: more =>
      if a.fmt = r.fmt ∧ a.round = r.round ∧ a.vec = r.vec then { r with vals := r.vals ++ a.vals } :: more else r :: a :: more
    | [] => [r]

/-- Nothing rounded. -/
def Rounded.none : Rounded where
  data := []
  annex := []
  resid := []
  sat := 0
  esc := 0
  ufl := 0
  nan := false
  poison := false

/-- One rounded piece after another. -/
def Rounded.join (a b : Rounded) : Rounded where
  data := a.data ++ b.data
  annex := a.annex ++ b.annex
  resid := a.resid ++ b.resid
  sat := a.sat + b.sat
  esc := a.esc + b.esc
  ufl := a.ufl + b.ufl
  nan := a.nan || b.nan
  poison := a.poison || b.poison

/-- A value divided by the divisor of MEAN, with a residual added back. -/
def divided (divisor : Int) (resid : Int) (x : XVal) : RVal :=
  toRound divisor.natAbs resid (if 0 ≤ divisor then x else match x with
    | .fin n => .fin (-n)
    | .pinf => .ninf
    | .ninf => .pinf
    | .nan => .nan)

/-- Round values that start at element `first` of a command or chunk, under its POLICY. -/
def roundFor (i : TaskInfo) (fmt first : Nat) (resid : List Int) (xs : List XVal) : Rounded :=
  roundSeg fmt i.divisor.natAbs (drawsOf i) (polEscalate i.policy) first
    (xs.zipIdx.map (fun p => divided i.divisor (getAt 0 resid p.2) p.1))

/-- Round the packer's runs, `first` on, of `n` elements in all (R228: the selector takes the task's POLICY, nearest even or
stochastic). A vector is rounded as it stands, accumulators are divided first (R254). -/
def roundRuns (i : TaskInfo) : Nat → Nat → List OutRow → Rounded
  | _, _, [] => Rounded.none
  | first, n, r :: rest =>
    let xs := r.vals.take n
    let draws := if r.round = 0 then drawsOf i else if r.round = 2 then some (drawOf i) else none
    let den := if r.vec then 1 else i.divisor
    (roundSeg r.fmt den.natAbs draws (polEscalate i.policy) first (xs.map (divided den 0))).join
      (roundRuns i (first + xs.length) (n - xs.length) rest)

/-- What a task's packer gives for its primary stream. Where a kernel's rows on other streams go is not stated (log 51). -/
def packed (i : TaskInfo) (c : TaskCtx) : Rounded :=
  roundRuns i c.task.base c.task.count (outRuns (c.out.filter (fun r => r.stream == 0)))

/-- Bytes of the primary area, padded to a multiple of 64 where an annex follows (R261). -/
def primaryBytes (fmt count : Nat) : Nat := (tensorBytes fmt count + 63) / 64 * 64

/-- Write a segment's output, annex and residual record (R261, R265). -/
def putSegment (s : State) (i : TaskInfo) (count seg : Nat) (r : Rounded) : State :=
  let s1 := oasisWrite s i.part (i.dst + seg * segBytes i.fmtOut 512) r.data
  let s2 := if polEscalate i.policy then
      let prim := tensorBytes i.fmtOut count
      let s2 := if seg + 1 = (count + 511) / 512 then oasisWrite s1 i.part (i.dst + prim) (List.replicate (primaryBytes i.fmtOut count - prim) 0) else s1
      oasisWrite s2 i.part (i.dst + primaryBytes i.fmtOut count + 2112 * seg) (annexBytes r.annex)
    else s1
  if polResid i.policy then oasisWrite s2 i.part (i.aux + 2112 * seg) (residRecord 0 r.resid) else s2

/-- Add a segment's counts to a run. -/
def countSegment (r : KRun) (o : Rounded) (stale : Bool) (ovf : Nat) (poison : Bool) : KRun :=
  { r with esc := r.esc + o.esc, sat := r.sat + o.sat, ufl := r.ufl + o.ufl, stale := r.stale + b2n stale, ovf := r.ovf + ovf,
           poison := r.poison + b2n (o.poison || poison) }

/-- The recorded stores of a task, in issue order, from the scratch as it stands (R226). -/
def doStores (s : State) (part : Nat) (c : TaskCtx) : State :=
  c.stores.foldl (fun t p => oasisWrite t part p.2.1 ((List.range p.2.2).map (fun k => SMap.get (fun _ => (0 : Byte)) c.scratch (p.1 + k)))) s

/-- What the commit of a kernel command's task writes: its stores and its output, with what the run counts of it. -/
def writeKernel (s : State) (r : KRun) (c : TaskCtx) : State × KRun :=
  let i := runInfo s r
  let o := packed i c
  let count := dCount r.desc
  let stale := c.task.opcode == 0x4A && polResid i.policy && (residRead none c.task.count (oasisRead s i.part (i.aux + 2112 * c.task.seg) 2112)).2
  let s1 := doStores s i.part c
  let s2 := if c.out.isEmpty then s1 else putSegment s1 i count c.task.seg o
  (s2, countSegment r o stale c.ovf c.poison)

end Sys2Proof.Machine
end

