-- ==== Sys2Proof/Machine/Disable.lean ====
section
/-! DEFINITION. The end of kernel commands before their normal end, and the disabling and quarantine of engines with work in flight
(spec/10: R226, R235, R240 to R244; spec/14: R357). -/
namespace Sys2Proof.Machine

/-! ## Kernel commands that end (R235) -/

/-- Finish the commit that a slot's task has begun for a command (R226, R235): its stores and output are whole, nothing follows. -/
def finishSlot (fq no : Nat) (s : State) (p : Nat × Bool) : State :=
  match slotOf (engOf s p.1) p.2, runOf s fq no with
  | some c, some r =>
    if c.ending && c.task.owner == .kernel fq no then
      let w := writeKernel s r c
      let s1 := setRun w.1 w.2
      settleEng (bump64 (setEng s1 p.1 (putSlot (engOf s1 p.1) p.2 none)) (Reg.BRC_TASKS (p.1 / 512)) 1) p.1
    else s
  | _, _ => s

/-- Finish every commit that a command's tasks have begun. -/
def finishCommits (s : State) (fq no : Nat) : State :=
  (s.brc.engines.flatMap (fun e => [(e.1, false), (e.1, true)])).foldl (finishSlot fq no) s

/-- Forget a run, and remove and count its queued tasks (R235). -/
def dropRun (s : State) (fq no : Nat) : State :=
  let s1 := { s with brc := { s.brc with runs := s.brc.runs.filter (fun x => !(x.fq == fq && x.no == no)) } }
  let h := cqRipple (fq / 2048) (fq % 2048)
  let own := (tqOf s1 h).filter (fun t => t.owner == .kernel fq no)
  if own.isEmpty then s1
  else bump64 (setTq s1 h ((tqOf s1 h).filter (fun t => t.owner != .kernel fq no))) (Reg.BRC_DISCARDS (fq / 2048)) own.length

/-- End a kernel command before its normal end: begun commits finish, its run goes, and it is claimed with a status. -/
def failRun (s : State) (fq no status : Nat) : State :=
  claim (dropRun (finishCommits s fq no) fq no) (fq / 2048) (fq % 2048) no status

/-! ## Disabling (R240 to R244) -/

/-- The pools that a disable of engines empties (R243): no engine of the pool outside the request is in IDLE or RUNNING. -/
def emptiedPools (s : State) (gs : List Nat) : List (Nat × Nat) :=
  (gs.map (fun g => (g / 512, engPart s g))).dedup.filter (fun p =>
    !(List.range 512).any (fun k => let g := p.1 * 512 + k
      engWorks s g && !gs.contains g && engPart s g == p.2))

/-- The flat ripples of a scope in a dune. -/
def poolRipples (s : State) (p : Nat × Nat) : List Nat :=
  ((List.range 32).map (p.1 * 32 + ·)).filter (fun r => partOfRipple s r == p.2)

/-- The tasks queued in a pool. -/
def poolTasks (s : State) (p : Nat × Nat) : List Task := ((poolRipples s p).map (tqOf s)).flatten

/-- Open commands of a scope's queues, as (flat queue, slot number), of the queues and opcodes that `p` accepts. -/
def openOf (s : State) (part : Nat) (p : Nat → Nat → Bool) : List (Nat × Nat) :=
  (s.hif.cqs.filter (fun e => cqScope s (e.1 / 2048) (e.1 % 2048) == part)).flatMap (fun e =>
    (e.2.slots.filter (fun y => slotOpen y && p e.1 (dOpcode y.desc))).map (fun y => (e.1, y.no)))

/-- The accepted kernel commands of a pool: those of the command queues that lie in it. -/
def poolKernels (s : State) (p : Nat × Nat) : List (Nat × Nat) :=
  openOf s p.2 (fun fq op => fq / 2048 == p.1 && decide (0x40 ≤ op ∧ op < 0x80))

/-- The accepted collectives that have tasks in a pool: those of its scope, whose chunks lie in every dune of it. -/
def poolColls (s : State) (p : Nat × Nat) : List (Nat × Nat) := openOf s p.2 (fun _ op => op == 0x10 || op == 0x11 || op == 0x13)

/-- Remove every task of a pool, and those that its accepted kernel commands have still to generate (R243): kernel commands are claimed
ABORTED, the roots of collectives are asked to abort. -/
def removePoolTasks (s : State) (p : Nat × Nat) : State :=
  let colls := ((poolTasks s p).filterMap (fun t => match t.owner with
    | .coll grp step _ _ => some (grp, step)
    | .kernel _ _ => none)).dedup
  let s1 := (poolKernels s p).foldl (fun t c => failRun t c.1 c.2 stAborted) s
  let s2 := (poolRipples s p).foldl (fun t r => if (tqOf t r).isEmpty then t else setTq t r []) s1
  colls.foldl (fun t c => abortRequest t c.1 c.2 stAborted none) s2

/-- Disable one engine (Table 10.9); `kept` says that a drain keeps it claiming. -/
def disableEng (immediate kept : Bool) (s : State) (g : Nat) : State :=
  let st := engSt s g
  let s0 := setEngReady s g false
  if st = engOff then (if s.plat.selfTestFailed.contains g then s else setEngSt s0 g engDisabled)
  else if st = engIdle then setEngSt s0 g (if kept && !immediate then engDraining else engQuiesced)
  else if st = engRunning ∨ st = engDraining then
    if immediate then
      let s1 := stopTasks s0 g
      setEngSt s1 g (if engFree (engOf s1 g) then engQuiesced else engDraining)
    else setEngSt s0 g engDraining
  else if st = engQuiesced then setEng s0 g { engOf s0 g with heldEnable := false }
  else s0

/-- The engines that a disable covers: not those in OFF that failed their self-test (R244). -/
def disCovers (s : State) (gs : List Nat) : List Nat := gs.filter (fun g => !(engSt s g == engOff && s.plat.selfTestFailed.contains g))

/-- Pools are empty from now on, and that is reported (R243). -/
def notePools (s : State) (l : List (Nat × Nat)) : State :=
  l.foldl (fun t p => brcEvent t p.1 F.BRC_EVT_POOL_EMPTY (natBe 1 p.2 ++ natBe 2 0xFFFF))
    { s with brc := { s.brc with emptyPools := (s.brc.emptyPools ++ l).dedup } }

/-- Disable engines under a request (R240 to R244), kept under a key: the dune for BRC_DIS_CTRL, 16 + dune for a function
request or a fence, 32 + dune for a margin test. -/
def disableEngines (s : State) (key : Nat) (gs : List Nat) (immediate : Bool) (scope index : Nat) : State :=
  let cover := disCovers s gs
  let empt := emptiedPools s cover
  let kept := fun g => empt.contains (g / 512, engPart s g)
  let owedT := if immediate then [] else
    ((empt.map (poolTasks s)).flatten.map (·.no))
  let owedC := if immediate then [] else (empt.flatMap (fun p => poolKernels s p ++ poolColls s p)).dedup
  let s1 := cover.foldl (fun t g => disableEng immediate (kept g && (!owedT.isEmpty || !owedC.isEmpty)) t g) s
  let s2 := if immediate then empt.foldl removePoolTasks s1 else s1
  let s3 := { s2 with brc := { s2.brc with dis := SMap.ins s2.brc.dis key ⟨immediate, scope, index, cover, owedT, owedC⟩ } }
  settle s (settleDrains (notePools s3 empt))

/-- Enable one engine (Table 10.9, R244): a DISABLED engine goes to OFF for its self-test, a QUIESCED one is held, a DRAINING
one runs again. -/
def enableEng (s : State) (g : Nat) : State :=
  let st := engSt s g
  if st = engDisabled then setEngSt s g engOff
  else if st = engQuiesced then setEng s g { engOf s g with heldEnable := true }
  else if st = engDraining then
    let s1 := setEngReady (setEngSt s g engRunning) g true
    let s2 := { s1 with brc := { s1.brc with dis := s1.brc.dis.map (fun e => (e.1, { e.2 with engines := e.2.engines.filter (fun x => x != g) })) } }
    settleEng s2 g
  else s

/-- Quarantine an engine (R357): stopped as an immediate disable stops it, put on the list, reported. The last engine of a pool empties
it (R243). -/
def quarantine (s : State) (g : Nat) : State :=
  let empt := emptiedPools s (disCovers s [g])
  let s0 := disableEng true false s g
  let s1 := notePools (empt.foldl removePoolTasks s0) empt
  let s2 := { s1 with plat := { s1.plat with quarantine := if s.plat.quarantine.contains g then s.plat.quarantine else s.plat.quarantine ++ [g] } }
  let s3 := bump64 s2 (Reg.CHK_QUARANTINES (g / 512)) 1
  let s4 := chkEvent (fsrStore s3 0x02 (engPath g) [] [] (engPart s g) [] []) (g / 512) F.CHK_EVT_QUARANTINE (engPart s g) (g % 512) 0
  settle s (if engSt s4 g = engDisabled then setEngSt s4 g engQuarantined else s4)

end Sys2Proof.Machine
end

