-- ==== Sys2Proof/Machine/Engines.lean ====
section
/-! DEFINITION. Tasks of kernel commands: generation, claiming, restarts by checks, faults and completion, and the requests
that enable and disable engines (spec/10: R226, R230 to R237, R240 to R245; spec/11: R262, R271; spec/14: R344). -/
namespace Sys2Proof.Machine

/-! ## Generation (R231, R232) -/

/-- The operation of a kernel's tasks. -/
def kernelOp (opcode : Nat) : Nat := if opcode = 0x41 then 1 else if opcode = 0x42 then 2 else 0

/-- Phases of a kernel (Table 10.7). -/
def kernelPhases (opcode : Nat) : Nat := if 0x44 ≤ opcode ∧ opcode ≤ 0x47 then 2 else if opcode = 0x48 then 3 else 1

/-- The inputs of segment `i` of a kernel command: a pair list or rows of tokens whole, else the segment of each input; QUANT
with RESIDUAL reads the residual record as a second input, marked by format code 20h (R421). -/
def kernelInputs (opcode params part fmt policy i : Nat) : List InSrc :=
  let off := if 0x44 = opcode ∨ opcode = 0x48 ∨ opcode = 0x49 then 0 else i * segBytes fmt 512
  (List.range (kpCount params)).map (fun j => InSrc.oasis part (kpIn params + j * kpStride params + off) fmt)
    ++ (if opcode = 0x4A ∧ polResid policy then [InSrc.oasis part (kpAux params + 2112 * i) 0x20] else [])

/-- The task of a run for a segment in a phase. How many elements the one task of a later phase covers is not stated, but that they are at
most 512 (R224, log 215). -/
def kernelTask (s : State) (r : KRun) (phase seg : Nat) : Task where
  no := 0
  owner := .kernel r.fq r.no
  opcode := r.opcode
  op := kernelOp r.opcode
  phase := phase
  seg := seg
  base := 512 * seg
  count := if phase = 1 then min 512 (dCount r.desc - 512 * seg) else Config.vecFree 0x62 (r.opcode * 4 + phase) (dCount r.desc) % 513
  inputs := if phase = 1 then
      kernelInputs r.opcode r.params (cqScope s (r.fq / 2048) (r.fq % 2048)) (dFmtIn r.desc) (dPolicy r.desc) seg
    else []
  home := cqRipple (r.fq / 2048) (r.fq % 2048)
  excluded := none
  checks := 0

/-- Whether a run's tasks may be generated: its pool is not empty, or a drain still owes them (R243). -/
def mayGenerate (s : State) (r : KRun) : Bool :=
  !poolEmpty s (r.fq / 2048) (cqScope s (r.fq / 2048) (r.fq % 2048)) || owedCmd s (r.fq, r.no)

/-- The next task of a run is generated, when its ripple's queue has room. After the last of phase 1 its queue may dispatch
again. -/
def generate (s : State) (r : KRun) : State :=
  if r.next < r.total ∧ tqRoom s (cqRipple (r.fq / 2048) (r.fq % 2048)) ∧ mayGenerate s r then
    let s1 := setRun (queueTask s (kernelTask s r r.phase r.next)) { r with next := r.next + 1 }
    if r.next + 1 = r.total ∧ r.phase = 1 then modSlot s1 (r.fq / 2048) (r.fq % 2048) r.no (fun x => { x with holds := false }) else s1
  else s

/-- TASK_GENERATE (R232): the oldest run of the queue with a task left. -/
def execTaskGenerate (d : Fin 8) (q : Fin 2048) (s : State) : Host.Outcome State Fault Refusal :=
  .next (match s.brc.runs.find? (fun r => r.fq == flatQ d q && decide (r.next < r.total)) with
    | none => s
    | some r => generate s r)

/-! ## Claiming (R233) -/

/-- Remove the tasks of claimed commands and ended collectives from a ripple's queue (R235). -/
def sweepTq (s : State) (r : Nat) : State :=
  let dead := (tqOf s r).filter (fun t => !taskLive s t)
  if dead.isEmpty then s else bump64 (setTq s r ((tqOf s r).filter (taskLive s))) (Reg.BRC_DISCARDS (r / 32)) dead.length

/-- Whether tasks of a scope can run in a dune: it is UP, credits are not withheld (Table 3.10), and some engine of the pool is ready and
works, or a drain keeps it claiming (R70, R243). -/
def engineLeft (s : State) (d part : Nat) : Bool :=
  duneUp s d && !workStopped s
  && (List.range 512).any (fun k => let g := d * 512 + k
    ((engineReady s g && engWorks s g) || (engSt s g == engDraining && keptClaiming s g)) && engPart s g == part)

/-- Whether an engine claims: ready in IDLE or RUNNING, or kept claiming by a drain; no task of it issues and a slot is free. -/
def mayClaim (s : State) (g : Nat) : Bool :=
  duneUp s (g / 512) && !workStopped s
  && ((engineReady s g && engWorks s g) || (engSt s g == engDraining && keptClaiming s g))
  && (issuingSlot (engOf s g)).isNone && ((engOf s g).slot0.isNone || (engOf s g).slot1.isNone)

/-- The command that a task works for. -/
def cmdOf (s : State) : TaskFor → Option (Nat × Nat)
  | .kernel fq no => some (fq, no)
  | .coll grp step _ _ => (collOf s grp step).map (fun c => (c.fq, c.no))

/-- Whether an engine may take a task: it is not excluded, and a draining engine takes only what its drain still owes (R243). -/
def mayTake (s : State) (g : Nat) (t : Task) : Bool :=
  t.excluded != some g
  && (engineReady s g || s.brc.dis.any (fun e => e.2.engines.contains g && (e.2.owedTasks.contains t.no
      || (cmdOf s t.owner).any (fun c => e.2.owedCmds.contains c))))

/-- The ripple an engine would steal from: most tasks, at least STEAL_MIN, of its dune and scope, ties to the smallest distance. -/
def victim (s : State) (g : Nat) : Option Nat :=
  let d := g / 512
  let own := g / 16
  let least := max 1 (rf s (Reg.BRC_CFG d) F.BRC_CFG_STEAL_MIN)
  let rs := ((List.range 31).map (fun k => d * 32 + (own + k + 1) % 32)).filter (fun r =>
    decide (least ≤ (tqOf s r).length) && partOfRipple s r == partOfRipple s own && (scopeOfRipple s r).isSome)
  rs.foldl (fun b r => match b with
    | none => some r
    | some v => if (tqOf s v).length < (tqOf s r).length then some r else b) none

/-- The word at which a kernel begins: its entry in the library, or in the scope's owner section (R236, R239). -/
def kernelEntry (s : State) (part opcode : Nat) : Nat :=
  if opcode < 0x60 then ((libText s).map (fun t => ucEntry t (opcode - 0x40))).getD 0
  else ((ownerText s part).map (fun t => ucEntry t (opcode - 0x60))).getD 0

/-- An engine takes a task from a ripple's queue into its free slot. -/
def takeTask (s : State) (g r : Nat) (t : Task) : State :=
  let s1 := setTq s r ((tqOf s r).filter (fun u => u.no != t.no))
  let e := engOf s1 g
  let s2 := setEng s1 g (putSlot e e.slot0.isSome (some (freshCtx t (kernelEntry s (engPart s g) t.opcode))))
  if engSt s2 g = engIdle then setEngSt s2 g engRunning else s2

/-- What an engine would claim: the oldest task of its own ripple; with none queued there and STEAL_EN set, the oldest of the victim. -/
def claimOf (s : State) (g : Nat) : Option (Nat × Task) :=
  let from_ := fun (r : Nat) => ((tqOf s r).find? (mayTake s g)).map (fun t => (r, t))
  if !mayClaim s g then none
  else if !(tqOf s (g / 16)).isEmpty then from_ (g / 16)
  else if rb s (Reg.BRC_CFG (g / 512)) F.BRC_CFG_STEAL_EN then (victim s g).bind from_ else none

/-- Whether another engine claims from a queue before an engine (R233): its owners in ascending grain order, then the thieves in
ascending flat grain order. -/
def claimedBefore (s : State) (g r : Nat) : Bool :=
  let takes := fun (h : Nat) => (claimOf s h).any (fun p => p.1 == r)
  if g / 16 = r then (List.range (g % 16)).any (fun k => takes (r * 16 + k))
  else (List.range 16).any (fun k => takes (r * 16 + k)) || (List.range (g % 512)).any (fun k => takes (g / 512 * 512 + k))

/-- ENGINE_CLAIM (R233): an engine takes what it may, in its turn of the claiming round. -/
def execEngineClaim (g : Fin 4096) (s : State) : Host.Outcome State Fault Refusal :=
  let d := g.val / 512
  .next (if mayClaim s g then
      let s1 := (List.range 32).foldl (fun u k => sweepTq u (d * 32 + k)) s
      match claimOf s1 g with
      | none => s1
      | some (r, t) =>
        if claimedBefore s1 g r then s1
        else if r = g.val / 16 then takeTask s1 g r t
        else bump64 (takeTask s1 g r t) (Reg.BRC_STEALS d) 1
    else s)

/-! ## Ends of tasks without commit -/

/-- Empty a slot, and let the engine settle. -/
def dropSlot (s : State) (g : Nat) (b : Bool) : State := settleEng (setEng s g (putSlot (engOf s g) b none)) g

/-- End a task's command, or ask for the abort of its collective. -/
def failOwner (s : State) (t : Task) (status : Nat) : State := match t.owner with
  | .kernel fq no => failRun s fq no status
  | .coll grp step _ _ => abortRequest s grp step status none

/-- Capture the first fault of a dune until it is read (R230, Table 10.11), with the code of a FAULT or END, which no register shows
(R228, log 219). -/
def captureFault (s : State) (g pc code sub : Nat) (i : TaskInfo) : State :=
  let d := g / 512
  if (SMap.find s.brc.captured d).isSome then s
  else
    let s1 := wfs s (Reg.BRC_FAULT0 d) [(F.BRC_FAULT0_CODE, code), (F.BRC_FAULT0_GRAIN, g % 512)]
    let s2 := wfs s1 (Reg.BRC_FAULT1 d) [(F.BRC_FAULT1_QUEUE, i.fq % 2048), (F.BRC_FAULT1_WORD, pc)]
    let s3 := wf s2 (Reg.BRC_FAULT2 d) F.BRC_FAULT2_TAG i.tag
    { s3 with brc := { s3.brc with captured := SMap.ins s3.brc.captured d sub } }

/-- A run-time fault of a task (R230, Table 10.4). -/
def faultTask (s : State) (g : Nat) (b : Bool) (c : TaskCtx) (code sub : Nat) : State :=
  let d := g / 512
  let s1 := match infoOf s c.task with
    | none => s
    | some i => captureFault s g c.pc code sub i
  let s2 := brcEvent (bump64 s1 (Reg.BRC_FAULTS d) 1) d F.BRC_EVT_FAULT (natBe 1 (engPart s g) ++ natBe 2 (g % 512))
  settleDrains (failOwner (dropSlot s2 g b) c.task (if code = 2 then stDenied else if code = 6 then stPoisoned else stBadDescriptor))

/-- A residue event of an engine (R344): counted for it, and three within 24 h quarantine it. -/
def residueEvent (s : State) (g : Nat) : State :=
  let l := (((SMap.find s.chk.resEvents g).getD []).filter (fun t => decide (s.clock < t + 86400 * secUnit))) ++ [s.clock]
  let s1 := { s with chk := { s.chk with resEvents := SMap.ins s.chk.resEvents g l } }
  let s2 := wn64 s1 (Reg.CHK_RES_EVT (g / 512) (g % 512)) l.length
  if 3 ≤ l.length then quarantine s2 g else s2

/-- A residue mismatch stops a task (R344): it is restarted with its engine excluded, but not a third time. -/
def residueStop (s : State) (g : Nat) (b : Bool) (c : TaskCtx) : State :=
  let d := g / 512
  let grp := match c.task.owner with
    | .kernel _ _ => (0xFFFF, 0)
    | .coll x step _ _ => (x, step)
  let s1 := chkEvent (bump64 s (Reg.CHK_RESIDUE d) 1) d F.CHK_EVT_RESIDUE (engPart s g) (g % 512) grp.2
  let s2 := dropSlot (fsrStore s1 0x01 (engPath g) [] [] (engPart s g) [] []) g b
  let t : Task := { c.task with excluded := some g, checks := c.task.checks + 1 }
  let s3 := if !taskLive s c.task then bump64 s2 (Reg.BRC_DISCARDS d) 1
    else if t.checks < 3 then requeue (bump64 s2 (Reg.BRC_RESTART_CHK d) 1) t else failOwner s2 t stDigestFail
  settleDrains (residueEvent s3 g)

/-- A task whose command was claimed before its commit began is stopped (R235). -/
def discardTask (s : State) (g : Nat) (b : Bool) : State :=
  settleDrains (bump64 (dropSlot s g b) (Reg.BRC_DISCARDS (g / 512)) 1)

/-! ## Completion (R236, R262, R271) -/

/-- The body of a NUM notification after its event bit. -/
def numBody (i : TaskInfo) : List Byte := natBe 1 i.part ++ natBe 2 (i.fq / 2048 * 2 ^ 13 + i.fq % 2048) ++ natBe 2 i.tag ++ natBe 2 0

/-- Count and report the totals of a command that completes with them (R262, R264, R266, R252, R271). -/
def numTotals (s : State) (i : TaskInfo) (esc sat ufl stale ovf poison : Nat) : State :=
  let add := fun (s : State) (n a : Nat) (f : Option BitRange) =>
    if n = 0 then s else match f with
      | none => bump64 s a n
      | some f => numEvent (bump64 s a n) f (numBody i)
  let s1 := add s esc (Reg.NUM_ESC_BLOCKS i.part) (some F.NUM_EVT_ESCALATED)
  let s2 := add s1 sat (Reg.NUM_SAT i.part) (some F.NUM_EVT_SATURATED)
  let s3 := add s2 ufl (Reg.NUM_UFL i.part) none
  let s4 := add s3 (min 1 poison) (Reg.NUM_NAN_POISON i.part) (some F.NUM_EVT_NAN_POISON)
  let s5 := add s4 stale (Reg.NUM_RESID_STALE i.part) (some F.NUM_EVT_RESID_STALE)
  add s5 ovf (Reg.NUM_ACC_OVF i.part) (some F.NUM_EVT_ACC_OVF)

/-- Poisoned segments of a command (R354): counted, recorded and reported. -/
def poisoned (s : State) (d : Nat) (i : TaskInfo) (segs obj : Nat) (coll : List (Nat × Nat)) : State :=
  if segs = 0 then s
  else chkEvent (fsrStore (bump64 s (Reg.CHK_POISONED d) segs) 0x06 [0, d] [] [] i.part ((14, i.job) :: coll) []) d F.CHK_EVT_POISON i.part obj i.step

/-- The status of a command that ends on its normal path (R262). -/
def normalStatus (esc : Nat) (poison : Bool) : Nat := if poison then stPoisoned else if 0 < esc then stRangeEscalated else stOk

/-- A kernel command's last task has committed: it completes. Its DIGEST32 is open: no rule gives a kernel a result digest (R98,
log 148). -/
def finishRun (s : State) (r : KRun) : State :=
  let i := runInfo s r
  let d := r.fq / 2048
  let q := r.fq % 2048
  let s1 := poisoned (numTotals s i r.esc r.sat r.ufl r.stale r.ovf r.poison) d i r.poison 0xFFFF []
  let s2 := tickFree (setResult s1 d q r.no (freeNat s1 % 2 ^ 64) r.esc r.sat)
  claim (dropRun s2 r.fq r.no) d q r.no (normalStatus r.esc (0 < r.poison))

/-- A task of a run has committed: the run goes on, to its next phase, or ends (R237). -/
def advanceRun (s : State) (r : KRun) : State :=
  if r.done + 1 < r.total then setRun s { r with done := r.done + 1 }
  else if r.phase < kernelPhases r.opcode then
    let r' := { r with phase := r.phase + 1, next := 0, total := 1, done := 0 }
    generate (setRun s r') r'
  else finishRun s r

/-- The commit of a kernel command's task: its stores, its output, and the run's progress. -/
def commitKernel (s : State) (r : KRun) (c : TaskCtx) : State :=
  let w := writeKernel s r c
  advanceRun (setRun w.1 w.2) w.2

/-! ## Enabling and disabling engines (R240 to R244) -/

/-- SCOPE of a BRC_DIS_CTRL word; 11b acts as 00b (Table 10.11). -/
def disScopeCode (v : Word) : Nat := bitsAt v.toNat 19 2 % 3

/-- The engines of a BRC_DIS_CTRL word: one engine, a ripple, or the pool of a scope in the dune. -/
def disScope (s : State) (d : Nat) (v : Word) : List Nat :=
  let sc := disScopeCode v
  let i := bitsAt v.toNat 0 9
  if sc = 1 then (if i < 32 then (List.range 16).map (fun k => d * 512 + i * 16 + k) else [])
  else if sc = 2 then ((scopeRipples s i d).map (fun r => (List.range 16).map (fun k => r * 16 + k))).flatten
  else [d * 512 + i]

/-- Set RESULT of BRC_DIS_STATUS. -/
def disResult (s : State) (d n : Nat) : State := wf s (Reg.BRC_DIS_STATUS d) F.BRC_DIS_STATUS_RESULT n

/-- A write of BRC_DIS_CTRL with the right key and exactly the bits `on` of ENABLE and DISABLE set: refused in HELD, with a
pending request but for an upgrade, or by `act` (R244). -/
def disWrite (s : State) (d : Nat) (v : Word) (enable immediate : Bool) (act : State → List Nat → State) : State :=
  if !keyOk v || !duneUp s d || wbit v 23 != enable || wbit v 22 == enable || (!enable && wbit v 21 != immediate) then s
  else if held s then heldRefuse (disResult s d 3) (Reg.BRC_DIS_CTRL d)
  else match SMap.find s.brc.dis d with
    | some r =>
      if !enable && immediate && !r.immediate && r.scope == disScopeCode v && r.index == bitsAt v.toNat 0 9 then act s (disScope s d v)
      else disResult s d 4
    | none => act s (disScope s d v)

/-- ENGINE_ENABLE: refused where an engine of the scope is QUARANTINED. -/
def execEngineEnable (d : Fin 8) (v : Word) (s : State) : Host.Outcome State Fault Refusal :=
  .next (disWrite s d v true false (fun t gs =>
    if gs.any (fun g => engSt t g == engQuarantined) then disResult t d 2
    else settle s (settleDrains (gs.foldl enableEng (disResult t d 1)))))

/-- ENGINE_DISABLE_DRAIN. -/
def execEngineDisableDrain (d : Fin 8) (v : Word) (s : State) : Host.Outcome State Fault Refusal :=
  .next (disWrite s d v false false (fun t gs =>
    disableEngines (disResult t d 1) d gs false (disScopeCode v) (bitsAt v.toNat 0 9)))

/-- ENGINE_DISABLE_IMMEDIATE. -/
def execEngineDisableImmediate (d : Fin 8) (v : Word) (s : State) : Host.Outcome State Fault Refusal :=
  .next (disWrite s d v false true (fun t gs =>
    disableEngines (disResult t d 1) d gs true (disScopeCode v) (bitsAt v.toNat 0 9)))

/-- ENGINE_ZEROED (Table 10.9): a QUIESCED engine has zeroed its state and is DISABLED, or QUARANTINED where it is on the list; an
enable that was held takes it to OFF. -/
def execEngineZeroed (g : Fin 4096) (s : State) : Host.Outcome State Fault Refusal :=
  .next (if engSt s g = engQuiesced then
      let wanted := (engOf s g).heldEnable
      let s1 := setEng s g ⟨none, none, false⟩
      let s2 := if s.plat.quarantine.contains g.val then setEngSt s1 g engQuarantined else setEngSt s1 g engDisabled
      let s3 := settleDrains s2
      settle s (if wanted ∧ engSt s3 g = engDisabled then setEngSt s3 g engOff else s3)
    else s)

/-- BRC_FAULT2_READ: a read of BRC_FAULT2 releases the capture (R230). -/
def execBrcFault2Read (d : Fin 8) (s : State) : Host.Outcome State Fault Refusal :=
  .next { s with brc := { s.brc with captured := SMap.del s.brc.captured d.val } }

end Sys2Proof.Machine
end

