-- ==== Sys2Proof/Machine/Reduce.lean ====
section
/-! DEFINITION. The progress of collectives: reservations, the tasks of chunks, partials and results on the rings, receipts, and
the ends of collectives (spec/12: R278 to R289, R295; spec/14: R339 to R342, R347; spec/16: R394 to R396). -/
namespace Sys2Proof.Machine

/-! ## Members and messages -/

/-- The local working members, in ascending RANK. -/
def workers (x : Group) : List Member := x.entries.filter (fun m => m.role == 0)

/-- The Mirage members whose shadowing goes on. -/
def mirages (x : Group) : List Member := x.entries.filter (fun m => m.role == 2 && !m.ended)

/-- The local working members as a collective knows them: a rank that a swap has moved since dispatch keeps its old endpoint
(R295). -/
def collWorkers (x : Group) (c : Coll) : List Member :=
  (workers x).map (fun m => match c.oldEps.find? (fun e => e.1 == m.rank) with
    | some e => { m with ep := e.2 }
    | none => m)

/-- The local members that receive results: ROOT_RANK alone for REDUCE (R287). -/
def receivers (x : Group) (c : Coll) : List Member :=
  if c.opcode = 0x11 then (collWorkers x c).filter (fun m => m.rank == cpRootRank c.params) else collWorkers x c

/-- The local members that contribute: ROOT_RANK alone for BROADCAST, none for BARRIER (R272). -/
def contributors (x : Group) (c : Coll) : List Member :=
  if c.opcode = 0x12 then (collWorkers x c).filter (fun m => m.rank == cpRootRank c.params)
  else if c.opcode = 0x14 then [] else collWorkers x c

/-- The endpoints that what goes to a member goes to: its own, and those of the Mirage members of its rank (R394). -/
def memberEps (x : Group) (m : Member) : List Nat := m.ep :: ((mirages x).filter (fun y => y.rank == m.rank)).map (·.ep)

/-- Send a control message to members. -/
def tellMembers (s : State) (grp : Nat) (x : Group) (l : List Member) (m : ColMsg) : State :=
  (l.flatMap (memberEps x)).foldl (fun t e => colSend t grp x e m) s

/-- Whether a spine is the root of a group. -/
def isRoot (s : State) (x : Group) : Bool := x.root == ownCoord s

/-- The bytes of a shadow record (R396; their layout is a DESIGN CHOICE, log 30): digest, GROUP, GEN, STEP, CHUNK, destination. -/
def shadowBytes (digest grp gen step chunk dst : Nat) : List Byte :=
  natBe 8 digest ++ natBe 2 grp ++ natBe 1 gen ++ natBe 4 step ++ natBe 3 chunk ++ natBe 3 dst

/-- The twin port. -/
def twinPort (s : State) : Nat := rf s Reg.MGT_TWIN_CFG F.MGT_TWIN_CFG_PORT

/-- Send bytes on the twin port: link-local, class BULK (R396). -/
def twinSend (s : State) (part : Nat) (b : List Byte) : State :=
  sendOwn s (twinPort s) (originCfh s 3 (hallPart s part) 0xFFFFF7 0 0 b.length) b

/-- Send a COLL packet of a collective (R284, R287), on a port where one is chosen. A spine with a Mirage spine sends it a shadow record
too; a Mirage spine only notes what it would send (R396). -/
def collSendData (s : State) (grp : Nat) (x : Group) (c : Coll) (via : Option Nat) (k dst rank fmt : Nat) (first last poison retr : Bool)
    (b : List Byte) : State :=
  let dg := collDigest c.step k x.gen rank b
  let base := originCfh s 4 (hallPart s x.part) dst (collEp (ownCoord s)) x.job b.length
  let h : Cfh := { base with poison := poison, retractable := retr, first := first, last := last, group := grp, gen := x.gen, chunk := k,
                             step := c.step, rank := rank, format := fmt, digest := dg }
  if isMirageSpine s then { s with mgt := { s.mgt with twinSent := s.mgt.twinSent ++ [(dg, grp, x.gen, c.step, k, dst)] } }
  else
    let s1 := emit s (.msg via h b)
    if rf s Reg.MGT_TWIN_CFG F.MGT_TWIN_CFG_ROLE = 1 then twinSend s1 x.part (shadowBytes dg grp x.gen c.step k dst) else s1

/-! ## The register window (Table 12.10) -/

/-- Show the selected group. -/
def showGroup (s : State) : State :=
  match groupOf s (rf s Reg.COL_GRP_SEL F.COL_GRP_SEL_GROUP) with
  | none => wn (wn (wn (wn s Reg.COL_GRP_STATUS 0) Reg.COL_GRP_STEP 0) Reg.COL_GRP_LOCAL 0) Reg.COL_GRP_STRAG 0
  | some x =>
    let s1 := wfs s Reg.COL_GRP_STATUS [(F.COL_GRP_STATUS_STATE, 1), (F.COL_GRP_STATUS_OPEN, min 15 x.opened.length),
      (F.COL_GRP_STATUS_GEN, x.gen), (F.COL_GRP_STATUS_JOB, x.job)]
    let s2 := wf (wn s1 Reg.COL_GRP_STEP x.nextStep) Reg.COL_GRP_LOCAL F.COL_GRP_LOCAL_WORKING (workers x).length
    wfs s2 Reg.COL_GRP_STRAG [(F.COL_GRP_STRAG_VALID, b2n x.stragRank.isSome), (F.COL_GRP_STRAG_RANK, x.stragRank.getD 0)]

/-! ## Reservations (R278, Table 12.5) -/

/-- A collective with the sizes of its reservation (Table 12.5); a Mirage entry adds staging of its own (R394). -/
def sized (x : Group) (c : Coll) : Coll :=
  let out := segBytes c.fmtOut 512 + if polEscalate c.policy then 2112 else 0
  { c with win := cpWin c.params, members := (workers x).length + (mirages x).length, nIn := fabricCells (segBytes c.fmtIn 512),
           nOut := fabricCells out }

/-- Cells that a collective reserves: W for each of its items, whatever its chunks are (Table 12.5). -/
def reserveCells (c : Coll) : Nat := c.win * (c.members * c.nIn) + c.win * 2 * 83 + c.win * 2 * c.nOut

/-- Chunks that this spine owns (R283); while ORDER is still open, the most that it may own. -/
def ownedCount (s : State) (x : Group) (order : Option Nat) (chunks : Nat) : Nat :=
  let n := boxSize x
  match order with
  | none => (chunks + n - 1) / n
  | some o =>
    let own := ownCoord s
    let dig := fun i => let a := getAt 0 (orderAxes o) i; if boxExt x a = 1 then 0 else coordAt own a
    let m := fun i => boxExt x (getAt 0 (orderAxes o) i)
    chunks / n + if dig 0 + m 0 * (dig 1 + m 1 * dig 2) < chunks % n then 1 else 0

/-- Bytes of Oasis that a collective reserves. -/
def reserveOasis (s : State) (x : Group) (order : Option Nat) (opcode redop params fmtIn policy count : Nat) : Nat :=
  let chunks := (count + 511) / 512
  let k := if redop = 0x0C then 3 else if redop = 0x0B ∨ redop = 0x0D then 2 else cpStateK params
  chunks * 24 * 1024 + (workers x).length * chunks * segBytes fmtIn 512
    + (if opcode = 0x13 then ownedCount s x order chunks * 2048 * k else 0) + (if polResid policy then ownedCount s x order chunks * 2112 else 0)

/-- Chunks of `n` that lie in the `i`-th of `k` dunes (R280). -/
def chunksIn (n k i : Nat) : Nat := (n + k - 1 - i) / k

/-- Cells by dune, in proportion to the chunks each holds; what the division leaves goes to the first (log 50). -/
def spreadCells (s : State) (part cells chunks : Nat) : List (Nat × Nat) :=
  let ds := scopeDunes s part
  let share := fun i => cells * chunksIn chunks ds.length i / max 1 chunks
  let total := sumNat ((List.range ds.length).map share)
  ds.zipIdx.map (fun p => (p.1, share p.2 + if p.2 = 0 then cells - total else 0))

/-- How a dune would hold cells: on chip as far as pool 4 has room, the rest in spill pages of 16 cells on one of the scope's ready
stacks in turn; none where the quota does not hold them (R117). -/
def placeCells (s : State) (part : Nat) (p : Nat × Nat) : Option Placed :=
  let chip := min p.2 (poolFree s p.1 part 4)
  let pages := (p.2 - chip + 15) / 16
  let st := readyStacks s part
  if pages ≤ rn s (Reg.SWC_SPILL_QUOTA p.1 part) - pagesUsed s p.1 part ∧ (pages = 0 ∨ !st.isEmpty) then
    some ⟨p.1, chip, pages, getAt 0 st (pagesUsed s p.1 part % st.length)⟩
  else none

/-- Oasis bytes of a scope that its ready stacks hold (R71). -/
def oasisCapacity (s : State) (part : Nat) : Nat := min (spaceOf s part) ((readyStacks s part).length * 64 * 2 ^ 30)

/-- Spill pages that a scope uses in all dunes. -/
def allPages (s : State) (part : Nat) : Nat := sumNat ((List.range 8).map (fun d => pagesUsed s d part))

/-- Bytes of the rings of a scope's command queues that are not DISABLED: 64 for each slot (R386, Table 4.3). -/
def ringBytes (s : State) (part : Nat) : Nat :=
  sumNat ((s.hif.cqs.filter (fun e => cqScope s (e.1 / 2048) (e.1 % 2048) == part && cqState s (e.1 / 2048) (e.1 % 2048) != 0)).map
    (fun e => 64 * cqSize s (e.1 / 2048) (e.1 % 2048)))

/-- Oasis bytes of a scope's quota that are taken: by its collectives, its spill pages, and its command queues' rings (R278). -/
def oasisReserved (s : State) (part : Nat) : Nat :=
  sumNat ((s.col.groups.filter (fun g => g.2.part == part)).map (fun g => sumNat ((g.2.opened ++ g.2.kept).map (·.oasis))))
  + 4096 * allPages s part + ringBytes s part

/-- The staging queues that open collectives have bound, as (flat ripple, local queue). -/
def boundQueues (s : State) : List (Nat × Nat) := s.col.groups.flatMap (fun g => g.2.opened.flatMap (·.queues))

/-- The lowest staging queue of a ripple that no collective has bound and that holds no packet (R280). -/
def freeStaging (s : State) (r : Nat) : Option (Nat × Nat) :=
  (((List.range 256).map (fun i => (r, 4096 + r % 32 * 256 + i))).find? (fun q =>
    !(boundQueues s).contains q && (hwq s (r / 32) q.2).pkts.isEmpty))

/-- One staging queue in each ripple that holds a chunk; none where one has no queue free (R280). -/
def bindQueues (s : State) (part chunks : Nat) : Option (List (Nat × Nat)) :=
  let l := (((List.range (min chunks 256)).map (chunkRipple s part)).dedup).map (freeStaging s)
  if l.all (·.isSome) then some (l.filterMap id) else none

/-- A collective with its reservation placed and its staging queues bound; none where it cannot be held whole. `oasis` is what it takes
of the Oasis quota beyond what it holds. -/
def reserve? (s : State) (part oasis : Nat) (c : Coll) : Option Coll :=
  let l := (spreadCells s part (reserveCells c) (collChunks c)).map (placeCells s part)
  let placed := l.filterMap id
  let pages := sumNat (placed.map (·.pages))
  if l.all (·.isSome) ∧ oasisReserved s part + oasis + 4096 * pages ≤ oasisCapacity s part then
    (bindQueues s part (collChunks c)).map (fun qs => { c with cells := reserveCells c, placed := placed, queues := qs })
  else none

/-- Take a placement. -/
def takeCells (s : State) (part : Nat) (l : List Placed) : State :=
  l.foldl (fun t p => setPagesUsed (charge t p.dune part 4 p.chip) p.dune part (pagesUsed t p.dune part + p.pages)) s

/-- Give a placement back. -/
def giveCells (s : State) (part : Nat) (l : List Placed) : State :=
  l.foldl (fun t p => setPagesUsed (discharge t p.dune part 4 p.chip) p.dune part (pagesUsed t p.dune part - p.pages)) s

/-- Of `n` cells that are freed, what each place gives up in turn: whole pages first, then cells on chip (log 50); then what stays. -/
def freeParts : Nat → List Placed → List Placed × List Placed
  | _, [] => ([], [])
  | n, p :: l =>
    let pg := min p.pages (n / 16)
    let ch := min p.chip (n - 16 * pg)
    let r := freeParts (n - 16 * pg - ch) l
    ({ p with pages := pg, chip := ch } :: r.1, { p with pages := p.pages - pg, chip := p.chip - ch } :: r.2)

/-- Free the cells of an open collective that its chunks need no more: staging with the local reduction of a chunk, transit with what
has been consumed or delivered (R279). New COLL credits may follow (R282). -/
def trimColl (s : State) (grp step : Nat) : State :=
  match groupOf s grp with
  | none => s
  | some x => match collIn x step with
    | none => s
    | some c =>
      let due := collStaging c + collTransit c
      if c.cells ≤ due then s
      else
        let f := freeParts (c.cells - due) c.placed
        grantScope (setColl (giveCells s x.part f.1) grp { c with cells := due, placed := f.2 }) x.part

/-- Count cells at the staging queue of a chunk, as they enter it with a contribution or leave it with the local reduction (R112,
R280). -/
def countStaging (s : State) (x : Group) (c : Coll) (k n : Nat) (reg : Nat → Nat → Nat) : State :=
  match c.queues.find? (fun q => q.1 == chunkRipple s x.part k) with
  | none => s
  | some q => bump64 s (reg (q.1 / 32) q.2) n

/-- Cells of the contributions held for a chunk. -/
def stagedCells (c : Coll) (k : Nat) : Nat := (c.contribs.filter (fun b => b.chunk == k)).length * c.nIn

/-! ## RESEND (R341, Table 14.1) -/

/-- The attempts made for a rank and chunk. -/
def attemptOf (c : Coll) (rank chunk : Nat) : Option Attempt := c.attempts.find? (fun a => a.rank == rank && a.chunk == chunk)

/-- Forget the attempts for a rank and chunk: a valid packet has come. -/
def attemptDone (c : Coll) (rank chunk : Nat) : Coll := { c with attempts := c.attempts.filter (fun a => !(a.rank == rank && a.chunk == chunk)) }

/-- The bytes of a RESEND. -/
def resendBytes (kind grp gen step rank attempt chunk : Nat) : List Byte :=
  natBe 1 0x40 ++ natBe 1 kind ++ natBe 2 grp ++ natBe 1 gen ++ natBe 3 0 ++ natBe 4 step ++ natBe 3 rank ++ natBe 1 attempt ++ natBe 3 chunk
    ++ List.replicate 13 0

/-- RESEND_MAX of a dune; 0 acts as 1. -/
def resendMax (s : State) (d : Nat) : Nat := max 1 (rf s (Reg.CHK_CFG d) F.CHK_CFG_RESEND_MAX)

/-- The dune of a chunk. -/
def chunkDune (s : State) (x : Group) (k : Nat) : Nat := chunkRipple s x.part k / 32

/-- The rank that the producer of a packet is asked by: KIND 00h a member, 01h a spine. -/
def producerEp (x : Group) (c : Coll) (kind rank : Nat) : Nat :=
  if kind = 0 then (((collWorkers x c).find? (fun m => m.rank == rank)).map (·.ep)).getD 0 else collEp ((rank - 0x800000) * 64)

/-- Ask a producer for a packet again, one failed attempt further: after RESEND_MAX of them the root is asked to abort. -/
def askResend (s : State) (grp : Nat) (x : Group) (c : Coll) (kind rank chunk : Nat) : State :=
  let d := chunkDune s x chunk
  let failed := match attemptOf c rank chunk with
    | none => 0
    | some a => a.n + 1
  if resendMax s d ≤ failed then abortRequest s grp c.step stDigestFail none
  else
    let a : Attempt := ⟨rank, chunk, failed, s.clock⟩
    let c1 := { attemptDone c rank chunk with attempts := (attemptDone c rank chunk).attempts ++ [a] }
    let b := resendBytes kind grp x.gen c.step rank (failed + 1) chunk
    let s1 := setColl s grp c1
    let s2 := if isMirageSpine s then s1
      else emit s1 (.msg none (originCfh s1 0 (hallPart s1 x.part) (producerEp x c kind rank) (collEp (ownCoord s1)) x.job 32) b)
    bump64 s2 (Reg.CHK_RESENDS d) 1

/-- A packet has failed its check (DIGEST_CHECK_FAIL, R341): counted, recorded, and asked for again. `port` names where it came in. -/
def digestFail (s : State) (grp : Nat) (x : Group) (c : Coll) (kind rank chunk : Nat) : State :=
  let d := chunkDune s x chunk
  let s1 := fsrStore (bump64 s (Reg.CHK_DIGEST_FAIL d) 1) 0x04 [0, d] [] [] x.part [(14, x.job), (15, grp), (16, c.step)] []
  askResend (chkEvent s1 d F.CHK_EVT_DIGEST_FAIL x.part grp c.step) grp x c kind rank chunk

/-! ## Results and READY (R287, R289) -/

/-- The result digest: the XOR of the digests of the result packets. -/
def resultDigest (c : Coll) : Nat := c.results.foldl (fun v r => Nat.xor v r.digest) 0

/-- Whether a packet of the step lies in a frame whose tag is not yet verified (R370). -/
def unverified (s : State) (grp step : Nat) : Bool := s.sec.links.any (fun e => e.2.rx.any (fun f => f.colls.contains (grp, step)))

/-- The results of the chunks that this spine owns. -/
def ownResults (s : State) (x : Group) (c : Coll) : List ResPkt :=
  c.results.filter (fun r => chunkOwner x (c.order.getD 1) r.chunk == ownCoord s)

/-- Send READY to the root once nothing more is awaited: every result is held, every receiving member has its RACK, every owned
chunk that was rounded has been audited (R345), and every frame that carried the step is verified. -/
def maybeReady (s : State) (grp step : Nat) : State :=
  match groupOf s grp with
  | none => s
  | some x => match collIn x step with
    | none => s
    | some c =>
      let own := ownResults s x c
      let audits := c.opcode == 0x12 || c.opcode == 0x14 || own.all (fun r => c.audited.contains r.chunk)
      if !c.readySent && c.results.length == collChunks c && (receivers x c).all (fun m => c.receipts.contains m.rank) && audits
          && !unverified s grp step then
        let m : ColMsg := { ColMsg.plain 0x13 (b2n (own.any (·.poison))) step with
          digest := resultDigest c, esc := sumNat (own.map (·.esc)) % 2 ^ 32, sat := sumNat (own.map (·.sat)) % 2 ^ 32 }
        colSend (setColl s grp { c with readySent := true }) grp x (collEp x.root) m
      else s

/-- Hold a result, deliver it to the receiving members, and pass it on along the rings; `got` is the place of the axis it came
along, 3 at its owner (R287). -/
def spreadResult (s : State) (grp : Nat) (x : Group) (c : Coll) (r : ResPkt) (got : Nat) : State :=
  let o := c.order.getD 1
  let tag := spineTag (chunkOwner x o r.chunk)
  let c1 := { attemptDone c tag r.chunk with results := c.results ++ [r] }
  let s1 := setColl s grp c1
  let eps := (receivers x c).flatMap (memberEps x)
  let s2 := eps.foldl (fun t e => collSendData t grp x c1 none r.chunk e tag c.fmtOut true true r.poison true r.bytes) s1
  let nexts := resultNext x o r.chunk got (ownCoord s)
  let s3 := nexts.foldl (fun t n => collSendData t grp x c1 none r.chunk (collEp n) tag c.fmtOut true true r.poison false r.bytes) s2
  maybeReady (trimColl (bump64 s3 Reg.COL_RESULT_TX (eps.length + nexts.length)) grp c.step) grp c.step

/-! ## Chunks (R284, R286) -/

/-- A chunk's progress; a chunk that nothing has touched waits for its local contributions. -/
def chunkOf (c : Coll) (k : Nat) : Chunk := (c.chunks.find? (fun h => h.c == k)).getD ⟨k, 0, none, none, false, false⟩

/-- Replace a chunk's progress. -/
def setChunk (c : Coll) (h : Chunk) : Coll :=
  if c.chunks.any (fun y => y.c == h.c) then { c with chunks := modFirst (fun y => y.c == h.c) (fun _ => h) c.chunks }
  else { c with chunks := c.chunks ++ [h] }

/-- The kernel of a collective's tasks at a stage: SUM in shard mode until the optimizer's, else the one that REDOP selects. -/
def collKernel (c : Coll) (stage : Nat) : Nat :=
  if c.opcode = 0x13 then (if stage = 4 then (if c.redop < 0x20 then 0x40 + c.redop else 0x60 + (c.redop - 0x20)) else 0x40) else 0x40 + c.redop

/-- The task of a chunk at a stage. -/
def collTask (s : State) (grp : Nat) (x : Group) (c : Coll) (k stage : Nat) (inputs : List InSrc) : Task where
  no := 0
  owner := .coll grp c.step k stage
  opcode := collKernel c stage
  op := if c.opcode = 0x13 then 0 else kernelOp (0x40 + c.redop)
  phase := 1
  seg := k
  base := 0
  count := chunkLen c k
  inputs := inputs
  home := chunkRipple s x.part k
  excluded := none
  checks := 0

/-- Queue a chunk's task where its ripple's queue has room, else none; while the pool is empty, and no drain owes the collective's tasks, it
is asked to end DENIED instead (R243). -/
def queueChunk (s : State) (grp : Nat) (x : Group) (c : Coll) (h : Chunk) (stage : Nat) (inputs : List InSrc) : Option State :=
  let t := collTask s grp x c h.c stage inputs
  if poolEmpty s (t.home / 32) x.part ∧ !owedCmd s (c.fq, c.no) then (if c.abortAt.isSome then none else some (abortRequest s grp c.step stDenied none))
  else if tqRoom s t.home then some (queueTask (setColl s grp (setChunk c { h with busy := true })) t)
  else none

/-- The contribution of a rank to a chunk. -/
def contribOf (c : Coll) (rank k : Nat) : Option Contrib := c.contribs.find? (fun b => b.rank == rank && b.chunk == k && !b.mirage)

/-- The words of g that an optimizer's task reads: the exact sum rounded to FP32 by nearest even (R288). -/
def gradientWords (as : List Acc) : List Nat := as.map (fun a => (writeEl 0 0 none (divided 1 0 (accVal a))).code)

/-- The input of a chunk's last task: its exact partial, with its residual record, marked by format code 21h; or g. -/
def lastInputs (x : Group) (c : Coll) (h : Chunk) : List InSrc :=
  let as := h.part.getD []
  if c.opcode = 0x13 then [.packet 0 ((gradientWords as).flatMap (natBe 4))]
  else .exact as :: (if polResid c.policy then [.oasis x.part (residAddr x c h.c) 0x21] else [])

/-- The ready ports of the ring direction from this spine to the neighbour that follows on a chunk's chain, with their widths (R284). -/
def ringPorts (s : State) (x : Group) (k dst : Nat) : List (Nat × Nat) :=
  let a := ((List.range 3).find? (fun a => coordAt dst a != coordAt (ownCoord s) a)).getD 0
  ((dirPorts s (2 * a + k % 2)).filter (fun p => portReady s p && portScope s p == x.part)).map (fun p => (p, ((portRec s p).map (·.width)).getD 1))

/-- Send a chunk's partial to the next spine of its chain (R284, R285), all of it on one port of the direction, taken in turn by smooth
weighted round-robin; under BROADCAST the segment or an empty packet. -/
def sendPartial (s : State) (grp : Nat) (x : Group) (c : Coll) (h : Chunk) (dst : Nat) : State :=
  let tag := spineTag (ownCoord s)
  let pkts := if c.opcode = 0x12 then [h.raw.getD []] else fillPackets [] (partialRecords (h.part.getD []))
  let n := pkts.length
  let turn := swrr x.wrr (ringPorts s x h.c dst)
  let s1 := match turn with
    | none => s
    | some w => (match groupOf s grp with
      | none => s
      | some y => setGroup s grp { y with wrr := w.2 })
  bump64 (pkts.zipIdx.foldl (fun t p =>
    collSendData t grp x c (turn.map (·.1)) h.c (collEp dst) tag c.fmtIn (p.2 == 0) (p.2 + 1 == n) h.poison false p.1) s1) Reg.COL_PARTIAL_TX 1

/-- One step of a chunk. Stage 0 waits for the local contributions, 1 to 3 for the partial of the predecessor on the axis in
that place, 11 to 13 for the successor's LAUNCH and a ready port towards it, 4 for rounding at the owner, 5 is past. None where it has to wait. -/
def stepChunk (s : State) (grp step k : Nat) : Option State :=
  match groupOf s grp with
  | none => none
  | some x => match collIn x step with
    | none => none
    | some c =>
      let h := chunkOf c k
      let put := fun (h' : Chunk) => some (setColl s grp (setChunk c h'))
      let queued := queueChunk s grp x c h
      if c.ended.isSome ∨ c.waiting ∨ h.busy then none
      else if h.stage = 0 then
        let who := contributors x c
        let got := who.filterMap (fun m => contribOf c m.rank k)
        if got.length < who.length then none
        else if c.opcode = 0x12 then
          (let s1 := countStaging s x c k (stagedCells c k) Reg.SWC_Q_DEQ_CELLS
          some (setColl s1 grp (setChunk c { h with raw := some ((got.head?.map (·.bytes)).getD []), stage := 1 })))
        else if who.isEmpty then put { h with part := some (List.replicate (chunkLen c k) accEmpty), stage := 1 }
        else queued 0 (got.map (fun b => InSrc.packet c.fmtIn b.bytes))
      else if h.stage = 4 then
        if c.opcode = 0x12 then
          let b := h.raw.getD []
          let r : ResPkt := ⟨k, b, collDigest c.step k x.gen (spineTag (ownCoord s)) b, 0, 0, h.poison⟩
          let c1 := setChunk c { h with stage := 5 }
          some (spreadResult (setColl s grp c1) grp x c1 r 3)
        else queued 4 (lastInputs x c h)
      else match c.order with
        | none => none
        | some o =>
          let place := if h.stage < 10 then h.stage - 1 else h.stage - 11
          let a := getAt 0 (orderAxes o) place
          if h.stage = 5 then none
          else if 10 < h.stage then
            let dst := chainNext x o k place (ownCoord s)
            if c.heardFrom.contains dst ∧ (isMirageSpine s ∨ !(ringPorts s x k dst).isEmpty) then
              let c1 := setChunk c { h with stage := 5 }
              some (sendPartial (setColl s grp c1) grp x c1 h dst)
            else none
          else if boxExt x a = 1 then put { h with stage := h.stage + 1 }
          else
            let cp := chainPlace x o k place (ownCoord s)
            let after := if cp + 1 = boxExt x a then h.stage + 1 else h.stage + 10
            if cp = 0 then put { h with stage := h.stage + 10 }
            else match c.partials.find? (fun p => p.chunk == k && p.tag == spineTag (chainPrev x o k place (ownCoord s)) && p.closed) with
              | none => none
              | some p =>
                if c.opcode = 0x12 then put { h with raw := some (if (h.raw.getD []).isEmpty then p.bytes else h.raw.getD []), stage := after }
                else queued h.stage [.exact (h.part.getD []), .exact ((partialAccs (chunkLen c k) p.bytes).getD [])]

/-- Move a chunk as far as it can go; then what it needs no more is freed. -/
def runChunk (grp step k : Nat) : Nat → State → State
  | 0, s => s
  | n + 1, s => match stepChunk s grp step k with
    | none => trimColl s grp step
    | some t => runChunk grp step k n t

/-- Move every chunk of a collective. -/
def pumpColl (s : State) (grp step : Nat) : State := match collOf s grp step with
  | none => s
  | some c => (List.range (collChunks c)).foldl (fun t k => runChunk grp step k 12 t) s

/-- A replay that waits for its reservation takes it once it can be held whole (R351). -/
def retryReplay (s : State) (g : Nat × Group) : State :=
  g.2.opened.foldl (fun t c =>
    if c.waiting then
      let o := reserveOasis t g.2 c.order c.opcode c.redop c.params c.fmtIn c.policy c.count
      match reserve? t g.2.part (o - c.oasis) (sized g.2 c) with
      | none => t
      | some c1 => pumpColl (grantScope (setColl (takeCells t g.2.part c1.placed) g.1 { c1 with oasis := o, waiting := false }) g.2.part) g.1 c.step
    else t) s

/-- Move every chunk of the open collectives that waits with no task queued: a queue may have room again, or a reservation. -/
def pumpAll (s0 : State) : State :=
  let s := s0.col.groups.foldl retryReplay s0
  s.col.groups.foldl (fun t g => g.2.opened.foldl (fun u c =>
    (c.chunks.filter (fun h => !h.busy && h.stage != 5)).foldl (fun v h => runChunk g.1 c.step h.c 12 v) u) t) s

/-! ## Commit of a chunk's task -/

/-- The accumulators of a task, in element order. -/
def ctxAccs (c : TaskCtx) : List Acc := (List.range c.task.count).map (fun e => (SMap.find c.acc e).getD accEmpty)

/-- A chunk's task has reduced: its partial, counts, and what comes next. -/
def chunkReduced (s : State) (grp : Nat) (x : Group) (c : Coll) (k stage : Nat) (as : List Acc) (ovf : Nat) (poison : Bool) : State :=
  let h := chunkOf c k
  let o := c.order.getD 1
  let after := if stage = 0 then 1 else
    let a := getAt 0 (orderAxes o) (stage - 1)
    if chainPlace x o k (stage - 1) (ownCoord s) + 1 = boxExt x a then stage + 1 else stage + 10
  let h' := { h with part := some as, stage := after, busy := false, poison := h.poison || poison }
  let s1 := if stage = 0 then countStaging s x c k (stagedCells c k) Reg.SWC_Q_DEQ_CELLS else s
  runChunk grp c.step k 12 (setColl s1 grp (setChunk { c with ovf := c.ovf + ovf } h'))

/-- The copies that a spine takes before the last task of a chunk commits (R37, R266, R288). -/
def takeCopies (s : State) (x : Group) (c : Coll) (k : Nat) : Coll :=
  let has := fun (l : List (Nat × List Byte)) => l.any (fun e => e.1 == k)
  let c1 := if c.opcode = 0x13 ∧ !has c.shardCopy then
      { c with shardCopy := c.shardCopy ++ [(k, oasisRead s x.part (shardAddr x c k) (2048 * shardWords c))] } else c
  if polResid c.policy ∧ !has c1.residCopy then { c1 with residCopy := c1.residCopy ++ [(k, oasisRead s x.part (residAddr x c k) 2112)] } else c1

/-- A chunk's result has been rounded at its owner: it is held, delivered and sent on, with the residual record anew (R265). -/
def chunkRounded (s : State) (grp : Nat) (x : Group) (c : Coll) (k : Nat) (o : Rounded) (stale : Bool) (ovf : Nat) (poison : Bool) : State :=
  let h := chunkOf c k
  let b := o.data ++ (if polEscalate c.policy then annexBytes o.annex else [])
  let r : ResPkt := ⟨k, b, collDigest c.step k x.gen (spineTag (ownCoord s)) b, o.esc, o.sat, h.poison || poison || o.poison⟩
  let s1 := if polResid c.policy then oasisWrite s x.part (residAddr x c k) (residRecord c.step o.resid) else s
  let c1 := setChunk { c with ufl := c.ufl + o.ufl, stale := c.stale + b2n stale, ovf := c.ovf + ovf } { h with stage := 5, busy := false }
  spreadResult (setColl s1 grp c1) grp x c1 r 3

/-- The commit of a chunk's task. -/
def commitColl (s : State) (grp step k stage : Nat) (ctx : TaskCtx) : State :=
  match groupOf s grp with
  | none => s
  | some x => match collIn x step with
    | none => s
    | some c =>
      if stage = 4 then
        let i := collInfo s x c k
        let c1 := takeCopies s x c k
        let stale := polResid c.policy && (residRead (some c.step) (chunkLen c k) (oasisRead s x.part (residAddr x c k) 2112)).2
        chunkRounded (setColl (doStores s x.part ctx) grp c1) grp x c1 k (packed i ctx) stale ctx.ovf ctx.poison
      else chunkReduced s grp x c k stage (ctxAccs ctx) ctx.ovf ctx.poison

/-- The commit of an engine's task that has ended normally (R226): its stores, its output, and what follows for its command. -/
def commitSlot (s : State) (g : Nat) (b : Bool) (c : TaskCtx) : State :=
  let s1 := bump64 (setEng s g (putSlot (engOf s g) b none)) (Reg.BRC_TASKS (g / 512)) 1
  let s2 := match c.task.owner with
    | .kernel fq no => match runOf s1 fq no with
      | none => doStores s1 (engPart s g) c
      | some r => commitKernel s1 r c
    | .coll grp step k stage => commitColl s1 grp step k stage c
  settleEng s2 g

/-- A slot's task that has begun its commit. -/
def committing (e : Engine) (b : Bool) : Option TaskCtx := (slotOf e b).filter (·.ending)

/-- TASK_COMMIT (R226): a task that has ended normally finishes its commit. -/
def execTaskCommit (g : Fin 4096) (s : State) : Host.Outcome State Fault Refusal :=
  let e := engOf s g
  let done := fun (t : State) => showGroup (pumpAll (settleDrains t))
  .next (if workStopped s then s
    else match committing e false, committing e true with
      | some c, _ => done (commitSlot s g false c)
      | none, some c => done (commitSlot s g true c)
      | none, none => s)

/-! ## Ends (R279, R347) -/

/-- Whether a task serves a collective. -/
def taskOf (grp step : Nat) (t : Task) : Bool := match t.owner with
  | .coll g n _ _ => g == grp && n == step
  | .kernel _ _ => false

/-- Whether a slot holds a task of a collective. -/
def slotServes (grp step : Nat) (x : Option TaskCtx) : Bool := match x with
  | some c => taskOf grp step c.task
  | none => false

/-- Finish every commit that a collective's tasks have begun (R226, R235). -/
def finishColl (s : State) (grp step : Nat) : State :=
  (s.brc.engines.flatMap (fun e => [(e.1, false), (e.1, true)])).foldl (fun t p =>
    match committing (engOf t p.1) p.2 with
    | none => t
    | some c => if taskOf grp step c.task then commitSlot t p.1 p.2 c else t) s

/-- Remove every task of a collective that ends, queued or in an engine, and count it (R235). Commits that have begun are finished before. -/
def purgeColl (s : State) (grp step : Nat) : State :=
  let qs := s.brc.queues.filter (fun e => e.2.any (taskOf grp step))
  let s1 := qs.foldl (fun t e => bump64 (setTq t e.1 (e.2.filter (fun u => !taskOf grp step u))) (Reg.BRC_DISCARDS (e.1 / 32))
    ((e.2.filter (taskOf grp step)).length)) s
  let es := s.brc.engines.filter (fun e => slotServes grp step e.2.slot0 || slotServes grp step e.2.slot1)
  es.foldl (fun t e =>
    let n := b2n (slotServes grp step e.2.slot0) + b2n (slotServes grp step e.2.slot1)
    let e' := { e.2 with slot0 := if slotServes grp step e.2.slot0 then none else e.2.slot0,
                         slot1 := if slotServes grp step e.2.slot1 then none else e.2.slot1 }
    settleEng (bump64 (setEng t e.1 e') (Reg.BRC_DISCARDS (e.1 / 512)) n) e.1) s1

/-- Take an ended collective out of the open ones, its begun commits finished, and give its cells back. With a committed status its
contributions and copies are kept, with what they need of Oasis (R347). -/
def closeColl (s0 : State) (grp : Nat) (c0 : Coll) (status : Nat) : State :=
  let s := finishColl s0 grp c0.step
  match groupOf s grp with
  | none => s
  | some x =>
    let c := (collIn x c0.step).getD c0
    let keeps := status = stOk ∨ status = stRangeEscalated ∨ status = stPoisoned
    let left := c.oasis - collChunks c * 24 * 1024
    let c' := { c with ended := some status, since := s.clock, cells := 0, placed := [], queues := [], oasis := left, chunks := [], partials := [], attempts := [] }
    let x' := { x with opened := x.opened.filter (fun y => y.step != c.step), kept := if keeps then x.kept ++ [c'] else x.kept }
    settleDrains (purgeColl (setGroup (giveCells s x.part c.placed) grp x') grp c.step)

/-- End a collective on this spine: it is claimed with a status, its record carries the given digest and counts, and what it had
reserved is freed. -/
def endColl (s : State) (grp : Nat) (c : Coll) (status digest esc sat : Nat) : State :=
  let d := c.fq / 2048
  let q := c.fq % 2048
  let s1 := claim (setResult s d q c.no digest esc sat) d q c.no status
  closeColl s1 grp c status

end Sys2Proof.Machine
end

