-- ==== Sys2Proof/Machine/Microcode.lean ====
section
/-! DEFINITION. The instructions of a Barchan engine: what each does to the task that issues it (spec/10: R223 to R230, Tables 10.2
to 10.4; spec/11: R249 to R252, R256, R262; spec/14: R340, R341, R343, R344, R353). -/
namespace Sys2Proof.Machine

/-! ## Registers of a task -/

/-- What one instruction does: the task goes on, meets a run-time fault (its code of Table 10.4, and the code that a FAULT or END gives),
or waits. -/
inductive UStep where
  | go (c : TaskCtx)
  | fault (code sub : Nat)
  | stall
  deriving DecidableEq, Repr

/-- A scalar register. -/
def sReg (c : TaskCtx) (i : Nat) : Nat := SMap.get (fun _ => 0) c.s i

/-- Write a scalar register, 64 bits. -/
def setS (c : TaskCtx) (i v : Nat) : TaskCtx := { c with s := SMap.put (fun _ => 0) c.s i (v % 2 ^ 64) }

/-- The 32 lanes of a vector register. -/
def vReg (c : TaskCtx) (i : Nat) : List Nat := let v := SMap.get (fun _ => 0) c.v i; (List.range 32).map (fun l => bitsAt v (32 * l) 32)

/-- Write a vector register, 32 bits a lane. -/
def setV (c : TaskCtx) (i : Nat) (l : List Nat) : TaskCtx :=
  { c with v := SMap.put (fun _ => 0) c.v i (l.reverse.foldl (fun v x => v * 2 ^ 32 + x % 2 ^ 32) 0) }

/-- A flag vector, bit l for lane l. -/
def fReg (c : TaskCtx) (i : Nat) : Nat := SMap.get (fun _ => 0) c.f i

/-- Write a flag vector. -/
def setFv (c : TaskCtx) (i v : Nat) : TaskCtx := { c with f := SMap.put (fun _ => 0) c.f i (v % 2 ^ 32) }

/-- On to the next word. -/
def stepPc (c : TaskCtx) : TaskCtx := { c with pc := (c.pc + 1) % 2048 }

/-- To a branch's target. -/
def branchTo (c : TaskCtx) (imm : Nat) : TaskCtx := { c with pc := uwTarget c.pc imm % 2048 }

/-- The signed value of a 64-bit register. -/
def i64 (n : Nat) : Int := if n % 2 ^ 64 < 2 ^ 63 then ((n % 2 ^ 64 : Nat) : Int) else ((n % 2 ^ 64 : Nat) : Int) - 2 ^ 64

/-- A 32-bit immediate sign-extended to 64 bits. -/
def sext (imm : Nat) : Nat := if imm < 2 ^ 31 then imm else imm + (2 ^ 64 - 2 ^ 32)

/-- An accumulator of a row and lane. -/
def accAt (c : TaskCtx) (row lane : Nat) : Acc := (SMap.find c.acc (row * 32 + lane)).getD accEmpty

/-- Replace an accumulator. -/
def setAcc (c : TaskCtx) (row lane : Nat) (a : Acc) : TaskCtx :=
  { c with acc := if a = accEmpty then SMap.del c.acc (row * 32 + lane) else SMap.ins c.acc (row * 32 + lane) a }

/-- Bytes of scratch from an address; unwritten ones read 0 (R224). -/
def scratchRead (c : TaskCtx) (a n : Nat) : List Byte := (List.range n).map (fun k => SMap.get (fun _ => (0 : Byte)) c.scratch (a + k))

/-- Store bytes in scratch. -/
def scratchWrite (c : TaskCtx) (a : Nat) (l : List Byte) : TaskCtx :=
  { c with scratch := l.zipIdx.foldl (fun m p => SMap.put (fun _ => (0 : Byte)) m (a + p.2) p.1) c.scratch }

/-- Whether a scratch range is in range and aligned (Table 10.4, fault 01h). -/
def scratchOk (a n : Nat) : Bool := decide (a % 4 = 0 ∧ a + n ≤ 65536)

/-! ## Inputs -/

/-- The exact values of an input: of its own format, or read in the format that M names; a residual record's words where the record
passes its test, multiplied by the divisor that the packer applies, so that they are added to the quotient (R254, R266, log 220). -/
def srcVals (s : State) (t : Task) (i : TaskInfo) (m : Nat) (x : InSrc) : List Acc :=
  let pick := fun f => uwFmt f m
  match x with
  | .oasis part off fmt =>
    if fmt = 0x20 ∨ fmt = 0x21 then
      ((residRead (if fmt = 0x21 then some i.step else none) t.count (oasisRead s part off 2112)).1).map (fun n => accOf (.fin (n * i.divisor)))
    else (decodeSeg (pick fmt) t.count (oasisRead s part off (segBytes (pick fmt) t.count))).map accOf
  | .packet fmt b => (decodeSeg (pick fmt) t.count b).map accOf
  | .exact as => as

/-- The integers of an input in an integer format, the scale ignored (R249). -/
def srcInts (s : State) (t : Task) (m : Nat) (x : InSrc) : List Nat :=
  let of := fun (fmt : Nat) (b : List Byte) =>
    (unpackCodes (fmtOf fmt).bits t.count (b.drop 8)).map (fun raw => match decodeEl fmt 0 raw with
      | .fin n => encodeSigned 32 (n / 2 ^ 22)
      | _ => 0)
  let pick := fun f => uwFmt f m
  match x with
  | .oasis part off fmt => of (pick fmt) (oasisRead s part off (segBytes (pick fmt) t.count))
  | .packet fmt b => of (pick fmt) b
  | .exact _ => []

/-- The format of an input. -/
def srcFmt : InSrc → Nat
  | .oasis _ _ f => f
  | .packet f _ => f
  | .exact _ => 0

/-- Whether an input is a residual record, which is added whatever the operation is (R266). -/
def isResid : InSrc → Bool
  | .oasis _ _ f => f == 0x20 || f == 0x21
  | _ => false

/-- The input that a task reads, and the one after it. -/
def curInput (c : TaskCtx) (k : Nat) : Option InSrc := c.task.inputs[c.input + k]?

/-- Add one row of values to accumulators, the elements from `pos` on; elements past the task's count take no input. -/
def accRow (op : Nat) (vals : List Acc) (pos row : Nat) (c : TaskCtx) : TaskCtx :=
  (List.range 32).foldl (fun c l => match vals[pos + l]? with
    | none => c
    | some x =>
      let r := accMerge op (accAt c row l) x
      { setAcc c row l r.1 with ovf := c.ovf + b2n r.2 }) c

/-- The operation that IMM[6:5] selects (R228). -/
def accOp (c : TaskCtx) (imm : Nat) : Nat := if imm / 32 % 4 = 3 then c.task.op else imm / 32 % 4

/-- ACC. -/
def uAcc (s : State) (i : TaskInfo) (m row imm : Nat) (c : TaskCtx) : UStep :=
  if !uwSpanOk row imm then .stall
  else
    let n := imm % 32 + 1
    let add := fun (k : Nat) (c : TaskCtx) => match curInput c k with
      | none => c
      | some x =>
        let vals := srcVals s c.task i m x
        let op := if isResid x then 0 else accOp c imm
        (List.range n).foldl (fun c j => accRow op vals (c.pos + 32 * j) (row + j) c) c
    let oneBit := (curInput c 0).map (fun x => uwFmt (srcFmt x) m) == some 14
    let c1 := add 0 c
    let c2 := if bitAt imm 7 && oneBit then add 1 c1 else c1
    .go (stepPc { c2 with pos := c.pos + 32 * n })

/-- ACCV. -/
def uAccv (a m row imm : Nat) (c : TaskCtx) : UStep :=
  if !uwSpanOk row imm then .stall
  else
    let vals := (vReg c a).map (fun w => accOf (if m % 2 = 1 then .fin (i32 w * 2 ^ 149) else xOfFp w))
    .go (stepPc (accRow (accOp c imm) vals 0 row c))

/-- ACLR. -/
def uAclr (row imm : Nat) (c : TaskCtx) : UStep :=
  if !uwSpanOk row imm then .stall
  else .go (stepPc { c with acc := SMap.drop (fun k => decide (row * 32 ≤ k ∧ k < (row + imm % 32 + 1) * 32)) c.acc })

/-! ## Output -/

/-- Queue rows of accumulators, or with `vec` a vector, for the packer, and set the SAT and NAN flags by what they round to (R262). -/
def queueRows (i : TaskInfo) (vec : Bool) (m imm : Nat) (rows : List (List XVal)) (c : TaskCtx) : TaskCtx :=
  let fmt := uwFmt i.fmtOut m
  let sel := imm / 32 % 4
  let done := 32 * (c.out.filter (fun r => r.stream == 0)).length
  let vals := rows.flatten.take (c.task.count - done)
  let r := roundRuns i (c.task.base + done) vals.length [⟨0, fmt, sel, vec, vals⟩]
  { c with out := c.out ++ rows.map (fun v => ⟨c.osel, fmt, sel, vec, v⟩), sat := c.sat || decide (0 < r.sat), nan := c.nan || r.nan }

/-- OUTR: an EMPTY accumulator gives 0. -/
def uOutr (i : TaskInfo) (m row imm : Nat) (c : TaskCtx) : UStep :=
  if !uwSpanOk row imm || imm / 32 % 4 == 3 then .stall
  else .go (stepPc (queueRows i false m imm ((List.range (imm % 32 + 1)).map (fun j => (List.range 32).map (fun l => accVal (accAt c (row + j) l)))) c))

/-- OUTV. -/
def uOutv (i : TaskInfo) (a m imm : Nat) (c : TaskCtx) : UStep :=
  if imm / 32 % 4 == 3 then .stall else .go (stepPc (queueRows i true m imm [(vReg c a).map xOfFp] c))

/-- NXT: the inputs still unread. -/
def uNxt (d : Nat) (c : TaskCtx) : UStep :=
  .go (stepPc (setS { c with input := c.input + 1, pos := 0 } d (c.task.inputs.length - (c.input + 1))))

/-- INLD (R249). A lane past the task's count takes no input; what it holds then is open. -/
def uInld (s : State) (i : TaskInfo) (d m : Nat) (c : TaskCtx) : UStep :=
  let x := curInput c 0
  let fmt := (x.map srcFmt).getD 0
  let ints := m % 2 = 1 ∧ 0x0A ≤ fmt ∧ fmt ≤ 0x0E
  let words := match x with
    | none => []
    | some y =>
      if ints then srcInts s c.task 63 y
      else ((srcVals s c.task i 63 y).map (fun a => fpOfX (accVal a))).map (fun w => if m % 2 = 1 then fpToInt w else w)
  .go (stepPc { setV c d ((List.range 32).map (fun l => (words[c.pos + l]?).getD (Config.vecFree 0x15 (c.pos + l) 0))) with pos := c.pos + 32 })

/-! ## Control -/

/-- END. -/
def uEnd (imm : Nat) (c : TaskCtx) : UStep := if imm % 256 = 0 then .go { c with ending := true } else .fault 5 (imm % 256)

/-- Whether a branch condition holds (Table 10.3); whether one of another code does is open. -/
def condHolds (c : TaskCtx) (a m : Nat) : Bool :=
  match m with
  | 0 => true
  | 1 => sReg c a == 0
  | 2 => sReg c a != 0
  | 3 => bitAt (sReg c a) 63
  | 4 => !bitAt (sReg c a) 63
  | 5 => c.sat
  | 6 => c.nan
  | _ => Config.vecFree 0x02 m (sReg c a) % 2 == 1

/-- BR. -/
def uBr (a m imm : Nat) (c : TaskCtx) : UStep := .go (if condHolds c a m then branchTo c imm else stepPc c)

/-- LOOP. -/
def uLoop (d imm : Nat) (c : TaskCtx) : UStep :=
  let c1 := setS c d (sReg c d + (2 ^ 64 - 1))
  .go (if sReg c1 d = 0 then stepPc c1 else branchTo c1 imm)

/-- CALL. -/
def uCall (imm : Nat) (c : TaskCtx) : UStep :=
  if 8 ≤ c.stack.length then .fault 3 0 else .go (branchTo { c with stack := ((c.pc + 1) % 2048) :: c.stack } imm)

/-- RET. -/
def uRet (c : TaskCtx) : UStep := match c.stack with
  | [] => .fault 3 0
  | p :: l => .go { c with pc := p, stack := l }

/-- SYNC. -/
def uSync (c : TaskCtx) : UStep := if c.loads.isEmpty then .go (stepPc c) else .go { c with syncing := true }

/-! ## Scalars -/

def uSli (d imm : Nat) (c : TaskCtx) : UStep := .go (stepPc (setS c d (sext imm)))
def uSlui (d imm : Nat) (c : TaskCtx) : UStep := .go (stepPc (setS c d (imm * 2 ^ 32 + sReg c d % 2 ^ 32)))
def uSadd (d a b imm : Nat) (c : TaskCtx) : UStep := .go (stepPc (setS c d (sReg c a + sReg c b + sext imm)))
def uSsub (d a b : Nat) (c : TaskCtx) : UStep := .go (stepPc (setS c d (sReg c a + 2 ^ 64 - sReg c b)))
def uSmul (d a b : Nat) (c : TaskCtx) : UStep := .go (stepPc (setS c d (sReg c a * sReg c b)))

/-- Logic and shifts of `w`-bit values (SLOG, VLOG); of a mode from 6 on the result is open. -/
def logicOp (op w m n x y : Nat) : Nat :=
  match m with
  | 0 => Nat.land x y
  | 1 => Nat.lor x y
  | 2 => Nat.xor x y
  | 3 => x * 2 ^ n % 2 ^ w
  | 4 => x / 2 ^ n
  | 5 => encodeSigned w (signedOf w x / 2 ^ n)
  | _ => Config.vecFree op (m * 64 + n) (x * 2 ^ w + y) % 2 ^ w

def uSlog (d a b m imm : Nat) (c : TaskCtx) : UStep := .go (stepPc (setS c d (logicOp 0x0D 64 m (imm % 64) (sReg c a) (sReg c b))))

/-- Bytes of a pair of an INT32 index and a value. -/
def pairBytes (fmt : Nat) : Nat := 4 + (fmtOf fmt).bits / 8

/-- What a library kernel takes of AUX for a segment: the state words of an optimizer, segment by segment as R288 lays a shard out,
or a residual record (DEDUCED, log 29). -/
def auxStep (opcode : Nat) : Nat :=
  if opcode = 0x4B ∨ opcode = 0x4D then 4096 else if opcode = 0x4C then 6144 else if opcode = 0x4A then 2112 else 0

/-- What a library kernel takes of WORK for a segment (Table 10.7). -/
def workStep (opcode fmt : Nat) (prm : Nat → Nat) : Nat :=
  if opcode = 0x44 then 512 * pairBytes fmt else if opcode = 0x45 then prm 0 * pairBytes fmt else if opcode = 0x46 then (prm 0 + 3) * 4
  else if opcode = 0x47 then 40 else if opcode = 0x48 then prm 2 * 4 else 0

/-- The task parameters (Table 10.3, SPRM): the addresses are those of the task's first element. -/
def taskParam (i : TaskInfo) (t : Task) (k : Nat) : Nat :=
  let seg := t.base / 512
  match k with
  | 0 => t.base
  | 1 => t.count
  | 2 => i.inCount.getD (t.inputs.filter (fun x => !isResid x)).length
  | 3 => i.stride
  | 4 => i.aux + seg * auxStep t.opcode
  | 5 => i.work + seg * workStep t.opcode i.fmtOut (fun n => getAt 0 i.prm n)
  | 6 => i.dst + seg * segBytes i.fmtOut 512
  | 15 => t.seg
  | _ => getAt 0 i.prm (k - 7)

def uSprm (i : TaskInfo) (d imm : Nat) (c : TaskCtx) : UStep := .go (stepPc (setS c d (taskParam i c.task (imm % 16))))

def uScmp (d a b m : Nat) (c : TaskCtx) : UStep :=
  let x := if m % 2 = 1 then (sReg c a : Int) else i64 (sReg c a)
  let y := if m % 2 = 1 then (sReg c b : Int) else i64 (sReg c b)
  .go (stepPc (setS c d (if x < y then 2 ^ 64 - 1 else if x = y then 0 else 1)))

def uOsel (a : Nat) (c : TaskCtx) : UStep := .go (stepPc { c with osel := sReg c a })

/-! ## Vectors -/

/-- A lane-wise operation of two registers: FP32, or INT32 with M[0] (R228). -/
def vBin (m : Nat) (fp int : Nat → Nat → Nat) (d a b : Nat) (c : TaskCtx) : UStep :=
  .go (stepPc (setV c d (List.zipWith (if m % 2 = 1 then int else fp) (vReg c a) (vReg c b))))

def uVadd (d a b m : Nat) (c : TaskCtx) : UStep := vBin m fpAdd (fun x y => x + y) d a b c
def uVsub (d a b m : Nat) (c : TaskCtx) : UStep := vBin m fpSub (fun x y => x + 2 ^ 32 - y) d a b c
def uVmul (d a b m : Nat) (c : TaskCtx) : UStep := vBin m fpMul (fun x y => x * y) d a b c

def uVfma (d a b m : Nat) (c : TaskCtx) : UStep :=
  .go (stepPc (setV c d (((vReg c a).zip ((vReg c b).zip (vReg c d))).map (fun p =>
    if m % 2 = 1 then p.1 * p.2.1 + p.2.2 else fpFma p.1 p.2.1 p.2.2))))

def uVdiv (d a b : Nat) (c : TaskCtx) : UStep := vBin 0 fpDiv fpDiv d a b c
def uVsqrt (d a : Nat) (c : TaskCtx) : UStep := .go (stepPc (setV c d ((vReg c a).map fpSqrt)))

/-- The larger or smaller of two words; with a NaN, and between zeros of different sign, which is open. -/
def fpPick (min_ : Bool) (x y : Nat) : Nat :=
  if !fpOrd x y then Config.vecFree 0x1E (x * 2 ^ 32 + y) (b2n min_) % 2 ^ 32
  else if fpKey x = fpKey y then (if x = y ∨ Config.vecFree 0x1E (x * 2 ^ 32 + y) (b2n min_) % 2 = 0 then x else y)
  else if (fpKey x < fpKey y) = min_ then x else y

def uVmxn (d a b m : Nat) (c : TaskCtx) : UStep :=
  let min_ := bitAt m 1
  vBin m (fpPick min_) (fun x y => if (i32 x < i32 y) = min_ then x else y) d a b c

def uVsel (d a b imm : Nat) (c : TaskCtx) : UStep :=
  let f := fReg c (imm % 4)
  .go (stepPc (setV c d (((vReg c a).zip (vReg c b)).zipIdx.map (fun p => if bitAt f p.2 then p.1.1 else p.1.2))))

/-- A comparison of two lanes (VCMP); of a code from 5 on the result is open. -/
def laneCmp (m x y : Nat) : Bool :=
  let ints := m % 2 = 1
  let lt := if ints then decide (i32 x < i32 y) else fpOrd x y && decide (fpKey x < fpKey y)
  let eq := if ints then decide (i32 x = i32 y) else fpOrd x y && decide (fpKey x = fpKey y)
  match m / 2 % 8 with
  | 0 => lt
  | 1 => lt || eq
  | 2 => eq
  | 3 => !eq
  | 4 => !ints && !fpOrd x y
  | _ => Config.vecFree 0x20 m (x * 2 ^ 32 + y) % 2 == 1

def uVcmp (d a b m : Nat) (c : TaskCtx) : UStep :=
  .go (stepPc (setFv c (d % 4) (((vReg c a).zip (vReg c b)).reverse.foldl (fun v p => v * 2 + b2n (laneCmp m p.1 p.2)) 0)))

def uVbcs (d a : Nat) (c : TaskCtx) : UStep := .go (stepPc (setV c d (List.replicate 32 (sReg c a))))

/-- The lane of the largest (or smallest) FP32 word, the lowest on ties. -/
def bestLane (min_ : Bool) (l : List Nat) : Nat :=
  (l.zipIdx.foldl (fun b p => match b with
    | none => some p
    | some q => if (if min_ then fpKey p.1 < fpKey q.1 else fpKey q.1 < fpKey p.1) then some p else b) none).elim 0 (·.2)

/-- VRED: with a NaN among the lanes, or a mode from 4 on, the result is open, and so are the upper 32 bits of S[D] for the modes
that give a value. -/
def uVred (d a m : Nat) (c : TaskCtx) : UStep :=
  let l := vReg c a
  let key := l.foldl (fun v x => v * 2 ^ 32 + x) 0
  let lane := bestLane (m % 2 == 1) l
  .go (stepPc (setS c d (if l.any fpNan ∨ 4 ≤ m then Config.vecFree 0x22 m key
    else if m < 2 then getAt 0 l lane + Config.vecFree 0x22 m key % 2 ^ 32 * 2 ^ 32 else lane)))

def uVcvt (d a m : Nat) (c : TaskCtx) : UStep :=
  .go (stepPc (setV c d ((vReg c a).map (fun w =>
    if m = 0 then fpToInt w else if m = 1 then fpOfI32 w else if m = 2 then w else Config.vecFree 0x23 w m))))

def uVidx (d a : Nat) (c : TaskCtx) : UStep := .go (stepPc (setV c d ((List.range 32).map (fun l => sReg c a + l))))

def uVlog (d a b m imm : Nat) (c : TaskCtx) : UStep :=
  .go (stepPc (setV c d (List.zipWith (logicOp 0x25 32 m (imm % 64)) (vReg c a) (vReg c b))))

/-- VRNG: the contract generator, for element index S[A] + lane (R256). -/
def uVrng (i : TaskInfo) (d a : Nat) (c : TaskCtx) : UStep := .go (stepPc (setV c d ((List.range 32).map (fun l => drawOf i (sReg c a + l)))))

/-- Insert a (key, value) pair into a list that descends by key, ties to the lower value. -/
def insertDesc (p : Nat × Nat) : List (Nat × Nat) → List (Nat × Nat)
  | [] => [p]
  | q :: l => if fpKey q.1 < fpKey p.1 ∨ (fpKey q.1 = fpKey p.1 ∧ i32 p.2 < i32 q.2) then p :: q :: l else q :: insertDesc p l

/-- VSRT: with a NaN among the keys the order is open. -/
def uVsrt (d a b : Nat) (c : TaskCtx) : UStep :=
  let l := ((vReg c a).zip (vReg c b)).foldl (fun r p => insertDesc p r) []
  let open_ := (vReg c a).any fpNan
  let key := (vReg c a).foldl (fun v x => v * 2 ^ 32 + x) 0
  let put := fun (k : Nat) (w : List Nat) => if open_ then (List.range 32).map (fun i => Config.vecFree 0x27 (k * 32 + i) key) else w
  .go (stepPc (setV (setV c d (put 0 (l.map (·.1)))) ((d + 1) % 16) (put 1 (l.map (·.2)))))

def uVmov (d a m : Nat) (c : TaskCtx) : UStep :=
  .go (stepPc (if m = 0 then setV c d (vReg c a) else if m = 1 then setFv c (d % 4) (fReg c (a % 4)) else c))

/-! ## Scratch and Oasis -/

def uLds (d a imm : Nat) (c : TaskCtx) : UStep :=
  let p := sReg c a + imm
  if !scratchOk p 128 then .fault 1 0 else .go (stepPc (setV c d ((List.range 32).map (fun l => beNat (scratchRead c (p + 4 * l) 4)))))

def uSts (a b imm : Nat) (c : TaskCtx) : UStep :=
  let p := sReg c b + imm
  if !scratchOk p 128 then .fault 1 0 else .go (stepPc (scratchWrite c p ((vReg c a).flatMap (natBe 4))))

def uAsv (a row imm : Nat) (c : TaskCtx) : UStep :=
  let n := imm % 32 + 1
  if !uwSpanOk row imm then .stall
  else if !scratchOk (sReg c a) (1280 * n) then .fault 1 0
  else .go (stepPc (scratchWrite c (sReg c a)
    ((List.range n).flatMap (fun j => (List.range 32).flatMap (fun l => accBytes (accAt c (row + j) l))))))

def uArs (a m row imm : Nat) (c : TaskCtx) : UStep :=
  let n := imm % 32 + 1
  if !uwSpanOk row imm then .stall
  else if !scratchOk (sReg c a) (1280 * n) then .fault 1 0
  else
    let at_ := fun j l => accOfBytes (scratchRead c (sReg c a + 1280 * j + 40 * l) 40)
    .go (stepPc ((List.range n).foldl (fun c1 j =>
      if m % 2 = 1 then accRow 0 ((List.range 32).map (at_ j)) 0 (row + j) c1
      else (List.range 32).foldl (fun c2 l => setAcc c2 (row + j) l (at_ j l)) c1) c))

/-- OLD: with eight loads outstanding it waits. How many bytes it moves, of at most 4,096, where S[D] asks for more is open (log 214). -/
def uOld (s : State) (i : TaskInfo) (d a b : Nat) (c : TaskCtx) : UStep :=
  let n := if 4096 < sReg c d then Config.vecFree 0x2C (sReg c d) 0 % 4097 else sReg c d
  if 8 ≤ c.loads.length then .stall
  else if !scratchOk (sReg c b) n then .fault 1 0
  else if outsideSpace s i.part (sReg c a) n then .fault 2 0
  else .go (stepPc { c with loads := c.loads ++ [(sReg c b, sReg c a, n)] })

/-- OST. -/
def uOst (s : State) (i : TaskInfo) (d a b : Nat) (c : TaskCtx) : UStep :=
  let n := sReg c d
  if 16 ≤ c.stores.length ∨ 4096 < n then .fault 4 0
  else if !scratchOk (sReg c b) n then .fault 1 0
  else if outsideSpace s i.part (sReg c a) n then .fault 2 0
  else .go (stepPc { c with stores := c.stores ++ [(sReg c b, sReg c a, n)] })

/-- HST, lane by lane. -/
def hstLanes (base : Nat) : List Nat → TaskCtx → Option TaskCtx
  | [], c => some c
  | w :: l, c =>
    let p := (base : Int) + 4 * i32 w
    if p < 0 ∨ !scratchOk p.toNat 4 then none
    else hstLanes base l (scratchWrite c p.toNat (natBe 4 ((beNat (scratchRead c p.toNat 4) + 1) % 2 ^ 32)))

def uHst (a b : Nat) (c : TaskCtx) : UStep := match hstLanes (sReg c b) (vReg c a) c with
  | none => .fault 1 0
  | some c1 => .go (stepPc c1)

/-- The first outstanding load is done: its bytes are in scratch; with the last of them a SYNC that waits goes on. -/
def loadDone (s : State) (part : Nat) (c : TaskCtx) : TaskCtx := match c.loads with
  | [] => c
  | (p, o, n) :: rest =>
    let c1 := { scratchWrite c p (oasisRead s part o n) with loads := rest }
    if c1.syncing && rest.isEmpty then stepPc { c1 with syncing := false } else c1

/-! ## Issue -/

/-- The word at an index of the microcode store of a scope's engines: of the library, or of the owner section (R239). What the store
holds outside both sections is open (log 141). -/
def fetchWord (s : State) (part pc : Nat) : Nat :=
  let from_ := fun (t : Option (List Byte)) => t.bind (fun l =>
    if ucBase l ≤ pc ∧ pc < ucBase l + ucWords l then some (ucWord l (pc - ucBase l)) else none)
  match from_ (libText s) with
  | some w => w
  | none => (from_ (ownerText s part)).getD (Config.vecFree 0x60 pc part)

/-- Whether the word at a task's place is the given one: an engine runs nothing but what its store holds (R2, R229). -/
def atWord (s : State) (g w : Nat) (c : TaskCtx) : Bool := fetchWord s (engPart s g) c.pc == w

/-- The effect of a step on the engine. -/
def issued (s : State) (g : Nat) (b : Bool) (c : TaskCtx) : UStep → State
  | .go c' => setEng s g (putSlot (engOf s g) b (some c'))
  | .fault code sub => faultTask s g b c code sub
  | .stall => s

/-- Issue the instruction of a word in an engine: its issuing task takes the step where it is at that word, unless it waits in SYNC or a
reset or a trip has stopped the work in flight (R77); a task whose command has been claimed is stopped instead (R235). -/
def issue (s : State) (g w : Nat) (f : TaskInfo → TaskCtx → UStep) : State :=
  let e := engOf s g
  match (if workStopped s then none else issuingSlot e) with
  | none => s
  | some b => match slotOf e b with
    | none => s
    | some c => match (if taskLive s c.task then infoOf s c.task else none) with
      | none => discardTask s g b
      | some i => if c.syncing || !atWord s g w c then s else issued s g b c (f i c)

/-- The packet that an input was, when a task of a collective reads it: the KIND and RANK to ask for again (R341). -/
def inputRank (s : State) (t : Task) (k : Nat) : Option (Nat × Nat × Nat × Nat × Nat) := match t.owner with
  | .kernel _ _ => none
  | .coll grp step chunk stage => match groupOf s grp with
    | none => none
    | some x => match collIn x step with
      | none => none
      | some c =>
        if stage = 0 then ((contributors x c)[k]?).map (fun m => (grp, step, chunk, 0, m.rank))
        else if stage < 4 ∧ k = 1 then
          some (grp, step, chunk, 1, spineTag (chainPrev x (c.order.getD 1) chunk (stage - 1) (ownCoord s)))
        else none

/-- An input packet fails at an engine's read (R341, R353): the task ends without commit, the packet is asked for again, and the
chunk waits for it. Where the input is no packet, its segment is poisoned. -/
def inputBad (s : State) (g : Nat) (b : Bool) (c : TaskCtx) (counts : Bool) : State :=
  match inputRank s c.task c.input with
  | none => setEng s g (putSlot (engOf s g) b (some { c with poison := true }))
  | some (grp, step, k, kind, rank) =>
    let s1 := dropSlot s g b
    match groupOf s1 grp with
    | none => s1
    | some x => match collIn x step with
      | none => s1
      | some y =>
        let h := chunkOf y k
        let y1 := setChunk { y with contribs := y.contribs.filter (fun z => !(kind == 0 && z.rank == rank && z.chunk == k && !z.mirage)),
                                    partials := y.partials.filter (fun z => !(kind == 1 && z.tag == rank && z.chunk == k)) }
          { h with busy := false }
        let s2 := setColl s1 grp y1
        if counts then digestFail s2 grp x y1 kind rank k else askResend s2 grp x y1 kind rank k

/-- ACC as it may go: exactly, or with what the checks find. -/
def accIssue (s : State) (g m row imm : Nat) (ev : AccEvent) : State :=
  let e := engOf s g
  let w := uwMk 0x10 0 0 0 m row imm
  match issuingSlot e with
  | none => s
  | some b => match slotOf e b with
    | none => s
    | some c =>
      if ev = .fine ∨ !taskLive s c.task ∨ c.syncing ∨ !atWord s g w c ∨ workStopped s then issue s g w (fun i => uAcc s i m row imm)
      else match ev with
        | .residue => residueStop s g b c
        | .digest => inputBad s g b c true
        | _ =>
          if (inputRank s c.task c.input).isSome then inputBad s g b c false
          else issue (inputBad s g b c false) g w (fun i => uAcc s i m row imm)

/-- An instruction that changes accumulators, checked by residue (R343, R344). -/
def checkedIssue (s : State) (g w : Nat) (upset : Bool) (f : TaskInfo → TaskCtx → UStep) : State :=
  if !upset ∨ workStopped s then issue s g w f
  else
    let e := engOf s g
    match issuingSlot e with
    | none => s
    | some b => match slotOf e b with
      | none => s
      | some c => if taskLive s c.task && !c.syncing && atWord s g w c then residueStop s g b c else issue s g w f

/-! ## The instructions -/

/-- NOP. -/
def execUcodeNop (g : Fin 4096) (s : State) : Host.Outcome State Fault Refusal :=
  .next (issue s g (uwMk 0x00 0 0 0 0 0 0) (fun _ c => .go (stepPc c)))
/-- END: status 00h begins the commit, any other is fault 05h. -/
def execEndTask (g : Fin 4096) (imm : Word) (s : State) : Host.Outcome State Fault Refusal :=
  .next (issue s g (uwMk 0x01 0 0 0 0 0 imm.toNat) (fun _ => uEnd imm.toNat))
/-- BR. -/
def execBr (g : Fin 4096) (a : Fin 16) (m : Fin 64) (imm : Word) (s : State) : Host.Outcome State Fault Refusal :=
  .next (issue s g (uwMk 0x02 0 a 0 m 0 imm.toNat) (fun _ => uBr a m imm.toNat))
/-- LOOP. -/
def execLoop (g : Fin 4096) (d : Fin 16) (imm : Word) (s : State) : Host.Outcome State Fault Refusal :=
  .next (issue s g (uwMk 0x03 d 0 0 0 0 imm.toNat) (fun _ => uLoop d imm.toNat))
/-- CALL. -/
def execCall (g : Fin 4096) (imm : Word) (s : State) : Host.Outcome State Fault Refusal :=
  .next (issue s g (uwMk 0x04 0 0 0 0 0 imm.toNat) (fun _ => uCall imm.toNat))
/-- RET. -/
def execRet (g : Fin 4096) (s : State) : Host.Outcome State Fault Refusal := .next (issue s g (uwMk 0x05 0 0 0 0 0 0) (fun _ => uRet))
/-- FAULT: fault 05h. -/
def execFault (g : Fin 4096) (imm : Word) (s : State) : Host.Outcome State Fault Refusal :=
  .next (issue s g (uwMk 0x06 0 0 0 0 0 imm.toNat) (fun _ _ => .fault 5 (imm.toNat % 256)))
/-- SYNC. -/
def execSync (g : Fin 4096) (s : State) : Host.Outcome State Fault Refusal := .next (issue s g (uwMk 0x07 0 0 0 0 0 0) (fun _ => uSync))
/-- SLI. -/
def execSli (g : Fin 4096) (d : Fin 16) (imm : Word) (s : State) : Host.Outcome State Fault Refusal :=
  .next (issue s g (uwMk 0x08 d 0 0 0 0 imm.toNat) (fun _ => uSli d imm.toNat))
/-- SLUI. -/
def execSlui (g : Fin 4096) (d : Fin 16) (imm : Word) (s : State) : Host.Outcome State Fault Refusal :=
  .next (issue s g (uwMk 0x09 d 0 0 0 0 imm.toNat) (fun _ => uSlui d imm.toNat))
/-- SADD. -/
def execSadd (g : Fin 4096) (d a b : Fin 16) (imm : Word) (s : State) : Host.Outcome State Fault Refusal :=
  .next (issue s g (uwMk 0x0A d a b 0 0 imm.toNat) (fun _ => uSadd d a b imm.toNat))
/-- SSUB. -/
def execSsub (g : Fin 4096) (d a b : Fin 16) (s : State) : Host.Outcome State Fault Refusal :=
  .next (issue s g (uwMk 0x0B d a b 0 0 0) (fun _ => uSsub d a b))
/-- SMUL. -/
def execSmul (g : Fin 4096) (d a b : Fin 16) (s : State) : Host.Outcome State Fault Refusal :=
  .next (issue s g (uwMk 0x0C d a b 0 0 0) (fun _ => uSmul d a b))
/-- SLOG. -/
def execSlog (g : Fin 4096) (d a b : Fin 16) (m : Fin 64) (imm : Word) (s : State) : Host.Outcome State Fault Refusal :=
  .next (issue s g (uwMk 0x0D d a b m 0 imm.toNat) (fun _ => uSlog d a b m imm.toNat))
/-- SPRM. -/
def execSprm (g : Fin 4096) (d : Fin 16) (imm : Word) (s : State) : Host.Outcome State Fault Refusal :=
  .next (issue s g (uwMk 0x0E d 0 0 0 0 imm.toNat) (fun i => uSprm i d imm.toNat))
/-- SCMP. -/
def execScmp (g : Fin 4096) (d a b : Fin 16) (m : Fin 64) (s : State) : Host.Outcome State Fault Refusal :=
  .next (issue s g (uwMk 0x0F d a b m 0 0) (fun _ => uScmp d a b m))
/-- ACC, with what its checks find. -/
def execAcc (g : Fin 4096) (m : Fin 64) (row : Fin 32) (imm : Word) (ev : AccEvent) (s : State) : Host.Outcome State Fault Refusal :=
  .next (showGroup (accIssue s g m row imm.toNat ev))
/-- ACCV. -/
def execAccv (g : Fin 4096) (a : Fin 16) (m : Fin 64) (row : Fin 32) (imm : Word) (upset : Bool) (s : State) : Host.Outcome State Fault Refusal :=
  .next (checkedIssue s g (uwMk 0x11 0 a 0 m row imm.toNat) upset (fun _ => uAccv a m row imm.toNat))
/-- ACLR. -/
def execAclr (g : Fin 4096) (row : Fin 32) (imm : Word) (s : State) : Host.Outcome State Fault Refusal :=
  .next (issue s g (uwMk 0x12 0 0 0 0 row imm.toNat) (fun _ => uAclr row imm.toNat))
/-- OUTR. -/
def execOutr (g : Fin 4096) (m : Fin 64) (row : Fin 32) (imm : Word) (s : State) : Host.Outcome State Fault Refusal :=
  .next (issue s g (uwMk 0x13 0 0 0 m row imm.toNat) (fun i => uOutr i m row imm.toNat))
/-- NXT. -/
def execNxt (g : Fin 4096) (d : Fin 16) (s : State) : Host.Outcome State Fault Refusal := .next (issue s g (uwMk 0x14 d 0 0 0 0 0) (fun _ => uNxt d))
/-- INLD. -/
def execInld (g : Fin 4096) (d : Fin 16) (m : Fin 64) (s : State) : Host.Outcome State Fault Refusal :=
  .next (issue s g (uwMk 0x15 d 0 0 m 0 0) (fun i => uInld s i d m))
/-- OUTV. -/
def execOutv (g : Fin 4096) (a : Fin 16) (m : Fin 64) (imm : Word) (s : State) : Host.Outcome State Fault Refusal :=
  .next (issue s g (uwMk 0x16 0 a 0 m 0 imm.toNat) (fun i => uOutv i a m imm.toNat))
/-- OSEL. -/
def execOsel (g : Fin 4096) (a : Fin 16) (s : State) : Host.Outcome State Fault Refusal :=
  .next (issue s g (uwMk 0x17 0 a 0 0 0 0) (fun _ => uOsel a))
/-- VADD. -/
def execVadd (g : Fin 4096) (d a b : Fin 16) (m : Fin 64) (s : State) : Host.Outcome State Fault Refusal :=
  .next (issue s g (uwMk 0x18 d a b m 0 0) (fun _ => uVadd d a b m))
/-- VSUB. -/
def execVsub (g : Fin 4096) (d a b : Fin 16) (m : Fin 64) (s : State) : Host.Outcome State Fault Refusal :=
  .next (issue s g (uwMk 0x19 d a b m 0 0) (fun _ => uVsub d a b m))
/-- VMUL. -/
def execVmul (g : Fin 4096) (d a b : Fin 16) (m : Fin 64) (s : State) : Host.Outcome State Fault Refusal :=
  .next (issue s g (uwMk 0x1A d a b m 0 0) (fun _ => uVmul d a b m))
/-- VFMA. -/
def execVfma (g : Fin 4096) (d a b : Fin 16) (m : Fin 64) (s : State) : Host.Outcome State Fault Refusal :=
  .next (issue s g (uwMk 0x1B d a b m 0 0) (fun _ => uVfma d a b m))
/-- VDIV. -/
def execVdiv (g : Fin 4096) (d a b : Fin 16) (s : State) : Host.Outcome State Fault Refusal :=
  .next (issue s g (uwMk 0x1C d a b 0 0 0) (fun _ => uVdiv d a b))
/-- VSQRT. -/
def execVsqrt (g : Fin 4096) (d a : Fin 16) (s : State) : Host.Outcome State Fault Refusal :=
  .next (issue s g (uwMk 0x1D d a 0 0 0 0) (fun _ => uVsqrt d a))
/-- VMXN. -/
def execVmxn (g : Fin 4096) (d a b : Fin 16) (m : Fin 64) (s : State) : Host.Outcome State Fault Refusal :=
  .next (issue s g (uwMk 0x1E d a b m 0 0) (fun _ => uVmxn d a b m))
/-- VSEL. -/
def execVsel (g : Fin 4096) (d a b : Fin 16) (imm : Word) (s : State) : Host.Outcome State Fault Refusal :=
  .next (issue s g (uwMk 0x1F d a b 0 0 imm.toNat) (fun _ => uVsel d a b imm.toNat))
/-- VCMP. -/
def execVcmp (g : Fin 4096) (d a b : Fin 16) (m : Fin 64) (s : State) : Host.Outcome State Fault Refusal :=
  .next (issue s g (uwMk 0x20 d a b m 0 0) (fun _ => uVcmp d a b m))
/-- VBCS. -/
def execVbcs (g : Fin 4096) (d a : Fin 16) (m : Fin 64) (s : State) : Host.Outcome State Fault Refusal :=
  .next (issue s g (uwMk 0x21 d a 0 m 0 0) (fun _ => uVbcs d a))
/-- VRED. -/
def execVred (g : Fin 4096) (d a : Fin 16) (m : Fin 64) (s : State) : Host.Outcome State Fault Refusal :=
  .next (issue s g (uwMk 0x22 d a 0 m 0 0) (fun _ => uVred d a m))
/-- VCVT. -/
def execVcvt (g : Fin 4096) (d a : Fin 16) (m : Fin 64) (s : State) : Host.Outcome State Fault Refusal :=
  .next (issue s g (uwMk 0x23 d a 0 m 0 0) (fun _ => uVcvt d a m))
/-- VIDX. -/
def execVidx (g : Fin 4096) (d a : Fin 16) (s : State) : Host.Outcome State Fault Refusal :=
  .next (issue s g (uwMk 0x24 d a 0 0 0 0) (fun _ => uVidx d a))
/-- VLOG. -/
def execVlog (g : Fin 4096) (d a b : Fin 16) (m : Fin 64) (imm : Word) (s : State) : Host.Outcome State Fault Refusal :=
  .next (issue s g (uwMk 0x25 d a b m 0 imm.toNat) (fun _ => uVlog d a b m imm.toNat))
/-- VRNG. -/
def execVrng (g : Fin 4096) (d a : Fin 16) (s : State) : Host.Outcome State Fault Refusal :=
  .next (issue s g (uwMk 0x26 d a 0 0 0 0) (fun i => uVrng i d a))
/-- VSRT. -/
def execVsrt (g : Fin 4096) (d a b : Fin 16) (s : State) : Host.Outcome State Fault Refusal :=
  .next (issue s g (uwMk 0x27 d a b 0 0 0) (fun _ => uVsrt d a b))
/-- LDS. -/
def execLds (g : Fin 4096) (d a : Fin 16) (imm : Word) (s : State) : Host.Outcome State Fault Refusal :=
  .next (issue s g (uwMk 0x28 d a 0 0 0 imm.toNat) (fun _ => uLds d a imm.toNat))
/-- STS. -/
def execSts (g : Fin 4096) (a b : Fin 16) (imm : Word) (s : State) : Host.Outcome State Fault Refusal :=
  .next (issue s g (uwMk 0x29 0 a b 0 0 imm.toNat) (fun _ => uSts a b imm.toNat))
/-- ASV. -/
def execAsv (g : Fin 4096) (a : Fin 16) (row : Fin 32) (imm : Word) (s : State) : Host.Outcome State Fault Refusal :=
  .next (issue s g (uwMk 0x2A 0 a 0 0 row imm.toNat) (fun _ => uAsv a row imm.toNat))
/-- ARS. -/
def execArs (g : Fin 4096) (a : Fin 16) (m : Fin 64) (row : Fin 32) (imm : Word) (upset : Bool) (s : State) : Host.Outcome State Fault Refusal :=
  .next (checkedIssue s g (uwMk 0x2B 0 a 0 m row imm.toNat) (upset && m.val % 2 == 1) (fun _ => uArs a m row imm.toNat))
/-- OLD. -/
def execOld (g : Fin 4096) (d a b : Fin 16) (s : State) : Host.Outcome State Fault Refusal :=
  .next (issue s g (uwMk 0x2C d a b 0 0 0) (fun i => uOld s i d a b))
/-- OST. -/
def execOst (g : Fin 4096) (d a b : Fin 16) (s : State) : Host.Outcome State Fault Refusal :=
  .next (issue s g (uwMk 0x2D d a b 0 0 0) (fun i => uOst s i d a b))
/-- HST. -/
def execHst (g : Fin 4096) (a b : Fin 16) (s : State) : Host.Outcome State Fault Refusal :=
  .next (issue s g (uwMk 0x2E 0 a b 0 0 0) (fun _ => uHst a b))
/-- VMOV. -/
def execVmov (g : Fin 4096) (d a : Fin 16) (m : Fin 64) (s : State) : Host.Outcome State Fault Refusal :=
  .next (issue s g (uwMk 0x2F d a 0 m 0 0) (fun _ => uVmov d a m))

/-- The collective that a task serves. -/
def inputOwner (t : Task) : Option (Nat × Nat) := match t.owner with
  | .kernel _ _ => none
  | .coll grp step _ _ => some (grp, step)

/-- OLD_COMPLETE: the oldest outstanding load of the issuing task is done, or meets an uncorrectable word: fault 06h (R226, R230);
in a collective it poisons the chunk, which goes on (R354). -/
def execOldComplete (g : Fin 4096) (bad : Bool) (s : State) : Host.Outcome State Fault Refusal :=
  let e := engOf s g
  .next (match (if workStopped s then none else issuingSlot e) with
    | none => s
    | some b => match slotOf e b with
      | none => s
      | some c =>
        if c.loads.isEmpty then s
        else if bad && (inputOwner c.task).isSome then setEng s g (putSlot e b (some { loadDone s (engPart s g) c with poison := true }))
        else if bad then
          let t := faultTask s g b c 6 0
          match infoOf s c.task with
          | none => t
          | some i => poisoned t (g.val / 512) i 1 0xFFFF []
        else setEng s g (putSlot e b (some (loadDone s (engPart s g) c))))

end Sys2Proof.Machine
end

