-- ==== Sys2Proof/Machine/Kernels.lean ====
section
/-! DEFINITION. The kernel commands: what each leaves in Oasis and how it completes (spec/10: R236 to R238, Table 10.7; spec/11: R249,
R253 to R266). A kernel command's row runs the whole command at once. -/
namespace Sys2Proof.Machine

/-! ## What a command reads and writes -/

/-- Bytes of each input, of the output, of AUX and of WORK (Table 10.7, R261). Of a pair list only the count has a known place. -/
def kernelInBytes (v p : Nat) : Nat :=
  let op := dOpcode v
  let row := tensorBytes (dFmtIn v) (kpPrm p 0)
  if op = 0x44 then 4 else if op = 0x48 then dCount v * row else if op = 0x49 then kpPrm p 2 * kpPrm p 3 * row else tensorBytes (dFmtIn v) (dCount v)

/-- What MOE_DISPATCH and MOE_COMBINE write before any annex. -/
def kernelRowBytes (v p : Nat) : Nat :=
  let row := tensorBytes (dFmtOut v) (kpPrm p 0)
  if dOpcode v = 0x48 then kpPrm p 2 * kpPrm p 3 * row + dCount v * kpPrm p 1 * 4 + kpPrm p 2 * 4 + 4 else dCount v * row

/-- Bytes of an output with an annex for each of its segments (R261). -/
def withAnnex (policy bytes segs : Nat) : Nat := if polEscalate policy then (bytes + 63) / 64 * 64 + segs * 2112 else bytes

def kernelOutBytes (v p : Nat) : Nat :=
  let op := dOpcode v
  let perRow := (kpPrm p 0 + 511) / 512
  if op = 0x44 then 4 + kpPrm p 0 * pairBytes (dFmtOut v)
  else if op = 0x45 then kpPrm p 0 * pairBytes (dFmtOut v)
  else if op = 0x46 then (kpPrm p 0 + 3) * 4
  else if op = 0x47 then 12
  else if op = 0x48 then withAnnex (dPolicy v) (kernelRowBytes v p) (kpPrm p 2 * kpPrm p 3 * perRow)
  else if op = 0x49 then withAnnex (dPolicy v) (kernelRowBytes v p) (dCount v * perRow)
  else withAnnex (dPolicy v) (tensorBytes (dFmtOut v) (dCount v)) ((dCount v + 511) / 512)

def kernelAuxBytes (v p : Nat) : Nat :=
  let op := dOpcode v
  if op = 0x48 then dCount v * kpPrm p 1 * 4 else if op = 0x49 then dCount v * kpPrm p 1 * 8
  else if op = 0x4A ∧ !polResid (dPolicy v) then 0 else (dCount v + 511) / 512 * auxStep op

/-! ## Running a command whole -/

/-- A kernel command that runs whole: the oldest run of its queue, of an opcode that `p` takes, none of whose tasks has been
generated, whose pool is not empty and has an engine that takes tasks (R70, R77). -/
def wholeRun (s : State) (d q : Nat) (p : Nat → Bool) : Option KRun :=
  match s.brc.runs.find? (fun r => r.fq == flatQ d q) with
  | none => none
  | some r => if p r.opcode && r.phase == 1 && r.next == 0 && r.done == 0 && mayGenerate s r && engineLeft s d (cqScope s d q) && claimable s d q r.no then some r else none

/-- Segments of a command. -/
def runSegs (r : KRun) : Nat := (dCount r.desc + 511) / 512

/-- Elements of a segment. -/
def runLen (r : KRun) (seg : Nat) : Nat := min 512 (dCount r.desc - 512 * seg)

/-- A command that ran whole is complete: its tasks are counted and its queue may dispatch again. -/
def finishWhole (s : State) (r : KRun) : State :=
  let d := r.fq / 2048
  let s1 := bump64 (setRun s r) (Reg.BRC_TASKS d) (runSegs r + kernelPhases r.opcode - 1)
  finishRun (modSlot s1 d (r.fq % 2048) r.no (fun x => { x with holds := false })) r

/-- A run-time fault of a command that ran whole (R230). Which engine ran the faulting task, and at which word, is open. -/
def kernelFault (s : State) (r : KRun) (code sub : Nat) : State :=
  let d := r.fq / 2048
  let grain := d * 512 + freeNat s % 512
  let s1 := captureFault (tickFree s) grain (Config.vecFree 0x06 (freeNat s) 0 % 2048) code sub (runInfo s r)
  let s2 := brcEvent (bump64 s1 (Reg.BRC_FAULTS d) 1) d F.BRC_EVT_FAULT (natBe 1 (cqScope s d (r.fq % 2048)) ++ natBe 2 (grain % 512))
  failRun s2 r.fq r.no (if code = 2 then stDenied else if code = 6 then stPoisoned else stBadDescriptor)

/-- The bytes that a kernel command reads: each input, and AUX. -/
def inputBytes (s : State) (r : KRun) : List Byte :=
  let i := runInfo s r
  let len := fun (off : Nat) =>
    if r.opcode = 0x44 then 4 + beNat (oasisRead s i.part off 4) * pairBytes i.fmtIn else kernelInBytes r.desc r.params
  ((List.range (kpCount r.params)).flatMap (fun j => let off := kpIn r.params + j * kpStride r.params
    oasisRead s i.part off (len off))) ++ oasisRead s i.part i.aux (kernelAuxBytes r.desc r.params)

/-- What a kernel's bits may depend on besides the bytes it reads (R267): the kernel and its parameters, the formats, COUNT, POLICY and,
under stochastic rounding, the seed and JOB. -/
def kernelKey (s : State) (r : KRun) : List Nat :=
  let i := runInfo s r
  [r.opcode, i.fmtIn, i.fmtOut, i.policy, dCount r.desc, kpCount r.params] ++ (if polStoch i.policy then [i.seed, i.job] else []) ++ i.prm

/-- `n` bytes, from place `at_` on, of what a kernel command leaves where no rule fills its output (R227, R267). -/
def fillBytes (s : State) (r : KRun) (at_ n : Nat) : List Byte :=
  let b := inputBytes s r
  (List.range n).map (fun k => Config.fillByte (kernelKey s r) b (at_ + k))

/-- The workspace of a kernel of more than one phase: what it holds afterwards is open (Table 10.7). -/
def dirtyWork (s : State) (r : KRun) : State :=
  let i := runInfo s r
  let n := runSegs r * workStep r.opcode i.fmtOut (kpPrm r.params)
  oasisWrite s i.part i.work (fillBytes s r 0 n)

/-- Place in the fill of a kernel command's output: after its workspace. -/
def outFill (s : State) (r : KRun) (n : Nat) : List Byte :=
  fillBytes s r (runSegs r * workStep r.opcode (runInfo s r).fmtOut (kpPrm r.params)) n

/-! ## Elementwise kernels: SUM, MAX, MIN, MEAN, QUANT (Table 10.7) -/

/-- The accumulators of a segment after every input in ascending index (R227), and the overflows. -/
def segAccs (s : State) (r : KRun) (seg : Nat) : List Acc × Nat :=
  let i := runInfo s r
  let n := runLen r seg
  let bytes := segBytes i.fmtIn n
  (List.range (kpCount r.params)).foldl (fun (a : List Acc × Nat) j =>
    let x := decodeSeg i.fmtIn n (oasisRead s i.part (kpIn r.params + j * kpStride r.params + seg * segBytes i.fmtIn 512) bytes)
    let b := accAddAll (kernelOp r.opcode) a.1 x
    (b.1, a.2 + b.2)) (List.replicate n accEmpty, 0)

/-- One segment of an elementwise kernel. -/
def elementSeg (p : State × KRun) (seg : Nat) : State × KRun :=
  let (s, r) := p
  let i := runInfo s r
  let n := runLen r seg
  let (accs, ovf) := segAccs s r seg
  let (resid, stale) := if r.opcode = 0x4A ∧ polResid i.policy then residRead none n (oasisRead s i.part (i.aux + 2112 * seg) 2112) else ([], false)
  let o := roundFor i i.fmtOut (512 * seg) resid (accs.map accVal)
  (putSegment s i (dCount r.desc) seg o, countSegment r o stale ovf false)

/-- An elementwise kernel command. -/
def runElements (s : State) (d q opcode : Nat) : State :=
  match wholeRun s d q (· == opcode) with
  | none => s
  | some r =>
    let p := (List.range (runSegs r)).foldl elementSeg (s, r)
    finishWhole p.1 p.2

/-- SUM (40h). -/
def execSum (d : Fin 8) (q : Fin 2048) (s : State) : Host.Outcome State Fault Refusal := .next (runElements s d q 0x40)
/-- MAX (41h). -/
def execMax (d : Fin 8) (q : Fin 2048) (s : State) : Host.Outcome State Fault Refusal := .next (runElements s d q 0x41)
/-- MIN (42h). -/
def execMin (d : Fin 8) (q : Fin 2048) (s : State) : Host.Outcome State Fault Refusal := .next (runElements s d q 0x42)
/-- MEAN (43h): the exact sum divided by the divisor, rounded once. -/
def execMean (d : Fin 8) (q : Fin 2048) (s : State) : Host.Outcome State Fault Refusal := .next (runElements s d q 0x43)
/-- QUANT (4Ah): with RESIDUAL the record is added, and left anew. -/
def execQuant (d : Fin 8) (q : Fin 2048) (s : State) : Host.Outcome State Fault Refusal := .next (runElements s d q 0x4A)

/-! ## Values of a command in element order -/

/-- The exact sums of every element's inputs, and the overflows. -/
def allAccs (s : State) (r : KRun) : List Acc × Nat :=
  (List.range (runSegs r)).foldl (fun a seg => let b := segAccs s r seg; (a.1 ++ b.1, a.2 + b.2)) ([], 0)

/-- One value in the output format, by its element index: saturated where it exceeds. -/
def roundOne (i : TaskInfo) (index : Nat) (x : XVal) : Rounded :=
  roundSeg i.fmtOut 1 (drawsOf i) false index [divided 1 0 x]

/-- Pairs of an index and a value, written one after another. -/
def writePairs (i : TaskInfo) (l : List (Nat × XVal)) : Rounded :=
  l.foldl (fun o p => let v := roundOne i p.1 p.2; o.join { v with data := natBe 4 p.1 ++ v.data }) Rounded.none

/-! ## SPARSE_MERGE (44h) -/

/-- The pairs of an input. -/
def readPairs (s : State) (part off fmt : Nat) : List (Nat × XVal) :=
  (List.range (beNat (oasisRead s part off 4))).map (fun k =>
    let a := off + 4 + k * pairBytes fmt
    (beNat (oasisRead s part a 4), (decodeSeg fmt 1 (oasisRead s part (a + 4) (pairBytes fmt - 4))).headD (.fin 0)))

/-- Whether indices rise. -/
def rising : List (Nat × XVal) → Bool
  | a :: b :: l => decide (i32 a.1 < i32 b.1) && rising (b :: l)
  | _ => true

/-- The merged pairs in ascending index, values of equal index summed exactly, and the overflows. -/
def mergePairs (count : Nat) (l : List (Nat × XVal)) : SMap Acc × Nat :=
  (l.filter (fun p => decide (p.1 < 2 ^ 31 ∧ p.1 < count))).foldl (fun m p =>
    let r := accAdd 0 ((SMap.find m.1 p.1).getD accEmpty) p.2
    (SMap.ins m.1 p.1 r.1, m.2 + b2n r.2)) ([], 0)

/-- The fault that a sparse merge meets, its inputs taken in ascending index: 02h where an input's pairs do not lie in the scope's space
(Table 10.4), 05h where its indices do not rise. -/
def sparseFault (s : State) (r : KRun) (i : TaskInfo) : Option Nat :=
  (List.range (kpCount r.params)).findSome? (fun j =>
    let off := kpIn r.params + j * kpStride r.params
    if outsideSpace s i.part off 4 || outsideSpace s i.part off (4 + beNat (oasisRead s i.part off 4) * pairBytes i.fmtIn) then some 2
    else if rising (readPairs s i.part off i.fmtIn) then none else some 5)

/-- SPARSE_MERGE. -/
def runSparse (s : State) (d q : Nat) : State :=
  match wholeRun s d q (· == 0x44) with
  | none => s
  | some r =>
    let i := runInfo s r
    let lists := (List.range (kpCount r.params)).map (fun j => readPairs s i.part (kpIn r.params + j * kpStride r.params) i.fmtIn)
    match sparseFault s r i with
    | some code => kernelFault (dirtyWork s r) r code 0
    | none =>
      let m := mergePairs (dCount r.desc) lists.flatten
      let o := writePairs i ((m.1.take (kpPrm r.params 0)).map (fun e => (e.1, accVal e.2)))
      finishWhole (oasisWrite (dirtyWork s r) i.part i.dst (natBe 4 m.1.length ++ o.data)) (countSegment r o false m.2 false)

def execSparseMerge (d : Fin 8) (q : Fin 2048) (s : State) : Host.Outcome State Fault Refusal := .next (runSparse s d q)

/-! ## TOPK (45h) -/

/-- The key of a value: itself, or its magnitude. -/
def topKey (magnitude : Bool) (x : XVal) : XVal :=
  if magnitude then (match x with
    | .fin n => .fin n.natAbs
    | .ninf => .pinf
    | y => y) else x

/-- Insert into a list of descending keys; an equal key goes after those before it. -/
def insertTop (mag : Bool) (p : Nat × XVal) : List (Nat × XVal) → List (Nat × XVal)
  | [] => [p]
  | q :: l => if xLe (topKey mag p.2) (topKey mag q.2) then q :: insertTop mag p l else p :: q :: l

/-- TOPK: with a NaN among the values the order is open, and so are pairs beyond the elements. -/
def runTopk (s : State) (d q : Nat) : State :=
  match wholeRun s d q (· == 0x45) with
  | none => s
  | some r =>
    let i := runInfo s r
    let k := kpPrm r.params 0
    let (accs, ovf) := allAccs s r
    let xs := accs.map accVal
    let top := ((xs.zipIdx.map (fun p => (p.2, p.1))).foldl (fun l p => insertTop (kpPrm r.params 1 == 1) p l) []).take k
    let o := if xs.contains .nan then Rounded.none else writePairs i top
    let s1 := dirtyWork s r
    let bytes := o.data ++ (outFill s r (k * pairBytes i.fmtOut)).drop o.data.length
    finishWhole (oasisWrite s1 i.part i.dst bytes) (countSegment r o false ovf false)

def execTopk (d : Fin 8) (q : Fin 2048) (s : State) : Host.Outcome State Fault Refusal := .next (runTopk s d q)

/-! ## HIST (46h) -/

/-- The counter that an FP32 word goes to: a bin, below, at or above the upper edge, or NaN. Which counter takes a word below the
upper edge whose computed bin is past the last is open. -/
def histBin (bins lower upper sc w : Nat) : Nat :=
  if fpNan w then bins + 2
  else if fpKey w < fpKey lower then bins
  else if fpKey upper ≤ fpKey w then bins + 1
  else
    let t := fpMul (fpSub w lower) sc
    let n := (fpVal t).toNat / 2 ^ 149
    if fpNan t ∨ fpInf t ∨ bins ≤ n then (let f := Config.vecFree 0x46 w bins % (bins + 1); if f = bins then bins + 1 else f) else n

/-- HIST. -/
def runHist (s : State) (d q : Nat) : State :=
  match wholeRun s d q (· == 0x46) with
  | none => s
  | some r =>
    let i := runInfo s r
    let bins := kpPrm r.params 0
    let lower := kpPrm r.params 1
    let upper := kpPrm r.params 2
    let sc := fpDiv (fpOfI32 bins) (fpSub upper lower)
    let (accs, ovf) := allAccs s r
    let where_ := accs.map (fun a => histBin bins lower upper sc (fpOfX (accVal a)))
    let bytes := (List.range (bins + 3)).flatMap (fun b => natBe 4 ((where_.filter (· == b)).length % 2 ^ 32))
    finishWhole (oasisWrite (dirtyWork s r) i.part i.dst bytes) (countSegment r Rounded.none false ovf false)

def execHist (d : Fin 8) (q : Fin 2048) (s : State) : Host.Outcome State Fault Refusal := .next (runHist s d q)

/-! ## NORM2 (47h) -/

/-- NORM2: FP32 squares summed exactly; the norm and the scale from the rounded sum. -/
def runNorm (s : State) (d q : Nat) : State :=
  match wholeRun s d q (· == 0x47) with
  | none => s
  | some r =>
    let i := runInfo s r
    let (accs, ovf) := allAccs s r
    let squares := accs.map (fun a => let w := fpOfX (accVal a); xOfFp (fpMul w w))
    let sum := squares.foldl (fun (a : Acc × Nat) x => let b := accAdd 0 a.1 x; (b.1, a.2 + b2n b.2)) (accEmpty, 0)
    let w := writeEl 0 0 none (divided 1 0 (accVal sum.1))
    let norm := fpSqrt w.code
    let clip := kpPrm r.params 0
    let scale := if clip = 0 then 0x3F800000 else fpPick true 0x3F800000 (fpDiv clip norm)
    let o := { Rounded.none with sat := b2n w.sat, nan := w.nan }
    finishWhole (oasisWrite (dirtyWork s r) i.part i.dst (natBe 4 w.code ++ natBe 4 norm ++ natBe 4 scale))
      (countSegment r o false (ovf + sum.2) false)

def execNorm2 (d : Fin 8) (q : Fin 2048) (s : State) : Host.Outcome State Fault Refusal := .next (runNorm s d q)

/-! ## MOE_DISPATCH and MOE_COMBINE (48h, 49h) -/

/-- The slot of each assignment in token order and assignment order: the first C of each expert are kept; then the fill counts by
expert and the dropped count. -/
def assignSlots (experts cap : Nat) : List Nat → SMap Nat → Nat → List (Option Nat) × SMap Nat × Nat
  | [], fill, dropped => ([], fill, dropped)
  | e :: l, fill, dropped =>
    let n := SMap.get (fun _ => 0) fill e
    if experts ≤ e then let (a, b) := assignSlots experts cap l fill dropped; (none :: a, b)
    else if n < cap then let (a, b) := assignSlots experts cap l (SMap.put (fun _ => 0) fill e (n + 1)) dropped; (some (e * cap + n) :: a, b)
    else let (a, b) := assignSlots experts cap l fill (dropped + 1); (none :: a, b)

/-- Write the annexes of an output of rows (R261): after everything that the kernel writes at DST_ADDR, padded to a multiple of 64, one
for each segment of each row (DESIGN CHOICE, log 216). -/
def rowAnnex (s : State) (i : TaskInfo) (bytes width row : Nat) (o : Rounded) : State :=
  if !polEscalate i.policy then s
  else
    let n := (width + 511) / 512
    (List.range n).foldl (fun t j => oasisWrite t i.part (i.dst + (bytes + 63) / 64 * 64 + 2112 * (row * n + j))
      (annexBytes ((o.annex.drop (16 * j)).take 16))) s

/-- A row of tokens in the output format: its bytes unchanged where the formats are equal. -/
def moveRow (s : State) (i : TaskInfo) (src width first : Nat) : Rounded :=
  if i.fmtIn = i.fmtOut then
    { Rounded.none with data := oasisRead s i.part src (tensorBytes i.fmtIn width), annex := List.replicate ((width + 31) / 32) (i.fmtOut, []) }
  else
    let xs := decodeTensor i.fmtIn width (oasisRead s i.part src (tensorBytes i.fmtIn width))
    (List.range ((width + 511) / 512)).foldl (fun o j =>
      o.join (roundFor i i.fmtOut (first + 512 * j) [] ((xs.drop (512 * j)).take 512))) Rounded.none

/-- MOE_DISPATCH: rows lie as tensors of their own, a slot is its row's number; rows of slots that nothing fills are open. -/
def runMoeDispatch (s : State) (d q : Nat) : State :=
  match wholeRun s d q (· == 0x48) with
  | none => s
  | some r =>
    let i := runInfo s r
    let tokens := dCount r.desc
    let (width, k, experts, cap) := (kpPrm r.params 0, kpPrm r.params 1, kpPrm r.params 2, kpPrm r.params 3)
    let nums := (List.range (tokens * k)).map (fun n => beNat (oasisRead s i.part (i.aux + 4 * n) 4))
    let (slots, fill, dropped) := assignSlots experts cap nums [] 0
    let rowIn := tensorBytes i.fmtIn width
    let rowOut := tensorBytes i.fmtOut width
    let s1 := dirtyWork s r
    let bytes := kernelRowBytes r.desc r.params
    let s2 := oasisWrite s1 i.part i.dst (outFill s r (kernelOutBytes r.desc r.params))
    let p := slots.zipIdx.foldl (fun (p : State × KRun) e => match e.1 with
      | none => p
      | some slot =>
        let t := e.2 / max 1 k
        let o := moveRow p.1 i (kpIn r.params + t * rowIn) width (t * width)
        (rowAnnex (oasisWrite p.1 i.part (i.dst + slot * rowOut) o.data) i bytes width slot o, countSegment p.2 o false 0 false)) (s2, r)
    let tail := slots.flatMap (fun e => natBe 4 (e.getD 0xFFFFFFFF))
      ++ (List.range experts).flatMap (fun e => natBe 4 (SMap.get (fun _ => 0) fill e)) ++ natBe 4 dropped
    let pad := List.replicate (if polEscalate i.policy then (bytes + 63) / 64 * 64 - bytes else 0) 0
    finishWhole (oasisWrite p.1 i.part (i.dst + experts * cap * rowOut) (tail ++ pad)) p.2

def execMoeDispatch (d : Fin 8) (q : Fin 2048) (s : State) : Host.Outcome State Fault Refusal := .next (runMoeDispatch s d q)

/-- MOE_COMBINE: the exact sum over a token's kept slots of FP32 products, rounded once. -/
def runMoeCombine (s : State) (d q : Nat) : State :=
  match wholeRun s d q (· == 0x49) with
  | none => s
  | some r =>
    let i := runInfo s r
    let tokens := dCount r.desc
    let (width, k, rows) := (kpPrm r.params 0, kpPrm r.params 1, kpPrm r.params 2 * kpPrm r.params 3)
    let bytes := kernelRowBytes r.desc r.params
    let word := fun n => beNat (oasisRead s i.part (i.aux + 4 * n) 4)
    let rowIn := tensorBytes i.fmtIn width
    let rowOut := tensorBytes i.fmtOut width
    let p := (List.range tokens).foldl (fun (p : State × KRun) t =>
      let kept := ((List.range k).map (fun a => (word (t * k + a), word (tokens * k + t * k + a)))).filter (fun e => decide (e.1 < rows))
      let sum := kept.foldl (fun (a : List Acc × Nat) e =>
        let xs := decodeTensor i.fmtIn width (oasisRead s i.part (kpIn r.params + e.1 * rowIn) rowIn)
        let b := accAddAll 0 a.1 (xs.map (fun x => xOfFp (fpMul e.2 (fpOfX x))))
        (b.1, a.2 + b.2)) (List.replicate width accEmpty, 0)
      let xs := sum.1.map accVal
      let o := (List.range ((width + 511) / 512)).foldl (fun o j =>
        o.join (roundFor i i.fmtOut (t * width + 512 * j) [] ((xs.drop (512 * j)).take 512))) Rounded.none
      (rowAnnex (oasisWrite p.1 i.part (i.dst + t * rowOut) o.data) i bytes width t o, countSegment p.2 o false sum.2 false)) (s, r)
    let pad := List.replicate (if polEscalate i.policy then (bytes + 63) / 64 * 64 - bytes else 0) 0
    finishWhole (oasisWrite p.1 i.part (i.dst + bytes) pad) p.2

def execMoeCombine (d : Fin 8) (q : Fin 2048) (s : State) : Host.Outcome State Fault Refusal := .next (runMoeCombine s d q)

/-! ## The optimizers (4Bh to 4Dh, R238) -/

/-- The new state words of an element, w first, from its gradient and its old ones; `p` gives PRM0 to PRM7. -/
def optimizer (opcode : Nat) (p : Nat → Nat) (g : Nat) (st : List Nat) : List Nat :=
  let w := getAt 0 st 0
  let m := getAt 0 st 1
  let one := 0x3F800000
  if opcode = 0x4B then
    let g2 := fpFma (p 2) w g
    let m1 := fpFma (p 1) m (fpMul (fpSub one (p 3)) g2)
    [fpFma (fpNeg (p 0)) m1 w, m1]
  else if opcode = 0x4C then
    let m1 := fpFma (p 1) m (fpMul (fpSub one (p 1)) g)
    let v1 := fpFma (p 2) (getAt 0 st 2) (fpMul (fpMul (fpSub one (p 2)) g) g)
    let u := fpDiv (fpDiv m1 (p 5)) (fpAdd (fpSqrt (fpDiv v1 (p 6))) (p 3))
    [fpSub w (fpMul (p 0) (fpFma (p 4) w u)), m1, v1]
  else
    let m1 := fpFma (p 1) m (fpMul (fpSub one (p 1)) g)
    let sgn := if fpNan m1 then fpNanOf 0x4D m1 0 else if m1 % 2 ^ 31 = 0 then 0 else if bitAt m1 31 then 0xBF800000 else one
    [fpSub w (fpMul (p 0) (fpFma (p 2) w sgn)), m1]

/-- State words per element. -/
def optWords (opcode : Nat) : Nat := if opcode = 0x4C then 3 else 2

/-- Update `n` elements whose state lies at `aux`, each word's array 2,048 bytes; the updated w. -/
def optimizeSeg (s : State) (part opcode aux n : Nat) (p : Nat → Nat) (g : List Nat) : State × List Nat :=
  let k := optWords opcode
  let new := (List.range n).map (fun e =>
    optimizer opcode p (getAt 0 g e) ((List.range k).map (fun j => beNat (oasisRead s part (aux + 2048 * j + 4 * e) 4))))
  ((List.range k).foldl (fun t j => oasisWrite t part (aux + 2048 * j) (new.flatMap (fun l => natBe 4 (getAt 0 l j)))) s,
   new.map (fun l => getAt 0 l 0))

/-- One segment of an optimizer command. -/
def optimizerSeg (p : State × KRun) (seg : Nat) : State × KRun :=
  let (s, r) := p
  let i := runInfo s r
  let n := runLen r seg
  let (accs, ovf) := segAccs s r seg
  let (s1, w) := optimizeSeg s i.part r.opcode (i.aux + seg * auxStep r.opcode) n (kpPrm r.params) (accs.map (fun a => fpOfX (accVal a)))
  let o := roundFor i i.fmtOut (512 * seg) [] (w.map xOfFp)
  (putSegment s1 i (dCount r.desc) seg o, countSegment r o false ovf false)

/-- An optimizer command. -/
def runOptimizer (s : State) (d q opcode : Nat) : State :=
  match wholeRun s d q (· == opcode) with
  | none => s
  | some r =>
    let p := (List.range (runSegs r)).foldl optimizerSeg (s, r)
    finishWhole p.1 p.2

/-- SGD_MOM (4Bh). -/
def execSgdMom (d : Fin 8) (q : Fin 2048) (s : State) : Host.Outcome State Fault Refusal := .next (runOptimizer s d q 0x4B)
/-- ADAM_F32 (4Ch). -/
def execAdamF32 (d : Fin 8) (q : Fin 2048) (s : State) : Host.Outcome State Fault Refusal := .next (runOptimizer s d q 0x4C)
/-- SIGN_UPD (4Dh). -/
def execSignUpd (d : Fin 8) (q : Fin 2048) (s : State) : Host.Outcome State Fault Refusal := .next (runOptimizer s d q 0x4D)

/-! ## Owner kernels (60h to 7Fh) -/

/-- One word's effect on the task that issues it; loads are done as they are issued, so nothing waits. -/
def runWord (s : State) (i : TaskInfo) (w : Nat) (c : TaskCtx) : UStep :=
  let (d, a, b, m, row, imm) := (uwD w, uwA w, uwB w, uwM w, uwRow w, uwImm w)
  match uwOp w with
  | 0x00 => .go (stepPc c)
  | 0x01 => uEnd imm c
  | 0x02 => uBr a m imm c
  | 0x03 => uLoop d imm c
  | 0x04 => uCall imm c
  | 0x05 => uRet c
  | 0x06 => .fault 5 (imm % 256)
  | 0x07 => uSync c
  | 0x08 => uSli d imm c
  | 0x09 => uSlui d imm c
  | 0x0A => uSadd d a b imm c
  | 0x0B => uSsub d a b c
  | 0x0C => uSmul d a b c
  | 0x0D => uSlog d a b m imm c
  | 0x0E => uSprm i d imm c
  | 0x0F => uScmp d a b m c
  | 0x10 => uAcc s i m row imm c
  | 0x11 => uAccv a m row imm c
  | 0x12 => uAclr row imm c
  | 0x13 => uOutr i m row imm c
  | 0x14 => uNxt d c
  | 0x15 => uInld s i d m c
  | 0x16 => uOutv i a m imm c
  | 0x17 => uOsel a c
  | 0x18 => uVadd d a b m c
  | 0x19 => uVsub d a b m c
  | 0x1A => uVmul d a b m c
  | 0x1B => uVfma d a b m c
  | 0x1C => uVdiv d a b c
  | 0x1D => uVsqrt d a c
  | 0x1E => uVmxn d a b m c
  | 0x1F => uVsel d a b imm c
  | 0x20 => uVcmp d a b m c
  | 0x21 => uVbcs d a c
  | 0x22 => uVred d a m c
  | 0x23 => uVcvt d a m c
  | 0x24 => uVidx d a c
  | 0x25 => uVlog d a b m imm c
  | 0x26 => uVrng i d a c
  | 0x27 => uVsrt d a b c
  | 0x28 => uLds d a imm c
  | 0x29 => uSts a b imm c
  | 0x2A => uAsv a row imm c
  | 0x2B => uArs a m row imm c
  | 0x2C => match uOld s i d a b c with
    | .go c1 => .go (loadDone s i.part c1)
    | r => r
  | 0x2D => uOst s i d a b c
  | 0x2E => uHst a b c
  | 0x2F => uVmov d a m c
  | _ => .stall

/-- Run a task from its entry to END: its context there, a fault with the code of a FAULT or END, or none where it has not ended within
`n` words. -/
def runTask (s : State) (i : TaskInfo) : Nat → TaskCtx → Option (TaskCtx ⊕ Nat × Nat)
  | 0, _ => none
  | n + 1, c =>
    if c.ending then some (.inl c)
    else match runWord s i (fetchWord s i.part c.pc) c with
      | .go c1 => runTask s i n c1
      | .fault code sub => some (.inr (code, sub))
      | .stall => none

/-- Words that a task of an owner kernel may issue when its command runs whole (log 47). -/
def taskFuel : Nat := 1048576

/-- Run every task of an owner kernel: the state and run after the last, or with the fault that ended one; none where a task does
not end. -/
def runOwnerSegs : List Nat → State → KRun → Option (State × KRun × Option (Nat × Nat))
  | [], s, r => some (s, r, none)
  | seg :: l, s, r =>
    let i := runInfo s r
    match runTask s i taskFuel (freshCtx (kernelTask s r 1 seg) (kernelEntry s i.part r.opcode)) with
    | none => none
    | some (.inr code) => some (s, r, some code)
    | some (.inl c) =>
      let w := writeKernel s r c
      runOwnerSegs l w.1 w.2

/-- OWNER_KERNEL: an owner entry runs as its microcode says. -/
def execOwnerKernel (d : Fin 8) (q : Fin 2048) (s : State) : Host.Outcome State Fault Refusal :=
  .next (match wholeRun s d q (fun o => decide (0x60 ≤ o)) with
    | none => s
    | some r => match runOwnerSegs (List.range (runSegs r)) s r with
      | none => s
      | some (t, r', none) => finishWhole t r'
      | some (t, r', some code) => kernelFault (setRun t r') r' code.1 code.2)

end Sys2Proof.Machine
end

