-- ==== Sys2Proof/Machine/Collectives.lean ====
section
/-! DEFINITION. Collective commands, groups, and the messages of a step: LAUNCH, data, receipts, READY, COMMIT and ABORT (spec/12:
R272 to R295; spec/16: R394 to R396). -/
namespace Sys2Proof.Machine

/-! ## Reports -/

/-- The body of a COL notification after its event bit. -/
def colBody (part obj rank : Nat) : List Byte := natBe 1 part ++ natBe 2 obj ++ natBe 3 rank ++ natBe 1 0

/-- GRACE_US; 0 acts as 1. -/
def graceUnits (s : State) : Nat := max 1 (rf s Reg.COL_CFG F.COL_CFG_GRACE_US) * 1000 * nsUnit

/-- MAX_OPEN; 0 acts as 1, above 4 as 4. -/
def maxOpen (s : State) : Nat := min 4 (max 1 (rf s Reg.COL_CFG F.COL_CFG_MAX_OPEN))

/-- Whether a decision is a COMMIT: its status says so. -/
def isCommit (d : Option Nat) : Bool := d == some stOk || d == some stRangeEscalated || d == some stPoisoned

/-- Whether a step comes before another, modulo 2^32. -/
def stepBefore (a b : Nat) : Bool := a != b && decide ((b + 2 ^ 32 - a) % 2 ^ 32 < 2 ^ 31)

/-! ## Dispatch (R275, R278, R281, R283, R290) -/

/-- The launch signature (R275): CRC-64 over bytes 0 and 7 to 15 of the descriptor, then bytes 0 to 15 of the parameter block. -/
def launchSig (v params : Nat) : Nat :=
  crc64 0 (natBe 1 (dOpcode v) ++ natBe 9 (fieldBe 64 v 7 9) ++ natBe 16 (fieldBe 64 params 0 16))

/-- The commit deadline of a parameter block: within 2^31 s of now; none for 0 and 0. -/
def commitDeadline (s : State) (params : Nat) : Option Nat :=
  if cpSec params = 0 ∧ cpNs params = 0 then none
  else
    let now := nowSec s
    let ahead := (cpSec params + 2 ^ 32 - now % 2 ^ 32) % 2 ^ 32
    some (instant (if ahead < 2 ^ 31 then now + ahead else now + ahead - 2 ^ 32) (cpNs params))

/-- The order that the root chooses under AUTO (R283): long axes first, those not SATURATED ahead, then by LOAD, then X, Y, Z. -/
def autoOrder (s : State) (x : Group) : Nat :=
  let key := fun a =>
    (if boxExt x a = 1 then 2 ^ 40 else b2n (rb s (Reg.RTE_AXIS_LOAD a) F.RTE_AXIS_LOAD_SATURATED) * 2 ^ 20
      + rf s (Reg.RTE_AXIS_LOAD a) F.RTE_AXIS_LOAD_LOAD) * 4 + a
  axesOrder (sortBy key [0, 1, 2])

/-- The neighbours on the axes of a box with more than one spine, each once. -/
def boxNeighbours (s : State) (x : Group) : List Nat :=
  (((List.range 3).filter (fun a => boxExt x a != 1)).flatMap (fun a =>
    [alongAxis x a (ownCoord s) true, alongAxis x a (ownCoord s) false])).dedup

/-- Send LAUNCH for a step: to the neighbours and every local working member; a root under AUTO to every other spine (R281). -/
def sendLaunch (s : State) (grp : Nat) (x : Group) (c : Coll) : State :=
  let auto := isRoot s x && cpOrder c.params == 0
  let m : ColMsg := { ColMsg.plain 0x10 0 c.step with order := if auto then c.order.getD 0 else 0, digest := c.sig }
  let to_ := if auto then (boxSpines x).filter (fun y => y != ownCoord s) else boxNeighbours s x
  tellMembers (to_.foldl (fun t y => colSend t grp x (collEp y) m) s) grp x (workers x) m

/-- A LAUNCH of an open step has been heard: a differing signature asks for the abort, another enables transfers to its sender, and
the root's fixes the order. -/
def hearLaunch (s : State) (grp step coord sig order : Nat) : State :=
  match groupOf s grp with
  | none => s
  | some x => match collIn x step with
    | none => s
    | some c =>
      if c.sig ≠ sig then
        let s1 := colEvent s F.COL_EVT_LAUNCH_MISMATCH (colBody x.part grp 0xFFFFFF)
        if c.abortAt.isSome then s1 else abortRequest s1 grp step stBadDescriptor none
      else
        let o := if c.order.isNone ∧ coord = x.root ∧ 1 ≤ order ∧ order ≤ 6 then some order else c.order
        let c1 := { c with heardFrom := if c.heardFrom.contains coord then c.heardFrom else c.heardFrom ++ [coord], order := o }
        maybeReady (pumpColl (setColl s grp c1) grp step) grp step

/-- The collective of a command at dispatch. -/
def newColl (s : State) (d q : Nat) (y : Slot) (x : Group) (params : Nat) : Coll where
  step := x.nextStep
  gen := x.gen
  fq := flatQ d q
  no := y.no
  opcode := dOpcode y.desc
  redop := dRedop y.desc
  fmtIn := dFmtIn y.desc
  fmtOut := dFmtOut y.desc
  policy := dPolicy y.desc
  seedSel := dSeedSel y.desc
  count := dCount y.desc
  params := params
  order := if cpOrder params ≠ 0 then some (cpOrder params) else if isRoot s x then some (autoOrder s x) else none
  sig := launchSig y.desc params
  deadline := commitDeadline s params
  cells := 0
  win := 0
  members := 0
  nIn := 0
  nOut := 0
  placed := []
  queues := []
  oasis := 0
  launched := true
  heardFrom := []
  contribs := []
  chunks := []
  partials := []
  results := []
  shardCopy := []
  residCopy := []
  receipts := []
  racked := []
  readySent := false
  readies := []
  decided := none
  abortAt := none
  abortBy := none
  attempts := []
  audited := []
  ufl := 0
  stale := 0
  ovf := 0
  replay := false
  waiting := false
  since := 0
  oldEps := []
  ended := none

/-- A collective with the sizes of what it reserves, and the Oasis bytes among them; a BARRIER has no chunk and reserves none (log 53). -/
def collNeeds (s : State) (x : Group) (c : Coll) : Coll × Nat :=
  if c.count = 0 then (c, 0)
  else (sized x c, reserveOasis s x c.order c.opcode c.redop c.params c.fmtIn c.policy c.count)

/-- End a command that has waited for a swap. -/
def endSwapCmd (s : State) (r : Option SwapReq) (status : Nat) : State :=
  match r.bind (·.cmd) with
  | none => s
  | some a => claim s (a.1 / 2048) (a.1 % 2048) a.2 status

/-- Execute a group's swap (R295): the spare takes the rank from the next step dispatched; steps that are launched or held keep the old
endpoint. Without the spare or the rank it is denied. -/
def swapNow (s : State) (g : Nat) (x : Group) (r : SwapReq) : State :=
  match (workers x).find? (fun m => m.rank == r.rank), x.entries.find? (fun m => m.role != 0 && m.ep == r.spare) with
  | some old, some new =>
    let m : ColMsg := { ColMsg.plain 0x17 0 x.nextStep with rank := r.rank, esc := new.ep }
    let s1 := colSend (colSend s g x old.ep m) g x new.ep m
    let es := (x.entries.filter (fun y => y != new)).map (fun y => if y.role = 0 ∧ y.rank = r.rank then { y with ep := new.ep, late := 0 } else y)
    let hold := fun (c : Coll) => if c.oldEps.any (fun e => e.1 == r.rank) then c else { c with oldEps := c.oldEps ++ [(r.rank, old.ep)] }
    let x1 := { x with entries := es, opened := x.opened.map hold, kept := x.kept.map hold, swap := none }
    let s2 := colEvent (bump64 (setGroup s1 g x1) Reg.COL_SWAPS 1) F.COL_EVT_SWAP_DONE (colBody x.part g r.rank)
    showGroup (endSwapCmd s2 x.swap stOk)
  | _, _ => endSwapCmd (setGroup s g { x with swap := none }) x.swap stDenied

/-- A swap that waits for its step boundary is executed once that has come. -/
def swapDue (s : State) (g : Nat) : State :=
  match groupOf s g with
  | none => s
  | some x => match x.swap with
    | none => s
    | some r => if r.ready then swapNow s g x r else s

/-- Dispatch a collective whose descriptor has been accepted: it is denied, or it runs with its reservation and sends LAUNCH. A swap
whose step boundary has come applies from this step on (R295). -/
def dispatchColl (s0 : State) (d q : Nat) (y : Slot) (x0 : Group) (params : Nat) : State :=
  let grp := dGroup y.desc
  let s := swapDue s0 grp
  let x := (groupOf s grp).getD x0
  let c := newColl s d q y x params
  let deny := fun (t : State) => claim t d q y.no stDenied
  let works := c.opcode ≠ 0x12 ∧ c.opcode ≠ 0x14
  if (c.deadline.isSome ∧ !timReady s) ∨ fenced s x.part ∨ (works ∧ (scopeDunes s x.part).any (fun e => poolEmpty s e x.part) ∧ !owedCmd s (flatQ d q, y.no)) then deny s
  else
    let n := collNeeds s x c
    match reserve? s x.part n.2 n.1 with
    | none => deny (colEvent s F.COL_EVT_RESV_DENIED (colBody x.part grp 0xFFFFFF))
    | some c0 =>
      let c1 := { c0 with oasis := n.2 }
      let heard := x.early.filter (fun e => e.step == c.step)
      let x1 := { x with nextStep := (x.nextStep + 1) % 2 ^ 32, opened := x.opened ++ [c1], early := x.early.filter (fun e => e.step != c.step) }
      let s1 := modSlot (setGroup (takeCells s x.part c1.placed) grp x1) d q y.no (fun z => { z with st := .running })
      let s2 := grantScope (sendLaunch s1 grp x1 c1) x.part
      let s3 := heard.foldl (fun t e => hearLaunch t grp c.step e.coord e.sig e.order) s2
      showGroup (maybeReady (pumpColl s3 grp c.step) grp c.step)

/-! ## Running a collective's tasks whole -/

/-- The open collective of a command. -/
def collOfCmd (s : State) (fq no : Nat) : Option (Nat × Coll) :=
  s.col.groups.findSome? (fun g => (g.2.opened.find? (fun c => c.fq == fq && c.no == no)).map (fun c => (g.1, c)))

/-- The accumulators of a task's inputs, in order, and the overflows. -/
def inputAccs (t : Task) : List Acc × Nat :=
  t.inputs.foldl (fun a i =>
    let r := match i with
      | .packet f b => accAddAll t.op a.1 (decodeSeg f t.count b)
      | .exact l => accMergeAll t.op a.1 l
      | .oasis _ _ _ => (a.1, 0)
    (r.1, a.2 + r.2)) (List.replicate t.count accEmpty, 0)

/-- The last task of a chunk, whole: rounding, or the optimizer and the rounding of its parameters (R286, R288). -/
def roundChunk (s : State) (grp : Nat) (x : Group) (c : Coll) (t : Task) : State :=
  let k := t.seg
  let i := collInfo s x c k
  let c1 := takeCopies s x c k
  let s1 := setColl s grp c1
  let n := chunkLen c k
  let as := (chunkOf c k).part.getD []
  if c.opcode = 0x13 then
    if c.redop < 0x20 then
      let p := optimizeSeg s1 x.part (0x40 + c.redop) (shardAddr x c k) n (cpPrm c.params) (gradientWords as)
      chunkRounded p.1 grp x c1 k (roundFor i c.fmtOut 0 [] (p.2.map xOfFp)) false 0 false
    else match runTask s1 i taskFuel (freshCtx t (kernelEntry s1 x.part t.opcode)) with
      | none => s
      | some (.inl u) => chunkRounded (doStores s1 x.part u) grp x c1 k (packed i u) false u.ovf u.poison
      | some (.inr (code, _)) =>
        let g := t.home * 16 + freeNat s % 16
        let s2 := brcEvent (bump64 (tickFree s) (Reg.BRC_FAULTS (g / 512)) 1) (g / 512) F.BRC_EVT_FAULT (natBe 1 x.part ++ natBe 2 (g % 512))
        abortRequest s2 grp c.step (if code = 2 then stDenied else if code = 6 then stPoisoned else stBadDescriptor) none
  else
    let r := if polResid c.policy then residRead (some c.step) n (oasisRead s1 x.part (residAddr x c k) 2112) else ([], false)
    chunkRounded s1 grp x c1 k (roundFor i c.fmtOut 0 r.1 (as.map accVal)) r.2 0 false

/-- Run one queued task of a collective whole. -/
def runCollTask (s : State) (t : Task) : State :=
  match t.owner with
  | .kernel _ _ => s
  | .coll grp step k stage =>
    let s1 := bump64 (setTq s t.home ((tqOf s t.home).filter (fun u => u.no != t.no))) (Reg.BRC_TASKS (t.home / 32)) 1
    match groupOf s1 grp with
    | none => s1
    | some x => match collIn x step with
      | none => s1
      | some c =>
        if stage = 4 then roundChunk s1 grp x c t
        else let a := inputAccs t; chunkReduced s1 grp x c k stage a.1 a.2 false

/-- The queued tasks of a collective. -/
def collTasks (s : State) (grp step : Nat) : List Task := (s.brc.queues.flatMap (·.2)).filter (taskOf grp step)

/-- Move a collective on and run its queued tasks, as far as engines take them, until nothing of it that can run is queued. -/
def runColl (grp step : Nat) : Nat → State → State
  | 0, s => s
  | n + 1, s =>
    let s1 := pumpColl s grp step
    let ts := (collTasks s1 grp step).filter (fun t => engineLeft s1 (t.home / 32) (partOfRipple s1 t.home))
    if ts.isEmpty then maybeReady s1 grp step else runColl grp step n (ts.foldl runCollTask s1)

/-- A dispatched collective of a queue carries on as far as what has arrived lets it. -/
def collRow (d q opcode : Nat) (s : State) : State :=
  match runningSlot s d q (· == opcode) with
  | none => s
  | some y => match collOfCmd s (flatQ d q) y.no with
    | none => s
    | some (grp, c) => showGroup (pumpAll (settleDrains (runColl grp c.step (6 * collChunks c + 6) s)))

/-- ALLREDUCE (10h). -/
def execAllreduce (d : Fin 8) (q : Fin 2048) (s : State) : Host.Outcome State Fault Refusal := .next (collRow d q 0x10 s)
/-- REDUCE (11h): the result goes to ROOT_RANK only. -/
def execReduce (d : Fin 8) (q : Fin 2048) (s : State) : Host.Outcome State Fault Refusal := .next (collRow d q 0x11 s)
/-- BROADCAST (12h): no task, the root's segment unchanged. -/
def execBroadcast (d : Fin 8) (q : Fin 2048) (s : State) : Host.Outcome State Fault Refusal := .next (collRow d q 0x12 s)
/-- SHARD_UPDATE (13h): the optimizer runs at each chunk's owner. -/
def execShardUpdate (d : Fin 8) (q : Fin 2048) (s : State) : Host.Outcome State Fault Refusal := .next (collRow d q 0x13 s)
/-- BARRIER (14h): READY once every member's receipt has its RACK. -/
def execBarrier (d : Fin 8) (q : Fin 2048) (s : State) : Host.Outcome State Fault Refusal := .next (collRow d q 0x14 s)

/-! ## Groups (R276, R277, R292, Table 12.3) -/

/-- Whether a coordinate lies in a group's box. -/
def inBox (x : Group) (coord : Nat) : Bool :=
  (List.range 3).all (fun a => if boxExt x a = 1 then coordAt coord a == coordAt x.lo a else decide (coordAt coord a < boxExt x a))

/-- The entries of a group record. -/
def recordEntries (l : List Byte) : Nat → List Member
  | 0 => []
  | n + 1 => ⟨beAt l 0 3, beAt l 3 3, beAt l 6 1, 0, 0, 0, false⟩ :: recordEntries (l.drop 8) n

/-- Whether ranks rise. -/
def ranksRise : List Nat → Bool
  | a :: b :: l => decide (a < b) && ranksRise (b :: l)
  | _ => true

/-- A group as its record gives it, ACTIVE with nothing open; Mirage entries that stay keep their counts (R394). -/
def recordGroup (part : Nat) (l : List Byte) (old : Option Group) : Group :=
  let h := l.take 64
  let keep := fun (m : Member) => match old.bind (fun x => x.entries.find? (fun y => y.role == 2 && m.role == 2 && y.rank == m.rank && y.ep == m.ep)) with
    | some y => y
    | none => m
  { part := part, job := beAt h 4 2, gen := beAt h 2 1, size := beAt h 8 4, root := beAt h 16 3, lo := beAt h 19 3, ext := beAt h 22 3,
    nextStep := beAt h 28 4, entries := (recordEntries (l.drop 64) (beAt h 12 4)).map keep, opened := [], kept := [], stragRank := none,
    retracts := [], swap := none, early := [], wrr := [] }

/-- Whether a record obeys Table 12.3, R276 and R394. -/
def recordOk (s : State) (v : Nat) (l : List Byte) (x : Group) : Bool :=
  let work := workers x
  let zeros := fun (i n : Nat) => beAt l i n == 0
  beAt l 0 2 == dGroup v && x.gen == dGen v && zeros 3 1 && zeros 6 2 && zeros 25 3 && zeros 32 32
    && decide (1 ≤ x.size ∧ x.size ≤ 131072) && decide (beAt l 12 4 ≤ 131072)
    && [x.root, x.lo, x.ext].all (fun c => c % 64 == 0)
    && (List.range 3).all (fun a => (boxExt x a == 1 || boxExt x a == dimSize s a) && decide (coordAt x.lo a < dimSize s a))
    && inBox x x.root && inBox x (ownCoord s)
    && ranksRise (work.map (·.rank))
    && x.entries.all (fun m => decide (m.role ≤ 2) && (if m.role = 1 then m.rank == 0xFFFFFF else decide (m.rank ≤ 131071)))
    && (x.entries.filter (fun m => m.role == 2)).all (fun m => work.any (fun w => w.rank == m.rank))
    && (List.range (beAt l 12 4)).all (fun i => beAt l (64 + 8 * i + 7) 1 == 0)

/-- Entries of every other group that `p` accepts. -/
def otherEntries (s : State) (grp : Nat) (p : Member → Bool) : Nat :=
  sumNat ((s.col.groups.filter (fun g => g.1 != grp)).map (fun g => (g.2.entries.filter p).length))

/-- Claim every open collective of a group with a status. -/
def endAll (s : State) (grp status : Nat) : State :=
  match groupOf s grp with
  | none => s
  | some x => x.opened.foldl (fun t c =>
      let t1 := endColl t grp c status 0 0 0
      match c.abortBy with
      | none => t1
      | some a => claim t1 (a.1 / 2048) (a.1 % 2048) a.2 stAbortLate) s

/-- GROUP_SET (3Eh, R276, R292). A swap that has not begun ends DENIED (log 54). -/
def execGroupSet (d : Fin 8) (q : Fin 2048) (s : State) : Host.Outcome State Fault Refusal :=
  .next (match runningSlot s d q (· == 0x3E) with
    | none => s
    | some y =>
      let v := y.desc
      let grp := dGroup v
      let part := cqScope s d q
      let n := beNat (oasisRead s part (dSrc v + 12) 4)
      let l := oasisRead s part (dSrc v) (64 + 8 * n)
      let old := groupOf s grp
      let x := recordGroup part l old
      let end_ := fun (t : State) st => showGroup (claim t d q y.no st)
      if 131072 < n then end_ s stBadDescriptor
      else if outsideSpace s part (dSrc v) (64 + 8 * n) then end_ s stDenied
      else if !recordOk s v l x then end_ s stBadDescriptor
      else if x.job ≠ cqJob s d q then end_ s stDenied
      else if 4194304 < otherEntries s grp (fun _ => true) + n then end_ s stDenied
      else if 256 < otherEntries s grp (fun m => m.role == 2) + (x.entries.filter (fun m => m.role == 2)).length then end_ s stDenied
      else
        let any := old.any (fun g => !g.opened.isEmpty)
        let s1 := endSwapCmd (endAll s grp stRegrouped) (old.bind (·.swap)) stDenied
        let s2 := if any then colEvent s1 F.COL_EVT_REGROUPED (colBody part grp 0xFFFFFF) else s1
        end_ (pumpAll (setGroup s2 grp x)) stOk)

/-- GROUP_FREE (3Fh): open collectives are claimed ABORTED, and what was held is freed. -/
def execGroupFree (d : Fin 8) (q : Fin 2048) (s : State) : Host.Outcome State Fault Refusal :=
  .next (match runningSlot s d q (· == 0x3F) with
    | none => s
    | some y =>
      let grp := dGroup y.desc
      let s1 := endSwapCmd (endAll s grp stAborted) ((groupOf s grp).bind (·.swap)) stDenied
      let s2 := { s1 with col := { s1.col with groups := SMap.del s1.col.groups grp } }
      showGroup (claim (pumpAll s2) d q y.no stOk))

/-! ## Member swaps (R295) -/

/-- MEMBER_SWAP (15h): it waits for the next step boundary. -/
def execMemberSwap (d : Fin 8) (q : Fin 2048) (s : State) : Host.Outcome State Fault Refusal :=
  .next (match runningSlot s d q (· == 0x15) with
    | none => s
    | some y => match groupOf s (dGroup y.desc) with
      | none => claim s d q y.no stDenied
      | some x =>
        let ep := dSrc y.desc / 2 ^ 24 % 2 ^ 24
        let rank := dSrc y.desc % 2 ^ 24
        if !(x.entries.any (fun m => m.role == 1 && m.ep == ep)) ∨ !((workers x).any (fun m => m.rank == rank)) then claim s d q y.no stDenied
        else if x.swap.isSome then s
        else setGroup s (dGroup y.desc) { x with swap := some ⟨some (flatQ d q, y.no), rank, ep, false⟩ })

/-- SWAP (R295): after the boundary both endpoints are told, the spare takes the rank, and the command completes. -/
def execSwap (grp : BitVec 16) (s : State) : Host.Outcome State Fault Refusal :=
  .next (swapDue s grp.toNat)

/-! ## Messages on arrival -/

/-- The fields of a control message. -/
def colMsgOf (b : List Byte) : ColMsg := ⟨beAt b 0 1, beAt b 1 1, beAt b 5 1, beAt b 8 4, beAt b 12 3, beAt b 16 8, beAt b 24 4, beAt b 28 4⟩

/-- A control message for this spine: of a type, and of a group that it has, under the group's GEN. -/
def ctlFor (s : State) (typ : Nat) (c : Cfh) (b : List Byte) : Option (Nat × Group × ColMsg) :=
  if b.length ≠ 32 ∨ beAt b 0 1 ≠ typ ∨ c.dst ≠ collEp (ownCoord s) ∨ !platUp s then none
  else match groupOf s (beAt b 2 2) with
    | none => none
    | some x => if x.gen = beAt b 4 1 ∧ c.part = hallPart s x.part then some (beAt b 2 2, x, colMsgOf b) else none

/-- The spine of the box that sent a message. -/
def fromSpine (x : Group) (c : Cfh) : Option Nat :=
  if collEp (epCoord c.src) = c.src ∧ inBox x (epCoord c.src) then some (epCoord c.src) else none

/-- Whether a message comes from the root. -/
def fromRoot (x : Group) (c : Cfh) : Bool := c.src == collEp x.root

/-- A twin in SOURCE role copies what it admits for its collective service to the twin port (R396). -/
def twinCopy (s : State) (part : Nat) (c : Cfh) (b : List Byte) : State :=
  if rf s Reg.MGT_TWIN_CFG F.MGT_TWIN_CFG_ROLE = 1 then twinSend s part (cfhBytes c ++ b) else s

/-- LAUNCH (R275, R281). One that comes before the spine's own dispatch is held for it. -/
def execLaunch (c : Cfh) (payload : List Byte) (s : State) : Host.Outcome State Fault Refusal :=
  .next (match ctlFor s 0x10 c payload with
    | none => s
    | some (grp, x, m) => match fromSpine x c with
      | none => s
      | some coord =>
        let s1 := twinCopy s x.part c payload
        if (collIn x m.step).isSome then showGroup (hearLaunch s1 grp m.step coord m.digest m.order)
        else if m.step = x.nextStep ∨ stepBefore x.nextStep m.step then
          let rest := x.early.filter (fun e => !(e.step == m.step && e.coord == coord))
          setGroup s1 grp { x with early := rest ++ [⟨m.step, coord, m.digest, m.order⟩] }
        else s1)

/-! ## Data packets (R282, R340, R341) -/

/-- A packet that is not admitted is discarded and counted. -/
def strayPkt (s : State) (part grp : Nat) : State :=
  colEvent (bump64 s Reg.COL_STRAY 1) F.COL_EVT_STRAY (colBody part grp 0xFFFFFF)

/-- The open collective that a COLL packet for this spine names (R282): its LAUNCH sent, the JOB right, the chunk in range. -/
def dataFor (s : State) (c : Cfh) : Option (Group × Coll) :=
  match groupOf s c.group with
  | none => none
  | some x => if x.gen ≠ c.gen ∨ x.job ≠ c.job ∨ c.part ≠ hallPart s x.part then none else match collIn x c.step with
    | none => none
    | some y => if y.launched ∧ c.chunk < collChunks y then some (x, y) else none

/-- Whether a packet is one for the collective service of this spine. -/
def collPkt (s : State) (c : Cfh) : Bool := platUp s && c.cls == 4 && c.dst == collEp (ownCoord s)

/-- Scope that a stray packet is reported under: its group's, else that of its hall partition, else 0. -/
def strayPart (s : State) (c : Cfh) : Nat := match groupOf s c.group with
  | some x => x.part
  | none => ((s.img.cfg.scopes.find? (fun y => y.hallPart == c.part)).map (·.num)).getD 0

/-- Whether a packet's digest is right (R339). -/
def digestOk (c : Cfh) (b : List Byte) : Bool := collDigest c.step c.chunk c.gen c.rank b == c.digest

/-- Mark a chunk that a poisoned packet feeds (R354). -/
def poisonChunk (y : Coll) (k : Nat) (p : Bool) : Coll := if p then setChunk y { chunkOf y k with poison := true } else y

/-- The time of a member's last contribution. -/
def lastAt (y : Coll) (rank : Nat) : Nat := maxNat ((y.contribs.filter (fun b => b.rank == rank && !b.mirage)).map (·.at_))

/-- Once every contribution of a step is in (R294): the last member, if late, scores a late step, and every other's row ends; at COUNT
it is marked, and with AUTO a spare is to take its rank (R295). -/
def straggle (s : State) (grp step : Nat) : State :=
  match groupOf s grp with
  | none => s
  | some x => match collIn x step with
    | none => s
    | some y =>
      let who := contributors x y
      let mine := y.contribs.filter (fun b => !b.mirage)
      if who.length < 2 ∨ who.length < (workers x).length ∨ mine.length ≠ who.length * collChunks y then s
      else
        let times := who.map (fun m => lastAt y m.rank)
        let top := maxNat times
        let next := maxNat (times.erase top)
        let late := decide (next + rf s Reg.COL_STRAG F.COL_STRAG_LATE_US * 1000 * nsUnit < top)
        let es := x.entries.map (fun m => if m.role = 0 then
            (if late ∧ lastAt y m.rank = top then { m with late := m.late + 1 } else { m with late := 0 }) else m)
        let x1 := { x with entries := es }
        match es.find? (fun m => m.role == 0 && m.late == max 1 (rf s Reg.COL_STRAG F.COL_STRAG_COUNT)) with
        | none => setGroup s grp x1
        | some m =>
          let req := if rb s Reg.COL_STRAG F.COL_STRAG_AUTO && x.swap.isNone then
              (es.find? (fun e => e.role == 1)).map (fun e => (⟨none, m.rank, e.ep, false⟩ : SwapReq)) else x.swap
          colEvent (setGroup s grp { x1 with stragRank := some m.rank, swap := req }) F.COL_EVT_STRAGGLER (colBody x.part grp m.rank)

/-- A contribution packet arrives at this spine: of a working member, or of a Mirage member, which its source tells apart (R394). -/
def contribRx (s : State) (c : Cfh) (b : List Byte) : State :=
  match dataFor s c with
  | none => strayPkt s (strayPart s c) c.group
  | some (x, y) =>
    let mir := (mirages x).any (fun m => m.rank == c.rank && m.ep == c.src)
    if !((contributors x y).any (fun m => m.rank == c.rank)) ∨ c.format ≠ y.fmtIn ∨ b.length ≠ segBytes y.fmtIn (chunkLen y c.chunk) then
      strayPkt s x.part c.group
    else if y.contribs.any (fun e => e.rank == c.rank && e.chunk == c.chunk && e.mirage == mir) then bump64 s Reg.COL_DUP 1
    else if !digestOk c b then digestFail s c.group x y 0 c.rank c.chunk
    else
      let e : Contrib := ⟨c.rank, c.chunk, mir, b, c.digest, s.clock⟩
      let y1 := { attemptDone y c.rank c.chunk with contribs := y.contribs ++ [e] }
      let s1 := countStaging (bump64 (twinCopy s x.part c b) Reg.COL_CONTRIB 1) x y c.chunk y.nIn Reg.SWC_Q_ENQ_CELLS
      if mir then setColl s1 c.group y1
      else straggle (runChunk c.group c.step c.chunk 12 (setColl s1 c.group (poisonChunk y1 c.chunk c.poison))) c.group c.step

/-- CONTRIBUTION_RX. -/
def execContributionRx (c : Cfh) (payload : List Byte) (s : State) : Host.Outcome State Fault Refusal :=
  .next (if collPkt s c then showGroup (contribRx s c payload) else s)

/-- The place in ORDER of the axis that a chunk is on, or comes to next (R284). -/
def currentAxis (x : Group) (y : Coll) (h : Chunk) : Option Nat :=
  if h.stage = 4 ∨ h.stage = 5 then none
  else (longAxes x (y.order.getD 1)).find? (fun i => decide (h.stage ≤ i + 1 ∨ h.stage = i + 11))

/-- The spine tag that a chunk's partial is awaited from. -/
def awaitedTag (s : State) (x : Group) (y : Coll) (k : Nat) : Option Nat :=
  match y.order, currentAxis x y (chunkOf y k) with
  | some o, some i =>
    if onChain x o k i (ownCoord s) && chainPlace x o k i (ownCoord s) != 0 then some (spineTag (chainPrev x o k i (ownCoord s))) else none
  | _, _ => none

/-- Whether a partial packet's payload has the form its kind demands (R272, R285). -/
def partialForm (y : Coll) (k : Nat) (b : List Byte) : Bool :=
  if y.opcode = 0x12 then b.isEmpty || b.length == segBytes y.fmtIn (chunkLen y k)
  else !b.isEmpty && (splitRecords 16 b).isSome

/-- A partial packet arrives. -/
def partialPkt (s : State) (c : Cfh) (b : List Byte) : State :=
  match dataFor s c with
  | none => strayPkt s (strayPart s c) c.group
  | some (x, y) =>
    let mine := fun (p : PartRx) => p.chunk == c.chunk && p.tag == c.rank
    let was := y.partials.find? mine
    let drop := { y with partials := y.partials.filter (fun p => !mine p) }
    if was.any (·.closed) then bump64 s Reg.COL_DUP 1
    else if awaitedTag s x y c.chunk ≠ some c.rank ∨ c.format ≠ y.fmtIn ∨ !partialForm y c.chunk b ∨ (!c.first ∧ was.isNone) then strayPkt s x.part c.group
    else if c.first ∧ was.isSome then bump64 s Reg.COL_DUP 1
    else if !digestOk c b then digestFail (setColl s c.group drop) c.group x drop 1 c.rank c.chunk
    else
      let all := (was.map (·.bytes)).getD [] ++ b
      let whole := y.opcode == 0x12 || (partialAccs (chunkLen y c.chunk) all).isSome
      if c.last ∧ !whole then strayPkt (setColl s c.group drop) x.part c.group
      else
        let y1 := if c.last then attemptDone drop c.rank c.chunk else drop
        let y2 := poisonChunk { y1 with partials := y1.partials ++ [⟨c.chunk, c.rank, all, c.last⟩] } c.chunk c.poison
        runChunk c.group c.step c.chunk 12 (setColl (twinCopy s x.part c b) c.group y2)

/-- PARTIAL_RX. -/
def execPartialRx (c : Cfh) (payload : List Byte) (s : State) : Host.Outcome State Fault Refusal :=
  .next (if collPkt s c then showGroup (partialPkt s c payload) else s)

/-- Bytes of a result packet. -/
def resultLen (y : Coll) (k : Nat) : Nat := segBytes y.fmtOut (chunkLen y k) + if polEscalate y.policy then 2112 else 0

/-- Whether a packet comes from the ring neighbour that precedes this spine in the chunk's result chain. -/
def resultFrom (s : State) (x : Group) (o : Nat) (c : Cfh) : Option Nat :=
  match resultAxis x o c.chunk (ownCoord s) with
  | none => none
  | some i => if c.src = collEp (chainPrev x o c.chunk i (ownCoord s)) then some i else none

/-- A result packet arrives: it is held, delivered and sent on (R287). -/
def resultPkt (s : State) (c : Cfh) (b : List Byte) : State :=
  match dataFor s c with
  | none => strayPkt s (strayPart s c) c.group
  | some (x, y) => match y.order with
    | none => strayPkt s x.part c.group
    | some o => match resultFrom s x o c with
      | none => strayPkt s x.part c.group
      | some i =>
        if c.rank ≠ spineTag (chunkOwner x o c.chunk) ∨ c.format ≠ y.fmtOut ∨ b.length ≠ resultLen y c.chunk then strayPkt s x.part c.group
        else if y.results.any (fun r => r.chunk == c.chunk) then bump64 s Reg.COL_DUP 1
        else if !digestOk c b then digestFail s c.group x y 2 c.rank c.chunk
        else
          let s1 := twinCopy s x.part c b
          spreadResult s1 c.group x y ⟨c.chunk, b, c.digest, 0, 0, c.poison⟩ i

/-- RESULT_RX. -/
def execResultRx (c : Cfh) (payload : List Byte) (s : State) : Host.Outcome State Fault Refusal :=
  .next (if collPkt s c then showGroup (resultPkt s c payload) else s)

/-! ## Receipts (R289, R342) -/

/-- Send a held result packet to an endpoint again. -/
def resendResult (s : State) (grp : Nat) (x : Group) (y : Coll) (ep : Nat) (r : ResPkt) : State :=
  collSendData s grp x y none r.chunk ep (spineTag (chunkOwner x (y.order.getD 1) r.chunk)) y.fmtOut true true r.poison true r.bytes

/-- A receipt that does not match (R342): the results are sent again, or after RESEND_MAX attempts the root is asked to abort. -/
def receiptBad (s : State) (grp : Nat) (x : Group) (y : Coll) (m : Member) : State :=
  let n := ((attemptOf y m.rank 0xFFFFFF).map (·.n)).getD 0
  let s1 := fsrStore s 0x04 [0, chunkDune s x 0] [] [] x.part [(14, x.job), (15, grp), (16, y.step)] []
  if resendMax s (chunkDune s x 0) ≤ n then (if y.abortAt.isSome then s1 else abortRequest s1 grp y.step stDigestFail none)
  else
    let y1 := { attemptDone y m.rank 0xFFFFFF with attempts := (attemptDone y m.rank 0xFFFFFF).attempts ++ [⟨m.rank, 0xFFFFFF, n + 1, s.clock⟩] }
    bump64 (y.results.foldl (fun t r => resendResult t grp x y1 m.ep r) (setColl s1 grp y1)) Reg.COL_RESULT_TX y.results.length

/-- RECEIPT (R289). A Mirage member's is no receipt (R394). One that comes before the spine holds every result has nothing to be
compared with, and waits for nothing (log 55). -/
def execReceipt (c : Cfh) (payload : List Byte) (s : State) : Host.Outcome State Fault Refusal :=
  .next (match ctlFor s 0x11 c payload with
    | none => s
    | some (grp, x, m) => match collIn x m.step with
      | none => s
      | some y => match (receivers x y).find? (fun w => w.rank == m.rank && w.ep == c.src) with
        | none => s
        | some w =>
          let s1 := twinCopy s x.part c payload
          if y.results.length < collChunks y then s1
          else if m.digest = resultDigest y then
            let y1 := attemptDone { y with receipts := if y.receipts.contains m.rank then y.receipts else y.receipts ++ [m.rank] } m.rank 0xFFFFFF
            maybeReady (colSend (setColl s1 grp y1) grp x w.ep { ColMsg.plain 0x12 0 m.step with rank := m.rank }) grp m.step
          else receiptBad s1 grp x y w)

/-- RACK: a member has received it (R289). The spine notes that the receipt is settled. -/
def execRack (c : Cfh) (payload : List Byte) (s : State) : Host.Outcome State Fault Refusal :=
  let m := colMsgOf payload
  .next (if payload.length ≠ 32 ∨ m.typ ≠ 0x12 ∨ c.src ≠ collEp (ownCoord s) then s
    else match groupOf s (beAt payload 2 2) with
      | none => s
      | some x => match collIn x m.step with
        | none => s
        | some y =>
          if y.receipts.contains m.rank && !y.racked.contains m.rank && (receivers x y).any (fun w => w.rank == m.rank && w.ep == c.dst) then
            setColl s (beAt payload 2 2) { y with racked := y.racked ++ [m.rank] }
          else s)

/-! ## The root's decisions (R289 to R291, R350) -/

/-- Send a decision to every spine of the box, the root's own included. -/
def tellSpines (s : State) (grp : Nat) (x : Group) (m : ColMsg) : State := (boxSpines x).foldl (fun t y => colSend t grp x (collEp y) m) s

/-- The root decides ABORT with a status. -/
def decideAbort (s : State) (grp : Nat) (x : Group) (y : Coll) (status : Nat) : State :=
  tellSpines (setColl s grp { y with decided := some status }) grp x (.plain 0x16 status y.step)

/-- The dune that a root's integrity reports go to: the lowest that is UP (log 56). -/
def rootDune (s : State) : Nat := (dunesUp s).headD 0

/-- The root decides on a retraction request for a step (R350): a request for a step whose replay runs, or that has not been
dispatched, does nothing. -/
def rootRetract (s : State) (grp : Nat) (x : Group) (step : Nat) : State :=
  let d := rootDune s
  let next := (x.opened ++ x.kept).find? (fun y => y.step == (step + 1) % 2 ^ 32)
  match (x.opened ++ x.kept).find? (fun y => y.step == step) with
  | none =>
    if stepBefore step x.nextStep then
      chkEvent (fsrStore s 0x0D [0, d] [] [] x.part [(14, x.job), (15, grp), (16, step)] []) d F.CHK_EVT_LATE_DETECT x.part grp step
    else s
  | some y =>
    if y.replay ∧ y.ended.isNone then s
    else if next.any (fun z => isCommit z.decided) then
      chkEvent (fsrStore s 0x0D [0, d] [] [] x.part [(14, x.job), (15, grp), (16, step)] []) d F.CHK_EVT_LATE_DETECT x.part grp step
    else
      let n := ((x.retracts.find? (fun e => e.1 == step)).map (·.2)).getD 0
      if max 1 (rf s (Reg.CHK_CFG d) F.CHK_CFG_RETRACT_MAX) ≤ n then
        tellSpines (setColl s grp { y with decided := some stDigestFail }) grp x (.plain 0x16 stDigestFail step)
      else
        let x1 := { x with retracts := x.retracts.filter (fun e => e.1 != step) ++ [(step, n + 1)] }
        let s1 := fsrStore (setGroup s grp x1) 0x05 [0, d] [] [] x.part [(14, x.job), (15, grp), (16, step)] []
        tellSpines s1 grp x1 (.plain 0x18 0 step)

/-- The root holds every READY of a step: it commits, or on a digest split retracts (R289, R342). -/
def decideCommit (s : State) (grp : Nat) (x : Group) (y : Coll) : State :=
  let ds := y.readies.map (·.digest)
  if ds.any (fun v => v != ds.headD 0) then
    let s1 := chkEvent s (rootDune s) F.CHK_EVT_READY_SPLIT x.part grp y.step
    rootRetract s1 grp x y.step
  else
    let esc := sumNat (y.readies.map (·.esc))
    let st := normalStatus esc (y.readies.any (·.poison))
    let m : ColMsg := { ColMsg.plain 0x14 st y.step with
      digest := ds.headD 0, esc := esc % 2 ^ 32, sat := sumNat (y.readies.map (·.sat)) % 2 ^ 32 }
    tellSpines (setColl s grp { y with decided := some st }) grp x m

/-- READY (R289, R290): counted only before the deadline. -/
def execReady (c : Cfh) (payload : List Byte) (s : State) : Host.Outcome State Fault Refusal :=
  .next (match ctlFor s 0x13 c payload with
    | none => s
    | some (grp, x, m) => match fromSpine x c, collIn x m.step with
      | some coord, some y =>
        if !isRoot s x ∨ y.decided.isSome ∨ y.deadline.any (fun t => decide (t ≤ s.clock)) ∨ y.readies.any (fun r => r.coord == coord) then s
        else
          let y1 := { y with readies := y.readies ++ [⟨coord, m.digest, m.esc, m.sat, m.status % 2 == 1⟩] }
          let x1 := { x with opened := modFirst (fun z => z.step == y.step) (fun _ => y1) x.opened }
          let s1 := setGroup (twinCopy s x.part c payload) grp x1
          if y1.readies.length = boxSize x then decideCommit s1 grp x1 y1 else s1
      | _, _ => s)

/-- ABORT_REQ (R291): unless it has decided, the root sends ABORT. -/
def execAbortReq (c : Cfh) (payload : List Byte) (s : State) : Host.Outcome State Fault Refusal :=
  .next (match ctlFor s 0x15 c payload with
    | none => s
    | some (grp, x, m) => match fromSpine x c, collIn x m.step with
      | some _, some y =>
        if !isRoot s x ∨ y.decided.isSome then s
        else
          let st := if [stBadDescriptor, stDigestFail, stDenied, stPoisoned].contains m.status then m.status else stAborted
          decideAbort (twinCopy s x.part c payload) grp x y st
      | _, _ => s)

/-- COMMIT_DEADLINE (R290): at the deadline with a READY missing, the root sends ABORT with TIMEOUT. -/
def execCommitDeadline (grp : BitVec 16) (step : Word) (s : State) : Host.Outcome State Fault Refusal :=
  .next (match groupOf s grp.toNat with
    | none => s
    | some x => match collIn x step.toNat with
      | none => s
      | some y =>
        if isRoot s x && y.decided.isNone && y.deadline.any (fun t => decide (t ≤ s.clock)) then
          colEvent (decideAbort s grp.toNat x y stTimeout) F.COL_EVT_DEADLINE (colBody x.part grp.toNat 0xFFFFFF)
        else s)

/-! ## The end of a step at a spine (R289 to R291, R395) -/

/-- A Mirage entry after a step that matched (R395): at STEPS it is promoted, to a spare or to the rank at the next boundary. -/
def mirageMatch (s : State) (grp : Nat) (x : Group) (m : Member) : State :=
  let n := m.matched + 1
  let put := fun (m' : Member) => { x with entries := modFirst (fun y => y == m) (fun _ => m') x.entries }
  let s1 := bump64 s Reg.MGT_MIRAGE_MATCH 1
  if n < max 1 (rf s Reg.MGT_MIRAGE_CFG F.MGT_MIRAGE_CFG_STEPS) then setGroup s1 grp (put { m with matched := n, fails := 0 })
  else
    let done := mgtEvent s1 F.MGT_EVT_MIRAGE_PROMOTED (natBe 1 x.part ++ natBe 2 0xFFFF)
    if rb s Reg.MGT_MIRAGE_CFG F.MGT_MIRAGE_CFG_PROMOTE_SWAP then
      if x.swap.isSome then setGroup s1 grp (put { m with matched := m.matched, fails := 0 })
      else setGroup done grp { put { m with matched := n, fails := 0 } with swap := some ⟨none, m.rank, m.ep, false⟩ }
    else setGroup done grp (put { m with rank := 0xFFFFFF, role := 1, matched := 0, fails := 0 })

/-- A Mirage entry after a step that did not match: FAIL_MAX in a row end its shadowing. -/
def mirageMiss (s : State) (grp : Nat) (x : Group) (m : Member) : State :=
  let last := decide (max 1 (rf s Reg.MGT_MIRAGE_CFG F.MGT_MIRAGE_CFG_FAIL_MAX) ≤ m.fails + 1)
  let x1 := { x with entries := modFirst (fun y => y == m) (fun _ => { m with matched := 0, fails := m.fails + 1, ended := last }) x.entries }
  let body := natBe 1 x.part ++ natBe 2 0xFFFF
  let s1 := mgtEvent (bump64 (setGroup s grp x1) Reg.MGT_MIRAGE_MISMATCH 1) F.MGT_EVT_MIRAGE_MISMATCH body
  if last then mgtEvent s1 F.MGT_EVT_MIRAGE_FAILED body else s1

/-- Compare a Mirage member's contributions at COMMIT (R395): some differing, all there and the same, or skipped. -/
def mirageOne (grp : Nat) (y : Coll) (s : State) (e : Nat × Nat) : State :=
  match groupOf s grp with
  | none => s
  | some x => match (mirages x).find? (fun m => m.rank == e.1 && m.ep == e.2) with
    | none => s
    | some m =>
      let pairs := (y.contribs.filter (fun b => b.rank == m.rank && !b.mirage)).map (fun b =>
        (b.digest, (y.contribs.find? (fun a => a.rank == m.rank && a.chunk == b.chunk && a.mirage)).map (·.digest)))
      if y.replay ∨ pairs.isEmpty then s
      else if pairs.any (fun p => p.2.any (fun v => v != p.1)) then mirageMiss s grp x m
      else if pairs.all (fun p => p.2.isSome) then mirageMatch s grp x m
      else s

/-- A Mirage spine classifies a step (R396): what it would have sent against its twin's shadow records. -/
def twinStep (s : State) (grp : Nat) (x : Group) (step : Nat) (skipped : Bool) : State :=
  if !isMirageSpine s then s
  else
    let here := fun (e : Nat × Nat × Nat × Nat × Nat × Nat) => e.2.1 == grp && e.2.2.1 == x.gen && e.2.2.2.1 == step
    let mine := s.mgt.twinSent.filter here
    let his := s.mgt.shadows.filter here
    let bad := mine.any (fun e => his.any (fun f => f.2 == e.2 && f.1 != e.1))
    let all := mine.all (fun e => his.any (fun f => f.2 == e.2)) && his.all (fun f => mine.any (fun e => e.2 == f.2))
    let s1 := { s with mgt := { s.mgt with twinSent := s.mgt.twinSent.filter (fun e => !here e), shadows := s.mgt.shadows.filter (fun e => !here e) } }
    let body := natBe 1 x.part ++ natBe 2 (twinPort s)
    if skipped then s1
    else if bad then
      mgtEvent (bump64 (wf s1 Reg.MGT_TWIN_STATUS F.MGT_TWIN_STATUS_MATCHED 0) Reg.MGT_MIRAGE_MISMATCH 1) F.MGT_EVT_MIRAGE_MISMATCH body
    else if all then
      let n := satAdd 65535 (rf s1 Reg.MGT_TWIN_STATUS F.MGT_TWIN_STATUS_MATCHED) 1
      let s2 := bump64 (wf s1 Reg.MGT_TWIN_STATUS F.MGT_TWIN_STATUS_MATCHED n) Reg.MGT_MIRAGE_MATCH 1
      if max 1 (rf s2 Reg.MGT_MIRAGE_CFG F.MGT_MIRAGE_CFG_STEPS) ≤ n ∧ !rb s2 Reg.MGT_TWIN_STATUS F.MGT_TWIN_STATUS_PASSED then
        mgtEvent (wf s2 Reg.MGT_TWIN_STATUS F.MGT_TWIN_STATUS_PASSED 1) F.MGT_EVT_TWIN_PASSED body
      else s2
    else s1

/-- Complete the ABORT command that waited for a collective's end. -/
def settleAbort (s : State) (y : Coll) (status : Nat) : State := match y.abortBy with
  | none => s
  | some a => claim s (a.1 / 2048) (a.1 % 2048) a.2 status

/-- What a command that completes on its normal path counts at this spine: the chunks it owns (R262, R271, R354). -/
def stepTotals (s : State) (grp : Nat) (x : Group) (y : Coll) : State :=
  let own := ownResults s x y
  let i := collInfo s x y 0
  let p := (own.filter (·.poison)).length
  let s1 := numTotals s i (sumNat (own.map (·.esc))) (sumNat (own.map (·.sat))) y.ufl y.stale y.ovf p
  poisoned s1 (y.fq / 2048) i p grp [(15, grp), (16, y.step)]

/-- Forget what was kept of steps before one that commits (R347). -/
def dropKept (s : State) (grp step : Nat) : State := match groupOf s grp with
  | none => s
  | some x => setGroup s grp { x with kept := x.kept.filter (fun y => !stepBefore y.step step) }

/-- A spine's step commits. -/
def commitStep (s : State) (grp : Nat) (x : Group) (y : Coll) (m : ColMsg) : State :=
  let live := claimable s (y.fq / 2048) (y.fq % 2048) y.no
  let s1 := bump64 (tellMembers s grp x (receivers x y) m) Reg.COL_COMMITS 1
  let s2 := if live then stepTotals s1 grp x y else chkEvent s1 (y.fq / 2048) F.CHK_EVT_REPLAY_DONE x.part grp y.step
  let s3 := if live then endColl s2 grp y m.status m.digest m.esc m.sat else closeColl s2 grp y m.status
  let s4 := settleAbort (dropKept s3 grp y.step) y stAbortLate
  let s5 := match groupOf s4 grp with
    | none => s4
    | some x1 => setGroup s4 grp { x1 with swap := x1.swap.map (fun r => { r with ready := true }),
                                           retracts := x1.retracts.filter (fun e => !stepBefore e.1 y.step) }
  let s6 := ((mirages x).map (fun e => (e.rank, e.ep))).foldl (mirageOne grp y) s5
  twinStep s6 grp x y.step y.replay

/-- COMMIT (R289). -/
def execCommit (c : Cfh) (payload : List Byte) (s : State) : Host.Outcome State Fault Refusal :=
  .next (match ctlFor s 0x14 c payload with
    | none => s
    | some (grp, x, m) => match collIn x m.step with
      | none => s
      | some y => if fromRoot x c then showGroup (pumpAll (commitStep (twinCopy s x.part c payload) grp x y m)) else s)

/-- A spine's step ends by abort or timeout, with its reports. -/
def abortStep (s : State) (grp : Nat) (x : Group) (y : Coll) (status abortCmd : Nat) : State :=
  let s1 := settleAbort (endColl s grp y status 0 0 0) y abortCmd
  twinStep (if status = stTimeout then bump64 s1 Reg.COL_TIMEOUTS 1
    else colEvent (bump64 s1 Reg.COL_ABORTS 1) F.COL_EVT_ABORTED (colBody x.part grp 0xFFFFFF)) grp x y.step true

/-- COLL_ABORT (R291): ABORT from the root. -/
def execCollAbort (c : Cfh) (payload : List Byte) (s : State) : Host.Outcome State Fault Refusal :=
  .next (match ctlFor s 0x16 c payload with
    | none => s
    | some (grp, x, m) => match collIn x m.step with
      | none => s
      | some y =>
        if fromRoot x c then
          let s1 := tellMembers (twinCopy s x.part c payload) grp x (collWorkers x y) m
          showGroup (pumpAll (abortStep s1 grp x y m.status (if m.status = stAborted then stOk else stAbortLate)))
        else s)

/-- COMMIT_GRACE_EXPIRY (R290): no decision by the deadline plus GRACE_US. -/
def execCommitGraceExpiry (grp : BitVec 16) (step : Word) (s : State) : Host.Outcome State Fault Refusal :=
  .next (match groupOf s grp.toNat with
    | none => s
    | some x => match collIn x step.toNat with
      | none => s
      | some y =>
        if y.deadline.any (fun t => decide (t + graceUnits s ≤ s.clock)) then
          showGroup (pumpAll (colEvent (abortStep s grp.toNat x y stTimeout stAbortLate) F.COL_EVT_DEADLINE (colBody x.part grp.toNat 0xFFFFFF)))
        else s)

/-- ABORT_REQ_GRACE_EXPIRY (R291): a request that has had no answer for GRACE_US. -/
def execAbortReqGraceExpiry (grp : BitVec 16) (step : Word) (s : State) : Host.Outcome State Fault Refusal :=
  .next (match groupOf s grp.toNat with
    | none => s
    | some x => match collIn x step.toNat with
      | none => s
      | some y =>
        if y.abortAt.any (fun t => decide (t + graceUnits s ≤ s.clock)) then
          showGroup (pumpAll (abortStep s grp.toNat x y stAborted stOk))
        else s)

end Sys2Proof.Machine
end

