-- ==== Sys2Proof/Machine/Caravan.lean ====
section
/-! DEFINITION. Caravan: the broadcast of a job image down a tree of spines (spec/12: R296 to R301, Tables 12.8 and 12.9). -/
namespace Sys2Proof.Machine

/-! ## Records and messages -/

/-- The Caravan endpoint of a spine (Table 12.12). -/
def carEp (coord : Nat) : Nat := serviceEp 0xE40000 coord

/-- Whether an endpoint is some spine's Caravan endpoint. -/
def isCarEp (ep : Nat) : Bool := carEp (epCoord ep) == ep

/-- Bytes of a chunk (R298). -/
def carChunk : Nat := 2 ^ 20

/-- The end of the chunk that holds a byte. -/
def chunkEnd (len off : Nat) : Nat := min len ((off / carChunk + 1) * carChunk)

/-- A transfer whose command has not been claimed. -/
def carOf (s : State) (tid : Nat) : Option Caravan :=
  s.col.caravans.find? (fun c => c.tid == tid && claimable s (c.fq / 2048) (c.fq % 2048) c.no)

/-- Replace a transfer. -/
def setCar (s : State) (c : Caravan) : State :=
  { s with col := { s.col with caravans := modFirst (fun x => x.tid == c.tid && x.fq == c.fq && x.no == c.no) (fun _ => c) s.col.caravans } }

/-- The head of a Caravan message. -/
def carHead (typ flags tid off n x y : Nat) : List Byte :=
  natBe 1 typ ++ natBe 1 flags ++ natBe 2 tid ++ natBe 6 off ++ natBe 2 n ++ natBe 4 x ++ natBe 8 y

/-- Send a Caravan message. -/
def carSend (s : State) (c : Caravan) (cls dst : Nat) (b : List Byte) : State :=
  emit s (.msg none (originCfh s cls (hallPart s c.part) dst (carEp (ownCoord s)) (cqJob s (c.fq / 2048) (c.fq % 2048)) b.length) b)

/-- The chunk CRC: CRC-64 folded with the chunk's start (R298). -/
def carCrc (s : State) (c : Caravan) (start : Nat) : Nat :=
  checkValue digestCfg start (oasisRead s c.part (c.cache + start) (chunkEnd c.len start - start))

/-- Send one DATA piece: class BULK between spines, else MGT (Table 12.9). -/
def carPiece (s : State) (c : Caravan) (p : CarPeer) (off : Nat) : State :=
  let e := chunkEnd c.len off
  let n := min 4096 (e - off)
  let last := off + n == e
  let start := off / carChunk * carChunk
  let b := carHead 0x21 (b2n last) c.tid off n 0 (if last then carCrc s c start else 0) ++ oasisRead s c.part (c.cache + off) n
  carSend s c (if p.spine then 3 else 0) p.ep b

/-- Send the bytes from one place to another, in pieces. -/
def carRange (s : State) (c : Caravan) (p : CarPeer) (a z : Nat) : State :=
  (List.range ((z - a + 4095) / 4096)).foldl (fun t i => carPiece t c p (a + 4096 * i)) s

/-- Send everything verified to every party that is attached and has not been sent it. -/
def carServe (s : State) (c : Caravan) : State :=
  let s1 := c.peers.foldl (fun t p => carRange t c p p.sent c.verified) s
  setCar s1 { c with peers := c.peers.map (fun p => { p with sent := max p.sent c.verified }) }

/-- Who a node is a child of: its parent, or its backup after the parent was lost. -/
def carAbove (c : Caravan) : Nat := carEp (if c.onBackup then c.backup else c.parent)

/-! ## CARAVAN_ROOT and CARAVAN_NODE (R296, Table 12.8) -/

/-- The 4-byte words of a tree record from a place on. -/
def treeWords (l : List Byte) (at_ n : Nat) : List Nat := (List.range n).map (fun i => beAt l (at_ + 4 * i) 4)

/-- Coordinates on which two spines differ. -/
def coordsApart (a b : Nat) : Nat := ((List.range 3).filter (fun i => coordAt a i != coordAt b i)).length

/-- Whether a tree record obeys Table 12.8 and R296. -/
def carTreeOk (s : State) (root : Bool) (l : List Byte) : Bool :=
  let f := beAt l 2 1
  let fetch := bitAt f 1
  let kids := beAt l 22 2
  let recs := beAt l 24 4
  let parent := beAt l 16 3
  let backup := beAt l 19 3
  let coordOk := fun c => c % 64 == 0 && (List.range 3).all (fun a => decide (coordAt c a < dimSize s a))
  f < 4 && bitAt f 0 == root && (!fetch || root) && beAt l 3 1 == 0 && beAt l 35 1 == 0
    && decide (1 ≤ beAt l 4 6 ∧ beAt l 4 6 ≤ 2 ^ 40) && beAt l 10 6 % 4096 == 0
    && coordOk parent && coordOk backup
    && (if root then parent == ownCoord s && backup == ownCoord s else decide (2 ≤ coordsApart parent backup))
    && decide (kids ≤ 64 ∧ recs ≤ 4096) && (root || beAt l 28 4 == 0)
    && (fetch || (beAt l 32 3 == 0 && beAt l 36 8 == 0))
    && (treeWords l 96 kids).all (fun w => w % 256 == 0 && coordOk (w / 256))
    && (treeWords l (96 + 4 * kids) recs).all (fun w => decide (w % 256 < 2))

/-- The transfer that a tree record describes. Recipients with PRIMARY are attached from the start, others by ATTACH. -/
def treeCar (s : State) (d q : Nat) (y : Slot) (root : Bool) (l : List Byte) : Caravan :=
  let kids := beAt l 22 2
  let ms := beAt l 44 4
  { tid := beAt l 0 2, fq := flatQ d q, no := y.no, part := cqScope s d q, isRoot := root, fetch := bitAt (beAt l 2 1) 1, len := beAt l 4 6,
    cache := beAt l 10 6, parent := beAt l 16 3, backup := beAt l 19 3,
    peers := (treeWords l 96 kids).map (fun w => ⟨carEp (w / 256), true, 0, 0, false⟩)
      ++ ((treeWords l (96 + 4 * kids) (beAt l 24 4)).filter (fun w => bitAt w 0)).map (fun w => ⟨w / 256, false, 0, 0, false⟩),
    total := beAt l 28 4, storage := beAt l 32 3, object := beAt l 36 8, expect := beAt l 48 48,
    deadline := if ms = 0 then none else some (s.clock + ms * 1000000 * nsUnit),
    verified := if root && !bitAt (beAt l 2 1) 1 then beAt l 4 6 else 0, partialBytes := 0, fetched := 0, heardAt := s.clock, onBackup := false,
    matched := 0, mismatched := 0, counts := [] }

/-- End a transfer at this spine, and complete its command. -/
def carEnd (s : State) (c : Caravan) (status : Nat) : State :=
  let s1 := { s with col := { s.col with caravans := s.col.caravans.filter (fun x => !(x.tid == c.tid && x.fq == c.fq && x.no == c.no)) } }
  claim s1 (c.fq / 2048) (c.fq % 2048) c.no status

/-- The spines of the tree that the root knows: its children, those attached, and those that have reported (log 59). -/
def carSpines (c : Caravan) : List Nat := (((c.peers.filter (·.spine)).map (·.ep)) ++ c.counts.map (fun e => carEp e.1)).dedup

/-- The root completes: FINAL to every spine, and its command's record. -/
def carFinish (s : State) (c : Caravan) (status : Nat) : State :=
  let b := carHead 0x26 2 c.tid 0 0 0 (status * 2 ^ 24)
  let s1 := (carSpines c).foldl (fun t e => carSend t c 0 e b) s
  let s2 := if status = stDigestFail then colEvent s1 F.COL_EVT_CARAVAN_FAIL (colBody c.part c.tid 0xFFFFFF) else s1
  carEnd s2 c status

/-- Start a transfer: the record is read and checked. A TID that the spine already carries is denied (log 32). A root
that waits for no recipient is complete (R300). -/
def carStart (s : State) (d q opcode : Nat) (root : Bool) : State :=
  match runningSlot s d q (· == opcode) with
  | none => s
  | some y =>
    let part := cqScope s d q
    let src := dSrc y.desc
    let h := oasisRead s part src 96
    let n := 96 + 4 * beAt h 22 2 + 4 * beAt h 24 4
    let l := oasisRead s part src n
    let c := treeCar s d q y root l
    if s.col.caravans.any (fun x => x.fq == flatQ d q && x.no == y.no) then s
    else if 64 < beAt h 22 2 ∨ 4096 < beAt h 24 4 then claim s d q y.no stBadDescriptor
    else if outsideSpace s part src n then claim s d q y.no stDenied
    else if !carTreeOk s root l then claim s d q y.no stBadDescriptor
    else if outsideSpace s part c.cache c.len ∨ (carOf s c.tid).isSome then claim s d q y.no stDenied
    else
      let live := s.col.caravans.filter (fun x => claimable s (x.fq / 2048) (x.fq % 2048) x.no)
      let s1 := carServe { s with col := { s.col with caravans := live ++ [c] } } c
      if root ∧ c.total = 0 then carFinish s1 c stOk else s1

/-- CARAVAN_ROOT (80h). -/
def execCaravanRoot (d : Fin 8) (q : Fin 2048) (s : State) : Host.Outcome State Fault Refusal := .next (carStart s d q 0x80 true)
/-- CARAVAN_NODE (81h). -/
def execCaravanNode (d : Fin 8) (q : Fin 2048) (s : State) : Host.Outcome State Fault Refusal := .next (carStart s d q 0x81 false)

/-! ## Fetching and data (R297, R298) -/

/-- Ranges that have been asked for and are not held. -/
def carOutstanding (c : Caravan) : Nat := (c.fetched + carChunk - 1) / carChunk - c.verified / carChunk

/-- CARAVAN_FETCH (R297): the next range, with at most four outstanding and room in the RSP pool for the replies (R171). -/
def execCaravanFetch (tid : BitVec 16) (s : State) : Host.Outcome State Fault Refusal :=
  .next (match carOf s tid.toNat with
    | none => s
    | some c =>
      let cells := carChunk / 4096 * fabricCells 4120
      if c.isRoot ∧ c.fetch ∧ c.fetched < c.len ∧ carOutstanding c < 4
          ∧ (carOutstanding c + 1) * cells ≤ poolFree s (c.fq / 2048) c.part 2 then
        let n := chunkEnd c.len c.fetched - c.fetched
        carSend (setCar s { c with fetched := c.fetched + n }) c 0 c.storage (carHead 0x20 0 c.tid c.fetched 0 n c.object)
      else s)

/-- A Caravan message for this spine: of a type and a transfer that it carries. -/
def carMsg (s : State) (typ : Nat) (c : Cfh) (b : List Byte) : Option Caravan :=
  if b.length < 24 ∨ beAt b 0 1 ≠ typ ∨ c.dst ≠ carEp (ownCoord s) ∨ !platUp s then none
  else (carOf s (beAt b 2 2)).bind (fun x => if c.part = hallPart s x.part then some x else none)

/-- A chunk is verified: counted, acknowledged to the node above, and forwarded. -/
def carVerified (s : State) (c : Caravan) (end_ : Nat) : State :=
  let c1 := { c with verified := end_, partialBytes := 0 }
  let s1 := bump64 (setCar s c1) Reg.COL_CARAVAN_BYTES (end_ - c.verified)
  let s2 := if c.isRoot then s1 else carSend s1 c1 0 (carAbove c1) (carHead 0x23 0 c.tid end_ 0 0 0)
  carServe s2 c1

/-- CARAVAN_DATA (R297, R298): the next piece, from the storage endpoint at a root that fetches, else from the node above. -/
def execCaravanData (c : Cfh) (payload : List Byte) (s : State) : Host.Outcome State Fault Refusal :=
  .next (match carMsg s 0x21 c payload with
    | none => s
    | some x =>
      let off := beAt payload 4 6
      let n := beAt payload 10 2
      let e := chunkEnd x.len x.verified
      let from_ := if x.isRoot then x.fetch && c.src == x.storage && decide (off < x.fetched) else c.src == carAbove x
      if !from_ ∨ payload.length ≠ 24 + n ∨ off ≠ x.verified + x.partialBytes ∨ e < off + n ∨ n ≠ min 4096 (e - off) ∨ n = 0 then s
      else
        let s1 := oasisWrite s x.part (x.cache + off) (payload.drop 24)
        if off + n < e then setCar s1 { x with partialBytes := x.partialBytes + n }
        else if x.isRoot ∨ (bitAt (beAt payload 1 1) 0 ∧ beAt payload 16 8 = carCrc s1 x x.verified) then carVerified s1 x e
        else carSend (setCar s1 { x with partialBytes := 0 }) x 0 (carAbove x) (carHead 0x25 0 x.tid x.verified 0 0 0))

/-! ## Heartbeats and reattachment (R299) -/

/-- CARAVAN_HEARTBEAT_SEND (R299): every 50 µs, to everything attached; a child acknowledges to the node above. -/
def execCaravanHeartbeatSend (tid : BitVec 16) (s : State) : Host.Outcome State Fault Refusal :=
  .next (match carOf s tid.toNat with
    | none => s
    | some c =>
      let s1 := c.peers.foldl (fun t p => carSend t c 0 p.ep (carHead 0x22 0 c.tid (c.verified + c.partialBytes) 0 0 0)) s
      if c.isRoot then s1 else carSend s1 c 0 (carAbove c) (carHead 0x23 0 c.tid c.verified 0 0 0))

/-- CARAVAN_HEARTBEAT. -/
def execCaravanHeartbeat (c : Cfh) (payload : List Byte) (s : State) : Host.Outcome State Fault Refusal :=
  .next (match carMsg s 0x22 c payload with
    | none => s
    | some x => if !x.isRoot ∧ c.src = carAbove x then setCar s { x with heardAt := s.clock } else s)

/-- CARAVAN_ACK. -/
def execCaravanAck (c : Cfh) (payload : List Byte) (s : State) : Host.Outcome State Fault Refusal :=
  .next (match carMsg s 0x23 c payload with
    | none => s
    | some x => setCar s { x with peers := modFirst (fun p => p.ep == c.src) (fun p => { p with acked := beAt payload 4 6 }) x.peers })

/-- CARAVAN_NACK (R298): the chunk is sent again. -/
def execCaravanNack (c : Cfh) (payload : List Byte) (s : State) : Host.Outcome State Fault Refusal :=
  .next (match carMsg s 0x25 c payload with
    | none => s
    | some x => match x.peers.find? (fun p => p.ep == c.src) with
      | none => s
      | some p =>
        let off := beAt payload 4 6
        if off % carChunk = 0 ∧ off < x.verified then carRange s x p off (chunkEnd x.len off) else s)

/-- CARAVAN_ATTACH (R299): served from its offset on. -/
def execCaravanAttach (c : Cfh) (payload : List Byte) (s : State) : Host.Outcome State Fault Refusal :=
  .next (match carMsg s 0x24 c payload with
    | none => s
    | some x =>
      let off := beAt payload 4 6
      if (off % carChunk = 0 ∧ off ≤ x.len) ∨ off = x.len then
        let p : CarPeer := ⟨c.src, isCarEp c.src, off, off, false⟩
        let done := (x.peers.find? (fun y => y.ep == c.src)).any (·.done)
        let x1 := { x with peers := x.peers.filter (fun y => y.ep != c.src) ++ [{ p with done := done }] }
        carServe (setCar s x1) x1
      else s)

/-- PARENT_SILENCE (R299): 200 µs without a HEARTBEAT. -/
def execParentSilence (tid : BitVec 16) (s : State) : Host.Outcome State Fault Refusal :=
  .next (match carOf s tid.toNat with
    | none => s
    | some c =>
      if c.isRoot ∨ s.clock < c.heardAt + 200000 * nsUnit then s
      else if c.onBackup then carEnd s c stTimeout
      else
        let c1 := { c with partialBytes := 0, onBackup := true, heardAt := s.clock }
        let s1 := carSend (setCar s c1) c1 0 (carEp c.backup) (carHead 0x24 0 c.tid c.verified 0 0 0)
        colEvent s1 F.COL_EVT_PARENT_LOST (colBody c.part c.tid 0xFFFFFF))

/-! ## Completion (R300) -/

/-- Recipients counted by every spine: matched and mismatched. -/
def carSums (c : Caravan) : Nat × Nat :=
  (c.matched + sumNat (c.counts.map (fun e => e.2.1)), c.mismatched + sumNat (c.counts.map (fun e => e.2.2)))

/-- The root completes once every recipient is counted. -/
def carCheck (s : State) (c : Caravan) : State :=
  let n := carSums c
  if n.1 = c.total then carFinish s c stOk
  else if n.1 + n.2 = c.total ∧ 0 < n.2 then carFinish s c stDigestFail
  else s

/-- The root's coordinate, which a node's tree record does not name: open where the node's parent is not the root (log 60). -/
def carRoot (c : Caravan) : Nat := Config.vecFree 0x80 c.tid c.parent % 2 ^ 18 * 64

/-- CARAVAN_DONE (R300): a recipient's digest is compared and counted once, and the counts go to the root; a spine's counts replace
its last; FINAL completes a node's command. -/
def execCaravanDone (c : Cfh) (payload : List Byte) (s : State) : Host.Outcome State Fault Refusal :=
  .next (match carMsg s 0x26 c payload with
    | none => s
    | some x =>
      if bitAt (beAt payload 1 1) 1 then (if !x.isRoot ∧ isCarEp c.src then carEnd s x (beAt payload 20 1) else s)
      else if isCarEp c.src then
        if x.isRoot then
          let x1 := { x with counts := x.counts.filter (fun e => e.1 != epCoord c.src) ++ [(epCoord c.src, beAt payload 12 4, beAt payload 16 4)] }
          carCheck (setCar s x1) x1
        else s
      else match x.peers.find? (fun p => p.ep == c.src) with
        | none => s
        | some p =>
          if p.done ∨ payload.length ≠ 72 then s
          else
            let ok := beAt payload 24 48 == x.expect
            let x1 := { x with matched := x.matched + b2n ok, mismatched := x.mismatched + b2n (!ok),
                               peers := modFirst (fun y => y.ep == c.src) (fun y => { y with done := true }) x.peers }
            let s1 := setCar s x1
            if x.isRoot then carCheck s1 x1
            else carSend s1 x1 0 (carEp (carRoot x)) (carHead 0x26 0 x.tid 0 0 x1.matched (x1.mismatched * 2 ^ 32)))

/-- CARAVAN_DEADLINE (R300): DL_MS has passed at the root. -/
def execCaravanDeadline (tid : BitVec 16) (s : State) : Host.Outcome State Fault Refusal :=
  .next (match carOf s tid.toNat with
    | none => s
    | some c => if c.isRoot && c.deadline.any (fun t => decide (t ≤ s.clock)) then carFinish s c stTimeout else s)

end Sys2Proof.Machine
end

