-- ==== Sys2Proof/Machine/Commands.lean ====
section
/-! DEFINITION. The dispatch of commands and what their descriptors must obey, wait timeouts, and the commands NOP and ABORT (spec/04:
R90, R93 to R96, R102; spec/10: R232, R236, R243; spec/12: R272, R273, R275). -/
namespace Sys2Proof.Machine

/-! ## Descriptor rules (R93, R94, R236, R257, R272, R273) -/

/-- OPCODE values that name a command (Table 4.8, Table 12.1, R236). -/
def opcodeKnown (op : Nat) : Bool :=
  op ≤ 1 || (decide (0x10 ≤ op) && decide (op ≤ 0x15)) || op == 0x3E || op == 0x3F || (decide (0x40 ≤ op) && decide (op ≤ 0x4D))
    || (decide (0x60 ≤ op) && decide (op ≤ 0x81))

/-- Whether FMT_IN and FMT_OUT are FORMAT codes (R246). -/
def formatsOk (v : Nat) : Bool := decide (dFmtIn v ≤ 0x0E) && decide (dFmtOut v ≤ 0x0E)

/-- Whether POLICY keeps Table 11.5; RESIDUAL only where the command takes it. -/
def polByteOk (v : Nat) (resid : Bool) : Bool :=
  decide (dPolicy v / 64 ≤ 1) && dPolicy v % 16 == 0 && (resid || !polResid (dPolicy v))

/-- Whether every field from GROUP to SEED_SEL, but `keep`, is 0, and so are COUNT and DST_ADDR (R93, R102). -/
def plainFields (v : Nat) : Bool :=
  dOpflags v == 0 && dGroup v == 0 && dGen v == 0 && dRedop v == 0 && dFmtIn v == 0 && dFmtOut v == 0 && dPolicy v == 0
    && dSeedSel v == 0 && dCount v == 0 && dDst v == 0

/-- A collective or Caravan descriptor by Table 12.1 and R273. -/
def collFieldsOk (v : Nat) : Bool :=
  let op := dOpcode v
  let bare := dRedop v == 0 && dFmtIn v == 0 && dFmtOut v == 0 && dCount v == 0 && dPolicy v == 0
  dDst v == 0 && dOpflags v == 0 &&
    (if op = 0x10 ∨ op = 0x11 then decide (dRedop v ≤ 3) && formatsOk v && polByteOk v true && dCount v != 0
    else if op = 0x12 then dRedop v == 0 && dFmtIn v == dFmtOut v && formatsOk v && dPolicy v == 0 && dCount v != 0
    else if op = 0x13 then
      (decide (0x0B ≤ dRedop v ∧ dRedop v ≤ 0x0D) || decide (0x20 ≤ dRedop v ∧ dRedop v ≤ 0x3F)) && formatsOk v && polByteOk v false && dCount v != 0
    else if op = 0x3F then bare && dSrc v == 0
    else if 0x80 ≤ op then bare && dGroup v == 0 && dGen v == 0
    else bare)

/-- A kernel descriptor by R236; the kernels over pairs take codes 00h to 04h only (log 48). -/
def kernelFieldsOk (v : Nat) : Bool :=
  let op := dOpcode v
  dOpflags v == 0 && dGroup v == 0 && dGen v == 0 && dRedop v == 0 && formatsOk v && polByteOk v (op == 0x4A) && dCount v != 0
    && dSrc v % 64 == 0 && dDst v % 64 == 0 && ((op != 0x44 && op != 0x45) || (decide (dFmtIn v ≤ 4) && decide (dFmtOut v ≤ 4)))

/-- Whether a command's descriptor keeps every rule that needs nothing but the descriptor and its queue. -/
def descOk (y : Slot) : Bool :=
  let v := y.desc
  let op := dOpcode v
  !y.bad && dReservedZero v && opcodeKnown op &&
    (if op = 0 then plainFields v && dSrc v == 0
    else if op = 1 then plainFields v && decide (dSrc v < 2 ^ 27)
    else if 0x40 ≤ op ∧ op < 0x80 then kernelFieldsOk v
    else collFieldsOk v)

/-- Whether a command names only counters of its own scope, and an ABORT a queue of it (R95, R102). -/
def namesOk (s : State) (d q : Nat) (v : Nat) : Bool :=
  let part := cqScope s d q
  ((dWaits v).map (·.1) ++ (if dSignal v = 0xFFF then [] else [dSignal v])).all (fun i => counterScope s d i == part)
    && (dOpcode v != 1 || cqScope s d (dSrc v / 65536 % 2048) == part)

/-! ## Kernel commands (R236) -/

/-- Whether a scope's owner section defines an entry. -/
def ownerEntry (s : State) (part k : Nat) : Bool :=
  match ownerText s part with
  | none => false
  | some t => decide (k < ucEntries t)

/-- Whether a kernel uses AUX and WORK; an owner kernel may use both (log 49). -/
def usesAux (op policy : Nat) : Bool := decide (0x60 ≤ op) || op == 0x48 || op == 0x49 || (decide (0x4B ≤ op) && decide (op ≤ 0x4D)) || (op == 0x4A && polResid policy)
def usesWork (op : Nat) : Bool := decide (0x60 ≤ op) || (decide (0x44 ≤ op) && decide (op ≤ 0x48))

/-- The parameters of a kernel by Table 10.7. -/
def kernelPrmOk (op : Nat) (p : Nat) : Bool :=
  let prm := kpPrm p
  if op = 0x45 then decide (1 ≤ prm 0 ∧ prm 0 ≤ 512 ∧ prm 1 ≤ 1)
  else if op = 0x46 then decide (1 ≤ prm 0 ∧ prm 0 ≤ 8192) && !fpNan (prm 1) && !fpNan (prm 2) && decide (fpKey (prm 1) < fpKey (prm 2))
  else if op = 0x48 ∨ op = 0x49 then decide (1 ≤ prm 0 ∧ prm 0 ≤ 8192 ∧ 1 ≤ prm 1 ∧ prm 1 ≤ 4 ∧ 1 ≤ prm 2 ∧ prm 2 ≤ 1024)
  else if op = 0x4A then kpCount p == 1
  else true

/-- The parameter block of a kernel command by R236. -/
def kernelBlockOk (v p : Nat) : Bool :=
  let op := dOpcode v
  kpIn p % 64 == 0 && kpStride p % 64 == 0 && decide (1 ≤ kpCount p ∧ kpCount p ≤ 4096)
    && fieldBe 64 p 14 2 == 0 && fieldBe 64 p 60 4 == 0
    && (if usesAux op (dPolicy v) then kpAux p % 64 == 0 else kpAux p == 0)
    && (if usesWork op then kpWork p % 64 == 0 else kpWork p == 0)
    && kernelPrmOk op p

/-- Whether everything that a kernel command names lies in its scope's space. -/
def kernelInside (s : State) (part v p : Nat) : Bool :=
  !outsideSpace s part (kpIn p + (kpCount p - 1) * kpStride p) (kernelInBytes v p)
    && !outsideSpace s part (dDst v) (kernelOutBytes v p)
    && !outsideSpace s part (kpAux p) (kernelAuxBytes v p)
    && !outsideSpace s part (kpWork p) ((dCount v + 511) / 512 * workStep (dOpcode v) (dFmtOut v) (kpPrm p))

/-- Dispatch a kernel command: it runs, and holds its queue until its first tasks have been generated (R232). -/
def dispatchKernel (s : State) (d q : Nat) (y : Slot) : State :=
  let part := cqScope s d q
  let v := y.desc
  let p := beNat (oasisRead s part (dSrc v) 64)
  if 0x60 ≤ dOpcode v ∧ !ownerEntry s part (dOpcode v - 0x60) then claim s d q y.no stBadDescriptor
  else if (poolEmpty s d part ∧ !owedCmd s (flatQ d q, y.no)) ∨ outsideSpace s part (dSrc v) 64 then claim s d q y.no stDenied
  else if !kernelBlockOk v p then claim s d q y.no stBadDescriptor
  else if !kernelInside s part v p then claim s d q y.no stDenied
  else
    let r : KRun := { fq := flatQ d q, no := y.no, opcode := dOpcode v, desc := v, params := p, next := 0, total := (dCount v + 511) / 512, done := 0,
                      phase := 1, esc := 0, sat := 0, ufl := 0, stale := 0, ovf := 0, poison := 0 }
    modSlot { s with brc := { s.brc with runs := s.brc.runs ++ [r] } } d q y.no (fun z => { z with st := .running, holds := true })

/-! ## Collective commands (R273, R275) -/

/-- The parameter block of a collective by Table 12.2. -/
def collBlockOk (v p : Nat) : Bool :=
  let op := dOpcode v
  decide (cpNs p < 10 ^ 9) && decide (cpOrder p ≤ 6) && (op != 0x13 || cpOrder p != 0)
    && (if op = 0x13 ∧ 0x20 ≤ dRedop v then decide (1 ≤ cpStateK p ∧ cpStateK p ≤ 8) else cpStateK p == 0)
    && fieldBe 64 p 11 2 == 0 && fieldBe 64 p 22 2 == 0 && fieldBe 64 p 30 2 == 0
    && (op == 0x11 || op == 0x12 || cpRootRank p == 0)

/-- Whether the shard and the residual records lie in the scope's space. -/
def collInside (s : State) (part v p : Nat) (x : Group) (c : Coll) : Bool :=
  let n := ((dCount v + 511) / 512 + boxSize x - 1) / boxSize x
  (dOpcode v != 0x13 || !outsideSpace s part (cpShard p) (n * (2048 * shardWords c)))
    && (!polResid (dPolicy v) || !outsideSpace s part (cpResid p) (n * 2112))

/-- How a command on a group stands with the group's owner, JOB and GEN: the status that it completes with, if any (R273). -/
def groupStatus (s : State) (d q : Nat) (v : Nat) : Option Nat :=
  let op := dOpcode v
  let g := groupOf s (dGroup v)
  let own := g.all (fun x => x.part == cqScope s d q && x.job == cqJob s d q)
  let behind := (g.map (fun x => (x.gen + 256 - dGen v) % 256)).getD 128
  if held s ∧ (op = 0x15 ∨ op = 0x3E ∨ op = 0x3F) then some stDenied
  else if !own then some stDenied
  else if op = 0x3E then (if g.isNone ∨ behind = 255 then none else some stBadDescriptor)
  else if behind = 0 then none
  else if behind ≤ 127 then some stRegrouped
  else some stDenied

/-- Whether a collective waits at the head because its group has MAX_OPEN open ones (R275). -/
def openBlocked (s : State) (v : Nat) : Bool :=
  decide (0x10 ≤ dOpcode v ∧ dOpcode v ≤ 0x14) && (groupOf s (dGroup v)).any (fun x => decide (maxOpen s ≤ x.opened.length))

/-- Whether a head command's waits are unmet, MAX_OPEN among them (R96, R275). -/
def waitsUnmet (s : State) (d q : Nat) (v : Nat) : Bool :=
  !(dWaits v).all (waitMet s d) || (openBlocked s v && (groupStatus s d q v).isNone)

/-- Dispatch a command on a group. -/
def dispatchGroup (s : State) (d q : Nat) (y : Slot) : State :=
  let part := cqScope s d q
  let v := y.desc
  match groupStatus s d q v with
  | some st => claim s d q y.no st
  | none =>
    if 0x15 ≤ dOpcode v then modSlot s d q y.no (fun z => { z with st := .running })
    else
      let p := beNat (oasisRead s part (dSrc v) 64)
      match groupOf s (dGroup v) with
      | none => claim s d q y.no stDenied
      | some x =>
        if outsideSpace s part (dSrc v) 64 then claim s d q y.no stDenied
        else if !collBlockOk v p ∨ (dOpcode v = 0x13 ∧ 0x20 ≤ dRedop v ∧ !ownerEntry s part (dRedop v - 0x20)) then claim s d q y.no stBadDescriptor
        else if !collInside s part v p x (newColl s d q y x p) then claim s d q y.no stDenied
        else dispatchColl s d q y x p

/-! ## Dispatch (R90) -/

/-- Whether an earlier command of the queue keeps the head from being dispatched: a kernel command with tasks to generate, or, under
FENCE, any that is not DONE. -/
def headBlocked (s : State) (d q : Nat) (y : Slot) : Bool :=
  let earlier := (cqOf s d q).slots.takeWhile (fun z => z.no != y.no)
  earlier.any (fun z => z.holds) || (dFence y.desc && earlier.any (fun z => z.st != .done))

/-- Whether a queue still dispatches: its dune is UP and it is ENABLED, in ERROR or DRAINING (Table 4.3), and no reset or trip has stopped
the work in flight (R77). -/
def queueRuns (s : State) (d q : Nat) : Bool := duneUp s d && !workStopped s && (cqState s d q == 1 || cqState s d q == 2 || cqState s d q == 3)

/-- COMMAND_DISPATCH (R90): the head command of a queue. A descriptor that breaks its rules is rejected, and one that names another
scope's counters is denied, before its waits. -/
def execCommandDispatch (d : Fin 8) (q : Fin 2048) (s : State) : Host.Outcome State Fault Refusal :=
  .next (match (if queueRuns s d q then headSlot s d q else none) with
    | none => s
    | some y =>
      let op := dOpcode y.desc
      if !descOk y then claim s d q y.no stBadDescriptor
      else if !namesOk s d q y.desc then claim s d q y.no stDenied
      else if headBlocked s d q y ∨ waitsUnmet s d q y.desc then s
      else if 0x40 ≤ op ∧ op < 0x80 then dispatchKernel s d q y
      else if 0x10 ≤ op ∧ op < 0x40 then dispatchGroup s d q y
      else modSlot s d q y.no (fun z => { z with st := .running }))

/-- WAIT_TIMEOUT (R96): the head command's waits are still unmet TMO µs after it reached the head. -/
def execWaitTimeout (d : Fin 8) (q : Fin 2048) (s : State) : Host.Outcome State Fault Refusal :=
  .next (match (if queueRuns s d q then headSlot s d q else none) with
    | none => s
    | some y =>
      if rf s (Reg.HIF_CQ_WAIT_TMO d q) F.HIF_CQ_WAIT_TMO_TMO = 0 ∨ !descOk y ∨ !namesOk s d q y.desc ∨ !waitsUnmet s d q y.desc then s
      else claim s d q y.no stTimeout)

/-! ## NOP and ABORT -/

/-- NOP (R93): its waits are met; it completes. -/
def execNop (d : Fin 8) (q : Fin 2048) (s : State) : Host.Outcome State Fault Refusal :=
  .next (match (if duneUp s d && !workStopped s then runningSlot s d q (· == 0) else none) with
    | none => s
    | some y => claim s d q y.no stOk)

/-- Claim a command ABORTED: a kernel command's run goes with it, and a swap that waits is dropped. -/
def abortTarget (s : State) (d q : Nat) (y : Slot) : State :=
  let fq := flatQ d q
  let drop := fun (x : Group) => if x.swap.any (fun w => w.cmd == some (fq, y.no)) then { x with swap := none } else x
  if dOpcode y.desc = 0x15 then
    claim { s with col := { s.col with groups := s.col.groups.map (fun e => (e.1, drop e.2)) } } d q y.no stAborted
  else failRun s fq y.no stAborted

/-- ABORT (R102, R291). The target is the open command that carries the TAG, oldest first. An open collective is not claimed: its
root is asked, and the ABORT completes with the decision; a second ABORT of one collective is late (log 31). -/
def execAbort (d : Fin 8) (q : Fin 2048) (s : State) : Host.Outcome State Fault Refusal :=
  .next (match (if duneUp s d && !workStopped s then (cqOf s d q).slots.find? (fun y => y.st == .running && dOpcode y.desc == 1 &&
      !s.col.groups.any (fun g => g.2.opened.any (fun c => c.abortBy == some (flatQ d q, y.no)))) else none) with
    | none => s
    | some y =>
      let tq := dSrc y.desc / 65536 % 2048
      match (cqOf s d tq).slots.find? (fun z => dTag z.desc == dSrc y.desc % 65536 && slotOpen z) with
      | none => claim s d q y.no stAbortLate
      | some z => match collOfCmd s (flatQ d tq) z.no with
        | some (g, c) =>
          if c.abortBy.isSome ∨ c.decided.isSome then claim s d q y.no stAbortLate
          else abortRequest s g c.step stAborted (some (flatQ d q, y.no))
        | none => claim (abortTarget s d tq z) d q y.no stOk)

end Sys2Proof.Machine
end

