-- ==== Sys2Proof/Machine/Power.lean ====
section
/-! DEFINITION. Supplies, resets, the thermal trip, the image load and the dune domains (spec/03: R65 to R79; spec/17: R399
to R408; spec/02: R57 to R63). A command whose event cannot happen in the state changes nothing. -/
namespace Sys2Proof.Machine

/-! ## Supplies and reset -/

/-- Show what PWR_STATUS says of the supplies. -/
def showSupplies (s : State) : State :=
  wfs s Reg.PWR_STATUS [(F.PWR_STATUS_VIN48_GOOD, b2n s.plat.vin48Good), (F.PWR_STATUS_VAUX5_OK, b2n s.plat.auxOk)]

/-- AUX_POWER_UP (R402, R66, R408): the platform die's rails regulate, PLT_PG_AUX is high, and the next start is an auxiliary
power-on. -/
def execAuxPowerUp (s : State) : Host.Outcome State Fault Refusal :=
  .next (if s.plat.auxOk then s
    else
      let s1 := { s with plat := { s.plat with auxOk := true, coldPending := some 1 },
                         pins := { s.pins with pgAux := true, driven := true } }
      showSupplies s1)

/-- RESET_RELEASE (R65, R402): the straps are sampled; the platform die starts its ROM boot and the image load begins. While
an ordered power-down still runs, its end starts the die. -/
def execResetRelease (straps : Fin 4) (s : State) : Host.Outcome State Fault Refusal :=
  .next (if s.plat.auxOk && s.plat.resetHeld then
      let s1 := { s with plat := { s.plat with resetHeld := false, straps := straps }, pins := { s.pins with resetN := true } }
      if s1.plat.seq.isSome then s1 else platformRestart s1 (s1.plat.coldPending.getD 2)
    else s)

/-- RESET_ASSERT (R403, R404): PLT_RESET_N is low for 2 µs. -/
def execResetAssert (s : State) : Host.Outcome State Fault Refusal :=
  .next (if s.plat.auxOk && !s.plat.resetHeld then
      coldStart { s with plat := { s.plat with resetHeld := true }, pins := { s.pins with resetN := false } } 2
    else s)

/-- AUX_INPUT_LOSS (R77, R408). -/
def execAuxInputLoss (s : State) : Host.Outcome State Fault Refusal := .next (if s.plat.auxOk then auxLoss s else s)

/-- VIN48_GOOD (R65). -/
def execVin48Good (s : State) : Host.Outcome State Fault Refusal :=
  let s1 := { s with plat := { s.plat with vin48Good := true } }
  .next (if s.plat.auxOk then showSupplies s1 else s1)

/-- VIN48_OUT_OF_RANGE (R400, R406): with PLT_PG_MAIN high it is an event, and the recommended conditions are left. -/
def execVin48OutOfRange (s : State) : Host.Outcome State Fault Refusal :=
  let s1 := { s with plat := { s.plat with vin48Good := false, conditionsLeft := s.plat.conditionsLeft || s.pins.pgMain } }
  .next (if !s.plat.auxOk then s1
    else if s.pins.pgMain then pwrEvent (showSupplies s1) F.PWR_EVT_VIN48_RANGE else showSupplies s1)

/-- VAUX5_OUT_OF_RANGE (R406). -/
def execVaux5OutOfRange (s : State) : Host.Outcome State Fault Refusal :=
  .next (if s.plat.auxOk then pwrEvent (wf s Reg.PWR_STATUS F.PWR_STATUS_VAUX5_OK 0) F.PWR_EVT_VAUX5_RANGE else s)

/-- TRIAD_IN_LOCK_STEP (R68, Table 3.1): the boot has ended; MGT_READY is set and BAR0 answers. -/
def execTriadInLockStep (s : State) : Host.Outcome State Fault Refusal :=
  .next (if s.plat.booting then
      let s1 := { s with plat := { s.plat with booting := false, running := true } }
      refreshReady s (wf s1 Reg.PLT_READY_SUM F.PLT_READY_SUM_MGT_READY 1)
    else s)

/-! ## Thermal trip and ordered power-down -/

/-- Whether a sensor is fitted: 128 to 191 lie on light tiles (Table 3.6). -/
def sensorFitted (s : State) (k : Nat) : Bool := decide (k < 128 ∨ 192 ≤ k) || tileFitted s.otp.variant (k - 128)

/-- Unit path of a sensor: its dune, or the erg. -/
def sensorPath (k : Nat) : List Nat :=
  if k < 128 then [0, k / 16] else if k < 192 then [0, (k - 128) / 8] else if k < 204 then [0, stackDune (k - 192)] else [0]

/-- THERMAL_TRIP (R78, R79, Table 3.10); vector 0 reports it (Table 4.2). While the platform die is in its ROM boot a sensor at the
trip point does nothing (DESIGN CHOICE, log 200). -/
def execThermalTrip (sensor : Fin 208) (s : State) : Host.Outcome State Fault Refusal :=
  .next (if !s.plat.running ∨ rb s Reg.PLT_RESET_CAUSE F.PLT_RESET_CAUSE_TRIPPED ∨ !sensorFitted s sensor then s
    else
      let pending := match s.plat.seq with
        | some ⟨.cold c, _⟩ => some c
        | _ => s.plat.coldPending
      let s1 := wfs s Reg.PLT_RESET_CAUSE [(F.PLT_RESET_CAUSE_CAUSE, 6), (F.PLT_RESET_CAUSE_TRIPPED, 1), (F.PLT_RESET_CAUSE_TRIP_SENSOR, sensor)]
      let s2 := { s1 with plat := { s1.plat with creditsWithheld := true, coldPending := pending },
                          pins := { s1.pins with thermTripN := false } }
      let s3 := fsrStore (lasersOff (signal (emit s2 .i3cIbi) 0)) 0x0A (sensorPath sensor) [(5, sensor)] [] 0 [] []
      let todo := offDunes s3
      if todo.isEmpty then
        (match pending with
         | some c => coldEnd { s3 with plat := { s3.plat with seq := none, coldPending := none } } c
         | none => { s3 with plat := { s3.plat with seq := none } })
      else { s3 with plat := { s3.plat with seq := some ⟨.trip, todo⟩ } })

/-- The last domain of a sequence is off. -/
def seqEnd (s : State) (k : SeqKind) : State :=
  let s1 := { s with plat := { s.plat with seq := none } }
  match k with
  | .trip =>
    (match s1.plat.coldPending with
     | some c => coldEnd { s1 with plat := { s1.plat with coldPending := none } } c
     | none => s1)
  | .cold c => coldEnd s1 c
  | .fence p => fenceNext (fenceEnd s1 p)

/-- SEQUENCED_DUNE_OFF (R78, R390, R404): the next domain of the sequence goes off, and its end follows the last one. -/
def execSequencedDuneOff (s : State) : Host.Outcome State Fault Refusal :=
  .next (match s.plat.seq with
    | none => s
    | some ⟨k, todo⟩ =>
      match todo with
      | [] => seqEnd s k
      | d :: rest =>
        let s1 := duneOff { s with plat := { s.plat with seq := some ⟨k, rest⟩ } } d 0
        if rest.isEmpty then seqEnd s1 k else s1)

/-! ## Reset requests -/

/-- Whether a trip or a cold reset is being run. -/
def downRuns (s : State) : Bool :=
  match s.plat.seq with
  | some ⟨.trip, _⟩ => true
  | some ⟨.cold _, _⟩ => true
  | _ => false

/-- What a write of PLT_RESET_CTRL asks for (R77, R79): nothing without the key; COLD before WARM; no warm reset interrupts a
trip or a cold reset. -/
def resetRequest (s : State) (v : Word) : State :=
  if !s.plat.running || !keyOk v then s
  else if wbit v 1 then coldStart s 4
  else if wbit v 0 && !downRuns s then warmReset { s with plat := { s.plat with seq := none } } 5
  else s

/-- SOFTWARE_WARM_RESET: PLT_RESET_CTRL with WARM. -/
def execSoftwareWarmReset (v : Word) (s : State) : Host.Outcome State Fault Refusal :=
  .next (if wbit v 0 then resetRequest s v else s)

/-- SOFTWARE_COLD_RESET: PLT_RESET_CTRL with COLD. -/
def execSoftwareColdReset (v : Word) (s : State) : Host.Outcome State Fault Refusal :=
  .next (if wbit v 1 then resetRequest s v else s)

/-- IMAGE_RELOAD (R63): IMG_CTRL with RELOAD and the key. -/
def execImageReload (v : Word) (s : State) : Host.Outcome State Fault Refusal :=
  .next (if s.plat.running && keyOk v && wbit v 1 then coldStart s 3 else s)

/-- IMAGE_SEAL (R61): IMG_CTRL with SEAL and the key: now in LOADED, pending before it, nothing in FAILED or when sealed. -/
def execImageSeal (v : Word) (s : State) : Host.Outcome State Fault Refusal :=
  .next (if !s.plat.running then s
    else if held s then heldWrite s Reg.IMG_CTRL v
    else if !(keyOk v && wbit v 2) ∨ imgSt s = imgFailed ∨ rb s Reg.IMG_STATUS F.IMG_STATUS_SEALED then s
    else if imgSt s = imgLoaded then sealLogged s
    else wf s Reg.IMG_STATUS F.IMG_STATUS_SEAL_PENDING 1)

/-! ## Image load -/

/-- The slot that a load reads next: the first in its order that is untried (R57). -/
def nextSlot (s : State) (h0 h1 : HdrRead) : Option ImgSlot :=
  (slotOrder (rf s Reg.IMG_SRC F.IMG_SRC_SRC) s.otp.variant h0 h1).find? (fun x => !s.img.tried.contains x)

/-- What is read at a slot; a host source is the IMG_HOST_LEN bytes of host memory at IMG_HOST_ADDR, where DMA reads them. -/
def slotRead (s : State) (h0 h1 : HdrRead) (hostOk : Bool) : ImgSlot → HdrRead
  | .slot0 => h0
  | .slot1 => h1
  | .host => ⟨hostOk, hostImage s 0 256, rn s Reg.IMG_HOST_LEN⟩

/-- IMAGE_HEADER_READ (R57, R58 step 1): in FETCH, the header of the slot whose turn it is is checked. -/
def execImageHeaderRead (h0 h1 : HdrRead) (hostOk : Bool) (s : State) : Host.Outcome State Fault Refusal :=
  .next (if !s.plat.running ∨ imgSt s ≠ imgFetch then s
    else
      match nextSlot s h0 h1 with
      | none => s
      | some slot =>
        let r := slotRead s h0 h1 hostOk slot
        let code := headerCode s.otp.variant (if slot = .host then 2 ^ 28 else r.bytes) r
        if code = 0 then
          setImgSt (wfs { s with img := { s.img with cur := slot, header := r.header } } Reg.IMG_STATUS
            [(F.IMG_STATUS_SLOT, slotCode slot), (F.IMG_STATUS_SECTIONS_DONE, 0)]) imgSig
        else imageFail s slot code 0xFFFF 0)

/-- The image is accepted: its boot sections are in force, the registers that describe it are shown, ports that stay closed
are DISABLED, and the load waits in POWER. -/
def imageAccept (s : State) (img : Image) : State :=
  let st := { s.img with dir := img.dir, cfg := imageCfg img, accepted := true, active := [], discarded := [], bulk := [] }
  let s1 := { s with img := st }
  let s2 := { s1 with mgt := { s1.mgt with ports := closedPorts s1 } }
  let s3 := wn (wfs s2 Reg.IMG_INFO [(F.IMG_INFO_PERSONALITY, hPersonality img.header), (F.IMG_INFO_CONTRACT_VER, hContract img.header)])
    Reg.IMG_SEQ (hImageSeq img.header)
  let s4 := showBytes Reg.IMG_HASH 12 (natBe 48 (imageHash img)) s3
  let s5 := (List.range 64).foldl tileShow (loadTrims (showSections s4))
  secLog (setImgSt (showSeed s5) imgPower) 1 (imageHash img)

/-- IMAGE_VERIFY_DONE (R58 steps 2 to 6): of the image whose header was read, at its source. -/
def execImageVerifyDone (img : Image) (s : State) : Host.Outcome State Fault Refusal :=
  .next (if imgSt s ≠ imgSig ∨ img.header ≠ s.img.header ∨ !sourceHolds s img then s
    else
      match verifyImage s.otp.variant (ownerKey s) s.otp.vendorKey s.rot.minSeq s.rot.imageKeys img with
      | none => refreshReady s (imageAccept (setImgSt s imgBootSect) img)
      | some (code, sect) =>
        if code < 9 then imageFail s s.img.cur code sect 0
        else imageFail (setImgSt s imgBootSect) s.img.cur code sect (bootsPassed img))

/-! ## Dune domains (Table 3.3) -/

/-- The dune whose domain may be enabled next: the lowest that is OFF and not shut by a fence, once every lower one has passed
RAMP (R67). -/
def nextDune (s : State) : Option Nat :=
  match (List.range 8).find? (fun d => duneSt s d == 0 && !duneFenced s d) with
  | none => none
  | some d => if (List.range d).all (fun i => duneSt s i != 1) then some d else none

/-- Whether domains may be enabled: the image is accepted, 48 V is good, and no trip or power-down stands (R65, R78). -/
def mayEnable (s : State) : Bool :=
  s.plat.running && s.img.accepted && s.plat.vin48Good && [imgPower, imgBulk, imgLoaded].contains (imgSt s)
  && !rb s Reg.PLT_RESET_CAUSE F.PLT_RESET_CAUSE_TRIPPED && s.plat.seq.isNone

/-- Apply the delay-line trims of a dune, which take effect at its enable (Table 3.6). -/
def applyDuneTrims (s : State) (d : Nat) : State :=
  let user := (s.plat.trimUser.filter (fun e => e.1 / 2 ^ 24 == 5 && e.1 % 2 ^ 24 / 2048 == d)).map (fun e => e.1 % 2 ^ 24)
  let done := (s.plat.trimApplied.filter (fun e => e.1 / 2 ^ 24 == 5 && e.1 % 2 ^ 24 / 2048 == d)).map (fun e => e.1 % 2 ^ 24)
  (user ++ done).foldl (fun u i => applyTrim u 5 i) s

/-- DUNE_DOMAIN_ENABLE (R65, R67, R375, R374): trims apply first; the first domain closes debug, unless a token is in force,
and moves the load to BULK. -/
def execDuneDomainEnable (s : State) : Host.Outcome State Fault Refusal :=
  .next (if !mayEnable s then s
    else
      match nextDune s with
      | none => s
      | some d =>
        let s1 := debugColdEnd s
        let s2 := mirrorEpochUp (if imgSt s1 = imgPower then setImgSt s1 imgBulk else s1)
        setDuneSt (applyDuneTrims s2 d) d 1)

/-- A dune that fails is powered off, with its record (R67, Table 3.3). -/
def duneFailed (s : State) (d : Nat) : State :=
  let s1 := duneOff s d 5
  let s2 := fsrStore s1 0x0E [0, d] [] [] 0 [] []
  unfenceCheck (settle s2 (checkLoaded (showSections s2))) d

/-- DUNE_RAILS_REGULATED (Table 3.3): RAMP to CAL; the tiles of the dune are powered. -/
def execDuneRailsRegulated (d : Fin 8) (s : State) : Host.Outcome State Fault Refusal :=
  .next (if duneSt s d = 1 then refreshReady s (tilesPowered (showPgMain (setDuneSt s d 2)) d) else s)

/-- DUNE_RAMP_TIMEOUT (Table 3.3). -/
def execDuneRampTimeout (d : Fin 8) (s : State) : Host.Outcome State Fault Refusal :=
  .next (if duneSt s d = 1 then duneFailed s d else s)

/-- DUNE_CAL_DONE (R24, Table 3.3). -/
def execDuneCalDone (d : Fin 8) (paceOk : Bool) (s : State) : Host.Outcome State Fault Refusal :=
  .next (if duneSt s d = 2 then (if paceOk then refreshReady s (setDuneSt s d 3) else duneFailed s d) else s)

/-- Per-ripple defaults of the pools (Table 5.3). -/
def poolDefault (c : Nat) : Nat := getAt 0 [256, 1024, 1024, 2048, 3072, 1024, 3584, 256] c

/-- The pools of a scope in a dune at the values of the image (R114, R115). -/
def imagePools (s : State) (d p : Nat) : State :=
  (List.range 8).foldl (fun u c =>
    let m := poolDefault c * scopeQuota u d p / 12288
    let u1 := wf u (Reg.SWC_POOL_MAX d p c) F.SWC_POOL_MAX_MAX m
    if creditClass c then wf u1 (Reg.SWC_POOL_BUDGET d p c) F.SWC_POOL_BUDGET_BUDGET (m / 16) else u1) s

/-- The refill marks of the queues of a dune's wide ports: 256 cells a lane (Table 5.8). -/
def imageMarks (s : State) (d : Nat) : State :=
  (s.img.cfg.ports.filter (fun r => r.first / 256 == d && decide (1 < r.width))).foldl (fun u r =>
    (List.range 16).foldl (fun v k => wf v (Reg.SWC_QCFG1 d (egressQ r.first (k / 8) (k % 8))) F.SWC_QCFG1_REFILL_MARK (256 * r.width)) u) s

/-- The scope number of every command queue of a dune (Table 4.4); scope 0 is the reset value. -/
def imageQueues (s : State) (d : Nat) : State :=
  ((List.range 32).filter (fun r => partOfRipple s (d * 32 + r) != 0)).foldl (fun u r =>
    (List.range 64).foldl (fun v i => wf v (Reg.HIF_CQ_CFG d (r * 64 + i)) F.HIF_CQ_CFG_PART (partOfRipple s (d * 32 + r))) u) s

/-- Everything the image sets in a dune that enters UP (R419). -/
def imageValues (s : State) (d : Nat) : State :=
  let parts := (s.img.cfg.scopes.filter (fun x => bitAt x.dunes d)).map (·.num)
  let s1 := parts.foldl (fun u p => imagePools u d p) s
  let s2 := imageQueues (imageMarks s1 d) d
  parts.foldl (fun u p => (List.range 8).foldl (fun v c => showPools v p c) u) s2

/-- The replay that fills the replica of a dune that enters UP, before any later change (R149). -/
def startReplay (s : State) (d : Nat) : State :=
  let fill : SeqChange := ⟨s.fwd.seq, [.fill (baseTables s (duneZone s d))]⟩
  wf { s with fwd := { s.fwd with queues := SMap.ins s.fwd.queues d [fill] } } (Reg.FWD_STATUS d) F.FWD_STATUS_REPLICA 2

/-- A dune enters UP: the image's values are applied, the replay of the shadow copy starts, its lanes start. Its RTE_WADI_RSV is
in force from here (R184). -/
def duneEnterUp (s : State) (d : Nat) : State :=
  let s1 := imageValues (setDuneSt (startReplay s d) d 4) d
  let parts := (s.img.cfg.scopes.filter (fun x => bitAt x.dunes d)).map (·.num)
  startLanes (showTables (parts.foldl (fun t p => checkBudget t d p 0xFF 0xFFFF) (latchRsv s1)) d) d

/-- DUNE_TEST_DONE (Table 3.3): with sections 0012h and 0020h active, UP; a failed memory test is FAILED. -/
def execDuneTestDone (d : Fin 8) (memOk : Bool) (s : State) : Host.Outcome State Fault Refusal :=
  .next (if duneSt s d ≠ 3 then s
    else if !memOk then duneFailed s d
    else if typeActive s 0x12 d && typeActive s 0x20 d then unfenceCheck (settle s (duneEnterUp s d)) d
    else s)

/-! ## Power telemetry (R406) -/

/-- One 16-bit reading. -/
def reading (n : Nat) : Nat := min n 65535

/-- PWR_TELEMETRY_UPDATE: the readings of the last millisecond; a domain that is off reads 0, a stack that belongs to no system too (R31). -/
def execPwrTelemetryUpdate (r : PwrReadings) (s : State) : Host.Outcome State Fault Refusal :=
  .next (if !s.plat.running then s
    else
      let on := fun (d : Nat) => [1, 2, 3, 4].contains (duneSt s d)
      let s1 := wn (wn (wn (wn (wn s Reg.PWR_VIN48 (reading r.vin48)) Reg.PWR_IIN48 (reading r.iin48)) Reg.PWR_PIN48 (reading r.pin48))
        Reg.PWR_VAUX5 (reading r.vaux5)) Reg.PWR_PAUX5 (reading r.paux5)
      let s2 := (List.range 8).foldl (fun u d => wn (wn u (Reg.PWR_DUNE d) (if on d then reading (getAt 0 r.dunes d) else 0))
        (Reg.PWR_TILES d) (if on d then reading (getAt 0 r.tiles d) else 0)) s1
      let s3 := (List.range 12).foldl (fun u k => wn u (Reg.PWR_OASIS k) (if on (stackDune k) && s.img.cfg.scopes.any (fun x => bitAt x.stackMask k) then reading (getAt 0 r.oasis k) else 0)) s2
      let s4 := wn (wn s3 Reg.PWR_PLT (reading r.plt)) Reg.PWR_PEAK (max (rn s Reg.PWR_PEAK) (reading r.pin48))
      let auxIn := decide (4750 ≤ r.vaux5 ∧ r.vaux5 ≤ 5250)
      let s5 := wf (if rb s Reg.PWR_STATUS F.PWR_STATUS_VAUX5_OK && !auxIn then pwrEvent s4 F.PWR_EVT_VAUX5_RANGE else s4) Reg.PWR_STATUS
        F.PWR_STATUS_VAUX5_OK (b2n auxIn)
      if rf s5 Reg.PWR_LIMIT F.PWR_LIMIT_WATTS < reading r.pin48 then pwrEvent s5 F.PWR_EVT_OVER_LIMIT else s5)

/-- PWR_PEAK_READ: the read returns the peak and restarts it. -/
def execPwrPeakRead (s : State) : Host.Outcome State Fault Refusal :=
  .next (if s.plat.running then wn (emit s (.readData Reg.PWR_PEAK (rn s Reg.PWR_PEAK))) Reg.PWR_PEAK 0 else s)

/-! ## Trims -/

/-- TRIM_USER_WRITE (R75, R76): before sealing, of a valid selection. -/
def execTrimUserWrite (v : Word) (s : State) : Host.Outcome State Fault Refusal :=
  let p := rf s Reg.PLT_TRIM_SEL F.PLT_TRIM_SEL_PARAM
  let i := rf s Reg.PLT_TRIM_SEL F.PLT_TRIM_SEL_INDEX
  .next (if !s.plat.running then s
    else if held s then heldWrite s Reg.PLT_TRIM_USER v
    else if rb s Reg.IMG_STATUS F.IMG_STATUS_SEALED ∨ !trimIndexOk s.otp.variant p i then s
    else
      showTrim { s with plat := { s.plat with trimUser := SMap.put (fun _ => 0) s.plat.trimUser (trimKey p i) (signedOf 16 v.toNat) } })

end Sys2Proof.Machine
end

