-- ==== Sys2Proof/Machine/HostIf.lean ====
section
/-! DEFINITION. The host interface's commands on command queues, doorbells, event counters, and completion and notification
queues (spec/04: R82, R88 to R107, R420; spec/05: R132). -/
namespace Sys2Proof.Machine

/-- Whether a dune window answers: the platform die runs and the dune is in UP (R82). -/
def winOk (s : State) (d : Nat) : Bool := s.plat.running && duneUp s d

/-! ## Accesses that do not reach a register (R82) -/

/-- An access to the window of a dune that is not in UP. -/
def offlineAccess (s : State) : State := hifErr (bump32 s Reg.HIF_OFFLINE_CNT 1) F.HIF_ERR_OFFLINE_ACC

/-- A malformed write of a submission aperture. -/
def apertureBad (s : State) : State := hifErr (bump32 s Reg.HIF_APERTURE_BAD 1) F.HIF_ERR_APERTURE_BAD

/-- Whether an address lies in a submission aperture (Table 4.1). -/
def inAperture (a : Nat) : Bool :=
  let o := (a - 0x2000000) % 0x400000
  decide (0x2000000 ≤ a ∧ 0x340000 ≤ o ∧ o < 0x360000)

/-- An access that also lies in the window of a dune that is not in UP counts there too. -/
def windowAccess (s : State) (a : Nat) : State := match windowDune a with
  | none => s
  | some d => if duneUp s d then s else offlineAccess s

/-- BAD_ACCESS (R82): a size or alignment that registers do not accept; a write to an aperture counts as its malformed write. -/
def execBadAccess (a : BitVec 26) (isRead : Bool) (s : State) : Host.Outcome State Fault Refusal :=
  .next (if !s.plat.running then s
    else if isRead then windowAccess (hifErr (emit s (.readData a.toNat 0xFFFFFFFF)) F.HIF_ERR_BAD_ACCESS) a.toNat
    else if inAperture a.toNat then windowAccess (apertureBad s) a.toNat
    else windowAccess (hifErr s F.HIF_ERR_BAD_ACCESS) a.toNat)

/-- OFFLINE_DUNE_ACCESS (R82). -/
def execOfflineDuneAccess (a : BitVec 26) (isRead : Bool) (s : State) : Host.Outcome State Fault Refusal :=
  .next (match windowDune a.toNat with
    | none => s
    | some d =>
      if !s.plat.running ∨ duneUp s d then s
      else offlineAccess (if isRead then emit s (.readData a.toNat 0xFFFFFFFF) else s))

/-- Whether an address is the LO word of a 64-bit counter. -/
def counterLo (a : Nat) : Bool :=
  match regRow a with
  | none => false
  | some r => r.rw == 0 && r.w1c == 0 && r.dims.getLast? == some (2, 4) && r.base != 0x60034 && (a - r.base) % 8 == 0

/-- COUNTER_LO_READ (R132): the read returns LO and latches HI. -/
def execCounterLoRead (a : BitVec 26) (s : State) : Host.Outcome State Fault Refusal :=
  let n := regHome a.toNat
  let up := match windowDune n with
    | none => s.plat.running
    | some d => winOk s d
  .next (if up && counterLo n then
      let s1 := { s with swc := { s.swc with latched := SMap.put (fun _ => 0) s.swc.latched (n + 4) (rd s (n + 4)) } }
      emit s1 (.readData a.toNat (rn s n))
    else s)

/-! ## Submission (R88, R91, R92) -/

/-- HOST_SUBMIT (R82, R88): a write of a submission aperture: 64 aligned bytes are one descriptor. -/
def execHostSubmit (d : Fin 8) (q : Fin 2048) (off : Fin 64) (bytes : List Byte) (s : State) : Host.Outcome State Fault Refusal :=
  .next (if !s.plat.running then s
    else if off.val ≠ 0 ∨ bytes.length ≠ 64 then (if duneUp s d then apertureBad s else offlineAccess (apertureBad s))
    else if !duneUp s d then offlineAccess s
    else cqOffer s d q [beNat bytes])

/-- The doorbell endpoint of this spine (R91). -/
def doorbellEp (s : State) : Nat := 0xF00000 + ownAt s 0 * 4096 + ownAt s 1 * 64 + ownAt s 2

/-- Whether a message is a doorbell: of class MGT, to the doorbell endpoint (R91). -/
def isDoorbell (s : State) (c : Cfh) : Bool := c.cls == 0 && c.dst == doorbellEp s

/-- A doorbell is discarded as denied (R92). -/
def doorbellDenied (s : State) : State := hifErr (bump32 s Reg.HIF_DB_DENIED 1) F.HIF_ERR_DB_DENIED

/-- Whether a sender is on the expel list as an endpoint (R389). -/
def endpointExpelled (s : State) (hall ep : Nat) : Bool := s.rot.expel.any (fun e => e.kind == 3 && e.subject == hall * 2 ^ 24 + ep)

/-- Whether a submit doorbell is well-formed: 8 + 64 × COUNT bytes with COUNT 1 to 16, and reserved fields 0. -/
def submitFormOk (p : List Byte) : Bool :=
  let n := beAt p 1 1
  beAt p 0 1 == 1 && decide (1 ≤ n ∧ n ≤ 16) && p.length == 8 + 64 * n && beAt p 2 2 / 2 ^ 14 == 0 && beAt p 4 4 == 0

/-- Whether a counter-add doorbell is well-formed. -/
def addFormOk (p : List Byte) : Bool :=
  beAt p 0 1 == 2 && beAt p 1 1 == 0 && p.length == 8 && beAt p 2 2 / 2 ^ 15 == 0 && beAt p 4 4 / 2 ^ 20 == 0
  && beAt p 2 2 % 2 ^ 12 != 0xFFF

/-- The descriptors of a submit doorbell. -/
def doorbellDescs (p : List Byte) : List Nat := (List.range (beAt p 1 1)).map (fun i => beAt p (8 + 64 * i) 64)

/-- A doorbell for a ripple: discarded early where the ripple is not ready, denied where the scope or the sender does not fit,
else it acts (R72, R92, R389, R390). -/
def doorbell (s : State) (c : Cfh) (ripple : Nat) (fits : Bool) (act : State → State) : State :=
  let part := partOfRipple s ripple
  if !rippleReady s ripple then bump32 s Reg.PLT_EARLY_DB 1
  else if endpointExpelled s c.part c.src then s
  else if c.part ≠ hallPart s part ∨ !fits then doorbellDenied s
  else act s

/-- DOORBELL_SUBMIT (R92, R72, R88). -/
def execDoorbellSubmit (c : Cfh) (payload : List Byte) (s : State) : Host.Outcome State Fault Refusal :=
  let d := beAt payload 2 2 / 2 ^ 11 % 8
  let q := beAt payload 2 2 % 2 ^ 11
  let jobOk := !rb s (Reg.HIF_CQ_CFG d q) F.HIF_CQ_CFG_JOB_CHECK || c.job == rf s (Reg.HIF_CQ_JOB d q) F.HIF_CQ_JOB_JOB
  .next (if !s.plat.running ∨ !isDoorbell s c then s
    else if !submitFormOk payload then doorbellDenied s
    else doorbell s c (cqRipple d q) jobOk (fun u => cqOffer u d q (doorbellDescs payload)))

/-- DOORBELL_COUNTER_ADD (R92, R95); a fenced scope takes none (R390). -/
def execDoorbellCounterAdd (c : Cfh) (payload : List Byte) (s : State) : Host.Outcome State Fault Refusal :=
  let d := beAt payload 2 2 / 2 ^ 12 % 8
  let i := beAt payload 2 2 % 2 ^ 12
  .next (if !s.plat.running ∨ !isDoorbell s c then s
    else if !addFormOk payload then doorbellDenied s
    else doorbell s c (d * 32 + i / 128) (!fenced s (counterScope s d i)) (fun u => addCounter u d i (beAt payload 4 4 % 2 ^ 20)))

/-! ## Command queues (Table 4.3) -/

/-- Whether a command queue is bound to a completion queue and not DISABLED. -/
def cqLive (s : State) (d n fq : Nat) : Bool := fq / 2048 == d && cqCnq s d (fq % 2048) == n && cqState s d (fq % 2048) != 0

/-- Records that a completion queue may have to hold beside those of command queue `fq`: the ring of every queue bound to it that
is not DISABLED, and the unread records of the others (R89). -/
def cnqOwed (s : State) (d n fq : Nat) : Nat :=
  sumNat ((s.hif.cqs.filter (fun e => cqLive s d n e.1)).map (fun e => cqSize s d (e.1 % 2048)))
    + ((cnqOf s d n).unread.filter (fun r => !cqLive s d n r.1 && r.1 != fq)).length

/-- Write the fields of HIF_CQ_CFG that software sets, apart from ENABLE. -/
def cqWriteCfg (s : State) (d q : Nat) (v : Word) : State :=
  wfs s (Reg.HIF_CQ_CFG d q) [(F.HIF_CQ_CFG_LOG2_SIZE, getF v F.HIF_CQ_CFG_LOG2_SIZE), (F.HIF_CQ_CFG_JOB_CHECK, getF v F.HIF_CQ_CFG_JOB_CHECK),
    (F.HIF_CQ_CFG_CNQ, getF v F.HIF_CQ_CFG_CNQ)]

/-- What an enable of a DISABLED queue leads to: 0 ENABLED, else the cause (Table 4.3). -/
def cqEnableCause (s : State) (d q : Nat) : Nat :=
  let n := cqAskCnq s d q
  if fenced s (cqScope s d q) then 5
  else if (readyStacks s (cqScope s d q)).isEmpty then 2
  else if !cnqOn s d n || (cnqOf s d n).typ != 0 then 4
  else if 2 ^ (cnqOf s d n).log2 ≤ cnqOwed s d n (flatQ d q) + 2 ^ cqAskLog2 s d q then 3
  else 0

/-- Enable a DISABLED command queue (Table 4.3). -/
def enableQueue (s : State) (d q : Nat) : State :=
  let cause := cqEnableCause s d q
  if cause = 5 then wf s (Reg.HIF_CQ_STATUS d q) F.HIF_CQ_STATUS_ERR_CAUSE 5
  else if cause = 0 then setCqState (latchCq (wf s (Reg.HIF_CQ_STATUS d q) F.HIF_CQ_STATUS_ERR_CAUSE 0) d q) d q 1
  else cqError (latchCq s d q) d q cause

/-- CQ_ENABLE (R89, Table 4.3): HIF_CQ_CFG written with ENABLE 1. -/
def execCqEnable (d : Fin 8) (q : Fin 2048) (v : Word) (s : State) : Host.Outcome State Fault Refusal :=
  .next (if !winOk s d ∨ getF v F.HIF_CQ_CFG_ENABLE ≠ 1 then s
    else if held s then heldWrite s (Reg.HIF_CQ_CFG d q) v
    else
      let s1 := cqWriteCfg s d q v
      if cqState s1 d q ≠ 0 then s1 else enableQueue s1 d q)

/-- CQ_DISABLE (R384, Table 4.3): HIF_CQ_CFG written with ENABLE 0. -/
def execCqDisable (d : Fin 8) (q : Fin 2048) (v : Word) (s : State) : Host.Outcome State Fault Refusal :=
  .next (if !winOk s d ∨ getF v F.HIF_CQ_CFG_ENABLE ≠ 0 then s
    else if held s then heldWrite s (Reg.HIF_CQ_CFG d q) v
    else drainCq (cqWriteCfg s d q v) d q)

/-- CQ_QUIESCED_TO_DISABLED (R386): the ring space returns to the quota. -/
def execCqQuiescedToDisabled (d : Fin 8) (q : Fin 2048) (s : State) : Host.Outcome State Fault Refusal :=
  .next (if winOk s d && cqState s d q == 4 then setCqState s d q 0 else s)

/-- EVENT_COUNTER_WRITE (R95). -/
def execEventCounterWrite (d : Fin 8) (i : Fin 4095) (v : Word) (s : State) : Host.Outcome State Fault Refusal :=
  .next (if !winOk s d then s
    else if held s then heldWrite s (Reg.HIF_CNT d i) v
    else wf s (Reg.HIF_CNT d i) F.HIF_CNT_VALUE (getF v F.HIF_CNT_VALUE))

/-! ## Completion and notification queues (R103 to R107, R420) -/

/-- Write INTR_EN and VECTOR, which are not part of the geometry. -/
def cnqWriteNotice (s : State) (d n : Nat) (v : Word) : State :=
  wfs s (Reg.HIF_CNQ_CFG d n) [(F.HIF_CNQ_CFG_INTR_EN, getF v F.HIF_CNQ_CFG_INTR_EN), (F.HIF_CNQ_CFG_VECTOR, getF v F.HIF_CNQ_CFG_VECTOR)]

/-- Write TYPE, DEST and LOG2_SIZE, ignored while the queue is enabled. -/
def cnqWriteGeometry (s : State) (d n : Nat) (v : Word) : State :=
  wfs s (Reg.HIF_CNQ_CFG d n) [(F.HIF_CNQ_CFG_TYPE, getF v F.HIF_CNQ_CFG_TYPE), (F.HIF_CNQ_CFG_DEST, getF v F.HIF_CNQ_CFG_DEST),
    (F.HIF_CNQ_CFG_LOG2_SIZE, getF v F.HIF_CNQ_CFG_LOG2_SIZE)]

/-- The size exponent that a LOG2_SIZE acts as (Table 4.12). -/
def cnqLog2 (typ n : Nat) : Nat := if typ = 0 then min 20 (max 6 n) else min 30 (max 12 n)

/-- The queue that an enable starts: empty, with the geometry of its registers. -/
def cnqStart (s : State) (d n : Nat) : Cnq :=
  let typ := rf s (Reg.HIF_CNQ_CFG d n) F.HIF_CNQ_CFG_TYPE
  let dest := rf s (Reg.HIF_CNQ_CFG d n) F.HIF_CNQ_CFG_DEST
  let lo := rn s (Reg.HIF_CNQ_BASE_LO d n)
  { Cnq.empty with typ := typ, dest := dest, log2 := cnqLog2 typ (rf s (Reg.HIF_CNQ_CFG d n) F.HIF_CNQ_CFG_LOG2_SIZE),
                   base := if dest = 1 then lo % 2 ^ 24 else rn s (Reg.HIF_CNQ_BASE_HI d n) * 2 ^ 32 + lo / 4096 * 4096,
                   timerAt := s.clock }

/-- CNQ_ENABLE (R420): HIF_CNQ_CFG written with ENABLE 1. The geometry is latched, and the queue starts empty. -/
def execCnqEnable (d : Fin 8) (n : Fin 2048) (v : Word) (s : State) : Host.Outcome State Fault Refusal :=
  .next (if !winOk s d ∨ getF v F.HIF_CNQ_CFG_ENABLE ≠ 1 then s
    else if held s then heldWrite s (Reg.HIF_CNQ_CFG d n) v
    else
      let s1 := cnqWriteNotice s d n v
      if cnqOn s1 d n then s1
      else
        let s2 := wf (cnqWriteGeometry s1 d n v) (Reg.HIF_CNQ_CFG d n) F.HIF_CNQ_CFG_ENABLE 1
        let s3 := wn (wn s2 (Reg.HIF_CNQ_HEAD d n) 0) (Reg.HIF_CNQ_TAIL d n) 0
        setCnq s3 d n (cnqStart s3 d n))

/-- Whether a command queue that is not DISABLED, or that holds a slot, is bound to a completion queue. -/
def cnqBound (s : State) (d n : Nat) : Bool :=
  s.hif.cqs.any (fun e => cqLive s d n e.1 || (e.1 / 2048 == d && e.2.cnq == n && !e.2.slots.isEmpty)) || !(cnqOf s d n).unread.isEmpty

/-- Drop and count what a FIFO still has staged. -/
def dropStaged (s : State) (d n : Nat) : State :=
  let q := cnqOf s d n
  let s1 := setCnq s d n { q with staged := [], flushLeft := 0 }
  if q.staged.isEmpty then s1 else cnqNotice (bump32 s1 (Reg.HIF_CNQ_DROPS d n) q.staged.length) d n F.HIF_CNQ_CTRL_DROP_EVT

/-- CNQ_DISABLE (R420): HIF_CNQ_CFG written with ENABLE 0: ignored with CNQ_BUSY for a completion ring still in use; a FIFO
stops. -/
def execCnqDisable (d : Fin 8) (n : Fin 2048) (v : Word) (s : State) : Host.Outcome State Fault Refusal :=
  .next (if !winOk s d ∨ getF v F.HIF_CNQ_CFG_ENABLE ≠ 0 then s
    else if held s then heldWrite s (Reg.HIF_CNQ_CFG d n) v
    else if !cnqOn s d n then cnqWriteGeometry (cnqWriteNotice s d n v) d n v
    else if (cnqOf s d n).typ = 0 ∧ cnqBound s d n then hifErr (cnqWriteNotice s d n v) F.HIF_ERR_CNQ_BUSY
    else
      let s1 := freePunts (dropStaged (cnqWriteNotice s d n v) d n) d n
      wf (wf s1 (Reg.HIF_CNQ_CFG d n) F.HIF_CNQ_CFG_ENABLE 0) (Reg.HIF_CNQ_CTRL d n) F.HIF_CNQ_CTRL_FLUSH_PENDING 0)

/-- CNQ_HEAD_WRITE (R89, R105): records up to HEAD are read and their slots released, the read timer restarts, and staged
packets start as far as they fit. -/
def execCnqHeadWrite (d : Fin 8) (n : Fin 2048) (v : Word) (s : State) : Host.Outcome State Fault Refusal :=
  let q := cnqOf s d n
  .next (if !winOk s d then s
    else if !cnqOn s d n ∨ q.dest = 1 then wr s (Reg.HIF_CNQ_HEAD d n) v
    else if q.typ = 0 then
      let size := 2 ^ q.log2
      let k := min q.unread.length ((v.toNat % size + size - rn s (Reg.HIF_CNQ_HEAD d n) % size) % size)
      let s1 := wn s (Reg.HIF_CNQ_HEAD d n) ((rn s (Reg.HIF_CNQ_HEAD d n) + k) % size)
      let s2 := releaseRecords s1 d n k
      setCnq s2 d n { cnqOf s2 d n with timerAt := s.clock }
    else freePunts (drainStaged (setCnq (wn s (Reg.HIF_CNQ_HEAD d n) (v.toNat % 2 ^ q.log2)) d n { q with timerAt := s.clock }) d n) d n)

/-- CNQ_READ_TIMEOUT (R105). -/
def execCnqReadTimeout (d : Fin 8) (n : Fin 2048) (s : State) : Host.Outcome State Fault Refusal :=
  .next (if winOk s d && cnqOn s d n && (cnqOf s d n).dest == 0 && decide (0 < cnqFill s d n)
      && rf s (Reg.HIF_CNQ_TMO d n) F.HIF_CNQ_TMO_TMO != 0 then cnqNotice s d n F.HIF_CNQ_CTRL_TMO_EVT
    else s)

/-- CNQ_FLUSH (R106): the staged packets are written out as far as they fit; FLUSH_DONE follows the last of them. -/
def execCnqFlush (d : Fin 8) (n : Fin 2048) (s : State) : Host.Outcome State Fault Refusal :=
  .next (if !winOk s d ∨ !cnqOn s d n ∨ rb s (Reg.HIF_CNQ_CTRL d n) F.HIF_CNQ_CTRL_FLUSH_PENDING then s
    else
      let q := cnqOf s d n
      freePunts (drainStaged (wf (setCnq s d n { q with flushLeft := q.staged.length }) (Reg.HIF_CNQ_CTRL d n) F.HIF_CNQ_CTRL_FLUSH_PENDING 1) d n) d n)

/-- One message of a fabric-destination queue with its 16-byte head (Table 4.17). -/
def cnqMessage (s : State) (d n typ : Nat) (first last : Bool) (seq count : Nat) (items : List Byte) : State :=
  let head := natBe 1 typ ++ natBe 1 (b2n first + 2 * b2n last) ++ natBe 2 (d * 2 ^ 13 + n) ++ natBe 4 (seq % 2 ^ 32) ++ natBe 2 count ++ natBe 6 0
  let c := originCfh s 0 (hallPart s (partOfRipple s (d * 32 + n / 64))) (cnqOf s d n).base (doorbellEp s) 0 (16 + items.length)
  emit s (.msg none c (head ++ items))

/-- Send the bytes of a FIFO packet in fragments of at most 8,176 bytes. -/
def cnqFragments (d n typ : Nat) : Nat → Bool → Nat → List Byte → State → State
  | 0, _, _, _, s => s
  | fuel + 1, first, seq, l, s =>
    if l.length ≤ 8176 then cnqMessage s d n typ first true seq l.length l
    else cnqFragments d n typ fuel false (seq + 8176) (l.drop 8176) (cnqMessage s d n typ first false seq 8176 (l.take 8176))

/-- CNQ_FABRIC_SEND (R107): up to 64 records in one message, or one FIFO packet; its space is released as it leaves (R89). -/
def execCnqFabricSend (d : Fin 8) (n : Fin 2048) (s : State) : Host.Outcome State Fault Refusal :=
  let q := cnqOf s d n
  .next (if !winOk s d ∨ !cnqOn s d n ∨ q.dest ≠ 1 then s
    else if q.typ = 0 then
      let k := min 64 q.gathered.length
      if k = 0 then s
      else
        let s1 := cnqMessage s d n 0x90 true true (q.count - q.gathered.length) k (q.gathered.take k).flatten
        releaseRecords (setCnq s1 d n { q with gathered := q.gathered.drop k, gatherAt := s.clock }) d n k
    else
      match q.gathered with
      | [] => s
      | p :: rest =>
        let s1 := cnqFragments d n (0x90 + q.typ) 4 true q.count p s
        freePunts (drainStaged (setCnq s1 d n { q with gathered := rest, gatherAt := s.clock, count := q.count + p.length }) d n) d n)

end Sys2Proof.Machine
end

