-- ==== Sys2Proof/Machine/Drain.lean ====
section
/-! DEFINITION. Functions being disabled with work in flight: command queues, ports, ripples and partitions (spec/16: R384 to
R386, Table 16.2). -/
namespace Sys2Proof.Machine

/-! ## What a request covers (Table 16.2) -/

/-- The flat ripples of a request of KIND 10b or 11b. -/
def fnRipples (s : State) (kind index : Nat) : List Nat :=
  if kind = 2 then [index % 256]
  else if kind = 3 then
    (List.range 256).filter (fun r => partOfRipple s r == index % 16 && (scopeOfRipple s r).isSome
      && (bitAt index 10 || r / 32 == index / 2 ^ 11 % 8))
  else []

/-- The ports of a request. -/
def fnPorts (s : State) (kind index : Nat) : List Nat :=
  if kind = 1 then [index % 2048]
  else (s.img.cfg.ports.filter (fun r => (fnRipples s kind index).contains (r.first / 8))).map (·.num)

/-- The command queues of a request, as flat numbers: of a ripple, those that have been enabled. -/
def fnQueues (s : State) (kind index : Nat) : List Nat :=
  if kind = 0 then [index % 2 ^ 14]
  else (s.hif.cqs.map (·.1)).filter (fun fq => (fnRipples s kind index).contains (cqRipple (fq / 2048) (fq % 2048)))

/-- The engines of a request. -/
def fnEngines (s : State) (kind index : Nat) : List Nat :=
  ((fnRipples s kind index).map (fun r => (List.range 16).map (r * 16 + ·))).flatten

/-! ## Ports -/

/-- Set a port's function state. -/
def setPortFn (s : State) (p st : Nat) : State := { s with mgt := { s.mgt with ports := SMap.put (fun _ => 1) s.mgt.ports p st } }

/-- The egress queues of a port: sixteen of its first lane. -/
def portQueues (s : State) (p : Nat) : List Nat :=
  match portRec s p with
  | none => []
  | some r => (List.range 16).map (fun i => r.first % 256 * 16 + i)

/-- Cells of a queue that belong to the packets `p` accepts. -/
def cellsOf (x : HwQueue) (p : SwPkt → Bool) : Nat := sumNat ((x.pkts.filter (fun e => p e.2)).map (fun e => e.2.cells))

/-- Cells held for a port in its egress queues and in staging queues. -/
def portCells (s : State) (p : Nat) : Nat :=
  let d := portDune s p
  sumNat ((s.swc.queues.filter (fun e => e.1 / 16384 == d)).map (fun e => cellsOf e.2 (fun k => k.outPort == p)))

/-- Discard the packets of a queue that `gone` accepts: cells on chip leave the pool. -/
def discardPkts (s : State) (d q : Nat) (gone : SwPkt → Bool) : State :=
  let x := hwq s d q
  let chip := x.head ++ x.tail
  let s1 := (x.pkts.filter (fun e => gone e.2)).foldl (fun t e =>
    dischargePkt t d e.2.scope (pktPool e.2) ((chip.filter (fun n => n == e.1)).length)) s
  let y := dropPkts x (fun _ k => gone k)
  let s2 := match x.pkts with
    | [] => s1
    | e :: _ => setPagesUsed s1 d e.2.scope (pagesUsed s1 d e.2.scope - (x.pages.length - y.pages.length))
  setHwq s2 d q y

/-- Discard every cell held for a port, on its way to it or queued, and count it (R384); cells in a landing room return its credit
(R168). -/
def discardPort (s : State) (p : Nat) : State :=
  let d := portDune s p
  let gone := fun (k : SwPkt) => k.outPort == p
  let n := portCells s p + sumNat ((s.swc.mesh.filter gone).map (·.cells))
  let qs := (s.swc.queues.filter (fun e => e.1 / 16384 == d && e.2.pkts.any (fun k => gone k.2))).map (fun e => e.1 % 16384)
  let s1 := qs.foldl (fun t q => discardPkts t d q gone) s
  let left := s1.swc.mesh.filter (fun k => gone k && k.eth.isNone)
  let s2 := { s1 with swc := { s1.swc with mesh := s1.swc.mesh.filter (fun k => !gone k) } }
  bump64 (left.foldl (fun t k => leftSlice t k.inPort k.cls k.inVc k.cells) s2) Reg.MGT_FN_DISCARD n

/-- Whether a port's work has ended: nothing is queued for it, nothing that arrived on it is still on its way, and no credit
return waits. -/
def portQuiet (s : State) (p : Nat) : Bool :=
  portCells s p == 0 && s.swc.mesh.all (fun k => k.outPort != p && k.inPort != p) && s.swc.returns.all (fun e => e.1 / 64 != p)

/-- A port is DISABLED: its link goes to OFF (R386). -/
def portOff (s : State) (p : Nat) : State := linkDown (setPortFn s p 0) p

/-- Start the disabling of a port: it leaves ready at once, so that the sources learned on it become tombstones and a time source
behind it is lost (R152, R190). In immediate mode its cells are discarded. -/
def disablePort (immediate : Bool) (s : State) (p : Nat) : State :=
  if portFn s p = 0 then s
  else
    let s0 := settle s (setPortFn s p 2)
    let s1 := if portReady s p then sourceLost (learnLost s0 p) 1 p else s0
    if immediate then portOff (discardPort s1 p) p else if portQuiet s1 p then portOff s1 p else s1

/-! ## Progress (R385) -/

/-- Commands of a queue that are not DONE. -/
def openCmds (s : State) (fq : Nat) : Nat := ((cqOf s (fq / 2048) (fq % 2048)).slots.filter slotOpen).length

/-- REMAIN of a request. -/
def fnRemain (s : State) (kind index : Nat) : Nat :=
  min 0xFFFFFF (sumNat ((fnQueues s kind index).map (openCmds s)) + sumNat ((fnPorts s kind index).map (portCells s))
    + ((fnEngines s kind index).filter (fun g => engSt s g == 1 || engSt s g == 2 || engSt s g == 3)).length)

/-- Whether every function of a request is QUIESCED or beyond. -/
def fnQuiesced (s : State) (kind index : Nat) : Bool :=
  (fnQueues s kind index).all (fun fq => cqState s (fq / 2048) (fq % 2048) == 4 || cqState s (fq / 2048) (fq % 2048) == 0)
  && (fnPorts s kind index).all (fun p => portFn s p == 0)
  && (fnEngines s kind index).all (fun g => engSt s g != 1 && engSt s g != 2 && engSt s g != 3)

/-- Whether every function of a request is DISABLED. -/
def fnDisabled (s : State) (kind index : Nat) : Bool :=
  fnQuiesced s kind index && (fnQueues s kind index).all (fun fq => cqState s (fq / 2048) (fq % 2048) == 0)
  && (fnEngines s kind index).all (fun g => engSt s g != 4)

/-- What a function request names in an event: its partition and its port. -/
def fnBody (s : State) (kind index : Nat) : List Byte :=
  if kind = 1 then natBe 1 (portScope s (index % 2048)) ++ natBe 2 (index % 2048)
  else if kind = 0 then natBe 1 (cqScope s (index / 2048 % 8) (index % 2048)) ++ natBe 2 0xFFFF
  else if kind = 2 then natBe 1 (partOfRipple s (index % 256)) ++ natBe 2 0xFFFF
  else natBe 1 (index % 16) ++ natBe 2 0xFFFF

/-- Ports that drain and whose work has ended are DISABLED; the pending request shows how far it is, and ends once every
function of it is DISABLED (FN_DONE). -/
def fnProgress (s : State) : State :=
  let s1 := ((s.mgt.ports.filter (fun e => e.2 == 2)).map (·.1)).foldl (fun t p => if portQuiet t p then portOff t p else t) s
  match s1.mgt.fn with
  | none => s1
  | some r =>
    if r.enable then s1
    else if fnDisabled s1 r.kind r.index then
      mgtEvent (wfs { s1 with mgt := { s1.mgt with fn := none } } Reg.MGT_FN_STATUS
        [(F.MGT_FN_STATUS_PENDING, 0), (F.MGT_FN_STATUS_STATE, 0), (F.MGT_FN_STATUS_REMAIN, 0)]) F.MGT_EVT_FN_DONE (fnBody s1 r.kind r.index)
    else
      let q := fnQuiesced s1 r.kind r.index
      wfs s1 Reg.MGT_FN_STATUS [(F.MGT_FN_STATUS_PENDING, 1), (F.MGT_FN_STATUS_STATE, if q then 3 else 2),
        (F.MGT_FN_STATUS_REMAIN, if q then 0 else fnRemain s1 r.kind r.index)]

end Sys2Proof.Machine
end

