-- ==== Sys2Proof/Machine/Ingress.lean ====
section
/-! DEFINITION. What an arriving packet meets before it enters the mesh: parsing, the link header, credits, lookup, the
routing choice, punts (spec/06: R133 to R139; spec/07: R158 to R172; spec/05: R113 to R116, R129). -/
namespace Sys2Proof.Machine

/-! ## Errors of table words (R156) -/

/-- The scope of a mark's trie word. -/
def markScope (s : State) (m : Mark) : Nat := ((scopeByHall s (keyFieldPart m.key)).map (·.num)).getD 0

/-- A dune's replica without the word of a mark: the entry, the trie word, or the next hop (R156). -/
def invalidate (s : State) (d : Nat) (m : Mark) : Tables :=
  let t := replica s d
  if m.table < 0x10 then { t with em := SMap.del t.em m.word }
  else if m.table < 0x20 then
    let st := m.table - 0x10
    let a := trieAddr (keyFieldV6 m.key) (keyFieldAddr m.key)
    if st = 0 then { t with root := SMap.del t.root (markScope s m * 65536 + trieIndex a 0) }
    else match pathNode t (markScope s m) a st with
      | none => t
      | some i => { t with nodes := SMap.del t.nodes (st * 65536 + i) }
  else { t with nhs := SMap.del t.nhs m.word }

/-- One error that the scrubber of a dune finds, or a lookup in it (R156). -/
def scrubOne (d : Nat) (s : State) (e : ScrubErr) : State :=
  if e.correctable then fwdEvent (bump64 s (Reg.FWD_ECC_CORR d) 1) d F.FWD_EVT_ECC_CORR e.table e.word
  else
    let m : Mark := ⟨d, e.table, e.word, e.key, e.plen⟩
    let t1 := invalidate s d m
    let fwd := { s.fwd with replicas := SMap.ins s.fwd.replicas d t1, marks := if s.fwd.marks.contains m then s.fwd.marks else s.fwd.marks ++ [m] }
    let s1 := fwdEvent (bump64 (showTables { s with fwd := fwd } d) (Reg.FWD_ECC_UNCORR d) 1) d F.FWD_EVT_ECC_UNCORR e.table e.word
    fsrStore s1 7 [0, d] [] [] 0 [] []

/-- The error, if any, of a word that a lookup reads: it is found before the lookup answers (R156). -/
def lookupErr (s : State) (d : Nat) (err : Option ScrubErr) : State := err.toList.foldl (scrubOne d) s

/-! ## Headers -/

/-- The fabric header that 48 bytes spell (Table 1.13); reserved bits are ignored. -/
def cfhParse (l : List Byte) : Cfh :=
  let a := beAt l 0 1
  let b := beAt l 1 1
  let p := beAt l 2 2
  { ver := a / 16, epoch := a / 8 % 2, cls := a % 8, poison := bitAt b 7, retractable := bitAt b 6, mirrored := bitAt b 5,
    ecn := b / 8 % 4, first := bitAt b 2, last := bitAt b 1, part := p / 16, colour := p / 4 % 4, dst := beAt l 4 3, src := beAt l 7 3,
    len := beAt l 10 2 / 4, flowSeq := beAt l 12 4, job := beAt l 16 2, group := beAt l 18 2, gen := beAt l 20 1, chunk := beAt l 21 3,
    step := beAt l 24 4, rank := beAt l 28 3, format := beAt l 31 1, injSec := beAt l 32 4, injNs := beAt l 36 4, digest := beAt l 40 8 }

/-- The bytes of a frame from its destination address to its check sequence (R108). -/
def frameLen (f : EthFrame) : Nat := (ethBytes f).length + 4

/-- A frame as R135 parses its bytes: an outer tag of TPID 88A8h or 8100h, an inner one of 8100h, then EtherType and the rest; none
with a third tag. -/
def parseFrame (f : EthFrame) : Option EthFrame :=
  let raw := (f.tags.map (fun t => natBe 2 t.1 ++ natBe 2 t.2)).flatten ++ natBe 2 f.etype ++ f.body
  let isTag := fun (i : Nat) => beAt raw (4 * i) 2 == 0x8100 && decide (4 * i + 6 ≤ raw.length)
  let isOuter := isTag 0 || (beAt raw 0 2 == 0x88A8 && decide (6 ≤ raw.length))
  let n := if !isOuter then 0 else if isTag 1 then 2 else 1
  if n = 2 ∧ (isTag 2 ∨ beAt raw 8 2 = 0x88A8) then none
  else some { f with tags := (List.range n).map (fun i => (beAt raw (4 * i) 2, beAt raw (4 * i + 2) 2)), etype := beAt raw (4 * n) 2, body := raw.drop (4 * n + 2) }

/-- VID of a frame's outer tag, 0 for an untagged one (R135). -/
def frameVid (f : EthFrame) : Nat := (f.tags.head?.map (fun t => t.2 % 4096)).getD 0


/-- Whether a port carries traffic: its link is UP and its dune runs (R372, Table 15.5). -/
def linkCarries (s : State) (p : Nat) : Bool := linkSt s p == linkUp && duneUp s (portDune s p)

/-- The flat lane on which a packet arrives. -/
def laneOfPort (s : State) (p sub : Nat) : Option Nat :=
  match portRec s p with
  | none => none
  | some r => if sub < r.width then some (r.first + sub) else none

/-- Count in a port's receive error counter. -/
def rxError (s : State) (p : Nat) : State := { s with swc := { s.swc with rxErr := SMap.upd 0 s.swc.rxErr p (· + 1) } }

/-- Whether a virtual channel is permitted for a class (Table 7.3). -/
def vcPermitted (vc cls : Nat) : Bool := vc == 0 || [0, 1, 2, 3, 5].contains cls

/-- A bad link cell header is counted (R164). -/
def linkHdrErr (s : State) (d p : Nat) : State :=
  rteEvent (bump64 s (Reg.RTE_LINK_HDR_ERR d) 1) F.RTE_EVT_LINK_HDR_ERR ((portDir s p).getD 0xFF) p

/-- Take a credit return that an arriving cell carries (R164). -/
def takeReturn (s : State) (p : Nat) (cr : CreditRet) : State := setCredHeld s p cr.cls cr.vc (credHeld s p cr.cls cr.vc + cr.cells)

/-- WADI_SEL has arrived on a torus port: its DL0 and DL1 allowances stand (R168). -/
def wadiSelSeen (s : State) (p : Nat) : State :=
  if portRole s p ≠ 1 then s
  else
    let s1 := { s with rte := { s.rte with wadiSel := SMap.ins s.rte.wadiSel p s.clock } }
    if (SMap.find s.rte.wadiSel p).isSome then s1
    else checkBudget (grantAllowances s1 p) (portDune s p) (portScope s p) ((portDir s p).getD 0xFF) p

/-- Note a packet in the receive frame that is open on a port's link (R370). -/
def rxNote (s : State) (p cls grp step : Nat) : State :=
  let x := linkOf s p
  let base := (x.rx.find? (fun f => f.epoch == x.rxEpoch && f.no == x.rxFrame)).getD ⟨x.rxEpoch, x.rxFrame, [], 0⟩
  let keep := x.rx.filter (fun f => !(f.epoch == x.rxEpoch && f.no == x.rxFrame))
  let f := if cls = 4 then { base with colls := if base.colls.contains (grp, step) then base.colls else base.colls ++ [(grp, step)] }
    else { base with others := base.others + 1 }
  setLink s p { x with rx := keep ++ [f] }

/-! ## Lookup (R133, R138, R140) -/

/-- What a lookup finds: a result with its next hop if it is a route's, a miss, or a place marked for rebuild. -/
inductive Found where
  | hit (result : Nat) (nh : Option NextHop)
  | miss
  | marked
  deriving DecidableEq, Repr

/-- Whether a mark of a dune lies on a table word. -/
def markedAt (s : State) (d table : Nat) (p : Nat → Bool) : Bool := s.fwd.marks.any (fun m => m.dune == d && m.table == table && p m.word)

/-- Whether a lookup of an address reads a marked trie word of a stage. -/
def trieMarked (s : State) (d hp : Nat) (v6 : Bool) (addr st : Nat) : Bool :=
  s.fwd.marks.any (fun m => m.dune == d && m.table == 0x10 + st && keyFieldPart m.key == hp
    && trieAddr (keyFieldV6 m.key) (keyFieldAddr m.key) / 2 ^ (128 - m.plen) == trieAddr v6 addr / 2 ^ (128 - m.plen))

/-- Whether a bucket, given by its first slot, is marked in a dune. -/
def bucketMarked (s : State) (d b : Nat) : Bool := markedAt s d 0 (fun w => decide (b ≤ w ∧ w < b + 4))

/-- Probe a key in a dune's replica. A marked bucket of the key gives a rebuild hit; a mark in the stash gives one where the
key is found nowhere (log 15). -/
def probe (s : State) (d key : Nat) : Found :=
  if bucketMarked s d (bucket0 key) || bucketMarked s d (bucket1 key) then .marked
  else
    match emEntry (replica s d).em key with
    | some e => if e.tomb then .miss else .hit e.result none
    | none => if markedAt s d 1 (fun _ => true) then .marked else .miss

/-- The flow key and the endpoint key together: a flow hit takes precedence (R134). -/
def probeFabric (s : State) (d hp : Nat) (c : Cfh) : Found :=
  match probe s d (flowKey hp c.cls c.src c.dst) with
  | .miss => probe s d (endpointKey hp c.dst)
  | x => x

/-- The trie of a scope, with its /0 route (R136, R145). A marked word that the address's path reads gives a rebuild hit. -/
def probeRoute (s : State) (d part : Nat) (v6 : Bool) (addr : Nat) : Found :=
  let t := replica s d
  let found := lpmLookup t part v6 addr
  if (List.range (found.2 + 1)).any (trieMarked s d (hallPart s part) v6 addr) then .marked
  else
    match found.1 with
    | none => .miss
    | some i =>
      if markedAt s d 0x20 (fun w => w == i) then .marked
      else match SMap.find t.nhs i with
        | none => .miss
        | some n => .hit n.result (some n)

/-! ## Punts (R138, R139) -/

/-- A packet lost at the punt queue. -/
def puntDrop (s : State) (d : Nat) : State := fwdEvent (bump64 s (Reg.FWD_PUNT_DROP d) 1) d F.FWD_EVT_PUNT_DROP 0 0

/-- Packets in a dune's punt queue. -/
def puntQueue (s : State) (d : Nat) : List PuntPkt := (SMap.find s.swc.punt d).getD []

def setPunt (s : State) (d : Nat) (l : List PuntPkt) : State := { s with swc := { s.swc with punt := SMap.ins s.swc.punt d l } }

/-- Punt a packet to its dune's punt queue, which holds 256. -/
def punt (s : State) (d : Nat) (p : PuntPkt) : State :=
  if !rb s (Reg.FWD_PUNT_CFG d) F.FWD_PUNT_CFG_EN || decide (256 ≤ (puntQueue s d).length) then puntDrop s d
  else setPunt (chargePkt s d p.scope p.cls p.cells) d (puntQueue s d ++ [p])

/-- A packet as the punt queue keeps it. -/
def puntOf (s : State) (reason : Nat) (k : SwPkt) : PuntPkt :=
  let b := pktBytes k.eth k.cfh k.payload
  ⟨reason, k.cls, k.inPort, b.length, nowSec s % 2 ^ 32, nowNs s, b.take (63 * 64), k.scope, k.cells⟩

/-- A packet that a lookup did not resolve: lossless classes are punted, BEST is dropped (R138). -/
def unresolved (s : State) (d reason : Nat) (k : SwPkt) : State :=
  if k.cls = 6 then s else punt s d (puntOf s reason k)

/-- A miss. -/
def missed (s : State) (d : Nat) (k : SwPkt) : State := unresolved (bump64 s (Reg.FWD_MISS d) 1) d 1 k

/-- A hit on a rebuild mark. -/
def rebuildHit (s : State) (d : Nat) (k : SwPkt) : State := unresolved (bump64 s (Reg.FWD_REBUILD_HIT d) 1) d 3 k

/-! ## Results -/

/-- The packet enters the mesh towards its output port. -/
def intoMesh (s : State) (k : SwPkt) : State := { s with swc := { s.swc with mesh := s.swc.mesh ++ [k] } }

/-- Whether a packet may leave on a port: R137. A frame with a CFH may leave on either mode. -/
def modeFits (s : State) (k : SwPkt) (port : Nat) : Bool := if portEth s port then k.eth.isSome else k.cfh.isSome

/-- A port that a result may name: it has a record in the packet's own scope and is not disabled (R386, log 37). -/
def resultPortOk (s : State) (k : SwPkt) (port : Nat) : Bool :=
  (portRec s port).isSome && portScope s port == k.scope && portFn s port == 1

/-- A local port, or a staging queue before it (ACTION 0h and 4h): flow staging queues hold BULK and BEST cells only, so a packet of
another class goes to the port's own queue (R112; log 206). -/
def toPort (s : State) (d : Nat) (k : SwPkt) (port : Nat) (staging : Option Nat) : State :=
  if !resultPortOk s k port then missed s d k
  else if !modeFits s k port then bump64 s (Reg.FWD_MODE_MISMATCH d) 1
  else
    let ejects := k.inVc != 0
    intoMesh s { k with outPort := port, staging := if ejects || !(k.cls == 3 || k.cls == 6) then none else staging, vcSet := b2n ejects }

/-- The packet has no candidate (R161). -/
def unreachable (s : State) (d p : Nat) : State := rteEvent (bump64 s (Reg.RTE_UNREACH d) 1) F.RTE_EVT_UNREACH 0xFF p

/-- A remote destination (ACTION 1h): sequenced at its source, then routed by the version its EPOCH names; a packet of the
Wadi channel takes dimension order, and not through a port of another system (R32, log 204; R158 to R166, R172, R180). -/
def toRemote (s : State) (d : Nat) (k : SwPkt) (c : Cfh) (target : Nat) : State :=
  if torusDims s = 0 then missed s d k
  else if !targetOk s target then
    missed (rteEvent (bump64 s (Reg.RTE_BAD_TARGET d) 1) F.RTE_EVT_BAD_TARGET 0xFF k.inPort) d k
  else if k.inVc ≠ 0 then
    match (wadiDir s target).bind (wadiHolder s) with
    | none => unreachable s d k.inPort
    | some p => if isSystem s ∧ portScope s p ≠ k.scope then unreachable s d k.inPort else intoMesh s { k with outPort := p, vcSet := 1, target := some target }
  else
    let fresh := portRole s k.inPort != 1
    let sq := if fresh && sequencedClass k.cls then takeSeq s d k.scope c.dst k.cls else (s, ⟨0, 0, 0, false⟩)
    let s1 := sq.1
    let link := if fresh then
        { LinkHdr.none_ with cls := k.cls, start := sq.2.start, gen := sq.2.gen, ctx := sq.2.ctx,
                             originDune := d, originX := ownAt s 0, originY := ownAt s 1, originZ := ownAt s 2 }
      else k.link
    let c1 := if fresh && sq.2.ctx != 0 then { c with flowSeq := sq.2.seq } else c
    let v := routeVersion s1 c1.epoch
    let s2 := if v.2 then bump64 s1 (Reg.RTE_EPOCH_FALLBACK d) 1 else s1
    match choosePort s2 d v.1 k.scope target link.misroute (sequencedClass k.cls && link.ctx != 0) c1 with
    | none => unreachable s2 d k.inPort
    | some (s3, dir, p) =>
      let mis := if dir < 6 && !(minimalDirs s target).contains dir then link.misroute + 1 else link.misroute
      intoMesh s3 { k with outPort := p, cfh := some c1, link := { link with misroute := mis }, target := some target, vcSet := 0 }

/-- Act on a result (Table 6.2). A packet for a local service is consumed here: the service's own command carries its
message (log 16). -/
def onResult (s : State) (d : Nat) (k : SwPkt) (r : Nat) : State :=
  match resAction r with
  | 0 => toPort s d k (resPort r) none
  | 4 => toPort s d k (resPort r) (some (resStaging r))
  | 1 =>
    match k.cfh with
    | none => bump64 s (Reg.FWD_MODE_MISMATCH d) 1
    | some c => toRemote s d k c (targetCoord (resTarget r))
  | 2 => unresolved s d 2 k
  | 5 => s
  | _ => s

/-- Police and mirror a packet as its result asks, then act on the result (R122, R129). -/
def withResult (s : State) (d : Nat) (k : SwPkt) (r bytes : Nat) : State :=
  let pol := if resPolEn r then polDecide s d (resPolicer r) k.cls k.colour bytes else (s, k.colour)
  let k1 := { k with colour := pol.2, cfh := k.cfh.map (fun c => { c with colour := pol.2 }) }
  let m := resMirror r
  let s1 := if resMirEn r && rb s (Reg.SWC_MIR0 d m) F.SWC_MIR0_EN && rf s (Reg.SWC_MIR0 d m) F.SWC_MIR0_SRC_KIND == 2 then
      mirrorAll pol.1 d 2 k.inPort k.scope k1.eth k1.cfh k1.payload [m]
    else pol.1
  onResult s1 d k1 r

/-- Act on what a lookup found. -/
def onFound (s : State) (d : Nat) (k : SwPkt) (f : Found) (bytes : Nat) : State :=
  match f with
  | .hit r nh => withResult s d { k with nh := nh } r bytes
  | .miss => missed s d k
  | .marked => rebuildHit s d k

/-- The link-local destinations that the module itself consumes, each by a command of its own (log 16). -/
def linkLocalDst (dst : Nat) : Bool := [0xFFFFFE, 0xFFFFFD, 0xFFFFFC, 0xFFFFFA, 0xFFFFF8, 0xFFFFF7].contains dst

/-- A fabric packet at its ingress dune, from R134 on: `k` holds its CFH. -/
def fabricLookup (s : State) (d p : Nat) (k : SwPkt) (c0 : Cfh) : State :=
  let hp := hallPart s k.scope
  if 2 ≤ c0.ver then bump64 s (Reg.FWD_BAD_VER d) 1
  else if c0.cls = 7 then bump64 s (Reg.SWC_CLASS7_DROP d) 1
  else if c0.part ≠ hp then bump64 s (Reg.FWD_PART_MISMATCH d) 1
  else if endpointExpelled s c0.part c0.src then bump64 s Reg.MGT_EXPEL_DROP 1
  else if linkLocalDst c0.dst then s
  else if portRole s p = 0 ∧ c0.cls = 0 ∧ 2000 < c0.len then
    rteEvent (bump64 s (Reg.RTE_OVERSIZE d) 1) F.RTE_EVT_OVERSIZE 0xFF p
  else
    let stamp := portRole s p != 1 && portRole s p != 2
    let c := if stamp then { c0 with epoch := activeVer s } else c0
    let k1 := { k with cfh := some c }
    let s1 := mirrorAll s d 0 p k.scope k.eth (some c0) k.payload (mirSessions s d 0 p)
    let s2 := if rb s Reg.FWD_CFG F.FWD_CFG_LEARN_FABRIC && portRole s p == 0 then learnSeen s1 d k.scope (endpointKey hp c.src) p else s1
    onFound s2 d k1 (probeFabric s2 d hp c) (if k.eth.isSome then (pktBytes k.eth (some c0) k.payload).length else 48 + c.len)

end Sys2Proof.Machine
end

