-- ==== Sys2Proof/Machine/Egress.lean ====
section
/-! DEFINITION. Admission at the output dune and the choice of the next packet of a port (spec/05: R118, R119, R126 to R129;
spec/07: R164, R169, R170, R174, R176; spec/09: R205 to R218). -/
namespace Sys2Proof.Machine

/-! ## Admission (R118, R119) -/

/-- Cells that admission charges a packet: 36 for an Ethernet frame, whose unused cells come back as its last cell arrives. -/
def admitCells (k : SwPkt) : Nat := if k.eth.isSome then 36 else k.cells

/-- Count a BEST packet dropped at a queue. -/
def bestDrop (s : State) (d q : Nat) : State := bump64 s (Reg.SWC_Q_DROP_PKTS d q) 1

/-- Charge a packet and link it into its queue. -/
def admitLink (s : State) (d : Nat) (k : SwPkt) : State := linkAll d [k] (chargePkt s d k.scope k.cls k.cells)

/-- A queue that a BEST packet sends into spilling state, since its pool has no room (R119). -/
def forceSpill (s : State) (d q : Nat) : State := setHwq s d q { hwq s d q with spilling := true }

/-- A BEST packet: the tail, WRED, pool, spill and push-out decisions, in that order (R119). -/
def admitBest (s : State) (d : Nat) (k : SwPkt) : State :=
  let q := pktQueue s k
  let n := admitCells k
  let s1 := wredArrive s d q k.colour
  let x := hwq s1 d q
  if rf s1 (Reg.SWC_QCFG0 d q) F.SWC_QCFG0_QMAX * 16 < qOcc x + n then bestDrop s1 d q
  else
    let s2 := if k.colour = 0 then s1 else tickFree s1
    if wredDrop s1 d q k.colour then bestDrop s2 d q
    else if n ≤ poolFree s2 d k.scope 6 then admitLink s2 d k
    else if spillEn s2 d q 6 && spillRoom s2 d k.scope then admitLink (forceSpill s2 d q) d k
    else match pushOut d k.scope (qPrio s2 d q) n 4096 none s2 with
      | some s3 => admitLink s3 d k
      | none => bestDrop s2 d q

/-- VC on which a Wadi packet leaves (R165): 0 at an ejection port. -/
def nextVc (s : State) (k : SwPkt) : Nat :=
  match portDir s k.outPort with
  | none => 0
  | some dir => wadiVc s dir (if 2 ≤ k.inVc then some (k.inVc, (portDir s k.inPort).getD 0 / 2) else none)

/-- Whether the reserve of a packet's Wadi or ejection list has room for it (R169). -/
def listRoom (s : State) (d : Nat) (k : SwPkt) : Bool :=
  let v := nextVc s k
  decide (cellsOf (hwq s d (pktQueue s k)) (fun e => nextVc s e == v) + k.cells ≤ wadiRsv s k.cls)

/-- Cells of a context's held packets that are on chip. -/
def heldChip (x : DstCtx) : Nat := sumNat (x.held.map (fun p => p.cells - ((p.inOasis.map (·.2)).getD 0)))

/-- A BULK or COLL packet that the resequencer now holds: the cells that its context holds on chip beyond RTE_RSQ_HOLD go to Oasis, where
there is room, and its pages count as written (R127, R174). -/
def spillHeld (s : State) (d : Nat) (k : SwPkt) : State :=
  match s.rte.dst.find? (dstIs d k.link) with
  | none => s
  | some x =>
    let n := min k.cells (heldChip x - rf s Reg.RTE_RSQ_HOLD F.RTE_RSQ_HOLD_CELLS)
    if (k.cls == 3 || k.cls == 4) && x.held.contains k && decide (0 < n) && spillRoom s d k.scope then
      let st := readyStacks s k.scope
      let stack := getAt 0 st (pagesUsed s d k.scope % st.length)
      let s1 := setDst s { x with held := modFirst (fun p => p == k) (fun p => { p with inOasis := some (stack, n) }) x.held } k.link
      let s2 := setPagesUsed (dischargePkt s1 d k.scope k.cls n) d k.scope (pagesUsed s d k.scope + pagesOf n)
      bump64 s2 (Reg.SWC_SPILL_OUT d) (pagesOf n)
    else s

/-- Charge a lossless packet and pass it through the resequencer, at its destination, or link it (R173). -/
def admitLossless (s : State) (d : Nat) (k : SwPkt) : State :=
  let s1 := chargePkt s d k.scope k.cls k.cells
  if portRole s1 k.outPort = 1 ∨ 2048 ≤ k.outPort then linkAll d [k] s1 else spillHeld (resequence s1 d k) d k

/-- Admit a packet at its output dune; none while it must wait in its ingress slice. -/
def admitPkt (s : State) (d : Nat) (k : SwPkt) : Option State :=
  if portFn s k.outPort = 0 then some (bump64 s Reg.MGT_FN_DISCARD k.cells)
  else if k.cls = 6 then some (admitBest s d k)
  else if k.vcSet = 1 ∧ !listRoom s d k then none
  else if k.eth.isSome ∧ k.cls ≠ 4 ∧ poolFree s d k.scope k.cls < admitCells k then none
  else some (admitLossless s d k)

/-- Drop the first element that `p` accepts. -/
def dropFirst {α : Type} (p : α → Bool) : List α → List α
  | [] => []
  | h :: t => if p h then t else h :: dropFirst p t

/-! ## The packet as it leaves -/

/-- The one's complement sum of 16-bit words, folded. -/
def onesSum : List Byte → Nat
  | a :: b :: l => (a.toNat * 256 + b.toNat + onesSum l) % 65535
  | [a] => a.toNat * 256 % 65535
  | [] => 0

/-- Header bytes of an IPv4 packet. -/
def ipHeader (b : List Byte) : List Byte := b.take (beAt b 0 1 % 16 * 4)

/-- Whether an IPv4 header is whole and its checksum holds (R136). -/
def ipv4Ok (b : List Byte) : Bool :=
  beAt b 0 1 / 16 == 4 && decide (5 ≤ beAt b 0 1 % 16) && decide (beAt b 0 1 % 16 * 4 ≤ b.length) && onesSum (ipHeader b) == 0

/-- The body of a routed packet with TTL or hop limit decremented and the IPv4 checksum updated (R136). -/
def routedBody (v6 : Bool) (b : List Byte) : List Byte :=
  if v6 then setAt b 7 (BitVec.ofNat 8 (beAt b 7 1 - 1))
  else
    let t := setAt (setAt (setAt b 8 (BitVec.ofNat 8 (beAt b 8 1 - 1))) 10 0) 11 0
    let sum := 65535 - onesSum (ipHeader t)
    setAt (setAt t 10 (BitVec.ofNat 8 (sum / 256))) 11 (BitVec.ofNat 8 (sum % 256))

/-- The frame as it leaves after routing (R136). -/
def routedFrame (s : State) (part : Nat) (n : NextHop) (f : EthFrame) : EthFrame :=
  { f with dst := n.mac, src := routerMac s part, tags := if n.vid = 0 then [] else [(0x8100, n.vid)],
           body := routedBody (f.etype == 0x86DD) f.body }

/-- Whether a port sets WADI_SEL on every cell it sends: it is its direction's Wadi port (R167). -/
def sendsSel (s : State) (port : Nat) : Bool := match portDir s port with
  | none => false
  | some dir => rb s (Reg.RTE_WADI_PORT dir) F.RTE_WADI_PORT_VALID && rf s (Reg.RTE_WADI_PORT dir) F.RTE_WADI_PORT_PORT == port

/-- A packet as it leaves on a port: its Ethernet header only in Ethernet mode, its link header only on a torus port. -/
def outForm (s : State) (port vc : Nat) (k : SwPkt) : SwPkt :=
  let torus := portRole s port == 1 || decide (2048 ≤ port)
  let eth := if portEth s port then
      (match k.nh with
       | none => k.eth
       | some n => k.eth.map (routedFrame s k.scope n))
    else none
  { k with eth := eth, link := if torus then { k.link with vc := vc, cls := k.cls, wadiSel := sendsSel s port } else { LinkHdr.none_ with cls := k.cls } }

/-- Cells of a packet on a fabric link. -/
def linkCells (k : SwPkt) : Nat := match k.cfh with
  | none => k.cells
  | some c => fabricCells c.len

/-- Wire bytes of a packet on a port (R206). -/
def pktWire (s : State) (port : Nat) (k : SwPkt) : Nat :=
  if portEth s port then wireBytes true 0 (pktBytes k.eth k.cfh k.payload).length else wireBytes false (linkCells k) 0

/-! ## The choice (R205) -/

/-- A head that a port may send: its queue, its packet and the virtual channel it would take. -/
structure Head where
  q : Nat
  pk : SwPkt
  vc : Nat
  set1 : Bool
  deriving DecidableEq, Repr

/-- First flat lane of a port. -/
def firstLane (s : State) (p : Nat) : Nat := ((portRec s p).map (·.first)).getD 0

/-- Width of a port. -/
def portWidth (s : State) (p : Nat) : Nat := ((portRec s p).map (·.width)).getD 1

/-- The staging queues of a dune whose head packets name a port and a class (R112). -/
def stagingHeads (s : State) (d port c : Nat) : List Head :=
  s.swc.queues.filterMap (fun e =>
    let q := e.1 % 16384
    if e.1 / 16384 = d ∧ 4096 ≤ q ∧ q < 12288 then
      match headPkt e.2 with
      | none => none
      | some k => if k.outPort = port ∧ k.cls = c then some ⟨q, k, 0, false⟩ else none
    else none)

/-- The set-1 head of a class at a port. -/
def set1Head (s : State) (port c : Nat) : Option Head :=
  let q := portQ s port 1 c
  (headPkt (hwq s (portDune s port) q)).map (fun k => ⟨q, k, nextVc s k, true⟩)

/-- The heads that fair queuing chooses among: the set-0 egress queue and the staging queues. -/
def set0Heads (s : State) (port c : Nat) : List Head :=
  let d := portDune s port
  let q := portQ s port 0 c
  (match headPkt (hwq s d q) with
   | none => []
   | some k => [⟨q, k, 0, false⟩]) ++ stagingHeads s d port c

/-- All heads of a class at a port. -/
def classHeads (s : State) (port c : Nat) : List Head := (set1Head s port c).toList ++ set0Heads s port c

/-- Whether a head has its credits: a lossless class on a fabric port needs one for each cell (R164). -/
def hasCredit (s : State) (port : Nat) (h : Head) : Bool :=
  portEth s port || h.pk.cls == 6 || decide (linkCells h.pk ≤ credHeld s port h.pk.cls h.vc)

/-- Wire bytes of a head as it would leave (R206). -/
def headWire (s : State) (port : Nat) (h : Head) : Nat := pktWire s port (outForm s port h.vc h.pk)

/-- Whether a head fits its window now (R213). -/
def headFits (s : State) (port : Nat) (h : Head) : Bool :=
  fitsAt s port h.pk.cls s.clock (wireTime (headWire s port h) (portWidth s port))

/-- Whether a head is eligible (R205). -/
def eligible (s : State) (port : Nat) (h : Head) : Bool :=
  headFits s port h && shapeOk s (firstLane s port) h.pk.cls && hasCredit s port h

/-- Count a head that finds its gate open but does not fit, once in a window; behind an imposed interval it counts as delayed by that
too, once for each (R213, R215). -/
def noteWait (port : Nat) (s : State) (h : Head) : State :=
  let g := portGroup s port
  let c := h.pk.cls
  if portGated port && gateOpenAt s g c s.clock && !headFits s port h then
    let imposed := imposedStart s port s.clock
    let byImposed := imposed.any (fun i => (listEnd s g c s.clock).all (fun l => decide (i < l)))
    let e := if byImposed then imposed.getD 0 else (listEnd s g c s.clock).getD 0
    let no := ((hwq s (portDune s port) h.q).pkts.head?.map (·.1)).getD 0
    let key := (h.q * 2 ^ 32 + no, e)
    let x := pgOf s g
    if x.fitWaited.contains key then s
    else
      let stands := fun (w : Nat × Nat) => decide (s.clock ≤ w.2) || x.imposed.any (fun i => i.2.1 == w.2 && decide (s.clock < i.2.1 + i.2.2))
      let s1 := setPg s g { x with fitWaited := x.fitWaited.filter stands ++ [key] }
      let s2 := bump64 s1 (Reg.SCH_FIT_WAITS (g / 32) (g % 32)) 1
      if byImposed then schEvent (bump64 s2 (Reg.SCH_IMPOSED_WAITS (g / 32) (g % 32)) 1) (g / 32) F.SCH_EVT_IMPOSED (g % 32)
      else s2
  else s

/-- Whether a BEST head is longer than the longest BEST run of the list in force (R213). -/
def neverFits (s : State) (port : Nat) (h : Head) : Bool :=
  portGated port && match gateList s (portGroup s port) with
  | none => false
  | some k => match longestRun (gOpen 6) (geomEntries (pgOf s (portGroup s port)) k) with
    | none => false
    | some n => decide (n * nsUnit < wireTime (headWire s port h) (portWidth s port))

/-- Discard the BEST heads that can never fit. -/
def dropNofit (port : Nat) : Nat → State → State
  | 0, s => s
  | n + 1, s =>
    match (set0Heads s port 6).find? (neverFits s port) with
    | none => s
    | some h =>
      let g := portGroup s port
      dropNofit port n (bump64 (dequeue s (portDune s port) h.q) (Reg.SCH_NOFIT_DROP (g / 32) (g % 32)) 1)

/-- Priority of a class at a port, its class weight and a queue's weight (Table 9.7). -/
def classPrio (s : State) (lane c : Nat) : Nat := bitsAt (rf s (Reg.SCH_PORT_PRIO (lane / 256) (lane % 256)) F.SCH_PORT_PRIO_PRIO) (3 * c) 3
def classWeight (s : State) (lane c : Nat) : Nat := bitsAt (rf s (Reg.SCH_PORT_CW (lane / 256) (lane % 256)) F.SCH_PORT_CW_CW) (4 * c) 4
def queueWeight (s : State) (d q : Nat) : Nat := rf s (Reg.SCH_QW d q) F.SCH_QW_WEIGHT

/-- The staging queues of a dune that take part in a port's class: those whose first packet names both. -/
def stagingMembers (s : State) (d port c : Nat) : List Nat :=
  (s.swc.queues.filter (fun e => e.1 / 16384 == d && decide (4096 ≤ e.1 % 16384 ∧ e.1 % 16384 < 12288) && memberOf e.2 == some (port, c))).map
    (fun e => e.1 % 16384)

/-- Whether a class has a packet at a port. -/
def classBusy (s : State) (port c : Nat) : Bool :=
  let d := portDune s port
  !(hwq s d (portQ s port 0 c)).pkts.isEmpty || !(hwq s d (portQ s port 1 c)).pkts.isEmpty || !(stagingMembers s d port c).isEmpty

/-- Let the members of a port's arbiters join and leave (R218). -/
def joinPort (s : State) (port : Nat) : State :=
  let lane := firstLane s port
  let d := portDune s port
  (List.range 7).foldl (fun t c =>
    let arb := queueArb lane c
    let known := (t.swc.tags.map (·.1)).filter (fun k => decide (k < 2 ^ 32) && k / 16384 == lane * 16 + c)
    let busy := (if (hwq t d (portQ t port 0 c)).pkts.isEmpty then [] else [portQ t port 0 c]) ++ stagingMembers t d port c
    let gone := known.filter (fun k => !busy.contains (k % 16384))
    let t1 := joinMembers t arb ((busy.map (fun q => (queueTag lane c q, true))) ++ gone.map (fun k => (k, false)))
    joinMembers t1 (classArb lane (classPrio t lane c)) [(classTag lane c, classBusy t port c)]) s

/-- The class that a port serves: the highest priority, then the smallest tag, then the lowest class. -/
def pickClass (s : State) (port : Nat) : Option Nat :=
  let lane := firstLane s port
  let cs := (List.range 7).filter (fun c => (classHeads s port c).any (eligible s port))
  let top := maxNat (cs.map (classPrio s lane))
  (smallestTag s ((cs.filter (fun c => classPrio s lane c == top)).map (fun c => (classTag lane c, c)))).map (·.2)

/-- The head that a class sends: the set-1 head first, then by the queues' tags, then the lowest queue index. -/
def pickHead (s : State) (port c : Nat) : Option Head :=
  match (set1Head s port c).filter (eligible s port) with
  | some h => some h
  | none =>
    let hs := sortBy (·.q) ((set0Heads s port c).filter (eligible s port))
    match smallestTag s (hs.map (fun h => (queueTag (firstLane s port) c h.q, h.q))) with
    | none => none
    | some w => hs.find? (fun h => h.q == w.2)

/-! ## Sending -/

/-- The return that rides on a port's next cell: the lowest class and virtual channel with one pending (R164). -/
def nextReturn (s : State) (port : Nat) : Option CreditRet :=
  (s.swc.returns.find? (fun e => e.1 / 64 == port && decide (0 < e.2))).map (fun e => ⟨e.1 / 4 % 16, e.1 % 4, min 4095 e.2⟩)

/-- Take a return off what is pending. -/
def tookReturn (s : State) (port : Nat) (cr : Option CreditRet) : State :=
  match cr with
  | none => s
  | some c => setReturns s port c.cls c.vc (returnsPending s port c.cls c.vc - c.cells)

/-- Count what a port has sent into the frame that is open on its link (R369): cells, or frame bytes in Ethernet mode. -/
def txNote (s : State) (port n : Nat) : State :=
  let x := linkOf s port
  setLink s port { x with txCells := x.txCells + n }

/-- Count a packet for the utilisation of its direction, and sample its target one time in 64 (R178, R179). -/
def countSent (s : State) (port : Nat) (k : SwPkt) : State :=
  match portDir s port with
  | none => s
  | some dir =>
    let n := SMap.get (fun _ => 0) s.rte.sampleCnt dir + 1
    let rte := { s.rte with sentCells := SMap.upd 0 s.rte.sentCells dir (· + linkCells k), sampleCnt := SMap.put (fun _ => 0) s.rte.sampleCnt dir (n % 64) }
    match (if n = 64 then k.target else none) with
    | none => { s with rte := rte }
    | some t => { s with rte := { rte with hot := SMap.upd [] rte.hot dir (· ++ [t]) } }

/-- ECN of a packet dequeued from a set-0 queue above the threshold (R176). -/
def ecnMark (s : State) (d port : Nat) (h : Head) (c : Cfh) : Cfh :=
  if (c.ecn == 1 || c.ecn == 2) && !h.set1 && decide (rf s Reg.RTE_THROTTLE F.RTE_THROTTLE_TH_ECN * portWidth s port < qOcc (hwq s d h.q)) then
    { c with ecn := 3 }
  else c

/-- The 16 bytes of a link cell header (Table 7.2); CREDIT_VALID and the return only in the first cell of a packet that carries one. -/
def linkHdrBytes (h : LinkHdr) (first last : Bool) (cr : Option CreditRet) : List Byte :=
  let cred := match cr with
    | none => 0
    | some c => 2 ^ 31 + c.cls * 2 ^ 28 + c.vc * 2 ^ 26 + c.cells
  natBe 1 (h.vc * 64 + h.cls * 8 + b2n first * 4 + b2n last * 2 + b2n h.wadiSel)
  ++ natBe 1 (h.misroute * 64 + b2n h.start * 32 + h.gen * 8 + h.originDune)
  ++ natBe 3 (coordOf h.originX h.originY h.originZ) ++ natBe 2 h.ctx ++ natBe 1 0 ++ natBe 4 cred ++ natBe 4 0

/-- A packet's cells in clear as they cross a fabric link: a 16-byte header before each 256 bytes, the last filled with zeros (R164,
R206). -/
def cellBytes (o : SwPkt) (cr : Option CreditRet) : List Byte :=
  let b := pktBytes none o.cfh o.payload
  let n := (b.length + 255) / 256
  (List.range n).flatMap (fun i =>
    let c := (b.drop (256 * i)).take 256
    linkHdrBytes o.link (i == 0) (i + 1 == n) (if i = 0 then cr else none) ++ c ++ List.replicate (256 - c.length) 0)

/-- Bytes as they cross a link: AES-256-GCM under the keys of its epoch (R36, R369), of which the model knows the length. -/
def linkCipher (s : State) (port : Nat) (b : List Byte) : List Byte :=
  let x := linkOf s port
  (List.range b.length).map (fun i => Config.linkByte x.nonce x.txEpoch x.txFrame x.txCells b i)

/-- What of a packet crosses the link: its cells, or its frame, encrypted. -/
def wireForm (s : State) (port : Nat) (o : SwPkt) (cr : Option CreditRet) : List Byte :=
  linkCipher s port (if portEth s port then pktBytes o.eth o.cfh o.payload else cellBytes o cr)

/-- Start a packet on a port (R127, R129, R164, R176, R217). -/
def sendPkt (s : State) (port : Nat) (h : Head) : State :=
  let d := portDune s port
  let k := { h.pk with cfh := h.pk.cfh.map (ecnMark s d port h) }
  let o := outForm s port h.vc k
  let n := linkCells k
  let s1 := monitorPkt (dequeue s d h.q) d h.q k.scope k.cfh k.payload
  let s2 := if portEth s port || k.cls == 6 then s1 else setCredHeld s1 port k.cls h.vc (credHeld s1 port k.cls h.vc - n)
  let s3 := mirrorAll (shapeTake s2 (firstLane s port) k.cls (pktWire s port o)) d 1 port k.scope o.eth o.cfh o.payload (mirSessions s2 d 1 port)
  let cr := if portEth s port then none else nextReturn s3 port
  let s4 := countSent (txNote (tookReturn s3 port cr) port (if portEth s port then pktWire s port o - 20 else n)) port k
  let sending := SMap.ins s4.sch.sending port (k.cls, s4.clock + wireTime (pktWire s port o) (portWidth s port))
  let s5 := emit { s4 with sch := { s4.sch with sending := sending } } (.packet port o cr (wireForm s port o cr))
  fnProgress (if portEth s5 k.inPort then s5 else grantPort s5 k.inPort)

/-- Whether the packet that a port sends has ended: a frame boundary (R205). -/
def portFree (s : State) (port : Nat) : Bool :=
  match SMap.find s.sch.sending port with
  | none => true
  | some x => decide (x.2 ≤ s.clock)

/-- Whether a port may start anything now: at a frame boundary, outside guard windows, which close every gate (R214). -/
def portMaySend (s : State) (port : Nat) : Bool := linkCarries s port && portFree s port && !portGuard s port s.clock

end Sys2Proof.Machine
end

