-- ==== Sys2Proof/Machine/Fabric.lean ====
section
/-! DEFINITION. The switch core's and the links' commands: arrivals, admission, refills, transmission, credits, and the switch
registers with an effect (spec/05, spec/06, spec/07, spec/09). -/
namespace Sys2Proof.Machine

/-! ## Arrivals -/

/-- A packet as it stands at its ingress, before its lookup. -/
def arrival (s : State) (p lane vc : Nat) (h : LinkHdr) (eth : Option EthFrame) (cfh : Option Cfh) (payload : List Byte)
    (cells cls colour : Nat) : SwPkt where
  eth := eth
  cfh := cfh
  payload := payload
  cells := cells
  cls := cls
  colour := colour
  scope := portScope s p
  inPort := p
  inLane := lane
  inVc := vc
  outPort := 0
  staging := none
  vcSet := 0
  link := h
  nh := none
  target := none
  inOasis := none

/-- A packet of `n` cells of which some come without a credit for their class and virtual channel: those are counted, the others take
the credits that are left, and the packet, not whole any more, is discarded (R116; log 207). -/
def noCredit (s : State) (p cls vc n : Nat) : State :=
  let had := granted s p cls vc
  let s1 := bump64 (setGranted s p cls vc 0) (Reg.SWC_LL_NO_CREDIT (portDune s p)) (n - had)
  leftSlice (swcEvent s1 (portDune s p) F.SWC_EVT_LL_NO_CREDIT (portScope s p) 0xFFFF) p cls vc had

/-- A fabric packet whose link header and credits hold: its frame note, then its lookup. A packet that does not enter the mesh
leaves its landing room at once. -/
def fabricAccept (s : State) (p lane : Nat) (h : LinkHdr) (c : Cfh) (payload : List Byte) (err : Option ScrubErr) : State :=
  let s1 := lookupErr (rxNote s p h.cls c.group c.step) (portDune s p) err
  let k := arrival s p lane h.vc h none (some c) payload (fabricCells payload.length) h.cls c.colour
  let s2 := fabricLookup s1 (portDune s p) p k c
  if s2.swc.mesh.length ≤ s1.swc.mesh.length then leftSlice s2 p h.cls h.vc k.cells else s2

/-- FABRIC_PACKET_INGRESS (R113, R116, R134, R158 to R172). A packet of class 7 has a bad link header, whichever class that names, and
counts both there and, as R134 says, in FWD_BAD_VER or SWC_CLASS7_DROP. -/
def execFabricPacketIngress (port : Fin 4096) (a : Arrival) (h : LinkHdr) (cr : Option CreditRet) (c : Cfh) (payload : List Byte)
    (s : State) : Host.Outcome State Fault Refusal :=
  let p := port.val
  .next (match laneOfPort s p a.lane.val with
    | none => s
    | some lane =>
      if !linkCarries s p ∨ portEth s p then s
      else if h.cls = 7 ∨ !vcPermitted h.vc h.cls ∨ h.cls ≠ c.cls then
        (let s1 := linkHdrErr s (portDune s p) p
        if c.cls ≠ 7 then s1
        else if 2 ≤ c.ver then bump64 s1 (Reg.FWD_BAD_VER (portDune s p)) 1
        else bump64 s1 (Reg.SWC_CLASS7_DROP (portDune s p)) 1)
      else
        let s1 := match cr with
          | none => s
          | some r => takeReturn s p r
        let s2 := if h.wadiSel then wadiSelSeen s1 p else s1
        let n := fabricCells payload.length
        if c.cls < 6 ∧ granted s2 p c.cls h.vc < n then noCredit s2 p c.cls h.vc n
        else
          let s3 := if c.cls < 6 then setGranted s2 p c.cls h.vc (granted s2 p c.cls h.vc - n) else s2
          if 8192 < c.len ∨ c.len ≠ payload.length then leftSlice (rxError s3 p) p h.cls h.vc n
          else fabricAccept s3 p lane h c payload a.err)

/-- A frame punted for its destination or its TTL: a management packet of class 6 has no class yet (log 39). -/
def ethPunt (s : State) (d reason : Nat) (k : SwPkt) : State := punt s d (puntOf s reason k)

/-- A frame's class once its lookup has answered: the result's ETH_CLASS, or 6 on a miss (R135). -/
def ethClass (f : Found) : Nat := match f with
  | .hit r _ => min 6 (resEthClass r)
  | _ => 6

/-- Look a frame up and act on what is found. -/
def ethFound (s : State) (d : Nat) (k : SwPkt) (f : Found) : State :=
  onFound s d { k with cls := ethClass f, link := { k.link with cls := ethClass f } } f
    (pktBytes k.eth k.cfh k.payload).length

/-- A frame without a fabric header: punted, routed or bridged (R135, R136). -/
def ethPlain (s : State) (d p : Nat) (f : EthFrame) (k : SwPkt) : State :=
  if bitAt f.dst 40 then ethPunt s d 4 k
  else if f.dst = routerMac s k.scope ∧ (f.etype = 0x0800 ∨ f.etype = 0x86DD) then
    let v6 := f.etype == 0x86DD
    if !v6 && !ipv4Ok f.body then bump64 s (Reg.FWD_IP_HDR_ERR d) 1
    else if (if v6 then beAt f.body 7 1 else beAt f.body 8 1) ≤ 1 then ethPunt s d 5 k
    else ethFound s d k (probeRoute s d k.scope v6 (if v6 then beAt f.body 24 16 else beAt f.body 16 4))
  else ethFound s d k (probe s d (macKey (hallPart s (portScope s p)) (frameVid f) f.dst))

/-- ETHERNET_FRAME_INGRESS (R108, R135 to R138, R152). -/
def execEthernetFrameIngress (port : Fin 4096) (a : Arrival) (f : EthFrame) (s : State) :
    Host.Outcome State Fault Refusal :=
  let p := port.val
  let d := portDune s p
  .next (match laneOfPort s p a.lane.val with
    | none => s
    | some lane =>
      if !linkCarries s p ∨ !portEth s p then s
      else if 9216 < frameLen f then rxError s p
      else match parseFrame f with
      | none => bump64 s (Reg.FWD_ETH_PARSE d) 1
      | some f =>
        let s0 := if rb s Reg.FWD_CFG F.FWD_CFG_LEARN_MAC && portRole s p == 0 then
            learnSeen s d (portScope s p) (macKey (hallPart s (portScope s p)) (frameVid f) f.src) p
          else s
        let n := frameCells (frameLen f)
        if f.etype = rf s Reg.FWD_ETH_CFG F.FWD_ETH_CFG_CFH_ETYPE then
          let c := cfhParse f.body
          let pl := f.body.drop 48
          if f.body.length < 48 ∨ 8192 < c.len ∨ c.len ≠ pl.length then rxError s p
          else
            fabricLookup (lookupErr s0 d a.err) d p (arrival s p lane 0 { LinkHdr.none_ with cls := c.cls } (some { f with body := [] }) (some c) pl n c.cls c.colour) c
        else
          let k := arrival s p lane 0 { LinkHdr.none_ with cls := 6 } (some f) none [] n 6 0
          let s1 := mirrorAll s0 d 0 p k.scope k.eth none [] (mirSessions s0 d 0 p)
          ethPlain (lookupErr s1 d a.err) d p f k)

/-! ## Admission and refills -/

/-- The account in which the mesh keeps a waiting packet's credits: landing rooms have one for each class (R169), all else goes in
order. -/
def meshAccount (k : SwPkt) : Nat := if k.inVc = 0 then 0 else 1 + k.cls

/-- The packets from an ingress lane that stand at the heads of its accounts towards an output dune (R109, R169). -/
def laneHeads (s : State) (d lane : Nat) : List SwPkt :=
  let mine := s.swc.mesh.filter (fun k => k.inLane == lane && portDune s k.outPort == d)
  (List.range 8).filterMap (fun a => mine.find? (fun k => meshAccount k == a))

/-- The packet of a lane that its output dune admits next: the first head that need not wait. -/
def nextAdmit (s : State) (d lane : Nat) : Option (SwPkt × State) :=
  (laneHeads s d lane).findSome? (fun k => (admitPkt s d k).map (fun t => (k, t)))

/-- Whether a lower lane has a packet for the same pool that could be admitted now: it is decided first (R118). -/
def lowerLane (s : State) (d lane : Nat) (k : SwPkt) : Bool :=
  ((s.swc.mesh.filter (fun x => decide (x.inLane < lane) && portDune s x.outPort == d && x.scope == k.scope && x.cls == k.cls)).map (·.inLane)).dedup.any
    (fun l => (nextAdmit s d l).any (fun e => e.1.scope == k.scope && e.1.cls == k.cls))

/-- PACKET_ADMIT (R118, R119, R169, R173): the oldest packet that waits for its output dune from one ingress lane, once no lower lane
has one for the same pool. -/
def execPacketAdmit (out : Fin 8) (lane : Fin 2048) (s : State) : Host.Outcome State Fault Refusal :=
  .next (match nextAdmit s out.val lane.val with
    | none => s
    | some (k, s1) =>
      if lowerLane s out.val lane.val k then s
      else
        let s2 := { s1 with swc := { s1.swc with mesh := dropFirst (fun x => x == k) s1.swc.mesh } }
        fnProgress (if k.eth.isSome then s2 else leftSlice s2 k.inPort k.cls k.inVc k.cells))

/-- A queue whose page came back with an uncorrectable error: the packets of its cells are poisoned (R128, R353). -/
def poisonPage (x : HwQueue) (cells : List Nat) : HwQueue :=
  { x with pkts := x.pkts.map (fun e =>
      if cells.contains e.1 then (e.1, { e.2 with cfh := e.2.cfh.map (fun c => { c with poison := true }) }) else e) }

/-- SPILL_REFILL_ARRIVE (R127, R128): the oldest requested page joins the head, and the tail behind the last page with it (Table 5.4). -/
def execSpillRefillArrive (d : Fin 8) (q : Fin 16384) (bad : Bool) (s : State) : Host.Outcome State Fault Refusal :=
  let x := hwq s d.val q.val
  .next (match x.pages, x.pkts with
    | pg :: rest, (_, k) :: _ =>
      if !pg.requested ∨ !duneUp s d.val then s
      else
        let x0 := { x with head := x.head ++ pg.cells, pages := rest }
        let x1 := if rest.isEmpty then tailToHead x0 else x0
        let s1 := setHwq s d.val q.val (if bad then poisonPage x1 pg.cells else x1)
        let s2 := chargePkt (setPagesUsed s1 d.val k.scope (pagesUsed s1 d.val k.scope - 1)) d.val k.scope k.cls pg.cells.length
        let s3 := bump64 s2 (Reg.SWC_SPILL_IN d.val) 1
        let s4 := if x.head.isEmpty then bump64 s3 (Reg.SWC_SPILL_STARVE d.val) 1 else s3
        let s5 := if bad then fsrStore s4 7 [0, d.val] [(4, pg.stack), (6, q.val)] [] k.scope [] [] else s4
        spillMark d.val (writePages d.val q.val k.scope k.cls 64 (askPages d.val q.val 4096 (joinTail s5 d.val q.val))) q.val
    | _, _ => s)

/-! ## Transmission and credits -/

/-- Serve a head that fair queuing chose: its queue's tag, its class's tag, then the packet (R218). -/
def serveHead (s : State) (port c : Nat) (h : Head) : State :=
  let lane := firstLane s port
  let b := pktWire s port (outForm s port h.vc h.pk)
  let s1 := if h.set1 then s
    else serveMember s (queueArb lane c) (queueTag lane c h.q) b (queueWeight s (portDune s port) h.q)
  sendPkt (serveMember s1 (classArb lane (classPrio s lane c)) (classTag lane c) b (classWeight s lane c)) port h

/-- PORT_TRANSMIT_SELECT (R205, R213 to R218). -/
def execPortTransmitSelect (port : Fin 4096) (s : State) : Host.Outcome State Fault Refusal :=
  let p := port.val
  .next (if (portRec s p).isNone ∨ !portMaySend s p then s
    else
      let s1 := shapeAll (joinPort (dropNofit p 4096 s) p) (firstLane s p)
      let s2 := ((List.range 7).map (classHeads s1 p)).flatten.foldl (noteWait p) s1
      match (pickClass s2 p).bind (fun c => (pickHead s2 p c).map (fun h => (c, h))) with
      | none => s2
      | some (c, h) =>
        let s3 := serveHead s2 p c h
        let s4 := if 2 ≤ h.vc then bump64 s3 (Reg.RTE_WADI_PKTS (portDune s p)) 1 else s3
        joinPort s4 p)

/-- CREDIT_RETURN_RX (R164): a return on a cell whose header holds. -/
def execCreditReturnRx (port : Fin 4096) (h : LinkHdr) (cr : CreditRet) (s : State) : Host.Outcome State Fault Refusal :=
  let p := port.val
  .next (if !linkCarries s p ∨ portEth s p then s
    else if h.cls = 7 ∨ !vcPermitted h.vc h.cls then linkHdrErr s (portDune s p) p
    else takeReturn (if h.wadiSel then wadiSelSeen s p else s) p cr)

/-- CREDIT_ONLY_CELL_SEND (R164): a pending return leaves on a cell of its own. -/
def execCreditOnlyCellSend (port : Fin 4096) (s : State) : Host.Outcome State Fault Refusal :=
  let p := port.val
  .next (if portEth s p ∨ !portMaySend s p then s
    else match nextReturn s p with
      | none => s
      | some cr =>
        let h : LinkHdr := { LinkHdr.none_ with cls := cr.cls, wadiSel := sendsSel s p }
        let wire := linkCipher s p (linkHdrBytes h true true (some cr))
        fnProgress (emit (txNote (tookReturn s p (some cr)) p 1) (.creditCell p h cr wire)))

/-! ## Switch registers with an effect -/

/-- PACE_LOW (R110, R245): fewer than 500 accesses per µs of a bank; or a ripple's pace, which is low under 1,300 handshakes per µs
(log 218). -/
def execPaceLow (m : PaceReading) (s : State) : Host.Outcome State Fault Refusal :=
  .next (match m with
    | .bank d n => if duneUp s d && decide (n.toNat < 500) then swcEvent s d F.SWC_EVT_PACE_LOW 0xFF 0xFFFF else s
    | .ripple d r pace =>
      if !duneUp s d then s else
      let low := decide (pace.toNat < 1300)
      let s1 := wfs s (Reg.BRC_PACE d r) [(F.BRC_PACE_PACE, pace.toNat), (F.BRC_PACE_LOW, b2n low)]
      if low then brcEvent s1 d F.BRC_EVT_PACE_LOW (natBe 1 (partOfRipple s (d * 32 + r)) ++ natBe 2 0xFFFF) else s1)

/-- POOL_MAX_WRITE (R114, R115): refused where the eight pools of the scope would exceed its quota in the dune. -/
def execPoolMaxWrite (d : Fin 8) (p : Fin 16) (c : Fin 8) (v : Word) (s : State) : Host.Outcome State Fault Refusal :=
  .next (if !winOk s d.val ∨ (scopeOf s p.val).isNone then s
    else if held s then heldWrite s (Reg.SWC_POOL_MAX d.val p.val c.val) v
    else
      let n := getF v F.SWC_POOL_MAX_MAX
      let others := sumNat (((List.range 8).filter (· != c.val)).map (fun i => poolMax s d.val p.val i))
      if scopeQuota s d.val p.val < others + n then swcEvent s d.val F.SWC_EVT_POOL_CFG_ERR p.val 0xFFFF
      else checkBudget (showPools (softWrite s (Reg.SWC_POOL_MAX d.val p.val c.val) v) p.val c.val) d.val p.val 0xFF 0xFFFF)

/-- POLICER_ENABLE (R122): a write of policer word 0 with EN 1 fills both buckets. -/
def execPolicerEnable (d : Fin 8) (i : Fin 8192) (v : Word) (s : State) : Host.Outcome State Fault Refusal :=
  let a := Reg.SWC_POL0 d.val i.val
  .next (if !winOk s d.val then s
    else if held s then heldWrite s a v
    else
      let s1 := softWrite s a v
      if wbit v 31 then { s1 with swc := { s1.swc with policers := SMap.ins s1.swc.policers (d.val * 8192 + i.val) (polFull s1 d.val i.val) } }
      else s1)

/-- The scope of a mirror session's source; a flow session has none of its own. -/
def mirSource (s : State) (d m : Nat) : Option Nat :=
  if 2 ≤ rf s (Reg.SWC_MIR0 d m) F.SWC_MIR0_SRC_KIND then none
  else some (portScope s (rf s (Reg.SWC_MIR0 d m) F.SWC_MIR0_SRC_PORT))

/-- The scope of a mirror session's destination. -/
def mirDest (s : State) (d m : Nat) : Nat :=
  let dest := rf s (Reg.SWC_MIR1 d m) F.SWC_MIR1_DEST
  if rb s (Reg.SWC_MIR0 d m) F.SWC_MIR0_TO_FIFO then cqScope s d dest else portScope s dest

/-- MIRROR_SESSION_ENABLE (R131): a session whose destination lies in another scope than its source is refused. -/
def execMirrorSessionEnable (d : Fin 8) (m : Fin 64) (v : Word) (s : State) : Host.Outcome State Fault Refusal :=
  let a := Reg.SWC_MIR0 d.val m.val
  .next (if !winOk s d.val then s
    else if held s then heldWrite s a v
    else
      let s1 := softWrite s a v
      if wbit v 31 && (mirSource s1 d.val m.val).any (· != mirDest s1 d.val m.val) then
        swcEvent (wf s1 a F.SWC_MIR0_EN 0) d.val F.SWC_EVT_MIRROR_CFG_ERR ((mirSource s1 d.val m.val).getD 0xFF) 0xFFFF
      else s1)

/-! ## Punts -/

/-- SNAP of a dune's punt engine: 0 acts as 1. -/
def puntSnap (s : State) (d : Nat) : Nat := max 1 (rf s (Reg.FWD_PUNT_CFG d) F.FWD_PUNT_CFG_SNAP)

/-- The payload of a punted packet in the FIFO: a 16-byte head and the packet's first bytes (R139). -/
def puntPayload (s : State) (d : Nat) (p : PuntPkt) : List Byte :=
  natBe 1 p.reason ++ natBe 1 p.cls ++ natBe 2 p.port ++ natBe 4 p.len ++ natBe 4 p.sec ++ natBe 4 p.ns ++ p.bytes.take (puntSnap s d * 64)

/-- A punted packet waits in a FIFO's staging buffer: it keeps its cells. -/
def keepPunt (s : State) (d n : Nat) (p : PuntPkt) : State :=
  let key := d * 2048 + n
  { s with swc := { s.swc with puntStaged := SMap.put (fun _ => []) s.swc.puntStaged key (SMap.get (fun _ => []) s.swc.puntStaged key ++ [p]) } }

/-- PUNT_DELIVER (R139): the oldest punted packet goes to the punt FIFO, or is dropped; its cells are freed once it has been written.
TRUNC is a mirror copy's alone (R104). -/
def execPuntDeliver (d : Fin 8) (s : State) : Host.Outcome State Fault Refusal :=
  .next (match puntQueue s d.val with
    | [] => s
    | p :: rest =>
      if !duneUp s d.val then s
      else
        let s0 := setPunt s d.val rest
        let freed := fun (t : State) => dischargePkt t d.val p.scope p.cls p.cells
        let cnq := rf s (Reg.FWD_PUNT_CFG d.val) F.FWD_PUNT_CFG_CNQ
        if !rb s (Reg.FWD_PUNT_CFG d.val) F.FWD_PUNT_CFG_EN then puntDrop (freed s0) d.val
        else
          let r := fifoPut s0 d.val cnq ⟨0x11, false, puntPayload s d.val p⟩
          if r.2 = .dropped then puntDrop (freed r.1) d.val
          else if r.2 = .staged then keepPunt r.1 d.val cnq p
          else freed r.1)

end Sys2Proof.Machine
end

