-- ==== Sys2Proof/Machine/Forward.lean ====
section
/-! DEFINITION. The commands of the forwarding tables: the update window, learning, replicas, scrubbing, rebuilds, refreshes
(spec/06: R142 to R157). -/
namespace Sys2Proof.Machine

/-! ## Update window (R147, R150, R154, Table 6.9) -/

/-- The record of the update window. -/
def windowRec (s : State) : TblRec := recOf (((List.range 12).map (fun i => natBe 4 (rn s (Reg.FWD_UPD_DATA i)))).flatten)

/-- The shadow copy that the record of the update window is for; none where its scope is not defined. -/
def windowZone (s : State) : Option Nat := (scopeByHall s (recPart (windowRec s))).map (fun sc => zoneOf s sc.num)

/-- Set RESULT of the update window. -/
def setUpdResult (s : State) (c : Nat) : State := wf s Reg.FWD_UPD_CTRL F.FWD_UPD_CTRL_RESULT c

/-- FWD_UPDATE_GO: a write of FWD_UPD_CTRL with GO. -/
def execFwdUpdateGo (v : Word) (s : State) : Host.Outcome State Fault Refusal :=
  .next (if !s.plat.running ∨ (dunesUp s).isEmpty ∨ !wbit v 31 then s
    else if held s then setUpdResult (heldRefuse s Reg.FWD_UPD_CTRL) 0x08
    else if (windowZone s).any (fun z => (shadowOf s z).lost) then setUpdResult s 0x09
    else
      let r := windowRec s
      let a := applyRecord s .window r
      let s1 := setUpdResult a.1 a.2
      if a.2 ≤ 1 ∧ r.relay then relayRec s1 (((scopeByHall s (recPart r)).map (·.num)).getD 0) none r else s1)

/-! ## Replicas (R143, R148) -/

/-- Stash entries of a dune's replica. -/
def stashOcc (s : State) (d : Nat) : Nat := rf s (Reg.FWD_STATUS d) F.FWD_STATUS_STASH_OCC

/-- REPLICA_APPLY: a dune applies the next change of its queue. With the end of a replay the dune's preloads count as activated
(R149). -/
def execReplicaApply (d : Fin 8) (s : State) : Host.Outcome State Fault Refusal :=
  .next (match changeQueue s d.val with
    | [] => s
    | c :: rest =>
      if !duneUp s d.val then s
      else
        let s1 := applyChange { s with fwd := { s.fwd with queues := SMap.ins s.fwd.queues d.val rest } } d.val c
        let s2 := if 896 ≤ stashOcc s1 d.val then fwdEvent s1 d.val F.FWD_EVT_STASH_HIGH 1 0 else s1
        if c.writes.any isFill then settle s (checkLoaded (showSections s2)) else s2)

/-! ## Learning messages (R151 to R155) -/

/-- The record as this spine stores it: on a torus with DIMS 0 a remote result becomes the port of arrival (R152). -/
def storedRec (s : State) (port : Nat) (r : TblRec) : TblRec :=
  if torusDims s = 0 ∧ resAction r.result = 1 then { r with result := r.result % 2 ^ 60 - resTarget r.result + port } else r

/-- Whether a record names a key that a refresh waits for (R157). -/
def refreshKey (r : TblRec) (k : Nat × Nat × Nat) : Bool :=
  k.1 == r.table && k.2.1 == r.key && k.2.2 == r.plen

/-- A key's scope. -/
def keyScope (s : State) (k : Nat × Nat × Nat) : Nat :=
  ((scopeByHall s (if k.1 = 0 then keyPart k.2.1 else keyFieldPart k.2.1)).map (·.num)).getD 0

/-- Whether a route is the one under a key field and prefix length. -/
def routeIs (k : Nat × Nat × Nat) (x : Route) : Bool := routeKeyField x.part x.v6 x.bits == k.2.1 && x.plen == k.2.2

/-- Remove a key from the shadow and from every replica, through the sequencer. -/
def forgetKey (s : State) (k : Nat × Nat × Nat) : State :=
  match s.img.cfg.scopes.find? (fun x => x.num == keyScope s k) with
  | none => s
  | some sc =>
    if k.1 = 0 then
      match emFind (shadowTabs s sc.num).em k.2.1 with
      | none => s
      | some i => update s sc.num [.clear i]
    else ((shadowTabs s sc.num).routes.filter (routeIs k)).foldl (fun t x => dropRoute t sc x) s

/-- The trie words of a stage that a mark's address reads in the shadow copy: the root entry, or the node word with its slots. -/
def trieWords (t : Tables) (sc : Nat) (m : Mark) : List SlotWrite :=
  let st := m.table - 0x10
  let a := trieAddr (keyFieldV6 m.key) (keyFieldAddr m.key)
  if st = 0 then [.root (sc * 65536 + trieIndex a 0) (rootSlot t sc (trieIndex a 0))]
  else match (pathNode t sc a st).bind (fun i => (SMap.find t.nodes (st * 65536 + i)).map (fun n => (i, n))) with
    | none => []
    | some (i, n) =>
      .node (st * 65536 + i) n :: (List.range (runsUpTo n.runMap 255)).map (fun j =>
        .slot (st * 1048576 + n.base.toNat + j) ((SMap.find t.slots (st * 1048576 + n.base.toNat + j)).getD TrieSlot.empty))

/-- The writes of a rebuild: the shadow's content of a word, and its mark's end (R156). -/
def rebuildWrites (t : Tables) (sc : Nat) (m : Mark) : List SlotWrite :=
  (if m.table < 0x10 then
    match SMap.find t.em m.word with
    | none => [.clear m.word]
    | some e => [.em m.word e]
  else if m.table < 0x20 then trieWords t sc m
  else match SMap.find t.nhs m.word with
    | none => [.nhClear m.word]
    | some n => [.nh m.word n]) ++ [.unmark m.table m.word]

/-- Sequence the rebuild of a mark's word, as a write to its dune only (R156). -/
def rebuild (s : State) (m : Mark) : State :=
  let z := duneZone s m.dune
  sequence s z [m.dune] (rebuildWrites (shadowOf s z).tables (markScope s m) m) false

/-- The mark that a refresh is about. -/
def refreshMark (s : State) (x : Refresh) : Option Mark :=
  s.fwd.marks.find? (fun m => m.dune == x.dune && m.table == x.table && m.word == x.word)

/-- A refresh that has every answer ends with the rebuild of its word. -/
def endRefresh (s : State) (x : Refresh) : State :=
  match refreshMark s x with
  | none => s
  | some m => rebuild s m

/-- A refresh's answer has been applied: its key is no longer awaited. -/
def answered (s : State) (r : TblRec) : State :=
  let l := s.fwd.refresh.map (fun x => { x with keys := x.keys.filter (fun k => !refreshKey r k) })
  (l.filter (fun x => x.keys.isEmpty)).foldl endRefresh { s with fwd := { s.fwd with refresh := l.filter (fun x => !x.keys.isEmpty) } }

/-- Apply one learning record (R153, R154): dropped in HELD and while there is no shadow. -/
def learnOne (port : Nat) (s : State) (r : TblRec) : State :=
  let d := portDune s port
  let part := portScope s port
  if held s ∨ (shadowOf s (zoneOf s part)).lost then learnDrop s d
  else if recPart r ≠ hallPart s part then s
  else
    let awaited := s.fwd.refresh.any (fun x => x.keys.any (refreshKey r))
    let take := r.op == 1 && recOk r && !r.isStatic
    let s1 := if awaited && take then forgetKey s (r.table, r.key, r.plen) else s
    let a := applyRecord s1 .learn (storedRec s port r)
    if a.2 ≤ 1 then relayRec (if awaited then answered a.1 r else a.1) part (some port) r else a.1

/-- Whether a message on a port is for this module: attested link, its own HALL_PART, a valid version, no expelled source. -/
def mgtAccepted (s : State) (p : Nat) (c : Cfh) : Bool :=
  linkCarries s p && !portEth s p && decide (c.ver < 2) && c.cls == 0 && c.part == hallPart s (portScope s p) && !endpointExpelled s c.part c.src

/-- Whether a port leads to a neighbour: ROLE 01h or 02h. -/
def neighbourRole (s : State) (p : Nat) : Bool := portRole s p == 1 || portRole s p == 2

/-- LEARNING_MESSAGE (R151 to R155): every record but a refresh request, which is a command of its own (log 25). -/
def execLearningMessage (port : Fin 4096) (c : Cfh) (payload : List Byte) (s : State) : Host.Outcome State Fault Refusal :=
  let p := port.val
  let n := beAt payload 1 1
  .next (if !mgtAccepted s p c ∨ !neighbourRole s p ∨ c.dst ≠ 0xFFFFFE then s
    else if beAt payload 0 1 ≠ 1 ∨ n = 0 ∨ 21 < n ∨ payload.length ≠ 8 + 48 * n then s
    else
      let l := (((List.range n).map (fun i => recOf ((payload.drop (8 + 48 * i)).take 48)))).filter (fun r => r.op != 3)
      l.foldl (learnOne p) (bump64 s (Reg.FWD_LEARN_RX (portDune s p)) l.length))

/-! ## Scrubbing and rebuilds (R156) -/

/-- Tombstones one scrub pass older. -/
def ageTombs (t : Tables) : Tables := { t with em := t.em.map (fun e => if e.2.tomb then (e.1, { e.2 with age := min 1023 (e.2.age + 1) }) else e) }

/-- The tombstones of a shadow copy that the sequencer clears: TOMB_AGE has reached the dune's TOMB_PASSES (R143). -/
def deadTombs (s : State) (z d : Nat) : List (Nat × EmEntry) :=
  (shadowOf s z).tables.em.filter (fun e => e.2.tomb && decide (max 1 (rf s (Reg.FWD_SCRUB d) F.FWD_SCRUB_TOMB_PASSES) ≤ e.2.age))

/-- The sequencer clears a tombstone's slot, unless something else sits there by now (R143). -/
def clearTomb (s : State) (e : Nat × EmEntry) : State :=
  let part := keyScope s (0, e.2.key, 0)
  match emFind (shadowTabs s part).em e.2.key with
  | none => s
  | some i => update s part [.clear i]

/-- SCRUB_PASS: one full pass of a dune. The lowest dune in UP of a shadow copy ages that copy too, by which the sequencer
clears (log 44). -/
def execScrubPass (d : Fin 8) (errs : List ScrubErr) (s : State) : Host.Outcome State Fault Refusal :=
  .next (if !duneUp s d.val then s
    else
      let s1 := errs.foldl (scrubOne d.val) s
      let s2 := { s1 with fwd := { s1.fwd with replicas := SMap.ins s1.fwd.replicas d.val (ageTombs (replica s1 d.val)) } }
      let z := duneZone s2 d.val
      let x := shadowOf s2 z
      if zoneDune s2 z ≠ some d.val ∨ x.lost then s2
      else
        let s3 := setShadow s2 z { x with tables := ageTombs x.tables }
        if held s3 then s3 else (deadTombs s3 z d.val).foldl clearTomb s3)

/-- Whether a mark's rebuild is on its way already: sequenced, or waiting for a refresh. -/
def markBusy (s : State) (m : Mark) : Bool :=
  s.fwd.refresh.any (fun x => x.dune == m.dune && x.table == m.table && x.word == m.word)
  || (changeQueue s m.dune).any (fun c => c.writes.contains (.unmark m.table m.word))

/-- The keys that a marked word is of: an entry, the routes of a stage that its addresses meet, or the routes that use a next hop. -/
def markKeys (t : Tables) (m : Mark) : List (Nat × Nat × Nat) :=
  if m.table < 0x10 then
    match SMap.find t.em m.word with
    | none => []
    | some e => [(0, e.key, 0)]
  else
    (t.routes.filter (fun x => !x.tomb &&
      (if m.table < 0x20 then
        let w := min m.plen x.plen
        routeStage x.plen == m.table - 0x10 && x.part == keyFieldPart m.key && x.v6 == keyFieldV6 m.key
          && topBits x.v6 x.bits w == topBits x.v6 (keyFieldAddr m.key) w
      else x.nh == m.word))).map (fun x => (1, routeKeyField x.part x.v6 x.bits, x.plen))

/-- The refresh request for a key (Table 6.6): OP 03h and the key. -/
def refreshReq (k : Nat × Nat × Nat) (owner : Nat) : TblRec where
  op := 3
  table := k.1
  plen := k.2.2
  isStatic := false
  relay := false
  flagsRest := 0
  owner := owner
  version := 0
  key := k.2.1
  keyTail := 0
  result := 0
  nhMac := 0
  nhVid := 0
  vidRest := 0
  rest := 0

/-- Ask the neighbours for the keys of a mark. -/
def startRefresh (s : State) (m : Mark) : State :=
  let ks := markKeys (shadowOf s (duneZone s m.dune)).tables m
  let s1 := { s with fwd := { s.fwd with refresh := s.fwd.refresh ++ [⟨m.dune, m.table, m.word, ks, s.clock + 10000000 * nsUnit⟩] } }
  ks.foldl (fun t k => relayRec t (keyScope t k) none (refreshReq k (ownerId t (keyScope t k)))) s1

/-- TABLE_REBUILD: the oldest mark of a dune; a bad shadow word asks the neighbours instead (R156, R157). -/
def execTableRebuild (d : Fin 8) (shadowBad : Bool) (s : State) : Host.Outcome State Fault Refusal :=
  .next (match s.fwd.marks.find? (fun m => m.dune == d.val && !markBusy s m) with
    | none => s
    | some m =>
      if !duneUp s d.val ∨ held s ∨ (shadowOf s (duneZone s m.dune)).lost then s
      else if shadowBad && !(markKeys (shadowOf s (duneZone s m.dune)).tables m).isEmpty then startRefresh s m
      else rebuild s m)

/-! ## Refreshes (R157) -/

/-- The answer of a neighbour that holds a key: an add record at the held version. -/
def refreshAnswer (s : State) (r : TblRec) : Option TblRec :=
  let t := baseTables s (zoneOf s (((scopeByHall s (recPart r)).map (·.num)).getD 0))
  let out := fun res => if resAction res = 0 then resOf 1 (targetOf (ownCoord s)) else res
  if r.table = 0 then
    match emEntry t.em r.key with
    | none => none
    | some e => if e.tomb || e.isStatic then none
      else some { refreshReq (0, r.key, 0) e.owner with op := 1, version := e.version, result := out e.result }
  else
    match t.routes.find? (sameRoute r) with
    | none => none
    | some x => if x.tomb || x.isStatic then none
      else (SMap.find t.nhs x.nh).map (fun n =>
        { refreshReq (1, r.key, r.plen) x.owner with op := 1, version := x.version, result := out n.result, nhMac := n.mac, nhVid := n.vid })

/-- REFRESH_REQUEST_RX (R157): answered on the port on which it arrived; in HELD discarded and counted (R150). -/
def execRefreshRequestRx (port : Fin 4096) (r : TblRec) (s : State) : Host.Outcome State Fault Refusal :=
  let p := port.val
  .next (if !linkCarries s p ∨ portEth s p ∨ !neighbourRole s p ∨ r.op ≠ 3 then s
    else
      let s1 := bump64 s (Reg.FWD_LEARN_RX (portDune s p)) 1
      if held s then learnDrop s1 (portDune s p)
      else if !recOk r ∨ recPart r ≠ hallPart s (portScope s p) then s1
      else match refreshAnswer s1 r with
        | none => s1
        | some a =>
          let m := learnMsg s1 (portScope s p) a
          sendOwn s1 p m.1 m.2)

/-- REFRESH_TIMEOUT (R157): 10 ms without every answer: the mark is cleared and the keys stay absent. -/
def execRefreshTimeout (d : Fin 8) (s : State) : Host.Outcome State Fault Refusal :=
  .next (match s.fwd.refresh.find? (fun x => x.dune == d.val && decide (x.due ≤ s.clock)) with
    | none => s
    | some x =>
      if held s ∨ (shadowOf s (duneZone s x.dune)).lost then s
      else
        let s1 := x.keys.foldl forgetKey { s with fwd := { s.fwd with refresh := dropFirst (fun y => y == x) s.fwd.refresh } }
        fwdEvent (endRefresh s1 x) d.val F.FWD_EVT_REFRESH_FAIL x.table x.word)

/-- A lost shadow copy comes back from the replica of the lowest dune in UP that it is of, where its scope has a ready stack; its
stash entries are taken in slot order (DESIGN CHOICE, log 45). -/
def rebuildShadow (s : State) (z : Nat) : State :=
  let x := shadowOf s z
  match (zoneStacks s z).head?, zoneDune s z with
  | some k, some d =>
    let t := replicaAhead s d
    if !x.lost then s
    else setShadow s z { x with tables := t, lost := false, stack := some k,
                                stashOrder := (t.em.filter (fun e => decide (stashBase ≤ e.1))).map (·.1) }
  | _, _ => s

/-- SHADOW_REBUILD (R157): every shadow copy that is lost and can be rebuilt. -/
def execShadowRebuild (s : State) : Host.Outcome State Fault Refusal := .next ((zones s).foldl rebuildShadow s)

/-- LPM_OLD_SPACE_FREE (R146): the space whose 1 µs is over. -/
def execLpmOldSpaceFree (s : State) : Host.Outcome State Fault Refusal :=
  .next ((zones s).foldl (fun t z =>
    let x := shadowOf t z
    setShadow t z { x with pendingFree := x.pendingFree.filter (fun e => decide (s.clock < e.2.2.2.2)) }) s)

end Sys2Proof.Machine
end

