-- ==== Sys2Proof/Machine/Routing.lean ====
section
/-! DEFINITION. The commands of routing and flow control: load samples, the escape channel, contexts, injection rates, table
versions and the epoch flip (spec/07: R162, R168 to R185). -/
namespace Sys2Proof.Machine

/-- One microsecond. -/
def usUnit : Nat := 1000 * nsUnit

/-! ## Loads (R162, R178) -/

/-- Ready ports of a direction. -/
def readyDir (s : State) (dir : Nat) : List Nat := (dirPorts s dir).filter (portReady s)

/-- Lanes of a direction's ready ports. -/
def dirLanes (s : State) (dir : Nat) : Nat := sumNat ((readyDir s dir).map (portWidth s))

/-- Cells in the set-0 queues of some classes on a direction's ready ports. -/
def dirCells (s : State) (dir : Nat) (cs : List Nat) : Nat :=
  sumNat ((readyDir s dir).map (fun p => sumNat (cs.map (fun c => qOcc (hwq s (portDune s p) (portQ s p 0 c))))))

/-- Load per lane with 4 fractional bits; 0 without a ready port (log 17). -/
def dirSample (s : State) (dir : Nat) (cs : List Nat) : Nat :=
  if dirLanes s dir = 0 then 0 else 16 * dirCells s dir cs / dirLanes s dir

/-- L_d with 4 fractional bits. -/
def dirLoad (s : State) (dir : Nat) : Nat := SMap.get (fun _ => 0) s.rte.load dir

/-- L ← L + (S − L) / 4, rounded down. -/
def nextLoad (l sample : Nat) : Nat := ((l : Int) + ((sample : Int) - l) / 4).toNat

/-- W_d = max(1, floor(256 × H / (H + L_d))). -/
def sprayWeight (h l : Nat) : Nat := max 1 (256 * h * 16 / (16 * h + l))

/-- Sample one direction. -/
def sampleDir (s : State) (dir : Nat) : State :=
  let l := nextLoad (dirLoad s dir) (dirSample s dir [0, 1, 2, 3, 4, 5])
  let s1 := { s with rte := { s.rte with load := SMap.put (fun _ => 0) s.rte.load dir l } }
  wfs s1 (Reg.RTE_DIR_LOAD dir)
    [(F.RTE_DIR_LOAD_WEIGHT, sprayWeight (max 1 (rf s Reg.RTE_CFG F.RTE_CFG_SPRAY_H)) l), (F.RTE_DIR_LOAD_LOAD, min 65535 l)]

/-- Show an axis's load: the higher of its two directions. -/
def showAxisLoad (s : State) (a : Nat) : State :=
  wf s (Reg.RTE_AXIS_LOAD a) F.RTE_AXIS_LOAD_LOAD (min 65535 (max (dirLoad s (2 * a)) (dirLoad s (2 * a + 1))))

/-- SPRAY_SAMPLE (R162). -/
def execSpraySample (s : State) : Host.Outcome State Fault Refusal :=
  .next (if (dunesUp s).isEmpty then s
    else (List.range 3).foldl showAxisLoad ((List.range 6).foldl sampleDir s))

/-! ## The escape channel (R168, R170) -/

/-- RTE_CFG.ESC_TMO: 0 acts as 1. -/
def escTmo (s : State) : Nat := max 1 (rf s Reg.RTE_CFG F.RTE_CFG_ESC_TMO) * usUnit

/-- ESCAPE_TO_ENTRY (R170): the head of a set-0 egress queue has waited too long for adaptive credit and leaves on ENTRY. -/
def execEscapeToEntry (port : Fin 4096) (cls : Fin 8) (s : State) : Host.Outcome State Fault Refusal :=
  let p := port.val
  let d := portDune s p
  let q := portQ s p 0 cls.val
  .next (match headPkt (hwq s d q) with
    | none => s
    | some k =>
      let h : Head := ⟨q, k, 1, false⟩
      if portRole s p ≠ 1 ∨ !creditClass cls.val ∨ !portMaySend s p ∨ s.clock < (hwq s d q).headSince + escTmo s
          ∨ hasCredit s p { h with vc := 0 } ∨ !eligible s p h then s
      else joinPort (bump64 (serveHead (joinPort s p) p cls.val h) (Reg.RTE_ESC_PKTS d) 1) p)

/-- The receiver's side of a lapse: what it has granted on DL0 and DL1 stands no more. -/
def lapseGranted (s : State) (p : Nat) : State :=
  let dl := fun (k : Nat) => k / 64 == p && decide (2 ≤ k % 4)
  { s with swc := { s.swc with granted := SMap.drop dl s.swc.granted, returns := SMap.drop dl s.swc.returns, allowed := SMap.drop dl s.swc.allowed },
           rte := { s.rte with wadiSel := SMap.del s.rte.wadiSel p } }

/-- The sender's side of a lapse: the credits it holds on DL0 and DL1 stand no more. -/
def lapseHeld (s : State) (p : Nat) : State :=
  let dl := fun (k : Nat) => k / 64 == p && decide (2 ≤ k % 4)
  { s with swc := { s.swc with held := SMap.drop dl s.swc.held }, rte := { s.rte with selSent := SMap.del s.rte.selSent p } }

/-- Whether WADI_SEL has been absent for 10 µs since an instant. -/
def selAbsent (s : State) (t : Option Nat) : Bool := t.any (fun x => decide (x + 10 * usUnit ≤ s.clock))

/-- WADI_ALLOWANCE_LAPSE (R168): WADI_SEL has been absent on a link for 10 µs, as this end received it or as it sent it. -/
def execWadiAllowanceLapse (port : Fin 4096) (s : State) : Host.Outcome State Fault Refusal :=
  let s1 := if selAbsent s (SMap.find s.rte.wadiSel port.val) then lapseGranted s port.val else s
  .next (if selAbsent s (SMap.find s.rte.selSent port.val) then lapseHeld s1 port.val else s1)

/-! ## Contexts (R172 to R175) -/

/-- The k-th destination context of a dune. -/
def dstAt (s : State) (d k : Nat) : Option DstCtx := (s.rte.dst.filter (fun x => x.dune == d))[k]?

/-- The lowest FLOW_SEQ held: the one nearest ahead of EXPECT, or, where no START has come, the one that every other follows. -/
def lowestHeld (x : DstCtx) : Nat :=
  match x.expect with
  | some e => ((heldOrder e x.held).head?.map flowSeqOf).getD 0
  | none =>
    ((x.held.find? (fun p => x.held.all (fun q => decide (seqAhead (flowSeqOf q) (flowSeqOf p) < 2 ^ 31)))).map flowSeqOf).getD
      ((x.held.head?.map flowSeqOf).getD 0)

/-- Numbers from EXPECT up to the lowest held; FLOW_SEQ skips 0. -/
def missingCount (x : DstCtx) : Nat :=
  match x.expect with
  | none => 0
  | some e => seqAhead (lowestHeld x) e - b2n (decide (lowestHeld x < e))

/-- RESEQUENCE_TIMEOUT (R175): EXPECT moves to the lowest held number, and what follows it in sequence is released (log 40). -/
def execResequenceTimeout (d : Fin 8) (k : Fin 262144) (s : State) : Host.Outcome State Fault Refusal :=
  .next (match dstAt s d.val k.val with
    | none => s
    | some x =>
      if x.held.isEmpty ∨ s.clock < x.heldAt + 50 * usUnit then s
      else
        let r := releaseRun x.held.length (lowestHeld x) x.held
        let x1 := { x with expect := some r.2.1, held := r.2.2, heldAt := s.clock, last := s.clock }
        let s1 := { s with rte := { s.rte with dst := modFirst (fun y => y == x) (fun _ => x1) s.rte.dst } }
        let s2 := bump64 s1 (Reg.RTE_RSQ_LOST_PKTS d.val) (missingCount x)
        let s3 := bump64 (linkAll d.val r.1 s2) (Reg.RTE_RSQ_RELEASED d.val) (sumNat (r.1.map (·.cells)))
        rteEvent s3 F.RTE_EVT_RSQ_TIMEOUT 0xFF ((r.1.head?.map (·.outPort)).getD 0xFFFF))

/-- SOURCE_CONTEXT_EXPIRE (R172): idle for 2 × LIFETIME_US; its number keeps its GEN. -/
def execSourceContextExpire (d : Fin 8) (ctx : BitVec 16) (s : State) : Host.Outcome State Fault Refusal :=
  let k := d.val * 65536 + ctx.toNat
  .next (match SMap.find s.rte.src k with
    | none => s
    | some x =>
      if x.live ∧ x.last + 2 * lifetime s ≤ s.clock then
        { s with rte := { s.rte with src := SMap.ins s.rte.src k { x with live := false } } }
      else s)

/-- DEST_CONTEXT_EXPIRE (R173): idle for LIFETIME_US with nothing held. -/
def execDestContextExpire (d : Fin 8) (k : Fin 262144) (s : State) : Host.Outcome State Fault Refusal :=
  .next (match dstAt s d.val k.val with
    | none => s
    | some x =>
      if x.held.isEmpty ∧ x.last + lifetime s ≤ s.clock then
        { s with rte := { s.rte with dst := dropFirst (fun y => y == x) s.rte.dst } }
      else s)

/-! ## Injection rates (R177) -/

/-- The throttled classes in the message's order. -/
def rateClasses : List Nat := [1, 3, 6]

/-- RATE of a class (by its place in the message) and direction. -/
def rateOf (s : State) (i dir : Nat) : Nat := SMap.get (fun _ => 1024) s.rte.rates (i * 6 + dir)

/-- The next RATE: lowered by an eighth above the threshold, else raised by 16. -/
def nextRate (r : Nat) (above : Bool) : Nat := if above then max 16 (r - r / 8) else min 1024 (r + 16)

/-- Update one class's rate of one direction. -/
def updateRate (s : State) (k : Nat) : State :=
  let i := k / 6
  let dir := k % 6
  let above := decide (16 * rf s Reg.RTE_THROTTLE F.RTE_THROTTLE_TH_THR < dirSample s dir [getAt 0 rateClasses i])
  let r := nextRate (rateOf s i dir) above
  { s with rte := { s.rte with rates := SMap.put (fun _ => 1024) s.rte.rates k r, rateChanged := s.rte.rateChanged || r != rateOf s i dir } }

/-- The rate grant message (Table 7.4). -/
def rateMessage (s : State) : List Byte :=
  natBe 1 2 ++ natBe 1 0 ++ natBe 2 s.rte.rateSeq ++ ((List.range 18).map (fun k => natBe 2 (rateOf s (k / 6) (k % 6)))).flatten

/-- The ready rack-facing ports of fabric mode. -/
def rackPorts (s : State) : List Nat := sortBy id ((s.img.cfg.ports.filter (fun r => r.role == 0 && r.mode == 0 && portReady s r.num)).map (·.num))

/-- THROTTLE_UPDATE (R177). -/
def execThrottleUpdate (s : State) : Host.Outcome State Fault Refusal :=
  .next (if (dunesUp s).isEmpty then s
    else
      let s1 := (List.range 18).foldl updateRate { s with rte := { s.rte with rateChanged := false } }
      if s1.rte.rateChanged ∨ s1.rte.rateSentAt + 1000 * usUnit ≤ s1.clock then
        let m := rateMessage s1
        let s2 := (rackPorts s1).foldl (fun t p => sendOwn t p (originCfh t 0 (hallPart t (portScope t p)) 0xFFFFFD 0 0 m.length) m) s1
        { s2 with rte := { s2.rte with rateSeq := (s2.rte.rateSeq + 1) % 65536, rateSentAt := s2.clock } }
      else s1)

/-! ## Utilisation (R178, R179) -/

/-- Bits sent by a direction in the window, times 100, and the bits that its ready lanes can send in 10 µs. -/
def dirSent (s : State) (dir : Nat) : Nat := SMap.get (fun _ => 0) s.rte.sentCells dir * 2176 * 100
def dirRoom (s : State) (dir : Nat) : Nat := dirLanes s dir * 2560000

/-- U_d is at least, or at most, so many per cent. -/
def utilAtLeast (s : State) (dir pct : Nat) : Bool := decide (0 < dirRoom s dir) && decide (pct * dirRoom s dir ≤ dirSent s dir)
def utilAtMost (s : State) (dir pct : Nat) : Bool := decide (dirSent s dir ≤ pct * dirRoom s dir)

def dirSaturated (s : State) (dir : Nat) : Bool := utilAtLeast s dir (rf s Reg.RTE_SAT F.RTE_SAT_SAT_PCT)
def dirIdle (s : State) (dir : Nat) : Bool := utilAtMost s dir (rf s Reg.RTE_SAT F.RTE_SAT_IDLE_PCT)
def axisSaturated (s : State) (a : Nat) : Bool := dirSaturated s (2 * a) || dirSaturated s (2 * a + 1)
def axisIdle (s : State) (a : Nat) : Bool := dirIdle s (2 * a) && dirIdle s (2 * a + 1)

/-- The target of the largest share of the window's sample; of equals, the one sampled first (log 41). -/
def hotTarget (l : List Nat) : Option Nat :=
  (l.foldl (fun (b : Option (Nat × Nat)) t =>
    let n := (l.filter (· == t)).length
    match b with
    | none => some (t, n)
    | some x => if x.2 < n then some (t, n) else some x) none).map (·.1)

/-- Windows in a row with a direction saturated. -/
def satRun (s : State) (dir : Nat) : Nat := SMap.get (fun _ => 0) s.rte.satRun dir

/-- Whether the windows of a run span PERSIST_US: the first one ends it begins (Table 7.5). -/
def satLong (s : State) (dir : Nat) : Bool :=
  decide (0 < satRun s dir) && decide (rf s Reg.RTE_SAT F.RTE_SAT_PERSIST_US ≤ (satRun s dir - 1) * 10)

/-- Ask for a bypass of 8 lanes towards a target, where one is due (R179). -/
def askBypass (s : State) (dir : Nat) : Option Nat → State
  | none => s
  | some t =>
    let s1 := { s with rte := { s.rte with reqAt := SMap.ins s.rte.reqAt dir s.clock, bypassAsked := SMap.ins s.rte.bypassAsked dir t } }
    rteEvent (bump64 s1 (Reg.RTE_BYPASS_REQS ((homeDune s dir).getD 0)) 1) F.RTE_EVT_BYPASS_REQ dir 0xFFFF

/-- The target of the bypass request that is due at a saturated direction, at most one in 1,000 µs (R179). -/
def dueTarget (s : State) (dir : Nat) : Option Nat :=
  let due := match SMap.find s.rte.reqAt dir with
    | none => true
    | some t => decide (t + 1000 * usUnit ≤ s.clock)
  if dirSaturated s dir && satLong s dir && due then hotTarget (SMap.get (fun _ => []) s.rte.hot dir) else none

/-- One direction at the end of a window: its runs, its utilisation, and a bypass request that is due (R179). -/
def windowDir (s : State) (dir : Nat) : State :=
  let sat := dirSaturated s dir
  let low := !utilAtLeast s dir 50
  let rte := { s.rte with satRun := SMap.put (fun _ => 0) s.rte.satRun dir (if sat then satRun s dir + 1 else 0),
                          lowRun := SMap.put (fun _ => 0) s.rte.lowRun dir (if low then SMap.get (fun _ => 0) s.rte.lowRun dir + 1 else 0) }
  let util := if dirRoom s dir = 0 then 0 else dirSent s dir / dirRoom s dir
  let s1 := wf { s with rte := rte } (Reg.RTE_DIR_LOAD dir) F.RTE_DIR_LOAD_UTIL (min 127 util)
  askBypass s1 dir (dueTarget s1 dir)

/-- Show whether an axis is saturated or idle. -/
def windowAxis (old s : State) (a : Nat) : State :=
  wfs s (Reg.RTE_AXIS_LOAD a) [(F.RTE_AXIS_LOAD_SATURATED, b2n (axisSaturated old a)), (F.RTE_AXIS_LOAD_IDLE, b2n (axisIdle old a))]

/-- UTILISATION_WINDOW (R178, R179): the end of a 10 µs window. IMBALANCE needs one axis saturated while another is idle. -/
def execUtilisationWindow (s : State) : Host.Outcome State Fault Refusal :=
  .next (if (dunesUp s).isEmpty then s
    else
      let axes := (List.range 3).filter (fun a => decide (a < torusDims s))
      let s1 := (List.range 3).foldl (windowAxis s) ((List.range 6).foldl windowDir s)
      let s2 := { s1 with rte := { s1.rte with sentCells := [], hot := [] } }
      if axes.any (fun a => axisSaturated s a && axes.any (fun b => b != a && axisIdle s b)) then rteEvent s2 F.RTE_EVT_IMBALANCE 0xFF 0xFFFF else s2)

/-! ## Table versions (R181) -/

/-- Whether a version is writable. -/
def verWritable (s : State) (v : Nat) : Bool := if v = 0 then rb s Reg.RTE_STATUS F.RTE_STATUS_A_WRITABLE else rb s Reg.RTE_STATUS F.RTE_STATUS_B_WRITABLE

def setVerWritable (s : State) (v : Nat) (b : Bool) : State :=
  wf s Reg.RTE_STATUS (if v = 0 then F.RTE_STATUS_A_WRITABLE else F.RTE_STATUS_B_WRITABLE) (b2n b)

/-- Entries of a version: the product of the SIZEs, none where DIMS is 0. -/
def rteCells (s : State) : Nat := if torusDims s = 0 then 0 else dimSize s 0 * dimSize s 1 * dimSize s 2

/-- The bytes of a version in the layout of R160: mask, then entries. -/
def verBytes (s : State) (v : Nat) : List Byte :=
  let t := rteTable s v
  ((List.range 64).map (fun i => natBe 4 (SMap.get (fun _ => 0) t.mask (63 - i)).toNat)).flatten
    ++ ((List.range (rteCells s)).map (fun i => natBe 4 (SMap.get (fun _ => 0) t.entries i).toNat)).flatten

/-- Show the digest of the inactive version. -/
def showVerDig (s : State) : State := wn64 s (Reg.RTE_VER_DIG 0) (crc64 0 (verBytes s (1 - activeVer s)))

/-- The word that the table window shows: a mask word, or an entry; others read 0 (log 42). -/
def tableWord (s : State) : Nat :=
  let t := rteTable s (rf s Reg.RTE_TBL_SEL F.RTE_TBL_SEL_VER)
  let i := rf s Reg.RTE_TBL_SEL F.RTE_TBL_SEL_INDEX
  if rb s Reg.RTE_TBL_SEL F.RTE_TBL_SEL_MASK then (SMap.get (fun _ => 0) t.mask i).toNat else (SMap.get (fun _ => 0) t.entries i).toNat

/-- Write the word that the table window selects; words that a version does not have are not written. -/
def setTableWord (s : State) (w : Word) : State :=
  let v := rf s Reg.RTE_TBL_SEL F.RTE_TBL_SEL_VER
  let t := rteTable s v
  let i := rf s Reg.RTE_TBL_SEL F.RTE_TBL_SEL_INDEX
  if rb s Reg.RTE_TBL_SEL F.RTE_TBL_SEL_MASK then
    if i < 64 then setRteTable s v { t with mask := SMap.put (fun _ => 0) t.mask i w } else s
  else if i < rteCells s then setRteTable s v { t with entries := SMap.put (fun _ => 0) t.entries i w } else s

/-- INDEX advances by 1 after each access. -/
def nextIndex (s : State) : State := wf s Reg.RTE_TBL_SEL F.RTE_TBL_SEL_INDEX ((rf s Reg.RTE_TBL_SEL F.RTE_TBL_SEL_INDEX + 1) % 2 ^ 18)

/-- ROUTING_TABLE_DATA (R181): an access to RTE_TBL_DATA, a read or a write of `w`. The counter of refused writes is that of the
lowest dune in UP (log 43). -/
def execRoutingTableData (w : Option Word) (s : State) : Host.Outcome State Fault Refusal :=
  .next (if !s.plat.running ∨ (dunesUp s).isEmpty then s
    else match w with
      | none => nextIndex (emit s (.readData Reg.RTE_TBL_DATA (tableWord s)))
      | some x =>
        let v := rf s Reg.RTE_TBL_SEL F.RTE_TBL_SEL_VER
        if held s then heldRefuse s Reg.RTE_TBL_DATA
        else if v = activeVer s ∨ !verWritable s v then
          nextIndex (rteEvent (bump64 s (Reg.RTE_TBL_REFUSED (ergDune s)) 1) F.RTE_EVT_TBL_REFUSED 0xFF 0xFFFF)
        else nextIndex (showVerDig (setTableWord s x)))

/-- VERSION_WRITABLE (R181): LIFETIME_US after version A (false) or B (true) was last active. -/
def execVersionWritable (b : Bool) (s : State) : Host.Outcome State Fault Refusal :=
  let v := b2n b
  .next (if v = activeVer s ∨ s.rte.armed.isSome ∨ s.clock < (rteTable s v).lastActive + lifetime s then s
    else setVerWritable s v true)

/-! ## The epoch flip (R182, R183) -/

/-- Set FLIP_RESULT. -/
def setFlipResult (s : State) (c : Nat) : State := wf s Reg.RTE_STATUS F.RTE_STATUS_FLIP_RESULT c

/-- A refused ARM. -/
def flipRefused (s : State) (c : Nat) : State := rteEvent (setFlipResult s c) F.RTE_EVT_FLIP_REFUSED 0xFF 0xFFFF

/-- The instant in RTE_FLIP_SEC and RTE_FLIP_NS. -/
def flipNs (s : State) : Nat := rf s Reg.RTE_FLIP_NS F.RTE_FLIP_NS_NS
def flipInstant (s : State) : Nat := instant (rnHL s (Reg.RTE_FLIP_SEC 0)) (flipNs s)

/-- Why a flip may not be armed: the first reason of R182, or none. -/
def flipRefusal (s : State) : Option Nat :=
  if held s then some 8
  else if !timReady s then some 6
  else if 10 ^ 9 ≤ flipNs s then some 0xA
  else if flipInstant s < s.clock + 100 * usUnit then some 3
  else if rn64 s (Reg.RTE_FLIP_DIG 0) ≠ rn64 s (Reg.RTE_VER_DIG 0) then some 4
  else if !verWritable s (1 - activeVer s) then some 9
  else if s.rte.armed.isSome then some 5
  else none

/-- FLIP_ARM (R182). -/
def execFlipArm (v : Word) (s : State) : Host.Outcome State Fault Refusal :=
  .next (if !s.plat.running ∨ (dunesUp s).isEmpty then s
    else
      let s0 := if held s then heldRefuse s Reg.RTE_FLIP_CTRL else s
      if !keyOk v ∨ !wbit v 1 then s0
      else match flipRefusal s with
        | some c => flipRefused s0 c
        | none =>
          let s1 := { s0 with rte := { s0.rte with armed := some (flipInstant s0) } }
          setFlipResult (setVerWritable (wf s1 Reg.RTE_STATUS F.RTE_STATUS_ARMED 1) (1 - activeVer s1) false) 1)

/-- FLIP_CANCEL (R182): until 100 µs before the instant. -/
def execFlipCancel (v : Word) (s : State) : Host.Outcome State Fault Refusal :=
  .next (if !s.plat.running ∨ (dunesUp s).isEmpty then s
    else if held s then heldRefuse s Reg.RTE_FLIP_CTRL
    else match s.rte.armed with
      | none => s
      | some i =>
        if !keyOk v ∨ !wbit v 2 ∨ i < s.clock + 100 * usUnit then s
        else
          let s1 := { s with rte := { s.rte with armed := none } }
          setFlipResult (setVerWritable (wf s1 Reg.RTE_STATUS F.RTE_STATUS_ARMED 0) (1 - activeVer s1) true) 7)

/-- EPOCH_FLIP (R183): the armed instant has come. -/
def execEpochFlip (s : State) : Host.Outcome State Fault Refusal :=
  .next (match s.rte.armed with
    | none => s
    | some i =>
      if s.clock < i then s
      else
        let old := activeVer s
        let s1 := setRteTable s old { rteTable s old with lastActive := s.clock }
        let s2 := setRteTable s1 (1 - old) { rteTable s1 (1 - old) with ever := true }
        let s3 := { s2 with rte := { s2.rte with armed := none } }
        let s4 := wfs s3 Reg.RTE_STATUS [(F.RTE_STATUS_ACTIVE, 1 - old), (F.RTE_STATUS_A_WRITABLE, 0), (F.RTE_STATUS_B_WRITABLE, 0),
          (F.RTE_STATUS_ARMED, 0), (F.RTE_STATUS_FLIP_RESULT, 2)]
        rteEvent (showVerDig s4) F.RTE_EVT_FLIP_DONE 0xFF 0xFFFF)

end Sys2Proof.Machine
end

