-- ==== Sys2Proof/Machine/Sched.lean ====
section
/-! DEFINITION. The commands of scheduled traffic: entry starts, gate-list changes, the list window, shaper rates (spec/09:
R207 to R222). -/
namespace Sys2Proof.Machine

/-- SCH_PG_CTRL of a group. -/
def pgCtrl (g : Nat) : Nat := Reg.SCH_PG_CTRL (g / 32) (g % 32)

/-- Grant what the ports of a group may now be granted (R117). -/
def grantGroup (s : State) (g : Nat) : State :=
  ((s.img.cfg.ports.filter (fun r => r.first / 8 == g)).map (·.num)).foldl grantPort s

/-- GATE_ENTRY_START (R209). -/
def execGateEntryStart (pg : Fin 256) (s : State) : Host.Outcome State Fault Refusal :=
  .next (if duneUp s (pg.val / 32) then runEntries s pg.val else s)

/-- The list that ARM would arm: the inactive bank with SCH_PG_CYCLE, SCH_PG_COUNT and BASE. -/
def armGeom (s : State) (g : Nat) : GateGeom where
  bank := 1 - pgActive s g
  count := rf s (Reg.SCH_PG_COUNT (g / 32) (g % 32)) F.SCH_PG_COUNT_COUNT
  cycle := rf s (Reg.SCH_PG_CYCLE (g / 32) (g % 32)) F.SCH_PG_CYCLE_NS
  base := instant (rnHL s (Reg.SCH_PG_BASE_SEC (g / 32) (g % 32) 0)) (rf s (Reg.SCH_PG_BASE_NS (g / 32) (g % 32)) F.SCH_PG_BASE_NS_NS)

/-- The end of the guard window of the running list that an instant lies in (R214). -/
def guardEnd (s : State) (g t : Nat) : Option Nat :=
  match gateList s g with
  | none => none
  | some k =>
    if guardAt s g t then
      let e := entryAt (pgOf s g) k t
      (runFrom gGuard (geomEntries (pgOf s g) k) e.1).map (fun n => e.2 + n * nsUnit)
    else none

/-- Whether an instant falls within a guard window that holds an armed action: a laser swap planned on a lane of the group. -/
def guardBusy (s : State) (g t : Nat) : Bool :=
  match guardEnd s g t with
  | none => false
  | some e => (List.range 8).any (fun i => (laneOf s (g * 8 + i)).swap.any (fun w => guardEnd s g w.1 == some e))

/-- Why a list may not be armed: the first reason of R211, or none. -/
def armRefusal (s : State) (g : Nat) : Option Nat :=
  let a := armGeom s g
  if held s then some 8
  else if !timReady s then some 6
  else if 10 ^ 9 ≤ rf s (Reg.SCH_PG_BASE_NS (g / 32) (g % 32)) F.SCH_PG_BASE_NS_NS then some 0xA
  else if a.base < s.clock + 100 * usUnit then some 3
  else if !listOk s g a.cycle (geomEntries (pgOf s g) a) then some 4
  else if (pgOf s g).armed.isSome ∨ pgSt s g = 4 then some 5
  else if guardBusy s g a.base then some 9
  else none

/-- GATE_LIST_ARM (R211). -/
def execGateListArm (pg : Fin 256) (v : Word) (s : State) : Host.Outcome State Fault Refusal :=
  let g := pg.val
  .next (if !winOk s (g / 32) then s
    else
      let s0 := if held s then heldRefuse s (pgCtrl g) else s
      if !keyOk v ∨ !wbit v 1 then s0
      else match armRefusal s g with
        | some c => schEvent (setPgResult s0 g c) (g / 32) F.SCH_EVT_ARM_REFUSED (g % 32)
        | none =>
          let s1 := setPg s0 g { pgOf s0 g with armed := some (armGeom s0 g) }
          setPgResult (setPgSt s1 g (if pgSt s g = 2 then 3 else 1)) g 1)

/-- GATE_LIST_CANCEL (R211): until 100 µs before BASE. -/
def execGateListCancel (pg : Fin 256) (v : Word) (s : State) : Host.Outcome State Fault Refusal :=
  let g := pg.val
  .next (if !winOk s (g / 32) then s
    else if held s then heldRefuse s (pgCtrl g)
    else match (pgOf s g).armed with
      | none => s
      | some a =>
        if !keyOk v ∨ !wbit v 2 ∨ a.base < s.clock + 100 * usUnit then s
        else setPgResult (setPgSt (setPg s g { pgOf s g with armed := none }) g (if pgSt s g = 3 then 2 else 0)) g 7)

/-- GATE_LIST_DISABLE (Table 9.2): both banks are emptied. -/
def execGateListDisable (pg : Fin 256) (v : Word) (s : State) : Host.Outcome State Fault Refusal :=
  let g := pg.val
  .next (if !winOk s (g / 32) then s
    else if held s then heldRefuse s (pgCtrl g)
    else if !keyOk v ∨ !wbit v 3 then s
    else setPgSt (setPg s g { pgOf s g with list := none, armed := none, bank0 := [], bank1 := [], cycles := 0 }) g 0)

/-- GATE_BASE_REACHED (R212): an armed list takes effect at its BASE. -/
def execGateBaseReached (pg : Fin 256) (s : State) : Host.Outcome State Fault Refusal :=
  let g := pg.val
  .next (match (pgOf s g).armed with
    | none => s
    | some a =>
      if s.clock < a.base ∨ !(pgSt s g = 1 ∨ pgSt s g = 3) ∨ !duneUp s (g / 32) then s
      else grantGroup (gateTakeEffect s g) g)

/-- GATE_LIST_RESUME (R69, R221): a suspended list runs again from a cycle start. -/
def execGateListResume (pg : Fin 256) (s : State) : Host.Outcome State Fault Refusal :=
  let g := pg.val
  .next (match (pgOf s g).list with
    | none => s
    | some k =>
      let at_ := resumeAt s g k
      if pgSt s g ≠ 4 ∨ !timReady s ∨ s.clock < at_ ∨ !duneUp s (g / 32) then s
      else
        let s1 := setPg s g { pgOf s g with runsSince := at_, doneTo := max at_ (pgOf s g).doneTo }
        grantGroup (runEntries (setPgSt s1 g 2) g) g)

/-- Whether a bank is in use: it holds the running, the waiting or the armed list. -/
def bankBusy (s : State) (g b : Nat) : Bool :=
  let x := pgOf s g
  ((pgSt s g == 2 || pgSt s g == 3 || pgSt s g == 4) && x.list.any (fun k => k.bank == b))
  || ((pgSt s g == 1 || pgSt s g == 3) && x.armed.any (fun k => k.bank == b))

/-- The group, bank and index that SCH_GL_SEL selects in a dune. -/
def glGroup (s : State) (d : Nat) : Nat := d * 32 + rf s (Reg.SCH_GL_SEL d) F.SCH_GL_SEL_PG
def glBank (s : State) (d : Nat) : Nat := rf s (Reg.SCH_GL_SEL d) F.SCH_GL_SEL_BANK
def glIndex (s : State) (d : Nat) : Nat := rf s (Reg.SCH_GL_SEL d) F.SCH_GL_SEL_INDEX

/-- The entry that the list window selects. -/
def glEntry (s : State) (d : Nat) : Nat := SMap.get (fun _ => 0) (pgBank (pgOf s (glGroup s d)) (glBank s d)) (glIndex s d)

/-- Write the entry that the list window selects: DATA_HI as last written, or read, and the word written to DATA_LO (log 209). -/
def glStore (s : State) (d : Nat) (w : Word) : State :=
  let x := pgOf s (glGroup s d)
  let e := rn s (Reg.SCH_GL_DATA_HI d) * 2 ^ 32 + w.toNat
  setPg s (glGroup s d) (if glBank s d = 0 then { x with bank0 := SMap.put (fun _ => 0) x.bank0 (glIndex s d) e }
    else { x with bank1 := SMap.put (fun _ => 0) x.bank1 (glIndex s d) e })

/-- GATE_LIST_DATA_WRITE (Table 9.6): an access to SCH_GL_DATA_LO, a read or a write of `w`; INDEX advances after it. -/
def execGateListDataWrite (d : Fin 8) (w : Option Word) (s : State) : Host.Outcome State Fault Refusal :=
  let next := fun (t : State) => wf t (Reg.SCH_GL_SEL d.val) F.SCH_GL_SEL_INDEX ((glIndex s d.val + 1) % 4096)
  .next (if !winOk s d.val then s
    else match w with
      | none => next (emit s (.readData (Reg.SCH_GL_DATA_LO d.val) (glEntry s d.val % 2 ^ 32)))
      | some x =>
        if held s then heldRefuse s (Reg.SCH_GL_DATA_LO d.val)
        else if bankBusy s (glGroup s d.val) (glBank s d.val) then next (schEvent s d.val F.SCH_EVT_GL_REFUSED (glGroup s d.val % 32))
        else next (glStore s d.val x))

/-- SHAPER_RATE_WRITE (R217): writing RATE sets TOKENS to BURST. -/
def execShaperRateWrite (d : Fin 8) (k : Fin 256) (c : Fin 8) (v : Word) (s : State) : Host.Outcome State Fault Refusal :=
  let lane := d.val * 256 + k.val
  let a := Reg.SCH_SHP_RATE d.val k.val c.val
  .next (if !winOk s d.val then s
    else if held s then heldWrite s a v
    else
      let s1 := softWrite s a v
      setTokens s1 lane c.val (shapeBurst s1 lane c.val * shapeByte : Nat))

end Sys2Proof.Machine
end

