-- ==== Sys2Proof/Machine/Stacks.lean ====
section
/-! DEFINITION. Oasis stacks going online and offline, and engine self-tests (spec/03: R70, R71, R75; spec/05: R128; spec/06:
R157; spec/14: R357). -/
namespace Sys2Proof.Machine

/-- The stack trims take effect at a training (Table 3.6). -/
def stackTrims (s : State) (k : Nat) : State := (List.range 64).foldl (fun t i => applyTrim t 8 (k * 64 + i)) s

/-- Whether a stack belongs to a partition or system; a stack of no system stays unpowered (R31). -/
def stackOwned (s : State) (k : Nat) : Bool := s.img.cfg.scopes.any (fun x => bitAt x.stackMask k)

/-- OASIS_TRAINING_DONE (R71, R31): online, or a failure counted; after the third the stack stays not ready until the next reset.
A shadow copy moves to the lowest ready stack of its scope (R147; log 45). -/
def execOasisTrainingDone (k : Fin 12) (ok : Bool) (s : State) : Host.Outcome State Fault Refusal :=
  let n := k.val
  let fails := SMap.get (fun _ => 0) s.plat.oasisFails n
  .next (if !duneUp s (stackDune n) ∨ !stackOwned s n ∨ stackReady s n ∨ 3 ≤ fails then s
    else
      let s1 := stackTrims s n
      if !ok then { s1 with plat := { s1.plat with oasisFails := SMap.put (fun _ => 0) s1.plat.oasisFails n (fails + 1) } }
      else
        settle s (placeShadows (setStackReady s1 n true)))

/-- The packets of a queue that have a cell in a page of a stack. -/
def lostPkts (x : HwQueue) (k : Nat) : List Nat := ((x.pages.filter (fun p => p.stack == k)).map (·.cells)).flatten.dedup

/-- A queue loses its pages on a stack: each packet with a cell there is lost whole, its cells elsewhere are freed, and the
queue goes on with its remaining pages (R128; log 208). -/
def losePages (k : Nat) (s : State) (fq : Nat) : State :=
  let d := fq / 16384
  let q := fq % 16384
  let x := hwq s d q
  let pages := x.pages.filter (fun p => p.stack == k)
  match x.pkts with
  | [] => s
  | (_, first) :: _ =>
    if pages.isEmpty then s
    else
      let gone := lostPkts x k
      let chip := ((x.head ++ x.tail).filter gone.contains).length
      let x0 := dropPkts { x with pages := x.pages.filter (fun p => p.stack != k) } (fun no _ => gone.contains no)
      let x1 := if x0.pages.isEmpty then tailToHead x0 else x0
      let s1 := dischargePkt (setHwq s d q x1) d first.scope first.cls chip
      let s2 := setPagesUsed s1 d first.scope (pagesUsed s1 d first.scope - (x.pages.length - x1.pages.length))
      let s3 := swcEvent (bump64 s2 (Reg.SWC_SPILL_LOST d) (sumNat (pages.map (fun p => p.cells.length)))) d F.SWC_EVT_SPILL_LOST first.scope q
      spillMark d (joinTail (askPages d q 4096 s3) d q) q

/-- Packets that a resequencer holds on a stack are lost with it; their cells on chip are freed (R128, R174). -/
def loseHeld (k : Nat) (s : State) (d : Nat) : State :=
  let lost := fun (p : SwPkt) => p.inOasis.any (fun o => o.1 == k)
  let gone := ((s.rte.dst.filter (fun x => x.dune == d)).map (fun x => x.held.filter lost)).flatten
  match gone with
  | [] => s
  | p :: _ =>
    let away := fun (q : SwPkt) => (q.inOasis.map (·.2)).getD 0
    let dst := s.rte.dst.map (fun x => if x.dune == d then { x with held := x.held.filter (fun q => !lost q) } else x)
    let s1 := gone.foldl (fun t q =>
      dischargePkt (setPagesUsed t d q.scope (pagesUsed t d q.scope - pagesOf (away q))) d q.scope q.cls (q.cells - away q))
      { s with rte := { s.rte with dst := dst } }
    swcEvent (bump64 s1 (Reg.SWC_SPILL_LOST d) (sumNat (gone.map away))) d F.SWC_EVT_SPILL_LOST p.scope 0xFFFF

/-- The contributions of an open collective that lie in a dune's staging cells, oldest first: their chunks are not reduced locally. -/
def stagedIn (s : State) (part : Nat) (c : Coll) (d : Nat) : List Contrib :=
  c.contribs.filter (fun b => chunkRipple s part b.chunk / 32 == d && !c.chunks.any (fun h => h.c == b.chunk && (h.stage != 0 || h.busy)))

/-- The contributions that a stack's loss takes from a collective: of each place with pages there, those that its cells on chip do not
hold, which came last (log 208). -/
def lostContribs (s : State) (part : Nat) (c : Coll) (k : Nat) : List Contrib :=
  (c.placed.filter (fun p => p.stack == k && p.pages != 0)).flatMap (fun p => (stagedIn s part c p.dune).drop (p.chip / max 1 c.nIn))

/-- A group's open collectives lose what they hold on a stack: the contributions' cells are counted, and the reservation goes on in pages
of another ready stack (R128). -/
def loseStaged (k : Nat) (s : State) (g : Nat × Group) : State :=
  let lost := fun (c : Coll) => lostContribs s g.2.part c k
  let next := (readyStacks s g.2.part).headD k
  let keep := fun (c : Coll) => { c with contribs := c.contribs.filter (fun b => !(lost c).contains b),
                                         placed := c.placed.map (fun p => if p.stack = k then { p with stack := next } else p) }
  let s1 := { s with col := { s.col with groups := SMap.ins s.col.groups g.1 { g.2 with opened := g.2.opened.map keep } } }
  g.2.opened.foldl (fun t c =>
    match lost c with
    | [] => t
    | b :: _ =>
      let d := chunkRipple s g.2.part b.chunk / 32
      swcEvent (bump64 t (Reg.SWC_SPILL_LOST d) ((lost c).length * c.nIn)) d F.SWC_EVT_SPILL_LOST g.2.part 0xFFFF) s1

/-- OASIS_STACK_FAULT (R128, R157): the stack is not ready, its pages are lost, and the shadow with them if it lay there. -/
def execOasisStackFault (k : Fin 12) (s : State) : Host.Outcome State Fault Refusal :=
  .next (if !stackReady s k.val then s
    else
      let s1 := setStackReady s k.val false
      let s2 := (s1.swc.queues.map (·.1)).foldl (losePages k.val) s1
      let s3 := s2.col.groups.foldl (loseStaged k.val) ((List.range 8).foldl (loseHeld k.val) s2)
      settle s (placeShadows (shadowsLose s3 (fun j => j == k.val))))

/-- Whether the engine's dune has the sections its engines need: 0012h and 0020h (Table 2.17), and 0021h where the image has one
for its scope (Table 3.4). -/
def microcodeLoaded (s : State) (g : Nat) : Bool :=
  let d := g / 512
  typeActive s 0x12 d && typeActive s 0x20 d && (bulkEntries s).all (fun e =>
    eType e.2 != 0x21 || !(entryScopes s e.2).any (fun x => bitAt x.ripples (g / 16)) || s.img.active.contains (e.1, d))

/-- ENGINE_SELF_TEST_DONE (R70, R357, Table 10.9). -/
def execEngineSelfTestDone (g : Fin 4096) (ok : Bool) (s : State) : Host.Outcome State Fault Refusal :=
  let n := g.val
  .next (if !duneUp s (n / 512) ∨ engSt s n ≠ engOff ∨ s.plat.selfTestFailed.contains n ∨ !microcodeLoaded s n then s
    else if !ok then settle s { s with plat := { s.plat with selfTestFailed := s.plat.selfTestFailed ++ [n] } }
    else if s.plat.quarantine.contains n then settle s (setEngSt s n engQuarantined)
    else settle s (enterIdle s n))

end Sys2Proof.Machine
end

