-- ==== Sys2Proof/Machine/Optics.lean ====
section
/-! DEFINITION. The commands of lanes and lasers: locking, wrong locks, ageing, spares and swaps (spec/13: R303 to R318). -/
namespace Sys2Proof.Machine

/-! ## Locking (Table 13.5) -/

/-- Fibre of a lane, by tile × 4 + fibre. -/
def laneFibre (l : Nat) : Nat := l / 8

/-- CHAN of a lane's wavelength: 2w − 6 (Table 13.2). -/
def laneChan (l : Nat) : Nat := encodeSigned 8 ((2 * (l % 8) : Nat) - 6)

/-- Whether the lane runs: usable and its dune in UP. -/
def laneRuns (s : State) (l : Nat) : Bool := laneUsable s l && duneUp s (l / 256)

/-- A lane action ends a Sirocco run that uses the lane (R333). -/
def laneTakes (s : State) (l : Nat) : State := sirPreempt s (l / 32) (fun r => r.lane == l % 32)

/-- Whether a resonance is excluded: within 5 % of the heater power of a failed lock (R309). -/
def resExcluded (x : LaneSt) (rx : Bool) (r : Nat) : Bool :=
  (dirExcl x rx).any (fun e => decide (((r : Int) - e).natAbs * 20 ≤ e))

/-- The factory maximum of the bias of a lane's laser, in 10 µA. -/
def maxBias (s : State) (l : Nat) : Nat := SMap.get (fun _ => 18000) s.otp.laserMax (laserIndex s l)

/-- Show a lane's bias (OPT_LANE_BIAS). -/
def showBias (s : State) (l : Nat) : State :=
  let b := (laneOf s l).bias
  wfs s (Reg.OPT_LANE_BIAS (l / 32) (l % 32)) [(F.OPT_LANE_BIAS_BIAS, min 65535 (b / 2000)), (F.OPT_LANE_BIAS_PCT, b / (20 * max 1 (maxBias s l)))]

/-- Bias baseline of the lane's laser, in 1/2,000 of 10 µA. -/
def biasBase (s : State) (l : Nat) : Nat := 2000 * (trimApplied s 1 (laserIndex s l)).toNat

/-- Put a lane's laser at its bias baseline. -/
def biasToBase (s : State) (l : Nat) : State :=
  let s1 := applyTrim s 1 (laserIndex s l)
  showBias (setLaneOf s1 l { laneOf s1 l with bias := min (biasBase s1 l) (2000 * maxBias s1 l) }) l

/-- A direction enters FAILED: its exclusions are cleared (R309). -/
def dirFailed (s : State) (l : Nat) (rx : Bool) : State :=
  let s1 := setLaneDir (setLaneOf s l (setDirExcl (laneOf s l) rx [])) l rx 5
  settle s (optEvent s1 (l / 32) (if rx then F.OPT_EVT_RX_FAIL else F.OPT_EVT_TX_FAIL) (optBody (l / 32) (l % 32) 0xFF))

/-- Switch a FREE spare to a lane at once: its transmit direction starts again at SWEEP with no failures (R310, R317). -/
def switchNow (s : State) (l k : Nat) : State :=
  let s1 := switchSpare (dropLaneSpare (sirPreempt s (l / 32) (fun r => r.spare == k)) l) l k
  setLaneDir (setLaneOf s1 l { laneOf s1 l with txFails := 0, txExcl := [] }) l false 1

/-- A lane's laser is off for good, with its record (R310). -/
def setAside (s : State) (l : Nat) : State :=
  let s1 := { s with otp := { s.otp with deadLasers := s.otp.deadLasers ++ [laserIndex s l] } }
  dropLaneSpare (fsrStore s1 0x0B (lanePath l) [(0, l), (1, l / 32), (2, laneLaser s l)] [] (partOfRipple s (l / 8)) [] []) l

/-- The third transmit failure in a row (SPARE_TAKEOVER, R310): a live laser is replaced by the lowest FREE spare; a failed
spare, or no FREE one, leaves the direction in FAILED. -/
def spareTakeover (s : State) (l : Nat) : State :=
  let own := decide (laneLaser s l < 32)
  let s1 := setAside s l
  match (if own then freeSpare s1 (l / 32) else none) with
  | some k => switchNow s1 l k
  | none => dirFailed s1 l false

/-- Entry to WRONG and what follows within 10 µs (LOCK_WRONG, R309): the resonance is excluded, the failure counted. -/
def wrongLock (s : State) (l : Nat) (rx : Bool) : State :=
  let t := l / 32
  let x := laneOf s l
  let n := dirFails x rx + 1
  let s1 := optEvent (bump64 s (Reg.OPT_LOCK_WRONG t) 1) t F.OPT_EVT_LOCK_WRONG (optBody t (l % 32) 0xFF)
  let s2 := setLaneDir (setLaneOf s1 l (setDirExcl (setDirFails x rx (min 3 n)) rx (dirExcl x rx ++ [dirAt x rx]))) l rx 3
  if n < 3 then setLaneDir s2 l rx 1 else if rx then dirFailed s2 l true else spareTakeover s2 l

/-- SWEEP_DONE (R308, Table 13.5): the resonance found with its heater power, or none. A receive direction without a resonance
stays at SWEEP. -/
def execSweepDone (l : Fin 2048) (rx : Bool) (found : Option Nat) (s : State) : Host.Outcome State Fault Refusal :=
  let n := l.val
  .next (if laneDir s n rx ≠ 1 ∨ !laneRuns s n then s
    else
      let s0 := laneTakes s n
      let s1 := if rx then applyTrim s0 2 (4096 + n) else applyTrim (biasToBase s0 n) 2 n
      let x := laneOf s1 n
      match found with
      | some r => if resExcluded x rx r then s else setLaneDir (setLaneOf s1 n (setDirAt x rx r)) n rx 2
      | none =>
        let s2 := setLaneOf s1 n (setDirFails x rx (min 3 (dirFails x rx + 1)))
        if !rx ∧ 3 ≤ dirFails x rx + 1 then spareTakeover s2 n else s2)

/-- Show the last received pilot of a lane. -/
def showPilot (s : State) (l : Nat) (chan : BitVec 8) (ident : BitVec 16) : State :=
  wfs s (Reg.OPT_LANE_PILOT (l / 32) (l % 32)) [(F.OPT_LANE_PILOT_CHAN, chan.toNat), (F.OPT_LANE_PILOT_ID, ident.toNat)]

/-- What the monitor receiver checks of a lane's own pilot: channel, tile and lane (R308). -/
def txIdentOk (l : Nat) (chan : BitVec 8) (ident : BitVec 16) : Bool :=
  chan.toNat == laneChan l && bitsAt ident.toNat 5 6 == l / 32 && bitsAt ident.toNat 0 5 == l % 32

/-- Whether another lane of the fibre has its receive direction LOCKED. -/
def fibreKnown (s : State) (l : Nat) : Bool :=
  (List.range 8).any (fun i => l / 8 * 8 + i != l && laneDir s (l / 8 * 8 + i) true == 4)

/-- What a receive lane expects (R307): SPARE is ignored; the far tile and fibre are those recorded for the fibre, and on a bypass
tile the far fibre is f XOR 1. -/
def rxIdentOk (s : State) (l : Nat) (chan : BitVec 8) (ident : BitVec 16) : Bool :=
  let far := bitsAt ident.toNat 3 8
  chan.toNat == laneChan l && bitsAt ident.toNat 0 3 == l % 8
    && (!fibreKnown s l || SMap.find s.opt.fibreId (laneFibre l) == some far)
    && (!bypassTile s (l / 32) || bitsAt ident.toNat 3 2 == Nat.xor (l / 8 % 4) 1)

/-- A direction is verified: LOCKED, no failures, no exclusions. Its link waits for the peer's report of its own lock (R306, R311). -/
def lockedNow (s : State) (l : Nat) (rx : Bool) : State :=
  setLaneDir (setLaneOf s l { setDirExcl (setDirFails (laneOf s l) rx 0) rx [] with peerLocked := false }) l rx 4

/-- The handshake of a lane's port may start. -/
def laneHandshake (s : State) (l : Nat) : State := match portOfLane s l with
  | none => s
  | some r => tryHandshake s r.num

/-- IDENTITY_VERIFY (R307, R308): the identity seen within 50 µs of lock, or none. -/
def execIdentityVerify (l : Fin 2048) (rx : Bool) (ident : Option (BitVec 8 × BitVec 16)) (s : State) : Host.Outcome State Fault Refusal :=
  let n := l.val
  .next (if laneDir s n rx ≠ 2 ∨ !laneRuns s n then s
    else match ident with
      | none => wrongLock s n rx
      | some (chan, id) =>
        if rx then
          let s1 := showPilot s n chan id
          if rxIdentOk s n chan id then
            lockedNow { s1 with opt := { s1.opt with fibreId := SMap.ins s1.opt.fibreId (laneFibre n) (bitsAt id.toNat 3 8) } } n true
          else wrongLock s1 n true
        else if txIdentOk n chan id then lockedNow s n false
        else wrongLock s n false)

/-- LANE_FAILED_RETRY (Table 13.5, R310): 1 s after FAILED. A transmit direction whose laser is off for good needs the next FREE
spare, and stays in FAILED without one. -/
def execLaneFailedRetry (l : Fin 2048) (rx : Bool) (s : State) : Host.Outcome State Fault Refusal :=
  let n := l.val
  .next (if laneDir s n rx ≠ 5 ∨ !laneRuns s n then s
    else
      let s1 := setLaneOf s n (setDirExcl (setDirFails (laneOf s n) rx 0) rx [])
      if rx then settle s (setLaneDir s1 n true 1)
      else match freeSpare s1 (n / 32) with
        | none => s
        | some k => settle s (switchNow s1 n k))

/-- PILOT_IDENTITY_RX (R311). -/
def execPilotIdentityRx (l : Fin 2048) (chan : BitVec 8) (ident : BitVec 16) (s : State) : Host.Outcome State Fault Refusal :=
  let n := l.val
  .next (if laneDir s n true ≠ 4 ∨ !laneRuns s n then s
    else
      let s1 := showPilot s n chan ident
      if rxIdentOk s n chan ident && SMap.find s.opt.fibreId (laneFibre n) == some (bitsAt ident.toNat 3 8) then s1
      else wrongLock (laneLeaves s1 n true 3) n true)

/-- LANE_LOCK_LOST (R311): no failure is counted. -/
def execLaneLockLost (l : Fin 2048) (rx : Bool) (s : State) : Host.Outcome State Fault Refusal :=
  .next (if laneDir s l.val rx ≠ 4 then s else laneLeaves (laneTakes s l.val) l.val rx 1)

/-! ## Spares and swaps (R314 to R316) -/

/-- MARGIN of a lane. -/
def laneMargin (s : State) (l : Nat) : Int := signedOf 16 (rf s (Reg.OPT_LANE_PWR (l / 32) (l % 32)) F.OPT_LANE_PWR_MARGIN)

/-- Lanes of a tile that wait for a spare: in PREPARE, or later with their spare lost, in ascending margin, ties to the lower lane. -/
def waitingLanes (s : State) (t : Nat) : List Nat :=
  sortBy (fun l => (laneMargin s l + 32768).toNat)
    (((List.range 32).map (t * 32 + ·)).filter (fun l => decide (2 ≤ laneAge s l ∧ laneAge s l ≤ 4) && (laneOf s l).spare.isNone))

/-- Give one lane the lowest FREE spare. -/
def claimSpare (s : State) (l : Nat) : State :=
  match freeSpare s (l / 32) with
  | none => s
  | some k =>
    let s1 := { s with opt := { s.opt with spareFails := SMap.del s.opt.spareFails (l / 32 * 4 + k) } }
    setLaneOf (takeSpare s1 (l / 32) k 1 (l % 32)) l { laneOf s1 l with spare := some k, spareSince := none, swap := none }

/-- Give the FREE spares of a tile to its waiting lanes (R315). -/
def claimSpares (s : State) (t : Nat) : State := (waitingLanes s t).foldl claimSpare s

/-- Whether a lane holds a spare that is VERIFIED. -/
def spareReady (s : State) (l : Nat) : Bool := ((laneOf s l).spare.map (fun k => spareSt s (l / 32) k == 5)).getD false

/-- Plan a lane's swap at an instant. -/
def setSwap (s : State) (l : Nat) (w : Option (Nat × Bool)) : State := setLaneOf s l { laneOf s l with swap := w }

/-- Plan a swap in an imposed interval (SWAP_FORCED, R316), 100 µs ahead. -/
def planForced (s : State) (l : Nat) : State :=
  let i := s.clock + 100 * usUnit
  let s1 := optEvent (setSwap s l (some (i, true))) (l / 32) F.OPT_EVT_FORCED (optBody (l / 32) (l % 32) ((laneOf s l).spare.getD 0xFF))
  match portOfLane s1 l with
  | none => s1
  | some r => imposeInterval s1 r.num i 2000

/-- The earliest start of a guard window for a lane's swap: 1 µs after its spare reached VERIFIED (R315). -/
def swapFrom (s : State) (l : Nat) : Nat := max s.clock (((laneOf s l).spareSince.getD 0) + usUnit)

/-- Whether a lane's telemetry is lost: the ageing actions are suspended until its next report (R313). -/
def telemetryLost (s : State) (l : Nat) : Bool :=
  !rb s (Reg.OPT_LANE_STATUS (l / 32) (l % 32)) F.OPT_LANE_STATUS_TELEM_OK && decide (0 < (laneOf s l).reportAt)

/-- Plan the swap of a lane whose spare is VERIFIED. -/
def planSwap (s : State) (l : Nat) : State :=
  if !timReady s || telemetryLost s l then s
  else if laneAge s l = 4 ∨ (gateList s (l / 8)).isNone ∨ rb s (Reg.OPT_LANE_STATUS (l / 32) (l % 32)) F.OPT_LANE_STATUS_EXPRESS then planForced s l
  else setSwap s l ((swapWindow s (l / 8) (swapFrom s l)).map (fun g => (g, false)))

/-- Whether a qualifying guard window starts within 10 s. -/
def windowSoon (s : State) (l : Nat) : Bool :=
  ((swapWindow s (l / 8) s.clock).map (fun g => decide (g ≤ s.clock + 10 * secUnit))).getD false

/-! ## Telemetry and ageing (R312 to R314) -/

/-- OPT_CFG.P_TGT within its limits. -/
def powerTarget (s : State) (t : Nat) : Int := clampInt (-1200, -400) (signedOf 16 (rf s (Reg.OPT_CFG t) F.OPT_CFG_P_TGT))

/-- The bias loop (R312): one step of 0.05 % of the factory maximum, between the baseline and the maximum. -/
def biasStep (s : State) (l : Nat) (p : Int) : State :=
  let m := maxBias s l
  let b := (laneOf s l).bias
  let b1 := if p < powerTarget s (l / 32) - 10 then b + m else if powerTarget s (l / 32) + 10 < p then b - m else b
  showBias (setLaneOf s l { laneOf s l with bias := min (2000 * m) (max (biasBase s l) b1) }) l

/-- Whether the bias is at least, or at most, so many per cent of the factory maximum. -/
def biasAtLeast (s : State) (l pct : Nat) : Bool := decide (pct * 20 * maxBias s l ≤ (laneOf s l).bias)
def biasAtMost (s : State) (l pct : Nat) : Bool := decide ((laneOf s l).bias ≤ pct * 20 * maxBias s l)

/-- A lane enters PREPARE. -/
def prepareLane (s : State) (l : Nat) : State :=
  if 2 ≤ laneAge s l then claimSpares s (l / 32)
  else claimSpares (optEvent (setLaneAge s l 2) (l / 32) F.OPT_EVT_PREPARE (optBody (l / 32) (l % 32) 0xFF)) (l / 32)

/-- A lane enters FORCED: its swap goes through an imposed interval as soon as its spare is VERIFIED. -/
def forceLane (s : State) (l : Nat) : State :=
  let s1 := claimSpares (setLaneAge s l 4) (l / 32)
  let planned := ((laneOf s1 l).swap.map (·.2)).getD false
  if spareReady s1 l ∧ !planned then planSwap s1 l else s1

/-- Back from WARN to OK once the margin and the bias have allowed it for 1 s (R314). -/
def ageRecover (s : State) (l : Nat) (m : Int) : State :=
  if laneAge s l ≠ 1 then s
  else if m < 250 ∨ !biasAtMost s l 80 then setLaneOf s l { laneOf s l with okSince := none }
  else match (laneOf s l).okSince with
    | none => setLaneOf s l { laneOf s l with okSince := some s.clock }
    | some t => if t + secUnit ≤ s.clock then setLaneAge (setLaneOf s l { laneOf s l with okSince := none }) l 0 else s

/-- The ageing actions of one report (Table 13.6): the first row that holds from the bottom up. -/
def ageReport (s : State) (l : Nat) (m : Int) : State :=
  let own := spareReady s l
  if laneAge s l = 5 then s
  else if m < 50 ∧ !own ∧ (freeSpare s (l / 32)).isNone then retireLane s l
  else if m < 50 ∨ (m ≤ 100 ∧ own ∧ !windowSoon s l) ∨ laneAge s l = 4 then forceLane s l
  else if own then (if (laneOf s l).swap.isNone then planSwap (setLaneAge s l 3) l else s)
  else if m ≤ 150 ∨ biasAtLeast s l 90 ∨ 2 ≤ laneAge s l then prepareLane s l
  else if m ≤ 200 ∨ biasAtLeast s l 85 then
    let s1 := setLaneOf s l { laneOf s l with okSince := none }
    if laneAge s l = 0 then optEvent (setLaneAge s1 l 1) (l / 32) F.OPT_EVT_WARN (optBody (l / 32) (l % 32) 0xFF) else s1
  else ageRecover s l m

/-- TELEMETRY_REPORT (R306, R312 to R314): P_FAR of a transmit lane, with S = −16.00 dBm, and the lock of the peer's receive lane, for
which the handshake of a port waits (R311). -/
def execTelemetryReport (l : Fin 2048) (r : PeerReport) (s : State) : Host.Outcome State Fault Refusal :=
  let n := l.val
  .next (if laneDir s n false ≠ 4 ∨ laneDir s n true ≠ 4 ∨ !laneRuns s n then s
    else
      let p := r.pfar.toInt
      let m := p + 1600
      let s1 := wfs s (Reg.OPT_LANE_PWR (n / 32) (n % 32)) [(F.OPT_LANE_PWR_P_FAR, r.pfar.toNat),
        (F.OPT_LANE_PWR_MARGIN, encodeSigned 16 (clampInt (-32768, 32767) m))]
      let s2 := wf s1 (Reg.OPT_LANE_STATUS (n / 32) (n % 32)) F.OPT_LANE_STATUS_TELEM_OK 1
      laneHandshake (ageReport (biasStep (setLaneOf s2 n { laneOf s2 n with reportAt := s.clock, peerLocked := r.locked }) n p) n m) n)

/-- TELEMETRY_LOST (R313): no report for 10 ms. -/
def execTelemetryLost (l : Fin 2048) (s : State) : Host.Outcome State Fault Refusal :=
  let n := l.val
  let a := Reg.OPT_LANE_STATUS (n / 32) (n % 32)
  .next (if !rb s a F.OPT_LANE_STATUS_TELEM_OK ∨ s.clock < (laneOf s n).reportAt + 10000 * usUnit then s
    else optEvent (wf s a F.OPT_LANE_STATUS_TELEM_OK 0) (n / 32) F.OPT_EVT_TELEM_LOST (optBody (n / 32) (n % 32) 0xFF))

/-- Whether a spare of a powered tile is in a state. -/
def spareIs (s : State) (t k st : Nat) : Bool := spareSt s t k == st && duneUp s (t / 8)

/-- SPARE_WARM_DONE (Table 13.7): 20 ms on the monitor waveguide. -/
def execSpareWarmDone (t : Fin 64) (sp : Fin 4) (s : State) : Host.Outcome State Fault Refusal :=
  .next (if spareIs s t.val sp.val 1 then setSpare (applyTrim s 1 (t.val * 36 + 32 + sp.val)) t.val sp.val 2 (spareLane s t.val sp.val) else s)

/-- SPARE_TUNE_DONE (Table 13.7). -/
def execSpareTuneDone (t : Fin 64) (sp : Fin 4) (s : State) : Host.Outcome State Fault Refusal :=
  .next (if spareIs s t.val sp.val 2 then setSpare s t.val sp.val 3 (spareLane s t.val sp.val) else s)

/-- SPARE_LOCK_DONE (Table 13.7). -/
def execSpareLockDone (t : Fin 64) (sp : Fin 4) (s : State) : Host.Outcome State Fault Refusal :=
  .next (if spareIs s t.val sp.val 3 then setSpare s t.val sp.val 4 (spareLane s t.val sp.val) else s)

/-- A spare's verification fails: TUNING, or FAILED the third time, and the next FREE spare is claimed. -/
def spareRejected (s : State) (t k l : Nat) : State :=
  let n := SMap.get (fun _ => 0) s.opt.spareFails (t * 4 + k) + 1
  if n < 3 then setSpare { s with opt := { s.opt with spareFails := SMap.ins s.opt.spareFails (t * 4 + k) n } } t k 2 (l % 32)
  else claimSpares (setLaneOf (failSpare s t k) l { laneOf s l with spare := none, spareSince := none, swap := none }) t

/-- SPARE_VERIFY_DONE (Table 13.7, R315). -/
def execSpareVerifyDone (t : Fin 64) (sp : Fin 4) (ok : Bool) (s : State) : Host.Outcome State Fault Refusal :=
  let l := t.val * 32 + spareLane s t.val sp.val
  .next (if !spareIs s t.val sp.val 4 then s
    else if !ok then spareRejected s t.val sp.val l
    else
      let s1 := setLaneOf (setSpare s t.val sp.val 5 (l % 32)) l { laneOf s l with spareSince := some s.clock }
      planSwap (if laneAge s1 l = 4 then s1 else setLaneAge s1 l 3) l)

/-- SPARE_DRIFT (Table 13.7): the swap waits for the spare to be VERIFIED again; AGE stays (R314). -/
def execSpareDrift (t : Fin 64) (sp : Fin 4) (s : State) : Host.Outcome State Fault Refusal :=
  let l := t.val * 32 + spareLane s t.val sp.val
  .next (if spareIs s t.val sp.val 5 then
      setLaneOf (setSpare s t.val sp.val 2 (l % 32)) l { laneOf s l with spareSince := none, swap := none }
    else s)

/-- The swap itself: the selector switches, the lane is OK, the old laser ramps down (R315). -/
def doSwap (s : State) (l k : Nat) (forced : Bool) : State :=
  let t := l / 32
  let s1 := setLaneOf s l { laneOf s l with spare := none, spareSince := none, swap := none, okSince := none }
  let s2 := biasToBase (setLaneAge (switchSpare (dropLaneSpare s1 l) l k) l 0) l
  let s3 := bump64 s2 (Reg.OPT_SWAPS t) 1
  let s4 := if forced then bump64 s3 (Reg.OPT_FORCED_SWAPS t) 1 else s3
  optEvent s4 t F.OPT_EVT_SWAP_DONE (optBody t (l % 32) k)

/-- Whether the cross-connect setting of a lane changes at an instant (R39). -/
def xcAt (s : State) (l g : Nat) : Bool := s.opt.arms.any (fun a => a.tile == l / 32 && a.slot == l % 32 && a.at_ == g)

/-- Whether a planned swap finds its guard window: declared by the group at that instant and not taken by a cross-connect change
of the lane (R39, R315). -/
def swapStands (s : State) (l g : Nat) : Bool :=
  guardAt s (l / 8) g && !xcAt s l g

/-- SWAP_EXECUTE (R315, R316): the planned instant has come, or a step has jumped over it. On a lane whose cross-connect changes at that
instant no swap is executed, an imposed one neither: it waits (R39). With its telemetry lost the swap is suspended, and planned again
at the next report (R313). -/
def execSwapExecute (l : Fin 2048) (s : State) : Host.Outcome State Fault Refusal :=
  let n := l.val
  .next (match (laneOf s n).swap, (laneOf s n).spare with
    | some (g, forced), some k =>
      if s.clock < g ∨ !spareReady s n ∨ !laneRuns s n then s
      else if telemetryLost s n then setSwap s n none
      else if (forced ∧ !xcAt s n g) ∨ swapStands s n g then doSwap s n k forced
      else planSwap (setSwap s n none) n
    | _, _ => s)

/-- LASER_LOST (R317): the lane's own VERIFIED spare, else the lowest FREE one, is switched in, or the lane is retired. -/
def execLaserLost (l : Fin 2048) (s : State) : Host.Outcome State Fault Refusal :=
  let n := l.val
  let t := n / 32
  .next (if laneDir s n false = 0 ∨ laneDir s n false = 5 ∨ !laneRuns s n then s
    else
      let s1 := optEvent (laneLeaves s n false 1) t F.OPT_EVT_LASER_LOST (optBody t (n % 32) 0xFF)
      match (if spareReady s1 n then (laneOf s1 n).spare else freeSpare s1 t) with
      | none => retireLane s1 n
      | some k =>
        let s2 := if (laneOf s1 n).spare = some k then setLaneOf s1 n { laneOf s1 n with spare := none, spareSince := none, swap := none } else freeLaneSpare s1 n
        claimSpares (setLaneAge (switchNow s2 n k) n 0) t)

/-- SWAP_REQUEST (Table 13.14): a write of OPT_SWAP_CTRL. -/
def execSwapRequest (t : Fin 64) (v : Word) (s : State) : Host.Outcome State Fault Refusal :=
  let l := t.val * 32 + bitsAt v.toNat 0 5
  .next (if !s.plat.running ∨ !tileFitted s.otp.variant t.val then s
    else if held s then heldRefuse s (Reg.OPT_SWAP_CTRL t.val)
    else if !keyOk v ∨ !wbit v 5 ∨ 2 ≤ laneAge s l ∨ !laneRuns s l then s
    else prepareLane s l)

end Sys2Proof.Machine
end

