-- ==== Sys2Proof/Machine/Express.lean ====
section
/-! DEFINITION. The cross-connect and express paths: the wavelength-assignment service and its messages (spec/13: R319 to R325,
Table 13.9). -/
namespace Sys2Proof.Machine

/-! ## Lines and slots (R321, R322) -/

/-- The opposite direction. -/
def oppositeDir (dir : Nat) : Nat := if dir % 2 = 0 then dir + 1 else dir - 1

/-- The coordinate `h` hops along a direction from `c`. -/
def alongDir (s : State) (c dir h : Nat) : Nat :=
  let n := dimSize s (dir / 2)
  coordSet c (dir / 2) ((if dir % 2 = 0 then coordAt c (dir / 2) + h else coordAt c (dir / 2) + n * h - h) % n)

/-- Hops along a direction from `c` to `t`; 0 where `t` lies off the line. -/
def hopsAlong (s : State) (c t dir : Nat) : Nat :=
  let n := dimSize s (dir / 2)
  let d := if dir % 2 = 0 then coordAt t (dir / 2) + n - coordAt c (dir / 2) else coordAt c (dir / 2) + n - coordAt t (dir / 2)
  if coordSet t (dir / 2) (coordAt c (dir / 2)) = c then d % n else 0

/-- The fibres that a path uses at a spine in a role: the origin the one facing its direction, the target the one facing the
opposite way, an intermediate spine both. -/
def roleFibres (role q dir : Nat) : List Nat :=
  if role = 0 then [pairFibre q dir] else if role = 2 then [pairFibre q (dir + 1)] else [pairFibre q dir, pairFibre q (dir + 1)]

/-- Receive slots of a path at this spine. -/
def pathSlots (p : Path) : List Nat :=
  ((roleFibres p.role p.pair p.dir).map (fun f => (List.range p.w).map (fun i => f * 8 + p.w0 + i))).flatten

/-- Whether two paths at this spine may not stand side by side: they share a slot, or one ends on a fibre of the other. -/
def pathsClash (a b : Path) : Bool :=
  a.pair == b.pair && ((pathSlots a).any (pathSlots b).contains
    || ((a.role != 1 || b.role != 1) && (roleFibres a.role a.pair a.dir).any (roleFibres b.role b.pair b.dir).contains))

/-- Whether a path's slots are free here: its tile powered, its lanes usable, no other path, no armed change (R320, R322). -/
def slotsFree (s : State) (p : Path) : Bool :=
  let t := pairTile s p.pair
  decide (t < 64) && duneUp s (t / 8) && (pathSlots p).all (fun i => laneUsable s (t * 32 + i))
    && !s.opt.paths.any (pathsClash p) && !s.opt.arms.any (fun a => a.tile == t && (pathSlots p).contains a.slot)

/-- The path of an origin with a local number. -/
def pathOf (s : State) (origin id : Nat) : Option Path := s.opt.paths.find? (fun p => p.origin == origin && p.id == id)

/-- Replace a path. -/
def setPath (s : State) (p : Path) : State :=
  { s with opt := { s.opt with paths := modFirst (fun x => x.origin == p.origin && x.id == p.id) (fun _ => p) s.opt.paths } }

/-- Hold a path's slots: a Sirocco run that uses one of its lanes ends (R333). -/
def holdPath (s : State) (p : Path) : State :=
  let t := pairTile s p.pair
  let s1 := sirPreempt { s with opt := { s.opt with paths := s.opt.paths ++ [p] } } t (fun r => (pathSlots p).contains r.lane)
  (pathSlots p).foldl (fun u i => wf u (Reg.OPT_XC t i) F.OPT_XC_PATH_ID p.id) s1

/-- Show that a slot has no armed change. -/
def unarmSlot (t : Nat) (s : State) (i : Nat) : State :=
  wfs s (Reg.OPT_XC t i) [(F.OPT_XC_ARMED, 0), (F.OPT_XC_NEXT_MODE, 0), (F.OPT_XC_NEXT_FIBRE, 0)]

/-- Give up a path that is not in use: its slots and armed changes are released (PATH_CANCEL). -/
def dropPath (s : State) (p : Path) : State :=
  let t := pairTile s p.pair
  let opt := { s.opt with paths := s.opt.paths.filter (fun x => !(x.origin == p.origin && x.id == p.id)),
                          arms := s.opt.arms.filter (fun a => !(a.origin == p.origin && a.id == p.id)) }
  (pathSlots p).foldl (fun u i => wf (unarmSlot t u i) (Reg.OPT_XC t i) F.OPT_XC_PATH_ID 0) { s with opt := opt }

/-- Arm one slot (R320). -/
def armSlot (p : Path) (at_ mode fibre t : Nat) (s : State) (i : Nat) : State :=
  let s1 := { s with opt := { s.opt with arms := s.opt.arms ++ [⟨t, i, at_, mode, fibre, p.origin, p.id⟩] } }
  wfs s1 (Reg.OPT_XC t i) [(F.OPT_XC_ARMED, 1), (F.OPT_XC_NEXT_MODE, mode), (F.OPT_XC_NEXT_FIBRE, fibre)]

/-- Arm a path's slots: terminated at its ends, steered straight through between (R319, R322). -/
def armPath (s : State) (p : Path) (at_ : Nat) : State :=
  let t := pairTile s p.pair
  (pathSlots p).foldl (fun u i => if p.role = 1 then armSlot p at_ 1 (Nat.xor (i / 8) 1) t u i else armSlot p at_ 0 0 t u i) s

/-- Arm the return of the slots that a path still holds to BLOCK (R325). -/
def armBlock (s : State) (p : Path) (at_ : Nat) : State :=
  let t := pairTile s p.pair
  ((pathSlots p).filter (fun i => rf s (Reg.OPT_XC t i) F.OPT_XC_PATH_ID == p.id && rf s (Reg.OPT_XC t i) F.OPT_XC_MODE != 2)).foldl
    (armSlot p at_ 2 0 t) s

/-- Whether a change may be armed for an instant (R320). -/
def mayArm (s : State) (at_ : Nat) : Bool := timReady s && decide (s.clock + 100 * usUnit ≤ at_)

/-- The first whole 10 µs at least 1 ms ahead (R323). -/
def pathInstant (s : State) : Nat := (s.clock + 1000 * usUnit + 10 * usUnit - 1) / (10 * usUnit) * (10 * usUnit)

/-! ## Messages (Table 13.9) -/

/-- The 32 bytes of a path message. -/
def pathBytes (typ reason : Nat) (p : Path) (at_ : Nat) : List Byte :=
  natBe 1 typ ++ natBe 1 reason ++ natBe 2 p.id ++ natBe 3 p.origin ++ natBe 3 p.target ++ natBe 1 (p.pair * 16 + p.dir)
    ++ natBe 1 (p.w0 * 16 + p.w) ++ natBe 4 (at_ / secUnit % 2 ^ 32) ++ natBe 4 (at_ / nsUnit % 10 ^ 9) ++ natBe 12 0

/-- Send a path message to the wavelength-assignment endpoint of a spine (log 26). -/
def pathSend (s : State) (p : Path) (dst typ reason at_ : Nat) : State :=
  emit s (.msg none (originCfh s 0 (hallPart s p.partNo) (serviceEp 0xE80000 dst) (serviceEp 0xE80000 (ownCoord s)) 0 32)
    (pathBytes typ reason p at_))

/-- Send a message to every other spine of a path. -/
def pathSendAll (s : State) (p : Path) (typ at_ : Nat) : State :=
  (List.range (hopsAlong s p.origin p.target p.dir)).foldl (fun u h => pathSend u p (alongDir u p.origin p.dir (h + 1)) typ 0 at_) s

/-- A request declined or a path refused: counted and shown at a tile (R322, R323). -/
def xcDenied (s : State) (t : Nat) : State :=
  optEvent (bump64 s (Reg.OPT_XC_DENIED_CNT t) 1) t F.OPT_EVT_XC_DENIED (optBody t 0xFF 0xFF)

/-- The origin gives up a path: CANCEL to every spine of it (R323). -/
def cancelPath (s : State) (p : Path) : State := xcDenied (dropPath (pathSendAll s p 0x35 0) p) (pairTile s p.pair)

/-! ## Setting up a path (R322, R323) -/

/-- The pairs of a direction's axis. -/
def axisPairs (s : State) (dir : Nat) : List Nat :=
  if torusDims s = 0 then [] else (List.range (2 * (poolTiles s).length)).filter (fun q => q % torusDims s == dir / 2)

/-- A path that an origin may ask for. -/
def originPath (s : State) (dir target w w0 q : Nat) : Path :=
  ⟨s.opt.nextPath, ownCoord s, target, q, dir, w0, w, 0, 0, s.clock + 10000 * usUnit, 0, [], false,
   partOfRipple s (pairTile s q * 4 + pairFibre q dir)⟩

/-- The widest path that fits a request at its origin: the widest W with aligned wavelengths that are free on its slots here, on the
lowest pair of the axis and the lowest wavelengths that have them (R322). -/
def grantPath (s : State) (dir target width : Nat) : Option Path :=
  let h := hopsAlong s (ownCoord s) target dir
  if torusDims s ≤ dir / 2 ∨ h < 2 ∨ dimSize s (dir / 2) ≤ h then none
  else
    let fits := fun (w : Nat) => (axisPairs s dir).flatMap (fun q => (List.range (8 / w)).map (fun i => originPath s dir target w (i * w) q))
    (([8, 4, 2, 1].filter (fun w => decide (w ≤ width))).flatMap fits).find? (slotsFree s)

/-- BYPASS_REQUEST (R322): a bypass request that the routing of this spine has sent, which carries 8 lanes (R179). -/
def execBypassRequest (dir : Fin 6) (target : BitVec 24) (width : Fin 256) (s : State) : Host.Outcome State Fault Refusal :=
  .next (if SMap.find s.rte.bypassAsked dir.val ≠ some target.toNat ∨ width.val ≠ 8 then s
    else
      let s0 := { s with rte := { s.rte with bypassAsked := SMap.del s.rte.bypassAsked dir.val } }
      match (if held s then none else grantPath s0 dir.val target.toNat width.val) with
      | none => xcDenied s0 (((axisPairs s0 dir.val).head?.map (pairTile s0)).getD 0)
      | some p =>
        let s1 := { s0 with opt := { s0.opt with nextPath := (s0.opt.nextPath + 1) % 65536 } }
        pathSend (holdPath s1 p) p (alongDir s1 p.origin p.dir 1) 0x30 0 0)

/-- The path that a RESERVE asks this spine for. -/
def askedPath (s : State) (m : PathMsg) : Path :=
  let role := if ownCoord s = m.target then 2 else 1
  ⟨m.id, m.origin, m.target, m.pair, m.dir, m.w0, m.w, role, 0, s.clock + 10000 * usUnit, 0, [], false,
   partOfRipple s (pairTile s m.pair * 4 + pairFibre m.pair m.dir)⟩

/-- Refuse a message with DENY to the origin. -/
def denyPath (s : State) (p : Path) (reason : Nat) : State :=
  let t := pairTile s p.pair
  let s1 := pathSend s p p.origin 0x32 reason 0
  if t < 64 then xcDenied s1 t else s1

/-- Whether a RESERVE reaches a spine of its line that is not the origin, with aligned wavelengths. -/
def reserveOk (s : State) (m : PathMsg) : Bool :=
  let h := hopsAlong s m.origin (ownCoord s) m.dir
  decide (0 < h) && decide (h ≤ hopsAlong s m.origin m.target m.dir) && decide (m.dir / 2 < torusDims s)
    && [1, 2, 4, 8].contains m.w && m.w0 % m.w == 0 && decide (m.w0 + m.w ≤ 8)

/-- PATH_RESERVE (R323): slots are held for 10 ms, or the origin gets DENY. -/
def execPathReserve (m : PathMsg) (s : State) : Host.Outcome State Fault Refusal :=
  let p := askedPath s m
  .next (if !s.plat.running then s
    else if held s then denyPath s p 2
    else if !reserveOk s m ∨ (pathOf s m.origin m.id).isSome ∨ !slotsFree s p then denyPath s p 1
    else
      let s1 := holdPath s p
      if p.role = 2 then pathSend s1 p p.origin 0x31 0 0 else pathSend s1 p (alongDir s1 (ownCoord s1) p.dir 1) 0x30 0 0)

/-- PATH_RESERVED (R323): the origin picks the instant, arms its own slots and sends ARM. -/
def execPathReserved (m : PathMsg) (s : State) : Host.Outcome State Fault Refusal :=
  .next (match pathOf s m.origin m.id with
    | none => s
    | some p =>
      if p.role ≠ 0 ∨ p.st ≠ 0 then s
      else if held s ∨ !timReady s then cancelPath s p
      else
        let i := pathInstant s
        let p1 := { p with st := 1, at_ := i }
        pathSendAll (armPath (setPath s p1) p1 i) p1 0x33 i)

/-- PATH_DENY (R323). -/
def execPathDeny (m : PathMsg) (s : State) : Host.Outcome State Fault Refusal :=
  .next (match pathOf s m.origin m.id with
    | none => s
    | some p => if p.role = 0 ∧ p.st < 2 then cancelPath s p else s)

/-- PATH_ARM (R320, R323): no time is ready (04h), or the instant is too near (03h); which reason says which is DEDUCED, log 224. -/
def execPathArm (m : PathMsg) (s : State) : Host.Outcome State Fault Refusal :=
  let i := instant m.sec m.ns
  .next (if !s.plat.running then s
    else match pathOf s m.origin m.id with
      | none => denyPath s (askedPath s m) 3
      | some p =>
        if p.role = 0 ∨ p.st ≠ 0 then s
        else if held s then denyPath s p 2
        else if !timReady s then denyPath s p 4
        else if i < s.clock + 100 * usUnit then denyPath s p 3
        else
          let p1 := { p with st := 1, at_ := i }
          pathSend (armPath (setPath s p1) p1 i) p1 p1.origin 0x34 0 i)

/-- PATH_ARMED (R323): an answer that comes by I − 200 µs counts; with the last one the path proceeds. -/
def execPathArmed (m : PathMsg) (sender : BitVec 24) (s : State) : Host.Outcome State Fault Refusal :=
  .next (match pathOf s m.origin m.id with
    | none => s
    | some p =>
      if p.role ≠ 0 ∨ p.st ≠ 1 ∨ p.answered.contains sender.toNat ∨ p.at_ < s.clock + 200 * usUnit then s
      else
        let a := p.answered ++ [sender.toNat]
        setPath s { p with answered := a, st := if hopsAlong s p.origin p.target p.dir ≤ a.length then 2 else 1 })

/-- PATH_ARM_DEADLINE (R323): I − 200 µs without every ARMED. -/
def execPathArmDeadline (pid : BitVec 16) (s : State) : Host.Outcome State Fault Refusal :=
  .next (match pathOf s (ownCoord s) pid.toNat with
    | none => s
    | some p => if p.role = 0 ∧ p.st = 1 ∧ p.at_ ≤ s.clock + 200 * usUnit then cancelPath s p else s)

/-- PATH_CANCEL (R323): a path that is not in use is given up. -/
def execPathCancel (m : PathMsg) (s : State) : Host.Outcome State Fault Refusal :=
  .next (match pathOf s m.origin m.id with
    | none => s
    | some p => if p.role ≠ 0 ∧ p.st < 2 then dropPath s p else s)

/-- PATH_RESERVE_EXPIRY (R323): 10 ms without an arm. -/
def execPathReserveExpiry (origin : BitVec 24) (pid : BitVec 16) (s : State) : Host.Outcome State Fault Refusal :=
  .next (match pathOf s origin.toNat pid.toNat with
    | none => s
    | some p =>
      if p.st ≠ 0 ∨ s.clock < p.expiry then s
      else if p.role = 0 then cancelPath s p else dropPath s p)

/-! ## Using and releasing a path (R319, R324, R325) -/

/-- A direction's lane of a path goes dark. -/
def laneDark (s : State) (l : Nat) : State :=
  wf (laneLeaves (laneLeaves s l false 0) l true 0) (Reg.OPT_LANE_STATUS (l / 32) (l % 32)) F.OPT_LANE_STATUS_EXPRESS 0

/-- The slots of a path have all changed: an armed path is in use; one that is released ends, its express port with it. -/
def pathChanged (s : State) (p : Path) (mode : Nat) : State :=
  if s.opt.arms.any (fun a => a.origin == p.origin && a.id == p.id) then s
  else if mode ≠ 2 then setPath s { p with st := max 2 p.st }
  else
    { s with opt := { s.opt with paths := s.opt.paths.filter (fun x => !(x.origin == p.origin && x.id == p.id)) },
             rte := { s.rte with expressPorts := s.rte.expressPorts.filter (fun e => e.1.num != 2048 + pathFirst s p) } }

/-- CROSS_CONNECT_CHANGE (R319, R320): an armed change executes, in holdover and in HELD too. A laser swap of the lane planned
for the same instant waits for the next guard window (R39). -/
def execCrossConnectChange (t : Fin 64) (slot : Fin 32) (s : State) : Host.Outcome State Fault Refusal :=
  let l := t.val * 32 + slot.val
  .next (match s.opt.arms.find? (fun a => a.tile == t.val && a.slot == slot.val) with
    | none => s
    | some a =>
      if s.clock < a.at_ then s
      else
        let s1 := { s with opt := { s.opt with arms := dropFirst (fun x => x == a) s.opt.arms } }
        let s2 := wfs (unarmSlot t.val s1 slot.val) (Reg.OPT_XC t.val slot.val)
          [(F.OPT_XC_MODE, a.mode), (F.OPT_XC_OUT_FIBRE, a.fibre), (F.OPT_XC_PATH_ID, if a.mode = 2 then 0 else a.id)]
        let s3 := optEvent (bump64 s2 (Reg.OPT_XC_CHANGES t.val) 1) t.val F.OPT_EVT_XC_DONE (optBody t.val slot.val 0xFF)
        let s4 := if a.mode = 2 then laneDark s3 l else s3
        let s5 := if (laneOf s4 l).swap.any (fun w => w.1 == a.at_) then planSwap (setSwap s4 l none) l else s4
        match pathOf s5 a.origin a.id with
        | none => s5
        | some p => pathChanged s5 p a.mode)

/-- The express port of a path's end (R324): it has no port number and no gate list; at the origin it carries the packets whose
TARGET is the path's, at the target nothing leaves on it. -/
def expressPort (s : State) (p : Path) : PortRec × Nat :=
  let f := pathFirst s p
  (⟨2048 + f, f, p.w, 0, 2, 0⟩, if p.role = 0 then p.target else 2 ^ 24)

/-- PATH_LANE_START (R324): 600 ns after the instant an end of the path starts its lanes; its fibre enters SAFE and is probed at
once. -/
def execPathLaneStart (origin : BitVec 24) (pid : BitVec 16) (s : State) : Host.Outcome State Fault Refusal :=
  .next (match pathOf s origin.toNat pid.toNat with
    | none => s
    | some p =>
      if p.role = 1 ∨ p.st ≠ 2 ∨ p.started ∨ s.clock < p.at_ + 600 * nsUnit
          ∨ s.opt.arms.any (fun a => a.origin == p.origin && a.id == p.id) then s
      else
        let f := pathFirst s p
        let s1 := setPath s { p with started := true }
        let s2 := { s1 with rte := { s1.rte with expressPorts := s1.rte.expressPorts ++ [expressPort s p] },
                            opt := { s1.opt with fullLevel := SMap.del s1.opt.fullLevel (f / 8) } }
        (List.range p.w).foldl (fun u i =>
          wf (laneStart (laneStart u (f + i) false) (f + i) true) (Reg.OPT_LANE_STATUS (f / 32) ((f + i) % 32)) F.OPT_LANE_STATUS_EXPRESS 1)
          (fibreSafe s2 (f / 32) (f / 8 % 4) 0))

/-- BYPASS_RELEASE (R179, R325): U_d has stayed below 50 % for 1 ms; the paths granted to the direction are released. -/
def execBypassRelease (dir : Fin 6) (s : State) : Host.Outcome State Fault Refusal :=
  .next (if SMap.get (fun _ => 0) s.rte.lowRun dir.val < 100 then s
    else
      let f := fun (p : Path) => if p.role = 0 ∧ p.dir = dir.val ∧ p.st = 2 ∧ p.started then { p with st := 3 } else p
      { s with opt := { s.opt with paths := s.opt.paths.map f } })

/-- Whether nothing waits for a port: in its egress queues or on the way to them. -/
def portEmpty (s : State) (p : Nat) : Bool := portCells s p == 0 && s.swc.mesh.all (fun k => k.outPort != p)

/-- PATH_RELEASE_START (R325): the express port's queues have been empty for 10 µs; RELEASE is sent with an instant. -/
def execPathReleaseStart (pid : BitVec 16) (s : State) : Host.Outcome State Fault Refusal :=
  .next (match pathOf s (ownCoord s) pid.toNat with
    | none => s
    | some p =>
      if p.role ≠ 0 ∨ p.st ≠ 3 ∨ !portEmpty s (2048 + pathFirst s p) ∨ !timReady s then s
      else
        let i := pathInstant s
        let p1 := { p with st := 4, at_ := i }
        pathSendAll (armBlock (setPath s p1) p1 i) p1 0x36 i)

/-- PATH_RELEASE (R325): the slots that the path still holds here return to BLOCK at the instant. -/
def execPathRelease (m : PathMsg) (s : State) : Host.Outcome State Fault Refusal :=
  let i := instant m.sec m.ns
  .next (match pathOf s m.origin m.id with
    | none => s
    | some p =>
      if p.role = 0 ∨ p.st ≠ 2 ∨ !mayArm s i then s
      else
        let p1 := { p with st := 4, at_ := i }
        pathChanged (armBlock (setPath s p1) p1 i) p1 2)

end Sys2Proof.Machine
end

