-- ==== Sys2Proof/Machine/Eye.lean ====
section
/-! DEFINITION. Eye safety of fibres, and Sirocco mode (spec/13: R326 to R333). -/
namespace Sys2Proof.Machine

/-! ## Fibres (Table 13.10) -/

/-- Whether a tile is fitted and its dune's domain powered. -/
def tilePowered (s : State) (t : Nat) : Bool := tileFitted s.otp.variant t && [2, 3, 4].contains (duneSt s (t / 8))

/-- Five seconds, the probe interval (R326). -/
def probeWait : Nat := 5 * secUnit

/-- Show the aggregate pilot power of a receive fibre. -/
def showPower (s : State) (t f : Nat) (power : BitVec 16) : State := wf s (Reg.OPT_FIBRE t f) F.OPT_FIBRE_PILOT power.toNat

/-- FIBRE_PROBE (R326): a SAFE fibre probes when its probe is due, or when a peer's probe is seen. -/
def execFibreProbe (t : Fin 64) (f : Fin 4) (peer : Bool) (s : State) : Host.Outcome State Fault Refusal :=
  let due := ((SMap.find s.opt.probeDue (t.val * 4 + f.val)).map (fun d => decide (d ≤ s.clock))).getD false
  .next (if tilePowered s t.val ∧ fibreSt s t.val f.val = 0 ∧ (peer ∨ due) then setFibre s t.val f.val 1 else s)

/-- PEER_PILOT_SEEN (R326). -/
def execPeerPilotSeen (t : Fin 64) (f : Fin 4) (power : BitVec 16) (s : State) : Host.Outcome State Fault Refusal :=
  .next (if fibreSt s t.val f.val = 1 then showPower (setFibre s t.val f.val 2) t.val f.val power else s)

/-- PROBE_TIMEOUT (R326): 2 ms without the peer's pilot. -/
def execProbeTimeout (t : Fin 64) (f : Fin 4) (s : State) : Host.Outcome State Fault Refusal :=
  .next (if fibreSt s t.val f.val = 1 then fibreSafe s t.val f.val probeWait else s)

/-- PEER_PILOT_LOST (R326): the peer's pilot is lost during HOLD. -/
def execPeerPilotLost (t : Fin 64) (f : Fin 4) (s : State) : Host.Outcome State Fault Refusal :=
  .next (if fibreSt s t.val f.val = 2 then fibreSafe s t.val f.val probeWait else s)

/-- The lanes of a fibre. -/
def fibreLanes (t f : Nat) : List Nat := (List.range 8).map (fun w => t * 32 + f * 8 + w)

/-- A lane that had been started starts again at SWEEP (R329). -/
def laneAgain (s : State) (l : Nat) : State :=
  [false, true].foldl (fun u rx => if laneDir u l rx = 0 ∨ laneDir u l rx = 5 then u else laneStart u l rx) s

/-- Handshakes of a fibre's ports may start. -/
def fibreLinks (s : State) (t f : Nat) : State :=
  (fibreLanes t f).foldl laneHandshake s

/-- HOLD_DONE (R326, R329): the peer pilot has been seen for 10 ms; the fibre is FULL. After a loss its lanes start again. -/
def execHoldDone (t : Fin 64) (f : Fin 4) (power : BitVec 16) (s : State) : Host.Outcome State Fault Refusal :=
  let k := t.val * 4 + f.val
  .next (if fibreSt s t.val f.val ≠ 2 then s
    else
      let again := (SMap.find s.opt.fullLevel k).isSome
      let s1 := showPower (setFibre s t.val f.val 3) t.val f.val power
      let s2 := { s1 with opt := { s1.opt with fullLevel := SMap.ins s1.opt.fullLevel k power.toInt } }
      if again then
        optEvent ((fibreLanes t.val f.val).foldl laneAgain s2) t.val F.OPT_EVT_EYE_RESTORED (optBody t.val 0xFF 0xFF)
      else fibreLinks s2 t.val f.val)

/-- A lane leaves ready with its port's link; its loops stay. -/
def laneUnready (s : State) (l : Nat) : State :=
  match portOfLane s l with
  | none => if laneReady s l then settle s (setLaneReady s l false) else s
  | some r => linkDown s r.num

/-- On a bypass tile the slots that steer into a transmit fibre are blocked (BYPASS_EYE_BLOCK, R328). -/
def eyeBlock (s : State) (t f : Nat) : State :=
  ((List.range 32).filter (fun i => rf s (Reg.OPT_XC t i) F.OPT_XC_MODE == 1 && rf s (Reg.OPT_XC t i) F.OPT_XC_OUT_FIBRE == f)).foldl
    (fun u i => wfs u (Reg.OPT_XC t i) [(F.OPT_XC_MODE, 2), (F.OPT_XC_OUT_FIBRE, 0), (F.OPT_XC_PATH_ID, 0)]) s

/-- LOSS_OF_PILOT (R327, R328): the aggregate pilot power of receive fibre f is more than 10 dB below its level at the last entry
to FULL. -/
def execLossOfPilot (t : Fin 64) (f : Fin 4) (power : BitVec 16) (s : State) : Host.Outcome State Fault Refusal :=
  let level := (SMap.find s.opt.fullLevel (t.val * 4 + f.val)).getD 0
  .next (if fibreSt s t.val f.val ≠ 3 ∨ level - 1000 ≤ power.toInt then s
    else
      let s1 := showPower (fibreSafe s t.val f.val probeWait) t.val f.val power
      let s2 := (fibreLanes t.val f.val).foldl laneUnready s1
      let s3 := if bypassTile s2 t.val then eyeBlock s2 t.val f.val else s2
      optEvent (bump64 s3 (Reg.OPT_EYE_EVENTS t.val) 1) t.val F.OPT_EVT_EYE_SAFE (optBody t.val 0xFF 0xFF))

/-! ## Sirocco mode (R330 to R333) -/

/-- Whether a lane is dark (R330). -/
def laneIsDark (s : State) (l : Nat) : Bool :=
  let t := l / 32
  let i := l % 32
  let steeredInto := (List.range 32).any (fun j => j % 8 == i % 8 && rf s (Reg.OPT_XC t j) F.OPT_XC_MODE == 1
    && rf s (Reg.OPT_XC t j) F.OPT_XC_OUT_FIBRE == i / 8)
  s.otp.retiredLanes.contains l
    || (laneDir s l false == 0 && !steeredInto && rf s (Reg.OPT_XC t i) F.OPT_XC_MODE != 1 && (portOfLane s l).isNone
        && !s.opt.paths.any (fun p => pairTile s p.pair == t && (pathSlots p).contains i))

/-- The result window starts empty at each START (R332). -/
def sirClear (s : State) (t : Nat) : State := (List.range 4096).foldl (fun u i => wn u (Reg.OPT_SIR_RESULT t i) 0) s

/-- A START that ends at once with a status. -/
def sirRefuse (s : State) (t status : Nat) : State :=
  let first := rf s (Reg.OPT_SIR_RANGE t) F.OPT_SIR_RANGE_FIRST
  let bins := rf s (Reg.OPT_SIR_RANGE t) F.OPT_SIR_RANGE_END - first
  let s1 := wfs (sirClear s t) (Reg.OPT_SIR_STATUS t) [(F.OPT_SIR_STATUS_STATE, 2), (F.OPT_SIR_STATUS_STATUS, status), (F.OPT_SIR_STATUS_SHOTS, 0)]
  optEvent (sirHead s1 t (rf s (Reg.OPT_SIR_CFG t) F.OPT_SIR_CFG_MODE) status bins first) t F.OPT_EVT_SIROCCO_DONE (optBody t 0xFF 0xFF)

/-- Why a run may not start (Table 13.13), in the order of the codes. -/
def sirStatus (s : State) (t : Nat) : Option Nat :=
  let cfg := Reg.OPT_SIR_CFG t
  let mode := rf s cfg F.OPT_SIR_CFG_MODE
  let fibre := rf s cfg F.OPT_SIR_CFG_FIBRE
  let first := rf s (Reg.OPT_SIR_RANGE t) F.OPT_SIR_RANGE_FIRST
  let last := rf s (Reg.OPT_SIR_RANGE t) F.OPT_SIR_RANGE_END
  if !duneUp s (t / 8) then some 2
  else if !laneIsDark s (t * 32 + fibre * 8 + rf s cfg F.OPT_SIR_CFG_WAVE) then some 3
  else if ((List.range 4).find? (fun k => spareSt s t k == 0)).isNone then some 4
  else if last ≤ first ∨ 4000 < last ∨ mode = 3 then some 5
  else if (mode = 1 ∨ mode = 2) ∧ rb s cfg F.OPT_SIR_CFG_COMPARE ∧ !s.opt.baselines.contains (t * 4 + fibre, mode) then some 6
  else none

/-- A run starts: spare and lane are taken (R330). -/
def sirRun (s : State) (t : Nat) : State :=
  let cfg := Reg.OPT_SIR_CFG t
  let k := ((List.range 4).find? (fun k => spareSt s t k == 0)).getD 0
  let fibre := rf s cfg F.OPT_SIR_CFG_FIBRE
  let i := fibre * 8 + rf s cfg F.OPT_SIR_CFG_WAVE
  let r : SirRun := ⟨i, k, rf s cfg F.OPT_SIR_CFG_MODE, fibre, rb s cfg F.OPT_SIR_CFG_COMPARE, 2 ^ rf s cfg F.OPT_SIR_CFG_LOG2_AVG,
    rf s (Reg.OPT_SIR_RANGE t) F.OPT_SIR_RANGE_FIRST, rf s (Reg.OPT_SIR_RANGE t) F.OPT_SIR_RANGE_END⟩
  let s1 := setSpare (sirClear s t) t k 7 0x3F
  let s2 := wf { s1 with opt := { s1.opt with runs := SMap.ins s1.opt.runs t r } } (Reg.OPT_LANE_STATUS t i) F.OPT_LANE_STATUS_SIROCCO 1
  bump64 (wfs s2 (Reg.OPT_SIR_STATUS t) [(F.OPT_SIR_STATUS_STATE, 1), (F.OPT_SIR_STATUS_STATUS, 0), (F.OPT_SIR_STATUS_SHOTS, 0)])
    (Reg.OPT_SIR_RUNS t) 1

/-- SIROCCO_START (R330, R331): ignored while a run goes on. An absent tile ignores the write. -/
def execSiroccoStart (t : Fin 64) (v : Word) (s : State) : Host.Outcome State Fault Refusal :=
  .next (if !s.plat.running ∨ !tileFitted s.otp.variant t.val then s
    else if held s then
      let s1 := heldRefuse s (Reg.OPT_SIR_CTRL t.val)
      if keyOk v ∧ wbit v 0 ∧ (SMap.find s.opt.runs t.val).isNone then sirRefuse s1 t.val 8 else s1
    else if !keyOk v ∨ !wbit v 0 ∨ (SMap.find s.opt.runs t.val).isSome then s
    else match sirStatus s t.val with
      | some c => sirRefuse s t.val c
      | none => sirRun s t.val)

/-- SIROCCO_ABORT (R332). -/
def execSiroccoAbort (t : Fin 64) (v : Word) (s : State) : Host.Outcome State Fault Refusal :=
  .next (if !s.plat.running ∨ !tileFitted s.otp.variant t.val then s
    else if held s then heldRefuse s (Reg.OPT_SIR_CTRL t.val)
    else if !keyOk v ∨ !wbit v 1 then s
    else sirEnd (sirPartial s t.val) t.val 1)

/-- SIROCCO_RUN_DONE (R331, R332): all shots taken, with the values measured. A run that stores a baseline returns zeros. -/
def execSiroccoRunDone (t : Fin 64) (vals : List Word) (s : State) : Host.Outcome State Fault Refusal :=
  .next (match SMap.find s.opt.runs t.val with
    | none => s
    | some r =>
      let store := decide (r.mode ≠ 0) && !r.cmp
      let b := (t.val * 4 + r.fibre, r.mode)
      let s1 := if store && !s.opt.baselines.contains b then { s with opt := { s.opt with baselines := s.opt.baselines ++ [b] } } else s
      let s2 := (List.range (r.last - r.first)).foldl (fun u i =>
        wn u (Reg.OPT_SIR_RESULT t.val (4 + i)) (if store then 0 else (getAt 0 vals i).toNat)) s1
      sirEnd (wf s2 (Reg.OPT_SIR_STATUS t.val) F.OPT_SIR_STATUS_SHOTS (min 65535 r.shots)) t.val 0)

end Sys2Proof.Machine
end

