-- ==== Sys2Proof/Machine/MgmtPort.lean ====
section
/-! DEFINITION. Management Ethernet addressing and I3C (spec/04: R84 to R86). -/
namespace Sys2Proof.Machine

/-- A port's link-local address, by the modified EUI-64 rule from its MAC address. -/
def linkLocal (s : State) (p : Nat) : Nat :=
  let mac := getAt 0 s.otp.macs p
  let hi := mac / 2 ^ 24
  let flipped := if bitAt hi 17 then hi - 2 ^ 17 else hi + 2 ^ 17
  0xFE80 * 2 ^ 112 + flipped * 2 ^ 40 + 0xFFFE * 2 ^ 24 + mac % 2 ^ 24

/-- Send a frame from a port whose link is up. -/
def mpEmit (s : State) (p : Nat) (m : MgmtMsg) : State := emit s (.mgmt p (mpVid s p) m)

/-- Probe and announce a port's IPv4 address (RFC 5227). -/
def probeV4 (s : State) (p : Nat) : State :=
  if (mpOf s p).linkUp && mpFamily s p false then mpEmit (mpEmit s p (.arpProbe (mpV4 s p))) p (.arpAnnounce (mpV4 s p)) else s

/-- Duplicate address detection on an IPv6 address (RFC 4862). -/
def probeV6 (s : State) (p ip : Nat) : State :=
  if (mpOf s p).linkUp && mpFamily s p true && ip != 0 then mpEmit s p (.dadProbe ip) else s

/-- MGMT_ADDR_WRITE (R86): a word of HIF_MP_V4 or HIF_MP_V6 is written; the family is on again and probes the address. -/
def execMgmtAddrWrite (p : Fin 2) (v6 : Bool) (w : Fin 4) (v : Word) (s : State) : Host.Outcome State Fault Refusal :=
  let a := if v6 then Reg.HIF_MP_V6 p w else Reg.HIF_MP_V4 p
  .next (if !s.plat.running then s
    else if held s then heldWrite s a v
    else
      let s1 := wr s a v
      if v6 then
        let s2 := setMp s1 p { mpOf s1 p with v6Off := false }
        probeV6 s2 p (mpV6 s2 p)
      else probeV4 (setMp s1 p { mpOf s1 p with v4Off := false }) p)

/-- MGMT_LINK_UP (R86). -/
def execMgmtLinkUp (p : Fin 2) (s : State) : Host.Outcome State Fault Refusal :=
  .next (if !s.plat.running then s
    else
      let s1 := setMp s p { mpOf s p with linkUp := true }
      probeV6 (probeV6 (probeV4 s1 p) p (linkLocal s1 p)) p (mpV6 s1 p))

/-- MGMT_ADDR_CONFLICT (R86): the address family is off until the address is rewritten. -/
def execMgmtAddrConflict (p : Fin 2) (v6 : Bool) (s : State) : Host.Outcome State Fault Refusal :=
  .next (if s.plat.running && (mpOf s p).linkUp && mpFamily s p v6 then
      let x := mpOf s p
      hifErr (setMp s p (if v6 then { x with v6Off := true } else { x with v4Off := true })) F.HIF_ERR_MP_CONFLICT
    else s)

/-- A frame is discarded and counted. -/
def mpDiscard (s : State) (p : Nat) : State := bump32 s (Reg.HIF_MP_DISCARD p) 1

/-- Whether a frame with a VID reaches a port: it runs, its link is up, and the VID is its own. -/
def mpHears (s : State) (p vid : Nat) : Bool := s.plat.running && (mpOf s p).linkUp && mpVid s p == vid

/-- Whether an address is one of a port's IPv6 addresses. -/
def mpOwnV6 (s : State) (p ip : Nat) : Bool := ip == linkLocal s p || (ip == mpV6 s p && ip != 0)

/-- MGMT_ARP_RX (R86). -/
def execMgmtArpRx (p : Fin 2) (vid : Fin 4096) (target sender : BitVec 32) (mac : BitVec 48) (s : State) : Host.Outcome State Fault Refusal :=
  .next (if !s.plat.running ∨ !(mpOf s p).linkUp then s
    else if mpHears s p vid && mpFamily s p false && target.toNat == mpV4 s p then
      mpEmit s p (.arpReply target.toNat sender.toNat mac.toNat)
    else mpDiscard s p)

/-- MGMT_ND_RX (R86). -/
def execMgmtNdRx (p : Fin 2) (vid : Fin 4096) (target sender : BitVec 128) (mac : BitVec 48) (s : State) : Host.Outcome State Fault Refusal :=
  .next (if !s.plat.running ∨ !(mpOf s p).linkUp then s
    else if mpHears s p vid && mpFamily s p true && mpOwnV6 s p target.toNat then
      mpEmit s p (.ndAdvert target.toNat sender.toNat mac.toNat)
    else mpDiscard s p)

/-- Echo replies that a port has sent in the current second. -/
def echoSent (s : State) (p : Nat) : Nat := if (mpOf s p).echoSec = nowSec s then (mpOf s p).echoCnt else 0

/-- MGMT_ECHO_RX (R86): at most 100 replies in a second of the counter. -/
def execMgmtEchoRx (p : Fin 2) (vid : Fin 4096) (v6 : Bool) (dst src : BitVec 128) (data : List Byte) (s : State) :
    Host.Outcome State Fault Refusal :=
  let mine := if v6 then mpOwnV6 s p dst.toNat else dst.toNat == mpV4 s p
  .next (if !s.plat.running ∨ !(mpOf s p).linkUp then s
    else if mpHears s p vid && mpFamily s p v6 && mine && rb s (Reg.HIF_MP_CFG p) F.HIF_MP_CFG_ICMP_EN && decide (echoSent s p < 100) then
      mpSend (setMp s p { mpOf s p with echoSec := nowSec s, echoCnt := echoSent s p + 1 }) p v6 src.toNat (.echoReply v6 src.toNat data)
    else mpDiscard s p)

/-- Whether a port accepts a kind of frame. -/
def mpAccepts (s : State) (p : Nat) : MgmtFrame → Bool
  | .arp vid forPort => forPort && mpVid s p == vid && mpFamily s p false
  | .nd vid forPort => forPort && mpVid s p == vid && mpFamily s p true
  | .echo vid v6 forPort => forPort && mpVid s p == vid && mpFamily s p v6 && rb s (Reg.HIF_MP_CFG p) F.HIF_MP_CFG_ICMP_EN
      && decide (echoSent s p < 100)
  | .ptp vid => mpVid s p == vid
  | .udp vid v6 forPort fragment dport =>
    forPort && !fragment && mpVid s p == vid && mpFamily s p v6 && [319, 320, 4712].contains dport
  | .other => false

/-- MGMT_FRAME_DISCARD (R86): a frame that is not accepted traffic. -/
def execMgmtFrameDiscard (p : Fin 2) (f : MgmtFrame) (s : State) : Host.Outcome State Fault Refusal :=
  .next (if s.plat.running && (mpOf s p).linkUp && !mpAccepts s p f then mpDiscard s p else s)

/-- NEIGHBOUR_ADVERTISEMENT_RX (R86): the answer to the port's own request gives its gateway's link-layer address. -/
def execNeighbourAdvertisementRx (p : Fin 2) (v6 : Bool) (ip : BitVec 128) (mac : BitVec 48) (s : State) : Host.Outcome State Fault Refusal :=
  let gw := if v6 then mpGw6 s p else mpGw4 s p
  .next (if s.plat.running && (mpOf s p).linkUp && mpFamily s p v6 && ip.toNat == gw && gw != 0 then
      let x := mpOf s p
      setMp s p (if v6 then { x with gwMac6 := some mac.toNat } else { x with gwMac4 := some mac.toNat })
    else s)

/-- What I3C reads: a platform register, or a sensor, whose reading is free. -/
def i3cValue (s : State) : I3cReg → Nat
  | .deviceId => rn s Reg.PLT_DEVICE_ID
  | .readySum => rn s Reg.PLT_READY_SUM
  | .resetCause => rn s Reg.PLT_RESET_CAUSE
  | .duneState => rn s Reg.PLT_DUNE_STATE
  | .sensor n => Config.sensor n s.free
  | .pwr off => rn s (Reg.PWR_STATUS + 4 * off)

/-- I3C_READ (R85): NACKed until MGT_READY has been set. A sensor reading takes a free value, and a read of PWR_PEAK restarts it. -/
def execI3cRead (r : I3cReg) (s : State) : Host.Outcome State Fault Refusal :=
  .next (if !s.plat.auxOk then s
    else if !s.plat.running then emit s .i3cNack
    else
      let s1 := emit s (.i3cData (i3cValue s r))
      match r with
      | .sensor _ => tickFree s1
      | .pwr off => if off.val = 45 then wn s1 Reg.PWR_PEAK 0 else s1
      | _ => s1)

/-- I3C_RESET_CTRL_WRITE (R85): PLT_RESET_CTRL under the key rule of R77; NACKed until MGT_READY has been set. -/
def execI3cResetCtrlWrite (v : Word) (s : State) : Host.Outcome State Fault Refusal :=
  .next (if s.plat.auxOk && !s.plat.running then emit s .i3cNack else resetRequest s v)

end Sys2Proof.Machine
end

