-- ==== Sys2Proof/Machine/Tick.lean ====
section
/-! DEFINITION. What an empty queue does: the module idles while its clock runs (R185, R186; log 2). -/
namespace Sys2Proof.Machine

/-- TIM_PPS_OUT stays high for 100 ms (R201). -/
def ppsHigh : Nat := 100000000 * nsUnit

/-- The counter's frequency correction, in units of 2^-16 ns per ms: the servo's, and the reference's while it is qualified (R193, R199). -/
def freqNow (s : State) : Int := s.tim.freq + (if rb s Reg.TIM_STATUS F.TIM_STATUS_REF_OK then s.tim.refFreq else 0)

/-- One nanosecond passes: the counter advances while the platform die runs, by 1 ns and what the frequency correction adds, and the
1 PPS output falls after 100 ms; nothing else changes, since every other time-driven step is a command of the table (DESIGN CHOICE,
log 2). -/
def clockTick (s : State) : State :=
  if s.plat.running then
    let acc := s.tim.freqAcc + freqNow s
    let clock := s.clock + ((nsUnit : Int) + acc / 1000000).toNat
    { s with clock := clock, tim := { s.tim with freqAcc := acc % 1000000 },
             pins := { s.pins with ppsOut := s.pins.ppsOut && decide (clock < s.tim.ppsFall) } }
  else s

end Sys2Proof.Machine
end

