-- ==== Sys2Proof/Machine/Time.lean ====
section
/-! DEFINITION. The commands of the boundary clock and its pins: messages, sources, fine time, 1 PPS and the 10 MHz reference, and
what software asks of the servo (spec/08: R187 to R201). Offsets are in units of 2^-16 ns. -/
namespace Sys2Proof.Machine

/-! ## Ports and timestamps (R187, R189) -/

/-- Picoseconds in the counter's units. -/
def psUnits (n : Int) : Int := n * 65536 / 1000

/-- Whether a port of a kind is a PTP port that carries messages now: a fabric port once it is ready (R190). -/
def ptpPort (s : State) (kind p : Nat) : Bool :=
  s.plat.running && (match kind with
    | 1 => decide (p < 2048) && !portEth s p && portReady s p && rb s (Reg.TIM_PORT p) F.TIM_PORT_PTP_EN
    | 2 => rb s (Reg.TIM_MPORT 0) F.TIM_MPORT_PTP_EN && (mpOf s 0).linkUp
    | 3 => rb s (Reg.TIM_MPORT 1) F.TIM_MPORT_PTP_EN && (mpOf s 1).linkUp
    | _ => false)

/-- The number under which a port's source is kept. -/
def ptpNum (kind p : Nat) : Nat := if kind = 1 then p else 0

/-- First lane of a fabric port. -/
def portLane (s : State) (p : Nat) : Nat := ((portRec s p).map (·.first)).getD 0

/-- A receive timestamp: the captured counter less the effective receive path delay (R187). -/
def rxStamp (s : State) (kind p : Nat) : Int :=
  if kind = 1 then (s.clock : Int) - psUnits (trimEff s 7 (4096 + portLane s p)) else s.clock

/-- A transmit timestamp: the captured counter and the effective transmit path delay (R187). -/
def txStamp (s : State) (kind p : Nat) : Int :=
  if kind = 1 then (s.clock : Int) + psUnits (trimEff s 7 (portLane s p)) else s.clock

/-- delayAsymmetry of a port (R192). -/
def portAsym (s : State) (kind p : Nat) : Int :=
  psUnits (signedOf 20 (if kind = 1 then rf s (Reg.TIM_PORT p) F.TIM_PORT_ASYM else rf s (Reg.TIM_MPORT (kind - 2)) F.TIM_MPORT_ASYM))

/-- Send a PTP message. -/
def ptpSend (s : State) (kind p : Nat) (m : PtpBody) : State :=
  if kind = 1 then emit s (.ptp p m)
  else mpEmit s (kind - 2) (.ptp (rf s (Reg.TIM_MPORT (kind - 2)) F.TIM_MPORT_TRANSPORT % 3) m)

/-! ## Fine time (R191) -/

/-- The middle of a list of offsets; of an even number, the lower middle. -/
def medianInt (l : List Int) : Option Int :=
  match l with
  | [] => none
  | x :: xs =>
    let lo := xs.foldl min x
    let sorted := sortBy (fun (y : Int) => (y - lo).toNat) l
    sorted[(l.length - 1) / 2]?

/-- One microsecond as an offset. -/
def usInt : Int := 65536000

/-- A value that is known up to whole microseconds, taken nearest to another one. -/
def nearestAlias (x near : Int) : Int := x + (near - x + usInt / 2) / usInt * usInt

/-- A lane's link delay from the phases of the two directions, whose sum is twice the delay up to whole microseconds: the PTP peer
delay of the link says how many (R191). -/
def fineDelay (e : Int × Int) (peer : Int) : Int := nearestAlias (e.1 + e.2) (2 * peer) / 2

/-- A lane's offset, positive when the peer is ahead: a marker comes at its delay less the offset after the peer's whole microsecond.
Whole microseconds by which the clocks themselves differ are those of the PTP offset (DEDUCED, log 211). -/
def laneOffset (e : Int × Int) (peer near : Int) : Int := nearestAlias (fineDelay e peer - e.1) near

/-- The fine offset of a fabric port: the median of its ready lanes, with the port's asymmetry applied as to any offset (R192). -/
def fineOffset (s : State) (p : Nat) (peer near : Int) : Option Int :=
  match portRec s p with
  | none => none
  | some r =>
    (medianInt ((portLanes r).filterMap (fun l => if laneReady s l then
      (SMap.find s.tim.lanes l).map (fun e => laneOffset e peer (near - portAsym s 1 p)) else none))).map (· + portAsym s 1 p)

/-- Give a source its offset: fine time where it agrees with PTP within 2 ns, else PTP with an event. -/
def settleTheta (s : State) (kind p : Nat) : State :=
  match sourceOf s kind p with
  | none => s
  | some x =>
    match x.ptp with
    | none => s
    | some o =>
      match (if kind = 1 ∧ rb s (Reg.TIM_PORT p) F.TIM_PORT_FINE_EN then fineOffset s p x.delay o else none) with
      | none => modSource s kind p (fun y => { y with theta := some o })
      | some f =>
        if (f - o).natAbs ≤ 2 * nsUnit then modSource s kind p (fun y => { y with theta := some f })
        else timEvent (modSource s kind p (fun y => { y with theta := some o })) F.TIM_EVT_FINE_MISMATCH

/-- FINE_TIME_MARKER (R191): the phases of a lane's markers within their microsecond, of the peer's marker as it came here and of our
own as the peer has had it. -/
def execFineTimeMarker (port : Fin 4096) (sub : Fin 8) (rx back : Int) (s : State) : Host.Outcome State Fault Refusal :=
  let p := port.val
  .next (match portRec s p with
    | none => s
    | some r =>
      if r.width ≤ sub.val ∨ 2048 ≤ p ∨ !laneReady s (r.first + sub.val) ∨ !rb s (Reg.TIM_PORT p) F.TIM_PORT_FINE_EN then s
      else settleTheta { s with tim := { s.tim with lanes := SMap.ins s.tim.lanes (r.first + sub.val) (rx, back) } } 1 p)

/-! ## Messages (R189) -/

/-- A source as its first Announce makes it. -/
def newSource (kind p : Nat) (ds : PtpDs) : TimSource := ⟨kind, p, ds, none, none, false, none, 0, none, none, none, false⟩

/-- Whether a foreign master is one of a port's. -/
def foreignAt (kind p : Nat) (m : ForeignMaster) : Bool := m.kind == kind && m.port == p

/-- The best of a port's foreign masters. -/
def bestForeign (s : State) (kind p : Nat) : Option ForeignMaster :=
  (s.tim.foreign.filter (foreignAt kind p)).foldl (fun o m => match o with
    | none => some m
    | some b => if dsBetter m.ds b.ds then some m else some b) none

/-- Take a port's best foreign master for its source, or lose the source where none is left: a new parent, or one that changes
grandmaster, is measured anew (R195). The peer's delay is the link's and stays. -/
def settleForeign (s : State) (kind p : Nat) : State :=
  match bestForeign s kind p, sourceOf s kind p with
  | none, _ => sourceLost s kind p
  | some m, none => selectSource { s with tim := { s.tim with sources := s.tim.sources ++ [newSource kind p m.ds] } }
  | some m, some x =>
    if x.ds.identity = m.ds.identity ∧ x.ds.sender = m.ds.sender then selectSource (modSource s kind p (fun y => { y with ds := m.ds }))
    else
      let s1 := selectSource (modSource s kind p (fun y => { newSource kind p m.ds with delay := if kind = 1 then y.delay else 0 }))
      if s.tim.cur = some (kind, p) ∧ s1.tim.cur = s.tim.cur then timEvent s1 F.TIM_EVT_SOURCE_CHANGE else s1

/-- An Announce is heard: the port's foreign masters follow it. The own clock's messages, and those that have gone 255 steps, do not
count, as IEEE 1588 has it; one Announce makes a foreign master (PRESUMED, log 212). -/
def heardAnnounce (s : State) (kind p : Nat) (ds : PtpDs) : State :=
  if kind ≠ 4 ∧ (ds.sender = ownClockId s ∨ 255 ≤ ds.steps) then s
  else
    let l := s.tim.foreign.filter (fun m => !(foreignAt kind p m && m.ds.sender == ds.sender)) ++ [⟨kind, p, ds, s.clock⟩]
    settleForeign { s with tim := { s.tim with foreign := l } } kind p

/-- The offset of a source from the time its Sync left, came and the path delay: positive when the source is ahead. -/
def syncOffset (s : State) (kind p : Nat) (t1 : Int) : State :=
  match sourceOf s kind p with
  | none => s
  | some x =>
    match x.t2 with
    | none => s
    | some t2 => settleTheta (modSource s kind p (fun y => { y with t1 := some t1, awaits := false, ptp := some (t1 + x.delay + portAsym s kind p - t2) })) kind p

/-- A management port that follows a source asks for its delay: Delay_Req. -/
def askDelay (s : State) (kind p : Nat) : State :=
  if kind = 1 ∨ (sourceOf s kind p).isNone then s
  else ptpSend (modSource s kind p (fun y => { y with t3 := some (txStamp s kind p) })) kind p .delayReq

/-- A fabric port asks for its peer's delay: Pdelay_Req. -/
def askPeer (s : State) (p : Nat) : State :=
  ptpSend (modSource s 1 p (fun y => { y with t3 := some (txStamp s 1 p) })) 1 p .pdelayReq

/-- Whether a port's best master, Erbest, loses to the chosen one, Ebest, by topology alone: the two have one grandmaster, at as many
steps, or one more here and the way to it through the sender (IEEE 1588-2019, data set comparison). -/
def topologyWorse (s : State) (e r : PtpDs) : Bool :=
  e.identity == r.identity && (e.steps == r.steps || (r.steps == e.steps + 1 && decide (r.sender < ownClockId s)))

/-- Whether a PTP port is PASSIVE: it hears the chosen grandmaster by another way (R189). -/
def passivePort (s : State) (kind p : Nat) : Bool :=
  match curSource s, sourceOf s kind p with
  | some e, some r => !sourceIs kind p e && topologyWorse s e.ds r.ds
  | _, _ => false

/-- Whether a port is a master: a PTP port that is neither the source's nor PASSIVE; a refused source's port stays none (R195). -/
def masterPort (s : State) (kind p : Nat) : Bool := ptpPort s kind p && s.tim.cur != some (kind, p) && !passivePort s kind p

/-- Whether a message comes from the master that a port follows. -/
def fromMaster (s : State) (kind p sender : Nat) : Bool := ((sourceOf s kind p).map (fun x => x.ds.sender == sender)).getD false

/-- What a message does. Sync and Follow_Up count from the port's master only; a Sync of two steps waits for its Follow_Up (Table 8.1). -/
def ptpBodyRx (s : State) (kind p sender : Nat) (m : PtpBody) : State :=
  match m with
  | .sync t1 twoStep =>
    if !fromMaster s kind p sender then s
    else
      let s1 := modSource s kind p (fun y => { y with t2 := some (rxStamp s kind p), awaits := twoStep })
      askDelay (if twoStep then s1 else syncOffset s1 kind p t1) kind p
  | .followUp t1 =>
    if kind = 1 ∨ !fromMaster s kind p sender ∨ !((sourceOf s kind p).map (·.awaits)).getD false then s else syncOffset s kind p t1
  | .delayReq => if kind = 1 ∨ !masterPort s kind p then s else ptpSend s kind p (.delayResp (rxStamp s kind p))
  | .delayResp t4 =>
    modSource s kind p (fun y => match y.t1, y.t2, y.t3 with
      | some t1, some t2, some t3 => { y with delay := ((t2 - t1) + (t4 - t3)) / 2 }
      | _, _, _ => y)
  | .pdelayReq => if kind = 1 then ptpSend s 1 p (.pdelayResp (rxStamp s 1 p) (txStamp s 1 p)) else s
  | .pdelayResp t2 t3 =>
    if kind = 1 then
      modSource s 1 p (fun y => match y.t3 with
        | some t1 => { y with delay := ((rxStamp s 1 p - t1) - (t3 - t2)) / 2 }
        | none => y)
    else s
  | .announce p1 cc acc var p2 ident steps sender utc => heardAnnounce s kind p ⟨p1, cc, acc, var, p2, ident, steps, sender, utc⟩

/-- PTP_MESSAGE_RX (R189): kind 1 a fabric port, 2 and 3 the management ports. Messages outside the domain are ignored. -/
def execPtpMessageRx (kind : Fin 5) (port : Fin 4096) (m : PtpMsg) (s : State) : Host.Outcome State Fault Refusal :=
  let p := ptpNum kind.val port.val
  .next (if ptpPort s kind.val p ∧ m.domain = ptpDomain s then ptpBodyRx s kind.val p m.sender m.body else s)

/-- The master ports of a kind of port. -/
def masterPorts (s : State) (mgmt : Bool) : List (Nat × Nat) :=
  let l := if mgmt then [(2, 0), (3, 0)] else (s.img.cfg.ports.map (fun r => (1, r.num)))
  l.filter (fun e => masterPort s e.1 e.2)

/-- PTP_SYNC_SEND (R189, Table 8.1): one-step on fabric ports, where the peer's delay is asked for too, two-step on management
ports. -/
def execPtpSyncSend (mgmt : Bool) (s : State) : Host.Outcome State Fault Refusal :=
  let one := fun (u : State) (e : Nat × Nat) =>
    let u1 := ptpSend u e.1 e.2 (.sync (txStamp u e.1 e.2) mgmt)
    if mgmt then ptpSend u1 e.1 e.2 (.followUp (txStamp u e.1 e.2)) else u1
  let s1 := (masterPorts s mgmt).foldl one s
  .next (if mgmt then s1
    else (s1.tim.sources.filter (fun x => x.kind == 1 && ptpPort s1 1 x.port)).foldl (fun u x => askPeer u x.port) s1)

/-- What the module announces: its source's clock one step further, a refused one's too, or its own clock while it is not ready or
follows none (R195). -/
def announceDs (s : State) : PtpDs :=
  match (if timReady s then curSource s else none) with
  | some x => { x.ds with steps := x.ds.steps + 1, sender := ownClockId s }
  | none => ownDs s

/-- PTP_ANNOUNCE_SEND (R189). -/
def execPtpAnnounceSend (mgmt : Bool) (s : State) : Host.Outcome State Fault Refusal :=
  let d := announceDs s
  .next ((masterPorts s mgmt).foldl (fun u e =>
    ptpSend u e.1 e.2 (.announce d.prio1 d.clockClass d.accuracy d.variance d.prio2 d.identity d.steps d.sender d.utc)) s)

/-- ANNOUNCE_TIMEOUT (R189, Table 8.1): the masters of a port that have been silent for three announce intervals are forgotten. -/
def execAnnounceTimeout (kind : Fin 5) (port : Fin 4096) (s : State) : Host.Outcome State Fault Refusal :=
  let k := kind.val
  let p := ptpNum k port.val
  let silent := fun (m : ForeignMaster) => foreignAt k p m && decide (m.heardAt + (if k = 1 then 375000 * usUnit else 3 * secUnit) ≤ s.clock)
  .next (if k = 4 ∨ !s.tim.foreign.any silent then s
    else settleForeign { s with tim := { s.tim with foreign := s.tim.foreign.filter (fun m => !silent m) } } k p)

/-! ## States (Table 8.2, R196, R198) -/

/-- FINE_QUALIFY (R193): |θ| below 500 ps at every update for 1 s. -/
def execFineQualify (s : State) : Host.Outcome State Fault Refusal :=
  .next (match s.tim.fineSince with
    | none => s
    | some t => if timSt s = timLocked ∧ t + secUnit ≤ s.clock then setTimFine (setTimSt s timFineSt) true else s)

/-- A source is accepted: from HOLDOVER to TRACK, and to LOCKED at once where |θ| is below 1 µs (Table 8.2). -/
def acceptSource (s : State) (theta : Nat) : State :=
  let s1 := if timSt s = timHoldover then setTimSt s timTrack else s
  if timSt s1 = timTrack ∧ theta < usUnit then setTimReady (setTimSt s1 timLocked) true else s1

/-- REFUSED_SOURCE_QUALIFY (R196): the refused source's |θ| has stayed within the threshold for 1 s. -/
def execRefusedSourceQualify (s : State) : Host.Outcome State Fault Refusal :=
  .next (match curSource s with
    | none => s
    | some x =>
      match x.goodSince with
      | none => s
      | some t =>
        if !x.refused ∨ s.clock < t + secUnit then s
        else acceptSource (showSource (modSource s x.kind x.port (fun y => { y with refused := false, goodSince := none }))) ((x.theta.getD 0).natAbs))

/-- HOLDOVER_LIMIT (R198): the bound has reached 1 µs; TIM_READY clears (R194). -/
def execHoldoverLimit (s : State) : Host.Outcome State Fault Refusal :=
  let s1 := growBound s
  .next (if timSt s = timHoldover ∧ 10 ^ 6 * 65536 ≤ s1.tim.holdBound then setTimReady s1 false else s)

/-- TIM_ACCEPT (R196): a write of TIM_CTRL with ACCEPT. -/
def execTimAccept (v : Word) (s : State) : Host.Outcome State Fault Refusal :=
  .next (if !s.plat.running then s
    else if held s then heldRefuse s Reg.TIM_CTRL
    else if !keyOk v ∨ !wbit v 1 ∨ !((curSource s).map (·.refused)).getD false then s
    else { s with tim := { s.tim with acceptPending := true } })

/-- TIM_ACQUIRE (Table 8.2): a write of TIM_CTRL with ACQUIRE. -/
def execTimAcquire (v : Word) (s : State) : Host.Outcome State Fault Refusal :=
  .next (if !s.plat.running then s
    else if held s then heldRefuse s Reg.TIM_CTRL
    else if !keyOk v ∨ !wbit v 0 then s
    else
      let src := s.tim.sources.map (fun x => { x with refused := false, goodSince := none })
      let s1 := setTimReady (setTimFine { s with tim := { s.tim with sources := src, acceptPending := false, fineSince := none, badRun := 0 } } false) false
      let s2 := wf s1 Reg.TIM_STATUS F.TIM_STATUS_EVER_READY 0
      let s3 := selectSource (setTimSt s2 timFree)
      s3)

/-- TIM_CAPTURE: a write of TIM_CTRL with CAPTURE needs no key (Table 8.4). -/
def execTimCapture (v : Word) (s : State) : Host.Outcome State Fault Refusal :=
  .next (if !s.plat.running then s
    else if held s then heldRefuse s Reg.TIM_CTRL
    else if !wbit v 2 then s
    else wn (wn (wnHL s (Reg.TIM_NOW_SEC 0) (nowSec s)) Reg.TIM_NOW_NS (nowNs s)) Reg.TIM_NOW_FRAC (nowFrac s))

/-! ## Reference and 1 PPS pins (R199 to R201) -/

/-- REF_QUALIFY (R199): from now on the reference disciplines the counter's frequency, and never moves its phase. -/
def execRefQualify (s : State) : Host.Outcome State Fault Refusal :=
  .next (if !s.plat.running ∨ !rb s Reg.TIM_REF_CFG F.TIM_REF_CFG_EN then s
    else
      let s1 := if timSt s = timHoldover then growBound s else s
      let tim := { s1.tim with refFreq := Config.refFreq s1.free }
      wf (tickFree { s1 with tim := tim }) Reg.TIM_STATUS F.TIM_STATUS_REF_OK 1)

/-- REF_LOSS (R199). -/
def execRefLoss (s : State) : Host.Outcome State Fault Refusal :=
  .next (if !rb s Reg.TIM_STATUS F.TIM_STATUS_REF_OK then s
    else timEvent (wf (if timSt s = timHoldover then growBound s else s) Reg.TIM_STATUS F.TIM_STATUS_REF_OK 0) F.TIM_EVT_REF_LOSS)

/-- PPS_IN_EDGE (R200): a pulse between 100 ns and 900 ms wide is the start of the second in TIM_PPS_TOD. -/
def execPpsInEdge (widthNs : Nat) (s : State) : Host.Outcome State Fault Refusal :=
  .next (if !s.plat.running ∨ !rb s Reg.TIM_PPS_CFG F.TIM_PPS_CFG_IN_EN ∨ widthNs < 100 ∨ 900000000 < widthNs then s
    else
      let tod := rnHL s (Reg.TIM_PPS_TOD 0)
      let theta : Int := ((tod * secUnit : Nat) : Int) - s.clock
      let s1 := wn (wn (wnHL s (Reg.TIM_PPS_IN_SEC 0) (nowSec s)) Reg.TIM_PPS_IN_NS (nowNs s)) Reg.TIM_PPS_IN_FRAC (nowFrac s)
      let s2 := wf (wnHL s1 (Reg.TIM_PPS_TOD 0) ((tod + 1) % 2 ^ 64)) Reg.TIM_STATUS F.TIM_STATUS_PPS_OK 1
      let s3 := { s2 with tim := { s2.tim with ppsAt := some s.clock } }
      let s4 := heardAnnounce s3 4 0 { ownDs s3 with clockClass := rf s3 Reg.TIM_PPS_CFG F.TIM_PPS_CFG_IN_CLASS }
      modSource s4 4 0 (fun y => { y with ptp := some theta, theta := some theta }))

/-- PPS_LOSS (R200): no valid pulse for 1.5 s. -/
def execPpsLoss (s : State) : Host.Outcome State Fault Refusal :=
  .next (match s.tim.ppsAt with
    | none => s
    | some t =>
      if s.clock < t + 3 * (secUnit / 2) then s
      else
        let s1 := wf { s with tim := { s.tim with ppsAt := none } } Reg.TIM_STATUS F.TIM_STATUS_PPS_OK 0
        sourceLost (timEvent s1 F.TIM_EVT_PPS_LOSS) 4 0)

/-- PPS_OUT_PULSE (R201): TIM_PPS_OUT rises at a whole second plus OUT_OFS, once for each. -/
def execPpsOutPulse (s : State) : Host.Outcome State Fault Refusal :=
  let ofs := psUnits (signedOf 20 (rf s Reg.TIM_PPS_CFG F.TIM_PPS_CFG_OUT_OFS))
  let due := (((s.clock : Int) - ofs) / secUnit * secUnit + ofs).toNat
  .next (if !s.plat.running ∨ !rb s Reg.TIM_PPS_CFG F.TIM_PPS_CFG_OUT_EN ∨ due ≤ s.tim.ppsOutAt ∨ s.clock < due then s
    else emit { s with tim := { s.tim with ppsOutAt := due, ppsFall := due + ppsHigh },
                       pins := { s.pins with ppsOut := decide (s.clock < due + ppsHigh) } } .ppsRise)

end Sys2Proof.Machine
end

