-- ==== Sys2Proof/Machine/Security.lean ====
section
/-! DEFINITION. The commands of the root of trust: packages, orders and tokens, attestation, link handshakes and link encryption
(spec/15: R362 to R380). Whether a signature, a tag or a certificate chain holds is an operand of the command. -/
namespace Sys2Proof.Machine

/-! ## Packages, transfers and tokens (R362 to R365, R375, R376) -/

/-- RESULT of a package; a refused one counts in SEC_PKG_REFUSED (Table 15.9). -/
def pkgResult (s : State) (r : Nat) : State :=
  let s1 := wf s Reg.SEC_STATUS F.SEC_STATUS_RESULT r
  secEvent (if r = 1 then s1 else bump64 s1 Reg.SEC_PKG_REFUSED 1) F.SEC_EVT_PKG_DONE (natBe 1 0 ++ natBe 2 0xFFFF)

/-- Whether a write of SEC_CTRL makes the root of trust read a package. -/
def pkgAsked (s : State) (v : Word) : Bool := s.plat.running && keyOk v && wbit v 1

/-- Whether SEC_PKG_ADDR and SEC_PKG_LEN fit a package of `n` bytes (Table 15.9). -/
def pkgPlace (s : State) (n : Nat) : Bool := rn s (Reg.SEC_PKG_ADDR 0) % 4096 == 0 && rf s Reg.SEC_PKG_LEN F.SEC_PKG_LEN_LEN == n

/-- Where the package lies in host memory (SEC_PKG_ADDR). -/
def pkgAddr (s : State) : Nat := rn s (Reg.SEC_PKG_ADDR 1) * 2 ^ 32 + rn s (Reg.SEC_PKG_ADDR 0)

/-- `n` bytes of the package at an offset, as a big-endian number, as DMA reads them (R381). -/
def pkgField (s : State) (off n : Nat) : Nat := beNat (hostRead s (pkgAddr s + off) n)

/-- The type of the package, byte 0; 0 where SEC_PKG_LEN asks for no byte (R381). -/
def pkgType (s : State) : Nat := if rf s Reg.SEC_PKG_LEN F.SEC_PKG_LEN_LEN = 0 then 0 else pkgField s 0 1

/-- The SHA-384 digest of a package of `n` bytes, which the attestation log holds (R378; DEDUCED, log 221). -/
def pkgDigest (s : State) (n : Nat) : Nat := Config.sha384 (hostRead s (pkgAddr s) n)

/-- A key package (Table 15.3): its fields, and whether the owner record verifies and the key unwraps. -/
structure KeyPkg where
  typ : Nat
  serial : Nat
  id : Nat
  seq : Nat
  reservedZero : Bool
  sigOk : Bool
  unwrapOk : Bool
  deriving DecidableEq, Repr

/-- The key package that host memory holds. -/
def keyPkg (s : State) (sigOk unwrapOk : Bool) : KeyPkg where
  typ := pkgType s
  serial := pkgField s 4 16
  id := pkgField s 20 4
  seq := pkgField s 24 4
  reservedZero := pkgField s 1 3 == 0 && pkgField s 1741 3 == 0
  sigOk := sigOk
  unwrapOk := unwrapOk

/-- Why a key package is refused: not permitted, malformed, wrong serial, bad signature, stale (R364). -/
def keyPkgRefusal (s : State) (p : KeyPkg) : Option Nat :=
  if held s then some 6
  else if !pkgPlace s 6544 ∨ !p.reservedZero ∨ !(p.typ == 1 || p.typ == 2) ∨ (p.typ = 2 ∧ 4096 ≤ p.id) then some 7
  else if p.serial ≠ s.otp.serial then some 3
  else if (ownerKey s).isNone ∨ !p.sigOk then some 2
  else if p.seq ≤ s.rot.pkgSeq then some 4
  else if !p.unwrapOk then some 7
  else if p.typ = 2 ∧ !s.rot.mirrorRoots.contains p.id ∧ 64 ≤ s.rot.mirrorRoots.length then some 5
  else none

/-- Store an image key: a fifth generation erases the lowest KEY_ID held (R365). -/
def storeImageKey (l : List Nat) (id : Nat) : List Nat :=
  if l.contains id then l else if l.length < 4 then l ++ [id] else (dropFirst (fun x => some x == minNat? l) l) ++ [id]

/-- KEY_PACKAGE (R364, R365, R381): the root of trust reads the package that host memory holds, of any type but an order's or a
token's; a type that Table 15.3 does not know is malformed. -/
def execKeyPackage (v : Word) (chk : PackageCheck) (s : State) : Host.Outcome State Fault Refusal :=
  let p := keyPkg s chk.sigOk chk.unwrapOk
  .next (if !pkgAsked s v ∨ p.typ = 3 ∨ p.typ = 4 then s
    else match keyPkgRefusal s p with
      | some r => pkgResult s r
      | none =>
        let rot := if p.typ = 1 then { s.rot with imageKeys := storeImageKey s.rot.imageKeys p.id, pkgSeq := p.seq }
          else { s.rot with mirrorRoots := if s.rot.mirrorRoots.contains p.id then s.rot.mirrorRoots else s.rot.mirrorRoots ++ [p.id], pkgSeq := p.seq }
        pkgResult (secLog { s with rot := rot } 5 (pkgDigest s 6544)) 1)

/-- The next blank owner slot. -/
def nextOwnerSlot (s : State) : Nat := ((ownerSlot s).map (· + 1)).getD 0

/-- A transfer order (Table 15.2) as the root of trust sees it: its fields, the hash of NEW_KEY, whether its reserved
bytes are 0, whether the proof verifies under NEW_KEY and the owner record under the current owner key, and whether the
owner record is all zero. -/
structure TransferOrder where
  slot : Nat
  serial : Nat
  newKeyHash : Nat
  reservedZero : Bool
  proofOk : Bool
  ownerOk : Bool
  ownerZero : Bool
  deriving DecidableEq, Repr

/-- The transfer order that host memory holds; the hash of NEW_KEY is the SHA-384 digest of both its public keys. -/
def transferOrder (s : State) (proofOk ownerOk : Bool) : TransferOrder where
  slot := pkgField s 1 1
  serial := pkgField s 4 16
  newKeyHash := Config.sha384 (hostRead s (pkgAddr s + 20) 2689)
  reservedZero := pkgField s 2 2 == 0 && pkgField s 2709 3 == 0
  proofOk := proofOk
  ownerOk := ownerOk
  ownerZero := pkgField s 7512 4800 == 0

/-- Why a transfer order is refused (R362). -/
def transferRefusal (s : State) (o : TransferOrder) : Option Nat :=
  if held s then some 6
  else if !pkgPlace s 12312 ∨ !o.reservedZero then some 7
  else if o.serial ≠ s.otp.serial then some 3
  else if 4 ≤ nextOwnerSlot s ∨ o.slot ≠ nextOwnerSlot s then some 5
  else if !o.proofOk ∨ (if o.slot = 0 then !o.ownerZero else !o.ownerOk) then some 2
  else none

/-- MGT_ORD_LAST and what MGT_EXPEL shows of the expel list are cleared, SELF_EXPELLED with it (R388; DEDUCED, log 222). -/
def orderStoreClear (s : State) : State := wn (wn (wn s (Reg.MGT_ORD_LAST 0) 0) (Reg.MGT_ORD_LAST 1) 0) Reg.MGT_EXPEL 0

/-- OWNERSHIP_TRANSFER (R362, R363, R381, R388): the slot is programmed, the key store and the expel list are erased, and the image
reloads. -/
def execOwnershipTransfer (v : Word) (chk : TransferCheck) (s : State) : Host.Outcome State Fault Refusal :=
  let o := transferOrder s chk.proofOk chk.ownerOk
  .next (if !pkgAsked s v ∨ pkgType s ≠ 3 then s
    else match transferRefusal s o with
      | some r => pkgResult s r
      | none =>
        let s1 := { s with otp := { s.otp with ownerSlots := setAt s.otp.ownerSlots o.slot (some o.newKeyHash) },
                           rot := { s.rot with imageKeys := [], mirrorRoots := [], minSeq := 0, pkgSeq := 0, expel := [] } }
        let s2 := showOwner (orderStoreClear (wn (secLog s1 6 (pkgDigest s 12312)) Reg.IMG_MIN_SEQ 0))
        let s3 := secEvent (pkgResult s2 1) F.SEC_EVT_OWNER_CHANGED (natBe 1 0 ++ natBe 2 0xFFFF)
        coldStart s3 3)

/-- IMG_HASH as a number. -/
def imgHash (s : State) : Nat := beNat ((List.range 12).flatMap (fun i => natBe 4 (rn s (Reg.IMG_HASH i))))

/-- SEC_DBG_NONCE as a number. -/
def dbgNonce (s : State) : Nat := beNat ((List.range 8).flatMap (fun i => natBe 4 (rn s (Reg.SEC_DBG_NONCE i))))

/-- A debug token (Table 15.8): its fields, and whether the owner record verifies. -/
structure DbgToken where
  scope : Nat
  serial : Nat
  duration : Nat
  nonce : Nat
  imageHash : Nat
  reservedZero : Bool
  sigOk : Bool
  deriving DecidableEq, Repr

/-- The debug token that host memory holds. -/
def dbgToken (s : State) (sigOk : Bool) : DbgToken where
  scope := pkgField s 1 1
  serial := pkgField s 4 16
  duration := pkgField s 20 4
  nonce := pkgField s 24 32
  imageHash := pkgField s 56 48
  reservedZero := pkgField s 2 2 == 0
  sigOk := sigOk

/-- Why a debug token is refused (R376). -/
def tokenRefusal (s : State) (t : DbgToken) : Option Nat :=
  if !bitAt s.img.cfg.policyFlags 0 then some 6
  else if !pkgPlace s 4904 ∨ !t.reservedZero ∨ 4 ≤ t.scope ∨ t.duration = 0 ∨ 86400 < t.duration then some 7
  else if t.serial ≠ s.otp.serial then some 3
  else if t.nonce ≠ dbgNonce s then some 4
  else if t.imageHash ≠ imgHash s then some 8
  else if (ownerKey s).isNone ∨ !t.sigOk then some 2
  else none

/-- DEBUG_TOKEN (R376, R381): the scopes it names are open for its duration; tokens are accepted in HELD. -/
def execDebugToken (v : Word) (sigOk : Bool) (s : State) : Host.Outcome State Fault Refusal :=
  let t := dbgToken s sigOk
  .next (if !pkgAsked s v ∨ pkgType s ≠ 4 then s
    else match tokenRefusal s t with
      | some r => pkgResult s r
      | none =>
        let s1 := secLog { s with rot := { s.rot with tokenScopes := t.scope, token := true } } 3 (pkgDigest s 4904)
        let s2 := wn (showDebug s1) Reg.SEC_DBG_REMAIN t.duration
        secEvent (pkgResult (newDebugNonce s2) 1) F.SEC_EVT_DEBUG_OPENED (natBe 1 0 ++ natBe 2 0xFFFF))

/-- DEBUG_TOKEN_EXPIRY (R376): DURATION_S has passed on the root of trust's oscillator. -/
def execDebugTokenExpiry (s : State) : Host.Outcome State Fault Refusal := .next (tokenEnd s)

/-- DBG_CLOSE (R376): a write of SEC_CTRL with DBG_CLOSE closes a token early. -/
def execDbgClose (v : Word) (s : State) : Host.Outcome State Fault Refusal :=
  .next (if s.plat.running && keyOk v && wbit v 3 then tokenEnd s else s)

/-! ## The attestation report (R377, Table 15.7) -/

/-- FLAGS of the report. -/
def reportFlags (s : State) : Nat :=
  b2n (rb s Reg.IMG_STATUS F.IMG_STATUS_SEALED) + 2 * b2n (rb s Reg.IMG_STATUS F.IMG_STATUS_SEAL_PENDING) + 4 * b2n (debugScopes s != 0)
    + 8 * b2n (held s) + 16 * b2n (rb s Reg.IMG_STATUS F.IMG_STATUS_DEGRADED) + 32 * b2n s.rot.logTrunc

/-- Bytes 0 to 375 of the report. -/
def reportBody (s : State) (nonce : Nat) : List Byte :=
  natBe 1 1 ++ natBe 1 (reportFlags s) ++ natBe 2 0 ++ natBe 4 (rn s Reg.PLT_DEVICE_ID) ++ natBe 16 s.otp.serial ++ natBe 48 (imgHash s)
    ++ natBe 4 (rn s Reg.IMG_SEQ) ++ natBe 2 s.img.cfg.contract ++ natBe 2 0
    ++ natBe 48 (Config.sha384 (s.img.cfg.seeds.flatMap (natBe 8))) ++ natBe 48 s.img.cfg.partmapDigest
    ++ natBe 48 ((ownerKey s).getD 0) ++ natBe 48 s.img.cfg.policyDigest ++ natBe 4 (rn s Reg.SEC_DBG_REMAIN)
    ++ natBe 4 s.rot.logNext ++ natBe 48 s.rot.logDigest ++ natBe 32 nonce ++ timeBytes8 s ++ natBe 4 (rn s Reg.SEC_MIRROR_EPOCH) ++ natBe 4 0

/-- The whole report with its signature record. -/
def reportBytes (s : State) (nonce : Nat) : List Byte := reportBody s nonce ++ Config.dikSign (reportBody s nonce)

/-- ATTEST (R377): a write of SEC_CTRL with ATTEST fills the report window. -/
def execAttest (v : Word) (s : State) : Host.Outcome State Fault Refusal :=
  let nonce := beNat ((List.range 8).flatMap (fun i => natBe 4 (rn s (Reg.SEC_ATT_NONCE i))))
  .next (if !(s.plat.running && keyOk v && wbit v 2) then s
    else secEvent (showBytes Reg.SEC_REPORT 1294 (reportBytes s nonce) s) F.SEC_EVT_REPORT_READY (natBe 1 0 ++ natBe 2 0xFFFF))

/-! ## Handshakes (R366, R367, Table 15.5) -/

/-- Show the reason of the last refusal (SEC_LINK.REASON); an express port has no register. -/
def showReason (s : State) (p r : Nat) : State := if p < 2048 then wf s (Reg.SEC_LINK p) F.SEC_LINK_REASON r else s

/-- A link enters REFUSED. -/
def linkRefuse (s : State) (p r : Nat) : State :=
  let s1 := setLink s p { SecLink.empty with st := linkRefused, since := s.clock }
  secEvent (bump64 (showReason s1 p r) Reg.SEC_HS_FAIL 1) F.SEC_EVT_HS_FAIL (natBe 1 r ++ natBe 2 p)

/-- This end refuses its peer: REFUSE is sent with the reason (R367). -/
def refusePeer (s : State) (p r : Nat) : State := linkRefuse (handshakeMsg s p 0x53 r []) p r

/-- Whether a link is in HANDSHAKE. -/
def shaking (s : State) (p : Nat) : Bool := s.plat.running && (portRec s p).isSome && linkSt s p == linkHandshake

/-- HELLO (R366, R367): the peer's HALL_PART must be the port's own; a listed serial is not answered (R389). The answer is CERT. -/
def execHello (port : Fin 4096) (m : HelloMsg) (s : State) : Host.Outcome State Fault Refusal :=
  let p := port.val
  .next (if !shaking s p ∨ s.rot.expel.any (fun e => e.kind == 1 && e.subject == m.serial) then s
    else if !m.wellFormed then refusePeer s p 6
    else if m.hallPart ≠ hallPart s (portScope s p) then refusePeer s p 5
    else
      let s1 := setLink s p { linkOf s p with gotHello := true, peerSerial := m.serial, since := s.clock }
      handshakeMsg s1 p 0x51 0 (s.otp.cert ++ reportBytes s1 m.nonce))

/-- Why a CERT is refused (R367 steps 1 to 4). -/
def certRefusal (s : State) (p : Nat) (m : CertMsg) : Option Nat :=
  if !m.wellFormed then some 6
  else if !m.chainOk then some 1
  else if !m.reportSigOk then some 2
  else if m.nonce ≠ (linkOf s p).nonce then some 3
  else if m.ownerHash ≠ (ownerKey s).getD 0 then some 4
  else none

/-- CERT (R366, R367): an accepted one is answered with FINISH; the end with the higher serial is the responder, whose FINISH begins
with the ML-KEM ciphertext. The transcript hash TH is an open value: the peer's messages are known by their fields (log 5). -/
def execCert (port : Fin 4096) (m : CertMsg) (s : State) : Host.Outcome State Fault Refusal :=
  let p := port.val
  .next (if !shaking s p ∨ !(linkOf s p).gotHello ∨ (linkOf s p).gotCert then s
    else match certRefusal s p m with
      | some r => refusePeer s p r
      | none =>
        let s1 := setLink s p { linkOf s p with gotCert := true, sentFinish := true, since := s.clock }
        let s2 := if m.debugOpen then secEvent s1 F.SEC_EVT_PEER_DEBUG (natBe 1 0 ++ natBe 2 p) else s1
        let share := if (linkOf s2 p).peerSerial < s2.otp.serial then Config.keyShare s2.free else []
        tickFree (handshakeMsg s2 p 0x52 0 (share ++ Config.dikSign (natBe 48 (freeNat s2 % 2 ^ 384)))))

/-- A link is UP: its lanes are ready, its keys begin at epoch 0 and frame 0 (R368, R369), and its allowances and credits are granted
(R168, R184). -/
def linkNowUp (s : State) (p : Nat) : State :=
  match portRec s p with
  | none => s
  | some r =>
    let s1 := setLink s p { SecLink.empty with st := linkUp, since := s.clock, peerSerial := (linkOf s p).peerSerial }
    grantEntry (settle s (secEvent (setPortLanes r true s1) F.SEC_EVT_LINK_UP (natBe 1 0 ++ natBe 2 p))) p

/-- FINISH (R367, Table 15.5). -/
def execFinish (port : Fin 4096) (sigOk wellFormed : Bool) (s : State) : Host.Outcome State Fault Refusal :=
  let p := port.val
  .next (if !shaking s p ∨ !(linkOf s p).gotCert ∨ !(linkOf s p).sentFinish then s
    else if !wellFormed then refusePeer s p 6
    else if !sigOk then refusePeer s p 2
    else linkNowUp s p)

/-- REFUSE (Table 15.5). -/
def execRefuse (port : Fin 4096) (reason : Fin 256) (s : State) : Host.Outcome State Fault Refusal :=
  .next (if shaking s port.val then linkRefuse s port.val reason.val else s)

/-- HANDSHAKE_TIMEOUT (Table 15.5): 50 ms without a message. -/
def execHandshakeTimeout (port : Fin 4096) (s : State) : Host.Outcome State Fault Refusal :=
  .next (if shaking s port.val ∧ (linkOf s port.val).since + 50000 * usUnit ≤ s.clock then refusePeer s port.val 7 else s)

/-- REFUSED_RETRY (Table 15.5): 1 s in REFUSED with the lanes still LOCKED. -/
def execRefusedRetry (port : Fin 4096) (s : State) : Host.Outcome State Fault Refusal :=
  let p := port.val
  .next (match portRec s p with
    | none => s
    | some r =>
      if linkSt s p = linkRefused ∧ (linkOf s p).since + secUnit ≤ s.clock ∧ portLocked s r ∧ portLit s r ∧ duneUp s (r.first / 256) then
        startHandshake s p
      else s)

/-! ## Link encryption (R369 to R371) -/

/-- The seal of a frame: epoch, frame number, cell count, tag and NEXT (R369; its layout is log 28). -/
def sealBytes (x : SecLink) (next : Bool) (tag : Nat) : List Byte :=
  natBe 4 x.txEpoch ++ natBe 4 x.txFrame ++ natBe 4 x.txCells ++ natBe 16 tag ++ natBe 1 (b2n next)

/-- A transmit link after a frame has closed: the next frame, in the next epoch where the change is due (R371). -/
def nextTx (x : SecLink) (now : Nat) : SecLink :=
  if x.txNext = some (x.txFrame + 1) then { x with txEpoch := x.txEpoch + 1, txFrame := 0, txCells := 0, txNext := none, since := now }
  else { x with txFrame := x.txFrame + 1, txCells := 0 }

/-- FRAME_CLOSE (R369): a frame with a cell in it closes after 4,096 cells (1,114,112 bytes in Ethernet mode, R372) or 10 µs, and
its seal is sent; a seal waits out a guard window. -/
def execFrameClose (port : Fin 4096) (s : State) : Host.Outcome State Fault Refusal :=
  let p := port.val
  let x := linkOf s p
  .next (if (portRec s p).isNone ∨ x.st ≠ linkUp ∨ x.txCells = 0 ∨ portGuard s p s.clock then s
    else
      let next := x.txNext == some (x.txFrame + 2)
      let b := sealBytes x next (freeNat s)
      let s1 := linkMsg s p (originCfh s 0 (hallPart s (portScope s p)) 0xFFFFFA 0 0 b.length) b
      let y := nextTx x s.clock
      let s2 := setLink (tickFree s1) p y
      if y.txEpoch = x.txEpoch then s2 else bump64 s2 Reg.SEC_REKEYS 1)

/-- Send a retraction request for a step to the root of a group (R349). -/
def retractAsk (s : State) (grp step : Nat) : State :=
  match groupOf s grp with
  | none => s
  | some x =>
    chkEvent (colSend s grp x (collEp x.root) (.plain 0x18 0 step)) ((dunesUp s).headD 0) F.CHK_EVT_RETRACT_REQ x.part grp step

/-- A frame's tag fails or its seal is missing (R370): the link goes to OFF and is attested again; a retraction is requested for
each step that had a COLL packet in an unverified frame, the other packets are counted. -/
def tagFail (s : State) (p : Nat) : State :=
  let x := linkOf s p
  let colls := (x.rx.flatMap (·.colls)).dedup
  let s1 := secEvent (showReason (bump64 s Reg.SEC_TAG_FAIL 1) p 8) F.SEC_EVT_TAG_FAIL (natBe 1 8 ++ natBe 2 p)
  let s2 := secLog (bump64 s1 Reg.SEC_UNVERIFIED_PKTS (sumNat (x.rx.map (·.others)))) 9 p
  let s3 := colls.foldl (fun t e => retractAsk t e.1 e.2) s2
  tryHandshake (linkDown s3 p) p

/-- A verified frame: the next one is open, in the next epoch where NEXT has announced it (R371). -/
def nextRx (x : SecLink) (next : Bool) : SecLink :=
  let y := { x with rx := x.rx.filter (fun f => !(f.epoch == x.rxEpoch && f.no == x.rxFrame)) }
  if y.rxNext = some (y.rxFrame + 1) then { y with rxEpoch := y.rxEpoch + 1, rxFrame := 0, rxNext := none }
  else { y with rxFrame := y.rxFrame + 1, rxNext := if next then some (y.rxFrame + 2) else y.rxNext }

/-- LINK_SEAL (R370): the seal of the open receive frame arrives. -/
def execLinkSeal (port : Fin 4096) (m : SealMsg) (s : State) : Host.Outcome State Fault Refusal :=
  let p := port.val
  let x := linkOf s p
  .next (if (portRec s p).isNone ∨ x.st ≠ linkUp then s
    else if m.tagOk ∧ m.epoch = x.rxEpoch ∧ m.frame = x.rxFrame then setLink s p (nextRx x m.next)
    else tagFail s p)

/-- SEAL_MISSING (R370): 20 µs after its frame closed. -/
def execSealMissing (port : Fin 4096) (s : State) : Host.Outcome State Fault Refusal :=
  .next (if (portRec s port.val).isSome ∧ linkSt s port.val = linkUp ∧ !(linkOf s port.val).rx.isEmpty then tagFail s port.val else s)

/-- REKEY (R371): 10 minutes in an epoch, or frame 2^31; a sender that cannot rekey takes the port to OFF. -/
def execRekey (port : Fin 4096) (able : Bool) (s : State) : Host.Outcome State Fault Refusal :=
  let p := port.val
  let x := linkOf s p
  .next (if (portRec s p).isNone ∨ x.st ≠ linkUp ∨ x.txNext.isSome ∨ (s.clock < x.since + 600 * secUnit ∧ x.txFrame < 2 ^ 31) then s
    else if able then setLink s p { x with txNext := some (x.txFrame + 2) }
    else tryHandshake (linkDown (secEvent (showReason s p 8) F.SEC_EVT_REKEY_FAIL (natBe 1 8 ++ natBe 2 p)) p) p)

end Sys2Proof.Machine
end

