-- ==== Sys2Proof/Machine/Integrity.lean ====
section
/-! DEFINITION. Check units, resends, audits, retraction and replay, margin tests and quarantine (spec/14: R336 to R338, R341, R345,
R347 to R352, R355 to R357). -/
namespace Sys2Proof.Machine

/-! ## Check units (R338, Table 14.8) -/

/-- A write of CHK_UNIT_CFG: refused in HELD; while the unit is busy its parameters stay. -/
def unitWrite (s : State) (d u : Nat) (v : Word) (act : State → State) : State :=
  let a := Reg.CHK_UNIT_CFG d u
  if !duneUp s d then s
  else if held s then heldRefuse s a
  else act (if rb s a F.CHK_UNIT_CFG_BUSY then s else softWrite s a v)

/-- CHK_UNIT_START: an Oasis run begins, or ends with ERR where the image does not allow it; a queue monitor begins. -/
def execChkUnitStart (d : Fin 8) (u : Fin 64) (v : Word) (s : State) : Host.Outcome State Fault Refusal :=
  let a := Reg.CHK_UNIT_CFG d u
  .next (if !wbit v 31 ∨ wbit v 23 then s
    else unitWrite s d u v (fun t =>
      let src := rf t a F.CHK_UNIT_CFG_SRC
      if rb s a F.CHK_UNIT_CFG_BUSY then t
      else if src = 0 then
        if hostCheckAllowed t then wf t a F.CHK_UNIT_CFG_BUSY 1 else wf t (Reg.CHK_UNIT_STATUS d u) F.CHK_UNIT_STATUS_ERR 1
      else if src = 1 then wf t a F.CHK_UNIT_CFG_BUSY 1
      else t))

/-- CHK_UNIT_DONE: an Oasis run ends with its value, or with ERR: LEN 0, bytes outside the scope's space, or a word (`bad`) that
could not be corrected. -/
def execChkUnitDone (d : Fin 8) (u : Fin 64) (bad : Bool) (s : State) : Host.Outcome State Fault Refusal :=
  let a := Reg.CHK_UNIT_CFG d u
  let st := Reg.CHK_UNIT_STATUS d u
  .next (if !rb s a F.CHK_UNIT_CFG_BUSY ∨ rf s a F.CHK_UNIT_CFG_SRC ≠ 0 then s
    else
      let s1 := wf s a F.CHK_UNIT_CFG_BUSY 0
      let part := rf s (Reg.CHK_UNIT_PART d u) F.CHK_UNIT_PART_PART
      let off := rn64 s (Reg.CHK_UNIT_ADDR d u)
      let n := rn s (Reg.CHK_UNIT_LEN d u)
      if n = 0 ∨ bad ∨ outsideSpace s part off n then wf s1 st F.CHK_UNIT_STATUS_ERR 1
      else
        let c := unitCfg s d u
        let r := checkValue c (rn64 s (Reg.CHK_UNIT_FOLD d u)) (oasisRead s part off n)
        let s2 := wf (wn64 s1 (Reg.CHK_UNIT_RESULT d u) r) st F.CHK_UNIT_STATUS_DONE 1
        if rb s a F.CHK_UNIT_CFG_CMP_EN ∧ r ≠ rn64 s (Reg.CHK_UNIT_EXPECT d u) % 2 ^ c.w then unitMismatch s2 d u part 0 else s2)

/-- CHK_UNIT_STOP: a queue monitor ends. -/
def execChkUnitStop (d : Fin 8) (u : Fin 64) (v : Word) (s : State) : Host.Outcome State Fault Refusal :=
  let a := Reg.CHK_UNIT_CFG d u
  .next (if !wbit v 23 then s
    else unitWrite s d u v (fun t => if rf t a F.CHK_UNIT_CFG_SRC = 1 then wf t a F.CHK_UNIT_CFG_BUSY 0 else t))

/-! ## Resends (R341) -/

/-- RESEND (R341): the producer sends the named packet again: a partial from what the spine holds, a result, or every result. -/
def execResend (c : Cfh) (payload : List Byte) (s : State) : Host.Outcome State Fault Refusal :=
  let b := payload
  let grp := beAt b 2 2
  .next (if b.length ≠ 32 ∨ beAt b 0 1 ≠ 0x40 ∨ c.dst ≠ collEp (ownCoord s) ∨ !platUp s then s
    else match collAny s grp (beAt b 8 4) with
      | none => s
      | some (x, y) =>
        let kind := beAt b 1 1
        let k := beAt b 16 3
        if x.gen ≠ beAt b 4 1 ∨ c.part ≠ hallPart s x.part then s
        else if kind = 1 then
          let h := chunkOf y k
          if y.ended.isNone ∧ k < collChunks y ∧ h.stage = 5 ∧ beAt b 12 3 = spineTag (ownCoord s) then sendPartial s grp x y h (epCoord c.src) else s
        else if kind = 2 ∨ kind = 3 then
          let rs := y.results.filter (fun r => kind == 3 || r.chunk == k)
          bump64 (rs.foldl (fun t r => resendResult t grp x y c.src r) s) Reg.COL_RESULT_TX rs.length
        else s)

/-- What a tag or rank is awaited as: 0 a contribution, 1 a partial, 2 a result. -/
def awaitedKind (s : State) (x : Group) (y : Coll) (rank k : Nat) : Nat :=
  if rank < 0x800000 then 0 else if awaitedTag s x y k = some rank then 1 else 2

/-- RESEND_TIMEOUT (R341): RESEND_US without a valid packet is a failed attempt. -/
def execResendTimeout (grp : BitVec 16) (step : Word) (rank chunk : BitVec 24) (s : State) : Host.Outcome State Fault Refusal :=
  let g := grp.toNat
  .next (match groupOf s g with
    | none => s
    | some x => match collIn x step.toNat with
      | none => s
      | some y => match attemptOf y rank.toNat chunk.toNat with
        | none => s
        | some a =>
          let d := if chunk.toNat = 0xFFFFFF then chunkDune s x 0 else chunkDune s x chunk.toNat
          if s.clock < a.at_ + max 1 (rf s (Reg.CHK_CFG d) F.CHK_CFG_RESEND_US) * 1000 * nsUnit ∨ y.abortAt.isSome then s
          else if chunk.toNat = 0xFFFFFF then
            match (receivers x y).find? (fun m => m.rank == rank.toNat) with
            | none => s
            | some m => receiptBad s g x y m
          else askResend s g x y (awaitedKind s x y rank.toNat chunk.toNat) rank.toNat chunk.toNat)

/-! ## Audits (R345) -/

/-- AUDIT_DONE (R345): engine `g2` has rounded an owned chunk again with digest `second`; where that differs, a third engine has
given `third`. With three digests apart there is no majority, and the step is retracted (log 57). -/
def execAuditDone (grp : BitVec 16) (step : Word) (chunk : BitVec 24) (g2 : Fin 4096) (second : BitVec 64)
    (third : Option (BitVec 64)) (s : State) : Host.Outcome State Fault Refusal :=
  let g := grp.toNat
  let k := chunk.toNat
  .next (match groupOf s g with
    | none => s
    | some x => match collIn x step.toNat with
      | none => s
      | some y => match (ownResults s x y).find? (fun r => r.chunk == k) with
        | none => s
        | some r =>
          if y.audited.contains k ∨ y.opcode = 0x12 ∨ g2.val / 512 ≠ chunkDune s x k then s
          else
            let passed := fun (t : State) => match collOf t g y.step with
              | none => t
              | some z => showGroup (maybeReady (setColl t g { z with audited := z.audited ++ [k] }) g y.step)
            if second.toNat = r.digest then passed s
            else match third with
              | none => s
              | some v =>
                let d := g2.val / 512
                let s1 := fsrStore (bump64 s (Reg.CHK_AUDIT_FAIL d) 1) 0x03 [0, d] [] [] x.part [(14, x.job), (15, g), (16, y.step)] []
                let s2 := chkEvent s1 d F.CHK_EVT_AUDIT_FAIL x.part g y.step
                if v.toNat = r.digest then settleDrains (passed (residueEvent s2 g2)) else retractAsk s2 g y.step)

/-! ## Held data (R347) -/

/-- HOLD_EXPIRY (R347): HOLD_MS after COMMIT, with no later step dispatched. -/
def execHoldExpiry (grp : BitVec 16) (step : Word) (s : State) : Host.Outcome State Fault Refusal :=
  let g := grp.toNat
  .next (match groupOf s g with
    | none => s
    | some x => match x.kept.find? (fun y => y.step == step.toNat) with
      | none => s
      | some y =>
        let ms := max 1 (rf s (Reg.CHK_HOLD (y.fq / 2048)) F.CHK_HOLD_HOLD_MS)
        if y.since + ms * 1000000 * nsUnit ≤ s.clock ∧ !(x.opened.any (fun z => stepBefore y.step z.step)) then
          setGroup s g { x with kept := x.kept.filter (fun z => z.step != y.step) }
        else s)

/-! ## Retraction and replay (R349 to R351) -/

/-- A message of TYPE 18h for this spine: of a group that it has, under its GEN. -/
def retractMsg (s : State) (c : Cfh) (b : List Byte) : Option (Nat × Group × ColMsg) := ctlFor s 0x18 c b

/-- RETRACT_REQUEST (R349, R350): a member's request is relayed to the root; the root decides. -/
def execRetractRequest (c : Cfh) (payload : List Byte) (s : State) : Host.Outcome State Fault Refusal :=
  .next (match retractMsg s c payload with
    | none => s
    | some (grp, x, m) =>
      if (x.entries.any (fun w => w.role == 0 && w.ep == c.src)) then retractAsk s grp m.step
      else if isRoot s x ∧ (fromSpine x c).isSome then showGroup (rootRetract (twinCopy s x.part c payload) grp x m.step)
      else s)

/-- Write the copies that a collective holds back to where they were taken (R37, R266). -/
def restoreCopies (s : State) (x : Group) (y : Coll) : State :=
  let s1 := y.shardCopy.foldl (fun t e => oasisWrite t x.part (shardAddr x y e.1) e.2) s
  y.residCopy.foldl (fun t e => oasisWrite t x.part (residAddr x y e.1) e.2) s1

/-- A collective as its replay begins: its contributions and copies are held, everything else of the step is discarded. -/
def replayOf (y : Coll) (live : Bool) : Coll :=
  { y with deadline := if live then y.deadline else none, chunks := [], partials := [], results := [], receipts := [], racked := [],
           readySent := false, readies := [], decided := none, abortAt := none, abortBy := none, attempts := [], audited := [],
           ufl := 0, stale := 0, ovf := 0, replay := true, ended := none }

/-- The open steps above one, from the highest (R351). -/
def stepsAbove (x : Group) (step : Nat) : List Coll :=
  (sortBy (fun y => (y.step + 2 ^ 32 - step) % 2 ^ 32) (x.opened.filter (fun y => stepBefore step y.step))).reverse

/-- Claim a later step RETRACTED and restore its copies, once the commits that its tasks have begun are finished. -/
def retractLater (grp : Nat) (x : Group) (s0 : State) (y0 : Coll) : State :=
  let s := finishColl s0 grp y0.step
  let y := (collOf s grp y0.step).getD y0
  twinStep (settleAbort (restoreCopies (endColl s grp y stRetracted 0 0 0) x y) y stAbortLate) grp x y.step true

/-- A spine retracts a step and replays it (R351). -/
def retractStep (s0 : State) (grp : Nat) (x : Group) (y0 : Coll) (m : ColMsg) : State :=
  let s := finishColl s0 grp y0.step
  let y := (collOf s grp y0.step).getD y0
  let s1 := (stepsAbove x y.step).foldl (retractLater grp x) s
  let s2 := purgeColl (restoreCopies s1 x y) grp y.step
  let live := y.ended.isNone && !y.replay
  let z := { replayOf y (y.ended.isNone) with waiting := y.ended.isSome || y.waiting, since := s.clock, abortBy := if live then y.abortBy else none }
  let s3 := match groupOf s2 grp with
    | none => s2
    | some x1 => setGroup s2 grp { x1 with nextStep := (y.step + 1) % 2 ^ 32, kept := x1.kept.filter (fun w => w.step != y.step),
                                           opened := x1.opened.filter (fun w => w.step != y.step) ++ [z] }
  let s4 := tellMembers (twinStep s3 grp x y.step true) grp x (receivers x y) m
  maybeReady (pumpColl (pumpAll s4) grp y.step) grp y.step

/-- RETRACT (R351). A step that the spine no longer holds cannot be replayed: REPLAY_FAIL (log 58). -/
def execRetract (c : Cfh) (payload : List Byte) (s : State) : Host.Outcome State Fault Refusal :=
  .next (match retractMsg s c payload with
    | none => s
    | some (grp, x, m) =>
      if !fromRoot x c then s
      else match (x.opened ++ x.kept).find? (fun y => y.step == m.step) with
        | none =>
          if stepBefore m.step x.nextStep then chkEvent s (rootDune s) F.CHK_EVT_REPLAY_FAIL x.part grp m.step else s
        | some y =>
          let s1 := bump64 (twinCopy s x.part c payload) (Reg.CHK_RETRACTS (y.fq / 2048)) 1
          showGroup (retractStep s1 grp x y m))

/-- REPLAY_RESERVE_FAIL (R351): the replay could not reserve within GRACE_US; what it held is freed. -/
def execReplayReserveFail (grp : BitVec 16) (step : Word) (s : State) : Host.Outcome State Fault Refusal :=
  let g := grp.toNat
  .next (match collOf s g step.toNat, groupOf s g with
    | some y, some x =>
      if y.waiting ∧ y.since + graceUnits s ≤ s.clock then
        showGroup (pumpAll (chkEvent (closeColl s g y stDigestFail) (y.fq / 2048) F.CHK_EVT_REPLAY_FAIL x.part g y.step))
      else s
    | _, _ => s)

/-! ## Margin tests (R355, R356) -/

/-- The flat grains of a ripple of a dune. -/
def marginEngines (d r : Nat) : List Nat := (List.range 16).map (fun k => (d * 32 + r) * 16 + k)

/-- Set RESULT and STATE of a margin test. -/
def marginShow (s : State) (d result : Nat) (st : Option Nat) : State :=
  let s1 := wf s (Reg.CHK_MARGIN_STATUS d) F.CHK_MARGIN_STATUS_RESULT result
  match st with
  | none => s1
  | some n => wf s1 (Reg.CHK_MARGIN_STATUS d) F.CHK_MARGIN_STATUS_STATE n

/-- MARGIN_START (R355, R356). -/
def execMarginStart (d : Fin 8) (v : Word) (s : State) : Host.Outcome State Fault Refusal :=
  let r := bitsAt v.toNat 0 5
  let gs := marginEngines d r
  .next (if !keyOk v ∨ !wbit v 5 ∨ wbit v 6 ∨ !duneUp s d then s
    else if held s then heldRefuse (marginShow s d 7 none) (Reg.CHK_MARGIN_CTRL d)
    else if (SMap.find s.chk.margins d.val).isSome ∨ (SMap.find s.brc.dis d.val).isSome then marginShow s d 5 none
    else if !(emptiedPools s (disCovers s gs)).isEmpty then marginShow s d 6 none
    else
      let s1 := { s with chk := { s.chk with margins := SMap.ins s.chk.margins d.val ⟨r, false⟩ } }
      let s2 := wfs (marginShow s1 d 0 (some 1)) (Reg.CHK_MARGIN_STATUS d) [(F.CHK_MARGIN_STATUS_STEP, 0), (F.CHK_MARGIN_STATUS_FAILED, 0)]
      disableEngines s2 (32 + d) gs false 1 r)

/-- End a margin test: the engines of the ripple that are not quarantined are enabled, and the test is recorded and reported. -/
def marginEnd (s : State) (d r result : Nat) : State :=
  let s1 := { s with chk := { s.chk with margins := SMap.del s.chk.margins d } }
  let s2 := (marginEngines d r).foldl (fun t g => if engSt t g = engQuarantined ∨ t.plat.quarantine.contains g then t else enableEng t g)
    (marginShow s1 d result (some 3))
  let s3 := fsrStore s2 0x08 [0, d, r] [] [] (partOfRipple s (d * 32 + r)) [] []
  settle s (settleDrains (chkEvent s3 d F.CHK_EVT_MARGIN_DONE (partOfRipple s (d * 32 + r)) 0xFFFF 0))

/-- MARGIN_TEMP_REACHED (R355 step 2): the ripple's engines have drained and the hottest sensor has reached MIN_TEMP. -/
def execMarginTempReached (d : Fin 8) (s : State) : Host.Outcome State Fault Refusal :=
  .next (match SMap.find s.chk.margins d.val with
    | none => s
    | some m =>
      if m.running ∨ (marginEngines d m.ripple).any (fun g => engSt s g == engRunning || engSt s g == engDraining) then s
      else marginShow { s with chk := { s.chk with margins := SMap.ins s.chk.margins d.val { m with running := true } } } d 0 (some 2))

/-- MARGIN_COLD_TIMEOUT: MIN_TEMP was not reached within 10 s. -/
def execMarginColdTimeout (d : Fin 8) (s : State) : Host.Outcome State Fault Refusal :=
  .next (match SMap.find s.chk.margins d.val with
    | none => s
    | some m => if m.running then s else marginEnd s d m.ripple 3)

/-- The lowest offset as CHK_MARGIN_RES holds it: FFh where 0 mV failed. -/
def marginCode (m : Option Nat) : Nat := m.getD 0xFF

/-- Whether an offset limit means a failure above the guard: an offset of less than GUARD_MV below 0 failed (R356). -/
def failsAbove (guard_ : Nat) (m : Option Nat) : Bool := match m with
  | none => decide (0 < guard_)
  | some n => decide (n < 60 ∧ n + 10 < guard_)

/-- MARGIN_DONE (R355, R356): what the test found. -/
def execMarginDone (d : Fin 8) (r : MarginRes) (s : State) : Host.Outcome State Fault Refusal :=
  .next (match SMap.find s.chk.margins d.val with
    | none => s
    | some m =>
      if !m.running then s
      else
        let guard_ := min 60 (rf s (Reg.CHK_MARGIN_CFG d) F.CHK_MARGIN_CFG_GUARD_MV)
        let s1 := (List.range 16).foldl (fun t k =>
          wf t (Reg.CHK_MARGIN_RES d k) F.CHK_MARGIN_RES_ENG_MV (marginCode (getAt none r.engines k))) s
        let bad := (List.range 16).filter (fun k => failsAbove guard_ (getAt none r.engines k)
          || (List.range 4).any (fun l => failsAbove guard_ (getAt (some 60) r.lines (k * 4 + l))))
        let gs := bad.map (fun k => (d.val * 32 + m.ripple) * 16 + k)
        let fresh := gs.filter (fun g => engSt s g != engQuarantined)
        let s2 := fresh.foldl quarantine s1
        let s3 := wfs s2 (Reg.CHK_MARGIN_STATUS d) [(F.CHK_MARGIN_STATUS_STEP, 6), (F.CHK_MARGIN_STATUS_FAILED, fresh.length)]
        marginEnd s3 d m.ripple (if fresh.isEmpty then 1 else 2))

/-- MARGIN_STOP (R356): the test ends at its current step. -/
def execMarginStop (d : Fin 8) (v : Word) (s : State) : Host.Outcome State Fault Refusal :=
  .next (if !keyOk v ∨ !wbit v 6 ∨ wbit v 5 ∨ !duneUp s d then s
    else if held s then heldRefuse s (Reg.CHK_MARGIN_CTRL d)
    else match SMap.find s.chk.margins d.val with
      | none => s
      | some m => marginEnd s d m.ripple 4)

/-! ## Quarantine (R357) -/

/-- QUARANTINE_RELEASE: an engine leaves the list for DISABLED. -/
def execQuarantineRelease (d : Fin 8) (v : Word) (s : State) : Host.Outcome State Fault Refusal :=
  let g := d.val * 512 + bitsAt v.toNat 0 9
  let show_ := fun (t : State) n => wf t (Reg.CHK_QUAR_STATUS d) F.CHK_QUAR_STATUS_RESULT n
  .next (if !keyOk v ∨ !wbit v 23 ∨ !duneUp s d then s
    else if held s then heldRefuse (show_ s 3) (Reg.CHK_QUAR_CTRL d)
    else if engSt s g ≠ engQuarantined then show_ s 2
    else settleDrains (show_ (setEngSt { s with plat := { s.plat with quarantine := s.plat.quarantine.filter (fun x => x != g) } } g engDisabled) 1))

end Sys2Proof.Machine
end

