-- ==== Sys2Proof/Machine/Management.lean ====
section
/-! DEFINITION. The management triad and HELD, function requests, quorum orders, fences, and Mirage spines (spec/16: R382 to R393,
R396). -/
namespace Sys2Proof.Machine

/-! ## The triad (R382, R383, Table 16.1) -/

/-- CORE_OK of the cores that run and agree: A in [27], B in [26], C in [25] (log 33). -/
def coreBits (l : List Nat) : Nat := sumNat (l.map (fun k => 2 ^ (2 - k)))

/-- Move the triad to a state and show its cores. -/
def triadTo (s : State) (st : Nat) (cores : List Nat) : State :=
  wfs s Reg.MGT_TRIAD [(F.MGT_TRIAD_STATE, st), (F.MGT_TRIAD_CORE_OK, coreBits cores)]

/-- What a MGT event names where it concerns neither a scope nor a port. -/
def mgtNone : List Byte := natBe 1 0xFF ++ natBe 2 0xFFFF

/-- Entry to HELD (R383): MGT_READY clears, the cause is latched, the attestation log has its entry, and an armed UNEXPEL, UNFENCE or
PROMOTE is cancelled (R388). -/
def enterHeld (s : State) (cause : Nat) : State :=
  let s1 := wf (triadTo { s with mgt := { s.mgt with heldAt := s.clock, probation := none } } 3 []) Reg.MGT_TRIAD F.MGT_TRIAD_HELD_CAUSE cause
  let s2 := refreshReady s (wf s1 Reg.PLT_READY_SUM F.PLT_READY_SUM_MGT_READY 0)
  let s3 := secLog (mgtEvent s2 F.MGT_EVT_HELD mgtNone) 7 0
  match s3.mgt.order with
  | none => s3
  | some o =>
    if o.action = 1 ∨ o.action = 3 then s3
    else wf { s3 with mgt := { s3.mgt with order := none } } Reg.MGT_ORD_STATUS F.MGT_ORD_STATUS_RESULT 0xB

/-- The triad goes to DUAL: the core that is neither proven is retired. -/
def enterDual (s : State) (k : Nat) : State :=
  let two := [0, 1, 2].filter (fun i => i != k)
  let s1 := { s with mgt := { s.mgt with proven := two, probation := none, retired := some k } }
  mgtEvent (triadTo s1 2 two) F.MGT_EVT_DUAL mgtNone

/-- One core of the triad disagrees: it is resynchronised, but not a third time within 24 h. -/
def enterResync (s : State) (k : Nat) : State :=
  let two := [0, 1, 2].filter (fun i => i != k)
  let recent := (s.mgt.resyncs.filter (fun e => decide (s.clock < e.1 + 86400 * secUnit))) ++ [(s.clock, k)]
  let s1 := { s with mgt := { s.mgt with proven := two, probation := none, resyncs := recent } }
  let s2 := mgtEvent (bump64 (triadTo s1 1 two) Reg.MGT_RESYNCS 1) F.MGT_EVT_RESYNC mgtNone
  if 3 ≤ (recent.filter (fun e => e.2 == k)).length then enterDual s2 k else s2

/-- Whether two cores present the same value; a core that presents none agrees with nobody. -/
def agreeing (v : List (Option Word)) (i j : Nat) : Bool := (getAt none v i).isSome && getAt none v i == getAt none v j

/-- The core that disagrees with two that agree. -/
def oddCore (v : List (Option Word)) : Option Nat :=
  if agreeing v 0 1 && agreeing v 0 2 then none
  else if agreeing v 1 2 then some 0 else if agreeing v 0 2 then some 1 else if agreeing v 0 1 then some 2 else none

/-- TRIAD_DISAGREE: the values that the cores have presented to the voter, `none` where a core was 1 µs late. -/
def execTriadDisagree (a b c : Option Word) (s : State) : Host.Outcome State Fault Refusal :=
  let v := [a, b, c]
  let st := rf s Reg.MGT_TRIAD F.MGT_TRIAD_STATE
  let two := agreeing v (getAt 0 s.mgt.proven 0) (getAt 0 s.mgt.proven 1)
  .next (if !s.plat.running then s
    else if st = 0 then
      if agreeing v 0 1 && agreeing v 0 2 then s
      else match oddCore v with
        | some k => enterResync s k
        | none => enterHeld s 2
    else if st = 1 then
      match s.mgt.probation with
      | none => if two then s else enterHeld s 1
      | some k =>
        if agreeing v 0 1 && agreeing v 0 2 then s
        else match oddCore v with
          | none => enterHeld s 2
          | some j => if j = k then enterDual s k else enterHeld s 1
    else if st = 2 then (if two then s else enterHeld s 1)
    else s)

/-- The core being resynchronised. -/
def resyncCore (s : State) : Nat := (([0, 1, 2].filter (fun i => !s.mgt.proven.contains i)).head?).getD 2

/-- TRIAD_REJOIN: at the next voted checkpoint the core rejoins on probation, or fails its self-test. -/
def execTriadRejoin (selfTestOk : Bool) (s : State) : Host.Outcome State Fault Refusal :=
  .next (if rf s Reg.MGT_TRIAD F.MGT_TRIAD_STATE ≠ 1 ∨ s.mgt.probation.isSome then s
    else if selfTestOk then triadTo { s with mgt := { s.mgt with probation := some (resyncCore s) } } 1 [0, 1, 2]
    else enterDual s (resyncCore s))

/-- TRIAD_PROBATION_END: 1 s of agreement since the rejoining. -/
def execTriadProbationEnd (s : State) : Host.Outcome State Fault Refusal :=
  .next (if rf s Reg.MGT_TRIAD F.MGT_TRIAD_STATE ≠ 1 ∨ s.mgt.probation.isNone then s
    else triadTo { s with mgt := { s.mgt with proven := [], probation := none } } 0 [0, 1, 2])

/-! ## HELD beacons (R393, Table 16.7) -/

/-- HELD_BEACON_SEND: every 1 ms on every link in UP. -/
def execHeldBeaconSend (s : State) : Host.Outcome State Fault Refusal :=
  let t := s.mgt.heldAt
  let b := natBe 1 0x70 ++ natBe 1 (rf s Reg.MGT_TRIAD F.MGT_TRIAD_HELD_CAUSE) ++ natBe 2 0 ++ natBe 16 s.otp.serial
    ++ natBe 4 (t / secUnit % 2 ^ 32) ++ natBe 4 (t / nsUnit % 1000000000) ++ natBe 4 0
  .next (if held s then
      ((allPorts s).filter (fun r => linkSt s r.num == linkUp)).foldl (fun u r =>
        sendOwn u r.num (originCfh u 0 (hallPart u (portScope u r.num)) 0xFFFFF8 0 0 32) b) s
    else s)

/-- HELD_BEACON: a beacon arrives on a port. -/
def execHeldBeacon (port : Fin 4096) (payload : List Byte) (s : State) : Host.Outcome State Fault Refusal :=
  .next (if !platUp s ∨ linkSt s port.val ≠ linkUp ∨ payload.length ≠ 32 ∨ beAt payload 0 1 ≠ 0x70 then s
    else
      let s1 := { s with mgt := { s.mgt with beacons := SMap.ins s.mgt.beacons port.val s.clock } }
      let s2 := wfs s1 Reg.MGT_PEER_HELD [(F.MGT_PEER_HELD_VALID, 1), (F.MGT_PEER_HELD_PORT, port.val % 2048)]
      let s3 := (List.range 4).foldl (fun t i => wn t (Reg.MGT_PEER_SERIAL i) (beAt payload (4 + 4 * i) 4)) s2
      settle s (mgtEvent (bump64 s3 Reg.MGT_BEACONS_RX 1) F.MGT_EVT_PEER_HELD (natBe 1 (portScope s port.val) ++ natBe 2 port.val)))

/-- HELD_BEACON_ABSENCE: 10 ms without a beacon on a port. -/
def execHeldBeaconAbsence (port : Fin 4096) (s : State) : Host.Outcome State Fault Refusal :=
  .next (match SMap.find s.mgt.beacons port.val with
    | none => s
    | some t =>
      if s.clock < t + 10000000 * nsUnit then s
      else
        let m := SMap.del s.mgt.beacons port.val
        wf { s with mgt := { s.mgt with beacons := m } } Reg.MGT_PEER_HELD F.MGT_PEER_HELD_VALID (b2n (!m.isEmpty)))

/-! ## Function requests (R384 to R386, Table 16.2) -/

/-- Whether INDEX names a function of a KIND. -/
def fnIndexOk (s : State) (kind index : Nat) : Bool :=
  if kind = 0 then duneUp s (index / 2048 % 8)
  else if kind = 1 then decide (index < 2048) && s.img.cfg.ports.any (fun r => r.num == index)
  else if kind = 2 then decide (index < 256) && (scopeOfRipple s index).isSome
  else index / 16 % 64 == 0 && (scopeOf s (index % 16)).isSome && (bitAt index 10 || !(fnRipples s kind index).isEmpty)

/-- The scopes of a request. -/
def fnScopes (s : State) (kind index : Nat) : List Nat :=
  if kind = 0 then [cqScope s (index / 2048 % 8) (index % 2048)] else if kind = 1 then [portScope s (index % 2048)]
  else if kind = 2 then [partOfRipple s (index % 256)] else [index % 16]

/-- Whether a port may not be enabled: it is on the expel list, or the device is expelled (R385, R389). -/
def portExpelled (s : State) (p : Nat) : Bool :=
  rb s Reg.MGT_EXPEL F.MGT_EXPEL_SELF_EXPELLED || s.rot.expel.any (fun e => e.kind == 2 && e.subject == p)

/-- Set RESULT of MGT_FN_STATUS. -/
def fnResult (s : State) (n : Nat) : State := wf s Reg.MGT_FN_STATUS F.MGT_FN_STATUS_RESULT n

/-- INDEX of a request; with ALL set its dune is ignored (Table 16.8). -/
def fnIndex (v : Word) : Nat :=
  let i := getF v F.MGT_FN_CTRL_INDEX
  if getF v F.MGT_FN_CTRL_KIND = 3 ∧ bitAt i 10 then i % 2 ^ 11 else i

/-- A write of MGT_FN_CTRL, up to what only its kind decides. `upgrade` accepts an immediate disable over a pending drain. -/
def fnWrite (s : State) (v : Word) (act : State → Nat → Nat → State) (upgrade : FnReq → Bool) : State :=
  let kind := getF v F.MGT_FN_CTRL_KIND
  let index := fnIndex v
  if !keyOk v ∨ !platUp s then s
  else if held s then heldRefuse (fnResult s 3) Reg.MGT_FN_CTRL
  else if !fnIndexOk s kind index then fnResult s 5
  else if (fnScopes s kind index).any (fenced s) then fnResult s 4
  else match s.mgt.fn with
    | none => act s kind index
    | some r => if r.kind = kind ∧ r.index = index ∧ upgrade r then act s kind index else fnResult s 2

/-- Enable a command queue that is DISABLED, by its flat number. -/
def enableCq (s : State) (fq : Nat) : State :=
  if cqState s (fq / 2048) (fq % 2048) ≠ 0 then s else enableQueue s (fq / 2048) (fq % 2048)

/-- Enable a port: a new handshake starts. One that may not be enabled stays DISABLED. -/
def enablePort (s : State) (p : Nat) : State :=
  if portExpelled s p ∨ portFn s p ≠ 0 then s else tryHandshake (setPortFn s p 1) p

/-- FN_ENABLE (R385): refused for a port that may not be enabled. -/
def execFnEnable (v : Word) (s : State) : Host.Outcome State Fault Refusal :=
  .next (if getF v F.MGT_FN_CTRL_ENABLE ≠ 1 ∨ getF v F.MGT_FN_CTRL_DISABLE = 1 then s
    else fnWrite s v (fun t kind index =>
      if kind = 1 ∧ portExpelled t index then fnResult t 6
      else
        let s1 := (fnQueues t kind index).foldl enableCq (fnResult t 1)
        let s2 := (fnPorts t kind index).foldl enablePort s1
        let s3 := settleDrains ((fnEngines t kind index).foldl enableEng s2)
        let s4 := wfs s3 Reg.MGT_FN_STATUS [(F.MGT_FN_STATUS_PENDING, 0), (F.MGT_FN_STATUS_STATE, 1), (F.MGT_FN_STATUS_REMAIN, 0)]
        settle t (mgtEvent s4 F.MGT_EVT_FN_DONE (fnBody s4 kind index))) (fun _ => false))

/-- End every open command of a queue with a status (R384, R390): a running collective is not claimed, but its root asked to abort;
`claims` claims it as well. -/
def abortQueue (status : Nat) (claims : Bool) (s : State) (fq : Nat) : State :=
  let d := fq / 2048
  let q := fq % 2048
  ((cqOf s d q).slots.filter slotOpen).foldl (fun t x =>
    match collOfCmd t fq x.no with
    | some (grp, c) =>
      let t1 := if c.abortAt.isSome then t else abortRequest t grp c.step stAborted none
      if claims then endColl t1 grp c status 0 0 0 else t1
    | none => failRun t fq x.no status) s

/-- Disable the functions of a request. -/
def fnDisable (s : State) (kind index : Nat) (immediate : Bool) : State :=
  let qs := fnQueues s kind index
  let gs := fnEngines s kind index
  let at_ := match s.mgt.fn with
    | some r => r.at_
    | none => s.clock
  let s1 := { fnResult s 1 with mgt := { s.mgt with fn := some ⟨false, immediate, kind, index, at_⟩ } }
  let s2 := qs.foldl (fun t fq => drainCq t (fq / 2048) (fq % 2048)) s1
  let s3 := if immediate then qs.foldl (abortQueue stAborted false) s2 else s2
  let s4 := (fnPorts s kind index).foldl (disablePort immediate) s3
  let s5 := ((gs.map (· / 512)).dedup).foldl (fun t d =>
    disableEngines t (16 + d) (gs.filter (fun g => g / 512 == d)) immediate kind index) s4
  settle s (fnProgress (showGroup (pumpAll s5)))

/-- FN_DISABLE_DRAIN. -/
def execFnDisableDrain (v : Word) (s : State) : Host.Outcome State Fault Refusal :=
  .next (if getF v F.MGT_FN_CTRL_DISABLE ≠ 1 ∨ getF v F.MGT_FN_CTRL_ENABLE = 1 ∨ getF v F.MGT_FN_CTRL_IMMEDIATE = 1 then s
    else fnWrite s v (fun t kind index => fnDisable t kind index false) (fun _ => false))

/-- FN_DISABLE_IMMEDIATE: over the same scope it upgrades a pending drain. -/
def execFnDisableImmediate (v : Word) (s : State) : Host.Outcome State Fault Refusal :=
  .next (if getF v F.MGT_FN_CTRL_DISABLE ≠ 1 ∨ getF v F.MGT_FN_CTRL_ENABLE = 1 ∨ getF v F.MGT_FN_CTRL_IMMEDIATE ≠ 1 then s
    else fnWrite s v (fun t kind index => fnDisable t kind index true) (fun r => !r.immediate && !r.enable))

/-- DRAIN_TIMEOUT: a drain still pending after DRAIN_TMO_MS goes on, with an event. -/
def execDrainTimeout (s : State) : Host.Outcome State Fault Refusal :=
  .next (match s.mgt.fn with
    | none => s
    | some r =>
      if r.enable ∨ r.immediate ∨ s.clock < r.at_ + max 1 (rf s Reg.MGT_FN_CFG F.MGT_FN_CFG_DRAIN_TMO_MS) * 1000000 * nsUnit then s
      else mgtEvent s F.MGT_EVT_DRAIN_TMO (fnBody s r.kind r.index))

/-! ## Orders (R387, R388, Tables 16.3 and 16.4) -/

def oAction (h : Nat) : Nat := fieldBe 192 h 1 1
def oKind (h : Nat) : Nat := fieldBe 192 h 2 1
def oSigs (h : Nat) : Nat := fieldBe 192 h 3 1
def oRcpts (h : Nat) : Nat := fieldBe 192 h 4 1
def oSeq (h : Nat) : Nat := fieldBe 192 h 8 8
def oTarget (h : Nat) : Nat := fieldBe 192 h 16 16
def oNum (h : Nat) : Nat := fieldBe 192 h 32 2
def oHall (h : Nat) : Nat := fieldBe 192 h 34 2
def oEp (h : Nat) : Nat := fieldBe 192 h 36 3
def oSec (h : Nat) : Nat := fieldBe 192 h 40 8
def oNs (h : Nat) : Nat := fieldBe 192 h 48 4
/-- The recipients' serials. -/
def oRcptList (h : Nat) : List Nat := (List.range 8).map (fun i => fieldBe 192 h (64 + 16 * i) 16)

/-- Whether ACTION and TKIND form a pair of Table 16.5. -/
def oPairOk (a k : Nat) : Bool := ((a == 1 || a == 2) && (k == 1 || k == 2 || k == 3)) || ((a == 3 || a == 4) && k == 4) || (a == 5 && k == 1)

/-- A quorum order as the root of trust sees it (R387): its 192-byte head, its length, and its signature records. -/
structure MgtOrder where
  head : Nat
  length : Nat
  sigs : List SigRec
  deriving DecidableEq, Repr

/-- The rules of an order's head, and its length. -/
def oHeadOk (o : MgtOrder) : Bool :=
  let h := o.head
  let k := oKind h
  fieldBe 192 h 0 1 == 1 && oPairOk (oAction h) k && decide (1 ≤ oSigs h ∧ oSigs h ≤ 8) && decide (1 ≤ oRcpts h ∧ oRcpts h ≤ 8)
    && fieldBe 192 h 5 3 == 0 && (if k = 2 then decide (oNum h < 2048) else if k = 4 then decide (oNum h < 16) else oNum h == 0)
    && (if k = 3 then decide (oHall h < 4096) else oHall h == 0 && oEp h == 0) && fieldBe 192 h 39 1 == 0
    && decide (oNs h < 1000000000) && fieldBe 192 h 52 12 == 0
    && ((oRcptList h).drop (oRcpts h)).all (· == 0) && o.length == 192 + oSigs h * 4800

/-- Valid signatures of distinct enrolled managers. -/
def oQuorum (s : State) (o : MgtOrder) : Nat :=
  (((o.sigs.take (oSigs o.head)).filter (fun r => r.signer == 4 && r.ecdsaOk && r.mldsaOk && s.img.cfg.mgrKeys.contains r.keyHash)).map
    (·.keyHash)).dedup.length

/-- Whether the order's target is valid here (step 5): the port or scope exists, and the recipient is one that Table 16.5 gives the action
an effect at; for PROMOTE the Mirage spine has passed. -/
def oTargetOk (s : State) (h : Nat) : Bool :=
  let self := oTarget h == s.otp.serial
  let k := oKind h
  if oAction h = 5 then self && isMirageSpine s && rb s Reg.MGT_TWIN_STATUS F.MGT_TWIN_STATUS_PASSED
  else if k = 2 then (self || oAction h == 2) && s.img.cfg.ports.any (fun r => r.num == oNum h)
  else if k = 4 then self && (scopeOf s (oNum h)).isSome
  else true

/-- The entry that an order names (R389). -/
def oEntry (o : ArmedOrder) : ExpelEntry :=
  ⟨o.tkind, if o.tkind = 1 then o.target else if o.tkind = 2 then o.num else o.hallPart * 2 ^ 24 + o.ep⟩

/-- An order as it is armed. -/
def oArmed (s : State) (h : Nat) : ArmedOrder :=
  let zero := oSec h == 0 && oNs h == 0
  let t := instant (oSec h) (oNs h)
  ⟨oAction h, oKind h, oTarget h, oNum h, oHall h, oEp h, if zero then 0 else t, !zero && decide (t < s.clock)⟩

/-- The RESULT that refuses an order (Table 16.4); none where it is accepted. -/
def oRefusal (s : State) (o : MgtOrder) : Option Nat :=
  let h := o.head
  let e := oEntry (oArmed s h)
  let t := instant (oSec h) (oNs h)
  let zero := oSec h == 0 && oNs h == 0
  if !oHeadOk o then some 3
  else if !((oRcptList h).take (oRcpts h)).contains s.otp.serial then some 4
  else if oSeq h ≤ rn s (Reg.MGT_ORD_LAST 1) * 2 ^ 32 + rn s (Reg.MGT_ORD_LAST 0) then some 5
  else if oQuorum s o < s.img.cfg.quorumK then some 6
  else if !oTargetOk s h then some 7
  else if oAction h = 1 ∧ 1024 ≤ s.rot.expel.length ∧ !s.rot.expel.contains e then some 0xC
  else if !zero ∧ !timReady s then some 8
  else if !zero ∧ t + secUnit < s.clock then some 9
  else if s.mgt.order.isSome then some 0xA
  else if held s ∧ oAction h ≠ 1 ∧ oAction h ≠ 3 then some 0xB
  else none

/-- Check an order: refused with its RESULT, or armed (R388). -/
def checkOrder (s : State) (o : MgtOrder) : State :=
  let s0 := wf s Reg.MGT_ORD_STATUS F.MGT_ORD_STATUS_SIGS_VALID (min 15 (oQuorum s o))
  match oRefusal s o with
  | some r => mgtEvent (bump64 (wf s0 Reg.MGT_ORD_STATUS F.MGT_ORD_STATUS_RESULT r) Reg.MGT_ORDERS_REFUSED 1) F.MGT_EVT_ORDER_REFUSED mgtNone
  | none =>
    let h := o.head
    let s1 := wn (wn s0 (Reg.MGT_ORD_LAST 0) (oSeq h % 2 ^ 32)) (Reg.MGT_ORD_LAST 1) (oSeq h / 2 ^ 32)
    wf { s1 with mgt := { s1.mgt with order := some (oArmed s h) } } Reg.MGT_ORD_STATUS F.MGT_ORD_STATUS_RESULT 1

/-- Where an order lies in host memory (MGT_ORD_ADDR). -/
def orderAddr (s : State) : Nat := rn s (Reg.MGT_ORD_ADDR 1) * 2 ^ 32 + rn s (Reg.MGT_ORD_ADDR 0)

/-- `n` bytes of the order at an offset, as a big-endian number, as DMA reads them (R387). -/
def orderField (s : State) (off n : Nat) : Nat := beNat (hostRead s (orderAddr s + off) n)

/-- The order that host memory holds; `verdicts` says of each signature record whether its two signatures are valid. An address that is
not a multiple of 4,096 makes it malformed, by a length that no order has (Table 16.9; DEDUCED, log 222). -/
def hostOrder (s : State) (verdicts : List (Bool × Bool)) : MgtOrder where
  head := orderField s 0 192
  length := if orderAddr s % 4096 = 0 then rf s Reg.MGT_ORD_LEN F.MGT_ORD_LEN_LEN else 0
  sigs := verdicts.zipIdx.map (fun p =>
    ⟨orderField s (192 + 4800 * p.2) 1, orderField s (193 + 4800 * p.2) 3 == 0, orderField s (196 + 4800 * p.2) 48, p.1.1, p.1.2⟩)

/-- ORDER_SUBMIT (R387): the root of trust reads the order from host memory and checks it. -/
def execOrderSubmit (v : Word) (verdicts : List (Bool × Bool)) (s : State) : Host.Outcome State Fault Refusal :=
  .next (if !keyOk v ∨ !wbit v 0 ∨ !platUp s then s else checkOrder s (hostOrder s verdicts))

/-- An order from its bytes; `verdicts` says of each signature record whether its two signatures are valid. -/
def orderOf (b : List Byte) (verdicts : List (Bool × Bool)) : MgtOrder where
  head := beAt b 0 192
  length := b.length
  sigs := verdicts.zipIdx.map (fun p =>
    ⟨beAt b (192 + 4800 * p.2) 1, beAt b (193 + 4800 * p.2) 3 == 0, beAt b (196 + 4800 * p.2) 48, p.1.1, p.1.2⟩)

/-- ORDER_SEGMENT_RX (R387): segments in order; with the last the order is checked. -/
def execOrderSegmentRx (seg : List Byte) (verdicts : List (Bool × Bool)) (s : State) : Host.Outcome State Fault Refusal :=
  let i := beAt seg 1 1
  let n := beAt seg 2 1
  .next (if !platUp s ∨ seg.length < 8 ∨ 8192 < seg.length ∨ beAt seg 0 1 ≠ 0x60 then s
    else
      let l := (if i = 0 then [] else s.mgt.segs) ++ [(i, seg.drop 8)]
      if l.map (·.1) ≠ List.range l.length then { s with mgt := { s.mgt with segs := [] } }
      else if l.length < n then { s with mgt := { s.mgt with segs := l } }
      else
        let b := l.flatMap (·.2)
        let s1 := { s with mgt := { s.mgt with segs := [] } }
        checkOrder s1 { orderOf b verdicts with length := if b.length = beAt seg 4 4 then b.length else 0 })

/-! ## Execution of orders (R389 to R391, R396, Table 16.5) -/

/-- The armed order, if its action is the one given and its instant has come. -/
def orderDue (s : State) (action : Nat) : Option ArmedOrder := match s.mgt.order with
  | none => none
  | some o => if o.action = action ∧ o.instant ≤ s.clock ∧ platUp s then some o else none

/-- An order has been executed: DONE, and late where its instant had passed. -/
def orderDone (s : State) (o : ArmedOrder) : State :=
  let s1 := bump64 (wf { s with mgt := { s.mgt with order := none } } Reg.MGT_ORD_STATUS F.MGT_ORD_STATUS_RESULT 2) Reg.MGT_ORDERS_OK 1
  let s2 := mgtEvent s1 F.MGT_EVT_ORDER_DONE mgtNone
  if o.late then mgtEvent s2 F.MGT_EVT_ORDER_LATE mgtNone else s2

/-- Replace the expel list and show its length. -/
def setExpel (s : State) (l : List ExpelEntry) : State :=
  wf { s with rot := { s.rot with expel := l } } Reg.MGT_EXPEL F.MGT_EXPEL_COUNT l.length

/-- Discard every packet of a scope that a pool holds, and count its cells (R390 step 4). -/
def discardScope (s : State) (p : Nat) : State :=
  let mine := fun (k : SwPkt) => k.scope == p
  let qs := s.swc.queues.filter (fun e => e.2.pkts.any (fun k => mine k.2))
  let n := sumNat (qs.map (fun e => cellsOf e.2 mine)) + sumNat ((s.swc.mesh.filter mine).map (·.cells))
  let s1 := qs.foldl (fun t e => discardPkts t (e.1 / 16384) (e.1 % 16384) mine) s
  let left := s1.swc.mesh.filter (fun k => mine k && k.eth.isNone)
  let s2 := { s1 with swc := { s1.swc with mesh := s1.swc.mesh.filter (fun k => !mine k) } }
  bump64 (left.foldl (fun t k => leftSlice t k.inPort k.cls k.inVc k.cells) s2) Reg.MGT_FN_DISCARD n

/-- The mirror sessions whose source port lies in a scope stop. -/
def stopMirrors (s : State) (p : Nat) : State :=
  (List.range 8).foldl (fun t d => (List.range 64).foldl (fun u m =>
    let a := Reg.SWC_MIR0 d m
    if rb u a F.SWC_MIR0_EN && decide (rf u a F.SWC_MIR0_SRC_KIND < 2) && portScope u (rf u a F.SWC_MIR0_SRC_PORT) == p
        && (portRec u (rf u a F.SWC_MIR0_SRC_PORT)).isSome then wf u a F.SWC_MIR0_EN 0 else u) t) s

/-- Put every command queue of a scope into DISABLED at once. -/
def offQueue (s : State) (fq : Nat) : State :=
  if cqState s (fq / 2048) (fq % 2048) = 0 then s else setCqState s (fq / 2048) (fq % 2048) 0

/-- Fence a scope (R390): the logical steps in order, then for a system its dunes. -/
def fenceScope (s : State) (p : Nat) : State :=
  if fenced s p then s
  else
    let index := 2 ^ 10 + p
    let qs := fnQueues s 3 index
    let gs := fnEngines s 3 index
    let s1 := qs.foldl (abortQueue stFenced true) (setFenceSt s p 1)
    let s2 := ((gs.map (· / 512)).dedup).foldl (fun t d => disableEngines t (16 + d) (gs.filter (fun g => g / 512 == d)) true 2 p) s1
    let s3 := qs.foldl offQueue ((fnPorts s 3 index).foldl (disablePort true) s2)
    let s4 := stopMirrors (discardScope s3 p) p
    let s5 := settle s { s4 with oasis := s4.oasis.filter (fun e => e.1 / 2 ^ 48 != p) }
    let s6 := showGroup (pumpAll (fnProgress s5))
    if isSystem s then fenceSeq (wf s6 (Reg.MGT_FENCE p) F.MGT_FENCE_ELECTRICAL 1) p else fenceEnd s6 p

/-- Expel this device (R389): every scope is fenced, every port disabled, and nothing starts again. -/
def expelSelf (s : State) : State :=
  let s1 := (s.img.cfg.scopes.map (·.num)).foldl fenceScope s
  wf ((s.img.cfg.ports.map (·.num)).foldl (disablePort true) s1) Reg.MGT_EXPEL F.MGT_EXPEL_SELF_EXPELLED 1

/-- EXPEL. -/
def execExpel (s : State) : Host.Outcome State Fault Refusal :=
  .next (match orderDue s 1 with
    | none => s
    | some o =>
      let e := oEntry o
      let s1 := setExpel s (if s.rot.expel.contains e then s.rot.expel else s.rot.expel ++ [e])
      let s2 := if o.tkind = 1 then
          (if o.target = s.otp.serial then expelSelf s1
           else ((allPorts s).filter (fun r => linkSt s r.num != linkOff && (linkOf s r.num).peerSerial == o.target)).foldl
              (fun t r => disablePort true t r.num) s1)
        else if o.tkind = 2 then disablePort true s1 o.num else s1
      settle s (orderDone (fnProgress s2) o))

/-- UNEXPEL: the entry goes, and SELF_EXPELLED where the target is this device; ports stay DISABLED. -/
def execUnexpel (s : State) : Host.Outcome State Fault Refusal :=
  .next (match orderDue s 2 with
    | none => s
    | some o =>
      let s1 := setExpel s (s.rot.expel.filter (fun e => e != oEntry o))
      orderDone (if o.target = s.otp.serial then wf s1 Reg.MGT_EXPEL F.MGT_EXPEL_SELF_EXPELLED 0 else s1) o)

/-- FENCE. -/
def execFence (s : State) : Host.Outcome State Fault Refusal :=
  .next (match orderDue s 3 with
    | none => s
    | some o => orderDone (fenceScope s o.num) o)

/-- UNFENCE: while FENCING it waits for FENCED. -/
def execUnfence (s : State) : Host.Outcome State Fault Refusal :=
  .next (match orderDue s 4 with
    | none => s
    | some o =>
      let p := o.num
      let s1 := if fenceSt s p = 2 then unfenceStart s p
        else if fenceSt s p = 1 ∧ !s.mgt.unfence.contains p then { s with mgt := { s.mgt with unfence := s.mgt.unfence ++ [p] } }
        else s
      orderDone s1 o)

/-- PROMOTE (R396): the role ends, and every port starts as in bring-up. -/
def execPromote (s : State) : Host.Outcome State Fault Refusal :=
  .next (match orderDue s 5 with
    | none => s
    | some o =>
      let s1 := wf s Reg.MGT_TWIN_CFG F.MGT_TWIN_CFG_ROLE 0
      orderDone (settle s ((s.img.cfg.ports.map (·.num)).foldl tryHandshake s1)) o)

/-! ## Mirage spines (R396) -/

/-- The state that a meaning answers. -/
def stateOf (o : Host.Outcome State Fault Refusal) (s : State) : State := match o with
  | .next t => t
  | _ => s

/-- A copy of a packet that the twin admitted is taken as the packet itself. -/
def takeCopy (s : State) (c : Cfh) (b : List Byte) : State :=
  let t := beAt b 0 1
  if c.cls = 4 then
    if c.rank < 0x800000 then stateOf (execContributionRx c b s) s
    else
      let asPartial := match dataFor s c with
        | none => false
        | some (x, y) => awaitedTag s x y c.chunk == some c.rank
      if asPartial then stateOf (execPartialRx c b s) s else stateOf (execResultRx c b s) s
  else if t = 0x10 then stateOf (execLaunch c b s) s
  else if t = 0x11 then stateOf (execReceipt c b s) s
  else if t = 0x13 then stateOf (execReady c b s) s
  else if t = 0x14 then stateOf (execCommit c b s) s
  else if t = 0x15 then stateOf (execAbortReq c b s) s
  else if t = 0x16 then stateOf (execCollAbort c b s) s
  else if t = 0x18 then
    match ctlFor s 0x18 c b with
    | some (_, x, _) => if fromRoot x c then stateOf (execRetract c b s) s else stateOf (execRetractRequest c b s) s
    | none => s
  else if t = 0x40 then stateOf (execResend c b s) s
  else s

/-- TWIN_SHADOW_RX: what arrives on the twin port of a Mirage spine. -/
def execTwinShadowRx (port : Fin 4096) (item : TwinItem) (s : State) : Host.Outcome State Fault Refusal :=
  .next (if !isMirageSpine s ∨ port.val ≠ twinPort s ∨ !platUp s then s
    else match item with
      | .copy c b => takeCopy s c b
      | .shadow dg g gen step k dst => { s with mgt := { s.mgt with shadows := s.mgt.shadows ++ [(dg, g, gen, step, k, dst)] } })

end Sys2Proof.Machine
end

