-- ==== Sys2Proof/Machine/Servo.lean ====
section
/-! DEFINITION. The servo's update, every 1 ms: slewing, steps and refusals of the latest offset, and the timed actions
that a step jumps over (spec/08: R193, R195 to R198; R209, R374). -/
namespace Sys2Proof.Machine

/-! ## What a step jumps over (R197, Table 1.8) -/

/-- A timed action: its instant, whether it executes once that instant is past, and what it does. -/
structure Timed where
  at_ : Nat
  acts : State → Bool
  run : State → Host.Outcome State Fault Refusal

/-- The armed epoch flip. -/
def timedFlips (s : State) : List Timed :=
  (s.rte.armed.toList).map (fun i => ⟨i, fun t => t.rte.armed.isSome, execEpochFlip⟩)

/-- The armed cross-connect changes. -/
def timedChanges (s : State) : List Timed :=
  s.opt.arms.map (fun a => ⟨a.at_, fun t => t.opt.arms.contains a, execCrossConnectChange (Fin.ofNat 64 a.tile) (Fin.ofNat 32 a.slot)⟩)

/-- The planned laser swaps. -/
def timedSwaps (s : State) : List Timed :=
  s.opt.lanes.filterMap (fun e => e.2.swap.map (fun w => ⟨w.1,
    fun t => (laneOf t e.1).swap == some w && spareReady t e.1 && laneRuns t e.1 && (w.2 || swapStands t e.1 w.1),
    execSwapExecute (Fin.ofNat 2048 e.1)⟩))

/-- The armed gate lists. -/
def timedLists (s : State) : List Timed :=
  s.sch.groups.filterMap (fun e => e.2.armed.map (fun a => ⟨a.base, fun t => (pgOf t e.1).armed.isSome,
    execGateBaseReached (Fin.ofNat 256 e.1)⟩))

/-- The commit deadlines of the collectives whose root is here. -/
def timedDeadlines (s : State) : List Timed :=
  s.col.groups.flatMap (fun e => e.2.opened.filterMap (fun c => c.deadline.map (fun t0 => ⟨t0,
    fun t => (groupOf t e.1).any (fun x => isRoot t x && (collIn x c.step).any (fun y => y.decided.isNone)),
    execCommitDeadline (BitVec.ofNat 16 e.1) (BitVec.ofNat 32 c.step)⟩)))

/-- Run the actions whose instant a step has jumped over, in the order of Table 1.8; whether one of them executed. -/
def runTimed (was : Nat) (l : List Timed) (e : State × Bool) : State × Bool :=
  l.foldl (fun e x =>
    if was < x.at_ ∧ x.at_ ≤ e.1.clock then (stateOf (x.run e.1) e.1, e.2 || x.acts e.1) else e) e

/-- Each kind of action, listed when its turn comes. -/
def runJumped (was : Nat) (s : State) : State × Bool :=
  [timedFlips, timedChanges, timedSwaps, timedLists, timedDeadlines].foldl (fun e f => runTimed was (f e.1) e) (s, false)

/-! ## Steps and slews -/

/-- Move the counter by an offset: what was measured against it moves too, the 1 PPS output's end included. The counter stops at 0
(log 27). -/
def moveClock (s : State) (theta : Int) : State :=
  let sub := fun (x : TimSource) => { x with ptp := x.ptp.map (· - theta), theta := x.theta.map (· - theta),
                                             t2 := x.t2.map (· + theta), t3 := x.t3.map (· + theta) }
  let lanes := s.tim.lanes.map (fun e => (e.1, (e.2.1 + theta, e.2.2 - theta)))
  { s with clock := ((s.clock : Int) + theta).toNat,
           tim := { s.tim with sources := s.tim.sources.map sub, lanes := lanes, ppsFall := ((s.tim.ppsFall : Int) + theta).toNat } }

/-- The whole seconds that a step backwards brings again are pulsed again (R201). -/
def ppsAgain (s : State) : State := { s with tim := { s.tim with ppsOutAt := min s.tim.ppsOutAt s.clock } }

/-- TIME_STEP (R197): the whole offset at once, with its effects on timed actions, gate lists, packets in flight (R209) and
the mirror epoch (R374). -/
def stepClock (s : State) (theta : Int) : State :=
  let s1 := mirrorEpochUp (timEvent (ppsAgain (moveClock s theta)) F.TIM_EVT_STEP_APPLIED)
  let e := runJumped s.clock s1
  let s2 := if e.2 then timEvent e.1 F.TIM_EVT_LATE_ACTION else e.1
  let s3 := (s2.sch.groups.map (·.1)).foldl (fun u g => if duneUp u (g / 32) then runEntries u g else u) s2
  let s4 := s.sch.sending.foldl (overrun s) s3
  startBound (fsrStore s4 0x09 [] [] [] 0 [] []) 0

/-- The phase slew of an update: at most 100 ns (R193). -/
def slewOf (theta : Int) : Int := max (-(100 * (nsUnit : Int))) (min (100 * (nsUnit : Int)) theta)

/-- An offset in ps, toward zero. -/
def psOf (theta : Int) : Int := (theta * 1000).tdiv 65536

/-- Show the last offset in TIM_OFFSET: signed ps, saturating. -/
def showOffset (s : State) (theta : Int) : State :=
  wn s Reg.TIM_OFFSET (encodeSigned 32 (max (-(2 ^ 31)) (min (2 ^ 31 - 1) (psOf theta))))

/-! ## Refusals (R195) -/

/-- STEP_REFUSED: the current source is marked and its offset recorded, and no correction is applied. -/
def refuseSource (s : State) (x : TimSource) (theta : Int) : State :=
  let s1 := modSource s x.kind x.port (fun y => { y with refused := true, goodSince := none })
  let s2 := timEvent (showSource s1) F.TIM_EVT_STEP_REFUSED
  bump32 (wn64 s2 (Reg.TIM_REF_OFS 0) (encodeSigned 64 (theta.tdiv (nsUnit : Int)))) Reg.TIM_CNT_REFUSED 1

/-- The clock coasts: a following state enters HOLDOVER with TIM_FINE clear (Table 8.2). -/
def coast (s : State) : State :=
  let s1 := { s with tim := { s.tim with fineSince := none, badRun := 0 } }
  if timSt s = timTrack ∨ timSt s = timLocked ∨ timSt s = timFineSt then setTimFine (setTimSt s1 timHoldover) false else s1

/-! ## The update -/

/-- An offset is slewed: the states of Table 8.2, the frequency correction, the phase slew and the new start of the holdover bound
(R193, R198). -/
def slewUpdate (s : State) (theta : Int) : State :=
  let a := theta.natAbs
  let small := decide (2 * a < nsUnit)
  let was := timSt s
  let s1 := acceptSource s a
  let s2 :=
    if was = timLocked ∧ usUnit ≤ a then setTimReady (setTimSt s1 timTrack) false
    else if was = timFineSt then
      let n := if small then 0 else s1.tim.badRun + 1
      let s' := { s1 with tim := { s1.tim with badRun := n } }
      if 3 ≤ n then setTimFine (setTimSt s' timLocked) false else s'
    else s1
  let since := if timSt s2 = timLocked ∧ small then (if was = timLocked then some (s2.tim.fineSince.getD s2.clock) else some s2.clock) else none
  let bad := if timSt s2 = timFineSt then s2.tim.badRun else 0
  let s3 := { s2 with tim := { s2.tim with fineSince := since, badRun := bad, freq := Config.servoFreq theta s2.tim.freq } }
  startBound (moveClock s3 (slewOf theta)) a

/-- One measurement of the current source, and of the next one where it is refused and another is not (R195). -/
def measure : Nat → Bool → State → State
  | 0, _, s => s
  | n + 1, pend, s =>
    match curSource s with
    | none => s
    | some x =>
      match x.theta with
      | none => s
      | some theta =>
        let s1 := showOffset s theta
        if timSt s1 = timAcquiring then setTimSt (stepClock s1 theta) timTrack
        else if pend && x.refused then
          let s2 := showSource (modSource s1 x.kind x.port (fun y => { y with refused := false, goodSince := none }))
          acceptSource (stepClock s2 theta) 0
        else if stepTh s1 < theta.natAbs then
          let s2 := selectSource (refuseSource s1 x theta)
          match curSource s2 with
          | none => coast s2
          | some y => if y.refused then coast s2 else measure n false s2
        else if x.refused then modSource s1 x.kind x.port (fun y => { y with goodSince := some (x.goodSince.getD s1.clock) })
        else slewUpdate s1 theta

/-- SERVO_UPDATE (R193): every 1 ms, from the latest offset; `moving` says whether a platform-die sensor changes by more
than 0.5 °C per minute (R198). It runs in HELD too (R202). -/
def execServoUpdate (moving : Bool) (s : State) : Host.Outcome State Fault Refusal :=
  .next (if !s.plat.running then s
    else
      let s0 := { s with tim := { s.tim with moving := moving } }
      let s1 := if timSt s0 = timHoldover then growBound s0 else s0
      let s2 := { s1 with tim := { s1.tim with acceptPending := false } }
      measure (s2.tim.sources.length + 1) s1.tim.acceptPending s2)

end Sys2Proof.Machine
end

