-- ==== Sys2Proof/Machine/Bus.lean ====
section
/-! DEFINITION. Register accesses: a write reaches the meaning of the register where it has behaviour of its own, and the register
sessions of the management ports, which carry such accesses (spec/00: R14, R15; spec/04: R82, R84; spec/15: R380; spec/16: R392). -/
namespace Sys2Proof.Machine

/-! ## What a write does -/

/-- A write of a register with no behaviour of its own. -/
def plainWrite (s : State) (a : Nat) (v : Word) : State := if held s && !heldExempt a then heldWrite s a v else softWrite s a v

/-- The time sources whose port has ceased to be a PTP port are lost (R189), and so is the 10 MHz reference that is no longer
enabled. -/
def settleTime (s : State) : State :=
  let gone := s.tim.sources.filter (fun x =>
    if x.kind = 4 then !rb s Reg.TIM_PPS_CFG F.TIM_PPS_CFG_IN_EN
    else if x.kind = 1 then !rb s (Reg.TIM_PORT x.port) F.TIM_PORT_PTP_EN else !rb s (Reg.TIM_MPORT (x.kind - 2)) F.TIM_MPORT_PTP_EN)
  let s1 := gone.foldl (fun t x => sourceLost t x.kind x.port) s
  let s2 := if rb s1 Reg.TIM_PPS_CFG F.TIM_PPS_CFG_IN_EN then s1
    else wf { s1 with tim := { s1.tim with ppsAt := none } } Reg.TIM_STATUS F.TIM_STATUS_PPS_OK 0
  if rb s2 Reg.TIM_REF_CFG F.TIM_REF_CFG_EN then s2 else wf s2 Reg.TIM_STATUS F.TIM_STATUS_REF_OK 0

/-- A write in the management-port registers (Table 4.15). -/
def mpWrite (s : State) (m : Fin 2) (off : Nat) (v : Word) : State :=
  let a := 0x20100 + m.val * 64 + off
  if off = 4 then stateOf (execMgmtAddrWrite m false 0 v s) s
  else if 0x10 ≤ off ∧ off < 0x20 then stateOf (execMgmtAddrWrite m true (Fin.ofNat 4 ((off - 0x10) / 4)) v s) s
  else
    let was := rb s (Reg.HIF_MP_CFG m) F.HIF_MP_CFG_IPV6_EN
    let s1 := plainWrite s a v
    if off = 0 ∧ !was ∧ rb s1 (Reg.HIF_MP_CFG m) F.HIF_MP_CFG_IPV6_EN then probeV6 (probeV6 s1 m (linkLocal s1 m)) m (mpV6 s1 m)
    else if off = 0xC ∧ mpGw4 s1 m ≠ mpGw4 s m then setMp s1 m { mpOf s1 m with gwMac4 := none }
    else if 0x24 ≤ off ∧ mpGw6 s1 m ≠ mpGw6 s m then setMp s1 m { mpOf s1 m with gwMac6 := none }
    else s1

/-- A write of a word of the MSI-X table: a vector that is unmasked while it is pending is sent (R83). -/
def vectorWrite (s : State) (a : Nat) (v : Word) : State :=
  let s1 := plainWrite s a v
  let i := (a - Reg.HIF_MSIX_TABLE 0 0) / 16
  if mapBit s1 (Reg.HIF_MSIX_PBA 0) i && !bitAt (rn s1 (Reg.HIF_MSIX_TABLE i 3)) 0 then
    signal (setMapBit s1 (Reg.HIF_MSIX_PBA 0) i false) i
  else s1

/-- A write of an erg-level register; in HELD a register with several actions is refused once. -/
def ergWrite (s : State) (a : Nat) (v : Word) : State :=
  let run := fun (f : State → Host.Outcome State Fault Refusal) (t : State) => stateOf (f t) t
  if a = Reg.PLT_RESET_CTRL then (if wbit v 1 then run (execSoftwareColdReset v) s else run (execSoftwareWarmReset v) s)
  else if a = Reg.IMG_CTRL then (if wbit v 1 then run (execImageReload v) s else run (execImageSeal v) s)
  else if a = Reg.PLT_TRIM_USER then run (execTrimUserWrite v) s
  else if a = Reg.PLT_TRIM_SEL then showTrim (plainWrite s a v)
  else if a = Reg.PLT_FSR_SEL then fsrShow (plainWrite s a v)
  else if 0x28000 ≤ a ∧ a < 0x30000 then vectorWrite s a v
  else if 0x20100 ≤ a ∧ a < 0x20180 then mpWrite s (Fin.ofNat 2 ((a - 0x20100) / 64)) ((a - 0x20100) % 64) v
  else if a = Reg.TIM_CTRL then
    (if held s then heldRefuse s a else run (execTimAcquire v) (run (execTimAccept v) (run (execTimCapture v) s)))
  else if 0x40000 ≤ a ∧ a < 0x44000 then settleTime (plainWrite s a v)
  else if a = Reg.SEC_CTRL then run (execAttest v) (run (execDbgClose v) s)
  else if a = Reg.SEC_LOG_SEL then showLog (plainWrite s a v)
  else if a = Reg.NUM_SEED_SEL then showSeed (plainWrite s a v)
  else if a = Reg.COL_GRP_SEL then showGroup (plainWrite s a v)
  else if a = Reg.MGT_TWIN_CFG then settle s (plainWrite s a v)
  else if a = Reg.MGT_FN_CTRL then
    (if getF v F.MGT_FN_CTRL_ENABLE = 1 then run (execFnEnable v) s
    else if getF v F.MGT_FN_CTRL_IMMEDIATE = 1 then run (execFnDisableImmediate v) s else run (execFnDisableDrain v) s)
  else if 0x800000 ≤ a ∧ a < 0xC00000 then
    let t := Fin.ofNat 64 ((a - 0x800000) / 0x10000)
    let off := (a - 0x800000) % 0x10000
    if off = 0x10 then run (execSwapRequest t v) s
    else if off = 0x600 then (if wbit v 1 then run (execSiroccoAbort t v) s else run (execSiroccoStart t v) s)
    else plainWrite s a v
  else plainWrite s a v

/-- A write in a check unit's registers: while it is BUSY its parameters do not change (R338). -/
def unitRegWrite (s : State) (d : Fin 8) (u : Fin 64) (off : Nat) (a : Nat) (v : Word) : State :=
  if off = 0 then
    (if wbit v 31 ∧ !wbit v 23 then stateOf (execChkUnitStart d u v s) s
    else if wbit v 23 then stateOf (execChkUnitStop d u v s) s
    else unitWrite s d u v id)
  else if off ≠ 0x48 ∧ rb s (Reg.CHK_UNIT_CFG d u) F.CHK_UNIT_CFG_BUSY ∧ !held s then s
  else plainWrite s a v

/-- A write in a dune's host-interface queues (Tables 4.4, 4.12, 4.13) and event counters. -/
def queueWrite (s : State) (d : Fin 8) (o a : Nat) (v : Word) : State :=
  let run := fun (f : State → Host.Outcome State Fault Refusal) (t : State) => stateOf (f t) t
  if o < 0x370000 then
    (if o % 32 = 0 then
      let q := Fin.ofNat 2048 ((o - 0x360000) / 32)
      if getF v F.HIF_CQ_CFG_ENABLE = 1 then run (execCqEnable d q v) s else run (execCqDisable d q v) s
    else plainWrite s a v)
  else if o < 0x380000 then
    let n := Fin.ofNat 2048 ((o - 0x370000) / 32)
    if o % 32 = 0 then (if getF v F.HIF_CNQ_CFG_ENABLE = 1 then run (execCnqEnable d n v) s else run (execCnqDisable d n v) s)
    else if o % 32 = 4 ∨ o % 32 = 8 then (if cnqOn s d n ∧ !held s then s else plainWrite s a v)
    else if o % 32 = 0xC then run (execCnqHeadWrite d n v) s
    else if o % 32 = 0x18 then (if wbit v 31 then run (execCnqFlush d n) (softWrite s a v) else softWrite s a v)
    else plainWrite s a v
  else if (o - 0x380000) / 4 < 4095 then run (execEventCounterWrite d (Fin.ofNat 4095 ((o - 0x380000) / 4)) v) s
  else plainWrite s a v

/-- The scope that a dune's pool or spill register is of. -/
def poolScope (o : Nat) : Option Nat :=
  if 0x1000 ≤ o ∧ o < 0x1400 then some ((o - 0x1000) / 64)
  else if 0x1400 ≤ o ∧ o < 0x1440 then some ((o - 0x1400) / 4)
  else if 0x1800 ≤ o ∧ o < 0x1C00 then some ((o - 0x1800) / 64)
  else none

/-- Whether a dune's register is one of a scope that the image does not define: it reads 0 and ignores writes (R132). -/
def noScope (s : State) (o : Nat) : Bool := ((poolScope o).map (fun p => (scopeOf s p).isNone)).getD false

/-- A write of a pool's budget: every dune's XOFF follows, and the allowances are held against it (R115, R168). -/
def budgetWrite (s : State) (d p c a : Nat) (v : Word) : State := checkBudget (showPools (plainWrite s a v) p c) d p 0xFF 0xFFFF

/-- A write of a register of a dune. -/
def duneWrite (s : State) (d : Fin 8) (a : Nat) (v : Word) : State :=
  let run := fun (f : State → Host.Outcome State Fault Refusal) (t : State) => stateOf (f t) t
  let o := (a - 0x2000000) % 0x400000
  if a = Reg.RTE_FLIP_CTRL then (if wbit v 2 then run (execFlipCancel v) s else run (execFlipArm v) s)
  else if a = Reg.RTE_TBL_DATA then run (execRoutingTableData (some v)) s
  else if a = Reg.FWD_UPD_CTRL then run (execFwdUpdateGo v) s
  else if 0x1000 ≤ o ∧ o < 0x1400 then
    let p := Fin.ofNat 16 ((o - 0x1000) / 64)
    let c := Fin.ofNat 8 ((o - 0x1000) % 64 / 8)
    if (scopeOf s p.val).isNone then s
    else if o % 8 = 0 then run (execPoolMaxWrite d p c v) s else budgetWrite s d.val p.val c.val a v
  else if noScope s o then s
  else if o = 0x20 ∨ o = 0x2C ∨ (0x40000 ≤ o ∧ o < 0x60000) then spillMarks (plainWrite s a v) d.val
  else if 0x10000 ≤ o ∧ o < 0x30000 ∧ o % 16 = 0 then run (execPolicerEnable d (Fin.ofNat 8192 ((o - 0x10000) / 16)) v) s
  else if 0x60000 ≤ o ∧ o < 0x60800 ∧ o % 32 = 0 then run (execMirrorSessionEnable d (Fin.ofNat 64 ((o - 0x60000) / 32)) v) s
  else if o = 0x200018 then run (execGateListDataWrite d (some v)) s
  else if 0x200100 ≤ o ∧ o < 0x200900 ∧ (o - 0x200100) % 64 = 0 then
    let g := Fin.ofNat 256 (d.val * 32 + (o - 0x200100) / 64)
    if wbit v 3 then run (execGateListDisable g v) s else if wbit v 2 then run (execGateListCancel g v) s else run (execGateListArm g v) s
  else if 0x210000 ≤ o ∧ o < 0x218000 ∧ o % 16 = 0 then
    run (execShaperRateWrite d (Fin.ofNat 256 ((o - 0x210000) / 128)) (Fin.ofNat 8 (o % 128 / 16)) v) s
  else if o = 0x280010 then
    (if getF v F.BRC_DIS_CTRL_ENABLE = 1 then run (execEngineEnable d v) s
    else if getF v F.BRC_DIS_CTRL_IMMEDIATE = 1 then run (execEngineDisableImmediate d v) s else run (execEngineDisableDrain d v) s)
  else if o = 0x300010 then run (execQuarantineRelease d v) s
  else if o = 0x300020 then (if wbit v 6 then run (execMarginStop d (v &&& ~~~(0x20 : Word))) s else run (execMarginStart d v) s)
  else if 0x304000 ≤ o ∧ o < 0x306000 then unitRegWrite s d (Fin.ofNat 64 ((o - 0x304000) / 128)) (o % 128) a v
  else if 0x360000 ≤ o ∧ o < 0x384000 then queueWrite s d o a v
  else plainWrite s a v

/-- A 32-bit write (R14, R82): to the window of a dune that is not UP it is discarded, in a submission aperture it is malformed, and
reserved space ignores it. -/
def busWrite (s : State) (addr : Nat) (v : Word) : State :=
  let a := regHome addr
  if !s.plat.running then s
  else match windowDune addr with
    | none => if (regRow a).isNone then s else ergWrite s a v
    | some d => if !duneUp s d then offlineAccess (if inAperture addr then apertureBad s else s)
      else if inAperture addr then apertureBad s
      else if (regRow a).isNone then s else duneWrite s (Fin.ofNat 8 d) a v

/-- REGISTER_WRITE (R14, R15). -/
def execRegisterWrite (a : BitVec 26) (v : Word) (s : State) : Host.Outcome State Fault Refusal := .next (busWrite s a.toNat v)

/-! ## What a read gives -/

/-- A group's status registers as they stand when they are read (R214, Table 9.5). -/
def pgRead (s : State) (d o : Nat) : State := if 0x200100 ≤ o ∧ o < 0x200900 then showPg s (d * 32 + (o - 0x200100) / 64) else s

/-- A 32-bit read (R82): its value, and what reading does. A HI word of a counter reads as its LO word's read has latched it
(R132). -/
def busRead (s : State) (addr : Nat) : State × Nat :=
  let a := regHome addr
  let o := (a - 0x2000000) % 0x400000
  let run := fun (f : State → Host.Outcome State Fault Refusal) => stateOf (f s) s
  let val := match SMap.find s.swc.latched a with
    | some w => w.toNat
    | none => rn s a
  let plain := (emit s (.readData addr val), val)
  if !s.plat.running then (s, 0)
  else match windowDune addr with
    | none =>
      if counterLo a then (run (execCounterLoRead (BitVec.ofNat 26 addr)), rn s a)
      else if a = Reg.PWR_PEAK then (run execPwrPeakRead, rn s a)
      else plain
    | some d =>
      if !duneUp s d then (offlineAccess (emit s (.readData addr 0xFFFFFFFF)), 0xFFFFFFFF)
      else if counterLo a then (run (execCounterLoRead (BitVec.ofNat 26 addr)), rn s a)
      else if a = Reg.RTE_TBL_DATA then (run (execRoutingTableData none), tableWord s)
      else if noScope s o then (emit s (.readData addr 0), 0)
      else if 0x200100 ≤ o ∧ o < 0x200900 then (let t := pgRead s d o; (emit t (.readData addr (rn t a)), rn t a))
      else if o = 0x200014 then (emit (wn s a (glEntry s d / 2 ^ 32)) (.readData addr (glEntry s d / 2 ^ 32)), glEntry s d / 2 ^ 32)
      else if o = 0x200018 then (run (execGateListDataWrite (Fin.ofNat 8 d) none), glEntry s d % 2 ^ 32)
      else if a = Reg.BRC_FAULT2 d then (run (execBrcFault2Read (Fin.ofNat 8 d)), rn s a)
      else plain

/-! ## Register sessions (R380) -/

/-- Whether a session is a client's at a management port. -/
def sessionIs (p : Nat) (v6 : Bool) (ip sport : Nat) (x : Session) : Bool := x.mp == p && x.v6 == v6 && x.ip == ip && x.sport == sport

/-- A client's session. -/
def sessionOf (s : State) (p : Nat) (v6 : Bool) (ip sport : Nat) : Option Session := s.sec.sessions.find? (sessionIs p v6 ip sport)

/-- Forget a session. -/
def dropSession (s : State) (x : Session) : State :=
  { s with sec := { s.sec with sessions := s.sec.sessions.filter (fun y => !sessionIs x.mp x.v6 x.ip x.sport y) } }

/-- Keep a session in place of the client's last one. -/
def putSession (s : State) (x : Session) : State :=
  let s1 := dropSession s x
  { s1 with sec := { s1.sec with sessions := s1.sec.sessions ++ [x] } }

/-- Send a datagram of a session from port 4712. -/
def sessionSend (s : State) (x : Session) (payload : List Byte) : State := mpSend s x.mp x.v6 x.ip (.udp x.v6 x.ip 4712 x.sport payload)

/-- A handshake message to a client, one segment in each datagram, with the head of Table 15.4. -/
def sessionMsg (s : State) (x : Session) (typ reason : Nat) (body : List Byte) : State :=
  let segs := max 1 ((body.length + 8183) / 8184)
  (List.range segs).foldl (fun t i =>
    sessionSend t x (natBe 1 typ ++ natBe 1 i ++ natBe 1 segs ++ natBe 1 reason ++ natBe 4 body.length ++ (body.drop (8184 * i)).take 8184)) s

/-- A client is refused: REFUSE with the reason, and the session ends. -/
def sessionRefuse (s : State) (x : Session) (reason : Nat) : State := dropSession (sessionMsg s x 0x53 reason []) x

/-- A session as HELLO opens it. -/
def newSession (p : Nat) (v6 : Bool) (ip sport nonce serial now : Nat) : Session where
  mp := p
  v6 := v6
  ip := ip
  sport := sport
  up := false
  gotCert := false
  nonce := nonce
  peerSerial := serial
  rxEpoch := 0
  rxFrame := 0
  rxNext := none
  txEpoch := 0
  txFrame := 0
  txNext := none
  since := now
  heardAt := now

/-- The keys that may open a session: those of the fabric managers, and the owner's. -/
def sessionKeyOk (s : State) (k : Nat) : Bool := s.img.cfg.mgrKeys.contains k || ownerKey s == some k

/-- Why a client's CERT is refused (R367 steps 1 to 3, R380). -/
def sessionRefusal (s : State) (x : Session) (chainOk reportSigOk : Bool) (nonce keyHash : Nat) : Option Nat :=
  if !chainOk then some 1 else if !reportSigOk then some 2 else if nonce ≠ x.nonce then some 3 else if !sessionKeyOk s keyHash then some 4 else none

/-- A session after its end has sent a frame: the next frame, the next epoch where the change is due, and NEXT announced after 10
minutes or 2^31 frames (R371). -/
def sessionSent (x : Session) (now : Nat) : Session :=
  let y := if x.txNext = some (x.txFrame + 1) then { x with txEpoch := x.txEpoch + 1, txFrame := 0, txNext := none, since := now }
    else { x with txFrame := x.txFrame + 1 }
  if y.txNext.isNone ∧ (y.since + 600 * secUnit ≤ now ∨ 2 ^ 31 ≤ y.txFrame) then { y with txNext := some (y.txFrame + 2) } else y

/-- A session after it has taken a frame. -/
def sessionTook (x : Session) (epoch no : Nat) (next : Bool) (now : Nat) : Session :=
  { x with rxEpoch := epoch, rxFrame := no + 1, heardAt := now,
           rxNext := if next then some (no + 2) else if epoch = x.rxEpoch then x.rxNext else none }

/-- The epochs and numbers that a session takes: what it has not had, and the next epoch once it has been announced. -/
def sessionFresh (x : Session) (epoch no : Nat) : Bool :=
  if epoch = x.rxEpoch then decide (x.rxFrame ≤ no) else decide (epoch = x.rxEpoch + 1) && x.rxNext.isSome

/-- The accesses of a frame, in order, and the answer's plaintext: each address with the value read, or written. -/
def sessionAccess (s : State) (l : List (BitVec 26 × Option Word)) : State × List Byte :=
  l.foldl (fun p e => match e.2 with
    | some v => (busWrite p.1 e.1.toNat v, p.2 ++ natBe 4 e.1.toNat ++ natBe 4 v.toNat)
    | none => let r := busRead p.1 e.1.toNat; (r.1, p.2 ++ natBe 4 e.1.toNat ++ natBe 4 r.2)) (s, [])

/-- A frame of a session: its accesses, with the rights of the host, and the answer's frame. A tag that fails ends the session. -/
def sessionFrame (s : State) (x : Session) (epoch no : Nat) (next tagOk : Bool) (l : List (BitVec 26 × Option Word)) : State :=
  if !x.up ∨ !sessionFresh x epoch no then s
  else if !tagOk then dropSession s x
  else
    let y := sessionTook x epoch no next s.clock
    let r := sessionAccess (putSession s y) l
    match sessionOf r.1 x.mp x.v6 x.ip x.sport with
    | none => r.1
    | some z =>
      let nextBit := z.txNext == some (z.txFrame + 2)
      sessionSend (putSession r.1 (sessionSent z r.1.clock)) z (Config.sessionCipher z.txEpoch z.txFrame (r.2 ++ natBe 1 (b2n nextBit)))

/-- SESSION_DATAGRAM (R380): a handshake segment or a frame at UDP port 4712 of a management port. -/
def execSessionDatagram (p : Fin 2) (v6 : Bool) (ip : BitVec 128) (sport : BitVec 16) (g : SessionMsg) (s : State) :
    Host.Outcome State Fault Refusal :=
  let x := sessionOf s p.val v6 ip.toNat sport.toNat
  .next (if !(s.plat.running && (mpOf s p.val).linkUp && mpFamily s p.val v6) then s
    else match g, x with
      | .hello m, _ =>
        let y := newSession p.val v6 ip.toNat sport.toNat (Config.free s.free % 2 ^ 256) m.serial s.clock
        if !m.wellFormed then sessionRefuse s y 6
        else
          let s1 := putSession { s with free := s.free + 2 } y
          let s2 := sessionMsg s1 y 0x50 0 (natBe 32 y.nonce ++ natBe 16 s.otp.serial ++ natBe 2 0 ++ Config.keyShare (s.free + 1))
          sessionMsg s2 y 0x51 0 (s.otp.cert ++ reportBytes s2 m.nonce)
      | .cert chainOk reportSigOk nonce keyHash, some y =>
        if y.up ∨ y.gotCert then s
        else match sessionRefusal s y chainOk reportSigOk nonce keyHash with
          | some r => sessionRefuse s y r
          | none =>
            let share := if y.peerSerial < s.otp.serial then Config.keyShare s.free else []
            sessionMsg (tickFree (putSession s { y with gotCert := true, heardAt := s.clock })) y 0x52 0 (share ++ Config.dikSign (natBe 48 (freeNat s % 2 ^ 384)))
      | .finish sigOk, some y =>
        if y.up ∨ !y.gotCert then s
        else if !sigOk then sessionRefuse s y 2
        else putSession s { y with up := true, since := s.clock, heardAt := s.clock }
      | .refuse, some y => if y.up then s else dropSession s y
      | .frame epoch no next tagOk l, some y => sessionFrame s y epoch no next tagOk l
      | _, none => s)

/-- SESSION_IDLE_TIMEOUT (R380): 30 s without a datagram. -/
def execSessionIdleTimeout (p : Fin 2) (v6 : Bool) (ip : BitVec 128) (sport : BitVec 16) (s : State) : Host.Outcome State Fault Refusal :=
  .next (match sessionOf s p.val v6 ip.toNat sport.toNat with
    | none => s
    | some x => if x.heardAt + 30 * secUnit ≤ s.clock then dropSession s x else s)

end Sys2Proof.Machine
end

