-- ==== Sys2Proof/Machine/Dispatch.lean ====
section
/-! DEFINITION. One arm for each command: its meaning, by name. -/
namespace Sys2Proof.Machine

/-- What a command does to everything but the queue. -/
def exec (i : Instr) (s : State) : Host.Outcome State Fault Refusal :=
  match i with
  | .auxPowerUp => Sys2Proof.Machine.execAuxPowerUp s
  | .resetRelease straps => Sys2Proof.Machine.execResetRelease straps s
  | .resetAssert => Sys2Proof.Machine.execResetAssert s
  | .auxInputLoss => Sys2Proof.Machine.execAuxInputLoss s
  | .vin48Good => Sys2Proof.Machine.execVin48Good s
  | .vin48OutOfRange => Sys2Proof.Machine.execVin48OutOfRange s
  | .vaux5OutOfRange => Sys2Proof.Machine.execVaux5OutOfRange s
  | .thermalTrip sensor => Sys2Proof.Machine.execThermalTrip sensor s
  | .sequencedDuneOff => Sys2Proof.Machine.execSequencedDuneOff s
  | .softwareWarmReset v => Sys2Proof.Machine.execSoftwareWarmReset v s
  | .softwareColdReset v => Sys2Proof.Machine.execSoftwareColdReset v s
  | .imageReload v => Sys2Proof.Machine.execImageReload v s
  | .imageSeal v => Sys2Proof.Machine.execImageSeal v s
  | .imageHeaderRead h0 h1 hostOk => Sys2Proof.Machine.execImageHeaderRead h0 h1 hostOk s
  | .imageVerifyDone img => Sys2Proof.Machine.execImageVerifyDone img s
  | .duneDomainEnable => Sys2Proof.Machine.execDuneDomainEnable s
  | .duneRailsRegulated d => Sys2Proof.Machine.execDuneRailsRegulated d s
  | .duneRampTimeout d => Sys2Proof.Machine.execDuneRampTimeout d s
  | .duneCalDone d paceOk => Sys2Proof.Machine.execDuneCalDone d paceOk s
  | .duneTestDone d memOk => Sys2Proof.Machine.execDuneTestDone d memOk s
  | .bulkSectionActivate d idx sec => Sys2Proof.Machine.execBulkSectionActivate d idx sec s
  | .oasisTrainingDone k ok => Sys2Proof.Machine.execOasisTrainingDone k ok s
  | .oasisStackFault k => Sys2Proof.Machine.execOasisStackFault k s
  | .engineSelfTestDone g ok => Sys2Proof.Machine.execEngineSelfTestDone g ok s
  | .trimUserWrite v => Sys2Proof.Machine.execTrimUserWrite v s
  | .registerWrite a v => Sys2Proof.Machine.execRegisterWrite a v s
  | .badAccess a isRead => Sys2Proof.Machine.execBadAccess a isRead s
  | .offlineDuneAccess a isRead => Sys2Proof.Machine.execOfflineDuneAccess a isRead s
  | .counterLoRead a => Sys2Proof.Machine.execCounterLoRead a s
  | .hostSubmit d q off bytes => Sys2Proof.Machine.execHostSubmit d q off bytes s
  | .doorbellSubmit c payload => Sys2Proof.Machine.execDoorbellSubmit c payload s
  | .doorbellCounterAdd c payload => Sys2Proof.Machine.execDoorbellCounterAdd c payload s
  | .cqEnable d q v => Sys2Proof.Machine.execCqEnable d q v s
  | .cqDisable d q v => Sys2Proof.Machine.execCqDisable d q v s
  | .cqQuiescedToDisabled d q => Sys2Proof.Machine.execCqQuiescedToDisabled d q s
  | .eventCounterWrite d n v => Sys2Proof.Machine.execEventCounterWrite d n v s
  | .commandDispatch d q => Sys2Proof.Machine.execCommandDispatch d q s
  | .waitTimeout d q => Sys2Proof.Machine.execWaitTimeout d q s
  | .nop d q => Sys2Proof.Machine.execNop d q s
  | .abort d q => Sys2Proof.Machine.execAbort d q s
  | .cnqEnable d n v => Sys2Proof.Machine.execCnqEnable d n v s
  | .cnqDisable d n v => Sys2Proof.Machine.execCnqDisable d n v s
  | .cnqHeadWrite d n v => Sys2Proof.Machine.execCnqHeadWrite d n v s
  | .cnqReadTimeout d n => Sys2Proof.Machine.execCnqReadTimeout d n s
  | .cnqFlush d n => Sys2Proof.Machine.execCnqFlush d n s
  | .cnqFabricSend d n => Sys2Proof.Machine.execCnqFabricSend d n s
  | .mgmtAddrWrite p v6 w v => Sys2Proof.Machine.execMgmtAddrWrite p v6 w v s
  | .mgmtLinkUp p => Sys2Proof.Machine.execMgmtLinkUp p s
  | .mgmtAddrConflict p v6 => Sys2Proof.Machine.execMgmtAddrConflict p v6 s
  | .mgmtArpRx p vid target sender mac => Sys2Proof.Machine.execMgmtArpRx p vid target sender mac s
  | .mgmtNdRx p vid target sender mac => Sys2Proof.Machine.execMgmtNdRx p vid target sender mac s
  | .mgmtEchoRx p vid v6 dst src data => Sys2Proof.Machine.execMgmtEchoRx p vid v6 dst src data s
  | .mgmtFrameDiscard p f => Sys2Proof.Machine.execMgmtFrameDiscard p f s
  | .i3cRead r => Sys2Proof.Machine.execI3cRead r s
  | .i3cResetCtrlWrite v => Sys2Proof.Machine.execI3cResetCtrlWrite v s
  | .sessionDatagram p v6 ip sport g => Sys2Proof.Machine.execSessionDatagram p v6 ip sport g s
  | .sessionIdleTimeout p v6 ip sport => Sys2Proof.Machine.execSessionIdleTimeout p v6 ip sport s
  | .fabricPacketIngress port a h cr c payload => Sys2Proof.Machine.execFabricPacketIngress port a h cr c payload s
  | .ethernetFrameIngress port a f => Sys2Proof.Machine.execEthernetFrameIngress port a f s
  | .packetAdmit out lane => Sys2Proof.Machine.execPacketAdmit out lane s
  | .spillRefillArrive d q bad => Sys2Proof.Machine.execSpillRefillArrive d q bad s
  | .portTransmitSelect port => Sys2Proof.Machine.execPortTransmitSelect port s
  | .creditReturnRx port h cr => Sys2Proof.Machine.execCreditReturnRx port h cr s
  | .creditOnlyCellSend port => Sys2Proof.Machine.execCreditOnlyCellSend port s
  | .paceLow m => Sys2Proof.Machine.execPaceLow m s
  | .poolMaxWrite d p c v => Sys2Proof.Machine.execPoolMaxWrite d p c v s
  | .policerEnable d n v => Sys2Proof.Machine.execPolicerEnable d n v s
  | .mirrorSessionEnable d m v => Sys2Proof.Machine.execMirrorSessionEnable d m v s
  | .puntDeliver d => Sys2Proof.Machine.execPuntDeliver d s
  | .fwdUpdateGo v => Sys2Proof.Machine.execFwdUpdateGo v s
  | .replicaApply d => Sys2Proof.Machine.execReplicaApply d s
  | .learningMessage port c payload => Sys2Proof.Machine.execLearningMessage port c payload s
  | .scrubPass d errs => Sys2Proof.Machine.execScrubPass d errs s
  | .tableRebuild d shadowBad => Sys2Proof.Machine.execTableRebuild d shadowBad s
  | .refreshRequestRx port r => Sys2Proof.Machine.execRefreshRequestRx port r s
  | .refreshTimeout d => Sys2Proof.Machine.execRefreshTimeout d s
  | .shadowRebuild => Sys2Proof.Machine.execShadowRebuild s
  | .spraySample => Sys2Proof.Machine.execSpraySample s
  | .escapeToEntry port cls => Sys2Proof.Machine.execEscapeToEntry port cls s
  | .wadiAllowanceLapse port => Sys2Proof.Machine.execWadiAllowanceLapse port s
  | .resequenceTimeout d k => Sys2Proof.Machine.execResequenceTimeout d k s
  | .sourceContextExpire d ctx => Sys2Proof.Machine.execSourceContextExpire d ctx s
  | .destContextExpire d k => Sys2Proof.Machine.execDestContextExpire d k s
  | .throttleUpdate => Sys2Proof.Machine.execThrottleUpdate s
  | .utilisationWindow => Sys2Proof.Machine.execUtilisationWindow s
  | .routingTableData w => Sys2Proof.Machine.execRoutingTableData w s
  | .versionWritable b => Sys2Proof.Machine.execVersionWritable b s
  | .flipArm v => Sys2Proof.Machine.execFlipArm v s
  | .flipCancel v => Sys2Proof.Machine.execFlipCancel v s
  | .epochFlip => Sys2Proof.Machine.execEpochFlip s
  | .servoUpdate moving => Sys2Proof.Machine.execServoUpdate moving s
  | .fineQualify => Sys2Proof.Machine.execFineQualify s
  | .refusedSourceQualify => Sys2Proof.Machine.execRefusedSourceQualify s
  | .holdoverLimit => Sys2Proof.Machine.execHoldoverLimit s
  | .ptpMessageRx kind port m => Sys2Proof.Machine.execPtpMessageRx kind port m s
  | .ptpSyncSend mgmt => Sys2Proof.Machine.execPtpSyncSend mgmt s
  | .ptpAnnounceSend mgmt => Sys2Proof.Machine.execPtpAnnounceSend mgmt s
  | .announceTimeout kind port => Sys2Proof.Machine.execAnnounceTimeout kind port s
  | .fineTimeMarker port sub rx back => Sys2Proof.Machine.execFineTimeMarker port sub rx back s
  | .timAccept v => Sys2Proof.Machine.execTimAccept v s
  | .timAcquire v => Sys2Proof.Machine.execTimAcquire v s
  | .timCapture v => Sys2Proof.Machine.execTimCapture v s
  | .refQualify => Sys2Proof.Machine.execRefQualify s
  | .refLoss => Sys2Proof.Machine.execRefLoss s
  | .ppsInEdge widthNs => Sys2Proof.Machine.execPpsInEdge widthNs s
  | .ppsLoss => Sys2Proof.Machine.execPpsLoss s
  | .ppsOutPulse => Sys2Proof.Machine.execPpsOutPulse s
  | .gateEntryStart pg => Sys2Proof.Machine.execGateEntryStart pg s
  | .gateListArm pg v => Sys2Proof.Machine.execGateListArm pg v s
  | .gateListCancel pg v => Sys2Proof.Machine.execGateListCancel pg v s
  | .gateListDisable pg v => Sys2Proof.Machine.execGateListDisable pg v s
  | .gateBaseReached pg => Sys2Proof.Machine.execGateBaseReached pg s
  | .gateListResume pg => Sys2Proof.Machine.execGateListResume pg s
  | .gateListDataWrite d w => Sys2Proof.Machine.execGateListDataWrite d w s
  | .shaperRateWrite d k c v => Sys2Proof.Machine.execShaperRateWrite d k c v s
  | .taskGenerate d q => Sys2Proof.Machine.execTaskGenerate d q s
  | .engineClaim g => Sys2Proof.Machine.execEngineClaim g s
  | .ucodeNop g => Sys2Proof.Machine.execUcodeNop g s
  | .endTask g imm => Sys2Proof.Machine.execEndTask g imm s
  | .br g a m imm => Sys2Proof.Machine.execBr g a m imm s
  | .loop g d imm => Sys2Proof.Machine.execLoop g d imm s
  | .call g imm => Sys2Proof.Machine.execCall g imm s
  | .ret g => Sys2Proof.Machine.execRet g s
  | .fault g imm => Sys2Proof.Machine.execFault g imm s
  | .sync g => Sys2Proof.Machine.execSync g s
  | .sli g d imm => Sys2Proof.Machine.execSli g d imm s
  | .slui g d imm => Sys2Proof.Machine.execSlui g d imm s
  | .sadd g d a b imm => Sys2Proof.Machine.execSadd g d a b imm s
  | .ssub g d a b => Sys2Proof.Machine.execSsub g d a b s
  | .smul g d a b => Sys2Proof.Machine.execSmul g d a b s
  | .slog g d a b m imm => Sys2Proof.Machine.execSlog g d a b m imm s
  | .sprm g d imm => Sys2Proof.Machine.execSprm g d imm s
  | .scmp g d a b m => Sys2Proof.Machine.execScmp g d a b m s
  | .acc g m row imm ev => Sys2Proof.Machine.execAcc g m row imm ev s
  | .accv g a m row imm upset => Sys2Proof.Machine.execAccv g a m row imm upset s
  | .aclr g row imm => Sys2Proof.Machine.execAclr g row imm s
  | .outr g m row imm => Sys2Proof.Machine.execOutr g m row imm s
  | .nxt g d => Sys2Proof.Machine.execNxt g d s
  | .inld g d m => Sys2Proof.Machine.execInld g d m s
  | .outv g a m imm => Sys2Proof.Machine.execOutv g a m imm s
  | .osel g a => Sys2Proof.Machine.execOsel g a s
  | .vadd g d a b m => Sys2Proof.Machine.execVadd g d a b m s
  | .vsub g d a b m => Sys2Proof.Machine.execVsub g d a b m s
  | .vmul g d a b m => Sys2Proof.Machine.execVmul g d a b m s
  | .vfma g d a b m => Sys2Proof.Machine.execVfma g d a b m s
  | .vdiv g d a b => Sys2Proof.Machine.execVdiv g d a b s
  | .vsqrt g d a => Sys2Proof.Machine.execVsqrt g d a s
  | .vmxn g d a b m => Sys2Proof.Machine.execVmxn g d a b m s
  | .vsel g d a b imm => Sys2Proof.Machine.execVsel g d a b imm s
  | .vcmp g d a b m => Sys2Proof.Machine.execVcmp g d a b m s
  | .vbcs g d a m => Sys2Proof.Machine.execVbcs g d a m s
  | .vred g d a m => Sys2Proof.Machine.execVred g d a m s
  | .vcvt g d a m => Sys2Proof.Machine.execVcvt g d a m s
  | .vidx g d a => Sys2Proof.Machine.execVidx g d a s
  | .vlog g d a b m imm => Sys2Proof.Machine.execVlog g d a b m imm s
  | .vrng g d a => Sys2Proof.Machine.execVrng g d a s
  | .vsrt g d a b => Sys2Proof.Machine.execVsrt g d a b s
  | .lds g d a imm => Sys2Proof.Machine.execLds g d a imm s
  | .sts g a b imm => Sys2Proof.Machine.execSts g a b imm s
  | .asv g a row imm => Sys2Proof.Machine.execAsv g a row imm s
  | .ars g a m row imm upset => Sys2Proof.Machine.execArs g a m row imm upset s
  | .old g d a b => Sys2Proof.Machine.execOld g d a b s
  | .oldComplete g bad => Sys2Proof.Machine.execOldComplete g bad s
  | .ost g d a b => Sys2Proof.Machine.execOst g d a b s
  | .hst g a b => Sys2Proof.Machine.execHst g a b s
  | .vmov g d a m => Sys2Proof.Machine.execVmov g d a m s
  | .taskCommit g => Sys2Proof.Machine.execTaskCommit g s
  | .engineEnable d v => Sys2Proof.Machine.execEngineEnable d v s
  | .engineDisableDrain d v => Sys2Proof.Machine.execEngineDisableDrain d v s
  | .engineDisableImmediate d v => Sys2Proof.Machine.execEngineDisableImmediate d v s
  | .engineZeroed g => Sys2Proof.Machine.execEngineZeroed g s
  | .brcFault2Read d => Sys2Proof.Machine.execBrcFault2Read d s
  | .sum d q => Sys2Proof.Machine.execSum d q s
  | .max d q => Sys2Proof.Machine.execMax d q s
  | .min d q => Sys2Proof.Machine.execMin d q s
  | .mean d q => Sys2Proof.Machine.execMean d q s
  | .sparseMerge d q => Sys2Proof.Machine.execSparseMerge d q s
  | .topk d q => Sys2Proof.Machine.execTopk d q s
  | .hist d q => Sys2Proof.Machine.execHist d q s
  | .norm2 d q => Sys2Proof.Machine.execNorm2 d q s
  | .moeDispatch d q => Sys2Proof.Machine.execMoeDispatch d q s
  | .moeCombine d q => Sys2Proof.Machine.execMoeCombine d q s
  | .quant d q => Sys2Proof.Machine.execQuant d q s
  | .sgdMom d q => Sys2Proof.Machine.execSgdMom d q s
  | .adamF32 d q => Sys2Proof.Machine.execAdamF32 d q s
  | .signUpd d q => Sys2Proof.Machine.execSignUpd d q s
  | .ownerKernel d q => Sys2Proof.Machine.execOwnerKernel d q s
  | .allreduce d q => Sys2Proof.Machine.execAllreduce d q s
  | .reduce d q => Sys2Proof.Machine.execReduce d q s
  | .broadcast d q => Sys2Proof.Machine.execBroadcast d q s
  | .shardUpdate d q => Sys2Proof.Machine.execShardUpdate d q s
  | .barrier d q => Sys2Proof.Machine.execBarrier d q s
  | .memberSwap d q => Sys2Proof.Machine.execMemberSwap d q s
  | .groupSet d q => Sys2Proof.Machine.execGroupSet d q s
  | .groupFree d q => Sys2Proof.Machine.execGroupFree d q s
  | .caravanRoot d q => Sys2Proof.Machine.execCaravanRoot d q s
  | .caravanNode d q => Sys2Proof.Machine.execCaravanNode d q s
  | .launch c payload => Sys2Proof.Machine.execLaunch c payload s
  | .contributionRx c payload => Sys2Proof.Machine.execContributionRx c payload s
  | .partialRx c payload => Sys2Proof.Machine.execPartialRx c payload s
  | .resultRx c payload => Sys2Proof.Machine.execResultRx c payload s
  | .receipt c payload => Sys2Proof.Machine.execReceipt c payload s
  | .rack c payload => Sys2Proof.Machine.execRack c payload s
  | .ready c payload => Sys2Proof.Machine.execReady c payload s
  | .commit c payload => Sys2Proof.Machine.execCommit c payload s
  | .abortReq c payload => Sys2Proof.Machine.execAbortReq c payload s
  | .collAbort c payload => Sys2Proof.Machine.execCollAbort c payload s
  | .swap grp => Sys2Proof.Machine.execSwap grp s
  | .commitDeadline grp step => Sys2Proof.Machine.execCommitDeadline grp step s
  | .commitGraceExpiry grp step => Sys2Proof.Machine.execCommitGraceExpiry grp step s
  | .abortReqGraceExpiry grp step => Sys2Proof.Machine.execAbortReqGraceExpiry grp step s
  | .caravanFetch tid => Sys2Proof.Machine.execCaravanFetch tid s
  | .caravanData c payload => Sys2Proof.Machine.execCaravanData c payload s
  | .caravanHeartbeatSend tid => Sys2Proof.Machine.execCaravanHeartbeatSend tid s
  | .caravanHeartbeat c payload => Sys2Proof.Machine.execCaravanHeartbeat c payload s
  | .caravanAck c payload => Sys2Proof.Machine.execCaravanAck c payload s
  | .caravanNack c payload => Sys2Proof.Machine.execCaravanNack c payload s
  | .caravanAttach c payload => Sys2Proof.Machine.execCaravanAttach c payload s
  | .caravanDone c payload => Sys2Proof.Machine.execCaravanDone c payload s
  | .parentSilence tid => Sys2Proof.Machine.execParentSilence tid s
  | .caravanDeadline tid => Sys2Proof.Machine.execCaravanDeadline tid s
  | .sweepDone l rx found => Sys2Proof.Machine.execSweepDone l rx found s
  | .identityVerify l rx ident => Sys2Proof.Machine.execIdentityVerify l rx ident s
  | .laneFailedRetry l rx => Sys2Proof.Machine.execLaneFailedRetry l rx s
  | .pilotIdentityRx l chan ident => Sys2Proof.Machine.execPilotIdentityRx l chan ident s
  | .laneLockLost l rx => Sys2Proof.Machine.execLaneLockLost l rx s
  | .telemetryReport l r => Sys2Proof.Machine.execTelemetryReport l r s
  | .telemetryLost l => Sys2Proof.Machine.execTelemetryLost l s
  | .spareWarmDone t sp => Sys2Proof.Machine.execSpareWarmDone t sp s
  | .spareTuneDone t sp => Sys2Proof.Machine.execSpareTuneDone t sp s
  | .spareLockDone t sp => Sys2Proof.Machine.execSpareLockDone t sp s
  | .spareVerifyDone t sp ok => Sys2Proof.Machine.execSpareVerifyDone t sp ok s
  | .spareDrift t sp => Sys2Proof.Machine.execSpareDrift t sp s
  | .swapExecute l => Sys2Proof.Machine.execSwapExecute l s
  | .laserLost l => Sys2Proof.Machine.execLaserLost l s
  | .swapRequest t v => Sys2Proof.Machine.execSwapRequest t v s
  | .bypassRequest dir target width => Sys2Proof.Machine.execBypassRequest dir target width s
  | .pathReserve m => Sys2Proof.Machine.execPathReserve m s
  | .pathReserved m => Sys2Proof.Machine.execPathReserved m s
  | .pathDeny m => Sys2Proof.Machine.execPathDeny m s
  | .pathArm m => Sys2Proof.Machine.execPathArm m s
  | .pathArmed m sender => Sys2Proof.Machine.execPathArmed m sender s
  | .pathArmDeadline pid => Sys2Proof.Machine.execPathArmDeadline pid s
  | .pathCancel m => Sys2Proof.Machine.execPathCancel m s
  | .pathReserveExpiry origin pid => Sys2Proof.Machine.execPathReserveExpiry origin pid s
  | .pathRelease m => Sys2Proof.Machine.execPathRelease m s
  | .pathReleaseStart pid => Sys2Proof.Machine.execPathReleaseStart pid s
  | .crossConnectChange t slot => Sys2Proof.Machine.execCrossConnectChange t slot s
  | .pathLaneStart origin pid => Sys2Proof.Machine.execPathLaneStart origin pid s
  | .fibreProbe t f peer => Sys2Proof.Machine.execFibreProbe t f peer s
  | .peerPilotSeen t f power => Sys2Proof.Machine.execPeerPilotSeen t f power s
  | .probeTimeout t f => Sys2Proof.Machine.execProbeTimeout t f s
  | .holdDone t f power => Sys2Proof.Machine.execHoldDone t f power s
  | .lossOfPilot t f power => Sys2Proof.Machine.execLossOfPilot t f power s
  | .siroccoStart t v => Sys2Proof.Machine.execSiroccoStart t v s
  | .siroccoAbort t v => Sys2Proof.Machine.execSiroccoAbort t v s
  | .siroccoRunDone t vals => Sys2Proof.Machine.execSiroccoRunDone t vals s
  | .chkUnitStart d u v => Sys2Proof.Machine.execChkUnitStart d u v s
  | .chkUnitDone d u bad => Sys2Proof.Machine.execChkUnitDone d u bad s
  | .chkUnitStop d u v => Sys2Proof.Machine.execChkUnitStop d u v s
  | .resend c payload => Sys2Proof.Machine.execResend c payload s
  | .resendTimeout grp step rank chunk => Sys2Proof.Machine.execResendTimeout grp step rank chunk s
  | .auditDone grp step chunk g2 second third => Sys2Proof.Machine.execAuditDone grp step chunk g2 second third s
  | .holdExpiry grp step => Sys2Proof.Machine.execHoldExpiry grp step s
  | .retractRequest c payload => Sys2Proof.Machine.execRetractRequest c payload s
  | .retract c payload => Sys2Proof.Machine.execRetract c payload s
  | .replayReserveFail grp step => Sys2Proof.Machine.execReplayReserveFail grp step s
  | .marginStart d v => Sys2Proof.Machine.execMarginStart d v s
  | .marginTempReached d => Sys2Proof.Machine.execMarginTempReached d s
  | .marginColdTimeout d => Sys2Proof.Machine.execMarginColdTimeout d s
  | .marginDone d r => Sys2Proof.Machine.execMarginDone d r s
  | .marginStop d v => Sys2Proof.Machine.execMarginStop d v s
  | .quarantineRelease d v => Sys2Proof.Machine.execQuarantineRelease d v s
  | .ownershipTransfer v chk => Sys2Proof.Machine.execOwnershipTransfer v chk s
  | .keyPackage v chk => Sys2Proof.Machine.execKeyPackage v chk s
  | .debugToken v sigOk => Sys2Proof.Machine.execDebugToken v sigOk s
  | .debugTokenExpiry => Sys2Proof.Machine.execDebugTokenExpiry s
  | .dbgClose v => Sys2Proof.Machine.execDbgClose v s
  | .attest v => Sys2Proof.Machine.execAttest v s
  | .hello port m => Sys2Proof.Machine.execHello port m s
  | .cert port m => Sys2Proof.Machine.execCert port m s
  | .finish port sigOk wellFormed => Sys2Proof.Machine.execFinish port sigOk wellFormed s
  | .refuse port reason => Sys2Proof.Machine.execRefuse port reason s
  | .handshakeTimeout port => Sys2Proof.Machine.execHandshakeTimeout port s
  | .refusedRetry port => Sys2Proof.Machine.execRefusedRetry port s
  | .frameClose port => Sys2Proof.Machine.execFrameClose port s
  | .linkSeal port m => Sys2Proof.Machine.execLinkSeal port m s
  | .sealMissing port => Sys2Proof.Machine.execSealMissing port s
  | .rekey port able => Sys2Proof.Machine.execRekey port able s
  | .triadDisagree a b c => Sys2Proof.Machine.execTriadDisagree a b c s
  | .triadRejoin selfTestOk => Sys2Proof.Machine.execTriadRejoin selfTestOk s
  | .triadProbationEnd => Sys2Proof.Machine.execTriadProbationEnd s
  | .heldBeaconSend => Sys2Proof.Machine.execHeldBeaconSend s
  | .heldBeacon port payload => Sys2Proof.Machine.execHeldBeacon port payload s
  | .heldBeaconAbsence port => Sys2Proof.Machine.execHeldBeaconAbsence port s
  | .fnEnable v => Sys2Proof.Machine.execFnEnable v s
  | .fnDisableDrain v => Sys2Proof.Machine.execFnDisableDrain v s
  | .fnDisableImmediate v => Sys2Proof.Machine.execFnDisableImmediate v s
  | .drainTimeout => Sys2Proof.Machine.execDrainTimeout s
  | .orderSubmit v verdicts => Sys2Proof.Machine.execOrderSubmit v verdicts s
  | .orderSegmentRx seg verdicts => Sys2Proof.Machine.execOrderSegmentRx seg verdicts s
  | .expel => Sys2Proof.Machine.execExpel s
  | .unexpel => Sys2Proof.Machine.execUnexpel s
  | .fence => Sys2Proof.Machine.execFence s
  | .unfence => Sys2Proof.Machine.execUnfence s
  | .promote => Sys2Proof.Machine.execPromote s
  | .twinShadowRx port item => Sys2Proof.Machine.execTwinShadowRx port item s
  | .pwrTelemetryUpdate r => Sys2Proof.Machine.execPwrTelemetryUpdate r s
  | .pwrPeakRead => Sys2Proof.Machine.execPwrPeakRead s
  | .peerPilotLost t f => Sys2Proof.Machine.execPeerPilotLost t f s
  | .lpmOldSpaceFree => Sys2Proof.Machine.execLpmOldSpaceFree s
  | .bypassRelease dir => Sys2Proof.Machine.execBypassRelease dir s
  | .neighbourAdvertisementRx p v6 ip mac => Sys2Proof.Machine.execNeighbourAdvertisementRx p v6 ip mac s
  | .triadInLockStep => Sys2Proof.Machine.execTriadInLockStep s

end Sys2Proof.Machine
end

