-- ==== Sys2Proof/WellFormed.lean ====
section
/-! DEFINITION. What the operands of a command must satisfy beyond their types: field widths of the formats, lengths of byte
strings, aligned addresses. A command that is not well-formed spells no event of the module. -/
namespace Sys2Proof

/-- The fields of a fabric header within their widths (Table 1.13). -/
def cfhOk (c : Cfh) : Bool :=
  decide (c.ver < 16) && decide (c.epoch < 2) && decide (c.cls < 8) && decide (c.ecn < 4) && decide (c.part < 4096)
  && decide (c.colour < 4) && decide (c.dst < 2 ^ 24) && decide (c.src < 2 ^ 24) && decide (c.len < 2 ^ 14)
  && decide (c.flowSeq < 2 ^ 32) && decide (c.job < 2 ^ 16) && decide (c.group < 2 ^ 16) && decide (c.gen < 256)
  && decide (c.chunk < 2 ^ 24) && decide (c.step < 2 ^ 32) && decide (c.rank < 2 ^ 24) && decide (c.format < 256)
  && decide (c.injSec < 2 ^ 32) && decide (c.injNs < 2 ^ 32) && decide (c.digest < 2 ^ 64)

/-- The fields of a link cell header within their widths (Table 7.2). -/
def linkHdrOk (h : LinkHdr) : Bool :=
  decide (h.vc < 4) && decide (h.cls < 8) && decide (h.misroute < 4) && decide (h.gen < 4) && decide (h.originDune < 8)
  && decide (h.originX < 64) && decide (h.originY < 64) && decide (h.originZ < 64) && decide (h.ctx < 65536)

/-- The fields of a credit return within their widths. -/
def creditOk (c : CreditRet) : Bool := decide (c.cls < 8) && decide (c.vc < 4) && decide (c.cells < 2 ^ 16)

/-- An Ethernet frame's addresses, tags and EtherType within their widths; the outer tag has TPID 88A8h or 8100h, an inner
one 8100h (R135). -/
def ethOk (f : EthFrame) : Bool :=
  decide (f.dst < 2 ^ 48) && decide (f.src < 2 ^ 48) && decide (f.etype < 2 ^ 16)
  && f.tags.all (fun t => (t.1 == 0x88A8 || t.1 == 0x8100) && decide (t.2 < 2 ^ 16))
  && (f.tags.drop 1).all (fun t => t.1 == 0x8100)

/-- The fields of a table record within their widths (Table 6.6). -/
def tblRecOk (r : TblRec) : Bool :=
  decide (r.op < 256) && decide (r.table < 256) && decide (r.plen < 256) && decide (r.flagsRest < 64) && decide (r.owner < 65536)
  && decide (r.version < 65536) && decide (r.key < 2 ^ 128) && decide (r.keyTail < 2 ^ 48) && decide (r.result < 2 ^ 64)
  && decide (r.nhMac < 2 ^ 48) && decide (r.nhVid < 4096) && decide (r.vidRest < 16) && decide (r.rest < 2 ^ 64)

/-- A section's digest within its width. -/
def sectionOk (x : ImgSection) : Bool := decide (x.digest < 2 ^ 384)

/-- An image's header, directory entries and digests within their widths. -/
def imageOk (i : Image) : Bool :=
  decide (i.header < 2 ^ 2048) && i.dir.all (fun e => decide (e < 2 ^ 1024)) && i.boot.all (fun b => sectionOk b.2)
  && i.sigs.all (fun g => decide (g.signer < 256) && decide (g.keyHash < 2 ^ 384))

/-- A path message's fields within their widths (Table 13.9). -/
def pathOk (m : PathMsg) : Bool :=
  decide (m.id < 65536) && decide (m.reason < 256) && decide (m.origin < 2 ^ 24) && decide (m.target < 2 ^ 24) && decide (m.pair < 64)
  && decide (m.dir < 6) && decide (m.w0 < 8) && decide (m.w < 8) && decide (m.sec < 2 ^ 64) && decide (m.ns < 10 ^ 9)

/-- A header read's number within 256 bytes. -/
def hdrReadOk (r : HdrRead) : Bool := decide (r.header < 2 ^ 2048)

/-- A packet's payload is as long as its header's LENGTH says (Table 1.13). -/
def payloadOk (c : Cfh) (p : List Byte) : Bool := cfhOk c && decide (p.length = c.len)

/-- A Precision Time Protocol message's fields within their widths (Table 8.1, IEEE 1588-2019). -/
def ptpOk (m : PtpMsg) : Bool :=
  decide (m.domain < 256) && decide (m.sender < 2 ^ 80) && (match m.body with
    | .announce prio1 clockClass accuracy variance prio2 identity steps sender _ =>
      decide (prio1 < 256) && decide (clockClass < 256) && decide (accuracy < 256) && decide (variance < 65536) && decide (prio2 < 256)
      && decide (identity < 2 ^ 64) && decide (steps < 65536) && decide (sender < 2 ^ 80)
    | _ => true)

/-- What a scrub pass reports of a word, within the record's widths (Table 6.3). -/
def scrubOk (e : ScrubErr) : Bool := decide (e.key < 2 ^ 128) && decide (e.plen < 256)

/-- The readings of a telemetry update within their registers (Table 17.13). -/
def readingsOk (r : PwrReadings) : Bool :=
  decide (r.vin48 < 2 ^ 32) && decide (r.iin48 < 2 ^ 32) && decide (r.pin48 < 2 ^ 32) && decide (r.vaux5 < 2 ^ 32) && decide (r.paux5 < 2 ^ 32)
  && decide (r.plt < 2 ^ 32) && r.dunes.all (fun n => decide (n < 2 ^ 32)) && r.tiles.all (fun n => decide (n < 2 ^ 32))
  && r.oasis.all (fun n => decide (n < 2 ^ 32))

/-- A HELLO's fields within their widths (Table 15.4). -/
def helloOk (m : HelloMsg) : Bool := decide (m.nonce < 2 ^ 256) && decide (m.serial < 2 ^ 128) && decide (m.hallPart < 65536)

/-- A seal's fields within their widths (R369). -/
def sealOk (m : SealMsg) : Bool := decide (m.epoch < 2 ^ 32) && decide (m.frame < 2 ^ 32) && decide (m.cells < 2 ^ 16)

/-- A margin test reports each of a ripple's 16 engines and 64 delay lines (R355). -/
def marginOk (r : MarginRes) : Bool := decide (r.engines.length = 16) && decide (r.lines.length = 64)

/-- A session message's fields within their widths; the accesses of a frame are of 32-bit registers (R380). -/
def sessionOk (m : SessionMsg) : Bool :=
  match m with
  | .hello h => helloOk h
  | .frame epoch no _ _ _ => decide (epoch < 2 ^ 32) && decide (no < 2 ^ 32)
  | _ => true

/-- What a twin hears from its working spine is well-formed (R396). -/
def twinOk (i : TwinItem) : Bool :=
  match i with
  | .copy c p => payloadOk c p
  | .shadow digest group gen step chunk dst =>
    decide (digest < 2 ^ 64) && decide (group < 65536) && decide (gen < 256) && decide (step < 2 ^ 32) && decide (chunk < 2 ^ 24)
    && decide (dst < 2 ^ 24)

/-- The frame of a well-formed command. Operands whose type admits every value need no check. -/
def WellFormed : Instr → Bool
  | .imageHeaderRead h0 h1 _ => hdrReadOk h0 && hdrReadOk h1
  | .imageVerifyDone img => imageOk img
  | .bulkSectionActivate _ _ sec => sectionOk sec
  | .registerWrite a _ | .counterLoRead a => decide (a.toNat % 4 = 0)
  | .hostSubmit _ _ _ bytes => decide (bytes.length ≤ 64)
  | .doorbellSubmit c p | .doorbellCounterAdd c p | .resend c p | .retractRequest c p | .retract c p | .launch c p
  | .contributionRx c p | .partialRx c p | .resultRx c p | .receipt c p | .rack c p | .ready c p | .commit c p | .abortReq c p
  | .collAbort c p | .caravanData c p | .caravanHeartbeat c p | .caravanAck c p | .caravanNack c p | .caravanAttach c p
  | .caravanDone c p | .learningMessage _ c p => payloadOk c p
  | .fabricPacketIngress _ a h cr c p =>
    linkHdrOk h && (cr.map creditOk).getD true && cfhOk c && decide (p.length < 2 ^ 16) && (a.err.map scrubOk).getD true
  | .ethernetFrameIngress _ a f => ethOk f && (a.err.map scrubOk).getD true
  | .creditReturnRx _ h cr => linkHdrOk h && creditOk cr
  | .refreshRequestRx _ r => tblRecOk r
  | .pathReserve m | .pathReserved m | .pathDeny m | .pathArm m | .pathArmed m _ | .pathCancel m | .pathRelease m => pathOk m
  | .ptpMessageRx _ _ m => ptpOk m
  | .scrubPass _ l => l.all scrubOk
  | .pwrTelemetryUpdate r => readingsOk r
  | .ownershipTransfer _ _ => true
  | .keyPackage _ _ => true
  | .debugToken _ _ => true
  | .hello _ m => helloOk m
  | .linkSeal _ m => sealOk m
  | .marginDone _ r => marginOk r
  | .orderSubmit _ _ => true
  | .sessionDatagram _ _ _ _ m => sessionOk m
  | .twinShadowRx _ i => twinOk i
  | _ => true

end Sys2Proof
end

