-- ==== Sys2Proof/Safety.lean ====
section
/-! DEFINITION. What counts as a safe step: the terms in which claims about the whole machine are stated. -/
namespace Sys2Proof.Machine

/-- Memory and registers in canonical form: every map lists its keys in strictly rising order, and none with the value
that an unlisted key reads as. -/
def State.wf (s : State) : Bool :=
  SMap.wf regReset s.regs && SMap.wf memDefault s.oasis && SMap.wf memDefault s.hostMem

/-- Engine `g` issues the word `w` from slot `sl`: no reset or trip has stopped its work, the task of context `c`, whose command is open,
is at that word of its store and does not wait in SYNC, and `i` is what the engine knows of it (R2, R224, R235). -/
abbrev Issues (s : State) (g w : Nat) (sl : Bool) (c : TaskCtx) (i : TaskInfo) : Prop :=
  workStopped s = false ∧ issuingSlot (engOf s g) = some sl ∧ slotOf (engOf s g) sl = some c ∧ taskLive s c.task = true
    ∧ infoOf s c.task = some i ∧ c.syncing = false ∧ atWord s g w c = true

/-- The state after the task of a slot has gone on to a context. -/
abbrev goesOn (s : State) (g : Nat) (sl : Bool) (c : TaskCtx) : State := setEng s g (putSlot (engOf s g) sl (some c))

/-- A step is safe where it answers a next state whose maps are in canonical form. -/
def safeStep (s : State) : Prop := ∃ t, step s = .next t ∧ State.wf t = true

end Sys2Proof.Machine
end

