-- ==== Sys2Proof/Certificates/Slice0/Obligations.lean ====
section
/-! DEFINITION. The statements for the provers. -/
open Sys2Proof Sys2Proof.Machine

/-- SUPPLIES (R65, R402, R406, R408): each command has its effect wherever its event can happen. -/
def Obligations.SuppliesStartAndStopTheModule : Prop :=
  (∀ s, s.plat.auxOk = false → ∃ t, exec .auxPowerUp s = .next t ∧ t.plat.auxOk = true ∧ t.pins.pgAux = true
    ∧ t.plat.coldPending = some 1 ∧ rf t Reg.PWR_STATUS F.PWR_STATUS_VAUX5_OK = 1 ∧ t.oasis = s.oasis ∧ t.hostMem = s.hostMem
    ∧ ∀ a, regHome a ≠ regHome Reg.PWR_STATUS → rd t a = rd s a)
  ∧ (∀ s straps, s.plat.auxOk = true → s.plat.resetHeld = true → s.plat.seq = none →
    exec (.resetRelease straps) s = .next (platformRestart { s with plat := { s.plat with resetHeld := false, straps := straps }, pins := { s.pins with resetN := true } } (s.plat.coldPending.getD 2)))
  ∧ (∀ s, s.plat.auxOk = true → s.plat.resetHeld = false →
    exec .resetAssert s = .next (coldStart { s with plat := { s.plat with resetHeld := true }, pins := { s.pins with resetN := false } } 2))
  ∧ (∀ s, s.plat.auxOk = true → ∃ t, exec .auxInputLoss s = .next t ∧ t.plat.auxOk = false ∧ t.plat.running = false ∧ t.pins.driven = false
    ∧ t.plat.fsrRing = [] ∧ t.plat.quarantine = [] ∧ t.otp = s.otp ∧ t.oasis = [] ∧ t.hostMem = s.hostMem
    ∧ rd t Reg.MGT_EXPEL = rd s Reg.MGT_EXPEL ∧ rd t Reg.SEC_MIRROR_EPOCH = rd s Reg.SEC_MIRROR_EPOCH)
  ∧ (∀ s, s.plat.auxOk = true → ∃ t, exec .vin48Good s = .next t ∧ t.plat.vin48Good = true ∧ rf t Reg.PWR_STATUS F.PWR_STATUS_VIN48_GOOD = 1
    ∧ ∀ a, regHome a ≠ regHome Reg.PWR_STATUS → rd t a = rd s a)
  ∧ (∀ s, s.plat.auxOk = true → s.pins.pgMain = false → ∃ t, exec .vin48OutOfRange s = .next t ∧ t.plat.vin48Good = false
    ∧ rf t Reg.PWR_STATUS F.PWR_STATUS_VIN48_GOOD = 0 ∧ ∀ a, regHome a ≠ regHome Reg.PWR_STATUS → rd t a = rd s a)
  ∧ (∀ s, s.plat.auxOk = true →
    exec .vaux5OutOfRange s = .next (pwrEvent (wf s Reg.PWR_STATUS F.PWR_STATUS_VAUX5_OK 0) F.PWR_EVT_VAUX5_RANGE))
  ∧ (∀ s, s.plat.booting = true →
    exec .triadInLockStep s = .next (refreshReady s (wf { s with plat := { s.plat with booting := false, running := true } }
      Reg.PLT_READY_SUM F.PLT_READY_SUM_MGT_READY 1)))

/-- Thermal trip, reset requests and the image load have their effect -/
def Obligations.ResetsAndImageLoadRun : Prop :=
  (∀ (sensor : Fin 208) (s : State), 
      s.plat.running = true → rb s Reg.PLT_RESET_CAUSE F.PLT_RESET_CAUSE_TRIPPED = false → sensorFitted s sensor = true → s.plat.seq = none → s.plat.coldPending = none → 
      exec (.thermalTrip sensor) s = .next (
        let s1 := wfs s Reg.PLT_RESET_CAUSE [(F.PLT_RESET_CAUSE_CAUSE, 6), (F.PLT_RESET_CAUSE_TRIPPED, 1), (F.PLT_RESET_CAUSE_TRIP_SENSOR, sensor)]
        let s2 := { s1 with plat := { s1.plat with creditsWithheld := true, coldPending := none }, pins := { s1.pins with thermTripN := false } }
        let s3 := fsrStore (lasersOff (signal (emit s2 .i3cIbi) 0)) 0x0A (sensorPath sensor) [(5, sensor)] [] 0 [] []
        if (offDunes s3).isEmpty then { s3 with plat := { s3.plat with seq := none } } else { s3 with plat := { s3.plat with seq := some ⟨.trip, offDunes s3⟩ } }))
  ∧ (∀ (k : SeqKind) (d : Nat) (e : Nat) (rest : List Nat) (s : State), s.plat.seq = some ⟨k, d :: e :: rest⟩ → 
      exec .sequencedDuneOff s = .next (duneOff { s with plat := { s.plat with seq := some ⟨k, e :: rest⟩ } } d 0))
  ∧ (∀ (v : Word) (s : State), 
      s.plat.running = true → keyOk v = true → wbit v 0 = true → wbit v 1 = false → downRuns s = false → 
      exec (.softwareWarmReset v) s = .next (warmReset { s with plat := { s.plat with seq := none } } 5))
  ∧ (∀ (v : Word) (s : State), s.plat.running = true → keyOk v = true → wbit v 1 = true → 
      exec (.softwareColdReset v) s = .next (coldStart s 4))
  ∧ (∀ (v : Word) (s : State), s.plat.running = true → keyOk v = true → wbit v 1 = true → 
      exec (.imageReload v) s = .next (coldStart s 3))
  ∧ (∀ (v : Word) (s : State), 
      s.plat.running = true → held s = false → keyOk v = true → wbit v 2 = true → rb s Reg.IMG_STATUS F.IMG_STATUS_SEALED = false → imgSt s = imgLoaded → 
      exec (.imageSeal v) s = .next (sealLogged s))
  ∧ (∀ (h0 : HdrRead) (h1 : HdrRead) (hostOk : Bool) (slot : ImgSlot) (s : State), 
      s.plat.running = true → imgSt s = imgFetch → nextSlot s h0 h1 = some slot → headerCode s.otp.variant (if slot = .host then 2 ^ 28 else (slotRead s h0 h1 hostOk slot).bytes) (slotRead s h0 h1 hostOk slot) = 0 → 
      exec (.imageHeaderRead h0 h1 hostOk) s = .next (setImgSt (wfs { s with img := { s.img with cur := slot, header := (slotRead s h0 h1 hostOk slot).header } } Reg.IMG_STATUS [(F.IMG_STATUS_SLOT, slotCode slot), (F.IMG_STATUS_SECTIONS_DONE, 0)]) imgSig))
  ∧ (∀ (img : Image) (s : State), 
      imgSt s = imgSig → img.header = s.img.header → sourceHolds s img = true → verifyImage s.otp.variant (ownerKey s) s.otp.vendorKey s.rot.minSeq s.rot.imageKeys img = none → 
      exec (.imageVerifyDone img) s = .next (refreshReady s (imageAccept (setImgSt s imgBootSect) img)))

/-- Dune domains, bulk sections, stacks, engines, telemetry and trims have their effect -/
def Obligations.DuneDomainsAndUnitsStart : Prop :=
  (∀ (d : Nat) (s : State), 
      mayEnable s = true → nextDune s = some d → 
      exec .duneDomainEnable s = .next (
        let s1 := debugColdEnd s
        setDuneSt (applyDuneTrims (mirrorEpochUp (if imgSt s1 = imgPower then setImgSt s1 imgBulk else s1)) d) d 1))
  ∧ (∀ (d : Fin 8) (s : State), duneSt s d = 1 → 
      exec (.duneRailsRegulated d) s = .next (refreshReady s (tilesPowered (showPgMain (setDuneSt s d 2)) d)))
  ∧ (∀ (d : Fin 8) (s : State), duneSt s d = 1 → exec (.duneRampTimeout d) s = .next (duneFailed s d))
  ∧ (∀ (d : Fin 8) (paceOk : Bool) (s : State), duneSt s d = 2 → paceOk = true → 
      exec (.duneCalDone d paceOk) s = .next (refreshReady s (setDuneSt s d 3)))
  ∧ (∀ (d : Fin 8) (memOk : Bool) (s : State), 
      duneSt s d = 3 → memOk = true → typeActive s 0x12 d = true → typeActive s 0x20 d = true → 
      exec (.duneTestDone d memOk) s = .next (unfenceCheck (settle s (duneEnterUp s d)) d))
  ∧ (∀ (d : Fin 8) (idx : Fin 256) (sec : ImgSection) (e : Nat) (s : State), 
      s.img.dir[idx.val]? = some e → bootType (eType e) = false → s.img.accepted = true → [2, 3, 4].contains (duneSt s d) = true → (entryDunes s e).contains d.val = true → s.img.active.contains (idx.val, d.val) = false → s.img.discarded.contains idx.val = false → sectionHeld s e sec = true → (isPreload e && held s) = false → awaitsLibrary s e = false → bulkCode s idx.val e sec = 0 → 
      exec (.bulkSectionActivate d idx sec) s = .next (
        let img := { s.img with active := s.img.active ++ [(idx.val, d.val)], bulk := if s.img.bulk.any (fun b => b.1 == idx.val) then s.img.bulk else s.img.bulk ++ [(idx.val, sec.text)] }
        settle s (checkLoaded (showSections (bulkApply { s with img := img } d e (!(s.img.active.any (fun a => a.1 == idx.val))) sec.text)))))
  ∧ (∀ (k : Fin 12) (ok : Bool) (s : State), 
      ok = true → duneUp s (stackDune k) = true → stackOwned s k = true → stackReady s k = false → SMap.get (fun _ => 0) s.plat.oasisFails k < 3 → 
      exec (.oasisTrainingDone k ok) s = .next (settle s (placeShadows (setStackReady (stackTrims s k) k true))))
  ∧ (∀ (k : Fin 12) (s : State), stackReady s k = true → 
      exec (.oasisStackFault k) s = .next (
        let s1 := setStackReady s k false
        let s2 := (s1.swc.queues.map (·.1)).foldl (losePages k) s1
        settle s (placeShadows (shadowsLose (s2.col.groups.foldl (loseStaged k) ((List.range 8).foldl (loseHeld k) s2)) (fun j => j == k.val)))))
  ∧ (∀ (g : Fin 4096) (ok : Bool) (s : State), 
      ok = true → duneUp s (g.val / 512) = true → engSt s g = engOff → s.plat.selfTestFailed.contains g.val = false → microcodeLoaded s g = true → s.plat.quarantine.contains g.val = false → 
      exec (.engineSelfTestDone g ok) s = .next (settle s (enterIdle s g)))
  ∧ (∀ (r : PwrReadings) (s : State), s.plat.running = true → 
      ∃ t, exec (.pwrTelemetryUpdate r) s = .next t ∧ let on := fun (d : Nat) => [1, 2, 3, 4].contains (duneSt s d); let s1 := wn (wn (wn (wn (wn s Reg.PWR_VIN48 (reading r.vin48)) Reg.PWR_IIN48 (reading r.iin48)) Reg.PWR_PIN48 (reading r.pin48)) Reg.PWR_VAUX5 (reading r.vaux5)) Reg.PWR_PAUX5 (reading r.paux5); let s2 := (List.range 8).foldl (fun u d => wn (wn u (Reg.PWR_DUNE d) (if on d then reading (getAt 0 r.dunes d) else 0)) (Reg.PWR_TILES d) (if on d then reading (getAt 0 r.tiles d) else 0)) s1; let s3 := (List.range 12).foldl (fun u k => wn u (Reg.PWR_OASIS k) (if on (stackDune k) && s.img.cfg.scopes.any (fun x => bitAt x.stackMask k) then reading (getAt 0 r.oasis k) else 0)) s2; let s4 := wn (wn s3 Reg.PWR_PLT (reading r.plt)) Reg.PWR_PEAK (max (rn s Reg.PWR_PEAK) (reading r.pin48)); let auxIn := decide (4750 ≤ r.vaux5 ∧ r.vaux5 ≤ 5250); let s5 := wf (if rb s Reg.PWR_STATUS F.PWR_STATUS_VAUX5_OK && !auxIn then pwrEvent s4 F.PWR_EVT_VAUX5_RANGE else s4) Reg.PWR_STATUS F.PWR_STATUS_VAUX5_OK (b2n auxIn); t = if rf s5 Reg.PWR_LIMIT F.PWR_LIMIT_WATTS < reading r.pin48 then pwrEvent s5 F.PWR_EVT_OVER_LIMIT else s5)
  ∧ (∀ (s : State), s.plat.running = true → 
      exec .pwrPeakRead s = .next (wn (emit s (.readData Reg.PWR_PEAK (rn s Reg.PWR_PEAK))) Reg.PWR_PEAK 0))
  ∧ (∀ (v : Word) (s : State), 
      s.plat.running = true → held s = false → rb s Reg.IMG_STATUS F.IMG_STATUS_SEALED = false → trimIndexOk s.otp.variant (rf s Reg.PLT_TRIM_SEL F.PLT_TRIM_SEL_PARAM) (rf s Reg.PLT_TRIM_SEL F.PLT_TRIM_SEL_INDEX) = true → 
      exec (.trimUserWrite v) s = .next (showTrim { s with plat := { s.plat with trimUser := SMap.put (fun _ => 0) s.plat.trimUser (trimKey (rf s Reg.PLT_TRIM_SEL F.PLT_TRIM_SEL_PARAM) (rf s Reg.PLT_TRIM_SEL F.PLT_TRIM_SEL_INDEX)) (signedOf 16 v.toNat) } }))

/-- Host accesses, submissions and doorbells have their effect -/
def Obligations.HostAccessesHaveTheirEffect : Prop :=
  (∀ (a : BitVec 26) (isRead : Bool) (s : State), s.plat.running = true → 
      exec (.badAccess a isRead) s = .next (windowAccess (if isRead then hifErr (emit s (.readData a.toNat 0xFFFFFFFF)) F.HIF_ERR_BAD_ACCESS else if inAperture a.toNat then apertureBad s else hifErr s F.HIF_ERR_BAD_ACCESS) a.toNat))
  ∧ (∀ (a : BitVec 26) (isRead : Bool) (d : Nat) (s : State), 
      windowDune a.toNat = some d → s.plat.running = true → duneUp s d = false → 
      exec (.offlineDuneAccess a isRead) s = .next (offlineAccess (if isRead then emit s (.readData a.toNat 0xFFFFFFFF) else s)))
  ∧ (∀ (a : BitVec 26) (s : State), 
      (match windowDune (regHome a.toNat) with | none => s.plat.running | some d => winOk s d) = true → counterLo (regHome a.toNat) = true → 
      exec (.counterLoRead a) s = .next (emit { s with swc := { s.swc with latched := SMap.put (fun _ => 0) s.swc.latched (regHome a.toNat + 4) (rd s (regHome a.toNat + 4)) } } (.readData a.toNat (rn s (regHome a.toNat)))))
  ∧ (∀ (d : Fin 8) (q : Fin 2048) (off : Fin 64) (bytes : List Byte) (s : State), 
      s.plat.running = true → duneUp s d = true → off = 0 → bytes.length = 64 → 
      exec (.hostSubmit d q off bytes) s = .next (cqOffer s d q [beNat bytes]))
  ∧ (∀ (c : Cfh) (payload : List Byte) (s : State), s.plat.running = true → isDoorbell s c = true → submitFormOk payload = true → 
      exec (.doorbellSubmit c payload) s = .next (doorbell s c (cqRipple (beAt payload 2 2 / 2 ^ 11 % 8) (beAt payload 2 2 % 2 ^ 11)) (!rb s (Reg.HIF_CQ_CFG (beAt payload 2 2 / 2 ^ 11 % 8) (beAt payload 2 2 % 2 ^ 11)) F.HIF_CQ_CFG_JOB_CHECK || c.job == rf s (Reg.HIF_CQ_JOB (beAt payload 2 2 / 2 ^ 11 % 8) (beAt payload 2 2 % 2 ^ 11)) F.HIF_CQ_JOB_JOB) (fun u => cqOffer u (beAt payload 2 2 / 2 ^ 11 % 8) (beAt payload 2 2 % 2 ^ 11) (doorbellDescs payload))))
  ∧ (∀ (c : Cfh) (payload : List Byte) (s : State), s.plat.running = true → isDoorbell s c = true → addFormOk payload = true → 
      exec (.doorbellCounterAdd c payload) s = .next (doorbell s c (beAt payload 2 2 / 2 ^ 12 % 8 * 32 + beAt payload 2 2 % 2 ^ 12 / 128) (!fenced s (counterScope s (beAt payload 2 2 / 2 ^ 12 % 8) (beAt payload 2 2 % 2 ^ 12))) (fun u => addCounter u (beAt payload 2 2 / 2 ^ 12 % 8) (beAt payload 2 2 % 2 ^ 12) (beAt payload 4 4 % 2 ^ 20))))
  ∧ (∀ (d : Fin 8) (i : Fin 4095) (v : Word) (s : State), winOk s d = true → held s = false → 
      exec (.eventCounterWrite d i v) s = .next (wf s (Reg.HIF_CNT d i) F.HIF_CNT_VALUE (getF v F.HIF_CNT_VALUE)))

/-- Command queues and completion queues are enabled, disabled, read and flushed -/
def Obligations.QueuesOfCommandsAndCompletions : Prop :=
  (∀ (d : Fin 8) (q : Fin 2048) (v : Word) (s : State), 
      winOk s d = true → getF v F.HIF_CQ_CFG_ENABLE = 1 → held s = false → cqState (cqWriteCfg s d q v) d q = 0 → cqEnableCause (cqWriteCfg s d q v) d q = 0 → 
      exec (.cqEnable d q v) s = .next (setCqState (latchCq (wf (cqWriteCfg s d q v) (Reg.HIF_CQ_STATUS d q) F.HIF_CQ_STATUS_ERR_CAUSE 0) d q) d q 1))
  ∧ (∀ (d : Fin 8) (q : Fin 2048) (v : Word) (s : State), 
      winOk s d = true → getF v F.HIF_CQ_CFG_ENABLE = 0 → held s = false → 
      exec (.cqDisable d q v) s = .next (drainCq (cqWriteCfg s d q v) d q))
  ∧ (∀ (d : Fin 8) (q : Fin 2048) (s : State), winOk s d = true → cqState s d q = 4 → 
      exec (.cqQuiescedToDisabled d q) s = .next (setCqState s d q 0))
  ∧ (∀ (d : Fin 8) (n : Fin 2048) (v : Word) (s : State), 
      winOk s d = true → getF v F.HIF_CNQ_CFG_ENABLE = 1 → held s = false → cnqOn (cnqWriteNotice s d n v) d n = false → 
      exec (.cnqEnable d n v) s = .next (
        let u := wn (wn (wf (cnqWriteGeometry (cnqWriteNotice s d n v) d n v) (Reg.HIF_CNQ_CFG d n) F.HIF_CNQ_CFG_ENABLE 1) (Reg.HIF_CNQ_HEAD d n) 0) (Reg.HIF_CNQ_TAIL d n) 0
        setCnq u d n (cnqStart u d n)))
  ∧ (∀ (d : Fin 8) (n : Fin 2048) (v : Word) (s : State), 
      winOk s d = true → getF v F.HIF_CNQ_CFG_ENABLE = 0 → held s = false → cnqOn s d n = true → ((cnqOf s d n).typ = 0 → cnqBound s d n = false) → 
      exec (.cnqDisable d n v) s = .next (wf (wf (freePunts (dropStaged (cnqWriteNotice s d n v) d n) d n) (Reg.HIF_CNQ_CFG d n) F.HIF_CNQ_CFG_ENABLE 0) (Reg.HIF_CNQ_CTRL d n) F.HIF_CNQ_CTRL_FLUSH_PENDING 0))
  ∧ (∀ (d : Fin 8) (n : Fin 2048) (v : Word) (s : State), 
      winOk s d = true → cnqOn s d n = true → (cnqOf s d n).dest = 0 → (cnqOf s d n).typ = 0 → 
      exec (.cnqHeadWrite d n v) s = .next (
        let k := Nat.min (cnqOf s d n).unread.length ((v.toNat % 2 ^ (cnqOf s d n).log2 + 2 ^ (cnqOf s d n).log2 - rn s (Reg.HIF_CNQ_HEAD d n) % 2 ^ (cnqOf s d n).log2) % 2 ^ (cnqOf s d n).log2)
        let u := releaseRecords (wn s (Reg.HIF_CNQ_HEAD d n) ((rn s (Reg.HIF_CNQ_HEAD d n) + k) % 2 ^ (cnqOf s d n).log2)) d n k
        setCnq u d n { cnqOf u d n with timerAt := s.clock }))
  ∧ (∀ (d : Fin 8) (n : Fin 2048) (s : State), 
      winOk s d = true → cnqOn s d n = true → (cnqOf s d n).dest = 0 → 0 < cnqFill s d n → rf s (Reg.HIF_CNQ_TMO d n) F.HIF_CNQ_TMO_TMO ≠ 0 → 
      exec (.cnqReadTimeout d n) s = .next (cnqNotice s d n F.HIF_CNQ_CTRL_TMO_EVT))
  ∧ (∀ (d : Fin 8) (n : Fin 2048) (s : State), 
      winOk s d = true → cnqOn s d n = true → rb s (Reg.HIF_CNQ_CTRL d n) F.HIF_CNQ_CTRL_FLUSH_PENDING = false → 
      exec (.cnqFlush d n) s = .next (freePunts (drainStaged (wf (setCnq s d n { cnqOf s d n with flushLeft := (cnqOf s d n).staged.length }) (Reg.HIF_CNQ_CTRL d n) F.HIF_CNQ_CTRL_FLUSH_PENDING 1) d n) d n))
  ∧ (∀ (d : Fin 8) (n : Fin 2048) (s : State), 
      winOk s d = true → cnqOn s d n = true → (cnqOf s d n).dest = 1 → (cnqOf s d n).typ = 0 → (cnqOf s d n).gathered ≠ [] → 
      exec (.cnqFabricSend d n) s = .next (
        let q := cnqOf s d n
        let k := Nat.min 64 q.gathered.length
        releaseRecords (setCnq (cnqMessage s d n 0x90 true true (q.count - q.gathered.length) k (q.gathered.take k).flatten) d n { q with gathered := q.gathered.drop k, gatherAt := s.clock }) d n k))

/-- The management ports and the I3C bus answer -/
def Obligations.ManagementPortsAnswer : Prop :=
  (∀ (p : Fin 2) (v6 : Bool) (w : Fin 4) (v : Word) (s : State), s.plat.running = true → held s = false → 
      exec (.mgmtAddrWrite p v6 w v) s = .next (if v6 then probeV6 (setMp (wr s (Reg.HIF_MP_V6 p w) v) p { mpOf (wr s (Reg.HIF_MP_V6 p w) v) p with v6Off := false }) p (mpV6 (setMp (wr s (Reg.HIF_MP_V6 p w) v) p { mpOf (wr s (Reg.HIF_MP_V6 p w) v) p with v6Off := false }) p) else probeV4 (setMp (wr s (Reg.HIF_MP_V4 p) v) p { mpOf (wr s (Reg.HIF_MP_V4 p) v) p with v4Off := false }) p))
  ∧ (∀ (p : Fin 2) (s : State), s.plat.running = true → 
      exec (.mgmtLinkUp p) s = .next (
        let u := setMp s p { mpOf s p with linkUp := true }
        probeV6 (probeV6 (probeV4 u p) p (linkLocal u p)) p (mpV6 u p)))
  ∧ (∀ (p : Fin 2) (v6 : Bool) (s : State), 
      s.plat.running = true → (mpOf s p).linkUp = true → mpFamily s p v6 = true → 
      exec (.mgmtAddrConflict p v6) s = .next (hifErr (setMp s p (if v6 then { mpOf s p with v6Off := true } else { mpOf s p with v4Off := true })) F.HIF_ERR_MP_CONFLICT))
  ∧ (∀ (p : Fin 2) (vid : Fin 4096) (target : BitVec 32) (sender : BitVec 32) (mac : BitVec 48) (s : State), 
      s.plat.running = true → (mpOf s p).linkUp = true → mpHears s p vid = true → mpFamily s p false = true → target.toNat = mpV4 s p → 
      exec (.mgmtArpRx p vid target sender mac) s = .next (mpEmit s p (.arpReply target.toNat sender.toNat mac.toNat)))
  ∧ (∀ (p : Fin 2) (vid : Fin 4096) (target : BitVec 128) (sender : BitVec 128) (mac : BitVec 48) (s : State), 
      s.plat.running = true → (mpOf s p).linkUp = true → mpHears s p vid = true → mpFamily s p true = true → mpOwnV6 s p target.toNat = true → 
      exec (.mgmtNdRx p vid target sender mac) s = .next (mpEmit s p (.ndAdvert target.toNat sender.toNat mac.toNat)))
  ∧ (∀ (p : Fin 2) (vid : Fin 4096) (v6 : Bool) (dst : BitVec 128) (src : BitVec 128) (data : List Byte) (s : State), 
      s.plat.running = true → (mpOf s p).linkUp = true → mpHears s p vid = true → mpFamily s p v6 = true → (if v6 then mpOwnV6 s p dst.toNat else dst.toNat == mpV4 s p) = true → rb s (Reg.HIF_MP_CFG p) F.HIF_MP_CFG_ICMP_EN = true → echoSent s p < 100 → 
      exec (.mgmtEchoRx p vid v6 dst src data) s = .next (mpSend (setMp s p { mpOf s p with echoSec := nowSec s, echoCnt := echoSent s p + 1 }) p v6 src.toNat (.echoReply v6 src.toNat data)))
  ∧ (∀ (p : Fin 2) (f : MgmtFrame) (s : State), 
      s.plat.running = true → (mpOf s p).linkUp = true → mpAccepts s p f = false → 
      exec (.mgmtFrameDiscard p f) s = .next (mpDiscard s p))
  ∧ (∀ (p : Fin 2) (v6 : Bool) (ip : BitVec 128) (mac : BitVec 48) (s : State), 
      s.plat.running = true → (mpOf s p).linkUp = true → mpFamily s p v6 = true → ip.toNat = (if v6 then mpGw6 s p else mpGw4 s p) → ip ≠ 0 → 
      exec (.neighbourAdvertisementRx p v6 ip mac) s = .next (setMp s p (if v6 then { mpOf s p with gwMac6 := some mac.toNat } else { mpOf s p with gwMac4 := some mac.toNat })))
  ∧ (∀ (r : I3cReg) (s : State), s.plat.auxOk = true → s.plat.running = true → 
      exec (.i3cRead r) s = .next (match r with | .sensor _ => tickFree (emit s (.i3cData (i3cValue s r))) | .pwr off => if off.val = 45 then wn (emit s (.i3cData (i3cValue s r))) Reg.PWR_PEAK 0 else emit s (.i3cData (i3cValue s r)) | _ => emit s (.i3cData (i3cValue s r))))
  ∧ (∀ (v : Word) (s : State), s.plat.running = true → keyOk v = true → wbit v 1 = true → 
      exec (.i3cResetCtrlWrite v) s = .next (coldStart s 4))

/-- Fabric packets, Ethernet frames, credits and refills pass the switch -/
def Obligations.PacketsEnterAndLeaveTheSwitch : Prop :=
  (∀ (port : Fin 4096) (sub : Fin 8) (h : LinkHdr) (cr : Option CreditRet) (c : Cfh) (payload : List Byte) (err : Option ScrubErr) (lane : Nat) (s : State), 
      laneOfPort s port.val sub.val = some lane → linkCarries s port.val = true → portEth s port.val = false → c.cls < 6 → h.cls = c.cls → vcPermitted h.vc h.cls = true → cr = none → h.wadiSel = false → fabricCells payload.length ≤ granted s port.val c.cls h.vc → c.len ≤ 8192 → c.len = payload.length → 
      exec (.fabricPacketIngress port ⟨sub, err⟩ h cr c payload) s = .next (fabricAccept (setGranted s port.val c.cls h.vc (granted s port.val c.cls h.vc - fabricCells payload.length)) port.val lane h c payload err))
  ∧ (∀ (port : Fin 4096) (sub : Fin 8) (f g : EthFrame) (err : Option ScrubErr) (lane : Nat) (s : State), 
      laneOfPort s port.val sub.val = some lane → linkCarries s port.val = true → portEth s port.val = true → frameLen f ≤ 9216 → parseFrame f = some g → rb s Reg.FWD_CFG F.FWD_CFG_LEARN_MAC = false → g.etype ≠ rf s Reg.FWD_ETH_CFG F.FWD_ETH_CFG_CFH_ETYPE → 
      exec (.ethernetFrameIngress port ⟨sub, err⟩ f) s = .next (
        let k := arrival s port.val lane 0 { LinkHdr.none_ with cls := 6 } (some g) none [] (frameCells (frameLen g)) 6 0
        ethPlain (lookupErr (mirrorAll s (portDune s port.val) 0 port.val k.scope k.eth none [] (mirSessions s (portDune s port.val) 0 port.val)) (portDune s port.val) err) (portDune s port.val) port.val g k))
  ∧ (∀ (out : Fin 8) (lane : Fin 2048) (k : SwPkt) (s : State), 
      (nextAdmit s out.val lane.val).map (·.1) = some k → lowerLane s out.val lane.val k = false → 
      ∃ t, exec (.packetAdmit out lane) s = .next t ∧ ∃ s1, nextAdmit s out.val lane.val = some (k, s1) ∧ t =
        (let u := { s1 with swc := { s1.swc with mesh := dropFirst (fun x => x == k) s1.swc.mesh } }
        fnProgress (if k.eth.isSome then u else leftSlice u k.inPort k.cls k.inVc k.cells)))
  ∧ (∀ (d : Fin 8) (q : Fin 16384) (bad : Bool) (pg : SpillPage) (rest : List SpillPage) (no : Nat) (k : SwPkt) (more : List (Nat × SwPkt)) (s : State), 
      (hwq s d.val q.val).pages = pg :: rest → (hwq s d.val q.val).pkts = (no, k) :: more → pg.requested = true → duneUp s d.val = true → bad = false → 
      exec (.spillRefillArrive d q bad) s = .next (
        let x := hwq s d.val q.val
        let x0 := { x with head := x.head ++ pg.cells, pages := rest }
        let s1 := setHwq s d.val q.val (if rest.isEmpty then tailToHead x0 else x0)
        let s3 := bump64 (chargePkt (setPagesUsed s1 d.val k.scope (pagesUsed s1 d.val k.scope - 1)) d.val k.scope k.cls pg.cells.length) (Reg.SWC_SPILL_IN d.val) 1
        let s4 := if x.head.isEmpty then bump64 s3 (Reg.SWC_SPILL_STARVE d.val) 1 else s3
        spillMark d.val (writePages d.val q.val k.scope k.cls 64 (askPages d.val q.val 4096 (joinTail s4 d.val q.val))) q.val))
  ∧ (∀ (port : Fin 4096) (c : Nat) (h : Head) (s : State), 
      (portRec s port.val).isSome = true → portMaySend s port.val = true → (pickClass (((List.range 7).map (classHeads (shapeAll (joinPort (dropNofit port.val 4096 s) port.val) (firstLane s port.val)) port.val)).flatten.foldl (noteWait port.val) (shapeAll (joinPort (dropNofit port.val 4096 s) port.val) (firstLane s port.val))) port.val).bind (fun c => (pickHead (((List.range 7).map (classHeads (shapeAll (joinPort (dropNofit port.val 4096 s) port.val) (firstLane s port.val)) port.val)).flatten.foldl (noteWait port.val) (shapeAll (joinPort (dropNofit port.val 4096 s) port.val) (firstLane s port.val))) port.val c).map (fun h => (c, h))) = some (c, h) → 
      exec (.portTransmitSelect port) s = .next (
        let u := serveHead (((List.range 7).map (classHeads (shapeAll (joinPort (dropNofit port.val 4096 s) port.val) (firstLane s port.val)) port.val)).flatten.foldl (noteWait port.val) (shapeAll (joinPort (dropNofit port.val 4096 s) port.val) (firstLane s port.val))) port.val c h
        joinPort (if 2 ≤ h.vc then bump64 u (Reg.RTE_WADI_PKTS (portDune s port.val)) 1 else u) port.val))
  ∧ (∀ (port : Fin 4096) (h : LinkHdr) (cr : CreditRet) (s : State), 
      linkCarries s port.val = true → portEth s port.val = false → h.cls ≠ 7 → vcPermitted h.vc h.cls = true → 
      exec (.creditReturnRx port h cr) s = .next (takeReturn (if h.wadiSel then wadiSelSeen s port.val else s) port.val cr))
  ∧ (∀ (port : Fin 4096) (cr : CreditRet) (s : State), 
      portEth s port.val = false → portMaySend s port.val = true → nextReturn s port.val = some cr → 
      exec (.creditOnlyCellSend port) s = .next (fnProgress (emit (txNote (tookReturn s port.val (some cr)) port.val 1) (.creditCell port.val { LinkHdr.none_ with cls := cr.cls, wadiSel := sendsSel s port.val } cr (linkCipher s port.val (linkHdrBytes { LinkHdr.none_ with cls := cr.cls, wadiSel := sendsSel s port.val } true true (some cr)))))))

/-- Pools, policers, mirror sessions and punts have their effect -/
def Obligations.SwitchUnitsAreProgrammed : Prop :=
  (∀ (d : Fin 8) (n : BitVec 16) (s : State), duneUp s d = true → 
      exec (.paceLow (.bank d n)) s = .next (if n.toNat < 500 then swcEvent s d F.SWC_EVT_PACE_LOW 0xFF 0xFFFF else s))
  ∧ (∀ (d : Fin 8) (r : Fin 32) (pace : BitVec 16) (s : State), duneUp s d = true → 
      exec (.paceLow (.ripple d r pace)) s = .next (
        let u := wfs s (Reg.BRC_PACE d r) [(F.BRC_PACE_PACE, pace.toNat), (F.BRC_PACE_LOW, b2n (decide (pace.toNat < 1300)))]
        if pace.toNat < 1300 then brcEvent u d F.BRC_EVT_PACE_LOW (natBe 1 (partOfRipple s (d * 32 + r)) ++ natBe 2 0xFFFF) else u))
  ∧ (∀ (d : Fin 8) (p : Fin 16) (c : Fin 8) (v : Word) (s : State), 
      winOk s d = true → (scopeOf s p).isSome = true → held s = false → sumNat (((List.range 8).filter (fun x => x != c.val)).map (fun i => poolMax s d p i)) + getF v F.SWC_POOL_MAX_MAX ≤ scopeQuota s d p → 
      exec (.poolMaxWrite d p c v) s = .next (checkBudget (showPools (softWrite s (Reg.SWC_POOL_MAX d p c) v) p c) d p 0xFF 0xFFFF))
  ∧ (∀ (d : Fin 8) (i : Fin 8192) (v : Word) (s : State), winOk s d = true → held s = false → wbit v 31 = true → 
      exec (.policerEnable d i v) s = .next (
        let u := softWrite s (Reg.SWC_POL0 d i) v
        { u with swc := { u.swc with policers := SMap.ins u.swc.policers (d.val * 8192 + i.val) (polFull u d i) } }))
  ∧ (∀ (d : Fin 8) (m : Fin 64) (v : Word) (s : State), 
      winOk s d = true → held s = false → (mirSource (softWrite s (Reg.SWC_MIR0 d m) v) d m).any (fun x => x != mirDest (softWrite s (Reg.SWC_MIR0 d m) v) d m) = false → 
      exec (.mirrorSessionEnable d m v) s = .next (softWrite s (Reg.SWC_MIR0 d m) v))
  ∧ (∀ (d : Fin 8) (pk : PuntPkt) (rest : List PuntPkt) (s : State), 
      puntQueue s d = pk :: rest → duneUp s d = true → rb s (Reg.FWD_PUNT_CFG d) F.FWD_PUNT_CFG_EN = true → 
      exec (.puntDeliver d) s = .next (
        let cnq := rf s (Reg.FWD_PUNT_CFG d) F.FWD_PUNT_CFG_CNQ
        let r := fifoPut (setPunt s d rest) d cnq ⟨0x11, false, puntPayload s d pk⟩
        if r.2 = .dropped then puntDrop (dischargePkt r.1 d pk.scope pk.cls pk.cells) d
        else if r.2 = .staged then keepPunt r.1 d cnq pk
        else dischargePkt r.1 d pk.scope pk.cls pk.cells))

/-- Updates, learning, scrubbing, rebuilding and refreshing change the tables -/
def Obligations.ForwardingTablesChange : Prop :=
  (∀ (v : Word) (s : State), 
      s.plat.running = true → (dunesUp s).isEmpty = false → wbit v 31 = true → held s = false → (windowZone s).any (fun z => (shadowOf s z).lost) = false → 
      exec (.fwdUpdateGo v) s = .next (
        let a := applyRecord s .window (windowRec s)
        let u := setUpdResult a.1 a.2
        if a.2 ≤ 1 ∧ (windowRec s).relay then relayRec u (((scopeByHall s (recPart (windowRec s))).map (·.num)).getD 0) none (windowRec s) else u))
  ∧ (∀ (d : Fin 8) (c : SeqChange) (rest : List SeqChange) (s : State), changeQueue s d = c :: rest → duneUp s d = true → 
      exec (.replicaApply d) s = .next (
        let u := applyChange { s with fwd := { s.fwd with queues := SMap.ins s.fwd.queues d rest } } d c
        let w := if 896 ≤ stashOcc u d then fwdEvent u d F.FWD_EVT_STASH_HIGH 1 0 else u
        if c.writes.any isFill then settle s (checkLoaded (showSections w)) else w))
  ∧ (∀ (port : Fin 4096) (c : Cfh) (payload : List Byte) (s : State), 
      mgtAccepted s port c = true → neighbourRole s port = true → c.dst = 0xFFFFFE → beAt payload 0 1 = 1 → beAt payload 1 1 ≠ 0 → beAt payload 1 1 ≤ 21 → payload.length = 8 + 48 * beAt payload 1 1 → 
      exec (.learningMessage port c payload) s = .next (
        let l := ((List.range (beAt payload 1 1)).map (fun i => recOf ((payload.drop (8 + 48 * i)).take 48))).filter (fun r => r.op != 3)
        l.foldl (learnOne port) (bump64 s (Reg.FWD_LEARN_RX (portDune s port)) l.length)))
  ∧ (∀ (d : Fin 8) (errs : List ScrubErr) (s : State), duneUp s d = true → zoneDune s (duneZone s d) ≠ some d.val → errs = [] → 
      exec (.scrubPass d errs) s = .next ({ s with fwd := { s.fwd with replicas := SMap.ins s.fwd.replicas d (ageTombs (replica s d)) } }))
  ∧ (∀ (d : Fin 8) (shadowBad : Bool) (m : Mark) (s : State), 
      s.fwd.marks.find? (fun m => m.dune == d.val && !markBusy s m) = some m → duneUp s d = true → held s = false → (shadowOf s (duneZone s m.dune)).lost = false → shadowBad = false → 
      exec (.tableRebuild d shadowBad) s = .next (Machine.sequence s (duneZone s m.dune) [m.dune] (rebuildWrites (shadowOf s (duneZone s m.dune)).tables (markScope s m) m) false))
  ∧ (∀ (port : Fin 4096) (r : TblRec) (s : State), 
      linkCarries s port = true → portEth s port = false → neighbourRole s port = true → r.op = 3 → held s = false → recOk r = true → recPart r = hallPart s (portScope s port) → (refreshAnswer (bump64 s (Reg.FWD_LEARN_RX (portDune s port)) 1) r).isSome = true → 
      ∃ t, exec (.refreshRequestRx port r) s = .next t ∧ ∃ a, refreshAnswer (bump64 s (Reg.FWD_LEARN_RX (portDune s port)) 1) r = some a ∧ t = sendOwn (bump64 s (Reg.FWD_LEARN_RX (portDune s port)) 1) port (learnMsg (bump64 s (Reg.FWD_LEARN_RX (portDune s port)) 1) (portScope s port) a).1 (learnMsg (bump64 s (Reg.FWD_LEARN_RX (portDune s port)) 1) (portScope s port) a).2)
  ∧ (∀ (d : Fin 8) (x : Refresh) (s : State), 
      s.fwd.refresh.find? (fun x => x.dune == d.val && decide (x.due ≤ s.clock)) = some x → held s = false → (shadowOf s (duneZone s x.dune)).lost = false → 
      exec (.refreshTimeout d) s = .next (fwdEvent (endRefresh (x.keys.foldl forgetKey { s with fwd := { s.fwd with refresh := dropFirst (fun y => y == x) s.fwd.refresh } }) x) d F.FWD_EVT_REFRESH_FAIL x.table x.word))
  ∧ (∀ (z k d : Nat) (s : State), 
      zones s = [z] → (zoneStacks s z).head? = some k → zoneDune s z = some d → (shadowOf s z).lost = true → 
      exec .shadowRebuild s = .next (setShadow s z { shadowOf s z with tables := replicaAhead s d, lost := false, stack := some k, stashOrder := ((replicaAhead s d).em.filter (fun e => decide (stashBase ≤ e.1))).map (·.1) }))
  ∧ (∀ (z : Nat) (s : State), zones s = [z] → 
      exec .lpmOldSpaceFree s = .next (setShadow s z { shadowOf s z with pendingFree := (shadowOf s z).pendingFree.filter (fun e => decide (s.clock < e.2.2.2.2)) }))

/-- Loads, the escape channel, contexts, rates and utilisation have their effect -/
def Obligations.RoutingMeasuresAndContexts : Prop :=
  (∀ (s : State), (dunesUp s).isEmpty = false → 
      exec .spraySample s = .next ((List.range 3).foldl showAxisLoad ((List.range 6).foldl sampleDir s)))
  ∧ (∀ (port : Fin 4096) (cls : Fin 8) (k : SwPkt) (s : State), 
      headPkt (hwq s (portDune s port) (portQ s port 0 cls)) = some k → portRole s port = 1 → creditClass cls = true → portMaySend s port = true → (hwq s (portDune s port) (portQ s port 0 cls)).headSince + escTmo s ≤ s.clock → hasCredit s port ⟨portQ s port 0 cls, k, 0, false⟩ = false → eligible s port ⟨portQ s port 0 cls, k, 1, false⟩ = true → 
      exec (.escapeToEntry port cls) s = .next (joinPort (bump64 (serveHead (joinPort s port) port cls ⟨portQ s port 0 cls, k, 1, false⟩) (Reg.RTE_ESC_PKTS (portDune s port)) 1) port))
  ∧ (∀ (port : Fin 4096) (since : Nat) (s : State), 
      SMap.find s.rte.wadiSel port = some since → since + 10 * usUnit ≤ s.clock → 
      exec (.wadiAllowanceLapse port) s = .next (if selAbsent s (SMap.find s.rte.selSent port) then lapseHeld (lapseGranted s port) port else lapseGranted s port))
  ∧ (∀ (port : Fin 4096) (since : Nat) (s : State), 
      SMap.find s.rte.selSent port = some since → since + 10 * usUnit ≤ s.clock → selAbsent s (SMap.find s.rte.wadiSel port) = false → 
      exec (.wadiAllowanceLapse port) s = .next (lapseHeld s port))
  ∧ (∀ (d : Fin 8) (k : Fin 262144) (x : DstCtx) (s : State), 
      dstAt s d k = some x → x.held ≠ [] → x.heldAt + 50 * usUnit ≤ s.clock → 
      exec (.resequenceTimeout d k) s = .next (
        let r := releaseRun x.held.length (lowestHeld x) x.held
        let s1 := { s with rte := { s.rte with dst := modFirst (fun y => y == x) (fun _ => { x with expect := some r.2.1, held := r.2.2, heldAt := s.clock, last := s.clock }) s.rte.dst } }
        let s3 := bump64 (linkAll d r.1 (bump64 s1 (Reg.RTE_RSQ_LOST_PKTS d) (missingCount x))) (Reg.RTE_RSQ_RELEASED d) (sumNat (r.1.map (·.cells)))
        rteEvent s3 F.RTE_EVT_RSQ_TIMEOUT 0xFF ((r.1.head?.map (·.outPort)).getD 0xFFFF)))
  ∧ (∀ (d : Fin 8) (ctx : BitVec 16) (x : SrcCtx) (s : State), 
      SMap.find s.rte.src (d.val * 65536 + ctx.toNat) = some x → x.live = true → x.last + 2 * lifetime s ≤ s.clock → 
      exec (.sourceContextExpire d ctx) s = .next ({ s with rte := { s.rte with src := SMap.ins s.rte.src (d.val * 65536 + ctx.toNat) { x with live := false } } }))
  ∧ (∀ (d : Fin 8) (k : Fin 262144) (x : DstCtx) (s : State), 
      dstAt s d k = some x → x.held = [] → x.last + lifetime s ≤ s.clock → 
      exec (.destContextExpire d k) s = .next ({ s with rte := { s.rte with dst := dropFirst (fun y => y == x) s.rte.dst } }))
  ∧ (∀ (s : State), (dunesUp s).isEmpty = false → 
      ∃ t, exec .throttleUpdate s = .next t ∧ t = (
        let u := (List.range 18).foldl updateRate { s with rte := { s.rte with rateChanged := false } }
        let m := rateMessage u
        let w := (rackPorts u).foldl (fun x p => sendOwn x p (originCfh x 0 (hallPart x (portScope x p)) 0xFFFFFD 0 0 m.length) m) u
        if u.rte.rateChanged ∨ u.rte.rateSentAt + 1000 * usUnit ≤ u.clock then { w with rte := { w.rte with rateSeq := (w.rte.rateSeq + 1) % 65536, rateSentAt := w.clock } } else u))
  ∧ (∀ (s : State), (dunesUp s).isEmpty = false → 
      exec .utilisationWindow s = .next (
        let u := (List.range 3).foldl (windowAxis s) ((List.range 6).foldl windowDir s)
        let w := { u with rte := { u.rte with sentCells := [], hot := [] } }
        let axes := (List.range 3).filter (fun a => decide (a < torusDims s))
        if axes.any (fun a => axisSaturated s a && axes.any (fun b => b != a && axisIdle s b)) then rteEvent w F.RTE_EVT_IMBALANCE 0xFF 0xFFFF else w))

/-- The routing table window and the epoch flip have their effect -/
def Obligations.RoutingTablesFlip : Prop :=
  (∀ (w : Option Word) (x : Word) (s : State), 
      s.plat.running = true → (dunesUp s).isEmpty = false → w = some x → held s = false → rf s Reg.RTE_TBL_SEL F.RTE_TBL_SEL_VER ≠ activeVer s → verWritable s (rf s Reg.RTE_TBL_SEL F.RTE_TBL_SEL_VER) = true → 
      exec (.routingTableData w) s = .next (nextIndex (showVerDig (setTableWord s x))))
  ∧ (∀ (b : Bool) (s : State), 
      b2n b ≠ activeVer s → s.rte.armed = none → (rteTable s (b2n b)).lastActive + lifetime s ≤ s.clock → 
      exec (.versionWritable b) s = .next (setVerWritable s (b2n b) true))
  ∧ (∀ (v : Word) (s : State), 
      s.plat.running = true → (dunesUp s).isEmpty = false → keyOk v = true → wbit v 1 = true → flipRefusal s = none → 
      exec (.flipArm v) s = .next (setFlipResult (setVerWritable (wf { s with rte := { s.rte with armed := some (flipInstant s) } } Reg.RTE_STATUS F.RTE_STATUS_ARMED 1) (1 - activeVer { s with rte := { s.rte with armed := some (flipInstant s) } }) false) 1))
  ∧ (∀ (v : Word) (i : Nat) (s : State), 
      s.plat.running = true → (dunesUp s).isEmpty = false → held s = false → s.rte.armed = some i → keyOk v = true → wbit v 2 = true → s.clock + 100 * usUnit ≤ i → 
      exec (.flipCancel v) s = .next (
        let u := { s with rte := { s.rte with armed := none } }
        setFlipResult (setVerWritable (wf u Reg.RTE_STATUS F.RTE_STATUS_ARMED 0) (1 - activeVer u) true) 7))
  ∧ (∀ (i : Nat) (s : State), s.rte.armed = some i → i ≤ s.clock → 
      exec .epochFlip s = .next (
        let s1 := setRteTable s (activeVer s) { rteTable s (activeVer s) with lastActive := s.clock }
        let s2 := setRteTable s1 (1 - activeVer s) { rteTable s1 (1 - activeVer s) with ever := true }
        rteEvent (showVerDig (wfs { s2 with rte := { s2.rte with armed := none } } Reg.RTE_STATUS [(F.RTE_STATUS_ACTIVE, 1 - activeVer s), (F.RTE_STATUS_A_WRITABLE, 0), (F.RTE_STATUS_B_WRITABLE, 0), (F.RTE_STATUS_ARMED, 0), (F.RTE_STATUS_FLIP_RESULT, 2)])) F.RTE_EVT_FLIP_DONE 0xFF 0xFFFF))

/-- Gate lists are loaded, armed, cancelled, disabled, take effect and resume -/
def Obligations.GateListsAndShapers : Prop :=
  (∀ (pg : Fin 256) (s : State), duneUp s (pg.val / 32) = true → 
      exec (.gateEntryStart pg) s = .next (runEntries s pg))
  ∧ (∀ (pg : Fin 256) (v : Word) (s : State), 
      winOk s (pg.val / 32) = true → keyOk v = true → wbit v 1 = true → armRefusal s pg = none → 
      exec (.gateListArm pg v) s = .next (setPgResult (setPgSt (setPg s pg { pgOf s pg with armed := some (armGeom s pg) }) pg (if pgSt s pg = 2 then 3 else 1)) pg 1))
  ∧ (∀ (pg : Fin 256) (v : Word) (a : GateGeom) (s : State), 
      winOk s (pg.val / 32) = true → held s = false → (pgOf s pg).armed = some a → keyOk v = true → wbit v 2 = true → s.clock + 100 * usUnit ≤ a.base → 
      exec (.gateListCancel pg v) s = .next (setPgResult (setPgSt (setPg s pg { pgOf s pg with armed := none }) pg (if pgSt s pg = 3 then 2 else 0)) pg 7))
  ∧ (∀ (pg : Fin 256) (v : Word) (s : State), 
      winOk s (pg.val / 32) = true → held s = false → keyOk v = true → wbit v 3 = true → 
      exec (.gateListDisable pg v) s = .next (setPgSt (setPg s pg { pgOf s pg with list := none, armed := none, bank0 := [], bank1 := [], cycles := 0 }) pg 0))
  ∧ (∀ (pg : Fin 256) (a : GateGeom) (s : State), 
      (pgOf s pg).armed = some a → a.base ≤ s.clock → pgSt s pg = 1 → duneUp s (pg.val / 32) = true → 
      exec (.gateBaseReached pg) s = .next (grantGroup (gateTakeEffect s pg) pg))
  ∧ (∀ (pg : Fin 256) (k : GateGeom) (s : State), 
      (pgOf s pg).list = some k → pgSt s pg = 4 → timReady s = true → resumeAt s pg k ≤ s.clock → duneUp s (pg.val / 32) = true → 
      exec (.gateListResume pg) s = .next (grantGroup (runEntries (setPgSt (setPg s pg { pgOf s pg with runsSince := resumeAt s pg k, doneTo := max (resumeAt s pg k) (pgOf s pg).doneTo }) pg 2) pg) pg))
  ∧ (∀ (d : Fin 8) (w : Option Word) (x : Word) (s : State), 
      winOk s d = true → w = some x → held s = false → bankBusy s (glGroup s d) (glBank s d) = false → 
      exec (.gateListDataWrite d w) s = .next (wf (glStore s d x) (Reg.SCH_GL_SEL d) F.SCH_GL_SEL_INDEX ((glIndex s d + 1) % 4096)))
  ∧ (∀ (d : Fin 8) (k : Fin 256) (c : Fin 8) (v : Word) (s : State), winOk s d = true → held s = false → 
      exec (.shaperRateWrite d k c v) s = .next (setTokens (softWrite s (Reg.SCH_SHP_RATE d k c) v) (d.val * 256 + k.val) c (shapeBurst (softWrite s (Reg.SCH_SHP_RATE d k c) v) (d.val * 256 + k.val) c * shapeByte : Nat)))

/-- The head of a command queue is dispatched, claimed or waits, times out, does nothing or aborts -/
def Obligations.QueueHeadsAreDispatched : Prop :=
  (∀ (d : Fin 8) (q : Fin 2048) (y : Slot) (s : State), 
      queueRuns s d q = true → headSlot s d q = some y → descOk y = true → namesOk s d q y.desc = true → headBlocked s d q y = false → waitsUnmet s d q y.desc = false → 
      exec (.commandDispatch d q) s = .next (if 0x40 ≤ dOpcode y.desc ∧ dOpcode y.desc < 0x80 then dispatchKernel s d q y
        else if 0x10 ≤ dOpcode y.desc ∧ dOpcode y.desc < 0x40 then dispatchGroup s d q y else modSlot s d q y.no (fun z => { z with st := .running })))
  ∧ (∀ (d : Fin 8) (q : Fin 2048) (y : Slot) (s : State), 
      queueRuns s d q = true → headSlot s d q = some y → descOk y = false → 
      exec (.commandDispatch d q) s = .next (claim s d q y.no stBadDescriptor))
  ∧ (∀ (d : Fin 8) (q : Fin 2048) (y : Slot) (s : State), 
      queueRuns s d q = true → headSlot s d q = some y → descOk y = true → namesOk s d q y.desc = false → 
      exec (.commandDispatch d q) s = .next (claim s d q y.no stDenied))
  ∧ (∀ (d : Fin 8) (q : Fin 2048) (y : Slot) (s : State), 
      queueRuns s d q = true → headSlot s d q = some y → descOk y = true → namesOk s d q y.desc = true → (headBlocked s d q y || waitsUnmet s d q y.desc) = true → 
      exec (.commandDispatch d q) s = .next s)
  ∧ (∀ (d : Fin 8) (q : Fin 2048) (y : Slot) (s : State), 
      queueRuns s d q = true → headSlot s d q = some y → rf s (Reg.HIF_CQ_WAIT_TMO d q) F.HIF_CQ_WAIT_TMO_TMO ≠ 0 → descOk y = true → namesOk s d q y.desc = true → waitsUnmet s d q y.desc = true → 
      exec (.waitTimeout d q) s = .next (claim s d q y.no stTimeout))
  ∧ (∀ (d : Fin 8) (q : Fin 2048) (y : Slot) (s : State), 
      duneUp s d = true → workStopped s = false → runningSlot s d q (fun x => x == 0) = some y → 
      exec (.nop d q) s = .next (claim s d q y.no stOk))
  ∧ (∀ (d : Fin 8) (q : Fin 2048) (y : Slot) (s : State), 
      duneUp s d = true → workStopped s = false → (cqOf s d q).slots.find? (fun y => y.st == .running && dOpcode y.desc == 1 && !s.col.groups.any (fun g => g.2.opened.any (fun c => c.abortBy == some (flatQ d q, y.no)))) = some y → (cqOf s d (dSrc y.desc / 65536 % 2048)).slots.find? (fun z => dTag z.desc == dSrc y.desc % 65536 && slotOpen z) = none → 
      exec (.abort d q) s = .next (claim s d q y.no stAbortLate))
  ∧ (∀ (d : Fin 8) (q : Fin 2048) (y z : Slot) (s : State), 
      duneUp s d = true → workStopped s = false → (cqOf s d q).slots.find? (fun y => y.st == .running && dOpcode y.desc == 1 && !s.col.groups.any (fun g => g.2.opened.any (fun c => c.abortBy == some (flatQ d q, y.no)))) = some y → (cqOf s d (dSrc y.desc / 65536 % 2048)).slots.find? (fun z => dTag z.desc == dSrc y.desc % 65536 && slotOpen z) = some z → collOfCmd s (flatQ d (dSrc y.desc / 65536 % 2048)) z.no = none → 
      exec (.abort d q) s = .next (claim (abortTarget s d (dSrc y.desc / 65536 % 2048) z) d q y.no stOk))
  ∧ (∀ (d : Fin 8) (q : Fin 2048) (y z : Slot) (g : Nat) (c : Coll) (s : State), 
      duneUp s d = true → workStopped s = false → (cqOf s d q).slots.find? (fun y => y.st == .running && dOpcode y.desc == 1 && !s.col.groups.any (fun g => g.2.opened.any (fun c => c.abortBy == some (flatQ d q, y.no)))) = some y → (cqOf s d (dSrc y.desc / 65536 % 2048)).slots.find? (fun z => dTag z.desc == dSrc y.desc % 65536 && slotOpen z) = some z → collOfCmd s (flatQ d (dSrc y.desc / 65536 % 2048)) z.no = some (g, c) → c.abortBy = none → c.decided = none → 
      exec (.abort d q) s = .next (abortRequest s g c.step stAborted (some (flatQ d q, y.no))))

/-- The servo, the PTP ports and the fine time have their effect -/
def Obligations.TheClockFollowsItsSource : Prop :=
  (∀ (moving : Bool) (s : State), s.plat.running = true → 
      exec (.servoUpdate moving) s = .next (
        let w := { s with tim := { s.tim with moving := moving } }
        let u := if timSt w = timHoldover then growBound w else w
        Machine.measure (u.tim.sources.length + 1) u.tim.acceptPending { u with tim := { u.tim with acceptPending := false } }))
  ∧ (∀ (since : Nat) (s : State), 
      s.tim.fineSince = some since → timSt s = timLocked → since + secUnit ≤ s.clock → 
      exec .fineQualify s = .next (setTimFine (setTimSt s timFineSt) true))
  ∧ (∀ (x : TimSource) (since : Nat) (s : State), 
      curSource s = some x → x.goodSince = some since → x.refused = true → since + secUnit ≤ s.clock → 
      exec .refusedSourceQualify s = .next (acceptSource (showSource (modSource s x.kind x.port (fun y => { y with refused := false, goodSince := none }))) ((x.theta.getD 0).natAbs)))
  ∧ (∀ (s : State), 
      timSt s = timHoldover → 10 ^ 6 * 65536 ≤ (growBound s).tim.holdBound → 
      exec .holdoverLimit s = .next (setTimReady (growBound s) false))
  ∧ (∀ (kind : Fin 5) (port : Fin 4096) (m : PtpMsg) (s : State), 
      ptpPort s kind (ptpNum kind port) = true → m.domain = ptpDomain s → 
      exec (.ptpMessageRx kind port m) s = .next (ptpBodyRx s kind (ptpNum kind port) m.sender m.body))
  ∧ (∀ (s : State), 
      exec (.ptpSyncSend true) s = .next ((masterPorts s true).foldl (fun u e => ptpSend (ptpSend u e.1 e.2 (.sync (txStamp u e.1 e.2) true)) e.1 e.2 (.followUp (txStamp u e.1 e.2))) s))
  ∧ (∀ (s : State), 
      exec (.ptpSyncSend false) s = .next (
        let s1 := (masterPorts s false).foldl (fun u e => ptpSend u e.1 e.2 (.sync (txStamp u e.1 e.2) false)) s
        (s1.tim.sources.filter (fun x => x.kind == 1 && ptpPort s1 1 x.port)).foldl (fun u x => askPeer u x.port) s1))
  ∧ (∀ (mgmt : Bool) (s : State), 
      exec (.ptpAnnounceSend mgmt) s = .next ((masterPorts s mgmt).foldl (fun u e => ptpSend u e.1 e.2 (.announce (announceDs s).prio1 (announceDs s).clockClass (announceDs s).accuracy (announceDs s).variance (announceDs s).prio2 (announceDs s).identity (announceDs s).steps (announceDs s).sender (announceDs s).utc)) s))
  ∧ (∀ (kind : Fin 5) (port : Fin 4096) (s : State), 
      kind ≠ 4 → s.tim.foreign.any (fun m => foreignAt kind (ptpNum kind port) m && decide (m.heardAt + (if kind.val = 1 then 375000 * usUnit else 3 * secUnit) ≤ s.clock)) = true → 
      exec (.announceTimeout kind port) s = .next (settleForeign { s with tim := { s.tim with foreign := s.tim.foreign.filter (fun m => !(foreignAt kind (ptpNum kind port) m && decide (m.heardAt + (if kind.val = 1 then 375000 * usUnit else 3 * secUnit) ≤ s.clock))) } } kind (ptpNum kind port)))
  ∧ (∀ (port : Fin 4096) (sub : Fin 8) (rx : Int) (back : Int) (r : PortRec) (s : State), 
      portRec s port = some r → sub.val < r.width → port.val < 2048 → laneReady s (r.first + sub.val) = true → rb s (Reg.TIM_PORT port) F.TIM_PORT_FINE_EN = true → 
      exec (.fineTimeMarker port sub rx back) s = .next (settleTheta { s with tim := { s.tim with lanes := SMap.ins s.tim.lanes (r.first + sub.val) (rx, back) } } 1 port))
  ∧ (∀ (v : Word) (x : TimSource) (s : State), 
      s.plat.running = true → held s = false → keyOk v = true → wbit v 1 = true → curSource s = some x → x.refused = true → 
      exec (.timAccept v) s = .next ({ s with tim := { s.tim with acceptPending := true } }))
  ∧ (∀ (v : Word) (s : State), 
      s.plat.running = true → held s = false → keyOk v = true → wbit v 0 = true → 
      exec (.timAcquire v) s = .next (
        let u := setTimReady (setTimFine { s with tim := { s.tim with sources := s.tim.sources.map (fun x => { x with refused := false, goodSince := none }), acceptPending := false, fineSince := none, badRun := 0 } } false) false
        selectSource (setTimSt (wf u Reg.TIM_STATUS F.TIM_STATUS_EVER_READY 0) timFree)))
  ∧ (∀ (v : Word) (s : State), s.plat.running = true → held s = false → wbit v 2 = true → 
      exec (.timCapture v) s = .next (wn (wn (wnHL s (Reg.TIM_NOW_SEC 0) (nowSec s)) Reg.TIM_NOW_NS (nowNs s)) Reg.TIM_NOW_FRAC (nowFrac s)))

/-- The reference input and the 1 PPS pins have their effect -/
def Obligations.TheReferenceAndThePulses : Prop :=
  (∀ (s : State), 
      s.plat.running = true → rb s Reg.TIM_REF_CFG F.TIM_REF_CFG_EN = true → 
      exec .refQualify s = .next (
        let u := if timSt s = timHoldover then growBound s else s
        wf (tickFree { u with tim := { u.tim with refFreq := Config.refFreq u.free } }) Reg.TIM_STATUS F.TIM_STATUS_REF_OK 1))
  ∧ (∀ (s : State), rb s Reg.TIM_STATUS F.TIM_STATUS_REF_OK = true → 
      exec .refLoss s = .next (timEvent (wf (if timSt s = timHoldover then growBound s else s) Reg.TIM_STATUS F.TIM_STATUS_REF_OK 0) F.TIM_EVT_REF_LOSS))
  ∧ (∀ (widthNs : Nat) (s : State), 
      s.plat.running = true → rb s Reg.TIM_PPS_CFG F.TIM_PPS_CFG_IN_EN = true → 100 ≤ widthNs → widthNs ≤ 900000000 → 
      exec (.ppsInEdge widthNs) s = .next (
        let tod := rnHL s (Reg.TIM_PPS_TOD 0)
        let theta : Int := ((tod * secUnit : Nat) : Int) - s.clock
        let u := wf (wnHL (wn (wn (wnHL s (Reg.TIM_PPS_IN_SEC 0) (nowSec s)) Reg.TIM_PPS_IN_NS (nowNs s)) Reg.TIM_PPS_IN_FRAC (nowFrac s)) (Reg.TIM_PPS_TOD 0) ((tod + 1) % 2 ^ 64)) Reg.TIM_STATUS F.TIM_STATUS_PPS_OK 1
        let x := { u with tim := { u.tim with ppsAt := some s.clock } }
        modSource (heardAnnounce x 4 0 { ownDs x with clockClass := rf x Reg.TIM_PPS_CFG F.TIM_PPS_CFG_IN_CLASS }) 4 0 (fun y => { y with ptp := some theta, theta := some theta })))
  ∧ (∀ (since : Nat) (s : State), 
      s.tim.ppsAt = some since → since + 3 * (secUnit / 2) ≤ s.clock → 
      exec .ppsLoss s = .next (sourceLost (timEvent (wf { s with tim := { s.tim with ppsAt := none } } Reg.TIM_STATUS F.TIM_STATUS_PPS_OK 0) F.TIM_EVT_PPS_LOSS) 4 0))
  ∧ (∀ (due : Nat) (s : State), 
      s.plat.running = true → rb s Reg.TIM_PPS_CFG F.TIM_PPS_CFG_OUT_EN = true → due = (((s.clock : Int) - psUnits (signedOf 20 (rf s Reg.TIM_PPS_CFG F.TIM_PPS_CFG_OUT_OFS))) / secUnit * secUnit + psUnits (signedOf 20 (rf s Reg.TIM_PPS_CFG F.TIM_PPS_CFG_OUT_OFS))).toNat → s.tim.ppsOutAt < due → due ≤ s.clock → 
      exec .ppsOutPulse s = .next (emit { s with tim := { s.tim with ppsOutAt := due, ppsFall := due + ppsHigh }, pins := { s.pins with ppsOut := decide (s.clock < due + ppsHigh) } } .ppsRise))

/-- Key packages, ownership transfers, debug tokens and attestation have their effect -/
def Obligations.TheRootOfTrustTakesPackages : Prop :=
  (∀ (v : Word) (sigOk unwrapOk : Bool) (s : State), 
      pkgAsked s v = true → pkgType s ≠ 3 → pkgType s ≠ 4 → keyPkgRefusal s (keyPkg s sigOk unwrapOk) = none → 
      exec (.keyPackage v ⟨sigOk, unwrapOk⟩) s = .next (
        let p := keyPkg s sigOk unwrapOk
        let rot := if p.typ = 1 then { s.rot with imageKeys := storeImageKey s.rot.imageKeys p.id, pkgSeq := p.seq }
          else { s.rot with mirrorRoots := if s.rot.mirrorRoots.contains p.id then s.rot.mirrorRoots else s.rot.mirrorRoots ++ [p.id], pkgSeq := p.seq }
        pkgResult (secLog { s with rot := rot } 5 (pkgDigest s 6544)) 1))
  ∧ (∀ (v : Word) (proofOk ownerOk : Bool) (s : State), pkgAsked s v = true → pkgType s = 3 → transferRefusal s (transferOrder s proofOk ownerOk) = none → 
      exec (.ownershipTransfer v ⟨proofOk, ownerOk⟩) s = .next (
        let o := transferOrder s proofOk ownerOk
        let u := secLog { s with otp := { s.otp with ownerSlots := setAt s.otp.ownerSlots o.slot (some o.newKeyHash) }, rot := { s.rot with imageKeys := [], mirrorRoots := [], minSeq := 0, pkgSeq := 0, expel := [] } } 6 (pkgDigest s 12312)
        coldStart (secEvent (pkgResult (showOwner (orderStoreClear (wn u Reg.IMG_MIN_SEQ 0))) 1) F.SEC_EVT_OWNER_CHANGED (natBe 1 0 ++ natBe 2 0xFFFF)) 3))
  ∧ (∀ (v : Word) (sigOk : Bool) (s : State), pkgAsked s v = true → pkgType s = 4 → tokenRefusal s (dbgToken s sigOk) = none → 
      exec (.debugToken v sigOk) s = .next (
        let u := secLog { s with rot := { s.rot with tokenScopes := (dbgToken s sigOk).scope, token := true } } 3 (pkgDigest s 4904)
        secEvent (pkgResult (newDebugNonce (wn (showDebug u) Reg.SEC_DBG_REMAIN (dbgToken s sigOk).duration)) 1) F.SEC_EVT_DEBUG_OPENED (natBe 1 0 ++ natBe 2 0xFFFF)))
  ∧ (∀ (s : State), s.rot.token = true → exec .debugTokenExpiry s = .next (debugClosed { s with rot := { s.rot with token := false } }))
  ∧ (∀ (v : Word) (s : State), 
      s.plat.running = true → keyOk v = true → wbit v 3 = true → s.rot.token = true → 
      exec (.dbgClose v) s = .next (debugClosed { s with rot := { s.rot with token := false } }))
  ∧ (∀ (v : Word) (s : State), s.plat.running = true → keyOk v = true → wbit v 2 = true → 
      exec (.attest v) s = .next (secEvent (showBytes Reg.SEC_REPORT 1294 (reportBytes s (beNat ((List.range 8).flatMap (fun i => natBe 4 (rn s (Reg.SEC_ATT_NONCE i)))))) s) F.SEC_EVT_REPORT_READY (natBe 1 0 ++ natBe 2 0xFFFF)))

/-- The handshake's messages, its timeout and retry, the seals and the re-key have their effect -/
def Obligations.LinksShakeHandsAndSeal : Prop :=
  (∀ (port : Fin 4096) (m : HelloMsg) (s : State), 
      shaking s port = true → s.rot.expel.any (fun e => e.kind == 1 && e.subject == m.serial) = false → m.wellFormed = true → m.hallPart = hallPart s (portScope s port) → 
      exec (.hello port m) s = .next (
        let u := setLink s port { linkOf s port with gotHello := true, peerSerial := m.serial, since := s.clock }
        handshakeMsg u port 0x51 0 (s.otp.cert ++ reportBytes u m.nonce)))
  ∧ (∀ (port : Fin 4096) (m : CertMsg) (s : State), 
      shaking s port = true → (linkOf s port).gotHello = true → (linkOf s port).gotCert = false → certRefusal s port m = none → 
      exec (.cert port m) s = .next (
        let u := setLink s port { linkOf s port with gotCert := true, sentFinish := true, since := s.clock }
        let w := if m.debugOpen then secEvent u F.SEC_EVT_PEER_DEBUG (natBe 1 0 ++ natBe 2 port) else u
        tickFree (handshakeMsg w port 0x52 0 ((if (linkOf w port).peerSerial < w.otp.serial then Config.keyShare w.free else []) ++ Config.dikSign (natBe 48 (freeNat w % 2 ^ 384))))))
  ∧ (∀ (port : Fin 4096) (sigOk : Bool) (wellFormed : Bool) (s : State), 
      shaking s port = true → (linkOf s port).gotCert = true → (linkOf s port).sentFinish = true → wellFormed = true → sigOk = true → 
      exec (.finish port sigOk wellFormed) s = .next (linkNowUp s port))
  ∧ (∀ (port : Fin 4096) (reason : Fin 256) (s : State), shaking s port = true → 
      exec (.refuse port reason) s = .next (linkRefuse s port reason))
  ∧ (∀ (port : Fin 4096) (s : State), 
      shaking s port = true → (linkOf s port).since + 50000 * usUnit ≤ s.clock → 
      exec (.handshakeTimeout port) s = .next (refusePeer s port 7))
  ∧ (∀ (port : Fin 4096) (r : PortRec) (s : State), 
      portRec s port = some r → linkSt s port = linkRefused → (linkOf s port).since + secUnit ≤ s.clock → portLocked s r = true → portLit s r = true → duneUp s (r.first / 256) = true → 
      exec (.refusedRetry port) s = .next (startHandshake s port))
  ∧ (∀ (port : Fin 4096) (x : SecLink) (s : State), 
      (portRec s port).isSome = true → linkOf s port = x → x.st = linkUp → x.txCells ≠ 0 → portGuard s port s.clock = false → 
      exec (.frameClose port) s = .next (
        let u := setLink (tickFree (linkMsg s port (originCfh s 0 (hallPart s (portScope s port)) 0xFFFFFA 0 0 (sealBytes x (x.txNext == some (x.txFrame + 2)) (freeNat s)).length) (sealBytes x (x.txNext == some (x.txFrame + 2)) (freeNat s)))) port (nextTx x s.clock)
        if (nextTx x s.clock).txEpoch = x.txEpoch then u else bump64 u Reg.SEC_REKEYS 1))
  ∧ (∀ (port : Fin 4096) (m : SealMsg) (x : SecLink) (s : State), 
      (portRec s port).isSome = true → linkOf s port = x → x.st = linkUp → m.tagOk = true → m.epoch = x.rxEpoch → m.frame = x.rxFrame → 
      exec (.linkSeal port m) s = .next (setLink s port (nextRx x m.next)))
  ∧ (∀ (port : Fin 4096) (s : State), 
      (portRec s port).isSome = true → linkSt s port = linkUp → (linkOf s port).rx.isEmpty = false → 
      exec (.sealMissing port) s = .next (tagFail s port))
  ∧ (∀ (port : Fin 4096) (able : Bool) (x : SecLink) (s : State), 
      (portRec s port).isSome = true → linkOf s port = x → x.st = linkUp → x.txNext = none → x.since + 600 * secUnit ≤ s.clock → able = true → 
      exec (.rekey port able) s = .next (setLink s port { x with txNext := some (x.txFrame + 2) }))

/-- Sweeps, identity, lost locks and telemetry of a lane have their effect -/
def Obligations.LanesAreTunedAndWatched : Prop :=
  (∀ (l : Fin 2048) (rx : Bool) (found : Option Nat) (r : Nat) (s : State), 
      laneDir s l rx = 1 → laneRuns s l = true → rx = true → found = some r → resExcluded (laneOf (applyTrim (laneTakes s l) 2 (4096 + l.val)) l) true r = false → 
      exec (.sweepDone l rx found) s = .next (
        let u := applyTrim (laneTakes s l) 2 (4096 + l.val)
        setLaneDir (setLaneOf u l (setDirAt (laneOf u l) true r)) l true 2))
  ∧ (∀ (l : Fin 2048) (rx : Bool) (ident : Option (BitVec 8 × BitVec 16)) (chan : BitVec 8) (id_ : BitVec 16) (s : State), 
      laneDir s l rx = 2 → laneRuns s l = true → rx = false → ident = some (chan, id_) → txIdentOk l chan id_ = true → 
      exec (.identityVerify l rx ident) s = .next (lockedNow s l false))
  ∧ (∀ (l : Fin 2048) (rx : Bool) (s : State), laneDir s l rx = 5 → laneRuns s l = true → rx = true → 
      exec (.laneFailedRetry l rx) s = .next (settle s (setLaneDir (setLaneOf s l (setDirExcl (setDirFails (laneOf s l) true 0) true [])) l true 1)))
  ∧ (∀ (l : Fin 2048) (chan : BitVec 8) (ident : BitVec 16) (s : State), 
      laneDir s l true = 4 → laneRuns s l = true → rxIdentOk s l chan ident = true → SMap.find s.opt.fibreId (laneFibre l) = some (bitsAt ident.toNat 3 8) → 
      exec (.pilotIdentityRx l chan ident) s = .next (showPilot s l chan ident))
  ∧ (∀ (l : Fin 2048) (rx : Bool) (s : State), laneDir s l rx = 4 → 
      exec (.laneLockLost l rx) s = .next (laneLeaves (laneTakes s l) l rx 1))
  ∧ (∀ (l : Fin 2048) (pfar : BitVec 16) (peer : Bool) (s : State), 
      laneDir s l false = 4 → laneDir s l true = 4 → laneRuns s l = true → 
      exec (.telemetryReport l ⟨pfar, peer⟩) s = .next (
        let u := wf (wfs s (Reg.OPT_LANE_PWR (l.val / 32) (l.val % 32)) [(F.OPT_LANE_PWR_P_FAR, pfar.toNat), (F.OPT_LANE_PWR_MARGIN, encodeSigned 16 (clampInt (-32768, 32767) (pfar.toInt + 1600)))]) (Reg.OPT_LANE_STATUS (l.val / 32) (l.val % 32)) F.OPT_LANE_STATUS_TELEM_OK 1
        laneHandshake (ageReport (biasStep (setLaneOf u l { laneOf u l with reportAt := s.clock, peerLocked := peer }) l pfar.toInt) l (pfar.toInt + 1600)) l))
  ∧ (∀ (l : Fin 2048) (s : State), 
      rb s (Reg.OPT_LANE_STATUS (l.val / 32) (l.val % 32)) F.OPT_LANE_STATUS_TELEM_OK = true → (laneOf s l).reportAt + 10000 * usUnit ≤ s.clock → 
      exec (.telemetryLost l) s = .next (optEvent (wf s (Reg.OPT_LANE_STATUS (l.val / 32) (l.val % 32)) F.OPT_LANE_STATUS_TELEM_OK 0) (l.val / 32) F.OPT_EVT_TELEM_LOST (optBody (l.val / 32) (l.val % 32) 0xFF)))
  ∧ (∀ (l : Fin 2048) (s : State), 
      laneDir s l false = 4 → laneRuns s l = true → spareReady (optEvent (laneLeaves s l false 1) (l.val / 32) F.OPT_EVT_LASER_LOST (optBody (l.val / 32) (l.val % 32) 0xFF)) l = false → freeSpare (optEvent (laneLeaves s l false 1) (l.val / 32) F.OPT_EVT_LASER_LOST (optBody (l.val / 32) (l.val % 32) 0xFF)) (l.val / 32) = none → 
      exec (.laserLost l) s = .next (retireLane (optEvent (laneLeaves s l false 1) (l.val / 32) F.OPT_EVT_LASER_LOST (optBody (l.val / 32) (l.val % 32) 0xFF)) l))

/-- A spare warms, tunes, locks, verifies, drifts and takes over -/
def Obligations.SparesTakeOver : Prop :=
  (∀ (t : Fin 64) (sp : Fin 4) (s : State), spareIs s t sp 1 = true → 
      exec (.spareWarmDone t sp) s = .next (setSpare (applyTrim s 1 (t.val * 36 + 32 + sp.val)) t sp 2 (spareLane s t sp)))
  ∧ (∀ (t : Fin 64) (sp : Fin 4) (s : State), spareIs s t sp 2 = true → 
      exec (.spareTuneDone t sp) s = .next (setSpare s t sp 3 (spareLane s t sp)))
  ∧ (∀ (t : Fin 64) (sp : Fin 4) (s : State), spareIs s t sp 3 = true → 
      exec (.spareLockDone t sp) s = .next (setSpare s t sp 4 (spareLane s t sp)))
  ∧ (∀ (t : Fin 64) (sp : Fin 4) (ok : Bool) (s : State), spareIs s t sp 4 = true → ok = true → 
      exec (.spareVerifyDone t sp ok) s = .next (
        let l := t.val * 32 + spareLane s t sp
        let u := setLaneOf (setSpare s t sp 5 (l % 32)) l { laneOf s l with spareSince := some s.clock }
        planSwap (if laneAge u l = 4 then u else setLaneAge u l 3) l))
  ∧ (∀ (t : Fin 64) (sp : Fin 4) (s : State), spareIs s t sp 5 = true → 
      exec (.spareDrift t sp) s = .next (
        let l := t.val * 32 + spareLane s t sp
        setLaneOf (setSpare s t sp 2 (l % 32)) l { laneOf s l with spareSince := none, swap := none }))
  ∧ (∀ (l : Fin 2048) (g : Nat) (forced : Bool) (k : Nat) (s : State), 
      (laneOf s l).swap = some (g, forced) → (laneOf s l).spare = some k → g ≤ s.clock → spareReady s l = true → laneRuns s l = true → telemetryLost s l = false → (forced = true ∧ xcAt s l g = false ∨ swapStands s l g = true) → 
      exec (.swapExecute l) s = .next (doSwap s l k forced))
  ∧ (∀ (t : Fin 64) (v : Word) (s : State), 
      s.plat.running = true → tileFitted s.otp.variant t = true → held s = false → keyOk v = true → wbit v 5 = true → laneAge s (t.val * 32 + bitsAt v.toNat 0 5) < 2 → laneRuns s (t.val * 32 + bitsAt v.toNat 0 5) = true → 
      exec (.swapRequest t v) s = .next (prepareLane s (t.val * 32 + bitsAt v.toNat 0 5)))

/-- An express path is asked for, reserved, armed, answered and cancelled -/
def Obligations.ExpressPathsAreSetUp : Prop :=
  (∀ (dir : Fin 6) (target : BitVec 24) (width : Fin 256) (p : Path) (s : State), 
      SMap.find s.rte.bypassAsked dir = some target.toNat → width.val = 8 → held { s with rte := { s.rte with bypassAsked := SMap.del s.rte.bypassAsked dir } } = false → held s = false → grantPath { s with rte := { s.rte with bypassAsked := SMap.del s.rte.bypassAsked dir } } dir target.toNat width = some p → 
      exec (.bypassRequest dir target width) s = .next (
        let u := { s with rte := { s.rte with bypassAsked := SMap.del s.rte.bypassAsked dir }, opt := { s.opt with nextPath := (s.opt.nextPath + 1) % 65536 } }
        pathSend (holdPath u p) p (alongDir u p.origin p.dir 1) 0x30 0 0))
  ∧ (∀ (m : PathMsg) (p : Path) (s : State), 
      s.plat.running = true → held s = false → p = askedPath s m → reserveOk s m = true → pathOf s m.origin m.id = none → slotsFree s p = true → 
      exec (.pathReserve m) s = .next (if p.role = 2 then pathSend (holdPath s p) p p.origin 0x31 0 0 else pathSend (holdPath s p) p (alongDir (holdPath s p) (ownCoord (holdPath s p)) p.dir 1) 0x30 0 0))
  ∧ (∀ (m : PathMsg) (p : Path) (s : State), 
      pathOf s m.origin m.id = some p → p.role = 0 → p.st = 0 → held s = false → timReady s = true → 
      exec (.pathReserved m) s = .next (pathSendAll (armPath (setPath s { p with st := 1, at_ := pathInstant s }) { p with st := 1, at_ := pathInstant s } (pathInstant s)) { p with st := 1, at_ := pathInstant s } 0x33 (pathInstant s)))
  ∧ (∀ (m : PathMsg) (p : Path) (s : State), pathOf s m.origin m.id = some p → p.role = 0 → p.st < 2 → 
      exec (.pathDeny m) s = .next (cancelPath s p))
  ∧ (∀ (m : PathMsg) (p : Path) (s : State), 
      s.plat.running = true → pathOf s m.origin m.id = some p → p.role ≠ 0 → p.st = 0 → held s = false → timReady s = true → s.clock + 100 * usUnit ≤ instant m.sec m.ns → 
      exec (.pathArm m) s = .next (
        let q := { p with st := 1, at_ := instant m.sec m.ns }
        pathSend (armPath (setPath s q) q (instant m.sec m.ns)) q q.origin 0x34 0 (instant m.sec m.ns)))
  ∧ (∀ (m : PathMsg) (sender : BitVec 24) (p : Path) (s : State), 
      pathOf s m.origin m.id = some p → p.role = 0 → p.st = 1 → p.answered.contains sender.toNat = false → s.clock + 200 * usUnit ≤ p.at_ → 
      exec (.pathArmed m sender) s = .next (setPath s { p with answered := p.answered ++ [sender.toNat], st := if hopsAlong s p.origin p.target p.dir ≤ (p.answered ++ [sender.toNat]).length then 2 else 1 }))
  ∧ (∀ (pid : BitVec 16) (p : Path) (s : State), 
      pathOf s (ownCoord s) pid.toNat = some p → p.role = 0 → p.st = 1 → p.at_ ≤ s.clock + 200 * usUnit → 
      exec (.pathArmDeadline pid) s = .next (cancelPath s p))
  ∧ (∀ (m : PathMsg) (p : Path) (s : State), pathOf s m.origin m.id = some p → p.role ≠ 0 → p.st < 2 → 
      exec (.pathCancel m) s = .next (dropPath s p))
  ∧ (∀ (origin : BitVec 24) (pid : BitVec 16) (p : Path) (s : State), 
      pathOf s origin.toNat pid.toNat = some p → p.st = 0 → p.expiry ≤ s.clock → 
      exec (.pathReserveExpiry origin pid) s = .next (if p.role = 0 then cancelPath s p else dropPath s p))

/-- A cross-connect changes, an express path starts, is released and given back -/
def Obligations.ExpressPathsAreUsedAndReleased : Prop :=
  (∀ (tile : Fin 64) (slot : Fin 32) (a : XcArm) (s : State), 
      s.opt.arms.find? (fun a => a.tile == tile.val && a.slot == slot.val) = some a → a.at_ ≤ s.clock → a.mode = 2 → 
      ∃ t, exec (.crossConnectChange tile slot) s = .next t ∧ let l := tile.val * 32 + slot.val; let s1 := { s with opt := { s.opt with arms := dropFirst (fun x => x == a) s.opt.arms } }; let s2 := wfs (unarmSlot tile s1 slot) (Reg.OPT_XC tile slot) [(F.OPT_XC_MODE, 2), (F.OPT_XC_OUT_FIBRE, a.fibre), (F.OPT_XC_PATH_ID, 0)]; let s4 := laneDark (optEvent (bump64 s2 (Reg.OPT_XC_CHANGES tile) 1) tile F.OPT_EVT_XC_DONE (optBody tile slot 0xFF)) l; let s5 := if (laneOf s4 l).swap.any (fun w => w.1 == a.at_) then planSwap (setSwap s4 l none) l else s4; t = (match pathOf s5 a.origin a.id with | none => s5 | some p => pathChanged s5 p 2))
  ∧ (∀ (origin : BitVec 24) (pid : BitVec 16) (p : Path) (s : State), 
      pathOf s origin.toNat pid.toNat = some p → p.role ≠ 1 → p.st = 2 → p.started = false → p.at_ + 600 * nsUnit ≤ s.clock → s.opt.arms.any (fun a => a.origin == p.origin && a.id == p.id) = false → 
      exec (.pathLaneStart origin pid) s = .next (
        let u := setPath s { p with started := true }
        let w := { u with rte := { u.rte with expressPorts := u.rte.expressPorts ++ [expressPort s p] }, opt := { u.opt with fullLevel := SMap.del u.opt.fullLevel (pathFirst s p / 8) } }
        (List.range p.w).foldl (fun x i => wf (laneStart (laneStart x (pathFirst s p + i) false) (pathFirst s p + i) true) (Reg.OPT_LANE_STATUS (pathFirst s p / 32) ((pathFirst s p + i) % 32)) F.OPT_LANE_STATUS_EXPRESS 1) (fibreSafe w (pathFirst s p / 32) (pathFirst s p / 8 % 4) 0)))
  ∧ (∀ (dir : Fin 6) (s : State), 100 ≤ SMap.get (fun _ => 0) s.rte.lowRun dir → 
      exec (.bypassRelease dir) s = .next ({ s with opt := { s.opt with paths := s.opt.paths.map (fun p => if p.role = 0 ∧ p.dir = dir.val ∧ p.st = 2 ∧ p.started then { p with st := 3 } else p) } }))
  ∧ (∀ (pid : BitVec 16) (p : Path) (s : State), 
      pathOf s (ownCoord s) pid.toNat = some p → p.role = 0 → p.st = 3 → portEmpty s (2048 + pathFirst s p) = true → timReady s = true → 
      exec (.pathReleaseStart pid) s = .next (pathSendAll (armBlock (setPath s { p with st := 4, at_ := pathInstant s }) { p with st := 4, at_ := pathInstant s } (pathInstant s)) { p with st := 4, at_ := pathInstant s } 0x36 (pathInstant s)))
  ∧ (∀ (m : PathMsg) (p : Path) (s : State), 
      pathOf s m.origin m.id = some p → p.role ≠ 0 → p.st = 2 → mayArm s (instant m.sec m.ns) = true → 
      exec (.pathRelease m) s = .next (pathChanged (armBlock (setPath s { p with st := 4, at_ := instant m.sec m.ns }) { p with st := 4, at_ := instant m.sec m.ns } (instant m.sec m.ns)) { p with st := 4, at_ := instant m.sec m.ns } 2))

/-- Fibre start-up, eye safety and the Sirocco runs have their effect -/
def Obligations.FibresAndSirocco : Prop :=
  (∀ (t : Fin 64) (f : Fin 4) (peer : Bool) (s : State), tilePowered s t = true → fibreSt s t f = 0 → peer = true → 
      exec (.fibreProbe t f peer) s = .next (setFibre s t f 1))
  ∧ (∀ (t : Fin 64) (f : Fin 4) (power : BitVec 16) (s : State), fibreSt s t f = 1 → 
      exec (.peerPilotSeen t f power) s = .next (showPower (setFibre s t f 2) t f power))
  ∧ (∀ (t : Fin 64) (f : Fin 4) (s : State), fibreSt s t f = 1 → 
      exec (.probeTimeout t f) s = .next (fibreSafe s t f probeWait))
  ∧ (∀ (t : Fin 64) (f : Fin 4) (s : State), fibreSt s t f = 2 → 
      exec (.peerPilotLost t f) s = .next (fibreSafe s t f probeWait))
  ∧ (∀ (t : Fin 64) (f : Fin 4) (power : BitVec 16) (s : State), 
      fibreSt s t f = 2 → SMap.find s.opt.fullLevel (t.val * 4 + f.val) = none → 
      exec (.holdDone t f power) s = .next (
        let u := showPower (setFibre s t f 3) t f power
        fibreLinks { u with opt := { u.opt with fullLevel := SMap.ins u.opt.fullLevel (t.val * 4 + f.val) power.toInt } } t f))
  ∧ (∀ (t : Fin 64) (f : Fin 4) (power : BitVec 16) (s : State), 
      fibreSt s t f = 3 → power.toInt < (SMap.find s.opt.fullLevel (t.val * 4 + f.val)).getD 0 - 1000 → 
      exec (.lossOfPilot t f power) s = .next (
        let u := (fibreLanes t f).foldl laneUnready (showPower (fibreSafe s t f probeWait) t f power)
        optEvent (bump64 (if bypassTile u t then eyeBlock u t f else u) (Reg.OPT_EYE_EVENTS t) 1) t F.OPT_EVT_EYE_SAFE (optBody t 0xFF 0xFF)))
  ∧ (∀ (t : Fin 64) (v : Word) (s : State), 
      s.plat.running = true → tileFitted s.otp.variant t = true → held s = false → keyOk v = true → wbit v 0 = true → SMap.find s.opt.runs t = none → sirStatus s t = none → 
      exec (.siroccoStart t v) s = .next (sirRun s t))
  ∧ (∀ (t : Fin 64) (v : Word) (s : State), 
      s.plat.running = true → tileFitted s.otp.variant t = true → held s = false → keyOk v = true → wbit v 1 = true → 
      exec (.siroccoAbort t v) s = .next (sirEnd (sirPartial s t) t 1))
  ∧ (∀ (t : Fin 64) (vals : List Word) (r : SirRun) (s : State), SMap.find s.opt.runs t = some r → r.mode = 0 → 
      exec (.siroccoRunDone t vals) s = .next (sirEnd (wf ((List.range (r.last - r.first)).foldl (fun u i => wn u (Reg.OPT_SIR_RESULT t (4 + i)) (getAt 0 vals i).toNat) s) (Reg.OPT_SIR_STATUS t) F.OPT_SIR_STATUS_SHOTS (min 65535 r.shots)) t 0))

/-- Control and scalar microcode instructions have their effect -/
def Obligations.MicrocodeControlAndScalars : Prop :=
  (∀ (g : Fin 4096) (sl : Bool) (c : TaskCtx) (i : TaskInfo) (s : State), Issues s g (uwMk 0x00 0 0 0 0 0 0) sl c i → exec (.ucodeNop g) s = .next (goesOn s g sl (stepPc c)))
  ∧ (∀ (g : Fin 4096) (imm : Word) (sl : Bool) (c : TaskCtx) (i : TaskInfo) (s : State), Issues s g (uwMk 0x01 0 0 0 0 0 imm.toNat) sl c i → imm.toNat % 256 = 0 → 
      exec (.endTask g imm) s = .next (goesOn s g sl ({ c with ending := true })))
  ∧ (∀ (g : Fin 4096) (a : Fin 16) (m : Fin 64) (imm : Word) (sl : Bool) (c : TaskCtx) (i : TaskInfo) (s : State), Issues s g (uwMk 0x02 0 a 0 m 0 imm.toNat) sl c i → m = 2 → sReg c a ≠ 0 → 
      exec (.br g a m imm) s = .next (goesOn s g sl (branchTo c imm.toNat)))
  ∧ (∀ (g : Fin 4096) (d : Fin 16) (imm : Word) (sl : Bool) (c : TaskCtx) (i : TaskInfo) (s : State), 
      Issues s g (uwMk 0x03 d 0 0 0 0 imm.toNat) sl c i → sReg (setS c d (sReg c d + (2 ^ 64 - 1))) d ≠ 0 → 
      exec (.loop g d imm) s = .next (goesOn s g sl (branchTo (setS c d (sReg c d + (2 ^ 64 - 1))) imm.toNat)))
  ∧ (∀ (g : Fin 4096) (imm : Word) (sl : Bool) (c : TaskCtx) (i : TaskInfo) (s : State), Issues s g (uwMk 0x04 0 0 0 0 0 imm.toNat) sl c i → c.stack.length < 8 → 
      exec (.call g imm) s = .next (goesOn s g sl (branchTo { c with stack := ((c.pc + 1) % 2048) :: c.stack } imm.toNat)))
  ∧ (∀ (g : Fin 4096) (sl : Bool) (c : TaskCtx) (i : TaskInfo) (p : Nat) (rest : List Nat) (s : State), Issues s g (uwMk 0x05 0 0 0 0 0 0) sl c i → c.stack = p :: rest → 
      exec (.ret g) s = .next (goesOn s g sl ({ c with pc := p, stack := rest })))
  ∧ (∀ (g : Fin 4096) (imm : Word) (sl : Bool) (c : TaskCtx) (i : TaskInfo) (s : State), Issues s g (uwMk 0x06 0 0 0 0 0 imm.toNat) sl c i → exec (.fault g imm) s = .next (faultTask s g sl c 5 (imm.toNat % 256)))
  ∧ (∀ (g : Fin 4096) (sl : Bool) (c : TaskCtx) (i : TaskInfo) (s : State), Issues s g (uwMk 0x07 0 0 0 0 0 0) sl c i → c.loads = [] → 
      exec (.sync g) s = .next (goesOn s g sl (stepPc c)))
  ∧ (∀ (g : Fin 4096) (d : Fin 16) (sl : Bool) (c : TaskCtx) (i : TaskInfo) (s : State), Issues s g (uwMk 0x14 d 0 0 0 0 0) sl c i → 
      exec (.nxt g d) s = .next (goesOn s g sl (stepPc (setS { c with input := c.input + 1, pos := 0 } d (c.task.inputs.length - (c.input + 1))))))
  ∧ (∀ (g : Fin 4096) (a : Fin 16) (sl : Bool) (c : TaskCtx) (i : TaskInfo) (s : State), Issues s g (uwMk 0x17 0 a 0 0 0 0) sl c i → 
      exec (.osel g a) s = .next (goesOn s g sl (stepPc { c with osel := sReg c a })))
  ∧ (∀ (g : Fin 4096) (d : Fin 16) (imm : Word) (sl : Bool) (c : TaskCtx) (i : TaskInfo) (s : State), Issues s g (uwMk 0x08 d 0 0 0 0 imm.toNat) sl c i → 
      exec (.sli g d imm) s = .next (goesOn s g sl (stepPc (setS c d (sext imm.toNat)))))
  ∧ (∀ (g : Fin 4096) (d : Fin 16) (imm : Word) (sl : Bool) (c : TaskCtx) (i : TaskInfo) (s : State), Issues s g (uwMk 0x09 d 0 0 0 0 imm.toNat) sl c i → 
      exec (.slui g d imm) s = .next (goesOn s g sl (stepPc (setS c d (imm.toNat * 2 ^ 32 + sReg c d % 2 ^ 32)))))
  ∧ (∀ (g : Fin 4096) (d : Fin 16) (a : Fin 16) (b : Fin 16) (imm : Word) (sl : Bool) (c : TaskCtx) (i : TaskInfo) (s : State), Issues s g (uwMk 0x0A d a b 0 0 imm.toNat) sl c i → 
      exec (.sadd g d a b imm) s = .next (goesOn s g sl (stepPc (setS c d (sReg c a + sReg c b + sext imm.toNat)))))
  ∧ (∀ (g : Fin 4096) (d : Fin 16) (a : Fin 16) (b : Fin 16) (sl : Bool) (c : TaskCtx) (i : TaskInfo) (s : State), Issues s g (uwMk 0x0B d a b 0 0 0) sl c i → 
      exec (.ssub g d a b) s = .next (goesOn s g sl (stepPc (setS c d (sReg c a + 2 ^ 64 - sReg c b)))))
  ∧ (∀ (g : Fin 4096) (d : Fin 16) (a : Fin 16) (b : Fin 16) (sl : Bool) (c : TaskCtx) (i : TaskInfo) (s : State), Issues s g (uwMk 0x0C d a b 0 0 0) sl c i → 
      exec (.smul g d a b) s = .next (goesOn s g sl (stepPc (setS c d (sReg c a * sReg c b)))))
  ∧ (∀ (g : Fin 4096) (d : Fin 16) (a : Fin 16) (b : Fin 16) (m : Fin 64) (imm : Word) (sl : Bool) (c : TaskCtx) (i : TaskInfo) (s : State), Issues s g (uwMk 0x0D d a b m 0 imm.toNat) sl c i → m = 3 → 
      exec (.slog g d a b m imm) s = .next (goesOn s g sl (stepPc (setS c d (sReg c a * 2 ^ (imm.toNat % 64) % 2 ^ 64)))))
  ∧ (∀ (g : Fin 4096) (d : Fin 16) (imm : Word) (sl : Bool) (c : TaskCtx) (i : TaskInfo) (s : State), Issues s g (uwMk 0x0E d 0 0 0 0 imm.toNat) sl c i → 
      exec (.sprm g d imm) s = .next (goesOn s g sl (stepPc (setS c d (taskParam i c.task (imm.toNat % 16))))))
  ∧ (∀ (g : Fin 4096) (d : Fin 16) (a : Fin 16) (b : Fin 16) (m : Fin 64) (sl : Bool) (c : TaskCtx) (i : TaskInfo) (s : State), Issues s g (uwMk 0x0F d a b m 0 0) sl c i → m = 0 → 
      exec (.scmp g d a b m) s = .next (goesOn s g sl (stepPc (setS c d (if i64 (sReg c a) < i64 (sReg c b) then 2 ^ 64 - 1 else if i64 (sReg c a) = i64 (sReg c b) then 0 else 1)))))

/-- Accumulator, input and output microcode instructions have their effect -/
def Obligations.MicrocodeAccumulatorsAndOutput : Prop :=
  (∀ (g : Fin 4096) (m : Fin 64) (row : Fin 32) (imm : Word) (ev : AccEvent) (sl : Bool) (c : TaskCtx) (i : TaskInfo) (x : InSrc) (s : State), 
      Issues s g (uwMk 0x10 0 0 0 m row imm.toNat) sl c i → uwSpanOk row imm.toNat = true → bitAt imm.toNat 7 = false → ev = .fine → curInput c 0 = some x → 
      exec (.acc g m row imm ev) s = .next (showGroup (goesOn s g sl (stepPc { (List.range (imm.toNat % 32 + 1)).foldl (fun u j => accRow (if isResid x then 0 else accOp c imm.toNat) (srcVals s c.task i m x) (u.pos + 32 * j) (row + j) u) c with pos := c.pos + 32 * (imm.toNat % 32 + 1) }))))
  ∧ (∀ (g : Fin 4096) (a : Fin 16) (m : Fin 64) (row : Fin 32) (imm : Word) (upset : Bool) (sl : Bool) (c : TaskCtx) (i : TaskInfo) (s : State), 
      Issues s g (uwMk 0x11 0 a 0 m row imm.toNat) sl c i → uwSpanOk row imm.toNat = true → upset = false → 
      exec (.accv g a m row imm upset) s = .next (goesOn s g sl (stepPc (accRow (accOp c imm.toNat) ((vReg c a).map (fun w => accOf (if m.val % 2 = 1 then .fin (i32 w * 2 ^ 149) else xOfFp w))) 0 row c))))
  ∧ (∀ (g : Fin 4096) (row : Fin 32) (imm : Word) (sl : Bool) (c : TaskCtx) (i : TaskInfo) (s : State), Issues s g (uwMk 0x12 0 0 0 0 row imm.toNat) sl c i → uwSpanOk row imm.toNat = true → 
      exec (.aclr g row imm) s = .next (goesOn s g sl (stepPc { c with acc := SMap.drop (fun k => decide (row.val * 32 ≤ k ∧ k < (row.val + imm.toNat % 32 + 1) * 32)) c.acc })))
  ∧ (∀ (g : Fin 4096) (m : Fin 64) (row : Fin 32) (imm : Word) (sl : Bool) (c : TaskCtx) (i : TaskInfo) (s : State), 
      Issues s g (uwMk 0x13 0 0 0 m row imm.toNat) sl c i → uwSpanOk row imm.toNat = true → imm.toNat / 32 % 4 ≠ 3 → 
      exec (.outr g m row imm) s = .next (goesOn s g sl (stepPc (queueRows i false m imm.toNat ((List.range (imm.toNat % 32 + 1)).map (fun j => (List.range 32).map (fun l => accVal (accAt c (row + j) l)))) c))))
  ∧ (∀ (g : Fin 4096) (a : Fin 16) (m : Fin 64) (imm : Word) (sl : Bool) (c : TaskCtx) (i : TaskInfo) (s : State), 
      Issues s g (uwMk 0x16 0 a 0 m 0 imm.toNat) sl c i → imm.toNat / 32 % 4 ≠ 3 → 
      exec (.outv g a m imm) s = .next (goesOn s g sl (stepPc (queueRows i true m imm.toNat [(vReg c a).map xOfFp] c))))
  ∧ (∀ (g : Fin 4096) (d : Fin 16) (m : Fin 64) (sl : Bool) (c : TaskCtx) (i : TaskInfo) (x : InSrc) (s : State), Issues s g (uwMk 0x15 d 0 0 m 0 0) sl c i → m = 0 → curInput c 0 = some x → 
      exec (.inld g d m) s = .next (goesOn s g sl (stepPc { setV c d ((List.range 32).map (fun l => (((srcVals s c.task i 63 x).map (fun r => fpOfX (accVal r)))[c.pos + l]?).getD (Config.vecFree 0x15 (c.pos + l) 0))) with pos := c.pos + 32 })))

/-- Vector microcode instructions have their effect -/
def Obligations.MicrocodeVectors : Prop :=
  (∀ (g : Fin 4096) (d : Fin 16) (a : Fin 16) (b : Fin 16) (m : Fin 64) (sl : Bool) (c : TaskCtx) (i : TaskInfo) (s : State), Issues s g (uwMk 0x18 d a b m 0 0) sl c i → m = 0 → 
      exec (.vadd g d a b m) s = .next (goesOn s g sl (stepPc (setV c d (List.zipWith fpAdd (vReg c a) (vReg c b))))))
  ∧ (∀ (g : Fin 4096) (d : Fin 16) (a : Fin 16) (b : Fin 16) (m : Fin 64) (sl : Bool) (c : TaskCtx) (i : TaskInfo) (s : State), Issues s g (uwMk 0x19 d a b m 0 0) sl c i → m = 0 → 
      exec (.vsub g d a b m) s = .next (goesOn s g sl (stepPc (setV c d (List.zipWith fpSub (vReg c a) (vReg c b))))))
  ∧ (∀ (g : Fin 4096) (d : Fin 16) (a : Fin 16) (b : Fin 16) (m : Fin 64) (sl : Bool) (c : TaskCtx) (i : TaskInfo) (s : State), Issues s g (uwMk 0x1A d a b m 0 0) sl c i → m = 0 → 
      exec (.vmul g d a b m) s = .next (goesOn s g sl (stepPc (setV c d (List.zipWith fpMul (vReg c a) (vReg c b))))))
  ∧ (∀ (g : Fin 4096) (d : Fin 16) (a : Fin 16) (b : Fin 16) (m : Fin 64) (sl : Bool) (c : TaskCtx) (i : TaskInfo) (s : State), Issues s g (uwMk 0x1B d a b m 0 0) sl c i → m = 0 → 
      exec (.vfma g d a b m) s = .next (goesOn s g sl (stepPc (setV c d (((vReg c a).zip ((vReg c b).zip (vReg c d))).map (fun p => fpFma p.1 p.2.1 p.2.2))))))
  ∧ (∀ (g : Fin 4096) (d : Fin 16) (a : Fin 16) (b : Fin 16) (sl : Bool) (c : TaskCtx) (i : TaskInfo) (s : State), Issues s g (uwMk 0x1C d a b 0 0 0) sl c i → 
      exec (.vdiv g d a b) s = .next (goesOn s g sl (stepPc (setV c d (List.zipWith fpDiv (vReg c a) (vReg c b))))))
  ∧ (∀ (g : Fin 4096) (d : Fin 16) (a : Fin 16) (sl : Bool) (c : TaskCtx) (i : TaskInfo) (s : State), Issues s g (uwMk 0x1D d a 0 0 0 0) sl c i → 
      exec (.vsqrt g d a) s = .next (goesOn s g sl (stepPc (setV c d ((vReg c a).map fpSqrt)))))
  ∧ (∀ (g : Fin 4096) (d : Fin 16) (a : Fin 16) (b : Fin 16) (m : Fin 64) (sl : Bool) (c : TaskCtx) (i : TaskInfo) (s : State), Issues s g (uwMk 0x1E d a b m 0 0) sl c i → m = 1 → 
      exec (.vmxn g d a b m) s = .next (goesOn s g sl (stepPc (setV c d (List.zipWith (fun x y => if (i32 x < i32 y) = false then x else y) (vReg c a) (vReg c b))))))
  ∧ (∀ (g : Fin 4096) (d : Fin 16) (a : Fin 16) (b : Fin 16) (imm : Word) (sl : Bool) (c : TaskCtx) (i : TaskInfo) (s : State), Issues s g (uwMk 0x1F d a b 0 0 imm.toNat) sl c i → 
      exec (.vsel g d a b imm) s = .next (goesOn s g sl (stepPc (setV c d (((vReg c a).zip (vReg c b)).zipIdx.map (fun p => if bitAt (fReg c (imm.toNat % 4)) p.2 then p.1.1 else p.1.2))))))
  ∧ (∀ (g : Fin 4096) (d : Fin 16) (a : Fin 16) (b : Fin 16) (m : Fin 64) (sl : Bool) (c : TaskCtx) (i : TaskInfo) (s : State), Issues s g (uwMk 0x20 d a b m 0 0) sl c i → 
      exec (.vcmp g d a b m) s = .next (goesOn s g sl (stepPc (setFv c (d.val % 4) (((vReg c a).zip (vReg c b)).reverse.foldl (fun v p => v * 2 + b2n (laneCmp m p.1 p.2)) 0)))))
  ∧ (∀ (g : Fin 4096) (d : Fin 16) (a : Fin 16) (m : Fin 64) (sl : Bool) (c : TaskCtx) (i : TaskInfo) (s : State), Issues s g (uwMk 0x21 d a 0 m 0 0) sl c i → 
      exec (.vbcs g d a m) s = .next (goesOn s g sl (stepPc (setV c d (List.replicate 32 (sReg c a))))))
  ∧ (∀ (g : Fin 4096) (d : Fin 16) (a : Fin 16) (m : Fin 64) (sl : Bool) (c : TaskCtx) (i : TaskInfo) (s : State), Issues s g (uwMk 0x22 d a 0 m 0 0) sl c i → m = 2 → (vReg c a).any fpNan = false → 
      exec (.vred g d a m) s = .next (goesOn s g sl (stepPc (setS c d (bestLane false (vReg c a))))))
  ∧ (∀ (g : Fin 4096) (d : Fin 16) (a : Fin 16) (m : Fin 64) (sl : Bool) (c : TaskCtx) (i : TaskInfo) (s : State), Issues s g (uwMk 0x23 d a 0 m 0 0) sl c i → m = 1 → 
      exec (.vcvt g d a m) s = .next (goesOn s g sl (stepPc (setV c d ((vReg c a).map fpOfI32)))))
  ∧ (∀ (g : Fin 4096) (d : Fin 16) (a : Fin 16) (sl : Bool) (c : TaskCtx) (i : TaskInfo) (s : State), Issues s g (uwMk 0x24 d a 0 0 0 0) sl c i → 
      exec (.vidx g d a) s = .next (goesOn s g sl (stepPc (setV c d ((List.range 32).map (fun l => sReg c a + l))))))
  ∧ (∀ (g : Fin 4096) (d : Fin 16) (a : Fin 16) (b : Fin 16) (m : Fin 64) (imm : Word) (sl : Bool) (c : TaskCtx) (i : TaskInfo) (s : State), Issues s g (uwMk 0x25 d a b m 0 imm.toNat) sl c i → m = 2 → 
      exec (.vlog g d a b m imm) s = .next (goesOn s g sl (stepPc (setV c d (List.zipWith Nat.xor (vReg c a) (vReg c b))))))
  ∧ (∀ (g : Fin 4096) (d : Fin 16) (a : Fin 16) (sl : Bool) (c : TaskCtx) (i : TaskInfo) (s : State), Issues s g (uwMk 0x26 d a 0 0 0 0) sl c i → 
      exec (.vrng g d a) s = .next (goesOn s g sl (stepPc (setV c d ((List.range 32).map (fun l => drawOf i (sReg c a + l)))))))
  ∧ (∀ (g : Fin 4096) (d : Fin 16) (a : Fin 16) (b : Fin 16) (sl : Bool) (c : TaskCtx) (i : TaskInfo) (s : State), Issues s g (uwMk 0x27 d a b 0 0 0) sl c i → (vReg c a).any fpNan = false → 
      exec (.vsrt g d a b) s = .next (goesOn s g sl (stepPc (setV (setV c d ((((vReg c a).zip (vReg c b)).foldl (fun r p => insertDesc p r) []).map (·.1))) ((d.val + 1) % 16) ((((vReg c a).zip (vReg c b)).foldl (fun r p => insertDesc p r) []).map (·.2))))))
  ∧ (∀ (g : Fin 4096) (d : Fin 16) (a : Fin 16) (m : Fin 64) (sl : Bool) (c : TaskCtx) (i : TaskInfo) (s : State), Issues s g (uwMk 0x2F d a 0 m 0 0) sl c i → m = 0 → 
      exec (.vmov g d a m) s = .next (goesOn s g sl (stepPc (setV c d (vReg c a)))))

/-- Scratch and Oasis microcode instructions have their effect -/
def Obligations.MicrocodeScratchAndOasis : Prop :=
  (∀ (g : Fin 4096) (d : Fin 16) (a : Fin 16) (imm : Word) (sl : Bool) (c : TaskCtx) (i : TaskInfo) (s : State), 
      Issues s g (uwMk 0x28 d a 0 0 0 imm.toNat) sl c i → scratchOk (sReg c a + imm.toNat) 128 = true → 
      exec (.lds g d a imm) s = .next (goesOn s g sl (stepPc (setV c d ((List.range 32).map (fun l => beNat (scratchRead c (sReg c a + imm.toNat + 4 * l) 4)))))))
  ∧ (∀ (g : Fin 4096) (a : Fin 16) (b : Fin 16) (imm : Word) (sl : Bool) (c : TaskCtx) (i : TaskInfo) (s : State), 
      Issues s g (uwMk 0x29 0 a b 0 0 imm.toNat) sl c i → scratchOk (sReg c b + imm.toNat) 128 = true → 
      exec (.sts g a b imm) s = .next (goesOn s g sl (stepPc (scratchWrite c (sReg c b + imm.toNat) ((vReg c a).flatMap (natBe 4))))))
  ∧ (∀ (g : Fin 4096) (a : Fin 16) (row : Fin 32) (imm : Word) (sl : Bool) (c : TaskCtx) (i : TaskInfo) (s : State), 
      Issues s g (uwMk 0x2A 0 a 0 0 row imm.toNat) sl c i → uwSpanOk row imm.toNat = true → scratchOk (sReg c a) (1280 * (imm.toNat % 32 + 1)) = true → 
      exec (.asv g a row imm) s = .next (goesOn s g sl (stepPc (scratchWrite c (sReg c a) ((List.range (imm.toNat % 32 + 1)).flatMap (fun j => (List.range 32).flatMap (fun l => accBytes (accAt c (row + j) l))))))))
  ∧ (∀ (g : Fin 4096) (a : Fin 16) (m : Fin 64) (row : Fin 32) (imm : Word) (upset : Bool) (sl : Bool) (c : TaskCtx) (i : TaskInfo) (s : State), 
      Issues s g (uwMk 0x2B 0 a 0 m row imm.toNat) sl c i → uwSpanOk row imm.toNat = true → scratchOk (sReg c a) (1280 * (imm.toNat % 32 + 1)) = true → m = 0 → 
      exec (.ars g a m row imm upset) s = .next (goesOn s g sl (stepPc ((List.range (imm.toNat % 32 + 1)).foldl (fun u j => (List.range 32).foldl (fun w l => setAcc w (row + j) l (accOfBytes (scratchRead c (sReg c a + 1280 * j + 40 * l) 40))) u) c))))
  ∧ (∀ (g : Fin 4096) (d : Fin 16) (a : Fin 16) (b : Fin 16) (sl : Bool) (c : TaskCtx) (i : TaskInfo) (s : State), 
      Issues s g (uwMk 0x2C d a b 0 0 0) sl c i → c.loads.length < 8 → sReg c d ≤ 4096 → scratchOk (sReg c b) (sReg c d) = true → outsideSpace s i.part (sReg c a) (sReg c d) = false → 
      exec (.old g d a b) s = .next (goesOn s g sl (stepPc { c with loads := c.loads ++ [(sReg c b, sReg c a, sReg c d)] })))
  ∧ (∀ (g : Fin 4096) (d : Fin 16) (a : Fin 16) (b : Fin 16) (sl : Bool) (c : TaskCtx) (i : TaskInfo) (s : State), 
      Issues s g (uwMk 0x2D d a b 0 0 0) sl c i → c.stores.length < 16 → sReg c d ≤ 4096 → scratchOk (sReg c b) (sReg c d) = true → outsideSpace s i.part (sReg c a) (sReg c d) = false → 
      exec (.ost g d a b) s = .next (goesOn s g sl (stepPc { c with stores := c.stores ++ [(sReg c b, sReg c a, sReg c d)] })))
  ∧ (∀ (g : Fin 4096) (a : Fin 16) (b : Fin 16) (sl : Bool) (c : TaskCtx) (i : TaskInfo) (s : State), 
      Issues s g (uwMk 0x2E 0 a b 0 0 0) sl c i → (hstLanes (sReg c b) (vReg c a) c).isSome = true → 
      ∃ t, exec (.hst g a b) s = .next t ∧ ∃ u, hstLanes (sReg c b) (vReg c a) c = some u ∧ t = goesOn s g sl (stepPc u))
  ∧ (∀ (g : Fin 4096) (bad : Bool) (sl : Bool) (c : TaskCtx) (s : State), workStopped s = false → issuingSlot (engOf s g) = some sl → slotOf (engOf s g) sl = some c → c.loads ≠ [] → bad = false → 
      exec (.oldComplete g bad) s = .next (goesOn s g sl (loadDone s (engPart s g) c)))

/-- Tasks are generated, claimed and committed, and engines enabled, disabled and zeroed -/
def Obligations.EnginesRunTasks : Prop :=
  (∀ (d : Fin 8) (q : Fin 2048) (r : KRun) (s : State), 
      s.brc.runs.find? (fun r => r.fq == flatQ d q && decide (r.next < r.total)) = some r → 
      exec (.taskGenerate d q) s = .next (generate s r))
  ∧ (∀ (g : Fin 4096) (t : Task) (u s : State), 
      mayClaim s g = true → u = (List.range 32).foldl (fun w k => sweepTq w (g.val / 512 * 32 + k)) s → claimOf u g = some (g.val / 16, t) → claimedBefore u g (g.val / 16) = false → 
      exec (.engineClaim g) s = .next (takeTask u g (g.val / 16) t))
  ∧ (∀ (g : Fin 4096) (r : Nat) (t : Task) (u s : State), 
      mayClaim s g = true → u = (List.range 32).foldl (fun w k => sweepTq w (g.val / 512 * 32 + k)) s → claimOf u g = some (r, t) → claimedBefore u g r = false → r ≠ g.val / 16 → 
      exec (.engineClaim g) s = .next (bump64 (takeTask u g r t) (Reg.BRC_STEALS (g.val / 512)) 1))
  ∧ (∀ (g : Fin 4096) (c : TaskCtx) (fq : Nat) (no : Nat) (r : KRun) (s : State), 
      workStopped s = false → (engOf s g).slot0 = some c → c.ending = true → c.task.owner = .kernel fq no → runOf (bump64 (setEng s g (putSlot (engOf s g) false none)) (Reg.BRC_TASKS (g.val / 512)) 1) fq no = some r → 
      exec (.taskCommit g) s = .next (showGroup (pumpAll (settleDrains (settleEng (commitKernel (bump64 (setEng s g (putSlot (engOf s g) false none)) (Reg.BRC_TASKS (g.val / 512)) 1) r c) g)))))
  ∧ (∀ (d : Fin 8) (v : Word) (s : State), 
      duneUp s d = true → keyOk v = true → wbit v 23 = true → wbit v 22 = false → held s = false → SMap.find s.brc.dis d = none → (disScope s d v).any (fun g => engSt s g == engQuarantined) = false → 
      exec (.engineEnable d v) s = .next (settle s (settleDrains ((disScope s d v).foldl enableEng (disResult s d 1)))))
  ∧ (∀ (d : Fin 8) (v : Word) (s : State), 
      duneUp s d = true → keyOk v = true → wbit v 23 = false → wbit v 22 = true → wbit v 21 = false → held s = false → SMap.find s.brc.dis d = none → 
      exec (.engineDisableDrain d v) s = .next (disableEngines (disResult s d 1) d (disScope s d v) false (disScopeCode v) (bitsAt v.toNat 0 9)))
  ∧ (∀ (d : Fin 8) (v : Word) (s : State), 
      duneUp s d = true → keyOk v = true → wbit v 23 = false → wbit v 22 = true → wbit v 21 = true → held s = false → SMap.find s.brc.dis d = none → 
      exec (.engineDisableImmediate d v) s = .next (disableEngines (disResult s d 1) d (disScope s d v) true (disScopeCode v) (bitsAt v.toNat 0 9)))
  ∧ (∀ (g : Fin 4096) (s : State), 
      engSt s g = engQuiesced → (engOf s g).heldEnable = false → s.plat.quarantine.contains g.val = false → 
      exec (.engineZeroed g) s = .next (settle s (settleDrains (setEngSt (setEng s g ⟨none, none, false⟩) g engDisabled))))
  ∧ (∀ (d : Fin 8) (s : State), 
      exec (.brcFault2Read d) s = .next ({ s with brc := { s.brc with captured := SMap.del s.brc.captured d.val } }))

/-- Library and owner kernels have their effect -/
def Obligations.LibraryKernelsRun : Prop :=
  (∀ (d : Fin 8) (q : Fin 2048) (r : KRun) (s : State), wholeRun s d q (fun o => o == 0x40) = some r → 
      exec (.sum d q) s = .next (finishWhole ((List.range (runSegs r)).foldl elementSeg (s, r)).1 ((List.range (runSegs r)).foldl elementSeg (s, r)).2))
  ∧ (∀ (d : Fin 8) (q : Fin 2048) (r : KRun) (s : State), wholeRun s d q (fun o => o == 0x41) = some r → 
      exec (.max d q) s = .next (finishWhole ((List.range (runSegs r)).foldl elementSeg (s, r)).1 ((List.range (runSegs r)).foldl elementSeg (s, r)).2))
  ∧ (∀ (d : Fin 8) (q : Fin 2048) (r : KRun) (s : State), wholeRun s d q (fun o => o == 0x42) = some r → 
      exec (.min d q) s = .next (finishWhole ((List.range (runSegs r)).foldl elementSeg (s, r)).1 ((List.range (runSegs r)).foldl elementSeg (s, r)).2))
  ∧ (∀ (d : Fin 8) (q : Fin 2048) (r : KRun) (s : State), wholeRun s d q (fun o => o == 0x43) = some r → 
      exec (.mean d q) s = .next (finishWhole ((List.range (runSegs r)).foldl elementSeg (s, r)).1 ((List.range (runSegs r)).foldl elementSeg (s, r)).2))
  ∧ (∀ (d : Fin 8) (q : Fin 2048) (r : KRun) (s : State), wholeRun s d q (fun o => o == 0x4A) = some r → 
      exec (.quant d q) s = .next (finishWhole ((List.range (runSegs r)).foldl elementSeg (s, r)).1 ((List.range (runSegs r)).foldl elementSeg (s, r)).2))
  ∧ (∀ (d : Fin 8) (q : Fin 2048) (r : KRun) (s : State), 
      wholeRun s d q (fun o => o == 0x44) = some r → sparseFault s r (runInfo s r) = none → 
      exec (.sparseMerge d q) s = .next (
        let m := mergePairs (dCount r.desc) ((List.range (kpCount r.params)).map (fun j => readPairs s (runInfo s r).part (kpIn r.params + j * kpStride r.params) (runInfo s r).fmtIn)).flatten
        let o := writePairs (runInfo s r) ((m.1.take (kpPrm r.params 0)).map (fun e => (e.1, accVal e.2)))
        finishWhole (oasisWrite (dirtyWork s r) (runInfo s r).part (runInfo s r).dst (natBe 4 m.1.length ++ o.data)) (countSegment r o false m.2 false)))
  ∧ (∀ (d : Fin 8) (q : Fin 2048) (r : KRun) (s : State), wholeRun s d q (fun o => o == 0x45) = some r → 
      exec (.topk d q) s = .next (
        let i := runInfo s r
        let k := kpPrm r.params 0
        let (accs, ovf) := allAccs s r
        let xs := accs.map accVal
        let top := ((xs.zipIdx.map (fun p => (p.2, p.1))).foldl (fun l p => insertTop (kpPrm r.params 1 == 1) p l) []).take k
        let o := if xs.contains .nan then Rounded.none else writePairs i top
        let s1 := dirtyWork s r
        let bytes := o.data ++ (outFill s r (k * pairBytes i.fmtOut)).drop o.data.length
        finishWhole (oasisWrite s1 i.part i.dst bytes) (countSegment r o false ovf false)))
  ∧ (∀ (d : Fin 8) (q : Fin 2048) (r : KRun) (s : State), wholeRun s d q (fun o => o == 0x46) = some r → 
      exec (.hist d q) s = .next (
        let i := runInfo s r
        let bins := kpPrm r.params 0
        let lower := kpPrm r.params 1
        let upper := kpPrm r.params 2
        let sc := fpDiv (fpOfI32 bins) (fpSub upper lower)
        let (accs, ovf) := allAccs s r
        let where_ := accs.map (fun a => histBin bins lower upper sc (fpOfX (accVal a)))
        let bytes := (List.range (bins + 3)).flatMap (fun b => natBe 4 ((where_.filter (· == b)).length % 2 ^ 32))
        finishWhole (oasisWrite (dirtyWork s r) i.part i.dst bytes) (countSegment r Rounded.none false ovf false)))
  ∧ (∀ (d : Fin 8) (q : Fin 2048) (r : KRun) (s : State), wholeRun s d q (fun o => o == 0x47) = some r → 
      exec (.norm2 d q) s = .next (
        let i := runInfo s r
        let (accs, ovf) := allAccs s r
        let squares := accs.map (fun a => let w := fpOfX (accVal a); xOfFp (fpMul w w))
        let sum := squares.foldl (fun (a : Acc × Nat) x => let b := accAdd 0 a.1 x; (b.1, a.2 + b2n b.2)) (accEmpty, 0)
        let w := writeEl 0 0 none (divided 1 0 (accVal sum.1))
        let norm := fpSqrt w.code
        let clip := kpPrm r.params 0
        let scale := if clip = 0 then 0x3F800000 else fpPick true 0x3F800000 (fpDiv clip norm)
        let o := { Rounded.none with sat := b2n w.sat, nan := w.nan }
        finishWhole (oasisWrite (dirtyWork s r) i.part i.dst (natBe 4 w.code ++ natBe 4 norm ++ natBe 4 scale)) (countSegment r o false (ovf + sum.2) false)))
  ∧ (∀ (d : Fin 8) (q : Fin 2048) (r : KRun) (s : State), wholeRun s d q (fun o => o == 0x48) = some r → 
      exec (.moeDispatch d q) s = .next (
        let i := runInfo s r
        let tokens := dCount r.desc
        let (width, k, experts, cap) := (kpPrm r.params 0, kpPrm r.params 1, kpPrm r.params 2, kpPrm r.params 3)
        let nums := (List.range (tokens * k)).map (fun n => beNat (oasisRead s i.part (i.aux + 4 * n) 4))
        let (slots, fill, dropped) := assignSlots experts cap nums [] 0
        let rowIn := tensorBytes i.fmtIn width
        let rowOut := tensorBytes i.fmtOut width
        let s1 := dirtyWork s r
        let bytes := kernelRowBytes r.desc r.params
        let s2 := oasisWrite s1 i.part i.dst (outFill s r (kernelOutBytes r.desc r.params))
        let p := slots.zipIdx.foldl (fun (p : State × KRun) e => match e.1 with
          | none => p
          | some slot =>
            let t := e.2 / max 1 k
            let o := moveRow p.1 i (kpIn r.params + t * rowIn) width (t * width)
            (rowAnnex (oasisWrite p.1 i.part (i.dst + slot * rowOut) o.data) i bytes width slot o, countSegment p.2 o false 0 false)) (s2, r)
        let tail := slots.flatMap (fun e => natBe 4 (e.getD 0xFFFFFFFF)) ++ (List.range experts).flatMap (fun e => natBe 4 (SMap.get (fun _ => 0) fill e)) ++ natBe 4 dropped
        let pad := List.replicate (if polEscalate i.policy then (bytes + 63) / 64 * 64 - bytes else 0) 0
        finishWhole (oasisWrite p.1 i.part (i.dst + experts * cap * rowOut) (tail ++ pad)) p.2))
  ∧ (∀ (d : Fin 8) (q : Fin 2048) (r : KRun) (s : State), wholeRun s d q (fun o => o == 0x49) = some r → 
      exec (.moeCombine d q) s = .next (
        let i := runInfo s r
        let tokens := dCount r.desc
        let (width, k, rows) := (kpPrm r.params 0, kpPrm r.params 1, kpPrm r.params 2 * kpPrm r.params 3)
        let bytes := kernelRowBytes r.desc r.params
        let word := fun n => beNat (oasisRead s i.part (i.aux + 4 * n) 4)
        let rowIn := tensorBytes i.fmtIn width
        let rowOut := tensorBytes i.fmtOut width
        let p := (List.range tokens).foldl (fun (p : State × KRun) t =>
          let kept := ((List.range k).map (fun a => (word (t * k + a), word (tokens * k + t * k + a)))).filter (fun e => decide (e.1 < rows))
          let sum := kept.foldl (fun (a : List Acc × Nat) e =>
            let xs := decodeTensor i.fmtIn width (oasisRead s i.part (kpIn r.params + e.1 * rowIn) rowIn)
            let b := accAddAll 0 a.1 (xs.map (fun x => xOfFp (fpMul e.2 (fpOfX x))))
            (b.1, a.2 + b.2)) (List.replicate width accEmpty, 0)
          let xs := sum.1.map accVal
          let o := (List.range ((width + 511) / 512)).foldl (fun o j =>
            o.join (roundFor i i.fmtOut (t * width + 512 * j) [] ((xs.drop (512 * j)).take 512))) Rounded.none
          (rowAnnex (oasisWrite p.1 i.part (i.dst + t * rowOut) o.data) i bytes width t o, countSegment p.2 o false sum.2 false)) (s, r)
        let pad := List.replicate (if polEscalate i.policy then (bytes + 63) / 64 * 64 - bytes else 0) 0
        finishWhole (oasisWrite p.1 i.part (i.dst + bytes) pad) p.2))
  ∧ (∀ (d : Fin 8) (q : Fin 2048) (r : KRun) (s : State), wholeRun s d q (fun o => o == 0x4B) = some r → 
      exec (.sgdMom d q) s = .next (finishWhole ((List.range (runSegs r)).foldl optimizerSeg (s, r)).1 ((List.range (runSegs r)).foldl optimizerSeg (s, r)).2))
  ∧ (∀ (d : Fin 8) (q : Fin 2048) (r : KRun) (s : State), wholeRun s d q (fun o => o == 0x4C) = some r → 
      exec (.adamF32 d q) s = .next (finishWhole ((List.range (runSegs r)).foldl optimizerSeg (s, r)).1 ((List.range (runSegs r)).foldl optimizerSeg (s, r)).2))
  ∧ (∀ (d : Fin 8) (q : Fin 2048) (r : KRun) (s : State), wholeRun s d q (fun o => o == 0x4D) = some r → 
      exec (.signUpd d q) s = .next (finishWhole ((List.range (runSegs r)).foldl optimizerSeg (s, r)).1 ((List.range (runSegs r)).foldl optimizerSeg (s, r)).2))
  ∧ (∀ (d : Fin 8) (q : Fin 2048) (r : KRun) (s : State), 
      wholeRun s d q (fun o => decide (0x60 ≤ o)) = some r → (runOwnerSegs (List.range (runSegs r)) s r).map (fun p => p.2.2) = some none → 
      ∃ t, exec (.ownerKernel d q) s = .next t ∧ ∃ u r2, runOwnerSegs (List.range (runSegs r)) s r = some (u, r2, none) ∧ t = finishWhole u r2)

/-- Collective commands, group commands and member swaps have their effect -/
def Obligations.CollectiveCommandsRun : Prop :=
  (∀ (d : Fin 8) (q : Fin 2048) (y : Slot) (grp : Nat) (c : Coll) (s : State), 
      runningSlot s d q (fun o => o == 0x10) = some y → collOfCmd s (flatQ d q) y.no = some (grp, c) → 
      exec (.allreduce d q) s = .next (showGroup (pumpAll (settleDrains (runColl grp c.step (6 * collChunks c + 6) s)))))
  ∧ (∀ (d : Fin 8) (q : Fin 2048) (y : Slot) (grp : Nat) (c : Coll) (s : State), 
      runningSlot s d q (fun o => o == 0x11) = some y → collOfCmd s (flatQ d q) y.no = some (grp, c) → 
      exec (.reduce d q) s = .next (showGroup (pumpAll (settleDrains (runColl grp c.step (6 * collChunks c + 6) s)))))
  ∧ (∀ (d : Fin 8) (q : Fin 2048) (y : Slot) (grp : Nat) (c : Coll) (s : State), 
      runningSlot s d q (fun o => o == 0x12) = some y → collOfCmd s (flatQ d q) y.no = some (grp, c) → 
      exec (.broadcast d q) s = .next (showGroup (pumpAll (settleDrains (runColl grp c.step (6 * collChunks c + 6) s)))))
  ∧ (∀ (d : Fin 8) (q : Fin 2048) (y : Slot) (grp : Nat) (c : Coll) (s : State), 
      runningSlot s d q (fun o => o == 0x13) = some y → collOfCmd s (flatQ d q) y.no = some (grp, c) → 
      exec (.shardUpdate d q) s = .next (showGroup (pumpAll (settleDrains (runColl grp c.step (6 * collChunks c + 6) s)))))
  ∧ (∀ (d : Fin 8) (q : Fin 2048) (y : Slot) (grp : Nat) (c : Coll) (s : State), 
      runningSlot s d q (fun o => o == 0x14) = some y → collOfCmd s (flatQ d q) y.no = some (grp, c) → 
      exec (.barrier d q) s = .next (showGroup (pumpAll (settleDrains (runColl grp c.step (6 * collChunks c + 6) s)))))
  ∧ (∀ (d : Fin 8) (q : Fin 2048) (y : Slot) (n : Nat) (l : List Byte) (x : Group) (s : State), 
      runningSlot s d q (fun o => o == 0x3E) = some y → n = beNat (oasisRead s (cqScope s d q) (dSrc y.desc + 12) 4) → l = oasisRead s (cqScope s d q) (dSrc y.desc) (64 + 8 * n) → x = recordGroup (cqScope s d q) l (groupOf s (dGroup y.desc)) → n ≤ 131072 → outsideSpace s (cqScope s d q) (dSrc y.desc) (64 + 8 * n) = false → recordOk s y.desc l x = true → x.job = cqJob s d q → otherEntries s (dGroup y.desc) (fun _ => true) + n ≤ 4194304 → otherEntries s (dGroup y.desc) (fun m => m.role == 2) + (x.entries.filter (fun m => m.role == 2)).length ≤ 256 → 
      exec (.groupSet d q) s = .next (
        let u := endSwapCmd (endAll s (dGroup y.desc) stRegrouped) ((groupOf s (dGroup y.desc)).bind (·.swap)) stDenied
        let w := if (groupOf s (dGroup y.desc)).any (fun g => !g.opened.isEmpty) then colEvent u F.COL_EVT_REGROUPED (colBody (cqScope s d q) (dGroup y.desc) 0xFFFFFF) else u
        showGroup (claim (pumpAll (setGroup w (dGroup y.desc) x)) d q y.no stOk)))
  ∧ (∀ (d : Fin 8) (q : Fin 2048) (y : Slot) (s : State), runningSlot s d q (fun o => o == 0x3F) = some y → 
      exec (.groupFree d q) s = .next (
        let u := endSwapCmd (endAll s (dGroup y.desc) stAborted) ((groupOf s (dGroup y.desc)).bind (·.swap)) stDenied
        showGroup (claim (pumpAll { u with col := { u.col with groups := SMap.del u.col.groups (dGroup y.desc) } }) d q y.no stOk)))
  ∧ (∀ (d : Fin 8) (q : Fin 2048) (y : Slot) (x : Group) (s : State), 
      runningSlot s d q (fun o => o == 0x15) = some y → groupOf s (dGroup y.desc) = some x → x.entries.any (fun m => m.role == 1 && m.ep == dSrc y.desc / 2 ^ 24 % 2 ^ 24) = true → (workers x).any (fun m => m.rank == dSrc y.desc % 2 ^ 24) = true → x.swap = none → 
      exec (.memberSwap d q) s = .next (setGroup s (dGroup y.desc) { x with swap := some ⟨some (flatQ d q, y.no), dSrc y.desc % 2 ^ 24, dSrc y.desc / 2 ^ 24 % 2 ^ 24, false⟩ }))
  ∧ (∀ (grp : BitVec 16) (x : Group) (r : SwapReq) (m : Member) (n : Member) (s : State), 
      groupOf s grp.toNat = some x → x.swap = some r → r.ready = true → (workers x).find? (fun m => m.rank == r.rank) = some m → x.entries.find? (fun m => m.role != 0 && m.ep == r.spare) = some n → 
      exec (.swap grp) s = .next (
        let msg : ColMsg := { ColMsg.plain 0x17 0 x.nextStep with rank := r.rank, esc := n.ep }
        let u := colSend (colSend s grp.toNat x m.ep msg) grp.toNat x n.ep msg
        let es := (x.entries.filter (fun y => y != n)).map (fun y => if y.role = 0 ∧ y.rank = r.rank then { y with ep := n.ep, late := 0 } else y)
        let hold := fun (c : Coll) => if c.oldEps.any (fun e => e.1 == r.rank) then c else { c with oldEps := c.oldEps ++ [(r.rank, m.ep)] }
        let x1 := { x with entries := es, opened := x.opened.map hold, kept := x.kept.map hold, swap := none }
        showGroup (endSwapCmd (colEvent (bump64 (setGroup u grp.toNat x1) Reg.COL_SWAPS 1) F.COL_EVT_SWAP_DONE (colBody x.part grp.toNat r.rank)) (some r) stOk)))

/-- The messages and deadlines of a collective have their effect -/
def Obligations.CollectivePacketsArrive : Prop :=
  (∀ (c : Cfh) (payload : List Byte) (grp : Nat) (x : Group) (m : ColMsg) (coord : Nat) (s : State), 
      ctlFor s 0x10 c payload = some (grp, x, m) → fromSpine x c = some coord → (collIn x m.step).isSome = true → 
      exec (.launch c payload) s = .next (showGroup (hearLaunch (twinCopy s x.part c payload) grp m.step coord m.digest m.order)))
  ∧ (∀ (c : Cfh) (payload : List Byte) (s : State), collPkt s c = true → 
      exec (.contributionRx c payload) s = .next (showGroup (contribRx s c payload)))
  ∧ (∀ (c : Cfh) (payload : List Byte) (s : State), collPkt s c = true → 
      exec (.partialRx c payload) s = .next (showGroup (partialPkt s c payload)))
  ∧ (∀ (c : Cfh) (payload : List Byte) (s : State), collPkt s c = true → 
      exec (.resultRx c payload) s = .next (showGroup (resultPkt s c payload)))
  ∧ (∀ (c : Cfh) (payload : List Byte) (grp : Nat) (x : Group) (m : ColMsg) (y : Coll) (w : Member) (s : State), 
      ctlFor s 0x11 c payload = some (grp, x, m) → collIn x m.step = some y → (receivers x y).find? (fun w => w.rank == m.rank && w.ep == c.src) = some w → collChunks y ≤ y.results.length → m.digest = resultDigest y → 
      exec (.receipt c payload) s = .next (
        let z := attemptDone { y with receipts := if y.receipts.contains m.rank then y.receipts else y.receipts ++ [m.rank] } m.rank 0xFFFFFF
        maybeReady (colSend (setColl (twinCopy s x.part c payload) grp z) grp x w.ep { ColMsg.plain 0x12 0 m.step with rank := m.rank }) grp m.step))
  ∧ (∀ (c : Cfh) (payload : List Byte) (x : Group) (y : Coll) (s : State), 
      payload.length = 32 → (colMsgOf payload).typ = 0x12 → c.src = collEp (ownCoord s) → groupOf s (beAt payload 2 2) = some x → collIn x (colMsgOf payload).step = some y → (y.receipts.contains (colMsgOf payload).rank && !y.racked.contains (colMsgOf payload).rank && (receivers x y).any (fun w => w.rank == (colMsgOf payload).rank && w.ep == c.dst)) = true → 
      exec (.rack c payload) s = .next (setColl s (beAt payload 2 2) { y with racked := y.racked ++ [(colMsgOf payload).rank] }))
  ∧ (∀ (c : Cfh) (payload : List Byte) (grp : Nat) (x : Group) (m : ColMsg) (y : Coll) (coord : Nat) (s : State), 
      ctlFor s 0x13 c payload = some (grp, x, m) → fromSpine x c = some coord → collIn x m.step = some y → isRoot s x = true → y.decided = none → y.deadline = none → y.readies.any (fun r => r.coord == coord) = false → 
      exec (.ready c payload) s = .next (
        let z := { y with readies := y.readies ++ [⟨coord, m.digest, m.esc, m.sat, m.status % 2 == 1⟩] }
        let g := { x with opened := modFirst (fun z => z.step == y.step) (fun _ => z) x.opened }
        let u := setGroup (twinCopy s x.part c payload) grp g
        if z.readies.length = boxSize x then decideCommit u grp g z else u))
  ∧ (∀ (c : Cfh) (payload : List Byte) (grp : Nat) (x : Group) (m : ColMsg) (y : Coll) (coord : Nat) (s : State), 
      ctlFor s 0x15 c payload = some (grp, x, m) → fromSpine x c = some coord → collIn x m.step = some y → isRoot s x = true → y.decided = none → 
      exec (.abortReq c payload) s = .next (decideAbort (twinCopy s x.part c payload) grp x y (if [stBadDescriptor, stDigestFail, stDenied, stPoisoned].contains m.status then m.status else stAborted)))
  ∧ (∀ (grp : BitVec 16) (step : Word) (x : Group) (y : Coll) (s : State), 
      groupOf s grp.toNat = some x → collIn x step.toNat = some y → isRoot s x = true → y.decided = none → y.deadline.any (fun t => decide (t ≤ s.clock)) = true → 
      exec (.commitDeadline grp step) s = .next (colEvent (decideAbort s grp.toNat x y stTimeout) F.COL_EVT_DEADLINE (colBody x.part grp.toNat 0xFFFFFF)))
  ∧ (∀ (c : Cfh) (payload : List Byte) (grp : Nat) (x : Group) (m : ColMsg) (y : Coll) (s : State), 
      ctlFor s 0x14 c payload = some (grp, x, m) → collIn x m.step = some y → fromRoot x c = true → 
      exec (.commit c payload) s = .next (showGroup (pumpAll (commitStep (twinCopy s x.part c payload) grp x y m))))
  ∧ (∀ (c : Cfh) (payload : List Byte) (grp : Nat) (x : Group) (m : ColMsg) (y : Coll) (s : State), 
      ctlFor s 0x16 c payload = some (grp, x, m) → collIn x m.step = some y → fromRoot x c = true → 
      exec (.collAbort c payload) s = .next (showGroup (pumpAll (abortStep (tellMembers (twinCopy s x.part c payload) grp x (collWorkers x y) m) grp x y m.status (if m.status = stAborted then stOk else stAbortLate)))))
  ∧ (∀ (grp : BitVec 16) (step : Word) (x : Group) (y : Coll) (s : State), 
      groupOf s grp.toNat = some x → collIn x step.toNat = some y → y.deadline.any (fun t => decide (t + graceUnits s ≤ s.clock)) = true → 
      exec (.commitGraceExpiry grp step) s = .next (showGroup (pumpAll (colEvent (abortStep s grp.toNat x y stTimeout stAbortLate) F.COL_EVT_DEADLINE (colBody x.part grp.toNat 0xFFFFFF)))))
  ∧ (∀ (grp : BitVec 16) (step : Word) (x : Group) (y : Coll) (s : State), 
      groupOf s grp.toNat = some x → collIn x step.toNat = some y → y.abortAt.any (fun t => decide (t + graceUnits s ≤ s.clock)) = true → 
      exec (.abortReqGraceExpiry grp step) s = .next (showGroup (pumpAll (abortStep s grp.toNat x y stAborted stOk))))

/-- The commands, messages and timers of a Caravan have their effect -/
def Obligations.CaravansRun : Prop :=
  (∀ (d : Fin 8) (q : Fin 2048) (y : Slot) (l : List Byte) (x : Caravan) (s : State), 
      runningSlot s d q (fun o => o == 0x80) = some y → l = oasisRead s (cqScope s d q) (dSrc y.desc) (96 + 4 * beAt (oasisRead s (cqScope s d q) (dSrc y.desc) 96) 22 2 + 4 * beAt (oasisRead s (cqScope s d q) (dSrc y.desc) 96) 24 4) → x = treeCar s d q y true l → s.col.caravans.any (fun x => x.fq == flatQ d q && x.no == y.no) = false → beAt (oasisRead s (cqScope s d q) (dSrc y.desc) 96) 22 2 ≤ 64 → beAt (oasisRead s (cqScope s d q) (dSrc y.desc) 96) 24 4 ≤ 4096 → outsideSpace s (cqScope s d q) (dSrc y.desc) (96 + 4 * beAt (oasisRead s (cqScope s d q) (dSrc y.desc) 96) 22 2 + 4 * beAt (oasisRead s (cqScope s d q) (dSrc y.desc) 96) 24 4) = false → carTreeOk s true l = true → outsideSpace s (cqScope s d q) x.cache x.len = false → carOf s x.tid = none → 
      exec (.caravanRoot d q) s = .next (
        let u := carServe { s with col := { s.col with caravans := s.col.caravans.filter (fun x => claimable s (x.fq / 2048) (x.fq % 2048) x.no) ++ [x] } } x
        if x.total = 0 then carFinish u x stOk else u))
  ∧ (∀ (d : Fin 8) (q : Fin 2048) (y : Slot) (l : List Byte) (x : Caravan) (s : State), 
      runningSlot s d q (fun o => o == 0x81) = some y → l = oasisRead s (cqScope s d q) (dSrc y.desc) (96 + 4 * beAt (oasisRead s (cqScope s d q) (dSrc y.desc) 96) 22 2 + 4 * beAt (oasisRead s (cqScope s d q) (dSrc y.desc) 96) 24 4) → x = treeCar s d q y false l → s.col.caravans.any (fun x => x.fq == flatQ d q && x.no == y.no) = false → beAt (oasisRead s (cqScope s d q) (dSrc y.desc) 96) 22 2 ≤ 64 → beAt (oasisRead s (cqScope s d q) (dSrc y.desc) 96) 24 4 ≤ 4096 → outsideSpace s (cqScope s d q) (dSrc y.desc) (96 + 4 * beAt (oasisRead s (cqScope s d q) (dSrc y.desc) 96) 22 2 + 4 * beAt (oasisRead s (cqScope s d q) (dSrc y.desc) 96) 24 4) = false → carTreeOk s false l = true → outsideSpace s (cqScope s d q) x.cache x.len = false → carOf s x.tid = none → 
      exec (.caravanNode d q) s = .next (carServe { s with col := { s.col with caravans := s.col.caravans.filter (fun x => claimable s (x.fq / 2048) (x.fq % 2048) x.no) ++ [x] } } x))
  ∧ (∀ (tid : BitVec 16) (x : Caravan) (s : State), 
      carOf s tid.toNat = some x → x.isRoot = true → x.fetch = true → x.fetched < x.len → carOutstanding x < 4 → (carOutstanding x + 1) * (carChunk / 4096 * fabricCells 4120) ≤ poolFree s (x.fq / 2048) x.part 2 → 
      exec (.caravanFetch tid) s = .next (carSend (setCar s { x with fetched := x.fetched + (chunkEnd x.len x.fetched - x.fetched) }) x 0 x.storage (carHead 0x20 0 x.tid x.fetched 0 (chunkEnd x.len x.fetched - x.fetched) x.object)))
  ∧ (∀ (c : Cfh) (payload : List Byte) (x : Caravan) (s : State), 
      carMsg s 0x21 c payload = some x → x.isRoot = true → x.fetch = true → c.src = x.storage → beAt payload 4 6 = x.verified + x.partialBytes → beAt payload 4 6 < x.fetched → payload.length = 24 + beAt payload 10 2 → beAt payload 10 2 = 4096 → beAt payload 4 6 + 4096 = chunkEnd x.len x.verified → 
      exec (.caravanData c payload) s = .next (carVerified (oasisWrite s x.part (x.cache + beAt payload 4 6) (payload.drop 24)) x (chunkEnd x.len x.verified)))
  ∧ (∀ (tid : BitVec 16) (x : Caravan) (s : State), carOf s tid.toNat = some x → 
      exec (.caravanHeartbeatSend tid) s = .next (
        let u := x.peers.foldl (fun t p => carSend t x 0 p.ep (carHead 0x22 0 x.tid (x.verified + x.partialBytes) 0 0 0)) s
        if x.isRoot then u else carSend u x 0 (carAbove x) (carHead 0x23 0 x.tid x.verified 0 0 0)))
  ∧ (∀ (c : Cfh) (payload : List Byte) (x : Caravan) (s : State), 
      carMsg s 0x22 c payload = some x → x.isRoot = false → c.src = carAbove x → 
      exec (.caravanHeartbeat c payload) s = .next (setCar s { x with heardAt := s.clock }))
  ∧ (∀ (c : Cfh) (payload : List Byte) (x : Caravan) (s : State), carMsg s 0x23 c payload = some x → 
      exec (.caravanAck c payload) s = .next (setCar s { x with peers := modFirst (fun p => p.ep == c.src) (fun p => { p with acked := beAt payload 4 6 }) x.peers }))
  ∧ (∀ (c : Cfh) (payload : List Byte) (x : Caravan) (p : CarPeer) (s : State), 
      carMsg s 0x25 c payload = some x → x.peers.find? (fun p => p.ep == c.src) = some p → beAt payload 4 6 % carChunk = 0 → beAt payload 4 6 < x.verified → 
      exec (.caravanNack c payload) s = .next (carRange s x p (beAt payload 4 6) (chunkEnd x.len (beAt payload 4 6))))
  ∧ (∀ (c : Cfh) (payload : List Byte) (x : Caravan) (s : State), 
      carMsg s 0x24 c payload = some x → beAt payload 4 6 % carChunk = 0 → beAt payload 4 6 ≤ x.len → 
      exec (.caravanAttach c payload) s = .next (
        let z := { x with peers := x.peers.filter (fun y => y.ep != c.src) ++ [⟨c.src, isCarEp c.src, beAt payload 4 6, beAt payload 4 6, (x.peers.find? (fun y => y.ep == c.src)).any (·.done)⟩] }
        carServe (setCar s z) z))
  ∧ (∀ (tid : BitVec 16) (x : Caravan) (s : State), 
      carOf s tid.toNat = some x → x.isRoot = false → x.heardAt + 200000 * nsUnit ≤ s.clock → x.onBackup = false → 
      exec (.parentSilence tid) s = .next (
        let z := { x with partialBytes := 0, onBackup := true, heardAt := s.clock }
        colEvent (carSend (setCar s z) z 0 (carEp x.backup) (carHead 0x24 0 x.tid x.verified 0 0 0)) F.COL_EVT_PARENT_LOST (colBody x.part x.tid 0xFFFFFF)))
  ∧ (∀ (c : Cfh) (payload : List Byte) (x : Caravan) (p : CarPeer) (s : State), 
      carMsg s 0x26 c payload = some x → bitAt (beAt payload 1 1) 1 = false → isCarEp c.src = false → x.peers.find? (fun p => p.ep == c.src) = some p → p.done = false → payload.length = 72 → x.isRoot = true → 
      exec (.caravanDone c payload) s = .next (
        let z := { x with matched := x.matched + b2n (beAt payload 24 48 == x.expect), mismatched := x.mismatched + b2n (!(beAt payload 24 48 == x.expect)), peers := modFirst (fun y => y.ep == c.src) (fun y => { y with done := true }) x.peers }
        carCheck (setCar s z) z))
  ∧ (∀ (tid : BitVec 16) (x : Caravan) (s : State), 
      carOf s tid.toNat = some x → x.isRoot = true → x.deadline.any (fun t => decide (t ≤ s.clock)) = true → 
      exec (.caravanDeadline tid) s = .next (carFinish s x stTimeout))

/-- Check units, resends, audits, held data and retraction have their effect -/
def Obligations.ChecksResendsAndRetractions : Prop :=
  (∀ (d : Fin 8) (u : Fin 64) (v : Word) (s : State), 
      wbit v 31 = true → wbit v 23 = false → rb s (Reg.CHK_UNIT_CFG d u) F.CHK_UNIT_CFG_BUSY = false → duneUp s d = true → held s = false → rf (softWrite s (Reg.CHK_UNIT_CFG d u) v) (Reg.CHK_UNIT_CFG d u) F.CHK_UNIT_CFG_SRC = 1 → 
      exec (.chkUnitStart d u v) s = .next (wf (softWrite s (Reg.CHK_UNIT_CFG d u) v) (Reg.CHK_UNIT_CFG d u) F.CHK_UNIT_CFG_BUSY 1))
  ∧ (∀ (d : Fin 8) (u : Fin 64) (bad : Bool) (s : State), 
      rb s (Reg.CHK_UNIT_CFG d u) F.CHK_UNIT_CFG_BUSY = true → rf s (Reg.CHK_UNIT_CFG d u) F.CHK_UNIT_CFG_SRC = 0 → rn s (Reg.CHK_UNIT_LEN d u) ≠ 0 → bad = false → outsideSpace s (rf s (Reg.CHK_UNIT_PART d u) F.CHK_UNIT_PART_PART) (rn64 s (Reg.CHK_UNIT_ADDR d u)) (rn s (Reg.CHK_UNIT_LEN d u)) = false → rb s (Reg.CHK_UNIT_CFG d u) F.CHK_UNIT_CFG_CMP_EN = false → 
      exec (.chkUnitDone d u bad) s = .next (wf (wn64 (wf s (Reg.CHK_UNIT_CFG d u) F.CHK_UNIT_CFG_BUSY 0) (Reg.CHK_UNIT_RESULT d u) (checkValue (unitCfg s d u) (rn64 s (Reg.CHK_UNIT_FOLD d u)) (oasisRead s (rf s (Reg.CHK_UNIT_PART d u) F.CHK_UNIT_PART_PART) (rn64 s (Reg.CHK_UNIT_ADDR d u)) (rn s (Reg.CHK_UNIT_LEN d u))))) (Reg.CHK_UNIT_STATUS d u) F.CHK_UNIT_STATUS_DONE 1))
  ∧ (∀ (d : Fin 8) (u : Fin 64) (v : Word) (s : State), 
      wbit v 23 = true → duneUp s d = true → held s = false → rb s (Reg.CHK_UNIT_CFG d u) F.CHK_UNIT_CFG_BUSY = true → rf s (Reg.CHK_UNIT_CFG d u) F.CHK_UNIT_CFG_SRC = 1 → 
      exec (.chkUnitStop d u v) s = .next (wf s (Reg.CHK_UNIT_CFG d u) F.CHK_UNIT_CFG_BUSY 0))
  ∧ (∀ (c : Cfh) (payload : List Byte) (x : Group) (y : Coll) (s : State), 
      payload.length = 32 → beAt payload 0 1 = 0x40 → c.dst = collEp (ownCoord s) → platUp s = true → collAny s (beAt payload 2 2) (beAt payload 8 4) = some (x, y) → x.gen = beAt payload 4 1 → c.part = hallPart s x.part → beAt payload 1 1 = 3 → 
      exec (.resend c payload) s = .next (bump64 (y.results.foldl (fun t r => resendResult t (beAt payload 2 2) x y c.src r) s) Reg.COL_RESULT_TX y.results.length))
  ∧ (∀ (grp : BitVec 16) (step : Word) (rank : BitVec 24) (chunk : BitVec 24) (x : Group) (y : Coll) (a : Attempt) (s : State), 
      groupOf s grp.toNat = some x → collIn x step.toNat = some y → attemptOf y rank.toNat chunk.toNat = some a → chunk.toNat ≠ 0xFFFFFF → a.at_ + Nat.max 1 (rf s (Reg.CHK_CFG (chunkDune s x chunk.toNat)) F.CHK_CFG_RESEND_US) * 1000 * nsUnit ≤ s.clock → y.abortAt = none → 
      exec (.resendTimeout grp step rank chunk) s = .next (askResend s grp.toNat x y (awaitedKind s x y rank.toNat chunk.toNat) rank.toNat chunk.toNat))
  ∧ (∀ (grp : BitVec 16) (step : Word) (chunk : BitVec 24) (g2 : Fin 4096) (second : BitVec 64) (third : Option (BitVec 64)) (x : Group) (y : Coll) (r : ResPkt) (s : State), 
      groupOf s grp.toNat = some x → collIn x step.toNat = some y → (ownResults s x y).find? (fun r => r.chunk == chunk.toNat) = some r → y.audited.contains chunk.toNat = false → y.opcode ≠ 0x12 → g2.val / 512 = chunkDune s x chunk.toNat → second.toNat = r.digest → collOf s grp.toNat y.step = some y → 
      exec (.auditDone grp step chunk g2 second third) s = .next (showGroup (maybeReady (setColl s grp.toNat { y with audited := y.audited ++ [chunk.toNat] }) grp.toNat y.step)))
  ∧ (∀ (grp : BitVec 16) (step : Word) (x : Group) (y : Coll) (s : State), 
      groupOf s grp.toNat = some x → x.kept.find? (fun y => y.step == step.toNat) = some y → y.since + Nat.max 1 (rf s (Reg.CHK_HOLD (y.fq / 2048)) F.CHK_HOLD_HOLD_MS) * 1000000 * nsUnit ≤ s.clock → x.opened.any (fun z => stepBefore y.step z.step) = false → 
      exec (.holdExpiry grp step) s = .next (setGroup s grp.toNat { x with kept := x.kept.filter (fun z => z.step != y.step) }))
  ∧ (∀ (c : Cfh) (payload : List Byte) (grp : Nat) (x : Group) (m : ColMsg) (s : State), 
      retractMsg s c payload = some (grp, x, m) → x.entries.any (fun w => w.role == 0 && w.ep == c.src) = true → 
      exec (.retractRequest c payload) s = .next (retractAsk s grp m.step))
  ∧ (∀ (c : Cfh) (payload : List Byte) (grp : Nat) (x : Group) (m : ColMsg) (y : Coll) (s : State), 
      retractMsg s c payload = some (grp, x, m) → fromRoot x c = true → (x.opened ++ x.kept).find? (fun y => y.step == m.step) = some y → 
      exec (.retract c payload) s = .next (showGroup (retractStep (bump64 (twinCopy s x.part c payload) (Reg.CHK_RETRACTS (y.fq / 2048)) 1) grp x y m)))
  ∧ (∀ (grp : BitVec 16) (step : Word) (x : Group) (y : Coll) (s : State), 
      collOf s grp.toNat step.toNat = some y → groupOf s grp.toNat = some x → y.waiting = true → y.since + graceUnits s ≤ s.clock → 
      exec (.replayReserveFail grp step) s = .next (showGroup (pumpAll (chkEvent (closeColl s grp.toNat y stDigestFail) (y.fq / 2048) F.CHK_EVT_REPLAY_FAIL x.part grp.toNat y.step))))

/-- Margin tests and the release from quarantine have their effect -/
def Obligations.MarginTestsAndQuarantine : Prop :=
  (∀ (d : Fin 8) (v : Word) (s : State), 
      keyOk v = true → wbit v 5 = true → wbit v 6 = false → duneUp s d = true → held s = false → SMap.find s.chk.margins d.val = none → SMap.find s.brc.dis d.val = none → (emptiedPools s (disCovers s (marginEngines d (bitsAt v.toNat 0 5)))).isEmpty = true → 
      exec (.marginStart d v) s = .next (
        let u := { s with chk := { s.chk with margins := SMap.ins s.chk.margins d.val ⟨bitsAt v.toNat 0 5, false⟩ } }
        disableEngines (wfs (marginShow u d 0 (some 1)) (Reg.CHK_MARGIN_STATUS d) [(F.CHK_MARGIN_STATUS_STEP, 0), (F.CHK_MARGIN_STATUS_FAILED, 0)]) (32 + d) (marginEngines d (bitsAt v.toNat 0 5)) false 1 (bitsAt v.toNat 0 5)))
  ∧ (∀ (d : Fin 8) (m : Margin) (s : State), 
      SMap.find s.chk.margins d.val = some m → m.running = false → (marginEngines d m.ripple).any (fun g => engSt s g == engRunning || engSt s g == engDraining) = false → 
      exec (.marginTempReached d) s = .next (marginShow { s with chk := { s.chk with margins := SMap.ins s.chk.margins d.val { m with running := true } } } d 0 (some 2)))
  ∧ (∀ (d : Fin 8) (m : Margin) (s : State), 
      SMap.find s.chk.margins d.val = some m → m.running = false → 
      exec (.marginColdTimeout d) s = .next (marginEnd s d m.ripple 3))
  ∧ (∀ (d : Fin 8) (r : MarginRes) (m : Margin) (s : State), SMap.find s.chk.margins d.val = some m → m.running = true → 
      exec (.marginDone d r) s = .next (
        let limit := Nat.min 60 (rf s (Reg.CHK_MARGIN_CFG d) F.CHK_MARGIN_CFG_GUARD_MV)
        let u := (List.range 16).foldl (fun t k => wf t (Reg.CHK_MARGIN_RES d k) F.CHK_MARGIN_RES_ENG_MV (marginCode (getAt none r.engines k))) s
        let bad := (List.range 16).filter (fun k => failsAbove limit (getAt none r.engines k) || (List.range 4).any (fun l => failsAbove limit (getAt (some 60) r.lines (k * 4 + l))))
        let fresh := (bad.map (fun k => (d.val * 32 + m.ripple) * 16 + k)).filter (fun g => engSt s g != engQuarantined)
        marginEnd (wfs (fresh.foldl quarantine u) (Reg.CHK_MARGIN_STATUS d) [(F.CHK_MARGIN_STATUS_STEP, 6), (F.CHK_MARGIN_STATUS_FAILED, fresh.length)]) d m.ripple (if fresh.isEmpty then 1 else 2)))
  ∧ (∀ (d : Fin 8) (v : Word) (m : Margin) (s : State), 
      keyOk v = true → wbit v 6 = true → wbit v 5 = false → duneUp s d = true → held s = false → SMap.find s.chk.margins d.val = some m → 
      exec (.marginStop d v) s = .next (marginEnd s d m.ripple 4))
  ∧ (∀ (d : Fin 8) (v : Word) (s : State), 
      keyOk v = true → wbit v 23 = true → duneUp s d = true → held s = false → engSt s (d.val * 512 + bitsAt v.toNat 0 9) = engQuarantined → 
      exec (.quarantineRelease d v) s = .next (settleDrains (wf (setEngSt { s with plat := { s.plat with quarantine := s.plat.quarantine.filter (fun x => x != d.val * 512 + bitsAt v.toNat 0 9) } } (d.val * 512 + bitsAt v.toNat 0 9) engDisabled) (Reg.CHK_QUAR_STATUS d) F.CHK_QUAR_STATUS_RESULT 1)))

/-- The triad disagrees, rejoins and ends its probation; HELD beacons are sent, heard and missed -/
def Obligations.TheTriadAndHeld : Prop :=
  (∀ (a : Option Word) (b : Option Word) (c : Option Word) (k : Nat) (s : State), 
      s.plat.running = true → rf s Reg.MGT_TRIAD F.MGT_TRIAD_STATE = 0 → oddCore [a, b, c] = some k → 
      exec (.triadDisagree a b c) s = .next (enterResync s k))
  ∧ (∀ (selfTestOk : Bool) (s : State), 
      rf s Reg.MGT_TRIAD F.MGT_TRIAD_STATE = 1 → s.mgt.probation = none → selfTestOk = true → 
      exec (.triadRejoin selfTestOk) s = .next (triadTo { s with mgt := { s.mgt with probation := some (resyncCore s) } } 1 [0, 1, 2]))
  ∧ (∀ (s : State), 
      rf s Reg.MGT_TRIAD F.MGT_TRIAD_STATE = 1 → s.mgt.probation.isSome = true → 
      exec .triadProbationEnd s = .next (triadTo { s with mgt := { s.mgt with proven := [], probation := none } } 0 [0, 1, 2]))
  ∧ (∀ (s : State), held s = true → 
      exec .heldBeaconSend s = .next (((allPorts s).filter (fun r => linkSt s r.num == linkUp)).foldl (fun u r => sendOwn u r.num (originCfh u 0 (hallPart u (portScope u r.num)) 0xFFFFF8 0 0 32) (natBe 1 0x70 ++ natBe 1 (rf s Reg.MGT_TRIAD F.MGT_TRIAD_HELD_CAUSE) ++ natBe 2 0 ++ natBe 16 s.otp.serial ++ natBe 4 (s.mgt.heldAt / secUnit % 2 ^ 32) ++ natBe 4 (s.mgt.heldAt / nsUnit % 1000000000) ++ natBe 4 0)) s))
  ∧ (∀ (port : Fin 4096) (payload : List Byte) (s : State), 
      platUp s = true → linkSt s port = linkUp → payload.length = 32 → beAt payload 0 1 = 0x70 → 
      exec (.heldBeacon port payload) s = .next (
        let u := wfs { s with mgt := { s.mgt with beacons := SMap.ins s.mgt.beacons port.val s.clock } } Reg.MGT_PEER_HELD [(F.MGT_PEER_HELD_VALID, 1), (F.MGT_PEER_HELD_PORT, port.val % 2048)]
        let w := (List.range 4).foldl (fun t i => wn t (Reg.MGT_PEER_SERIAL i) (beAt payload (4 + 4 * i) 4)) u
        settle s (mgtEvent (bump64 w Reg.MGT_BEACONS_RX 1) F.MGT_EVT_PEER_HELD (natBe 1 (portScope s port) ++ natBe 2 port))))
  ∧ (∀ (port : Fin 4096) (since : Nat) (s : State), 
      SMap.find s.mgt.beacons port.val = some since → since + 10000000 * nsUnit ≤ s.clock → 
      exec (.heldBeaconAbsence port) s = .next (wf { s with mgt := { s.mgt with beacons := SMap.del s.mgt.beacons port.val } } Reg.MGT_PEER_HELD F.MGT_PEER_HELD_VALID (b2n (!(SMap.del s.mgt.beacons port.val).isEmpty))))

/-- Function requests, quorum orders and the Mirage spine have their effect -/
def Obligations.RequestsAndOrdersRun : Prop :=
  (∀ (v : Word) (s : State), 
      getF v F.MGT_FN_CTRL_ENABLE = 1 → getF v F.MGT_FN_CTRL_DISABLE = 0 → keyOk v = true → platUp s = true → held s = false → fnIndexOk s (getF v F.MGT_FN_CTRL_KIND) (fnIndex v) = true → (fnScopes s (getF v F.MGT_FN_CTRL_KIND) (fnIndex v)).any (fenced s) = false → s.mgt.fn = none → getF v F.MGT_FN_CTRL_KIND ≠ 1 → 
      exec (.fnEnable v) s = .next (
        let k := getF v F.MGT_FN_CTRL_KIND
        let i := fnIndex v
        let u := settleDrains ((fnEngines s k i).foldl enableEng ((fnPorts s k i).foldl enablePort ((fnQueues s k i).foldl enableCq (fnResult s 1))))
        let w := wfs u Reg.MGT_FN_STATUS [(F.MGT_FN_STATUS_PENDING, 0), (F.MGT_FN_STATUS_STATE, 1), (F.MGT_FN_STATUS_REMAIN, 0)]
        settle s (mgtEvent w F.MGT_EVT_FN_DONE (fnBody w k i))))
  ∧ (∀ (v : Word) (s : State), 
      getF v F.MGT_FN_CTRL_DISABLE = 1 → getF v F.MGT_FN_CTRL_ENABLE = 0 → getF v F.MGT_FN_CTRL_IMMEDIATE = 0 → keyOk v = true → platUp s = true → held s = false → fnIndexOk s (getF v F.MGT_FN_CTRL_KIND) (fnIndex v) = true → (fnScopes s (getF v F.MGT_FN_CTRL_KIND) (fnIndex v)).any (fenced s) = false → s.mgt.fn = none → 
      exec (.fnDisableDrain v) s = .next (fnDisable s (getF v F.MGT_FN_CTRL_KIND) (fnIndex v) false))
  ∧ (∀ (v : Word) (s : State), 
      getF v F.MGT_FN_CTRL_DISABLE = 1 → getF v F.MGT_FN_CTRL_ENABLE = 0 → getF v F.MGT_FN_CTRL_IMMEDIATE = 1 → keyOk v = true → platUp s = true → held s = false → fnIndexOk s (getF v F.MGT_FN_CTRL_KIND) (fnIndex v) = true → (fnScopes s (getF v F.MGT_FN_CTRL_KIND) (fnIndex v)).any (fenced s) = false → s.mgt.fn = none → 
      exec (.fnDisableImmediate v) s = .next (fnDisable s (getF v F.MGT_FN_CTRL_KIND) (fnIndex v) true))
  ∧ (∀ (r : FnReq) (s : State), 
      s.mgt.fn = some r → r.enable = false → r.immediate = false → r.at_ + Nat.max 1 (rf s Reg.MGT_FN_CFG F.MGT_FN_CFG_DRAIN_TMO_MS) * 1000000 * nsUnit ≤ s.clock → 
      exec .drainTimeout s = .next (mgtEvent s F.MGT_EVT_DRAIN_TMO (fnBody s r.kind r.index)))
  ∧ (∀ (v : Word) (verdicts : List (Bool × Bool)) (s : State), 
      keyOk v = true → wbit v 0 = true → platUp s = true → 
      exec (.orderSubmit v verdicts) s = .next (checkOrder s (hostOrder s verdicts)))
  ∧ (∀ (seg : List Byte) (verdicts : List (Bool × Bool)) (s : State), 
      platUp s = true → 8 ≤ seg.length → seg.length ≤ 8192 → beAt seg 0 1 = 0x60 → beAt seg 1 1 = 0 → beAt seg 2 1 = 1 → 
      exec (.orderSegmentRx seg verdicts) s = .next (checkOrder { s with mgt := { s.mgt with segs := [] } } { orderOf (seg.drop 8) verdicts with length := if (seg.drop 8).length = beAt seg 4 4 then (seg.drop 8).length else 0 }))
  ∧ (∀ (o : ArmedOrder) (s : State), orderDue s 1 = some o → o.tkind = 3 → 
      exec .expel s = .next (settle s (orderDone (fnProgress (setExpel s (if s.rot.expel.contains (oEntry o) then s.rot.expel else s.rot.expel ++ [oEntry o]))) o)))
  ∧ (∀ (o : ArmedOrder) (s : State), orderDue s 2 = some o → o.target ≠ s.otp.serial → 
      exec .unexpel s = .next (orderDone (setExpel s (s.rot.expel.filter (fun e => e != oEntry o))) o))
  ∧ (∀ (o : ArmedOrder) (s : State), orderDue s 3 = some o → exec .fence s = .next (orderDone (fenceScope s o.num) o))
  ∧ (∀ (o : ArmedOrder) (s : State), orderDue s 4 = some o → fenceSt s o.num = 2 → 
      exec .unfence s = .next (orderDone (unfenceStart s o.num) o))
  ∧ (∀ (o : ArmedOrder) (s : State), orderDue s 5 = some o → 
      exec .promote s = .next (orderDone (settle s ((s.img.cfg.ports.map (·.num)).foldl tryHandshake (wf s Reg.MGT_TWIN_CFG F.MGT_TWIN_CFG_ROLE 0))) o))
  ∧ (∀ (port : Fin 4096) (item : TwinItem) (dg : Nat) (g : Nat) (gen : Nat) (step : Nat) (k : Nat) (dst : Nat) (s : State), 
      isMirageSpine s = true → port.val = twinPort s → platUp s = true → item = .shadow dg g gen step k dst → 
      exec (.twinShadowRx port item) s = .next ({ s with mgt := { s.mgt with shadows := s.mgt.shadows ++ [(dg, g, gen, step, k, dst)] } }))

/-- A register write and the datagrams of a register session have their effect. -/
def Obligations.TheBusAndTheSessions : Prop :=
  (∀ (a : BitVec 26) (v : Word) (s : State), s.plat.running = true → windowDune a.toNat = none → (regRow (regHome a.toNat)).isSome = true →
      exec (.registerWrite a v) s = .next (ergWrite s (regHome a.toNat) v))
  ∧ (∀ (a : BitVec 26) (v : Word) (d : Nat) (s : State), s.plat.running = true → windowDune a.toNat = some d → duneUp s d = true →
      inAperture a.toNat = false → (regRow (regHome a.toNat)).isSome = true →
      exec (.registerWrite a v) s = .next (duneWrite s (Fin.ofNat 8 d) (regHome a.toNat) v))
  ∧ (∀ (a : BitVec 26) (v : Word) (s : State), s.plat.running = true → (windowDune a.toNat).all (duneUp s) = true →
      inAperture a.toNat = false → regRow (regHome a.toNat) = none → exec (.registerWrite a v) s = .next s)
  ∧ (∀ (a : BitVec 26) (v : Word) (d : Nat) (s : State), s.plat.running = true → windowDune a.toNat = some d → duneUp s d = true →
      inAperture a.toNat = true → exec (.registerWrite a v) s = .next (apertureBad s))
  ∧ (∀ (a : BitVec 26) (v : Word) (d : Nat) (s : State), s.plat.running = true → windowDune a.toNat = some d → duneUp s d = false →
      exec (.registerWrite a v) s = .next (offlineAccess (if inAperture a.toNat then apertureBad s else s)))
  ∧ (∀ (p : Fin 2) (v6 : Bool) (ip : BitVec 128) (sport : BitVec 16) (m : HelloMsg) (s : State),
      s.plat.running = true → (mpOf s p).linkUp = true → mpFamily s p v6 = true → m.wellFormed = true →
      exec (.sessionDatagram p v6 ip sport (.hello m)) s = .next (
        let y := newSession p v6 ip.toNat sport.toNat (Config.free s.free % 2 ^ 256) m.serial s.clock
        let u := putSession { s with free := s.free + 2 } y
        let w := sessionMsg u y 0x50 0 (natBe 32 y.nonce ++ natBe 16 s.otp.serial ++ natBe 2 0 ++ Config.keyShare (s.free + 1))
        sessionMsg w y 0x51 0 (s.otp.cert ++ reportBytes w m.nonce)))
  ∧ (∀ (p : Fin 2) (v6 : Bool) (ip : BitVec 128) (sport : BitVec 16) (m : HelloMsg) (s : State),
      s.plat.running = true → (mpOf s p).linkUp = true → mpFamily s p v6 = true → m.wellFormed = false →
      exec (.sessionDatagram p v6 ip sport (.hello m)) s = .next (
        sessionRefuse s (newSession p v6 ip.toNat sport.toNat (Config.free s.free % 2 ^ 256) m.serial s.clock) 6))
  ∧ (∀ (p : Fin 2) (v6 : Bool) (ip : BitVec 128) (sport : BitVec 16) (chainOk reportOk : Bool) (nonce keyHash : Nat) (y : Session) (s : State),
      s.plat.running = true → (mpOf s p).linkUp = true → mpFamily s p v6 = true → sessionOf s p v6 ip.toNat sport.toNat = some y →
      y.up = false → y.gotCert = false → sessionRefusal s y chainOk reportOk nonce keyHash = none →
      exec (.sessionDatagram p v6 ip sport (.cert chainOk reportOk nonce keyHash)) s = .next (
        let share := if y.peerSerial < s.otp.serial then Config.keyShare s.free else []
        sessionMsg (tickFree (putSession s { y with gotCert := true, heardAt := s.clock })) y 0x52 0
          (share ++ Config.dikSign (natBe 48 (freeNat s % 2 ^ 384)))))
  ∧ (∀ (p : Fin 2) (v6 : Bool) (ip : BitVec 128) (sport : BitVec 16) (chainOk reportOk : Bool) (nonce keyHash reason : Nat) (y : Session) (s : State),
      s.plat.running = true → (mpOf s p).linkUp = true → mpFamily s p v6 = true → sessionOf s p v6 ip.toNat sport.toNat = some y →
      y.up = false → y.gotCert = false → sessionRefusal s y chainOk reportOk nonce keyHash = some reason →
      exec (.sessionDatagram p v6 ip sport (.cert chainOk reportOk nonce keyHash)) s = .next (sessionRefuse s y reason))
  ∧ (∀ (p : Fin 2) (v6 : Bool) (ip : BitVec 128) (sport : BitVec 16) (sigOk : Bool) (y : Session) (s : State),
      s.plat.running = true → (mpOf s p).linkUp = true → mpFamily s p v6 = true → sessionOf s p v6 ip.toNat sport.toNat = some y →
      y.up = false → y.gotCert = true →
      exec (.sessionDatagram p v6 ip sport (.finish sigOk)) s = .next (
        if sigOk then putSession s { y with up := true, since := s.clock, heardAt := s.clock } else sessionRefuse s y 2))
  ∧ (∀ (p : Fin 2) (v6 : Bool) (ip : BitVec 128) (sport : BitVec 16) (y : Session) (s : State),
      s.plat.running = true → (mpOf s p).linkUp = true → mpFamily s p v6 = true → sessionOf s p v6 ip.toNat sport.toNat = some y →
      y.up = false → exec (.sessionDatagram p v6 ip sport .refuse) s = .next (dropSession s y))
  ∧ (∀ (p : Fin 2) (v6 : Bool) (ip : BitVec 128) (sport : BitVec 16) (epoch no : Nat) (next : Bool) (l : List (BitVec 26 × Option Word))
      (y : Session) (s : State),
      s.plat.running = true → (mpOf s p).linkUp = true → mpFamily s p v6 = true → sessionOf s p v6 ip.toNat sport.toNat = some y →
      y.up = true → sessionFresh y epoch no = true →
      exec (.sessionDatagram p v6 ip sport (.frame epoch no next true l)) s = .next (
        let r := sessionAccess (putSession s (sessionTook y epoch no next s.clock)) l
        match sessionOf r.1 y.mp y.v6 y.ip y.sport with
        | none => r.1
        | some z => sessionSend (putSession r.1 (sessionSent z r.1.clock)) z
            (Config.sessionCipher z.txEpoch z.txFrame (r.2 ++ natBe 1 (b2n (z.txNext == some (z.txFrame + 2)))))))
  ∧ (∀ (p : Fin 2) (v6 : Bool) (ip : BitVec 128) (sport : BitVec 16) (epoch no : Nat) (next : Bool) (l : List (BitVec 26 × Option Word))
      (y : Session) (s : State),
      s.plat.running = true → (mpOf s p).linkUp = true → mpFamily s p v6 = true → sessionOf s p v6 ip.toNat sport.toNat = some y →
      y.up = true → sessionFresh y epoch no = true →
      exec (.sessionDatagram p v6 ip sport (.frame epoch no next false l)) s = .next (dropSession s y))
  ∧ (∀ (p : Fin 2) (v6 : Bool) (ip : BitVec 128) (sport : BitVec 16) (epoch no : Nat) (next tagOk : Bool) (l : List (BitVec 26 × Option Word))
      (y : Session) (s : State),
      sessionOf s p v6 ip.toNat sport.toNat = some y → (y.up && sessionFresh y epoch no) = false →
      exec (.sessionDatagram p v6 ip sport (.frame epoch no next tagOk l)) s = .next s)
  ∧ (∀ (p : Fin 2) (v6 : Bool) (ip : BitVec 128) (sport : BitVec 16) (g : SessionMsg) (s : State),
      sessionOf s p v6 ip.toNat sport.toNat = none → (∀ m, g ≠ .hello m) → exec (.sessionDatagram p v6 ip sport g) s = .next s)
  ∧ (∀ (p : Fin 2) (v6 : Bool) (ip : BitVec 128) (sport : BitVec 16) (x : Session) (s : State),
      sessionOf s p v6 ip.toNat sport.toNat = some x → x.heardAt + 30 * secUnit ≤ s.clock →
      exec (.sessionIdleTimeout p v6 ip sport) s = .next (dropSession s x))

/-- ONE COMMAND AT A TIME (log 1): the command at the front of the queue is run with the queue's rest. -/
def Obligations.AStepRunsTheCommandAtTheFront : Prop :=
  ∀ (c : Instr) (rest : List Instr) (s : State), step { s with pending := c :: rest } = exec c { s with pending := rest }

/-- TIME (log 2): one nanosecond passes on an empty queue; nothing but the counter, its correction and the 1 PPS output moves. -/
def Obligations.AnEmptyQueueLetsOneNanosecondPass : Prop :=
  (∀ s : State, s.pending = [] → s.plat.running = true →
    let added := s.tim.freqAcc + freqNow s
    let now := s.clock + (65536 + added / 1000000).toNat
    step s = .next { s with clock := now, tim := { s.tim with freqAcc := added % 1000000 },
                            pins := { s.pins with ppsOut := s.pins.ppsOut && decide (now < s.tim.ppsFall) } })
  ∧ (∀ s : State, s.pending = [] → s.plat.running = true → s.tim.freqAcc = 0 → freqNow s = 0 →
    step s = .next { s with clock := s.clock + 65536, pins := { s.pins with ppsOut := s.pins.ppsOut && decide (s.clock + 65536 < s.tim.ppsFall) } })
  ∧ (∀ s : State, s.pending = [] → s.plat.running = false → step s = .next s)

/-- RESET (log 9): the module before its supplies are applied. -/
def Obligations.AfterResetNothingIsHeldInAMemoryAndNothingWaits : Prop :=
  State.reset.wf = true ∧ State.reset.regs = [] ∧ State.reset.oasis = [] ∧ State.reset.hostMem = [] ∧ State.reset.pending = []
  ∧ State.reset.outbox = [] ∧ State.reset.plat.fsrRing = [] ∧ State.reset.plat.running = false ∧ State.reset.plat.auxOk = false
  ∧ (∀ d < 8, duneSt State.reset d = 0) ∧ mgtReady State.reset = false ∧ timReady State.reset = false

/-- THE INVARIANT: equal memories stay equal data, whatever command runs. -/
def Obligations.EveryStepKeepsTheMapsCanonical : Prop :=
  ∀ s t : State, State.wf s = true → step s = .next t → State.wf t = true

/-- TOTALITY (log 3): no command stops the machine. -/
def Obligations.EveryCommandCompletes : Prop := ∀ (c : Instr) (s : State), ∃ t, exec c s = .next t

/-- THE MODEL'S OWN FIELDS (logs 1, 5): commands come from outside only, and a free value is not used twice by going back. -/
def Obligations.NoCommandTouchesTheQueueOrReusesAFreeValue : Prop :=
  ∀ (c : Instr) (s t : State), exec c s = .next t → t.pending = s.pending ∧ s.free ≤ t.free

/-- OUTPUT (log 4): a packet, an interrupt or a reply that has left stays as it left. -/
def Obligations.WhatHasLeftTheModuleStays : Prop :=
  ∀ (c : Instr) (s t : State), exec c s = .next t → s.outbox <+: t.outbox

/-- ONE-TIME-PROGRAMMABLE (R7, R84): what the factory programs, no command and no reset changes. -/
def Obligations.TheFactoryFusesNeverChange : Prop :=
  ∀ (c : Instr) (s t : State), exec c s = .next t → t.otp.serial = s.otp.serial ∧ t.otp.variant = s.otp.variant
    ∧ t.otp.macs = s.otp.macs ∧ t.otp.vendorKey = s.otp.vendorKey ∧ t.otp.cert = s.otp.cert

/-- RESET VALUES: what the register maps give. -/
def Obligations.ResetGivesTheRegistersTheirResetValues : Prop :=
  rd State.reset Reg.IMG_ERR = 0xFFFF ∧ rd State.reset Reg.FWD_CFG = 0x10
  ∧ rd State.reset Reg.RTE_CFG = 0x24003E8 ∧ rd State.reset Reg.RTE_THROTTLE = 0x800060 ∧ rd State.reset Reg.RTE_SAT = 0x5A1900C8
  ∧ rd State.reset Reg.RTE_RSQ_HOLD = 0x200 ∧ rd State.reset Reg.TIM_STEP_TH = 0x64 ∧ rd State.reset Reg.TIM_HOLD_CFG = 0x100
  ∧ rd State.reset Reg.COL_CFG = 0x2000064 ∧ rd State.reset Reg.COL_STRAG = 0x40032 ∧ rd State.reset Reg.MGT_TRIAD = 0xE000000
  ∧ rd State.reset Reg.MGT_FN_CFG = 0x3E8 ∧ rd State.reset Reg.MGT_CFG = 0x80000000 ∧ rd State.reset Reg.MGT_MIRAGE_CFG = 0x30040
  ∧ rd State.reset Reg.PWR_LIMIT = 0x12C0 ∧ rd State.reset Reg.HIF_ERR = 0 ∧ rd State.reset Reg.PLT_READY_SUM = 0
  ∧ ∀ d < 8, rd State.reset (Reg.SWC_SPILL_HWM d) = 0x56000 ∧ rd State.reset (Reg.SWC_SPILL_LWM d) = 0x50000
    ∧ rd State.reset (Reg.FWD_SCRUB d) = 0xA0064 ∧ rd State.reset (Reg.BRC_CFG d) = 0x80000002 ∧ rd State.reset (Reg.CHK_CFG d) = 0x32000064
    ∧ rd State.reset (Reg.CHK_HOLD d) = 0x3E8 ∧ rd State.reset (Reg.CHK_MARGIN_CFG d) = 0x371E0002 ∧ rd State.reset (Reg.SWC_EVT d) = 0

/-- THE FRAME OF EVERY REGISTER CHANGE (R13): the named operations that all commands use. -/
def Obligations.AWriteChangesItsRegisterOnly : Prop :=
  (∀ s a v, rd (wr s a v) a = v ∧ (∀ b, regHome b ≠ regHome a → rd (wr s a v) b = rd s b) ∧ { wr s a v with regs := s.regs } = s)
  ∧ (∀ s a f n, f.lo ≤ f.hi ∧ f.hi < 32 → rf (wf s a f n) a f = n % 2 ^ (f.hi - f.lo + 1)
    ∧ (∀ g : BitRange, g.lo ≤ g.hi → f.hi < g.lo ∨ g.hi < f.lo → rf (wf s a f n) a g = rf s a g)
    ∧ (∀ b, regHome b ≠ regHome a → rd (wf s a f n) b = rd s b) ∧ { wf s a f n with regs := s.regs } = s)
  ∧ (∀ s a l, (∀ b, regHome b ≠ regHome a → rd (wfs s a l) b = rd s b) ∧ { wfs s a l with regs := s.regs } = s)
  ∧ (∀ s a n, (∀ b, regHome b ≠ regHome a → rd (wn s a n) b = rd s b) ∧ { wn s a n with regs := s.regs } = s)
  ∧ (∀ s a n, (∀ b, regHome b ≠ regHome a → rd (bump32 s a n) b = rd s b) ∧ { bump32 s a n with regs := s.regs } = s)
  ∧ (∀ s a n, (∀ b, regHome b ≠ regHome a → regHome b ≠ regHome (a + 4) → rd (bump64 s a n) b = rd s b) ∧ { bump64 s a n with regs := s.regs } = s)

/-- COUNTERS (R132): 64 bits, LO and HI, saturating. -/
def Obligations.CountersSaturate : Prop :=
  (∀ s a n, regHome (a + 4) ≠ regHome a → rn64 (bump64 s a n) a = Nat.min (2 ^ 64 - 1) (rn64 s a + n))
  ∧ (∀ s a n, regHome (a + 4) ≠ regHome a → rn64 s a ≤ rn64 (bump64 s a n) a ∧ rn64 (bump64 s a n) a < 2 ^ 64)
  ∧ (∀ s a n, rn (bump32 s a n) a = Nat.min (2 ^ 32 - 1) (rn s a + n))

/-- THE ACCESS CODES (Table 0.4, R15, R61): what a software write leaves in each bit. -/
def Obligations.SoftwareWritesObeyTheAccessCodes : Prop :=
  (∀ s a (v : Word) r (i : Nat), regRow (regHome a) = some r → i < 32 → (rd (softWrite s a v) a).getLsbD i
    = (if (BitVec.ofNat 32 r.w1c).getLsbD i && v.getLsbD i then false
       else if ((BitVec.ofNat 32 (if rb s Reg.IMG_STATUS F.IMG_STATUS_SEALED then r.rw else r.rw ||| r.rwl)).getLsbD i
           && !(BitVec.ofNat 32 (fixedBits r (regHome a))).getLsbD i) then v.getLsbD i
       else (rd s a).getLsbD i))
  ∧ (∀ s a (v : Word), (∀ b, regHome b ≠ regHome a → rd (softWrite s a v) b = rd s b) ∧ { softWrite s a v with regs := s.regs } = s)
  ∧ (∀ s a (v : Word), regRow (regHome a) = none → softWrite s a v = s)
  ∧ (∀ s (v : Word), s.plat.running = true → held s = false →
    exec (.registerWrite (BitVec.ofNat 26 Reg.PWR_LIMIT) v) s = .next (softWrite s Reg.PWR_LIMIT v))

/-- MEMORY (log 6): what is stored reads back, and nothing else moves. -/
def Obligations.OasisReadsBackWhatWasWritten : Prop :=
  (∀ s p off (bs : List Byte) (i : Nat), i < bs.length → some (oasisByte (oasisWrite s p off bs) p (off + i)) = bs[i]?)
  ∧ (∀ s p off (bs : List Byte) q o, (∀ i < bs.length, oasisAddr q o ≠ oasisAddr p (off + i)) →
    oasisByte (oasisWrite s p off bs) q o = oasisByte s q o)
  ∧ (∀ s p off (bs : List Byte), { oasisWrite s p off bs with oasis := s.oasis } = s
    ∧ (SMap.wf memDefault s.oasis = true → SMap.wf memDefault (oasisWrite s p off bs).oasis = true))
  ∧ (∀ s a (bs : List Byte) (i : Nat), bs.length ≤ 2 ^ 64 → i < bs.length → hostRead (hostWrite s a bs) (a + i) 1 = (bs[i]?).toList)
  ∧ (∀ s a (bs : List Byte) b, (∀ i < bs.length, b % 2 ^ 64 ≠ (a + i) % 2 ^ 64) → hostRead (hostWrite s a bs) b 1 = hostRead s b 1)
  ∧ (∀ s a (bs : List Byte), { hostWrite s a bs with hostMem := s.hostMem } = s
    ∧ (SMap.wf memDefault s.hostMem = true → SMap.wf memDefault (hostWrite s a bs).hostMem = true))

/-- EVENT COUNTERS (R95, R96). -/
def Obligations.WaitsCompareModuloTwoToTheTwentieth : Prop :=
  (∀ s d i n, counter (addCounter s d i n) d i = (counter s d i + n) % 2 ^ 20)
  ∧ (∀ s d i n e j, d < 8 → i < 4095 → e < 8 → j < 4095 → (e, j) ≠ (d, i) → counter (addCounter s d i n) e j = counter s e j)
  ∧ (∀ s d i v, v < 2 ^ 20 → (waitMet s d (i, v) = true ↔ ((counter s d i : Int) - (v : Int)) % (2 ^ 20 : Int) < 2 ^ 19))

/-- THE SIGNAL (R97): what follows the completion record of a claim. -/
def Obligations.TheSignalCounterCountsSuccess : Prop :=
  (∀ s d q no st x, workStopped s = false → (cqOf s d q).slots.find? (fun y => y.no == no && slotOpen y) = some x →
    ∃ u, claim s d q no st = signalCounter (writeRecord u d q { x with st := .done, status := st, holds := false }) d
      { x with st := .done, status := st, holds := false })
  ∧ (∀ s d x, dSignal x.desc ≠ 0xFFF → x.status = stOk ∨ x.status = stRangeEscalated ∨ (dOpcode x.desc = 1 ∧ x.status = stAbortLate) →
    signalCounter s d x = addCounter s d (dSignal x.desc) 1
    ∧ counter (signalCounter s d x) d (dSignal x.desc) = (counter s d (dSignal x.desc) + 1) % 2 ^ 20)
  ∧ (∀ s d x, x.status ≠ stOk → x.status ≠ stRangeEscalated → ¬ (dOpcode x.desc = 1 ∧ x.status = stAbortLate) → signalCounter s d x = s)
  ∧ (∀ s d x, dSignal x.desc = 0xFFF → signalCounter s d x = s)

/-- THE ATOMIC CLAIM (R100): exactly one record for every accepted command. -/
def Obligations.OneRecordForEachClaim : Prop :=
  (∀ s d q no st, claimable s d q no = false → claim s d q no st = s)
  ∧ (∀ s d q no st, workStopped s = true → claim s d q no st = s)
  ∧ (∀ s d q no st x, d < 8 → q < 2048 → workStopped s = false → (cqOf s d q).slots.find? (fun y => y.no == no && slotOpen y) = some x →
    (cnqOf (claim s d q no st) d (cqCnq s d q)).unread = (cnqOf s d (cqCnq s d q)).unread ++ [(flatQ d q, x.no)]
    ∧ rn (claim s d q no st) (Reg.HIF_CNQ_TAIL d (cqCnq s d q))
      = (rn s (Reg.HIF_CNQ_TAIL d (cqCnq s d q)) + 1) % 2 ^ (cnqOf s d (cqCnq s d q)).log2 % 2 ^ 32
    ∧ ((cnqOf s d (cqCnq s d q)).dest ≠ 1 →
      hostRead (claim s d q no st) ((cnqOf s d (cqCnq s d q)).base + 16 * rn s (Reg.HIF_CNQ_TAIL d (cqCnq s d q))) 16
        = recordBytes (time48 s) (cnqOf s d (cqCnq s d q)).phase { x with status := st }))
  ∧ (∀ s d q no st st', d < 8 → ((cqOf s d q).slots.map Slot.no).Nodup → claim (claim s d q no st) d q no st' = claim s d q no st)
  ∧ (∀ s d q no st, d < 8 → ((cqOf s d q).slots.map Slot.no).Nodup → ((cqOf (claim s d q no st) d q).slots.map Slot.no).Nodup)
  ∧ (∀ descs (c : Cq), (c.slots.map Slot.no).Nodup → (∀ y ∈ c.slots, y.no < c.nextNo) →
    ((appendDescs descs c).slots.map Slot.no).Nodup ∧ ∀ y ∈ (appendDescs descs c).slots, y.no < (appendDescs descs c).nextNo)

/-- CLASS 7 (R113, R134, R164). -/
def Obligations.AClass7CellIsDiscarded : Prop :=
  (∀ (port : Fin 4096) (sub : Fin 8) h cr (c : Cfh) payload err s lane, laneOfPort s port sub.val = some lane → linkCarries s port = true →
    portEth s port = false → c.cls = 7 → c.ver < 2 →
    exec (.fabricPacketIngress port ⟨sub, err⟩ h cr c payload) s
      = .next (bump64 (linkHdrErr s (portDune s port) port) (Reg.SWC_CLASS7_DROP (portDune s port)) 1))
  ∧ (∀ (port : Fin 4096) (sub : Fin 8) h cr (c : Cfh) payload err s lane, laneOfPort s port sub.val = some lane → linkCarries s port = true →
    portEth s port = false → c.cls = 7 → 2 ≤ c.ver →
    exec (.fabricPacketIngress port ⟨sub, err⟩ h cr c payload) s
      = .next (bump64 (linkHdrErr s (portDune s port) port) (Reg.FWD_BAD_VER (portDune s port)) 1))
  ∧ (∀ s d, rn64 (bump64 s (Reg.SWC_CLASS7_DROP d) 1) (Reg.SWC_CLASS7_DROP d) = Nat.min (2 ^ 64 - 1) (rn64 s (Reg.SWC_CLASS7_DROP d) + 1))
  ∧ (∀ s d p (k : SwPkt) (c : Cfh), c.ver < 2 → c.cls = 7 → fabricLookup s d p k c = bump64 s (Reg.SWC_CLASS7_DROP d) 1)
  ∧ (∀ s d p (k : SwPkt) (c : Cfh), 2 ≤ c.ver → fabricLookup s d p k c = bump64 s (Reg.FWD_BAD_VER d) 1)

/-- THE GATES (R210). -/
def Obligations.WithoutAnArmedListOnlySchedIsClosed : Prop :=
  (∀ s g c t, pgSt s g = 0 ∨ pgSt s g = 4 ∨ pgSt s g = 1 → gateOpenAt s g c t = decide (c ≠ 5) ∧ guardAt s g t = false
    ∧ ∀ p, portGroup s p = g → grantClass s p 5 = s ∧ ∀ vc, grantAllowance s p vc 5 = s)
  ∧ (∀ s g c t k, pgSt s g = 2 ∨ pgSt s g = 3 → (pgOf s g).list = some k →
    gateOpenAt s g c t = gOpen c (getAt 0 (geomEntries (pgOf s g) k) (entryAt (pgOf s g) k t).1)
    ∧ guardAt s g t = gGuard (getAt 0 (geomEntries (pgOf s g) k) (entryAt (pgOf s g) k t).1))

/-- SHAPERS (R217). -/
def Obligations.ShapersCountTokensExactly : Prop :=
  (∀ s lane c, shapeOk s lane c = true ↔ shapeRate s lane c = 0 ∨ 0 ≤ shapeNow s lane c)
  ∧ (∀ s lane c b, shapeRate s lane c = 0 → shapeTake s lane c b = s)
  ∧ (∀ s lane c b, shapeRate s lane c ≠ 0 → SMap.get (fun _ => ((0 : Int), 0)) (shapeTake s lane c b).sch.shapers (shapeKey lane c)
    = (min ((shapeBurst s lane c * (8000 * 65536) : Nat) : Int) ((SMap.get (fun _ => ((0 : Int), 0)) s.sch.shapers (shapeKey lane c)).1
        + (shapeRate s lane c * (s.clock - (SMap.get (fun _ => ((0 : Int), 0)) s.sch.shapers (shapeKey lane c)).2) : Nat))
      - (b * (8000 * 65536) : Nat), s.clock))
  ∧ (∀ s lane c b l k, k < 8 → c < 8 → (l, k) ≠ (lane, c) → SMap.get (fun _ => ((0 : Int), 0)) (shapeTake s lane c b).sch.shapers (shapeKey l k)
    = SMap.get (fun _ => ((0 : Int), 0)) s.sch.shapers (shapeKey l k))
  ∧ (∀ s lane c n, SMap.get (fun _ => ((0 : Int), 0)) (setTokens s lane c n).sch.shapers (shapeKey lane c) = (n, s.clock))

/-- TASKS (R231). -/
def Obligations.PhaseOneTasksCoverEachElementOnce : Prop :=
  ∀ (s : State) (r : KRun),
    runSegs r = (dCount r.desc + 511) / 512
    ∧ (∀ i, i < runSegs r → (kernelTask s r 1 i).base = 512 * i
      ∧ (kernelTask s r 1 i).base + (kernelTask s r 1 i).count = Nat.min (dCount r.desc) (512 * i + 512)
      ∧ 0 < (kernelTask s r 1 i).count ∧ (kernelTask s r 1 i).count ≤ 512
      ∧ (kernelTask s r 1 i).home = cqRipple (r.fq / 2048) (r.fq % 2048))
    ∧ (∀ e, e < dCount r.desc → ∃ i, (i < runSegs r ∧ (kernelTask s r 1 i).base ≤ e ∧ e < (kernelTask s r 1 i).base + (kernelTask s r 1 i).count)
      ∧ ∀ j, j < runSegs r → (kernelTask s r 1 j).base ≤ e → e < (kernelTask s r 1 j).base + (kernelTask s r 1 j).count → j = i)

/-- EXACT ACCUMULATION (R227, R251): the order of the inputs does not matter. -/
def Obligations.TheOrderOfContributionsDoesNotMatter : Prop :=
  ∀ (op : Nat) (xs ys : List XVal), xs.Perm ys → sumNat (xs.map (fun x => match x with | .fin n => n.natAbs | _ => 0)) < 2 ^ 315 →
    xs.foldl (fun a x => (accAdd op a x).1) accEmpty = ys.foldl (fun a x => (accAdd op a x).1) accEmpty

/-- THE TRIM WINDOW (R76). -/
def Obligations.AnInvalidTrimSelectionReadsZeroAndTakesNoWrite : Prop :=
  (∀ s, rf (showTrim s) Reg.PLT_TRIM_EFF F.PLT_TRIM_EFF_INVALID
      = b2n (!trimIndexOk s.otp.variant (rf s Reg.PLT_TRIM_SEL F.PLT_TRIM_SEL_PARAM) (rf s Reg.PLT_TRIM_SEL F.PLT_TRIM_SEL_INDEX)))
  ∧ (∀ s, rf (showTrim s) Reg.PLT_TRIM_EFF F.PLT_TRIM_EFF_INVALID = 1 →
    rn (showTrim s) Reg.PLT_TRIM_FACTORY = 0 ∧ rf (showTrim s) Reg.PLT_TRIM_EFF F.PLT_TRIM_EFF_VALUE = 0)
  ∧ (∀ s v, held s = false →
    trimIndexOk s.otp.variant (rf s Reg.PLT_TRIM_SEL F.PLT_TRIM_SEL_PARAM) (rf s Reg.PLT_TRIM_SEL F.PLT_TRIM_SEL_INDEX) = false →
    exec (.trimUserWrite v) s = .next s)

/-- ROLLBACK (R62). -/
def Obligations.SealingRaisesTheMinimumSequenceAtMost255Times : Prop :=
  (∀ s, hAdvance s.img.header = true → s.rot.raises < 255 →
    (sealNow s).rot.minSeq = Nat.max s.rot.minSeq (hImageSeq s.img.header)
    ∧ (sealNow s).rot.raises = s.rot.raises + (if s.rot.minSeq < hImageSeq s.img.header then 1 else 0))
  ∧ (∀ s, hAdvance s.img.header = true → 255 ≤ s.rot.raises → (sealNow s).rot = s.rot
    ∧ rf (sealNow s) Reg.IMG_STATUS F.IMG_STATUS_RB_EXHAUSTED = 1)
  ∧ (∀ s, hAdvance s.img.header = false → (sealNow s).rot = s.rot)
  ∧ (∀ s, s.rot.minSeq ≤ (sealNow s).rot.minSeq ∧ (s.rot.raises ≤ 255 → (sealNow s).rot.raises ≤ 255))

/-- FRAMES (R38): what the named commands of each block leave alone. -/
def Obligations.ABlocksCommandsChangeNoOtherBlock : Prop :=
  (∀ s t, exec .refLoss s = .next t →
      { t with regs := s.regs, hostMem := s.hostMem, hif := s.hif, outbox := s.outbox, tim := s.tim } = s)
  ∧ (∀ kind port m s t, exec (.ptpMessageRx kind port m) s = .next t →
      { t with regs := s.regs, hostMem := s.hostMem, hif := s.hif, outbox := s.outbox, tim := s.tim } = s)
  ∧ (∀ kind port s t, exec (.announceTimeout kind port) s = .next t →
      { t with regs := s.regs, hostMem := s.hostMem, hif := s.hif, outbox := s.outbox, tim := s.tim } = s)
  ∧ (∀ port sub rx back s t, exec (.fineTimeMarker port sub rx back) s = .next t →
      { t with regs := s.regs, hostMem := s.hostMem, hif := s.hif, outbox := s.outbox, tim := s.tim } = s)
  ∧ (∀ s t, exec .ppsLoss s = .next t →
      { t with regs := s.regs, hostMem := s.hostMem, hif := s.hif, outbox := s.outbox, tim := s.tim } = s)
  ∧ (∀ v s t, exec (.timAccept v) s = .next t →
      { t with regs := s.regs, hostMem := s.hostMem, hif := s.hif, outbox := s.outbox, tim := s.tim } = s)
  ∧ (∀ widthNs s t, exec (.ppsInEdge widthNs) s = .next t →
      { t with regs := s.regs, hostMem := s.hostMem, hif := s.hif, outbox := s.outbox, tim := s.tim } = s)
  ∧ (∀ s t, exec .fineQualify s = .next t →
      { t with regs := s.regs, hostMem := s.hostMem, hif := s.hif, outbox := s.outbox, tim := s.tim } = s)
  ∧ (∀ s t, exec .refQualify s = .next t →
      { t with regs := s.regs, hostMem := s.hostMem, hif := s.hif, outbox := s.outbox, free := s.free, tim := s.tim } = s)
  ∧ (∀ v s t, exec (.timCapture v) s = .next t →
      { t with regs := s.regs, hostMem := s.hostMem, hif := s.hif, outbox := s.outbox, tim := s.tim } = s)
  ∧ (∀ mgmt s t, exec (.ptpSyncSend mgmt) s = .next t →
      { t with regs := s.regs, hostMem := s.hostMem, hif := s.hif, outbox := s.outbox, tim := s.tim } = s)
  ∧ (∀ mgmt s t, exec (.ptpAnnounceSend mgmt) s = .next t →
      { t with regs := s.regs, hostMem := s.hostMem, hif := s.hif, outbox := s.outbox, tim := s.tim } = s)
  ∧ (∀ d w s t, exec (.gateListDataWrite d w) s = .next t →
      { t with regs := s.regs, hostMem := s.hostMem, hif := s.hif, outbox := s.outbox, sch := s.sch } = s)
  ∧ (∀ pg v s t, exec (.gateListArm pg v) s = .next t →
      { t with regs := s.regs, hostMem := s.hostMem, hif := s.hif, outbox := s.outbox, sch := s.sch } = s)
  ∧ (∀ pg v s t, exec (.gateListDisable pg v) s = .next t →
      { t with regs := s.regs, hostMem := s.hostMem, hif := s.hif, outbox := s.outbox, sch := s.sch } = s)
  ∧ (∀ pg v s t, exec (.gateListCancel pg v) s = .next t →
      { t with regs := s.regs, hostMem := s.hostMem, hif := s.hif, outbox := s.outbox, sch := s.sch } = s)
  ∧ (∀ d k c v s t, exec (.shaperRateWrite d k c v) s = .next t →
      { t with regs := s.regs, hostMem := s.hostMem, hif := s.hif, outbox := s.outbox, sch := s.sch } = s)
  ∧ (∀ pg s t, exec (.gateEntryStart pg) s = .next t →
      { t with regs := s.regs, hostMem := s.hostMem, hif := s.hif, outbox := s.outbox, sch := s.sch } = s)
  ∧ (∀ v s t, exec (.flipCancel v) s = .next t →
      { t with regs := s.regs, hostMem := s.hostMem, hif := s.hif, outbox := s.outbox, rte := s.rte } = s)
  ∧ (∀ v s t, exec (.flipArm v) s = .next t →
      { t with regs := s.regs, hostMem := s.hostMem, hif := s.hif, outbox := s.outbox, rte := s.rte } = s)
  ∧ (∀ w s t, exec (.routingTableData w) s = .next t →
      { t with regs := s.regs, hostMem := s.hostMem, hif := s.hif, outbox := s.outbox, rte := s.rte } = s)
  ∧ (∀ s t, exec .utilisationWindow s = .next t →
      { t with regs := s.regs, hostMem := s.hostMem, hif := s.hif, outbox := s.outbox, rte := s.rte } = s)
  ∧ (∀ s t, exec .epochFlip s = .next t →
      { t with regs := s.regs, hostMem := s.hostMem, hif := s.hif, outbox := s.outbox, rte := s.rte } = s)
  ∧ (∀ s t, exec .spraySample s = .next t →
      { t with regs := s.regs, hostMem := s.hostMem, hif := s.hif, outbox := s.outbox, rte := s.rte } = s)
  ∧ (∀ d ctx s t, exec (.sourceContextExpire d ctx) s = .next t →
      { t with regs := s.regs, hostMem := s.hostMem, hif := s.hif, outbox := s.outbox, rte := s.rte } = s)
  ∧ (∀ d k s t, exec (.destContextExpire d k) s = .next t →
      { t with regs := s.regs, hostMem := s.hostMem, hif := s.hif, outbox := s.outbox, rte := s.rte } = s)
  ∧ (∀ s t, exec .throttleUpdate s = .next t →
      { t with regs := s.regs, hostMem := s.hostMem, hif := s.hif, outbox := s.outbox, rte := s.rte, swc := s.swc } = s)
  ∧ (∀ d s t, exec (.refreshTimeout d) s = .next t →
      { t with regs := s.regs, hostMem := s.hostMem, hif := s.hif, outbox := s.outbox, fwd := s.fwd } = s)
  ∧ (∀ d s t, exec (.replicaApply d) s = .next t →
      { t with regs := s.regs, hostMem := s.hostMem, hif := s.hif, outbox := s.outbox, fwd := s.fwd, opt := s.opt, rot := s.rot, rte := s.rte, swc := s.swc } = s)
  ∧ (∀ v s t, exec (.fwdUpdateGo v) s = .next t →
      { t with regs := s.regs, hostMem := s.hostMem, hif := s.hif, outbox := s.outbox, fwd := s.fwd, swc := s.swc } = s)
  ∧ (∀ port c payload s t, exec (.learningMessage port c payload) s = .next t →
      { t with regs := s.regs, hostMem := s.hostMem, hif := s.hif, outbox := s.outbox, fwd := s.fwd, swc := s.swc } = s)
  ∧ (∀ s t, exec .shadowRebuild s = .next t →
      { t with regs := s.regs, hostMem := s.hostMem, hif := s.hif, outbox := s.outbox, fwd := s.fwd } = s)
  ∧ (∀ s t, exec .lpmOldSpaceFree s = .next t →
      { t with regs := s.regs, hostMem := s.hostMem, hif := s.hif, outbox := s.outbox, fwd := s.fwd } = s)
  ∧ (∀ d shadowBad s t, exec (.tableRebuild d shadowBad) s = .next t →
      { t with regs := s.regs, hostMem := s.hostMem, hif := s.hif, outbox := s.outbox, fwd := s.fwd, swc := s.swc } = s)
  ∧ (∀ port r s t, exec (.refreshRequestRx port r) s = .next t →
      { t with regs := s.regs, hostMem := s.hostMem, hif := s.hif, outbox := s.outbox, fwd := s.fwd, swc := s.swc } = s)
  ∧ (∀ seg verdicts s t, exec (.orderSegmentRx seg verdicts) s = .next t →
      { t with regs := s.regs, hostMem := s.hostMem, hif := s.hif, outbox := s.outbox, mgt := s.mgt } = s)
  ∧ (∀ v verdicts s t, exec (.orderSubmit v verdicts) s = .next t →
      { t with regs := s.regs, hostMem := s.hostMem, hif := s.hif, outbox := s.outbox, mgt := s.mgt } = s)
  ∧ (∀ s t, exec .unfence s = .next t →
      { t with regs := s.regs, hostMem := s.hostMem, hif := s.hif, outbox := s.outbox, mgt := s.mgt } = s)
  ∧ (∀ selfTestOk s t, exec (.triadRejoin selfTestOk) s = .next t →
      { t with regs := s.regs, hostMem := s.hostMem, hif := s.hif, outbox := s.outbox, mgt := s.mgt } = s)
  ∧ (∀ port s t, exec (.heldBeaconAbsence port) s = .next t →
      { t with regs := s.regs, hostMem := s.hostMem, hif := s.hif, outbox := s.outbox, mgt := s.mgt } = s)
  ∧ (∀ s t, exec .triadProbationEnd s = .next t →
      { t with regs := s.regs, hostMem := s.hostMem, hif := s.hif, outbox := s.outbox, mgt := s.mgt } = s)
  ∧ (∀ d q s t, exec (.caravanRoot d q) s = .next t →
      { t with regs := s.regs, hostMem := s.hostMem, hif := s.hif, outbox := s.outbox, col := s.col } = s)
  ∧ (∀ d q s t, exec (.caravanNode d q) s = .next t →
      { t with regs := s.regs, hostMem := s.hostMem, hif := s.hif, outbox := s.outbox, col := s.col } = s)
  ∧ (∀ tid s t, exec (.parentSilence tid) s = .next t →
      { t with regs := s.regs, hostMem := s.hostMem, hif := s.hif, outbox := s.outbox, col := s.col } = s)
  ∧ (∀ tid s t, exec (.caravanDeadline tid) s = .next t →
      { t with regs := s.regs, hostMem := s.hostMem, hif := s.hif, outbox := s.outbox, col := s.col } = s)
  ∧ (∀ c payload s t, exec (.caravanDone c payload) s = .next t →
      { t with regs := s.regs, hostMem := s.hostMem, hif := s.hif, outbox := s.outbox, col := s.col } = s)
  ∧ (∀ d q s t, exec (.memberSwap d q) s = .next t →
      { t with regs := s.regs, hostMem := s.hostMem, hif := s.hif, outbox := s.outbox, col := s.col } = s)
  ∧ (∀ c payload s t, exec (.caravanHeartbeat c payload) s = .next t →
      { t with regs := s.regs, hostMem := s.hostMem, hif := s.hif, outbox := s.outbox, col := s.col } = s)
  ∧ (∀ c payload s t, exec (.caravanAck c payload) s = .next t →
      { t with regs := s.regs, hostMem := s.hostMem, hif := s.hif, outbox := s.outbox, col := s.col } = s)
  ∧ (∀ c payload s t, exec (.caravanAttach c payload) s = .next t →
      { t with regs := s.regs, hostMem := s.hostMem, hif := s.hif, outbox := s.outbox, col := s.col } = s)
  ∧ (∀ tid s t, exec (.caravanFetch tid) s = .next t →
      { t with regs := s.regs, hostMem := s.hostMem, hif := s.hif, outbox := s.outbox, col := s.col } = s)
  ∧ (∀ tid s t, exec (.caravanHeartbeatSend tid) s = .next t →
      { t with regs := s.regs, hostMem := s.hostMem, hif := s.hif, outbox := s.outbox, col := s.col } = s)
  ∧ (∀ c payload s t, exec (.caravanNack c payload) s = .next t →
      { t with regs := s.regs, hostMem := s.hostMem, hif := s.hif, outbox := s.outbox, col := s.col } = s)
  ∧ (∀ d i v s t, exec (.policerEnable d i v) s = .next t →
      { t with regs := s.regs, hostMem := s.hostMem, hif := s.hif, outbox := s.outbox, swc := s.swc } = s)
  ∧ (∀ d s t, exec (.puntDeliver d) s = .next t →
      { t with regs := s.regs, hostMem := s.hostMem, hif := s.hif, outbox := s.outbox, swc := s.swc } = s)
  ∧ (∀ d p c v s t, exec (.poolMaxWrite d p c v) s = .next t →
      { t with regs := s.regs, hostMem := s.hostMem, hif := s.hif, outbox := s.outbox, swc := s.swc } = s)
  ∧ (∀ d m v s t, exec (.mirrorSessionEnable d m v) s = .next t →
      { t with regs := s.regs, hostMem := s.hostMem, hif := s.hif, outbox := s.outbox, swc := s.swc } = s)
  ∧ (∀ a s t, exec (.counterLoRead a) s = .next t →
      { t with regs := s.regs, hostMem := s.hostMem, hif := s.hif, outbox := s.outbox, swc := s.swc } = s)
  ∧ (∀ port s t, exec (.handshakeTimeout port) s = .next t →
      { t with regs := s.regs, hostMem := s.hostMem, hif := s.hif, outbox := s.outbox, free := s.free, sec := s.sec, swc := s.swc } = s)
  ∧ (∀ port reason s t, exec (.refuse port reason) s = .next t →
      { t with regs := s.regs, hostMem := s.hostMem, hif := s.hif, outbox := s.outbox, sec := s.sec } = s)
  ∧ (∀ port m s t, exec (.hello port m) s = .next t →
      { t with regs := s.regs, hostMem := s.hostMem, hif := s.hif, outbox := s.outbox, free := s.free, sec := s.sec, swc := s.swc } = s)
  ∧ (∀ p v6 ip sport s t, exec (.sessionIdleTimeout p v6 ip sport) s = .next t →
      { t with regs := s.regs, hostMem := s.hostMem, hif := s.hif, outbox := s.outbox, sec := s.sec } = s)
  ∧ (∀ v s t, exec (.dbgClose v) s = .next t →
      { t with regs := s.regs, hostMem := s.hostMem, hif := s.hif, outbox := s.outbox, rot := s.rot } = s)
  ∧ (∀ s t, exec .debugTokenExpiry s = .next t →
      { t with regs := s.regs, hostMem := s.hostMem, hif := s.hif, outbox := s.outbox, rot := s.rot } = s)
  ∧ (∀ v s t, exec (.imageSeal v) s = .next t →
      { t with regs := s.regs, hostMem := s.hostMem, hif := s.hif, outbox := s.outbox, rot := s.rot } = s)
  ∧ (∀ r s t, exec (.pwrTelemetryUpdate r) s = .next t →
      { t with regs := s.regs, hostMem := s.hostMem, hif := s.hif, outbox := s.outbox } = s)
  ∧ (∀ m s t, exec (.paceLow m) s = .next t →
      { t with regs := s.regs, hostMem := s.hostMem, hif := s.hif, outbox := s.outbox } = s)
  ∧ (∀ d n v s t, exec (.cnqEnable d n v) s = .next t →
      { t with regs := s.regs, hostMem := s.hostMem, hif := s.hif, outbox := s.outbox } = s)
  ∧ (∀ d n v s t, exec (.cnqDisable d n v) s = .next t →
      { t with regs := s.regs, hostMem := s.hostMem, hif := s.hif, outbox := s.outbox, swc := s.swc } = s)
  ∧ (∀ d n v s t, exec (.cnqHeadWrite d n v) s = .next t →
      { t with regs := s.regs, hostMem := s.hostMem, hif := s.hif, outbox := s.outbox, swc := s.swc } = s)
  ∧ (∀ d n s t, exec (.cnqFlush d n) s = .next t →
      { t with regs := s.regs, hostMem := s.hostMem, hif := s.hif, outbox := s.outbox, swc := s.swc } = s)
  ∧ (∀ d n s t, exec (.cnqReadTimeout d n) s = .next t →
      { t with regs := s.regs, hostMem := s.hostMem, hif := s.hif, outbox := s.outbox } = s)
  ∧ (∀ d q v s t, exec (.cqEnable d q v) s = .next t →
      { t with regs := s.regs, hostMem := s.hostMem, hif := s.hif, outbox := s.outbox } = s)
  ∧ (∀ d q v s t, exec (.cqDisable d q v) s = .next t →
      { t with regs := s.regs, hostMem := s.hostMem, hif := s.hif, outbox := s.outbox } = s)
  ∧ (∀ s t, exec .drainTimeout s = .next t →
      { t with regs := s.regs, hostMem := s.hostMem, hif := s.hif, outbox := s.outbox } = s)
  ∧ (∀ d u v s t, exec (.chkUnitStart d u v) s = .next t →
      { t with regs := s.regs, hostMem := s.hostMem, hif := s.hif, outbox := s.outbox } = s)
  ∧ (∀ d u v s t, exec (.chkUnitStop d u v) s = .next t →
      { t with regs := s.regs, hostMem := s.hostMem, hif := s.hif, outbox := s.outbox } = s)
  ∧ (∀ d q s t, exec (.waitTimeout d q) s = .next t →
      { t with regs := s.regs, hostMem := s.hostMem, hif := s.hif, outbox := s.outbox } = s)
  ∧ (∀ l s t, exec (.telemetryLost l) s = .next t →
      { t with regs := s.regs, hostMem := s.hostMem, hif := s.hif, outbox := s.outbox } = s)
  ∧ (∀ p v6 w v s t, exec (.mgmtAddrWrite p v6 w v) s = .next t →
      { t with regs := s.regs, hostMem := s.hostMem, hif := s.hif, outbox := s.outbox } = s)
  ∧ (∀ d q s t, exec (.nop d q) s = .next t →
      { t with regs := s.regs, hostMem := s.hostMem, hif := s.hif, outbox := s.outbox } = s)
  ∧ (∀ v s t, exec (.attest v) s = .next t →
      { t with regs := s.regs, hostMem := s.hostMem, hif := s.hif, outbox := s.outbox } = s)
  ∧ (∀ d n s t, exec (.cnqFabricSend d n) s = .next t →
      { t with regs := s.regs, hostMem := s.hostMem, hif := s.hif, outbox := s.outbox, swc := s.swc } = s)
  ∧ (∀ d i v s t, exec (.eventCounterWrite d i v) s = .next t →
      { t with regs := s.regs, hostMem := s.hostMem, hif := s.hif, outbox := s.outbox } = s)
  ∧ (∀ s t, exec .vaux5OutOfRange s = .next t →
      { t with regs := s.regs, hostMem := s.hostMem, hif := s.hif, outbox := s.outbox } = s)
  ∧ (∀ c payload s t, exec (.doorbellSubmit c payload) s = .next t →
      { t with regs := s.regs, hostMem := s.hostMem, hif := s.hif, outbox := s.outbox } = s)
  ∧ (∀ c payload s t, exec (.doorbellCounterAdd c payload) s = .next t →
      { t with regs := s.regs, hostMem := s.hostMem, hif := s.hif, outbox := s.outbox } = s)
  ∧ (∀ d q off bytes s t, exec (.hostSubmit d q off bytes) s = .next t →
      { t with regs := s.regs, hostMem := s.hostMem, hif := s.hif, outbox := s.outbox } = s)
  ∧ (∀ p vid target sender mac s t, exec (.mgmtArpRx p vid target sender mac) s = .next t →
      { t with regs := s.regs, hostMem := s.hostMem, hif := s.hif, outbox := s.outbox } = s)
  ∧ (∀ p vid target sender mac s t, exec (.mgmtNdRx p vid target sender mac) s = .next t →
      { t with regs := s.regs, hostMem := s.hostMem, hif := s.hif, outbox := s.outbox } = s)
  ∧ (∀ p vid v6 dst src data s t, exec (.mgmtEchoRx p vid v6 dst src data) s = .next t →
      { t with regs := s.regs, hostMem := s.hostMem, hif := s.hif, outbox := s.outbox } = s)
  ∧ (∀ p s t, exec (.mgmtLinkUp p) s = .next t →
      { t with regs := s.regs, hostMem := s.hostMem, hif := s.hif, outbox := s.outbox } = s)
  ∧ (∀ s t, exec .pwrPeakRead s = .next t →
      { t with regs := s.regs, hostMem := s.hostMem, hif := s.hif, outbox := s.outbox } = s)
  ∧ (∀ a isRead s t, exec (.offlineDuneAccess a isRead) s = .next t →
      { t with regs := s.regs, hostMem := s.hostMem, hif := s.hif, outbox := s.outbox } = s)
  ∧ (∀ a isRead s t, exec (.badAccess a isRead) s = .next t →
      { t with regs := s.regs, hostMem := s.hostMem, hif := s.hif, outbox := s.outbox } = s)
end

