-- ==== Sys2Proof/Laws/Bits.lean ====
section
/-! SUPPORT. What reading a field of a register value gives after a field has been set. -/
namespace Sys2Proof.Machine

theorem bitsAt_lt (n lo w : Nat) : bitsAt n lo w < 2 ^ w := Nat.mod_lt _ (Nat.two_pow_pos w)

/-- A number is what lies above a field, the field, and what lies below it. -/
theorem bits_split (n lo w : Nat) : n = n / 2 ^ (lo + w) * 2 ^ (lo + w) + bitsAt n lo w * 2 ^ lo + n % 2 ^ lo := by
  have h1 := Nat.div_add_mod n (2 ^ lo)
  have h2 := Nat.div_add_mod (n / 2 ^ lo) (2 ^ w)
  have h3 : n / 2 ^ lo / 2 ^ w = n / 2 ^ (lo + w) := by rw [Nat.div_div_eq_div_mul, ← Nat.pow_add]
  rw [h3] at h2
  have h4 : n / 2 ^ (lo + w) * 2 ^ (lo + w) + bitsAt n lo w * 2 ^ lo = 2 ^ lo * (n / 2 ^ lo) := by
    conv_rhs => rw [← h2]
    unfold bitsAt
    ring
  omega

/-- What lies above a field of a number put together from its parts. -/
theorem bits_above (h m l lo w : Nat) (hm : m < 2 ^ w) (hl : l < 2 ^ lo) : (h * 2 ^ (lo + w) + m * 2 ^ lo + l) / 2 ^ (lo + w) = h := by
  have hp : m * 2 ^ lo + l < 2 ^ (lo + w) := by
    have : m * 2 ^ lo + l < (m + 1) * 2 ^ lo := by linarith [Nat.succ_mul m (2 ^ lo)]
    calc m * 2 ^ lo + l < (m + 1) * 2 ^ lo := this
      _ ≤ 2 ^ w * 2 ^ lo := Nat.mul_le_mul_right _ hm
      _ = 2 ^ (lo + w) := by ring
  rw [Nat.add_assoc, Nat.add_comm, Nat.add_mul_div_right _ _ (Nat.two_pow_pos _), Nat.div_eq_of_lt hp, Nat.zero_add]

/-- The field itself. -/
theorem bits_field (h m l lo w : Nat) (hm : m < 2 ^ w) (hl : l < 2 ^ lo) : bitsAt (h * 2 ^ (lo + w) + m * 2 ^ lo + l) lo w = m := by
  unfold bitsAt
  have : h * 2 ^ (lo + w) + m * 2 ^ lo + l = l + (h * 2 ^ w + m) * 2 ^ lo := by ring
  rw [this, Nat.add_mul_div_right _ _ (Nat.two_pow_pos _), Nat.div_eq_of_lt hl, Nat.zero_add, Nat.add_comm, Nat.add_mul_mod_self_right,
    Nat.mod_eq_of_lt hm]

/-- What lies below it. -/
theorem bits_below (h m l lo w : Nat) (hl : l < 2 ^ lo) : (h * 2 ^ (lo + w) + m * 2 ^ lo + l) % 2 ^ lo = l := by
  have : h * 2 ^ (lo + w) + m * 2 ^ lo + l = l + (h * 2 ^ w + m) * 2 ^ lo := by ring
  rw [this, Nat.add_mul_mod_self_right, Nat.mod_eq_of_lt hl]

/-- The value of a register after a field has been set, part by part. -/
theorem setF_toNat (w : Word) (f : BitRange) (n : Nat) (hf : f.lo ≤ f.hi ∧ f.hi < 32) :
    (setF w f n).toNat = w.toNat / 2 ^ (f.lo + (f.hi - f.lo + 1)) * 2 ^ (f.lo + (f.hi - f.lo + 1))
      + n % 2 ^ (f.hi - f.lo + 1) * 2 ^ f.lo + w.toNat % 2 ^ f.lo := by
  set k := f.hi - f.lo + 1 with hk
  have hs := bits_split w.toNat f.lo k
  have hlt : w.toNat < 2 ^ 32 := w.isLt
  have hmod : n % 2 ^ k < 2 ^ k := Nat.mod_lt _ (Nat.two_pow_pos k)
  have hlow : w.toNat % 2 ^ f.lo < 2 ^ f.lo := Nat.mod_lt _ (Nat.two_pow_pos f.lo)
  have hval : w.toNat - getF w f * 2 ^ f.lo + n % 2 ^ k * 2 ^ f.lo
      = w.toNat / 2 ^ (f.lo + k) * 2 ^ (f.lo + k) + n % 2 ^ k * 2 ^ f.lo + w.toNat % 2 ^ f.lo := by
    have : getF w f = bitsAt w.toNat f.lo k := rfl
    rw [this]
    omega
  have hbig : w.toNat / 2 ^ (f.lo + k) * 2 ^ (f.lo + k) + n % 2 ^ k * 2 ^ f.lo + w.toNat % 2 ^ f.lo < 2 ^ 32 := by
    have hh := bits_above (w.toNat / 2 ^ (f.lo + k)) (n % 2 ^ k) (w.toNat % 2 ^ f.lo) f.lo k hmod hlow
    have hle : f.lo + k ≤ 32 := by omega
    obtain ⟨j, hj⟩ := Nat.exists_eq_add_of_le hle
    have hq : w.toNat / 2 ^ (f.lo + k) < 2 ^ j := by
      rw [Nat.div_lt_iff_lt_mul (Nat.two_pow_pos _), ← Nat.pow_add, Nat.add_comm j, ← hj]
      exact hlt
    have : (w.toNat / 2 ^ (f.lo + k) * 2 ^ (f.lo + k) + n % 2 ^ k * 2 ^ f.lo + w.toNat % 2 ^ f.lo) / 2 ^ (f.lo + k) < 2 ^ j := by
      rw [hh]; exact hq
    rw [Nat.div_lt_iff_lt_mul (Nat.two_pow_pos _), ← Nat.pow_add, Nat.add_comm j, ← hj] at this
    exact this
  unfold setF
  rw [BitVec.toNat_ofNat, hval, Nat.mod_eq_of_lt hbig]

/-- Reading the field that was set gives the number, cut to the field's width. -/
theorem getF_setF_same (w : Word) (f : BitRange) (n : Nat) (hf : f.lo ≤ f.hi ∧ f.hi < 32) :
    getF (setF w f n) f = n % 2 ^ (f.hi - f.lo + 1) := by
  unfold getF
  rw [setF_toNat w f n hf]
  exact bits_field _ _ _ _ _ (Nat.mod_lt _ (Nat.two_pow_pos _)) (Nat.mod_lt _ (Nat.two_pow_pos _))

/-- Reading a field above or below it is as before. -/
theorem getF_setF_ne (w : Word) (f g : BitRange) (n : Nat) (hf : f.lo ≤ f.hi ∧ f.hi < 32) (hg : g.lo ≤ g.hi)
    (h : f.hi < g.lo ∨ g.hi < f.lo) : getF (setF w f n) g = getF w g := by
  unfold getF bitsAt
  rw [setF_toNat w f n hf]
  have hm : n % 2 ^ (f.hi - f.lo + 1) < 2 ^ (f.hi - f.lo + 1) := Nat.mod_lt _ (Nat.two_pow_pos _)
  have hl : w.toNat % 2 ^ f.lo < 2 ^ f.lo := Nat.mod_lt _ (Nat.two_pow_pos _)
  set k := f.hi - f.lo + 1 with hk
  rcases h with h | h
  · obtain ⟨j, hj⟩ := Nat.exists_eq_add_of_le (show f.lo + k ≤ g.lo by omega)
    have hp : 2 ^ g.lo = 2 ^ (f.lo + k) * 2 ^ j := by rw [hj, Nat.pow_add]
    rw [hp, ← Nat.div_div_eq_div_mul, ← Nat.div_div_eq_div_mul, bits_above _ _ _ _ _ hm hl]
  · set q := g.hi - g.lo + 1 with hq
    have key : ∀ x : Nat, x / 2 ^ g.lo % 2 ^ q = x % 2 ^ f.lo / 2 ^ g.lo % 2 ^ q := by
      intro x
      obtain ⟨j, hj⟩ := Nat.exists_eq_add_of_le (show g.lo + q ≤ f.lo by omega)
      have hp : 2 ^ f.lo = 2 ^ g.lo * (2 ^ q * 2 ^ j) := by rw [hj, Nat.pow_add, Nat.pow_add, Nat.mul_assoc]
      rw [hp, Nat.mod_mul_right_div_self, Nat.mod_mul_right_mod]
    rw [key, bits_below _ _ _ _ _ hl, ← key]

end Sys2Proof.Machine
end

