-- ==== Sys2Proof/Laws/Maps.lean ====
section
/-! SUPPORT. What reading a sparse map gives after a write, and that every map operation keeps the canonical form. -/
namespace Sys2Proof.Machine

theorem SMap.get_del_same {α : Type} (d : Nat → α) (m : SMap α) (a : Nat) : SMap.get d (SMap.del m a) a = d a := by
  induction m with
  | nil => rfl
  | cons e m ih =>
    obtain ⟨k, v⟩ := e
    by_cases h : k = a <;> simp [SMap.del, SMap.get, h, ih]

theorem SMap.get_del_ne {α : Type} (d : Nat → α) (m : SMap α) {a b : Nat} (h : a ≠ b) :
    SMap.get d (SMap.del m a) b = SMap.get d m b := by
  induction m with
  | nil => rfl
  | cons e m ih =>
    obtain ⟨k, v⟩ := e
    by_cases hk : k = a
    · simp [SMap.del, SMap.get, hk, h, ih]
    · simp only [SMap.del, hk, if_false, SMap.get, ih]

theorem SMap.get_ins_same {α : Type} (d : Nat → α) (m : SMap α) (a : Nat) (x : α) : SMap.get d (SMap.ins m a x) a = x := by
  induction m with
  | nil => simp [SMap.ins, SMap.get]
  | cons e m ih =>
    obtain ⟨k, v⟩ := e
    unfold SMap.ins
    split
    · simp [SMap.get]
    · split
      · simp [SMap.get]
      · rename_i h
        simp [SMap.get, Ne.symm h, ih]

theorem SMap.get_ins_ne {α : Type} (d : Nat → α) (m : SMap α) {a b : Nat} (x : α) (h : a ≠ b) :
    SMap.get d (SMap.ins m a x) b = SMap.get d m b := by
  induction m with
  | nil => simp [SMap.ins, SMap.get, h]
  | cons e m ih =>
    obtain ⟨k, v⟩ := e
    unfold SMap.ins
    split
    · simp [SMap.get, h]
    · split
      · rename_i hk
        subst hk
        simp [SMap.get, h]
      · simp [SMap.get, ih]

/-- Setting a key lists it, or drops it where the value is the default. -/
theorem SMap.put_eq {α : Type} [DecidableEq α] (d : Nat → α) (m : SMap α) (a : Nat) (x : α) :
    SMap.put d m a x = if x = d a then SMap.del m a else SMap.ins m a x := by
  cases m <;> rfl

/-- A read of the key that was set gives the value. -/
@[simp] theorem SMap.get_put_same {α : Type} [DecidableEq α] (d : Nat → α) (m : SMap α) (a : Nat) (x : α) :
    SMap.get d (SMap.put d m a x) a = x := by
  rw [SMap.put_eq]
  split
  · rename_i h
    rw [SMap.get_del_same, h]
  · exact SMap.get_ins_same d m a x

/-- A read of any other key is as before. -/
theorem SMap.get_put_ne {α : Type} [DecidableEq α] (d : Nat → α) (m : SMap α) {a b : Nat} (x : α) (h : a ≠ b) :
    SMap.get d (SMap.put d m a x) b = SMap.get d m b := by
  rw [SMap.put_eq]
  split
  · exact SMap.get_del_ne d m h
  · exact SMap.get_ins_ne d m x h

@[simp] theorem SMap.find_ins_same {α : Type} (m : SMap α) (a : Nat) (x : α) : SMap.find (SMap.ins m a x) a = some x := by
  induction m with
  | nil => simp [SMap.ins, SMap.find]
  | cons e m ih =>
    obtain ⟨k, v⟩ := e
    unfold SMap.ins
    split
    · simp [SMap.find]
    · split
      · simp [SMap.find]
      · rename_i h
        simp [SMap.find, Ne.symm h, ih]

theorem SMap.find_ins_ne {α : Type} (m : SMap α) {a b : Nat} (x : α) (h : a ≠ b) : SMap.find (SMap.ins m a x) b = SMap.find m b := by
  induction m with
  | nil => simp [SMap.ins, SMap.find, h]
  | cons e m ih =>
    obtain ⟨k, v⟩ := e
    unfold SMap.ins
    split
    · simp [SMap.find, h]
    · split
      · rename_i hk
        subst hk
        simp [SMap.find, h]
      · simp [SMap.find, ih]

/-! ## The canonical form -/

theorem SMap.wfFrom_le {α : Type} [DecidableEq α] (d : Nat → α) (m : SMap α) {lo lo' : Nat} (h : lo' ≤ lo)
    (w : SMap.wfFrom d lo m = true) : SMap.wfFrom d lo' m = true := by
  cases m with
  | nil => rfl
  | cons e m =>
    obtain ⟨k, v⟩ := e
    simp only [SMap.wfFrom, Bool.and_eq_true, decide_eq_true_eq] at w ⊢
    exact ⟨⟨Nat.le_trans h w.1.1, w.1.2⟩, w.2⟩

theorem SMap.wfFrom_del {α : Type} [DecidableEq α] (d : Nat → α) (m : SMap α) (a lo : Nat) (w : SMap.wfFrom d lo m = true) :
    SMap.wfFrom d lo (SMap.del m a) = true := by
  induction m generalizing lo with
  | nil => rfl
  | cons e m ih =>
    obtain ⟨k, v⟩ := e
    simp only [SMap.wfFrom, Bool.and_eq_true, decide_eq_true_eq] at w
    unfold SMap.del
    split
    · exact SMap.wfFrom_le d _ (by omega) (ih _ w.2)
    · simp only [SMap.wfFrom, Bool.and_eq_true, decide_eq_true_eq]
      exact ⟨w.1, ih _ w.2⟩

theorem SMap.wfFrom_ins {α : Type} [DecidableEq α] (d : Nat → α) (m : SMap α) (a lo : Nat) (x : α) (hx : x ≠ d a) (ha : lo ≤ a)
    (w : SMap.wfFrom d lo m = true) : SMap.wfFrom d lo (SMap.ins m a x) = true := by
  induction m generalizing lo with
  | nil => simp [SMap.ins, SMap.wfFrom, ha, hx]
  | cons e m ih =>
    obtain ⟨k, v⟩ := e
    simp only [SMap.wfFrom, Bool.and_eq_true, decide_eq_true_eq] at w
    unfold SMap.ins
    split
    · rename_i h
      simp only [SMap.wfFrom, Bool.and_eq_true, decide_eq_true_eq]
      exact ⟨⟨ha, hx⟩, ⟨⟨h, w.1.2⟩, w.2⟩⟩
    · split
      · rename_i h
        subst h
        simp only [SMap.wfFrom, Bool.and_eq_true, decide_eq_true_eq]
        exact ⟨⟨ha, hx⟩, w.2⟩
      · simp only [SMap.wfFrom, Bool.and_eq_true, decide_eq_true_eq]
        exact ⟨w.1, ih (k + 1) (by omega) w.2⟩

/-- Setting a key keeps the canonical form. -/
theorem SMap.wf_put {α : Type} [DecidableEq α] (d : Nat → α) (m : SMap α) (a : Nat) (x : α) (w : SMap.wf d m = true) :
    SMap.wf d (SMap.put d m a x) = true := by
  rw [SMap.put_eq]
  split
  · exact SMap.wfFrom_del d m a 0 w
  · rename_i h
    exact SMap.wfFrom_ins d m a 0 x h (Nat.zero_le _) w

theorem SMap.wfFrom_filter {α : Type} [DecidableEq α] (d : Nat → α) (p : Nat × α → Bool) (m : SMap α) (lo : Nat)
    (w : SMap.wfFrom d lo m = true) : SMap.wfFrom d lo (m.filter p) = true := by
  induction m generalizing lo with
  | nil => rfl
  | cons e m ih =>
    obtain ⟨k, v⟩ := e
    simp only [SMap.wfFrom, Bool.and_eq_true, decide_eq_true_eq] at w
    rw [List.filter_cons]
    split
    · simp only [SMap.wfFrom, Bool.and_eq_true, decide_eq_true_eq]
      exact ⟨w.1, ih _ w.2⟩
    · exact SMap.wfFrom_le d _ (by omega) (ih _ w.2)

/-- Dropping keys keeps the canonical form. -/
theorem SMap.wf_filter {α : Type} [DecidableEq α] (d : Nat → α) (p : Nat × α → Bool) (m : SMap α) (w : SMap.wf d m = true) :
    SMap.wf d (m.filter p) = true := SMap.wfFrom_filter d p m 0 w

/-- A kept key reads after a filter on keys as before. -/
theorem SMap.get_filter_key {α : Type} (d : Nat → α) (p : Nat → Bool) (m : SMap α) {a : Nat} (h : p a = true) :
    SMap.get d (m.filter (fun e => p e.1)) a = SMap.get d m a := by
  induction m with
  | nil => rfl
  | cons e m ih =>
    obtain ⟨k, v⟩ := e
    by_cases hk : p k = true
    · simp only [List.filter_cons, hk, if_true, SMap.get, ih]
    · have hne : k ≠ a := fun e => hk (e ▸ h)
      simp only [List.filter_cons, hk, SMap.get, hne, if_false]
      simpa using ih

end Sys2Proof.Machine
end

