-- ==== Sys2Proof/Laws/Regs.lean ====
section
/-! SUPPORT. What registers read after a write, and what a register write leaves alone. -/
namespace Sys2Proof.Machine

/-- The register that was written reads the value. -/
@[simp] theorem rd_wr_same (s : State) (a : Nat) (v : Word) : rd (wr s a v) a = v := SMap.get_put_same _ _ _ _

/-- Any other register reads as before. -/
theorem rd_wr_ne (s : State) {a b : Nat} (v : Word) (h : regHome a ≠ regHome b) : rd (wr s a v) b = rd s b :=
  SMap.get_put_ne _ _ _ h

theorem rf_wf_same (s : State) (a : Nat) (f : BitRange) (n : Nat) (hf : f.lo ≤ f.hi ∧ f.hi < 32) :
    rf (wf s a f n) a f = n % 2 ^ (f.hi - f.lo + 1) := by
  unfold rf wf
  rw [rd_wr_same, getF_setF_same _ _ _ hf]

theorem rf_wf_field (s : State) (a : Nat) (f g : BitRange) (n : Nat) (hf : f.lo ≤ f.hi ∧ f.hi < 32) (hg : g.lo ≤ g.hi)
    (h : f.hi < g.lo ∨ g.hi < f.lo) : rf (wf s a f n) a g = rf s a g := by
  unfold rf wf
  rw [rd_wr_same, getF_setF_ne _ _ _ _ hf hg h]

theorem rd_wf_ne (s : State) {a b : Nat} (f : BitRange) (n : Nat) (h : regHome a ≠ regHome b) : rd (wf s a f n) b = rd s b :=
  rd_wr_ne s _ h

theorem rf_wf_ne (s : State) {a b : Nat} (f g : BitRange) (n : Nat) (h : regHome a ≠ regHome b) : rf (wf s a f n) b g = rf s b g := by
  unfold rf
  rw [rd_wf_ne s f n h]

theorem rn_wn_same (s : State) (a n : Nat) (h : n < 2 ^ 32) : rn (wn s a n) a = n := by
  unfold rn wn
  rw [rd_wr_same, BitVec.toNat_ofNat, Nat.mod_eq_of_lt h]

theorem rd_wn_ne (s : State) {a b : Nat} (n : Nat) (h : regHome a ≠ regHome b) : rd (wn s a n) b = rd s b := rd_wr_ne s _ h

/-- An address outside the windows of dunes 1 to 7 is its own home. -/
theorem regHome_low {a : Nat} (h : a < 0x2400000) : regHome a = a := by
  unfold regHome
  rw [if_neg (by omega)]

/-- An address of a dune window outside the FWD and RTE blocks is its own home. -/
theorem regHome_dune {a : Nat} (h : (a - 0x2000000) % 0x400000 / 0x80000 ≠ 2 ∧ (a - 0x2000000) % 0x400000 / 0x80000 ≠ 3) : regHome a = a := by
  unfold regHome
  split
  · simp [h.1, h.2]
  · rfl

/-- Only the registers matter to a register read. -/
theorem rd_regs {s t : State} (h : s.regs = t.regs) (a : Nat) : rd s a = rd t a := by
  unfold rd
  rw [h]

/-- Several fields written: a field of the same register. -/
theorem rf_wfs (s : State) (a : Nat) (l : List (BitRange × Nat)) (f : BitRange) :
    rf (wfs s a l) a f = getF (l.foldl (fun w e => setF w e.1 e.2) (rd s a)) f := by
  unfold rf wfs
  rw [rd_wr_same]

/-- Fields of one register written do not touch another register. -/
theorem rd_wfs_ne (s : State) {a b : Nat} (l : List (BitRange × Nat)) (h : regHome a ≠ regHome b) : rd (wfs s a l) b = rd s b :=
  rd_wr_ne s _ h

end Sys2Proof.Machine
end

