-- ==== Sys2Proof/Laws/Apart.lean ====
section
/-! SUPPORT. What operations leave alone: everything but registers, host memory, the host queues and the output, and the blocks
that a mask names; first for the operations that touch no block. -/
namespace Sys2Proof.Machine

/-- The blocks that may change. -/
structure Blocks where
  tim : Bool := false
  sch : Bool := false
  rte : Bool := false
  fwd : Bool := false
  mgt : Bool := false
  col : Bool := false
  swc : Bool := false
  sec : Bool := false
  rot : Bool := false
  free : Bool := false
  opt : Bool := false
  deriving DecidableEq, Repr

/-- The states differ in registers, host memory, host queues, output, and the blocks that the mask names, only. -/
structure Apart (bk : Blocks) (z s : State) : Prop where
  eq : { s with regs := z.regs, hostMem := z.hostMem, hif := z.hif, outbox := z.outbox, tim := if bk.tim then z.tim else s.tim, sch := if bk.sch then z.sch else s.sch, rte := if bk.rte then z.rte else s.rte, fwd := if bk.fwd then z.fwd else s.fwd, mgt := if bk.mgt then z.mgt else s.mgt, col := if bk.col then z.col else s.col, swc := if bk.swc then z.swc else s.swc, sec := if bk.sec then z.sec else s.sec, rot := if bk.rot then z.rot else s.rot, free := if bk.free then z.free else s.free, opt := if bk.opt then z.opt else s.opt } = z

theorem Apart.refl (bk : Blocks) (s : State) : Apart bk s s := by
  refine ⟨?_⟩
  cases s
  simp only [ite_self]

theorem apart_upd (bk : Blocks) (z s : State) (regs hostMem hif outbox) :
    Apart bk z { regs := regs, oasis := s.oasis, hostMem := hostMem, clock := s.clock, free := s.free, plat := s.plat, otp := s.otp, pins := s.pins, img := s.img, rot := s.rot, hif := hif, swc := s.swc, fwd := s.fwd, rte := s.rte, tim := s.tim, sch := s.sch, sec := s.sec, brc := s.brc, col := s.col, opt := s.opt, chk := s.chk, mgt := s.mgt, outbox := outbox, pending := s.pending } = Apart bk z s :=
  propext ⟨fun h => ⟨h.eq⟩, fun h => ⟨h.eq⟩⟩

theorem apart_tim {bk : Blocks} (hm : bk.tim = true) (z s : State) (regs hostMem hif outbox tim) :
    Apart bk z { regs := regs, oasis := s.oasis, hostMem := hostMem, clock := s.clock, free := s.free, plat := s.plat, otp := s.otp, pins := s.pins, img := s.img, rot := s.rot, hif := hif, swc := s.swc, fwd := s.fwd, rte := s.rte, tim := tim, sch := s.sch, sec := s.sec, brc := s.brc, col := s.col, opt := s.opt, chk := s.chk, mgt := s.mgt, outbox := outbox, pending := s.pending } = Apart bk z s := by
  refine propext ⟨fun h => ⟨?_⟩, fun h => ⟨?_⟩⟩ <;> have := h.eq <;> simp only [hm, if_true] at this ⊢ <;> exact this

theorem apart_sch {bk : Blocks} (hm : bk.sch = true) (z s : State) (regs hostMem hif outbox sch) :
    Apart bk z { regs := regs, oasis := s.oasis, hostMem := hostMem, clock := s.clock, free := s.free, plat := s.plat, otp := s.otp, pins := s.pins, img := s.img, rot := s.rot, hif := hif, swc := s.swc, fwd := s.fwd, rte := s.rte, tim := s.tim, sch := sch, sec := s.sec, brc := s.brc, col := s.col, opt := s.opt, chk := s.chk, mgt := s.mgt, outbox := outbox, pending := s.pending } = Apart bk z s := by
  refine propext ⟨fun h => ⟨?_⟩, fun h => ⟨?_⟩⟩ <;> have := h.eq <;> simp only [hm, if_true] at this ⊢ <;> exact this

theorem apart_rte {bk : Blocks} (hm : bk.rte = true) (z s : State) (regs hostMem hif outbox rte) :
    Apart bk z { regs := regs, oasis := s.oasis, hostMem := hostMem, clock := s.clock, free := s.free, plat := s.plat, otp := s.otp, pins := s.pins, img := s.img, rot := s.rot, hif := hif, swc := s.swc, fwd := s.fwd, rte := rte, tim := s.tim, sch := s.sch, sec := s.sec, brc := s.brc, col := s.col, opt := s.opt, chk := s.chk, mgt := s.mgt, outbox := outbox, pending := s.pending } = Apart bk z s := by
  refine propext ⟨fun h => ⟨?_⟩, fun h => ⟨?_⟩⟩ <;> have := h.eq <;> simp only [hm, if_true] at this ⊢ <;> exact this

theorem apart_fwd {bk : Blocks} (hm : bk.fwd = true) (z s : State) (regs hostMem hif outbox fwd) :
    Apart bk z { regs := regs, oasis := s.oasis, hostMem := hostMem, clock := s.clock, free := s.free, plat := s.plat, otp := s.otp, pins := s.pins, img := s.img, rot := s.rot, hif := hif, swc := s.swc, fwd := fwd, rte := s.rte, tim := s.tim, sch := s.sch, sec := s.sec, brc := s.brc, col := s.col, opt := s.opt, chk := s.chk, mgt := s.mgt, outbox := outbox, pending := s.pending } = Apart bk z s := by
  refine propext ⟨fun h => ⟨?_⟩, fun h => ⟨?_⟩⟩ <;> have := h.eq <;> simp only [hm, if_true] at this ⊢ <;> exact this

theorem apart_mgt {bk : Blocks} (hm : bk.mgt = true) (z s : State) (regs hostMem hif outbox mgt) :
    Apart bk z { regs := regs, oasis := s.oasis, hostMem := hostMem, clock := s.clock, free := s.free, plat := s.plat, otp := s.otp, pins := s.pins, img := s.img, rot := s.rot, hif := hif, swc := s.swc, fwd := s.fwd, rte := s.rte, tim := s.tim, sch := s.sch, sec := s.sec, brc := s.brc, col := s.col, opt := s.opt, chk := s.chk, mgt := mgt, outbox := outbox, pending := s.pending } = Apart bk z s := by
  refine propext ⟨fun h => ⟨?_⟩, fun h => ⟨?_⟩⟩ <;> have := h.eq <;> simp only [hm, if_true] at this ⊢ <;> exact this

theorem apart_col {bk : Blocks} (hm : bk.col = true) (z s : State) (regs hostMem hif outbox col) :
    Apart bk z { regs := regs, oasis := s.oasis, hostMem := hostMem, clock := s.clock, free := s.free, plat := s.plat, otp := s.otp, pins := s.pins, img := s.img, rot := s.rot, hif := hif, swc := s.swc, fwd := s.fwd, rte := s.rte, tim := s.tim, sch := s.sch, sec := s.sec, brc := s.brc, col := col, opt := s.opt, chk := s.chk, mgt := s.mgt, outbox := outbox, pending := s.pending } = Apart bk z s := by
  refine propext ⟨fun h => ⟨?_⟩, fun h => ⟨?_⟩⟩ <;> have := h.eq <;> simp only [hm, if_true] at this ⊢ <;> exact this

theorem apart_swc {bk : Blocks} (hm : bk.swc = true) (z s : State) (regs hostMem hif outbox swc) :
    Apart bk z { regs := regs, oasis := s.oasis, hostMem := hostMem, clock := s.clock, free := s.free, plat := s.plat, otp := s.otp, pins := s.pins, img := s.img, rot := s.rot, hif := hif, swc := swc, fwd := s.fwd, rte := s.rte, tim := s.tim, sch := s.sch, sec := s.sec, brc := s.brc, col := s.col, opt := s.opt, chk := s.chk, mgt := s.mgt, outbox := outbox, pending := s.pending } = Apart bk z s := by
  refine propext ⟨fun h => ⟨?_⟩, fun h => ⟨?_⟩⟩ <;> have := h.eq <;> simp only [hm, if_true] at this ⊢ <;> exact this

theorem apart_sec {bk : Blocks} (hm : bk.sec = true) (z s : State) (regs hostMem hif outbox sec) :
    Apart bk z { regs := regs, oasis := s.oasis, hostMem := hostMem, clock := s.clock, free := s.free, plat := s.plat, otp := s.otp, pins := s.pins, img := s.img, rot := s.rot, hif := hif, swc := s.swc, fwd := s.fwd, rte := s.rte, tim := s.tim, sch := s.sch, sec := sec, brc := s.brc, col := s.col, opt := s.opt, chk := s.chk, mgt := s.mgt, outbox := outbox, pending := s.pending } = Apart bk z s := by
  refine propext ⟨fun h => ⟨?_⟩, fun h => ⟨?_⟩⟩ <;> have := h.eq <;> simp only [hm, if_true] at this ⊢ <;> exact this

theorem apart_rot {bk : Blocks} (hm : bk.rot = true) (z s : State) (regs hostMem hif outbox rot) :
    Apart bk z { regs := regs, oasis := s.oasis, hostMem := hostMem, clock := s.clock, free := s.free, plat := s.plat, otp := s.otp, pins := s.pins, img := s.img, rot := rot, hif := hif, swc := s.swc, fwd := s.fwd, rte := s.rte, tim := s.tim, sch := s.sch, sec := s.sec, brc := s.brc, col := s.col, opt := s.opt, chk := s.chk, mgt := s.mgt, outbox := outbox, pending := s.pending } = Apart bk z s := by
  refine propext ⟨fun h => ⟨?_⟩, fun h => ⟨?_⟩⟩ <;> have := h.eq <;> simp only [hm, if_true] at this ⊢ <;> exact this

theorem apart_free {bk : Blocks} (hm : bk.free = true) (z s : State) (regs hostMem hif outbox free) :
    Apart bk z { regs := regs, oasis := s.oasis, hostMem := hostMem, clock := s.clock, free := free, plat := s.plat, otp := s.otp, pins := s.pins, img := s.img, rot := s.rot, hif := hif, swc := s.swc, fwd := s.fwd, rte := s.rte, tim := s.tim, sch := s.sch, sec := s.sec, brc := s.brc, col := s.col, opt := s.opt, chk := s.chk, mgt := s.mgt, outbox := outbox, pending := s.pending } = Apart bk z s := by
  refine propext ⟨fun h => ⟨?_⟩, fun h => ⟨?_⟩⟩ <;> have := h.eq <;> simp only [hm, if_true] at this ⊢ <;> exact this

theorem apart_opt {bk : Blocks} (hm : bk.opt = true) (z s : State) (regs hostMem hif outbox opt) :
    Apart bk z { regs := regs, oasis := s.oasis, hostMem := hostMem, clock := s.clock, free := s.free, plat := s.plat, otp := s.otp, pins := s.pins, img := s.img, rot := s.rot, hif := hif, swc := s.swc, fwd := s.fwd, rte := s.rte, tim := s.tim, sch := s.sch, sec := s.sec, brc := s.brc, col := s.col, opt := opt, chk := s.chk, mgt := s.mgt, outbox := outbox, pending := s.pending } = Apart bk z s := by
  refine propext ⟨fun h => ⟨?_⟩, fun h => ⟨?_⟩⟩ <;> have := h.eq <;> simp only [hm, if_true] at this ⊢ <;> exact this

/-- An intermediate state. -/
theorem Apart.cut {bk : Blocks} {z : State} (v : State) {p : Prop} (h : Apart bk z v) (k : Apart bk z v → p) : p := k h

theorem Apart.foldl {bk : Blocks} {α : Type} {z s : State} (l : List α) (f : State → α → State) (h : Apart bk z s)
    (hf : ∀ t x, Apart bk z t → Apart bk z (f t x)) : Apart bk z (l.foldl f s) := by
  induction l generalizing s with
  | nil => exact h
  | cons x l ih => exact ih (hf s x h)

/-- The same with a second value beside the state. -/
theorem Apart.foldlFst {bk : Blocks} {α β : Type} {z : State} {p : State × β} (l : List α) (f : State × β → α → State × β) (h : Apart bk z p.1)
    (hf : ∀ q x, Apart bk z q.1 → Apart bk z (f q x).1) : Apart bk z (l.foldl f p).1 := by
  induction l generalizing p with
  | nil => exact h
  | cons x l ih => exact ih (hf p x h)

theorem Apart.fst {bk : Blocks} {β : Type} {z s : State} {p : State × β} {b : β} (e : p = (s, b)) (h : Apart bk z p.1) : Apart bk z s := by
  subst e
  exact h

theorem Apart.ite {bk : Blocks} {z a b : State} {c : Prop} [Decidable c] (h : Apart bk z a) (k : Apart bk z b) : Apart bk z (if c then a else b) := by
  split
  · exact h
  · exact k

/-- The same of an outcome's next state. -/
structure ApartNext (bk : Blocks) (z : State) (o : Host.Outcome State Fault Refusal) : Prop where
  out : ∀ t, o = .next t → Apart bk z t

theorem Apart.next {bk : Blocks} {z s : State} (h : Apart bk z s) : ApartNext bk z (.next s) := by
  refine ⟨fun t e => ?_⟩
  injection e with e
  exact e ▸ h

/-- The same where there may be no next state. -/
def ApartSome (bk : Blocks) (z : State) (o : Option State) : Prop := ∀ t, o = some t → Apart bk z t

theorem Apart.none {bk : Blocks} {z : State} : ApartSome bk z none := by
  intro t e
  cases e

theorem Apart.some {bk : Blocks} {z s : State} (h : Apart bk z s) : ApartSome bk z (some s) := by
  intro t e
  injection e with e
  exact e ▸ h

theorem wr_apart {bk : Blocks} {z s : State} {a : Nat} {v : Word} (h : Apart bk z s) : Apart bk z (wr s a v) := ⟨h.eq⟩

theorem hostWrite_apart {bk : Blocks} {z s : State} {a : Nat} {l : List Byte} (h : Apart bk z s) : Apart bk z (hostWrite s a l) := by
  induction l generalizing s a with
  | nil => exact h
  | cons b l ih => exact ih ⟨h.eq⟩

theorem emit_apart {bk : Blocks} {z s : State} {o : Out} (h : Apart bk z s) : Apart bk z (emit s o) := ⟨h.eq⟩

theorem wf_apart {bk : Blocks} {z : State} {s : State} {a : Nat} {f : BitRange} {n : Nat} (kz : Apart bk z s) : Apart bk z (wf s a f n) := by
  unfold wf
  repeat' first
    | with_reducible assumption | with_reducible apply wr_apart

theorem wfs_apart {bk : Blocks} {z : State} {s : State} {a : Nat} {l : List (BitRange × Nat)} (kz : Apart bk z s) : Apart bk z (wfs s a l) := by
  unfold wfs
  repeat' first
    | with_reducible assumption | with_reducible apply wr_apart

theorem wn_apart {bk : Blocks} {z : State} {s : State} {a : Nat} {n : Nat} (kz : Apart bk z s) : Apart bk z (wn s a n) := by
  unfold wn
  repeat' first
    | with_reducible assumption | with_reducible apply wr_apart

theorem wn64_apart {bk : Blocks} {z : State} {s : State} {a : Nat} {n : Nat} (kz : Apart bk z s) : Apart bk z (wn64 s a n) := by
  unfold wn64
  repeat' first
    | with_reducible assumption | with_reducible apply wn_apart

theorem wnHL_apart {bk : Blocks} {z : State} {s : State} {a : Nat} {n : Nat} (kz : Apart bk z s) : Apart bk z (wnHL s a n) := by
  unfold wnHL
  repeat' first
    | with_reducible assumption | with_reducible apply wn_apart

theorem bump64_apart {bk : Blocks} {z : State} {s : State} {a : Nat} {n : Nat} (kz : Apart bk z s) : Apart bk z (bump64 s a n) := by
  unfold bump64
  repeat' first
    | with_reducible assumption | with_reducible apply wn64_apart

theorem bump32_apart {bk : Blocks} {z : State} {s : State} {a : Nat} {n : Nat} (kz : Apart bk z s) : Apart bk z (bump32 s a n) := by
  unfold bump32
  repeat' first
    | with_reducible assumption | with_reducible apply wn_apart

theorem setMapBit_apart {bk : Blocks} {z : State} {s : State} {a : Nat} {i : Nat} {b : Bool} (kz : Apart bk z s) : Apart bk z (setMapBit s a i b) := by
  unfold setMapBit
  repeat' first
    | with_reducible assumption | with_reducible apply wn_apart

theorem softWrite_apart {bk : Blocks} {z s : State} {a : Nat} {v : Word} (h : Apart bk z s) : Apart bk z (softWrite s a v) := by
  rw [softWrite]
  cases regRow (regHome a) with
  | none => exact h
  | some x => exact wr_apart h

theorem signal_apart {bk : Blocks} {z : State} {s : State} {v : Nat} (kz : Apart bk z s) : Apart bk z (signal s v) := by
  unfold signal
  repeat' first
    | with_reducible assumption | with_reducible apply setMapBit_apart | with_reducible apply emit_apart
    | with_reducible refine Apart.ite ?_ ?_

theorem hifErr_apart {bk : Blocks} {z : State} {s : State} {f : BitRange} (kz : Apart bk z s) : Apart bk z (hifErr s f) := by
  unfold hifErr
  repeat' first
    | with_reducible assumption | with_reducible apply signal_apart | with_reducible apply wf_apart

theorem setCnq_apart {bk : Blocks} {z : State} {s : State} {d : Nat} {n : Nat} {q : Cnq} (kz : Apart bk z s) : Apart bk z (setCnq s d n q) := by
  unfold setCnq
  repeat' first
    | with_reducible assumption | simp -zeta only [apart_upd]

theorem cnqSignal_apart {bk : Blocks} {z : State} {s : State} {d : Nat} {n : Nat} (kz : Apart bk z s) : Apart bk z (cnqSignal s d n) := by
  unfold cnqSignal
  repeat' first
    | with_reducible assumption | with_reducible apply signal_apart | with_reducible refine Apart.ite ?_ ?_

theorem cnqNotice_apart {bk : Blocks} {z : State} {s : State} {d : Nat} {n : Nat} {f : BitRange} (kz : Apart bk z s) : Apart bk z (cnqNotice s d n f) := by
  unfold cnqNotice
  repeat' first
    | with_reducible assumption | with_reducible apply cnqSignal_apart | with_reducible apply wf_apart

theorem cnqGrew_apart {bk : Blocks} {z : State} {s : State} {d : Nat} {n : Nat} {old : Nat} (kz : Apart bk z s) : Apart bk z (cnqGrew s d n old) := by
  unfold cnqGrew
  repeat' first
    | with_reducible assumption | with_reducible apply setCnq_apart | with_reducible apply cnqNotice_apart
    | simp -zeta only [apart_upd]
    | (extract_lets +onlyGivenNames v; refine Apart.cut (bk := bk) (z := z) v ?_ (fun hv => ?_); subst v; rotate_left; clear_value v)
    | (extract_lets +onlyGivenNames v; clear_value v) | with_reducible refine Apart.ite ?_ ?_

theorem fifoStart_apart {bk : Blocks} {z : State} {s : State} {d : Nat} {n : Nat} {p : FifoPkt} {at_ : Bool × Nat} (kz : Apart bk z s) : Apart bk z (fifoStart s d n p at_) := by
  unfold fifoStart
  repeat' first
    | with_reducible assumption | with_reducible apply cnqGrew_apart | with_reducible apply setCnq_apart
    | with_reducible apply hostWrite_apart | with_reducible apply wn_apart | simp -zeta only [apart_upd]
    | (extract_lets +onlyGivenNames v; refine Apart.cut (bk := bk) (z := z) v ?_ (fun hv => ?_); subst v; rotate_left; clear_value v)
    | (extract_lets +onlyGivenNames v; clear_value v) | with_reducible refine Apart.ite ?_ ?_

theorem fifoDrop_apart {bk : Blocks} {z : State} {s : State} {d : Nat} {n : Nat} (kz : Apart bk z s) : Apart bk z (fifoDrop s d n) := by
  unfold fifoDrop
  repeat' first
    | with_reducible assumption | with_reducible apply setCnq_apart | with_reducible apply cnqNotice_apart
    | with_reducible apply bump32_apart

theorem fifoReject_apart {bk : Blocks} {z : State} {s : State} {d : Nat} {n : Nat} (kz : Apart bk z s) : Apart bk z (fifoReject s d n) := by
  unfold fifoReject
  repeat' first
    | with_reducible assumption | with_reducible apply wf_apart | with_reducible apply bump32_apart

theorem fifoPut_apart {bk : Blocks} {z : State} {s : State} {d : Nat} {n : Nat} {p : FifoPkt} (kz : Apart bk z s) : Apart bk z (fifoPut s d n p).1 := by
  unfold fifoPut
  repeat' first
    | with_reducible assumption | with_reducible apply fifoReject_apart | with_reducible apply fifoDrop_apart
    | with_reducible apply fifoStart_apart | with_reducible apply setCnq_apart | simp -zeta only [apart_upd]
    | (extract_lets +onlyGivenNames v; clear_value v) | with_reducible refine Apart.ite ?_ ?_ | split

theorem mirrorPut_apart {bk : Blocks} {z : State} {s : State} {d : Nat} {n : Nat} {p : FifoPkt} (kz : Apart bk z s) : Apart bk z (mirrorPut s d n p).1 := by
  unfold mirrorPut
  repeat' first
    | with_reducible assumption | with_reducible apply fifoReject_apart | with_reducible apply fifoStart_apart
    | with_reducible apply fifoDrop_apart | with_reducible refine Apart.ite ?_ ?_ | split

theorem startStaged_apart {bk : Blocks} {z : State} {d n : Nat} {l : List FifoPkt} {s : State} (h : Apart bk z s) : Apart bk z (startStaged d n l s) := by
  induction l generalizing s with
  | nil => exact setCnq_apart h
  | cons p ps ih =>
    unfold startStaged
    split
    · exact ih (fifoStart_apart h)
    · exact setCnq_apart h

theorem drainStaged_apart {bk : Blocks} {z : State} {s : State} {d : Nat} {n : Nat} (kz : Apart bk z s) : Apart bk z (drainStaged s d n) := by
  unfold drainStaged
  repeat' first
    | with_reducible assumption | with_reducible apply startStaged_apart | with_reducible apply setCnq_apart
    | with_reducible apply cnqNotice_apart | with_reducible apply wf_apart | simp -zeta only [apart_upd]
    | (extract_lets +onlyGivenNames v; refine Apart.cut (bk := bk) (z := z) v ?_ (fun hv => ?_); subst v; rotate_left; clear_value v)
    | (extract_lets +onlyGivenNames v; clear_value v) | with_reducible refine Apart.ite ?_ ?_

theorem raise_apart {bk : Blocks} {z : State} {s : State} {evt : Nat} {f : BitRange} {en : Bool} {d : Nat} {n : Nat} {typ : Nat} {payload : List Sys2Proof.Byte} (kz : Apart bk z s) : Apart bk z (raise s evt f en d n typ payload) := by
  unfold raise
  repeat' first
    | with_reducible assumption | with_reducible apply fifoPut_apart | with_reducible apply wf_apart
    | (extract_lets +onlyGivenNames v; refine Apart.cut (bk := bk) (z := z) v ?_ (fun hv => ?_); subst v; rotate_left; clear_value v)
    | (extract_lets +onlyGivenNames v; first | clear_value v | subst v) | with_reducible refine Apart.ite ?_ ?_

theorem swcEvent_apart {bk : Blocks} {z : State} {s : State} {d : Nat} {f : BitRange} {part : Nat} {queue : Nat} (kz : Apart bk z s) : Apart bk z (swcEvent s d f part queue) := by
  unfold swcEvent
  repeat' first
    | with_reducible assumption | with_reducible apply raise_apart

theorem fwdEvent_apart {bk : Blocks} {z : State} {s : State} {d : Nat} {f : BitRange} {table : Nat} {word : Nat} (kz : Apart bk z s) : Apart bk z (fwdEvent s d f table word) := by
  unfold fwdEvent
  repeat' first
    | with_reducible assumption | with_reducible apply raise_apart

theorem rteEvent_apart {bk : Blocks} {z : State} {s : State} {f : BitRange} {dir : Nat} {port : Nat} (kz : Apart bk z s) : Apart bk z (rteEvent s f dir port) := by
  unfold rteEvent
  repeat' first
    | with_reducible assumption | with_reducible apply raise_apart

theorem timEvent_apart {bk : Blocks} {z : State} {s : State} {f : BitRange} (kz : Apart bk z s) : Apart bk z (timEvent s f) := by
  unfold timEvent
  repeat' first
    | with_reducible assumption | with_reducible apply raise_apart | with_reducible apply signal_apart

theorem schEvent_apart {bk : Blocks} {z : State} {s : State} {d : Nat} {f : BitRange} {g : Nat} (kz : Apart bk z s) : Apart bk z (schEvent s d f g) := by
  unfold schEvent
  repeat' first
    | with_reducible assumption | with_reducible apply raise_apart

theorem brcEvent_apart {bk : Blocks} {z : State} {s : State} {d : Nat} {f : BitRange} {body : List Sys2Proof.Byte} (kz : Apart bk z s) : Apart bk z (brcEvent s d f body) := by
  unfold brcEvent
  repeat' first
    | with_reducible assumption | with_reducible apply raise_apart

theorem colEvent_apart {bk : Blocks} {z : State} {s : State} {f : BitRange} {body : List Sys2Proof.Byte} (kz : Apart bk z s) : Apart bk z (colEvent s f body) := by
  unfold colEvent
  repeat' first
    | with_reducible assumption | with_reducible apply raise_apart

theorem optEvent_apart {bk : Blocks} {z : State} {s : State} {t : Nat} {f : BitRange} {body : List Sys2Proof.Byte} (kz : Apart bk z s) : Apart bk z (optEvent s t f body) := by
  unfold optEvent
  repeat' first
    | with_reducible assumption | with_reducible apply raise_apart | with_reducible apply signal_apart

theorem secEvent_apart {bk : Blocks} {z : State} {s : State} {f : BitRange} {body : List Sys2Proof.Byte} (kz : Apart bk z s) : Apart bk z (secEvent s f body) := by
  unfold secEvent
  repeat' first
    | with_reducible assumption | with_reducible apply raise_apart | with_reducible apply signal_apart

theorem mgtEvent_apart {bk : Blocks} {z : State} {s : State} {f : BitRange} {body : List Sys2Proof.Byte} (kz : Apart bk z s) : Apart bk z (mgtEvent s f body) := by
  unfold mgtEvent
  repeat' first
    | with_reducible assumption | with_reducible apply raise_apart | with_reducible apply signal_apart

theorem pwrEvent_apart {bk : Blocks} {z : State} {s : State} {f : BitRange} (kz : Apart bk z s) : Apart bk z (pwrEvent s f) := by
  unfold pwrEvent
  repeat' first
    | with_reducible assumption | with_reducible apply raise_apart

theorem setMp_apart {bk : Blocks} {z : State} {s : State} {p : Nat} {x : MgmtPort} (kz : Apart bk z s) : Apart bk z (setMp s p x) := by
  unfold setMp
  repeat' first
    | with_reducible assumption | simp -zeta only [apart_upd]

theorem mpSend_apart {bk : Blocks} {z : State} {s : State} {p : Nat} {v6 : Bool} {dst : Nat} {m : MgmtMsg} (kz : Apart bk z s) : Apart bk z (mpSend s p v6 dst m) := by
  unfold mpSend
  repeat' first
    | with_reducible assumption | with_reducible apply emit_apart
    | (extract_lets +onlyGivenNames v; refine Apart.cut (bk := bk) (z := z) v ?_ (fun hv => ?_); subst v; rotate_left; first | clear_value v | subst v)
    | (extract_lets +onlyGivenNames v; first | clear_value v | subst v) | with_reducible refine Apart.ite ?_ ?_ | split
    | dsimp -zeta only

theorem setCq_apart {bk : Blocks} {z : State} {s : State} {d : Nat} {q : Nat} {c : Cq} (kz : Apart bk z s) : Apart bk z (setCq s d q c) := by
  unfold setCq
  repeat' first
    | with_reducible assumption | with_reducible apply wf_apart | simp -zeta only [apart_upd]

theorem latchCq_apart {bk : Blocks} {z : State} {s : State} {d : Nat} {q : Nat} (kz : Apart bk z s) : Apart bk z (latchCq s d q) := by
  unfold latchCq
  repeat' first
    | with_reducible assumption | with_reducible apply setCq_apart | simp -zeta only [apart_upd]

theorem showCqErrors_apart {bk : Blocks} {z : State} {s : State} (kz : Apart bk z s) : Apart bk z (showCqErrors s) := by
  unfold showCqErrors
  repeat' first
    | with_reducible assumption | with_reducible apply wf_apart

theorem setCqState_apart {bk : Blocks} {z : State} {s : State} {d : Nat} {q : Nat} {st : Nat} (kz : Apart bk z s) : Apart bk z (setCqState s d q st) := by
  unfold setCqState
  repeat' first
    | with_reducible assumption | with_reducible apply showCqErrors_apart | with_reducible apply wf_apart

theorem cqError_apart {bk : Blocks} {z : State} {s : State} {d : Nat} {q : Nat} {cause : Nat} (kz : Apart bk z s) : Apart bk z (cqError s d q cause) := by
  unfold cqError
  repeat' first
    | with_reducible assumption | with_reducible apply setCq_apart | with_reducible apply setCqState_apart
    | with_reducible apply hifErr_apart | with_reducible apply wf_apart
    | (extract_lets +onlyGivenNames v; first | clear_value v | subst v) | with_reducible refine Apart.ite ?_ ?_

theorem cqOffer_apart {bk : Blocks} {z : State} {s : State} {d : Nat} {q : Nat} {descs : List Nat} (kz : Apart bk z s) : Apart bk z (cqOffer s d q descs) := by
  unfold cqOffer
  repeat' first
    | with_reducible assumption | with_reducible apply setCq_apart | with_reducible apply cqError_apart
    | with_reducible apply bump32_apart
    | (extract_lets +onlyGivenNames v; first | clear_value v | subst v) | with_reducible refine Apart.ite ?_ ?_

theorem addCounter_apart {bk : Blocks} {z : State} {s : State} {d : Nat} {i : Nat} {n : Nat} (kz : Apart bk z s) : Apart bk z (addCounter s d i n) := by
  unfold addCounter
  repeat' first
    | with_reducible assumption | with_reducible apply wf_apart

theorem writeRecord_apart {bk : Blocks} {z : State} {s : State} {d : Nat} {q : Nat} {x : Slot} (kz : Apart bk z s) : Apart bk z (writeRecord s d q x) := by
  unfold writeRecord
  repeat' first
    | with_reducible assumption | with_reducible apply cnqGrew_apart | with_reducible apply setCnq_apart
    | with_reducible apply cnqSignal_apart | with_reducible apply hostWrite_apart | with_reducible apply wn_apart
    | simp -zeta only [apart_upd]
    | (extract_lets +onlyGivenNames v; refine Apart.cut (bk := bk) (z := z) v ?_ (fun hv => ?_); subst v; rotate_left; clear_value v)
    | (extract_lets +onlyGivenNames v; clear_value v) | with_reducible refine Apart.ite ?_ ?_

theorem signalCounter_apart {bk : Blocks} {z : State} {s : State} {d : Nat} {x : Slot} (kz : Apart bk z s) : Apart bk z (signalCounter s d x) := by
  unfold signalCounter
  repeat' first
    | with_reducible assumption | with_reducible apply addCounter_apart | with_reducible refine Apart.ite ?_ ?_

theorem claim_apart {bk : Blocks} {z : State} {s : State} {d : Nat} {q : Nat} {no : Nat} {status : Nat} (kz : Apart bk z s) : Apart bk z (claim s d q no status) := by
  unfold claim
  repeat' first
    | with_reducible assumption | with_reducible apply setCq_apart | with_reducible apply signalCounter_apart
    | with_reducible apply writeRecord_apart | simp -zeta only [apart_upd]
    | (extract_lets +onlyGivenNames v; clear_value v) | split

theorem releaseSlot_apart {bk : Blocks} {z : State} {s : State} {fq : Nat} {no : Nat} (kz : Apart bk z s) : Apart bk z (releaseSlot s fq no) := by
  unfold releaseSlot
  repeat' first
    | with_reducible assumption | with_reducible apply setCq_apart | with_reducible apply setCqState_apart
    | simp -zeta only [apart_upd]
    | (extract_lets +onlyGivenNames v; refine Apart.cut (bk := bk) (z := z) v ?_ (fun hv => ?_); subst v; rotate_left; clear_value v)
    | (extract_lets +onlyGivenNames v; clear_value v) | with_reducible refine Apart.ite ?_ ?_

theorem releaseAll_apart {bk : Blocks} {z : State} {y0 : List (Nat × Nat)} {y1 : State} (kz : Apart bk z y1) : Apart bk z (releaseAll y0 y1) := by
  induction y0 generalizing y1 with
  | nil =>
    unfold releaseAll
    repeat' first
      | with_reducible assumption
  | cons x l ih =>
    unfold releaseAll
    repeat' first
      | with_reducible assumption | with_reducible apply ih | with_reducible apply releaseSlot_apart

theorem releaseRecords_apart {bk : Blocks} {z : State} {s : State} {d : Nat} {n : Nat} {k : Nat} (kz : Apart bk z s) : Apart bk z (releaseRecords s d n k) := by
  unfold releaseRecords
  repeat' first
    | with_reducible assumption | with_reducible apply releaseAll_apart | with_reducible apply setCnq_apart

theorem drainCq_apart {bk : Blocks} {z : State} {s : State} {d : Nat} {q : Nat} (kz : Apart bk z s) : Apart bk z (drainCq s d q) := by
  unfold drainCq
  repeat' first
    | with_reducible assumption | with_reducible apply setCqState_apart
    | (extract_lets +onlyGivenNames v; refine Apart.cut (bk := bk) (z := z) v ?_ (fun hv => ?_); subst v; rotate_left; clear_value v)
    | (extract_lets +onlyGivenNames v; first | clear_value v | subst v) | with_reducible refine Apart.ite ?_ ?_

theorem setImgSt_apart {bk : Blocks} {z : State} {s : State} {n : Nat} (kz : Apart bk z s) : Apart bk z (setImgSt s n) := by
  unfold setImgSt
  repeat' first
    | with_reducible assumption | with_reducible apply signal_apart | with_reducible apply wf_apart
    | with_reducible refine Apart.ite ?_ ?_

theorem showSections_apart {bk : Blocks} {z : State} {s : State} (kz : Apart bk z s) : Apart bk z (showSections s) := by
  unfold showSections
  repeat' first
    | with_reducible assumption | with_reducible apply wf_apart
    | (extract_lets +onlyGivenNames v; refine Apart.cut (bk := bk) (z := z) v ?_ (fun hv => ?_); subst v; rotate_left; first | clear_value v | subst v)
    | (extract_lets +onlyGivenNames v; first | clear_value v | subst v) | with_reducible refine Apart.ite ?_ ?_ | split
    | dsimp -zeta only

theorem showTables_apart {bk : Blocks} {z : State} {s : State} {d : Nat} (kz : Apart bk z s) : Apart bk z (showTables s d) := by
  unfold showTables
  repeat' first
    | with_reducible assumption | with_reducible apply wf_apart

theorem insertFail_apart {bk : Blocks} {z : State} {s : State} {part : Nat} {table : Nat} (kz : Apart bk z s) : Apart bk z (insertFail s part table) := by
  unfold insertFail
  repeat' first
    | with_reducible assumption | with_reducible apply fwdEvent_apart | with_reducible refine Apart.foldl _ _ ?_ (fun _ _ _ => ?_)

theorem countTie_apart {bk : Blocks} {z : State} {s : State} {part : Nat} (kz : Apart bk z s) : Apart bk z (countTie s part) := by
  unfold countTie
  repeat' first
    | with_reducible assumption | with_reducible apply bump64_apart | with_reducible refine Apart.foldl _ _ ?_ (fun _ _ _ => ?_)

theorem showDef_apart {bk : Blocks} {z : State} {s : State} {part : Nat} (kz : Apart bk z s) : Apart bk z (showDef s part) := by
  unfold showDef
  repeat' first
    | with_reducible assumption | with_reducible apply wf_apart | with_reducible apply wfs_apart | split

theorem showGroups_apart {bk : Blocks} {z : State} {y0 : List UnitGroup} {y1 : State} (kz : Apart bk z y1) : Apart bk z (showGroups y0 y1) := by
  induction y0 generalizing y1 with
  | nil =>
    unfold showGroups
    repeat' first
      | with_reducible assumption
  | cons x l ih =>
    unfold showGroups
    repeat' first
      | with_reducible assumption | with_reducible apply ih | with_reducible apply setMapBit_apart

theorem showPorts_apart {bk : Blocks} {z : State} {y0 : List PortRec} {y1 : State} (kz : Apart bk z y1) : Apart bk z (showPorts y0 y1) := by
  induction y0 generalizing y1 with
  | nil =>
    unfold showPorts
    repeat' first
      | with_reducible assumption
  | cons x l ih =>
    unfold showPorts
    repeat' first
      | with_reducible assumption | with_reducible apply ih | with_reducible apply setMapBit_apart

theorem recomputeReady_apart {bk : Blocks} {z : State} {s : State} (kz : Apart bk z s) : Apart bk z (recomputeReady s) := by
  unfold recomputeReady
  repeat' first
    | with_reducible assumption | with_reducible apply showGroups_apart | with_reducible apply showPorts_apart
    | with_reducible apply wfs_apart | with_reducible apply wn_apart | with_reducible apply wf_apart
    | with_reducible refine Apart.foldl _ _ ?_ (fun _ _ _ => ?_)

theorem announceReady_apart {bk : Blocks} {z : State} {old : State} {s : State} (kz : Apart bk z s) : Apart bk z (announceReady old s) := by
  unfold announceReady
  repeat' first
    | with_reducible assumption | with_reducible apply signal_apart | with_reducible apply wr_apart
    | (extract_lets +onlyGivenNames v; clear_value v) | with_reducible refine Apart.ite ?_ ?_

theorem refreshReady_apart {bk : Blocks} {z : State} {old : State} {s : State} (kz : Apart bk z s) : Apart bk z (refreshReady old s) := by
  unfold refreshReady
  repeat' first
    | with_reducible assumption | with_reducible apply announceReady_apart | with_reducible apply recomputeReady_apart

theorem checkBudget_apart {bk : Blocks} {z : State} {s : State} {d : Nat} {p : Nat} {dir : Nat} {port : Nat} (kz : Apart bk z s) : Apart bk z (checkBudget s d p dir port) := by
  unfold checkBudget
  repeat' first
    | with_reducible assumption | with_reducible apply rteEvent_apart | with_reducible refine Apart.ite ?_ ?_ | split

theorem showBytes_apart {bk : Blocks} {z : State} {reg : Nat → Nat} {words : Nat} {l : List Sys2Proof.Byte} {s : State} (kz : Apart bk z s) : Apart bk z (showBytes reg words l s) := by
  unfold showBytes
  repeat' first
    | with_reducible assumption | with_reducible apply wn_apart | with_reducible refine Apart.foldl _ _ ?_ (fun _ _ _ => ?_)

theorem showLog_apart {bk : Blocks} {z : State} {s : State} (kz : Apart bk z s) : Apart bk z (showLog s) := by
  unfold showLog
  repeat' first
    | with_reducible assumption | with_reducible apply showBytes_apart | split

theorem showDebug_apart {bk : Blocks} {z : State} {s : State} (kz : Apart bk z s) : Apart bk z (showDebug s) := by
  unfold showDebug
  repeat' first
    | with_reducible assumption | with_reducible apply wf_apart | with_reducible apply wn_apart
    | (extract_lets +onlyGivenNames v; refine Apart.cut (bk := bk) (z := z) v ?_ (fun hv => ?_); subst v; rotate_left; first | clear_value v | subst v)
    | (extract_lets +onlyGivenNames v; first | clear_value v | subst v) | with_reducible refine Apart.ite ?_ ?_ | split
    | dsimp -zeta only

theorem learnDrop_apart {bk : Blocks} {z : State} {s : State} {d : Nat} (kz : Apart bk z s) : Apart bk z (learnDrop s d) := by
  unfold learnDrop
  repeat' first
    | with_reducible assumption | with_reducible apply fwdEvent_apart | with_reducible apply bump64_apart

theorem showPg_apart {bk : Blocks} {z : State} {s : State} {g : Nat} (kz : Apart bk z s) : Apart bk z (showPg s g) := by
  unfold showPg
  repeat' first
    | with_reducible assumption | with_reducible apply wn_apart | with_reducible apply wf_apart
    | (extract_lets +onlyGivenNames v; refine Apart.cut (bk := bk) (z := z) v ?_ (fun hv => ?_); subst v; rotate_left; clear_value v)
    | (extract_lets +onlyGivenNames v; clear_value v) | split

theorem setPgSt_apart {bk : Blocks} {z : State} {s : State} {g : Nat} {st : Nat} (kz : Apart bk z s) : Apart bk z (setPgSt s g st) := by
  unfold setPgSt
  repeat' first
    | with_reducible assumption | with_reducible apply showPg_apart | with_reducible apply wf_apart

theorem setPgResult_apart {bk : Blocks} {z : State} {s : State} {g : Nat} {r : Nat} (kz : Apart bk z s) : Apart bk z (setPgResult s g r) := by
  unfold setPgResult
  repeat' first
    | with_reducible assumption | with_reducible apply wf_apart

theorem sigStarts_apart {bk : Blocks} {z : State} {d : Nat} {k : GateGeom} {lo : Nat} {hi : Nat} {y4 : List (Nat × Nat)} {y5 : State} (kz : Apart bk z y5) : Apart bk z (sigStarts d k lo hi y4 y5) := by
  induction y4 generalizing y5 with
  | nil =>
    unfold sigStarts
    repeat' first
      | with_reducible assumption
  | cons x l ih =>
    unfold sigStarts
    repeat' first
      | with_reducible assumption | with_reducible apply ih | with_reducible apply addCounter_apart
      | (extract_lets +onlyGivenNames v; first | clear_value v | subst v) | with_reducible refine Apart.ite ?_ ?_

theorem setTimFine_apart {bk : Blocks} {z : State} {s : State} {b : Bool} (kz : Apart bk z s) : Apart bk z (setTimFine s b) := by
  unfold setTimFine
  repeat' first
    | with_reducible assumption | with_reducible apply refreshReady_apart | with_reducible apply timEvent_apart
    | with_reducible apply wf_apart | with_reducible refine Apart.ite ?_ ?_

theorem showSource_apart {bk : Blocks} {z : State} {s : State} (kz : Apart bk z s) : Apart bk z (showSource s) := by
  unfold showSource
  repeat' first
    | with_reducible assumption | with_reducible apply wfs_apart | with_reducible apply wf_apart
    | with_reducible refine Apart.ite ?_ ?_ | split

theorem setFenceSt_apart {bk : Blocks} {z : State} {s : State} {p : Nat} {st : Nat} (kz : Apart bk z s) : Apart bk z (setFenceSt s p st) := by
  unfold setFenceSt
  repeat' first
    | with_reducible assumption | with_reducible apply wf_apart

theorem unfenceStart_apart {bk : Blocks} {z : State} {s : State} {p : Nat} (kz : Apart bk z s) : Apart bk z (unfenceStart s p) := by
  unfold unfenceStart
  repeat' first
    | with_reducible assumption | with_reducible apply setFenceSt_apart | with_reducible apply wf_apart
    | (extract_lets +onlyGivenNames v; refine Apart.cut (bk := bk) (z := z) v ?_ (fun hv => ?_); subst v; rotate_left; clear_value v)
    | (extract_lets +onlyGivenNames v; first | clear_value v | subst v) | with_reducible refine Apart.ite ?_ ?_

theorem heldBlock_apart {bk : Blocks} {z : State} {s : State} {a : Nat} (kz : Apart bk z s) : Apart bk z (heldBlock s a) := by
  unfold heldBlock
  repeat' first
    | with_reducible assumption | with_reducible apply timEvent_apart | with_reducible apply schEvent_apart
    | with_reducible apply bump64_apart
    | (extract_lets +onlyGivenNames v; first | clear_value v | subst v) | with_reducible refine Apart.ite ?_ ?_

theorem heldRefuse_apart {bk : Blocks} {z : State} {s : State} {a : Nat} (kz : Apart bk z s) : Apart bk z (heldRefuse s a) := by
  unfold heldRefuse
  repeat' first
    | with_reducible assumption | with_reducible apply heldBlock_apart | with_reducible apply bump64_apart

theorem heldWrite_apart {bk : Blocks} {z : State} {s : State} {a : Nat} {v : Sys2Proof.Word} (kz : Apart bk z s) : Apart bk z (heldWrite s a v) := by
  unfold heldWrite
  repeat' first
    | with_reducible assumption | with_reducible apply heldRefuse_apart | with_reducible apply wr_apart
    | (extract_lets +onlyGivenNames v; refine Apart.cut (bk := bk) (z := z) v ?_ (fun hv => ?_); subst v; rotate_left; clear_value v)
    | (extract_lets +onlyGivenNames v; first | clear_value v | subst v) | with_reducible refine Apart.ite ?_ ?_ | split

theorem execVaux5OutOfRange_apart {bk : Blocks} {z : State} {s : State} (kz : Apart bk z s) : ApartNext bk z (execVaux5OutOfRange s) := by
  unfold execVaux5OutOfRange
  repeat' first
    | with_reducible assumption | with_reducible refine Apart.next ?_ | with_reducible apply pwrEvent_apart
    | with_reducible apply wf_apart | with_reducible refine Apart.ite ?_ ?_

theorem execPwrTelemetryUpdate_apart {bk : Blocks} {z : State} {r : Sys2Proof.PwrReadings} {s : State} (kz : Apart bk z s) : ApartNext bk z (execPwrTelemetryUpdate r s) := by
  unfold execPwrTelemetryUpdate
  repeat' first
    | with_reducible assumption | with_reducible refine Apart.next ?_ | with_reducible apply pwrEvent_apart
    | with_reducible apply wn_apart | with_reducible apply wf_apart | with_reducible refine Apart.foldl _ _ ?_ (fun _ _ _ => ?_)
    | (extract_lets +onlyGivenNames v; refine Apart.cut (bk := bk) (z := z) v ?_ (fun hv => ?_); subst v; rotate_left; clear_value v)
    | (extract_lets +onlyGivenNames v; subst v) | with_reducible refine Apart.ite ?_ ?_

theorem execPwrPeakRead_apart {bk : Blocks} {z : State} {s : State} (kz : Apart bk z s) : ApartNext bk z (execPwrPeakRead s) := by
  unfold execPwrPeakRead
  repeat' first
    | with_reducible assumption | with_reducible refine Apart.next ?_ | with_reducible apply wn_apart | with_reducible apply emit_apart
    | with_reducible refine Apart.ite ?_ ?_

theorem offlineAccess_apart {bk : Blocks} {z : State} {s : State} (kz : Apart bk z s) : Apart bk z (offlineAccess s) := by
  unfold offlineAccess
  repeat' first
    | with_reducible assumption | with_reducible apply hifErr_apart | with_reducible apply bump32_apart

theorem apertureBad_apart {bk : Blocks} {z : State} {s : State} (kz : Apart bk z s) : Apart bk z (apertureBad s) := by
  unfold apertureBad
  repeat' first
    | with_reducible assumption | with_reducible apply hifErr_apart | with_reducible apply bump32_apart

theorem windowAccess_apart {bk : Blocks} {z : State} {s : State} {a : Nat} (kz : Apart bk z s) : Apart bk z (windowAccess s a) := by
  unfold windowAccess
  repeat' first
    | with_reducible assumption | with_reducible apply offlineAccess_apart | with_reducible refine Apart.ite ?_ ?_ | split

theorem execBadAccess_apart {bk : Blocks} {z : State} {a : BitVec 26} {isRead : Bool} {s : State} (kz : Apart bk z s) : ApartNext bk z (execBadAccess a isRead s) := by
  unfold execBadAccess
  repeat' first
    | with_reducible assumption | with_reducible refine Apart.next ?_ | with_reducible apply windowAccess_apart
    | with_reducible apply apertureBad_apart | with_reducible apply hifErr_apart | with_reducible apply emit_apart
    | with_reducible refine Apart.ite ?_ ?_ | split

theorem execOfflineDuneAccess_apart {bk : Blocks} {z : State} {a : BitVec 26} {isRead : Bool} {s : State} (kz : Apart bk z s) : ApartNext bk z (execOfflineDuneAccess a isRead s) := by
  unfold execOfflineDuneAccess
  repeat' first
    | with_reducible assumption | with_reducible refine Apart.next ?_ | with_reducible apply offlineAccess_apart
    | with_reducible apply emit_apart | with_reducible refine Apart.ite ?_ ?_ | split

theorem execHostSubmit_apart {bk : Blocks} {z : State} {d : Fin 8} {q : Fin 2048} {off : Fin 64} {bytes : List Sys2Proof.Byte} {s : State} (kz : Apart bk z s) : ApartNext bk z (execHostSubmit d q off bytes s) := by
  unfold execHostSubmit
  repeat' first
    | with_reducible assumption | with_reducible refine Apart.next ?_ | with_reducible apply offlineAccess_apart
    | with_reducible apply apertureBad_apart | with_reducible apply cqOffer_apart | with_reducible refine Apart.ite ?_ ?_

theorem doorbellDenied_apart {bk : Blocks} {z : State} {s : State} (kz : Apart bk z s) : Apart bk z (doorbellDenied s) := by
  unfold doorbellDenied
  repeat' first
    | with_reducible assumption | with_reducible apply hifErr_apart | with_reducible apply bump32_apart

theorem doorbell_apart {bk : Blocks} {z : State} {s : State} {c : Sys2Proof.Cfh} {ripple : Nat} {fits : Bool} {act : State → State} (kz : Apart bk z s) (hact : ∀ t, Apart bk z t → Apart bk z (act t)) : Apart bk z (doorbell s c ripple fits act) := by
  unfold doorbell
  repeat' first
    | with_reducible assumption | with_reducible apply doorbellDenied_apart | with_reducible apply bump32_apart | apply hact
    | (extract_lets +onlyGivenNames v; first | clear_value v | subst v) | with_reducible refine Apart.ite ?_ ?_

theorem execDoorbellSubmit_apart {bk : Blocks} {z : State} {c : Sys2Proof.Cfh} {payload : List Sys2Proof.Byte} {s : State} (kz : Apart bk z s) : ApartNext bk z (execDoorbellSubmit c payload s) := by
  unfold execDoorbellSubmit
  repeat' first
    | with_reducible assumption | with_reducible refine Apart.next ?_ | with_reducible intro _
    | with_reducible apply doorbellDenied_apart | with_reducible apply doorbell_apart | with_reducible apply cqOffer_apart
    | (extract_lets +onlyGivenNames v; first | clear_value v | subst v) | with_reducible refine Apart.ite ?_ ?_

theorem execDoorbellCounterAdd_apart {bk : Blocks} {z : State} {c : Sys2Proof.Cfh} {payload : List Sys2Proof.Byte} {s : State} (kz : Apart bk z s) : ApartNext bk z (execDoorbellCounterAdd c payload s) := by
  unfold execDoorbellCounterAdd
  repeat' first
    | with_reducible assumption | with_reducible refine Apart.next ?_ | with_reducible intro _
    | with_reducible apply doorbellDenied_apart | with_reducible apply doorbell_apart | with_reducible apply addCounter_apart
    | (extract_lets +onlyGivenNames v; first | clear_value v | subst v) | with_reducible refine Apart.ite ?_ ?_

theorem cqWriteCfg_apart {bk : Blocks} {z : State} {s : State} {d : Nat} {q : Nat} {v : Sys2Proof.Word} (kz : Apart bk z s) : Apart bk z (cqWriteCfg s d q v) := by
  unfold cqWriteCfg
  repeat' first
    | with_reducible assumption | with_reducible apply wfs_apart

theorem enableQueue_apart {bk : Blocks} {z : State} {s : State} {d : Nat} {q : Nat} (kz : Apart bk z s) : Apart bk z (enableQueue s d q) := by
  unfold enableQueue
  repeat' first
    | with_reducible assumption | with_reducible apply setCqState_apart | with_reducible apply latchCq_apart
    | with_reducible apply cqError_apart | with_reducible apply wf_apart
    | (extract_lets +onlyGivenNames v; refine Apart.cut (bk := bk) (z := z) v ?_ (fun hv => ?_); subst v; rotate_left; first | clear_value v | subst v)
    | (extract_lets +onlyGivenNames v; first | clear_value v | subst v) | with_reducible refine Apart.ite ?_ ?_ | split
    | dsimp -zeta only

theorem execCqEnable_apart {bk : Blocks} {z : State} {d : Fin 8} {q : Fin 2048} {v : Sys2Proof.Word} {s : State} (kz : Apart bk z s) : ApartNext bk z (execCqEnable d q v s) := by
  unfold execCqEnable
  repeat' first
    | with_reducible assumption | with_reducible refine Apart.next ?_ | with_reducible apply cqWriteCfg_apart
    | with_reducible apply enableQueue_apart | with_reducible apply heldWrite_apart
    | (extract_lets +onlyGivenNames v; refine Apart.cut (bk := bk) (z := z) v ?_ (fun hv => ?_); subst v; rotate_left; first | clear_value v | subst v)
    | (extract_lets +onlyGivenNames v; first | clear_value v | subst v) | with_reducible refine Apart.ite ?_ ?_ | split
    | dsimp -zeta only

theorem execCqDisable_apart {bk : Blocks} {z : State} {d : Fin 8} {q : Fin 2048} {v : Sys2Proof.Word} {s : State} (kz : Apart bk z s) : ApartNext bk z (execCqDisable d q v s) := by
  unfold execCqDisable
  repeat' first
    | with_reducible assumption | with_reducible refine Apart.next ?_ | with_reducible apply cqWriteCfg_apart
    | with_reducible apply heldWrite_apart | with_reducible apply drainCq_apart | with_reducible refine Apart.ite ?_ ?_

theorem execEventCounterWrite_apart {bk : Blocks} {z : State} {d : Fin 8} {i : Fin 4095} {v : Sys2Proof.Word} {s : State} (kz : Apart bk z s) : ApartNext bk z (execEventCounterWrite d i v s) := by
  unfold execEventCounterWrite
  repeat' first
    | with_reducible assumption | with_reducible refine Apart.next ?_ | with_reducible apply heldWrite_apart
    | with_reducible apply wf_apart | with_reducible refine Apart.ite ?_ ?_

theorem cnqWriteNotice_apart {bk : Blocks} {z : State} {s : State} {d : Nat} {n : Nat} {v : Sys2Proof.Word} (kz : Apart bk z s) : Apart bk z (cnqWriteNotice s d n v) := by
  unfold cnqWriteNotice
  repeat' first
    | with_reducible assumption | with_reducible apply wfs_apart

theorem cnqWriteGeometry_apart {bk : Blocks} {z : State} {s : State} {d : Nat} {n : Nat} {v : Sys2Proof.Word} (kz : Apart bk z s) : Apart bk z (cnqWriteGeometry s d n v) := by
  unfold cnqWriteGeometry
  repeat' first
    | with_reducible assumption | with_reducible apply wfs_apart

theorem execCnqEnable_apart {bk : Blocks} {z : State} {d : Fin 8} {n : Fin 2048} {v : Sys2Proof.Word} {s : State} (kz : Apart bk z s) : ApartNext bk z (execCnqEnable d n v s) := by
  unfold execCnqEnable
  repeat' first
    | with_reducible assumption | with_reducible refine Apart.next ?_ | with_reducible apply cnqWriteNotice_apart
    | with_reducible apply cnqWriteGeometry_apart | with_reducible apply heldWrite_apart | with_reducible apply setCnq_apart
    | with_reducible apply wf_apart | with_reducible apply wn_apart
    | (extract_lets +onlyGivenNames v; refine Apart.cut (bk := bk) (z := z) v ?_ (fun hv => ?_); subst v; rotate_left; clear_value v)
    | (extract_lets +onlyGivenNames v; first | clear_value v | subst v) | with_reducible refine Apart.ite ?_ ?_

theorem dropStaged_apart {bk : Blocks} {z : State} {s : State} {d : Nat} {n : Nat} (kz : Apart bk z s) : Apart bk z (dropStaged s d n) := by
  unfold dropStaged
  repeat' first
    | with_reducible assumption | with_reducible apply setCnq_apart | with_reducible apply cnqNotice_apart
    | with_reducible apply bump32_apart | simp -zeta only [apart_upd]
    | (extract_lets +onlyGivenNames v; refine Apart.cut (bk := bk) (z := z) v ?_ (fun hv => ?_); subst v; rotate_left; clear_value v)
    | (extract_lets +onlyGivenNames v; clear_value v) | with_reducible refine Apart.ite ?_ ?_

theorem execCnqReadTimeout_apart {bk : Blocks} {z : State} {d : Fin 8} {n : Fin 2048} {s : State} (kz : Apart bk z s) : ApartNext bk z (execCnqReadTimeout d n s) := by
  unfold execCnqReadTimeout
  repeat' first
    | with_reducible assumption | with_reducible refine Apart.next ?_ | with_reducible apply cnqNotice_apart
    | with_reducible refine Apart.ite ?_ ?_

theorem cnqMessage_apart {bk : Blocks} {z : State} {s : State} {d : Nat} {n : Nat} {typ : Nat} {first : Bool} {last : Bool} {seq : Nat} {count : Nat} {items : List Sys2Proof.Byte} (kz : Apart bk z s) : Apart bk z (cnqMessage s d n typ first last seq count items) := by
  unfold cnqMessage
  repeat' first
    | with_reducible assumption | with_reducible apply emit_apart

theorem cnqFragments_apart {bk : Blocks} {z : State} {d : Nat} {n : Nat} {typ : Nat} {y3 : Nat} {y4 : Bool} {y5 : Nat} {y6 : List Sys2Proof.Byte} {y7 : State} (kz : Apart bk z y7) : Apart bk z (cnqFragments d n typ y3 y4 y5 y6 y7) := by
  induction y3 generalizing y4 y5 y6 y7 with
  | zero =>
    unfold cnqFragments
    repeat' first
      | with_reducible assumption
  | succ n ih =>
    unfold cnqFragments
    repeat' first
      | with_reducible assumption | with_reducible apply ih | with_reducible apply cnqMessage_apart | with_reducible refine Apart.ite ?_ ?_

theorem mpEmit_apart {bk : Blocks} {z : State} {s : State} {p : Nat} {m : MgmtMsg} (kz : Apart bk z s) : Apart bk z (mpEmit s p m) := by
  unfold mpEmit
  repeat' first
    | with_reducible assumption | with_reducible apply emit_apart

theorem probeV4_apart {bk : Blocks} {z : State} {s : State} {p : Nat} (kz : Apart bk z s) : Apart bk z (probeV4 s p) := by
  unfold probeV4
  repeat' first
    | with_reducible assumption | with_reducible apply mpEmit_apart | with_reducible refine Apart.ite ?_ ?_

theorem probeV6_apart {bk : Blocks} {z : State} {s : State} {p : Nat} {ip : Nat} (kz : Apart bk z s) : Apart bk z (probeV6 s p ip) := by
  unfold probeV6
  repeat' first
    | with_reducible assumption | with_reducible apply mpEmit_apart | with_reducible refine Apart.ite ?_ ?_

theorem execMgmtAddrWrite_apart {bk : Blocks} {z : State} {p : Fin 2} {v6 : Bool} {w : Fin 4} {v : Sys2Proof.Word} {s : State} (kz : Apart bk z s) : ApartNext bk z (execMgmtAddrWrite p v6 w v s) := by
  unfold execMgmtAddrWrite
  repeat' first
    | with_reducible assumption | with_reducible refine Apart.next ?_ | with_reducible apply probeV6_apart
    | with_reducible apply probeV4_apart | with_reducible apply heldWrite_apart | with_reducible apply setMp_apart
    | with_reducible apply wr_apart | simp -zeta only [apart_upd]
    | (extract_lets +onlyGivenNames v; refine Apart.cut (bk := bk) (z := z) v ?_ (fun hv => ?_); subst v; rotate_left; clear_value v)
    | (extract_lets +onlyGivenNames v; first | clear_value v | subst v) | with_reducible refine Apart.ite ?_ ?_

theorem execMgmtLinkUp_apart {bk : Blocks} {z : State} {p : Fin 2} {s : State} (kz : Apart bk z s) : ApartNext bk z (execMgmtLinkUp p s) := by
  unfold execMgmtLinkUp
  repeat' first
    | with_reducible assumption | with_reducible refine Apart.next ?_ | with_reducible apply probeV6_apart
    | with_reducible apply probeV4_apart | with_reducible apply setMp_apart | simp -zeta only [apart_upd]
    | (extract_lets +onlyGivenNames v; refine Apart.cut (bk := bk) (z := z) v ?_ (fun hv => ?_); subst v; rotate_left; clear_value v)
    | (extract_lets +onlyGivenNames v; clear_value v) | with_reducible refine Apart.ite ?_ ?_

theorem mpDiscard_apart {bk : Blocks} {z : State} {s : State} {p : Nat} (kz : Apart bk z s) : Apart bk z (mpDiscard s p) := by
  unfold mpDiscard
  repeat' first
    | with_reducible assumption | with_reducible apply bump32_apart

theorem execMgmtArpRx_apart {bk : Blocks} {z : State} {p : Fin 2} {vid : Fin 4096} {target : BitVec 32} {sender : BitVec 32} {mac : BitVec 48} {s : State} (kz : Apart bk z s) : ApartNext bk z (execMgmtArpRx p vid target sender mac s) := by
  unfold execMgmtArpRx
  repeat' first
    | with_reducible assumption | with_reducible refine Apart.next ?_ | with_reducible apply mpEmit_apart
    | with_reducible apply mpDiscard_apart | with_reducible refine Apart.ite ?_ ?_

theorem execMgmtNdRx_apart {bk : Blocks} {z : State} {p : Fin 2} {vid : Fin 4096} {target : BitVec 128} {sender : BitVec 128} {mac : BitVec 48} {s : State} (kz : Apart bk z s) : ApartNext bk z (execMgmtNdRx p vid target sender mac s) := by
  unfold execMgmtNdRx
  repeat' first
    | with_reducible assumption | with_reducible refine Apart.next ?_ | with_reducible apply mpEmit_apart
    | with_reducible apply mpDiscard_apart | with_reducible refine Apart.ite ?_ ?_

theorem execMgmtEchoRx_apart {bk : Blocks} {z : State} {p : Fin 2} {vid : Fin 4096} {v6 : Bool} {dst : BitVec 128} {src : BitVec 128} {data : List Sys2Proof.Byte} {s : State} (kz : Apart bk z s) : ApartNext bk z (execMgmtEchoRx p vid v6 dst src data s) := by
  unfold execMgmtEchoRx
  repeat' first
    | with_reducible assumption | with_reducible refine Apart.next ?_ | with_reducible apply mpDiscard_apart
    | with_reducible apply mpSend_apart | with_reducible apply setMp_apart | simp -zeta only [apart_upd]
    | (extract_lets +onlyGivenNames v; first | clear_value v | subst v) | with_reducible refine Apart.ite ?_ ?_

theorem puntDrop_apart {bk : Blocks} {z : State} {s : State} {d : Nat} (kz : Apart bk z s) : Apart bk z (puntDrop s d) := by
  unfold puntDrop
  repeat' first
    | with_reducible assumption | with_reducible apply fwdEvent_apart | with_reducible apply bump64_apart

theorem execPaceLow_apart {bk : Blocks} {z : State} {m : Sys2Proof.PaceReading} {s : State} (kz : Apart bk z s) : ApartNext bk z (execPaceLow m s) := by
  unfold execPaceLow
  repeat' first
    | with_reducible assumption | with_reducible refine Apart.next ?_ | with_reducible apply swcEvent_apart
    | with_reducible apply brcEvent_apart | with_reducible apply wfs_apart
    | (extract_lets +onlyGivenNames v; refine Apart.cut (bk := bk) (z := z) v ?_ (fun hv => ?_); subst v; rotate_left; first | clear_value v | subst v)
    | (extract_lets +onlyGivenNames v; first | clear_value v | subst v) | with_reducible refine Apart.ite ?_ ?_ | split
    | dsimp -zeta only

theorem execMirrorSessionEnable_apart {bk : Blocks} {z : State} {d : Fin 8} {m : Fin 64} {v : Sys2Proof.Word} {s : State} (kz : Apart bk z s) : ApartNext bk z (execMirrorSessionEnable d m v s) := by
  unfold execMirrorSessionEnable
  repeat' first
    | with_reducible assumption | with_reducible refine Apart.next ?_ | with_reducible apply heldWrite_apart
    | with_reducible apply swcEvent_apart | with_reducible apply softWrite_apart | with_reducible apply wf_apart
    | (extract_lets +onlyGivenNames v; refine Apart.cut (bk := bk) (z := z) v ?_ (fun hv => ?_); subst v; rotate_left; clear_value v)
    | (extract_lets +onlyGivenNames v; first | clear_value v | subst v) | with_reducible refine Apart.ite ?_ ?_

theorem setUpdResult_apart {bk : Blocks} {z : State} {s : State} {c : Nat} (kz : Apart bk z s) : Apart bk z (setUpdResult s c) := by
  unfold setUpdResult
  repeat' first
    | with_reducible assumption | with_reducible apply wf_apart

theorem showAxisLoad_apart {bk : Blocks} {z : State} {s : State} {a : Nat} (kz : Apart bk z s) : Apart bk z (showAxisLoad s a) := by
  unfold showAxisLoad
  repeat' first
    | with_reducible assumption | with_reducible apply wf_apart

theorem windowAxis_apart {bk : Blocks} {z : State} {old : State} {s : State} {a : Nat} (kz : Apart bk z s) : Apart bk z (windowAxis old s a) := by
  unfold windowAxis
  repeat' first
    | with_reducible assumption | with_reducible apply wfs_apart

theorem setVerWritable_apart {bk : Blocks} {z : State} {s : State} {v : Nat} {b : Bool} (kz : Apart bk z s) : Apart bk z (setVerWritable s v b) := by
  unfold setVerWritable
  repeat' first
    | with_reducible assumption | with_reducible apply wf_apart

theorem showVerDig_apart {bk : Blocks} {z : State} {s : State} (kz : Apart bk z s) : Apart bk z (showVerDig s) := by
  unfold showVerDig
  repeat' first
    | with_reducible assumption | with_reducible apply wn64_apart

theorem nextIndex_apart {bk : Blocks} {z : State} {s : State} (kz : Apart bk z s) : Apart bk z (nextIndex s) := by
  unfold nextIndex
  repeat' first
    | with_reducible assumption | with_reducible apply wf_apart

theorem setFlipResult_apart {bk : Blocks} {z : State} {s : State} {c : Nat} (kz : Apart bk z s) : Apart bk z (setFlipResult s c) := by
  unfold setFlipResult
  repeat' first
    | with_reducible assumption | with_reducible apply wf_apart

theorem flipRefused_apart {bk : Blocks} {z : State} {s : State} {c : Nat} (kz : Apart bk z s) : Apart bk z (flipRefused s c) := by
  unfold flipRefused
  repeat' first
    | with_reducible assumption | with_reducible apply setFlipResult_apart | with_reducible apply rteEvent_apart

theorem execTelemetryLost_apart {bk : Blocks} {z : State} {l : Fin 2048} {s : State} (kz : Apart bk z s) : ApartNext bk z (execTelemetryLost l s) := by
  unfold execTelemetryLost
  repeat' first
    | with_reducible assumption | with_reducible refine Apart.next ?_ | with_reducible apply optEvent_apart
    | with_reducible apply wf_apart
    | (extract_lets +onlyGivenNames v; first | clear_value v | subst v) | with_reducible refine Apart.ite ?_ ?_

theorem ptpSend_apart {bk : Blocks} {z : State} {s : State} {kind : Nat} {p : Nat} {m : Sys2Proof.PtpBody} (kz : Apart bk z s) : Apart bk z (ptpSend s kind p m) := by
  unfold ptpSend
  repeat' first
    | with_reducible assumption | with_reducible apply mpEmit_apart | with_reducible apply emit_apart
    | with_reducible refine Apart.ite ?_ ?_

theorem execPtpAnnounceSend_apart {bk : Blocks} {z : State} {mgmt : Bool} {s : State} (kz : Apart bk z s) : ApartNext bk z (execPtpAnnounceSend mgmt s) := by
  unfold execPtpAnnounceSend
  repeat' first
    | with_reducible assumption | with_reducible refine Apart.next ?_ | with_reducible apply ptpSend_apart
    | with_reducible refine Apart.foldl _ _ ?_ (fun _ _ _ => ?_)

theorem execTimCapture_apart {bk : Blocks} {z : State} {v : Sys2Proof.Word} {s : State} (kz : Apart bk z s) : ApartNext bk z (execTimCapture v s) := by
  unfold execTimCapture
  repeat' first
    | with_reducible assumption | with_reducible refine Apart.next ?_ | with_reducible apply heldRefuse_apart
    | with_reducible apply wn_apart | with_reducible apply wnHL_apart | with_reducible refine Apart.ite ?_ ?_

theorem execAttest_apart {bk : Blocks} {z : State} {v : Sys2Proof.Word} {s : State} (kz : Apart bk z s) : ApartNext bk z (execAttest v s) := by
  unfold execAttest
  repeat' first
    | with_reducible assumption | with_reducible refine Apart.next ?_ | with_reducible apply showBytes_apart
    | with_reducible apply secEvent_apart
    | (extract_lets +onlyGivenNames v; first | clear_value v | subst v) | with_reducible refine Apart.ite ?_ ?_

theorem showReason_apart {bk : Blocks} {z : State} {s : State} {p : Nat} {r : Nat} (kz : Apart bk z s) : Apart bk z (showReason s p r) := by
  unfold showReason
  repeat' first
    | with_reducible assumption | with_reducible apply wf_apart | with_reducible refine Apart.ite ?_ ?_

theorem unitWrite_apart {bk : Blocks} {z : State} {s : State} {d : Nat} {u : Nat} {v : Sys2Proof.Word} {act : State → State} (kz : Apart bk z s) (hact : ∀ t, Apart bk z t → Apart bk z (act t)) : Apart bk z (unitWrite s d u v act) := by
  unfold unitWrite
  repeat' first
    | with_reducible assumption | with_reducible apply heldRefuse_apart | with_reducible apply softWrite_apart | apply hact
    | (extract_lets +onlyGivenNames v; first | clear_value v | subst v) | with_reducible refine Apart.ite ?_ ?_

theorem execChkUnitStart_apart {bk : Blocks} {z : State} {d : Fin 8} {u : Fin 64} {v : Sys2Proof.Word} {s : State} (kz : Apart bk z s) : ApartNext bk z (execChkUnitStart d u v s) := by
  unfold execChkUnitStart
  repeat' first
    | with_reducible assumption | with_reducible refine Apart.next ?_ | with_reducible intro _ | with_reducible apply unitWrite_apart
    | with_reducible apply wf_apart
    | (extract_lets +onlyGivenNames v; first | clear_value v | subst v) | with_reducible refine Apart.ite ?_ ?_

theorem execChkUnitStop_apart {bk : Blocks} {z : State} {d : Fin 8} {u : Fin 64} {v : Sys2Proof.Word} {s : State} (kz : Apart bk z s) : ApartNext bk z (execChkUnitStop d u v s) := by
  unfold execChkUnitStop
  repeat' first
    | with_reducible assumption | with_reducible refine Apart.next ?_ | with_reducible intro _ | with_reducible apply unitWrite_apart
    | with_reducible apply wf_apart
    | (extract_lets +onlyGivenNames v; first | clear_value v | subst v) | with_reducible refine Apart.ite ?_ ?_

theorem carSend_apart {bk : Blocks} {z : State} {s : State} {c : Caravan} {cls : Nat} {dst : Nat} {b : List Sys2Proof.Byte} (kz : Apart bk z s) : Apart bk z (carSend s c cls dst b) := by
  unfold carSend
  repeat' first
    | with_reducible assumption | with_reducible apply emit_apart

theorem carPiece_apart {bk : Blocks} {z : State} {s : State} {c : Caravan} {p : CarPeer} {off : Nat} (kz : Apart bk z s) : Apart bk z (carPiece s c p off) := by
  unfold carPiece
  repeat' first
    | with_reducible assumption | with_reducible apply carSend_apart

theorem carRange_apart {bk : Blocks} {z : State} {s : State} {c : Caravan} {p : CarPeer} {a : Nat} {zz : Nat} (kz : Apart bk z s) : Apart bk z (carRange s c p a zz) := by
  unfold carRange
  repeat' first
    | with_reducible assumption | with_reducible apply carPiece_apart | with_reducible refine Apart.foldl _ _ ?_ (fun _ _ _ => ?_)

theorem execCaravanHeartbeatSend_apart {bk : Blocks} {z : State} {tid : BitVec 16} {s : State} (kz : Apart bk z s) : ApartNext bk z (execCaravanHeartbeatSend tid s) := by
  unfold execCaravanHeartbeatSend
  repeat' first
    | with_reducible assumption | with_reducible refine Apart.next ?_ | with_reducible apply carSend_apart
    | with_reducible refine Apart.foldl _ _ ?_ (fun _ _ _ => ?_)
    | (extract_lets +onlyGivenNames v; refine Apart.cut (bk := bk) (z := z) v ?_ (fun hv => ?_); subst v; rotate_left; clear_value v)
    | (extract_lets +onlyGivenNames v; first | clear_value v | subst v) | with_reducible refine Apart.ite ?_ ?_ | split

theorem execCaravanNack_apart {bk : Blocks} {z : State} {c : Sys2Proof.Cfh} {payload : List Sys2Proof.Byte} {s : State} (kz : Apart bk z s) : ApartNext bk z (execCaravanNack c payload s) := by
  unfold execCaravanNack
  repeat' first
    | with_reducible assumption | with_reducible refine Apart.next ?_ | with_reducible apply carRange_apart
    | (extract_lets +onlyGivenNames v; clear_value v) | with_reducible refine Apart.ite ?_ ?_ | split

theorem triadTo_apart {bk : Blocks} {z : State} {s : State} {st : Nat} {cores : List Nat} (kz : Apart bk z s) : Apart bk z (triadTo s st cores) := by
  unfold triadTo
  repeat' first
    | with_reducible assumption | with_reducible apply wfs_apart

theorem execDrainTimeout_apart {bk : Blocks} {z : State} {s : State} (kz : Apart bk z s) : ApartNext bk z (execDrainTimeout s) := by
  unfold execDrainTimeout
  repeat' first
    | with_reducible assumption | with_reducible refine Apart.next ?_ | with_reducible apply mgtEvent_apart
    | with_reducible refine Apart.ite ?_ ?_ | split

theorem execWaitTimeout_apart {bk : Blocks} {z : State} {d : Fin 8} {q : Fin 2048} {s : State} (kz : Apart bk z s) : ApartNext bk z (execWaitTimeout d q s) := by
  unfold execWaitTimeout
  repeat' first
    | with_reducible assumption | with_reducible refine Apart.next ?_ | with_reducible apply claim_apart
    | with_reducible refine Apart.ite ?_ ?_ | split

theorem execNop_apart {bk : Blocks} {z : State} {d : Fin 8} {q : Fin 2048} {s : State} (kz : Apart bk z s) : ApartNext bk z (execNop d q s) := by
  unfold execNop
  repeat' first
    | with_reducible assumption | with_reducible refine Apart.next ?_ | with_reducible apply claim_apart
    | with_reducible refine Apart.ite ?_ ?_ | split

end Sys2Proof.Machine
end

