-- ==== Sys2Proof/Laws/ApartCol.lean ====
section
/-! SUPPORT. What the operations of the Caravan leave alone. -/
namespace Sys2Proof.Machine

theorem setGroup_apart {bk : Blocks} (hcol : bk.col = true) {z : State} {s : State} {g : Nat} {x : Group} (kz : Apart bk z s) : Apart bk z (setGroup s g x) := by
  unfold setGroup
  repeat' first
    | with_reducible assumption | simp -zeta only [apart_upd, apart_col hcol]

theorem execMemberSwap_apart {bk : Blocks} (hcol : bk.col = true) {z : State} {d : Fin 8} {q : Fin 2048} {s : State} (kz : Apart bk z s) : ApartNext bk z (execMemberSwap d q s) := by
  unfold execMemberSwap
  repeat' first
    | with_reducible assumption | with_reducible refine Apart.next ?_ | with_reducible apply setGroup_apart
    | with_reducible apply claim_apart | simp -zeta only [apart_upd, apart_col hcol]
    | (extract_lets +onlyGivenNames v; first | clear_value v | subst v) | with_reducible refine Apart.ite ?_ ?_ | split

theorem setCar_apart {bk : Blocks} (hcol : bk.col = true) {z : State} {s : State} {c : Caravan} (kz : Apart bk z s) : Apart bk z (setCar s c) := by
  unfold setCar
  repeat' first
    | with_reducible assumption | simp -zeta only [apart_upd, apart_col hcol]

theorem carServe_apart {bk : Blocks} (hcol : bk.col = true) {z : State} {s : State} {c : Caravan} (kz : Apart bk z s) : Apart bk z (carServe s c) := by
  unfold carServe
  repeat' first
    | with_reducible assumption | with_reducible apply carRange_apart | with_reducible apply setCar_apart
    | with_reducible refine Apart.foldl _ _ ?_ (fun _ _ _ => ?_)

theorem carEnd_apart {bk : Blocks} (hcol : bk.col = true) {z : State} {s : State} {c : Caravan} {status : Nat} (kz : Apart bk z s) : Apart bk z (carEnd s c status) := by
  unfold carEnd
  repeat' first
    | with_reducible assumption | with_reducible apply claim_apart | simp -zeta only [apart_upd, apart_col hcol]

theorem carFinish_apart {bk : Blocks} (hcol : bk.col = true) {z : State} {s : State} {c : Caravan} {status : Nat} (kz : Apart bk z s) : Apart bk z (carFinish s c status) := by
  unfold carFinish
  repeat' first
    | with_reducible assumption | with_reducible apply carSend_apart | with_reducible apply carEnd_apart
    | with_reducible apply colEvent_apart | with_reducible refine Apart.foldl _ _ ?_ (fun _ _ _ => ?_)
    | (extract_lets +onlyGivenNames v; first | clear_value v | subst v) | with_reducible refine Apart.ite ?_ ?_

theorem carStart_apart {bk : Blocks} (hcol : bk.col = true) {z : State} {s : State} {d : Nat} {q : Nat} {opcode : Nat} {root : Bool} (kz : Apart bk z s) : Apart bk z (carStart s d q opcode root) := by
  unfold carStart
  repeat' first
    | with_reducible assumption | with_reducible apply carServe_apart | with_reducible apply carFinish_apart
    | with_reducible apply claim_apart | simp -zeta only [apart_upd, apart_col hcol]
    | (extract_lets +onlyGivenNames v; refine Apart.cut (bk := bk) (z := z) v ?_ (fun hv => ?_); subst v; rotate_left; first | clear_value v | subst v)
    | (extract_lets +onlyGivenNames v; first | clear_value v | subst v) | with_reducible refine Apart.ite ?_ ?_ | split
    | dsimp -zeta only

theorem execCaravanRoot_apart {bk : Blocks} (hcol : bk.col = true) {z : State} {d : Fin 8} {q : Fin 2048} {s : State} (kz : Apart bk z s) : ApartNext bk z (execCaravanRoot d q s) := by
  unfold execCaravanRoot
  repeat' first
    | with_reducible assumption | with_reducible refine Apart.next ?_ | with_reducible apply carStart_apart

theorem execCaravanNode_apart {bk : Blocks} (hcol : bk.col = true) {z : State} {d : Fin 8} {q : Fin 2048} {s : State} (kz : Apart bk z s) : ApartNext bk z (execCaravanNode d q s) := by
  unfold execCaravanNode
  repeat' first
    | with_reducible assumption | with_reducible refine Apart.next ?_ | with_reducible apply carStart_apart

theorem execCaravanFetch_apart {bk : Blocks} (hcol : bk.col = true) {z : State} {tid : BitVec 16} {s : State} (kz : Apart bk z s) : ApartNext bk z (execCaravanFetch tid s) := by
  unfold execCaravanFetch
  repeat' first
    | with_reducible assumption | with_reducible refine Apart.next ?_ | with_reducible apply carSend_apart
    | with_reducible apply setCar_apart | simp -zeta only [apart_upd, apart_col hcol]
    | (extract_lets +onlyGivenNames v; clear_value v) | with_reducible refine Apart.ite ?_ ?_ | split

theorem execCaravanHeartbeat_apart {bk : Blocks} (hcol : bk.col = true) {z : State} {c : Sys2Proof.Cfh} {payload : List Sys2Proof.Byte} {s : State} (kz : Apart bk z s) : ApartNext bk z (execCaravanHeartbeat c payload s) := by
  unfold execCaravanHeartbeat
  repeat' first
    | with_reducible assumption | with_reducible refine Apart.next ?_ | with_reducible apply setCar_apart | simp -zeta only [apart_upd, apart_col hcol]
    | with_reducible refine Apart.ite ?_ ?_ | split

theorem execCaravanAck_apart {bk : Blocks} (hcol : bk.col = true) {z : State} {c : Sys2Proof.Cfh} {payload : List Sys2Proof.Byte} {s : State} (kz : Apart bk z s) : ApartNext bk z (execCaravanAck c payload s) := by
  unfold execCaravanAck
  repeat' first
    | with_reducible assumption | with_reducible refine Apart.next ?_ | with_reducible apply setCar_apart | simp -zeta only [apart_upd, apart_col hcol]
    | split

theorem execCaravanAttach_apart {bk : Blocks} (hcol : bk.col = true) {z : State} {c : Sys2Proof.Cfh} {payload : List Sys2Proof.Byte} {s : State} (kz : Apart bk z s) : ApartNext bk z (execCaravanAttach c payload s) := by
  unfold execCaravanAttach
  repeat' first
    | with_reducible assumption | with_reducible refine Apart.next ?_ | with_reducible apply carServe_apart
    | with_reducible apply setCar_apart | simp -zeta only [apart_upd, apart_col hcol]
    | (extract_lets +onlyGivenNames v; clear_value v) | with_reducible refine Apart.ite ?_ ?_ | split

theorem execParentSilence_apart {bk : Blocks} (hcol : bk.col = true) {z : State} {tid : BitVec 16} {s : State} (kz : Apart bk z s) : ApartNext bk z (execParentSilence tid s) := by
  unfold execParentSilence
  repeat' first
    | with_reducible assumption | with_reducible refine Apart.next ?_ | with_reducible apply carEnd_apart
    | with_reducible apply carSend_apart | with_reducible apply setCar_apart | with_reducible apply colEvent_apart
    | simp -zeta only [apart_upd, apart_col hcol]
    | (extract_lets +onlyGivenNames v; refine Apart.cut (bk := bk) (z := z) v ?_ (fun hv => ?_); subst v; rotate_left; clear_value v)
    | (extract_lets +onlyGivenNames v; first | clear_value v | subst v) | with_reducible refine Apart.ite ?_ ?_ | split

theorem carCheck_apart {bk : Blocks} (hcol : bk.col = true) {z : State} {s : State} {c : Caravan} (kz : Apart bk z s) : Apart bk z (carCheck s c) := by
  unfold carCheck
  repeat' first
    | with_reducible assumption | with_reducible apply carFinish_apart
    | (extract_lets +onlyGivenNames v; first | clear_value v | subst v) | with_reducible refine Apart.ite ?_ ?_

theorem execCaravanDone_apart {bk : Blocks} (hcol : bk.col = true) {z : State} {c : Sys2Proof.Cfh} {payload : List Sys2Proof.Byte} {s : State} (kz : Apart bk z s) : ApartNext bk z (execCaravanDone c payload s) := by
  unfold execCaravanDone
  repeat' first
    | with_reducible assumption | with_reducible refine Apart.next ?_ | with_reducible apply carEnd_apart
    | with_reducible apply carCheck_apart | with_reducible apply setCar_apart | with_reducible apply carSend_apart
    | simp -zeta only [apart_upd, apart_col hcol]
    | (extract_lets +onlyGivenNames v; refine Apart.cut (bk := bk) (z := z) v ?_ (fun hv => ?_); subst v; rotate_left; clear_value v)
    | (extract_lets +onlyGivenNames v; first | clear_value v | subst v) | with_reducible refine Apart.ite ?_ ?_ | split

theorem execCaravanDeadline_apart {bk : Blocks} (hcol : bk.col = true) {z : State} {tid : BitVec 16} {s : State} (kz : Apart bk z s) : ApartNext bk z (execCaravanDeadline tid s) := by
  unfold execCaravanDeadline
  repeat' first
    | with_reducible assumption | with_reducible refine Apart.next ?_ | with_reducible apply carFinish_apart
    | with_reducible refine Apart.ite ?_ ?_ | split

end Sys2Proof.Machine
end

