-- ==== Sys2Proof/Laws/ApartFwd.lean ====
section
/-! SUPPORT. What the operations of the tables leave alone. -/
namespace Sys2Proof.Machine

theorem setShadow_apart {bk : Blocks} (hfwd : bk.fwd = true) {z : State} {s : State} {zz : Nat} {x : Shadow} (kz : Apart bk z s) : Apart bk z (setShadow s zz x) := by
  unfold setShadow
  repeat' first
    | with_reducible assumption | simp -zeta only [apart_upd, apart_fwd hfwd]

theorem unmark_apart {bk : Blocks} (hfwd : bk.fwd = true) {z : State} {s : State} {d : Nat} {table : Nat} {word : Nat} (kz : Apart bk z s) : Apart bk z (unmark s d table word) := by
  unfold unmark
  repeat' first
    | with_reducible assumption | simp -zeta only [apart_upd, apart_fwd hfwd]

theorem unmarkAll_apart {bk : Blocks} (hfwd : bk.fwd = true) {z : State} {d : Nat} {l : List SlotWrite} {s : State} (h : Apart bk z s) : Apart bk z (unmarkAll d l s) := by
  induction l generalizing s with
  | nil => exact h
  | cons x l ih => cases x <;> first | exact ih h | exact ih (unmark_apart hfwd h)

theorem applyChange_apart {bk : Blocks} (hfwd : bk.fwd = true) {z : State} {s : State} {d : Nat} {c : SeqChange} (kz : Apart bk z s) : Apart bk z (applyChange s d c) := by
  unfold applyChange
  repeat' first
    | with_reducible assumption | with_reducible apply showTables_apart | with_reducible apply unmarkAll_apart
    | with_reducible apply wf_apart | with_reducible apply wn_apart | with_reducible refine Apart.foldl _ _ ?_ (fun _ _ _ => ?_)
    | simp -zeta only [apart_upd, apart_fwd hfwd]
    | (extract_lets +onlyGivenNames v; refine Apart.cut (bk := bk) (z := z) v ?_ (fun hv => ?_); subst v; rotate_left; first | clear_value v | subst v)
    | (extract_lets +onlyGivenNames v; first | clear_value v | subst v) | with_reducible refine Apart.ite ?_ ?_ | split
    | dsimp -zeta only

theorem sequence_apart {bk : Blocks} (hfwd : bk.fwd = true) {z : State} {s : State} {zz : Nat} {dunes : List Nat} {writes : List SlotWrite} {touchShadow : Bool} (kz : Apart bk z s) : Apart bk z (sequence s zz dunes writes touchShadow) := by
  unfold sequence
  repeat' first
    | with_reducible assumption | with_reducible refine Apart.foldl _ _ ?_ (fun _ _ _ => ?_) | simp -zeta only [apart_upd, apart_fwd hfwd]
    | (extract_lets +onlyGivenNames v; refine Apart.cut (bk := bk) (z := z) v ?_ (fun hv => ?_); subst v; rotate_left; first | clear_value v | subst v)
    | (extract_lets +onlyGivenNames v; first | clear_value v | subst v) | with_reducible refine Apart.ite ?_ ?_ | split
    | dsimp -zeta only

theorem change_apart {bk : Blocks} (hfwd : bk.fwd = true) {z : State} {s : State} {part : Nat} {writes : List SlotWrite} (kz : Apart bk z s) : Apart bk z (change s part writes) := by
  unfold change
  repeat' first
    | with_reducible assumption | with_reducible apply sequence_apart

theorem update_apart {bk : Blocks} (hfwd : bk.fwd = true) {z : State} {s : State} {part : Nat} {writes : List SlotWrite} (kz : Apart bk z s) : Apart bk z (update s part writes) := by
  unfold update
  repeat' first
    | with_reducible assumption | with_reducible apply change_apart
    | (extract_lets +onlyGivenNames v; refine Apart.cut (bk := bk) (z := z) v ?_ (fun hv => ?_); subst v; rotate_left; first | clear_value v | subst v)
    | (extract_lets +onlyGivenNames v; first | clear_value v | subst v) | with_reducible refine Apart.ite ?_ ?_ | split
    | dsimp -zeta only

theorem storeTrie_apart {bk : Blocks} (hfwd : bk.fwd = true) {z : State} {s : State} {part : Nat} {writes : List SlotWrite} {freed : List (Nat × Nat × Nat × Nat)} (kz : Apart bk z s) : Apart bk z (storeTrie s part writes freed) := by
  unfold storeTrie
  repeat' first
    | with_reducible assumption | with_reducible apply update_apart | with_reducible apply showDef_apart
    | with_reducible apply setShadow_apart | simp -zeta only [apart_upd, apart_fwd hfwd]
    | (extract_lets +onlyGivenNames v; refine Apart.cut (bk := bk) (z := z) v ?_ (fun hv => ?_); subst v; rotate_left; first | clear_value v | subst v)
    | (extract_lets +onlyGivenNames v; first | clear_value v | subst v) | dsimp -zeta only

theorem dropRoute_apart {bk : Blocks} (hfwd : bk.fwd = true) {z : State} {s : State} {sc : Scope} {x : Route} (kz : Apart bk z s) : Apart bk z (dropRoute s sc x) := by
  unfold dropRoute
  repeat' first
    | with_reducible assumption | with_reducible apply storeTrie_apart
    | (extract_lets +onlyGivenNames v; refine Apart.cut (bk := bk) (z := z) v ?_ (fun hv => ?_); subst v; rotate_left; first | clear_value v | subst v)
    | (extract_lets +onlyGivenNames v; first | clear_value v | subst v) | with_reducible refine Apart.ite ?_ ?_ | split
    | dsimp -zeta only

theorem storeRecord_apart {bk : Blocks} (hfwd : bk.fwd = true) {z : State} {s : State} {sc : Scope} {r : Sys2Proof.TblRec} (kz : Apart bk z s) : Apart bk z (storeRecord s sc r).1 := by
  unfold storeRecord
  repeat' first
    | with_reducible assumption | with_reducible apply insertFail_apart | with_reducible apply update_apart
    | with_reducible apply storeTrie_apart
    | (extract_lets +onlyGivenNames v; refine Apart.cut (bk := bk) (z := z) v ?_ (fun hv => ?_); subst v; rotate_left; first | clear_value v | subst v)
    | (extract_lets +onlyGivenNames v; first | clear_value v | subst v) | with_reducible refine Apart.ite ?_ ?_ | split
    | dsimp -zeta only

theorem applyRecord_apart {bk : Blocks} (hfwd : bk.fwd = true) {z : State} {s : State} {src : RecSource} {r : Sys2Proof.TblRec} (kz : Apart bk z s) : Apart bk z (applyRecord s src r).1 := by
  unfold applyRecord
  repeat' first
    | with_reducible assumption | with_reducible apply countTie_apart | with_reducible apply storeRecord_apart
    | (extract_lets +onlyGivenNames v; refine Apart.cut (bk := bk) (z := z) v ?_ (fun hv => ?_); subst v; rotate_left; first | clear_value v | subst v)
    | (extract_lets +onlyGivenNames v; refine Apart.cut (bk := bk) (z := z) v.1 ?_ (fun hv => ?_); subst v; rotate_left; first | clear_value v | subst v)
    | (extract_lets +onlyGivenNames v; first | clear_value v | subst v) | with_reducible refine Apart.ite ?_ ?_ | split
    | dsimp -zeta only

theorem forgetKey_apart {bk : Blocks} (hfwd : bk.fwd = true) {z : State} {s : State} {k : Nat × Nat × Nat} (kz : Apart bk z s) : Apart bk z (forgetKey s k) := by
  unfold forgetKey
  repeat' first
    | with_reducible assumption | with_reducible apply update_apart | with_reducible apply dropRoute_apart
    | (with_reducible refine Apart.foldlFst _ _ ?_ ?_; rotate_left; rintro ⟨_, _⟩ _ _)
    | with_reducible refine Apart.foldl _ _ ?_ (fun _ _ _ => ?_) | with_reducible refine Apart.ite ?_ ?_ | split | dsimp -zeta only

theorem rebuild_apart {bk : Blocks} (hfwd : bk.fwd = true) {z : State} {s : State} {m : Mark} (kz : Apart bk z s) : Apart bk z (rebuild s m) := by
  unfold rebuild
  repeat' first
    | with_reducible assumption | with_reducible apply sequence_apart
    | (extract_lets +onlyGivenNames v; refine Apart.cut (bk := bk) (z := z) v ?_ (fun hv => ?_); subst v; rotate_left; first | clear_value v | subst v)
    | (extract_lets +onlyGivenNames v; first | clear_value v | subst v) | dsimp -zeta only

theorem endRefresh_apart {bk : Blocks} (hfwd : bk.fwd = true) {z : State} {s : State} {x : Refresh} (kz : Apart bk z s) : Apart bk z (endRefresh s x) := by
  unfold endRefresh
  repeat' first
    | with_reducible assumption | with_reducible apply rebuild_apart | split

theorem answered_apart {bk : Blocks} (hfwd : bk.fwd = true) {z : State} {s : State} {r : Sys2Proof.TblRec} (kz : Apart bk z s) : Apart bk z (answered s r) := by
  unfold answered
  repeat' first
    | with_reducible assumption | with_reducible apply endRefresh_apart | with_reducible refine Apart.foldl _ _ ?_ (fun _ _ _ => ?_)
    | simp -zeta only [apart_upd, apart_fwd hfwd]

theorem execRefreshTimeout_apart {bk : Blocks} (hfwd : bk.fwd = true) {z : State} {d : Fin 8} {s : State} (kz : Apart bk z s) : ApartNext bk z (execRefreshTimeout d s) := by
  unfold execRefreshTimeout
  repeat' first
    | with_reducible assumption | with_reducible refine Apart.next ?_ | with_reducible apply forgetKey_apart
    | with_reducible apply endRefresh_apart | with_reducible apply fwdEvent_apart
    | with_reducible refine Apart.foldl _ _ ?_ (fun _ _ _ => ?_) | simp -zeta only [apart_upd, apart_fwd hfwd]
    | (extract_lets +onlyGivenNames v; refine Apart.cut (bk := bk) (z := z) v ?_ (fun hv => ?_); subst v; rotate_left; clear_value v)
    | (extract_lets +onlyGivenNames v; clear_value v) | with_reducible refine Apart.ite ?_ ?_ | split

theorem rebuildShadow_apart {bk : Blocks} (hfwd : bk.fwd = true) {z : State} {s : State} {zz : Nat} (kz : Apart bk z s) : Apart bk z (rebuildShadow s zz) := by
  unfold rebuildShadow
  repeat' first
    | with_reducible assumption | with_reducible apply setShadow_apart | simp -zeta only [apart_upd, apart_fwd hfwd]
    | (extract_lets +onlyGivenNames v; refine Apart.cut (bk := bk) (z := z) v ?_ (fun hv => ?_); subst v; rotate_left; first | clear_value v | subst v)
    | (extract_lets +onlyGivenNames v; first | clear_value v | subst v) | with_reducible refine Apart.ite ?_ ?_ | split
    | dsimp -zeta only

theorem execShadowRebuild_apart {bk : Blocks} (hfwd : bk.fwd = true) {z : State} {s : State} (kz : Apart bk z s) : ApartNext bk z (execShadowRebuild s) := by
  unfold execShadowRebuild
  repeat' first
    | with_reducible assumption | with_reducible refine Apart.next ?_ | with_reducible apply rebuildShadow_apart
    | with_reducible refine Apart.foldl _ _ ?_ (fun _ _ _ => ?_)

theorem execLpmOldSpaceFree_apart {bk : Blocks} (hfwd : bk.fwd = true) {z : State} {s : State} (kz : Apart bk z s) : ApartNext bk z (execLpmOldSpaceFree s) := by
  unfold execLpmOldSpaceFree
  repeat' first
    | with_reducible assumption | with_reducible refine Apart.next ?_ | with_reducible apply setShadow_apart
    | with_reducible refine Apart.foldl _ _ ?_ (fun _ _ _ => ?_) | simp -zeta only [apart_upd, apart_fwd hfwd]
    | (extract_lets +onlyGivenNames v; refine Apart.cut (bk := bk) (z := z) v ?_ (fun hv => ?_); subst v; rotate_left; first | clear_value v | subst v)
    | (extract_lets +onlyGivenNames v; first | clear_value v | subst v) | dsimp -zeta only

end Sys2Proof.Machine
end

