-- ==== Sys2Proof/Laws/ApartMgt.lean ====
section
/-! SUPPORT. What the operations of the management leave alone. -/
namespace Sys2Proof.Machine

theorem enterDual_apart {bk : Blocks} (hmgt : bk.mgt = true) {z : State} {s : State} {k : Nat} (kz : Apart bk z s) : Apart bk z (enterDual s k) := by
  unfold enterDual
  repeat' first
    | with_reducible assumption | with_reducible apply triadTo_apart | with_reducible apply mgtEvent_apart
    | simp -zeta only [apart_upd, apart_mgt hmgt]

theorem execTriadRejoin_apart {bk : Blocks} (hmgt : bk.mgt = true) {z : State} {selfTestOk : Bool} {s : State} (kz : Apart bk z s) : ApartNext bk z (execTriadRejoin selfTestOk s) := by
  unfold execTriadRejoin
  repeat' first
    | with_reducible assumption | with_reducible refine Apart.next ?_ | with_reducible apply triadTo_apart
    | with_reducible apply enterDual_apart | simp -zeta only [apart_upd, apart_mgt hmgt] | with_reducible refine Apart.ite ?_ ?_

theorem execTriadProbationEnd_apart {bk : Blocks} (hmgt : bk.mgt = true) {z : State} {s : State} (kz : Apart bk z s) : ApartNext bk z (execTriadProbationEnd s) := by
  unfold execTriadProbationEnd
  repeat' first
    | with_reducible assumption | with_reducible refine Apart.next ?_ | with_reducible apply triadTo_apart
    | simp -zeta only [apart_upd, apart_mgt hmgt] | with_reducible refine Apart.ite ?_ ?_

theorem execHeldBeaconAbsence_apart {bk : Blocks} (hmgt : bk.mgt = true) {z : State} {port : Fin 4096} {s : State} (kz : Apart bk z s) : ApartNext bk z (execHeldBeaconAbsence port s) := by
  unfold execHeldBeaconAbsence
  repeat' first
    | with_reducible assumption | with_reducible refine Apart.next ?_ | with_reducible apply wf_apart | simp -zeta only [apart_upd, apart_mgt hmgt]
    | (extract_lets +onlyGivenNames v; clear_value v) | with_reducible refine Apart.ite ?_ ?_ | split

theorem checkOrder_apart {bk : Blocks} (hmgt : bk.mgt = true) {z : State} {s : State} {o : MgtOrder} (kz : Apart bk z s) : Apart bk z (checkOrder s o) := by
  unfold checkOrder
  repeat' first
    | with_reducible assumption | with_reducible apply mgtEvent_apart | with_reducible apply wf_apart
    | with_reducible apply bump64_apart | with_reducible apply wn_apart | simp -zeta only [apart_upd, apart_mgt hmgt]
    | (extract_lets +onlyGivenNames v; refine Apart.cut (bk := bk) (z := z) v ?_ (fun hv => ?_); subst v; rotate_left; first | clear_value v | subst v)
    | (extract_lets +onlyGivenNames v; first | clear_value v | subst v) | split | dsimp -zeta only

theorem execOrderSubmit_apart {bk : Blocks} (hmgt : bk.mgt = true) {z : State} {v : Sys2Proof.Word} {verdicts : List (Bool × Bool)} {s : State} (kz : Apart bk z s) : ApartNext bk z (execOrderSubmit v verdicts s) := by
  unfold execOrderSubmit
  repeat' first
    | with_reducible assumption | with_reducible refine Apart.next ?_ | with_reducible apply checkOrder_apart
    | with_reducible refine Apart.ite ?_ ?_ | split

theorem execOrderSegmentRx_apart {bk : Blocks} (hmgt : bk.mgt = true) {z : State} {seg : List Sys2Proof.Byte} {verdicts : List (Bool × Bool)} {s : State} (kz : Apart bk z s) : ApartNext bk z (execOrderSegmentRx seg verdicts s) := by
  unfold execOrderSegmentRx
  repeat' first
    | with_reducible assumption | with_reducible refine Apart.next ?_ | with_reducible apply checkOrder_apart
    | simp -zeta only [apart_upd, apart_mgt hmgt]
    | (extract_lets +onlyGivenNames v; refine Apart.cut (bk := bk) (z := z) v ?_ (fun hv => ?_); subst v; rotate_left; clear_value v)
    | (extract_lets +onlyGivenNames v; first | clear_value v | subst v) | with_reducible refine Apart.ite ?_ ?_

theorem orderDone_apart {bk : Blocks} (hmgt : bk.mgt = true) {z : State} {s : State} {o : ArmedOrder} (kz : Apart bk z s) : Apart bk z (orderDone s o) := by
  unfold orderDone
  repeat' first
    | with_reducible assumption | with_reducible apply mgtEvent_apart | with_reducible apply bump64_apart
    | with_reducible apply wf_apart | simp -zeta only [apart_upd, apart_mgt hmgt]
    | (extract_lets +onlyGivenNames v; refine Apart.cut (bk := bk) (z := z) v ?_ (fun hv => ?_); subst v; rotate_left; clear_value v)
    | (extract_lets +onlyGivenNames v; clear_value v) | with_reducible refine Apart.ite ?_ ?_

theorem execUnfence_apart {bk : Blocks} (hmgt : bk.mgt = true) {z : State} {s : State} (kz : Apart bk z s) : ApartNext bk z (execUnfence s) := by
  unfold execUnfence
  repeat' first
    | with_reducible assumption | with_reducible refine Apart.next ?_ | with_reducible apply orderDone_apart
    | with_reducible apply unfenceStart_apart | simp -zeta only [apart_upd, apart_mgt hmgt]
    | (extract_lets +onlyGivenNames v; first | clear_value v | subst v) | with_reducible refine Apart.ite ?_ ?_ | split

end Sys2Proof.Machine
end

