-- ==== Sys2Proof/Laws/ApartRot.lean ====
section
/-! SUPPORT. What the operations of the root of trust leave alone. -/
namespace Sys2Proof.Machine

theorem sealNow_apart {bk : Blocks} (hrot : bk.rot = true) {z : State} {s : State} (kz : Apart bk z s) : Apart bk z (sealNow s) := by
  unfold sealNow
  repeat' first
    | with_reducible assumption | with_reducible apply wfs_apart | with_reducible apply wf_apart | with_reducible apply wn_apart
    | simp -zeta only [apart_upd, apart_rot hrot]
    | (extract_lets +onlyGivenNames v; refine Apart.cut (bk := bk) (z := z) v ?_ (fun hv => ?_); subst v; rotate_left; clear_value v)
    | (extract_lets +onlyGivenNames v; first | clear_value v | subst v) | with_reducible refine Apart.ite ?_ ?_

theorem secLog_apart {bk : Blocks} (hrot : bk.rot = true) {z : State} {s : State} {typ : Nat} {obj : Nat} (kz : Apart bk z s) : Apart bk z (secLog s typ obj) := by
  unfold secLog
  repeat' first
    | with_reducible assumption | with_reducible apply showLog_apart | simp -zeta only [apart_upd, apart_rot hrot]

theorem debugClosed_apart {bk : Blocks} (hrot : bk.rot = true) {z : State} {s : State} (kz : Apart bk z s) : Apart bk z (debugClosed s) := by
  unfold debugClosed
  repeat' first
    | with_reducible assumption | with_reducible apply secLog_apart | with_reducible apply showDebug_apart
    | with_reducible apply secEvent_apart

theorem tokenEnd_apart {bk : Blocks} (hrot : bk.rot = true) {z : State} {s : State} (kz : Apart bk z s) : Apart bk z (tokenEnd s) := by
  unfold tokenEnd
  repeat' first
    | with_reducible assumption | with_reducible apply debugClosed_apart | simp -zeta only [apart_upd, apart_rot hrot]
    | with_reducible refine Apart.ite ?_ ?_ | split

theorem debugClose_apart {bk : Blocks} (hrot : bk.rot = true) {z : State} {s : State} (kz : Apart bk z s) : Apart bk z (debugClose s) := by
  unfold debugClose
  repeat' first
    | with_reducible assumption | with_reducible apply debugClosed_apart | simp -zeta only [apart_upd, apart_rot hrot]
    | with_reducible refine Apart.ite ?_ ?_ | split

theorem sealLogged_apart {bk : Blocks} (hrot : bk.rot = true) {z : State} {s : State} (kz : Apart bk z s) : Apart bk z (sealLogged s) := by
  unfold sealLogged
  repeat' first
    | with_reducible assumption | with_reducible apply debugClose_apart | with_reducible apply secLog_apart
    | with_reducible apply sealNow_apart
    | (extract_lets +onlyGivenNames v; refine Apart.cut (bk := bk) (z := z) v ?_ (fun hv => ?_); subst v; rotate_left; clear_value v)
    | (extract_lets +onlyGivenNames v; first | clear_value v | subst v) | with_reducible refine Apart.ite ?_ ?_

theorem checkLoaded_apart {bk : Blocks} (hrot : bk.rot = true) {z : State} {s : State} (kz : Apart bk z s) : Apart bk z (checkLoaded s) := by
  unfold checkLoaded
  repeat' first
    | with_reducible assumption | with_reducible apply sealLogged_apart | with_reducible apply setImgSt_apart
    | (extract_lets +onlyGivenNames v; refine Apart.cut (bk := bk) (z := z) v ?_ (fun hv => ?_); subst v; rotate_left; clear_value v)
    | (extract_lets +onlyGivenNames v; first | clear_value v | subst v) | with_reducible refine Apart.ite ?_ ?_

theorem execImageSeal_apart {bk : Blocks} (hrot : bk.rot = true) {z : State} {v : Sys2Proof.Word} {s : State} (kz : Apart bk z s) : ApartNext bk z (execImageSeal v s) := by
  unfold execImageSeal
  repeat' first
    | with_reducible assumption | with_reducible refine Apart.next ?_ | with_reducible apply heldWrite_apart
    | with_reducible apply sealLogged_apart | with_reducible apply wf_apart | with_reducible refine Apart.ite ?_ ?_

theorem execDebugTokenExpiry_apart {bk : Blocks} (hrot : bk.rot = true) {z : State} {s : State} (kz : Apart bk z s) : ApartNext bk z (execDebugTokenExpiry s) := by
  unfold execDebugTokenExpiry
  repeat' first
    | with_reducible assumption | with_reducible refine Apart.next ?_ | with_reducible apply tokenEnd_apart

theorem execDbgClose_apart {bk : Blocks} (hrot : bk.rot = true) {z : State} {v : Sys2Proof.Word} {s : State} (kz : Apart bk z s) : ApartNext bk z (execDbgClose v s) := by
  unfold execDbgClose
  repeat' first
    | with_reducible assumption | with_reducible refine Apart.next ?_ | with_reducible apply tokenEnd_apart
    | with_reducible refine Apart.ite ?_ ?_ | split

end Sys2Proof.Machine
end

