-- ==== Sys2Proof/Laws/ApartRte.lean ====
section
/-! SUPPORT. What the operations of the routing leave alone. -/
namespace Sys2Proof.Machine

theorem setRteTable_apart {bk : Blocks} (hrte : bk.rte = true) {z : State} {s : State} {v : Nat} {t : RteTable} (kz : Apart bk z s) : Apart bk z (setRteTable s v t) := by
  unfold setRteTable
  repeat' first
    | with_reducible assumption | simp -zeta only [apart_upd, apart_rte hrte]

theorem sampleDir_apart {bk : Blocks} (hrte : bk.rte = true) {z : State} {s : State} {dir : Nat} (kz : Apart bk z s) : Apart bk z (sampleDir s dir) := by
  unfold sampleDir
  repeat' first
    | with_reducible assumption | with_reducible apply wfs_apart | simp -zeta only [apart_upd, apart_rte hrte]

theorem execSpraySample_apart {bk : Blocks} (hrte : bk.rte = true) {z : State} {s : State} (kz : Apart bk z s) : ApartNext bk z (execSpraySample s) := by
  unfold execSpraySample
  repeat' first
    | with_reducible assumption | with_reducible refine Apart.next ?_ | with_reducible apply showAxisLoad_apart
    | with_reducible apply sampleDir_apart | with_reducible refine Apart.foldl _ _ ?_ (fun _ _ _ => ?_)
    | with_reducible refine Apart.ite ?_ ?_

theorem execSourceContextExpire_apart {bk : Blocks} (hrte : bk.rte = true) {z : State} {d : Fin 8} {ctx : BitVec 16} {s : State} (kz : Apart bk z s) : ApartNext bk z (execSourceContextExpire d ctx s) := by
  unfold execSourceContextExpire
  repeat' first
    | with_reducible assumption | with_reducible refine Apart.next ?_ | simp -zeta only [apart_upd, apart_rte hrte]
    | (extract_lets +onlyGivenNames v; clear_value v) | with_reducible refine Apart.ite ?_ ?_ | split

theorem execDestContextExpire_apart {bk : Blocks} (hrte : bk.rte = true) {z : State} {d : Fin 8} {k : Fin 262144} {s : State} (kz : Apart bk z s) : ApartNext bk z (execDestContextExpire d k s) := by
  unfold execDestContextExpire
  repeat' first
    | with_reducible assumption | with_reducible refine Apart.next ?_ | simp -zeta only [apart_upd, apart_rte hrte]
    | with_reducible refine Apart.ite ?_ ?_ | split

theorem updateRate_apart {bk : Blocks} (hrte : bk.rte = true) {z : State} {s : State} {k : Nat} (kz : Apart bk z s) : Apart bk z (updateRate s k) := by
  unfold updateRate
  repeat' first
    | with_reducible assumption | simp -zeta only [apart_upd, apart_rte hrte]
    | (extract_lets +onlyGivenNames v; clear_value v)

theorem askBypass_apart {bk : Blocks} (hrte : bk.rte = true) {z s : State} {dir : Nat} {o : Option Nat} (h : Apart bk z s) : Apart bk z (askBypass s dir o) := by
  cases o with
  | none => exact h
  | some t =>
    refine rteEvent_apart (bump64_apart ?_)
    rwa [apart_rte hrte]

theorem windowDir_apart {bk : Blocks} (hrte : bk.rte = true) {z : State} {s : State} {dir : Nat} (kz : Apart bk z s) : Apart bk z (windowDir s dir) := by
  unfold windowDir
  repeat' first
    | with_reducible assumption | with_reducible apply askBypass_apart | with_reducible apply wf_apart | simp -zeta only [apart_upd, apart_rte hrte]

theorem execUtilisationWindow_apart {bk : Blocks} (hrte : bk.rte = true) {z : State} {s : State} (kz : Apart bk z s) : ApartNext bk z (execUtilisationWindow s) := by
  unfold execUtilisationWindow
  repeat' first
    | with_reducible assumption | with_reducible refine Apart.next ?_ | with_reducible apply windowAxis_apart
    | with_reducible apply windowDir_apart | with_reducible apply rteEvent_apart
    | with_reducible refine Apart.foldl _ _ ?_ (fun _ _ _ => ?_) | simp -zeta only [apart_upd, apart_rte hrte]
    | (extract_lets +onlyGivenNames v; refine Apart.cut (bk := bk) (z := z) v ?_ (fun hv => ?_); subst v; rotate_left; clear_value v)
    | (extract_lets +onlyGivenNames v; first | clear_value v | subst v) | with_reducible refine Apart.ite ?_ ?_

theorem setTableWord_apart {bk : Blocks} (hrte : bk.rte = true) {z : State} {s : State} {w : Sys2Proof.Word} (kz : Apart bk z s) : Apart bk z (setTableWord s w) := by
  unfold setTableWord
  repeat' first
    | with_reducible assumption | with_reducible apply setRteTable_apart | simp -zeta only [apart_upd, apart_rte hrte]
    | (extract_lets +onlyGivenNames v; first | clear_value v | subst v) | with_reducible refine Apart.ite ?_ ?_

theorem execRoutingTableData_apart {bk : Blocks} (hrte : bk.rte = true) {z : State} {w : Option Sys2Proof.Word} {s : State} (kz : Apart bk z s) : ApartNext bk z (execRoutingTableData w s) := by
  unfold execRoutingTableData
  repeat' first
    | with_reducible assumption | with_reducible refine Apart.next ?_ | with_reducible apply nextIndex_apart
    | with_reducible apply showVerDig_apart | with_reducible apply setTableWord_apart | with_reducible apply heldRefuse_apart
    | with_reducible apply rteEvent_apart | with_reducible apply emit_apart | with_reducible apply bump64_apart
    | (extract_lets +onlyGivenNames v; first | clear_value v | subst v) | with_reducible refine Apart.ite ?_ ?_ | split

theorem execFlipArm_apart {bk : Blocks} (hrte : bk.rte = true) {z : State} {v : Sys2Proof.Word} {s : State} (kz : Apart bk z s) : ApartNext bk z (execFlipArm v s) := by
  unfold execFlipArm
  repeat' first
    | with_reducible assumption | with_reducible refine Apart.next ?_ | with_reducible apply flipRefused_apart
    | with_reducible apply setFlipResult_apart | with_reducible apply setVerWritable_apart | with_reducible apply heldRefuse_apart
    | with_reducible apply wf_apart | simp -zeta only [apart_upd, apart_rte hrte]
    | (extract_lets +onlyGivenNames v; refine Apart.cut (bk := bk) (z := z) v ?_ (fun hv => ?_); subst v; rotate_left; clear_value v)
    | (extract_lets +onlyGivenNames v; first | clear_value v | subst v) | with_reducible refine Apart.ite ?_ ?_ | split

theorem execFlipCancel_apart {bk : Blocks} (hrte : bk.rte = true) {z : State} {v : Sys2Proof.Word} {s : State} (kz : Apart bk z s) : ApartNext bk z (execFlipCancel v s) := by
  unfold execFlipCancel
  repeat' first
    | with_reducible assumption | with_reducible refine Apart.next ?_ | with_reducible apply setFlipResult_apart
    | with_reducible apply setVerWritable_apart | with_reducible apply heldRefuse_apart | with_reducible apply wf_apart
    | simp -zeta only [apart_upd, apart_rte hrte]
    | (extract_lets +onlyGivenNames v; refine Apart.cut (bk := bk) (z := z) v ?_ (fun hv => ?_); subst v; rotate_left; clear_value v)
    | (extract_lets +onlyGivenNames v; first | clear_value v | subst v) | with_reducible refine Apart.ite ?_ ?_ | split

theorem execEpochFlip_apart {bk : Blocks} (hrte : bk.rte = true) {z : State} {s : State} (kz : Apart bk z s) : ApartNext bk z (execEpochFlip s) := by
  unfold execEpochFlip
  repeat' first
    | with_reducible assumption | with_reducible refine Apart.next ?_ | with_reducible apply showVerDig_apart
    | with_reducible apply setRteTable_apart | with_reducible apply rteEvent_apart | with_reducible apply wfs_apart
    | simp -zeta only [apart_upd, apart_rte hrte]
    | (extract_lets +onlyGivenNames v; refine Apart.cut (bk := bk) (z := z) v ?_ (fun hv => ?_); subst v; rotate_left; clear_value v)
    | (extract_lets +onlyGivenNames v; clear_value v) | with_reducible refine Apart.ite ?_ ?_ | split

end Sys2Proof.Machine
end

