-- ==== Sys2Proof/Laws/ApartSch.lean ====
section
/-! SUPPORT. What the operations of the gates leave alone. -/
namespace Sys2Proof.Machine

theorem setPg_apart {bk : Blocks} (hsch : bk.sch = true) {z : State} {s : State} {g : Nat} {x : PortGroup} (kz : Apart bk z s) : Apart bk z (setPg s g x) := by
  unfold setPg
  repeat' first
    | with_reducible assumption | simp -zeta only [apart_upd, apart_sch hsch]

theorem runEntriesTo_apart {bk : Blocks} (hsch : bk.sch = true) {z : State} {s : State} {g : Nat} {to_ : Nat} (kz : Apart bk z s) : Apart bk z (runEntriesTo s g to_) := by
  unfold runEntriesTo
  repeat' first
    | with_reducible assumption | with_reducible apply sigStarts_apart | with_reducible apply setPg_apart | simp -zeta only [apart_upd, apart_sch hsch]
    | (extract_lets +onlyGivenNames v; refine Apart.cut (bk := bk) (z := z) v ?_ (fun hv => ?_); subst v; rotate_left; first | clear_value v | subst v)
    | (extract_lets +onlyGivenNames v; first | clear_value v | subst v) | with_reducible refine Apart.ite ?_ ?_ | split
    | dsimp -zeta only

theorem runEntries_apart {bk : Blocks} (hsch : bk.sch = true) {z : State} {s : State} {g : Nat} (kz : Apart bk z s) : Apart bk z (runEntries s g) := by
  unfold runEntries
  repeat' first
    | with_reducible assumption | with_reducible apply showPg_apart | with_reducible apply runEntriesTo_apart
    | with_reducible refine Apart.ite ?_ ?_ | split

theorem setTokens_apart {bk : Blocks} (hsch : bk.sch = true) {z : State} {s : State} {lane : Nat} {c : Nat} {t : Int} (kz : Apart bk z s) : Apart bk z (setTokens s lane c t) := by
  unfold setTokens
  repeat' first
    | with_reducible assumption | with_reducible apply wn_apart | simp -zeta only [apart_upd, apart_sch hsch]

theorem execGateEntryStart_apart {bk : Blocks} (hsch : bk.sch = true) {z : State} {pg : Fin 256} {s : State} (kz : Apart bk z s) : ApartNext bk z (execGateEntryStart pg s) := by
  unfold execGateEntryStart
  repeat' first
    | with_reducible assumption | with_reducible refine Apart.next ?_ | with_reducible apply runEntries_apart
    | with_reducible refine Apart.ite ?_ ?_

theorem execGateListArm_apart {bk : Blocks} (hsch : bk.sch = true) {z : State} {pg : Fin 256} {v : Sys2Proof.Word} {s : State} (kz : Apart bk z s) : ApartNext bk z (execGateListArm pg v s) := by
  unfold execGateListArm
  repeat' first
    | with_reducible assumption | with_reducible refine Apart.next ?_ | with_reducible apply heldRefuse_apart
    | with_reducible apply setPgResult_apart | with_reducible apply setPg_apart | with_reducible apply setPgSt_apart
    | with_reducible apply schEvent_apart | simp -zeta only [apart_upd, apart_sch hsch]
    | (extract_lets +onlyGivenNames v; refine Apart.cut (bk := bk) (z := z) v ?_ (fun hv => ?_); subst v; rotate_left; clear_value v)
    | (extract_lets +onlyGivenNames v; first | clear_value v | subst v) | with_reducible refine Apart.ite ?_ ?_ | split

theorem execGateListCancel_apart {bk : Blocks} (hsch : bk.sch = true) {z : State} {pg : Fin 256} {v : Sys2Proof.Word} {s : State} (kz : Apart bk z s) : ApartNext bk z (execGateListCancel pg v s) := by
  unfold execGateListCancel
  repeat' first
    | with_reducible assumption | with_reducible refine Apart.next ?_ | with_reducible apply heldRefuse_apart
    | with_reducible apply setPgResult_apart | with_reducible apply setPgSt_apart | with_reducible apply setPg_apart
    | simp -zeta only [apart_upd, apart_sch hsch]
    | (extract_lets +onlyGivenNames v; first | clear_value v | subst v) | with_reducible refine Apart.ite ?_ ?_ | split

theorem execGateListDisable_apart {bk : Blocks} (hsch : bk.sch = true) {z : State} {pg : Fin 256} {v : Sys2Proof.Word} {s : State} (kz : Apart bk z s) : ApartNext bk z (execGateListDisable pg v s) := by
  unfold execGateListDisable
  repeat' first
    | with_reducible assumption | with_reducible refine Apart.next ?_ | with_reducible apply heldRefuse_apart
    | with_reducible apply setPgSt_apart | with_reducible apply setPg_apart | simp -zeta only [apart_upd, apart_sch hsch]
    | (extract_lets +onlyGivenNames v; first | clear_value v | subst v) | with_reducible refine Apart.ite ?_ ?_

theorem glStore_apart {bk : Blocks} (hsch : bk.sch = true) {z : State} {s : State} {d : Nat} {w : Sys2Proof.Word} (kz : Apart bk z s) : Apart bk z (glStore s d w) := by
  unfold glStore
  repeat' first
    | with_reducible assumption | with_reducible apply setPg_apart

theorem execGateListDataWrite_apart {bk : Blocks} (hsch : bk.sch = true) {z : State} {d : Fin 8} {w : Option Sys2Proof.Word} {s : State} (kz : Apart bk z s) : ApartNext bk z (execGateListDataWrite d w s) := by
  unfold execGateListDataWrite
  repeat' first
    | with_reducible assumption | with_reducible refine Apart.next ?_ | with_reducible apply glStore_apart
    | with_reducible apply heldRefuse_apart | with_reducible apply schEvent_apart | with_reducible apply wf_apart
    | with_reducible apply emit_apart
    | (extract_lets +onlyGivenNames v; subst v) | with_reducible refine Apart.ite ?_ ?_ | split

theorem execShaperRateWrite_apart {bk : Blocks} (hsch : bk.sch = true) {z : State} {d : Fin 8} {k : Fin 256} {c : Fin 8} {v : Sys2Proof.Word} {s : State} (kz : Apart bk z s) : ApartNext bk z (execShaperRateWrite d k c v s) := by
  unfold execShaperRateWrite
  repeat' first
    | with_reducible assumption | with_reducible refine Apart.next ?_ | with_reducible apply heldWrite_apart
    | with_reducible apply setTokens_apart | with_reducible apply softWrite_apart
    | (extract_lets +onlyGivenNames v; refine Apart.cut (bk := bk) (z := z) v ?_ (fun hv => ?_); subst v; rotate_left; clear_value v)
    | (extract_lets +onlyGivenNames v; first | clear_value v | subst v) | with_reducible refine Apart.ite ?_ ?_

end Sys2Proof.Machine
end

