-- ==== Sys2Proof/Laws/ApartSec.lean ====
section
/-! SUPPORT. What the operations of the links leave alone. -/
namespace Sys2Proof.Machine

theorem setLink_apart {bk : Blocks} (hsec : bk.sec = true) {z : State} {s : State} {p : Nat} {x : SecLink} (kz : Apart bk z s) : Apart bk z (setLink s p x) := by
  unfold setLink
  repeat' first
    | with_reducible assumption | with_reducible apply wfs_apart | simp -zeta only [apart_upd, apart_sec hsec]
    | (extract_lets +onlyGivenNames v; refine Apart.cut (bk := bk) (z := z) v ?_ (fun hv => ?_); subst v; rotate_left; clear_value v)
    | (extract_lets +onlyGivenNames v; clear_value v) | with_reducible refine Apart.ite ?_ ?_

theorem linkRefuse_apart {bk : Blocks} (hsec : bk.sec = true) {z : State} {s : State} {p : Nat} {r : Nat} (kz : Apart bk z s) : Apart bk z (linkRefuse s p r) := by
  unfold linkRefuse
  repeat' first
    | with_reducible assumption | with_reducible apply showReason_apart | with_reducible apply setLink_apart
    | with_reducible apply secEvent_apart | with_reducible apply bump64_apart

theorem execRefuse_apart {bk : Blocks} (hsec : bk.sec = true) {z : State} {port : Fin 4096} {reason : Fin 256} {s : State} (kz : Apart bk z s) : ApartNext bk z (execRefuse port reason s) := by
  unfold execRefuse
  repeat' first
    | with_reducible assumption | with_reducible refine Apart.next ?_ | with_reducible apply linkRefuse_apart
    | with_reducible refine Apart.ite ?_ ?_

theorem dropSession_apart {bk : Blocks} (hsec : bk.sec = true) {z : State} {s : State} {x : Session} (kz : Apart bk z s) : Apart bk z (dropSession s x) := by
  unfold dropSession
  repeat' first
    | with_reducible assumption | simp -zeta only [apart_upd, apart_sec hsec]

theorem execSessionIdleTimeout_apart {bk : Blocks} (hsec : bk.sec = true) {z : State} {p : Fin 2} {v6 : Bool} {ip : BitVec 128} {sport : BitVec 16} {s : State} (kz : Apart bk z s) : ApartNext bk z (execSessionIdleTimeout p v6 ip sport s) := by
  unfold execSessionIdleTimeout
  repeat' first
    | with_reducible assumption | with_reducible refine Apart.next ?_ | with_reducible apply dropSession_apart
    | with_reducible refine Apart.ite ?_ ?_ | split

end Sys2Proof.Machine
end

