-- ==== Sys2Proof/Laws/ApartSwc.lean ====
section
/-! SUPPORT. What the operations of the switch leave alone. -/
namespace Sys2Proof.Machine

theorem leaveMember_apart {bk : Blocks} (hswc : bk.swc = true) {z : State} {s : State} {d : Nat} {q : Nat} {m : Nat × Nat} (kz : Apart bk z s) : Apart bk z (leaveMember s d q m) := by
  unfold leaveMember
  repeat' first
    | with_reducible assumption | simp -zeta only [apart_upd, apart_swc hswc]
    | (extract_lets +onlyGivenNames v; refine Apart.cut (bk := bk) (z := z) v ?_ (fun hv => ?_); subst v; rotate_left; first | clear_value v | subst v)
    | (extract_lets +onlyGivenNames v; first | clear_value v | subst v) | with_reducible refine Apart.ite ?_ ?_ | split
    | dsimp -zeta only

theorem setHwq_apart {bk : Blocks} (hswc : bk.swc = true) {z : State} {s : State} {d : Nat} {q : Nat} {x : HwQueue} (kz : Apart bk z s) : Apart bk z (setHwq s d q x) := by
  unfold setHwq
  repeat' first
    | with_reducible assumption | with_reducible apply leaveMember_apart | simp -zeta only [apart_upd, apart_swc hswc]
    | (extract_lets +onlyGivenNames v; refine Apart.cut (bk := bk) (z := z) v ?_ (fun hv => ?_); subst v; rotate_left; first | clear_value v | subst v)
    | (extract_lets +onlyGivenNames v; first | clear_value v | subst v) | with_reducible refine Apart.ite ?_ ?_ | split
    | dsimp -zeta only

theorem spillLatch_apart {bk : Blocks} (hswc : bk.swc = true) {z : State} {d : Nat} {s : State} {pc : Nat × Nat} (kz : Apart bk z s) : Apart bk z (spillLatch d s pc) := by
  unfold spillLatch
  repeat' first
    | with_reducible assumption | simp -zeta only [apart_upd, apart_swc hswc]
    | (extract_lets +onlyGivenNames v; refine Apart.cut (bk := bk) (z := z) v ?_ (fun hv => ?_); subst v; rotate_left; first | clear_value v | subst v)
    | (extract_lets +onlyGivenNames v; first | clear_value v | subst v) | with_reducible refine Apart.ite ?_ ?_ | split
    | dsimp -zeta only

theorem spillMark_apart {bk : Blocks} (hswc : bk.swc = true) {z : State} {d : Nat} {s : State} {q : Nat} (kz : Apart bk z s) : Apart bk z (spillMark d s q) := by
  unfold spillMark
  repeat' first
    | with_reducible assumption | with_reducible apply setHwq_apart | simp -zeta only [apart_upd, apart_swc hswc]
    | (extract_lets +onlyGivenNames v; refine Apart.cut (bk := bk) (z := z) v ?_ (fun hv => ?_); subst v; rotate_left; first | clear_value v | subst v)
    | (extract_lets +onlyGivenNames v; first | clear_value v | subst v) | with_reducible refine Apart.ite ?_ ?_ | split
    | dsimp -zeta only

theorem spillMarks_apart {bk : Blocks} (hswc : bk.swc = true) {z : State} {s : State} {d : Nat} (kz : Apart bk z s) : Apart bk z (spillMarks s d) := by
  unfold spillMarks
  repeat' first
    | with_reducible assumption | with_reducible apply spillLatch_apart | with_reducible apply spillMark_apart
    | (with_reducible refine Apart.foldlFst _ _ ?_ ?_; rotate_left; rintro ⟨_, _⟩ _ _)
    | with_reducible refine Apart.foldl _ _ ?_ (fun _ _ _ => ?_)
    | (extract_lets +onlyGivenNames v; refine Apart.cut (bk := bk) (z := z) v ?_ (fun hv => ?_); subst v; rotate_left; first | clear_value v | subst v)
    | (extract_lets +onlyGivenNames v; first | clear_value v | subst v) | dsimp -zeta only

theorem showPool_apart {bk : Blocks} (hswc : bk.swc = true) {z : State} {s : State} {d : Nat} {p : Nat} {c : Nat} (kz : Apart bk z s) : Apart bk z (showPool s d p c) := by
  unfold showPool
  repeat' first
    | with_reducible assumption | with_reducible apply spillMarks_apart | with_reducible apply swcEvent_apart
    | with_reducible apply wn_apart | with_reducible apply wfs_apart
    | (extract_lets +onlyGivenNames v; refine Apart.cut (bk := bk) (z := z) v ?_ (fun hv => ?_); subst v; rotate_left; first | clear_value v | subst v)
    | (extract_lets +onlyGivenNames v; first | clear_value v | subst v) | with_reducible refine Apart.ite ?_ ?_ | split
    | dsimp -zeta only

theorem showPools_apart {bk : Blocks} (hswc : bk.swc = true) {z : State} {s : State} {p : Nat} {c : Nat} (kz : Apart bk z s) : Apart bk z (showPools s p c) := by
  unfold showPools
  repeat' first
    | with_reducible assumption | with_reducible apply showPool_apart | with_reducible refine Apart.foldl _ _ ?_ (fun _ _ _ => ?_)

theorem setPoolOcc_apart {bk : Blocks} (hswc : bk.swc = true) {z : State} {s : State} {d : Nat} {p : Nat} {c : Nat} {n : Nat} (kz : Apart bk z s) : Apart bk z (setPoolOcc s d p c n) := by
  unfold setPoolOcc
  repeat' first
    | with_reducible assumption | with_reducible apply showPool_apart | with_reducible apply wf_apart

theorem charge_apart {bk : Blocks} (hswc : bk.swc = true) {z : State} {s : State} {d : Nat} {p : Nat} {c : Nat} {n : Nat} (kz : Apart bk z s) : Apart bk z (charge s d p c n) := by
  unfold charge
  repeat' first
    | with_reducible assumption | with_reducible apply setPoolOcc_apart

theorem discharge_apart {bk : Blocks} (hswc : bk.swc = true) {z : State} {s : State} {d : Nat} {p : Nat} {c : Nat} {n : Nat} (kz : Apart bk z s) : Apart bk z (discharge s d p c n) := by
  unfold discharge
  repeat' first
    | with_reducible assumption | with_reducible apply setPoolOcc_apart

theorem chargePkt_apart {bk : Blocks} (hswc : bk.swc = true) {z : State} {s : State} {d : Nat} {p : Nat} {c : Nat} {n : Nat} (kz : Apart bk z s) : Apart bk z (chargePkt s d p c n) := by
  unfold chargePkt
  repeat' first
    | with_reducible assumption | with_reducible apply charge_apart | with_reducible refine Apart.ite ?_ ?_

theorem dischargePkt_apart {bk : Blocks} (hswc : bk.swc = true) {z : State} {s : State} {d : Nat} {p : Nat} {c : Nat} {n : Nat} (kz : Apart bk z s) : Apart bk z (dischargePkt s d p c n) := by
  unfold dischargePkt
  repeat' first
    | with_reducible assumption | with_reducible apply discharge_apart | with_reducible refine Apart.ite ?_ ?_

theorem setPagesUsed_apart {bk : Blocks} (hswc : bk.swc = true) {z : State} {s : State} {d : Nat} {p : Nat} {n : Nat} (kz : Apart bk z s) : Apart bk z (setPagesUsed s d p n) := by
  unfold setPagesUsed
  repeat' first
    | with_reducible assumption | simp -zeta only [apart_upd, apart_swc hswc]

theorem writePages_apart {bk : Blocks} (hswc : bk.swc = true) {z : State} {d : Nat} {q : Nat} {p : Nat} {c : Nat} {y4 : Nat} {y5 : State} (kz : Apart bk z y5) : Apart bk z (writePages d q p c y4 y5) := by
  induction y4 generalizing y5 with
  | zero =>
    unfold writePages
    repeat' first
      | with_reducible assumption
  | succ n ih =>
    unfold writePages
    repeat' first
      | with_reducible assumption | with_reducible apply ih | with_reducible apply setHwq_apart | with_reducible apply setPagesUsed_apart
      | with_reducible apply dischargePkt_apart | with_reducible apply bump64_apart | simp -zeta only [apart_upd, apart_swc hswc]
      | (extract_lets +onlyGivenNames v; refine Apart.cut (bk := bk) (z := z) v ?_ (fun hv => ?_); subst v; rotate_left; clear_value v)
      | (extract_lets +onlyGivenNames v; clear_value v) | with_reducible refine Apart.ite ?_ ?_

theorem askPages_apart {bk : Blocks} (hswc : bk.swc = true) {z : State} {d : Nat} {q : Nat} {y2 : Nat} {y3 : State} (kz : Apart bk z y3) : Apart bk z (askPages d q y2 y3) := by
  induction y2 generalizing y3 with
  | zero =>
    unfold askPages
    repeat' first
      | with_reducible assumption
  | succ n ih =>
    unfold askPages
    repeat' first
      | with_reducible assumption | with_reducible apply ih | with_reducible apply setHwq_apart | simp -zeta only [apart_upd, apart_swc hswc]
      | (extract_lets +onlyGivenNames v; clear_value v) | with_reducible refine Apart.ite ?_ ?_

theorem joinTail_apart {bk : Blocks} (hswc : bk.swc = true) {z : State} {s : State} {d : Nat} {q : Nat} (kz : Apart bk z s) : Apart bk z (joinTail s d q) := by
  unfold joinTail
  repeat' first
    | with_reducible assumption | with_reducible apply setHwq_apart | simp -zeta only [apart_upd, apart_swc hswc]
    | (extract_lets +onlyGivenNames v; clear_value v) | with_reducible refine Apart.ite ?_ ?_

theorem enqueue_apart {bk : Blocks} (hswc : bk.swc = true) {z : State} {s : State} {d : Nat} {q : Nat} {pk : SwPkt} (kz : Apart bk z s) : Apart bk z (enqueue s d q pk) := by
  unfold enqueue
  repeat' first
    | with_reducible assumption | with_reducible apply enterSpill_apart | with_reducible apply setHwq_apart
    | with_reducible apply joinTail_apart | with_reducible apply askPages_apart | with_reducible apply writePages_apart
    | with_reducible apply bump64_apart

theorem sendOwn_apart {bk : Blocks} (hswc : bk.swc = true) {z : State} {s : State} {port : Nat} {c : Sys2Proof.Cfh} {payload : List Sys2Proof.Byte} (kz : Apart bk z s) : Apart bk z (sendOwn s port c payload) := by
  unfold sendOwn
  repeat' first
    | with_reducible assumption | with_reducible apply enqueue_apart | with_reducible apply chargePkt_apart
    | with_reducible apply emit_apart | simp -zeta only [apart_upd, apart_swc hswc]
    | (extract_lets +onlyGivenNames v; refine Apart.cut (bk := bk) (z := z) v ?_ (fun hv => ?_); subst v; rotate_left; first | clear_value v | subst v)
    | (extract_lets +onlyGivenNames v; first | clear_value v | subst v) | with_reducible refine Apart.ite ?_ ?_ | split
    | dsimp -zeta only

theorem freePunts_apart {bk : Blocks} (hswc : bk.swc = true) {z : State} {s : State} {d : Nat} {n : Nat} (kz : Apart bk z s) : Apart bk z (freePunts s d n) := by
  unfold freePunts
  repeat' first
    | with_reducible assumption | with_reducible apply dischargePkt_apart | with_reducible refine Apart.foldl _ _ ?_ (fun _ _ _ => ?_)
    | simp -zeta only [apart_upd, apart_swc hswc]
    | (extract_lets +onlyGivenNames v; refine Apart.cut (bk := bk) (z := z) v ?_ (fun hv => ?_); subst v; rotate_left; first | clear_value v | subst v)
    | (extract_lets +onlyGivenNames v; first | clear_value v | subst v) | dsimp -zeta only

theorem moveWadiLists_apart {bk : Blocks} (hswc : bk.swc = true) {z : State} {s : State} {d : Nat} {old : Nat} {new : Nat} (kz : Apart bk z s) : Apart bk z (moveWadiLists s d old new) := by
  unfold moveWadiLists
  repeat' first
    | with_reducible assumption | with_reducible apply setHwq_apart | with_reducible refine Apart.foldl _ _ ?_ (fun _ _ _ => ?_)
    | simp -zeta only [apart_upd, apart_swc hswc]
    | (extract_lets +onlyGivenNames v; clear_value v) | with_reducible refine Apart.ite ?_ ?_

theorem relayRec_apart {bk : Blocks} (hswc : bk.swc = true) {z : State} {s : State} {part : Nat} {except : Option Nat} {r : Sys2Proof.TblRec} (kz : Apart bk z s) : Apart bk z (relayRec s part except r) := by
  unfold relayRec
  repeat' first
    | with_reducible assumption | with_reducible apply sendOwn_apart
    | (with_reducible refine Apart.foldlFst _ _ ?_ ?_; rotate_left; rintro ⟨_, _⟩ _ _)
    | with_reducible refine Apart.foldl _ _ ?_ (fun _ _ _ => ?_)
    | (extract_lets +onlyGivenNames v; refine Apart.cut (bk := bk) (z := z) v ?_ (fun hv => ?_); subst v; rotate_left; first | clear_value v | subst v)
    | (extract_lets +onlyGivenNames v; first | clear_value v | subst v) | split | dsimp -zeta only

theorem execCounterLoRead_apart {bk : Blocks} (hswc : bk.swc = true) {z : State} {a : BitVec 26} {s : State} (kz : Apart bk z s) : ApartNext bk z (execCounterLoRead a s) := by
  unfold execCounterLoRead
  repeat' first
    | with_reducible assumption | with_reducible refine Apart.next ?_ | with_reducible apply emit_apart | simp -zeta only [apart_upd, apart_swc hswc]
    | (extract_lets +onlyGivenNames v; refine Apart.cut (bk := bk) (z := z) v ?_ (fun hv => ?_); subst v; rotate_left; clear_value v)
    | (extract_lets +onlyGivenNames v; clear_value v) | with_reducible refine Apart.ite ?_ ?_

theorem execCnqDisable_apart {bk : Blocks} (hswc : bk.swc = true) {z : State} {d : Fin 8} {n : Fin 2048} {v : Sys2Proof.Word} {s : State} (kz : Apart bk z s) : ApartNext bk z (execCnqDisable d n v s) := by
  unfold execCnqDisable
  repeat' first
    | with_reducible assumption | with_reducible refine Apart.next ?_ | with_reducible apply cnqWriteGeometry_apart
    | with_reducible apply cnqWriteNotice_apart | with_reducible apply dropStaged_apart | with_reducible apply heldWrite_apart
    | with_reducible apply freePunts_apart | with_reducible apply hifErr_apart | with_reducible apply wf_apart
    | (extract_lets +onlyGivenNames v; refine Apart.cut (bk := bk) (z := z) v ?_ (fun hv => ?_); subst v; rotate_left; first | clear_value v | subst v)
    | (extract_lets +onlyGivenNames v; first | clear_value v | subst v) | with_reducible refine Apart.ite ?_ ?_ | split
    | dsimp -zeta only

theorem execCnqHeadWrite_apart {bk : Blocks} (hswc : bk.swc = true) {z : State} {d : Fin 8} {n : Fin 2048} {v : Sys2Proof.Word} {s : State} (kz : Apart bk z s) : ApartNext bk z (execCnqHeadWrite d n v s) := by
  unfold execCnqHeadWrite
  repeat' first
    | with_reducible assumption | with_reducible refine Apart.next ?_ | with_reducible apply freePunts_apart
    | with_reducible apply releaseRecords_apart | with_reducible apply setCnq_apart | with_reducible apply drainStaged_apart
    | with_reducible apply wr_apart | with_reducible apply wn_apart | simp -zeta only [apart_upd, apart_swc hswc]
    | (extract_lets +onlyGivenNames v; refine Apart.cut (bk := bk) (z := z) v ?_ (fun hv => ?_); subst v; rotate_left; first | clear_value v | subst v)
    | (extract_lets +onlyGivenNames v; first | clear_value v | subst v) | with_reducible refine Apart.ite ?_ ?_ | split
    | dsimp -zeta only

theorem execCnqFlush_apart {bk : Blocks} (hswc : bk.swc = true) {z : State} {d : Fin 8} {n : Fin 2048} {s : State} (kz : Apart bk z s) : ApartNext bk z (execCnqFlush d n s) := by
  unfold execCnqFlush
  repeat' first
    | with_reducible assumption | with_reducible refine Apart.next ?_ | with_reducible apply freePunts_apart
    | with_reducible apply drainStaged_apart | with_reducible apply setCnq_apart | with_reducible apply wf_apart
    | simp -zeta only [apart_upd, apart_swc hswc]
    | (extract_lets +onlyGivenNames v; refine Apart.cut (bk := bk) (z := z) v ?_ (fun hv => ?_); subst v; rotate_left; first | clear_value v | subst v)
    | (extract_lets +onlyGivenNames v; first | clear_value v | subst v) | with_reducible refine Apart.ite ?_ ?_ | split
    | dsimp -zeta only

theorem execCnqFabricSend_apart {bk : Blocks} (hswc : bk.swc = true) {z : State} {d : Fin 8} {n : Fin 2048} {s : State} (kz : Apart bk z s) : ApartNext bk z (execCnqFabricSend d n s) := by
  unfold execCnqFabricSend
  repeat' first
    | with_reducible assumption | with_reducible refine Apart.next ?_ | with_reducible apply cnqMessage_apart
    | with_reducible apply cnqFragments_apart | with_reducible apply freePunts_apart | with_reducible apply releaseRecords_apart
    | with_reducible apply setCnq_apart | with_reducible apply drainStaged_apart | simp -zeta only [apart_upd, apart_swc hswc]
    | (extract_lets +onlyGivenNames v; refine Apart.cut (bk := bk) (z := z) v ?_ (fun hv => ?_); subst v; rotate_left; first | clear_value v | subst v)
    | (extract_lets +onlyGivenNames v; first | clear_value v | subst v) | with_reducible refine Apart.ite ?_ ?_ | split
    | dsimp -zeta only

theorem setPunt_apart {bk : Blocks} (hswc : bk.swc = true) {z : State} {s : State} {d : Nat} {l : List PuntPkt} (kz : Apart bk z s) : Apart bk z (setPunt s d l) := by
  unfold setPunt
  repeat' first
    | with_reducible assumption | with_reducible apply punt_apart | simp -zeta only [apart_upd, apart_swc hswc]

theorem punt_apart {bk : Blocks} (hswc : bk.swc = true) {z : State} {s : State} {d : Nat} {p : PuntPkt} (kz : Apart bk z s) : Apart bk z (punt s d p) := by
  unfold punt
  repeat' first
    | with_reducible assumption | with_reducible apply puntDrop_apart | with_reducible apply setPunt_apart
    | with_reducible apply chargePkt_apart | with_reducible refine Apart.ite ?_ ?_

theorem execPoolMaxWrite_apart {bk : Blocks} (hswc : bk.swc = true) {z : State} {d : Fin 8} {p : Fin 16} {c : Fin 8} {v : Sys2Proof.Word} {s : State} (kz : Apart bk z s) : ApartNext bk z (execPoolMaxWrite d p c v s) := by
  unfold execPoolMaxWrite
  repeat' first
    | with_reducible assumption | with_reducible refine Apart.next ?_ | with_reducible apply heldWrite_apart
    | with_reducible apply checkBudget_apart | with_reducible apply showPools_apart | with_reducible apply swcEvent_apart
    | with_reducible apply softWrite_apart
    | (extract_lets +onlyGivenNames v; refine Apart.cut (bk := bk) (z := z) v ?_ (fun hv => ?_); subst v; rotate_left; first | clear_value v | subst v)
    | (extract_lets +onlyGivenNames v; first | clear_value v | subst v) | with_reducible refine Apart.ite ?_ ?_ | split
    | dsimp -zeta only

theorem execPolicerEnable_apart {bk : Blocks} (hswc : bk.swc = true) {z : State} {d : Fin 8} {i : Fin 8192} {v : Sys2Proof.Word} {s : State} (kz : Apart bk z s) : ApartNext bk z (execPolicerEnable d i v s) := by
  unfold execPolicerEnable
  repeat' first
    | with_reducible assumption | with_reducible refine Apart.next ?_ | with_reducible apply heldWrite_apart
    | with_reducible apply softWrite_apart | simp -zeta only [apart_upd, apart_swc hswc]
    | (extract_lets +onlyGivenNames v; refine Apart.cut (bk := bk) (z := z) v ?_ (fun hv => ?_); subst v; rotate_left; clear_value v)
    | (extract_lets +onlyGivenNames v; first | clear_value v | subst v) | with_reducible refine Apart.ite ?_ ?_

theorem keepPunt_apart {bk : Blocks} (hswc : bk.swc = true) {z : State} {s : State} {d : Nat} {n : Nat} {p : PuntPkt} (kz : Apart bk z s) : Apart bk z (keepPunt s d n p) := by
  unfold keepPunt
  repeat' first
    | with_reducible assumption | simp -zeta only [apart_upd, apart_swc hswc]
    | (extract_lets +onlyGivenNames v; refine Apart.cut (bk := bk) (z := z) v ?_ (fun hv => ?_); subst v; rotate_left; first | clear_value v | subst v)
    | (extract_lets +onlyGivenNames v; first | clear_value v | subst v) | dsimp -zeta only

theorem execPuntDeliver_apart {bk : Blocks} (hswc : bk.swc = true) {z : State} {d : Fin 8} {s : State} (kz : Apart bk z s) : ApartNext bk z (execPuntDeliver d s) := by
  unfold execPuntDeliver
  repeat' first
    | with_reducible assumption | with_reducible refine Apart.next ?_ | with_reducible apply keepPunt_apart
    | with_reducible apply setPunt_apart | with_reducible apply puntDrop_apart | with_reducible apply dischargePkt_apart
    | with_reducible apply fifoPut_apart
    | (extract_lets +onlyGivenNames v; refine Apart.cut (bk := bk) (z := z) v ?_ (fun hv => ?_); subst v; rotate_left; first | clear_value v | subst v)
    | (extract_lets +onlyGivenNames v; refine Apart.cut (bk := bk) (z := z) v.1 ?_ (fun hv => ?_); subst v; rotate_left; first | clear_value v | subst v)
    | (extract_lets +onlyGivenNames v; subst v) | with_reducible refine Apart.ite ?_ ?_ | split | dsimp -zeta only

theorem execRefreshRequestRx_apart {bk : Blocks} (hswc : bk.swc = true) {z : State} {port : Fin 4096} {r : Sys2Proof.TblRec} {s : State} (kz : Apart bk z s) : ApartNext bk z (execRefreshRequestRx port r s) := by
  unfold execRefreshRequestRx
  repeat' first
    | with_reducible assumption | with_reducible refine Apart.next ?_ | with_reducible apply learnDrop_apart
    | with_reducible apply sendOwn_apart | with_reducible apply bump64_apart
    | (extract_lets +onlyGivenNames v; refine Apart.cut (bk := bk) (z := z) v ?_ (fun hv => ?_); subst v; rotate_left; first | clear_value v | subst v)
    | (extract_lets +onlyGivenNames v; first | clear_value v | subst v) | with_reducible refine Apart.ite ?_ ?_ | split
    | dsimp -zeta only

end Sys2Proof.Machine
end

