-- ==== Sys2Proof/Laws/ApartTim.lean ====
section
/-! SUPPORT. What the operations of the time base leave alone. -/
namespace Sys2Proof.Machine

theorem setTimSt_apart {bk : Blocks} (htim : bk.tim = true) {z : State} {s : State} {st : Nat} (kz : Apart bk z s) : Apart bk z (setTimSt s st) := by
  unfold setTimSt
  repeat' first
    | with_reducible assumption | with_reducible apply timEvent_apart | with_reducible apply wf_apart | simp -zeta only [apart_upd, apart_tim htim]
    | (extract_lets +onlyGivenNames v; refine Apart.cut (bk := bk) (z := z) v ?_ (fun hv => ?_); subst v; rotate_left; clear_value v)
    | (extract_lets +onlyGivenNames v; clear_value v) | with_reducible refine Apart.ite ?_ ?_

theorem modSource_apart {bk : Blocks} (htim : bk.tim = true) {z : State} {s : State} {k : Nat} {p : Nat} {f : TimSource → TimSource} (kz : Apart bk z s) : Apart bk z (modSource s k p f) := by
  unfold modSource
  repeat' first
    | with_reducible assumption | simp -zeta only [apart_upd, apart_tim htim]

theorem selectSource_apart {bk : Blocks} (htim : bk.tim = true) {z : State} {s : State} (kz : Apart bk z s) : Apart bk z (selectSource s) := by
  unfold selectSource
  repeat' first
    | with_reducible assumption | with_reducible apply showSource_apart | with_reducible apply setTimSt_apart
    | with_reducible apply setTimFine_apart | with_reducible apply timEvent_apart | simp -zeta only [apart_upd, apart_tim htim]
    | (extract_lets +onlyGivenNames v; refine Apart.cut (bk := bk) (z := z) v ?_ (fun hv => ?_); subst v; rotate_left; clear_value v)
    | (extract_lets +onlyGivenNames v; first | clear_value v | subst v) | with_reducible refine Apart.ite ?_ ?_

theorem sourceLost_apart {bk : Blocks} (htim : bk.tim = true) {z : State} {s : State} {k : Nat} {p : Nat} (kz : Apart bk z s) : Apart bk z (sourceLost s k p) := by
  unfold sourceLost
  repeat' first
    | with_reducible assumption | with_reducible apply selectSource_apart | simp -zeta only [apart_upd, apart_tim htim]
    | with_reducible refine Apart.ite ?_ ?_

theorem growBound_apart {bk : Blocks} (htim : bk.tim = true) {z : State} {s : State} (kz : Apart bk z s) : Apart bk z (growBound s) := by
  unfold growBound
  repeat' first
    | with_reducible assumption | with_reducible apply wn_apart | simp -zeta only [apart_upd, apart_tim htim]
    | (extract_lets +onlyGivenNames v; refine Apart.cut (bk := bk) (z := z) v ?_ (fun hv => ?_); subst v; rotate_left; first | clear_value v | subst v)
    | (extract_lets +onlyGivenNames v; first | clear_value v | subst v) | dsimp -zeta only

theorem settleTheta_apart {bk : Blocks} (htim : bk.tim = true) {z : State} {s : State} {kind : Nat} {p : Nat} (kz : Apart bk z s) : Apart bk z (settleTheta s kind p) := by
  unfold settleTheta
  repeat' first
    | with_reducible assumption | with_reducible apply modSource_apart | with_reducible apply timEvent_apart
    | simp -zeta only [apart_upd, apart_tim htim] | with_reducible refine Apart.ite ?_ ?_ | split

theorem execFineTimeMarker_apart {bk : Blocks} (htim : bk.tim = true) {z : State} {port : Fin 4096} {sub : Fin 8} {rx : Int} {back : Int} {s : State} (kz : Apart bk z s) : ApartNext bk z (execFineTimeMarker port sub rx back s) := by
  unfold execFineTimeMarker
  repeat' first
    | with_reducible assumption | with_reducible refine Apart.next ?_ | with_reducible apply settleTheta_apart
    | simp -zeta only [apart_upd, apart_tim htim]
    | (extract_lets +onlyGivenNames v; refine Apart.cut (bk := bk) (z := z) v ?_ (fun hv => ?_); subst v; rotate_left; first | clear_value v | subst v)
    | (extract_lets +onlyGivenNames v; first | clear_value v | subst v) | with_reducible refine Apart.ite ?_ ?_ | split
    | dsimp -zeta only

theorem settleForeign_apart {bk : Blocks} (htim : bk.tim = true) {z : State} {s : State} {kind : Nat} {p : Nat} (kz : Apart bk z s) : Apart bk z (settleForeign s kind p) := by
  unfold settleForeign
  repeat' first
    | with_reducible assumption | with_reducible apply sourceLost_apart | with_reducible apply selectSource_apart
    | with_reducible apply modSource_apart | with_reducible apply timEvent_apart | simp -zeta only [apart_upd, apart_tim htim]
    | (extract_lets +onlyGivenNames v; refine Apart.cut (bk := bk) (z := z) v ?_ (fun hv => ?_); subst v; rotate_left; first | clear_value v | subst v)
    | (extract_lets +onlyGivenNames v; first | clear_value v | subst v) | with_reducible refine Apart.ite ?_ ?_ | split
    | dsimp -zeta only

theorem heardAnnounce_apart {bk : Blocks} (htim : bk.tim = true) {z : State} {s : State} {kind : Nat} {p : Nat} {ds : PtpDs} (kz : Apart bk z s) : Apart bk z (heardAnnounce s kind p ds) := by
  unfold heardAnnounce
  repeat' first
    | with_reducible assumption | with_reducible apply settleForeign_apart | simp -zeta only [apart_upd, apart_tim htim]
    | (extract_lets +onlyGivenNames v; refine Apart.cut (bk := bk) (z := z) v ?_ (fun hv => ?_); subst v; rotate_left; first | clear_value v | subst v)
    | (extract_lets +onlyGivenNames v; first | clear_value v | subst v) | with_reducible refine Apart.ite ?_ ?_ | split
    | dsimp -zeta only

theorem syncOffset_apart {bk : Blocks} (htim : bk.tim = true) {z : State} {s : State} {kind : Nat} {p : Nat} {t1 : Int} (kz : Apart bk z s) : Apart bk z (syncOffset s kind p t1) := by
  unfold syncOffset
  repeat' first
    | with_reducible assumption | with_reducible apply settleTheta_apart | with_reducible apply modSource_apart
    | simp -zeta only [apart_upd, apart_tim htim] | split

theorem askDelay_apart {bk : Blocks} (htim : bk.tim = true) {z : State} {s : State} {kind : Nat} {p : Nat} (kz : Apart bk z s) : Apart bk z (askDelay s kind p) := by
  unfold askDelay
  repeat' first
    | with_reducible assumption | with_reducible apply ptpSend_apart | with_reducible apply modSource_apart
    | simp -zeta only [apart_upd, apart_tim htim] | with_reducible refine Apart.ite ?_ ?_

theorem askPeer_apart {bk : Blocks} (htim : bk.tim = true) {z : State} {s : State} {p : Nat} (kz : Apart bk z s) : Apart bk z (askPeer s p) := by
  unfold askPeer
  repeat' first
    | with_reducible assumption | with_reducible apply ptpSend_apart | with_reducible apply modSource_apart

theorem ptpBodyRx_apart {bk : Blocks} (htim : bk.tim = true) {z : State} {s : State} {kind : Nat} {p : Nat} {sender : Nat} {m : Sys2Proof.PtpBody} (kz : Apart bk z s) : Apart bk z (ptpBodyRx s kind p sender m) := by
  unfold ptpBodyRx
  repeat' first
    | with_reducible assumption | with_reducible apply askDelay_apart | with_reducible apply syncOffset_apart
    | with_reducible apply ptpSend_apart | with_reducible apply heardAnnounce_apart | with_reducible apply modSource_apart
    | simp -zeta only [apart_upd, apart_tim htim]
    | (extract_lets +onlyGivenNames v; refine Apart.cut (bk := bk) (z := z) v ?_ (fun hv => ?_); subst v; rotate_left; first | clear_value v | subst v)
    | (extract_lets +onlyGivenNames v; first | clear_value v | subst v) | with_reducible refine Apart.ite ?_ ?_ | split
    | dsimp -zeta only

theorem execPtpMessageRx_apart {bk : Blocks} (htim : bk.tim = true) {z : State} {kind : Fin 5} {port : Fin 4096} {m : Sys2Proof.PtpMsg} {s : State} (kz : Apart bk z s) : ApartNext bk z (execPtpMessageRx kind port m s) := by
  unfold execPtpMessageRx
  repeat' first
    | with_reducible assumption | with_reducible refine Apart.next ?_ | with_reducible apply ptpBodyRx_apart
    | (extract_lets +onlyGivenNames v; first | clear_value v | subst v) | with_reducible refine Apart.ite ?_ ?_

theorem execPtpSyncSend_apart {bk : Blocks} (htim : bk.tim = true) {z : State} {mgmt : Bool} {s : State} (kz : Apart bk z s) : ApartNext bk z (execPtpSyncSend mgmt s) := by
  unfold execPtpSyncSend
  repeat' first
    | with_reducible assumption | with_reducible refine Apart.next ?_ | with_reducible apply ptpSend_apart
    | with_reducible apply askPeer_apart
    | with_reducible refine Apart.foldl _ _ ?_ (fun _ _ _ => ?_)
    | (extract_lets +onlyGivenNames v; refine Apart.cut (bk := bk) (z := z) v ?_ (fun hv => ?_); subst v; rotate_left; clear_value v)
    | (extract_lets +onlyGivenNames v; subst v) | with_reducible refine Apart.ite ?_ ?_

theorem execAnnounceTimeout_apart {bk : Blocks} (htim : bk.tim = true) {z : State} {kind : Fin 5} {port : Fin 4096} {s : State} (kz : Apart bk z s) : ApartNext bk z (execAnnounceTimeout kind port s) := by
  unfold execAnnounceTimeout
  repeat' first
    | with_reducible assumption | with_reducible refine Apart.next ?_ | with_reducible apply settleForeign_apart
    | simp -zeta only [apart_upd, apart_tim htim]
    | (extract_lets +onlyGivenNames v; refine Apart.cut (bk := bk) (z := z) v ?_ (fun hv => ?_); subst v; rotate_left; first | clear_value v | subst v)
    | (extract_lets +onlyGivenNames v; subst v) | with_reducible refine Apart.ite ?_ ?_ | split | dsimp -zeta only

theorem execFineQualify_apart {bk : Blocks} (htim : bk.tim = true) {z : State} {s : State} (kz : Apart bk z s) : ApartNext bk z (execFineQualify s) := by
  unfold execFineQualify
  repeat' first
    | with_reducible assumption | with_reducible refine Apart.next ?_ | with_reducible apply setTimFine_apart
    | with_reducible apply setTimSt_apart | with_reducible refine Apart.ite ?_ ?_ | split

theorem execTimAccept_apart {bk : Blocks} (htim : bk.tim = true) {z : State} {v : Sys2Proof.Word} {s : State} (kz : Apart bk z s) : ApartNext bk z (execTimAccept v s) := by
  unfold execTimAccept
  repeat' first
    | with_reducible assumption | with_reducible refine Apart.next ?_ | with_reducible apply heldRefuse_apart
    | simp -zeta only [apart_upd, apart_tim htim] | with_reducible refine Apart.ite ?_ ?_

theorem execRefLoss_apart {bk : Blocks} (htim : bk.tim = true) {z : State} {s : State} (kz : Apart bk z s) : ApartNext bk z (execRefLoss s) := by
  unfold execRefLoss
  repeat' first
    | with_reducible assumption | with_reducible refine Apart.next ?_ | with_reducible apply growBound_apart
    | with_reducible apply timEvent_apart | with_reducible apply wf_apart | with_reducible refine Apart.ite ?_ ?_

theorem execPpsInEdge_apart {bk : Blocks} (htim : bk.tim = true) {z : State} {widthNs : Nat} {s : State} (kz : Apart bk z s) : ApartNext bk z (execPpsInEdge widthNs s) := by
  unfold execPpsInEdge
  repeat' first
    | with_reducible assumption | with_reducible refine Apart.next ?_ | with_reducible apply heardAnnounce_apart
    | with_reducible apply modSource_apart | with_reducible apply wn_apart | with_reducible apply wnHL_apart
    | with_reducible apply wf_apart | simp -zeta only [apart_upd, apart_tim htim]
    | (extract_lets +onlyGivenNames v; refine Apart.cut (bk := bk) (z := z) v ?_ (fun hv => ?_); subst v; rotate_left; clear_value v)
    | (extract_lets +onlyGivenNames v; clear_value v) | with_reducible refine Apart.ite ?_ ?_

theorem execPpsLoss_apart {bk : Blocks} (htim : bk.tim = true) {z : State} {s : State} (kz : Apart bk z s) : ApartNext bk z (execPpsLoss s) := by
  unfold execPpsLoss
  repeat' first
    | with_reducible assumption | with_reducible refine Apart.next ?_ | with_reducible apply sourceLost_apart
    | with_reducible apply timEvent_apart | with_reducible apply wf_apart | simp -zeta only [apart_upd, apart_tim htim]
    | (extract_lets +onlyGivenNames v; refine Apart.cut (bk := bk) (z := z) v ?_ (fun hv => ?_); subst v; rotate_left; clear_value v)
    | (extract_lets +onlyGivenNames v; clear_value v) | with_reducible refine Apart.ite ?_ ?_ | split

end Sys2Proof.Machine
end

