-- ==== Sys2Proof/Laws/ApartMore.lean ====
section
/-! SUPPORT. What operations of more than one block leave alone. -/
namespace Sys2Proof.Machine

theorem tickFree_apart {bk : Blocks} (hfree : bk.free = true) {z s : State} (h : Apart bk z s) : Apart bk z (tickFree s) := by
  unfold tickFree
  simp -zeta only [apart_free hfree]
  exact h

theorem mirrorOne_apart {bk : Blocks} (hfree : bk.free = true) (hswc : bk.swc = true) {z : State} {s : State} {d : Nat} {m : Nat} {src : Nat} {port : Nat} {part : Nat} {eth : Option Sys2Proof.EthFrame} {cfh : Option Sys2Proof.Cfh} {payload : List Sys2Proof.Byte} (kz : Apart bk z s) : Apart bk z (mirrorOne s d m src port part eth cfh payload) := by
  unfold mirrorOne
  repeat' first
    | with_reducible assumption | with_reducible apply enqueue_apart | with_reducible apply chargePkt_apart
    | with_reducible apply mirrorPut_apart | with_reducible apply tickFree_apart | with_reducible apply bump64_apart
    | simp -zeta only [apart_upd, apart_free hfree, apart_swc hswc]
    | (extract_lets +onlyGivenNames v; refine Apart.cut (bk := bk) (z := z) v ?_ (fun hv => ?_); subst v; rotate_left; first | clear_value v | subst v)
    | (extract_lets +onlyGivenNames v; refine Apart.cut (bk := bk) (z := z) v.1 ?_ (fun hv => ?_); subst v; rotate_left; first | clear_value v | subst v)
    | (extract_lets +onlyGivenNames v; first | clear_value v | subst v) | with_reducible refine Apart.ite ?_ ?_ | split
    | dsimp -zeta only

theorem mirrorAll_apart {bk : Blocks} (hfree : bk.free = true) (hswc : bk.swc = true) {z : State} {s : State} {d : Nat} {src : Nat} {port : Nat} {part : Nat} {eth : Option Sys2Proof.EthFrame} {cfh : Option Sys2Proof.Cfh} {payload : List Sys2Proof.Byte} {l : List Nat} (kz : Apart bk z s) : Apart bk z (mirrorAll s d src port part eth cfh payload l) := by
  unfold mirrorAll
  repeat' first
    | with_reducible assumption | with_reducible apply mirrorOne_apart | with_reducible refine Apart.foldl _ _ ?_ (fun _ _ _ => ?_)
    | with_reducible refine Apart.ite ?_ ?_

theorem linkMsg_apart {bk : Blocks} (hfree : bk.free = true) (hswc : bk.swc = true) {z : State} {s : State} {port : Nat} {c : Sys2Proof.Cfh} {payload : List Sys2Proof.Byte} (kz : Apart bk z s) : Apart bk z (linkMsg s port c payload) := by
  unfold linkMsg
  repeat' first
    | with_reducible assumption | with_reducible apply mirrorAll_apart | with_reducible apply emit_apart

theorem expressLost_apart {bk : Blocks} (hopt : bk.opt = true) {z : State} {old : State} {s : State} (kz : Apart bk z s) : Apart bk z (expressLost old s) := by
  unfold expressLost
  repeat' first
    | with_reducible assumption | simp -zeta only [apart_upd, apart_opt hopt]
    | (extract_lets +onlyGivenNames v; subst v)

theorem showWadi_apart {bk : Blocks} (hrte : bk.rte = true) (hswc : bk.swc = true) {z : State} {old : State} {s : State} {dir : Nat} (kz : Apart bk z s) : Apart bk z (showWadi old s dir) := by
  unfold showWadi
  repeat' first
    | with_reducible assumption | with_reducible apply moveWadiLists_apart | with_reducible apply rteEvent_apart
    | with_reducible apply wfs_apart | with_reducible apply wf_apart | simp -zeta only [apart_upd, apart_rte hrte, apart_swc hswc]
    | (extract_lets +onlyGivenNames v; refine Apart.cut (bk := bk) (z := z) v ?_ (fun hv => ?_); subst v; rotate_left; first | clear_value v | subst v)
    | (extract_lets +onlyGivenNames v; subst v) | with_reducible refine Apart.ite ?_ ?_ | split | dsimp -zeta only

theorem showWadis_apart {bk : Blocks} (hrte : bk.rte = true) (hswc : bk.swc = true) {z : State} {old : State} {s : State} (kz : Apart bk z s) : Apart bk z (showWadis old s) := by
  unfold showWadis
  repeat' first
    | with_reducible assumption | with_reducible apply showWadi_apart | with_reducible refine Apart.foldl _ _ ?_ (fun _ _ _ => ?_)

theorem settle_apart {bk : Blocks} (hopt : bk.opt = true) (hrte : bk.rte = true) (hswc : bk.swc = true) {z : State} {old : State} {s : State} (kz : Apart bk z s) : Apart bk z (settle old s) := by
  unfold settle
  repeat' first
    | with_reducible assumption | with_reducible apply showWadis_apart | with_reducible apply expressLost_apart
    | with_reducible apply refreshReady_apart

theorem handshakeMsg_apart {bk : Blocks} (hfree : bk.free = true) (hswc : bk.swc = true) {z : State} {s : State} {p : Nat} {typ : Nat} {reason : Nat} {body : List Sys2Proof.Byte} (kz : Apart bk z s) : Apart bk z (handshakeMsg s p typ reason body) := by
  unfold handshakeMsg
  repeat' first
    | with_reducible assumption | with_reducible apply linkMsg_apart | with_reducible refine Apart.foldl _ _ ?_ (fun _ _ _ => ?_)
    | (extract_lets +onlyGivenNames v; refine Apart.cut (bk := bk) (z := z) v ?_ (fun hv => ?_); subst v; rotate_left; first | clear_value v | subst v)
    | (extract_lets +onlyGivenNames v; first | clear_value v | subst v) | dsimp -zeta only

theorem execFwdUpdateGo_apart {bk : Blocks} (hfwd : bk.fwd = true) (hswc : bk.swc = true) {z : State} {v : Sys2Proof.Word} {s : State} (kz : Apart bk z s) : ApartNext bk z (execFwdUpdateGo v s) := by
  unfold execFwdUpdateGo
  repeat' first
    | with_reducible assumption | with_reducible refine Apart.next ?_ | with_reducible apply setUpdResult_apart
    | with_reducible apply heldRefuse_apart | with_reducible apply relayRec_apart | with_reducible apply applyRecord_apart
    | (extract_lets +onlyGivenNames v; refine Apart.cut (bk := bk) (z := z) v ?_ (fun hv => ?_); subst v; rotate_left; clear_value v)
    | (extract_lets +onlyGivenNames v; refine Apart.cut (bk := bk) (z := z) v.1 ?_ (fun hv => ?_); subst v; rotate_left; clear_value v)
    | (extract_lets +onlyGivenNames v; first | clear_value v | subst v) | with_reducible refine Apart.ite ?_ ?_

theorem execReplicaApply_apart {bk : Blocks} (hfwd : bk.fwd = true) (hopt : bk.opt = true) (hrot : bk.rot = true) (hrte : bk.rte = true) (hswc : bk.swc = true) {z : State} {d : Fin 8} {s : State} (kz : Apart bk z s) : ApartNext bk z (execReplicaApply d s) := by
  unfold execReplicaApply
  repeat' first
    | with_reducible assumption | with_reducible refine Apart.next ?_ | with_reducible apply checkLoaded_apart
    | with_reducible apply settle_apart | with_reducible apply applyChange_apart | with_reducible apply showSections_apart
    | with_reducible apply fwdEvent_apart | simp -zeta only [apart_upd, apart_fwd hfwd, apart_opt hopt, apart_rot hrot, apart_rte hrte, apart_swc hswc]
    | (extract_lets +onlyGivenNames v; refine Apart.cut (bk := bk) (z := z) v ?_ (fun hv => ?_); subst v; rotate_left; first | clear_value v | subst v)
    | (extract_lets +onlyGivenNames v; first | clear_value v | subst v) | with_reducible refine Apart.ite ?_ ?_ | split
    | dsimp -zeta only

theorem learnOne_apart {bk : Blocks} (hfwd : bk.fwd = true) (hswc : bk.swc = true) {z : State} {port : Nat} {s : State} {r : Sys2Proof.TblRec} (kz : Apart bk z s) : Apart bk z (learnOne port s r) := by
  unfold learnOne
  repeat' first
    | with_reducible assumption | with_reducible apply forgetKey_apart | with_reducible apply answered_apart
    | with_reducible apply learnDrop_apart | with_reducible apply relayRec_apart | with_reducible apply applyRecord_apart
    | (extract_lets +onlyGivenNames v; refine Apart.cut (bk := bk) (z := z) v ?_ (fun hv => ?_); subst v; rotate_left; clear_value v)
    | (extract_lets +onlyGivenNames v; refine Apart.cut (bk := bk) (z := z) v.1 ?_ (fun hv => ?_); subst v; rotate_left; clear_value v)
    | (extract_lets +onlyGivenNames v; first | clear_value v | subst v) | with_reducible refine Apart.ite ?_ ?_

theorem execLearningMessage_apart {bk : Blocks} (hfwd : bk.fwd = true) (hswc : bk.swc = true) {z : State} {port : Fin 4096} {c : Sys2Proof.Cfh} {payload : List Sys2Proof.Byte} {s : State} (kz : Apart bk z s) : ApartNext bk z (execLearningMessage port c payload s) := by
  unfold execLearningMessage
  repeat' first
    | with_reducible assumption | with_reducible refine Apart.next ?_ | with_reducible apply learnOne_apart
    | with_reducible apply bump64_apart | with_reducible refine Apart.foldl _ _ ?_ (fun _ _ _ => ?_)
    | (extract_lets +onlyGivenNames v; first | clear_value v | subst v) | with_reducible refine Apart.ite ?_ ?_

theorem startRefresh_apart {bk : Blocks} (hfwd : bk.fwd = true) (hswc : bk.swc = true) {z : State} {s : State} {m : Mark} (kz : Apart bk z s) : Apart bk z (startRefresh s m) := by
  unfold startRefresh
  repeat' first
    | with_reducible assumption | with_reducible apply relayRec_apart | with_reducible refine Apart.foldl _ _ ?_ (fun _ _ _ => ?_)
    | simp -zeta only [apart_upd, apart_fwd hfwd, apart_swc hswc]

theorem execTableRebuild_apart {bk : Blocks} (hfwd : bk.fwd = true) (hswc : bk.swc = true) {z : State} {d : Fin 8} {shadowBad : Bool} {s : State} (kz : Apart bk z s) : ApartNext bk z (execTableRebuild d shadowBad s) := by
  unfold execTableRebuild
  repeat' first
    | with_reducible assumption | with_reducible refine Apart.next ?_ | with_reducible apply startRefresh_apart
    | with_reducible apply rebuild_apart | with_reducible refine Apart.ite ?_ ?_ | split

theorem execThrottleUpdate_apart {bk : Blocks} (hrte : bk.rte = true) (hswc : bk.swc = true) {z : State} {s : State} (kz : Apart bk z s) : ApartNext bk z (execThrottleUpdate s) := by
  unfold execThrottleUpdate
  repeat' first
    | with_reducible assumption | with_reducible refine Apart.next ?_ | with_reducible apply updateRate_apart
    | with_reducible apply sendOwn_apart | with_reducible refine Apart.foldl _ _ ?_ (fun _ _ _ => ?_) | simp -zeta only [apart_upd, apart_rte hrte, apart_swc hswc]
    | (extract_lets +onlyGivenNames v; refine Apart.cut (bk := bk) (z := z) v ?_ (fun hv => ?_); subst v; rotate_left; first | clear_value v | subst v)
    | (extract_lets +onlyGivenNames v; first | clear_value v | subst v) | with_reducible refine Apart.ite ?_ ?_ | split
    | dsimp -zeta only

theorem execRefQualify_apart {bk : Blocks} (hfree : bk.free = true) (htim : bk.tim = true) {z : State} {s : State} (kz : Apart bk z s) : ApartNext bk z (execRefQualify s) := by
  unfold execRefQualify
  repeat' first
    | with_reducible assumption | with_reducible refine Apart.next ?_ | with_reducible apply growBound_apart
    | with_reducible apply wf_apart | with_reducible apply tickFree_apart | simp -zeta only [apart_upd, apart_free hfree, apart_tim htim]
    | (extract_lets +onlyGivenNames v; refine Apart.cut (bk := bk) (z := z) v ?_ (fun hv => ?_); subst v; rotate_left; first | clear_value v | subst v)
    | (extract_lets +onlyGivenNames v; first | clear_value v | subst v) | with_reducible refine Apart.ite ?_ ?_ | split
    | dsimp -zeta only

theorem refusePeer_apart {bk : Blocks} (hfree : bk.free = true) (hsec : bk.sec = true) (hswc : bk.swc = true) {z : State} {s : State} {p : Nat} {r : Nat} (kz : Apart bk z s) : Apart bk z (refusePeer s p r) := by
  unfold refusePeer
  repeat' first
    | with_reducible assumption | with_reducible apply linkRefuse_apart | with_reducible apply handshakeMsg_apart

theorem execHello_apart {bk : Blocks} (hfree : bk.free = true) (hsec : bk.sec = true) (hswc : bk.swc = true) {z : State} {port : Fin 4096} {m : Sys2Proof.HelloMsg} {s : State} (kz : Apart bk z s) : ApartNext bk z (execHello port m s) := by
  unfold execHello
  repeat' first
    | with_reducible assumption | with_reducible refine Apart.next ?_ | with_reducible apply refusePeer_apart
    | with_reducible apply setLink_apart | with_reducible apply handshakeMsg_apart | simp -zeta only [apart_upd, apart_free hfree, apart_sec hsec, apart_swc hswc]
    | (extract_lets +onlyGivenNames v; refine Apart.cut (bk := bk) (z := z) v ?_ (fun hv => ?_); subst v; rotate_left; clear_value v)
    | (extract_lets +onlyGivenNames v; first | clear_value v | subst v) | with_reducible refine Apart.ite ?_ ?_

theorem execHandshakeTimeout_apart {bk : Blocks} (hfree : bk.free = true) (hsec : bk.sec = true) (hswc : bk.swc = true) {z : State} {port : Fin 4096} {s : State} (kz : Apart bk z s) : ApartNext bk z (execHandshakeTimeout port s) := by
  unfold execHandshakeTimeout
  repeat' first
    | with_reducible assumption | with_reducible refine Apart.next ?_ | with_reducible apply refusePeer_apart
    | with_reducible refine Apart.ite ?_ ?_

end Sys2Proof.Machine
end

