-- ==== Sys2Proof/Laws/Keeps.lean ====
section
/-! SUPPORT. What every operation of the machine keeps, and the rules by which a composition of operations keeps it. -/
namespace Sys2Proof.Machine

/-- What every operation of the machine keeps, seen from the state `z` before it: the canonical form of registers and memories, the
queue of waiting commands, the fuses that no command blows, what has left the module, and the index of free values, which does not
go back. -/
structure Keeps (z s : State) : Prop where
  canon : State.wf z = true → State.wf s = true
  queue : s.pending = z.pending
  fresh : z.free ≤ s.free
  fuses : s.otp.serial = z.otp.serial ∧ s.otp.variant = z.otp.variant ∧ s.otp.macs = z.otp.macs ∧ s.otp.vendorKey = z.otp.vendorKey
    ∧ s.otp.cert = z.otp.cert
  sent : z.outbox <+: s.outbox

theorem Keeps.refl (s : State) : Keeps s s := ⟨id, rfl, Nat.le_refl _, ⟨rfl, rfl, rfl, rfl, rfl⟩, List.prefix_refl _⟩

theorem Keeps.trans {z s t : State} (h : Keeps z s) (k : Keeps s t) : Keeps z t :=
  ⟨fun w => k.canon (h.canon w), k.queue.trans h.queue, Nat.le_trans h.fresh k.fresh,
   ⟨k.fuses.1.trans h.fuses.1, k.fuses.2.1.trans h.fuses.2.1, k.fuses.2.2.1.trans h.fuses.2.2.1,
    k.fuses.2.2.2.1.trans h.fuses.2.2.2.1, k.fuses.2.2.2.2.trans h.fuses.2.2.2.2⟩,
   h.sent.trans k.sent⟩

/-- A new state with the same registers, memories, queue, index of free values, fuses and output keeps them. -/
theorem keeps_upd (z s : State) (clock : Nat) (plat pins img rot hif swc fwd rte tim sch sec brc col opt chk mgt) :
    Keeps z { regs := s.regs, oasis := s.oasis, hostMem := s.hostMem, clock := clock, free := s.free, plat := plat, otp := s.otp,
              pins := pins, img := img, rot := rot, hif := hif, swc := swc, fwd := fwd, rte := rte, tim := tim, sch := sch, sec := sec,
              brc := brc, col := col, opt := opt, chk := chk, mgt := mgt, outbox := s.outbox, pending := s.pending } = Keeps z s :=
  propext ⟨fun h => ⟨h.canon, h.queue, h.fresh, h.fuses, h.sent⟩, fun h => ⟨h.canon, h.queue, h.fresh, h.fuses, h.sent⟩⟩

/-- The same with a later index of free values. -/
theorem Keeps.free {z s : State} {clock m n : Nat} {plat pins img rot hif swc fwd rte tim sch sec brc col opt chk mgt} (h : Keeps z s)
    (e : z.free ≤ m) :
    Keeps z { regs := s.regs, oasis := s.oasis, hostMem := s.hostMem, clock := clock, free := m + n, plat := plat, otp := s.otp,
              pins := pins, img := img, rot := rot, hif := hif, swc := swc, fwd := fwd, rte := rte, tim := tim, sch := sch, sec := sec,
              brc := brc, col := col, opt := opt, chk := chk, mgt := mgt, outbox := s.outbox, pending := s.pending } :=
  ⟨h.canon, h.queue, Nat.le_add_right_of_le e, h.fuses, h.sent⟩

/-- The same with other fuses: of lanes, of spares, of the owner. -/
theorem Keeps.otp {z s : State} {clock : Nat} {otp plat pins img rot hif swc fwd rte tim sch sec brc col opt chk mgt} (h : Keeps z s)
    (e : otp.serial = s.otp.serial ∧ otp.variant = s.otp.variant ∧ otp.macs = s.otp.macs ∧ otp.vendorKey = s.otp.vendorKey
      ∧ otp.cert = s.otp.cert) :
    Keeps z { regs := s.regs, oasis := s.oasis, hostMem := s.hostMem, clock := clock, free := s.free, plat := plat, otp := otp,
              pins := pins, img := img, rot := rot, hif := hif, swc := swc, fwd := fwd, rte := rte, tim := tim, sch := sch, sec := sec,
              brc := brc, col := col, opt := opt, chk := chk, mgt := mgt, outbox := s.outbox, pending := s.pending } :=
  ⟨h.canon, h.queue, h.fresh, ⟨e.1.trans h.fuses.1, e.2.1.trans h.fuses.2.1, e.2.2.1.trans h.fuses.2.2.1,
    e.2.2.2.1.trans h.fuses.2.2.2.1, e.2.2.2.2.trans h.fuses.2.2.2.2⟩, h.sent⟩

/-- A state whose registers and Oasis stay canonical, with the same host memory, queue, index of free values, fuses and output. -/
theorem Keeps.of {z s t : State} (h : Keeps z s) (regs : SMap.wf regReset s.regs = true → SMap.wf regReset t.regs = true)
    (oasis : SMap.wf memDefault s.oasis = true → SMap.wf memDefault t.oasis = true) (host : t.hostMem = s.hostMem)
    (queue : t.pending = s.pending) (fresh : t.free = s.free) (otp : t.otp = s.otp) (sent : t.outbox = s.outbox) : Keeps z t := by
  refine ⟨fun w => ?_, queue.trans h.queue, fresh ▸ h.fresh, otp ▸ h.fuses, sent ▸ h.sent⟩
  have k := h.canon w
  simp only [State.wf, Bool.and_eq_true] at k ⊢
  exact ⟨⟨regs k.1.1, oasis k.1.2⟩, host ▸ k.2⟩

/-- An intermediate state. -/
theorem Keeps.cut {z : State} (v : State) {p : Prop} (h : Keeps z v) (k : Keeps z v → p) : p := k h

theorem Keeps.foldl {α : Type} {z s : State} (l : List α) (f : State → α → State) (h : Keeps z s)
    (hf : ∀ t x, Keeps z t → Keeps z (f t x)) : Keeps z (l.foldl f s) := by
  induction l generalizing s with
  | nil => exact h
  | cons x l ih => exact ih (hf s x h)

/-- The same with a second value beside the state. -/
theorem Keeps.foldlFst {α β : Type} {z : State} {p : State × β} (l : List α) (f : State × β → α → State × β) (h : Keeps z p.1)
    (hf : ∀ q x, Keeps z q.1 → Keeps z (f q x).1) : Keeps z (l.foldl f p).1 := by
  induction l generalizing p with
  | nil => exact h
  | cons x l ih => exact ih (hf p x h)

theorem Keeps.fst {β : Type} {z s : State} {p : State × β} {b : β} (e : p = (s, b)) (h : Keeps z p.1) : Keeps z s := by
  subst e
  exact h

theorem Keeps.ite {z a b : State} {c : Prop} [Decidable c] (h : Keeps z a) (k : Keeps z b) : Keeps z (if c then a else b) := by
  split
  · exact h
  · exact k

/-- An outcome keeps what its next state keeps. -/
structure KeepsNext (z : State) (o : Host.Outcome State Fault Refusal) : Prop where
  out : ∀ t, o = .next t → Keeps z t

theorem Keeps.next {z s : State} (h : Keeps z s) : KeepsNext z (.next s) := by
  refine ⟨fun t e => ?_⟩
  injection e with e
  exact e ▸ h

/-- The same where there may be no next state. -/
def KeepsSome (z : State) (o : Option State) : Prop := ∀ t, o = some t → Keeps z t

theorem Keeps.none {z : State} : KeepsSome z none := by
  intro t e
  cases e

theorem Keeps.some {z s : State} (h : Keeps z s) : KeepsSome z (some s) := by
  intro t e
  injection e with e
  exact e ▸ h

theorem wr_keeps {z s : State} {a : Nat} {v : Word} (h : Keeps z s) : Keeps z (wr s a v) := by
  refine ⟨fun w => ?_, h.queue, h.fresh, h.fuses, h.sent⟩
  have k := h.canon w
  simp only [State.wf, Bool.and_eq_true] at k ⊢
  exact ⟨⟨SMap.wf_put _ _ _ _ k.1.1, k.1.2⟩, k.2⟩

theorem oasisSet_keeps {z s : State} {p o : Nat} {b : Byte} (h : Keeps z s) : Keeps z (oasisSet s p o b) := by
  refine ⟨fun w => ?_, h.queue, h.fresh, h.fuses, h.sent⟩
  have k := h.canon w
  simp only [State.wf, Bool.and_eq_true] at k ⊢
  exact ⟨⟨k.1.1, SMap.wf_put _ _ _ _ k.1.2⟩, k.2⟩

theorem oasisWrite_keeps {z s : State} {p o : Nat} {l : List Byte} (h : Keeps z s) : Keeps z (oasisWrite s p o l) := by
  induction l generalizing s o with
  | nil => exact h
  | cons b l ih => exact ih (oasisSet_keeps h)

theorem hostWrite_keeps {z s : State} {a : Nat} {l : List Byte} (h : Keeps z s) : Keeps z (hostWrite s a l) := by
  induction l generalizing s a with
  | nil => exact h
  | cons b l ih =>
    refine ih ⟨fun w => ?_, h.queue, h.fresh, h.fuses, h.sent⟩
    have k := h.canon w
    simp only [State.wf, Bool.and_eq_true] at k ⊢
    exact ⟨k.1, SMap.wf_put _ _ _ _ k.2⟩

end Sys2Proof.Machine
end

