-- ==== Sys2Proof/Laws/KeepsOps.lean ====
section
/-! SUPPORT. Every operation of Sys2Proof.Machine.Ops keeps what Keeps says. -/
namespace Sys2Proof.Machine

theorem wf_keeps {z : State} {s : State} {a : Nat} {f : BitRange} {n : Nat} (kz : Keeps z s) : Keeps z (wf s a f n) := by
  unfold wf
  repeat' first
    | with_reducible assumption | with_reducible apply wr_keeps

theorem wfs_keeps {z : State} {s : State} {a : Nat} {l : List (BitRange × Nat)} (kz : Keeps z s) : Keeps z (wfs s a l) := by
  unfold wfs
  repeat' first
    | with_reducible assumption | with_reducible apply wr_keeps

theorem wn_keeps {z : State} {s : State} {a : Nat} {n : Nat} (kz : Keeps z s) : Keeps z (wn s a n) := by
  unfold wn
  repeat' first
    | with_reducible assumption | with_reducible apply wr_keeps

theorem wn64_keeps {z : State} {s : State} {a : Nat} {n : Nat} (kz : Keeps z s) : Keeps z (wn64 s a n) := by
  unfold wn64
  repeat' first
    | with_reducible assumption | with_reducible apply wn_keeps

theorem wnHL_keeps {z : State} {s : State} {a : Nat} {n : Nat} (kz : Keeps z s) : Keeps z (wnHL s a n) := by
  unfold wnHL
  repeat' first
    | with_reducible assumption | with_reducible apply wn_keeps

theorem bump64_keeps {z : State} {s : State} {a : Nat} {n : Nat} (kz : Keeps z s) : Keeps z (bump64 s a n) := by
  unfold bump64
  repeat' first
    | with_reducible assumption | with_reducible apply wn64_keeps

theorem bump32_keeps {z : State} {s : State} {a : Nat} {n : Nat} (kz : Keeps z s) : Keeps z (bump32 s a n) := by
  unfold bump32
  repeat' first
    | with_reducible assumption | with_reducible apply wn_keeps

theorem setMapBit_keeps {z : State} {s : State} {a : Nat} {i : Nat} {b : Bool} (kz : Keeps z s) : Keeps z (setMapBit s a i b) := by
  unfold setMapBit
  repeat' first
    | with_reducible assumption | with_reducible apply wn_keeps

theorem softWrite_keeps {z s : State} {a : Nat} {v : Word} (h : Keeps z s) : Keeps z (softWrite s a v) := by
  rw [softWrite]
  cases regRow (regHome a) with
  | none => exact h
  | some x => exact wr_keeps h

theorem tickFree_keeps {z s : State} (h : Keeps z s) : Keeps z (tickFree s) :=
  ⟨h.canon, h.queue, Nat.le_succ_of_le h.fresh, h.fuses, h.sent⟩

theorem emit_keeps {z s : State} {o : Out} (h : Keeps z s) : Keeps z (emit s o) :=
  ⟨h.canon, h.queue, h.fresh, h.fuses, h.sent.trans (List.prefix_append _ _)⟩

theorem signal_keeps {z : State} {s : State} {v : Nat} (kz : Keeps z s) : Keeps z (signal s v) := by
  unfold signal
  repeat' first
    | with_reducible assumption | with_reducible apply setMapBit_keeps | with_reducible apply emit_keeps
    | with_reducible refine Keeps.ite ?_ ?_

theorem hifErr_keeps {z : State} {s : State} {f : BitRange} (kz : Keeps z s) : Keeps z (hifErr s f) := by
  unfold hifErr
  repeat' first
    | with_reducible assumption | with_reducible apply signal_keeps | with_reducible apply wf_keeps

end Sys2Proof.Machine
end

