-- ==== Sys2Proof/Laws/KeepsTick.lean ====
section
/-! SUPPORT. Every operation of Sys2Proof.Machine.Tick keeps what Keeps says. -/
namespace Sys2Proof.Machine

theorem clockTick_keeps {z : State} {s : State} (kz : Keeps z s) : Keeps z (clockTick s) := by
  unfold clockTick
  repeat' first
    | with_reducible assumption | simp -zeta only [keeps_upd]
    | (extract_lets +onlyGivenNames v; refine Keeps.cut (z := z) v ?_ (fun hv => ?_); subst v; rotate_left; first | clear_value v | subst v)
    | (extract_lets +onlyGivenNames v; first | clear_value v | subst v) | with_reducible refine Keeps.ite ?_ ?_ | split
    | dsimp -zeta only

end Sys2Proof.Machine
end

