-- ==== Sys2Proof/Laws/KeepsEvents.lean ====
section
/-! SUPPORT. Every operation of Sys2Proof.Machine.Events keeps what Keeps says. -/
namespace Sys2Proof.Machine

theorem setCnq_keeps {z : State} {s : State} {d : Nat} {n : Nat} {q : Cnq} (kz : Keeps z s) : Keeps z (setCnq s d n q) := by
  unfold setCnq
  repeat' first
    | with_reducible assumption | simp -zeta only [keeps_upd]

theorem cnqSignal_keeps {z : State} {s : State} {d : Nat} {n : Nat} (kz : Keeps z s) : Keeps z (cnqSignal s d n) := by
  unfold cnqSignal
  repeat' first
    | with_reducible assumption | with_reducible apply signal_keeps | with_reducible refine Keeps.ite ?_ ?_

theorem cnqNotice_keeps {z : State} {s : State} {d : Nat} {n : Nat} {f : BitRange} (kz : Keeps z s) : Keeps z (cnqNotice s d n f) := by
  unfold cnqNotice
  repeat' first
    | with_reducible assumption | with_reducible apply cnqSignal_keeps | with_reducible apply wf_keeps

theorem cnqGrew_keeps {z : State} {s : State} {d : Nat} {n : Nat} {old : Nat} (kz : Keeps z s) : Keeps z (cnqGrew s d n old) := by
  unfold cnqGrew
  repeat' first
    | with_reducible assumption | with_reducible apply setCnq_keeps | with_reducible apply cnqNotice_keeps
    | simp -zeta only [keeps_upd]
    | (extract_lets +onlyGivenNames v; refine Keeps.cut (z := z) v ?_ (fun hv => ?_); subst v; rotate_left; clear_value v)
    | (extract_lets +onlyGivenNames v; clear_value v) | with_reducible refine Keeps.ite ?_ ?_

theorem fifoStart_keeps {z : State} {s : State} {d : Nat} {n : Nat} {p : FifoPkt} {at_ : Bool × Nat} (kz : Keeps z s) : Keeps z (fifoStart s d n p at_) := by
  unfold fifoStart
  repeat' first
    | with_reducible assumption | with_reducible apply cnqGrew_keeps | with_reducible apply setCnq_keeps
    | with_reducible apply hostWrite_keeps | with_reducible apply wn_keeps | simp -zeta only [keeps_upd]
    | (extract_lets +onlyGivenNames v; refine Keeps.cut (z := z) v ?_ (fun hv => ?_); subst v; rotate_left; clear_value v)
    | (extract_lets +onlyGivenNames v; clear_value v) | with_reducible refine Keeps.ite ?_ ?_

theorem fifoDrop_keeps {z : State} {s : State} {d : Nat} {n : Nat} (kz : Keeps z s) : Keeps z (fifoDrop s d n) := by
  unfold fifoDrop
  repeat' first
    | with_reducible assumption | with_reducible apply setCnq_keeps | with_reducible apply cnqNotice_keeps
    | with_reducible apply bump32_keeps

theorem fifoReject_keeps {z : State} {s : State} {d : Nat} {n : Nat} (kz : Keeps z s) : Keeps z (fifoReject s d n) := by
  unfold fifoReject
  repeat' first
    | with_reducible assumption | with_reducible apply wf_keeps | with_reducible apply bump32_keeps

theorem fifoPut_keeps {z : State} {s : State} {d : Nat} {n : Nat} {p : FifoPkt} (kz : Keeps z s) : Keeps z (fifoPut s d n p).1 := by
  unfold fifoPut
  repeat' first
    | with_reducible assumption | with_reducible apply fifoReject_keeps | with_reducible apply fifoDrop_keeps
    | with_reducible apply fifoStart_keeps | with_reducible apply setCnq_keeps | simp -zeta only [keeps_upd]
    | (extract_lets +onlyGivenNames v; clear_value v) | with_reducible refine Keeps.ite ?_ ?_ | split

theorem mirrorPut_keeps {z : State} {s : State} {d : Nat} {n : Nat} {p : FifoPkt} (kz : Keeps z s) : Keeps z (mirrorPut s d n p).1 := by
  unfold mirrorPut
  repeat' first
    | with_reducible assumption | with_reducible apply fifoReject_keeps | with_reducible apply fifoStart_keeps
    | with_reducible apply fifoDrop_keeps | with_reducible refine Keeps.ite ?_ ?_ | split

theorem startStaged_keeps {z : State} {d n : Nat} {l : List FifoPkt} {s : State} (h : Keeps z s) : Keeps z (startStaged d n l s) := by
  induction l generalizing s with
  | nil => exact setCnq_keeps h
  | cons p ps ih =>
    unfold startStaged
    split
    · exact ih (fifoStart_keeps h)
    · exact setCnq_keeps h

theorem drainStaged_keeps {z : State} {s : State} {d : Nat} {n : Nat} (kz : Keeps z s) : Keeps z (drainStaged s d n) := by
  unfold drainStaged
  repeat' first
    | with_reducible assumption | with_reducible apply startStaged_keeps | with_reducible apply setCnq_keeps
    | with_reducible apply cnqNotice_keeps | with_reducible apply wf_keeps | simp -zeta only [keeps_upd]
    | (extract_lets +onlyGivenNames v; refine Keeps.cut (z := z) v ?_ (fun hv => ?_); subst v; rotate_left; clear_value v)
    | (extract_lets +onlyGivenNames v; clear_value v) | with_reducible refine Keeps.ite ?_ ?_

theorem raise_keeps {z : State} {s : State} {evt : Nat} {f : BitRange} {en : Bool} {d : Nat} {n : Nat} {typ : Nat} {payload : List Sys2Proof.Byte} (kz : Keeps z s) : Keeps z (raise s evt f en d n typ payload) := by
  unfold raise
  repeat' first
    | with_reducible assumption | with_reducible apply fifoPut_keeps | with_reducible apply wf_keeps
    | (extract_lets +onlyGivenNames v; refine Keeps.cut (z := z) v ?_ (fun hv => ?_); subst v; rotate_left; clear_value v)
    | (extract_lets +onlyGivenNames v; first | clear_value v | subst v) | with_reducible refine Keeps.ite ?_ ?_

theorem swcEvent_keeps {z : State} {s : State} {d : Nat} {f : BitRange} {part : Nat} {queue : Nat} (kz : Keeps z s) : Keeps z (swcEvent s d f part queue) := by
  unfold swcEvent
  repeat' first
    | with_reducible assumption | with_reducible apply raise_keeps

theorem fwdEvent_keeps {z : State} {s : State} {d : Nat} {f : BitRange} {table : Nat} {word : Nat} (kz : Keeps z s) : Keeps z (fwdEvent s d f table word) := by
  unfold fwdEvent
  repeat' first
    | with_reducible assumption | with_reducible apply raise_keeps

theorem rteEvent_keeps {z : State} {s : State} {f : BitRange} {dir : Nat} {port : Nat} (kz : Keeps z s) : Keeps z (rteEvent s f dir port) := by
  unfold rteEvent
  repeat' first
    | with_reducible assumption | with_reducible apply raise_keeps

theorem timEvent_keeps {z : State} {s : State} {f : BitRange} (kz : Keeps z s) : Keeps z (timEvent s f) := by
  unfold timEvent
  repeat' first
    | with_reducible assumption | with_reducible apply raise_keeps | with_reducible apply signal_keeps

theorem schEvent_keeps {z : State} {s : State} {d : Nat} {f : BitRange} {g : Nat} (kz : Keeps z s) : Keeps z (schEvent s d f g) := by
  unfold schEvent
  repeat' first
    | with_reducible assumption | with_reducible apply raise_keeps

theorem brcEvent_keeps {z : State} {s : State} {d : Nat} {f : BitRange} {body : List Sys2Proof.Byte} (kz : Keeps z s) : Keeps z (brcEvent s d f body) := by
  unfold brcEvent
  repeat' first
    | with_reducible assumption | with_reducible apply raise_keeps

theorem numEvent_keeps {z : State} {s : State} {f : BitRange} {body : List Sys2Proof.Byte} (kz : Keeps z s) : Keeps z (numEvent s f body) := by
  unfold numEvent
  repeat' first
    | with_reducible assumption | with_reducible apply raise_keeps

theorem colEvent_keeps {z : State} {s : State} {f : BitRange} {body : List Sys2Proof.Byte} (kz : Keeps z s) : Keeps z (colEvent s f body) := by
  unfold colEvent
  repeat' first
    | with_reducible assumption | with_reducible apply raise_keeps

theorem optEvent_keeps {z : State} {s : State} {t : Nat} {f : BitRange} {body : List Sys2Proof.Byte} (kz : Keeps z s) : Keeps z (optEvent s t f body) := by
  unfold optEvent
  repeat' first
    | with_reducible assumption | with_reducible apply raise_keeps | with_reducible apply signal_keeps

theorem chkEvent_keeps {z : State} {s : State} {d : Nat} {f : BitRange} {part : Nat} {obj : Nat} {step : Nat} (kz : Keeps z s) : Keeps z (chkEvent s d f part obj step) := by
  unfold chkEvent
  repeat' first
    | with_reducible assumption | with_reducible apply raise_keeps | with_reducible apply signal_keeps

theorem secEvent_keeps {z : State} {s : State} {f : BitRange} {body : List Sys2Proof.Byte} (kz : Keeps z s) : Keeps z (secEvent s f body) := by
  unfold secEvent
  repeat' first
    | with_reducible assumption | with_reducible apply raise_keeps | with_reducible apply signal_keeps

theorem mgtEvent_keeps {z : State} {s : State} {f : BitRange} {body : List Sys2Proof.Byte} (kz : Keeps z s) : Keeps z (mgtEvent s f body) := by
  unfold mgtEvent
  repeat' first
    | with_reducible assumption | with_reducible apply raise_keeps | with_reducible apply signal_keeps

theorem pwrEvent_keeps {z : State} {s : State} {f : BitRange} (kz : Keeps z s) : Keeps z (pwrEvent s f) := by
  unfold pwrEvent
  repeat' first
    | with_reducible assumption | with_reducible apply raise_keeps

theorem fsrShow_keeps {z : State} {s : State} (kz : Keeps z s) : Keeps z (fsrShow s) := by
  unfold fsrShow
  repeat' first
    | with_reducible assumption | with_reducible apply wn_keeps | with_reducible refine Keeps.foldl _ _ ?_ (fun _ _ _ => ?_)
    | (extract_lets +onlyGivenNames v; clear_value v) | split

theorem setMp_keeps {z : State} {s : State} {p : Nat} {x : MgmtPort} (kz : Keeps z s) : Keeps z (setMp s p x) := by
  unfold setMp
  repeat' first
    | with_reducible assumption | simp -zeta only [keeps_upd]

theorem mpSend_keeps {z : State} {s : State} {p : Nat} {v6 : Bool} {dst : Nat} {m : MgmtMsg} (kz : Keeps z s) : Keeps z (mpSend s p v6 dst m) := by
  unfold mpSend
  repeat' first
    | with_reducible assumption | with_reducible apply emit_keeps
    | (extract_lets +onlyGivenNames v; refine Keeps.cut (z := z) v ?_ (fun hv => ?_); subst v; rotate_left; first | clear_value v | subst v)
    | (extract_lets +onlyGivenNames v; first | clear_value v | subst v) | with_reducible refine Keeps.ite ?_ ?_ | split
    | dsimp -zeta only

theorem fsrExport_keeps {z : State} {s : State} {r : Fsr} (kz : Keeps z s) : Keeps z (fsrExport s r) := by
  unfold fsrExport
  repeat' first
    | with_reducible assumption | with_reducible apply mpSend_keeps | with_reducible apply bump32_keeps | simp -zeta only [keeps_upd]
    | (extract_lets +onlyGivenNames v; refine Keeps.cut (z := z) v ?_ (fun hv => ?_); subst v; rotate_left; clear_value v)
    | (extract_lets +onlyGivenNames v; clear_value v) | with_reducible refine Keeps.ite ?_ ?_

theorem fsrStore_keeps {z : State} {s : State} {typ : Nat} {path : List Nat} {loc : List (Nat × Nat)} {counts : List (Nat × Nat)} {part : Nat} {coll : List (Nat × Nat)} {detail : List (Nat × Nat)} (kz : Keeps z s) : Keeps z (fsrStore s typ path loc counts part coll detail) := by
  unfold fsrStore
  repeat' first
    | with_reducible assumption | with_reducible apply fsrShow_keeps | with_reducible apply fsrExport_keeps
    | with_reducible apply wfs_keeps | with_reducible apply wn_keeps | with_reducible apply wf_keeps
    | with_reducible apply signal_keeps | simp -zeta only [keeps_upd]
    | (extract_lets +onlyGivenNames v; first | clear_value v | subst v) | with_reducible refine Keeps.ite ?_ ?_ | split
    | with_reducible refine Keeps.free ?_ kz.fresh

end Sys2Proof.Machine
end

