-- ==== Sys2Proof/Laws/KeepsComplete.lean ====
section
/-! SUPPORT. Every operation of Sys2Proof.Machine.Complete keeps what Keeps says. -/
namespace Sys2Proof.Machine

theorem setCq_keeps {z : State} {s : State} {d : Nat} {q : Nat} {c : Cq} (kz : Keeps z s) : Keeps z (setCq s d q c) := by
  unfold setCq
  repeat' first
    | with_reducible assumption | with_reducible apply wf_keeps | simp -zeta only [keeps_upd]

theorem latchCq_keeps {z : State} {s : State} {d : Nat} {q : Nat} (kz : Keeps z s) : Keeps z (latchCq s d q) := by
  unfold latchCq
  repeat' first
    | with_reducible assumption | with_reducible apply setCq_keeps | simp -zeta only [keeps_upd]

theorem showCqErrors_keeps {z : State} {s : State} (kz : Keeps z s) : Keeps z (showCqErrors s) := by
  unfold showCqErrors
  repeat' first
    | with_reducible assumption | with_reducible apply wf_keeps

theorem setCqState_keeps {z : State} {s : State} {d : Nat} {q : Nat} {st : Nat} (kz : Keeps z s) : Keeps z (setCqState s d q st) := by
  unfold setCqState
  repeat' first
    | with_reducible assumption | with_reducible apply showCqErrors_keeps | with_reducible apply wf_keeps

theorem cqError_keeps {z : State} {s : State} {d : Nat} {q : Nat} {cause : Nat} (kz : Keeps z s) : Keeps z (cqError s d q cause) := by
  unfold cqError
  repeat' first
    | with_reducible assumption | with_reducible apply setCq_keeps | with_reducible apply setCqState_keeps
    | with_reducible apply hifErr_keeps | with_reducible apply wf_keeps
    | (extract_lets +onlyGivenNames v; first | clear_value v | subst v) | with_reducible refine Keeps.ite ?_ ?_

theorem cqOffer_keeps {z : State} {s : State} {d : Nat} {q : Nat} {descs : List Nat} (kz : Keeps z s) : Keeps z (cqOffer s d q descs) := by
  unfold cqOffer
  repeat' first
    | with_reducible assumption | with_reducible apply setCq_keeps | with_reducible apply cqError_keeps
    | with_reducible apply bump32_keeps
    | (extract_lets +onlyGivenNames v; first | clear_value v | subst v) | with_reducible refine Keeps.ite ?_ ?_

theorem addCounter_keeps {z : State} {s : State} {d : Nat} {i : Nat} {n : Nat} (kz : Keeps z s) : Keeps z (addCounter s d i n) := by
  unfold addCounter
  repeat' first
    | with_reducible assumption | with_reducible apply wf_keeps

theorem writeRecord_keeps {z : State} {s : State} {d : Nat} {q : Nat} {x : Slot} (kz : Keeps z s) : Keeps z (writeRecord s d q x) := by
  unfold writeRecord
  repeat' first
    | with_reducible assumption | with_reducible apply cnqGrew_keeps | with_reducible apply setCnq_keeps
    | with_reducible apply cnqSignal_keeps | with_reducible apply hostWrite_keeps | with_reducible apply wn_keeps
    | simp -zeta only [keeps_upd]
    | (extract_lets +onlyGivenNames v; refine Keeps.cut (z := z) v ?_ (fun hv => ?_); subst v; rotate_left; clear_value v)
    | (extract_lets +onlyGivenNames v; clear_value v) | with_reducible refine Keeps.ite ?_ ?_

theorem signalCounter_keeps {z : State} {s : State} {d : Nat} {x : Slot} (kz : Keeps z s) : Keeps z (signalCounter s d x) := by
  unfold signalCounter
  repeat' first
    | with_reducible assumption | with_reducible apply addCounter_keeps | with_reducible refine Keeps.ite ?_ ?_

theorem claim_keeps {z : State} {s : State} {d : Nat} {q : Nat} {no : Nat} {status : Nat} (kz : Keeps z s) : Keeps z (claim s d q no status) := by
  unfold claim
  repeat' first
    | with_reducible assumption | with_reducible apply setCq_keeps | with_reducible apply signalCounter_keeps
    | with_reducible apply writeRecord_keeps | simp -zeta only [keeps_upd]
    | (extract_lets +onlyGivenNames v; clear_value v) | split

theorem setResult_keeps {z : State} {s : State} {d : Nat} {q : Nat} {no : Nat} {digest : Nat} {esc : Nat} {sat : Nat} (kz : Keeps z s) : Keeps z (setResult s d q no digest esc sat) := by
  unfold setResult
  repeat' first
    | with_reducible assumption | with_reducible apply setCq_keeps

theorem modSlot_keeps {z : State} {s : State} {d : Nat} {q : Nat} {no : Nat} {f : Slot → Slot} (kz : Keeps z s) : Keeps z (modSlot s d q no f) := by
  unfold modSlot
  repeat' first
    | with_reducible assumption | with_reducible apply setCq_keeps

theorem releaseSlot_keeps {z : State} {s : State} {fq : Nat} {no : Nat} (kz : Keeps z s) : Keeps z (releaseSlot s fq no) := by
  unfold releaseSlot
  repeat' first
    | with_reducible assumption | with_reducible apply setCq_keeps | with_reducible apply setCqState_keeps
    | simp -zeta only [keeps_upd]
    | (extract_lets +onlyGivenNames v; refine Keeps.cut (z := z) v ?_ (fun hv => ?_); subst v; rotate_left; clear_value v)
    | (extract_lets +onlyGivenNames v; clear_value v) | with_reducible refine Keeps.ite ?_ ?_

theorem releaseAll_keeps {z : State} {y0 : List (Nat × Nat)} {y1 : State} (kz : Keeps z y1) : Keeps z (releaseAll y0 y1) := by
  induction y0 generalizing y1 with
  | nil =>
    unfold releaseAll
    repeat' first
      | with_reducible assumption
  | cons x l ih =>
    unfold releaseAll
    repeat' first
      | with_reducible assumption | with_reducible apply ih | with_reducible apply releaseSlot_keeps

theorem releaseRecords_keeps {z : State} {s : State} {d : Nat} {n : Nat} {k : Nat} (kz : Keeps z s) : Keeps z (releaseRecords s d n k) := by
  unfold releaseRecords
  repeat' first
    | with_reducible assumption | with_reducible apply releaseAll_keeps | with_reducible apply setCnq_keeps

theorem drainCq_keeps {z : State} {s : State} {d : Nat} {q : Nat} (kz : Keeps z s) : Keeps z (drainCq s d q) := by
  unfold drainCq
  repeat' first
    | with_reducible assumption | with_reducible apply setCqState_keeps
    | (extract_lets +onlyGivenNames v; refine Keeps.cut (z := z) v ?_ (fun hv => ?_); subst v; rotate_left; clear_value v)
    | (extract_lets +onlyGivenNames v; first | clear_value v | subst v) | with_reducible refine Keeps.ite ?_ ?_

theorem claimSlots_keeps {z : State} {d : Nat} {q : Nat} {status : Nat} {y3 : List Slot} {y4 : State} (kz : Keeps z y4) : Keeps z (claimSlots d q status y3 y4) := by
  induction y3 generalizing y4 with
  | nil =>
    unfold claimSlots
    repeat' first
      | with_reducible assumption
  | cons x l ih =>
    unfold claimSlots
    repeat' first
      | with_reducible assumption | with_reducible apply ih | with_reducible apply claim_keeps

theorem claimQueue_keeps {z : State} {s : State} {d : Nat} {q : Nat} {status : Nat} (kz : Keeps z s) : Keeps z (claimQueue s d q status) := by
  unfold claimQueue
  repeat' first
    | with_reducible assumption | with_reducible apply claimSlots_keeps

end Sys2Proof.Machine
end

