-- ==== Sys2Proof/Laws/KeepsImage.lean ====
section
/-! SUPPORT. Every operation of Sys2Proof.Machine.Image keeps what Keeps says. -/
namespace Sys2Proof.Machine

theorem setImgSt_keeps {z : State} {s : State} {n : Nat} (kz : Keeps z s) : Keeps z (setImgSt s n) := by
  unfold setImgSt
  repeat' first
    | with_reducible assumption | with_reducible apply signal_keeps | with_reducible apply wf_keeps
    | with_reducible refine Keeps.ite ?_ ?_

theorem imageFail_keeps {z : State} {s : State} {slot : Sys2Proof.ImgSlot} {code : Nat} {sect : Nat} {done : Nat} (kz : Keeps z s) : Keeps z (imageFail s slot code sect done) := by
  unfold imageFail
  repeat' first
    | with_reducible assumption | with_reducible apply setImgSt_keeps | with_reducible apply wfs_keeps | with_reducible apply wf_keeps
    | simp -zeta only [keeps_upd]
    | (extract_lets +onlyGivenNames v; refine Keeps.cut (z := z) v ?_ (fun hv => ?_); subst v; rotate_left; first | clear_value v | subst v)
    | (extract_lets +onlyGivenNames v; first | clear_value v | subst v) | with_reducible refine Keeps.ite ?_ ?_ | split
    | dsimp -zeta only

theorem showSections_keeps {z : State} {s : State} (kz : Keeps z s) : Keeps z (showSections s) := by
  unfold showSections
  repeat' first
    | with_reducible assumption | with_reducible apply wf_keeps
    | (extract_lets +onlyGivenNames v; refine Keeps.cut (z := z) v ?_ (fun hv => ?_); subst v; rotate_left; first | clear_value v | subst v)
    | (extract_lets +onlyGivenNames v; first | clear_value v | subst v) | with_reducible refine Keeps.ite ?_ ?_ | split
    | dsimp -zeta only

theorem sealNow_keeps {z : State} {s : State} (kz : Keeps z s) : Keeps z (sealNow s) := by
  unfold sealNow
  repeat' first
    | with_reducible assumption | with_reducible apply wfs_keeps | with_reducible apply wf_keeps | with_reducible apply wn_keeps
    | simp -zeta only [keeps_upd]
    | (extract_lets +onlyGivenNames v; refine Keeps.cut (z := z) v ?_ (fun hv => ?_); subst v; rotate_left; clear_value v)
    | (extract_lets +onlyGivenNames v; first | clear_value v | subst v) | with_reducible refine Keeps.ite ?_ ?_

end Sys2Proof.Machine
end

