-- ==== Sys2Proof/Laws/KeepsTables.lean ====
section
/-! SUPPORT. Every operation of Sys2Proof.Machine.Tables keeps what Keeps says. -/
namespace Sys2Proof.Machine

theorem setShadow_keeps {z : State} {s : State} {zz : Nat} {x : Shadow} (kz : Keeps z s) : Keeps z (setShadow s zz x) := by
  unfold setShadow
  repeat' first
    | with_reducible assumption | simp -zeta only [keeps_upd]

theorem showTables_keeps {z : State} {s : State} {d : Nat} (kz : Keeps z s) : Keeps z (showTables s d) := by
  unfold showTables
  repeat' first
    | with_reducible assumption | with_reducible apply wf_keeps

theorem unmark_keeps {z : State} {s : State} {d : Nat} {table : Nat} {word : Nat} (kz : Keeps z s) : Keeps z (unmark s d table word) := by
  unfold unmark
  repeat' first
    | with_reducible assumption | simp -zeta only [keeps_upd]

theorem unmarkAll_keeps {z : State} {d : Nat} {l : List SlotWrite} {s : State} (h : Keeps z s) : Keeps z (unmarkAll d l s) := by
  induction l generalizing s with
  | nil => exact h
  | cons x l ih => cases x <;> first | exact ih h | exact ih (unmark_keeps h)

theorem applyChange_keeps {z : State} {s : State} {d : Nat} {c : SeqChange} (kz : Keeps z s) : Keeps z (applyChange s d c) := by
  unfold applyChange
  repeat' first
    | with_reducible assumption | with_reducible apply showTables_keeps | with_reducible apply unmarkAll_keeps
    | with_reducible apply wf_keeps | with_reducible apply wn_keeps | with_reducible refine Keeps.foldl _ _ ?_ (fun _ _ _ => ?_)
    | simp -zeta only [keeps_upd]
    | (extract_lets +onlyGivenNames v; refine Keeps.cut (z := z) v ?_ (fun hv => ?_); subst v; rotate_left; first | clear_value v | subst v)
    | (extract_lets +onlyGivenNames v; first | clear_value v | subst v) | with_reducible refine Keeps.ite ?_ ?_ | split
    | dsimp -zeta only

theorem sequence_keeps {z : State} {s : State} {zz : Nat} {dunes : List Nat} {writes : List SlotWrite} {touchShadow : Bool} (kz : Keeps z s) : Keeps z (sequence s zz dunes writes touchShadow) := by
  unfold sequence
  repeat' first
    | with_reducible assumption | with_reducible refine Keeps.foldl _ _ ?_ (fun _ _ _ => ?_) | simp -zeta only [keeps_upd]
    | (extract_lets +onlyGivenNames v; refine Keeps.cut (z := z) v ?_ (fun hv => ?_); subst v; rotate_left; first | clear_value v | subst v)
    | (extract_lets +onlyGivenNames v; first | clear_value v | subst v) | with_reducible refine Keeps.ite ?_ ?_ | split
    | dsimp -zeta only

theorem change_keeps {z : State} {s : State} {part : Nat} {writes : List SlotWrite} (kz : Keeps z s) : Keeps z (change s part writes) := by
  unfold change
  repeat' first
    | with_reducible assumption | with_reducible apply sequence_keeps

theorem shadowLose_keeps {z : State} {s : State} {zz : Nat} (kz : Keeps z s) : Keeps z (shadowLose s zz) := by
  unfold shadowLose
  repeat' first
    | with_reducible assumption | with_reducible apply setShadow_keeps | with_reducible apply fwdEvent_keeps
    | with_reducible refine Keeps.foldl _ _ ?_ (fun _ _ _ => ?_) | simp -zeta only [keeps_upd]
    | (extract_lets +onlyGivenNames v; refine Keeps.cut (z := z) v ?_ (fun hv => ?_); subst v; rotate_left; first | clear_value v | subst v)
    | (extract_lets +onlyGivenNames v; first | clear_value v | subst v) | dsimp -zeta only

theorem shadowsLose_keeps {z : State} {s : State} {gone : Nat → Bool} (kz : Keeps z s) : Keeps z (shadowsLose s gone) := by
  unfold shadowsLose
  repeat' first
    | with_reducible assumption | with_reducible apply shadowLose_keeps | with_reducible refine Keeps.foldl _ _ ?_ (fun _ _ _ => ?_)

theorem placeShadow_keeps {z : State} {s : State} {zz : Nat} (kz : Keeps z s) : Keeps z (placeShadow s zz) := by
  unfold placeShadow
  repeat' first
    | with_reducible assumption | with_reducible apply setShadow_keeps | simp -zeta only [keeps_upd]
    | (extract_lets +onlyGivenNames v; refine Keeps.cut (z := z) v ?_ (fun hv => ?_); subst v; rotate_left; first | clear_value v | subst v)
    | (extract_lets +onlyGivenNames v; first | clear_value v | subst v) | with_reducible refine Keeps.ite ?_ ?_ | split
    | dsimp -zeta only

theorem placeShadows_keeps {z : State} {s : State} (kz : Keeps z s) : Keeps z (placeShadows s) := by
  unfold placeShadows
  repeat' first
    | with_reducible assumption | with_reducible apply placeShadow_keeps | with_reducible refine Keeps.foldl _ _ ?_ (fun _ _ _ => ?_)

theorem update_keeps {z : State} {s : State} {part : Nat} {writes : List SlotWrite} (kz : Keeps z s) : Keeps z (update s part writes) := by
  unfold update
  repeat' first
    | with_reducible assumption | with_reducible apply change_keeps
    | (extract_lets +onlyGivenNames v; refine Keeps.cut (z := z) v ?_ (fun hv => ?_); subst v; rotate_left; first | clear_value v | subst v)
    | (extract_lets +onlyGivenNames v; first | clear_value v | subst v) | with_reducible refine Keeps.ite ?_ ?_ | split
    | dsimp -zeta only

theorem insertFail_keeps {z : State} {s : State} {part : Nat} {table : Nat} (kz : Keeps z s) : Keeps z (insertFail s part table) := by
  unfold insertFail
  repeat' first
    | with_reducible assumption | with_reducible apply fwdEvent_keeps | with_reducible refine Keeps.foldl _ _ ?_ (fun _ _ _ => ?_)

theorem countTie_keeps {z : State} {s : State} {part : Nat} (kz : Keeps z s) : Keeps z (countTie s part) := by
  unfold countTie
  repeat' first
    | with_reducible assumption | with_reducible apply bump64_keeps | with_reducible refine Keeps.foldl _ _ ?_ (fun _ _ _ => ?_)

theorem showDef_keeps {z : State} {s : State} {part : Nat} (kz : Keeps z s) : Keeps z (showDef s part) := by
  unfold showDef
  repeat' first
    | with_reducible assumption | with_reducible apply wf_keeps | with_reducible apply wfs_keeps | split

theorem storeTrie_keeps {z : State} {s : State} {part : Nat} {writes : List SlotWrite} {freed : List (Nat × Nat × Nat × Nat)} (kz : Keeps z s) : Keeps z (storeTrie s part writes freed) := by
  unfold storeTrie
  repeat' first
    | with_reducible assumption | with_reducible apply update_keeps | with_reducible apply showDef_keeps
    | with_reducible apply setShadow_keeps | simp -zeta only [keeps_upd]
    | (extract_lets +onlyGivenNames v; refine Keeps.cut (z := z) v ?_ (fun hv => ?_); subst v; rotate_left; first | clear_value v | subst v)
    | (extract_lets +onlyGivenNames v; first | clear_value v | subst v) | dsimp -zeta only

theorem dropRoute_keeps {z : State} {s : State} {sc : Scope} {x : Route} (kz : Keeps z s) : Keeps z (dropRoute s sc x) := by
  unfold dropRoute
  repeat' first
    | with_reducible assumption | with_reducible apply storeTrie_keeps
    | (extract_lets +onlyGivenNames v; refine Keeps.cut (z := z) v ?_ (fun hv => ?_); subst v; rotate_left; first | clear_value v | subst v)
    | (extract_lets +onlyGivenNames v; first | clear_value v | subst v) | with_reducible refine Keeps.ite ?_ ?_ | split
    | dsimp -zeta only

theorem storeRecord_keeps {z : State} {s : State} {sc : Scope} {r : Sys2Proof.TblRec} (kz : Keeps z s) : Keeps z (storeRecord s sc r).1 := by
  unfold storeRecord
  repeat' first
    | with_reducible assumption | with_reducible apply insertFail_keeps | with_reducible apply update_keeps
    | with_reducible apply storeTrie_keeps
    | (extract_lets +onlyGivenNames v; refine Keeps.cut (z := z) v ?_ (fun hv => ?_); subst v; rotate_left; first | clear_value v | subst v)
    | (extract_lets +onlyGivenNames v; first | clear_value v | subst v) | with_reducible refine Keeps.ite ?_ ?_ | split
    | dsimp -zeta only

theorem applyRecord_keeps {z : State} {s : State} {src : RecSource} {r : Sys2Proof.TblRec} (kz : Keeps z s) : Keeps z (applyRecord s src r).1 := by
  unfold applyRecord
  repeat' first
    | with_reducible assumption | with_reducible apply countTie_keeps | with_reducible apply storeRecord_keeps
    | (extract_lets +onlyGivenNames v; refine Keeps.cut (z := z) v ?_ (fun hv => ?_); subst v; rotate_left; first | clear_value v | subst v)
    | (extract_lets +onlyGivenNames v; refine Keeps.cut (z := z) v.1 ?_ (fun hv => ?_); subst v; rotate_left; first | clear_value v | subst v)
    | (extract_lets +onlyGivenNames v; first | clear_value v | subst v) | with_reducible refine Keeps.ite ?_ ?_ | split
    | dsimp -zeta only

end Sys2Proof.Machine
end

