-- ==== Sys2Proof/Laws/KeepsReady.lean ====
section
/-! SUPPORT. Every operation of Sys2Proof.Machine.Ready keeps what Keeps says. -/
namespace Sys2Proof.Machine

theorem showGroups_keeps {z : State} {y0 : List UnitGroup} {y1 : State} (kz : Keeps z y1) : Keeps z (showGroups y0 y1) := by
  induction y0 generalizing y1 with
  | nil =>
    unfold showGroups
    repeat' first
      | with_reducible assumption
  | cons x l ih =>
    unfold showGroups
    repeat' first
      | with_reducible assumption | with_reducible apply ih | with_reducible apply setMapBit_keeps

theorem showPorts_keeps {z : State} {y0 : List PortRec} {y1 : State} (kz : Keeps z y1) : Keeps z (showPorts y0 y1) := by
  induction y0 generalizing y1 with
  | nil =>
    unfold showPorts
    repeat' first
      | with_reducible assumption
  | cons x l ih =>
    unfold showPorts
    repeat' first
      | with_reducible assumption | with_reducible apply ih | with_reducible apply setMapBit_keeps

theorem recomputeReady_keeps {z : State} {s : State} (kz : Keeps z s) : Keeps z (recomputeReady s) := by
  unfold recomputeReady
  repeat' first
    | with_reducible assumption | with_reducible apply showGroups_keeps | with_reducible apply showPorts_keeps
    | with_reducible apply wfs_keeps | with_reducible apply wn_keeps | with_reducible apply wf_keeps
    | with_reducible refine Keeps.foldl _ _ ?_ (fun _ _ _ => ?_)

theorem announceReady_keeps {z : State} {old : State} {s : State} (kz : Keeps z s) : Keeps z (announceReady old s) := by
  unfold announceReady
  repeat' first
    | with_reducible assumption | with_reducible apply signal_keeps | with_reducible apply wr_keeps
    | (extract_lets +onlyGivenNames v; clear_value v) | with_reducible refine Keeps.ite ?_ ?_

theorem refreshReady_keeps {z : State} {old : State} {s : State} (kz : Keeps z s) : Keeps z (refreshReady old s) := by
  unfold refreshReady
  repeat' first
    | with_reducible assumption | with_reducible apply announceReady_keeps | with_reducible apply recomputeReady_keeps

theorem setLaneReady_keeps {z : State} {s : State} {l : Nat} {b : Bool} (kz : Keeps z s) : Keeps z (setLaneReady s l b) := by
  unfold setLaneReady
  repeat' first
    | with_reducible assumption | with_reducible apply setMapBit_keeps

theorem setEngReady_keeps {z : State} {s : State} {g : Nat} {b : Bool} (kz : Keeps z s) : Keeps z (setEngReady s g b) := by
  unfold setEngReady
  repeat' first
    | with_reducible assumption | with_reducible apply setMapBit_keeps

theorem setStackReady_keeps {z : State} {s : State} {k : Nat} {b : Bool} (kz : Keeps z s) : Keeps z (setStackReady s k b) := by
  unfold setStackReady
  repeat' first
    | with_reducible assumption | with_reducible apply wf_keeps

theorem setDuneSt_keeps {z : State} {s : State} {d : Nat} {c : Nat} (kz : Keeps z s) : Keeps z (setDuneSt s d c) := by
  unfold setDuneSt
  repeat' first
    | with_reducible assumption | with_reducible apply wn_keeps

theorem setEngSt_keeps {z : State} {s : State} {g : Nat} {c : Nat} (kz : Keeps z s) : Keeps z (setEngSt s g c) := by
  unfold setEngSt
  repeat' first
    | with_reducible assumption | with_reducible apply wf_keeps

theorem setLaneDir_keeps {z : State} {s : State} {l : Nat} {rx : Bool} {c : Nat} (kz : Keeps z s) : Keeps z (setLaneDir s l rx c) := by
  unfold setLaneDir
  repeat' first
    | with_reducible assumption | with_reducible apply wf_keeps

theorem showPgMain_keeps {z : State} {s : State} (kz : Keeps z s) : Keeps z (showPgMain s) := by
  unfold showPgMain
  repeat' first
    | with_reducible assumption | with_reducible apply emit_keeps | simp -zeta only [keeps_upd]
    | (extract_lets +onlyGivenNames v; clear_value v) | with_reducible refine Keeps.ite ?_ ?_

end Sys2Proof.Machine
end

