-- ==== Sys2Proof/Laws/KeepsSwitch.lean ====
section
/-! SUPPORT. Every operation of Sys2Proof.Machine.Switch keeps what Keeps says. -/
namespace Sys2Proof.Machine

theorem leaveMember_keeps {z : State} {s : State} {d : Nat} {q : Nat} {m : Nat × Nat} (kz : Keeps z s) : Keeps z (leaveMember s d q m) := by
  unfold leaveMember
  repeat' first
    | with_reducible assumption | simp -zeta only [keeps_upd]
    | (extract_lets +onlyGivenNames v; refine Keeps.cut (z := z) v ?_ (fun hv => ?_); subst v; rotate_left; first | clear_value v | subst v)
    | (extract_lets +onlyGivenNames v; first | clear_value v | subst v) | with_reducible refine Keeps.ite ?_ ?_ | split
    | dsimp -zeta only

theorem setHwq_keeps {z : State} {s : State} {d : Nat} {q : Nat} {x : HwQueue} (kz : Keeps z s) : Keeps z (setHwq s d q x) := by
  unfold setHwq
  repeat' first
    | with_reducible assumption | with_reducible apply leaveMember_keeps | simp -zeta only [keeps_upd]
    | (extract_lets +onlyGivenNames v; refine Keeps.cut (z := z) v ?_ (fun hv => ?_); subst v; rotate_left; first | clear_value v | subst v)
    | (extract_lets +onlyGivenNames v; first | clear_value v | subst v) | with_reducible refine Keeps.ite ?_ ?_ | split
    | dsimp -zeta only

theorem spillLatch_keeps {z : State} {d : Nat} {s : State} {pc : Nat × Nat} (kz : Keeps z s) : Keeps z (spillLatch d s pc) := by
  unfold spillLatch
  repeat' first
    | with_reducible assumption | simp -zeta only [keeps_upd]
    | (extract_lets +onlyGivenNames v; refine Keeps.cut (z := z) v ?_ (fun hv => ?_); subst v; rotate_left; first | clear_value v | subst v)
    | (extract_lets +onlyGivenNames v; first | clear_value v | subst v) | with_reducible refine Keeps.ite ?_ ?_ | split
    | dsimp -zeta only

theorem spillMark_keeps {z : State} {d : Nat} {s : State} {q : Nat} (kz : Keeps z s) : Keeps z (spillMark d s q) := by
  unfold spillMark
  repeat' first
    | with_reducible assumption | with_reducible apply setHwq_keeps | simp -zeta only [keeps_upd]
    | (extract_lets +onlyGivenNames v; refine Keeps.cut (z := z) v ?_ (fun hv => ?_); subst v; rotate_left; first | clear_value v | subst v)
    | (extract_lets +onlyGivenNames v; first | clear_value v | subst v) | with_reducible refine Keeps.ite ?_ ?_ | split
    | dsimp -zeta only

theorem spillMarks_keeps {z : State} {s : State} {d : Nat} (kz : Keeps z s) : Keeps z (spillMarks s d) := by
  unfold spillMarks
  repeat' first
    | with_reducible assumption | with_reducible apply spillLatch_keeps | with_reducible apply spillMark_keeps
    | (with_reducible refine Keeps.foldlFst _ _ ?_ ?_; rotate_left; rintro ⟨_, _⟩ _ _)
    | with_reducible refine Keeps.foldl _ _ ?_ (fun _ _ _ => ?_)
    | (extract_lets +onlyGivenNames v; refine Keeps.cut (z := z) v ?_ (fun hv => ?_); subst v; rotate_left; first | clear_value v | subst v)
    | (extract_lets +onlyGivenNames v; first | clear_value v | subst v) | dsimp -zeta only

theorem showPool_keeps {z : State} {s : State} {d : Nat} {p : Nat} {c : Nat} (kz : Keeps z s) : Keeps z (showPool s d p c) := by
  unfold showPool
  repeat' first
    | with_reducible assumption | with_reducible apply spillMarks_keeps | with_reducible apply swcEvent_keeps
    | with_reducible apply wn_keeps | with_reducible apply wfs_keeps
    | (extract_lets +onlyGivenNames v; refine Keeps.cut (z := z) v ?_ (fun hv => ?_); subst v; rotate_left; first | clear_value v | subst v)
    | (extract_lets +onlyGivenNames v; first | clear_value v | subst v) | with_reducible refine Keeps.ite ?_ ?_ | split
    | dsimp -zeta only

theorem showPools_keeps {z : State} {s : State} {p : Nat} {c : Nat} (kz : Keeps z s) : Keeps z (showPools s p c) := by
  unfold showPools
  repeat' first
    | with_reducible assumption | with_reducible apply showPool_keeps | with_reducible refine Keeps.foldl _ _ ?_ (fun _ _ _ => ?_)

theorem setPoolOcc_keeps {z : State} {s : State} {d : Nat} {p : Nat} {c : Nat} {n : Nat} (kz : Keeps z s) : Keeps z (setPoolOcc s d p c n) := by
  unfold setPoolOcc
  repeat' first
    | with_reducible assumption | with_reducible apply showPool_keeps | with_reducible apply wf_keeps

theorem charge_keeps {z : State} {s : State} {d : Nat} {p : Nat} {c : Nat} {n : Nat} (kz : Keeps z s) : Keeps z (charge s d p c n) := by
  unfold charge
  repeat' first
    | with_reducible assumption | with_reducible apply setPoolOcc_keeps

theorem discharge_keeps {z : State} {s : State} {d : Nat} {p : Nat} {c : Nat} {n : Nat} (kz : Keeps z s) : Keeps z (discharge s d p c n) := by
  unfold discharge
  repeat' first
    | with_reducible assumption | with_reducible apply setPoolOcc_keeps

theorem chargePkt_keeps {z : State} {s : State} {d : Nat} {p : Nat} {c : Nat} {n : Nat} (kz : Keeps z s) : Keeps z (chargePkt s d p c n) := by
  unfold chargePkt
  repeat' first
    | with_reducible assumption | with_reducible apply charge_keeps | with_reducible refine Keeps.ite ?_ ?_

theorem dischargePkt_keeps {z : State} {s : State} {d : Nat} {p : Nat} {c : Nat} {n : Nat} (kz : Keeps z s) : Keeps z (dischargePkt s d p c n) := by
  unfold dischargePkt
  repeat' first
    | with_reducible assumption | with_reducible apply discharge_keeps | with_reducible refine Keeps.ite ?_ ?_

theorem setPagesUsed_keeps {z : State} {s : State} {d : Nat} {p : Nat} {n : Nat} (kz : Keeps z s) : Keeps z (setPagesUsed s d p n) := by
  unfold setPagesUsed
  repeat' first
    | with_reducible assumption | simp -zeta only [keeps_upd]

theorem writePages_keeps {z : State} {d : Nat} {q : Nat} {p : Nat} {c : Nat} {y4 : Nat} {y5 : State} (kz : Keeps z y5) : Keeps z (writePages d q p c y4 y5) := by
  induction y4 generalizing y5 with
  | zero =>
    unfold writePages
    repeat' first
      | with_reducible assumption
  | succ n ih =>
    unfold writePages
    repeat' first
      | with_reducible assumption | with_reducible apply ih | with_reducible apply setHwq_keeps | with_reducible apply setPagesUsed_keeps
      | with_reducible apply dischargePkt_keeps | with_reducible apply bump64_keeps | simp -zeta only [keeps_upd]
      | (extract_lets +onlyGivenNames v; refine Keeps.cut (z := z) v ?_ (fun hv => ?_); subst v; rotate_left; clear_value v)
      | (extract_lets +onlyGivenNames v; clear_value v) | with_reducible refine Keeps.ite ?_ ?_

theorem askPages_keeps {z : State} {d : Nat} {q : Nat} {y2 : Nat} {y3 : State} (kz : Keeps z y3) : Keeps z (askPages d q y2 y3) := by
  induction y2 generalizing y3 with
  | zero =>
    unfold askPages
    repeat' first
      | with_reducible assumption
  | succ n ih =>
    unfold askPages
    repeat' first
      | with_reducible assumption | with_reducible apply ih | with_reducible apply setHwq_keeps | simp -zeta only [keeps_upd]
      | (extract_lets +onlyGivenNames v; clear_value v) | with_reducible refine Keeps.ite ?_ ?_

theorem joinTail_keeps {z : State} {s : State} {d : Nat} {q : Nat} (kz : Keeps z s) : Keeps z (joinTail s d q) := by
  unfold joinTail
  repeat' first
    | with_reducible assumption | with_reducible apply setHwq_keeps | simp -zeta only [keeps_upd]
    | (extract_lets +onlyGivenNames v; clear_value v) | with_reducible refine Keeps.ite ?_ ?_

theorem enqueue_keeps {z : State} {s : State} {d : Nat} {q : Nat} {pk : SwPkt} (kz : Keeps z s) : Keeps z (enqueue s d q pk) := by
  unfold enqueue
  repeat' first
    | with_reducible assumption | with_reducible apply enterSpill_keeps | with_reducible apply setHwq_keeps
    | with_reducible apply joinTail_keeps | with_reducible apply askPages_keeps | with_reducible apply writePages_keeps
    | with_reducible apply bump64_keeps

theorem dequeue_keeps {z : State} {s : State} {d : Nat} {q : Nat} (kz : Keeps z s) : Keeps z (dequeue s d q) := by
  unfold dequeue
  repeat' first
    | with_reducible assumption | with_reducible apply dischargePkt_keeps | with_reducible apply setHwq_keeps
    | with_reducible apply leaveSpill_keeps | with_reducible apply joinTail_keeps | with_reducible apply askPages_keeps
    | with_reducible apply bump64_keeps | simp -zeta only [keeps_upd]
    | (extract_lets +onlyGivenNames v; clear_value v) | split

theorem flushQueue_keeps {z : State} {s : State} {d : Nat} {q : Nat} (kz : Keeps z s) : Keeps z (flushQueue s d q).1 := by
  unfold flushQueue
  repeat' first
    | with_reducible assumption | with_reducible apply dischargePkt_keeps | with_reducible apply setPagesUsed_keeps
    | with_reducible apply setHwq_keeps
    | with_reducible refine Keeps.foldl _ _ ?_ (fun _ _ _ => ?_) | simp -zeta only [keeps_upd]
    | (extract_lets +onlyGivenNames v; first | clear_value v | subst v) | with_reducible refine Keeps.ite ?_ ?_ | split

theorem wredArrive_keeps {z : State} {s : State} {d : Nat} {q : Nat} {colour : Nat} (kz : Keeps z s) : Keeps z (wredArrive s d q colour) := by
  unfold wredArrive
  repeat' first
    | with_reducible assumption | with_reducible apply setHwq_keeps

theorem evict_keeps {z : State} {s : State} {d : Nat} {p : Nat} {q : Nat} (kz : Keeps z s) : Keeps z (evict s d p q) := by
  unfold evict
  repeat' first
    | with_reducible assumption | with_reducible apply setHwq_keeps | with_reducible apply discharge_keeps
    | with_reducible apply bump64_keeps
    | (extract_lets +onlyGivenNames v; refine Keeps.cut (z := z) v ?_ (fun hv => ?_); subst v; rotate_left; first | clear_value v | subst v)
    | (extract_lets +onlyGivenNames v; first | clear_value v | subst v) | split | dsimp -zeta only

theorem pushOut_keeps {z : State} {d : Nat} {p : Nat} {prio : Nat} {n : Nat} {y4 : Nat} {y5 : Option Nat} {y6 : State} (kz : Keeps z y6) : KeepsSome z (pushOut d p prio n y4 y5 y6) := by
  induction y4 generalizing y5 y6 with
  | zero =>
    unfold pushOut
    repeat' first
      | with_reducible assumption | with_reducible refine Keeps.some ?_ | with_reducible exact Keeps.none
      | with_reducible apply evict_keeps | with_reducible refine Keeps.ite ?_ ?_ | split
  | succ n ih =>
    unfold pushOut
    repeat' first
      | with_reducible assumption | with_reducible apply ih | with_reducible refine Keeps.some ?_ | with_reducible exact Keeps.none
      | with_reducible apply evict_keeps | with_reducible refine Keeps.ite ?_ ?_ | split

theorem polDecide_keeps {z : State} {s : State} {d : Nat} {i : Nat} {cls : Nat} {colour : Nat} {bytes : Nat} (kz : Keeps z s) : Keeps z (polDecide s d i cls colour bytes).1 := by
  unfold polDecide
  repeat' first
    | with_reducible assumption | with_reducible apply swcEvent_keeps | with_reducible apply bump64_keeps | simp -zeta only [keeps_upd]
    | (extract_lets +onlyGivenNames v; clear_value v) | with_reducible refine Keeps.ite ?_ ?_ | split

theorem mirrorOne_keeps {z : State} {s : State} {d : Nat} {m : Nat} {src : Nat} {port : Nat} {part : Nat} {eth : Option Sys2Proof.EthFrame} {cfh : Option Sys2Proof.Cfh} {payload : List Sys2Proof.Byte} (kz : Keeps z s) : Keeps z (mirrorOne s d m src port part eth cfh payload) := by
  unfold mirrorOne
  repeat' first
    | with_reducible assumption | with_reducible apply enqueue_keeps | with_reducible apply chargePkt_keeps
    | with_reducible apply mirrorPut_keeps | with_reducible apply tickFree_keeps | with_reducible apply bump64_keeps
    | simp -zeta only [keeps_upd]
    | (extract_lets +onlyGivenNames v; refine Keeps.cut (z := z) v ?_ (fun hv => ?_); subst v; rotate_left; first | clear_value v | subst v)
    | (extract_lets +onlyGivenNames v; refine Keeps.cut (z := z) v.1 ?_ (fun hv => ?_); subst v; rotate_left; first | clear_value v | subst v)
    | (extract_lets +onlyGivenNames v; first | clear_value v | subst v) | with_reducible refine Keeps.ite ?_ ?_ | split
    | dsimp -zeta only

theorem mirrorAll_keeps {z : State} {s : State} {d : Nat} {src : Nat} {port : Nat} {part : Nat} {eth : Option Sys2Proof.EthFrame} {cfh : Option Sys2Proof.Cfh} {payload : List Sys2Proof.Byte} {l : List Nat} (kz : Keeps z s) : Keeps z (mirrorAll s d src port part eth cfh payload l) := by
  unfold mirrorAll
  repeat' first
    | with_reducible assumption | with_reducible apply mirrorOne_keeps | with_reducible refine Keeps.foldl _ _ ?_ (fun _ _ _ => ?_)
    | with_reducible refine Keeps.ite ?_ ?_

theorem sendOwn_keeps {z : State} {s : State} {port : Nat} {c : Sys2Proof.Cfh} {payload : List Sys2Proof.Byte} (kz : Keeps z s) : Keeps z (sendOwn s port c payload) := by
  unfold sendOwn
  repeat' first
    | with_reducible assumption | with_reducible apply enqueue_keeps | with_reducible apply chargePkt_keeps
    | with_reducible apply emit_keeps | simp -zeta only [keeps_upd]
    | (extract_lets +onlyGivenNames v; refine Keeps.cut (z := z) v ?_ (fun hv => ?_); subst v; rotate_left; first | clear_value v | subst v)
    | (extract_lets +onlyGivenNames v; first | clear_value v | subst v) | with_reducible refine Keeps.ite ?_ ?_ | split
    | dsimp -zeta only

theorem linkMsg_keeps {z : State} {s : State} {port : Nat} {c : Sys2Proof.Cfh} {payload : List Sys2Proof.Byte} (kz : Keeps z s) : Keeps z (linkMsg s port c payload) := by
  unfold linkMsg
  repeat' first
    | with_reducible assumption | with_reducible apply mirrorAll_keeps | with_reducible apply emit_keeps

theorem setGranted_keeps {z : State} {s : State} {port : Nat} {cls : Nat} {vc : Nat} {n : Nat} (kz : Keeps z s) : Keeps z (setGranted s port cls vc n) := by
  unfold setGranted
  repeat' first
    | with_reducible assumption | simp -zeta only [keeps_upd]

theorem setCredHeld_keeps {z : State} {s : State} {port : Nat} {cls : Nat} {vc : Nat} {n : Nat} (kz : Keeps z s) : Keeps z (setCredHeld s port cls vc n) := by
  unfold setCredHeld
  repeat' first
    | with_reducible assumption | simp -zeta only [keeps_upd]

theorem setReturns_keeps {z : State} {s : State} {port : Nat} {cls : Nat} {vc : Nat} {n : Nat} (kz : Keeps z s) : Keeps z (setReturns s port cls vc n) := by
  unfold setReturns
  repeat' first
    | with_reducible assumption | simp -zeta only [keeps_upd]

theorem grantClass_keeps {z : State} {s : State} {port : Nat} {c : Nat} (kz : Keeps z s) : Keeps z (grantClass s port c) := by
  unfold grantClass
  repeat' first
    | with_reducible assumption | with_reducible apply setReturns_keeps | with_reducible apply setGranted_keeps
    | (extract_lets +onlyGivenNames v; clear_value v) | with_reducible refine Keeps.ite ?_ ?_

theorem grantColl_keeps {z : State} {s : State} {port : Nat} (kz : Keeps z s) : Keeps z (grantColl s port) := by
  unfold grantColl
  repeat' first
    | with_reducible assumption | with_reducible apply setReturns_keeps | with_reducible apply setGranted_keeps
    | (extract_lets +onlyGivenNames v; clear_value v) | with_reducible refine Keeps.ite ?_ ?_

theorem grantAllowance_keeps {z : State} {s : State} {port : Nat} {vc : Nat} {c : Nat} (kz : Keeps z s) : Keeps z (grantAllowance s port vc c) := by
  unfold grantAllowance
  repeat' first
    | with_reducible assumption | with_reducible apply setReturns_keeps | with_reducible apply setGranted_keeps
    | simp -zeta only [keeps_upd]
    | (extract_lets +onlyGivenNames v; refine Keeps.cut (z := z) v ?_ (fun hv => ?_); subst v; rotate_left; first | clear_value v | subst v)
    | (extract_lets +onlyGivenNames v; first | clear_value v | subst v) | with_reducible refine Keeps.ite ?_ ?_ | split
    | dsimp -zeta only

theorem grantAllowances_keeps {z : State} {s : State} {port : Nat} (kz : Keeps z s) : Keeps z (grantAllowances s port) := by
  unfold grantAllowances
  repeat' first
    | with_reducible assumption | with_reducible apply grantAllowance_keeps
    | with_reducible refine Keeps.foldl _ _ ?_ (fun _ _ _ => ?_) | with_reducible refine Keeps.ite ?_ ?_ | split

theorem grantPort_keeps {z : State} {s : State} {port : Nat} (kz : Keeps z s) : Keeps z (grantPort s port) := by
  unfold grantPort
  repeat' first
    | with_reducible assumption | with_reducible apply grantColl_keeps | with_reducible apply grantClass_keeps
    | with_reducible apply grantAllowances_keeps | with_reducible refine Keeps.foldl _ _ ?_ (fun _ _ _ => ?_)
    | with_reducible refine Keeps.ite ?_ ?_ | split

theorem grantScope_keeps {z : State} {s : State} {p : Nat} (kz : Keeps z s) : Keeps z (grantScope s p) := by
  unfold grantScope
  repeat' first
    | with_reducible assumption | with_reducible apply grantPort_keeps | with_reducible refine Keeps.foldl _ _ ?_ (fun _ _ _ => ?_)

theorem checkBudget_keeps {z : State} {s : State} {d : Nat} {p : Nat} {dir : Nat} {port : Nat} (kz : Keeps z s) : Keeps z (checkBudget s d p dir port) := by
  unfold checkBudget
  repeat' first
    | with_reducible assumption | with_reducible apply rteEvent_keeps | with_reducible refine Keeps.ite ?_ ?_ | split

theorem latchRsv_keeps {z : State} {s : State} (kz : Keeps z s) : Keeps z (latchRsv s) := by
  unfold latchRsv
  repeat' first
    | with_reducible assumption | simp -zeta only [keeps_upd]

theorem grantEntry_keeps {z : State} {s : State} {port : Nat} (kz : Keeps z s) : Keeps z (grantEntry s port) := by
  unfold grantEntry
  repeat' first
    | with_reducible assumption | with_reducible apply checkBudget_keeps | with_reducible apply grantPort_keeps
    | with_reducible apply latchRsv_keeps

theorem returnRoom_keeps {z : State} {s : State} {p : Nat} {cls : Nat} {vc : Nat} {n : Nat} (kz : Keeps z s) : Keeps z (returnRoom s p cls vc n) := by
  unfold returnRoom
  repeat' first
    | with_reducible assumption | with_reducible apply setReturns_keeps | with_reducible apply setGranted_keeps
    | with_reducible refine Keeps.ite ?_ ?_

theorem leftSlice_keeps {z : State} {s : State} {p : Nat} {cls : Nat} {vc : Nat} {n : Nat} (kz : Keeps z s) : Keeps z (leftSlice s p cls vc n) := by
  unfold leftSlice
  repeat' first
    | with_reducible assumption | with_reducible apply returnRoom_keeps | with_reducible apply grantPort_keeps
    | (extract_lets +onlyGivenNames v; first | clear_value v | subst v) | with_reducible refine Keeps.ite ?_ ?_

theorem dropCredits_keeps {z : State} {s : State} {port : Nat} (kz : Keeps z s) : Keeps z (dropCredits s port) := by
  unfold dropCredits
  repeat' first
    | with_reducible assumption | simp -zeta only [keeps_upd]
    | (extract_lets +onlyGivenNames v; subst v)

theorem freePunts_keeps {z : State} {s : State} {d : Nat} {n : Nat} (kz : Keeps z s) : Keeps z (freePunts s d n) := by
  unfold freePunts
  repeat' first
    | with_reducible assumption | with_reducible apply dischargePkt_keeps | with_reducible refine Keeps.foldl _ _ ?_ (fun _ _ _ => ?_)
    | simp -zeta only [keeps_upd]
    | (extract_lets +onlyGivenNames v; refine Keeps.cut (z := z) v ?_ (fun hv => ?_); subst v; rotate_left; first | clear_value v | subst v)
    | (extract_lets +onlyGivenNames v; first | clear_value v | subst v) | dsimp -zeta only

end Sys2Proof.Machine
end

