-- ==== Sys2Proof/Laws/KeepsRoute.lean ====
section
/-! SUPPORT. Every operation of Sys2Proof.Machine.Route keeps what Keeps says. -/
namespace Sys2Proof.Machine

theorem setRteTable_keeps {z : State} {s : State} {v : Nat} {t : RteTable} (kz : Keeps z s) : Keeps z (setRteTable s v t) := by
  unfold setRteTable
  repeat' first
    | with_reducible assumption | simp -zeta only [keeps_upd]

theorem expressLost_keeps {z : State} {old : State} {s : State} (kz : Keeps z s) : Keeps z (expressLost old s) := by
  unfold expressLost
  repeat' first
    | with_reducible assumption | simp -zeta only [keeps_upd]
    | (extract_lets +onlyGivenNames v; subst v)

theorem choosePort_keeps {z s t : State} {d v part target misroute a b : Nat} {sprayed : Bool} {c : Cfh} (h : Keeps z s)
    (e : choosePort s d v part target misroute sprayed c = some (t, a, b)) : Keeps z t := by
  unfold choosePort at e
  dsimp only at e
  repeat' split at e
  all_goals cases e
  all_goals first | exact h | rwa [keeps_upd]

theorem takeSeq_keeps {z : State} {s : State} {d : Nat} {part : Nat} {dst : Nat} {cls : Nat} (kz : Keeps z s) : Keeps z (takeSeq s d part dst cls).1 := by
  unfold takeSeq
  repeat' first
    | with_reducible assumption | with_reducible apply rteEvent_keeps | with_reducible apply bump64_keeps | simp -zeta only [keeps_upd]
    | (extract_lets +onlyGivenNames v; refine Keeps.cut (z := z) v ?_ (fun hv => ?_); subst v; rotate_left; clear_value v)
    | (extract_lets +onlyGivenNames v; clear_value v) | with_reducible refine Keeps.ite ?_ ?_ | split

theorem unspill_keeps {z : State} {s : State} {d : Nat} {p : SwPkt} (kz : Keeps z s) : Keeps z (unspill s d p) := by
  unfold unspill
  repeat' first
    | with_reducible assumption | with_reducible apply setPagesUsed_keeps | with_reducible apply chargePkt_keeps
    | with_reducible apply bump64_keeps
    | (extract_lets +onlyGivenNames v; refine Keeps.cut (z := z) v ?_ (fun hv => ?_); subst v; rotate_left; first | clear_value v | subst v)
    | (extract_lets +onlyGivenNames v; first | clear_value v | subst v) | split | dsimp -zeta only

theorem linkAll_keeps {z : State} {d : Nat} {y1 : List SwPkt} {y2 : State} (kz : Keeps z y2) : Keeps z (linkAll d y1 y2) := by
  induction y1 generalizing y2 with
  | nil =>
    unfold linkAll
    repeat' first
      | with_reducible assumption | with_reducible apply unspill_keeps | with_reducible apply enqueue_keeps | simp -zeta only [keeps_upd]
      | (extract_lets +onlyGivenNames v; refine Keeps.cut (z := z) v ?_ (fun hv => ?_); subst v; rotate_left; first | clear_value v | subst v)
      | (extract_lets +onlyGivenNames v; first | clear_value v | subst v) | dsimp -zeta only
  | cons x l ih =>
    unfold linkAll
    repeat' first
      | with_reducible assumption | with_reducible apply ih | with_reducible apply unspill_keeps | with_reducible apply enqueue_keeps | simp -zeta only [keeps_upd]
      | (extract_lets +onlyGivenNames v; refine Keeps.cut (z := z) v ?_ (fun hv => ?_); subst v; rotate_left; first | clear_value v | subst v)
      | (extract_lets +onlyGivenNames v; first | clear_value v | subst v) | dsimp -zeta only

theorem setDst_keeps {z : State} {s : State} {x : DstCtx} {h : Sys2Proof.LinkHdr} (kz : Keeps z s) : Keeps z (setDst s x h) := by
  unfold setDst
  repeat' first
    | with_reducible assumption | simp -zeta only [keeps_upd]

theorem resequence_keeps {z : State} {s : State} {d : Nat} {p : SwPkt} (kz : Keeps z s) : Keeps z (resequence s d p) := by
  unfold resequence
  repeat' first
    | with_reducible assumption | with_reducible apply linkAll_keeps | with_reducible apply setDst_keeps
    | with_reducible apply rteEvent_keeps | with_reducible apply bump64_keeps | simp -zeta only [keeps_upd]
    | (extract_lets +onlyGivenNames v; subst v) | with_reducible refine Keeps.ite ?_ ?_ | split

theorem moveWadiLists_keeps {z : State} {s : State} {d : Nat} {old : Nat} {new : Nat} (kz : Keeps z s) : Keeps z (moveWadiLists s d old new) := by
  unfold moveWadiLists
  repeat' first
    | with_reducible assumption | with_reducible apply setHwq_keeps | with_reducible refine Keeps.foldl _ _ ?_ (fun _ _ _ => ?_)
    | simp -zeta only [keeps_upd]
    | (extract_lets +onlyGivenNames v; clear_value v) | with_reducible refine Keeps.ite ?_ ?_

theorem showWadi_keeps {z : State} {old : State} {s : State} {dir : Nat} (kz : Keeps z s) : Keeps z (showWadi old s dir) := by
  unfold showWadi
  repeat' first
    | with_reducible assumption | with_reducible apply moveWadiLists_keeps | with_reducible apply rteEvent_keeps
    | with_reducible apply wfs_keeps | with_reducible apply wf_keeps | simp -zeta only [keeps_upd]
    | (extract_lets +onlyGivenNames v; refine Keeps.cut (z := z) v ?_ (fun hv => ?_); subst v; rotate_left; first | clear_value v | subst v)
    | (extract_lets +onlyGivenNames v; subst v) | with_reducible refine Keeps.ite ?_ ?_ | split | dsimp -zeta only

theorem showWadis_keeps {z : State} {old : State} {s : State} (kz : Keeps z s) : Keeps z (showWadis old s) := by
  unfold showWadis
  repeat' first
    | with_reducible assumption | with_reducible apply showWadi_keeps | with_reducible refine Keeps.foldl _ _ ?_ (fun _ _ _ => ?_)

theorem settle_keeps {z : State} {old : State} {s : State} (kz : Keeps z s) : Keeps z (settle old s) := by
  unfold settle
  repeat' first
    | with_reducible assumption | with_reducible apply showWadis_keeps | with_reducible apply expressLost_keeps
    | with_reducible apply refreshReady_keeps

end Sys2Proof.Machine
end

