-- ==== Sys2Proof/Laws/KeepsTrust.lean ====
section
/-! SUPPORT. Every operation of Sys2Proof.Machine.Trust keeps what Keeps says. -/
namespace Sys2Proof.Machine

theorem showBytes_keeps {z : State} {reg : Nat → Nat} {words : Nat} {l : List Sys2Proof.Byte} {s : State} (kz : Keeps z s) : Keeps z (showBytes reg words l s) := by
  unfold showBytes
  repeat' first
    | with_reducible assumption | with_reducible apply wn_keeps | with_reducible refine Keeps.foldl _ _ ?_ (fun _ _ _ => ?_)

theorem showLog_keeps {z : State} {s : State} (kz : Keeps z s) : Keeps z (showLog s) := by
  unfold showLog
  repeat' first
    | with_reducible assumption | with_reducible apply showBytes_keeps | split

theorem secLog_keeps {z : State} {s : State} {typ : Nat} {obj : Nat} (kz : Keeps z s) : Keeps z (secLog s typ obj) := by
  unfold secLog
  repeat' first
    | with_reducible assumption | with_reducible apply showLog_keeps | simp -zeta only [keeps_upd]

theorem showOwner_keeps {z : State} {s : State} (kz : Keeps z s) : Keeps z (showOwner s) := by
  unfold showOwner
  repeat' first
    | with_reducible assumption | with_reducible apply wfs_keeps

theorem showDebug_keeps {z : State} {s : State} (kz : Keeps z s) : Keeps z (showDebug s) := by
  unfold showDebug
  repeat' first
    | with_reducible assumption | with_reducible apply wf_keeps | with_reducible apply wn_keeps
    | (extract_lets +onlyGivenNames v; refine Keeps.cut (z := z) v ?_ (fun hv => ?_); subst v; rotate_left; first | clear_value v | subst v)
    | (extract_lets +onlyGivenNames v; first | clear_value v | subst v) | with_reducible refine Keeps.ite ?_ ?_ | split
    | dsimp -zeta only

theorem debugClosed_keeps {z : State} {s : State} (kz : Keeps z s) : Keeps z (debugClosed s) := by
  unfold debugClosed
  repeat' first
    | with_reducible assumption | with_reducible apply secLog_keeps | with_reducible apply showDebug_keeps
    | with_reducible apply secEvent_keeps

theorem tokenEnd_keeps {z : State} {s : State} (kz : Keeps z s) : Keeps z (tokenEnd s) := by
  unfold tokenEnd
  repeat' first
    | with_reducible assumption | with_reducible apply debugClosed_keeps | simp -zeta only [keeps_upd]
    | with_reducible refine Keeps.ite ?_ ?_ | split

theorem debugColdEnd_keeps {z : State} {s : State} (kz : Keeps z s) : Keeps z (debugColdEnd s) := by
  unfold debugColdEnd
  repeat' first
    | with_reducible assumption | with_reducible apply showDebug_keeps | with_reducible apply debugClosed_keeps
    | simp -zeta only [keeps_upd]
    | (extract_lets +onlyGivenNames v; refine Keeps.cut (z := z) v ?_ (fun hv => ?_); subst v; rotate_left; first | clear_value v | subst v)
    | (extract_lets +onlyGivenNames v; first | clear_value v | subst v) | with_reducible refine Keeps.ite ?_ ?_ | split
    | dsimp -zeta only

theorem debugClose_keeps {z : State} {s : State} (kz : Keeps z s) : Keeps z (debugClose s) := by
  unfold debugClose
  repeat' first
    | with_reducible assumption | with_reducible apply debugClosed_keeps | simp -zeta only [keeps_upd]
    | with_reducible refine Keeps.ite ?_ ?_ | split

theorem newDebugNonce_keeps {z : State} {s : State} (kz : Keeps z s) : Keeps z (newDebugNonce s) := by
  unfold newDebugNonce
  repeat' first
    | with_reducible assumption | with_reducible apply wn_keeps | with_reducible refine Keeps.foldl _ _ ?_ (fun _ _ _ => ?_)
    | simp -zeta only [keeps_upd]
    | (extract_lets +onlyGivenNames v; refine Keeps.cut (z := z) v ?_ (fun hv => ?_); subst v; rotate_left; clear_value v)
    | (extract_lets +onlyGivenNames v; first | clear_value v | subst v) | with_reducible refine Keeps.free ?_ kz.fresh

theorem showSeed_keeps {z : State} {s : State} (kz : Keeps z s) : Keeps z (showSeed s) := by
  unfold showSeed
  repeat' first
    | with_reducible assumption | with_reducible apply wn_keeps

theorem mirrorEpochUp_keeps {z : State} {s : State} (kz : Keeps z s) : Keeps z (mirrorEpochUp s) := by
  unfold mirrorEpochUp
  repeat' first
    | with_reducible assumption | with_reducible apply wn_keeps

theorem sealLogged_keeps {z : State} {s : State} (kz : Keeps z s) : Keeps z (sealLogged s) := by
  unfold sealLogged
  repeat' first
    | with_reducible assumption | with_reducible apply debugClose_keeps | with_reducible apply secLog_keeps
    | with_reducible apply sealNow_keeps
    | (extract_lets +onlyGivenNames v; refine Keeps.cut (z := z) v ?_ (fun hv => ?_); subst v; rotate_left; clear_value v)
    | (extract_lets +onlyGivenNames v; first | clear_value v | subst v) | with_reducible refine Keeps.ite ?_ ?_

end Sys2Proof.Machine
end

