-- ==== Sys2Proof/Laws/KeepsLearn.lean ====
section
/-! SUPPORT. Every operation of Sys2Proof.Machine.Learn keeps what Keeps says. -/
namespace Sys2Proof.Machine

theorem relayRec_keeps {z : State} {s : State} {part : Nat} {except : Option Nat} {r : Sys2Proof.TblRec} (kz : Keeps z s) : Keeps z (relayRec s part except r) := by
  unfold relayRec
  repeat' first
    | with_reducible assumption | with_reducible apply sendOwn_keeps
    | (with_reducible refine Keeps.foldlFst _ _ ?_ ?_; rotate_left; rintro ⟨_, _⟩ _ _)
    | with_reducible refine Keeps.foldl _ _ ?_ (fun _ _ _ => ?_)
    | (extract_lets +onlyGivenNames v; refine Keeps.cut (z := z) v ?_ (fun hv => ?_); subst v; rotate_left; first | clear_value v | subst v)
    | (extract_lets +onlyGivenNames v; first | clear_value v | subst v) | split | dsimp -zeta only

theorem learnDrop_keeps {z : State} {s : State} {d : Nat} (kz : Keeps z s) : Keeps z (learnDrop s d) := by
  unfold learnDrop
  repeat' first
    | with_reducible assumption | with_reducible apply fwdEvent_keeps | with_reducible apply bump64_keeps

theorem learnCount_keeps {z : State} {s : State} {d : Nat} (kz : Keeps z s) : Keeps z (learnCount s d) := by
  unfold learnCount
  repeat' first
    | with_reducible assumption | simp -zeta only [keeps_upd]
    | (extract_lets +onlyGivenNames v; clear_value v)

theorem learnSeen_keeps {z : State} {s : State} {d : Nat} {part : Nat} {key : Nat} {port : Nat} (kz : Keeps z s) : Keeps z (learnSeen s d part key port) := by
  unfold learnSeen
  repeat' first
    | with_reducible assumption | with_reducible apply learnDrop_keeps | with_reducible apply learnCount_keeps
    | with_reducible apply relayRec_keeps | with_reducible apply applyRecord_keeps
    | (extract_lets +onlyGivenNames v; refine Keeps.cut (z := z) v.1 ?_ (fun hv => ?_); subst v; rotate_left; clear_value v)
    | (extract_lets +onlyGivenNames v; first | clear_value v | subst v) | with_reducible refine Keeps.ite ?_ ?_

theorem learnLost_keeps {z : State} {s : State} {port : Nat} (kz : Keeps z s) : Keeps z (learnLost s port) := by
  unfold learnLost
  repeat' first
    | with_reducible assumption | with_reducible apply learnDrop_keeps | with_reducible apply relayRec_keeps
    | with_reducible apply applyRecord_keeps
    | with_reducible refine Keeps.foldl _ _ ?_ (fun _ _ _ => ?_)
    | (extract_lets +onlyGivenNames v; refine Keeps.cut (z := z) v.1 ?_ (fun hv => ?_); subst v; rotate_left; clear_value v)
    | (extract_lets +onlyGivenNames v; first | clear_value v | subst v) | with_reducible refine Keeps.ite ?_ ?_

end Sys2Proof.Machine
end

