-- ==== Sys2Proof/Laws/KeepsGates.lean ====
section
/-! SUPPORT. Every operation of Sys2Proof.Machine.Gates keeps what Keeps says. -/
namespace Sys2Proof.Machine

theorem setPg_keeps {z : State} {s : State} {g : Nat} {x : PortGroup} (kz : Keeps z s) : Keeps z (setPg s g x) := by
  unfold setPg
  repeat' first
    | with_reducible assumption | simp -zeta only [keeps_upd]

theorem showPg_keeps {z : State} {s : State} {g : Nat} (kz : Keeps z s) : Keeps z (showPg s g) := by
  unfold showPg
  repeat' first
    | with_reducible assumption | with_reducible apply wn_keeps | with_reducible apply wf_keeps
    | (extract_lets +onlyGivenNames v; refine Keeps.cut (z := z) v ?_ (fun hv => ?_); subst v; rotate_left; clear_value v)
    | (extract_lets +onlyGivenNames v; clear_value v) | split

theorem setPgSt_keeps {z : State} {s : State} {g : Nat} {st : Nat} (kz : Keeps z s) : Keeps z (setPgSt s g st) := by
  unfold setPgSt
  repeat' first
    | with_reducible assumption | with_reducible apply showPg_keeps | with_reducible apply wf_keeps

theorem setPgResult_keeps {z : State} {s : State} {g : Nat} {r : Nat} (kz : Keeps z s) : Keeps z (setPgResult s g r) := by
  unfold setPgResult
  repeat' first
    | with_reducible assumption | with_reducible apply wf_keeps

theorem sigStarts_keeps {z : State} {d : Nat} {k : GateGeom} {lo : Nat} {hi : Nat} {y4 : List (Nat × Nat)} {y5 : State} (kz : Keeps z y5) : Keeps z (sigStarts d k lo hi y4 y5) := by
  induction y4 generalizing y5 with
  | nil =>
    unfold sigStarts
    repeat' first
      | with_reducible assumption
  | cons x l ih =>
    unfold sigStarts
    repeat' first
      | with_reducible assumption | with_reducible apply ih | with_reducible apply addCounter_keeps
      | (extract_lets +onlyGivenNames v; first | clear_value v | subst v) | with_reducible refine Keeps.ite ?_ ?_

theorem runEntriesTo_keeps {z : State} {s : State} {g : Nat} {to_ : Nat} (kz : Keeps z s) : Keeps z (runEntriesTo s g to_) := by
  unfold runEntriesTo
  repeat' first
    | with_reducible assumption | with_reducible apply sigStarts_keeps | with_reducible apply setPg_keeps | simp -zeta only [keeps_upd]
    | (extract_lets +onlyGivenNames v; refine Keeps.cut (z := z) v ?_ (fun hv => ?_); subst v; rotate_left; first | clear_value v | subst v)
    | (extract_lets +onlyGivenNames v; first | clear_value v | subst v) | with_reducible refine Keeps.ite ?_ ?_ | split
    | dsimp -zeta only

theorem runEntries_keeps {z : State} {s : State} {g : Nat} (kz : Keeps z s) : Keeps z (runEntries s g) := by
  unfold runEntries
  repeat' first
    | with_reducible assumption | with_reducible apply showPg_keeps | with_reducible apply runEntriesTo_keeps
    | with_reducible refine Keeps.ite ?_ ?_ | split

theorem overrun_keeps {z : State} {old : State} {s : State} {e : Nat × Nat × Nat} (kz : Keeps z s) : Keeps z (overrun old s e) := by
  unfold overrun
  repeat' first
    | with_reducible assumption | with_reducible apply schEvent_keeps | with_reducible apply bump64_keeps | simp -zeta only [keeps_upd]
    | (extract_lets +onlyGivenNames v; refine Keeps.cut (z := z) v ?_ (fun hv => ?_); subst v; rotate_left; clear_value v)
    | (extract_lets +onlyGivenNames v; first | clear_value v | subst v) | with_reducible refine Keeps.ite ?_ ?_

theorem gateTakeEffect_keeps {z : State} {s : State} {g : Nat} (kz : Keeps z s) : Keeps z (gateTakeEffect s g) := by
  unfold gateTakeEffect
  repeat' first
    | with_reducible assumption | with_reducible apply runEntriesTo_keeps | with_reducible apply setPg_keeps
    | with_reducible apply setPgResult_keeps | with_reducible apply runEntries_keeps | with_reducible apply setPgSt_keeps
    | with_reducible apply schEvent_keeps | with_reducible apply wf_keeps | simp -zeta only [keeps_upd]
    | (extract_lets +onlyGivenNames v; refine Keeps.cut (z := z) v ?_ (fun hv => ?_); subst v; rotate_left; first | clear_value v | subst v)
    | (extract_lets +onlyGivenNames v; first | clear_value v | subst v) | split | dsimp -zeta only

theorem suspendPg_keeps {z : State} {s : State} {g : Nat} (kz : Keeps z s) : Keeps z (suspendPg s g) := by
  unfold suspendPg
  repeat' first
    | with_reducible assumption | with_reducible apply setPgResult_keeps | with_reducible apply setPgSt_keeps
    | with_reducible apply setPg_keeps | with_reducible apply schEvent_keeps | simp -zeta only [keeps_upd]
    | (extract_lets +onlyGivenNames v; refine Keeps.cut (z := z) v ?_ (fun hv => ?_); subst v; rotate_left; clear_value v)
    | (extract_lets +onlyGivenNames v; clear_value v) | with_reducible refine Keeps.ite ?_ ?_

theorem unsuspendPg_keeps {z : State} {s : State} {g : Nat} (kz : Keeps z s) : Keeps z (unsuspendPg s g) := by
  unfold unsuspendPg
  repeat' first
    | with_reducible assumption | with_reducible apply setPgSt_keeps | with_reducible refine Keeps.ite ?_ ?_

theorem imposeInterval_keeps {z : State} {s : State} {p : Nat} {at_ : Nat} {len : Nat} (kz : Keeps z s) : Keeps z (imposeInterval s p at_ len) := by
  unfold imposeInterval
  repeat' first
    | with_reducible assumption | with_reducible apply setPg_keeps

theorem setTokens_keeps {z : State} {s : State} {lane : Nat} {c : Nat} {t : Int} (kz : Keeps z s) : Keeps z (setTokens s lane c t) := by
  unfold setTokens
  repeat' first
    | with_reducible assumption | with_reducible apply wn_keeps | simp -zeta only [keeps_upd]

theorem shapeAll_keeps {z : State} {s : State} {lane : Nat} (kz : Keeps z s) : Keeps z (shapeAll s lane) := by
  unfold shapeAll
  repeat' first
    | with_reducible assumption | with_reducible apply setTokens_keeps | with_reducible refine Keeps.foldl _ _ ?_ (fun _ _ _ => ?_)
    | with_reducible refine Keeps.ite ?_ ?_ | split

theorem shapeTake_keeps {z : State} {s : State} {lane : Nat} {c : Nat} {b : Nat} (kz : Keeps z s) : Keeps z (shapeTake s lane c b) := by
  unfold shapeTake
  repeat' first
    | with_reducible assumption | with_reducible apply setTokens_keeps | with_reducible refine Keeps.ite ?_ ?_

theorem joinMembers_keeps {z : State} {s : State} {arb : Nat} {y2 : List (Nat × Bool)} (kz : Keeps z s) : Keeps z (joinMembers s arb y2) := by
  induction y2 generalizing s with
  | nil =>
    unfold joinMembers
    repeat' first
      | with_reducible assumption
  | cons x l ih =>
    unfold joinMembers
    repeat' first
      | with_reducible assumption | with_reducible apply ih | simp -zeta only [keeps_upd]

theorem serveMember_keeps {z : State} {s : State} {arb : Nat} {key : Nat} {b : Nat} {w : Nat} (kz : Keeps z s) : Keeps z (serveMember s arb key b w) := by
  unfold serveMember
  repeat' first
    | with_reducible assumption | simp -zeta only [keeps_upd]
    | (extract_lets +onlyGivenNames v; clear_value v)

end Sys2Proof.Machine
end

