-- ==== Sys2Proof/Laws/KeepsClock.lean ====
section
/-! SUPPORT. Every operation of Sys2Proof.Machine.Clock keeps what Keeps says. -/
namespace Sys2Proof.Machine

theorem setTimSt_keeps {z : State} {s : State} {st : Nat} (kz : Keeps z s) : Keeps z (setTimSt s st) := by
  unfold setTimSt
  repeat' first
    | with_reducible assumption | with_reducible apply timEvent_keeps | with_reducible apply wf_keeps | simp -zeta only [keeps_upd]
    | (extract_lets +onlyGivenNames v; refine Keeps.cut (z := z) v ?_ (fun hv => ?_); subst v; rotate_left; clear_value v)
    | (extract_lets +onlyGivenNames v; clear_value v) | with_reducible refine Keeps.ite ?_ ?_

theorem setTimFine_keeps {z : State} {s : State} {b : Bool} (kz : Keeps z s) : Keeps z (setTimFine s b) := by
  unfold setTimFine
  repeat' first
    | with_reducible assumption | with_reducible apply refreshReady_keeps | with_reducible apply timEvent_keeps
    | with_reducible apply wf_keeps | with_reducible refine Keeps.ite ?_ ?_

theorem setTimReady_keeps {z : State} {s : State} {b : Bool} (kz : Keeps z s) : Keeps z (setTimReady s b) := by
  unfold setTimReady
  repeat' first
    | with_reducible assumption | with_reducible apply unsuspendPg_keeps | with_reducible apply suspendPg_keeps
    | with_reducible apply refreshReady_keeps | with_reducible apply timEvent_keeps | with_reducible apply wf_keeps
    | with_reducible refine Keeps.foldl _ _ ?_ (fun _ _ _ => ?_) | simp -zeta only [keeps_upd]
    | (extract_lets +onlyGivenNames v; refine Keeps.cut (z := z) v ?_ (fun hv => ?_); subst v; rotate_left; clear_value v)
    | (extract_lets +onlyGivenNames v; first | clear_value v | subst v) | with_reducible refine Keeps.ite ?_ ?_

theorem modSource_keeps {z : State} {s : State} {k : Nat} {p : Nat} {f : TimSource → TimSource} (kz : Keeps z s) : Keeps z (modSource s k p f) := by
  unfold modSource
  repeat' first
    | with_reducible assumption | simp -zeta only [keeps_upd]

theorem showSource_keeps {z : State} {s : State} (kz : Keeps z s) : Keeps z (showSource s) := by
  unfold showSource
  repeat' first
    | with_reducible assumption | with_reducible apply wfs_keeps | with_reducible apply wf_keeps
    | with_reducible refine Keeps.ite ?_ ?_ | split

theorem selectSource_keeps {z : State} {s : State} (kz : Keeps z s) : Keeps z (selectSource s) := by
  unfold selectSource
  repeat' first
    | with_reducible assumption | with_reducible apply showSource_keeps | with_reducible apply setTimSt_keeps
    | with_reducible apply setTimFine_keeps | with_reducible apply timEvent_keeps | simp -zeta only [keeps_upd]
    | (extract_lets +onlyGivenNames v; refine Keeps.cut (z := z) v ?_ (fun hv => ?_); subst v; rotate_left; clear_value v)
    | (extract_lets +onlyGivenNames v; first | clear_value v | subst v) | with_reducible refine Keeps.ite ?_ ?_

theorem sourceLost_keeps {z : State} {s : State} {k : Nat} {p : Nat} (kz : Keeps z s) : Keeps z (sourceLost s k p) := by
  unfold sourceLost
  repeat' first
    | with_reducible assumption | with_reducible apply selectSource_keeps | simp -zeta only [keeps_upd]
    | with_reducible refine Keeps.ite ?_ ?_

theorem growBound_keeps {z : State} {s : State} (kz : Keeps z s) : Keeps z (growBound s) := by
  unfold growBound
  repeat' first
    | with_reducible assumption | with_reducible apply wn_keeps | simp -zeta only [keeps_upd]
    | (extract_lets +onlyGivenNames v; refine Keeps.cut (z := z) v ?_ (fun hv => ?_); subst v; rotate_left; first | clear_value v | subst v)
    | (extract_lets +onlyGivenNames v; first | clear_value v | subst v) | dsimp -zeta only

theorem startBound_keeps {z : State} {s : State} {theta : Nat} (kz : Keeps z s) : Keeps z (startBound s theta) := by
  unfold startBound
  repeat' first
    | with_reducible assumption | with_reducible apply wn_keeps | simp -zeta only [keeps_upd]

end Sys2Proof.Machine
end

