-- ==== Sys2Proof/Laws/KeepsLinks.lean ====
section
/-! SUPPORT. Every operation of Sys2Proof.Machine.Links keeps what Keeps says. -/
namespace Sys2Proof.Machine

theorem setLink_keeps {z : State} {s : State} {p : Nat} {x : SecLink} (kz : Keeps z s) : Keeps z (setLink s p x) := by
  unfold setLink
  repeat' first
    | with_reducible assumption | with_reducible apply wfs_keeps | simp -zeta only [keeps_upd]
    | (extract_lets +onlyGivenNames v; refine Keeps.cut (z := z) v ?_ (fun hv => ?_); subst v; rotate_left; clear_value v)
    | (extract_lets +onlyGivenNames v; clear_value v) | with_reducible refine Keeps.ite ?_ ?_

theorem setPortLanes_keeps {z : State} {r : PortRec} {b : Bool} {s : State} (kz : Keeps z s) : Keeps z (setPortLanes r b s) := by
  unfold setPortLanes
  repeat' first
    | with_reducible assumption | with_reducible apply setLaneReady_keeps | with_reducible refine Keeps.foldl _ _ ?_ (fun _ _ _ => ?_)

theorem linkLeaves_keeps {z : State} {s : State} {p : Nat} {st : Nat} (kz : Keeps z s) : Keeps z (linkLeaves s p st) := by
  unfold linkLeaves
  repeat' first
    | with_reducible assumption | with_reducible apply setPortLanes_keeps | with_reducible apply setLink_keeps
    | with_reducible apply sourceLost_keeps | with_reducible apply learnLost_keeps | with_reducible apply settle_keeps
    | with_reducible apply dropCredits_keeps | simp -zeta only [keeps_upd]
    | (extract_lets +onlyGivenNames v; refine Keeps.cut (z := z) v ?_ (fun hv => ?_); subst v; rotate_left; clear_value v)
    | (extract_lets +onlyGivenNames v; clear_value v) | with_reducible refine Keeps.ite ?_ ?_ | split

theorem linkDown_keeps {z : State} {s : State} {p : Nat} (kz : Keeps z s) : Keeps z (linkDown s p) := by
  unfold linkDown
  repeat' first
    | with_reducible assumption | with_reducible apply linkLeaves_keeps | with_reducible refine Keeps.ite ?_ ?_

theorem handshakeMsg_keeps {z : State} {s : State} {p : Nat} {typ : Nat} {reason : Nat} {body : List Sys2Proof.Byte} (kz : Keeps z s) : Keeps z (handshakeMsg s p typ reason body) := by
  unfold handshakeMsg
  repeat' first
    | with_reducible assumption | with_reducible apply linkMsg_keeps | with_reducible refine Keeps.foldl _ _ ?_ (fun _ _ _ => ?_)
    | (extract_lets +onlyGivenNames v; refine Keeps.cut (z := z) v ?_ (fun hv => ?_); subst v; rotate_left; first | clear_value v | subst v)
    | (extract_lets +onlyGivenNames v; first | clear_value v | subst v) | dsimp -zeta only

theorem startHandshake_keeps {z : State} {s : State} {p : Nat} (kz : Keeps z s) : Keeps z (startHandshake s p) := by
  unfold startHandshake
  repeat' first
    | with_reducible assumption | with_reducible apply setLink_keeps | with_reducible apply handshakeMsg_keeps
    | simp -zeta only [keeps_upd]
    | (extract_lets +onlyGivenNames v; first | clear_value v | subst v) | with_reducible refine Keeps.free ?_ kz.fresh

theorem tryHandshake_keeps {z : State} {s : State} {p : Nat} (kz : Keeps z s) : Keeps z (tryHandshake s p) := by
  unfold tryHandshake
  repeat' first
    | with_reducible assumption | with_reducible apply startHandshake_keeps | with_reducible refine Keeps.ite ?_ ?_ | split

end Sys2Proof.Machine
end

