-- ==== Sys2Proof/Laws/KeepsTile.lean ====
section
/-! SUPPORT. Every operation of Sys2Proof.Machine.Tile keeps what Keeps says. -/
namespace Sys2Proof.Machine

theorem showTrim_keeps {z : State} {s : State} (kz : Keeps z s) : Keeps z (showTrim s) := by
  unfold showTrim
  repeat' first
    | with_reducible assumption | with_reducible apply wn_keeps | with_reducible apply wfs_keeps
    | (extract_lets +onlyGivenNames v; refine Keeps.cut (z := z) v ?_ (fun hv => ?_); subst v; rotate_left; clear_value v)
    | (extract_lets +onlyGivenNames v; clear_value v) | with_reducible refine Keeps.ite ?_ ?_

theorem applyTrim_keeps {z : State} {s : State} {p : Nat} {i : Nat} (kz : Keeps z s) : Keeps z (applyTrim s p i) := by
  unfold applyTrim
  repeat' first
    | with_reducible assumption | with_reducible apply showTrim_keeps | simp -zeta only [keeps_upd]

theorem loadTrims_keeps {z : State} {s : State} (kz : Keeps z s) : Keeps z (loadTrims s) := by
  unfold loadTrims
  repeat' first
    | with_reducible assumption | with_reducible apply showTrim_keeps
    | with_reducible refine Keeps.foldl _ _ ?_ (fun _ _ _ => ?_) | simp -zeta only [keeps_upd]

theorem setLaneOf_keeps {z : State} {s : State} {l : Nat} {x : LaneSt} (kz : Keeps z s) : Keeps z (setLaneOf s l x) := by
  unfold setLaneOf
  repeat' first
    | with_reducible assumption | with_reducible apply wf_keeps | simp -zeta only [keeps_upd]

theorem setLaneAge_keeps {z : State} {s : State} {l : Nat} {a : Nat} (kz : Keeps z s) : Keeps z (setLaneAge s l a) := by
  unfold setLaneAge
  repeat' first
    | with_reducible assumption | with_reducible apply wf_keeps

theorem laneStart_keeps {z : State} {s : State} {l : Nat} {rx : Bool} (kz : Keeps z s) : Keeps z (laneStart s l rx) := by
  unfold laneStart
  repeat' first
    | with_reducible assumption | with_reducible apply setLaneDir_keeps | with_reducible refine Keeps.ite ?_ ?_

theorem laneLeaves_keeps {z : State} {s : State} {l : Nat} {rx : Bool} {st : Nat} (kz : Keeps z s) : Keeps z (laneLeaves s l rx st) := by
  unfold laneLeaves
  repeat' first
    | with_reducible assumption | with_reducible apply linkDown_keeps | with_reducible apply settle_keeps
    | with_reducible apply setLaneDir_keeps | with_reducible apply setLaneReady_keeps
    | (extract_lets +onlyGivenNames v; refine Keeps.cut (z := z) v ?_ (fun hv => ?_); subst v; rotate_left; clear_value v)
    | (extract_lets +onlyGivenNames v; first | clear_value v | subst v) | with_reducible refine Keeps.ite ?_ ?_ | split

theorem showSpares_keeps {z : State} {s : State} {t : Nat} (kz : Keeps z s) : Keeps z (showSpares s t) := by
  unfold showSpares
  repeat' first
    | with_reducible assumption | with_reducible apply wf_keeps

theorem setSpare_keeps {z : State} {s : State} {t : Nat} {k : Nat} {st : Nat} {lane : Nat} (kz : Keeps z s) : Keeps z (setSpare s t k st lane) := by
  unfold setSpare
  repeat' first
    | with_reducible assumption | with_reducible apply showSpares_keeps | with_reducible apply wfs_keeps

theorem sirHead_keeps {z : State} {s : State} {t : Nat} {mode : Nat} {status : Nat} {bins : Nat} {first : Nat} (kz : Keeps z s) : Keeps z (sirHead s t mode status bins first) := by
  unfold sirHead
  repeat' first
    | with_reducible assumption | with_reducible apply wn_keeps

theorem sirEnd_keeps {z : State} {s : State} {t : Nat} {status : Nat} (kz : Keeps z s) : Keeps z (sirEnd s t status) := by
  unfold sirEnd
  repeat' first
    | with_reducible assumption | with_reducible apply setSpare_keeps | with_reducible apply sirHead_keeps
    | with_reducible apply optEvent_keeps | with_reducible apply wf_keeps | with_reducible apply wfs_keeps
    | simp -zeta only [keeps_upd]
    | (extract_lets +onlyGivenNames v; refine Keeps.cut (z := z) v ?_ (fun hv => ?_); subst v; rotate_left; clear_value v)
    | (extract_lets +onlyGivenNames v; clear_value v) | split

theorem sirPartial_keeps {z : State} {s : State} {t : Nat} (kz : Keeps z s) : Keeps z (sirPartial s t) := by
  unfold sirPartial
  repeat' first
    | with_reducible assumption | with_reducible apply wn_keeps | with_reducible apply wf_keeps
    | with_reducible refine Keeps.foldl _ _ ?_ (fun _ _ _ => ?_) | simp -zeta only [keeps_upd]
    | (extract_lets +onlyGivenNames v; subst v) | split | with_reducible refine Keeps.free ?_ kz.fresh
    | with_reducible refine Keeps.free ?_ hv.fresh | with_reducible refine Keeps.free ?_ (Nat.le_add_right_of_le kz.fresh)

theorem sirPreempt_keeps {z : State} {s : State} {t : Nat} {needs : SirRun → Bool} (kz : Keeps z s) : Keeps z (sirPreempt s t needs) := by
  unfold sirPreempt
  repeat' first
    | with_reducible assumption | with_reducible apply sirEnd_keeps | with_reducible apply sirPartial_keeps
    | with_reducible refine Keeps.ite ?_ ?_ | split

theorem takeSpare_keeps {z : State} {s : State} {t : Nat} {k : Nat} {st : Nat} {lane : Nat} (kz : Keeps z s) : Keeps z (takeSpare s t k st lane) := by
  unfold takeSpare
  repeat' first
    | with_reducible assumption | with_reducible apply setSpare_keeps | with_reducible apply sirPreempt_keeps

theorem switchSpare_keeps {z : State} {s : State} {l : Nat} {k : Nat} (kz : Keeps z s) : Keeps z (switchSpare s l k) := by
  unfold switchSpare
  repeat' first
    | with_reducible assumption | with_reducible apply setSpare_keeps | with_reducible apply wf_keeps | simp -zeta only [keeps_upd]
    | with_reducible refine Keeps.otp ?_ ⟨rfl, rfl, rfl, rfl, rfl⟩

theorem failSpare_keeps {z : State} {s : State} {t : Nat} {k : Nat} (kz : Keeps z s) : Keeps z (failSpare s t k) := by
  unfold failSpare
  repeat' first
    | with_reducible assumption | with_reducible apply setSpare_keeps | simp -zeta only [keeps_upd] | split
    | with_reducible refine Keeps.otp ?_ ⟨rfl, rfl, rfl, rfl, rfl⟩

theorem dropLaneSpare_keeps {z : State} {s : State} {l : Nat} (kz : Keeps z s) : Keeps z (dropLaneSpare s l) := by
  unfold dropLaneSpare
  repeat' first
    | with_reducible assumption | with_reducible apply failSpare_keeps | simp -zeta only [keeps_upd] | split
    | with_reducible refine Keeps.otp ?_ ⟨rfl, rfl, rfl, rfl, rfl⟩

theorem freeLaneSpare_keeps {z : State} {s : State} {l : Nat} (kz : Keeps z s) : Keeps z (freeLaneSpare s l) := by
  unfold freeLaneSpare
  repeat' first
    | with_reducible assumption | with_reducible apply setLaneOf_keeps | with_reducible apply setSpare_keeps
    | simp -zeta only [keeps_upd] | split

theorem retireLane_keeps {z : State} {s : State} {l : Nat} (kz : Keeps z s) : Keeps z (retireLane s l) := by
  unfold retireLane
  repeat' first
    | with_reducible assumption | with_reducible apply dropLaneSpare_keeps | with_reducible apply freeLaneSpare_keeps
    | with_reducible apply laneLeaves_keeps | with_reducible apply setLaneAge_keeps | with_reducible apply settle_keeps
    | with_reducible apply optEvent_keeps | with_reducible apply fsrStore_keeps | with_reducible apply bump64_keeps
    | simp -zeta only [keeps_upd] | with_reducible refine Keeps.otp ?_ ⟨rfl, rfl, rfl, rfl, rfl⟩

theorem setFibre_keeps {z : State} {s : State} {t : Nat} {f : Nat} {st : Nat} (kz : Keeps z s) : Keeps z (setFibre s t f st) := by
  unfold setFibre
  repeat' first
    | with_reducible assumption | with_reducible apply wf_keeps

theorem fibreSafe_keeps {z : State} {s : State} {t : Nat} {f : Nat} {wait : Nat} (kz : Keeps z s) : Keeps z (fibreSafe s t f wait) := by
  unfold fibreSafe
  repeat' first
    | with_reducible assumption | with_reducible apply setFibre_keeps | simp -zeta only [keeps_upd]

theorem tileShow_keeps {z : State} {s : State} {t : Nat} (kz : Keeps z s) : Keeps z (tileShow s t) := by
  unfold tileShow
  repeat' first
    | with_reducible assumption | with_reducible apply setSpare_keeps | with_reducible apply showSpares_keeps
    | with_reducible apply setLaneAge_keeps | with_reducible apply wfs_keeps | with_reducible apply wf_keeps
    | with_reducible refine Keeps.foldl _ _ ?_ (fun _ _ _ => ?_)
    | (extract_lets +onlyGivenNames v; refine Keeps.cut (z := z) v ?_ (fun hv => ?_); subst v; rotate_left; clear_value v)
    | (extract_lets +onlyGivenNames v; clear_value v) | with_reducible refine Keeps.ite ?_ ?_

theorem tilesPowered_keeps {z : State} {s : State} {d : Nat} (kz : Keeps z s) : Keeps z (tilesPowered s d) := by
  unfold tilesPowered
  repeat' first
    | with_reducible assumption | with_reducible apply fibreSafe_keeps | with_reducible apply tileShow_keeps
    | with_reducible refine Keeps.foldl _ _ ?_ (fun _ _ _ => ?_)

theorem startLanes_keeps {z : State} {s : State} {d : Nat} (kz : Keeps z s) : Keeps z (startLanes s d) := by
  unfold startLanes
  repeat' first
    | with_reducible assumption | with_reducible apply laneStart_keeps | with_reducible refine Keeps.foldl _ _ ?_ (fun _ _ _ => ?_)

theorem lasersOff_keeps {z : State} {s : State} (kz : Keeps z s) : Keeps z (lasersOff s) := by
  unfold lasersOff
  repeat' first
    | with_reducible assumption | with_reducible apply laneLeaves_keeps | with_reducible apply linkDown_keeps
    | with_reducible refine Keeps.foldl _ _ ?_ (fun _ _ _ => ?_)

end Sys2Proof.Machine
end

