-- ==== Sys2Proof/Laws/KeepsReset.lean ====
section
/-! SUPPORT. Every operation of Sys2Proof.Machine.Reset keeps what Keeps says. -/
namespace Sys2Proof.Machine

theorem loseDune_keeps {z s : State} {d : Nat} (h : Keeps z s) : Keeps z (loseDune s d) := by
  unfold loseDune
  refine showCqErrors_keeps (Keeps.of h (fun w => SMap.wf_filter _ _ _ w) (fun w => ?_) rfl rfl rfl rfl rfl)
  dsimp only
  split
  · exact SMap.wf_filter _ _ _ w
  · exact w

theorem duneUnready_keeps {z : State} {s : State} {d : Nat} (kz : Keeps z s) : Keeps z (duneUnready s d) := by
  unfold duneUnready
  repeat' first
    | with_reducible assumption | with_reducible apply setStackReady_keeps | with_reducible apply wn_keeps
    | with_reducible refine Keeps.foldl _ _ ?_ (fun _ _ _ => ?_)
    | (extract_lets +onlyGivenNames v; first | clear_value v | subst v) | with_reducible refine Keeps.ite ?_ ?_

theorem duneUnread_keeps {z : State} {s : State} {d : Nat} (kz : Keeps z s) : Keeps z (duneUnread s d) := by
  unfold duneUnread
  repeat' first
    | with_reducible assumption | with_reducible apply wn_keeps | with_reducible refine Keeps.foldl _ _ ?_ (fun _ _ _ => ?_)
    | with_reducible refine Keeps.ite ?_ ?_ | split

theorem duneOff_keeps {z : State} {s : State} {d : Nat} {st : Nat} (kz : Keeps z s) : Keeps z (duneOff s d st) := by
  unfold duneOff
  repeat' first
    | with_reducible assumption | with_reducible apply duneUnready_keeps | with_reducible apply loseDune_keeps
    | with_reducible apply duneUnread_keeps | with_reducible apply tileShow_keeps | with_reducible apply linkDown_keeps
    | with_reducible apply settle_keeps | with_reducible apply setLaneReady_keeps | with_reducible apply setDuneSt_keeps
    | with_reducible apply showPgMain_keeps | with_reducible apply placeShadows_keeps | with_reducible apply shadowsLose_keeps
    | with_reducible refine Keeps.foldl _ _ ?_ (fun _ _ _ => ?_) | simp -zeta only [keeps_upd]
    | (extract_lets +onlyGivenNames v; refine Keeps.cut (z := z) v ?_ (fun hv => ?_); subst v; rotate_left; first | clear_value v | subst v)
    | (extract_lets +onlyGivenNames v; first | clear_value v | subst v) | with_reducible refine Keeps.ite ?_ ?_ | split
    | dsimp -zeta only

/-- What a warm reset leaves of the registers is in canonical form. -/
theorem wfFrom_warm (m : SMap Word) (lo : Nat) (w : SMap.wfFrom regReset lo m = true) :
    SMap.wfFrom regReset lo (m.filterMap warmValue) = true := by
  have key : ∀ e e', warmValue e = some e' → e.2 ≠ regReset e.1 → e'.1 = e.1 ∧ e'.2 ≠ regReset e'.1 := by
    intro e e' he hn
    unfold warmValue at he
    dsimp only at he
    split at he
    · cases he
      exact ⟨rfl, hn⟩
    · split at he
      · cases he
      · split at he
        · cases he
        · rw [Option.ite_none_left_eq_some] at he
          obtain ⟨q, he⟩ := he
          injection he with he
          subst he
          exact ⟨rfl, q⟩
  induction m generalizing lo with
  | nil => rfl
  | cons e m ih =>
    obtain ⟨k, v⟩ := e
    simp only [SMap.wfFrom, Bool.and_eq_true, decide_eq_true_eq] at w
    rw [List.filterMap_cons]
    split
    · exact SMap.wfFrom_le _ _ (by omega) (ih _ w.2)
    · rename_i e' he
      have q := key _ _ he w.1.2
      obtain ⟨k', v'⟩ := e'
      simp only at q
      simp only [SMap.wfFrom, Bool.and_eq_true, decide_eq_true_eq, q.1] at q ⊢
      exact ⟨⟨w.1.1, q.2⟩, ih _ w.2⟩

theorem warmReset_keeps {z s : State} {cause : Nat} (h : Keeps z s) : Keeps z (warmReset s cause) := by
  unfold warmReset
  extract_lets s1 _ plat _ hif _ img _ mgt _ _ s2 s3 s4 s5
  have h1 : Keeps z s1 := Keeps.foldl _ _ h (fun _ _ k => linkDown_keeps k)
  have h2 : Keeps z s2 := Keeps.of h1 (fun w => wfFrom_warm _ 0 w) (fun _ => rfl) rfl rfl rfl rfl rfl
  have h5 : Keeps z s5 := wf_keeps (wf_keeps (wf_keeps (wfs_keeps h2)))
  exact signal_keeps (settle_keeps (showSeed_keeps (showPgMain_keeps (showSections_keeps (loadTrims_keeps
    (Keeps.foldl _ _ h5 (fun _ _ k => tileShow_keeps k)))))))

theorem platformRestart_keeps {z s : State} {cause : Nat} (h : Keeps z s) : Keeps z (platformRestart s cause) := by
  unfold platformRestart
  extract_lets reload _ plat _ pins _ s1 s2 s3 s4 s5 s6 s7 s8
  have h1 : Keeps z s1 := Keeps.of h (fun w => SMap.wf_filter _ _ _ w) (fun _ => rfl) rfl rfl rfl rfl rfl
  have h2 : Keeps z s2 := wf_keeps (wf_keeps h1)
  have h3 : Keeps z s3 := by
    unfold s3
    split
    · exact h2
    · exact wf_keeps h2
  have h4 : Keeps z s4 := wn_keeps (wf_keeps h3)
  have h5 : Keeps z s5 := Keeps.foldl _ _ h4 (fun _ _ k => wn_keeps (wn_keeps k))
  have h6 : Keeps z s6 := wf_keeps (showOwner_keeps h5)
  have h7 : Keeps z s7 := showBytes_keeps (wn_keeps h6)
  have h8 : Keeps z s8 := setImgSt_keeps (Keeps.foldl _ _ (newDebugNonce_keeps h7) (fun _ _ k => tileShow_keeps k))
  split
  · exact signal_keeps h8
  · exact h8

theorem coldEnd_keeps {z : State} {s : State} {cause : Nat} (kz : Keeps z s) : Keeps z (coldEnd s cause) := by
  unfold coldEnd
  repeat' first
    | with_reducible assumption | with_reducible apply platformRestart_keeps | simp -zeta only [keeps_upd]
    | with_reducible refine Keeps.ite ?_ ?_ | split

theorem coldStart_keeps {z : State} {s : State} {cause : Nat} (kz : Keeps z s) : Keeps z (coldStart s cause) := by
  unfold coldStart
  repeat' first
    | with_reducible assumption | with_reducible apply coldEnd_keeps | with_reducible apply lasersOff_keeps
    | simp -zeta only [keeps_upd]
    | (extract_lets +onlyGivenNames v; refine Keeps.cut (z := z) v ?_ (fun hv => ?_); subst v; rotate_left; clear_value v)
    | (extract_lets +onlyGivenNames v; clear_value v) | with_reducible refine Keeps.ite ?_ ?_ | split

theorem auxLoss_keeps {z s : State} (h : Keeps z s) : Keeps z (auxLoss s) :=
  Keeps.of h (fun w => SMap.wf_filter _ _ _ w) (fun _ => rfl) rfl rfl rfl rfl rfl

end Sys2Proof.Machine
end

