-- ==== Sys2Proof/Laws/KeepsFence.lean ====
section
/-! SUPPORT. Every operation of Sys2Proof.Machine.Fence keeps what Keeps says. -/
namespace Sys2Proof.Machine

theorem setFenceSt_keeps {z : State} {s : State} {p : Nat} {st : Nat} (kz : Keeps z s) : Keeps z (setFenceSt s p st) := by
  unfold setFenceSt
  repeat' first
    | with_reducible assumption | with_reducible apply wf_keeps

theorem unfenceStart_keeps {z : State} {s : State} {p : Nat} (kz : Keeps z s) : Keeps z (unfenceStart s p) := by
  unfold unfenceStart
  repeat' first
    | with_reducible assumption | with_reducible apply setFenceSt_keeps | with_reducible apply wf_keeps
    | (extract_lets +onlyGivenNames v; refine Keeps.cut (z := z) v ?_ (fun hv => ?_); subst v; rotate_left; clear_value v)
    | (extract_lets +onlyGivenNames v; first | clear_value v | subst v) | with_reducible refine Keeps.ite ?_ ?_

theorem fenceEnd_keeps {z : State} {s : State} {p : Nat} (kz : Keeps z s) : Keeps z (fenceEnd s p) := by
  unfold fenceEnd
  repeat' first
    | with_reducible assumption | with_reducible apply setFenceSt_keeps | with_reducible apply unfenceStart_keeps
    | with_reducible apply mgtEvent_keeps | simp -zeta only [keeps_upd]
    | (extract_lets +onlyGivenNames v; refine Keeps.cut (z := z) v ?_ (fun hv => ?_); subst v; rotate_left; clear_value v)
    | (extract_lets +onlyGivenNames v; clear_value v) | with_reducible refine Keeps.ite ?_ ?_

theorem fenceSeq_keeps {z : State} {s : State} {p : Nat} (kz : Keeps z s) : Keeps z (fenceSeq s p) := by
  unfold fenceSeq
  repeat' first
    | with_reducible assumption | with_reducible apply fenceEnd_keeps | simp -zeta only [keeps_upd]
    | (extract_lets +onlyGivenNames v; first | clear_value v | subst v) | with_reducible refine Keeps.ite ?_ ?_

theorem fenceNext_keeps {z : State} {s : State} (kz : Keeps z s) : Keeps z (fenceNext s) := by
  unfold fenceNext
  repeat' first
    | with_reducible assumption | with_reducible apply fenceSeq_keeps | with_reducible refine Keeps.ite ?_ ?_ | split

theorem unfenceCheck_keeps {z : State} {s : State} {d : Nat} (kz : Keeps z s) : Keeps z (unfenceCheck s d) := by
  unfold unfenceCheck
  repeat' first
    | with_reducible assumption | with_reducible apply setFenceSt_keeps | with_reducible refine Keeps.ite ?_ ?_ | split

end Sys2Proof.Machine
end

