-- ==== Sys2Proof/Laws/KeepsHeld.lean ====
section
/-! SUPPORT. Every operation of Sys2Proof.Machine.Held keeps what Keeps says. -/
namespace Sys2Proof.Machine

theorem heldBlock_keeps {z : State} {s : State} {a : Nat} (kz : Keeps z s) : Keeps z (heldBlock s a) := by
  unfold heldBlock
  repeat' first
    | with_reducible assumption | with_reducible apply timEvent_keeps | with_reducible apply schEvent_keeps
    | with_reducible apply bump64_keeps
    | (extract_lets +onlyGivenNames v; first | clear_value v | subst v) | with_reducible refine Keeps.ite ?_ ?_

theorem heldRefuse_keeps {z : State} {s : State} {a : Nat} (kz : Keeps z s) : Keeps z (heldRefuse s a) := by
  unfold heldRefuse
  repeat' first
    | with_reducible assumption | with_reducible apply heldBlock_keeps | with_reducible apply bump64_keeps

theorem heldWrite_keeps {z : State} {s : State} {a : Nat} {v : Sys2Proof.Word} (kz : Keeps z s) : Keeps z (heldWrite s a v) := by
  unfold heldWrite
  repeat' first
    | with_reducible assumption | with_reducible apply heldRefuse_keeps | with_reducible apply wr_keeps
    | (extract_lets +onlyGivenNames v; refine Keeps.cut (z := z) v ?_ (fun hv => ?_); subst v; rotate_left; clear_value v)
    | (extract_lets +onlyGivenNames v; first | clear_value v | subst v) | with_reducible refine Keeps.ite ?_ ?_ | split

end Sys2Proof.Machine
end

