-- ==== Sys2Proof/Laws/KeepsBulk.lean ====
section
/-! SUPPORT. Every operation of Sys2Proof.Machine.Bulk keeps what Keeps says. -/
namespace Sys2Proof.Machine

theorem loadGates_keeps {z : State} {s : State} {r : GateRec} (kz : Keeps z s) : Keeps z (loadGates s r) := by
  unfold loadGates
  repeat' first
    | with_reducible assumption | with_reducible apply setPgSt_keeps | with_reducible apply setPg_keeps
    | with_reducible apply schEvent_keeps | with_reducible apply wf_keeps | with_reducible refine Keeps.foldl _ _ ?_ (fun _ _ _ => ?_)
    | simp -zeta only [keeps_upd]
    | (extract_lets +onlyGivenNames v; refine Keeps.cut (z := z) v ?_ (fun hv => ?_); subst v; rotate_left; first | clear_value v | subst v)
    | (extract_lets +onlyGivenNames v; first | clear_value v | subst v) | dsimp -zeta only

theorem bulkApply_keeps {z : State} {s : State} {d : Nat} {e : Nat} {first : Bool} {t : List Sys2Proof.Byte} (kz : Keeps z s) : Keeps z (bulkApply s d e first t) := by
  unfold bulkApply
  repeat' first
    | with_reducible assumption | with_reducible apply loadGates_keeps | with_reducible apply setRteTable_keeps
    | with_reducible apply applyRecord_keeps | with_reducible apply wf_keeps
    | (with_reducible refine Keeps.foldlFst _ _ ?_ ?_; rotate_left; rintro ⟨_, _⟩ _ _)
    | with_reducible refine Keeps.foldl _ _ ?_ (fun _ _ _ => ?_)
    | (extract_lets +onlyGivenNames v; refine Keeps.cut (z := z) v ?_ (fun hv => ?_); subst v; rotate_left; first | clear_value v | subst v)
    | (extract_lets +onlyGivenNames v; refine Keeps.cut (z := z) v.1 ?_ (fun hv => ?_); subst v; rotate_left; first | clear_value v | subst v)
    | (extract_lets +onlyGivenNames v; first | clear_value v | subst v) | with_reducible refine Keeps.ite ?_ ?_ | split
    | dsimp -zeta only

theorem unload_keeps {z : State} {s : State} {r : Sys2Proof.TblRec} (kz : Keeps z s) : Keeps z (unload s r) := by
  unfold unload
  repeat' first
    | with_reducible assumption | with_reducible apply update_keeps | with_reducible apply dropRoute_keeps
    | with_reducible refine Keeps.ite ?_ ?_ | split | dsimp -zeta only

theorem microcodeLost_keeps {z : State} {s : State} {gone : Nat → Bool} (kz : Keeps z s) : Keeps z (microcodeLost s gone) := by
  unfold microcodeLost
  repeat' first
    | with_reducible assumption | with_reducible apply setEngReady_keeps | with_reducible apply setEngSt_keeps
    | with_reducible refine Keeps.foldl _ _ ?_ (fun _ _ _ => ?_)
    | (extract_lets +onlyGivenNames v; refine Keeps.cut (z := z) v ?_ (fun hv => ?_); subst v; rotate_left; clear_value v)
    | (extract_lets +onlyGivenNames v; first | clear_value v | subst v) | with_reducible refine Keeps.ite ?_ ?_

theorem bulkUndo_keeps {z : State} {s : State} {e : Nat} {t : List Sys2Proof.Byte} (kz : Keeps z s) : Keeps z (bulkUndo s e t) := by
  unfold bulkUndo
  repeat' first
    | with_reducible assumption | with_reducible apply unload_keeps | with_reducible apply microcodeLost_keeps
    | with_reducible apply setPgSt_keeps | with_reducible apply setPg_keeps | with_reducible apply setRteTable_keeps
    | with_reducible apply wf_keeps | with_reducible refine Keeps.foldl _ _ ?_ (fun _ _ _ => ?_) | simp -zeta only [keeps_upd]
    | (extract_lets +onlyGivenNames v; refine Keeps.cut (z := z) v ?_ (fun hv => ?_); subst v; rotate_left; first | clear_value v | subst v)
    | (extract_lets +onlyGivenNames v; first | clear_value v | subst v) | with_reducible refine Keeps.ite ?_ ?_ | split
    | dsimp -zeta only

theorem bulkDiscard_keeps {z : State} {s : State} {i : Nat} {e : Nat} {code : Nat} (kz : Keeps z s) : Keeps z (bulkDiscard s i e code) := by
  unfold bulkDiscard
  repeat' first
    | with_reducible assumption | with_reducible apply bulkUndo_keeps | with_reducible apply microcodeLost_keeps
    | with_reducible apply wfs_keeps | with_reducible apply wf_keeps | with_reducible apply setMapBit_keeps
    | simp -zeta only [keeps_upd]
    | (extract_lets +onlyGivenNames v; refine Keeps.cut (z := z) v ?_ (fun hv => ?_); subst v; rotate_left; clear_value v)
    | (extract_lets +onlyGivenNames v; clear_value v) | with_reducible refine Keeps.ite ?_ ?_ | split

theorem checkLoaded_keeps {z : State} {s : State} (kz : Keeps z s) : Keeps z (checkLoaded s) := by
  unfold checkLoaded
  repeat' first
    | with_reducible assumption | with_reducible apply sealLogged_keeps | with_reducible apply setImgSt_keeps
    | (extract_lets +onlyGivenNames v; refine Keeps.cut (z := z) v ?_ (fun hv => ?_); subst v; rotate_left; clear_value v)
    | (extract_lets +onlyGivenNames v; first | clear_value v | subst v) | with_reducible refine Keeps.ite ?_ ?_

theorem execBulkSectionActivate_keeps {z : State} {d : Fin 8} {idx : Fin 256} {sec : Sys2Proof.ImgSection} {s : State} (kz : Keeps z s) : KeepsNext z (execBulkSectionActivate d idx sec s) := by
  unfold execBulkSectionActivate
  repeat' first
    | with_reducible assumption | with_reducible refine Keeps.next ?_ | with_reducible apply checkLoaded_keeps
    | with_reducible apply bulkApply_keeps | with_reducible apply bulkDiscard_keeps | with_reducible apply settle_keeps
    | with_reducible apply showSections_keeps | simp -zeta only [keeps_upd]
    | (extract_lets +onlyGivenNames v; first | clear_value v | subst v) | with_reducible refine Keeps.ite ?_ ?_ | split

end Sys2Proof.Machine
end

