-- ==== Sys2Proof/Laws/KeepsPower.lean ====
section
/-! SUPPORT. Every operation of Sys2Proof.Machine.Power keeps what Keeps says. -/
namespace Sys2Proof.Machine

theorem showSupplies_keeps {z : State} {s : State} (kz : Keeps z s) : Keeps z (showSupplies s) := by
  unfold showSupplies
  repeat' first
    | with_reducible assumption | with_reducible apply wfs_keeps

theorem execAuxPowerUp_keeps {z : State} {s : State} (kz : Keeps z s) : KeepsNext z (execAuxPowerUp s) := by
  unfold execAuxPowerUp
  repeat' first
    | with_reducible assumption | with_reducible refine Keeps.next ?_ | with_reducible apply showSupplies_keeps
    | simp -zeta only [keeps_upd]
    | (extract_lets +onlyGivenNames v; refine Keeps.cut (z := z) v ?_ (fun hv => ?_); subst v; rotate_left; clear_value v)
    | (extract_lets +onlyGivenNames v; clear_value v) | with_reducible refine Keeps.ite ?_ ?_

theorem execResetRelease_keeps {z : State} {straps : Fin 4} {s : State} (kz : Keeps z s) : KeepsNext z (execResetRelease straps s) := by
  unfold execResetRelease
  repeat' first
    | with_reducible assumption | with_reducible refine Keeps.next ?_ | with_reducible apply platformRestart_keeps
    | simp -zeta only [keeps_upd]
    | (extract_lets +onlyGivenNames v; refine Keeps.cut (z := z) v ?_ (fun hv => ?_); subst v; rotate_left; clear_value v)
    | (extract_lets +onlyGivenNames v; first | clear_value v | subst v) | with_reducible refine Keeps.ite ?_ ?_

theorem execResetAssert_keeps {z : State} {s : State} (kz : Keeps z s) : KeepsNext z (execResetAssert s) := by
  unfold execResetAssert
  repeat' first
    | with_reducible assumption | with_reducible refine Keeps.next ?_ | with_reducible apply coldStart_keeps
    | simp -zeta only [keeps_upd] | with_reducible refine Keeps.ite ?_ ?_

theorem execAuxInputLoss_keeps {z : State} {s : State} (kz : Keeps z s) : KeepsNext z (execAuxInputLoss s) := by
  unfold execAuxInputLoss
  repeat' first
    | with_reducible assumption | with_reducible refine Keeps.next ?_ | with_reducible apply auxLoss_keeps
    | with_reducible refine Keeps.ite ?_ ?_

theorem execVin48Good_keeps {z : State} {s : State} (kz : Keeps z s) : KeepsNext z (execVin48Good s) := by
  unfold execVin48Good
  repeat' first
    | with_reducible assumption | with_reducible refine Keeps.next ?_ | with_reducible apply showSupplies_keeps
    | simp -zeta only [keeps_upd]
    | (extract_lets +onlyGivenNames v; clear_value v) | with_reducible refine Keeps.ite ?_ ?_

theorem execVin48OutOfRange_keeps {z : State} {s : State} (kz : Keeps z s) : KeepsNext z (execVin48OutOfRange s) := by
  unfold execVin48OutOfRange
  repeat' first
    | with_reducible assumption | with_reducible refine Keeps.next ?_ | with_reducible apply showSupplies_keeps
    | with_reducible apply pwrEvent_keeps | simp -zeta only [keeps_upd]
    | (extract_lets +onlyGivenNames v; first | clear_value v | subst v) | with_reducible refine Keeps.ite ?_ ?_

theorem execVaux5OutOfRange_keeps {z : State} {s : State} (kz : Keeps z s) : KeepsNext z (execVaux5OutOfRange s) := by
  unfold execVaux5OutOfRange
  repeat' first
    | with_reducible assumption | with_reducible refine Keeps.next ?_ | with_reducible apply pwrEvent_keeps
    | with_reducible apply wf_keeps | with_reducible refine Keeps.ite ?_ ?_

theorem execTriadInLockStep_keeps {z : State} {s : State} (kz : Keeps z s) : KeepsNext z (execTriadInLockStep s) := by
  unfold execTriadInLockStep
  repeat' first
    | with_reducible assumption | with_reducible refine Keeps.next ?_ | with_reducible apply refreshReady_keeps
    | with_reducible apply wf_keeps | simp -zeta only [keeps_upd]
    | (extract_lets +onlyGivenNames v; refine Keeps.cut (z := z) v ?_ (fun hv => ?_); subst v; rotate_left; clear_value v)
    | (extract_lets +onlyGivenNames v; clear_value v) | with_reducible refine Keeps.ite ?_ ?_

theorem execThermalTrip_keeps {z : State} {sensor : Fin 208} {s : State} (kz : Keeps z s) : KeepsNext z (execThermalTrip sensor s) := by
  unfold execThermalTrip
  repeat' first
    | with_reducible assumption | with_reducible refine Keeps.next ?_ | with_reducible apply coldEnd_keeps
    | with_reducible apply lasersOff_keeps | with_reducible apply fsrStore_keeps | with_reducible apply wfs_keeps
    | with_reducible apply signal_keeps | with_reducible apply emit_keeps | simp -zeta only [keeps_upd]
    | (extract_lets +onlyGivenNames v; refine Keeps.cut (z := z) v ?_ (fun hv => ?_); subst v; rotate_left; first | clear_value v | subst v)
    | (extract_lets +onlyGivenNames v; first | clear_value v | subst v) | with_reducible refine Keeps.ite ?_ ?_ | split
    | dsimp -zeta only

theorem seqEnd_keeps {z : State} {s : State} {k : SeqKind} (kz : Keeps z s) : Keeps z (seqEnd s k) := by
  unfold seqEnd
  repeat' first
    | with_reducible assumption | with_reducible apply fenceNext_keeps | with_reducible apply fenceEnd_keeps
    | with_reducible apply coldEnd_keeps | simp -zeta only [keeps_upd]
    | (extract_lets +onlyGivenNames v; refine Keeps.cut (z := z) v ?_ (fun hv => ?_); subst v; rotate_left; clear_value v)
    | (extract_lets +onlyGivenNames v; clear_value v) | split

theorem execSequencedDuneOff_keeps {z : State} {s : State} (kz : Keeps z s) : KeepsNext z (execSequencedDuneOff s) := by
  unfold execSequencedDuneOff
  repeat' first
    | with_reducible assumption | with_reducible refine Keeps.next ?_ | with_reducible apply seqEnd_keeps
    | with_reducible apply duneOff_keeps | simp -zeta only [keeps_upd]
    | (extract_lets +onlyGivenNames v; refine Keeps.cut (z := z) v ?_ (fun hv => ?_); subst v; rotate_left; clear_value v)
    | (extract_lets +onlyGivenNames v; clear_value v) | with_reducible refine Keeps.ite ?_ ?_ | split

theorem resetRequest_keeps {z : State} {s : State} {v : Sys2Proof.Word} (kz : Keeps z s) : Keeps z (resetRequest s v) := by
  unfold resetRequest
  repeat' first
    | with_reducible assumption | with_reducible apply coldStart_keeps | with_reducible apply warmReset_keeps
    | simp -zeta only [keeps_upd] | with_reducible refine Keeps.ite ?_ ?_

theorem execSoftwareWarmReset_keeps {z : State} {v : Sys2Proof.Word} {s : State} (kz : Keeps z s) : KeepsNext z (execSoftwareWarmReset v s) := by
  unfold execSoftwareWarmReset
  repeat' first
    | with_reducible assumption | with_reducible refine Keeps.next ?_ | with_reducible apply resetRequest_keeps
    | with_reducible refine Keeps.ite ?_ ?_

theorem execSoftwareColdReset_keeps {z : State} {v : Sys2Proof.Word} {s : State} (kz : Keeps z s) : KeepsNext z (execSoftwareColdReset v s) := by
  unfold execSoftwareColdReset
  repeat' first
    | with_reducible assumption | with_reducible refine Keeps.next ?_ | with_reducible apply resetRequest_keeps
    | with_reducible refine Keeps.ite ?_ ?_

theorem execImageReload_keeps {z : State} {v : Sys2Proof.Word} {s : State} (kz : Keeps z s) : KeepsNext z (execImageReload v s) := by
  unfold execImageReload
  repeat' first
    | with_reducible assumption | with_reducible refine Keeps.next ?_ | with_reducible apply coldStart_keeps
    | with_reducible refine Keeps.ite ?_ ?_

theorem execImageSeal_keeps {z : State} {v : Sys2Proof.Word} {s : State} (kz : Keeps z s) : KeepsNext z (execImageSeal v s) := by
  unfold execImageSeal
  repeat' first
    | with_reducible assumption | with_reducible refine Keeps.next ?_ | with_reducible apply heldWrite_keeps
    | with_reducible apply sealLogged_keeps | with_reducible apply wf_keeps | with_reducible refine Keeps.ite ?_ ?_

theorem execImageHeaderRead_keeps {z : State} {h0 : Sys2Proof.HdrRead} {h1 : Sys2Proof.HdrRead} {hostOk : Bool} {s : State} (kz : Keeps z s) : KeepsNext z (execImageHeaderRead h0 h1 hostOk s) := by
  unfold execImageHeaderRead
  repeat' first
    | with_reducible assumption | with_reducible refine Keeps.next ?_ | with_reducible apply setImgSt_keeps
    | with_reducible apply imageFail_keeps | with_reducible apply wfs_keeps | simp -zeta only [keeps_upd]
    | (extract_lets +onlyGivenNames v; refine Keeps.cut (z := z) v ?_ (fun hv => ?_); subst v; rotate_left; first | clear_value v | subst v)
    | (extract_lets +onlyGivenNames v; first | clear_value v | subst v) | with_reducible refine Keeps.ite ?_ ?_ | split
    | dsimp -zeta only

theorem imageAccept_keeps {z : State} {s : State} {img : Sys2Proof.Image} (kz : Keeps z s) : Keeps z (imageAccept s img) := by
  unfold imageAccept
  repeat' first
    | with_reducible assumption | with_reducible apply tileShow_keeps | with_reducible apply loadTrims_keeps
    | with_reducible apply showBytes_keeps | with_reducible apply secLog_keeps | with_reducible apply showSeed_keeps
    | with_reducible apply showSections_keeps | with_reducible apply setImgSt_keeps | with_reducible apply wn_keeps
    | with_reducible apply wfs_keeps | with_reducible refine Keeps.foldl _ _ ?_ (fun _ _ _ => ?_) | simp -zeta only [keeps_upd]

theorem execImageVerifyDone_keeps {z : State} {img : Sys2Proof.Image} {s : State} (kz : Keeps z s) : KeepsNext z (execImageVerifyDone img s) := by
  unfold execImageVerifyDone
  repeat' first
    | with_reducible assumption | with_reducible refine Keeps.next ?_ | with_reducible apply imageAccept_keeps
    | with_reducible apply refreshReady_keeps | with_reducible apply setImgSt_keeps | with_reducible apply imageFail_keeps
    | with_reducible refine Keeps.ite ?_ ?_ | split

theorem applyDuneTrims_keeps {z : State} {s : State} {d : Nat} (kz : Keeps z s) : Keeps z (applyDuneTrims s d) := by
  unfold applyDuneTrims
  repeat' first
    | with_reducible assumption | with_reducible apply applyTrim_keeps
    | with_reducible refine Keeps.foldl _ _ ?_ (fun _ _ _ => ?_)

theorem execDuneDomainEnable_keeps {z : State} {s : State} (kz : Keeps z s) : KeepsNext z (execDuneDomainEnable s) := by
  unfold execDuneDomainEnable
  repeat' first
    | with_reducible assumption | with_reducible refine Keeps.next ?_ | with_reducible apply applyDuneTrims_keeps
    | with_reducible apply debugColdEnd_keeps | with_reducible apply mirrorEpochUp_keeps | with_reducible apply setDuneSt_keeps
    | with_reducible apply setImgSt_keeps
    | (extract_lets +onlyGivenNames v; refine Keeps.cut (z := z) v ?_ (fun hv => ?_); subst v; rotate_left; first | clear_value v | subst v)
    | (extract_lets +onlyGivenNames v; first | clear_value v | subst v) | with_reducible refine Keeps.ite ?_ ?_ | split
    | dsimp -zeta only

theorem duneFailed_keeps {z : State} {s : State} {d : Nat} (kz : Keeps z s) : Keeps z (duneFailed s d) := by
  unfold duneFailed
  repeat' first
    | with_reducible assumption | with_reducible apply checkLoaded_keeps | with_reducible apply unfenceCheck_keeps
    | with_reducible apply duneOff_keeps | with_reducible apply settle_keeps | with_reducible apply showSections_keeps
    | with_reducible apply fsrStore_keeps

theorem execDuneRailsRegulated_keeps {z : State} {d : Fin 8} {s : State} (kz : Keeps z s) : KeepsNext z (execDuneRailsRegulated d s) := by
  unfold execDuneRailsRegulated
  repeat' first
    | with_reducible assumption | with_reducible refine Keeps.next ?_ | with_reducible apply tilesPowered_keeps
    | with_reducible apply refreshReady_keeps | with_reducible apply showPgMain_keeps | with_reducible apply setDuneSt_keeps
    | with_reducible refine Keeps.ite ?_ ?_

theorem execDuneRampTimeout_keeps {z : State} {d : Fin 8} {s : State} (kz : Keeps z s) : KeepsNext z (execDuneRampTimeout d s) := by
  unfold execDuneRampTimeout
  repeat' first
    | with_reducible assumption | with_reducible refine Keeps.next ?_ | with_reducible apply duneFailed_keeps
    | with_reducible refine Keeps.ite ?_ ?_

theorem execDuneCalDone_keeps {z : State} {d : Fin 8} {paceOk : Bool} {s : State} (kz : Keeps z s) : KeepsNext z (execDuneCalDone d paceOk s) := by
  unfold execDuneCalDone
  repeat' first
    | with_reducible assumption | with_reducible refine Keeps.next ?_ | with_reducible apply duneFailed_keeps
    | with_reducible apply refreshReady_keeps | with_reducible apply setDuneSt_keeps | with_reducible refine Keeps.ite ?_ ?_

theorem imagePools_keeps {z : State} {s : State} {d : Nat} {p : Nat} (kz : Keeps z s) : Keeps z (imagePools s d p) := by
  unfold imagePools
  repeat' first
    | with_reducible assumption | with_reducible apply wf_keeps | with_reducible refine Keeps.foldl _ _ ?_ (fun _ _ _ => ?_)
    | (extract_lets +onlyGivenNames v; refine Keeps.cut (z := z) v ?_ (fun hv => ?_); subst v; rotate_left; clear_value v)
    | (extract_lets +onlyGivenNames v; clear_value v) | with_reducible refine Keeps.ite ?_ ?_

theorem imageMarks_keeps {z : State} {s : State} {d : Nat} (kz : Keeps z s) : Keeps z (imageMarks s d) := by
  unfold imageMarks
  repeat' first
    | with_reducible assumption | with_reducible apply wf_keeps | with_reducible refine Keeps.foldl _ _ ?_ (fun _ _ _ => ?_)

theorem imageQueues_keeps {z : State} {s : State} {d : Nat} (kz : Keeps z s) : Keeps z (imageQueues s d) := by
  unfold imageQueues
  repeat' first
    | with_reducible assumption | with_reducible apply wf_keeps | with_reducible refine Keeps.foldl _ _ ?_ (fun _ _ _ => ?_)

theorem imageValues_keeps {z : State} {s : State} {d : Nat} (kz : Keeps z s) : Keeps z (imageValues s d) := by
  unfold imageValues
  repeat' first
    | with_reducible assumption | with_reducible apply imagePools_keeps | with_reducible apply imageQueues_keeps
    | with_reducible apply imageMarks_keeps | with_reducible apply showPools_keeps
    | with_reducible refine Keeps.foldl _ _ ?_ (fun _ _ _ => ?_)

theorem startReplay_keeps {z : State} {s : State} {d : Nat} (kz : Keeps z s) : Keeps z (startReplay s d) := by
  unfold startReplay
  repeat' first
    | with_reducible assumption | with_reducible apply wf_keeps | simp -zeta only [keeps_upd]
    | (extract_lets +onlyGivenNames v; refine Keeps.cut (z := z) v ?_ (fun hv => ?_); subst v; rotate_left; first | clear_value v | subst v)
    | (extract_lets +onlyGivenNames v; first | clear_value v | subst v) | dsimp -zeta only

theorem duneEnterUp_keeps {z : State} {s : State} {d : Nat} (kz : Keeps z s) : Keeps z (duneEnterUp s d) := by
  unfold duneEnterUp
  repeat' first
    | with_reducible assumption | with_reducible apply imageValues_keeps | with_reducible apply startReplay_keeps
    | with_reducible apply startLanes_keeps | with_reducible apply checkBudget_keeps | with_reducible apply latchRsv_keeps
    | with_reducible apply setDuneSt_keeps | with_reducible apply showTables_keeps
    | with_reducible refine Keeps.foldl _ _ ?_ (fun _ _ _ => ?_)
    | (extract_lets +onlyGivenNames v; refine Keeps.cut (z := z) v ?_ (fun hv => ?_); subst v; rotate_left; first | clear_value v | subst v)
    | (extract_lets +onlyGivenNames v; first | clear_value v | subst v) | dsimp -zeta only

theorem execDuneTestDone_keeps {z : State} {d : Fin 8} {memOk : Bool} {s : State} (kz : Keeps z s) : KeepsNext z (execDuneTestDone d memOk s) := by
  unfold execDuneTestDone
  repeat' first
    | with_reducible assumption | with_reducible refine Keeps.next ?_ | with_reducible apply duneFailed_keeps
    | with_reducible apply duneEnterUp_keeps | with_reducible apply unfenceCheck_keeps | with_reducible apply settle_keeps
    | with_reducible refine Keeps.ite ?_ ?_

theorem execPwrTelemetryUpdate_keeps {z : State} {r : Sys2Proof.PwrReadings} {s : State} (kz : Keeps z s) : KeepsNext z (execPwrTelemetryUpdate r s) := by
  unfold execPwrTelemetryUpdate
  repeat' first
    | with_reducible assumption | with_reducible refine Keeps.next ?_ | with_reducible apply pwrEvent_keeps
    | with_reducible apply wn_keeps | with_reducible apply wf_keeps | with_reducible refine Keeps.foldl _ _ ?_ (fun _ _ _ => ?_)
    | (extract_lets +onlyGivenNames v; refine Keeps.cut (z := z) v ?_ (fun hv => ?_); subst v; rotate_left; clear_value v)
    | (extract_lets +onlyGivenNames v; subst v) | with_reducible refine Keeps.ite ?_ ?_

theorem execPwrPeakRead_keeps {z : State} {s : State} (kz : Keeps z s) : KeepsNext z (execPwrPeakRead s) := by
  unfold execPwrPeakRead
  repeat' first
    | with_reducible assumption | with_reducible refine Keeps.next ?_ | with_reducible apply wn_keeps | with_reducible apply emit_keeps
    | with_reducible refine Keeps.ite ?_ ?_

theorem execTrimUserWrite_keeps {z : State} {v : Sys2Proof.Word} {s : State} (kz : Keeps z s) : KeepsNext z (execTrimUserWrite v s) := by
  unfold execTrimUserWrite
  repeat' first
    | with_reducible assumption | with_reducible refine Keeps.next ?_ | with_reducible apply heldWrite_keeps
    | with_reducible apply showTrim_keeps | simp -zeta only [keeps_upd]
    | (extract_lets +onlyGivenNames v; first | clear_value v | subst v) | with_reducible refine Keeps.ite ?_ ?_

end Sys2Proof.Machine
end

