-- ==== Sys2Proof/Laws/KeepsHostIf.lean ====
section
/-! SUPPORT. Every operation of Sys2Proof.Machine.HostIf keeps what Keeps says. -/
namespace Sys2Proof.Machine

theorem offlineAccess_keeps {z : State} {s : State} (kz : Keeps z s) : Keeps z (offlineAccess s) := by
  unfold offlineAccess
  repeat' first
    | with_reducible assumption | with_reducible apply hifErr_keeps | with_reducible apply bump32_keeps

theorem apertureBad_keeps {z : State} {s : State} (kz : Keeps z s) : Keeps z (apertureBad s) := by
  unfold apertureBad
  repeat' first
    | with_reducible assumption | with_reducible apply hifErr_keeps | with_reducible apply bump32_keeps

theorem windowAccess_keeps {z : State} {s : State} {a : Nat} (kz : Keeps z s) : Keeps z (windowAccess s a) := by
  unfold windowAccess
  repeat' first
    | with_reducible assumption | with_reducible apply offlineAccess_keeps | with_reducible refine Keeps.ite ?_ ?_ | split

theorem execBadAccess_keeps {z : State} {a : BitVec 26} {isRead : Bool} {s : State} (kz : Keeps z s) : KeepsNext z (execBadAccess a isRead s) := by
  unfold execBadAccess
  repeat' first
    | with_reducible assumption | with_reducible refine Keeps.next ?_ | with_reducible apply windowAccess_keeps
    | with_reducible apply apertureBad_keeps | with_reducible apply hifErr_keeps | with_reducible apply emit_keeps
    | with_reducible refine Keeps.ite ?_ ?_ | split

theorem execOfflineDuneAccess_keeps {z : State} {a : BitVec 26} {isRead : Bool} {s : State} (kz : Keeps z s) : KeepsNext z (execOfflineDuneAccess a isRead s) := by
  unfold execOfflineDuneAccess
  repeat' first
    | with_reducible assumption | with_reducible refine Keeps.next ?_ | with_reducible apply offlineAccess_keeps
    | with_reducible apply emit_keeps | with_reducible refine Keeps.ite ?_ ?_ | split

theorem execCounterLoRead_keeps {z : State} {a : BitVec 26} {s : State} (kz : Keeps z s) : KeepsNext z (execCounterLoRead a s) := by
  unfold execCounterLoRead
  repeat' first
    | with_reducible assumption | with_reducible refine Keeps.next ?_ | with_reducible apply emit_keeps | simp -zeta only [keeps_upd]
    | (extract_lets +onlyGivenNames v; refine Keeps.cut (z := z) v ?_ (fun hv => ?_); subst v; rotate_left; clear_value v)
    | (extract_lets +onlyGivenNames v; clear_value v) | with_reducible refine Keeps.ite ?_ ?_

theorem execHostSubmit_keeps {z : State} {d : Fin 8} {q : Fin 2048} {off : Fin 64} {bytes : List Sys2Proof.Byte} {s : State} (kz : Keeps z s) : KeepsNext z (execHostSubmit d q off bytes s) := by
  unfold execHostSubmit
  repeat' first
    | with_reducible assumption | with_reducible refine Keeps.next ?_ | with_reducible apply offlineAccess_keeps
    | with_reducible apply apertureBad_keeps | with_reducible apply cqOffer_keeps | with_reducible refine Keeps.ite ?_ ?_

theorem doorbellDenied_keeps {z : State} {s : State} (kz : Keeps z s) : Keeps z (doorbellDenied s) := by
  unfold doorbellDenied
  repeat' first
    | with_reducible assumption | with_reducible apply hifErr_keeps | with_reducible apply bump32_keeps

theorem doorbell_keeps {z : State} {s : State} {c : Sys2Proof.Cfh} {ripple : Nat} {fits : Bool} {act : State → State} (kz : Keeps z s) (hact : ∀ t, Keeps z t → Keeps z (act t)) : Keeps z (doorbell s c ripple fits act) := by
  unfold doorbell
  repeat' first
    | with_reducible assumption | with_reducible apply doorbellDenied_keeps | with_reducible apply bump32_keeps | apply hact
    | (extract_lets +onlyGivenNames v; first | clear_value v | subst v) | with_reducible refine Keeps.ite ?_ ?_

theorem execDoorbellSubmit_keeps {z : State} {c : Sys2Proof.Cfh} {payload : List Sys2Proof.Byte} {s : State} (kz : Keeps z s) : KeepsNext z (execDoorbellSubmit c payload s) := by
  unfold execDoorbellSubmit
  repeat' first
    | with_reducible assumption | with_reducible refine Keeps.next ?_ | with_reducible intro _
    | with_reducible apply doorbellDenied_keeps | with_reducible apply doorbell_keeps | with_reducible apply cqOffer_keeps
    | (extract_lets +onlyGivenNames v; first | clear_value v | subst v) | with_reducible refine Keeps.ite ?_ ?_

theorem execDoorbellCounterAdd_keeps {z : State} {c : Sys2Proof.Cfh} {payload : List Sys2Proof.Byte} {s : State} (kz : Keeps z s) : KeepsNext z (execDoorbellCounterAdd c payload s) := by
  unfold execDoorbellCounterAdd
  repeat' first
    | with_reducible assumption | with_reducible refine Keeps.next ?_ | with_reducible intro _
    | with_reducible apply doorbellDenied_keeps | with_reducible apply doorbell_keeps | with_reducible apply addCounter_keeps
    | (extract_lets +onlyGivenNames v; first | clear_value v | subst v) | with_reducible refine Keeps.ite ?_ ?_

theorem cqWriteCfg_keeps {z : State} {s : State} {d : Nat} {q : Nat} {v : Sys2Proof.Word} (kz : Keeps z s) : Keeps z (cqWriteCfg s d q v) := by
  unfold cqWriteCfg
  repeat' first
    | with_reducible assumption | with_reducible apply wfs_keeps

theorem enableQueue_keeps {z : State} {s : State} {d : Nat} {q : Nat} (kz : Keeps z s) : Keeps z (enableQueue s d q) := by
  unfold enableQueue
  repeat' first
    | with_reducible assumption | with_reducible apply setCqState_keeps | with_reducible apply latchCq_keeps
    | with_reducible apply cqError_keeps | with_reducible apply wf_keeps
    | (extract_lets +onlyGivenNames v; refine Keeps.cut (z := z) v ?_ (fun hv => ?_); subst v; rotate_left; first | clear_value v | subst v)
    | (extract_lets +onlyGivenNames v; first | clear_value v | subst v) | with_reducible refine Keeps.ite ?_ ?_ | split
    | dsimp -zeta only

theorem execCqEnable_keeps {z : State} {d : Fin 8} {q : Fin 2048} {v : Sys2Proof.Word} {s : State} (kz : Keeps z s) : KeepsNext z (execCqEnable d q v s) := by
  unfold execCqEnable
  repeat' first
    | with_reducible assumption | with_reducible refine Keeps.next ?_ | with_reducible apply cqWriteCfg_keeps
    | with_reducible apply enableQueue_keeps | with_reducible apply heldWrite_keeps
    | (extract_lets +onlyGivenNames v; refine Keeps.cut (z := z) v ?_ (fun hv => ?_); subst v; rotate_left; first | clear_value v | subst v)
    | (extract_lets +onlyGivenNames v; first | clear_value v | subst v) | with_reducible refine Keeps.ite ?_ ?_ | split
    | dsimp -zeta only

theorem execCqDisable_keeps {z : State} {d : Fin 8} {q : Fin 2048} {v : Sys2Proof.Word} {s : State} (kz : Keeps z s) : KeepsNext z (execCqDisable d q v s) := by
  unfold execCqDisable
  repeat' first
    | with_reducible assumption | with_reducible refine Keeps.next ?_ | with_reducible apply cqWriteCfg_keeps
    | with_reducible apply heldWrite_keeps | with_reducible apply drainCq_keeps | with_reducible refine Keeps.ite ?_ ?_

theorem execCqQuiescedToDisabled_keeps {z : State} {d : Fin 8} {q : Fin 2048} {s : State} (kz : Keeps z s) : KeepsNext z (execCqQuiescedToDisabled d q s) := by
  unfold execCqQuiescedToDisabled
  repeat' first
    | with_reducible assumption | with_reducible refine Keeps.next ?_ | with_reducible apply setCqState_keeps
    | with_reducible refine Keeps.ite ?_ ?_

theorem execEventCounterWrite_keeps {z : State} {d : Fin 8} {i : Fin 4095} {v : Sys2Proof.Word} {s : State} (kz : Keeps z s) : KeepsNext z (execEventCounterWrite d i v s) := by
  unfold execEventCounterWrite
  repeat' first
    | with_reducible assumption | with_reducible refine Keeps.next ?_ | with_reducible apply heldWrite_keeps
    | with_reducible apply wf_keeps | with_reducible refine Keeps.ite ?_ ?_

theorem cnqWriteNotice_keeps {z : State} {s : State} {d : Nat} {n : Nat} {v : Sys2Proof.Word} (kz : Keeps z s) : Keeps z (cnqWriteNotice s d n v) := by
  unfold cnqWriteNotice
  repeat' first
    | with_reducible assumption | with_reducible apply wfs_keeps

theorem cnqWriteGeometry_keeps {z : State} {s : State} {d : Nat} {n : Nat} {v : Sys2Proof.Word} (kz : Keeps z s) : Keeps z (cnqWriteGeometry s d n v) := by
  unfold cnqWriteGeometry
  repeat' first
    | with_reducible assumption | with_reducible apply wfs_keeps

theorem execCnqEnable_keeps {z : State} {d : Fin 8} {n : Fin 2048} {v : Sys2Proof.Word} {s : State} (kz : Keeps z s) : KeepsNext z (execCnqEnable d n v s) := by
  unfold execCnqEnable
  repeat' first
    | with_reducible assumption | with_reducible refine Keeps.next ?_ | with_reducible apply cnqWriteNotice_keeps
    | with_reducible apply cnqWriteGeometry_keeps | with_reducible apply heldWrite_keeps | with_reducible apply setCnq_keeps
    | with_reducible apply wf_keeps | with_reducible apply wn_keeps
    | (extract_lets +onlyGivenNames v; refine Keeps.cut (z := z) v ?_ (fun hv => ?_); subst v; rotate_left; clear_value v)
    | (extract_lets +onlyGivenNames v; first | clear_value v | subst v) | with_reducible refine Keeps.ite ?_ ?_

theorem dropStaged_keeps {z : State} {s : State} {d : Nat} {n : Nat} (kz : Keeps z s) : Keeps z (dropStaged s d n) := by
  unfold dropStaged
  repeat' first
    | with_reducible assumption | with_reducible apply setCnq_keeps | with_reducible apply cnqNotice_keeps
    | with_reducible apply bump32_keeps | simp -zeta only [keeps_upd]
    | (extract_lets +onlyGivenNames v; refine Keeps.cut (z := z) v ?_ (fun hv => ?_); subst v; rotate_left; clear_value v)
    | (extract_lets +onlyGivenNames v; clear_value v) | with_reducible refine Keeps.ite ?_ ?_

theorem execCnqDisable_keeps {z : State} {d : Fin 8} {n : Fin 2048} {v : Sys2Proof.Word} {s : State} (kz : Keeps z s) : KeepsNext z (execCnqDisable d n v s) := by
  unfold execCnqDisable
  repeat' first
    | with_reducible assumption | with_reducible refine Keeps.next ?_ | with_reducible apply cnqWriteGeometry_keeps
    | with_reducible apply cnqWriteNotice_keeps | with_reducible apply dropStaged_keeps | with_reducible apply heldWrite_keeps
    | with_reducible apply freePunts_keeps | with_reducible apply hifErr_keeps | with_reducible apply wf_keeps
    | (extract_lets +onlyGivenNames v; refine Keeps.cut (z := z) v ?_ (fun hv => ?_); subst v; rotate_left; first | clear_value v | subst v)
    | (extract_lets +onlyGivenNames v; first | clear_value v | subst v) | with_reducible refine Keeps.ite ?_ ?_ | split
    | dsimp -zeta only

theorem execCnqHeadWrite_keeps {z : State} {d : Fin 8} {n : Fin 2048} {v : Sys2Proof.Word} {s : State} (kz : Keeps z s) : KeepsNext z (execCnqHeadWrite d n v s) := by
  unfold execCnqHeadWrite
  repeat' first
    | with_reducible assumption | with_reducible refine Keeps.next ?_ | with_reducible apply freePunts_keeps
    | with_reducible apply releaseRecords_keeps | with_reducible apply setCnq_keeps | with_reducible apply drainStaged_keeps
    | with_reducible apply wr_keeps | with_reducible apply wn_keeps | simp -zeta only [keeps_upd]
    | (extract_lets +onlyGivenNames v; refine Keeps.cut (z := z) v ?_ (fun hv => ?_); subst v; rotate_left; first | clear_value v | subst v)
    | (extract_lets +onlyGivenNames v; first | clear_value v | subst v) | with_reducible refine Keeps.ite ?_ ?_ | split
    | dsimp -zeta only

theorem execCnqReadTimeout_keeps {z : State} {d : Fin 8} {n : Fin 2048} {s : State} (kz : Keeps z s) : KeepsNext z (execCnqReadTimeout d n s) := by
  unfold execCnqReadTimeout
  repeat' first
    | with_reducible assumption | with_reducible refine Keeps.next ?_ | with_reducible apply cnqNotice_keeps
    | with_reducible refine Keeps.ite ?_ ?_

theorem execCnqFlush_keeps {z : State} {d : Fin 8} {n : Fin 2048} {s : State} (kz : Keeps z s) : KeepsNext z (execCnqFlush d n s) := by
  unfold execCnqFlush
  repeat' first
    | with_reducible assumption | with_reducible refine Keeps.next ?_ | with_reducible apply freePunts_keeps
    | with_reducible apply drainStaged_keeps | with_reducible apply setCnq_keeps | with_reducible apply wf_keeps
    | simp -zeta only [keeps_upd]
    | (extract_lets +onlyGivenNames v; refine Keeps.cut (z := z) v ?_ (fun hv => ?_); subst v; rotate_left; first | clear_value v | subst v)
    | (extract_lets +onlyGivenNames v; first | clear_value v | subst v) | with_reducible refine Keeps.ite ?_ ?_ | split
    | dsimp -zeta only

theorem cnqMessage_keeps {z : State} {s : State} {d : Nat} {n : Nat} {typ : Nat} {first : Bool} {last : Bool} {seq : Nat} {count : Nat} {items : List Sys2Proof.Byte} (kz : Keeps z s) : Keeps z (cnqMessage s d n typ first last seq count items) := by
  unfold cnqMessage
  repeat' first
    | with_reducible assumption | with_reducible apply emit_keeps

theorem cnqFragments_keeps {z : State} {d : Nat} {n : Nat} {typ : Nat} {y3 : Nat} {y4 : Bool} {y5 : Nat} {y6 : List Sys2Proof.Byte} {y7 : State} (kz : Keeps z y7) : Keeps z (cnqFragments d n typ y3 y4 y5 y6 y7) := by
  induction y3 generalizing y4 y5 y6 y7 with
  | zero =>
    unfold cnqFragments
    repeat' first
      | with_reducible assumption
  | succ n ih =>
    unfold cnqFragments
    repeat' first
      | with_reducible assumption | with_reducible apply ih | with_reducible apply cnqMessage_keeps | with_reducible refine Keeps.ite ?_ ?_

theorem execCnqFabricSend_keeps {z : State} {d : Fin 8} {n : Fin 2048} {s : State} (kz : Keeps z s) : KeepsNext z (execCnqFabricSend d n s) := by
  unfold execCnqFabricSend
  repeat' first
    | with_reducible assumption | with_reducible refine Keeps.next ?_ | with_reducible apply cnqMessage_keeps
    | with_reducible apply cnqFragments_keeps | with_reducible apply freePunts_keeps | with_reducible apply releaseRecords_keeps
    | with_reducible apply setCnq_keeps | with_reducible apply drainStaged_keeps | simp -zeta only [keeps_upd]
    | (extract_lets +onlyGivenNames v; refine Keeps.cut (z := z) v ?_ (fun hv => ?_); subst v; rotate_left; first | clear_value v | subst v)
    | (extract_lets +onlyGivenNames v; first | clear_value v | subst v) | with_reducible refine Keeps.ite ?_ ?_ | split
    | dsimp -zeta only

end Sys2Proof.Machine
end

