-- ==== Sys2Proof/Laws/KeepsMgmtPort.lean ====
section
/-! SUPPORT. Every operation of Sys2Proof.Machine.MgmtPort keeps what Keeps says. -/
namespace Sys2Proof.Machine

theorem mpEmit_keeps {z : State} {s : State} {p : Nat} {m : MgmtMsg} (kz : Keeps z s) : Keeps z (mpEmit s p m) := by
  unfold mpEmit
  repeat' first
    | with_reducible assumption | with_reducible apply emit_keeps

theorem probeV4_keeps {z : State} {s : State} {p : Nat} (kz : Keeps z s) : Keeps z (probeV4 s p) := by
  unfold probeV4
  repeat' first
    | with_reducible assumption | with_reducible apply mpEmit_keeps | with_reducible refine Keeps.ite ?_ ?_

theorem probeV6_keeps {z : State} {s : State} {p : Nat} {ip : Nat} (kz : Keeps z s) : Keeps z (probeV6 s p ip) := by
  unfold probeV6
  repeat' first
    | with_reducible assumption | with_reducible apply mpEmit_keeps | with_reducible refine Keeps.ite ?_ ?_

theorem execMgmtAddrWrite_keeps {z : State} {p : Fin 2} {v6 : Bool} {w : Fin 4} {v : Sys2Proof.Word} {s : State} (kz : Keeps z s) : KeepsNext z (execMgmtAddrWrite p v6 w v s) := by
  unfold execMgmtAddrWrite
  repeat' first
    | with_reducible assumption | with_reducible refine Keeps.next ?_ | with_reducible apply probeV6_keeps
    | with_reducible apply probeV4_keeps | with_reducible apply heldWrite_keeps | with_reducible apply setMp_keeps
    | with_reducible apply wr_keeps | simp -zeta only [keeps_upd]
    | (extract_lets +onlyGivenNames v; refine Keeps.cut (z := z) v ?_ (fun hv => ?_); subst v; rotate_left; clear_value v)
    | (extract_lets +onlyGivenNames v; first | clear_value v | subst v) | with_reducible refine Keeps.ite ?_ ?_

theorem execMgmtLinkUp_keeps {z : State} {p : Fin 2} {s : State} (kz : Keeps z s) : KeepsNext z (execMgmtLinkUp p s) := by
  unfold execMgmtLinkUp
  repeat' first
    | with_reducible assumption | with_reducible refine Keeps.next ?_ | with_reducible apply probeV6_keeps
    | with_reducible apply probeV4_keeps | with_reducible apply setMp_keeps | simp -zeta only [keeps_upd]
    | (extract_lets +onlyGivenNames v; refine Keeps.cut (z := z) v ?_ (fun hv => ?_); subst v; rotate_left; clear_value v)
    | (extract_lets +onlyGivenNames v; clear_value v) | with_reducible refine Keeps.ite ?_ ?_

theorem execMgmtAddrConflict_keeps {z : State} {p : Fin 2} {v6 : Bool} {s : State} (kz : Keeps z s) : KeepsNext z (execMgmtAddrConflict p v6 s) := by
  unfold execMgmtAddrConflict
  repeat' first
    | with_reducible assumption | with_reducible refine Keeps.next ?_ | with_reducible apply setMp_keeps
    | with_reducible apply hifErr_keeps | simp -zeta only [keeps_upd]
    | (extract_lets +onlyGivenNames v; clear_value v) | with_reducible refine Keeps.ite ?_ ?_

theorem mpDiscard_keeps {z : State} {s : State} {p : Nat} (kz : Keeps z s) : Keeps z (mpDiscard s p) := by
  unfold mpDiscard
  repeat' first
    | with_reducible assumption | with_reducible apply bump32_keeps

theorem execMgmtArpRx_keeps {z : State} {p : Fin 2} {vid : Fin 4096} {target : BitVec 32} {sender : BitVec 32} {mac : BitVec 48} {s : State} (kz : Keeps z s) : KeepsNext z (execMgmtArpRx p vid target sender mac s) := by
  unfold execMgmtArpRx
  repeat' first
    | with_reducible assumption | with_reducible refine Keeps.next ?_ | with_reducible apply mpEmit_keeps
    | with_reducible apply mpDiscard_keeps | with_reducible refine Keeps.ite ?_ ?_

theorem execMgmtNdRx_keeps {z : State} {p : Fin 2} {vid : Fin 4096} {target : BitVec 128} {sender : BitVec 128} {mac : BitVec 48} {s : State} (kz : Keeps z s) : KeepsNext z (execMgmtNdRx p vid target sender mac s) := by
  unfold execMgmtNdRx
  repeat' first
    | with_reducible assumption | with_reducible refine Keeps.next ?_ | with_reducible apply mpEmit_keeps
    | with_reducible apply mpDiscard_keeps | with_reducible refine Keeps.ite ?_ ?_

theorem execMgmtEchoRx_keeps {z : State} {p : Fin 2} {vid : Fin 4096} {v6 : Bool} {dst : BitVec 128} {src : BitVec 128} {data : List Sys2Proof.Byte} {s : State} (kz : Keeps z s) : KeepsNext z (execMgmtEchoRx p vid v6 dst src data s) := by
  unfold execMgmtEchoRx
  repeat' first
    | with_reducible assumption | with_reducible refine Keeps.next ?_ | with_reducible apply mpDiscard_keeps
    | with_reducible apply mpSend_keeps | with_reducible apply setMp_keeps | simp -zeta only [keeps_upd]
    | (extract_lets +onlyGivenNames v; first | clear_value v | subst v) | with_reducible refine Keeps.ite ?_ ?_

theorem execMgmtFrameDiscard_keeps {z : State} {p : Fin 2} {f : Sys2Proof.MgmtFrame} {s : State} (kz : Keeps z s) : KeepsNext z (execMgmtFrameDiscard p f s) := by
  unfold execMgmtFrameDiscard
  repeat' first
    | with_reducible assumption | with_reducible refine Keeps.next ?_ | with_reducible apply mpDiscard_keeps
    | with_reducible refine Keeps.ite ?_ ?_

theorem execNeighbourAdvertisementRx_keeps {z : State} {p : Fin 2} {v6 : Bool} {ip : BitVec 128} {mac : BitVec 48} {s : State} (kz : Keeps z s) : KeepsNext z (execNeighbourAdvertisementRx p v6 ip mac s) := by
  unfold execNeighbourAdvertisementRx
  repeat' first
    | with_reducible assumption | with_reducible refine Keeps.next ?_ | with_reducible apply setMp_keeps | simp -zeta only [keeps_upd]
    | (extract_lets +onlyGivenNames v; clear_value v) | with_reducible refine Keeps.ite ?_ ?_

theorem execI3cRead_keeps {z : State} {r : Sys2Proof.I3cReg} {s : State} (kz : Keeps z s) : KeepsNext z (execI3cRead r s) := by
  unfold execI3cRead
  repeat' first
    | with_reducible assumption | with_reducible refine Keeps.next ?_ | with_reducible apply emit_keeps
    | with_reducible apply tickFree_keeps | with_reducible apply wn_keeps
    | (extract_lets +onlyGivenNames v; refine Keeps.cut (z := z) v ?_ (fun hv => ?_); subst v; rotate_left; clear_value v)
    | (extract_lets +onlyGivenNames v; first | clear_value v | subst v) | with_reducible refine Keeps.ite ?_ ?_ | split

theorem execI3cResetCtrlWrite_keeps {z : State} {v : Sys2Proof.Word} {s : State} (kz : Keeps z s) : KeepsNext z (execI3cResetCtrlWrite v s) := by
  unfold execI3cResetCtrlWrite
  repeat' first
    | with_reducible assumption | with_reducible refine Keeps.next ?_ | with_reducible apply resetRequest_keeps
    | with_reducible apply emit_keeps | with_reducible refine Keeps.ite ?_ ?_ | split

end Sys2Proof.Machine
end

