-- ==== Sys2Proof/Laws/KeepsUnits.lean ====
section
/-! SUPPORT. Every operation of Sys2Proof.Machine.Units keeps what Keeps says. -/
namespace Sys2Proof.Machine

theorem unitMismatch_keeps {z : State} {s : State} {d : Nat} {u : Nat} {part : Nat} {step : Nat} (kz : Keeps z s) : Keeps z (unitMismatch s d u part step) := by
  unfold unitMismatch
  repeat' first
    | with_reducible assumption | with_reducible apply chkEvent_keeps | with_reducible apply bump64_keeps
    | with_reducible apply wf_keeps

theorem unitPacket_keeps {z : State} {s : State} {d : Nat} {u : Nat} {part : Nat} {cfh : Option Sys2Proof.Cfh} {payload : List Sys2Proof.Byte} (kz : Keeps z s) : Keeps z (unitPacket s d u part cfh payload) := by
  unfold unitPacket
  repeat' first
    | with_reducible assumption | with_reducible apply unitMismatch_keeps | with_reducible apply bump64_keeps
    | with_reducible apply wn64_keeps
    | (extract_lets +onlyGivenNames v; refine Keeps.cut (z := z) v ?_ (fun hv => ?_); subst v; rotate_left; clear_value v)
    | (extract_lets +onlyGivenNames v; first | clear_value v | subst v) | with_reducible refine Keeps.ite ?_ ?_ | split

theorem monitorPkt_keeps {z : State} {s : State} {d : Nat} {q : Nat} {part : Nat} {cfh : Option Sys2Proof.Cfh} {payload : List Sys2Proof.Byte} (kz : Keeps z s) : Keeps z (monitorPkt s d q part cfh payload) := by
  unfold monitorPkt
  repeat' first
    | with_reducible assumption | with_reducible apply unitPacket_keeps | with_reducible refine Keeps.foldl _ _ ?_ (fun _ _ _ => ?_)

theorem setGroup_keeps {z : State} {s : State} {g : Nat} {x : Group} (kz : Keeps z s) : Keeps z (setGroup s g x) := by
  unfold setGroup
  repeat' first
    | with_reducible assumption | simp -zeta only [keeps_upd]

theorem colSend_keeps {z : State} {s : State} {grp : Nat} {x : Group} {dst : Nat} {m : ColMsg} (kz : Keeps z s) : Keeps z (colSend s grp x dst m) := by
  unfold colSend
  repeat' first
    | with_reducible assumption | with_reducible apply emit_keeps | with_reducible refine Keeps.ite ?_ ?_

theorem abortRequest_keeps {z : State} {s : State} {grp : Nat} {step : Nat} {status : Nat} {by_ : Option (Nat × Nat)} (kz : Keeps z s) : Keeps z (abortRequest s grp step status by_) := by
  unfold abortRequest
  repeat' first
    | with_reducible assumption | with_reducible apply colSend_keeps | with_reducible apply setGroup_keeps
    | simp -zeta only [keeps_upd]
    | (extract_lets +onlyGivenNames v; subst v) | with_reducible refine Keeps.ite ?_ ?_ | split

end Sys2Proof.Machine
end

