-- ==== Sys2Proof/Laws/KeepsPool.lean ====
section
/-! SUPPORT. Every operation of Sys2Proof.Machine.Pool keeps what Keeps says. -/
namespace Sys2Proof.Machine

theorem setEng_keeps {z : State} {s : State} {g : Nat} {e : Engine} (kz : Keeps z s) : Keeps z (setEng s g e) := by
  unfold setEng
  repeat' first
    | with_reducible assumption | with_reducible apply wfs_keeps | simp -zeta only [keeps_upd]

theorem setTq_keeps {z : State} {s : State} {r : Nat} {l : List Task} (kz : Keeps z s) : Keeps z (setTq s r l) := by
  unfold setTq
  repeat' first
    | with_reducible assumption | with_reducible apply wf_keeps | simp -zeta only [keeps_upd]

theorem queueTask_keeps {z : State} {s : State} {t : Task} (kz : Keeps z s) : Keeps z (queueTask s t) := by
  unfold queueTask
  repeat' first
    | with_reducible assumption | with_reducible apply setTq_keeps | simp -zeta only [keeps_upd]

theorem setRun_keeps {z : State} {s : State} {r : KRun} (kz : Keeps z s) : Keeps z (setRun s r) := by
  unfold setRun
  repeat' first
    | with_reducible assumption | simp -zeta only [keeps_upd]

theorem requeue_keeps {z : State} {s : State} {t : Task} (kz : Keeps z s) : Keeps z (requeue s t) := by
  unfold requeue
  repeat' first
    | with_reducible assumption | with_reducible apply setTq_keeps

theorem stopSlot_keeps {z : State} {g : Nat} {s : State} {b : Bool} (kz : Keeps z s) : Keeps z (stopSlot g s b) := by
  unfold stopSlot
  repeat' first
    | with_reducible assumption | with_reducible apply setEng_keeps | with_reducible apply requeue_keeps
    | with_reducible apply bump64_keeps
    | (extract_lets +onlyGivenNames v; refine Keeps.cut (z := z) v ?_ (fun hv => ?_); subst v; rotate_left; clear_value v)
    | (extract_lets +onlyGivenNames v; first | clear_value v | subst v) | with_reducible refine Keeps.ite ?_ ?_ | split

theorem stopTasks_keeps {z : State} {s : State} {g : Nat} (kz : Keeps z s) : Keeps z (stopTasks s g) := by
  unfold stopTasks
  repeat' first
    | with_reducible assumption | with_reducible apply stopSlot_keeps

theorem showDis_keeps {z : State} {s : State} {d : Nat} (kz : Keeps z s) : Keeps z (showDis s d) := by
  unfold showDis
  repeat' first
    | with_reducible assumption | with_reducible apply brcEvent_keeps | with_reducible apply wfs_keeps | simp -zeta only [keeps_upd]
    | (extract_lets +onlyGivenNames v; refine Keeps.cut (z := z) v ?_ (fun hv => ?_); subst v; rotate_left; clear_value v)
    | (extract_lets +onlyGivenNames v; clear_value v) | with_reducible refine Keeps.ite ?_ ?_ | split

theorem dropDone_keeps {z : State} {s : State} (kz : Keeps z s) : Keeps z (dropDone s) := by
  unfold dropDone
  repeat' first
    | with_reducible assumption | simp -zeta only [keeps_upd]

theorem poolBack_keeps {z : State} {s : State} {g : Nat} (kz : Keeps z s) : Keeps z (poolBack s g) := by
  unfold poolBack
  repeat' first
    | with_reducible assumption | simp -zeta only [keeps_upd]

theorem settleEng_keeps {z : State} {s : State} {g : Nat} (kz : Keeps z s) : Keeps z (settleEng s g) := by
  unfold settleEng
  repeat' first
    | with_reducible assumption | with_reducible apply poolBack_keeps | with_reducible apply setEngSt_keeps
    | with_reducible refine Keeps.ite ?_ ?_

theorem settleDrains_keeps {z : State} {s : State} (kz : Keeps z s) : Keeps z (settleDrains s) := by
  unfold settleDrains
  repeat' first
    | with_reducible assumption | with_reducible apply settleEng_keeps | with_reducible apply dropDone_keeps
    | with_reducible apply showDis_keeps | with_reducible refine Keeps.foldl _ _ ?_ (fun _ _ _ => ?_)

theorem enterIdle_keeps {z : State} {s : State} {g : Nat} (kz : Keeps z s) : Keeps z (enterIdle s g) := by
  unfold enterIdle
  repeat' first
    | with_reducible assumption | with_reducible apply poolBack_keeps | with_reducible apply setEngReady_keeps
    | with_reducible apply setEngSt_keeps

end Sys2Proof.Machine
end

