-- ==== Sys2Proof/Laws/KeepsDrain.lean ====
section
/-! SUPPORT. Every operation of Sys2Proof.Machine.Drain keeps what Keeps says. -/
namespace Sys2Proof.Machine

theorem setPortFn_keeps {z : State} {s : State} {p : Nat} {st : Nat} (kz : Keeps z s) : Keeps z (setPortFn s p st) := by
  unfold setPortFn
  repeat' first
    | with_reducible assumption | simp -zeta only [keeps_upd]

theorem discardPkts_keeps {z : State} {s : State} {d : Nat} {q : Nat} {gone : SwPkt → Bool} (kz : Keeps z s) : Keeps z (discardPkts s d q gone) := by
  unfold discardPkts
  repeat' first
    | with_reducible assumption | with_reducible apply dischargePkt_keeps | with_reducible apply setPagesUsed_keeps
    | with_reducible apply setHwq_keeps
    | with_reducible refine Keeps.foldl _ _ ?_ (fun _ _ _ => ?_)
    | (extract_lets +onlyGivenNames v; first | clear_value v | subst v) | split

theorem discardPort_keeps {z : State} {s : State} {p : Nat} (kz : Keeps z s) : Keeps z (discardPort s p) := by
  unfold discardPort
  repeat' first
    | with_reducible assumption | with_reducible apply discardPkts_keeps | with_reducible apply leftSlice_keeps
    | with_reducible apply bump64_keeps | (with_reducible refine Keeps.foldlFst _ _ ?_ ?_; rotate_left; rintro ⟨_, _⟩ _ _)
    | with_reducible refine Keeps.foldl _ _ ?_ (fun _ _ _ => ?_) | simp -zeta only [keeps_upd]
    | (extract_lets +onlyGivenNames v; refine Keeps.cut (z := z) v ?_ (fun hv => ?_); subst v; rotate_left; first | clear_value v | subst v)
    | (extract_lets +onlyGivenNames v; subst v) | dsimp -zeta only

theorem portOff_keeps {z : State} {s : State} {p : Nat} (kz : Keeps z s) : Keeps z (portOff s p) := by
  unfold portOff
  repeat' first
    | with_reducible assumption | with_reducible apply setPortFn_keeps | with_reducible apply linkDown_keeps

theorem disablePort_keeps {z : State} {immediate : Bool} {s : State} {p : Nat} (kz : Keeps z s) : Keeps z (disablePort immediate s p) := by
  unfold disablePort
  repeat' first
    | with_reducible assumption | with_reducible apply setPortFn_keeps | with_reducible apply portOff_keeps
    | with_reducible apply discardPort_keeps | with_reducible apply sourceLost_keeps | with_reducible apply learnLost_keeps
    | with_reducible apply settle_keeps
    | (extract_lets +onlyGivenNames v; refine Keeps.cut (z := z) v ?_ (fun hv => ?_); subst v; rotate_left; first | clear_value v | subst v)
    | (extract_lets +onlyGivenNames v; first | clear_value v | subst v) | with_reducible refine Keeps.ite ?_ ?_ | split
    | dsimp -zeta only

theorem fnProgress_keeps {z : State} {s : State} (kz : Keeps z s) : Keeps z (fnProgress s) := by
  unfold fnProgress
  repeat' first
    | with_reducible assumption | with_reducible apply portOff_keeps | with_reducible apply mgtEvent_keeps
    | with_reducible apply wfs_keeps
    | with_reducible refine Keeps.foldl _ _ ?_ (fun _ _ _ => ?_) | simp -zeta only [keeps_upd]
    | (extract_lets +onlyGivenNames v; refine Keeps.cut (z := z) v ?_ (fun hv => ?_); subst v; rotate_left; clear_value v)
    | (extract_lets +onlyGivenNames v; first | clear_value v | subst v) | with_reducible refine Keeps.ite ?_ ?_ | split

end Sys2Proof.Machine
end

