-- ==== Sys2Proof/Laws/KeepsIngress.lean ====
section
/-! SUPPORT. Every operation of Sys2Proof.Machine.Ingress keeps what Keeps says. -/
namespace Sys2Proof.Machine

theorem scrubOne_keeps {z : State} {d : Nat} {s : State} {e : Sys2Proof.ScrubErr} (kz : Keeps z s) : Keeps z (scrubOne d s e) := by
  unfold scrubOne
  repeat' first
    | with_reducible assumption | with_reducible apply showTables_keeps | with_reducible apply fwdEvent_keeps
    | with_reducible apply fsrStore_keeps | with_reducible apply bump64_keeps | simp -zeta only [keeps_upd]
    | (extract_lets +onlyGivenNames v; refine Keeps.cut (z := z) v ?_ (fun hv => ?_); subst v; rotate_left; clear_value v)
    | (extract_lets +onlyGivenNames v; clear_value v) | with_reducible refine Keeps.ite ?_ ?_

theorem lookupErr_keeps {z : State} {s : State} {d : Nat} {err : Option Sys2Proof.ScrubErr} (kz : Keeps z s) : Keeps z (lookupErr s d err) := by
  unfold lookupErr
  repeat' first
    | with_reducible assumption | with_reducible apply scrubOne_keeps | with_reducible refine Keeps.foldl _ _ ?_ (fun _ _ _ => ?_)

theorem rxError_keeps {z : State} {s : State} {p : Nat} (kz : Keeps z s) : Keeps z (rxError s p) := by
  unfold rxError
  repeat' first
    | with_reducible assumption | simp -zeta only [keeps_upd]

theorem linkHdrErr_keeps {z : State} {s : State} {d : Nat} {p : Nat} (kz : Keeps z s) : Keeps z (linkHdrErr s d p) := by
  unfold linkHdrErr
  repeat' first
    | with_reducible assumption | with_reducible apply rteEvent_keeps | with_reducible apply bump64_keeps

theorem takeReturn_keeps {z : State} {s : State} {p : Nat} {cr : Sys2Proof.CreditRet} (kz : Keeps z s) : Keeps z (takeReturn s p cr) := by
  unfold takeReturn
  repeat' first
    | with_reducible assumption | with_reducible apply setCredHeld_keeps

theorem wadiSelSeen_keeps {z : State} {s : State} {p : Nat} (kz : Keeps z s) : Keeps z (wadiSelSeen s p) := by
  unfold wadiSelSeen
  repeat' first
    | with_reducible assumption | with_reducible apply checkBudget_keeps | with_reducible apply grantAllowances_keeps
    | simp -zeta only [keeps_upd]
    | (extract_lets +onlyGivenNames v; refine Keeps.cut (z := z) v ?_ (fun hv => ?_); subst v; rotate_left; first | clear_value v | subst v)
    | (extract_lets +onlyGivenNames v; first | clear_value v | subst v) | with_reducible refine Keeps.ite ?_ ?_ | split
    | dsimp -zeta only

theorem rxNote_keeps {z : State} {s : State} {p : Nat} {cls : Nat} {grp : Nat} {step : Nat} (kz : Keeps z s) : Keeps z (rxNote s p cls grp step) := by
  unfold rxNote
  repeat' first
    | with_reducible assumption | with_reducible apply setLink_keeps

theorem puntDrop_keeps {z : State} {s : State} {d : Nat} (kz : Keeps z s) : Keeps z (puntDrop s d) := by
  unfold puntDrop
  repeat' first
    | with_reducible assumption | with_reducible apply fwdEvent_keeps | with_reducible apply bump64_keeps

theorem setPunt_keeps {z : State} {s : State} {d : Nat} {l : List PuntPkt} (kz : Keeps z s) : Keeps z (setPunt s d l) := by
  unfold setPunt
  repeat' first
    | with_reducible assumption | with_reducible apply punt_keeps | simp -zeta only [keeps_upd]

theorem punt_keeps {z : State} {s : State} {d : Nat} {p : PuntPkt} (kz : Keeps z s) : Keeps z (punt s d p) := by
  unfold punt
  repeat' first
    | with_reducible assumption | with_reducible apply puntDrop_keeps | with_reducible apply setPunt_keeps
    | with_reducible apply chargePkt_keeps | with_reducible refine Keeps.ite ?_ ?_

theorem unresolved_keeps {z : State} {s : State} {d : Nat} {reason : Nat} {k : SwPkt} (kz : Keeps z s) : Keeps z (unresolved s d reason k) := by
  unfold unresolved
  repeat' first
    | with_reducible assumption | with_reducible apply punt_keeps | with_reducible refine Keeps.ite ?_ ?_

theorem missed_keeps {z : State} {s : State} {d : Nat} {k : SwPkt} (kz : Keeps z s) : Keeps z (missed s d k) := by
  unfold missed
  repeat' first
    | with_reducible assumption | with_reducible apply unresolved_keeps | with_reducible apply bump64_keeps

theorem rebuildHit_keeps {z : State} {s : State} {d : Nat} {k : SwPkt} (kz : Keeps z s) : Keeps z (rebuildHit s d k) := by
  unfold rebuildHit
  repeat' first
    | with_reducible assumption | with_reducible apply unresolved_keeps | with_reducible apply bump64_keeps

theorem intoMesh_keeps {z : State} {s : State} {k : SwPkt} (kz : Keeps z s) : Keeps z (intoMesh s k) := by
  unfold intoMesh
  repeat' first
    | with_reducible assumption | simp -zeta only [keeps_upd]

theorem toPort_keeps {z : State} {s : State} {d : Nat} {k : SwPkt} {port : Nat} {staging : Option Nat} (kz : Keeps z s) : Keeps z (toPort s d k port staging) := by
  unfold toPort
  repeat' first
    | with_reducible assumption | with_reducible apply missed_keeps | with_reducible apply intoMesh_keeps
    | with_reducible apply bump64_keeps | simp -zeta only [keeps_upd]
    | (extract_lets +onlyGivenNames v; first | clear_value v | subst v) | with_reducible refine Keeps.ite ?_ ?_

theorem unreachable_keeps {z : State} {s : State} {d : Nat} {p : Nat} (kz : Keeps z s) : Keeps z (unreachable s d p) := by
  unfold unreachable
  repeat' first
    | with_reducible assumption | with_reducible apply rteEvent_keeps | with_reducible apply bump64_keeps

theorem toRemote_keeps {z : State} {s : State} {d : Nat} {k : SwPkt} {c : Sys2Proof.Cfh} {target : Nat} (kz : Keeps z s) : Keeps z (toRemote s d k c target) := by
  unfold toRemote
  repeat' first
    | with_reducible assumption | with_reducible apply missed_keeps | with_reducible apply unreachable_keeps
    | with_reducible apply intoMesh_keeps | with_reducible apply takeSeq_keeps
    | refine choosePort_keeps ?_ (by with_reducible assumption) | with_reducible apply rteEvent_keeps
    | with_reducible apply bump64_keeps | simp -zeta only [keeps_upd]
    | (extract_lets +onlyGivenNames v; refine Keeps.cut (z := z) v ?_ (fun hv => ?_); subst v; rotate_left; clear_value v)
    | (extract_lets +onlyGivenNames v; refine Keeps.cut (z := z) v.1 ?_ (fun hv => ?_); subst v; rotate_left; clear_value v)
    | (extract_lets +onlyGivenNames v; first | clear_value v | subst v) | with_reducible refine Keeps.ite ?_ ?_ | split

theorem onResult_keeps {z : State} {s : State} {d : Nat} {k : SwPkt} {r : Nat} (kz : Keeps z s) : Keeps z (onResult s d k r) := by
  unfold onResult
  repeat' first
    | with_reducible assumption | with_reducible apply toPort_keeps | with_reducible apply toRemote_keeps
    | with_reducible apply unresolved_keeps | with_reducible apply bump64_keeps | split

theorem withResult_keeps {z : State} {s : State} {d : Nat} {k : SwPkt} {r : Nat} {bytes : Nat} (kz : Keeps z s) : Keeps z (withResult s d k r bytes) := by
  unfold withResult
  repeat' first
    | with_reducible assumption | with_reducible apply onResult_keeps | with_reducible apply polDecide_keeps
    | with_reducible apply mirrorAll_keeps | dsimp -zeta only
    | (extract_lets +onlyGivenNames v; first | clear_value v | subst v) | with_reducible refine Keeps.ite ?_ ?_ | split

theorem onFound_keeps {z : State} {s : State} {d : Nat} {k : SwPkt} {f : Found} {bytes : Nat} (kz : Keeps z s) : Keeps z (onFound s d k f bytes) := by
  unfold onFound
  repeat' first
    | with_reducible assumption | with_reducible apply withResult_keeps | with_reducible apply missed_keeps
    | with_reducible apply rebuildHit_keeps | simp -zeta only [keeps_upd] | split

theorem fabricLookup_keeps {z : State} {s : State} {d : Nat} {p : Nat} {k : SwPkt} {c0 : Sys2Proof.Cfh} (kz : Keeps z s) : Keeps z (fabricLookup s d p k c0) := by
  unfold fabricLookup
  repeat' first
    | with_reducible assumption | with_reducible apply onFound_keeps | with_reducible apply learnSeen_keeps
    | with_reducible apply mirrorAll_keeps | with_reducible apply rteEvent_keeps | with_reducible apply bump64_keeps
    | simp -zeta only [keeps_upd]
    | (extract_lets +onlyGivenNames v; refine Keeps.cut (z := z) v ?_ (fun hv => ?_); subst v; rotate_left; clear_value v)
    | (extract_lets +onlyGivenNames v; first | clear_value v | subst v) | with_reducible refine Keeps.ite ?_ ?_

end Sys2Proof.Machine
end

