-- ==== Sys2Proof/Laws/KeepsEgress.lean ====
section
/-! SUPPORT. Every operation of Sys2Proof.Machine.Egress keeps what Keeps says. -/
namespace Sys2Proof.Machine

theorem bestDrop_keeps {z : State} {s : State} {d : Nat} {q : Nat} (kz : Keeps z s) : Keeps z (bestDrop s d q) := by
  unfold bestDrop
  repeat' first
    | with_reducible assumption | with_reducible apply bump64_keeps

theorem admitLink_keeps {z : State} {s : State} {d : Nat} {k : SwPkt} (kz : Keeps z s) : Keeps z (admitLink s d k) := by
  unfold admitLink
  repeat' first
    | with_reducible assumption | with_reducible apply linkAll_keeps | with_reducible apply chargePkt_keeps

theorem forceSpill_keeps {z : State} {s : State} {d : Nat} {q : Nat} (kz : Keeps z s) : Keeps z (forceSpill s d q) := by
  unfold forceSpill
  repeat' first
    | with_reducible assumption | with_reducible apply setHwq_keeps | simp -zeta only [keeps_upd]

theorem admitBest_keeps {z : State} {s : State} {d : Nat} {k : SwPkt} (kz : Keeps z s) : Keeps z (admitBest s d k) := by
  unfold admitBest
  repeat' first
    | with_reducible assumption | with_reducible apply bestDrop_keeps | with_reducible apply admitLink_keeps
    | with_reducible apply forceSpill_keeps | with_reducible apply wredArrive_keeps | with_reducible apply pushOut_keeps
    | refine pushOut_keeps ?_ _ (by with_reducible assumption) | with_reducible apply tickFree_keeps
    | (extract_lets +onlyGivenNames v; refine Keeps.cut (z := z) v ?_ (fun hv => ?_); subst v; rotate_left; first | clear_value v | subst v)
    | (extract_lets +onlyGivenNames v; first | clear_value v | subst v) | with_reducible refine Keeps.ite ?_ ?_ | split
    | dsimp -zeta only

theorem spillHeld_keeps {z : State} {s : State} {d : Nat} {k : SwPkt} (kz : Keeps z s) : Keeps z (spillHeld s d k) := by
  unfold spillHeld
  repeat' first
    | with_reducible assumption | with_reducible apply setDst_keeps | with_reducible apply setPagesUsed_keeps
    | with_reducible apply dischargePkt_keeps | with_reducible apply bump64_keeps | simp -zeta only [keeps_upd]
    | (extract_lets +onlyGivenNames v; refine Keeps.cut (z := z) v ?_ (fun hv => ?_); subst v; rotate_left; first | clear_value v | subst v)
    | (extract_lets +onlyGivenNames v; first | clear_value v | subst v) | with_reducible refine Keeps.ite ?_ ?_ | split
    | dsimp -zeta only

theorem admitLossless_keeps {z : State} {s : State} {d : Nat} {k : SwPkt} (kz : Keeps z s) : Keeps z (admitLossless s d k) := by
  unfold admitLossless
  repeat' first
    | with_reducible assumption | with_reducible apply spillHeld_keeps | with_reducible apply linkAll_keeps
    | with_reducible apply resequence_keeps | with_reducible apply chargePkt_keeps
    | (extract_lets +onlyGivenNames v; refine Keeps.cut (z := z) v ?_ (fun hv => ?_); subst v; rotate_left; clear_value v)
    | (extract_lets +onlyGivenNames v; first | clear_value v | subst v) | with_reducible refine Keeps.ite ?_ ?_

theorem admitPkt_keeps {z : State} {s : State} {d : Nat} {k : SwPkt} (kz : Keeps z s) : KeepsSome z (admitPkt s d k) := by
  unfold admitPkt
  repeat' first
    | with_reducible assumption | with_reducible refine Keeps.some ?_ | with_reducible exact Keeps.none
    | with_reducible apply admitBest_keeps | with_reducible apply admitLossless_keeps | with_reducible apply bump64_keeps
    | with_reducible refine Keeps.ite ?_ ?_ | split

theorem noteWait_keeps {z : State} {port : Nat} {s : State} {h : Head} (kz : Keeps z s) : Keeps z (noteWait port s h) := by
  unfold noteWait
  repeat' first
    | with_reducible assumption | with_reducible apply setPg_keeps | with_reducible apply schEvent_keeps
    | with_reducible apply bump64_keeps | simp -zeta only [keeps_upd]
    | (extract_lets +onlyGivenNames v; refine Keeps.cut (z := z) v ?_ (fun hv => ?_); subst v; rotate_left; clear_value v)
    | (extract_lets +onlyGivenNames v; first | clear_value v | subst v) | with_reducible refine Keeps.ite ?_ ?_

theorem dropNofit_keeps {z : State} {port : Nat} {y1 : Nat} {y2 : State} (kz : Keeps z y2) : Keeps z (dropNofit port y1 y2) := by
  induction y1 generalizing y2 with
  | zero =>
    unfold dropNofit
    repeat' first
      | with_reducible assumption
  | succ n ih =>
    unfold dropNofit
    repeat' first
      | with_reducible assumption | with_reducible apply ih | with_reducible apply dequeue_keeps | with_reducible apply bump64_keeps
      | (extract_lets +onlyGivenNames v; clear_value v) | split

theorem joinPort_keeps {z : State} {s : State} {port : Nat} (kz : Keeps z s) : Keeps z (joinPort s port) := by
  unfold joinPort
  repeat' first
    | with_reducible assumption | with_reducible apply joinMembers_keeps
    | with_reducible refine Keeps.foldl _ _ ?_ (fun _ _ _ => ?_)

theorem tookReturn_keeps {z : State} {s : State} {port : Nat} {cr : Option Sys2Proof.CreditRet} (kz : Keeps z s) : Keeps z (tookReturn s port cr) := by
  unfold tookReturn
  repeat' first
    | with_reducible assumption | with_reducible apply setReturns_keeps | split

theorem txNote_keeps {z : State} {s : State} {port : Nat} {n : Nat} (kz : Keeps z s) : Keeps z (txNote s port n) := by
  unfold txNote
  repeat' first
    | with_reducible assumption | with_reducible apply setLink_keeps

theorem countSent_keeps {z : State} {s : State} {port : Nat} {k : SwPkt} (kz : Keeps z s) : Keeps z (countSent s port k) := by
  unfold countSent
  repeat' first
    | with_reducible assumption | simp -zeta only [keeps_upd]
    | (extract_lets +onlyGivenNames v; clear_value v) | with_reducible refine Keeps.ite ?_ ?_ | split

theorem sendPkt_keeps {z : State} {s : State} {port : Nat} {h : Head} (kz : Keeps z s) : Keeps z (sendPkt s port h) := by
  unfold sendPkt
  repeat' first
    | with_reducible assumption | with_reducible apply countSent_keeps | with_reducible apply txNote_keeps
    | with_reducible apply tookReturn_keeps | with_reducible apply fnProgress_keeps | with_reducible apply monitorPkt_keeps
    | with_reducible apply shapeTake_keeps | with_reducible apply dequeue_keeps | with_reducible apply setCredHeld_keeps
    | with_reducible apply mirrorAll_keeps | with_reducible apply grantPort_keeps | with_reducible apply emit_keeps
    | simp -zeta only [keeps_upd]
    | (extract_lets +onlyGivenNames v; first | clear_value v | subst v) | with_reducible refine Keeps.ite ?_ ?_ | split

end Sys2Proof.Machine
end

