-- ==== Sys2Proof/Laws/KeepsFabric.lean ====
section
/-! SUPPORT. Every operation of Sys2Proof.Machine.Fabric keeps what Keeps says. -/
namespace Sys2Proof.Machine

theorem noCredit_keeps {z : State} {s : State} {p : Nat} {cls : Nat} {vc : Nat} {n : Nat} (kz : Keeps z s) : Keeps z (noCredit s p cls vc n) := by
  unfold noCredit
  repeat' first
    | with_reducible assumption | with_reducible apply setGranted_keeps | with_reducible apply leftSlice_keeps
    | with_reducible apply swcEvent_keeps | with_reducible apply bump64_keeps
    | (extract_lets +onlyGivenNames v; refine Keeps.cut (z := z) v ?_ (fun hv => ?_); subst v; rotate_left; first | clear_value v | subst v)
    | (extract_lets +onlyGivenNames v; first | clear_value v | subst v) | dsimp -zeta only

theorem fabricAccept_keeps {z : State} {s : State} {p : Nat} {lane : Nat} {h : Sys2Proof.LinkHdr} {c : Sys2Proof.Cfh} {payload : List Sys2Proof.Byte} {err : Option Sys2Proof.ScrubErr} (kz : Keeps z s) : Keeps z (fabricAccept s p lane h c payload err) := by
  unfold fabricAccept
  repeat' first
    | with_reducible assumption | with_reducible apply lookupErr_keeps | with_reducible apply rxNote_keeps
    | with_reducible apply fabricLookup_keeps | with_reducible apply leftSlice_keeps
    | (extract_lets +onlyGivenNames v; refine Keeps.cut (z := z) v ?_ (fun hv => ?_); subst v; rotate_left; first | clear_value v | subst v)
    | (extract_lets +onlyGivenNames v; first | clear_value v | subst v) | with_reducible refine Keeps.ite ?_ ?_ | split
    | dsimp -zeta only

theorem execFabricPacketIngress_keeps {z : State} {port : Fin 4096} {a : Sys2Proof.Arrival} {h : Sys2Proof.LinkHdr} {cr : Option Sys2Proof.CreditRet} {c : Sys2Proof.Cfh} {payload : List Sys2Proof.Byte} {s : State} (kz : Keeps z s) : KeepsNext z (execFabricPacketIngress port a h cr c payload s) := by
  unfold execFabricPacketIngress
  repeat' first
    | with_reducible assumption | with_reducible refine Keeps.next ?_ | with_reducible apply noCredit_keeps
    | with_reducible apply fabricAccept_keeps | with_reducible apply linkHdrErr_keeps | with_reducible apply takeReturn_keeps
    | with_reducible apply wadiSelSeen_keeps | with_reducible apply rxError_keeps | with_reducible apply setGranted_keeps
    | with_reducible apply leftSlice_keeps | with_reducible apply bump64_keeps
    | (extract_lets +onlyGivenNames v; refine Keeps.cut (z := z) v ?_ (fun hv => ?_); subst v; rotate_left; first | clear_value v | subst v)
    | (extract_lets +onlyGivenNames v; first | clear_value v | subst v) | with_reducible refine Keeps.ite ?_ ?_ | split
    | dsimp -zeta only

theorem ethPunt_keeps {z : State} {s : State} {d : Nat} {reason : Nat} {k : SwPkt} (kz : Keeps z s) : Keeps z (ethPunt s d reason k) := by
  unfold ethPunt
  repeat' first
    | with_reducible assumption | with_reducible apply punt_keeps

theorem ethFound_keeps {z : State} {s : State} {d : Nat} {k : SwPkt} {f : Found} (kz : Keeps z s) : Keeps z (ethFound s d k f) := by
  unfold ethFound
  repeat' first
    | with_reducible assumption | with_reducible apply onFound_keeps

theorem ethPlain_keeps {z : State} {s : State} {d : Nat} {p : Nat} {f : Sys2Proof.EthFrame} {k : SwPkt} (kz : Keeps z s) : Keeps z (ethPlain s d p f k) := by
  unfold ethPlain
  repeat' first
    | with_reducible assumption | with_reducible apply ethPunt_keeps | with_reducible apply ethFound_keeps
    | with_reducible apply bump64_keeps
    | (extract_lets +onlyGivenNames v; first | clear_value v | subst v) | with_reducible refine Keeps.ite ?_ ?_

theorem execEthernetFrameIngress_keeps {z : State} {port : Fin 4096} {a : Sys2Proof.Arrival} {f : Sys2Proof.EthFrame} {s : State} (kz : Keeps z s) : KeepsNext z (execEthernetFrameIngress port a f s) := by
  unfold execEthernetFrameIngress
  repeat' first
    | with_reducible assumption | with_reducible refine Keeps.next ?_ | with_reducible apply ethPlain_keeps
    | with_reducible apply rxError_keeps | with_reducible apply fabricLookup_keeps | with_reducible apply lookupErr_keeps
    | with_reducible apply learnSeen_keeps | with_reducible apply mirrorAll_keeps | with_reducible apply bump64_keeps
    | simp -zeta only [keeps_upd]
    | (extract_lets +onlyGivenNames v; refine Keeps.cut (z := z) v ?_ (fun hv => ?_); subst v; rotate_left; first | clear_value v | subst v)
    | (extract_lets +onlyGivenNames v; first | clear_value v | subst v) | with_reducible refine Keeps.ite ?_ ?_ | split
    | dsimp -zeta only

theorem nextAdmit_keeps {z s t : State} {d lane : Nat} {k : SwPkt} (h : Keeps z s) (e : nextAdmit s d lane = some (k, t)) : Keeps z t := by
  obtain ⟨x, _, hx⟩ := List.exists_of_findSome?_eq_some e
  obtain ⟨u, hu, hk⟩ := Option.map_eq_some_iff.mp hx
  cases hk
  exact admitPkt_keeps h _ hu

theorem execPacketAdmit_keeps {z : State} {out : Fin 8} {lane : Fin 2048} {s : State} (h : Keeps z s) : KeepsNext z (execPacketAdmit out lane s) := by
  unfold execPacketAdmit
  refine Keeps.next ?_
  split
  · exact h
  · rename_i k s1 e
    split
    · exact h
    · have h1 : Keeps z s1 := nextAdmit_keeps h e
      extract_lets _ s2
      have h2 : Keeps z s2 := by
        unfold s2
        rwa [keeps_upd]
      clear_value s2
      refine fnProgress_keeps ?_
      split
      · exact h2
      · exact leftSlice_keeps h2

theorem execSpillRefillArrive_keeps {z : State} {d : Fin 8} {q : Fin 16384} {bad : Bool} {s : State} (kz : Keeps z s) : KeepsNext z (execSpillRefillArrive d q bad s) := by
  unfold execSpillRefillArrive
  repeat' first
    | with_reducible assumption | with_reducible refine Keeps.next ?_ | with_reducible apply setHwq_keeps
    | with_reducible apply chargePkt_keeps | with_reducible apply setPagesUsed_keeps | with_reducible apply spillMark_keeps
    | with_reducible apply writePages_keeps | with_reducible apply askPages_keeps | with_reducible apply joinTail_keeps
    | with_reducible apply fsrStore_keeps | with_reducible apply bump64_keeps | simp -zeta only [keeps_upd]
    | (extract_lets +onlyGivenNames v; refine Keeps.cut (z := z) v ?_ (fun hv => ?_); subst v; rotate_left; first | clear_value v | subst v)
    | (extract_lets +onlyGivenNames v; first | clear_value v | subst v) | with_reducible refine Keeps.ite ?_ ?_ | split
    | dsimp -zeta only

theorem serveHead_keeps {z : State} {s : State} {port : Nat} {c : Nat} {h : Head} (kz : Keeps z s) : Keeps z (serveHead s port c h) := by
  unfold serveHead
  repeat' first
    | with_reducible assumption | with_reducible apply sendPkt_keeps | with_reducible apply serveMember_keeps
    | (extract_lets +onlyGivenNames v; first | clear_value v | subst v) | with_reducible refine Keeps.ite ?_ ?_

theorem execPortTransmitSelect_keeps {z : State} {port : Fin 4096} {s : State} (kz : Keeps z s) : KeepsNext z (execPortTransmitSelect port s) := by
  unfold execPortTransmitSelect
  repeat' first
    | with_reducible assumption | with_reducible refine Keeps.next ?_ | with_reducible apply serveHead_keeps
    | with_reducible apply joinPort_keeps | with_reducible apply dropNofit_keeps | with_reducible apply noteWait_keeps
    | with_reducible apply shapeAll_keeps | with_reducible apply bump64_keeps
    | with_reducible refine Keeps.foldl _ _ ?_ (fun _ _ _ => ?_)
    | (extract_lets +onlyGivenNames v; refine Keeps.cut (z := z) v ?_ (fun hv => ?_); subst v; rotate_left; first | clear_value v | subst v)
    | (extract_lets +onlyGivenNames v; first | clear_value v | subst v) | with_reducible refine Keeps.ite ?_ ?_ | split
    | dsimp -zeta only

theorem execCreditReturnRx_keeps {z : State} {port : Fin 4096} {h : Sys2Proof.LinkHdr} {cr : Sys2Proof.CreditRet} {s : State} (kz : Keeps z s) : KeepsNext z (execCreditReturnRx port h cr s) := by
  unfold execCreditReturnRx
  repeat' first
    | with_reducible assumption | with_reducible refine Keeps.next ?_ | with_reducible apply linkHdrErr_keeps
    | with_reducible apply takeReturn_keeps | with_reducible apply wadiSelSeen_keeps
    | (extract_lets +onlyGivenNames v; first | clear_value v | subst v) | with_reducible refine Keeps.ite ?_ ?_

theorem execCreditOnlyCellSend_keeps {z : State} {port : Fin 4096} {s : State} (kz : Keeps z s) : KeepsNext z (execCreditOnlyCellSend port s) := by
  unfold execCreditOnlyCellSend
  repeat' first
    | with_reducible assumption | with_reducible refine Keeps.next ?_ | with_reducible apply txNote_keeps
    | with_reducible apply tookReturn_keeps | with_reducible apply fnProgress_keeps | with_reducible apply emit_keeps
    | (extract_lets +onlyGivenNames v; first | clear_value v | subst v) | with_reducible refine Keeps.ite ?_ ?_ | split

theorem execPaceLow_keeps {z : State} {m : Sys2Proof.PaceReading} {s : State} (kz : Keeps z s) : KeepsNext z (execPaceLow m s) := by
  unfold execPaceLow
  repeat' first
    | with_reducible assumption | with_reducible refine Keeps.next ?_ | with_reducible apply swcEvent_keeps
    | with_reducible apply brcEvent_keeps | with_reducible apply wfs_keeps
    | (extract_lets +onlyGivenNames v; refine Keeps.cut (z := z) v ?_ (fun hv => ?_); subst v; rotate_left; first | clear_value v | subst v)
    | (extract_lets +onlyGivenNames v; first | clear_value v | subst v) | with_reducible refine Keeps.ite ?_ ?_ | split
    | dsimp -zeta only

theorem execPoolMaxWrite_keeps {z : State} {d : Fin 8} {p : Fin 16} {c : Fin 8} {v : Sys2Proof.Word} {s : State} (kz : Keeps z s) : KeepsNext z (execPoolMaxWrite d p c v s) := by
  unfold execPoolMaxWrite
  repeat' first
    | with_reducible assumption | with_reducible refine Keeps.next ?_ | with_reducible apply heldWrite_keeps
    | with_reducible apply checkBudget_keeps | with_reducible apply showPools_keeps | with_reducible apply swcEvent_keeps
    | with_reducible apply softWrite_keeps
    | (extract_lets +onlyGivenNames v; refine Keeps.cut (z := z) v ?_ (fun hv => ?_); subst v; rotate_left; first | clear_value v | subst v)
    | (extract_lets +onlyGivenNames v; first | clear_value v | subst v) | with_reducible refine Keeps.ite ?_ ?_ | split
    | dsimp -zeta only

theorem execPolicerEnable_keeps {z : State} {d : Fin 8} {i : Fin 8192} {v : Sys2Proof.Word} {s : State} (kz : Keeps z s) : KeepsNext z (execPolicerEnable d i v s) := by
  unfold execPolicerEnable
  repeat' first
    | with_reducible assumption | with_reducible refine Keeps.next ?_ | with_reducible apply heldWrite_keeps
    | with_reducible apply softWrite_keeps | simp -zeta only [keeps_upd]
    | (extract_lets +onlyGivenNames v; refine Keeps.cut (z := z) v ?_ (fun hv => ?_); subst v; rotate_left; clear_value v)
    | (extract_lets +onlyGivenNames v; first | clear_value v | subst v) | with_reducible refine Keeps.ite ?_ ?_

theorem execMirrorSessionEnable_keeps {z : State} {d : Fin 8} {m : Fin 64} {v : Sys2Proof.Word} {s : State} (kz : Keeps z s) : KeepsNext z (execMirrorSessionEnable d m v s) := by
  unfold execMirrorSessionEnable
  repeat' first
    | with_reducible assumption | with_reducible refine Keeps.next ?_ | with_reducible apply heldWrite_keeps
    | with_reducible apply swcEvent_keeps | with_reducible apply softWrite_keeps | with_reducible apply wf_keeps
    | (extract_lets +onlyGivenNames v; refine Keeps.cut (z := z) v ?_ (fun hv => ?_); subst v; rotate_left; clear_value v)
    | (extract_lets +onlyGivenNames v; first | clear_value v | subst v) | with_reducible refine Keeps.ite ?_ ?_

theorem keepPunt_keeps {z : State} {s : State} {d : Nat} {n : Nat} {p : PuntPkt} (kz : Keeps z s) : Keeps z (keepPunt s d n p) := by
  unfold keepPunt
  repeat' first
    | with_reducible assumption | simp -zeta only [keeps_upd]
    | (extract_lets +onlyGivenNames v; refine Keeps.cut (z := z) v ?_ (fun hv => ?_); subst v; rotate_left; first | clear_value v | subst v)
    | (extract_lets +onlyGivenNames v; first | clear_value v | subst v) | dsimp -zeta only

theorem execPuntDeliver_keeps {z : State} {d : Fin 8} {s : State} (kz : Keeps z s) : KeepsNext z (execPuntDeliver d s) := by
  unfold execPuntDeliver
  repeat' first
    | with_reducible assumption | with_reducible refine Keeps.next ?_ | with_reducible apply keepPunt_keeps
    | with_reducible apply setPunt_keeps | with_reducible apply puntDrop_keeps | with_reducible apply dischargePkt_keeps
    | with_reducible apply fifoPut_keeps
    | (extract_lets +onlyGivenNames v; refine Keeps.cut (z := z) v ?_ (fun hv => ?_); subst v; rotate_left; first | clear_value v | subst v)
    | (extract_lets +onlyGivenNames v; refine Keeps.cut (z := z) v.1 ?_ (fun hv => ?_); subst v; rotate_left; first | clear_value v | subst v)
    | (extract_lets +onlyGivenNames v; subst v) | with_reducible refine Keeps.ite ?_ ?_ | split | dsimp -zeta only

end Sys2Proof.Machine
end

