-- ==== Sys2Proof/Laws/KeepsForward.lean ====
section
/-! SUPPORT. Every operation of Sys2Proof.Machine.Forward keeps what Keeps says. -/
namespace Sys2Proof.Machine

theorem setUpdResult_keeps {z : State} {s : State} {c : Nat} (kz : Keeps z s) : Keeps z (setUpdResult s c) := by
  unfold setUpdResult
  repeat' first
    | with_reducible assumption | with_reducible apply wf_keeps

theorem execFwdUpdateGo_keeps {z : State} {v : Sys2Proof.Word} {s : State} (kz : Keeps z s) : KeepsNext z (execFwdUpdateGo v s) := by
  unfold execFwdUpdateGo
  repeat' first
    | with_reducible assumption | with_reducible refine Keeps.next ?_ | with_reducible apply setUpdResult_keeps
    | with_reducible apply heldRefuse_keeps | with_reducible apply relayRec_keeps | with_reducible apply applyRecord_keeps
    | (extract_lets +onlyGivenNames v; refine Keeps.cut (z := z) v ?_ (fun hv => ?_); subst v; rotate_left; clear_value v)
    | (extract_lets +onlyGivenNames v; refine Keeps.cut (z := z) v.1 ?_ (fun hv => ?_); subst v; rotate_left; clear_value v)
    | (extract_lets +onlyGivenNames v; first | clear_value v | subst v) | with_reducible refine Keeps.ite ?_ ?_

theorem execReplicaApply_keeps {z : State} {d : Fin 8} {s : State} (kz : Keeps z s) : KeepsNext z (execReplicaApply d s) := by
  unfold execReplicaApply
  repeat' first
    | with_reducible assumption | with_reducible refine Keeps.next ?_ | with_reducible apply checkLoaded_keeps
    | with_reducible apply settle_keeps | with_reducible apply applyChange_keeps | with_reducible apply showSections_keeps
    | with_reducible apply fwdEvent_keeps | simp -zeta only [keeps_upd]
    | (extract_lets +onlyGivenNames v; refine Keeps.cut (z := z) v ?_ (fun hv => ?_); subst v; rotate_left; first | clear_value v | subst v)
    | (extract_lets +onlyGivenNames v; first | clear_value v | subst v) | with_reducible refine Keeps.ite ?_ ?_ | split
    | dsimp -zeta only

theorem forgetKey_keeps {z : State} {s : State} {k : Nat × Nat × Nat} (kz : Keeps z s) : Keeps z (forgetKey s k) := by
  unfold forgetKey
  repeat' first
    | with_reducible assumption | with_reducible apply update_keeps | with_reducible apply dropRoute_keeps
    | (with_reducible refine Keeps.foldlFst _ _ ?_ ?_; rotate_left; rintro ⟨_, _⟩ _ _)
    | with_reducible refine Keeps.foldl _ _ ?_ (fun _ _ _ => ?_) | with_reducible refine Keeps.ite ?_ ?_ | split | dsimp -zeta only

theorem rebuild_keeps {z : State} {s : State} {m : Mark} (kz : Keeps z s) : Keeps z (rebuild s m) := by
  unfold rebuild
  repeat' first
    | with_reducible assumption | with_reducible apply sequence_keeps
    | (extract_lets +onlyGivenNames v; refine Keeps.cut (z := z) v ?_ (fun hv => ?_); subst v; rotate_left; first | clear_value v | subst v)
    | (extract_lets +onlyGivenNames v; first | clear_value v | subst v) | dsimp -zeta only

theorem endRefresh_keeps {z : State} {s : State} {x : Refresh} (kz : Keeps z s) : Keeps z (endRefresh s x) := by
  unfold endRefresh
  repeat' first
    | with_reducible assumption | with_reducible apply rebuild_keeps | split

theorem answered_keeps {z : State} {s : State} {r : Sys2Proof.TblRec} (kz : Keeps z s) : Keeps z (answered s r) := by
  unfold answered
  repeat' first
    | with_reducible assumption | with_reducible apply endRefresh_keeps | with_reducible refine Keeps.foldl _ _ ?_ (fun _ _ _ => ?_)
    | simp -zeta only [keeps_upd]

theorem learnOne_keeps {z : State} {port : Nat} {s : State} {r : Sys2Proof.TblRec} (kz : Keeps z s) : Keeps z (learnOne port s r) := by
  unfold learnOne
  repeat' first
    | with_reducible assumption | with_reducible apply forgetKey_keeps | with_reducible apply answered_keeps
    | with_reducible apply learnDrop_keeps | with_reducible apply relayRec_keeps | with_reducible apply applyRecord_keeps
    | (extract_lets +onlyGivenNames v; refine Keeps.cut (z := z) v ?_ (fun hv => ?_); subst v; rotate_left; clear_value v)
    | (extract_lets +onlyGivenNames v; refine Keeps.cut (z := z) v.1 ?_ (fun hv => ?_); subst v; rotate_left; clear_value v)
    | (extract_lets +onlyGivenNames v; first | clear_value v | subst v) | with_reducible refine Keeps.ite ?_ ?_

theorem execLearningMessage_keeps {z : State} {port : Fin 4096} {c : Sys2Proof.Cfh} {payload : List Sys2Proof.Byte} {s : State} (kz : Keeps z s) : KeepsNext z (execLearningMessage port c payload s) := by
  unfold execLearningMessage
  repeat' first
    | with_reducible assumption | with_reducible refine Keeps.next ?_ | with_reducible apply learnOne_keeps
    | with_reducible apply bump64_keeps | with_reducible refine Keeps.foldl _ _ ?_ (fun _ _ _ => ?_)
    | (extract_lets +onlyGivenNames v; first | clear_value v | subst v) | with_reducible refine Keeps.ite ?_ ?_

theorem clearTomb_keeps {z : State} {s : State} {e : Nat × EmEntry} (kz : Keeps z s) : Keeps z (clearTomb s e) := by
  unfold clearTomb
  repeat' first
    | with_reducible assumption | with_reducible apply update_keeps
    | (extract_lets +onlyGivenNames v; refine Keeps.cut (z := z) v ?_ (fun hv => ?_); subst v; rotate_left; first | clear_value v | subst v)
    | (extract_lets +onlyGivenNames v; first | clear_value v | subst v) | split | dsimp -zeta only

theorem execScrubPass_keeps {z : State} {d : Fin 8} {errs : List Sys2Proof.ScrubErr} {s : State} (kz : Keeps z s) : KeepsNext z (execScrubPass d errs s) := by
  unfold execScrubPass
  repeat' first
    | with_reducible assumption | with_reducible refine Keeps.next ?_ | with_reducible apply clearTomb_keeps
    | with_reducible apply scrubOne_keeps | with_reducible apply setShadow_keeps
    | with_reducible refine Keeps.foldl _ _ ?_ (fun _ _ _ => ?_) | simp -zeta only [keeps_upd]
    | (extract_lets +onlyGivenNames v; refine Keeps.cut (z := z) v ?_ (fun hv => ?_); subst v; rotate_left; first | clear_value v | subst v)
    | (extract_lets +onlyGivenNames v; first | clear_value v | subst v) | with_reducible refine Keeps.ite ?_ ?_ | split
    | dsimp -zeta only

theorem startRefresh_keeps {z : State} {s : State} {m : Mark} (kz : Keeps z s) : Keeps z (startRefresh s m) := by
  unfold startRefresh
  repeat' first
    | with_reducible assumption | with_reducible apply relayRec_keeps | with_reducible refine Keeps.foldl _ _ ?_ (fun _ _ _ => ?_)
    | simp -zeta only [keeps_upd]

theorem execTableRebuild_keeps {z : State} {d : Fin 8} {shadowBad : Bool} {s : State} (kz : Keeps z s) : KeepsNext z (execTableRebuild d shadowBad s) := by
  unfold execTableRebuild
  repeat' first
    | with_reducible assumption | with_reducible refine Keeps.next ?_ | with_reducible apply startRefresh_keeps
    | with_reducible apply rebuild_keeps | with_reducible refine Keeps.ite ?_ ?_ | split

theorem execRefreshRequestRx_keeps {z : State} {port : Fin 4096} {r : Sys2Proof.TblRec} {s : State} (kz : Keeps z s) : KeepsNext z (execRefreshRequestRx port r s) := by
  unfold execRefreshRequestRx
  repeat' first
    | with_reducible assumption | with_reducible refine Keeps.next ?_ | with_reducible apply learnDrop_keeps
    | with_reducible apply sendOwn_keeps | with_reducible apply bump64_keeps
    | (extract_lets +onlyGivenNames v; refine Keeps.cut (z := z) v ?_ (fun hv => ?_); subst v; rotate_left; first | clear_value v | subst v)
    | (extract_lets +onlyGivenNames v; first | clear_value v | subst v) | with_reducible refine Keeps.ite ?_ ?_ | split
    | dsimp -zeta only

theorem execRefreshTimeout_keeps {z : State} {d : Fin 8} {s : State} (kz : Keeps z s) : KeepsNext z (execRefreshTimeout d s) := by
  unfold execRefreshTimeout
  repeat' first
    | with_reducible assumption | with_reducible refine Keeps.next ?_ | with_reducible apply forgetKey_keeps
    | with_reducible apply endRefresh_keeps | with_reducible apply fwdEvent_keeps
    | with_reducible refine Keeps.foldl _ _ ?_ (fun _ _ _ => ?_) | simp -zeta only [keeps_upd]
    | (extract_lets +onlyGivenNames v; refine Keeps.cut (z := z) v ?_ (fun hv => ?_); subst v; rotate_left; clear_value v)
    | (extract_lets +onlyGivenNames v; clear_value v) | with_reducible refine Keeps.ite ?_ ?_ | split

theorem rebuildShadow_keeps {z : State} {s : State} {zz : Nat} (kz : Keeps z s) : Keeps z (rebuildShadow s zz) := by
  unfold rebuildShadow
  repeat' first
    | with_reducible assumption | with_reducible apply setShadow_keeps | simp -zeta only [keeps_upd]
    | (extract_lets +onlyGivenNames v; refine Keeps.cut (z := z) v ?_ (fun hv => ?_); subst v; rotate_left; first | clear_value v | subst v)
    | (extract_lets +onlyGivenNames v; first | clear_value v | subst v) | with_reducible refine Keeps.ite ?_ ?_ | split
    | dsimp -zeta only

theorem execShadowRebuild_keeps {z : State} {s : State} (kz : Keeps z s) : KeepsNext z (execShadowRebuild s) := by
  unfold execShadowRebuild
  repeat' first
    | with_reducible assumption | with_reducible refine Keeps.next ?_ | with_reducible apply rebuildShadow_keeps
    | with_reducible refine Keeps.foldl _ _ ?_ (fun _ _ _ => ?_)

theorem execLpmOldSpaceFree_keeps {z : State} {s : State} (kz : Keeps z s) : KeepsNext z (execLpmOldSpaceFree s) := by
  unfold execLpmOldSpaceFree
  repeat' first
    | with_reducible assumption | with_reducible refine Keeps.next ?_ | with_reducible apply setShadow_keeps
    | with_reducible refine Keeps.foldl _ _ ?_ (fun _ _ _ => ?_) | simp -zeta only [keeps_upd]
    | (extract_lets +onlyGivenNames v; refine Keeps.cut (z := z) v ?_ (fun hv => ?_); subst v; rotate_left; first | clear_value v | subst v)
    | (extract_lets +onlyGivenNames v; first | clear_value v | subst v) | dsimp -zeta only

end Sys2Proof.Machine
end

