-- ==== Sys2Proof/Laws/KeepsRouting.lean ====
section
/-! SUPPORT. Every operation of Sys2Proof.Machine.Routing keeps what Keeps says. -/
namespace Sys2Proof.Machine

theorem sampleDir_keeps {z : State} {s : State} {dir : Nat} (kz : Keeps z s) : Keeps z (sampleDir s dir) := by
  unfold sampleDir
  repeat' first
    | with_reducible assumption | with_reducible apply wfs_keeps | simp -zeta only [keeps_upd]

theorem showAxisLoad_keeps {z : State} {s : State} {a : Nat} (kz : Keeps z s) : Keeps z (showAxisLoad s a) := by
  unfold showAxisLoad
  repeat' first
    | with_reducible assumption | with_reducible apply wf_keeps

theorem execSpraySample_keeps {z : State} {s : State} (kz : Keeps z s) : KeepsNext z (execSpraySample s) := by
  unfold execSpraySample
  repeat' first
    | with_reducible assumption | with_reducible refine Keeps.next ?_ | with_reducible apply showAxisLoad_keeps
    | with_reducible apply sampleDir_keeps | with_reducible refine Keeps.foldl _ _ ?_ (fun _ _ _ => ?_)
    | with_reducible refine Keeps.ite ?_ ?_

theorem execEscapeToEntry_keeps {z : State} {port : Fin 4096} {cls : Fin 8} {s : State} (kz : Keeps z s) : KeepsNext z (execEscapeToEntry port cls s) := by
  unfold execEscapeToEntry
  repeat' first
    | with_reducible assumption | with_reducible refine Keeps.next ?_ | with_reducible apply serveHead_keeps
    | with_reducible apply joinPort_keeps | with_reducible apply bump64_keeps | simp -zeta only [keeps_upd]
    | (extract_lets +onlyGivenNames v; first | clear_value v | subst v) | with_reducible refine Keeps.ite ?_ ?_ | split

theorem lapseGranted_keeps {z : State} {s : State} {p : Nat} (kz : Keeps z s) : Keeps z (lapseGranted s p) := by
  unfold lapseGranted
  repeat' first
    | with_reducible assumption | simp -zeta only [keeps_upd]
    | (extract_lets +onlyGivenNames v; refine Keeps.cut (z := z) v ?_ (fun hv => ?_); subst v; rotate_left; first | clear_value v | subst v)
    | (extract_lets +onlyGivenNames v; subst v) | dsimp -zeta only

theorem lapseHeld_keeps {z : State} {s : State} {p : Nat} (kz : Keeps z s) : Keeps z (lapseHeld s p) := by
  unfold lapseHeld
  repeat' first
    | with_reducible assumption | simp -zeta only [keeps_upd]
    | (extract_lets +onlyGivenNames v; refine Keeps.cut (z := z) v ?_ (fun hv => ?_); subst v; rotate_left; first | clear_value v | subst v)
    | (extract_lets +onlyGivenNames v; subst v) | dsimp -zeta only

theorem execWadiAllowanceLapse_keeps {z : State} {port : Fin 4096} {s : State} (kz : Keeps z s) : KeepsNext z (execWadiAllowanceLapse port s) := by
  unfold execWadiAllowanceLapse
  repeat' first
    | with_reducible assumption | with_reducible refine Keeps.next ?_ | with_reducible apply lapseGranted_keeps
    | with_reducible apply lapseHeld_keeps
    | (extract_lets +onlyGivenNames v; refine Keeps.cut (z := z) v ?_ (fun hv => ?_); subst v; rotate_left; first | clear_value v | subst v)
    | (extract_lets +onlyGivenNames v; first | clear_value v | subst v) | with_reducible refine Keeps.ite ?_ ?_ | split
    | dsimp -zeta only

theorem execResequenceTimeout_keeps {z : State} {d : Fin 8} {k : Fin 262144} {s : State} (kz : Keeps z s) : KeepsNext z (execResequenceTimeout d k s) := by
  unfold execResequenceTimeout
  repeat' first
    | with_reducible assumption | with_reducible refine Keeps.next ?_ | with_reducible apply linkAll_keeps
    | with_reducible apply rteEvent_keeps | with_reducible apply bump64_keeps | simp -zeta only [keeps_upd]
    | (extract_lets +onlyGivenNames v; refine Keeps.cut (z := z) v ?_ (fun hv => ?_); subst v; rotate_left; clear_value v)
    | (extract_lets +onlyGivenNames v; clear_value v) | with_reducible refine Keeps.ite ?_ ?_ | split

theorem execSourceContextExpire_keeps {z : State} {d : Fin 8} {ctx : BitVec 16} {s : State} (kz : Keeps z s) : KeepsNext z (execSourceContextExpire d ctx s) := by
  unfold execSourceContextExpire
  repeat' first
    | with_reducible assumption | with_reducible refine Keeps.next ?_ | simp -zeta only [keeps_upd]
    | (extract_lets +onlyGivenNames v; clear_value v) | with_reducible refine Keeps.ite ?_ ?_ | split

theorem execDestContextExpire_keeps {z : State} {d : Fin 8} {k : Fin 262144} {s : State} (kz : Keeps z s) : KeepsNext z (execDestContextExpire d k s) := by
  unfold execDestContextExpire
  repeat' first
    | with_reducible assumption | with_reducible refine Keeps.next ?_ | simp -zeta only [keeps_upd]
    | with_reducible refine Keeps.ite ?_ ?_ | split

theorem updateRate_keeps {z : State} {s : State} {k : Nat} (kz : Keeps z s) : Keeps z (updateRate s k) := by
  unfold updateRate
  repeat' first
    | with_reducible assumption | simp -zeta only [keeps_upd]
    | (extract_lets +onlyGivenNames v; clear_value v)

theorem execThrottleUpdate_keeps {z : State} {s : State} (kz : Keeps z s) : KeepsNext z (execThrottleUpdate s) := by
  unfold execThrottleUpdate
  repeat' first
    | with_reducible assumption | with_reducible refine Keeps.next ?_ | with_reducible apply updateRate_keeps
    | with_reducible apply sendOwn_keeps | with_reducible refine Keeps.foldl _ _ ?_ (fun _ _ _ => ?_) | simp -zeta only [keeps_upd]
    | (extract_lets +onlyGivenNames v; refine Keeps.cut (z := z) v ?_ (fun hv => ?_); subst v; rotate_left; first | clear_value v | subst v)
    | (extract_lets +onlyGivenNames v; first | clear_value v | subst v) | with_reducible refine Keeps.ite ?_ ?_ | split
    | dsimp -zeta only

theorem askBypass_keeps {z s : State} {dir : Nat} {o : Option Nat} (h : Keeps z s) : Keeps z (askBypass s dir o) := by
  cases o with
  | none => exact h
  | some t =>
    refine rteEvent_keeps (bump64_keeps ?_)
    rwa [keeps_upd]

theorem windowDir_keeps {z : State} {s : State} {dir : Nat} (kz : Keeps z s) : Keeps z (windowDir s dir) := by
  unfold windowDir
  repeat' first
    | with_reducible assumption | with_reducible apply askBypass_keeps | with_reducible apply wf_keeps | simp -zeta only [keeps_upd]

theorem windowAxis_keeps {z : State} {old : State} {s : State} {a : Nat} (kz : Keeps z s) : Keeps z (windowAxis old s a) := by
  unfold windowAxis
  repeat' first
    | with_reducible assumption | with_reducible apply wfs_keeps

theorem execUtilisationWindow_keeps {z : State} {s : State} (kz : Keeps z s) : KeepsNext z (execUtilisationWindow s) := by
  unfold execUtilisationWindow
  repeat' first
    | with_reducible assumption | with_reducible refine Keeps.next ?_ | with_reducible apply windowAxis_keeps
    | with_reducible apply windowDir_keeps | with_reducible apply rteEvent_keeps
    | with_reducible refine Keeps.foldl _ _ ?_ (fun _ _ _ => ?_) | simp -zeta only [keeps_upd]
    | (extract_lets +onlyGivenNames v; refine Keeps.cut (z := z) v ?_ (fun hv => ?_); subst v; rotate_left; clear_value v)
    | (extract_lets +onlyGivenNames v; first | clear_value v | subst v) | with_reducible refine Keeps.ite ?_ ?_

theorem setVerWritable_keeps {z : State} {s : State} {v : Nat} {b : Bool} (kz : Keeps z s) : Keeps z (setVerWritable s v b) := by
  unfold setVerWritable
  repeat' first
    | with_reducible assumption | with_reducible apply wf_keeps

theorem showVerDig_keeps {z : State} {s : State} (kz : Keeps z s) : Keeps z (showVerDig s) := by
  unfold showVerDig
  repeat' first
    | with_reducible assumption | with_reducible apply wn64_keeps

theorem setTableWord_keeps {z : State} {s : State} {w : Sys2Proof.Word} (kz : Keeps z s) : Keeps z (setTableWord s w) := by
  unfold setTableWord
  repeat' first
    | with_reducible assumption | with_reducible apply setRteTable_keeps | simp -zeta only [keeps_upd]
    | (extract_lets +onlyGivenNames v; first | clear_value v | subst v) | with_reducible refine Keeps.ite ?_ ?_

theorem nextIndex_keeps {z : State} {s : State} (kz : Keeps z s) : Keeps z (nextIndex s) := by
  unfold nextIndex
  repeat' first
    | with_reducible assumption | with_reducible apply wf_keeps

theorem execRoutingTableData_keeps {z : State} {w : Option Sys2Proof.Word} {s : State} (kz : Keeps z s) : KeepsNext z (execRoutingTableData w s) := by
  unfold execRoutingTableData
  repeat' first
    | with_reducible assumption | with_reducible refine Keeps.next ?_ | with_reducible apply nextIndex_keeps
    | with_reducible apply showVerDig_keeps | with_reducible apply setTableWord_keeps | with_reducible apply heldRefuse_keeps
    | with_reducible apply rteEvent_keeps | with_reducible apply emit_keeps | with_reducible apply bump64_keeps
    | (extract_lets +onlyGivenNames v; first | clear_value v | subst v) | with_reducible refine Keeps.ite ?_ ?_ | split

theorem execVersionWritable_keeps {z : State} {b : Bool} {s : State} (kz : Keeps z s) : KeepsNext z (execVersionWritable b s) := by
  unfold execVersionWritable
  repeat' first
    | with_reducible assumption | with_reducible refine Keeps.next ?_ | with_reducible apply setVerWritable_keeps
    | (extract_lets +onlyGivenNames v; first | clear_value v | subst v) | with_reducible refine Keeps.ite ?_ ?_

theorem setFlipResult_keeps {z : State} {s : State} {c : Nat} (kz : Keeps z s) : Keeps z (setFlipResult s c) := by
  unfold setFlipResult
  repeat' first
    | with_reducible assumption | with_reducible apply wf_keeps

theorem flipRefused_keeps {z : State} {s : State} {c : Nat} (kz : Keeps z s) : Keeps z (flipRefused s c) := by
  unfold flipRefused
  repeat' first
    | with_reducible assumption | with_reducible apply setFlipResult_keeps | with_reducible apply rteEvent_keeps

theorem execFlipArm_keeps {z : State} {v : Sys2Proof.Word} {s : State} (kz : Keeps z s) : KeepsNext z (execFlipArm v s) := by
  unfold execFlipArm
  repeat' first
    | with_reducible assumption | with_reducible refine Keeps.next ?_ | with_reducible apply flipRefused_keeps
    | with_reducible apply setFlipResult_keeps | with_reducible apply setVerWritable_keeps | with_reducible apply heldRefuse_keeps
    | with_reducible apply wf_keeps | simp -zeta only [keeps_upd]
    | (extract_lets +onlyGivenNames v; refine Keeps.cut (z := z) v ?_ (fun hv => ?_); subst v; rotate_left; clear_value v)
    | (extract_lets +onlyGivenNames v; first | clear_value v | subst v) | with_reducible refine Keeps.ite ?_ ?_ | split

theorem execFlipCancel_keeps {z : State} {v : Sys2Proof.Word} {s : State} (kz : Keeps z s) : KeepsNext z (execFlipCancel v s) := by
  unfold execFlipCancel
  repeat' first
    | with_reducible assumption | with_reducible refine Keeps.next ?_ | with_reducible apply setFlipResult_keeps
    | with_reducible apply setVerWritable_keeps | with_reducible apply heldRefuse_keeps | with_reducible apply wf_keeps
    | simp -zeta only [keeps_upd]
    | (extract_lets +onlyGivenNames v; refine Keeps.cut (z := z) v ?_ (fun hv => ?_); subst v; rotate_left; clear_value v)
    | (extract_lets +onlyGivenNames v; first | clear_value v | subst v) | with_reducible refine Keeps.ite ?_ ?_ | split

theorem execEpochFlip_keeps {z : State} {s : State} (kz : Keeps z s) : KeepsNext z (execEpochFlip s) := by
  unfold execEpochFlip
  repeat' first
    | with_reducible assumption | with_reducible refine Keeps.next ?_ | with_reducible apply showVerDig_keeps
    | with_reducible apply setRteTable_keeps | with_reducible apply rteEvent_keeps | with_reducible apply wfs_keeps
    | simp -zeta only [keeps_upd]
    | (extract_lets +onlyGivenNames v; refine Keeps.cut (z := z) v ?_ (fun hv => ?_); subst v; rotate_left; clear_value v)
    | (extract_lets +onlyGivenNames v; clear_value v) | with_reducible refine Keeps.ite ?_ ?_ | split

end Sys2Proof.Machine
end

