-- ==== Sys2Proof/Laws/KeepsSched.lean ====
section
/-! SUPPORT. Every operation of Sys2Proof.Machine.Sched keeps what Keeps says. -/
namespace Sys2Proof.Machine

theorem grantGroup_keeps {z : State} {s : State} {g : Nat} (kz : Keeps z s) : Keeps z (grantGroup s g) := by
  unfold grantGroup
  repeat' first
    | with_reducible assumption | with_reducible apply grantPort_keeps | with_reducible refine Keeps.foldl _ _ ?_ (fun _ _ _ => ?_)

theorem execGateEntryStart_keeps {z : State} {pg : Fin 256} {s : State} (kz : Keeps z s) : KeepsNext z (execGateEntryStart pg s) := by
  unfold execGateEntryStart
  repeat' first
    | with_reducible assumption | with_reducible refine Keeps.next ?_ | with_reducible apply runEntries_keeps
    | with_reducible refine Keeps.ite ?_ ?_

theorem execGateListArm_keeps {z : State} {pg : Fin 256} {v : Sys2Proof.Word} {s : State} (kz : Keeps z s) : KeepsNext z (execGateListArm pg v s) := by
  unfold execGateListArm
  repeat' first
    | with_reducible assumption | with_reducible refine Keeps.next ?_ | with_reducible apply heldRefuse_keeps
    | with_reducible apply setPgResult_keeps | with_reducible apply setPg_keeps | with_reducible apply setPgSt_keeps
    | with_reducible apply schEvent_keeps | simp -zeta only [keeps_upd]
    | (extract_lets +onlyGivenNames v; refine Keeps.cut (z := z) v ?_ (fun hv => ?_); subst v; rotate_left; clear_value v)
    | (extract_lets +onlyGivenNames v; first | clear_value v | subst v) | with_reducible refine Keeps.ite ?_ ?_ | split

theorem execGateListCancel_keeps {z : State} {pg : Fin 256} {v : Sys2Proof.Word} {s : State} (kz : Keeps z s) : KeepsNext z (execGateListCancel pg v s) := by
  unfold execGateListCancel
  repeat' first
    | with_reducible assumption | with_reducible refine Keeps.next ?_ | with_reducible apply heldRefuse_keeps
    | with_reducible apply setPgResult_keeps | with_reducible apply setPgSt_keeps | with_reducible apply setPg_keeps
    | simp -zeta only [keeps_upd]
    | (extract_lets +onlyGivenNames v; first | clear_value v | subst v) | with_reducible refine Keeps.ite ?_ ?_ | split

theorem execGateListDisable_keeps {z : State} {pg : Fin 256} {v : Sys2Proof.Word} {s : State} (kz : Keeps z s) : KeepsNext z (execGateListDisable pg v s) := by
  unfold execGateListDisable
  repeat' first
    | with_reducible assumption | with_reducible refine Keeps.next ?_ | with_reducible apply heldRefuse_keeps
    | with_reducible apply setPgSt_keeps | with_reducible apply setPg_keeps | simp -zeta only [keeps_upd]
    | (extract_lets +onlyGivenNames v; first | clear_value v | subst v) | with_reducible refine Keeps.ite ?_ ?_

theorem execGateBaseReached_keeps {z : State} {pg : Fin 256} {s : State} (kz : Keeps z s) : KeepsNext z (execGateBaseReached pg s) := by
  unfold execGateBaseReached
  repeat' first
    | with_reducible assumption | with_reducible refine Keeps.next ?_ | with_reducible apply grantGroup_keeps
    | with_reducible apply gateTakeEffect_keeps
    | (extract_lets +onlyGivenNames v; first | clear_value v | subst v) | with_reducible refine Keeps.ite ?_ ?_ | split

theorem execGateListResume_keeps {z : State} {pg : Fin 256} {s : State} (kz : Keeps z s) : KeepsNext z (execGateListResume pg s) := by
  unfold execGateListResume
  repeat' first
    | with_reducible assumption | with_reducible refine Keeps.next ?_ | with_reducible apply grantGroup_keeps
    | with_reducible apply setPg_keeps | with_reducible apply runEntries_keeps | with_reducible apply setPgSt_keeps
    | simp -zeta only [keeps_upd]
    | (extract_lets +onlyGivenNames v; refine Keeps.cut (z := z) v ?_ (fun hv => ?_); subst v; rotate_left; clear_value v)
    | (extract_lets +onlyGivenNames v; clear_value v) | with_reducible refine Keeps.ite ?_ ?_ | split

theorem glStore_keeps {z : State} {s : State} {d : Nat} {w : Sys2Proof.Word} (kz : Keeps z s) : Keeps z (glStore s d w) := by
  unfold glStore
  repeat' first
    | with_reducible assumption | with_reducible apply setPg_keeps

theorem execGateListDataWrite_keeps {z : State} {d : Fin 8} {w : Option Sys2Proof.Word} {s : State} (kz : Keeps z s) : KeepsNext z (execGateListDataWrite d w s) := by
  unfold execGateListDataWrite
  repeat' first
    | with_reducible assumption | with_reducible refine Keeps.next ?_ | with_reducible apply glStore_keeps
    | with_reducible apply heldRefuse_keeps | with_reducible apply schEvent_keeps | with_reducible apply wf_keeps
    | with_reducible apply emit_keeps
    | (extract_lets +onlyGivenNames v; subst v) | with_reducible refine Keeps.ite ?_ ?_ | split

theorem execShaperRateWrite_keeps {z : State} {d : Fin 8} {k : Fin 256} {c : Fin 8} {v : Sys2Proof.Word} {s : State} (kz : Keeps z s) : KeepsNext z (execShaperRateWrite d k c v s) := by
  unfold execShaperRateWrite
  repeat' first
    | with_reducible assumption | with_reducible refine Keeps.next ?_ | with_reducible apply heldWrite_keeps
    | with_reducible apply setTokens_keeps | with_reducible apply softWrite_keeps
    | (extract_lets +onlyGivenNames v; refine Keeps.cut (z := z) v ?_ (fun hv => ?_); subst v; rotate_left; clear_value v)
    | (extract_lets +onlyGivenNames v; first | clear_value v | subst v) | with_reducible refine Keeps.ite ?_ ?_

end Sys2Proof.Machine
end

