-- ==== Sys2Proof/Laws/KeepsStacks.lean ====
section
/-! SUPPORT. Every operation of Sys2Proof.Machine.Stacks keeps what Keeps says. -/
namespace Sys2Proof.Machine

theorem stackTrims_keeps {z : State} {s : State} {k : Nat} (kz : Keeps z s) : Keeps z (stackTrims s k) := by
  unfold stackTrims
  repeat' first
    | with_reducible assumption | with_reducible apply applyTrim_keeps | with_reducible refine Keeps.foldl _ _ ?_ (fun _ _ _ => ?_)

theorem execOasisTrainingDone_keeps {z : State} {k : Fin 12} {ok : Bool} {s : State} (kz : Keeps z s) : KeepsNext z (execOasisTrainingDone k ok s) := by
  unfold execOasisTrainingDone
  repeat' first
    | with_reducible assumption | with_reducible refine Keeps.next ?_ | with_reducible apply stackTrims_keeps
    | with_reducible apply settle_keeps | with_reducible apply setStackReady_keeps | with_reducible apply placeShadows_keeps
    | simp -zeta only [keeps_upd]
    | (extract_lets +onlyGivenNames v; refine Keeps.cut (z := z) v ?_ (fun hv => ?_); subst v; rotate_left; first | clear_value v | subst v)
    | (extract_lets +onlyGivenNames v; first | clear_value v | subst v) | with_reducible refine Keeps.ite ?_ ?_ | split
    | dsimp -zeta only

theorem losePages_keeps {z : State} {k : Nat} {s : State} {fq : Nat} (kz : Keeps z s) : Keeps z (losePages k s fq) := by
  unfold losePages
  repeat' first
    | with_reducible assumption | with_reducible apply dischargePkt_keeps | with_reducible apply setHwq_keeps
    | with_reducible apply setPagesUsed_keeps | with_reducible apply spillMark_keeps | with_reducible apply joinTail_keeps
    | with_reducible apply askPages_keeps | with_reducible apply swcEvent_keeps | with_reducible apply bump64_keeps
    | simp -zeta only [keeps_upd]
    | (extract_lets +onlyGivenNames v; refine Keeps.cut (z := z) v ?_ (fun hv => ?_); subst v; rotate_left; first | clear_value v | subst v)
    | (extract_lets +onlyGivenNames v; first | clear_value v | subst v) | with_reducible refine Keeps.ite ?_ ?_ | split
    | dsimp -zeta only

theorem loseHeld_keeps {z : State} {k : Nat} {s : State} {d : Nat} (kz : Keeps z s) : Keeps z (loseHeld k s d) := by
  unfold loseHeld
  repeat' first
    | with_reducible assumption | with_reducible apply dischargePkt_keeps | with_reducible apply setPagesUsed_keeps
    | with_reducible apply swcEvent_keeps | with_reducible apply bump64_keeps
    | (with_reducible refine Keeps.foldlFst _ _ ?_ ?_; rotate_left; rintro ⟨_, _⟩ _ _)
    | with_reducible refine Keeps.foldl _ _ ?_ (fun _ _ _ => ?_) | simp -zeta only [keeps_upd]
    | (extract_lets +onlyGivenNames v; refine Keeps.cut (z := z) v ?_ (fun hv => ?_); subst v; rotate_left; first | clear_value v | subst v)
    | (extract_lets +onlyGivenNames v; subst v) | with_reducible refine Keeps.ite ?_ ?_ | split | dsimp -zeta only

theorem loseStaged_keeps {z : State} {k : Nat} {s : State} {g : Nat × Group} (kz : Keeps z s) : Keeps z (loseStaged k s g) := by
  unfold loseStaged
  repeat' first
    | with_reducible assumption | with_reducible apply swcEvent_keeps | with_reducible apply bump64_keeps
    | (with_reducible refine Keeps.foldlFst _ _ ?_ ?_; rotate_left; rintro ⟨_, _⟩ _ _)
    | with_reducible refine Keeps.foldl _ _ ?_ (fun _ _ _ => ?_) | simp -zeta only [keeps_upd]
    | (extract_lets +onlyGivenNames v; refine Keeps.cut (z := z) v ?_ (fun hv => ?_); subst v; rotate_left; first | clear_value v | subst v)
    | (extract_lets +onlyGivenNames v; subst v) | with_reducible refine Keeps.ite ?_ ?_ | split | dsimp -zeta only

theorem execOasisStackFault_keeps {z : State} {k : Fin 12} {s : State} (kz : Keeps z s) : KeepsNext z (execOasisStackFault k s) := by
  unfold execOasisStackFault
  repeat' first
    | with_reducible assumption | with_reducible refine Keeps.next ?_ | with_reducible apply losePages_keeps
    | with_reducible apply loseStaged_keeps | with_reducible apply loseHeld_keeps | with_reducible apply settle_keeps
    | with_reducible apply setStackReady_keeps | with_reducible apply placeShadows_keeps | with_reducible apply shadowsLose_keeps
    | (with_reducible refine Keeps.foldlFst _ _ ?_ ?_; rotate_left; rintro ⟨_, _⟩ _ _)
    | with_reducible refine Keeps.foldl _ _ ?_ (fun _ _ _ => ?_)
    | (extract_lets +onlyGivenNames v; refine Keeps.cut (z := z) v ?_ (fun hv => ?_); subst v; rotate_left; first | clear_value v | subst v)
    | (extract_lets +onlyGivenNames v; first | clear_value v | subst v) | with_reducible refine Keeps.ite ?_ ?_ | split
    | dsimp -zeta only

theorem execEngineSelfTestDone_keeps {z : State} {g : Fin 4096} {ok : Bool} {s : State} (kz : Keeps z s) : KeepsNext z (execEngineSelfTestDone g ok s) := by
  unfold execEngineSelfTestDone
  repeat' first
    | with_reducible assumption | with_reducible refine Keeps.next ?_ | with_reducible apply enterIdle_keeps
    | with_reducible apply settle_keeps | with_reducible apply setEngSt_keeps | simp -zeta only [keeps_upd]
    | (extract_lets +onlyGivenNames v; first | clear_value v | subst v) | with_reducible refine Keeps.ite ?_ ?_

end Sys2Proof.Machine
end

