-- ==== Sys2Proof/Laws/KeepsOptics.lean ====
section
/-! SUPPORT. Every operation of Sys2Proof.Machine.Optics keeps what Keeps says. -/
namespace Sys2Proof.Machine

theorem laneTakes_keeps {z : State} {s : State} {l : Nat} (kz : Keeps z s) : Keeps z (laneTakes s l) := by
  unfold laneTakes
  repeat' first
    | with_reducible assumption | with_reducible apply sirPreempt_keeps

theorem showBias_keeps {z : State} {s : State} {l : Nat} (kz : Keeps z s) : Keeps z (showBias s l) := by
  unfold showBias
  repeat' first
    | with_reducible assumption | with_reducible apply wfs_keeps

theorem biasToBase_keeps {z : State} {s : State} {l : Nat} (kz : Keeps z s) : Keeps z (biasToBase s l) := by
  unfold biasToBase
  repeat' first
    | with_reducible assumption | with_reducible apply showBias_keeps | with_reducible apply applyTrim_keeps
    | with_reducible apply setLaneOf_keeps

theorem dirFailed_keeps {z : State} {s : State} {l : Nat} {rx : Bool} (kz : Keeps z s) : Keeps z (dirFailed s l rx) := by
  unfold dirFailed
  repeat' first
    | with_reducible assumption | with_reducible apply setLaneOf_keeps | with_reducible apply settle_keeps
    | with_reducible apply setLaneDir_keeps | with_reducible apply optEvent_keeps

theorem switchNow_keeps {z : State} {s : State} {l : Nat} {k : Nat} (kz : Keeps z s) : Keeps z (switchNow s l k) := by
  unfold switchNow
  repeat' first
    | with_reducible assumption | with_reducible apply switchSpare_keeps | with_reducible apply dropLaneSpare_keeps
    | with_reducible apply sirPreempt_keeps | with_reducible apply setLaneOf_keeps | with_reducible apply setLaneDir_keeps

theorem setAside_keeps {z : State} {s : State} {l : Nat} (kz : Keeps z s) : Keeps z (setAside s l) := by
  unfold setAside
  repeat' first
    | with_reducible assumption | with_reducible apply dropLaneSpare_keeps | with_reducible apply fsrStore_keeps
    | simp -zeta only [keeps_upd] | with_reducible refine Keeps.otp ?_ ⟨rfl, rfl, rfl, rfl, rfl⟩

theorem spareTakeover_keeps {z : State} {s : State} {l : Nat} (kz : Keeps z s) : Keeps z (spareTakeover s l) := by
  unfold spareTakeover
  repeat' first
    | with_reducible assumption | with_reducible apply setAside_keeps | with_reducible apply switchNow_keeps
    | with_reducible apply dirFailed_keeps
    | (extract_lets +onlyGivenNames v; refine Keeps.cut (z := z) v ?_ (fun hv => ?_); subst v; rotate_left; clear_value v)
    | (extract_lets +onlyGivenNames v; clear_value v) | with_reducible refine Keeps.ite ?_ ?_ | split

theorem wrongLock_keeps {z : State} {s : State} {l : Nat} {rx : Bool} (kz : Keeps z s) : Keeps z (wrongLock s l rx) := by
  unfold wrongLock
  repeat' first
    | with_reducible assumption | with_reducible apply dirFailed_keeps | with_reducible apply spareTakeover_keeps
    | with_reducible apply setLaneOf_keeps | with_reducible apply setLaneDir_keeps | with_reducible apply optEvent_keeps
    | with_reducible apply bump64_keeps
    | (extract_lets +onlyGivenNames v; refine Keeps.cut (z := z) v ?_ (fun hv => ?_); subst v; rotate_left; clear_value v)
    | (extract_lets +onlyGivenNames v; first | clear_value v | subst v) | with_reducible refine Keeps.ite ?_ ?_

theorem execSweepDone_keeps {z : State} {l : Fin 2048} {rx : Bool} {found : Option Nat} {s : State} (kz : Keeps z s) : KeepsNext z (execSweepDone l rx found s) := by
  unfold execSweepDone
  repeat' first
    | with_reducible assumption | with_reducible refine Keeps.next ?_ | with_reducible apply laneTakes_keeps
    | with_reducible apply biasToBase_keeps | with_reducible apply spareTakeover_keeps | with_reducible apply applyTrim_keeps
    | with_reducible apply setLaneOf_keeps | with_reducible apply setLaneDir_keeps
    | (extract_lets +onlyGivenNames v; refine Keeps.cut (z := z) v ?_ (fun hv => ?_); subst v; rotate_left; clear_value v)
    | (extract_lets +onlyGivenNames v; first | clear_value v | subst v) | with_reducible refine Keeps.ite ?_ ?_ | split

theorem showPilot_keeps {z : State} {s : State} {l : Nat} {chan : BitVec 8} {ident : BitVec 16} (kz : Keeps z s) : Keeps z (showPilot s l chan ident) := by
  unfold showPilot
  repeat' first
    | with_reducible assumption | with_reducible apply wfs_keeps

theorem lockedNow_keeps {z : State} {s : State} {l : Nat} {rx : Bool} (kz : Keeps z s) : Keeps z (lockedNow s l rx) := by
  unfold lockedNow
  repeat' first
    | with_reducible assumption | with_reducible apply setLaneOf_keeps | with_reducible apply tryHandshake_keeps
    | with_reducible apply setLaneDir_keeps
    | (extract_lets +onlyGivenNames v; refine Keeps.cut (z := z) v ?_ (fun hv => ?_); subst v; rotate_left; clear_value v)
    | (extract_lets +onlyGivenNames v; first | clear_value v | subst v) | split

theorem laneHandshake_keeps {z : State} {s : State} {l : Nat} (kz : Keeps z s) : Keeps z (laneHandshake s l) := by
  unfold laneHandshake
  repeat' first
    | with_reducible assumption | with_reducible apply tryHandshake_keeps | split

theorem execIdentityVerify_keeps {z : State} {l : Fin 2048} {rx : Bool} {ident : Option (BitVec 8 × BitVec 16)} {s : State} (kz : Keeps z s) : KeepsNext z (execIdentityVerify l rx ident s) := by
  unfold execIdentityVerify
  repeat' first
    | with_reducible assumption | with_reducible refine Keeps.next ?_ | with_reducible apply wrongLock_keeps
    | with_reducible apply showPilot_keeps | with_reducible apply lockedNow_keeps | simp -zeta only [keeps_upd]
    | (extract_lets +onlyGivenNames v; refine Keeps.cut (z := z) v ?_ (fun hv => ?_); subst v; rotate_left; clear_value v)
    | (extract_lets +onlyGivenNames v; first | clear_value v | subst v) | with_reducible refine Keeps.ite ?_ ?_ | split

theorem execLaneFailedRetry_keeps {z : State} {l : Fin 2048} {rx : Bool} {s : State} (kz : Keeps z s) : KeepsNext z (execLaneFailedRetry l rx s) := by
  unfold execLaneFailedRetry
  repeat' first
    | with_reducible assumption | with_reducible refine Keeps.next ?_ | with_reducible apply switchNow_keeps
    | with_reducible apply setLaneOf_keeps | with_reducible apply settle_keeps | with_reducible apply setLaneDir_keeps
    | (extract_lets +onlyGivenNames v; refine Keeps.cut (z := z) v ?_ (fun hv => ?_); subst v; rotate_left; clear_value v)
    | (extract_lets +onlyGivenNames v; first | clear_value v | subst v) | with_reducible refine Keeps.ite ?_ ?_ | split

theorem execPilotIdentityRx_keeps {z : State} {l : Fin 2048} {chan : BitVec 8} {ident : BitVec 16} {s : State} (kz : Keeps z s) : KeepsNext z (execPilotIdentityRx l chan ident s) := by
  unfold execPilotIdentityRx
  repeat' first
    | with_reducible assumption | with_reducible refine Keeps.next ?_ | with_reducible apply showPilot_keeps
    | with_reducible apply wrongLock_keeps | with_reducible apply laneLeaves_keeps
    | (extract_lets +onlyGivenNames v; refine Keeps.cut (z := z) v ?_ (fun hv => ?_); subst v; rotate_left; clear_value v)
    | (extract_lets +onlyGivenNames v; first | clear_value v | subst v) | with_reducible refine Keeps.ite ?_ ?_

theorem execLaneLockLost_keeps {z : State} {l : Fin 2048} {rx : Bool} {s : State} (kz : Keeps z s) : KeepsNext z (execLaneLockLost l rx s) := by
  unfold execLaneLockLost
  repeat' first
    | with_reducible assumption | with_reducible refine Keeps.next ?_ | with_reducible apply laneTakes_keeps
    | with_reducible apply laneLeaves_keeps | with_reducible refine Keeps.ite ?_ ?_

theorem claimSpare_keeps {z : State} {s : State} {l : Nat} (kz : Keeps z s) : Keeps z (claimSpare s l) := by
  unfold claimSpare
  repeat' first
    | with_reducible assumption | with_reducible apply setLaneOf_keeps | with_reducible apply takeSpare_keeps
    | simp -zeta only [keeps_upd]
    | (extract_lets +onlyGivenNames v; clear_value v) | split

theorem claimSpares_keeps {z : State} {s : State} {t : Nat} (kz : Keeps z s) : Keeps z (claimSpares s t) := by
  unfold claimSpares
  repeat' first
    | with_reducible assumption | with_reducible apply claimSpare_keeps | with_reducible refine Keeps.foldl _ _ ?_ (fun _ _ _ => ?_)

theorem setSwap_keeps {z : State} {s : State} {l : Nat} {w : Option (Nat × Bool)} (kz : Keeps z s) : Keeps z (setSwap s l w) := by
  unfold setSwap
  repeat' first
    | with_reducible assumption | with_reducible apply setLaneOf_keeps

theorem planForced_keeps {z : State} {s : State} {l : Nat} (kz : Keeps z s) : Keeps z (planForced s l) := by
  unfold planForced
  repeat' first
    | with_reducible assumption | with_reducible apply setSwap_keeps | with_reducible apply imposeInterval_keeps
    | with_reducible apply optEvent_keeps
    | (extract_lets +onlyGivenNames v; refine Keeps.cut (z := z) v ?_ (fun hv => ?_); subst v; rotate_left; clear_value v)
    | (extract_lets +onlyGivenNames v; clear_value v) | split

theorem planSwap_keeps {z : State} {s : State} {l : Nat} (kz : Keeps z s) : Keeps z (planSwap s l) := by
  unfold planSwap
  repeat' first
    | with_reducible assumption | with_reducible apply planForced_keeps | with_reducible apply setSwap_keeps
    | with_reducible refine Keeps.ite ?_ ?_

theorem biasStep_keeps {z : State} {s : State} {l : Nat} {p : Int} (kz : Keeps z s) : Keeps z (biasStep s l p) := by
  unfold biasStep
  repeat' first
    | with_reducible assumption | with_reducible apply showBias_keeps | with_reducible apply setLaneOf_keeps

theorem prepareLane_keeps {z : State} {s : State} {l : Nat} (kz : Keeps z s) : Keeps z (prepareLane s l) := by
  unfold prepareLane
  repeat' first
    | with_reducible assumption | with_reducible apply claimSpares_keeps | with_reducible apply setLaneAge_keeps
    | with_reducible apply optEvent_keeps | with_reducible refine Keeps.ite ?_ ?_

theorem forceLane_keeps {z : State} {s : State} {l : Nat} (kz : Keeps z s) : Keeps z (forceLane s l) := by
  unfold forceLane
  repeat' first
    | with_reducible assumption | with_reducible apply claimSpares_keeps | with_reducible apply planSwap_keeps
    | with_reducible apply setLaneAge_keeps
    | (extract_lets +onlyGivenNames v; refine Keeps.cut (z := z) v ?_ (fun hv => ?_); subst v; rotate_left; clear_value v)
    | (extract_lets +onlyGivenNames v; clear_value v) | with_reducible refine Keeps.ite ?_ ?_

theorem ageRecover_keeps {z : State} {s : State} {l : Nat} {m : Int} (kz : Keeps z s) : Keeps z (ageRecover s l m) := by
  unfold ageRecover
  repeat' first
    | with_reducible assumption | with_reducible apply setLaneOf_keeps | with_reducible apply setLaneAge_keeps
    | simp -zeta only [keeps_upd] | with_reducible refine Keeps.ite ?_ ?_ | split

theorem ageReport_keeps {z : State} {s : State} {l : Nat} {m : Int} (kz : Keeps z s) : Keeps z (ageReport s l m) := by
  unfold ageReport
  repeat' first
    | with_reducible assumption | with_reducible apply forceLane_keeps | with_reducible apply planSwap_keeps
    | with_reducible apply prepareLane_keeps | with_reducible apply ageRecover_keeps | with_reducible apply retireLane_keeps
    | with_reducible apply setLaneAge_keeps | with_reducible apply setLaneOf_keeps | with_reducible apply optEvent_keeps
    | simp -zeta only [keeps_upd]
    | (extract_lets +onlyGivenNames v; refine Keeps.cut (z := z) v ?_ (fun hv => ?_); subst v; rotate_left; clear_value v)
    | (extract_lets +onlyGivenNames v; first | clear_value v | subst v) | with_reducible refine Keeps.ite ?_ ?_

theorem execTelemetryReport_keeps {z : State} {l : Fin 2048} {r : Sys2Proof.PeerReport} {s : State} (kz : Keeps z s) : KeepsNext z (execTelemetryReport l r s) := by
  unfold execTelemetryReport
  repeat' first
    | with_reducible assumption | with_reducible refine Keeps.next ?_ | with_reducible apply laneHandshake_keeps
    | with_reducible apply ageReport_keeps | with_reducible apply biasStep_keeps | with_reducible apply setLaneOf_keeps
    | with_reducible apply wfs_keeps | with_reducible apply wf_keeps | simp -zeta only [keeps_upd]
    | (extract_lets +onlyGivenNames v; refine Keeps.cut (z := z) v ?_ (fun hv => ?_); subst v; rotate_left; first | clear_value v | subst v)
    | (extract_lets +onlyGivenNames v; first | clear_value v | subst v) | with_reducible refine Keeps.ite ?_ ?_ | split
    | dsimp -zeta only

theorem execTelemetryLost_keeps {z : State} {l : Fin 2048} {s : State} (kz : Keeps z s) : KeepsNext z (execTelemetryLost l s) := by
  unfold execTelemetryLost
  repeat' first
    | with_reducible assumption | with_reducible refine Keeps.next ?_ | with_reducible apply optEvent_keeps
    | with_reducible apply wf_keeps
    | (extract_lets +onlyGivenNames v; first | clear_value v | subst v) | with_reducible refine Keeps.ite ?_ ?_

theorem execSpareWarmDone_keeps {z : State} {t : Fin 64} {sp : Fin 4} {s : State} (kz : Keeps z s) : KeepsNext z (execSpareWarmDone t sp s) := by
  unfold execSpareWarmDone
  repeat' first
    | with_reducible assumption | with_reducible refine Keeps.next ?_ | with_reducible apply setSpare_keeps
    | with_reducible apply applyTrim_keeps | with_reducible refine Keeps.ite ?_ ?_

theorem execSpareTuneDone_keeps {z : State} {t : Fin 64} {sp : Fin 4} {s : State} (kz : Keeps z s) : KeepsNext z (execSpareTuneDone t sp s) := by
  unfold execSpareTuneDone
  repeat' first
    | with_reducible assumption | with_reducible refine Keeps.next ?_ | with_reducible apply setSpare_keeps
    | with_reducible refine Keeps.ite ?_ ?_

theorem execSpareLockDone_keeps {z : State} {t : Fin 64} {sp : Fin 4} {s : State} (kz : Keeps z s) : KeepsNext z (execSpareLockDone t sp s) := by
  unfold execSpareLockDone
  repeat' first
    | with_reducible assumption | with_reducible refine Keeps.next ?_ | with_reducible apply setSpare_keeps
    | with_reducible refine Keeps.ite ?_ ?_

theorem spareRejected_keeps {z : State} {s : State} {t : Nat} {k : Nat} {l : Nat} (kz : Keeps z s) : Keeps z (spareRejected s t k l) := by
  unfold spareRejected
  repeat' first
    | with_reducible assumption | with_reducible apply claimSpares_keeps | with_reducible apply setSpare_keeps
    | with_reducible apply setLaneOf_keeps | with_reducible apply failSpare_keeps | simp -zeta only [keeps_upd]
    | (extract_lets +onlyGivenNames v; clear_value v) | with_reducible refine Keeps.ite ?_ ?_

theorem execSpareVerifyDone_keeps {z : State} {t : Fin 64} {sp : Fin 4} {ok : Bool} {s : State} (kz : Keeps z s) : KeepsNext z (execSpareVerifyDone t sp ok s) := by
  unfold execSpareVerifyDone
  repeat' first
    | with_reducible assumption | with_reducible refine Keeps.next ?_ | with_reducible apply spareRejected_keeps
    | with_reducible apply planSwap_keeps | with_reducible apply setLaneOf_keeps | with_reducible apply setSpare_keeps
    | with_reducible apply setLaneAge_keeps | simp -zeta only [keeps_upd]
    | (extract_lets +onlyGivenNames v; refine Keeps.cut (z := z) v ?_ (fun hv => ?_); subst v; rotate_left; clear_value v)
    | (extract_lets +onlyGivenNames v; first | clear_value v | subst v) | with_reducible refine Keeps.ite ?_ ?_

theorem execSpareDrift_keeps {z : State} {t : Fin 64} {sp : Fin 4} {s : State} (kz : Keeps z s) : KeepsNext z (execSpareDrift t sp s) := by
  unfold execSpareDrift
  repeat' first
    | with_reducible assumption | with_reducible refine Keeps.next ?_ | with_reducible apply setLaneOf_keeps
    | with_reducible apply setSpare_keeps | simp -zeta only [keeps_upd]
    | (extract_lets +onlyGivenNames v; clear_value v) | with_reducible refine Keeps.ite ?_ ?_

theorem doSwap_keeps {z : State} {s : State} {l : Nat} {k : Nat} {forced : Bool} (kz : Keeps z s) : Keeps z (doSwap s l k forced) := by
  unfold doSwap
  repeat' first
    | with_reducible assumption | with_reducible apply biasToBase_keeps | with_reducible apply setLaneOf_keeps
    | with_reducible apply setLaneAge_keeps | with_reducible apply switchSpare_keeps | with_reducible apply dropLaneSpare_keeps
    | with_reducible apply optEvent_keeps | with_reducible apply bump64_keeps | simp -zeta only [keeps_upd]
    | (extract_lets +onlyGivenNames v; clear_value v) | with_reducible refine Keeps.ite ?_ ?_

theorem execSwapExecute_keeps {z : State} {l : Fin 2048} {s : State} (kz : Keeps z s) : KeepsNext z (execSwapExecute l s) := by
  unfold execSwapExecute
  repeat' first
    | with_reducible assumption | with_reducible refine Keeps.next ?_ | with_reducible apply doSwap_keeps
    | with_reducible apply planSwap_keeps | with_reducible apply setSwap_keeps
    | (extract_lets +onlyGivenNames v; first | clear_value v | subst v) | with_reducible refine Keeps.ite ?_ ?_ | split

theorem execLaserLost_keeps {z : State} {l : Fin 2048} {s : State} (kz : Keeps z s) : KeepsNext z (execLaserLost l s) := by
  unfold execLaserLost
  repeat' first
    | with_reducible assumption | with_reducible refine Keeps.next ?_ | with_reducible apply claimSpares_keeps
    | with_reducible apply switchNow_keeps | with_reducible apply laneLeaves_keeps | with_reducible apply retireLane_keeps
    | with_reducible apply setLaneOf_keeps | with_reducible apply freeLaneSpare_keeps | with_reducible apply setLaneAge_keeps
    | with_reducible apply optEvent_keeps | simp -zeta only [keeps_upd]
    | (extract_lets +onlyGivenNames v; refine Keeps.cut (z := z) v ?_ (fun hv => ?_); subst v; rotate_left; clear_value v)
    | (extract_lets +onlyGivenNames v; first | clear_value v | subst v) | with_reducible refine Keeps.ite ?_ ?_ | split

theorem execSwapRequest_keeps {z : State} {t : Fin 64} {v : Sys2Proof.Word} {s : State} (kz : Keeps z s) : KeepsNext z (execSwapRequest t v s) := by
  unfold execSwapRequest
  repeat' first
    | with_reducible assumption | with_reducible refine Keeps.next ?_ | with_reducible apply prepareLane_keeps
    | with_reducible apply heldRefuse_keeps
    | (extract_lets +onlyGivenNames v; first | clear_value v | subst v) | with_reducible refine Keeps.ite ?_ ?_

end Sys2Proof.Machine
end

