-- ==== Sys2Proof/Laws/KeepsExpress.lean ====
section
/-! SUPPORT. Every operation of Sys2Proof.Machine.Express keeps what Keeps says. -/
namespace Sys2Proof.Machine

theorem setPath_keeps {z : State} {s : State} {p : Path} (kz : Keeps z s) : Keeps z (setPath s p) := by
  unfold setPath
  repeat' first
    | with_reducible assumption | simp -zeta only [keeps_upd]

theorem holdPath_keeps {z : State} {s : State} {p : Path} (kz : Keeps z s) : Keeps z (holdPath s p) := by
  unfold holdPath
  repeat' first
    | with_reducible assumption | with_reducible apply sirPreempt_keeps | with_reducible apply wf_keeps
    | with_reducible refine Keeps.foldl _ _ ?_ (fun _ _ _ => ?_) | simp -zeta only [keeps_upd]

theorem unarmSlot_keeps {z : State} {t : Nat} {s : State} {i : Nat} (kz : Keeps z s) : Keeps z (unarmSlot t s i) := by
  unfold unarmSlot
  repeat' first
    | with_reducible assumption | with_reducible apply wfs_keeps

theorem dropPath_keeps {z : State} {s : State} {p : Path} (kz : Keeps z s) : Keeps z (dropPath s p) := by
  unfold dropPath
  repeat' first
    | with_reducible assumption | with_reducible apply unarmSlot_keeps | with_reducible apply wf_keeps
    | with_reducible refine Keeps.foldl _ _ ?_ (fun _ _ _ => ?_) | simp -zeta only [keeps_upd]

theorem armSlot_keeps {z : State} {p : Path} {at_ : Nat} {mode : Nat} {fibre : Nat} {t : Nat} {s : State} {i : Nat} (kz : Keeps z s) : Keeps z (armSlot p at_ mode fibre t s i) := by
  unfold armSlot
  repeat' first
    | with_reducible assumption | with_reducible apply wfs_keeps | simp -zeta only [keeps_upd]

theorem armPath_keeps {z : State} {s : State} {p : Path} {at_ : Nat} (kz : Keeps z s) : Keeps z (armPath s p at_) := by
  unfold armPath
  repeat' first
    | with_reducible assumption | with_reducible apply armSlot_keeps | with_reducible refine Keeps.foldl _ _ ?_ (fun _ _ _ => ?_)
    | (extract_lets +onlyGivenNames v; first | clear_value v | subst v) | with_reducible refine Keeps.ite ?_ ?_

theorem armBlock_keeps {z : State} {s : State} {p : Path} {at_ : Nat} (kz : Keeps z s) : Keeps z (armBlock s p at_) := by
  unfold armBlock
  repeat' first
    | with_reducible assumption | with_reducible apply armSlot_keeps | with_reducible refine Keeps.foldl _ _ ?_ (fun _ _ _ => ?_)

theorem pathSend_keeps {z : State} {s : State} {p : Path} {dst : Nat} {typ : Nat} {reason : Nat} {at_ : Nat} (kz : Keeps z s) : Keeps z (pathSend s p dst typ reason at_) := by
  unfold pathSend
  repeat' first
    | with_reducible assumption | with_reducible apply emit_keeps

theorem pathSendAll_keeps {z : State} {s : State} {p : Path} {typ : Nat} {at_ : Nat} (kz : Keeps z s) : Keeps z (pathSendAll s p typ at_) := by
  unfold pathSendAll
  repeat' first
    | with_reducible assumption | with_reducible apply pathSend_keeps | with_reducible refine Keeps.foldl _ _ ?_ (fun _ _ _ => ?_)

theorem xcDenied_keeps {z : State} {s : State} {t : Nat} (kz : Keeps z s) : Keeps z (xcDenied s t) := by
  unfold xcDenied
  repeat' first
    | with_reducible assumption | with_reducible apply optEvent_keeps | with_reducible apply bump64_keeps

theorem cancelPath_keeps {z : State} {s : State} {p : Path} (kz : Keeps z s) : Keeps z (cancelPath s p) := by
  unfold cancelPath
  repeat' first
    | with_reducible assumption | with_reducible apply xcDenied_keeps | with_reducible apply dropPath_keeps
    | with_reducible apply pathSendAll_keeps

theorem execBypassRequest_keeps {z : State} {dir : Fin 6} {target : BitVec 24} {width : Fin 256} {s : State} (kz : Keeps z s) : KeepsNext z (execBypassRequest dir target width s) := by
  unfold execBypassRequest
  repeat' first
    | with_reducible assumption | with_reducible refine Keeps.next ?_ | with_reducible apply xcDenied_keeps
    | with_reducible apply pathSend_keeps | with_reducible apply holdPath_keeps | simp -zeta only [keeps_upd]
    | (extract_lets +onlyGivenNames v; refine Keeps.cut (z := z) v ?_ (fun hv => ?_); subst v; rotate_left; clear_value v)
    | (extract_lets +onlyGivenNames v; first | clear_value v | subst v) | with_reducible refine Keeps.ite ?_ ?_ | split

theorem denyPath_keeps {z : State} {s : State} {p : Path} {reason : Nat} (kz : Keeps z s) : Keeps z (denyPath s p reason) := by
  unfold denyPath
  repeat' first
    | with_reducible assumption | with_reducible apply pathSend_keeps | with_reducible apply xcDenied_keeps
    | (extract_lets +onlyGivenNames v; refine Keeps.cut (z := z) v ?_ (fun hv => ?_); subst v; rotate_left; clear_value v)
    | (extract_lets +onlyGivenNames v; clear_value v) | with_reducible refine Keeps.ite ?_ ?_

theorem execPathReserve_keeps {z : State} {m : Sys2Proof.PathMsg} {s : State} (kz : Keeps z s) : KeepsNext z (execPathReserve m s) := by
  unfold execPathReserve
  repeat' first
    | with_reducible assumption | with_reducible refine Keeps.next ?_ | with_reducible apply denyPath_keeps
    | with_reducible apply holdPath_keeps | with_reducible apply pathSend_keeps
    | (extract_lets +onlyGivenNames v; refine Keeps.cut (z := z) v ?_ (fun hv => ?_); subst v; rotate_left; clear_value v)
    | (extract_lets +onlyGivenNames v; first | clear_value v | subst v) | with_reducible refine Keeps.ite ?_ ?_

theorem execPathReserved_keeps {z : State} {m : Sys2Proof.PathMsg} {s : State} (kz : Keeps z s) : KeepsNext z (execPathReserved m s) := by
  unfold execPathReserved
  repeat' first
    | with_reducible assumption | with_reducible refine Keeps.next ?_ | with_reducible apply cancelPath_keeps
    | with_reducible apply pathSendAll_keeps | with_reducible apply armPath_keeps | with_reducible apply setPath_keeps
    | simp -zeta only [keeps_upd]
    | (extract_lets +onlyGivenNames v; first | clear_value v | subst v) | with_reducible refine Keeps.ite ?_ ?_ | split

theorem execPathDeny_keeps {z : State} {m : Sys2Proof.PathMsg} {s : State} (kz : Keeps z s) : KeepsNext z (execPathDeny m s) := by
  unfold execPathDeny
  repeat' first
    | with_reducible assumption | with_reducible refine Keeps.next ?_ | with_reducible apply cancelPath_keeps
    | with_reducible refine Keeps.ite ?_ ?_ | split

theorem execPathArm_keeps {z : State} {m : Sys2Proof.PathMsg} {s : State} (kz : Keeps z s) : KeepsNext z (execPathArm m s) := by
  unfold execPathArm
  repeat' first
    | with_reducible assumption | with_reducible refine Keeps.next ?_ | with_reducible apply denyPath_keeps
    | with_reducible apply pathSend_keeps | with_reducible apply armPath_keeps | with_reducible apply setPath_keeps
    | simp -zeta only [keeps_upd]
    | (extract_lets +onlyGivenNames v; first | clear_value v | subst v) | with_reducible refine Keeps.ite ?_ ?_ | split

theorem execPathArmed_keeps {z : State} {m : Sys2Proof.PathMsg} {sender : BitVec 24} {s : State} (kz : Keeps z s) : KeepsNext z (execPathArmed m sender s) := by
  unfold execPathArmed
  repeat' first
    | with_reducible assumption | with_reducible refine Keeps.next ?_ | with_reducible apply setPath_keeps
    | with_reducible apply answered_keeps | simp -zeta only [keeps_upd]
    | (extract_lets +onlyGivenNames v; first | clear_value v | subst v) | with_reducible refine Keeps.ite ?_ ?_ | split

theorem execPathArmDeadline_keeps {z : State} {pid : BitVec 16} {s : State} (kz : Keeps z s) : KeepsNext z (execPathArmDeadline pid s) := by
  unfold execPathArmDeadline
  repeat' first
    | with_reducible assumption | with_reducible refine Keeps.next ?_ | with_reducible apply cancelPath_keeps
    | with_reducible refine Keeps.ite ?_ ?_ | split

theorem execPathCancel_keeps {z : State} {m : Sys2Proof.PathMsg} {s : State} (kz : Keeps z s) : KeepsNext z (execPathCancel m s) := by
  unfold execPathCancel
  repeat' first
    | with_reducible assumption | with_reducible refine Keeps.next ?_ | with_reducible apply dropPath_keeps
    | with_reducible refine Keeps.ite ?_ ?_ | split

theorem execPathReserveExpiry_keeps {z : State} {origin : BitVec 24} {pid : BitVec 16} {s : State} (kz : Keeps z s) : KeepsNext z (execPathReserveExpiry origin pid s) := by
  unfold execPathReserveExpiry
  repeat' first
    | with_reducible assumption | with_reducible refine Keeps.next ?_ | with_reducible apply cancelPath_keeps
    | with_reducible apply dropPath_keeps | with_reducible refine Keeps.ite ?_ ?_ | split

theorem laneDark_keeps {z : State} {s : State} {l : Nat} (kz : Keeps z s) : Keeps z (laneDark s l) := by
  unfold laneDark
  repeat' first
    | with_reducible assumption | with_reducible apply laneLeaves_keeps | with_reducible apply wf_keeps

theorem pathChanged_keeps {z : State} {s : State} {p : Path} {mode : Nat} (kz : Keeps z s) : Keeps z (pathChanged s p mode) := by
  unfold pathChanged
  repeat' first
    | with_reducible assumption | with_reducible apply setPath_keeps | simp -zeta only [keeps_upd]
    | with_reducible refine Keeps.ite ?_ ?_

theorem execCrossConnectChange_keeps {z : State} {t : Fin 64} {slot : Fin 32} {s : State} (kz : Keeps z s) : KeepsNext z (execCrossConnectChange t slot s) := by
  unfold execCrossConnectChange
  repeat' first
    | with_reducible assumption | with_reducible refine Keeps.next ?_ | with_reducible apply unarmSlot_keeps
    | with_reducible apply laneDark_keeps | with_reducible apply pathChanged_keeps | with_reducible apply planSwap_keeps
    | with_reducible apply setSwap_keeps | with_reducible apply optEvent_keeps | with_reducible apply wfs_keeps
    | with_reducible apply bump64_keeps | simp -zeta only [keeps_upd]
    | (extract_lets +onlyGivenNames v; refine Keeps.cut (z := z) v ?_ (fun hv => ?_); subst v; rotate_left; clear_value v)
    | (extract_lets +onlyGivenNames v; first | clear_value v | subst v) | with_reducible refine Keeps.ite ?_ ?_ | split

theorem execPathLaneStart_keeps {z : State} {origin : BitVec 24} {pid : BitVec 16} {s : State} (kz : Keeps z s) : KeepsNext z (execPathLaneStart origin pid s) := by
  unfold execPathLaneStart
  repeat' first
    | with_reducible assumption | with_reducible refine Keeps.next ?_ | with_reducible apply setPath_keeps
    | with_reducible apply laneStart_keeps | with_reducible apply fibreSafe_keeps | with_reducible apply wf_keeps
    | with_reducible refine Keeps.foldl _ _ ?_ (fun _ _ _ => ?_) | simp -zeta only [keeps_upd]
    | (extract_lets +onlyGivenNames v; refine Keeps.cut (z := z) v ?_ (fun hv => ?_); subst v; rotate_left; clear_value v)
    | (extract_lets +onlyGivenNames v; first | clear_value v | subst v) | with_reducible refine Keeps.ite ?_ ?_ | split

theorem execBypassRelease_keeps {z : State} {dir : Fin 6} {s : State} (kz : Keeps z s) : KeepsNext z (execBypassRelease dir s) := by
  unfold execBypassRelease
  repeat' first
    | with_reducible assumption | with_reducible refine Keeps.next ?_ | simp -zeta only [keeps_upd]
    | (extract_lets +onlyGivenNames v; subst v) | with_reducible refine Keeps.ite ?_ ?_

theorem execPathReleaseStart_keeps {z : State} {pid : BitVec 16} {s : State} (kz : Keeps z s) : KeepsNext z (execPathReleaseStart pid s) := by
  unfold execPathReleaseStart
  repeat' first
    | with_reducible assumption | with_reducible refine Keeps.next ?_ | with_reducible apply pathSendAll_keeps
    | with_reducible apply armBlock_keeps | with_reducible apply setPath_keeps | simp -zeta only [keeps_upd]
    | (extract_lets +onlyGivenNames v; clear_value v) | with_reducible refine Keeps.ite ?_ ?_ | split

theorem execPathRelease_keeps {z : State} {m : Sys2Proof.PathMsg} {s : State} (kz : Keeps z s) : KeepsNext z (execPathRelease m s) := by
  unfold execPathRelease
  repeat' first
    | with_reducible assumption | with_reducible refine Keeps.next ?_ | with_reducible apply pathChanged_keeps
    | with_reducible apply armBlock_keeps | with_reducible apply setPath_keeps | simp -zeta only [keeps_upd]
    | (extract_lets +onlyGivenNames v; first | clear_value v | subst v) | with_reducible refine Keeps.ite ?_ ?_ | split

end Sys2Proof.Machine
end

