-- ==== Sys2Proof/Laws/KeepsEye.lean ====
section
/-! SUPPORT. Every operation of Sys2Proof.Machine.Eye keeps what Keeps says. -/
namespace Sys2Proof.Machine

theorem showPower_keeps {z : State} {s : State} {t : Nat} {f : Nat} {power : BitVec 16} (kz : Keeps z s) : Keeps z (showPower s t f power) := by
  unfold showPower
  repeat' first
    | with_reducible assumption | with_reducible apply wf_keeps

theorem execFibreProbe_keeps {z : State} {t : Fin 64} {f : Fin 4} {peer : Bool} {s : State} (kz : Keeps z s) : KeepsNext z (execFibreProbe t f peer s) := by
  unfold execFibreProbe
  repeat' first
    | with_reducible assumption | with_reducible refine Keeps.next ?_ | with_reducible apply setFibre_keeps
    | (extract_lets +onlyGivenNames v; first | clear_value v | subst v) | with_reducible refine Keeps.ite ?_ ?_

theorem execPeerPilotSeen_keeps {z : State} {t : Fin 64} {f : Fin 4} {power : BitVec 16} {s : State} (kz : Keeps z s) : KeepsNext z (execPeerPilotSeen t f power s) := by
  unfold execPeerPilotSeen
  repeat' first
    | with_reducible assumption | with_reducible refine Keeps.next ?_ | with_reducible apply showPower_keeps
    | with_reducible apply setFibre_keeps | with_reducible refine Keeps.ite ?_ ?_

theorem execProbeTimeout_keeps {z : State} {t : Fin 64} {f : Fin 4} {s : State} (kz : Keeps z s) : KeepsNext z (execProbeTimeout t f s) := by
  unfold execProbeTimeout
  repeat' first
    | with_reducible assumption | with_reducible refine Keeps.next ?_ | with_reducible apply fibreSafe_keeps
    | with_reducible refine Keeps.ite ?_ ?_

theorem execPeerPilotLost_keeps {z : State} {t : Fin 64} {f : Fin 4} {s : State} (kz : Keeps z s) : KeepsNext z (execPeerPilotLost t f s) := by
  unfold execPeerPilotLost
  repeat' first
    | with_reducible assumption | with_reducible refine Keeps.next ?_ | with_reducible apply fibreSafe_keeps
    | with_reducible refine Keeps.ite ?_ ?_

theorem laneAgain_keeps {z : State} {s : State} {l : Nat} (kz : Keeps z s) : Keeps z (laneAgain s l) := by
  unfold laneAgain
  repeat' first
    | with_reducible assumption | with_reducible apply laneStart_keeps | with_reducible refine Keeps.foldl _ _ ?_ (fun _ _ _ => ?_)
    | with_reducible refine Keeps.ite ?_ ?_

theorem fibreLinks_keeps {z : State} {s : State} {t : Nat} {f : Nat} (kz : Keeps z s) : Keeps z (fibreLinks s t f) := by
  unfold fibreLinks
  repeat' first
    | with_reducible assumption | with_reducible apply laneHandshake_keeps | with_reducible refine Keeps.foldl _ _ ?_ (fun _ _ _ => ?_)

theorem execHoldDone_keeps {z : State} {t : Fin 64} {f : Fin 4} {power : BitVec 16} {s : State} (kz : Keeps z s) : KeepsNext z (execHoldDone t f power s) := by
  unfold execHoldDone
  repeat' first
    | with_reducible assumption | with_reducible refine Keeps.next ?_ | with_reducible apply showPower_keeps
    | with_reducible apply laneAgain_keeps | with_reducible apply fibreLinks_keeps | with_reducible apply setFibre_keeps
    | with_reducible apply optEvent_keeps | with_reducible refine Keeps.foldl _ _ ?_ (fun _ _ _ => ?_) | simp -zeta only [keeps_upd]
    | (extract_lets +onlyGivenNames v; refine Keeps.cut (z := z) v ?_ (fun hv => ?_); subst v; rotate_left; clear_value v)
    | (extract_lets +onlyGivenNames v; first | clear_value v | subst v) | with_reducible refine Keeps.ite ?_ ?_

theorem laneUnready_keeps {z : State} {s : State} {l : Nat} (kz : Keeps z s) : Keeps z (laneUnready s l) := by
  unfold laneUnready
  repeat' first
    | with_reducible assumption | with_reducible apply linkDown_keeps | with_reducible apply settle_keeps
    | with_reducible apply setLaneReady_keeps | with_reducible refine Keeps.ite ?_ ?_ | split

theorem eyeBlock_keeps {z : State} {s : State} {t : Nat} {f : Nat} (kz : Keeps z s) : Keeps z (eyeBlock s t f) := by
  unfold eyeBlock
  repeat' first
    | with_reducible assumption | with_reducible apply wfs_keeps | with_reducible refine Keeps.foldl _ _ ?_ (fun _ _ _ => ?_)

theorem execLossOfPilot_keeps {z : State} {t : Fin 64} {f : Fin 4} {power : BitVec 16} {s : State} (kz : Keeps z s) : KeepsNext z (execLossOfPilot t f power s) := by
  unfold execLossOfPilot
  repeat' first
    | with_reducible assumption | with_reducible refine Keeps.next ?_ | with_reducible apply showPower_keeps
    | with_reducible apply laneUnready_keeps | with_reducible apply eyeBlock_keeps | with_reducible apply fibreSafe_keeps
    | with_reducible apply optEvent_keeps | with_reducible apply bump64_keeps
    | with_reducible refine Keeps.foldl _ _ ?_ (fun _ _ _ => ?_)
    | (extract_lets +onlyGivenNames v; refine Keeps.cut (z := z) v ?_ (fun hv => ?_); subst v; rotate_left; clear_value v)
    | (extract_lets +onlyGivenNames v; first | clear_value v | subst v) | with_reducible refine Keeps.ite ?_ ?_

theorem sirClear_keeps {z : State} {s : State} {t : Nat} (kz : Keeps z s) : Keeps z (sirClear s t) := by
  unfold sirClear
  repeat' first
    | with_reducible assumption | with_reducible apply wn_keeps | with_reducible refine Keeps.foldl _ _ ?_ (fun _ _ _ => ?_)

theorem sirRefuse_keeps {z : State} {s : State} {t : Nat} {status : Nat} (kz : Keeps z s) : Keeps z (sirRefuse s t status) := by
  unfold sirRefuse
  repeat' first
    | with_reducible assumption | with_reducible apply sirClear_keeps | with_reducible apply sirHead_keeps
    | with_reducible apply optEvent_keeps | with_reducible apply wfs_keeps

theorem sirRun_keeps {z : State} {s : State} {t : Nat} (kz : Keeps z s) : Keeps z (sirRun s t) := by
  unfold sirRun
  repeat' first
    | with_reducible assumption | with_reducible apply sirClear_keeps | with_reducible apply setSpare_keeps
    | with_reducible apply wf_keeps | with_reducible apply bump64_keeps | with_reducible apply wfs_keeps | simp -zeta only [keeps_upd]

theorem execSiroccoStart_keeps {z : State} {t : Fin 64} {v : Sys2Proof.Word} {s : State} (kz : Keeps z s) : KeepsNext z (execSiroccoStart t v s) := by
  unfold execSiroccoStart
  repeat' first
    | with_reducible assumption | with_reducible refine Keeps.next ?_ | with_reducible apply sirRefuse_keeps
    | with_reducible apply sirRun_keeps | with_reducible apply heldRefuse_keeps
    | (extract_lets +onlyGivenNames v; refine Keeps.cut (z := z) v ?_ (fun hv => ?_); subst v; rotate_left; clear_value v)
    | (extract_lets +onlyGivenNames v; first | clear_value v | subst v) | with_reducible refine Keeps.ite ?_ ?_ | split

theorem execSiroccoAbort_keeps {z : State} {t : Fin 64} {v : Sys2Proof.Word} {s : State} (kz : Keeps z s) : KeepsNext z (execSiroccoAbort t v s) := by
  unfold execSiroccoAbort
  repeat' first
    | with_reducible assumption | with_reducible refine Keeps.next ?_ | with_reducible apply heldRefuse_keeps
    | with_reducible apply sirEnd_keeps | with_reducible apply sirPartial_keeps | with_reducible refine Keeps.ite ?_ ?_

theorem execSiroccoRunDone_keeps {z : State} {t : Fin 64} {vals : List Sys2Proof.Word} {s : State} (kz : Keeps z s) : KeepsNext z (execSiroccoRunDone t vals s) := by
  unfold execSiroccoRunDone
  repeat' first
    | with_reducible assumption | with_reducible refine Keeps.next ?_ | with_reducible apply sirEnd_keeps
    | with_reducible apply wn_keeps | with_reducible apply wf_keeps | with_reducible refine Keeps.foldl _ _ ?_ (fun _ _ _ => ?_)
    | simp -zeta only [keeps_upd]
    | (extract_lets +onlyGivenNames v; first | clear_value v | subst v) | with_reducible refine Keeps.ite ?_ ?_ | split

end Sys2Proof.Machine
end

