-- ==== Sys2Proof/Laws/KeepsTime.lean ====
section
/-! SUPPORT. Every operation of Sys2Proof.Machine.Time keeps what Keeps says. -/
namespace Sys2Proof.Machine

theorem ptpSend_keeps {z : State} {s : State} {kind : Nat} {p : Nat} {m : Sys2Proof.PtpBody} (kz : Keeps z s) : Keeps z (ptpSend s kind p m) := by
  unfold ptpSend
  repeat' first
    | with_reducible assumption | with_reducible apply mpEmit_keeps | with_reducible apply emit_keeps
    | with_reducible refine Keeps.ite ?_ ?_

theorem settleTheta_keeps {z : State} {s : State} {kind : Nat} {p : Nat} (kz : Keeps z s) : Keeps z (settleTheta s kind p) := by
  unfold settleTheta
  repeat' first
    | with_reducible assumption | with_reducible apply modSource_keeps | with_reducible apply timEvent_keeps
    | simp -zeta only [keeps_upd] | with_reducible refine Keeps.ite ?_ ?_ | split

theorem execFineTimeMarker_keeps {z : State} {port : Fin 4096} {sub : Fin 8} {rx : Int} {back : Int} {s : State} (kz : Keeps z s) : KeepsNext z (execFineTimeMarker port sub rx back s) := by
  unfold execFineTimeMarker
  repeat' first
    | with_reducible assumption | with_reducible refine Keeps.next ?_ | with_reducible apply settleTheta_keeps
    | simp -zeta only [keeps_upd]
    | (extract_lets +onlyGivenNames v; refine Keeps.cut (z := z) v ?_ (fun hv => ?_); subst v; rotate_left; first | clear_value v | subst v)
    | (extract_lets +onlyGivenNames v; first | clear_value v | subst v) | with_reducible refine Keeps.ite ?_ ?_ | split
    | dsimp -zeta only

theorem settleForeign_keeps {z : State} {s : State} {kind : Nat} {p : Nat} (kz : Keeps z s) : Keeps z (settleForeign s kind p) := by
  unfold settleForeign
  repeat' first
    | with_reducible assumption | with_reducible apply sourceLost_keeps | with_reducible apply selectSource_keeps
    | with_reducible apply modSource_keeps | with_reducible apply timEvent_keeps | simp -zeta only [keeps_upd]
    | (extract_lets +onlyGivenNames v; refine Keeps.cut (z := z) v ?_ (fun hv => ?_); subst v; rotate_left; first | clear_value v | subst v)
    | (extract_lets +onlyGivenNames v; first | clear_value v | subst v) | with_reducible refine Keeps.ite ?_ ?_ | split
    | dsimp -zeta only

theorem heardAnnounce_keeps {z : State} {s : State} {kind : Nat} {p : Nat} {ds : PtpDs} (kz : Keeps z s) : Keeps z (heardAnnounce s kind p ds) := by
  unfold heardAnnounce
  repeat' first
    | with_reducible assumption | with_reducible apply settleForeign_keeps | simp -zeta only [keeps_upd]
    | (extract_lets +onlyGivenNames v; refine Keeps.cut (z := z) v ?_ (fun hv => ?_); subst v; rotate_left; first | clear_value v | subst v)
    | (extract_lets +onlyGivenNames v; first | clear_value v | subst v) | with_reducible refine Keeps.ite ?_ ?_ | split
    | dsimp -zeta only

theorem syncOffset_keeps {z : State} {s : State} {kind : Nat} {p : Nat} {t1 : Int} (kz : Keeps z s) : Keeps z (syncOffset s kind p t1) := by
  unfold syncOffset
  repeat' first
    | with_reducible assumption | with_reducible apply settleTheta_keeps | with_reducible apply modSource_keeps
    | simp -zeta only [keeps_upd] | split

theorem askDelay_keeps {z : State} {s : State} {kind : Nat} {p : Nat} (kz : Keeps z s) : Keeps z (askDelay s kind p) := by
  unfold askDelay
  repeat' first
    | with_reducible assumption | with_reducible apply ptpSend_keeps | with_reducible apply modSource_keeps
    | simp -zeta only [keeps_upd] | with_reducible refine Keeps.ite ?_ ?_

theorem askPeer_keeps {z : State} {s : State} {p : Nat} (kz : Keeps z s) : Keeps z (askPeer s p) := by
  unfold askPeer
  repeat' first
    | with_reducible assumption | with_reducible apply ptpSend_keeps | with_reducible apply modSource_keeps

theorem ptpBodyRx_keeps {z : State} {s : State} {kind : Nat} {p : Nat} {sender : Nat} {m : Sys2Proof.PtpBody} (kz : Keeps z s) : Keeps z (ptpBodyRx s kind p sender m) := by
  unfold ptpBodyRx
  repeat' first
    | with_reducible assumption | with_reducible apply askDelay_keeps | with_reducible apply syncOffset_keeps
    | with_reducible apply ptpSend_keeps | with_reducible apply heardAnnounce_keeps | with_reducible apply modSource_keeps
    | simp -zeta only [keeps_upd]
    | (extract_lets +onlyGivenNames v; refine Keeps.cut (z := z) v ?_ (fun hv => ?_); subst v; rotate_left; first | clear_value v | subst v)
    | (extract_lets +onlyGivenNames v; first | clear_value v | subst v) | with_reducible refine Keeps.ite ?_ ?_ | split
    | dsimp -zeta only

theorem execPtpMessageRx_keeps {z : State} {kind : Fin 5} {port : Fin 4096} {m : Sys2Proof.PtpMsg} {s : State} (kz : Keeps z s) : KeepsNext z (execPtpMessageRx kind port m s) := by
  unfold execPtpMessageRx
  repeat' first
    | with_reducible assumption | with_reducible refine Keeps.next ?_ | with_reducible apply ptpBodyRx_keeps
    | (extract_lets +onlyGivenNames v; first | clear_value v | subst v) | with_reducible refine Keeps.ite ?_ ?_

theorem execPtpSyncSend_keeps {z : State} {mgmt : Bool} {s : State} (kz : Keeps z s) : KeepsNext z (execPtpSyncSend mgmt s) := by
  unfold execPtpSyncSend
  repeat' first
    | with_reducible assumption | with_reducible refine Keeps.next ?_ | with_reducible apply ptpSend_keeps
    | with_reducible apply askPeer_keeps
    | with_reducible refine Keeps.foldl _ _ ?_ (fun _ _ _ => ?_)
    | (extract_lets +onlyGivenNames v; refine Keeps.cut (z := z) v ?_ (fun hv => ?_); subst v; rotate_left; clear_value v)
    | (extract_lets +onlyGivenNames v; subst v) | with_reducible refine Keeps.ite ?_ ?_

theorem execPtpAnnounceSend_keeps {z : State} {mgmt : Bool} {s : State} (kz : Keeps z s) : KeepsNext z (execPtpAnnounceSend mgmt s) := by
  unfold execPtpAnnounceSend
  repeat' first
    | with_reducible assumption | with_reducible refine Keeps.next ?_ | with_reducible apply ptpSend_keeps
    | with_reducible refine Keeps.foldl _ _ ?_ (fun _ _ _ => ?_)

theorem execAnnounceTimeout_keeps {z : State} {kind : Fin 5} {port : Fin 4096} {s : State} (kz : Keeps z s) : KeepsNext z (execAnnounceTimeout kind port s) := by
  unfold execAnnounceTimeout
  repeat' first
    | with_reducible assumption | with_reducible refine Keeps.next ?_ | with_reducible apply settleForeign_keeps
    | simp -zeta only [keeps_upd]
    | (extract_lets +onlyGivenNames v; refine Keeps.cut (z := z) v ?_ (fun hv => ?_); subst v; rotate_left; first | clear_value v | subst v)
    | (extract_lets +onlyGivenNames v; subst v) | with_reducible refine Keeps.ite ?_ ?_ | split | dsimp -zeta only

theorem execFineQualify_keeps {z : State} {s : State} (kz : Keeps z s) : KeepsNext z (execFineQualify s) := by
  unfold execFineQualify
  repeat' first
    | with_reducible assumption | with_reducible refine Keeps.next ?_ | with_reducible apply setTimFine_keeps
    | with_reducible apply setTimSt_keeps | with_reducible refine Keeps.ite ?_ ?_ | split

theorem acceptSource_keeps {z : State} {s : State} {theta : Nat} (kz : Keeps z s) : Keeps z (acceptSource s theta) := by
  unfold acceptSource
  repeat' first
    | with_reducible assumption | with_reducible apply setTimSt_keeps | with_reducible apply setTimReady_keeps
    | (extract_lets +onlyGivenNames v; refine Keeps.cut (z := z) v ?_ (fun hv => ?_); subst v; rotate_left; clear_value v)
    | (extract_lets +onlyGivenNames v; first | clear_value v | subst v) | with_reducible refine Keeps.ite ?_ ?_

theorem execRefusedSourceQualify_keeps {z : State} {s : State} (kz : Keeps z s) : KeepsNext z (execRefusedSourceQualify s) := by
  unfold execRefusedSourceQualify
  repeat' first
    | with_reducible assumption | with_reducible refine Keeps.next ?_ | with_reducible apply acceptSource_keeps
    | with_reducible apply showSource_keeps | with_reducible apply modSource_keeps | simp -zeta only [keeps_upd]
    | with_reducible refine Keeps.ite ?_ ?_ | split

theorem execHoldoverLimit_keeps {z : State} {s : State} (kz : Keeps z s) : KeepsNext z (execHoldoverLimit s) := by
  unfold execHoldoverLimit
  repeat' first
    | with_reducible assumption | with_reducible refine Keeps.next ?_ | with_reducible apply growBound_keeps
    | with_reducible apply setTimReady_keeps
    | (extract_lets +onlyGivenNames v; first | clear_value v | subst v) | with_reducible refine Keeps.ite ?_ ?_

theorem execTimAccept_keeps {z : State} {v : Sys2Proof.Word} {s : State} (kz : Keeps z s) : KeepsNext z (execTimAccept v s) := by
  unfold execTimAccept
  repeat' first
    | with_reducible assumption | with_reducible refine Keeps.next ?_ | with_reducible apply heldRefuse_keeps
    | simp -zeta only [keeps_upd] | with_reducible refine Keeps.ite ?_ ?_

theorem execTimAcquire_keeps {z : State} {v : Sys2Proof.Word} {s : State} (kz : Keeps z s) : KeepsNext z (execTimAcquire v s) := by
  unfold execTimAcquire
  repeat' first
    | with_reducible assumption | with_reducible refine Keeps.next ?_ | with_reducible apply heldRefuse_keeps
    | with_reducible apply setTimReady_keeps | with_reducible apply setTimFine_keeps | with_reducible apply selectSource_keeps
    | with_reducible apply setTimSt_keeps | with_reducible apply wf_keeps | simp -zeta only [keeps_upd]
    | (extract_lets +onlyGivenNames v; refine Keeps.cut (z := z) v ?_ (fun hv => ?_); subst v; rotate_left; clear_value v)
    | (extract_lets +onlyGivenNames v; first | clear_value v | subst v) | with_reducible refine Keeps.ite ?_ ?_

theorem execTimCapture_keeps {z : State} {v : Sys2Proof.Word} {s : State} (kz : Keeps z s) : KeepsNext z (execTimCapture v s) := by
  unfold execTimCapture
  repeat' first
    | with_reducible assumption | with_reducible refine Keeps.next ?_ | with_reducible apply heldRefuse_keeps
    | with_reducible apply wn_keeps | with_reducible apply wnHL_keeps | with_reducible refine Keeps.ite ?_ ?_

theorem execRefQualify_keeps {z : State} {s : State} (kz : Keeps z s) : KeepsNext z (execRefQualify s) := by
  unfold execRefQualify
  repeat' first
    | with_reducible assumption | with_reducible refine Keeps.next ?_ | with_reducible apply growBound_keeps
    | with_reducible apply wf_keeps | with_reducible apply tickFree_keeps | simp -zeta only [keeps_upd]
    | (extract_lets +onlyGivenNames v; refine Keeps.cut (z := z) v ?_ (fun hv => ?_); subst v; rotate_left; first | clear_value v | subst v)
    | (extract_lets +onlyGivenNames v; first | clear_value v | subst v) | with_reducible refine Keeps.ite ?_ ?_ | split
    | dsimp -zeta only

theorem execRefLoss_keeps {z : State} {s : State} (kz : Keeps z s) : KeepsNext z (execRefLoss s) := by
  unfold execRefLoss
  repeat' first
    | with_reducible assumption | with_reducible refine Keeps.next ?_ | with_reducible apply growBound_keeps
    | with_reducible apply timEvent_keeps | with_reducible apply wf_keeps | with_reducible refine Keeps.ite ?_ ?_

theorem execPpsInEdge_keeps {z : State} {widthNs : Nat} {s : State} (kz : Keeps z s) : KeepsNext z (execPpsInEdge widthNs s) := by
  unfold execPpsInEdge
  repeat' first
    | with_reducible assumption | with_reducible refine Keeps.next ?_ | with_reducible apply heardAnnounce_keeps
    | with_reducible apply modSource_keeps | with_reducible apply wn_keeps | with_reducible apply wnHL_keeps
    | with_reducible apply wf_keeps | simp -zeta only [keeps_upd]
    | (extract_lets +onlyGivenNames v; refine Keeps.cut (z := z) v ?_ (fun hv => ?_); subst v; rotate_left; clear_value v)
    | (extract_lets +onlyGivenNames v; clear_value v) | with_reducible refine Keeps.ite ?_ ?_

theorem execPpsLoss_keeps {z : State} {s : State} (kz : Keeps z s) : KeepsNext z (execPpsLoss s) := by
  unfold execPpsLoss
  repeat' first
    | with_reducible assumption | with_reducible refine Keeps.next ?_ | with_reducible apply sourceLost_keeps
    | with_reducible apply timEvent_keeps | with_reducible apply wf_keeps | simp -zeta only [keeps_upd]
    | (extract_lets +onlyGivenNames v; refine Keeps.cut (z := z) v ?_ (fun hv => ?_); subst v; rotate_left; clear_value v)
    | (extract_lets +onlyGivenNames v; clear_value v) | with_reducible refine Keeps.ite ?_ ?_ | split

theorem execPpsOutPulse_keeps {z : State} {s : State} (kz : Keeps z s) : KeepsNext z (execPpsOutPulse s) := by
  unfold execPpsOutPulse
  repeat' first
    | with_reducible assumption | with_reducible refine Keeps.next ?_ | with_reducible apply emit_keeps | simp -zeta only [keeps_upd]
    | (extract_lets +onlyGivenNames v; clear_value v) | with_reducible refine Keeps.ite ?_ ?_

end Sys2Proof.Machine
end

