-- ==== Sys2Proof/Laws/KeepsSecurity.lean ====
section
/-! SUPPORT. Every operation of Sys2Proof.Machine.Security keeps what Keeps says. -/
namespace Sys2Proof.Machine

theorem pkgResult_keeps {z : State} {s : State} {r : Nat} (kz : Keeps z s) : Keeps z (pkgResult s r) := by
  unfold pkgResult
  repeat' first
    | with_reducible assumption | with_reducible apply secEvent_keeps | with_reducible apply wf_keeps
    | with_reducible apply bump64_keeps
    | (extract_lets +onlyGivenNames v; first | clear_value v | subst v) | with_reducible refine Keeps.ite ?_ ?_

theorem execKeyPackage_keeps {z : State} {v : Sys2Proof.Word} {chk : Sys2Proof.PackageCheck} {s : State} (kz : Keeps z s) : KeepsNext z (execKeyPackage v chk s) := by
  unfold execKeyPackage
  repeat' first
    | with_reducible assumption | with_reducible refine Keeps.next ?_ | with_reducible apply pkgResult_keeps
    | with_reducible apply secLog_keeps | simp -zeta only [keeps_upd]
    | (extract_lets +onlyGivenNames v; refine Keeps.cut (z := z) v ?_ (fun hv => ?_); subst v; rotate_left; first | clear_value v | subst v)
    | (extract_lets +onlyGivenNames v; first | clear_value v | subst v) | with_reducible refine Keeps.ite ?_ ?_ | split
    | dsimp -zeta only

theorem orderStoreClear_keeps {z : State} {s : State} (kz : Keeps z s) : Keeps z (orderStoreClear s) := by
  unfold orderStoreClear
  repeat' first
    | with_reducible assumption | with_reducible apply wn_keeps

theorem execOwnershipTransfer_keeps {z : State} {v : Sys2Proof.Word} {chk : Sys2Proof.TransferCheck} {s : State} (kz : Keeps z s) : KeepsNext z (execOwnershipTransfer v chk s) := by
  unfold execOwnershipTransfer
  repeat' first
    | with_reducible assumption | with_reducible refine Keeps.next ?_ | with_reducible apply pkgResult_keeps
    | with_reducible apply orderStoreClear_keeps | with_reducible apply coldStart_keeps | with_reducible apply showOwner_keeps
    | with_reducible apply secLog_keeps | with_reducible apply secEvent_keeps | with_reducible apply wn_keeps
    | simp -zeta only [keeps_upd] | split | with_reducible refine Keeps.otp ?_ ⟨rfl, rfl, rfl, rfl, rfl⟩
    | (extract_lets +onlyGivenNames v; refine Keeps.cut (z := z) v ?_ (fun hv => ?_); subst v; rotate_left; first | clear_value v | subst v)
    | (extract_lets +onlyGivenNames v; first | clear_value v | subst v) | with_reducible refine Keeps.ite ?_ ?_ | split
    | dsimp -zeta only

theorem execDebugToken_keeps {z : State} {v : Sys2Proof.Word} {sigOk : Bool} {s : State} (kz : Keeps z s) : KeepsNext z (execDebugToken v sigOk s) := by
  unfold execDebugToken
  repeat' first
    | with_reducible assumption | with_reducible refine Keeps.next ?_ | with_reducible apply pkgResult_keeps
    | with_reducible apply secLog_keeps | with_reducible apply showDebug_keeps | with_reducible apply newDebugNonce_keeps
    | with_reducible apply secEvent_keeps | with_reducible apply wn_keeps | simp -zeta only [keeps_upd]
    | (extract_lets +onlyGivenNames v; refine Keeps.cut (z := z) v ?_ (fun hv => ?_); subst v; rotate_left; first | clear_value v | subst v)
    | (extract_lets +onlyGivenNames v; first | clear_value v | subst v) | with_reducible refine Keeps.ite ?_ ?_ | split
    | dsimp -zeta only

theorem execDebugTokenExpiry_keeps {z : State} {s : State} (kz : Keeps z s) : KeepsNext z (execDebugTokenExpiry s) := by
  unfold execDebugTokenExpiry
  repeat' first
    | with_reducible assumption | with_reducible refine Keeps.next ?_ | with_reducible apply tokenEnd_keeps

theorem execDbgClose_keeps {z : State} {v : Sys2Proof.Word} {s : State} (kz : Keeps z s) : KeepsNext z (execDbgClose v s) := by
  unfold execDbgClose
  repeat' first
    | with_reducible assumption | with_reducible refine Keeps.next ?_ | with_reducible apply tokenEnd_keeps
    | with_reducible refine Keeps.ite ?_ ?_ | split

theorem execAttest_keeps {z : State} {v : Sys2Proof.Word} {s : State} (kz : Keeps z s) : KeepsNext z (execAttest v s) := by
  unfold execAttest
  repeat' first
    | with_reducible assumption | with_reducible refine Keeps.next ?_ | with_reducible apply showBytes_keeps
    | with_reducible apply secEvent_keeps
    | (extract_lets +onlyGivenNames v; first | clear_value v | subst v) | with_reducible refine Keeps.ite ?_ ?_

theorem showReason_keeps {z : State} {s : State} {p : Nat} {r : Nat} (kz : Keeps z s) : Keeps z (showReason s p r) := by
  unfold showReason
  repeat' first
    | with_reducible assumption | with_reducible apply wf_keeps | with_reducible refine Keeps.ite ?_ ?_

theorem linkRefuse_keeps {z : State} {s : State} {p : Nat} {r : Nat} (kz : Keeps z s) : Keeps z (linkRefuse s p r) := by
  unfold linkRefuse
  repeat' first
    | with_reducible assumption | with_reducible apply showReason_keeps | with_reducible apply setLink_keeps
    | with_reducible apply secEvent_keeps | with_reducible apply bump64_keeps

theorem refusePeer_keeps {z : State} {s : State} {p : Nat} {r : Nat} (kz : Keeps z s) : Keeps z (refusePeer s p r) := by
  unfold refusePeer
  repeat' first
    | with_reducible assumption | with_reducible apply linkRefuse_keeps | with_reducible apply handshakeMsg_keeps

theorem execHello_keeps {z : State} {port : Fin 4096} {m : Sys2Proof.HelloMsg} {s : State} (kz : Keeps z s) : KeepsNext z (execHello port m s) := by
  unfold execHello
  repeat' first
    | with_reducible assumption | with_reducible refine Keeps.next ?_ | with_reducible apply refusePeer_keeps
    | with_reducible apply setLink_keeps | with_reducible apply handshakeMsg_keeps | simp -zeta only [keeps_upd]
    | (extract_lets +onlyGivenNames v; refine Keeps.cut (z := z) v ?_ (fun hv => ?_); subst v; rotate_left; clear_value v)
    | (extract_lets +onlyGivenNames v; first | clear_value v | subst v) | with_reducible refine Keeps.ite ?_ ?_

theorem execCert_keeps {z : State} {port : Fin 4096} {m : Sys2Proof.CertMsg} {s : State} (kz : Keeps z s) : KeepsNext z (execCert port m s) := by
  unfold execCert
  repeat' first
    | with_reducible assumption | with_reducible refine Keeps.next ?_ | with_reducible apply refusePeer_keeps
    | with_reducible apply setLink_keeps | with_reducible apply handshakeMsg_keeps | with_reducible apply secEvent_keeps
    | with_reducible apply tickFree_keeps | simp -zeta only [keeps_upd]
    | (extract_lets +onlyGivenNames v; refine Keeps.cut (z := z) v ?_ (fun hv => ?_); subst v; rotate_left; clear_value v)
    | (extract_lets +onlyGivenNames v; first | clear_value v | subst v) | with_reducible refine Keeps.ite ?_ ?_ | split

theorem linkNowUp_keeps {z : State} {s : State} {p : Nat} (kz : Keeps z s) : Keeps z (linkNowUp s p) := by
  unfold linkNowUp
  repeat' first
    | with_reducible assumption | with_reducible apply setLink_keeps | with_reducible apply setPortLanes_keeps
    | with_reducible apply settle_keeps | with_reducible apply grantEntry_keeps | with_reducible apply secEvent_keeps
    | simp -zeta only [keeps_upd]
    | (extract_lets +onlyGivenNames v; refine Keeps.cut (z := z) v ?_ (fun hv => ?_); subst v; rotate_left; first | clear_value v | subst v)
    | (extract_lets +onlyGivenNames v; first | clear_value v | subst v) | split | dsimp -zeta only

theorem execFinish_keeps {z : State} {port : Fin 4096} {sigOk : Bool} {wellFormed : Bool} {s : State} (kz : Keeps z s) : KeepsNext z (execFinish port sigOk wellFormed s) := by
  unfold execFinish
  repeat' first
    | with_reducible assumption | with_reducible refine Keeps.next ?_ | with_reducible apply refusePeer_keeps
    | with_reducible apply linkNowUp_keeps
    | (extract_lets +onlyGivenNames v; first | clear_value v | subst v) | with_reducible refine Keeps.ite ?_ ?_

theorem execRefuse_keeps {z : State} {port : Fin 4096} {reason : Fin 256} {s : State} (kz : Keeps z s) : KeepsNext z (execRefuse port reason s) := by
  unfold execRefuse
  repeat' first
    | with_reducible assumption | with_reducible refine Keeps.next ?_ | with_reducible apply linkRefuse_keeps
    | with_reducible refine Keeps.ite ?_ ?_

theorem execHandshakeTimeout_keeps {z : State} {port : Fin 4096} {s : State} (kz : Keeps z s) : KeepsNext z (execHandshakeTimeout port s) := by
  unfold execHandshakeTimeout
  repeat' first
    | with_reducible assumption | with_reducible refine Keeps.next ?_ | with_reducible apply refusePeer_keeps
    | with_reducible refine Keeps.ite ?_ ?_

theorem execRefusedRetry_keeps {z : State} {port : Fin 4096} {s : State} (kz : Keeps z s) : KeepsNext z (execRefusedRetry port s) := by
  unfold execRefusedRetry
  repeat' first
    | with_reducible assumption | with_reducible refine Keeps.next ?_ | with_reducible apply startHandshake_keeps
    | (extract_lets +onlyGivenNames v; first | clear_value v | subst v) | with_reducible refine Keeps.ite ?_ ?_ | split

theorem execFrameClose_keeps {z : State} {port : Fin 4096} {s : State} (kz : Keeps z s) : KeepsNext z (execFrameClose port s) := by
  unfold execFrameClose
  repeat' first
    | with_reducible assumption | with_reducible refine Keeps.next ?_ | with_reducible apply setLink_keeps
    | with_reducible apply linkMsg_keeps | with_reducible apply tickFree_keeps | with_reducible apply bump64_keeps
    | (extract_lets +onlyGivenNames v; refine Keeps.cut (z := z) v ?_ (fun hv => ?_); subst v; rotate_left; first | clear_value v | subst v)
    | (extract_lets +onlyGivenNames v; first | clear_value v | subst v) | with_reducible refine Keeps.ite ?_ ?_ | split
    | dsimp -zeta only

theorem retractAsk_keeps {z : State} {s : State} {grp : Nat} {step : Nat} (kz : Keeps z s) : Keeps z (retractAsk s grp step) := by
  unfold retractAsk
  repeat' first
    | with_reducible assumption | with_reducible apply colSend_keeps | with_reducible apply chkEvent_keeps | split

theorem tagFail_keeps {z : State} {s : State} {p : Nat} (kz : Keeps z s) : Keeps z (tagFail s p) := by
  unfold tagFail
  repeat' first
    | with_reducible assumption | with_reducible apply showReason_keeps | with_reducible apply retractAsk_keeps
    | with_reducible apply tryHandshake_keeps | with_reducible apply linkDown_keeps | with_reducible apply secLog_keeps
    | with_reducible apply secEvent_keeps | with_reducible apply bump64_keeps
    | with_reducible refine Keeps.foldl _ _ ?_ (fun _ _ _ => ?_)

theorem execLinkSeal_keeps {z : State} {port : Fin 4096} {m : Sys2Proof.SealMsg} {s : State} (kz : Keeps z s) : KeepsNext z (execLinkSeal port m s) := by
  unfold execLinkSeal
  repeat' first
    | with_reducible assumption | with_reducible refine Keeps.next ?_ | with_reducible apply tagFail_keeps
    | with_reducible apply setLink_keeps
    | (extract_lets +onlyGivenNames v; first | clear_value v | subst v) | with_reducible refine Keeps.ite ?_ ?_

theorem execSealMissing_keeps {z : State} {port : Fin 4096} {s : State} (kz : Keeps z s) : KeepsNext z (execSealMissing port s) := by
  unfold execSealMissing
  repeat' first
    | with_reducible assumption | with_reducible refine Keeps.next ?_ | with_reducible apply tagFail_keeps
    | with_reducible refine Keeps.ite ?_ ?_

theorem execRekey_keeps {z : State} {port : Fin 4096} {able : Bool} {s : State} (kz : Keeps z s) : KeepsNext z (execRekey port able s) := by
  unfold execRekey
  repeat' first
    | with_reducible assumption | with_reducible refine Keeps.next ?_ | with_reducible apply showReason_keeps
    | with_reducible apply setLink_keeps | with_reducible apply tryHandshake_keeps | with_reducible apply linkDown_keeps
    | with_reducible apply secEvent_keeps | simp -zeta only [keeps_upd]
    | (extract_lets +onlyGivenNames v; first | clear_value v | subst v) | with_reducible refine Keeps.ite ?_ ?_

end Sys2Proof.Machine
end

