-- ==== Sys2Proof/Laws/KeepsBox.lean ====
section
/-! SUPPORT. Every operation of Sys2Proof.Machine.Box keeps what Keeps says. -/
namespace Sys2Proof.Machine

theorem setColl_keeps {z : State} {s : State} {grp : Nat} {c : Coll} (kz : Keeps z s) : Keeps z (setColl s grp c) := by
  unfold setColl
  repeat' first
    | with_reducible assumption | with_reducible apply setGroup_keeps | simp -zeta only [keeps_upd] | split

end Sys2Proof.Machine
end

