-- ==== Sys2Proof/Laws/KeepsOutput.lean ====
section
/-! SUPPORT. Every operation of Sys2Proof.Machine.Output keeps what Keeps says. -/
namespace Sys2Proof.Machine

theorem putSegment_keeps {z : State} {s : State} {i : TaskInfo} {count : Nat} {seg : Nat} {r : Rounded} (kz : Keeps z s) : Keeps z (putSegment s i count seg r) := by
  unfold putSegment
  repeat' first
    | with_reducible assumption | with_reducible apply oasisWrite_keeps
    | (extract_lets +onlyGivenNames v; refine Keeps.cut (z := z) v ?_ (fun hv => ?_); subst v; rotate_left; clear_value v)
    | (extract_lets +onlyGivenNames v; clear_value v) | with_reducible refine Keeps.ite ?_ ?_

theorem doStores_keeps {z : State} {s : State} {part : Nat} {c : TaskCtx} (kz : Keeps z s) : Keeps z (doStores s part c) := by
  unfold doStores
  repeat' first
    | with_reducible assumption | with_reducible apply oasisWrite_keeps
    | with_reducible refine Keeps.foldl _ _ ?_ (fun _ _ _ => ?_)

theorem writeKernel_keeps {z : State} {s : State} {r : KRun} {c : TaskCtx} (kz : Keeps z s) : Keeps z (writeKernel s r c).1 := by
  unfold writeKernel
  repeat' first
    | with_reducible assumption | with_reducible apply doStores_keeps | with_reducible apply putSegment_keeps
    | (extract_lets +onlyGivenNames v; refine Keeps.cut (z := z) v ?_ (fun hv => ?_); subst v; rotate_left; first | clear_value v | subst v)
    | (extract_lets +onlyGivenNames v; first | clear_value v | subst v) | with_reducible refine Keeps.ite ?_ ?_ | split
    | dsimp -zeta only

end Sys2Proof.Machine
end

