-- ==== Sys2Proof/Laws/KeepsDisable.lean ====
section
/-! SUPPORT. Every operation of Sys2Proof.Machine.Disable keeps what Keeps says. -/
namespace Sys2Proof.Machine

theorem finishSlot_keeps {z : State} {fq : Nat} {no : Nat} {s : State} {p : Nat × Bool} (kz : Keeps z s) : Keeps z (finishSlot fq no s p) := by
  unfold finishSlot
  repeat' first
    | with_reducible assumption | with_reducible apply writeKernel_keeps | with_reducible apply setRun_keeps
    | with_reducible apply settleEng_keeps | with_reducible apply setEng_keeps | with_reducible apply bump64_keeps
    | (extract_lets +onlyGivenNames v; refine Keeps.cut (z := z) v ?_ (fun hv => ?_); subst v; rotate_left; first | clear_value v | subst v)
    | (extract_lets +onlyGivenNames v; refine Keeps.cut (z := z) v.1 ?_ (fun hv => ?_); subst v; rotate_left; first | clear_value v | subst v)
    | (extract_lets +onlyGivenNames v; first | clear_value v | subst v) | with_reducible refine Keeps.ite ?_ ?_ | split
    | dsimp -zeta only

theorem finishCommits_keeps {z : State} {s : State} {fq : Nat} {no : Nat} (kz : Keeps z s) : Keeps z (finishCommits s fq no) := by
  unfold finishCommits
  repeat' first
    | with_reducible assumption | with_reducible apply finishSlot_keeps
    | (with_reducible refine Keeps.foldlFst _ _ ?_ ?_; rotate_left; rintro ⟨_, _⟩ _ _)
    | with_reducible refine Keeps.foldl _ _ ?_ (fun _ _ _ => ?_) | dsimp -zeta only

theorem dropRun_keeps {z : State} {s : State} {fq : Nat} {no : Nat} (kz : Keeps z s) : Keeps z (dropRun s fq no) := by
  unfold dropRun
  repeat' first
    | with_reducible assumption | with_reducible apply setTq_keeps | with_reducible apply bump64_keeps | simp -zeta only [keeps_upd]
    | (extract_lets +onlyGivenNames v; refine Keeps.cut (z := z) v ?_ (fun hv => ?_); subst v; rotate_left; first | clear_value v | subst v)
    | (extract_lets +onlyGivenNames v; first | clear_value v | subst v) | with_reducible refine Keeps.ite ?_ ?_ | split
    | dsimp -zeta only

theorem failRun_keeps {z : State} {s : State} {fq : Nat} {no : Nat} {status : Nat} (kz : Keeps z s) : Keeps z (failRun s fq no status) := by
  unfold failRun
  repeat' first
    | with_reducible assumption | with_reducible apply dropRun_keeps | with_reducible apply finishCommits_keeps
    | with_reducible apply claim_keeps

theorem removePoolTasks_keeps {z : State} {s : State} {p : Nat × Nat} (kz : Keeps z s) : Keeps z (removePoolTasks s p) := by
  unfold removePoolTasks
  repeat' first
    | with_reducible assumption | with_reducible apply failRun_keeps | with_reducible apply setTq_keeps
    | with_reducible apply abortRequest_keeps
    | with_reducible refine Keeps.foldl _ _ ?_ (fun _ _ _ => ?_)
    | (extract_lets +onlyGivenNames v; first | clear_value v | subst v) | with_reducible refine Keeps.ite ?_ ?_

theorem disableEng_keeps {z : State} {immediate : Bool} {kept : Bool} {s : State} {g : Nat} (kz : Keeps z s) : Keeps z (disableEng immediate kept s g) := by
  unfold disableEng
  repeat' first
    | with_reducible assumption | with_reducible apply stopTasks_keeps | with_reducible apply setEng_keeps
    | with_reducible apply setEngReady_keeps | with_reducible apply setEngSt_keeps | simp -zeta only [keeps_upd]
    | (extract_lets +onlyGivenNames v; refine Keeps.cut (z := z) v ?_ (fun hv => ?_); subst v; rotate_left; clear_value v)
    | (extract_lets +onlyGivenNames v; first | clear_value v | subst v) | with_reducible refine Keeps.ite ?_ ?_

theorem notePools_keeps {z : State} {s : State} {l : List (Nat × Nat)} (kz : Keeps z s) : Keeps z (notePools s l) := by
  unfold notePools
  repeat' first
    | with_reducible assumption | with_reducible apply brcEvent_keeps
    | (with_reducible refine Keeps.foldlFst _ _ ?_ ?_; rotate_left; rintro ⟨_, _⟩ _ _)
    | with_reducible refine Keeps.foldl _ _ ?_ (fun _ _ _ => ?_) | simp -zeta only [keeps_upd] | dsimp -zeta only

theorem disableEngines_keeps {z : State} {s : State} {key : Nat} {gs : List Nat} {immediate : Bool} {scope : Nat} {index : Nat} (kz : Keeps z s) : Keeps z (disableEngines s key gs immediate scope index) := by
  unfold disableEngines
  repeat' first
    | with_reducible assumption | with_reducible apply disableEng_keeps | with_reducible apply removePoolTasks_keeps
    | with_reducible apply notePools_keeps | with_reducible apply settleDrains_keeps | with_reducible apply settle_keeps
    | with_reducible refine Keeps.foldl _ _ ?_ (fun _ _ _ => ?_) | simp -zeta only [keeps_upd]
    | (extract_lets +onlyGivenNames v; refine Keeps.cut (z := z) v ?_ (fun hv => ?_); subst v; rotate_left; first | clear_value v | subst v)
    | (extract_lets +onlyGivenNames v; subst v) | with_reducible refine Keeps.ite ?_ ?_ | split | dsimp -zeta only

theorem enableEng_keeps {z : State} {s : State} {g : Nat} (kz : Keeps z s) : Keeps z (enableEng s g) := by
  unfold enableEng
  repeat' first
    | with_reducible assumption | with_reducible apply setEng_keeps | with_reducible apply settleEng_keeps
    | with_reducible apply setEngSt_keeps | with_reducible apply setEngReady_keeps | simp -zeta only [keeps_upd]
    | (extract_lets +onlyGivenNames v; refine Keeps.cut (z := z) v ?_ (fun hv => ?_); subst v; rotate_left; clear_value v)
    | (extract_lets +onlyGivenNames v; first | clear_value v | subst v) | with_reducible refine Keeps.ite ?_ ?_

theorem quarantine_keeps {z s : State} {g : Nat} (h : Keeps z s) : Keeps z (quarantine s g) := by
  unfold quarantine
  extract_lets empt s0 s1 _ s2 s3 s4
  have h1 : Keeps z s1 := notePools_keeps (Keeps.foldl _ _ (disableEng_keeps h) (fun _ _ k => removePoolTasks_keeps k))
  have h2 : Keeps z s2 := by
    unfold s2
    rwa [keeps_upd]
  have h4 : Keeps z s4 := chkEvent_keeps (fsrStore_keeps (bump64_keeps h2))
  clear_value s4
  refine settle_keeps ?_
  split
  · exact setEngSt_keeps h4
  · exact h4

end Sys2Proof.Machine
end

