-- ==== Sys2Proof/Laws/KeepsEngines.lean ====
section
/-! SUPPORT. Every operation of Sys2Proof.Machine.Engines keeps what Keeps says. -/
namespace Sys2Proof.Machine

theorem generate_keeps {z : State} {s : State} {r : KRun} (kz : Keeps z s) : Keeps z (generate s r) := by
  unfold generate
  repeat' first
    | with_reducible assumption | with_reducible apply setRun_keeps | with_reducible apply queueTask_keeps
    | with_reducible apply modSlot_keeps | simp -zeta only [keeps_upd]
    | (extract_lets +onlyGivenNames v; refine Keeps.cut (z := z) v ?_ (fun hv => ?_); subst v; rotate_left; clear_value v)
    | (extract_lets +onlyGivenNames v; first | clear_value v | subst v) | with_reducible refine Keeps.ite ?_ ?_

theorem execTaskGenerate_keeps {z : State} {d : Fin 8} {q : Fin 2048} {s : State} (kz : Keeps z s) : KeepsNext z (execTaskGenerate d q s) := by
  unfold execTaskGenerate
  repeat' first
    | with_reducible assumption | with_reducible refine Keeps.next ?_ | with_reducible apply generate_keeps | split

theorem sweepTq_keeps {z : State} {s : State} {r : Nat} (kz : Keeps z s) : Keeps z (sweepTq s r) := by
  unfold sweepTq
  repeat' first
    | with_reducible assumption | with_reducible apply setTq_keeps | with_reducible apply bump64_keeps
    | (extract_lets +onlyGivenNames v; clear_value v) | with_reducible refine Keeps.ite ?_ ?_

theorem takeTask_keeps {z : State} {s : State} {g : Nat} {r : Nat} {t : Task} (kz : Keeps z s) : Keeps z (takeTask s g r t) := by
  unfold takeTask
  repeat' first
    | with_reducible assumption | with_reducible apply setTq_keeps | with_reducible apply setEng_keeps
    | with_reducible apply setEngSt_keeps
    | (extract_lets +onlyGivenNames v; refine Keeps.cut (z := z) v ?_ (fun hv => ?_); subst v; rotate_left; clear_value v)
    | (extract_lets +onlyGivenNames v; clear_value v) | with_reducible refine Keeps.ite ?_ ?_

theorem execEngineClaim_keeps {z : State} {g : Fin 4096} {s : State} (kz : Keeps z s) : KeepsNext z (execEngineClaim g s) := by
  unfold execEngineClaim
  repeat' first
    | with_reducible assumption | with_reducible refine Keeps.next ?_ | with_reducible apply sweepTq_keeps
    | with_reducible apply takeTask_keeps | with_reducible apply bump64_keeps
    | with_reducible refine Keeps.foldl _ _ ?_ (fun _ _ _ => ?_)
    | (extract_lets +onlyGivenNames v; refine Keeps.cut (z := z) v ?_ (fun hv => ?_); subst v; rotate_left; first | clear_value v | subst v)
    | (extract_lets +onlyGivenNames v; first | clear_value v | subst v) | with_reducible refine Keeps.ite ?_ ?_ | split
    | dsimp -zeta only

theorem dropSlot_keeps {z : State} {s : State} {g : Nat} {b : Bool} (kz : Keeps z s) : Keeps z (dropSlot s g b) := by
  unfold dropSlot
  repeat' first
    | with_reducible assumption | with_reducible apply settleEng_keeps | with_reducible apply setEng_keeps

theorem failOwner_keeps {z : State} {s : State} {t : Task} {status : Nat} (kz : Keeps z s) : Keeps z (failOwner s t status) := by
  unfold failOwner
  repeat' first
    | with_reducible assumption | with_reducible apply failRun_keeps | with_reducible apply abortRequest_keeps | split

theorem captureFault_keeps {z : State} {s : State} {g : Nat} {pc : Nat} {code : Nat} {sub : Nat} {i : TaskInfo} (kz : Keeps z s) : Keeps z (captureFault s g pc code sub i) := by
  unfold captureFault
  repeat' first
    | with_reducible assumption | with_reducible apply wfs_keeps | with_reducible apply wf_keeps | simp -zeta only [keeps_upd]
    | (extract_lets +onlyGivenNames v; refine Keeps.cut (z := z) v ?_ (fun hv => ?_); subst v; rotate_left; first | clear_value v | subst v)
    | (extract_lets +onlyGivenNames v; first | clear_value v | subst v) | with_reducible refine Keeps.ite ?_ ?_ | split
    | dsimp -zeta only

theorem faultTask_keeps {z : State} {s : State} {g : Nat} {b : Bool} {c : TaskCtx} {code : Nat} {sub : Nat} (kz : Keeps z s) : Keeps z (faultTask s g b c code sub) := by
  unfold faultTask
  repeat' first
    | with_reducible assumption | with_reducible apply captureFault_keeps | with_reducible apply failOwner_keeps
    | with_reducible apply dropSlot_keeps | with_reducible apply settleDrains_keeps | with_reducible apply brcEvent_keeps
    | with_reducible apply bump64_keeps
    | (extract_lets +onlyGivenNames v; refine Keeps.cut (z := z) v ?_ (fun hv => ?_); subst v; rotate_left; first | clear_value v | subst v)
    | (extract_lets +onlyGivenNames v; first | clear_value v | subst v) | with_reducible refine Keeps.ite ?_ ?_ | split
    | dsimp -zeta only

theorem residueEvent_keeps {z : State} {s : State} {g : Nat} (kz : Keeps z s) : Keeps z (residueEvent s g) := by
  unfold residueEvent
  repeat' first
    | with_reducible assumption | with_reducible apply quarantine_keeps | with_reducible apply wn64_keeps | simp -zeta only [keeps_upd]
    | (extract_lets +onlyGivenNames v; refine Keeps.cut (z := z) v ?_ (fun hv => ?_); subst v; rotate_left; clear_value v)
    | (extract_lets +onlyGivenNames v; clear_value v) | with_reducible refine Keeps.ite ?_ ?_

theorem residueStop_keeps {z : State} {s : State} {g : Nat} {b : Bool} {c : TaskCtx} (kz : Keeps z s) : Keeps z (residueStop s g b c) := by
  unfold residueStop
  repeat' first
    | with_reducible assumption | with_reducible apply dropSlot_keeps | with_reducible apply failOwner_keeps
    | with_reducible apply residueEvent_keeps | with_reducible apply requeue_keeps | with_reducible apply settleDrains_keeps
    | with_reducible apply chkEvent_keeps | with_reducible apply fsrStore_keeps | with_reducible apply bump64_keeps
    | dsimp -zeta only
    | (extract_lets +onlyGivenNames v; first | clear_value v | subst v) | with_reducible refine Keeps.ite ?_ ?_

theorem discardTask_keeps {z : State} {s : State} {g : Nat} {b : Bool} (kz : Keeps z s) : Keeps z (discardTask s g b) := by
  unfold discardTask
  repeat' first
    | with_reducible assumption | with_reducible apply dropSlot_keeps | with_reducible apply settleDrains_keeps
    | with_reducible apply bump64_keeps

theorem numTotals_keeps {z : State} {s : State} {i : TaskInfo} {esc : Nat} {sat : Nat} {ufl : Nat} {stale : Nat} {ovf : Nat} {poison : Nat} (kz : Keeps z s) : Keeps z (numTotals s i esc sat ufl stale ovf poison) := by
  unfold numTotals
  repeat' first
    | with_reducible assumption | with_reducible apply numEvent_keeps | with_reducible apply bump64_keeps
    | (extract_lets +onlyGivenNames v; refine Keeps.cut (z := z) v ?_ (fun hv => ?_); subst v; rotate_left; clear_value v)
    | (extract_lets +onlyGivenNames v; subst v) | with_reducible refine Keeps.ite ?_ ?_

theorem poisoned_keeps {z : State} {s : State} {d : Nat} {i : TaskInfo} {segs : Nat} {obj : Nat} {coll : List (Nat × Nat)} (kz : Keeps z s) : Keeps z (poisoned s d i segs obj coll) := by
  unfold poisoned
  repeat' first
    | with_reducible assumption | with_reducible apply chkEvent_keeps | with_reducible apply fsrStore_keeps
    | with_reducible apply bump64_keeps | with_reducible refine Keeps.ite ?_ ?_

theorem finishRun_keeps {z : State} {s : State} {r : KRun} (kz : Keeps z s) : Keeps z (finishRun s r) := by
  unfold finishRun
  repeat' first
    | with_reducible assumption | with_reducible apply poisoned_keeps | with_reducible apply numTotals_keeps
    | with_reducible apply dropRun_keeps | with_reducible apply setResult_keeps | with_reducible apply claim_keeps
    | with_reducible apply tickFree_keeps

theorem advanceRun_keeps {z : State} {s : State} {r : KRun} (kz : Keeps z s) : Keeps z (advanceRun s r) := by
  unfold advanceRun
  repeat' first
    | with_reducible assumption | with_reducible apply generate_keeps | with_reducible apply finishRun_keeps
    | with_reducible apply setRun_keeps | simp -zeta only [keeps_upd]
    | (extract_lets +onlyGivenNames v; first | clear_value v | subst v) | with_reducible refine Keeps.ite ?_ ?_

theorem commitKernel_keeps {z : State} {s : State} {r : KRun} {c : TaskCtx} (kz : Keeps z s) : Keeps z (commitKernel s r c) := by
  unfold commitKernel
  repeat' first
    | with_reducible assumption | with_reducible apply advanceRun_keeps | with_reducible apply writeKernel_keeps
    | with_reducible apply setRun_keeps
    | (extract_lets +onlyGivenNames v; refine Keeps.cut (z := z) v ?_ (fun hv => ?_); subst v; rotate_left; first | clear_value v | subst v)
    | (extract_lets +onlyGivenNames v; refine Keeps.cut (z := z) v.1 ?_ (fun hv => ?_); subst v; rotate_left; first | clear_value v | subst v)
    | (extract_lets +onlyGivenNames v; first | clear_value v | subst v) | dsimp -zeta only

theorem disResult_keeps {z : State} {s : State} {d : Nat} {n : Nat} (kz : Keeps z s) : Keeps z (disResult s d n) := by
  unfold disResult
  repeat' first
    | with_reducible assumption | with_reducible apply wf_keeps

theorem disWrite_keeps {z : State} {s : State} {d : Nat} {v : Sys2Proof.Word} {enable : Bool} {immediate : Bool} {act : State → List Nat → State} (kz : Keeps z s) (hact : ∀ t x0, Keeps z t → Keeps z (act t x0)) : Keeps z (disWrite s d v enable immediate act) := by
  unfold disWrite
  repeat' first
    | with_reducible assumption | with_reducible apply disResult_keeps | with_reducible apply heldRefuse_keeps | apply hact
    | with_reducible refine Keeps.ite ?_ ?_ | split

theorem execEngineEnable_keeps {z : State} {d : Fin 8} {v : Sys2Proof.Word} {s : State} (kz : Keeps z s) : KeepsNext z (execEngineEnable d v s) := by
  unfold execEngineEnable
  repeat' first
    | with_reducible assumption | with_reducible refine Keeps.next ?_ | with_reducible intro _ | with_reducible apply disWrite_keeps
    | with_reducible apply disResult_keeps | with_reducible apply settleDrains_keeps | with_reducible apply enableEng_keeps
    | with_reducible apply settle_keeps | with_reducible refine Keeps.foldl _ _ ?_ (fun _ _ _ => ?_)
    | with_reducible refine Keeps.ite ?_ ?_

theorem execEngineDisableDrain_keeps {z : State} {d : Fin 8} {v : Sys2Proof.Word} {s : State} (kz : Keeps z s) : KeepsNext z (execEngineDisableDrain d v s) := by
  unfold execEngineDisableDrain
  repeat' first
    | with_reducible assumption | with_reducible refine Keeps.next ?_ | with_reducible intro _ | with_reducible apply disWrite_keeps
    | with_reducible apply disResult_keeps | with_reducible apply disableEngines_keeps

theorem execEngineDisableImmediate_keeps {z : State} {d : Fin 8} {v : Sys2Proof.Word} {s : State} (kz : Keeps z s) : KeepsNext z (execEngineDisableImmediate d v s) := by
  unfold execEngineDisableImmediate
  repeat' first
    | with_reducible assumption | with_reducible refine Keeps.next ?_ | with_reducible intro _ | with_reducible apply disWrite_keeps
    | with_reducible apply disResult_keeps | with_reducible apply disableEngines_keeps

theorem execEngineZeroed_keeps {z : State} {g : Fin 4096} {s : State} (kz : Keeps z s) : KeepsNext z (execEngineZeroed g s) := by
  unfold execEngineZeroed
  repeat' first
    | with_reducible assumption | with_reducible refine Keeps.next ?_ | with_reducible apply setEng_keeps
    | with_reducible apply settleDrains_keeps | with_reducible apply settle_keeps | with_reducible apply setEngSt_keeps
    | (extract_lets +onlyGivenNames v; refine Keeps.cut (z := z) v ?_ (fun hv => ?_); subst v; rotate_left; clear_value v)
    | (extract_lets +onlyGivenNames v; first | clear_value v | subst v) | with_reducible refine Keeps.ite ?_ ?_

theorem execBrcFault2Read_keeps {z : State} {d : Fin 8} {s : State} (kz : Keeps z s) : KeepsNext z (execBrcFault2Read d s) := by
  unfold execBrcFault2Read
  repeat' first
    | with_reducible assumption | with_reducible refine Keeps.next ?_ | simp -zeta only [keeps_upd]

end Sys2Proof.Machine
end

