-- ==== Sys2Proof/Laws/KeepsReduce.lean ====
section
/-! SUPPORT. Every operation of Sys2Proof.Machine.Reduce keeps what Keeps says. -/
namespace Sys2Proof.Machine

theorem tellMembers_keeps {z : State} {s : State} {grp : Nat} {x : Group} {l : List Member} {m : ColMsg} (kz : Keeps z s) : Keeps z (tellMembers s grp x l m) := by
  unfold tellMembers
  repeat' first
    | with_reducible assumption | with_reducible apply colSend_keeps | with_reducible refine Keeps.foldl _ _ ?_ (fun _ _ _ => ?_)

theorem twinSend_keeps {z : State} {s : State} {part : Nat} {b : List Sys2Proof.Byte} (kz : Keeps z s) : Keeps z (twinSend s part b) := by
  unfold twinSend
  repeat' first
    | with_reducible assumption | with_reducible apply sendOwn_keeps

theorem collSendData_keeps {z : State} {s : State} {grp : Nat} {x : Group} {c : Coll} {via : Option Nat} {k : Nat} {dst : Nat} {rank : Nat} {fmt : Nat} {first : Bool} {last : Bool} {poison : Bool} {retr : Bool} {b : List Sys2Proof.Byte} (kz : Keeps z s) : Keeps z (collSendData s grp x c via k dst rank fmt first last poison retr b) := by
  unfold collSendData
  repeat' first
    | with_reducible assumption | with_reducible apply twinSend_keeps | with_reducible apply emit_keeps | simp -zeta only [keeps_upd]
    | (extract_lets +onlyGivenNames v; refine Keeps.cut (z := z) v ?_ (fun hv => ?_); subst v; rotate_left; first | clear_value v | subst v)
    | (extract_lets +onlyGivenNames v; first | clear_value v | subst v) | with_reducible refine Keeps.ite ?_ ?_ | split
    | dsimp -zeta only

theorem showGroup_keeps {z : State} {s : State} (kz : Keeps z s) : Keeps z (showGroup s) := by
  unfold showGroup
  repeat' first
    | with_reducible assumption | with_reducible apply wn_keeps | with_reducible apply wfs_keeps | with_reducible apply wf_keeps
    | (extract_lets +onlyGivenNames v; first | clear_value v | subst v) | split

theorem takeCells_keeps {z : State} {s : State} {part : Nat} {l : List Placed} (kz : Keeps z s) : Keeps z (takeCells s part l) := by
  unfold takeCells
  repeat' first
    | with_reducible assumption | with_reducible apply setPagesUsed_keeps | with_reducible apply charge_keeps
    | with_reducible refine Keeps.foldl _ _ ?_ (fun _ _ _ => ?_)

theorem giveCells_keeps {z : State} {s : State} {part : Nat} {l : List Placed} (kz : Keeps z s) : Keeps z (giveCells s part l) := by
  unfold giveCells
  repeat' first
    | with_reducible assumption | with_reducible apply setPagesUsed_keeps | with_reducible apply discharge_keeps
    | with_reducible refine Keeps.foldl _ _ ?_ (fun _ _ _ => ?_)

theorem trimColl_keeps {z : State} {s : State} {grp : Nat} {step : Nat} (kz : Keeps z s) : Keeps z (trimColl s grp step) := by
  unfold trimColl
  repeat' first
    | with_reducible assumption | with_reducible apply giveCells_keeps | with_reducible apply setColl_keeps
    | with_reducible apply grantScope_keeps | simp -zeta only [keeps_upd]
    | (extract_lets +onlyGivenNames v; refine Keeps.cut (z := z) v ?_ (fun hv => ?_); subst v; rotate_left; first | clear_value v | subst v)
    | (extract_lets +onlyGivenNames v; first | clear_value v | subst v) | with_reducible refine Keeps.ite ?_ ?_ | split
    | dsimp -zeta only

theorem countStaging_keeps {z : State} {s : State} {x : Group} {c : Coll} {k : Nat} {n : Nat} {reg : Nat → Nat → Nat} (kz : Keeps z s) : Keeps z (countStaging s x c k n reg) := by
  unfold countStaging
  repeat' first
    | with_reducible assumption | with_reducible apply bump64_keeps | split | dsimp -zeta only

theorem askResend_keeps {z : State} {s : State} {grp : Nat} {x : Group} {c : Coll} {kind : Nat} {rank : Nat} {chunk : Nat} (kz : Keeps z s) : Keeps z (askResend s grp x c kind rank chunk) := by
  unfold askResend
  repeat' first
    | with_reducible assumption | with_reducible apply setColl_keeps | with_reducible apply abortRequest_keeps
    | with_reducible apply emit_keeps | with_reducible apply bump64_keeps | simp -zeta only [keeps_upd]
    | (extract_lets +onlyGivenNames v; refine Keeps.cut (z := z) v ?_ (fun hv => ?_); subst v; rotate_left; clear_value v)
    | (extract_lets +onlyGivenNames v; clear_value v) | with_reducible refine Keeps.ite ?_ ?_

theorem digestFail_keeps {z : State} {s : State} {grp : Nat} {x : Group} {c : Coll} {kind : Nat} {rank : Nat} {chunk : Nat} (kz : Keeps z s) : Keeps z (digestFail s grp x c kind rank chunk) := by
  unfold digestFail
  repeat' first
    | with_reducible assumption | with_reducible apply askResend_keeps | with_reducible apply fsrStore_keeps
    | with_reducible apply chkEvent_keeps | with_reducible apply bump64_keeps

theorem maybeReady_keeps {z : State} {s : State} {grp : Nat} {step : Nat} (kz : Keeps z s) : Keeps z (maybeReady s grp step) := by
  unfold maybeReady
  repeat' first
    | with_reducible assumption | with_reducible apply setColl_keeps | with_reducible apply colSend_keeps | simp -zeta only [keeps_upd]
    | (extract_lets +onlyGivenNames v; clear_value v) | with_reducible refine Keeps.ite ?_ ?_ | split

theorem spreadResult_keeps {z : State} {s : State} {grp : Nat} {x : Group} {c : Coll} {r : ResPkt} {got : Nat} (kz : Keeps z s) : Keeps z (spreadResult s grp x c r got) := by
  unfold spreadResult
  repeat' first
    | with_reducible assumption | with_reducible apply collSendData_keeps | with_reducible apply maybeReady_keeps
    | with_reducible apply trimColl_keeps | with_reducible apply setColl_keeps | with_reducible apply bump64_keeps
    | with_reducible refine Keeps.foldl _ _ ?_ (fun _ _ _ => ?_) | simp -zeta only [keeps_upd]
    | (extract_lets +onlyGivenNames v; refine Keeps.cut (z := z) v ?_ (fun hv => ?_); subst v; rotate_left; first | clear_value v | subst v)
    | (extract_lets +onlyGivenNames v; first | clear_value v | subst v) | dsimp -zeta only

theorem queueChunk_keeps {z : State} {s : State} {grp : Nat} {x : Group} {c : Coll} {h : Chunk} {stage : Nat} {inputs : List InSrc} (kz : Keeps z s) : KeepsSome z (queueChunk s grp x c h stage inputs) := by
  unfold queueChunk
  repeat' first
    | with_reducible assumption | with_reducible refine Keeps.some ?_ | with_reducible exact Keeps.none
    | with_reducible apply setColl_keeps | with_reducible apply queueTask_keeps | with_reducible apply abortRequest_keeps
    | simp -zeta only [keeps_upd]
    | (extract_lets +onlyGivenNames v; clear_value v) | with_reducible refine Keeps.ite ?_ ?_ | split

theorem sendPartial_keeps {z : State} {s : State} {grp : Nat} {x : Group} {c : Coll} {h : Chunk} {dst : Nat} (kz : Keeps z s) : Keeps z (sendPartial s grp x c h dst) := by
  unfold sendPartial
  repeat' first
    | with_reducible assumption | with_reducible apply collSendData_keeps | with_reducible apply setGroup_keeps
    | with_reducible apply bump64_keeps | (with_reducible refine Keeps.foldlFst _ _ ?_ ?_; rotate_left; rintro ⟨_, _⟩ _ _)
    | with_reducible refine Keeps.foldl _ _ ?_ (fun _ _ _ => ?_) | simp -zeta only [keeps_upd]
    | (extract_lets +onlyGivenNames v; refine Keeps.cut (z := z) v ?_ (fun hv => ?_); subst v; rotate_left; first | clear_value v | subst v)
    | (extract_lets +onlyGivenNames v; first | clear_value v | subst v) | with_reducible refine Keeps.ite ?_ ?_ | split
    | dsimp -zeta only

theorem stepChunk_keeps {z : State} {s : State} {grp : Nat} {step : Nat} {k : Nat} (kz : Keeps z s) : KeepsSome z (stepChunk s grp step k) := by
  unfold stepChunk
  repeat' first
    | with_reducible assumption | with_reducible refine Keeps.some ?_ | with_reducible exact Keeps.none
    | with_reducible apply queueChunk_keeps | refine queueChunk_keeps ?_ _ (by with_reducible assumption)
    | with_reducible apply countStaging_keeps | with_reducible apply spreadResult_keeps | with_reducible apply sendPartial_keeps
    | with_reducible apply setColl_keeps | simp -zeta only [keeps_upd]
    | (extract_lets +onlyGivenNames v; refine Keeps.cut (z := z) v ?_ (fun hv => ?_); subst v; rotate_left; first | clear_value v | subst v)
    | (extract_lets +onlyGivenNames v; subst v) | with_reducible refine Keeps.ite ?_ ?_ | split | dsimp -zeta only

theorem runChunk_keeps {z : State} {grp : Nat} {step : Nat} {k : Nat} {y3 : Nat} {y4 : State} (kz : Keeps z y4) : Keeps z (runChunk grp step k y3 y4) := by
  induction y3 generalizing y4 with
  | zero =>
    unfold runChunk
    repeat' first
      | with_reducible assumption | with_reducible apply stepChunk_keeps | refine stepChunk_keeps ?_ _ (by with_reducible assumption)
      | with_reducible apply trimColl_keeps | split
  | succ n ih =>
    unfold runChunk
    repeat' first
      | with_reducible assumption | with_reducible apply ih | with_reducible apply stepChunk_keeps | refine stepChunk_keeps ?_ _ (by with_reducible assumption)
      | with_reducible apply trimColl_keeps | split

theorem pumpColl_keeps {z : State} {s : State} {grp : Nat} {step : Nat} (kz : Keeps z s) : Keeps z (pumpColl s grp step) := by
  unfold pumpColl
  repeat' first
    | with_reducible assumption | with_reducible apply runChunk_keeps | with_reducible refine Keeps.foldl _ _ ?_ (fun _ _ _ => ?_)
    | split

theorem retryReplay_keeps {z : State} {s : State} {g : Nat × Group} (kz : Keeps z s) : Keeps z (retryReplay s g) := by
  unfold retryReplay
  repeat' first
    | with_reducible assumption | with_reducible apply pumpColl_keeps | with_reducible apply takeCells_keeps
    | with_reducible apply setColl_keeps | with_reducible apply grantScope_keeps
    | (with_reducible refine Keeps.foldlFst _ _ ?_ ?_; rotate_left; rintro ⟨_, _⟩ _ _)
    | with_reducible refine Keeps.foldl _ _ ?_ (fun _ _ _ => ?_) | simp -zeta only [keeps_upd]
    | (extract_lets +onlyGivenNames v; refine Keeps.cut (z := z) v ?_ (fun hv => ?_); subst v; rotate_left; first | clear_value v | subst v)
    | (extract_lets +onlyGivenNames v; first | clear_value v | subst v) | with_reducible refine Keeps.ite ?_ ?_ | split
    | dsimp -zeta only

theorem pumpAll_keeps {z : State} {s0 : State} (kz : Keeps z s0) : Keeps z (pumpAll s0) := by
  unfold pumpAll
  repeat' first
    | with_reducible assumption | with_reducible apply retryReplay_keeps | with_reducible apply runChunk_keeps
    | with_reducible refine Keeps.foldl _ _ ?_ (fun _ _ _ => ?_)

theorem chunkReduced_keeps {z : State} {s : State} {grp : Nat} {x : Group} {c : Coll} {k : Nat} {stage : Nat} {as : List Acc} {ovf : Nat} {poison : Bool} (kz : Keeps z s) : Keeps z (chunkReduced s grp x c k stage as ovf poison) := by
  unfold chunkReduced
  repeat' first
    | with_reducible assumption | with_reducible apply countStaging_keeps | with_reducible apply runChunk_keeps
    | with_reducible apply setColl_keeps | simp -zeta only [keeps_upd]
    | (extract_lets +onlyGivenNames v; refine Keeps.cut (z := z) v ?_ (fun hv => ?_); subst v; rotate_left; first | clear_value v | subst v)
    | (extract_lets +onlyGivenNames v; first | clear_value v | subst v) | with_reducible refine Keeps.ite ?_ ?_ | split
    | dsimp -zeta only

theorem chunkRounded_keeps {z : State} {s : State} {grp : Nat} {x : Group} {c : Coll} {k : Nat} {o : Rounded} {stale : Bool} {ovf : Nat} {poison : Bool} (kz : Keeps z s) : Keeps z (chunkRounded s grp x c k o stale ovf poison) := by
  unfold chunkRounded
  repeat' first
    | with_reducible assumption | with_reducible apply spreadResult_keeps | with_reducible apply setColl_keeps
    | with_reducible apply oasisWrite_keeps | simp -zeta only [keeps_upd]
    | (extract_lets +onlyGivenNames v; first | clear_value v | subst v) | with_reducible refine Keeps.ite ?_ ?_

theorem commitColl_keeps {z : State} {s : State} {grp : Nat} {step : Nat} {k : Nat} {stage : Nat} {ctx : TaskCtx} (kz : Keeps z s) : Keeps z (commitColl s grp step k stage ctx) := by
  unfold commitColl
  repeat' first
    | with_reducible assumption | with_reducible apply chunkRounded_keeps | with_reducible apply chunkReduced_keeps
    | with_reducible apply doStores_keeps | with_reducible apply setColl_keeps
    | (extract_lets +onlyGivenNames v; clear_value v) | with_reducible refine Keeps.ite ?_ ?_ | split

theorem commitSlot_keeps {z : State} {s : State} {g : Nat} {b : Bool} {c : TaskCtx} (kz : Keeps z s) : Keeps z (commitSlot s g b c) := by
  unfold commitSlot
  repeat' first
    | with_reducible assumption | with_reducible apply commitColl_keeps | with_reducible apply commitKernel_keeps
    | with_reducible apply doStores_keeps | with_reducible apply setEng_keeps | with_reducible apply settleEng_keeps
    | with_reducible apply bump64_keeps
    | (extract_lets +onlyGivenNames v; refine Keeps.cut (z := z) v ?_ (fun hv => ?_); subst v; rotate_left; first | clear_value v | subst v)
    | (extract_lets +onlyGivenNames v; first | clear_value v | subst v) | split | dsimp -zeta only

theorem execTaskCommit_keeps {z : State} {g : Fin 4096} {s : State} (kz : Keeps z s) : KeepsNext z (execTaskCommit g s) := by
  unfold execTaskCommit
  repeat' first
    | with_reducible assumption | with_reducible refine Keeps.next ?_ | with_reducible apply showGroup_keeps
    | with_reducible apply pumpAll_keeps | with_reducible apply commitSlot_keeps | with_reducible apply settleDrains_keeps
    | (extract_lets +onlyGivenNames v; refine Keeps.cut (z := z) v ?_ (fun hv => ?_); subst v; rotate_left; first | clear_value v | subst v)
    | (extract_lets +onlyGivenNames v; subst v) | with_reducible refine Keeps.ite ?_ ?_ | split | dsimp -zeta only

theorem finishColl_keeps {z : State} {s : State} {grp : Nat} {step : Nat} (kz : Keeps z s) : Keeps z (finishColl s grp step) := by
  unfold finishColl
  repeat' first
    | with_reducible assumption | with_reducible apply commitSlot_keeps
    | (with_reducible refine Keeps.foldlFst _ _ ?_ ?_; rotate_left; rintro ⟨_, _⟩ _ _)
    | with_reducible refine Keeps.foldl _ _ ?_ (fun _ _ _ => ?_) | with_reducible refine Keeps.ite ?_ ?_ | split | dsimp -zeta only

theorem purgeColl_keeps {z : State} {s : State} {grp : Nat} {step : Nat} (kz : Keeps z s) : Keeps z (purgeColl s grp step) := by
  unfold purgeColl
  repeat' first
    | with_reducible assumption | with_reducible apply setTq_keeps | with_reducible apply settleEng_keeps
    | with_reducible apply setEng_keeps | with_reducible apply bump64_keeps
    | with_reducible refine Keeps.foldl _ _ ?_ (fun _ _ _ => ?_)

theorem closeColl_keeps {z : State} {s0 : State} {grp : Nat} {c0 : Coll} {status : Nat} (kz : Keeps z s0) : Keeps z (closeColl s0 grp c0 status) := by
  unfold closeColl
  repeat' first
    | with_reducible assumption | with_reducible apply finishColl_keeps | with_reducible apply purgeColl_keeps
    | with_reducible apply giveCells_keeps | with_reducible apply settleDrains_keeps | with_reducible apply setGroup_keeps
    | simp -zeta only [keeps_upd]
    | (extract_lets +onlyGivenNames v; refine Keeps.cut (z := z) v ?_ (fun hv => ?_); subst v; rotate_left; first | clear_value v | subst v)
    | (extract_lets +onlyGivenNames v; first | clear_value v | subst v) | with_reducible refine Keeps.ite ?_ ?_ | split
    | dsimp -zeta only

theorem endColl_keeps {z : State} {s : State} {grp : Nat} {c : Coll} {status : Nat} {digest : Nat} {esc : Nat} {sat : Nat} (kz : Keeps z s) : Keeps z (endColl s grp c status digest esc sat) := by
  unfold endColl
  repeat' first
    | with_reducible assumption | with_reducible apply closeColl_keeps | with_reducible apply claim_keeps
    | with_reducible apply setResult_keeps

end Sys2Proof.Machine
end

