-- ==== Sys2Proof/Laws/KeepsMicrocode.lean ====
section
/-! SUPPORT. Every operation of Sys2Proof.Machine.Microcode keeps what Keeps says. -/
namespace Sys2Proof.Machine

theorem issued_keeps {z s : State} {g : Nat} {b : Bool} {c : TaskCtx} {u : UStep} (h : Keeps z s) : Keeps z (issued s g b c u) := by
  cases u with
  | go c => exact setEng_keeps h
  | fault code => exact faultTask_keeps h
  | stall => exact h

theorem issue_keeps {z : State} {s : State} {g : Nat} {w : Nat} {f : TaskInfo → TaskCtx → UStep} (kz : Keeps z s) : Keeps z (issue s g w f) := by
  unfold issue
  repeat' first
    | with_reducible assumption | with_reducible apply issued_keeps | with_reducible apply discardTask_keeps
    | (extract_lets +onlyGivenNames v; refine Keeps.cut (z := z) v ?_ (fun hv => ?_); subst v; rotate_left; first | clear_value v | subst v)
    | (extract_lets +onlyGivenNames v; first | clear_value v | subst v) | with_reducible refine Keeps.ite ?_ ?_ | split
    | dsimp -zeta only

theorem inputBad_keeps {z : State} {s : State} {g : Nat} {b : Bool} {c : TaskCtx} {counts : Bool} (kz : Keeps z s) : Keeps z (inputBad s g b c counts) := by
  unfold inputBad
  repeat' first
    | with_reducible assumption | with_reducible apply digestFail_keeps | with_reducible apply askResend_keeps
    | with_reducible apply dropSlot_keeps | with_reducible apply setColl_keeps | with_reducible apply setEng_keeps
    | simp -zeta only [keeps_upd]
    | (extract_lets +onlyGivenNames v; refine Keeps.cut (z := z) v ?_ (fun hv => ?_); subst v; rotate_left; clear_value v)
    | (extract_lets +onlyGivenNames v; clear_value v) | with_reducible refine Keeps.ite ?_ ?_ | split

theorem accIssue_keeps {z : State} {s : State} {g : Nat} {m : Nat} {row : Nat} {imm : Nat} {ev : Sys2Proof.AccEvent} (kz : Keeps z s) : Keeps z (accIssue s g m row imm ev) := by
  unfold accIssue
  repeat' first
    | with_reducible assumption | with_reducible apply issue_keeps | with_reducible apply inputBad_keeps
    | with_reducible apply residueStop_keeps
    | (extract_lets +onlyGivenNames v; first | clear_value v | subst v) | with_reducible refine Keeps.ite ?_ ?_ | split

theorem checkedIssue_keeps {z : State} {s : State} {g : Nat} {w : Nat} {upset : Bool} {f : TaskInfo → TaskCtx → UStep} (kz : Keeps z s) : Keeps z (checkedIssue s g w upset f) := by
  unfold checkedIssue
  repeat' first
    | with_reducible assumption | with_reducible apply issue_keeps | with_reducible apply residueStop_keeps
    | (extract_lets +onlyGivenNames v; refine Keeps.cut (z := z) v ?_ (fun hv => ?_); subst v; rotate_left; first | clear_value v | subst v)
    | (extract_lets +onlyGivenNames v; first | clear_value v | subst v) | with_reducible refine Keeps.ite ?_ ?_ | split
    | dsimp -zeta only

theorem execUcodeNop_keeps {z : State} {g : Fin 4096} {s : State} (kz : Keeps z s) : KeepsNext z (execUcodeNop g s) := by
  unfold execUcodeNop
  repeat' first
    | with_reducible assumption | with_reducible refine Keeps.next ?_ | with_reducible apply issue_keeps

theorem execEndTask_keeps {z : State} {g : Fin 4096} {imm : Sys2Proof.Word} {s : State} (kz : Keeps z s) : KeepsNext z (execEndTask g imm s) := by
  unfold execEndTask
  repeat' first
    | with_reducible assumption | with_reducible refine Keeps.next ?_ | with_reducible apply issue_keeps

theorem execBr_keeps {z : State} {g : Fin 4096} {a : Fin 16} {m : Fin 64} {imm : Sys2Proof.Word} {s : State} (kz : Keeps z s) : KeepsNext z (execBr g a m imm s) := by
  unfold execBr
  repeat' first
    | with_reducible assumption | with_reducible refine Keeps.next ?_ | with_reducible apply issue_keeps

theorem execLoop_keeps {z : State} {g : Fin 4096} {d : Fin 16} {imm : Sys2Proof.Word} {s : State} (kz : Keeps z s) : KeepsNext z (execLoop g d imm s) := by
  unfold execLoop
  repeat' first
    | with_reducible assumption | with_reducible refine Keeps.next ?_ | with_reducible apply issue_keeps

theorem execCall_keeps {z : State} {g : Fin 4096} {imm : Sys2Proof.Word} {s : State} (kz : Keeps z s) : KeepsNext z (execCall g imm s) := by
  unfold execCall
  repeat' first
    | with_reducible assumption | with_reducible refine Keeps.next ?_ | with_reducible apply issue_keeps

theorem execRet_keeps {z : State} {g : Fin 4096} {s : State} (kz : Keeps z s) : KeepsNext z (execRet g s) := by
  unfold execRet
  repeat' first
    | with_reducible assumption | with_reducible refine Keeps.next ?_ | with_reducible apply issue_keeps

theorem execFault_keeps {z : State} {g : Fin 4096} {imm : Sys2Proof.Word} {s : State} (kz : Keeps z s) : KeepsNext z (execFault g imm s) := by
  unfold execFault
  repeat' first
    | with_reducible assumption | with_reducible refine Keeps.next ?_ | with_reducible apply issue_keeps

theorem execSync_keeps {z : State} {g : Fin 4096} {s : State} (kz : Keeps z s) : KeepsNext z (execSync g s) := by
  unfold execSync
  repeat' first
    | with_reducible assumption | with_reducible refine Keeps.next ?_ | with_reducible apply issue_keeps

theorem execSli_keeps {z : State} {g : Fin 4096} {d : Fin 16} {imm : Sys2Proof.Word} {s : State} (kz : Keeps z s) : KeepsNext z (execSli g d imm s) := by
  unfold execSli
  repeat' first
    | with_reducible assumption | with_reducible refine Keeps.next ?_ | with_reducible apply issue_keeps

theorem execSlui_keeps {z : State} {g : Fin 4096} {d : Fin 16} {imm : Sys2Proof.Word} {s : State} (kz : Keeps z s) : KeepsNext z (execSlui g d imm s) := by
  unfold execSlui
  repeat' first
    | with_reducible assumption | with_reducible refine Keeps.next ?_ | with_reducible apply issue_keeps

theorem execSadd_keeps {z : State} {g : Fin 4096} {d : Fin 16} {a : Fin 16} {b : Fin 16} {imm : Sys2Proof.Word} {s : State} (kz : Keeps z s) : KeepsNext z (execSadd g d a b imm s) := by
  unfold execSadd
  repeat' first
    | with_reducible assumption | with_reducible refine Keeps.next ?_ | with_reducible apply issue_keeps

theorem execSsub_keeps {z : State} {g : Fin 4096} {d : Fin 16} {a : Fin 16} {b : Fin 16} {s : State} (kz : Keeps z s) : KeepsNext z (execSsub g d a b s) := by
  unfold execSsub
  repeat' first
    | with_reducible assumption | with_reducible refine Keeps.next ?_ | with_reducible apply issue_keeps

theorem execSmul_keeps {z : State} {g : Fin 4096} {d : Fin 16} {a : Fin 16} {b : Fin 16} {s : State} (kz : Keeps z s) : KeepsNext z (execSmul g d a b s) := by
  unfold execSmul
  repeat' first
    | with_reducible assumption | with_reducible refine Keeps.next ?_ | with_reducible apply issue_keeps

theorem execSlog_keeps {z : State} {g : Fin 4096} {d : Fin 16} {a : Fin 16} {b : Fin 16} {m : Fin 64} {imm : Sys2Proof.Word} {s : State} (kz : Keeps z s) : KeepsNext z (execSlog g d a b m imm s) := by
  unfold execSlog
  repeat' first
    | with_reducible assumption | with_reducible refine Keeps.next ?_ | with_reducible apply issue_keeps

theorem execSprm_keeps {z : State} {g : Fin 4096} {d : Fin 16} {imm : Sys2Proof.Word} {s : State} (kz : Keeps z s) : KeepsNext z (execSprm g d imm s) := by
  unfold execSprm
  repeat' first
    | with_reducible assumption | with_reducible refine Keeps.next ?_ | with_reducible apply issue_keeps

theorem execScmp_keeps {z : State} {g : Fin 4096} {d : Fin 16} {a : Fin 16} {b : Fin 16} {m : Fin 64} {s : State} (kz : Keeps z s) : KeepsNext z (execScmp g d a b m s) := by
  unfold execScmp
  repeat' first
    | with_reducible assumption | with_reducible refine Keeps.next ?_ | with_reducible apply issue_keeps

theorem execAcc_keeps {z : State} {g : Fin 4096} {m : Fin 64} {row : Fin 32} {imm : Sys2Proof.Word} {ev : Sys2Proof.AccEvent} {s : State} (kz : Keeps z s) : KeepsNext z (execAcc g m row imm ev s) := by
  unfold execAcc
  repeat' first
    | with_reducible assumption | with_reducible refine Keeps.next ?_ | with_reducible apply accIssue_keeps
    | with_reducible apply showGroup_keeps

theorem execAccv_keeps {z : State} {g : Fin 4096} {a : Fin 16} {m : Fin 64} {row : Fin 32} {imm : Sys2Proof.Word} {upset : Bool} {s : State} (kz : Keeps z s) : KeepsNext z (execAccv g a m row imm upset s) := by
  unfold execAccv
  repeat' first
    | with_reducible assumption | with_reducible refine Keeps.next ?_ | with_reducible apply checkedIssue_keeps

theorem execAclr_keeps {z : State} {g : Fin 4096} {row : Fin 32} {imm : Sys2Proof.Word} {s : State} (kz : Keeps z s) : KeepsNext z (execAclr g row imm s) := by
  unfold execAclr
  repeat' first
    | with_reducible assumption | with_reducible refine Keeps.next ?_ | with_reducible apply issue_keeps

theorem execOutr_keeps {z : State} {g : Fin 4096} {m : Fin 64} {row : Fin 32} {imm : Sys2Proof.Word} {s : State} (kz : Keeps z s) : KeepsNext z (execOutr g m row imm s) := by
  unfold execOutr
  repeat' first
    | with_reducible assumption | with_reducible refine Keeps.next ?_ | with_reducible apply issue_keeps

theorem execNxt_keeps {z : State} {g : Fin 4096} {d : Fin 16} {s : State} (kz : Keeps z s) : KeepsNext z (execNxt g d s) := by
  unfold execNxt
  repeat' first
    | with_reducible assumption | with_reducible refine Keeps.next ?_ | with_reducible apply issue_keeps

theorem execInld_keeps {z : State} {g : Fin 4096} {d : Fin 16} {m : Fin 64} {s : State} (kz : Keeps z s) : KeepsNext z (execInld g d m s) := by
  unfold execInld
  repeat' first
    | with_reducible assumption | with_reducible refine Keeps.next ?_ | with_reducible apply issue_keeps

theorem execOutv_keeps {z : State} {g : Fin 4096} {a : Fin 16} {m : Fin 64} {imm : Sys2Proof.Word} {s : State} (kz : Keeps z s) : KeepsNext z (execOutv g a m imm s) := by
  unfold execOutv
  repeat' first
    | with_reducible assumption | with_reducible refine Keeps.next ?_ | with_reducible apply issue_keeps

theorem execOsel_keeps {z : State} {g : Fin 4096} {a : Fin 16} {s : State} (kz : Keeps z s) : KeepsNext z (execOsel g a s) := by
  unfold execOsel
  repeat' first
    | with_reducible assumption | with_reducible refine Keeps.next ?_ | with_reducible apply issue_keeps

theorem execVadd_keeps {z : State} {g : Fin 4096} {d : Fin 16} {a : Fin 16} {b : Fin 16} {m : Fin 64} {s : State} (kz : Keeps z s) : KeepsNext z (execVadd g d a b m s) := by
  unfold execVadd
  repeat' first
    | with_reducible assumption | with_reducible refine Keeps.next ?_ | with_reducible apply issue_keeps

theorem execVsub_keeps {z : State} {g : Fin 4096} {d : Fin 16} {a : Fin 16} {b : Fin 16} {m : Fin 64} {s : State} (kz : Keeps z s) : KeepsNext z (execVsub g d a b m s) := by
  unfold execVsub
  repeat' first
    | with_reducible assumption | with_reducible refine Keeps.next ?_ | with_reducible apply issue_keeps

theorem execVmul_keeps {z : State} {g : Fin 4096} {d : Fin 16} {a : Fin 16} {b : Fin 16} {m : Fin 64} {s : State} (kz : Keeps z s) : KeepsNext z (execVmul g d a b m s) := by
  unfold execVmul
  repeat' first
    | with_reducible assumption | with_reducible refine Keeps.next ?_ | with_reducible apply issue_keeps

theorem execVfma_keeps {z : State} {g : Fin 4096} {d : Fin 16} {a : Fin 16} {b : Fin 16} {m : Fin 64} {s : State} (kz : Keeps z s) : KeepsNext z (execVfma g d a b m s) := by
  unfold execVfma
  repeat' first
    | with_reducible assumption | with_reducible refine Keeps.next ?_ | with_reducible apply issue_keeps

theorem execVdiv_keeps {z : State} {g : Fin 4096} {d : Fin 16} {a : Fin 16} {b : Fin 16} {s : State} (kz : Keeps z s) : KeepsNext z (execVdiv g d a b s) := by
  unfold execVdiv
  repeat' first
    | with_reducible assumption | with_reducible refine Keeps.next ?_ | with_reducible apply issue_keeps

theorem execVsqrt_keeps {z : State} {g : Fin 4096} {d : Fin 16} {a : Fin 16} {s : State} (kz : Keeps z s) : KeepsNext z (execVsqrt g d a s) := by
  unfold execVsqrt
  repeat' first
    | with_reducible assumption | with_reducible refine Keeps.next ?_ | with_reducible apply issue_keeps

theorem execVmxn_keeps {z : State} {g : Fin 4096} {d : Fin 16} {a : Fin 16} {b : Fin 16} {m : Fin 64} {s : State} (kz : Keeps z s) : KeepsNext z (execVmxn g d a b m s) := by
  unfold execVmxn
  repeat' first
    | with_reducible assumption | with_reducible refine Keeps.next ?_ | with_reducible apply issue_keeps

theorem execVsel_keeps {z : State} {g : Fin 4096} {d : Fin 16} {a : Fin 16} {b : Fin 16} {imm : Sys2Proof.Word} {s : State} (kz : Keeps z s) : KeepsNext z (execVsel g d a b imm s) := by
  unfold execVsel
  repeat' first
    | with_reducible assumption | with_reducible refine Keeps.next ?_ | with_reducible apply issue_keeps

theorem execVcmp_keeps {z : State} {g : Fin 4096} {d : Fin 16} {a : Fin 16} {b : Fin 16} {m : Fin 64} {s : State} (kz : Keeps z s) : KeepsNext z (execVcmp g d a b m s) := by
  unfold execVcmp
  repeat' first
    | with_reducible assumption | with_reducible refine Keeps.next ?_ | with_reducible apply issue_keeps

theorem execVbcs_keeps {z : State} {g : Fin 4096} {d : Fin 16} {a : Fin 16} {m : Fin 64} {s : State} (kz : Keeps z s) : KeepsNext z (execVbcs g d a m s) := by
  unfold execVbcs
  repeat' first
    | with_reducible assumption | with_reducible refine Keeps.next ?_ | with_reducible apply issue_keeps

theorem execVred_keeps {z : State} {g : Fin 4096} {d : Fin 16} {a : Fin 16} {m : Fin 64} {s : State} (kz : Keeps z s) : KeepsNext z (execVred g d a m s) := by
  unfold execVred
  repeat' first
    | with_reducible assumption | with_reducible refine Keeps.next ?_ | with_reducible apply issue_keeps

theorem execVcvt_keeps {z : State} {g : Fin 4096} {d : Fin 16} {a : Fin 16} {m : Fin 64} {s : State} (kz : Keeps z s) : KeepsNext z (execVcvt g d a m s) := by
  unfold execVcvt
  repeat' first
    | with_reducible assumption | with_reducible refine Keeps.next ?_ | with_reducible apply issue_keeps

theorem execVidx_keeps {z : State} {g : Fin 4096} {d : Fin 16} {a : Fin 16} {s : State} (kz : Keeps z s) : KeepsNext z (execVidx g d a s) := by
  unfold execVidx
  repeat' first
    | with_reducible assumption | with_reducible refine Keeps.next ?_ | with_reducible apply issue_keeps

theorem execVlog_keeps {z : State} {g : Fin 4096} {d : Fin 16} {a : Fin 16} {b : Fin 16} {m : Fin 64} {imm : Sys2Proof.Word} {s : State} (kz : Keeps z s) : KeepsNext z (execVlog g d a b m imm s) := by
  unfold execVlog
  repeat' first
    | with_reducible assumption | with_reducible refine Keeps.next ?_ | with_reducible apply issue_keeps

theorem execVrng_keeps {z : State} {g : Fin 4096} {d : Fin 16} {a : Fin 16} {s : State} (kz : Keeps z s) : KeepsNext z (execVrng g d a s) := by
  unfold execVrng
  repeat' first
    | with_reducible assumption | with_reducible refine Keeps.next ?_ | with_reducible apply issue_keeps

theorem execVsrt_keeps {z : State} {g : Fin 4096} {d : Fin 16} {a : Fin 16} {b : Fin 16} {s : State} (kz : Keeps z s) : KeepsNext z (execVsrt g d a b s) := by
  unfold execVsrt
  repeat' first
    | with_reducible assumption | with_reducible refine Keeps.next ?_ | with_reducible apply issue_keeps

theorem execLds_keeps {z : State} {g : Fin 4096} {d : Fin 16} {a : Fin 16} {imm : Sys2Proof.Word} {s : State} (kz : Keeps z s) : KeepsNext z (execLds g d a imm s) := by
  unfold execLds
  repeat' first
    | with_reducible assumption | with_reducible refine Keeps.next ?_ | with_reducible apply issue_keeps

theorem execSts_keeps {z : State} {g : Fin 4096} {a : Fin 16} {b : Fin 16} {imm : Sys2Proof.Word} {s : State} (kz : Keeps z s) : KeepsNext z (execSts g a b imm s) := by
  unfold execSts
  repeat' first
    | with_reducible assumption | with_reducible refine Keeps.next ?_ | with_reducible apply issue_keeps

theorem execAsv_keeps {z : State} {g : Fin 4096} {a : Fin 16} {row : Fin 32} {imm : Sys2Proof.Word} {s : State} (kz : Keeps z s) : KeepsNext z (execAsv g a row imm s) := by
  unfold execAsv
  repeat' first
    | with_reducible assumption | with_reducible refine Keeps.next ?_ | with_reducible apply issue_keeps

theorem execArs_keeps {z : State} {g : Fin 4096} {a : Fin 16} {m : Fin 64} {row : Fin 32} {imm : Sys2Proof.Word} {upset : Bool} {s : State} (kz : Keeps z s) : KeepsNext z (execArs g a m row imm upset s) := by
  unfold execArs
  repeat' first
    | with_reducible assumption | with_reducible refine Keeps.next ?_ | with_reducible apply checkedIssue_keeps

theorem execOld_keeps {z : State} {g : Fin 4096} {d : Fin 16} {a : Fin 16} {b : Fin 16} {s : State} (kz : Keeps z s) : KeepsNext z (execOld g d a b s) := by
  unfold execOld
  repeat' first
    | with_reducible assumption | with_reducible refine Keeps.next ?_ | with_reducible apply issue_keeps

theorem execOst_keeps {z : State} {g : Fin 4096} {d : Fin 16} {a : Fin 16} {b : Fin 16} {s : State} (kz : Keeps z s) : KeepsNext z (execOst g d a b s) := by
  unfold execOst
  repeat' first
    | with_reducible assumption | with_reducible refine Keeps.next ?_ | with_reducible apply issue_keeps

theorem execHst_keeps {z : State} {g : Fin 4096} {a : Fin 16} {b : Fin 16} {s : State} (kz : Keeps z s) : KeepsNext z (execHst g a b s) := by
  unfold execHst
  repeat' first
    | with_reducible assumption | with_reducible refine Keeps.next ?_ | with_reducible apply issue_keeps

theorem execVmov_keeps {z : State} {g : Fin 4096} {d : Fin 16} {a : Fin 16} {m : Fin 64} {s : State} (kz : Keeps z s) : KeepsNext z (execVmov g d a m s) := by
  unfold execVmov
  repeat' first
    | with_reducible assumption | with_reducible refine Keeps.next ?_ | with_reducible apply issue_keeps

theorem execOldComplete_keeps {z : State} {g : Fin 4096} {bad : Bool} {s : State} (kz : Keeps z s) : KeepsNext z (execOldComplete g bad s) := by
  unfold execOldComplete
  repeat' first
    | with_reducible assumption | with_reducible refine Keeps.next ?_ | with_reducible apply faultTask_keeps
    | with_reducible apply poisoned_keeps | with_reducible apply setEng_keeps | simp -zeta only [keeps_upd]
    | (extract_lets +onlyGivenNames v; refine Keeps.cut (z := z) v ?_ (fun hv => ?_); subst v; rotate_left; clear_value v)
    | (extract_lets +onlyGivenNames v; first | clear_value v | subst v) | with_reducible refine Keeps.ite ?_ ?_ | split

end Sys2Proof.Machine
end

