-- ==== Sys2Proof/Laws/KeepsKernels.lean ====
section
/-! SUPPORT. Every operation of Sys2Proof.Machine.Kernels keeps what Keeps says. -/
namespace Sys2Proof.Machine

theorem finishWhole_keeps {z : State} {s : State} {r : KRun} (kz : Keeps z s) : Keeps z (finishWhole s r) := by
  unfold finishWhole
  repeat' first
    | with_reducible assumption | with_reducible apply finishRun_keeps | with_reducible apply setRun_keeps
    | with_reducible apply modSlot_keeps | with_reducible apply bump64_keeps

theorem kernelFault_keeps {z : State} {s : State} {r : KRun} {code : Nat} {sub : Nat} (kz : Keeps z s) : Keeps z (kernelFault s r code sub) := by
  unfold kernelFault
  repeat' first
    | with_reducible assumption | with_reducible apply captureFault_keeps | with_reducible apply failRun_keeps
    | with_reducible apply brcEvent_keeps | with_reducible apply tickFree_keeps | with_reducible apply bump64_keeps
    | (extract_lets +onlyGivenNames v; refine Keeps.cut (z := z) v ?_ (fun hv => ?_); subst v; rotate_left; first | clear_value v | subst v)
    | (extract_lets +onlyGivenNames v; first | clear_value v | subst v) | with_reducible refine Keeps.ite ?_ ?_ | split
    | dsimp -zeta only

theorem dirtyWork_keeps {z : State} {s : State} {r : KRun} (kz : Keeps z s) : Keeps z (dirtyWork s r) := by
  unfold dirtyWork
  repeat' first
    | with_reducible assumption | with_reducible apply oasisWrite_keeps | with_reducible apply tickFree_keeps

theorem elementSeg_keeps {z : State} {p : State × KRun} {seg : Nat} (kz : Keeps z p.1) : Keeps z (elementSeg p seg).1 := by
  obtain ⟨_, _⟩ := p
  unfold elementSeg
  repeat' first
    | with_reducible assumption | with_reducible apply putSegment_keeps

theorem runElements_keeps {z : State} {s : State} {d : Nat} {q : Nat} {opcode : Nat} (kz : Keeps z s) : Keeps z (runElements s d q opcode) := by
  unfold runElements
  repeat' first
    | with_reducible assumption | with_reducible apply elementSeg_keeps | with_reducible apply finishWhole_keeps
    | (with_reducible refine Keeps.foldlFst _ _ ?_ ?_; rotate_left; rintro ⟨_, _⟩ _ _)
    | with_reducible refine Keeps.foldl _ _ ?_ (fun _ _ _ => ?_)
    | (extract_lets +onlyGivenNames v; first | clear_value v | subst v) | split

theorem execSum_keeps {z : State} {d : Fin 8} {q : Fin 2048} {s : State} (kz : Keeps z s) : KeepsNext z (execSum d q s) := by
  unfold execSum
  repeat' first
    | with_reducible assumption | with_reducible refine Keeps.next ?_ | with_reducible apply runElements_keeps

theorem execMax_keeps {z : State} {d : Fin 8} {q : Fin 2048} {s : State} (kz : Keeps z s) : KeepsNext z (execMax d q s) := by
  unfold execMax
  repeat' first
    | with_reducible assumption | with_reducible refine Keeps.next ?_ | with_reducible apply runElements_keeps

theorem execMin_keeps {z : State} {d : Fin 8} {q : Fin 2048} {s : State} (kz : Keeps z s) : KeepsNext z (execMin d q s) := by
  unfold execMin
  repeat' first
    | with_reducible assumption | with_reducible refine Keeps.next ?_ | with_reducible apply runElements_keeps

theorem execMean_keeps {z : State} {d : Fin 8} {q : Fin 2048} {s : State} (kz : Keeps z s) : KeepsNext z (execMean d q s) := by
  unfold execMean
  repeat' first
    | with_reducible assumption | with_reducible refine Keeps.next ?_ | with_reducible apply runElements_keeps

theorem execQuant_keeps {z : State} {d : Fin 8} {q : Fin 2048} {s : State} (kz : Keeps z s) : KeepsNext z (execQuant d q s) := by
  unfold execQuant
  repeat' first
    | with_reducible assumption | with_reducible refine Keeps.next ?_ | with_reducible apply runElements_keeps

theorem runSparse_keeps {z : State} {s : State} {d : Nat} {q : Nat} (kz : Keeps z s) : Keeps z (runSparse s d q) := by
  unfold runSparse
  repeat' first
    | with_reducible assumption | with_reducible apply finishWhole_keeps | with_reducible apply dirtyWork_keeps
    | with_reducible apply kernelFault_keeps | with_reducible apply oasisWrite_keeps
    | (extract_lets +onlyGivenNames v; clear_value v) | with_reducible refine Keeps.ite ?_ ?_ | split

theorem execSparseMerge_keeps {z : State} {d : Fin 8} {q : Fin 2048} {s : State} (kz : Keeps z s) : KeepsNext z (execSparseMerge d q s) := by
  unfold execSparseMerge
  repeat' first
    | with_reducible assumption | with_reducible refine Keeps.next ?_ | with_reducible apply runSparse_keeps

theorem runTopk_keeps {z : State} {s : State} {d : Nat} {q : Nat} (kz : Keeps z s) : Keeps z (runTopk s d q) := by
  unfold runTopk
  repeat' first
    | with_reducible assumption | with_reducible apply dirtyWork_keeps | with_reducible apply finishWhole_keeps
    | with_reducible apply oasisWrite_keeps | with_reducible apply tickFree_keeps
    | with_reducible refine Keeps.foldl _ _ ?_ (fun _ _ _ => ?_)
    | (extract_lets +onlyGivenNames v; first | clear_value v | subst v)
    | with_reducible refine Keeps.fst (by with_reducible assumption) ?_ | with_reducible refine Keeps.ite ?_ ?_ | split

theorem execTopk_keeps {z : State} {d : Fin 8} {q : Fin 2048} {s : State} (kz : Keeps z s) : KeepsNext z (execTopk d q s) := by
  unfold execTopk
  repeat' first
    | with_reducible assumption | with_reducible refine Keeps.next ?_ | with_reducible apply runTopk_keeps

theorem runHist_keeps {z : State} {s : State} {d : Nat} {q : Nat} (kz : Keeps z s) : Keeps z (runHist s d q) := by
  unfold runHist
  repeat' first
    | with_reducible assumption | with_reducible apply finishWhole_keeps | with_reducible apply dirtyWork_keeps
    | with_reducible apply oasisWrite_keeps
    | (extract_lets +onlyGivenNames v; first | clear_value v | subst v)
    | with_reducible refine Keeps.fst (by with_reducible assumption) ?_ | split

theorem execHist_keeps {z : State} {d : Fin 8} {q : Fin 2048} {s : State} (kz : Keeps z s) : KeepsNext z (execHist d q s) := by
  unfold execHist
  repeat' first
    | with_reducible assumption | with_reducible refine Keeps.next ?_ | with_reducible apply runHist_keeps

theorem runNorm_keeps {z : State} {s : State} {d : Nat} {q : Nat} (kz : Keeps z s) : Keeps z (runNorm s d q) := by
  unfold runNorm
  repeat' first
    | with_reducible assumption | with_reducible apply finishWhole_keeps | with_reducible apply dirtyWork_keeps
    | with_reducible apply oasisWrite_keeps
    | with_reducible refine Keeps.foldl _ _ ?_ (fun _ _ _ => ?_) | dsimp -zeta only
    | (extract_lets +onlyGivenNames v; clear_value v)
    | with_reducible refine Keeps.fst (by with_reducible assumption) ?_ | with_reducible refine Keeps.ite ?_ ?_ | split

theorem execNorm2_keeps {z : State} {d : Fin 8} {q : Fin 2048} {s : State} (kz : Keeps z s) : KeepsNext z (execNorm2 d q s) := by
  unfold execNorm2
  repeat' first
    | with_reducible assumption | with_reducible refine Keeps.next ?_ | with_reducible apply runNorm_keeps

theorem rowAnnex_keeps {z : State} {s : State} {i : TaskInfo} {bytes : Nat} {width : Nat} {row : Nat} {o : Rounded} (kz : Keeps z s) : Keeps z (rowAnnex s i bytes width row o) := by
  unfold rowAnnex
  repeat' first
    | with_reducible assumption | with_reducible apply oasisWrite_keeps | with_reducible refine Keeps.foldl _ _ ?_ (fun _ _ _ => ?_)
    | (extract_lets +onlyGivenNames v; refine Keeps.cut (z := z) v ?_ (fun hv => ?_); subst v; rotate_left; first | clear_value v | subst v)
    | (extract_lets +onlyGivenNames v; first | clear_value v | subst v) | with_reducible refine Keeps.ite ?_ ?_ | split
    | dsimp -zeta only

theorem runMoeDispatch_keeps {z : State} {s : State} {d : Nat} {q : Nat} (kz : Keeps z s) : Keeps z (runMoeDispatch s d q) := by
  unfold runMoeDispatch
  repeat' first
    | with_reducible assumption | with_reducible apply dirtyWork_keeps | with_reducible apply rowAnnex_keeps
    | with_reducible apply finishWhole_keeps | with_reducible apply oasisWrite_keeps
    | (with_reducible refine Keeps.foldlFst _ _ ?_ ?_; rotate_left; rintro ⟨_, _⟩ _ _)
    | with_reducible refine Keeps.foldl _ _ ?_ (fun _ _ _ => ?_)
    | (extract_lets +onlyGivenNames v; refine Keeps.cut (z := z) v ?_ (fun hv => ?_); subst v; rotate_left; first | clear_value v | subst v)
    | (extract_lets +onlyGivenNames v; first | clear_value v | subst v)
    | with_reducible refine Keeps.fst (by with_reducible assumption) ?_ | with_reducible refine Keeps.ite ?_ ?_ | split
    | dsimp -zeta only

theorem execMoeDispatch_keeps {z : State} {d : Fin 8} {q : Fin 2048} {s : State} (kz : Keeps z s) : KeepsNext z (execMoeDispatch d q s) := by
  unfold execMoeDispatch
  repeat' first
    | with_reducible assumption | with_reducible refine Keeps.next ?_ | with_reducible apply runMoeDispatch_keeps

theorem runMoeCombine_keeps {z : State} {s : State} {d : Nat} {q : Nat} (kz : Keeps z s) : Keeps z (runMoeCombine s d q) := by
  unfold runMoeCombine
  repeat' first
    | with_reducible assumption | with_reducible apply rowAnnex_keeps | with_reducible apply finishWhole_keeps
    | with_reducible apply oasisWrite_keeps | (with_reducible refine Keeps.foldlFst _ _ ?_ ?_; rotate_left; rintro ⟨_, _⟩ _ _)
    | with_reducible refine Keeps.foldl _ _ ?_ (fun _ _ _ => ?_)
    | (extract_lets +onlyGivenNames v; refine Keeps.cut (z := z) v ?_ (fun hv => ?_); subst v; rotate_left; first | clear_value v | subst v)
    | (extract_lets +onlyGivenNames v; subst v) | with_reducible refine Keeps.fst (by with_reducible assumption) ?_
    | with_reducible refine Keeps.ite ?_ ?_ | split | dsimp -zeta only

theorem execMoeCombine_keeps {z : State} {d : Fin 8} {q : Fin 2048} {s : State} (kz : Keeps z s) : KeepsNext z (execMoeCombine d q s) := by
  unfold execMoeCombine
  repeat' first
    | with_reducible assumption | with_reducible refine Keeps.next ?_ | with_reducible apply runMoeCombine_keeps

theorem optimizeSeg_keeps {z : State} {s : State} {part : Nat} {opcode : Nat} {aux : Nat} {n : Nat} {p : Nat → Nat} {g : List Nat} (kz : Keeps z s) : Keeps z (optimizeSeg s part opcode aux n p g).1 := by
  unfold optimizeSeg
  repeat' first
    | with_reducible assumption | with_reducible apply oasisWrite_keeps | with_reducible refine Keeps.foldl _ _ ?_ (fun _ _ _ => ?_)

theorem optimizerSeg_keeps {z : State} {p : State × KRun} {seg : Nat} (kz : Keeps z p.1) : Keeps z (optimizerSeg p seg).1 := by
  obtain ⟨_, _⟩ := p
  unfold optimizerSeg
  repeat' first
    | with_reducible assumption | with_reducible apply optimizeSeg_keeps | with_reducible apply putSegment_keeps

theorem runOptimizer_keeps {z : State} {s : State} {d : Nat} {q : Nat} {opcode : Nat} (kz : Keeps z s) : Keeps z (runOptimizer s d q opcode) := by
  unfold runOptimizer
  repeat' first
    | with_reducible assumption | with_reducible apply optimizerSeg_keeps | with_reducible apply finishWhole_keeps
    | (with_reducible refine Keeps.foldlFst _ _ ?_ ?_; rotate_left; rintro ⟨_, _⟩ _ _)
    | with_reducible refine Keeps.foldl _ _ ?_ (fun _ _ _ => ?_)
    | (extract_lets +onlyGivenNames v; first | clear_value v | subst v) | split

theorem execSgdMom_keeps {z : State} {d : Fin 8} {q : Fin 2048} {s : State} (kz : Keeps z s) : KeepsNext z (execSgdMom d q s) := by
  unfold execSgdMom
  repeat' first
    | with_reducible assumption | with_reducible refine Keeps.next ?_ | with_reducible apply runOptimizer_keeps

theorem execAdamF32_keeps {z : State} {d : Fin 8} {q : Fin 2048} {s : State} (kz : Keeps z s) : KeepsNext z (execAdamF32 d q s) := by
  unfold execAdamF32
  repeat' first
    | with_reducible assumption | with_reducible refine Keeps.next ?_ | with_reducible apply runOptimizer_keeps

theorem execSignUpd_keeps {z : State} {d : Fin 8} {q : Fin 2048} {s : State} (kz : Keeps z s) : KeepsNext z (execSignUpd d q s) := by
  unfold execSignUpd
  repeat' first
    | with_reducible assumption | with_reducible refine Keeps.next ?_ | with_reducible apply runOptimizer_keeps

theorem runOwnerSegs_keeps {z s t : State} {l : List Nat} {r r' : KRun} {o : Option (Nat × Nat)} (h : Keeps z s)
    (e : runOwnerSegs l s r = some (t, r', o)) : Keeps z t := by
  induction l generalizing s r with
  | nil =>
    cases e
    exact h
  | cons seg l ih =>
    unfold runOwnerSegs at e
    dsimp only at e
    split at e
    · cases e
    · cases e
      exact h
    · exact ih (writeKernel_keeps h) e

theorem execOwnerKernel_keeps {z : State} {d : Fin 8} {q : Fin 2048} {s : State} (h : Keeps z s) : KeepsNext z (execOwnerKernel d q s) := by
  unfold execOwnerKernel
  refine Keeps.next ?_
  split
  · exact h
  · split
    · exact h
    · rename_i e
      exact finishWhole_keeps (runOwnerSegs_keeps h e)
    · rename_i e
      exact kernelFault_keeps (setRun_keeps (runOwnerSegs_keeps h e))

end Sys2Proof.Machine
end

