-- ==== Sys2Proof/Laws/KeepsCollectives.lean ====
section
/-! SUPPORT. Every operation of Sys2Proof.Machine.Collectives keeps what Keeps says. -/
namespace Sys2Proof.Machine

theorem sendLaunch_keeps {z : State} {s : State} {grp : Nat} {x : Group} {c : Coll} (kz : Keeps z s) : Keeps z (sendLaunch s grp x c) := by
  unfold sendLaunch
  repeat' first
    | with_reducible assumption | with_reducible apply tellMembers_keeps | with_reducible apply colSend_keeps
    | with_reducible refine Keeps.foldl _ _ ?_ (fun _ _ _ => ?_)

theorem hearLaunch_keeps {z : State} {s : State} {grp : Nat} {step : Nat} {coord : Nat} {sig : Nat} {order : Nat} (kz : Keeps z s) : Keeps z (hearLaunch s grp step coord sig order) := by
  unfold hearLaunch
  repeat' first
    | with_reducible assumption | with_reducible apply maybeReady_keeps | with_reducible apply pumpColl_keeps
    | with_reducible apply setColl_keeps | with_reducible apply abortRequest_keeps | with_reducible apply colEvent_keeps
    | simp -zeta only [keeps_upd]
    | (extract_lets +onlyGivenNames v; refine Keeps.cut (z := z) v ?_ (fun hv => ?_); subst v; rotate_left; clear_value v)
    | (extract_lets +onlyGivenNames v; first | clear_value v | subst v) | with_reducible refine Keeps.ite ?_ ?_ | split

theorem endSwapCmd_keeps {z : State} {s : State} {r : Option SwapReq} {status : Nat} (kz : Keeps z s) : Keeps z (endSwapCmd s r status) := by
  unfold endSwapCmd
  repeat' first
    | with_reducible assumption | with_reducible apply claim_keeps | split

theorem swapNow_keeps {z : State} {s : State} {g : Nat} {x : Group} {r : SwapReq} (kz : Keeps z s) : Keeps z (swapNow s g x r) := by
  unfold swapNow
  repeat' first
    | with_reducible assumption | with_reducible apply endSwapCmd_keeps | with_reducible apply showGroup_keeps
    | with_reducible apply colSend_keeps | with_reducible apply setGroup_keeps | with_reducible apply colEvent_keeps
    | with_reducible apply bump64_keeps | simp -zeta only [keeps_upd]
    | (extract_lets +onlyGivenNames v; refine Keeps.cut (z := z) v ?_ (fun hv => ?_); subst v; rotate_left; first | clear_value v | subst v)
    | (extract_lets +onlyGivenNames v; subst v) | with_reducible refine Keeps.ite ?_ ?_ | split | dsimp -zeta only

theorem swapDue_keeps {z : State} {s : State} {g : Nat} (kz : Keeps z s) : Keeps z (swapDue s g) := by
  unfold swapDue
  repeat' first
    | with_reducible assumption | with_reducible apply swapNow_keeps | with_reducible refine Keeps.ite ?_ ?_ | split

theorem dispatchColl_keeps {z : State} {s0 : State} {d : Nat} {q : Nat} {y : Slot} {x0 : Group} {params : Nat} (kz : Keeps z s0) : Keeps z (dispatchColl s0 d q y x0 params) := by
  unfold dispatchColl
  repeat' first
    | with_reducible assumption | with_reducible apply swapDue_keeps | with_reducible apply sendLaunch_keeps
    | with_reducible apply hearLaunch_keeps | with_reducible apply takeCells_keeps | with_reducible apply showGroup_keeps
    | with_reducible apply maybeReady_keeps | with_reducible apply pumpColl_keeps | with_reducible apply setGroup_keeps
    | with_reducible apply grantScope_keeps | with_reducible apply claim_keeps | with_reducible apply modSlot_keeps
    | with_reducible apply colEvent_keeps | (with_reducible refine Keeps.foldlFst _ _ ?_ ?_; rotate_left; rintro ⟨_, _⟩ _ _)
    | with_reducible refine Keeps.foldl _ _ ?_ (fun _ _ _ => ?_) | simp -zeta only [keeps_upd]
    | (extract_lets +onlyGivenNames v; refine Keeps.cut (z := z) v ?_ (fun hv => ?_); subst v; rotate_left; first | clear_value v | subst v)
    | (extract_lets +onlyGivenNames v; subst v) | with_reducible refine Keeps.ite ?_ ?_ | split | dsimp -zeta only

theorem roundChunk_keeps {z : State} {s : State} {grp : Nat} {x : Group} {c : Coll} {t : Task} (kz : Keeps z s) : Keeps z (roundChunk s grp x c t) := by
  unfold roundChunk
  repeat' first
    | with_reducible assumption | with_reducible apply optimizeSeg_keeps | with_reducible apply chunkRounded_keeps
    | with_reducible apply doStores_keeps | with_reducible apply setColl_keeps | with_reducible apply abortRequest_keeps
    | with_reducible apply brcEvent_keeps | with_reducible apply bump64_keeps | with_reducible apply tickFree_keeps
    | (extract_lets +onlyGivenNames v; refine Keeps.cut (z := z) v ?_ (fun hv => ?_); subst v; rotate_left; clear_value v)
    | (extract_lets +onlyGivenNames v; refine Keeps.cut (z := z) v.1 ?_ (fun hv => ?_); subst v; rotate_left; clear_value v)
    | (extract_lets +onlyGivenNames v; first | clear_value v | subst v) | with_reducible refine Keeps.ite ?_ ?_ | split

theorem runCollTask_keeps {z : State} {s : State} {t : Task} (kz : Keeps z s) : Keeps z (runCollTask s t) := by
  unfold runCollTask
  repeat' first
    | with_reducible assumption | with_reducible apply roundChunk_keeps | with_reducible apply chunkReduced_keeps
    | with_reducible apply setTq_keeps | with_reducible apply bump64_keeps
    | (extract_lets +onlyGivenNames v; refine Keeps.cut (z := z) v ?_ (fun hv => ?_); subst v; rotate_left; clear_value v)
    | (extract_lets +onlyGivenNames v; clear_value v) | with_reducible refine Keeps.ite ?_ ?_ | split

theorem runColl_keeps {z : State} {grp : Nat} {step : Nat} {y2 : Nat} {y3 : State} (kz : Keeps z y3) : Keeps z (runColl grp step y2 y3) := by
  induction y2 generalizing y3 with
  | zero =>
    unfold runColl
    repeat' first
      | with_reducible assumption
  | succ n ih =>
    unfold runColl
    repeat' first
      | with_reducible assumption | with_reducible apply ih | with_reducible apply runCollTask_keeps | with_reducible apply pumpColl_keeps
      | with_reducible apply maybeReady_keeps | with_reducible refine Keeps.foldl _ _ ?_ (fun _ _ _ => ?_)
      | (extract_lets +onlyGivenNames v; refine Keeps.cut (z := z) v ?_ (fun hv => ?_); subst v; rotate_left; clear_value v)
      | (extract_lets +onlyGivenNames v; clear_value v) | with_reducible refine Keeps.ite ?_ ?_

theorem collRow_keeps {z : State} {d : Nat} {q : Nat} {opcode : Nat} {s : State} (kz : Keeps z s) : Keeps z (collRow d q opcode s) := by
  unfold collRow
  repeat' first
    | with_reducible assumption | with_reducible apply runColl_keeps | with_reducible apply showGroup_keeps
    | with_reducible apply pumpAll_keeps | with_reducible apply settleDrains_keeps | split

theorem execAllreduce_keeps {z : State} {d : Fin 8} {q : Fin 2048} {s : State} (kz : Keeps z s) : KeepsNext z (execAllreduce d q s) := by
  unfold execAllreduce
  repeat' first
    | with_reducible assumption | with_reducible refine Keeps.next ?_ | with_reducible apply collRow_keeps

theorem execReduce_keeps {z : State} {d : Fin 8} {q : Fin 2048} {s : State} (kz : Keeps z s) : KeepsNext z (execReduce d q s) := by
  unfold execReduce
  repeat' first
    | with_reducible assumption | with_reducible refine Keeps.next ?_ | with_reducible apply collRow_keeps

theorem execBroadcast_keeps {z : State} {d : Fin 8} {q : Fin 2048} {s : State} (kz : Keeps z s) : KeepsNext z (execBroadcast d q s) := by
  unfold execBroadcast
  repeat' first
    | with_reducible assumption | with_reducible refine Keeps.next ?_ | with_reducible apply collRow_keeps

theorem execShardUpdate_keeps {z : State} {d : Fin 8} {q : Fin 2048} {s : State} (kz : Keeps z s) : KeepsNext z (execShardUpdate d q s) := by
  unfold execShardUpdate
  repeat' first
    | with_reducible assumption | with_reducible refine Keeps.next ?_ | with_reducible apply collRow_keeps

theorem execBarrier_keeps {z : State} {d : Fin 8} {q : Fin 2048} {s : State} (kz : Keeps z s) : KeepsNext z (execBarrier d q s) := by
  unfold execBarrier
  repeat' first
    | with_reducible assumption | with_reducible refine Keeps.next ?_ | with_reducible apply collRow_keeps

theorem endAll_keeps {z : State} {s : State} {grp : Nat} {status : Nat} (kz : Keeps z s) : Keeps z (endAll s grp status) := by
  unfold endAll
  repeat' first
    | with_reducible assumption | with_reducible apply endColl_keeps | with_reducible apply claim_keeps
    | with_reducible refine Keeps.foldl _ _ ?_ (fun _ _ _ => ?_)
    | (extract_lets +onlyGivenNames v; refine Keeps.cut (z := z) v ?_ (fun hv => ?_); subst v; rotate_left; clear_value v)
    | (extract_lets +onlyGivenNames v; first | clear_value v | subst v) | split

theorem execGroupSet_keeps {z : State} {d : Fin 8} {q : Fin 2048} {s : State} (kz : Keeps z s) : KeepsNext z (execGroupSet d q s) := by
  unfold execGroupSet
  repeat' first
    | with_reducible assumption | with_reducible refine Keeps.next ?_ | with_reducible apply endSwapCmd_keeps
    | with_reducible apply endAll_keeps | with_reducible apply showGroup_keeps | with_reducible apply pumpAll_keeps
    | with_reducible apply setGroup_keeps | with_reducible apply claim_keeps | with_reducible apply colEvent_keeps
    | (extract_lets +onlyGivenNames v; refine Keeps.cut (z := z) v ?_ (fun hv => ?_); subst v; rotate_left; clear_value v)
    | (extract_lets +onlyGivenNames v; subst v) | with_reducible refine Keeps.ite ?_ ?_ | split

theorem execGroupFree_keeps {z : State} {d : Fin 8} {q : Fin 2048} {s : State} (kz : Keeps z s) : KeepsNext z (execGroupFree d q s) := by
  unfold execGroupFree
  repeat' first
    | with_reducible assumption | with_reducible refine Keeps.next ?_ | with_reducible apply endSwapCmd_keeps
    | with_reducible apply endAll_keeps | with_reducible apply showGroup_keeps | with_reducible apply pumpAll_keeps
    | with_reducible apply claim_keeps | simp -zeta only [keeps_upd]
    | (extract_lets +onlyGivenNames v; first | clear_value v | subst v) | split

theorem execMemberSwap_keeps {z : State} {d : Fin 8} {q : Fin 2048} {s : State} (kz : Keeps z s) : KeepsNext z (execMemberSwap d q s) := by
  unfold execMemberSwap
  repeat' first
    | with_reducible assumption | with_reducible refine Keeps.next ?_ | with_reducible apply setGroup_keeps
    | with_reducible apply claim_keeps | simp -zeta only [keeps_upd]
    | (extract_lets +onlyGivenNames v; first | clear_value v | subst v) | with_reducible refine Keeps.ite ?_ ?_ | split

theorem execSwap_keeps {z : State} {grp : BitVec 16} {s : State} (kz : Keeps z s) : KeepsNext z (execSwap grp s) := by
  unfold execSwap
  repeat' first
    | with_reducible assumption | with_reducible refine Keeps.next ?_ | with_reducible apply swapDue_keeps

theorem twinCopy_keeps {z : State} {s : State} {part : Nat} {c : Sys2Proof.Cfh} {b : List Sys2Proof.Byte} (kz : Keeps z s) : Keeps z (twinCopy s part c b) := by
  unfold twinCopy
  repeat' first
    | with_reducible assumption | with_reducible apply twinSend_keeps | with_reducible refine Keeps.ite ?_ ?_

theorem execLaunch_keeps {z : State} {c : Sys2Proof.Cfh} {payload : List Sys2Proof.Byte} {s : State} (kz : Keeps z s) : KeepsNext z (execLaunch c payload s) := by
  unfold execLaunch
  repeat' first
    | with_reducible assumption | with_reducible refine Keeps.next ?_ | with_reducible apply twinCopy_keeps
    | with_reducible apply hearLaunch_keeps | with_reducible apply showGroup_keeps | with_reducible apply setGroup_keeps
    | simp -zeta only [keeps_upd]
    | (extract_lets +onlyGivenNames v; refine Keeps.cut (z := z) v ?_ (fun hv => ?_); subst v; rotate_left; clear_value v)
    | (extract_lets +onlyGivenNames v; first | clear_value v | subst v) | with_reducible refine Keeps.ite ?_ ?_ | split

theorem strayPkt_keeps {z : State} {s : State} {part : Nat} {grp : Nat} (kz : Keeps z s) : Keeps z (strayPkt s part grp) := by
  unfold strayPkt
  repeat' first
    | with_reducible assumption | with_reducible apply colEvent_keeps | with_reducible apply bump64_keeps

theorem straggle_keeps {z : State} {s : State} {grp : Nat} {step : Nat} (kz : Keeps z s) : Keeps z (straggle s grp step) := by
  unfold straggle
  repeat' first
    | with_reducible assumption | with_reducible apply setGroup_keeps | with_reducible apply colEvent_keeps
    | simp -zeta only [keeps_upd]
    | (extract_lets +onlyGivenNames v; first | clear_value v | subst v) | with_reducible refine Keeps.ite ?_ ?_ | split

theorem contribRx_keeps {z : State} {s : State} {c : Sys2Proof.Cfh} {b : List Sys2Proof.Byte} (kz : Keeps z s) : Keeps z (contribRx s c b) := by
  unfold contribRx
  repeat' first
    | with_reducible assumption | with_reducible apply strayPkt_keeps | with_reducible apply twinCopy_keeps
    | with_reducible apply straggle_keeps | with_reducible apply digestFail_keeps | with_reducible apply countStaging_keeps
    | with_reducible apply runChunk_keeps | with_reducible apply setColl_keeps | with_reducible apply bump64_keeps
    | simp -zeta only [keeps_upd]
    | (extract_lets +onlyGivenNames v; refine Keeps.cut (z := z) v ?_ (fun hv => ?_); subst v; rotate_left; first | clear_value v | subst v)
    | (extract_lets +onlyGivenNames v; first | clear_value v | subst v) | with_reducible refine Keeps.ite ?_ ?_ | split
    | dsimp -zeta only

theorem execContributionRx_keeps {z : State} {c : Sys2Proof.Cfh} {payload : List Sys2Proof.Byte} {s : State} (kz : Keeps z s) : KeepsNext z (execContributionRx c payload s) := by
  unfold execContributionRx
  repeat' first
    | with_reducible assumption | with_reducible refine Keeps.next ?_ | with_reducible apply contribRx_keeps
    | with_reducible apply showGroup_keeps | with_reducible refine Keeps.ite ?_ ?_

theorem partialPkt_keeps {z : State} {s : State} {c : Sys2Proof.Cfh} {b : List Sys2Proof.Byte} (kz : Keeps z s) : Keeps z (partialPkt s c b) := by
  unfold partialPkt
  repeat' first
    | with_reducible assumption | with_reducible apply strayPkt_keeps | with_reducible apply twinCopy_keeps
    | with_reducible apply digestFail_keeps | with_reducible apply runChunk_keeps | with_reducible apply setColl_keeps
    | with_reducible apply bump64_keeps | dsimp -zeta only
    | (extract_lets +onlyGivenNames v; subst v) | with_reducible refine Keeps.ite ?_ ?_ | split

theorem execPartialRx_keeps {z : State} {c : Sys2Proof.Cfh} {payload : List Sys2Proof.Byte} {s : State} (kz : Keeps z s) : KeepsNext z (execPartialRx c payload s) := by
  unfold execPartialRx
  repeat' first
    | with_reducible assumption | with_reducible refine Keeps.next ?_ | with_reducible apply partialPkt_keeps
    | with_reducible apply showGroup_keeps | with_reducible refine Keeps.ite ?_ ?_

theorem resultPkt_keeps {z : State} {s : State} {c : Sys2Proof.Cfh} {b : List Sys2Proof.Byte} (kz : Keeps z s) : Keeps z (resultPkt s c b) := by
  unfold resultPkt
  repeat' first
    | with_reducible assumption | with_reducible apply strayPkt_keeps | with_reducible apply twinCopy_keeps
    | with_reducible apply digestFail_keeps | with_reducible apply spreadResult_keeps | with_reducible apply bump64_keeps
    | (extract_lets +onlyGivenNames v; refine Keeps.cut (z := z) v ?_ (fun hv => ?_); subst v; rotate_left; clear_value v)
    | (extract_lets +onlyGivenNames v; first | clear_value v | subst v) | with_reducible refine Keeps.ite ?_ ?_ | split

theorem execResultRx_keeps {z : State} {c : Sys2Proof.Cfh} {payload : List Sys2Proof.Byte} {s : State} (kz : Keeps z s) : KeepsNext z (execResultRx c payload s) := by
  unfold execResultRx
  repeat' first
    | with_reducible assumption | with_reducible refine Keeps.next ?_ | with_reducible apply resultPkt_keeps
    | with_reducible apply showGroup_keeps | with_reducible refine Keeps.ite ?_ ?_

theorem resendResult_keeps {z : State} {s : State} {grp : Nat} {x : Group} {y : Coll} {ep : Nat} {r : ResPkt} (kz : Keeps z s) : Keeps z (resendResult s grp x y ep r) := by
  unfold resendResult
  repeat' first
    | with_reducible assumption | with_reducible apply collSendData_keeps

theorem receiptBad_keeps {z : State} {s : State} {grp : Nat} {x : Group} {y : Coll} {m : Member} (kz : Keeps z s) : Keeps z (receiptBad s grp x y m) := by
  unfold receiptBad
  repeat' first
    | with_reducible assumption | with_reducible apply resendResult_keeps | with_reducible apply setColl_keeps
    | with_reducible apply abortRequest_keeps | with_reducible apply fsrStore_keeps | with_reducible apply bump64_keeps
    | with_reducible refine Keeps.foldl _ _ ?_ (fun _ _ _ => ?_) | simp -zeta only [keeps_upd]
    | (extract_lets +onlyGivenNames v; refine Keeps.cut (z := z) v ?_ (fun hv => ?_); subst v; rotate_left; clear_value v)
    | (extract_lets +onlyGivenNames v; first | clear_value v | subst v) | with_reducible refine Keeps.ite ?_ ?_

theorem execReceipt_keeps {z : State} {c : Sys2Proof.Cfh} {payload : List Sys2Proof.Byte} {s : State} (kz : Keeps z s) : KeepsNext z (execReceipt c payload s) := by
  unfold execReceipt
  repeat' first
    | with_reducible assumption | with_reducible refine Keeps.next ?_ | with_reducible apply twinCopy_keeps
    | with_reducible apply receiptBad_keeps | with_reducible apply maybeReady_keeps | with_reducible apply setColl_keeps
    | with_reducible apply colSend_keeps | simp -zeta only [keeps_upd]
    | (extract_lets +onlyGivenNames v; refine Keeps.cut (z := z) v ?_ (fun hv => ?_); subst v; rotate_left; clear_value v)
    | (extract_lets +onlyGivenNames v; first | clear_value v | subst v) | with_reducible refine Keeps.ite ?_ ?_ | split

theorem execRack_keeps {z : State} {c : Sys2Proof.Cfh} {payload : List Sys2Proof.Byte} {s : State} (kz : Keeps z s) : KeepsNext z (execRack c payload s) := by
  unfold execRack
  repeat' first
    | with_reducible assumption | with_reducible refine Keeps.next ?_ | with_reducible apply setColl_keeps
    | simp -zeta only [keeps_upd]
    | (extract_lets +onlyGivenNames v; first | clear_value v | subst v) | with_reducible refine Keeps.ite ?_ ?_ | split

theorem tellSpines_keeps {z : State} {s : State} {grp : Nat} {x : Group} {m : ColMsg} (kz : Keeps z s) : Keeps z (tellSpines s grp x m) := by
  unfold tellSpines
  repeat' first
    | with_reducible assumption | with_reducible apply colSend_keeps | with_reducible refine Keeps.foldl _ _ ?_ (fun _ _ _ => ?_)

theorem decideAbort_keeps {z : State} {s : State} {grp : Nat} {x : Group} {y : Coll} {status : Nat} (kz : Keeps z s) : Keeps z (decideAbort s grp x y status) := by
  unfold decideAbort
  repeat' first
    | with_reducible assumption | with_reducible apply tellSpines_keeps | with_reducible apply setColl_keeps

theorem rootRetract_keeps {z : State} {s : State} {grp : Nat} {x : Group} {step : Nat} (kz : Keeps z s) : Keeps z (rootRetract s grp x step) := by
  unfold rootRetract
  repeat' first
    | with_reducible assumption | with_reducible apply tellSpines_keeps | with_reducible apply setColl_keeps
    | with_reducible apply setGroup_keeps | with_reducible apply chkEvent_keeps | with_reducible apply fsrStore_keeps
    | simp -zeta only [keeps_upd]
    | (extract_lets +onlyGivenNames v; refine Keeps.cut (z := z) v ?_ (fun hv => ?_); subst v; rotate_left; clear_value v)
    | (extract_lets +onlyGivenNames v; first | clear_value v | subst v) | with_reducible refine Keeps.ite ?_ ?_ | split

theorem decideCommit_keeps {z : State} {s : State} {grp : Nat} {x : Group} {y : Coll} (kz : Keeps z s) : Keeps z (decideCommit s grp x y) := by
  unfold decideCommit
  repeat' first
    | with_reducible assumption | with_reducible apply rootRetract_keeps | with_reducible apply tellSpines_keeps
    | with_reducible apply setColl_keeps | with_reducible apply chkEvent_keeps | simp -zeta only [keeps_upd]
    | (extract_lets +onlyGivenNames v; refine Keeps.cut (z := z) v ?_ (fun hv => ?_); subst v; rotate_left; clear_value v)
    | (extract_lets +onlyGivenNames v; clear_value v) | with_reducible refine Keeps.ite ?_ ?_

theorem execReady_keeps {z : State} {c : Sys2Proof.Cfh} {payload : List Sys2Proof.Byte} {s : State} (kz : Keeps z s) : KeepsNext z (execReady c payload s) := by
  unfold execReady
  repeat' first
    | with_reducible assumption | with_reducible refine Keeps.next ?_ | with_reducible apply twinCopy_keeps
    | with_reducible apply decideCommit_keeps | with_reducible apply setGroup_keeps | simp -zeta only [keeps_upd]
    | (extract_lets +onlyGivenNames v; refine Keeps.cut (z := z) v ?_ (fun hv => ?_); subst v; rotate_left; clear_value v)
    | (extract_lets +onlyGivenNames v; first | clear_value v | subst v) | with_reducible refine Keeps.ite ?_ ?_ | split

theorem execAbortReq_keeps {z : State} {c : Sys2Proof.Cfh} {payload : List Sys2Proof.Byte} {s : State} (kz : Keeps z s) : KeepsNext z (execAbortReq c payload s) := by
  unfold execAbortReq
  repeat' first
    | with_reducible assumption | with_reducible refine Keeps.next ?_ | with_reducible apply decideAbort_keeps
    | with_reducible apply twinCopy_keeps
    | (extract_lets +onlyGivenNames v; first | clear_value v | subst v) | with_reducible refine Keeps.ite ?_ ?_ | split

theorem execCommitDeadline_keeps {z : State} {grp : BitVec 16} {step : Sys2Proof.Word} {s : State} (kz : Keeps z s) : KeepsNext z (execCommitDeadline grp step s) := by
  unfold execCommitDeadline
  repeat' first
    | with_reducible assumption | with_reducible refine Keeps.next ?_ | with_reducible apply decideAbort_keeps
    | with_reducible apply colEvent_keeps | with_reducible refine Keeps.ite ?_ ?_ | split

theorem mirageMatch_keeps {z : State} {s : State} {grp : Nat} {x : Group} {m : Member} (kz : Keeps z s) : Keeps z (mirageMatch s grp x m) := by
  unfold mirageMatch
  repeat' first
    | with_reducible assumption | with_reducible apply setGroup_keeps | with_reducible apply mgtEvent_keeps
    | with_reducible apply bump64_keeps | dsimp -zeta only
    | (extract_lets +onlyGivenNames v; refine Keeps.cut (z := z) v ?_ (fun hv => ?_); subst v; rotate_left; clear_value v)
    | (extract_lets +onlyGivenNames v; subst v) | with_reducible refine Keeps.ite ?_ ?_

theorem mirageMiss_keeps {z : State} {s : State} {grp : Nat} {x : Group} {m : Member} (kz : Keeps z s) : Keeps z (mirageMiss s grp x m) := by
  unfold mirageMiss
  repeat' first
    | with_reducible assumption | with_reducible apply setGroup_keeps | with_reducible apply mgtEvent_keeps
    | with_reducible apply bump64_keeps | simp -zeta only [keeps_upd]
    | (extract_lets +onlyGivenNames v; refine Keeps.cut (z := z) v ?_ (fun hv => ?_); subst v; rotate_left; clear_value v)
    | (extract_lets +onlyGivenNames v; clear_value v) | with_reducible refine Keeps.ite ?_ ?_

theorem mirageOne_keeps {z : State} {grp : Nat} {y : Coll} {s : State} {e : Nat × Nat} (kz : Keeps z s) : Keeps z (mirageOne grp y s e) := by
  unfold mirageOne
  repeat' first
    | with_reducible assumption | with_reducible apply mirageMiss_keeps | with_reducible apply mirageMatch_keeps
    | (extract_lets +onlyGivenNames v; first | clear_value v | subst v) | with_reducible refine Keeps.ite ?_ ?_ | split

theorem twinStep_keeps {z : State} {s : State} {grp : Nat} {x : Group} {step : Nat} {skipped : Bool} (kz : Keeps z s) : Keeps z (twinStep s grp x step skipped) := by
  unfold twinStep
  repeat' first
    | with_reducible assumption | with_reducible apply mgtEvent_keeps | with_reducible apply bump64_keeps
    | with_reducible apply wf_keeps | simp -zeta only [keeps_upd]
    | (extract_lets +onlyGivenNames v; refine Keeps.cut (z := z) v ?_ (fun hv => ?_); subst v; rotate_left; clear_value v)
    | (extract_lets +onlyGivenNames v; subst v) | with_reducible refine Keeps.ite ?_ ?_

theorem settleAbort_keeps {z : State} {s : State} {y : Coll} {status : Nat} (kz : Keeps z s) : Keeps z (settleAbort s y status) := by
  unfold settleAbort
  repeat' first
    | with_reducible assumption | with_reducible apply claim_keeps | split

theorem stepTotals_keeps {z : State} {s : State} {grp : Nat} {x : Group} {y : Coll} (kz : Keeps z s) : Keeps z (stepTotals s grp x y) := by
  unfold stepTotals
  repeat' first
    | with_reducible assumption | with_reducible apply numTotals_keeps | with_reducible apply poisoned_keeps

theorem dropKept_keeps {z : State} {s : State} {grp : Nat} {step : Nat} (kz : Keeps z s) : Keeps z (dropKept s grp step) := by
  unfold dropKept
  repeat' first
    | with_reducible assumption | with_reducible apply setGroup_keeps | simp -zeta only [keeps_upd] | split

theorem commitStep_keeps {z : State} {s : State} {grp : Nat} {x : Group} {y : Coll} {m : ColMsg} (kz : Keeps z s) : Keeps z (commitStep s grp x y m) := by
  unfold commitStep
  repeat' first
    | with_reducible assumption | with_reducible apply stepTotals_keeps | with_reducible apply settleAbort_keeps
    | with_reducible apply dropKept_keeps | with_reducible apply mirageOne_keeps | with_reducible apply twinStep_keeps
    | with_reducible apply tellMembers_keeps | with_reducible apply endColl_keeps | with_reducible apply closeColl_keeps
    | with_reducible apply setGroup_keeps | with_reducible apply chkEvent_keeps | with_reducible apply bump64_keeps
    | with_reducible refine Keeps.foldl _ _ ?_ (fun _ _ _ => ?_) | simp -zeta only [keeps_upd]
    | (extract_lets +onlyGivenNames v; first | clear_value v | subst v) | with_reducible refine Keeps.ite ?_ ?_ | split

theorem execCommit_keeps {z : State} {c : Sys2Proof.Cfh} {payload : List Sys2Proof.Byte} {s : State} (kz : Keeps z s) : KeepsNext z (execCommit c payload s) := by
  unfold execCommit
  repeat' first
    | with_reducible assumption | with_reducible refine Keeps.next ?_ | with_reducible apply commitStep_keeps
    | with_reducible apply twinCopy_keeps | with_reducible apply showGroup_keeps | with_reducible apply pumpAll_keeps
    | with_reducible refine Keeps.ite ?_ ?_ | split

theorem abortStep_keeps {z : State} {s : State} {grp : Nat} {x : Group} {y : Coll} {status : Nat} {abortCmd : Nat} (kz : Keeps z s) : Keeps z (abortStep s grp x y status abortCmd) := by
  unfold abortStep
  repeat' first
    | with_reducible assumption | with_reducible apply settleAbort_keeps | with_reducible apply twinStep_keeps
    | with_reducible apply endColl_keeps | with_reducible apply colEvent_keeps | with_reducible apply bump64_keeps
    | (extract_lets +onlyGivenNames v; first | clear_value v | subst v) | with_reducible refine Keeps.ite ?_ ?_

theorem execCollAbort_keeps {z : State} {c : Sys2Proof.Cfh} {payload : List Sys2Proof.Byte} {s : State} (kz : Keeps z s) : KeepsNext z (execCollAbort c payload s) := by
  unfold execCollAbort
  repeat' first
    | with_reducible assumption | with_reducible refine Keeps.next ?_ | with_reducible apply twinCopy_keeps
    | with_reducible apply abortStep_keeps | with_reducible apply tellMembers_keeps | with_reducible apply showGroup_keeps
    | with_reducible apply pumpAll_keeps
    | (extract_lets +onlyGivenNames v; refine Keeps.cut (z := z) v ?_ (fun hv => ?_); subst v; rotate_left; clear_value v)
    | (extract_lets +onlyGivenNames v; first | clear_value v | subst v) | with_reducible refine Keeps.ite ?_ ?_ | split

theorem execCommitGraceExpiry_keeps {z : State} {grp : BitVec 16} {step : Sys2Proof.Word} {s : State} (kz : Keeps z s) : KeepsNext z (execCommitGraceExpiry grp step s) := by
  unfold execCommitGraceExpiry
  repeat' first
    | with_reducible assumption | with_reducible refine Keeps.next ?_ | with_reducible apply abortStep_keeps
    | with_reducible apply showGroup_keeps | with_reducible apply pumpAll_keeps | with_reducible apply colEvent_keeps
    | with_reducible refine Keeps.ite ?_ ?_ | split

theorem execAbortReqGraceExpiry_keeps {z : State} {grp : BitVec 16} {step : Sys2Proof.Word} {s : State} (kz : Keeps z s) : KeepsNext z (execAbortReqGraceExpiry grp step s) := by
  unfold execAbortReqGraceExpiry
  repeat' first
    | with_reducible assumption | with_reducible refine Keeps.next ?_ | with_reducible apply abortStep_keeps
    | with_reducible apply showGroup_keeps | with_reducible apply pumpAll_keeps | with_reducible refine Keeps.ite ?_ ?_ | split

end Sys2Proof.Machine
end

