-- ==== Sys2Proof/Laws/KeepsIntegrity.lean ====
section
/-! SUPPORT. Every operation of Sys2Proof.Machine.Integrity keeps what Keeps says. -/
namespace Sys2Proof.Machine

theorem unitWrite_keeps {z : State} {s : State} {d : Nat} {u : Nat} {v : Sys2Proof.Word} {act : State → State} (kz : Keeps z s) (hact : ∀ t, Keeps z t → Keeps z (act t)) : Keeps z (unitWrite s d u v act) := by
  unfold unitWrite
  repeat' first
    | with_reducible assumption | with_reducible apply heldRefuse_keeps | with_reducible apply softWrite_keeps | apply hact
    | (extract_lets +onlyGivenNames v; first | clear_value v | subst v) | with_reducible refine Keeps.ite ?_ ?_

theorem execChkUnitStart_keeps {z : State} {d : Fin 8} {u : Fin 64} {v : Sys2Proof.Word} {s : State} (kz : Keeps z s) : KeepsNext z (execChkUnitStart d u v s) := by
  unfold execChkUnitStart
  repeat' first
    | with_reducible assumption | with_reducible refine Keeps.next ?_ | with_reducible intro _ | with_reducible apply unitWrite_keeps
    | with_reducible apply wf_keeps
    | (extract_lets +onlyGivenNames v; first | clear_value v | subst v) | with_reducible refine Keeps.ite ?_ ?_

theorem execChkUnitDone_keeps {z : State} {d : Fin 8} {u : Fin 64} {bad : Bool} {s : State} (kz : Keeps z s) : KeepsNext z (execChkUnitDone d u bad s) := by
  unfold execChkUnitDone
  repeat' first
    | with_reducible assumption | with_reducible refine Keeps.next ?_ | with_reducible apply unitMismatch_keeps
    | with_reducible apply wf_keeps | with_reducible apply wn64_keeps
    | (extract_lets +onlyGivenNames v; refine Keeps.cut (z := z) v ?_ (fun hv => ?_); subst v; rotate_left; clear_value v)
    | (extract_lets +onlyGivenNames v; first | clear_value v | subst v) | with_reducible refine Keeps.ite ?_ ?_

theorem execChkUnitStop_keeps {z : State} {d : Fin 8} {u : Fin 64} {v : Sys2Proof.Word} {s : State} (kz : Keeps z s) : KeepsNext z (execChkUnitStop d u v s) := by
  unfold execChkUnitStop
  repeat' first
    | with_reducible assumption | with_reducible refine Keeps.next ?_ | with_reducible intro _ | with_reducible apply unitWrite_keeps
    | with_reducible apply wf_keeps
    | (extract_lets +onlyGivenNames v; first | clear_value v | subst v) | with_reducible refine Keeps.ite ?_ ?_

theorem execResend_keeps {z : State} {c : Sys2Proof.Cfh} {payload : List Sys2Proof.Byte} {s : State} (kz : Keeps z s) : KeepsNext z (execResend c payload s) := by
  unfold execResend
  repeat' first
    | with_reducible assumption | with_reducible refine Keeps.next ?_ | with_reducible apply resendResult_keeps
    | with_reducible apply sendPartial_keeps | with_reducible apply bump64_keeps
    | with_reducible refine Keeps.foldl _ _ ?_ (fun _ _ _ => ?_)
    | (extract_lets +onlyGivenNames v; first | clear_value v | subst v) | with_reducible refine Keeps.ite ?_ ?_ | split

theorem execResendTimeout_keeps {z : State} {grp : BitVec 16} {step : Sys2Proof.Word} {rank : BitVec 24} {chunk : BitVec 24} {s : State} (kz : Keeps z s) : KeepsNext z (execResendTimeout grp step rank chunk s) := by
  unfold execResendTimeout
  repeat' first
    | with_reducible assumption | with_reducible refine Keeps.next ?_ | with_reducible apply receiptBad_keeps
    | with_reducible apply askResend_keeps
    | (extract_lets +onlyGivenNames v; first | clear_value v | subst v) | with_reducible refine Keeps.ite ?_ ?_ | split

theorem execAuditDone_keeps {z : State} {grp : BitVec 16} {step : Sys2Proof.Word} {chunk : BitVec 24} {g2 : Fin 4096} {second : BitVec 64} {third : Option (BitVec 64)} {s : State} (kz : Keeps z s) : KeepsNext z (execAuditDone grp step chunk g2 second third s) := by
  unfold execAuditDone
  repeat' first
    | with_reducible assumption | with_reducible refine Keeps.next ?_ | with_reducible apply showGroup_keeps
    | with_reducible apply maybeReady_keeps | with_reducible apply residueEvent_keeps | with_reducible apply setColl_keeps
    | with_reducible apply retractAsk_keeps | with_reducible apply settleDrains_keeps | with_reducible apply fsrStore_keeps
    | with_reducible apply chkEvent_keeps | with_reducible apply bump64_keeps | dsimp -zeta only
    | (extract_lets +onlyGivenNames v; refine Keeps.cut (z := z) v ?_ (fun hv => ?_); subst v; rotate_left; clear_value v)
    | (extract_lets +onlyGivenNames v; subst v) | with_reducible refine Keeps.ite ?_ ?_ | split

theorem execHoldExpiry_keeps {z : State} {grp : BitVec 16} {step : Sys2Proof.Word} {s : State} (kz : Keeps z s) : KeepsNext z (execHoldExpiry grp step s) := by
  unfold execHoldExpiry
  repeat' first
    | with_reducible assumption | with_reducible refine Keeps.next ?_ | with_reducible apply setGroup_keeps
    | simp -zeta only [keeps_upd]
    | (extract_lets +onlyGivenNames v; first | clear_value v | subst v) | with_reducible refine Keeps.ite ?_ ?_ | split

theorem execRetractRequest_keeps {z : State} {c : Sys2Proof.Cfh} {payload : List Sys2Proof.Byte} {s : State} (kz : Keeps z s) : KeepsNext z (execRetractRequest c payload s) := by
  unfold execRetractRequest
  repeat' first
    | with_reducible assumption | with_reducible refine Keeps.next ?_ | with_reducible apply rootRetract_keeps
    | with_reducible apply twinCopy_keeps | with_reducible apply showGroup_keeps | with_reducible apply retractAsk_keeps
    | with_reducible refine Keeps.ite ?_ ?_ | split

theorem restoreCopies_keeps {z : State} {s : State} {x : Group} {y : Coll} (kz : Keeps z s) : Keeps z (restoreCopies s x y) := by
  unfold restoreCopies
  repeat' first
    | with_reducible assumption | with_reducible apply oasisWrite_keeps
    | with_reducible refine Keeps.foldl _ _ ?_ (fun _ _ _ => ?_)

theorem retractLater_keeps {z : State} {grp : Nat} {x : Group} {s0 : State} {y0 : Coll} (kz : Keeps z s0) : Keeps z (retractLater grp x s0 y0) := by
  unfold retractLater
  repeat' first
    | with_reducible assumption | with_reducible apply restoreCopies_keeps | with_reducible apply twinStep_keeps
    | with_reducible apply settleAbort_keeps | with_reducible apply finishColl_keeps | with_reducible apply endColl_keeps
    | (extract_lets +onlyGivenNames v; refine Keeps.cut (z := z) v ?_ (fun hv => ?_); subst v; rotate_left; first | clear_value v | subst v)
    | (extract_lets +onlyGivenNames v; first | clear_value v | subst v) | dsimp -zeta only

theorem retractStep_keeps {z : State} {s0 : State} {grp : Nat} {x : Group} {y0 : Coll} {m : ColMsg} (kz : Keeps z s0) : Keeps z (retractStep s0 grp x y0 m) := by
  unfold retractStep
  repeat' first
    | with_reducible assumption | with_reducible apply retractLater_keeps | with_reducible apply restoreCopies_keeps
    | with_reducible apply twinStep_keeps | with_reducible apply finishColl_keeps | with_reducible apply purgeColl_keeps
    | with_reducible apply tellMembers_keeps | with_reducible apply maybeReady_keeps | with_reducible apply pumpColl_keeps
    | with_reducible apply pumpAll_keeps | with_reducible apply setGroup_keeps
    | with_reducible refine Keeps.foldl _ _ ?_ (fun _ _ _ => ?_) | simp -zeta only [keeps_upd]
    | (extract_lets +onlyGivenNames v; refine Keeps.cut (z := z) v ?_ (fun hv => ?_); subst v; rotate_left; first | clear_value v | subst v)
    | (extract_lets +onlyGivenNames v; first | clear_value v | subst v) | with_reducible refine Keeps.ite ?_ ?_ | split
    | dsimp -zeta only

theorem execRetract_keeps {z : State} {c : Sys2Proof.Cfh} {payload : List Sys2Proof.Byte} {s : State} (kz : Keeps z s) : KeepsNext z (execRetract c payload s) := by
  unfold execRetract
  repeat' first
    | with_reducible assumption | with_reducible refine Keeps.next ?_ | with_reducible apply retractStep_keeps
    | with_reducible apply twinCopy_keeps | with_reducible apply showGroup_keeps | with_reducible apply chkEvent_keeps
    | with_reducible apply bump64_keeps
    | (extract_lets +onlyGivenNames v; first | clear_value v | subst v) | with_reducible refine Keeps.ite ?_ ?_ | split

theorem execReplayReserveFail_keeps {z : State} {grp : BitVec 16} {step : Sys2Proof.Word} {s : State} (kz : Keeps z s) : KeepsNext z (execReplayReserveFail grp step s) := by
  unfold execReplayReserveFail
  repeat' first
    | with_reducible assumption | with_reducible refine Keeps.next ?_ | with_reducible apply showGroup_keeps
    | with_reducible apply pumpAll_keeps | with_reducible apply closeColl_keeps | with_reducible apply chkEvent_keeps
    | (extract_lets +onlyGivenNames v; first | clear_value v | subst v) | with_reducible refine Keeps.ite ?_ ?_ | split

theorem marginShow_keeps {z : State} {s : State} {d : Nat} {result : Nat} {st : Option Nat} (kz : Keeps z s) : Keeps z (marginShow s d result st) := by
  unfold marginShow
  repeat' first
    | with_reducible assumption | with_reducible apply wf_keeps
    | (extract_lets +onlyGivenNames v; refine Keeps.cut (z := z) v ?_ (fun hv => ?_); subst v; rotate_left; clear_value v)
    | (extract_lets +onlyGivenNames v; first | clear_value v | subst v) | split

theorem execMarginStart_keeps {z : State} {d : Fin 8} {v : Sys2Proof.Word} {s : State} (kz : Keeps z s) : KeepsNext z (execMarginStart d v s) := by
  unfold execMarginStart
  repeat' first
    | with_reducible assumption | with_reducible refine Keeps.next ?_ | with_reducible apply marginShow_keeps
    | with_reducible apply disableEngines_keeps | with_reducible apply heldRefuse_keeps | with_reducible apply wfs_keeps
    | simp -zeta only [keeps_upd]
    | (extract_lets +onlyGivenNames v; refine Keeps.cut (z := z) v ?_ (fun hv => ?_); subst v; rotate_left; clear_value v)
    | (extract_lets +onlyGivenNames v; first | clear_value v | subst v) | with_reducible refine Keeps.ite ?_ ?_

theorem marginEnd_keeps {z : State} {s : State} {d : Nat} {r : Nat} {result : Nat} (kz : Keeps z s) : Keeps z (marginEnd s d r result) := by
  unfold marginEnd
  repeat' first
    | with_reducible assumption | with_reducible apply marginShow_keeps | with_reducible apply enableEng_keeps
    | with_reducible apply settleDrains_keeps | with_reducible apply settle_keeps | with_reducible apply fsrStore_keeps
    | with_reducible apply chkEvent_keeps | with_reducible refine Keeps.foldl _ _ ?_ (fun _ _ _ => ?_) | simp -zeta only [keeps_upd]
    | (extract_lets +onlyGivenNames v; first | clear_value v | subst v) | with_reducible refine Keeps.ite ?_ ?_

theorem execMarginTempReached_keeps {z : State} {d : Fin 8} {s : State} (kz : Keeps z s) : KeepsNext z (execMarginTempReached d s) := by
  unfold execMarginTempReached
  repeat' first
    | with_reducible assumption | with_reducible refine Keeps.next ?_ | with_reducible apply marginShow_keeps
    | simp -zeta only [keeps_upd] | with_reducible refine Keeps.ite ?_ ?_ | split

theorem execMarginColdTimeout_keeps {z : State} {d : Fin 8} {s : State} (kz : Keeps z s) : KeepsNext z (execMarginColdTimeout d s) := by
  unfold execMarginColdTimeout
  repeat' first
    | with_reducible assumption | with_reducible refine Keeps.next ?_ | with_reducible apply marginEnd_keeps
    | with_reducible refine Keeps.ite ?_ ?_ | split

theorem execMarginDone_keeps {z : State} {d : Fin 8} {r : Sys2Proof.MarginRes} {s : State} (kz : Keeps z s) : KeepsNext z (execMarginDone d r s) := by
  unfold execMarginDone
  repeat' first
    | with_reducible assumption | with_reducible refine Keeps.next ?_ | with_reducible apply marginEnd_keeps
    | with_reducible apply quarantine_keeps | with_reducible apply wf_keeps | with_reducible apply wfs_keeps
    | with_reducible refine Keeps.foldl _ _ ?_ (fun _ _ _ => ?_)
    | (extract_lets +onlyGivenNames v; refine Keeps.cut (z := z) v ?_ (fun hv => ?_); subst v; rotate_left; clear_value v)
    | (extract_lets +onlyGivenNames v; clear_value v) | with_reducible refine Keeps.ite ?_ ?_ | split

theorem execMarginStop_keeps {z : State} {d : Fin 8} {v : Sys2Proof.Word} {s : State} (kz : Keeps z s) : KeepsNext z (execMarginStop d v s) := by
  unfold execMarginStop
  repeat' first
    | with_reducible assumption | with_reducible refine Keeps.next ?_ | with_reducible apply marginEnd_keeps
    | with_reducible apply heldRefuse_keeps | with_reducible refine Keeps.ite ?_ ?_ | split

theorem execQuarantineRelease_keeps {z : State} {d : Fin 8} {v : Sys2Proof.Word} {s : State} (kz : Keeps z s) : KeepsNext z (execQuarantineRelease d v s) := by
  unfold execQuarantineRelease
  repeat' first
    | with_reducible assumption | with_reducible refine Keeps.next ?_ | with_reducible apply settleDrains_keeps
    | with_reducible apply quarantine_keeps | with_reducible apply heldRefuse_keeps | with_reducible apply setEngSt_keeps
    | with_reducible apply wf_keeps | simp -zeta only [keeps_upd]
    | (extract_lets +onlyGivenNames v; subst v) | with_reducible refine Keeps.ite ?_ ?_

end Sys2Proof.Machine
end

