-- ==== Sys2Proof/Laws/KeepsCaravan.lean ====
section
/-! SUPPORT. Every operation of Sys2Proof.Machine.Caravan keeps what Keeps says. -/
namespace Sys2Proof.Machine

theorem setCar_keeps {z : State} {s : State} {c : Caravan} (kz : Keeps z s) : Keeps z (setCar s c) := by
  unfold setCar
  repeat' first
    | with_reducible assumption | simp -zeta only [keeps_upd]

theorem carSend_keeps {z : State} {s : State} {c : Caravan} {cls : Nat} {dst : Nat} {b : List Sys2Proof.Byte} (kz : Keeps z s) : Keeps z (carSend s c cls dst b) := by
  unfold carSend
  repeat' first
    | with_reducible assumption | with_reducible apply emit_keeps

theorem carPiece_keeps {z : State} {s : State} {c : Caravan} {p : CarPeer} {off : Nat} (kz : Keeps z s) : Keeps z (carPiece s c p off) := by
  unfold carPiece
  repeat' first
    | with_reducible assumption | with_reducible apply carSend_keeps

theorem carRange_keeps {z : State} {s : State} {c : Caravan} {p : CarPeer} {a : Nat} {zz : Nat} (kz : Keeps z s) : Keeps z (carRange s c p a zz) := by
  unfold carRange
  repeat' first
    | with_reducible assumption | with_reducible apply carPiece_keeps | with_reducible refine Keeps.foldl _ _ ?_ (fun _ _ _ => ?_)

theorem carServe_keeps {z : State} {s : State} {c : Caravan} (kz : Keeps z s) : Keeps z (carServe s c) := by
  unfold carServe
  repeat' first
    | with_reducible assumption | with_reducible apply carRange_keeps | with_reducible apply setCar_keeps
    | with_reducible refine Keeps.foldl _ _ ?_ (fun _ _ _ => ?_)

theorem carEnd_keeps {z : State} {s : State} {c : Caravan} {status : Nat} (kz : Keeps z s) : Keeps z (carEnd s c status) := by
  unfold carEnd
  repeat' first
    | with_reducible assumption | with_reducible apply claim_keeps | simp -zeta only [keeps_upd]

theorem carFinish_keeps {z : State} {s : State} {c : Caravan} {status : Nat} (kz : Keeps z s) : Keeps z (carFinish s c status) := by
  unfold carFinish
  repeat' first
    | with_reducible assumption | with_reducible apply carSend_keeps | with_reducible apply carEnd_keeps
    | with_reducible apply colEvent_keeps | with_reducible refine Keeps.foldl _ _ ?_ (fun _ _ _ => ?_)
    | (extract_lets +onlyGivenNames v; first | clear_value v | subst v) | with_reducible refine Keeps.ite ?_ ?_

theorem carStart_keeps {z : State} {s : State} {d : Nat} {q : Nat} {opcode : Nat} {root : Bool} (kz : Keeps z s) : Keeps z (carStart s d q opcode root) := by
  unfold carStart
  repeat' first
    | with_reducible assumption | with_reducible apply carServe_keeps | with_reducible apply carFinish_keeps
    | with_reducible apply claim_keeps | simp -zeta only [keeps_upd]
    | (extract_lets +onlyGivenNames v; refine Keeps.cut (z := z) v ?_ (fun hv => ?_); subst v; rotate_left; first | clear_value v | subst v)
    | (extract_lets +onlyGivenNames v; first | clear_value v | subst v) | with_reducible refine Keeps.ite ?_ ?_ | split
    | dsimp -zeta only

theorem execCaravanRoot_keeps {z : State} {d : Fin 8} {q : Fin 2048} {s : State} (kz : Keeps z s) : KeepsNext z (execCaravanRoot d q s) := by
  unfold execCaravanRoot
  repeat' first
    | with_reducible assumption | with_reducible refine Keeps.next ?_ | with_reducible apply carStart_keeps

theorem execCaravanNode_keeps {z : State} {d : Fin 8} {q : Fin 2048} {s : State} (kz : Keeps z s) : KeepsNext z (execCaravanNode d q s) := by
  unfold execCaravanNode
  repeat' first
    | with_reducible assumption | with_reducible refine Keeps.next ?_ | with_reducible apply carStart_keeps

theorem execCaravanFetch_keeps {z : State} {tid : BitVec 16} {s : State} (kz : Keeps z s) : KeepsNext z (execCaravanFetch tid s) := by
  unfold execCaravanFetch
  repeat' first
    | with_reducible assumption | with_reducible refine Keeps.next ?_ | with_reducible apply carSend_keeps
    | with_reducible apply setCar_keeps | simp -zeta only [keeps_upd]
    | (extract_lets +onlyGivenNames v; clear_value v) | with_reducible refine Keeps.ite ?_ ?_ | split

theorem carVerified_keeps {z : State} {s : State} {c : Caravan} {end_ : Nat} (kz : Keeps z s) : Keeps z (carVerified s c end_) := by
  unfold carVerified
  repeat' first
    | with_reducible assumption | with_reducible apply setCar_keeps | with_reducible apply carSend_keeps
    | with_reducible apply carServe_keeps | with_reducible apply bump64_keeps | simp -zeta only [keeps_upd]
    | (extract_lets +onlyGivenNames v; first | clear_value v | subst v) | with_reducible refine Keeps.ite ?_ ?_

theorem execCaravanData_keeps {z : State} {c : Sys2Proof.Cfh} {payload : List Sys2Proof.Byte} {s : State} (kz : Keeps z s) : KeepsNext z (execCaravanData c payload s) := by
  unfold execCaravanData
  repeat' first
    | with_reducible assumption | with_reducible refine Keeps.next ?_ | with_reducible apply setCar_keeps
    | with_reducible apply carVerified_keeps | with_reducible apply carSend_keeps | with_reducible apply oasisWrite_keeps
    | simp -zeta only [keeps_upd]
    | (extract_lets +onlyGivenNames v; refine Keeps.cut (z := z) v ?_ (fun hv => ?_); subst v; rotate_left; clear_value v)
    | (extract_lets +onlyGivenNames v; first | clear_value v | subst v) | with_reducible refine Keeps.ite ?_ ?_ | split

theorem execCaravanHeartbeatSend_keeps {z : State} {tid : BitVec 16} {s : State} (kz : Keeps z s) : KeepsNext z (execCaravanHeartbeatSend tid s) := by
  unfold execCaravanHeartbeatSend
  repeat' first
    | with_reducible assumption | with_reducible refine Keeps.next ?_ | with_reducible apply carSend_keeps
    | with_reducible refine Keeps.foldl _ _ ?_ (fun _ _ _ => ?_)
    | (extract_lets +onlyGivenNames v; refine Keeps.cut (z := z) v ?_ (fun hv => ?_); subst v; rotate_left; clear_value v)
    | (extract_lets +onlyGivenNames v; first | clear_value v | subst v) | with_reducible refine Keeps.ite ?_ ?_ | split

theorem execCaravanHeartbeat_keeps {z : State} {c : Sys2Proof.Cfh} {payload : List Sys2Proof.Byte} {s : State} (kz : Keeps z s) : KeepsNext z (execCaravanHeartbeat c payload s) := by
  unfold execCaravanHeartbeat
  repeat' first
    | with_reducible assumption | with_reducible refine Keeps.next ?_ | with_reducible apply setCar_keeps | simp -zeta only [keeps_upd]
    | with_reducible refine Keeps.ite ?_ ?_ | split

theorem execCaravanAck_keeps {z : State} {c : Sys2Proof.Cfh} {payload : List Sys2Proof.Byte} {s : State} (kz : Keeps z s) : KeepsNext z (execCaravanAck c payload s) := by
  unfold execCaravanAck
  repeat' first
    | with_reducible assumption | with_reducible refine Keeps.next ?_ | with_reducible apply setCar_keeps | simp -zeta only [keeps_upd]
    | split

theorem execCaravanNack_keeps {z : State} {c : Sys2Proof.Cfh} {payload : List Sys2Proof.Byte} {s : State} (kz : Keeps z s) : KeepsNext z (execCaravanNack c payload s) := by
  unfold execCaravanNack
  repeat' first
    | with_reducible assumption | with_reducible refine Keeps.next ?_ | with_reducible apply carRange_keeps
    | (extract_lets +onlyGivenNames v; clear_value v) | with_reducible refine Keeps.ite ?_ ?_ | split

theorem execCaravanAttach_keeps {z : State} {c : Sys2Proof.Cfh} {payload : List Sys2Proof.Byte} {s : State} (kz : Keeps z s) : KeepsNext z (execCaravanAttach c payload s) := by
  unfold execCaravanAttach
  repeat' first
    | with_reducible assumption | with_reducible refine Keeps.next ?_ | with_reducible apply carServe_keeps
    | with_reducible apply setCar_keeps | simp -zeta only [keeps_upd]
    | (extract_lets +onlyGivenNames v; clear_value v) | with_reducible refine Keeps.ite ?_ ?_ | split

theorem execParentSilence_keeps {z : State} {tid : BitVec 16} {s : State} (kz : Keeps z s) : KeepsNext z (execParentSilence tid s) := by
  unfold execParentSilence
  repeat' first
    | with_reducible assumption | with_reducible refine Keeps.next ?_ | with_reducible apply carEnd_keeps
    | with_reducible apply carSend_keeps | with_reducible apply setCar_keeps | with_reducible apply colEvent_keeps
    | simp -zeta only [keeps_upd]
    | (extract_lets +onlyGivenNames v; refine Keeps.cut (z := z) v ?_ (fun hv => ?_); subst v; rotate_left; clear_value v)
    | (extract_lets +onlyGivenNames v; first | clear_value v | subst v) | with_reducible refine Keeps.ite ?_ ?_ | split

theorem carCheck_keeps {z : State} {s : State} {c : Caravan} (kz : Keeps z s) : Keeps z (carCheck s c) := by
  unfold carCheck
  repeat' first
    | with_reducible assumption | with_reducible apply carFinish_keeps
    | (extract_lets +onlyGivenNames v; first | clear_value v | subst v) | with_reducible refine Keeps.ite ?_ ?_

theorem execCaravanDone_keeps {z : State} {c : Sys2Proof.Cfh} {payload : List Sys2Proof.Byte} {s : State} (kz : Keeps z s) : KeepsNext z (execCaravanDone c payload s) := by
  unfold execCaravanDone
  repeat' first
    | with_reducible assumption | with_reducible refine Keeps.next ?_ | with_reducible apply carEnd_keeps
    | with_reducible apply carCheck_keeps | with_reducible apply setCar_keeps | with_reducible apply carSend_keeps
    | simp -zeta only [keeps_upd]
    | (extract_lets +onlyGivenNames v; refine Keeps.cut (z := z) v ?_ (fun hv => ?_); subst v; rotate_left; clear_value v)
    | (extract_lets +onlyGivenNames v; first | clear_value v | subst v) | with_reducible refine Keeps.ite ?_ ?_ | split

theorem execCaravanDeadline_keeps {z : State} {tid : BitVec 16} {s : State} (kz : Keeps z s) : KeepsNext z (execCaravanDeadline tid s) := by
  unfold execCaravanDeadline
  repeat' first
    | with_reducible assumption | with_reducible refine Keeps.next ?_ | with_reducible apply carFinish_keeps
    | with_reducible refine Keeps.ite ?_ ?_ | split

end Sys2Proof.Machine
end

