-- ==== Sys2Proof/Laws/KeepsManagement.lean ====
section
/-! SUPPORT. Every operation of Sys2Proof.Machine.Management keeps what Keeps says. -/
namespace Sys2Proof.Machine

theorem triadTo_keeps {z : State} {s : State} {st : Nat} {cores : List Nat} (kz : Keeps z s) : Keeps z (triadTo s st cores) := by
  unfold triadTo
  repeat' first
    | with_reducible assumption | with_reducible apply wfs_keeps

theorem enterHeld_keeps {z : State} {s : State} {cause : Nat} (kz : Keeps z s) : Keeps z (enterHeld s cause) := by
  unfold enterHeld
  repeat' first
    | with_reducible assumption | with_reducible apply triadTo_keeps | with_reducible apply secLog_keeps
    | with_reducible apply refreshReady_keeps | with_reducible apply mgtEvent_keeps | with_reducible apply wf_keeps
    | simp -zeta only [keeps_upd]
    | (extract_lets +onlyGivenNames v; refine Keeps.cut (z := z) v ?_ (fun hv => ?_); subst v; rotate_left; clear_value v)
    | (extract_lets +onlyGivenNames v; clear_value v) | with_reducible refine Keeps.ite ?_ ?_ | split

theorem enterDual_keeps {z : State} {s : State} {k : Nat} (kz : Keeps z s) : Keeps z (enterDual s k) := by
  unfold enterDual
  repeat' first
    | with_reducible assumption | with_reducible apply triadTo_keeps | with_reducible apply mgtEvent_keeps
    | simp -zeta only [keeps_upd]

theorem enterResync_keeps {z : State} {s : State} {k : Nat} (kz : Keeps z s) : Keeps z (enterResync s k) := by
  unfold enterResync
  repeat' first
    | with_reducible assumption | with_reducible apply triadTo_keeps | with_reducible apply enterDual_keeps
    | with_reducible apply mgtEvent_keeps | with_reducible apply bump64_keeps | simp -zeta only [keeps_upd]
    | (extract_lets +onlyGivenNames v; refine Keeps.cut (z := z) v ?_ (fun hv => ?_); subst v; rotate_left; clear_value v)
    | (extract_lets +onlyGivenNames v; clear_value v) | with_reducible refine Keeps.ite ?_ ?_

theorem execTriadDisagree_keeps {z : State} {a : Option Sys2Proof.Word} {b : Option Sys2Proof.Word} {c : Option Sys2Proof.Word} {s : State} (kz : Keeps z s) : KeepsNext z (execTriadDisagree a b c s) := by
  unfold execTriadDisagree
  repeat' first
    | with_reducible assumption | with_reducible refine Keeps.next ?_ | with_reducible apply enterResync_keeps
    | with_reducible apply enterHeld_keeps | with_reducible apply enterDual_keeps
    | (extract_lets +onlyGivenNames v; first | clear_value v | subst v) | with_reducible refine Keeps.ite ?_ ?_ | split

theorem execTriadRejoin_keeps {z : State} {selfTestOk : Bool} {s : State} (kz : Keeps z s) : KeepsNext z (execTriadRejoin selfTestOk s) := by
  unfold execTriadRejoin
  repeat' first
    | with_reducible assumption | with_reducible refine Keeps.next ?_ | with_reducible apply triadTo_keeps
    | with_reducible apply enterDual_keeps | simp -zeta only [keeps_upd] | with_reducible refine Keeps.ite ?_ ?_

theorem execTriadProbationEnd_keeps {z : State} {s : State} (kz : Keeps z s) : KeepsNext z (execTriadProbationEnd s) := by
  unfold execTriadProbationEnd
  repeat' first
    | with_reducible assumption | with_reducible refine Keeps.next ?_ | with_reducible apply triadTo_keeps
    | simp -zeta only [keeps_upd] | with_reducible refine Keeps.ite ?_ ?_

theorem execHeldBeaconSend_keeps {z : State} {s : State} (kz : Keeps z s) : KeepsNext z (execHeldBeaconSend s) := by
  unfold execHeldBeaconSend
  repeat' first
    | with_reducible assumption | with_reducible refine Keeps.next ?_ | with_reducible apply sendOwn_keeps
    | with_reducible refine Keeps.foldl _ _ ?_ (fun _ _ _ => ?_)
    | (extract_lets +onlyGivenNames v; refine Keeps.cut (z := z) v ?_ (fun hv => ?_); subst v; rotate_left; first | clear_value v | subst v)
    | (extract_lets +onlyGivenNames v; first | clear_value v | subst v) | with_reducible refine Keeps.ite ?_ ?_ | split
    | dsimp -zeta only

theorem execHeldBeacon_keeps {z : State} {port : Fin 4096} {payload : List Sys2Proof.Byte} {s : State} (kz : Keeps z s) : KeepsNext z (execHeldBeacon port payload s) := by
  unfold execHeldBeacon
  repeat' first
    | with_reducible assumption | with_reducible refine Keeps.next ?_ | with_reducible apply settle_keeps
    | with_reducible apply mgtEvent_keeps | with_reducible apply wfs_keeps | with_reducible apply wn_keeps
    | with_reducible apply bump64_keeps | with_reducible refine Keeps.foldl _ _ ?_ (fun _ _ _ => ?_) | simp -zeta only [keeps_upd]
    | (extract_lets +onlyGivenNames v; refine Keeps.cut (z := z) v ?_ (fun hv => ?_); subst v; rotate_left; clear_value v)
    | (extract_lets +onlyGivenNames v; clear_value v) | with_reducible refine Keeps.ite ?_ ?_

theorem execHeldBeaconAbsence_keeps {z : State} {port : Fin 4096} {s : State} (kz : Keeps z s) : KeepsNext z (execHeldBeaconAbsence port s) := by
  unfold execHeldBeaconAbsence
  repeat' first
    | with_reducible assumption | with_reducible refine Keeps.next ?_ | with_reducible apply wf_keeps | simp -zeta only [keeps_upd]
    | (extract_lets +onlyGivenNames v; clear_value v) | with_reducible refine Keeps.ite ?_ ?_ | split

theorem fnResult_keeps {z : State} {s : State} {n : Nat} (kz : Keeps z s) : Keeps z (fnResult s n) := by
  unfold fnResult
  repeat' first
    | with_reducible assumption | with_reducible apply wf_keeps

theorem fnWrite_keeps {z : State} {s : State} {v : Sys2Proof.Word} {act : State → Nat → Nat → State} {upgrade : FnReq → Bool} (kz : Keeps z s) (hact : ∀ t x0 x1, Keeps z t → Keeps z (act t x0 x1)) : Keeps z (fnWrite s v act upgrade) := by
  unfold fnWrite
  repeat' first
    | with_reducible assumption | with_reducible apply fnResult_keeps | with_reducible apply heldRefuse_keeps | apply hact
    | (extract_lets +onlyGivenNames v; first | clear_value v | subst v) | with_reducible refine Keeps.ite ?_ ?_ | split

theorem enableCq_keeps {z : State} {s : State} {fq : Nat} (kz : Keeps z s) : Keeps z (enableCq s fq) := by
  unfold enableCq
  repeat' first
    | with_reducible assumption | with_reducible apply enableQueue_keeps | with_reducible refine Keeps.ite ?_ ?_ | split

theorem enablePort_keeps {z : State} {s : State} {p : Nat} (kz : Keeps z s) : Keeps z (enablePort s p) := by
  unfold enablePort
  repeat' first
    | with_reducible assumption | with_reducible apply setPortFn_keeps | with_reducible apply tryHandshake_keeps
    | with_reducible refine Keeps.ite ?_ ?_

theorem execFnEnable_keeps {z : State} {v : Sys2Proof.Word} {s : State} (kz : Keeps z s) : KeepsNext z (execFnEnable v s) := by
  unfold execFnEnable
  repeat' first
    | with_reducible assumption | with_reducible refine Keeps.next ?_ | with_reducible intro _ | with_reducible apply fnWrite_keeps
    | with_reducible apply fnResult_keeps | with_reducible apply enableCq_keeps | with_reducible apply enablePort_keeps
    | with_reducible apply settleDrains_keeps | with_reducible apply enableEng_keeps | with_reducible apply settle_keeps
    | with_reducible apply mgtEvent_keeps | with_reducible apply wfs_keeps | with_reducible refine Keeps.foldl _ _ ?_ (fun _ _ _ => ?_)
    | (extract_lets +onlyGivenNames v; refine Keeps.cut (z := z) v ?_ (fun hv => ?_); subst v; rotate_left; clear_value v)
    | (extract_lets +onlyGivenNames v; first | clear_value v | subst v) | with_reducible refine Keeps.ite ?_ ?_

theorem abortQueue_keeps {z : State} {status : Nat} {claims : Bool} {s : State} {fq : Nat} (kz : Keeps z s) : Keeps z (abortQueue status claims s fq) := by
  unfold abortQueue
  repeat' first
    | with_reducible assumption | with_reducible apply endColl_keeps | with_reducible apply failRun_keeps
    | with_reducible apply abortRequest_keeps | with_reducible refine Keeps.foldl _ _ ?_ (fun _ _ _ => ?_)
    | (extract_lets +onlyGivenNames v; refine Keeps.cut (z := z) v ?_ (fun hv => ?_); subst v; rotate_left; clear_value v)
    | (extract_lets +onlyGivenNames v; first | clear_value v | subst v) | with_reducible refine Keeps.ite ?_ ?_ | split

theorem fnDisable_keeps {z : State} {s : State} {kind : Nat} {index : Nat} {immediate : Bool} (kz : Keeps z s) : Keeps z (fnDisable s kind index immediate) := by
  unfold fnDisable
  repeat' first
    | with_reducible assumption | with_reducible apply fnResult_keeps | with_reducible apply abortQueue_keeps
    | with_reducible apply showGroup_keeps | with_reducible apply pumpAll_keeps | with_reducible apply disablePort_keeps
    | with_reducible apply fnProgress_keeps | with_reducible apply disableEngines_keeps | with_reducible apply settle_keeps
    | with_reducible apply drainCq_keeps | with_reducible refine Keeps.foldl _ _ ?_ (fun _ _ _ => ?_) | simp -zeta only [keeps_upd]
    | (extract_lets +onlyGivenNames v; refine Keeps.cut (z := z) v ?_ (fun hv => ?_); subst v; rotate_left; clear_value v)
    | (extract_lets +onlyGivenNames v; clear_value v) | with_reducible refine Keeps.ite ?_ ?_

theorem execFnDisableDrain_keeps {z : State} {v : Sys2Proof.Word} {s : State} (kz : Keeps z s) : KeepsNext z (execFnDisableDrain v s) := by
  unfold execFnDisableDrain
  repeat' first
    | with_reducible assumption | with_reducible refine Keeps.next ?_ | with_reducible intro _ | with_reducible apply fnWrite_keeps
    | with_reducible apply fnDisable_keeps | with_reducible refine Keeps.ite ?_ ?_

theorem execFnDisableImmediate_keeps {z : State} {v : Sys2Proof.Word} {s : State} (kz : Keeps z s) : KeepsNext z (execFnDisableImmediate v s) := by
  unfold execFnDisableImmediate
  repeat' first
    | with_reducible assumption | with_reducible refine Keeps.next ?_ | with_reducible intro _ | with_reducible apply fnWrite_keeps
    | with_reducible apply fnDisable_keeps | with_reducible refine Keeps.ite ?_ ?_

theorem execDrainTimeout_keeps {z : State} {s : State} (kz : Keeps z s) : KeepsNext z (execDrainTimeout s) := by
  unfold execDrainTimeout
  repeat' first
    | with_reducible assumption | with_reducible refine Keeps.next ?_ | with_reducible apply mgtEvent_keeps
    | with_reducible refine Keeps.ite ?_ ?_ | split

theorem checkOrder_keeps {z : State} {s : State} {o : MgtOrder} (kz : Keeps z s) : Keeps z (checkOrder s o) := by
  unfold checkOrder
  repeat' first
    | with_reducible assumption | with_reducible apply mgtEvent_keeps | with_reducible apply wf_keeps
    | with_reducible apply bump64_keeps | with_reducible apply wn_keeps | simp -zeta only [keeps_upd]
    | (extract_lets +onlyGivenNames v; refine Keeps.cut (z := z) v ?_ (fun hv => ?_); subst v; rotate_left; first | clear_value v | subst v)
    | (extract_lets +onlyGivenNames v; first | clear_value v | subst v) | split | dsimp -zeta only

theorem execOrderSubmit_keeps {z : State} {v : Sys2Proof.Word} {verdicts : List (Bool × Bool)} {s : State} (kz : Keeps z s) : KeepsNext z (execOrderSubmit v verdicts s) := by
  unfold execOrderSubmit
  repeat' first
    | with_reducible assumption | with_reducible refine Keeps.next ?_ | with_reducible apply checkOrder_keeps
    | with_reducible refine Keeps.ite ?_ ?_ | split

theorem execOrderSegmentRx_keeps {z : State} {seg : List Sys2Proof.Byte} {verdicts : List (Bool × Bool)} {s : State} (kz : Keeps z s) : KeepsNext z (execOrderSegmentRx seg verdicts s) := by
  unfold execOrderSegmentRx
  repeat' first
    | with_reducible assumption | with_reducible refine Keeps.next ?_ | with_reducible apply checkOrder_keeps
    | simp -zeta only [keeps_upd]
    | (extract_lets +onlyGivenNames v; refine Keeps.cut (z := z) v ?_ (fun hv => ?_); subst v; rotate_left; clear_value v)
    | (extract_lets +onlyGivenNames v; first | clear_value v | subst v) | with_reducible refine Keeps.ite ?_ ?_

theorem orderDone_keeps {z : State} {s : State} {o : ArmedOrder} (kz : Keeps z s) : Keeps z (orderDone s o) := by
  unfold orderDone
  repeat' first
    | with_reducible assumption | with_reducible apply mgtEvent_keeps | with_reducible apply bump64_keeps
    | with_reducible apply wf_keeps | simp -zeta only [keeps_upd]
    | (extract_lets +onlyGivenNames v; refine Keeps.cut (z := z) v ?_ (fun hv => ?_); subst v; rotate_left; clear_value v)
    | (extract_lets +onlyGivenNames v; clear_value v) | with_reducible refine Keeps.ite ?_ ?_

theorem setExpel_keeps {z : State} {s : State} {l : List ExpelEntry} (kz : Keeps z s) : Keeps z (setExpel s l) := by
  unfold setExpel
  repeat' first
    | with_reducible assumption | with_reducible apply wf_keeps | simp -zeta only [keeps_upd]

theorem discardScope_keeps {z : State} {s : State} {p : Nat} (kz : Keeps z s) : Keeps z (discardScope s p) := by
  unfold discardScope
  repeat' first
    | with_reducible assumption | with_reducible apply discardPkts_keeps | with_reducible apply leftSlice_keeps
    | with_reducible apply bump64_keeps | (with_reducible refine Keeps.foldlFst _ _ ?_ ?_; rotate_left; rintro ⟨_, _⟩ _ _)
    | with_reducible refine Keeps.foldl _ _ ?_ (fun _ _ _ => ?_) | simp -zeta only [keeps_upd]
    | (extract_lets +onlyGivenNames v; refine Keeps.cut (z := z) v ?_ (fun hv => ?_); subst v; rotate_left; first | clear_value v | subst v)
    | (extract_lets +onlyGivenNames v; subst v) | dsimp -zeta only

theorem stopMirrors_keeps {z : State} {s : State} {p : Nat} (kz : Keeps z s) : Keeps z (stopMirrors s p) := by
  unfold stopMirrors
  repeat' first
    | with_reducible assumption | with_reducible apply wf_keeps | with_reducible refine Keeps.foldl _ _ ?_ (fun _ _ _ => ?_)
    | (extract_lets +onlyGivenNames v; clear_value v) | with_reducible refine Keeps.ite ?_ ?_

theorem offQueue_keeps {z : State} {s : State} {fq : Nat} (kz : Keeps z s) : Keeps z (offQueue s fq) := by
  unfold offQueue
  repeat' first
    | with_reducible assumption | with_reducible apply setCqState_keeps | with_reducible refine Keeps.ite ?_ ?_

/-- Bytes of Oasis dropped. -/
theorem dropOasis_keeps {z s : State} {f : Nat × Byte → Bool} (h : Keeps z s) : Keeps z { s with oasis := s.oasis.filter f } :=
  Keeps.of h id (fun w => SMap.wf_filter _ _ _ w) rfl rfl rfl rfl rfl

theorem fenceScope_keeps {z s : State} {p : Nat} (h : Keeps z s) : Keeps z (fenceScope s p) := by
  rw [fenceScope]
  split
  · exact h
  · extract_lets index qs gs s1 s2 s3 s4 s5 s6
    have h1 : Keeps z s1 := Keeps.foldl _ _ (setFenceSt_keeps h) (fun _ _ k => abortQueue_keeps k)
    have h2 : Keeps z s2 := Keeps.foldl _ _ h1 (fun _ _ k => disableEngines_keeps k)
    have h3 : Keeps z s3 := Keeps.foldl _ _ (Keeps.foldl _ _ h2 (fun _ _ k => disablePort_keeps k)) (fun _ _ k => offQueue_keeps k)
    have h4 : Keeps z s4 := stopMirrors_keeps (discardScope_keeps h3)
    have h5 : Keeps z s5 := settle_keeps (dropOasis_keeps h4)
    have h6 : Keeps z s6 := showGroup_keeps (pumpAll_keeps (fnProgress_keeps h5))
    clear_value s6
    split
    · exact fenceSeq_keeps (wf_keeps h6)
    · exact fenceEnd_keeps h6

theorem expelSelf_keeps {z : State} {s : State} (kz : Keeps z s) : Keeps z (expelSelf s) := by
  unfold expelSelf
  repeat' first
    | with_reducible assumption | with_reducible apply fenceScope_keeps | with_reducible apply disablePort_keeps
    | with_reducible apply wf_keeps | with_reducible refine Keeps.foldl _ _ ?_ (fun _ _ _ => ?_)

theorem execExpel_keeps {z : State} {s : State} (kz : Keeps z s) : KeepsNext z (execExpel s) := by
  unfold execExpel
  repeat' first
    | with_reducible assumption | with_reducible refine Keeps.next ?_ | with_reducible apply setExpel_keeps
    | with_reducible apply expelSelf_keeps | with_reducible apply orderDone_keeps | with_reducible apply disablePort_keeps
    | with_reducible apply fnProgress_keeps | with_reducible apply settle_keeps
    | with_reducible refine Keeps.foldl _ _ ?_ (fun _ _ _ => ?_)
    | (extract_lets +onlyGivenNames v; first | clear_value v | subst v) | with_reducible refine Keeps.ite ?_ ?_ | split

theorem execUnexpel_keeps {z : State} {s : State} (kz : Keeps z s) : KeepsNext z (execUnexpel s) := by
  unfold execUnexpel
  repeat' first
    | with_reducible assumption | with_reducible refine Keeps.next ?_ | with_reducible apply setExpel_keeps
    | with_reducible apply orderDone_keeps | with_reducible apply wf_keeps
    | (extract_lets +onlyGivenNames v; first | clear_value v | subst v) | with_reducible refine Keeps.ite ?_ ?_ | split

theorem execFence_keeps {z : State} {s : State} (kz : Keeps z s) : KeepsNext z (execFence s) := by
  unfold execFence
  repeat' first
    | with_reducible assumption | with_reducible refine Keeps.next ?_ | with_reducible apply orderDone_keeps
    | with_reducible apply fenceScope_keeps | split

theorem execUnfence_keeps {z : State} {s : State} (kz : Keeps z s) : KeepsNext z (execUnfence s) := by
  unfold execUnfence
  repeat' first
    | with_reducible assumption | with_reducible refine Keeps.next ?_ | with_reducible apply orderDone_keeps
    | with_reducible apply unfenceStart_keeps | simp -zeta only [keeps_upd]
    | (extract_lets +onlyGivenNames v; first | clear_value v | subst v) | with_reducible refine Keeps.ite ?_ ?_ | split

theorem execPromote_keeps {z : State} {s : State} (kz : Keeps z s) : KeepsNext z (execPromote s) := by
  unfold execPromote
  repeat' first
    | with_reducible assumption | with_reducible refine Keeps.next ?_ | with_reducible apply orderDone_keeps
    | with_reducible apply tryHandshake_keeps | with_reducible apply settle_keeps | with_reducible apply wf_keeps
    | with_reducible refine Keeps.foldl _ _ ?_ (fun _ _ _ => ?_)
    | (extract_lets +onlyGivenNames v; refine Keeps.cut (z := z) v ?_ (fun hv => ?_); subst v; rotate_left; first | clear_value v | subst v)
    | (extract_lets +onlyGivenNames v; first | clear_value v | subst v) | split | dsimp -zeta only

theorem stateOf_keeps {z s : State} {o : Host.Outcome State Fault Refusal} (h : Keeps z s) (k : KeepsNext z o) : Keeps z (stateOf o s) := by
  cases o with
  | next t => exact k.out t rfl
  | fault f => exact h
  | refused f => exact h

theorem takeCopy_keeps {z : State} {s : State} {c : Sys2Proof.Cfh} {b : List Sys2Proof.Byte} (kz : Keeps z s) : Keeps z (takeCopy s c b) := by
  unfold takeCopy
  repeat' first
    | with_reducible assumption | with_reducible apply stateOf_keeps | with_reducible apply execRetract_keeps
    | with_reducible apply execRetractRequest_keeps | with_reducible apply execResend_keeps
    | with_reducible apply execContributionRx_keeps | with_reducible apply execPartialRx_keeps
    | with_reducible apply execResultRx_keeps | with_reducible apply execLaunch_keeps | with_reducible apply execReceipt_keeps
    | with_reducible apply execReady_keeps | with_reducible apply execCommit_keeps | with_reducible apply execAbortReq_keeps
    | with_reducible apply execCollAbort_keeps
    | (extract_lets +onlyGivenNames v; first | clear_value v | subst v) | with_reducible refine Keeps.ite ?_ ?_ | split

theorem execTwinShadowRx_keeps {z : State} {port : Fin 4096} {item : Sys2Proof.TwinItem} {s : State} (kz : Keeps z s) : KeepsNext z (execTwinShadowRx port item s) := by
  unfold execTwinShadowRx
  repeat' first
    | with_reducible assumption | with_reducible refine Keeps.next ?_ | with_reducible apply takeCopy_keeps
    | simp -zeta only [keeps_upd] | with_reducible refine Keeps.ite ?_ ?_ | split

end Sys2Proof.Machine
end

