-- ==== Sys2Proof/Laws/KeepsServo.lean ====
section
/-! SUPPORT. Every operation of Sys2Proof.Machine.Servo keeps what Keeps says. -/
namespace Sys2Proof.Machine

/-- Every action of a list keeps what Keeps says. -/
def TimedKeeps (l : List Timed) : Prop := ∀ x, x ∈ l → ∀ z t, Keeps z t → KeepsNext z (x.run t)

theorem timedFlips_keeps (s : State) : TimedKeeps (timedFlips s) := by
  intro x m
  obtain ⟨i, _, rfl⟩ := List.mem_map.mp m
  exact fun _ _ h => execEpochFlip_keeps h

theorem timedChanges_keeps (s : State) : TimedKeeps (timedChanges s) := by
  intro x m
  obtain ⟨i, _, rfl⟩ := List.mem_map.mp m
  exact fun _ _ h => execCrossConnectChange_keeps h

theorem timedSwaps_keeps (s : State) : TimedKeeps (timedSwaps s) := by
  intro x m
  obtain ⟨e, _, k⟩ := List.mem_filterMap.mp m
  obtain ⟨w, _, rfl⟩ := Option.map_eq_some_iff.mp k
  exact fun _ _ h => execSwapExecute_keeps h

theorem timedLists_keeps (s : State) : TimedKeeps (timedLists s) := by
  intro x m
  obtain ⟨e, _, k⟩ := List.mem_filterMap.mp m
  obtain ⟨w, _, rfl⟩ := Option.map_eq_some_iff.mp k
  exact fun _ _ h => execGateBaseReached_keeps h

theorem timedDeadlines_keeps (s : State) : TimedKeeps (timedDeadlines s) := by
  intro x m
  obtain ⟨e, _, k⟩ := List.mem_flatMap.mp m
  obtain ⟨c, _, k⟩ := List.mem_filterMap.mp k
  obtain ⟨w, _, rfl⟩ := Option.map_eq_some_iff.mp k
  exact fun _ _ h => execCommitDeadline_keeps h

theorem runTimed_keeps {z : State} {was : Nat} {l : List Timed} {e : State × Bool} (k : TimedKeeps l) (h : Keeps z e.1) :
    Keeps z (runTimed was l e).1 := by
  unfold runTimed
  induction l generalizing e with
  | nil => exact h
  | cons x l ih =>
    refine ih (fun y m => k y (List.mem_cons_of_mem _ m)) ?_
    dsimp only
    split
    · exact stateOf_keeps h (k x List.mem_cons_self _ _ h)
    · exact h

theorem runJumped_keeps {z s : State} {was : Nat} (h : Keeps z s) : Keeps z (runJumped was s).1 := by
  rw [runJumped]
  simp only [List.foldl_cons, List.foldl_nil]
  with_reducible refine runTimed_keeps (timedDeadlines_keeps _) (runTimed_keeps (timedLists_keeps _) (runTimed_keeps (timedSwaps_keeps _)
    (runTimed_keeps (timedChanges_keeps _) (runTimed_keeps (timedFlips_keeps _) h))))

theorem moveClock_keeps {z : State} {s : State} {theta : Int} (kz : Keeps z s) : Keeps z (moveClock s theta) := by
  unfold moveClock
  repeat' first
    | with_reducible assumption | simp -zeta only [keeps_upd]
    | (extract_lets +onlyGivenNames v; subst v)

theorem ppsAgain_keeps {z : State} {s : State} (kz : Keeps z s) : Keeps z (ppsAgain s) := by
  unfold ppsAgain
  repeat' first
    | with_reducible assumption | simp -zeta only [keeps_upd]

theorem stepClock_keeps {z : State} {s : State} {theta : Int} (kz : Keeps z s) : Keeps z (stepClock s theta) := by
  unfold stepClock
  repeat' first
    | with_reducible assumption | with_reducible apply ppsAgain_keeps | with_reducible apply moveClock_keeps
    | with_reducible apply runJumped_keeps | with_reducible apply startBound_keeps | with_reducible apply runEntries_keeps
    | with_reducible apply overrun_keeps | with_reducible apply mirrorEpochUp_keeps | with_reducible apply timEvent_keeps
    | with_reducible apply fsrStore_keeps | (with_reducible refine Keeps.foldlFst _ _ ?_ ?_; rotate_left; rintro ⟨_, _⟩ _ _)
    | with_reducible refine Keeps.foldl _ _ ?_ (fun _ _ _ => ?_)
    | (extract_lets +onlyGivenNames v; refine Keeps.cut (z := z) v ?_ (fun hv => ?_); subst v; rotate_left; first | clear_value v | subst v)
    | (extract_lets +onlyGivenNames v; refine Keeps.cut (z := z) v.1 ?_ (fun hv => ?_); subst v; rotate_left; first | clear_value v | subst v)
    | (extract_lets +onlyGivenNames v; first | clear_value v | subst v) | with_reducible refine Keeps.ite ?_ ?_ | split
    | dsimp -zeta only

theorem showOffset_keeps {z : State} {s : State} {theta : Int} (kz : Keeps z s) : Keeps z (showOffset s theta) := by
  unfold showOffset
  repeat' first
    | with_reducible assumption | with_reducible apply wn_keeps

theorem refuseSource_keeps {z : State} {s : State} {x : TimSource} {theta : Int} (kz : Keeps z s) : Keeps z (refuseSource s x theta) := by
  unfold refuseSource
  repeat' first
    | with_reducible assumption | with_reducible apply modSource_keeps | with_reducible apply showSource_keeps
    | with_reducible apply timEvent_keeps | with_reducible apply bump32_keeps | with_reducible apply wn64_keeps

theorem coast_keeps {z : State} {s : State} (kz : Keeps z s) : Keeps z (coast s) := by
  unfold coast
  repeat' first
    | with_reducible assumption | with_reducible apply setTimFine_keeps | with_reducible apply setTimSt_keeps
    | simp -zeta only [keeps_upd]
    | (extract_lets +onlyGivenNames v; refine Keeps.cut (z := z) v ?_ (fun hv => ?_); subst v; rotate_left; clear_value v)
    | (extract_lets +onlyGivenNames v; clear_value v) | with_reducible refine Keeps.ite ?_ ?_

theorem slewUpdate_keeps {z : State} {s : State} {theta : Int} (kz : Keeps z s) : Keeps z (slewUpdate s theta) := by
  unfold slewUpdate
  repeat' first
    | with_reducible assumption | with_reducible apply moveClock_keeps | with_reducible apply acceptSource_keeps
    | with_reducible apply setTimReady_keeps | with_reducible apply setTimSt_keeps | with_reducible apply setTimFine_keeps
    | with_reducible apply startBound_keeps | simp -zeta only [keeps_upd]
    | (extract_lets +onlyGivenNames v; refine Keeps.cut (z := z) v ?_ (fun hv => ?_); subst v; rotate_left; clear_value v)
    | (extract_lets +onlyGivenNames v; first | clear_value v | subst v) | with_reducible refine Keeps.ite ?_ ?_

theorem measure_keeps {z : State} {y0 : Nat} {y1 : Bool} {y2 : State} (kz : Keeps z y2) : Keeps z (measure y0 y1 y2) := by
  induction y0 generalizing y1 y2 with
  | zero =>
    unfold measure
    repeat' first
      | with_reducible assumption
  | succ n ih =>
    unfold measure
    repeat' first
      | with_reducible assumption | with_reducible apply ih | with_reducible apply showOffset_keeps | with_reducible apply stepClock_keeps
      | with_reducible apply refuseSource_keeps | with_reducible apply coast_keeps | with_reducible apply slewUpdate_keeps
      | with_reducible apply acceptSource_keeps | with_reducible apply setTimSt_keeps | with_reducible apply showSource_keeps
      | with_reducible apply modSource_keeps | with_reducible apply selectSource_keeps | simp -zeta only [keeps_upd]
      | (extract_lets +onlyGivenNames v; refine Keeps.cut (z := z) v ?_ (fun hv => ?_); subst v; rotate_left; clear_value v)
      | (extract_lets +onlyGivenNames v; first | clear_value v | subst v) | with_reducible refine Keeps.ite ?_ ?_ | split

theorem execServoUpdate_keeps {z : State} {moving : Bool} {s : State} (kz : Keeps z s) : KeepsNext z (execServoUpdate moving s) := by
  unfold execServoUpdate
  repeat' first
    | with_reducible assumption | with_reducible refine Keeps.next ?_ | with_reducible apply measure_keeps
    | with_reducible apply growBound_keeps | simp -zeta only [keeps_upd]
    | (extract_lets +onlyGivenNames v; refine Keeps.cut (z := z) v ?_ (fun hv => ?_); subst v; rotate_left; clear_value v)
    | (extract_lets +onlyGivenNames v; clear_value v) | with_reducible refine Keeps.ite ?_ ?_

end Sys2Proof.Machine
end

