-- ==== Sys2Proof/Laws/KeepsCommands.lean ====
section
/-! SUPPORT. Every operation of Sys2Proof.Machine.Commands keeps what Keeps says. -/
namespace Sys2Proof.Machine

theorem dispatchKernel_keeps {z : State} {s : State} {d : Nat} {q : Nat} {y : Slot} (kz : Keeps z s) : Keeps z (dispatchKernel s d q y) := by
  unfold dispatchKernel
  repeat' first
    | with_reducible assumption | with_reducible apply claim_keeps | with_reducible apply modSlot_keeps | simp -zeta only [keeps_upd]
    | (extract_lets +onlyGivenNames v; first | clear_value v | subst v) | with_reducible refine Keeps.ite ?_ ?_

theorem dispatchGroup_keeps {z : State} {s : State} {d : Nat} {q : Nat} {y : Slot} (kz : Keeps z s) : Keeps z (dispatchGroup s d q y) := by
  unfold dispatchGroup
  repeat' first
    | with_reducible assumption | with_reducible apply dispatchColl_keeps | with_reducible apply claim_keeps
    | with_reducible apply modSlot_keeps | simp -zeta only [keeps_upd]
    | (extract_lets +onlyGivenNames v; first | clear_value v | subst v) | with_reducible refine Keeps.ite ?_ ?_ | split

theorem execCommandDispatch_keeps {z : State} {d : Fin 8} {q : Fin 2048} {s : State} (kz : Keeps z s) : KeepsNext z (execCommandDispatch d q s) := by
  unfold execCommandDispatch
  repeat' first
    | with_reducible assumption | with_reducible refine Keeps.next ?_ | with_reducible apply dispatchKernel_keeps
    | with_reducible apply dispatchGroup_keeps | with_reducible apply claim_keeps | with_reducible apply modSlot_keeps
    | simp -zeta only [keeps_upd]
    | (extract_lets +onlyGivenNames v; first | clear_value v | subst v) | with_reducible refine Keeps.ite ?_ ?_ | split

theorem execWaitTimeout_keeps {z : State} {d : Fin 8} {q : Fin 2048} {s : State} (kz : Keeps z s) : KeepsNext z (execWaitTimeout d q s) := by
  unfold execWaitTimeout
  repeat' first
    | with_reducible assumption | with_reducible refine Keeps.next ?_ | with_reducible apply claim_keeps
    | with_reducible refine Keeps.ite ?_ ?_ | split

theorem execNop_keeps {z : State} {d : Fin 8} {q : Fin 2048} {s : State} (kz : Keeps z s) : KeepsNext z (execNop d q s) := by
  unfold execNop
  repeat' first
    | with_reducible assumption | with_reducible refine Keeps.next ?_ | with_reducible apply claim_keeps
    | with_reducible refine Keeps.ite ?_ ?_ | split

theorem abortTarget_keeps {z : State} {s : State} {d : Nat} {q : Nat} {y : Slot} (kz : Keeps z s) : Keeps z (abortTarget s d q y) := by
  unfold abortTarget
  repeat' first
    | with_reducible assumption | with_reducible apply failRun_keeps | with_reducible apply claim_keeps | simp -zeta only [keeps_upd]
    | (extract_lets +onlyGivenNames v; subst v) | with_reducible refine Keeps.ite ?_ ?_

theorem execAbort_keeps {z : State} {d : Fin 8} {q : Fin 2048} {s : State} (kz : Keeps z s) : KeepsNext z (execAbort d q s) := by
  unfold execAbort
  repeat' first
    | with_reducible assumption | with_reducible refine Keeps.next ?_ | with_reducible apply abortTarget_keeps
    | with_reducible apply abortRequest_keeps | with_reducible apply claim_keeps
    | (extract_lets +onlyGivenNames v; first | clear_value v | subst v) | with_reducible refine Keeps.ite ?_ ?_ | split

end Sys2Proof.Machine
end

