-- ==== Sys2Proof/Laws/KeepsBus.lean ====
section
/-! SUPPORT. Every operation of Sys2Proof.Machine.Bus keeps what Keeps says. -/
namespace Sys2Proof.Machine

theorem plainWrite_keeps {z : State} {s : State} {a : Nat} {v : Sys2Proof.Word} (kz : Keeps z s) : Keeps z (plainWrite s a v) := by
  unfold plainWrite
  repeat' first
    | with_reducible assumption | with_reducible apply heldWrite_keeps | with_reducible apply softWrite_keeps
    | with_reducible refine Keeps.ite ?_ ?_

theorem settleTime_keeps {z : State} {s : State} (kz : Keeps z s) : Keeps z (settleTime s) := by
  unfold settleTime
  repeat' first
    | with_reducible assumption | with_reducible apply sourceLost_keeps | with_reducible apply wf_keeps
    | with_reducible refine Keeps.foldl _ _ ?_ (fun _ _ _ => ?_) | simp -zeta only [keeps_upd]
    | (extract_lets +onlyGivenNames v; refine Keeps.cut (z := z) v ?_ (fun hv => ?_); subst v; rotate_left; clear_value v)
    | (extract_lets +onlyGivenNames v; clear_value v) | with_reducible refine Keeps.ite ?_ ?_

theorem mpWrite_keeps {z : State} {s : State} {m : Fin 2} {off : Nat} {v : Sys2Proof.Word} (kz : Keeps z s) : Keeps z (mpWrite s m off v) := by
  unfold mpWrite
  repeat' first
    | with_reducible assumption | with_reducible apply plainWrite_keeps | with_reducible apply stateOf_keeps
    | with_reducible apply execMgmtAddrWrite_keeps | with_reducible apply probeV6_keeps | with_reducible apply setMp_keeps
    | simp -zeta only [keeps_upd]
    | (extract_lets +onlyGivenNames v; refine Keeps.cut (z := z) v ?_ (fun hv => ?_); subst v; rotate_left; clear_value v)
    | (extract_lets +onlyGivenNames v; first | clear_value v | subst v) | with_reducible refine Keeps.ite ?_ ?_

theorem vectorWrite_keeps {z : State} {s : State} {a : Nat} {v : Sys2Proof.Word} (kz : Keeps z s) : Keeps z (vectorWrite s a v) := by
  unfold vectorWrite
  repeat' first
    | with_reducible assumption | with_reducible apply plainWrite_keeps | with_reducible apply signal_keeps
    | with_reducible apply setMapBit_keeps
    | (extract_lets +onlyGivenNames v; refine Keeps.cut (z := z) v ?_ (fun hv => ?_); subst v; rotate_left; first | clear_value v | subst v)
    | (extract_lets +onlyGivenNames v; first | clear_value v | subst v) | with_reducible refine Keeps.ite ?_ ?_ | split
    | dsimp -zeta only

theorem ergWrite_keeps {z : State} {s : State} {a : Nat} {v : Sys2Proof.Word} (kz : Keeps z s) : Keeps z (ergWrite s a v) := by
  unfold ergWrite
  repeat' first
    | with_reducible assumption | with_reducible apply plainWrite_keeps | with_reducible apply vectorWrite_keeps
    | with_reducible apply mpWrite_keeps | with_reducible apply settleTime_keeps | with_reducible apply stateOf_keeps
    | with_reducible apply execFnEnable_keeps | with_reducible apply execFnDisableImmediate_keeps
    | with_reducible apply execFnDisableDrain_keeps | with_reducible apply showGroup_keeps | with_reducible apply execAttest_keeps
    | with_reducible apply execDbgClose_keeps | with_reducible apply execTimAcquire_keeps | with_reducible apply execTimAccept_keeps
    | with_reducible apply execTimCapture_keeps | with_reducible apply execSiroccoAbort_keeps
    | with_reducible apply execSiroccoStart_keeps | with_reducible apply execSwapRequest_keeps
    | with_reducible apply execSoftwareColdReset_keeps | with_reducible apply execSoftwareWarmReset_keeps
    | with_reducible apply execImageReload_keeps | with_reducible apply execImageSeal_keeps
    | with_reducible apply execTrimUserWrite_keeps | with_reducible apply heldRefuse_keeps | with_reducible apply showTrim_keeps
    | with_reducible apply showLog_keeps | with_reducible apply showSeed_keeps | with_reducible apply settle_keeps
    | with_reducible apply fsrShow_keeps
    | (extract_lets +onlyGivenNames v; refine Keeps.cut (z := z) v ?_ (fun hv => ?_); subst v; rotate_left; first | clear_value v | subst v)
    | (extract_lets +onlyGivenNames v; subst v) | with_reducible refine Keeps.ite ?_ ?_ | split | dsimp -zeta only

theorem unitRegWrite_keeps {z : State} {s : State} {d : Fin 8} {u : Fin 64} {off : Nat} {a : Nat} {v : Sys2Proof.Word} (kz : Keeps z s) : Keeps z (unitRegWrite s d u off a v) := by
  unfold unitRegWrite
  repeat' first
    | with_reducible assumption | with_reducible intro _ | with_reducible apply plainWrite_keeps | with_reducible apply stateOf_keeps
    | with_reducible apply execChkUnitStart_keeps | with_reducible apply execChkUnitStop_keeps | with_reducible apply unitWrite_keeps
    | with_reducible refine Keeps.ite ?_ ?_ | split | simp only [id]

theorem queueWrite_keeps {z : State} {s : State} {d : Fin 8} {o : Nat} {a : Nat} {v : Sys2Proof.Word} (kz : Keeps z s) : Keeps z (queueWrite s d o a v) := by
  unfold queueWrite
  repeat' first
    | with_reducible assumption | with_reducible apply plainWrite_keeps | with_reducible apply stateOf_keeps
    | with_reducible apply execCqEnable_keeps | with_reducible apply execCqDisable_keeps | with_reducible apply execCnqEnable_keeps
    | with_reducible apply execCnqDisable_keeps | with_reducible apply execCnqHeadWrite_keeps | with_reducible apply execCnqFlush_keeps
    | with_reducible apply execEventCounterWrite_keeps | with_reducible apply softWrite_keeps
    | (extract_lets +onlyGivenNames v; subst v) | with_reducible refine Keeps.ite ?_ ?_

theorem budgetWrite_keeps {z : State} {s : State} {d : Nat} {p : Nat} {c : Nat} {a : Nat} {v : Sys2Proof.Word} (kz : Keeps z s) : Keeps z (budgetWrite s d p c a v) := by
  unfold budgetWrite
  repeat' first
    | with_reducible assumption | with_reducible apply plainWrite_keeps | with_reducible apply checkBudget_keeps
    | with_reducible apply showPools_keeps

theorem duneWrite_keeps {z : State} {s : State} {d : Fin 8} {a : Nat} {v : Sys2Proof.Word} (kz : Keeps z s) : Keeps z (duneWrite s d a v) := by
  unfold duneWrite
  repeat' first
    | with_reducible assumption | with_reducible apply budgetWrite_keeps | with_reducible apply plainWrite_keeps
    | with_reducible apply unitRegWrite_keeps | with_reducible apply queueWrite_keeps | with_reducible apply stateOf_keeps
    | with_reducible apply execQuarantineRelease_keeps | with_reducible apply execMarginStop_keeps
    | with_reducible apply execMarginStart_keeps | with_reducible apply execEngineEnable_keeps
    | with_reducible apply execEngineDisableImmediate_keeps | with_reducible apply execEngineDisableDrain_keeps
    | with_reducible apply execGateListDataWrite_keeps | with_reducible apply execGateListDisable_keeps
    | with_reducible apply execGateListCancel_keeps | with_reducible apply execGateListArm_keeps
    | with_reducible apply execShaperRateWrite_keeps | with_reducible apply execFlipCancel_keeps
    | with_reducible apply execFlipArm_keeps | with_reducible apply execRoutingTableData_keeps
    | with_reducible apply execFwdUpdateGo_keeps | with_reducible apply execPoolMaxWrite_keeps
    | with_reducible apply execPolicerEnable_keeps | with_reducible apply execMirrorSessionEnable_keeps
    | with_reducible apply spillMarks_keeps
    | (extract_lets +onlyGivenNames v; refine Keeps.cut (z := z) v ?_ (fun hv => ?_); subst v; rotate_left; first | clear_value v | subst v)
    | (extract_lets +onlyGivenNames v; subst v) | with_reducible refine Keeps.ite ?_ ?_ | split | dsimp -zeta only

theorem busWrite_keeps {z : State} {s : State} {addr : Nat} {v : Sys2Proof.Word} (kz : Keeps z s) : Keeps z (busWrite s addr v) := by
  unfold busWrite
  repeat' first
    | with_reducible assumption | with_reducible apply ergWrite_keeps | with_reducible apply duneWrite_keeps
    | with_reducible apply offlineAccess_keeps | with_reducible apply apertureBad_keeps
    | (extract_lets +onlyGivenNames v; refine Keeps.cut (z := z) v ?_ (fun hv => ?_); subst v; rotate_left; first | clear_value v | subst v)
    | (extract_lets +onlyGivenNames v; first | clear_value v | subst v) | with_reducible refine Keeps.ite ?_ ?_ | split
    | dsimp -zeta only

theorem execRegisterWrite_keeps {z : State} {a : BitVec 26} {v : Sys2Proof.Word} {s : State} (kz : Keeps z s) : KeepsNext z (execRegisterWrite a v s) := by
  unfold execRegisterWrite
  repeat' first
    | with_reducible assumption | with_reducible refine Keeps.next ?_ | with_reducible apply busWrite_keeps

theorem pgRead_keeps {z : State} {s : State} {d : Nat} {o : Nat} (kz : Keeps z s) : Keeps z (pgRead s d o) := by
  unfold pgRead
  repeat' first
    | with_reducible assumption | with_reducible apply showPg_keeps | with_reducible refine Keeps.ite ?_ ?_ | split

theorem busRead_keeps {z : State} {s : State} {addr : Nat} (kz : Keeps z s) : Keeps z (busRead s addr).1 := by
  unfold busRead
  repeat' first
    | with_reducible assumption | with_reducible apply pgRead_keeps | with_reducible apply stateOf_keeps
    | with_reducible apply execBrcFault2Read_keeps | with_reducible apply execGateListDataWrite_keeps
    | with_reducible apply execRoutingTableData_keeps | with_reducible apply execCounterLoRead_keeps
    | with_reducible apply offlineAccess_keeps | with_reducible apply execPwrPeakRead_keeps | with_reducible apply emit_keeps
    | with_reducible apply wn_keeps
    | (extract_lets +onlyGivenNames v; refine Keeps.cut (z := z) v ?_ (fun hv => ?_); subst v; rotate_left; first | clear_value v | subst v)
    | (extract_lets +onlyGivenNames v; subst v) | with_reducible refine Keeps.ite ?_ ?_ | split | dsimp -zeta only

theorem dropSession_keeps {z : State} {s : State} {x : Session} (kz : Keeps z s) : Keeps z (dropSession s x) := by
  unfold dropSession
  repeat' first
    | with_reducible assumption | simp -zeta only [keeps_upd]

theorem putSession_keeps {z : State} {s : State} {x : Session} (kz : Keeps z s) : Keeps z (putSession s x) := by
  unfold putSession
  repeat' first
    | with_reducible assumption | with_reducible apply dropSession_keeps | simp -zeta only [keeps_upd]
    | (extract_lets +onlyGivenNames v; refine Keeps.cut (z := z) v ?_ (fun hv => ?_); subst v; rotate_left; clear_value v)

theorem sessionSend_keeps {z : State} {s : State} {x : Session} {payload : List Sys2Proof.Byte} (kz : Keeps z s) : Keeps z (sessionSend s x payload) := by
  unfold sessionSend
  repeat' first
    | with_reducible assumption | with_reducible apply mpSend_keeps

theorem sessionMsg_keeps {z : State} {s : State} {x : Session} {typ : Nat} {reason : Nat} {body : List Sys2Proof.Byte} (kz : Keeps z s) : Keeps z (sessionMsg s x typ reason body) := by
  unfold sessionMsg
  repeat' first
    | with_reducible assumption | with_reducible apply sessionSend_keeps | with_reducible refine Keeps.foldl _ _ ?_ (fun _ _ _ => ?_)

theorem sessionRefuse_keeps {z : State} {s : State} {x : Session} {reason : Nat} (kz : Keeps z s) : Keeps z (sessionRefuse s x reason) := by
  unfold sessionRefuse
  repeat' first
    | with_reducible assumption | with_reducible apply dropSession_keeps | with_reducible apply sessionMsg_keeps

theorem sessionAccess_keeps {z : State} {s : State} {l : List (BitVec 26 × Option Sys2Proof.Word)} (kz : Keeps z s) : Keeps z (sessionAccess s l).1 := by
  unfold sessionAccess
  repeat' first
    | with_reducible assumption | with_reducible apply busWrite_keeps | with_reducible apply busRead_keeps
    | (with_reducible refine Keeps.foldlFst _ _ ?_ ?_; rotate_left; rintro ⟨_, _⟩ _ _)
    | with_reducible refine Keeps.foldl _ _ ?_ (fun _ _ _ => ?_) | split

theorem sessionFrame_keeps {z : State} {s : State} {x : Session} {epoch : Nat} {no : Nat} {next : Bool} {tagOk : Bool} {l : List (BitVec 26 × Option Sys2Proof.Word)} (kz : Keeps z s) : Keeps z (sessionFrame s x epoch no next tagOk l) := by
  unfold sessionFrame
  repeat' first
    | with_reducible assumption | with_reducible apply dropSession_keeps | with_reducible apply sessionAccess_keeps
    | with_reducible apply putSession_keeps | with_reducible apply sessionSend_keeps
    | (extract_lets +onlyGivenNames v; refine Keeps.cut (z := z) v.1 ?_ (fun hv => ?_); subst v; rotate_left; clear_value v)
    | (extract_lets +onlyGivenNames v; first | clear_value v | subst v) | with_reducible refine Keeps.ite ?_ ?_ | split

theorem execSessionDatagram_keeps {z : State} {p : Fin 2} {v6 : Bool} {ip : BitVec 128} {sport : BitVec 16} {g : Sys2Proof.SessionMsg} {s : State} (kz : Keeps z s) : KeepsNext z (execSessionDatagram p v6 ip sport g s) := by
  unfold execSessionDatagram
  repeat' first
    | with_reducible assumption | with_reducible refine Keeps.next ?_ | with_reducible apply sessionRefuse_keeps
    | with_reducible apply putSession_keeps | with_reducible apply sessionMsg_keeps | with_reducible apply dropSession_keeps
    | with_reducible apply sessionFrame_keeps | with_reducible apply tickFree_keeps | simp -zeta only [keeps_upd]
    | (extract_lets +onlyGivenNames v; refine Keeps.cut (z := z) v ?_ (fun hv => ?_); subst v; rotate_left; clear_value v)
    | (extract_lets +onlyGivenNames v; first | clear_value v | subst v) | with_reducible refine Keeps.ite ?_ ?_ | split
    | with_reducible refine Keeps.free ?_ kz.fresh

theorem execSessionIdleTimeout_keeps {z : State} {p : Fin 2} {v6 : Bool} {ip : BitVec 128} {sport : BitVec 16} {s : State} (kz : Keeps z s) : KeepsNext z (execSessionIdleTimeout p v6 ip sport s) := by
  unfold execSessionIdleTimeout
  repeat' first
    | with_reducible assumption | with_reducible refine Keeps.next ?_ | with_reducible apply dropSession_keeps
    | with_reducible refine Keeps.ite ?_ ?_ | split

end Sys2Proof.Machine
end

