-- ==== Sys2Proof/Laws/Memory.lean ====
section
/-! SUPPORT. The laws of the two memories: what is stored reads back, everything else stays, and the canonical form is kept. -/
namespace Sys2Proof.Machine

/-! ## Oasis -/

theorem oasisByte_oasisSet_same (s : State) (p off : Nat) (b : Byte) : oasisByte (oasisSet s p off b) p off = b :=
  SMap.get_put_same _ _ _ _

theorem oasisByte_oasisSet_ne (s : State) {p off q o : Nat} (b : Byte) (h : oasisAddr p off ≠ oasisAddr q o) :
    oasisByte (oasisSet s p off b) q o = oasisByte s q o := SMap.get_put_ne _ _ _ h

/-- A byte outside the stored ones reads as before. -/
theorem oasisByte_oasisWrite_ne (s : State) (p off : Nat) (bs : List Byte) {q o : Nat}
    (h : ∀ i < bs.length, oasisAddr q o ≠ oasisAddr p (off + i)) : oasisByte (oasisWrite s p off bs) q o = oasisByte s q o := by
  induction bs generalizing s off with
  | nil => rfl
  | cons b bs ih =>
    rw [oasisWrite, ih]
    · exact oasisByte_oasisSet_ne s b (h 0 (Nat.succ_pos _)).symm
    · intro i hi
      have := h (i + 1) (Nat.succ_lt_succ hi)
      rwa [show off + 1 + i = off + (i + 1) by omega]

/-- A stored byte reads back. -/
theorem oasisByte_oasisWrite_same (s : State) (p off : Nat) (bs : List Byte) {i : Nat} (h : i < bs.length) :
    some (oasisByte (oasisWrite s p off bs) p (off + i)) = bs[i]? := by
  induction bs generalizing s off i with
  | nil => cases h
  | cons b bs ih =>
    rw [oasisWrite]
    cases i with
    | zero =>
      rw [oasisByte_oasisWrite_ne]
      · simp [oasisByte_oasisSet_same]
      · intro i _ e
        simp only [oasisAddr] at e
        omega
    | succ i =>
      have := ih (oasisSet s p off b) (off + 1) (Nat.lt_of_succ_lt_succ h)
      rw [show off + 1 + i = off + (i + 1) by omega] at this
      simpa using this

/-- Storing in Oasis changes nothing but Oasis. -/
theorem oasisWrite_rest (s : State) (p off : Nat) (bs : List Byte) : { oasisWrite s p off bs with oasis := s.oasis } = s := by
  induction bs generalizing s off with
  | nil => rfl
  | cons b bs ih =>
    have := ih (oasisSet s p off b) (off + 1)
    rw [oasisWrite]
    have e : { oasisWrite (oasisSet s p off b) p (off + 1) bs with oasis := s.oasis }
        = { { oasisWrite (oasisSet s p off b) p (off + 1) bs with oasis := (oasisSet s p off b).oasis } with oasis := s.oasis } := rfl
    rw [e, this]
    rfl

/-- Storing in Oasis keeps its canonical form. -/
theorem oasisWrite_wf (s : State) (p off : Nat) (bs : List Byte) (w : SMap.wf memDefault s.oasis = true) :
    SMap.wf memDefault (oasisWrite s p off bs).oasis = true := by
  induction bs generalizing s off with
  | nil => exact w
  | cons b bs ih => exact ih _ _ (SMap.wf_put memDefault _ _ _ w)

/-! ## Host memory -/

/-- A byte of host memory outside the stored ones reads as before. -/
theorem hostMem_hostWrite_ne (s : State) (a : Nat) (bs : List Byte) {b : Nat} (h : ∀ i < bs.length, b ≠ (a + i) % 2 ^ 64) :
    SMap.get memDefault (hostWrite s a bs).hostMem b = SMap.get memDefault s.hostMem b := by
  induction bs generalizing s a with
  | nil => rfl
  | cons x bs ih =>
    rw [hostWrite, ih]
    · exact SMap.get_put_ne _ _ _ (h 0 (Nat.succ_pos _)).symm
    · intro i hi
      have := h (i + 1) (Nat.succ_lt_succ hi)
      rwa [show a + 1 + i = a + (i + 1) by omega]

/-- A stored byte of host memory reads back. -/
theorem hostMem_hostWrite_same (s : State) (a : Nat) (bs : List Byte) {i : Nat} (l : bs.length ≤ 2 ^ 64) (h : i < bs.length) :
    some (SMap.get memDefault (hostWrite s a bs).hostMem ((a + i) % 2 ^ 64)) = bs[i]? := by
  induction bs generalizing s a i with
  | nil => cases h
  | cons b bs ih =>
    rw [hostWrite]
    have l' : bs.length + 1 ≤ 2 ^ 64 := by simpa using l
    cases i with
    | zero =>
      rw [hostMem_hostWrite_ne]
      · simp [SMap.get_put_same]
      · intro i hi e
        omega
    | succ i =>
      have := ih { s with hostMem := SMap.put memDefault s.hostMem (a % 2 ^ 64) b } (a + 1) (by omega) (Nat.lt_of_succ_lt_succ h)
      rw [show a + 1 + i = a + (i + 1) by omega] at this
      simpa using this

/-- Storing in host memory changes nothing but host memory. -/
theorem hostWrite_rest (s : State) (a : Nat) (bs : List Byte) : { hostWrite s a bs with hostMem := s.hostMem } = s := by
  induction bs generalizing s a with
  | nil => rfl
  | cons b bs ih =>
    have := ih { s with hostMem := SMap.put memDefault s.hostMem (a % 2 ^ 64) b } (a + 1)
    rw [hostWrite]
    have e : { hostWrite { s with hostMem := SMap.put memDefault s.hostMem (a % 2 ^ 64) b } (a + 1) bs with hostMem := s.hostMem }
        = { { hostWrite { s with hostMem := SMap.put memDefault s.hostMem (a % 2 ^ 64) b } (a + 1) bs with
              hostMem := SMap.put memDefault s.hostMem (a % 2 ^ 64) b } with hostMem := s.hostMem } := rfl
    rw [e, this]

/-- Storing in host memory keeps its canonical form. -/
theorem hostWrite_wf (s : State) (a : Nat) (bs : List Byte) (w : SMap.wf memDefault s.hostMem = true) :
    SMap.wf memDefault (hostWrite s a bs).hostMem = true := by
  induction bs generalizing s a with
  | nil => exact w
  | cons b bs ih => exact ih _ _ (SMap.wf_put memDefault _ _ _ w)

end Sys2Proof.Machine
end

