-- ==== Sys2Proof/Laws/Microcode.lean ====
section
/-! SUPPORT. What the issue of a microcode instruction does. -/
namespace Sys2Proof.Machine

/-- Where an engine issues, an instruction has its effect on the issuing task. -/
theorem issue_of_issues {s : State} {g w : Nat} {sl : Bool} {c : TaskCtx} {i : TaskInfo} (h : Issues s g w sl c i)
    (f : TaskInfo → TaskCtx → UStep) : issue s g w f = issued s g sl c (f i c) := by
  obtain ⟨h0, h1, h2, h3, h4, h5, h6⟩ := h
  simp only [issue, h0, h1, h2, h3, h4, h5, h6, if_true, Bool.false_eq_true, if_false, Bool.not_true, Bool.or_self]

/-- An instruction after which the task goes on. -/
theorem issue_goes {s : State} {g w : Nat} {sl : Bool} {c c' : TaskCtx} {i : TaskInfo} (h : Issues s g w sl c i)
    {f : TaskInfo → TaskCtx → UStep} (e : f i c = .go c') : issue s g w f = goesOn s g sl c' := by
  rw [issue_of_issues h, e]
  rfl

/-- An instruction that meets a run-time fault (R230). -/
theorem issue_faults {s : State} {g w : Nat} {sl : Bool} {c : TaskCtx} {i : TaskInfo} {code sub : Nat} (h : Issues s g w sl c i)
    {f : TaskInfo → TaskCtx → UStep} (e : f i c = .fault code sub) : issue s g w f = faultTask s g sl c code sub := by
  rw [issue_of_issues h, e]
  rfl

end Sys2Proof.Machine
end

