-- ==== Sys2Proof/Laws/State.lean ====
section
/-! SUPPORT. What each operation over registers, memory and output leaves of the fields of the state: one lemma per field. -/
namespace Sys2Proof.Machine

@[simp] theorem wr_oasis (s : State) (a : Nat) (v : Word) : (wr s a v).oasis = s.oasis := rfl
@[simp] theorem wr_hostMem (s : State) (a : Nat) (v : Word) : (wr s a v).hostMem = s.hostMem := rfl
@[simp] theorem wr_clock (s : State) (a : Nat) (v : Word) : (wr s a v).clock = s.clock := rfl
@[simp] theorem wr_free (s : State) (a : Nat) (v : Word) : (wr s a v).free = s.free := rfl
@[simp] theorem wr_plat (s : State) (a : Nat) (v : Word) : (wr s a v).plat = s.plat := rfl
@[simp] theorem wr_otp (s : State) (a : Nat) (v : Word) : (wr s a v).otp = s.otp := rfl
@[simp] theorem wr_pins (s : State) (a : Nat) (v : Word) : (wr s a v).pins = s.pins := rfl
@[simp] theorem wr_img (s : State) (a : Nat) (v : Word) : (wr s a v).img = s.img := rfl
@[simp] theorem wr_rot (s : State) (a : Nat) (v : Word) : (wr s a v).rot = s.rot := rfl
@[simp] theorem wr_hif (s : State) (a : Nat) (v : Word) : (wr s a v).hif = s.hif := rfl
@[simp] theorem wr_swc (s : State) (a : Nat) (v : Word) : (wr s a v).swc = s.swc := rfl
@[simp] theorem wr_fwd (s : State) (a : Nat) (v : Word) : (wr s a v).fwd = s.fwd := rfl
@[simp] theorem wr_rte (s : State) (a : Nat) (v : Word) : (wr s a v).rte = s.rte := rfl
@[simp] theorem wr_tim (s : State) (a : Nat) (v : Word) : (wr s a v).tim = s.tim := rfl
@[simp] theorem wr_sch (s : State) (a : Nat) (v : Word) : (wr s a v).sch = s.sch := rfl
@[simp] theorem wr_sec (s : State) (a : Nat) (v : Word) : (wr s a v).sec = s.sec := rfl
@[simp] theorem wr_brc (s : State) (a : Nat) (v : Word) : (wr s a v).brc = s.brc := rfl
@[simp] theorem wr_col (s : State) (a : Nat) (v : Word) : (wr s a v).col = s.col := rfl
@[simp] theorem wr_opt (s : State) (a : Nat) (v : Word) : (wr s a v).opt = s.opt := rfl
@[simp] theorem wr_chk (s : State) (a : Nat) (v : Word) : (wr s a v).chk = s.chk := rfl
@[simp] theorem wr_mgt (s : State) (a : Nat) (v : Word) : (wr s a v).mgt = s.mgt := rfl
@[simp] theorem wr_outbox (s : State) (a : Nat) (v : Word) : (wr s a v).outbox = s.outbox := rfl
@[simp] theorem wr_pending (s : State) (a : Nat) (v : Word) : (wr s a v).pending = s.pending := rfl

@[simp] theorem wf_oasis (s : State) (a : Nat) (f : BitRange) (n : Nat) : (wf s a f n).oasis = s.oasis := rfl
@[simp] theorem wf_hostMem (s : State) (a : Nat) (f : BitRange) (n : Nat) : (wf s a f n).hostMem = s.hostMem := rfl
@[simp] theorem wf_clock (s : State) (a : Nat) (f : BitRange) (n : Nat) : (wf s a f n).clock = s.clock := rfl
@[simp] theorem wf_free (s : State) (a : Nat) (f : BitRange) (n : Nat) : (wf s a f n).free = s.free := rfl
@[simp] theorem wf_plat (s : State) (a : Nat) (f : BitRange) (n : Nat) : (wf s a f n).plat = s.plat := rfl
@[simp] theorem wf_otp (s : State) (a : Nat) (f : BitRange) (n : Nat) : (wf s a f n).otp = s.otp := rfl
@[simp] theorem wf_pins (s : State) (a : Nat) (f : BitRange) (n : Nat) : (wf s a f n).pins = s.pins := rfl
@[simp] theorem wf_img (s : State) (a : Nat) (f : BitRange) (n : Nat) : (wf s a f n).img = s.img := rfl
@[simp] theorem wf_rot (s : State) (a : Nat) (f : BitRange) (n : Nat) : (wf s a f n).rot = s.rot := rfl
@[simp] theorem wf_hif (s : State) (a : Nat) (f : BitRange) (n : Nat) : (wf s a f n).hif = s.hif := rfl
@[simp] theorem wf_swc (s : State) (a : Nat) (f : BitRange) (n : Nat) : (wf s a f n).swc = s.swc := rfl
@[simp] theorem wf_fwd (s : State) (a : Nat) (f : BitRange) (n : Nat) : (wf s a f n).fwd = s.fwd := rfl
@[simp] theorem wf_rte (s : State) (a : Nat) (f : BitRange) (n : Nat) : (wf s a f n).rte = s.rte := rfl
@[simp] theorem wf_tim (s : State) (a : Nat) (f : BitRange) (n : Nat) : (wf s a f n).tim = s.tim := rfl
@[simp] theorem wf_sch (s : State) (a : Nat) (f : BitRange) (n : Nat) : (wf s a f n).sch = s.sch := rfl
@[simp] theorem wf_sec (s : State) (a : Nat) (f : BitRange) (n : Nat) : (wf s a f n).sec = s.sec := rfl
@[simp] theorem wf_brc (s : State) (a : Nat) (f : BitRange) (n : Nat) : (wf s a f n).brc = s.brc := rfl
@[simp] theorem wf_col (s : State) (a : Nat) (f : BitRange) (n : Nat) : (wf s a f n).col = s.col := rfl
@[simp] theorem wf_opt (s : State) (a : Nat) (f : BitRange) (n : Nat) : (wf s a f n).opt = s.opt := rfl
@[simp] theorem wf_chk (s : State) (a : Nat) (f : BitRange) (n : Nat) : (wf s a f n).chk = s.chk := rfl
@[simp] theorem wf_mgt (s : State) (a : Nat) (f : BitRange) (n : Nat) : (wf s a f n).mgt = s.mgt := rfl
@[simp] theorem wf_outbox (s : State) (a : Nat) (f : BitRange) (n : Nat) : (wf s a f n).outbox = s.outbox := rfl
@[simp] theorem wf_pending (s : State) (a : Nat) (f : BitRange) (n : Nat) : (wf s a f n).pending = s.pending := rfl

@[simp] theorem wn_oasis (s : State) (a n : Nat) : (wn s a n).oasis = s.oasis := rfl
@[simp] theorem wn_hostMem (s : State) (a n : Nat) : (wn s a n).hostMem = s.hostMem := rfl
@[simp] theorem wn_clock (s : State) (a n : Nat) : (wn s a n).clock = s.clock := rfl
@[simp] theorem wn_free (s : State) (a n : Nat) : (wn s a n).free = s.free := rfl
@[simp] theorem wn_plat (s : State) (a n : Nat) : (wn s a n).plat = s.plat := rfl
@[simp] theorem wn_otp (s : State) (a n : Nat) : (wn s a n).otp = s.otp := rfl
@[simp] theorem wn_pins (s : State) (a n : Nat) : (wn s a n).pins = s.pins := rfl
@[simp] theorem wn_img (s : State) (a n : Nat) : (wn s a n).img = s.img := rfl
@[simp] theorem wn_rot (s : State) (a n : Nat) : (wn s a n).rot = s.rot := rfl
@[simp] theorem wn_hif (s : State) (a n : Nat) : (wn s a n).hif = s.hif := rfl
@[simp] theorem wn_swc (s : State) (a n : Nat) : (wn s a n).swc = s.swc := rfl
@[simp] theorem wn_fwd (s : State) (a n : Nat) : (wn s a n).fwd = s.fwd := rfl
@[simp] theorem wn_rte (s : State) (a n : Nat) : (wn s a n).rte = s.rte := rfl
@[simp] theorem wn_tim (s : State) (a n : Nat) : (wn s a n).tim = s.tim := rfl
@[simp] theorem wn_sch (s : State) (a n : Nat) : (wn s a n).sch = s.sch := rfl
@[simp] theorem wn_sec (s : State) (a n : Nat) : (wn s a n).sec = s.sec := rfl
@[simp] theorem wn_brc (s : State) (a n : Nat) : (wn s a n).brc = s.brc := rfl
@[simp] theorem wn_col (s : State) (a n : Nat) : (wn s a n).col = s.col := rfl
@[simp] theorem wn_opt (s : State) (a n : Nat) : (wn s a n).opt = s.opt := rfl
@[simp] theorem wn_chk (s : State) (a n : Nat) : (wn s a n).chk = s.chk := rfl
@[simp] theorem wn_mgt (s : State) (a n : Nat) : (wn s a n).mgt = s.mgt := rfl
@[simp] theorem wn_outbox (s : State) (a n : Nat) : (wn s a n).outbox = s.outbox := rfl
@[simp] theorem wn_pending (s : State) (a n : Nat) : (wn s a n).pending = s.pending := rfl

@[simp] theorem wn64_oasis (s : State) (a n : Nat) : (wn64 s a n).oasis = s.oasis := rfl
@[simp] theorem wn64_hostMem (s : State) (a n : Nat) : (wn64 s a n).hostMem = s.hostMem := rfl
@[simp] theorem wn64_clock (s : State) (a n : Nat) : (wn64 s a n).clock = s.clock := rfl
@[simp] theorem wn64_free (s : State) (a n : Nat) : (wn64 s a n).free = s.free := rfl
@[simp] theorem wn64_plat (s : State) (a n : Nat) : (wn64 s a n).plat = s.plat := rfl
@[simp] theorem wn64_otp (s : State) (a n : Nat) : (wn64 s a n).otp = s.otp := rfl
@[simp] theorem wn64_pins (s : State) (a n : Nat) : (wn64 s a n).pins = s.pins := rfl
@[simp] theorem wn64_img (s : State) (a n : Nat) : (wn64 s a n).img = s.img := rfl
@[simp] theorem wn64_rot (s : State) (a n : Nat) : (wn64 s a n).rot = s.rot := rfl
@[simp] theorem wn64_hif (s : State) (a n : Nat) : (wn64 s a n).hif = s.hif := rfl
@[simp] theorem wn64_swc (s : State) (a n : Nat) : (wn64 s a n).swc = s.swc := rfl
@[simp] theorem wn64_fwd (s : State) (a n : Nat) : (wn64 s a n).fwd = s.fwd := rfl
@[simp] theorem wn64_rte (s : State) (a n : Nat) : (wn64 s a n).rte = s.rte := rfl
@[simp] theorem wn64_tim (s : State) (a n : Nat) : (wn64 s a n).tim = s.tim := rfl
@[simp] theorem wn64_sch (s : State) (a n : Nat) : (wn64 s a n).sch = s.sch := rfl
@[simp] theorem wn64_sec (s : State) (a n : Nat) : (wn64 s a n).sec = s.sec := rfl
@[simp] theorem wn64_brc (s : State) (a n : Nat) : (wn64 s a n).brc = s.brc := rfl
@[simp] theorem wn64_col (s : State) (a n : Nat) : (wn64 s a n).col = s.col := rfl
@[simp] theorem wn64_opt (s : State) (a n : Nat) : (wn64 s a n).opt = s.opt := rfl
@[simp] theorem wn64_chk (s : State) (a n : Nat) : (wn64 s a n).chk = s.chk := rfl
@[simp] theorem wn64_mgt (s : State) (a n : Nat) : (wn64 s a n).mgt = s.mgt := rfl
@[simp] theorem wn64_outbox (s : State) (a n : Nat) : (wn64 s a n).outbox = s.outbox := rfl
@[simp] theorem wn64_pending (s : State) (a n : Nat) : (wn64 s a n).pending = s.pending := rfl

@[simp] theorem wnHL_oasis (s : State) (a n : Nat) : (wnHL s a n).oasis = s.oasis := rfl
@[simp] theorem wnHL_hostMem (s : State) (a n : Nat) : (wnHL s a n).hostMem = s.hostMem := rfl
@[simp] theorem wnHL_clock (s : State) (a n : Nat) : (wnHL s a n).clock = s.clock := rfl
@[simp] theorem wnHL_free (s : State) (a n : Nat) : (wnHL s a n).free = s.free := rfl
@[simp] theorem wnHL_plat (s : State) (a n : Nat) : (wnHL s a n).plat = s.plat := rfl
@[simp] theorem wnHL_otp (s : State) (a n : Nat) : (wnHL s a n).otp = s.otp := rfl
@[simp] theorem wnHL_pins (s : State) (a n : Nat) : (wnHL s a n).pins = s.pins := rfl
@[simp] theorem wnHL_img (s : State) (a n : Nat) : (wnHL s a n).img = s.img := rfl
@[simp] theorem wnHL_rot (s : State) (a n : Nat) : (wnHL s a n).rot = s.rot := rfl
@[simp] theorem wnHL_hif (s : State) (a n : Nat) : (wnHL s a n).hif = s.hif := rfl
@[simp] theorem wnHL_swc (s : State) (a n : Nat) : (wnHL s a n).swc = s.swc := rfl
@[simp] theorem wnHL_fwd (s : State) (a n : Nat) : (wnHL s a n).fwd = s.fwd := rfl
@[simp] theorem wnHL_rte (s : State) (a n : Nat) : (wnHL s a n).rte = s.rte := rfl
@[simp] theorem wnHL_tim (s : State) (a n : Nat) : (wnHL s a n).tim = s.tim := rfl
@[simp] theorem wnHL_sch (s : State) (a n : Nat) : (wnHL s a n).sch = s.sch := rfl
@[simp] theorem wnHL_sec (s : State) (a n : Nat) : (wnHL s a n).sec = s.sec := rfl
@[simp] theorem wnHL_brc (s : State) (a n : Nat) : (wnHL s a n).brc = s.brc := rfl
@[simp] theorem wnHL_col (s : State) (a n : Nat) : (wnHL s a n).col = s.col := rfl
@[simp] theorem wnHL_opt (s : State) (a n : Nat) : (wnHL s a n).opt = s.opt := rfl
@[simp] theorem wnHL_chk (s : State) (a n : Nat) : (wnHL s a n).chk = s.chk := rfl
@[simp] theorem wnHL_mgt (s : State) (a n : Nat) : (wnHL s a n).mgt = s.mgt := rfl
@[simp] theorem wnHL_outbox (s : State) (a n : Nat) : (wnHL s a n).outbox = s.outbox := rfl
@[simp] theorem wnHL_pending (s : State) (a n : Nat) : (wnHL s a n).pending = s.pending := rfl

@[simp] theorem bump64_oasis (s : State) (a n : Nat) : (bump64 s a n).oasis = s.oasis := rfl
@[simp] theorem bump64_hostMem (s : State) (a n : Nat) : (bump64 s a n).hostMem = s.hostMem := rfl
@[simp] theorem bump64_clock (s : State) (a n : Nat) : (bump64 s a n).clock = s.clock := rfl
@[simp] theorem bump64_free (s : State) (a n : Nat) : (bump64 s a n).free = s.free := rfl
@[simp] theorem bump64_plat (s : State) (a n : Nat) : (bump64 s a n).plat = s.plat := rfl
@[simp] theorem bump64_otp (s : State) (a n : Nat) : (bump64 s a n).otp = s.otp := rfl
@[simp] theorem bump64_pins (s : State) (a n : Nat) : (bump64 s a n).pins = s.pins := rfl
@[simp] theorem bump64_img (s : State) (a n : Nat) : (bump64 s a n).img = s.img := rfl
@[simp] theorem bump64_rot (s : State) (a n : Nat) : (bump64 s a n).rot = s.rot := rfl
@[simp] theorem bump64_hif (s : State) (a n : Nat) : (bump64 s a n).hif = s.hif := rfl
@[simp] theorem bump64_swc (s : State) (a n : Nat) : (bump64 s a n).swc = s.swc := rfl
@[simp] theorem bump64_fwd (s : State) (a n : Nat) : (bump64 s a n).fwd = s.fwd := rfl
@[simp] theorem bump64_rte (s : State) (a n : Nat) : (bump64 s a n).rte = s.rte := rfl
@[simp] theorem bump64_tim (s : State) (a n : Nat) : (bump64 s a n).tim = s.tim := rfl
@[simp] theorem bump64_sch (s : State) (a n : Nat) : (bump64 s a n).sch = s.sch := rfl
@[simp] theorem bump64_sec (s : State) (a n : Nat) : (bump64 s a n).sec = s.sec := rfl
@[simp] theorem bump64_brc (s : State) (a n : Nat) : (bump64 s a n).brc = s.brc := rfl
@[simp] theorem bump64_col (s : State) (a n : Nat) : (bump64 s a n).col = s.col := rfl
@[simp] theorem bump64_opt (s : State) (a n : Nat) : (bump64 s a n).opt = s.opt := rfl
@[simp] theorem bump64_chk (s : State) (a n : Nat) : (bump64 s a n).chk = s.chk := rfl
@[simp] theorem bump64_mgt (s : State) (a n : Nat) : (bump64 s a n).mgt = s.mgt := rfl
@[simp] theorem bump64_outbox (s : State) (a n : Nat) : (bump64 s a n).outbox = s.outbox := rfl
@[simp] theorem bump64_pending (s : State) (a n : Nat) : (bump64 s a n).pending = s.pending := rfl

@[simp] theorem bump32_oasis (s : State) (a n : Nat) : (bump32 s a n).oasis = s.oasis := rfl
@[simp] theorem bump32_hostMem (s : State) (a n : Nat) : (bump32 s a n).hostMem = s.hostMem := rfl
@[simp] theorem bump32_clock (s : State) (a n : Nat) : (bump32 s a n).clock = s.clock := rfl
@[simp] theorem bump32_free (s : State) (a n : Nat) : (bump32 s a n).free = s.free := rfl
@[simp] theorem bump32_plat (s : State) (a n : Nat) : (bump32 s a n).plat = s.plat := rfl
@[simp] theorem bump32_otp (s : State) (a n : Nat) : (bump32 s a n).otp = s.otp := rfl
@[simp] theorem bump32_pins (s : State) (a n : Nat) : (bump32 s a n).pins = s.pins := rfl
@[simp] theorem bump32_img (s : State) (a n : Nat) : (bump32 s a n).img = s.img := rfl
@[simp] theorem bump32_rot (s : State) (a n : Nat) : (bump32 s a n).rot = s.rot := rfl
@[simp] theorem bump32_hif (s : State) (a n : Nat) : (bump32 s a n).hif = s.hif := rfl
@[simp] theorem bump32_swc (s : State) (a n : Nat) : (bump32 s a n).swc = s.swc := rfl
@[simp] theorem bump32_fwd (s : State) (a n : Nat) : (bump32 s a n).fwd = s.fwd := rfl
@[simp] theorem bump32_rte (s : State) (a n : Nat) : (bump32 s a n).rte = s.rte := rfl
@[simp] theorem bump32_tim (s : State) (a n : Nat) : (bump32 s a n).tim = s.tim := rfl
@[simp] theorem bump32_sch (s : State) (a n : Nat) : (bump32 s a n).sch = s.sch := rfl
@[simp] theorem bump32_sec (s : State) (a n : Nat) : (bump32 s a n).sec = s.sec := rfl
@[simp] theorem bump32_brc (s : State) (a n : Nat) : (bump32 s a n).brc = s.brc := rfl
@[simp] theorem bump32_col (s : State) (a n : Nat) : (bump32 s a n).col = s.col := rfl
@[simp] theorem bump32_opt (s : State) (a n : Nat) : (bump32 s a n).opt = s.opt := rfl
@[simp] theorem bump32_chk (s : State) (a n : Nat) : (bump32 s a n).chk = s.chk := rfl
@[simp] theorem bump32_mgt (s : State) (a n : Nat) : (bump32 s a n).mgt = s.mgt := rfl
@[simp] theorem bump32_outbox (s : State) (a n : Nat) : (bump32 s a n).outbox = s.outbox := rfl
@[simp] theorem bump32_pending (s : State) (a n : Nat) : (bump32 s a n).pending = s.pending := rfl

@[simp] theorem setMapBit_oasis (s : State) (a n : Nat) (b : Bool) : (setMapBit s a n b).oasis = s.oasis := rfl
@[simp] theorem setMapBit_hostMem (s : State) (a n : Nat) (b : Bool) : (setMapBit s a n b).hostMem = s.hostMem := rfl
@[simp] theorem setMapBit_clock (s : State) (a n : Nat) (b : Bool) : (setMapBit s a n b).clock = s.clock := rfl
@[simp] theorem setMapBit_free (s : State) (a n : Nat) (b : Bool) : (setMapBit s a n b).free = s.free := rfl
@[simp] theorem setMapBit_plat (s : State) (a n : Nat) (b : Bool) : (setMapBit s a n b).plat = s.plat := rfl
@[simp] theorem setMapBit_otp (s : State) (a n : Nat) (b : Bool) : (setMapBit s a n b).otp = s.otp := rfl
@[simp] theorem setMapBit_pins (s : State) (a n : Nat) (b : Bool) : (setMapBit s a n b).pins = s.pins := rfl
@[simp] theorem setMapBit_img (s : State) (a n : Nat) (b : Bool) : (setMapBit s a n b).img = s.img := rfl
@[simp] theorem setMapBit_rot (s : State) (a n : Nat) (b : Bool) : (setMapBit s a n b).rot = s.rot := rfl
@[simp] theorem setMapBit_hif (s : State) (a n : Nat) (b : Bool) : (setMapBit s a n b).hif = s.hif := rfl
@[simp] theorem setMapBit_swc (s : State) (a n : Nat) (b : Bool) : (setMapBit s a n b).swc = s.swc := rfl
@[simp] theorem setMapBit_fwd (s : State) (a n : Nat) (b : Bool) : (setMapBit s a n b).fwd = s.fwd := rfl
@[simp] theorem setMapBit_rte (s : State) (a n : Nat) (b : Bool) : (setMapBit s a n b).rte = s.rte := rfl
@[simp] theorem setMapBit_tim (s : State) (a n : Nat) (b : Bool) : (setMapBit s a n b).tim = s.tim := rfl
@[simp] theorem setMapBit_sch (s : State) (a n : Nat) (b : Bool) : (setMapBit s a n b).sch = s.sch := rfl
@[simp] theorem setMapBit_sec (s : State) (a n : Nat) (b : Bool) : (setMapBit s a n b).sec = s.sec := rfl
@[simp] theorem setMapBit_brc (s : State) (a n : Nat) (b : Bool) : (setMapBit s a n b).brc = s.brc := rfl
@[simp] theorem setMapBit_col (s : State) (a n : Nat) (b : Bool) : (setMapBit s a n b).col = s.col := rfl
@[simp] theorem setMapBit_opt (s : State) (a n : Nat) (b : Bool) : (setMapBit s a n b).opt = s.opt := rfl
@[simp] theorem setMapBit_chk (s : State) (a n : Nat) (b : Bool) : (setMapBit s a n b).chk = s.chk := rfl
@[simp] theorem setMapBit_mgt (s : State) (a n : Nat) (b : Bool) : (setMapBit s a n b).mgt = s.mgt := rfl
@[simp] theorem setMapBit_outbox (s : State) (a n : Nat) (b : Bool) : (setMapBit s a n b).outbox = s.outbox := rfl
@[simp] theorem setMapBit_pending (s : State) (a n : Nat) (b : Bool) : (setMapBit s a n b).pending = s.pending := rfl

@[simp] theorem tickFree_regs (s : State) : (tickFree s).regs = s.regs := rfl
@[simp] theorem tickFree_oasis (s : State) : (tickFree s).oasis = s.oasis := rfl
@[simp] theorem tickFree_hostMem (s : State) : (tickFree s).hostMem = s.hostMem := rfl
@[simp] theorem tickFree_clock (s : State) : (tickFree s).clock = s.clock := rfl
@[simp] theorem tickFree_plat (s : State) : (tickFree s).plat = s.plat := rfl
@[simp] theorem tickFree_otp (s : State) : (tickFree s).otp = s.otp := rfl
@[simp] theorem tickFree_pins (s : State) : (tickFree s).pins = s.pins := rfl
@[simp] theorem tickFree_img (s : State) : (tickFree s).img = s.img := rfl
@[simp] theorem tickFree_rot (s : State) : (tickFree s).rot = s.rot := rfl
@[simp] theorem tickFree_hif (s : State) : (tickFree s).hif = s.hif := rfl
@[simp] theorem tickFree_swc (s : State) : (tickFree s).swc = s.swc := rfl
@[simp] theorem tickFree_fwd (s : State) : (tickFree s).fwd = s.fwd := rfl
@[simp] theorem tickFree_rte (s : State) : (tickFree s).rte = s.rte := rfl
@[simp] theorem tickFree_tim (s : State) : (tickFree s).tim = s.tim := rfl
@[simp] theorem tickFree_sch (s : State) : (tickFree s).sch = s.sch := rfl
@[simp] theorem tickFree_sec (s : State) : (tickFree s).sec = s.sec := rfl
@[simp] theorem tickFree_brc (s : State) : (tickFree s).brc = s.brc := rfl
@[simp] theorem tickFree_col (s : State) : (tickFree s).col = s.col := rfl
@[simp] theorem tickFree_opt (s : State) : (tickFree s).opt = s.opt := rfl
@[simp] theorem tickFree_chk (s : State) : (tickFree s).chk = s.chk := rfl
@[simp] theorem tickFree_mgt (s : State) : (tickFree s).mgt = s.mgt := rfl
@[simp] theorem tickFree_outbox (s : State) : (tickFree s).outbox = s.outbox := rfl
@[simp] theorem tickFree_pending (s : State) : (tickFree s).pending = s.pending := rfl

@[simp] theorem emit_regs (s : State) (o : Out) : (emit s o).regs = s.regs := rfl
@[simp] theorem emit_oasis (s : State) (o : Out) : (emit s o).oasis = s.oasis := rfl
@[simp] theorem emit_hostMem (s : State) (o : Out) : (emit s o).hostMem = s.hostMem := rfl
@[simp] theorem emit_clock (s : State) (o : Out) : (emit s o).clock = s.clock := rfl
@[simp] theorem emit_free (s : State) (o : Out) : (emit s o).free = s.free := rfl
@[simp] theorem emit_plat (s : State) (o : Out) : (emit s o).plat = s.plat := rfl
@[simp] theorem emit_otp (s : State) (o : Out) : (emit s o).otp = s.otp := rfl
@[simp] theorem emit_pins (s : State) (o : Out) : (emit s o).pins = s.pins := rfl
@[simp] theorem emit_img (s : State) (o : Out) : (emit s o).img = s.img := rfl
@[simp] theorem emit_rot (s : State) (o : Out) : (emit s o).rot = s.rot := rfl
@[simp] theorem emit_hif (s : State) (o : Out) : (emit s o).hif = s.hif := rfl
@[simp] theorem emit_swc (s : State) (o : Out) : (emit s o).swc = s.swc := rfl
@[simp] theorem emit_fwd (s : State) (o : Out) : (emit s o).fwd = s.fwd := rfl
@[simp] theorem emit_rte (s : State) (o : Out) : (emit s o).rte = s.rte := rfl
@[simp] theorem emit_tim (s : State) (o : Out) : (emit s o).tim = s.tim := rfl
@[simp] theorem emit_sch (s : State) (o : Out) : (emit s o).sch = s.sch := rfl
@[simp] theorem emit_sec (s : State) (o : Out) : (emit s o).sec = s.sec := rfl
@[simp] theorem emit_brc (s : State) (o : Out) : (emit s o).brc = s.brc := rfl
@[simp] theorem emit_col (s : State) (o : Out) : (emit s o).col = s.col := rfl
@[simp] theorem emit_opt (s : State) (o : Out) : (emit s o).opt = s.opt := rfl
@[simp] theorem emit_chk (s : State) (o : Out) : (emit s o).chk = s.chk := rfl
@[simp] theorem emit_mgt (s : State) (o : Out) : (emit s o).mgt = s.mgt := rfl
@[simp] theorem emit_pending (s : State) (o : Out) : (emit s o).pending = s.pending := rfl

@[simp] theorem oasisSet_regs (s : State) (p o : Nat) (b : Byte) : (oasisSet s p o b).regs = s.regs := rfl
@[simp] theorem oasisSet_hostMem (s : State) (p o : Nat) (b : Byte) : (oasisSet s p o b).hostMem = s.hostMem := rfl
@[simp] theorem oasisSet_clock (s : State) (p o : Nat) (b : Byte) : (oasisSet s p o b).clock = s.clock := rfl
@[simp] theorem oasisSet_free (s : State) (p o : Nat) (b : Byte) : (oasisSet s p o b).free = s.free := rfl
@[simp] theorem oasisSet_plat (s : State) (p o : Nat) (b : Byte) : (oasisSet s p o b).plat = s.plat := rfl
@[simp] theorem oasisSet_otp (s : State) (p o : Nat) (b : Byte) : (oasisSet s p o b).otp = s.otp := rfl
@[simp] theorem oasisSet_pins (s : State) (p o : Nat) (b : Byte) : (oasisSet s p o b).pins = s.pins := rfl
@[simp] theorem oasisSet_img (s : State) (p o : Nat) (b : Byte) : (oasisSet s p o b).img = s.img := rfl
@[simp] theorem oasisSet_rot (s : State) (p o : Nat) (b : Byte) : (oasisSet s p o b).rot = s.rot := rfl
@[simp] theorem oasisSet_hif (s : State) (p o : Nat) (b : Byte) : (oasisSet s p o b).hif = s.hif := rfl
@[simp] theorem oasisSet_swc (s : State) (p o : Nat) (b : Byte) : (oasisSet s p o b).swc = s.swc := rfl
@[simp] theorem oasisSet_fwd (s : State) (p o : Nat) (b : Byte) : (oasisSet s p o b).fwd = s.fwd := rfl
@[simp] theorem oasisSet_rte (s : State) (p o : Nat) (b : Byte) : (oasisSet s p o b).rte = s.rte := rfl
@[simp] theorem oasisSet_tim (s : State) (p o : Nat) (b : Byte) : (oasisSet s p o b).tim = s.tim := rfl
@[simp] theorem oasisSet_sch (s : State) (p o : Nat) (b : Byte) : (oasisSet s p o b).sch = s.sch := rfl
@[simp] theorem oasisSet_sec (s : State) (p o : Nat) (b : Byte) : (oasisSet s p o b).sec = s.sec := rfl
@[simp] theorem oasisSet_brc (s : State) (p o : Nat) (b : Byte) : (oasisSet s p o b).brc = s.brc := rfl
@[simp] theorem oasisSet_col (s : State) (p o : Nat) (b : Byte) : (oasisSet s p o b).col = s.col := rfl
@[simp] theorem oasisSet_opt (s : State) (p o : Nat) (b : Byte) : (oasisSet s p o b).opt = s.opt := rfl
@[simp] theorem oasisSet_chk (s : State) (p o : Nat) (b : Byte) : (oasisSet s p o b).chk = s.chk := rfl
@[simp] theorem oasisSet_mgt (s : State) (p o : Nat) (b : Byte) : (oasisSet s p o b).mgt = s.mgt := rfl
@[simp] theorem oasisSet_outbox (s : State) (p o : Nat) (b : Byte) : (oasisSet s p o b).outbox = s.outbox := rfl
@[simp] theorem oasisSet_pending (s : State) (p o : Nat) (b : Byte) : (oasisSet s p o b).pending = s.pending := rfl

@[simp] theorem tickFree_free (s : State) : (tickFree s).free = s.free + 1 := rfl

@[simp] theorem wfs_oasis (s : State) (a : Nat) (l : List (BitRange × Nat)) : (wfs s a l).oasis = s.oasis := rfl

@[simp] theorem wfs_hostMem (s : State) (a : Nat) (l : List (BitRange × Nat)) : (wfs s a l).hostMem = s.hostMem := rfl

@[simp] theorem wfs_clock (s : State) (a : Nat) (l : List (BitRange × Nat)) : (wfs s a l).clock = s.clock := rfl

@[simp] theorem wfs_free (s : State) (a : Nat) (l : List (BitRange × Nat)) : (wfs s a l).free = s.free := rfl

@[simp] theorem wfs_plat (s : State) (a : Nat) (l : List (BitRange × Nat)) : (wfs s a l).plat = s.plat := rfl

@[simp] theorem wfs_otp (s : State) (a : Nat) (l : List (BitRange × Nat)) : (wfs s a l).otp = s.otp := rfl

@[simp] theorem wfs_pins (s : State) (a : Nat) (l : List (BitRange × Nat)) : (wfs s a l).pins = s.pins := rfl

@[simp] theorem wfs_img (s : State) (a : Nat) (l : List (BitRange × Nat)) : (wfs s a l).img = s.img := rfl

@[simp] theorem wfs_rot (s : State) (a : Nat) (l : List (BitRange × Nat)) : (wfs s a l).rot = s.rot := rfl

@[simp] theorem wfs_hif (s : State) (a : Nat) (l : List (BitRange × Nat)) : (wfs s a l).hif = s.hif := rfl

@[simp] theorem wfs_swc (s : State) (a : Nat) (l : List (BitRange × Nat)) : (wfs s a l).swc = s.swc := rfl

@[simp] theorem wfs_fwd (s : State) (a : Nat) (l : List (BitRange × Nat)) : (wfs s a l).fwd = s.fwd := rfl

@[simp] theorem wfs_rte (s : State) (a : Nat) (l : List (BitRange × Nat)) : (wfs s a l).rte = s.rte := rfl

@[simp] theorem wfs_tim (s : State) (a : Nat) (l : List (BitRange × Nat)) : (wfs s a l).tim = s.tim := rfl

@[simp] theorem wfs_sch (s : State) (a : Nat) (l : List (BitRange × Nat)) : (wfs s a l).sch = s.sch := rfl

@[simp] theorem wfs_sec (s : State) (a : Nat) (l : List (BitRange × Nat)) : (wfs s a l).sec = s.sec := rfl

@[simp] theorem wfs_brc (s : State) (a : Nat) (l : List (BitRange × Nat)) : (wfs s a l).brc = s.brc := rfl

@[simp] theorem wfs_col (s : State) (a : Nat) (l : List (BitRange × Nat)) : (wfs s a l).col = s.col := rfl

@[simp] theorem wfs_opt (s : State) (a : Nat) (l : List (BitRange × Nat)) : (wfs s a l).opt = s.opt := rfl

@[simp] theorem wfs_chk (s : State) (a : Nat) (l : List (BitRange × Nat)) : (wfs s a l).chk = s.chk := rfl

@[simp] theorem wfs_mgt (s : State) (a : Nat) (l : List (BitRange × Nat)) : (wfs s a l).mgt = s.mgt := rfl

@[simp] theorem wfs_outbox (s : State) (a : Nat) (l : List (BitRange × Nat)) : (wfs s a l).outbox = s.outbox := rfl

@[simp] theorem wfs_pending (s : State) (a : Nat) (l : List (BitRange × Nat)) : (wfs s a l).pending = s.pending := rfl

@[simp] theorem signal_oasis (s : State) (v : Nat) : (signal s v).oasis = s.oasis := by
  unfold signal
  split <;> rfl

@[simp] theorem signal_hostMem (s : State) (v : Nat) : (signal s v).hostMem = s.hostMem := by
  unfold signal
  split <;> rfl

@[simp] theorem signal_clock (s : State) (v : Nat) : (signal s v).clock = s.clock := by
  unfold signal
  split <;> rfl

@[simp] theorem signal_free (s : State) (v : Nat) : (signal s v).free = s.free := by
  unfold signal
  split <;> rfl

@[simp] theorem signal_plat (s : State) (v : Nat) : (signal s v).plat = s.plat := by
  unfold signal
  split <;> rfl

@[simp] theorem signal_otp (s : State) (v : Nat) : (signal s v).otp = s.otp := by
  unfold signal
  split <;> rfl

@[simp] theorem signal_pins (s : State) (v : Nat) : (signal s v).pins = s.pins := by
  unfold signal
  split <;> rfl

@[simp] theorem signal_img (s : State) (v : Nat) : (signal s v).img = s.img := by
  unfold signal
  split <;> rfl

@[simp] theorem signal_rot (s : State) (v : Nat) : (signal s v).rot = s.rot := by
  unfold signal
  split <;> rfl

@[simp] theorem signal_hif (s : State) (v : Nat) : (signal s v).hif = s.hif := by
  unfold signal
  split <;> rfl

@[simp] theorem signal_swc (s : State) (v : Nat) : (signal s v).swc = s.swc := by
  unfold signal
  split <;> rfl

@[simp] theorem signal_fwd (s : State) (v : Nat) : (signal s v).fwd = s.fwd := by
  unfold signal
  split <;> rfl

@[simp] theorem signal_rte (s : State) (v : Nat) : (signal s v).rte = s.rte := by
  unfold signal
  split <;> rfl

@[simp] theorem signal_tim (s : State) (v : Nat) : (signal s v).tim = s.tim := by
  unfold signal
  split <;> rfl

@[simp] theorem signal_sch (s : State) (v : Nat) : (signal s v).sch = s.sch := by
  unfold signal
  split <;> rfl

@[simp] theorem signal_sec (s : State) (v : Nat) : (signal s v).sec = s.sec := by
  unfold signal
  split <;> rfl

@[simp] theorem signal_brc (s : State) (v : Nat) : (signal s v).brc = s.brc := by
  unfold signal
  split <;> rfl

@[simp] theorem signal_col (s : State) (v : Nat) : (signal s v).col = s.col := by
  unfold signal
  split <;> rfl

@[simp] theorem signal_opt (s : State) (v : Nat) : (signal s v).opt = s.opt := by
  unfold signal
  split <;> rfl

@[simp] theorem signal_chk (s : State) (v : Nat) : (signal s v).chk = s.chk := by
  unfold signal
  split <;> rfl

@[simp] theorem signal_mgt (s : State) (v : Nat) : (signal s v).mgt = s.mgt := by
  unfold signal
  split <;> rfl

@[simp] theorem signal_pending (s : State) (v : Nat) : (signal s v).pending = s.pending := by
  unfold signal
  split <;> rfl

@[simp] theorem oasisWrite_regs (s : State) (p o : Nat) (l : List Byte) : (oasisWrite s p o l).regs = s.regs := by
  induction l generalizing s o with
  | nil => rfl
  | cons b l ih => exact ih (oasisSet s p o b) (o + 1)

@[simp] theorem oasisWrite_hostMem (s : State) (p o : Nat) (l : List Byte) : (oasisWrite s p o l).hostMem = s.hostMem := by
  induction l generalizing s o with
  | nil => rfl
  | cons b l ih => exact ih (oasisSet s p o b) (o + 1)

@[simp] theorem oasisWrite_clock (s : State) (p o : Nat) (l : List Byte) : (oasisWrite s p o l).clock = s.clock := by
  induction l generalizing s o with
  | nil => rfl
  | cons b l ih => exact ih (oasisSet s p o b) (o + 1)

@[simp] theorem oasisWrite_free (s : State) (p o : Nat) (l : List Byte) : (oasisWrite s p o l).free = s.free := by
  induction l generalizing s o with
  | nil => rfl
  | cons b l ih => exact ih (oasisSet s p o b) (o + 1)

@[simp] theorem oasisWrite_plat (s : State) (p o : Nat) (l : List Byte) : (oasisWrite s p o l).plat = s.plat := by
  induction l generalizing s o with
  | nil => rfl
  | cons b l ih => exact ih (oasisSet s p o b) (o + 1)

@[simp] theorem oasisWrite_otp (s : State) (p o : Nat) (l : List Byte) : (oasisWrite s p o l).otp = s.otp := by
  induction l generalizing s o with
  | nil => rfl
  | cons b l ih => exact ih (oasisSet s p o b) (o + 1)

@[simp] theorem oasisWrite_pins (s : State) (p o : Nat) (l : List Byte) : (oasisWrite s p o l).pins = s.pins := by
  induction l generalizing s o with
  | nil => rfl
  | cons b l ih => exact ih (oasisSet s p o b) (o + 1)

@[simp] theorem oasisWrite_img (s : State) (p o : Nat) (l : List Byte) : (oasisWrite s p o l).img = s.img := by
  induction l generalizing s o with
  | nil => rfl
  | cons b l ih => exact ih (oasisSet s p o b) (o + 1)

@[simp] theorem oasisWrite_rot (s : State) (p o : Nat) (l : List Byte) : (oasisWrite s p o l).rot = s.rot := by
  induction l generalizing s o with
  | nil => rfl
  | cons b l ih => exact ih (oasisSet s p o b) (o + 1)

@[simp] theorem oasisWrite_hif (s : State) (p o : Nat) (l : List Byte) : (oasisWrite s p o l).hif = s.hif := by
  induction l generalizing s o with
  | nil => rfl
  | cons b l ih => exact ih (oasisSet s p o b) (o + 1)

@[simp] theorem oasisWrite_swc (s : State) (p o : Nat) (l : List Byte) : (oasisWrite s p o l).swc = s.swc := by
  induction l generalizing s o with
  | nil => rfl
  | cons b l ih => exact ih (oasisSet s p o b) (o + 1)

@[simp] theorem oasisWrite_fwd (s : State) (p o : Nat) (l : List Byte) : (oasisWrite s p o l).fwd = s.fwd := by
  induction l generalizing s o with
  | nil => rfl
  | cons b l ih => exact ih (oasisSet s p o b) (o + 1)

@[simp] theorem oasisWrite_rte (s : State) (p o : Nat) (l : List Byte) : (oasisWrite s p o l).rte = s.rte := by
  induction l generalizing s o with
  | nil => rfl
  | cons b l ih => exact ih (oasisSet s p o b) (o + 1)

@[simp] theorem oasisWrite_tim (s : State) (p o : Nat) (l : List Byte) : (oasisWrite s p o l).tim = s.tim := by
  induction l generalizing s o with
  | nil => rfl
  | cons b l ih => exact ih (oasisSet s p o b) (o + 1)

@[simp] theorem oasisWrite_sch (s : State) (p o : Nat) (l : List Byte) : (oasisWrite s p o l).sch = s.sch := by
  induction l generalizing s o with
  | nil => rfl
  | cons b l ih => exact ih (oasisSet s p o b) (o + 1)

@[simp] theorem oasisWrite_sec (s : State) (p o : Nat) (l : List Byte) : (oasisWrite s p o l).sec = s.sec := by
  induction l generalizing s o with
  | nil => rfl
  | cons b l ih => exact ih (oasisSet s p o b) (o + 1)

@[simp] theorem oasisWrite_brc (s : State) (p o : Nat) (l : List Byte) : (oasisWrite s p o l).brc = s.brc := by
  induction l generalizing s o with
  | nil => rfl
  | cons b l ih => exact ih (oasisSet s p o b) (o + 1)

@[simp] theorem oasisWrite_col (s : State) (p o : Nat) (l : List Byte) : (oasisWrite s p o l).col = s.col := by
  induction l generalizing s o with
  | nil => rfl
  | cons b l ih => exact ih (oasisSet s p o b) (o + 1)

@[simp] theorem oasisWrite_opt (s : State) (p o : Nat) (l : List Byte) : (oasisWrite s p o l).opt = s.opt := by
  induction l generalizing s o with
  | nil => rfl
  | cons b l ih => exact ih (oasisSet s p o b) (o + 1)

@[simp] theorem oasisWrite_chk (s : State) (p o : Nat) (l : List Byte) : (oasisWrite s p o l).chk = s.chk := by
  induction l generalizing s o with
  | nil => rfl
  | cons b l ih => exact ih (oasisSet s p o b) (o + 1)

@[simp] theorem oasisWrite_mgt (s : State) (p o : Nat) (l : List Byte) : (oasisWrite s p o l).mgt = s.mgt := by
  induction l generalizing s o with
  | nil => rfl
  | cons b l ih => exact ih (oasisSet s p o b) (o + 1)

@[simp] theorem oasisWrite_outbox (s : State) (p o : Nat) (l : List Byte) : (oasisWrite s p o l).outbox = s.outbox := by
  induction l generalizing s o with
  | nil => rfl
  | cons b l ih => exact ih (oasisSet s p o b) (o + 1)

@[simp] theorem oasisWrite_pending (s : State) (p o : Nat) (l : List Byte) : (oasisWrite s p o l).pending = s.pending := by
  induction l generalizing s o with
  | nil => rfl
  | cons b l ih => exact ih (oasisSet s p o b) (o + 1)

@[simp] theorem hostWrite_regs (s : State) (a : Nat) (l : List Byte) : (hostWrite s a l).regs = s.regs := by
  induction l generalizing s a with
  | nil => rfl
  | cons b l ih => exact ih { s with hostMem := SMap.put memDefault s.hostMem (a % 2 ^ 64) b } (a + 1)

@[simp] theorem hostWrite_oasis (s : State) (a : Nat) (l : List Byte) : (hostWrite s a l).oasis = s.oasis := by
  induction l generalizing s a with
  | nil => rfl
  | cons b l ih => exact ih { s with hostMem := SMap.put memDefault s.hostMem (a % 2 ^ 64) b } (a + 1)

@[simp] theorem hostWrite_clock (s : State) (a : Nat) (l : List Byte) : (hostWrite s a l).clock = s.clock := by
  induction l generalizing s a with
  | nil => rfl
  | cons b l ih => exact ih { s with hostMem := SMap.put memDefault s.hostMem (a % 2 ^ 64) b } (a + 1)

@[simp] theorem hostWrite_free (s : State) (a : Nat) (l : List Byte) : (hostWrite s a l).free = s.free := by
  induction l generalizing s a with
  | nil => rfl
  | cons b l ih => exact ih { s with hostMem := SMap.put memDefault s.hostMem (a % 2 ^ 64) b } (a + 1)

@[simp] theorem hostWrite_plat (s : State) (a : Nat) (l : List Byte) : (hostWrite s a l).plat = s.plat := by
  induction l generalizing s a with
  | nil => rfl
  | cons b l ih => exact ih { s with hostMem := SMap.put memDefault s.hostMem (a % 2 ^ 64) b } (a + 1)

@[simp] theorem hostWrite_otp (s : State) (a : Nat) (l : List Byte) : (hostWrite s a l).otp = s.otp := by
  induction l generalizing s a with
  | nil => rfl
  | cons b l ih => exact ih { s with hostMem := SMap.put memDefault s.hostMem (a % 2 ^ 64) b } (a + 1)

@[simp] theorem hostWrite_pins (s : State) (a : Nat) (l : List Byte) : (hostWrite s a l).pins = s.pins := by
  induction l generalizing s a with
  | nil => rfl
  | cons b l ih => exact ih { s with hostMem := SMap.put memDefault s.hostMem (a % 2 ^ 64) b } (a + 1)

@[simp] theorem hostWrite_img (s : State) (a : Nat) (l : List Byte) : (hostWrite s a l).img = s.img := by
  induction l generalizing s a with
  | nil => rfl
  | cons b l ih => exact ih { s with hostMem := SMap.put memDefault s.hostMem (a % 2 ^ 64) b } (a + 1)

@[simp] theorem hostWrite_rot (s : State) (a : Nat) (l : List Byte) : (hostWrite s a l).rot = s.rot := by
  induction l generalizing s a with
  | nil => rfl
  | cons b l ih => exact ih { s with hostMem := SMap.put memDefault s.hostMem (a % 2 ^ 64) b } (a + 1)

@[simp] theorem hostWrite_hif (s : State) (a : Nat) (l : List Byte) : (hostWrite s a l).hif = s.hif := by
  induction l generalizing s a with
  | nil => rfl
  | cons b l ih => exact ih { s with hostMem := SMap.put memDefault s.hostMem (a % 2 ^ 64) b } (a + 1)

@[simp] theorem hostWrite_swc (s : State) (a : Nat) (l : List Byte) : (hostWrite s a l).swc = s.swc := by
  induction l generalizing s a with
  | nil => rfl
  | cons b l ih => exact ih { s with hostMem := SMap.put memDefault s.hostMem (a % 2 ^ 64) b } (a + 1)

@[simp] theorem hostWrite_fwd (s : State) (a : Nat) (l : List Byte) : (hostWrite s a l).fwd = s.fwd := by
  induction l generalizing s a with
  | nil => rfl
  | cons b l ih => exact ih { s with hostMem := SMap.put memDefault s.hostMem (a % 2 ^ 64) b } (a + 1)

@[simp] theorem hostWrite_rte (s : State) (a : Nat) (l : List Byte) : (hostWrite s a l).rte = s.rte := by
  induction l generalizing s a with
  | nil => rfl
  | cons b l ih => exact ih { s with hostMem := SMap.put memDefault s.hostMem (a % 2 ^ 64) b } (a + 1)

@[simp] theorem hostWrite_tim (s : State) (a : Nat) (l : List Byte) : (hostWrite s a l).tim = s.tim := by
  induction l generalizing s a with
  | nil => rfl
  | cons b l ih => exact ih { s with hostMem := SMap.put memDefault s.hostMem (a % 2 ^ 64) b } (a + 1)

@[simp] theorem hostWrite_sch (s : State) (a : Nat) (l : List Byte) : (hostWrite s a l).sch = s.sch := by
  induction l generalizing s a with
  | nil => rfl
  | cons b l ih => exact ih { s with hostMem := SMap.put memDefault s.hostMem (a % 2 ^ 64) b } (a + 1)

@[simp] theorem hostWrite_sec (s : State) (a : Nat) (l : List Byte) : (hostWrite s a l).sec = s.sec := by
  induction l generalizing s a with
  | nil => rfl
  | cons b l ih => exact ih { s with hostMem := SMap.put memDefault s.hostMem (a % 2 ^ 64) b } (a + 1)

@[simp] theorem hostWrite_brc (s : State) (a : Nat) (l : List Byte) : (hostWrite s a l).brc = s.brc := by
  induction l generalizing s a with
  | nil => rfl
  | cons b l ih => exact ih { s with hostMem := SMap.put memDefault s.hostMem (a % 2 ^ 64) b } (a + 1)

@[simp] theorem hostWrite_col (s : State) (a : Nat) (l : List Byte) : (hostWrite s a l).col = s.col := by
  induction l generalizing s a with
  | nil => rfl
  | cons b l ih => exact ih { s with hostMem := SMap.put memDefault s.hostMem (a % 2 ^ 64) b } (a + 1)

@[simp] theorem hostWrite_opt (s : State) (a : Nat) (l : List Byte) : (hostWrite s a l).opt = s.opt := by
  induction l generalizing s a with
  | nil => rfl
  | cons b l ih => exact ih { s with hostMem := SMap.put memDefault s.hostMem (a % 2 ^ 64) b } (a + 1)

@[simp] theorem hostWrite_chk (s : State) (a : Nat) (l : List Byte) : (hostWrite s a l).chk = s.chk := by
  induction l generalizing s a with
  | nil => rfl
  | cons b l ih => exact ih { s with hostMem := SMap.put memDefault s.hostMem (a % 2 ^ 64) b } (a + 1)

@[simp] theorem hostWrite_mgt (s : State) (a : Nat) (l : List Byte) : (hostWrite s a l).mgt = s.mgt := by
  induction l generalizing s a with
  | nil => rfl
  | cons b l ih => exact ih { s with hostMem := SMap.put memDefault s.hostMem (a % 2 ^ 64) b } (a + 1)

@[simp] theorem hostWrite_outbox (s : State) (a : Nat) (l : List Byte) : (hostWrite s a l).outbox = s.outbox := by
  induction l generalizing s a with
  | nil => rfl
  | cons b l ih => exact ih { s with hostMem := SMap.put memDefault s.hostMem (a % 2 ^ 64) b } (a + 1)

@[simp] theorem hostWrite_pending (s : State) (a : Nat) (l : List Byte) : (hostWrite s a l).pending = s.pending := by
  induction l generalizing s a with
  | nil => rfl
  | cons b l ih => exact ih { s with hostMem := SMap.put memDefault s.hostMem (a % 2 ^ 64) b } (a + 1)

end Sys2Proof.Machine
end

