-- ==== Sys2Proof/Laws/Records.lean ====
section
/-! SUPPORT. What a completion record's writing and a claim do to queues, TAIL and host memory. -/
namespace Sys2Proof.Machine

/-! ## Queues -/

theorem cnqOf_hif {s t : State} (h : s.hif = t.hif) (d n : Nat) : cnqOf s d n = cnqOf t d n := by unfold cnqOf; rw [h]
theorem cqOf_cqs {s t : State} (h : s.hif.cqs = t.hif.cqs) (d q : Nat) : cqOf s d q = cqOf t d q := by unfold cqOf; rw [h]

@[simp] theorem cnqOf_setCnq (s : State) (d n : Nat) (q : Cnq) : cnqOf (setCnq s d n q) d n = q := by
  simp [cnqOf, setCnq]
@[simp] theorem cqOf_setCq (s : State) (d q : Nat) (c : Cq) : cqOf (setCq s d q c) d q = c := by
  simp [cqOf, setCq]
@[simp] theorem setCq_cnqs (s : State) (d q : Nat) (c : Cq) : (setCq s d q c).hif.cnqs = s.hif.cnqs := rfl
@[simp] theorem setCq_hostMem (s : State) (d q : Nat) (c : Cq) : (setCq s d q c).hostMem = s.hostMem := rfl
@[simp] theorem setCq_clock (s : State) (d q : Nat) (c : Cq) : (setCq s d q c).clock = s.clock := rfl

/-! ## Signals leave queues, host memory and TAIL alone -/

theorem cnqSignal_hif (s : State) (d n : Nat) : (cnqSignal s d n).hif = s.hif := by
  unfold cnqSignal
  split
  · exact signal_hif _ _
  · rfl
theorem cnqSignal_hostMem (s : State) (d n : Nat) : (cnqSignal s d n).hostMem = s.hostMem := by
  unfold cnqSignal
  split
  · exact signal_hostMem _ _
  · rfl

theorem cnqNotice_hif (s : State) (d n : Nat) (f : BitRange) : (cnqNotice s d n f).hif = s.hif := cnqSignal_hif _ _ _
theorem cnqNotice_hostMem (s : State) (d n : Nat) (f : BitRange) : (cnqNotice s d n f).hostMem = s.hostMem := cnqSignal_hostMem _ _ _

/-- A register of a dune window is not in the pending-bit array. -/
theorem rd_signal (s : State) {v a : Nat} (hv : v < 2048) (ha : 0x2000000 ≤ regHome a) : rd (signal s v) a = rd s a := by
  unfold signal
  split
  · refine rd_wn_ne s _ ?_
    rw [regHome_low (by simp only [Reg.HIF_MSIX_PBA]; omega)]
    simp only [Reg.HIF_MSIX_PBA]
    omega
  · rfl

theorem cnqVector_lt (s : State) (d n : Nat) : cnqVector s d n < 2048 := by
  have : rf s (Reg.HIF_CNQ_CFG d n) F.HIF_CNQ_CFG_VECTOR < 2 ^ 11 := bitsAt_lt _ _ _
  unfold cnqVector
  omega

theorem rd_cnqSignal (s : State) {d n a : Nat} (ha : 0x2000000 ≤ regHome a) : rd (cnqSignal s d n) a = rd s a := by
  unfold cnqSignal
  split
  · exact rd_signal s (cnqVector_lt s d n) ha
  · rfl

theorem rd_cnqNotice (s : State) {d n a : Nat} (f : BitRange) (ha : 0x2000000 ≤ regHome a)
    (h : regHome (Reg.HIF_CNQ_CTRL d n) ≠ regHome a) : rd (cnqNotice s d n f) a = rd s a :=
  (rd_cnqSignal _ ha).trans (rd_wf_ne s f 1 h)

/-! ## A rise of the fill -/

theorem cnqGrew_hostMem (s : State) (d n old : Nat) : (cnqGrew s d n old).hostMem = s.hostMem := by
  simp only [cnqGrew]
  split <;> split <;> first | rw [cnqNotice_hostMem] <;> rfl | rfl

theorem cnqGrew_cqs (s : State) (d n old : Nat) : (cnqGrew s d n old).hif.cqs = s.hif.cqs := by
  simp only [cnqGrew]
  split <;> split <;> first | rw [cnqNotice_hif] <;> rfl | rfl

theorem cnqGrew_unread (s : State) (d n old : Nat) : (cnqOf (cnqGrew s d n old) d n).unread = (cnqOf s d n).unread := by
  have e : ∀ u f, cnqOf (cnqNotice u d n f) d n = cnqOf u d n := fun u f => cnqOf_hif (cnqNotice_hif _ _ _ _) d n
  simp only [cnqGrew]
  split <;> split <;> simp [e]

theorem rd_cnqGrew (s : State) {d n a : Nat} (old : Nat) (ha : 0x2000000 ≤ regHome a)
    (h : regHome (Reg.HIF_CNQ_CTRL d n) ≠ regHome a) : rd (cnqGrew s d n old) a = rd s a := by
  simp only [cnqGrew]
  split <;> split <;> first | exact rd_cnqNotice _ _ ha h | rfl

/-- The homes of a dune's registers from its queues to its counters are their own addresses. -/
theorem regHome_queues {a : Nat} (d : Nat) (h : 0x2360000 + d * 0x400000 ≤ a) (h' : a < 0x2384000 + d * 0x400000) : regHome a = a :=
  regHome_dune (by omega)

/-! ## The record -/

theorem cqCnq_lt (s : State) (d q : Nat) : cqCnq s d q < 2048 := Nat.mod_lt _ (by decide)

/-- Everything a completion record's writing does: the record joins the unread ones, TAIL moves on by one, the record's bytes go to
host memory unless the queue gathers for a fabric endpoint, and no command slot changes. -/
theorem writeRecord_spec (s : State) {d q : Nat} (x : Slot) (hd : d < 8) :
    (writeRecord s d q x).hif.cqs = s.hif.cqs
    ∧ (cnqOf (writeRecord s d q x) d (cqCnq s d q)).unread = (cnqOf s d (cqCnq s d q)).unread ++ [(flatQ d q, x.no)]
    ∧ rn (writeRecord s d q x) (Reg.HIF_CNQ_TAIL d (cqCnq s d q))
      = (rn s (Reg.HIF_CNQ_TAIL d (cqCnq s d q)) + 1) % 2 ^ (cnqOf s d (cqCnq s d q)).log2 % 2 ^ 32
    ∧ (writeRecord s d q x).hostMem = if (cnqOf s d (cqCnq s d q)).dest = 1 then s.hostMem
      else (hostWrite s ((cnqOf s d (cqCnq s d q)).base + 16 * rn s (Reg.HIF_CNQ_TAIL d (cqCnq s d q)))
        (recordBytes (time48 s) (cnqOf s d (cqCnq s d q)).phase x)).hostMem := by
  have hn := cqCnq_lt s d q
  have ht : regHome (Reg.HIF_CNQ_TAIL d (cqCnq s d q)) = Reg.HIF_CNQ_TAIL d (cqCnq s d q) :=
    regHome_queues d (by simp only [Reg.HIF_CNQ_TAIL]; omega) (by simp only [Reg.HIF_CNQ_TAIL]; omega)
  have hw : 0x2000000 ≤ regHome (Reg.HIF_CNQ_TAIL d (cqCnq s d q)) := by rw [ht]; simp only [Reg.HIF_CNQ_TAIL]; omega
  have hk : regHome (Reg.HIF_CNQ_CTRL d (cqCnq s d q)) ≠ regHome (Reg.HIF_CNQ_TAIL d (cqCnq s d q)) := by
    rw [ht, regHome_queues d (by simp only [Reg.HIF_CNQ_CTRL]; omega) (by simp only [Reg.HIF_CNQ_CTRL]; omega)]
    simp only [Reg.HIF_CNQ_CTRL, Reg.HIF_CNQ_TAIL]
    omega
  simp only [writeRecord]
  generalize hb : recordBytes (time48 s) (cnqOf s d (cqCnq s d q)).phase x = bytes
  generalize hv : (if (cnqOf s d (cqCnq s d q)).dest = 1 then s
    else hostWrite s ((cnqOf s d (cqCnq s d q)).base + 16 * rn s (Reg.HIF_CNQ_TAIL d (cqCnq s d q))) bytes) = v
  have e1 : v.hif = s.hif := by
    rw [← hv]
    split
    · rfl
    · exact hostWrite_hif _ _ _
  have e2 : v.hostMem = if (cnqOf s d (cqCnq s d q)).dest = 1 then s.hostMem
      else (hostWrite s ((cnqOf s d (cqCnq s d q)).base + 16 * rn s (Reg.HIF_CNQ_TAIL d (cqCnq s d q))) bytes).hostMem := by
    rw [← hv]
    split <;> rfl
  refine ⟨?_, ?_, ?_, ?_⟩
  · split <;> (try rw [cnqSignal_hif]) <;> rw [cnqGrew_cqs] <;> exact (congrArg HifState.cqs e1 : v.hif.cqs = s.hif.cqs)
  · split
    · rw [cnqOf_hif (cnqSignal_hif _ _ _), cnqGrew_unread, cnqOf_setCnq]
    · rw [cnqGrew_unread, cnqOf_setCnq]
  · have r : ∀ (u : State) (k : Cnq) (o n : Nat),
        rn (cnqGrew (setCnq (wn u (Reg.HIF_CNQ_TAIL d (cqCnq s d q)) n) d (cqCnq s d q) k) d (cqCnq s d q) o) (Reg.HIF_CNQ_TAIL d (cqCnq s d q))
          = n % 2 ^ 32 := by
      intro u k o n
      unfold rn
      rw [rd_cnqGrew _ o hw hk]
      show (rd (wr u _ (BitVec.ofNat 32 n)) _).toNat = _
      rw [rd_wr_same]
      exact BitVec.toNat_ofNat _ _
    split
    · unfold rn
      rw [rd_cnqSignal _ hw]
      exact r _ _ _ _
    · exact r _ _ _ _
  · split <;> (try rw [cnqSignal_hostMem]) <;> rw [cnqGrew_hostMem] <;> exact e2

theorem signalCounter_hif (s : State) (d : Nat) (x : Slot) : (signalCounter s d x).hif = s.hif := by
  unfold signalCounter
  split <;> rfl

theorem signalCounter_hostMem (s : State) (d : Nat) (x : Slot) : (signalCounter s d x).hostMem = s.hostMem := by
  unfold signalCounter
  split <;> rfl

/-- The SIGNAL counter is no TAIL. -/
theorem rn_signalCounter_tail (s : State) {d n : Nat} (x : Slot) (hd : d < 8) (hn : n < 2048) :
    rn (signalCounter s d x) (Reg.HIF_CNQ_TAIL d n) = rn s (Reg.HIF_CNQ_TAIL d n) := by
  have h2 : dSignal x.desc < 4096 := by
    have : fieldBe 64 x.desc 48 2 < 2 ^ 16 := by
      unfold fieldBe
      exact Nat.mod_lt _ (by decide)
    unfold dSignal
    omega
  unfold signalCounter
  split
  · rename_i h
    unfold rn addCounter
    rw [rd_wf_ne]
    rw [regHome_queues d (by simp only [Reg.HIF_CNT]; omega) (by simp only [Reg.HIF_CNT]; omega),
      regHome_queues d (by simp only [Reg.HIF_CNQ_TAIL]; omega) (by simp only [Reg.HIF_CNQ_TAIL]; omega)]
    simp only [Reg.HIF_CNT, Reg.HIF_CNQ_TAIL]
    omega
  · rfl

/-! ## The claim -/

/-- A claim that finds its command open: the slot is marked, its record written, its counter signalled. -/
theorem claim_some (s : State) {d q no : Nat} (st : Nat) {x : Slot} (hw : workStopped s = false) (h : (cqOf s d q).slots.find? (fun y => y.no == no && slotOpen y) = some x) :
    claim s d q no st = signalCounter (writeRecord (setCq s d q
        { cqOf s d q with slots := headWaiting (modFirst (fun y => y.no == no) (fun _ => { x with st := .done, status := st, holds := false }) (cqOf s d q).slots) })
        d q { x with st := .done, status := st, holds := false }) d { x with st := .done, status := st, holds := false } := by
  simp only [claim, hw, Bool.false_eq_true, if_false, h]

/-- Once a cold reset or a trip has stopped the work in flight, no claim changes anything (R77). -/
theorem claim_stopped (s : State) {d q no : Nat} (st : Nat) (hw : workStopped s = true) : claim s d q no st = s := by
  simp only [claim, hw, if_true]

/-- A claim that does not find its command open changes nothing. -/
theorem claim_none (s : State) {d q no : Nat} (st : Nat) (h : claimable s d q no = false) : claim s d q no st = s := by
  have : (cqOf s d q).slots.find? (fun y => y.no == no && slotOpen y) = none := by
    rw [List.find?_eq_none]
    intro y hy k
    have := List.any_eq_false.mp h y hy
    exact this k
  simp only [claim, this, ite_self]

/-- The slots after a claim that finds its command. -/
theorem claim_slots (s : State) {d q no : Nat} (st : Nat) {x : Slot} (hd : d < 8) (hw : workStopped s = false)
    (h : (cqOf s d q).slots.find? (fun y => y.no == no && slotOpen y) = some x) :
    cqOf (claim s d q no st) d q
      = { cqOf s d q with slots := headWaiting (modFirst (fun y => y.no == no) (fun _ => { x with st := .done, status := st, holds := false }) (cqOf s d q).slots) } := by
  rw [claim_some s st hw h, cqOf_cqs (congrArg HifState.cqs (signalCounter_hif _ _ _)), cqOf_cqs (writeRecord_spec _ _ hd).1, cqOf_setCq]

end Sys2Proof.Machine
end

