-- ==== Sys2Proof/Tests/Slice0.lean ====
section
/-! SUPPORT. The model's own tests: ill-formed commands that the checks refuse, single steps worked out by hand from the spec, and
for each statement with hypotheses a state and operands that meet them. -/
namespace Sys2Proof.Tests
open Sys2Proof Sys2Proof.Machine

set_option Elab.async false

/-- A state before power-up with a function applied. -/
def st (f : State → State) : State := f State.reset

/-- The platform die running, with a function applied. -/
def up (f : State → State) : State := f { State.reset with plat := { PlatState.empty with auxOk := true, vin48Good := true, running := true, resetHeld := false } }

/-- The header of a small image: version 1 of the format, member 4A47h, every variant, spine personality, contract 1, seven sections. -/
def demoHeader : Nat :=
  beNat (natBe 4 0x4C424E41 ++ natBe 2 1 ++ natBe 2 0x4A47 ++ natBe 1 0xFF ++ natBe 3 0 ++ natBe 4 1 ++ natBe 2 1 ++ natBe 2 7
    ++ natBe 8 40960 ++ natBe 4 1 ++ natBe 224 0)

/-- A directory entry of the small image, whole-image scope. -/
def demoEntry (i type records len : Nat) : Nat :=
  beNat (natBe 2 type ++ natBe 2 0 ++ natBe 4 records ++ natBe 8 (12288 + 4096 * i) ++ natBe 8 len ++ natBe 12 i ++ natBe 92 0)

/-- The section of an entry with digest 0 and tag 0, whose digest and tag hold. -/
def demoSection (entry : Nat) (l : List Byte) : ImgSection := ⟨0, some entry, l⟩

/-- One partition of every ripple with 768 GB. -/
def demoPartition : List Byte := natBe 2 0 ++ natBe 2 0 ++ natBe 4 768 ++ natBe 8 0 ++ natBe 32 (2 ^ 256 - 1)

/-- No torus, and port 0 on lane 0. -/
def demoPorts : List Byte := natBe 32 0 ++ natBe 2 0 ++ natBe 2 0 ++ natBe 4 0x01000000

/-- One manager key, one signature needed. -/
def demoPolicy : List Byte := natBe 8 0x0101000000000000 ++ natBe 48 0

/-- Contract version 1, every seed 0. -/
def demoContract : List Byte := natBe 2 1 ++ natBe 134 0

/-- The smallest image that passes every check of R58: no groups, one partition, one port, one manager. -/
def demoImage : Image where
  header := demoHeader
  sigs := [⟨1, true, 0, true, true⟩, ⟨2, true, 0, true, true⟩]
  dir := [demoEntry 0 1 0 0, demoEntry 1 2 1 48, demoEntry 2 3 2 40, demoEntry 3 4 1 56, demoEntry 4 5 1 136, demoEntry 5 0x12 1 256, demoEntry 6 0x20 0 0]
  boot := [(0, demoSection (demoEntry 0 1 0 0) []), (1, demoSection (demoEntry 1 2 1 48) demoPartition), (2, demoSection (demoEntry 2 3 2 40) demoPorts),
    (3, demoSection (demoEntry 3 4 1 56) demoPolicy), (4, demoSection (demoEntry 4 5 1 136) demoContract)]

/-- A module with that image in force and dune 0 in UP, with a function applied. -/
def on (f : State → State) : State :=
  f (wn (up (fun s => { s with img := { s.img with header := demoHeader, dir := demoImage.dir, cfg := imageCfg demoImage, accepted := true } }))
    Reg.PLT_DUNE_STATE 4)

/-- A message header of class 0 from endpoint 5. -/
def demoCfh : Cfh := ⟨1, 0, 0, false, false, false, 0, true, true, 0, 0, 0, 5, 0, 0, 0, 0, 0, 0, 0, 0, 0, 0, 0, 0⟩

/-- A module whose management port 0 is up at 10.0.0.1 with the gateway 10.0.0.254, with a function applied. -/
def onPort (f : State → State) : State :=
  f (on (fun s => setMp (wn (wn (wn s (Reg.HIF_MP_CFG 0) 0xE0000000) (Reg.HIF_MP_V4 0) 0x0A000001) (Reg.HIF_MP_GW4 0) 0x0A0000FE) 0 { mpOf s 0 with linkUp := true }))

/-- A module whose port `p` (first lane 0, `width` lanes, the given mode and role) has its link UP, with a function applied. -/
def onLink (mode role : Nat) (f : State → State) : State :=
  f (on (fun s => setLink { s with img := { s.img with cfg := { s.img.cfg with ports := [⟨0, 0, 1, mode, role, 0⟩] } } } 0 { SecLink.empty with st := linkUp }))

/-- A packet of class 1 for port 0. -/
def demoPkt : SwPkt := ⟨none, some demoCfh, [], 1, 1, 0, 0, 0, 0, 0, 0, none, 0, LinkHdr.none_, none, none, none⟩

/-- An Ethernet frame of the smallest length. -/
def demoEth : EthFrame := ⟨5, 6, [], 0x0800, natBe 46 0⟩

/-- A key of type 1 (an address of 24 bits). -/
def demoKey : Nat := 2 ^ 76 + 5

/-- A module that serves one scope of every ripple with stack 0 ready and completion queue 0 of dune 0 enabled, with a function applied. -/
def onJob (f : State → State) : State :=
  f (on (fun s => setCnq (wf (setStackReady { s with img := { s.img with cfg := { s.img.cfg with scopes := [⟨0, 0, 768, 2 ^ 256 - 1, 1, 1⟩] } } } 0 true)
    (Reg.HIF_CNQ_CFG 0 0) F.HIF_CNQ_CFG_ENABLE 1) 0 0 { cnqOf s 0 0 with log2 := 10 }))

/-- A descriptor with the given first 32 bytes, no waits and no signal. -/
def demoDesc (head : List Byte) : Nat :=
  beNat (head ++ natBe 4 0xFFF00000 ++ natBe 4 0xFFF00000 ++ natBe 4 0xFFF00000 ++ natBe 4 0xFFF00000 ++ natBe 2 0xFFF0 ++ natBe 14 0)

/-- A module whose command queue 5 of dune 0 is ENABLED and holds one command, with a function applied. -/
def onQueue (desc : Nat) (st : CmdState) (f : State → State) : State :=
  f (onJob (fun s => setCqState (setCq s 0 5 ⟨[⟨0, desc, st, 0, 0, 0, 0, false, false⟩], 1, 6, 0⟩) 0 5 1))

/-- A NOP and an ABORT of tag 7 of queue 5. -/
def demoNop : Nat := demoDesc (natBe 32 0)
def demoAbort : Nat := demoDesc (natBe 1 1 ++ natBe 15 0 ++ natBe 6 0x50007 ++ natBe 10 0)

/-- A NOP that waits for counter 9 to reach 4. -/
def demoWaiting : Nat :=
  beNat (natBe 32 0 ++ natBe 4 0x00900004 ++ natBe 4 0xFFF00000 ++ natBe 4 0xFFF00000 ++ natBe 4 0xFFF00000 ++ natBe 2 0xFFF0 ++ natBe 14 0)

/-- A NOP that waits for a counter of ripple 1. -/
def demoForeign : Nat :=
  beNat (natBe 32 0 ++ natBe 4 0x08000004 ++ natBe 4 0xFFF00000 ++ natBe 4 0xFFF00000 ++ natBe 4 0xFFF00000 ++ natBe 2 0xFFF0 ++ natBe 14 0)

/-- A module with time, and a gate list of one entry in bank 1 of port group 0 whose base lies ahead, with a function applied. -/
def onGate (f : State → State) : State :=
  f (on (fun s => wn (wn (wn (setPg (wf s Reg.PLT_READY_SUM F.PLT_READY_SUM_TIM_READY 1) 0 { PortGroup.empty with bank1 := [(0, 0x7F00000F4240)] })
    (Reg.SCH_PG_COUNT 0 0) 1) (Reg.SCH_PG_CYCLE 0 0) 1000000) (Reg.SCH_PG_BASE_SEC 0 0 1) 5))

/-- A source on management port 0, refused or not. -/
def demoSource (refused : Bool) : TimSource :=
  ⟨2, 0, ⟨128, 6, 0x20, 0, 128, 5, 0, 5, 37⟩, some 0, some 0, refused, some 0, 0, none, none, none, false⟩

/-- A module that follows that source, with a function applied. -/
def onSource (refused : Bool) (f : State → State) : State :=
  f (on (fun s => { s with tim := { s.tim with sources := [demoSource refused], cur := some (2, 0) } }))

/-- A module whose port 0 is in the handshake with the link `x`, with a function applied. -/
def onShake (x : SecLink) (f : State → State) : State :=
  onLink 0 1 (fun s => f (setLink s 0 { x with st := linkHandshake }))

/-- A module whose link of port 0 has sent 4 cells of a frame. -/
def demoSealed : State := onLink 0 1 (fun s => setLink s 0 { SecLink.empty with st := linkUp, txCells := 4 })

/-- A module to which a package of `n` bytes is offered, with a function applied. -/
def onOwner (n : Nat) (f : State → State) : State := on (fun s => f (wf s Reg.SEC_PKG_LEN F.SEC_PKG_LEN_LEN n))

/-- A module whose lanes of tile 0 may be used, with a function applied. -/
def onLane (f : State → State) : State := onLink 0 1 f

/-- A module in a ring of 8 along X, on the row of the bypass tiles, with time, and a wish for a bypass to the second next, with a function applied. -/
def onTorus (f : State → State) : State :=
  f (on (fun s => { wn (wf s Reg.PLT_READY_SUM F.PLT_READY_SUM_TIM_READY 1) Reg.PLT_DUNE_STATE 0x44444444 with
    img := { s.img with cfg := { s.img.cfg with torus := ⟨1, [(8, 0, 0), (0, 0, 0), (0, 0, 0)], 1⟩ } },
    rte := { s.rte with bypassAsked := [(0, coordOf 2 0 0)] } }))

/-- A RESERVE of path 7 from the origin of the ring. -/
def demoAsk : PathMsg := ⟨7, 0, 0, 0, 0, 0, 0, 1, 0, 0⟩

/-- Path 7 with a role and a state. -/
def demoPath (role st : Nat) : Path := ⟨7, 0, 0, 0, 0, 0, 1, role, st, 0, 0, [], false, 0⟩

/-- A module that holds that path, with time, and a function applied. -/
def onPath (role st : Nat) (f : State → State) : State :=
  f (on (fun s => { wf s Reg.PLT_READY_SUM F.PLT_READY_SUM_TIM_READY 1 with opt := { s.opt with paths := [demoPath role st] } }))

/-- A RESERVE that reaches the first of two hops, and the path that the ring's origin is granted. -/
def demoReserve : PathMsg := ⟨7, 0, coordOf 7 0 0, coordOf 1 0 0, 0, 0, 0, 1, 0, 0⟩
def demoGranted : Path := originPath (onTorus id) 0 (coordOf 2 0 0) 8 0 0

/-- A running SUM of 512 elements, its task in slot 0 of engine 0, and what the engine knows of it. -/
def demoRun : KRun := ⟨5, 0, 0x40, 0, 0, 1, 1, 0, 1, 0, 0, 0, 0, 0, 0⟩
def demoTask : Task := ⟨0, .kernel 5 0, 0x40, 0, 1, 0, 0, 32, [.packet 1 (natBe 64 0)], 0, none, 0⟩
def demoCtx : TaskCtx where
  task := demoTask
  pc := 3
  s := [(1, 6), (2, 9)]
  v := [(1, 7)]
  f := []
  stack := [4]
  acc := []
  scratch := []
  input := 0
  pos := 0
  loads := []
  stores := []
  out := []
  osel := 0
  ovf := 0
  poison := false
  sat := false
  nan := false
  syncing := false
  ending := false
/-- The state whose microcode store holds `w` as word 3, where the task is. -/
def demoEngine (w : Nat) : State :=
  onQueue (demoDesc (natBe 1 0x40 ++ natBe 31 0)) .running (fun s => setEng { s with brc := { s.brc with runs := [demoRun] }, img := { s.img with
    bulk := [(6, natBe 2 3 ++ natBe 2 1 ++ natBe 12 0 ++ natBe 8 w)], active := [(6, 0)] } } 0 ⟨some demoCtx, none, false⟩)
def demoInfo : TaskInfo := runInfo (demoEngine 0) demoRun

/-- A dispatched kernel of no elements, and a module in which it has not begun and engine 0 is ready. -/
def demoRunOf (op : Nat) : KRun := ⟨5, 0, op, demoDesc (natBe 1 op ++ natBe 31 0), 0, 0, 1, 0, 1, 0, 0, 0, 0, 0, 0⟩
def onRun (op : Nat) (f : State → State) : State :=
  onQueue (demoDesc (natBe 1 op ++ natBe 31 0)) .running (fun s => f (setMapBit (setEngSt { s with brc := { s.brc with runs := [demoRunOf op] } } 0 engIdle) (Reg.PLT_UR_ENG 0) 0 true))

/-- A module whose engine 0 may claim the one task of ripple 0. -/
def onClaim : State :=
  onRun 0x40 (fun s => { s with brc := { s.brc with queues := [(0, [{ demoTask with inputs := [] }])] } })
/-- One in which engine 16, of ripple 1, may steal it. -/
def onSteal : State :=
  onRun 0x40 (fun s => wf (wf (setMapBit (setEngSt (setEngSt { s with brc := { s.brc with queues := [(0, [{ demoTask with inputs := [] }])] } } 0 engOff) 16 engIdle)
    (Reg.PLT_UR_ENG 0) 16 true) (Reg.BRC_CFG 0) F.BRC_CFG_STEAL_EN 1) (Reg.BRC_CFG 0) F.BRC_CFG_STEAL_MIN 1)

/-- An ALLREDUCE of step 0, open for command 0 of queue 5 of dune 0. -/
def demoColl : Coll where
  step := 0
  gen := 0
  fq := 5
  no := 0
  opcode := 0x10
  redop := 0
  fmtIn := 0
  fmtOut := 0
  policy := 0
  seedSel := 0
  count := 1
  params := 0
  order := none
  sig := 0
  deadline := none
  cells := 0
  win := 0
  members := 0
  nIn := 0
  nOut := 0
  placed := []
  queues := []
  oasis := 0
  launched := true
  heardFrom := []
  contribs := []
  chunks := []
  partials := []
  results := []
  shardCopy := []
  residCopy := []
  receipts := []
  racked := []
  readySent := false
  readies := []
  decided := none
  abortAt := none
  abortBy := none
  attempts := []
  audited := []
  ufl := 0
  stale := 0
  ovf := 0
  replay := false
  waiting := false
  since := 0
  oldEps := []
  ended := none

/-- Group 3 of one spine, with one worker of rank 0 at endpoint 9 and a spare at endpoint 10. -/
def demoGroup (opened kept : List Coll) : Group where
  part := 0
  job := 0
  gen := 0
  size := 1
  root := 0
  lo := 0
  ext := 0
  nextStep := 1
  entries := [⟨0, 9, 0, 0, 0, 0, false⟩, ⟨0xFFFFFF, 10, 1, 0, 0, 0, false⟩]
  opened := opened
  kept := kept
  stragRank := none
  retracts := []
  swap := none
  early := []
  wrr := []

/-- A module that holds a group as number 3, with command 0 of queue 5 running opcode `op`, and a function applied. -/
def onGroup (op : Nat) (x : Group) (f : State → State) : State :=
  onQueue (demoDesc (natBe 1 op ++ natBe 1 0 ++ natBe 2 0 ++ natBe 2 3 ++ natBe 10 0 ++ natBe 6 0x0A000000 ++ natBe 10 0)) .running
    (fun s => f (setGroup s 3 x))

/-- A control message of a type about step 0 of group 3, and its header from the root spine. -/
def demoCtl (typ : Nat) : List Byte := natBe 1 typ ++ natBe 1 0 ++ natBe 2 3 ++ natBe 28 0
def demoRoot : Cfh := { demoCfh with dst := collEp 0, src := collEp 0 }

/-- The slot of that command. -/
def demoSlot (op : Nat) : Slot :=
  ⟨0, demoDesc (natBe 1 op ++ natBe 1 0 ++ natBe 2 0 ++ natBe 2 3 ++ natBe 10 0 ++ natBe 6 0x0A000000 ++ natBe 10 0), .running, 0, 0, 0, 0, false, false⟩

/-- The record of group 3: one spine, one worker wanted, no entries. -/
def demoRecord : List Byte := natBe 2 3 ++ natBe 6 0 ++ natBe 4 1 ++ natBe 52 0

/-- Caravan 7 of command 0 of queue 5 of dune 0: 4,096 bytes at 10000000h of partition 0, with one recipient. -/
def demoCar (isRoot : Bool) : Caravan where
  tid := 7
  fq := 5
  no := 0
  part := 0
  isRoot := isRoot
  fetch := isRoot
  len := 4096
  cache := 0x10000000
  parent := 0
  backup := 0
  peers := [⟨9, false, 0, 0, false⟩]
  total := 1
  storage := 11
  object := 0
  expect := 0
  deadline := some 0
  verified := 0
  partialBytes := 0
  fetched := 0
  heardAt := 0
  onBackup := false
  matched := 0
  mismatched := 0
  counts := []

/-- A module with that Caravan, with a function applied. -/
def onCar (x : Caravan) (f : State → State) : State :=
  onQueue (demoDesc (natBe 1 0x80 ++ natBe 31 0)) .running (fun s => f { s with col := { s.col with caravans := [x] } })

/-- A Caravan message of a type about Caravan 7, and a header to the module's Caravan service. -/
def demoCarMsg (typ off n : Nat) : List Byte := natBe 1 typ ++ natBe 1 0 ++ natBe 2 7 ++ natBe 6 off ++ natBe 2 n ++ natBe 12 0
def demoCarTo (src : Nat) : Cfh := { demoCfh with dst := carEp 0, src := src }

/-- The tree record of Caravan 7 at a root (no fetch), and a module whose command names it. -/
def demoTree (root : Bool) : List Byte :=
  natBe 2 7 ++ natBe 1 (b2n root) ++ natBe 1 0 ++ natBe 6 4096 ++ natBe 6 0x10000000 ++ (if root then natBe 6 0 else natBe 3 (coordOf 3 1 0) ++ natBe 3 0) ++ natBe 74 0
def demoTreeState (op : Nat) (root : Bool) : State :=
  onGroup op (demoGroup [] []) (fun s => oasisWrite { s with img := { s.img with cfg := { s.img.cfg with torus := ⟨2, [(8, 0, 0), (8, 0, 0), (0, 0, 0)], 1⟩ } } } 0 0x0A000000 (demoTree root))

/-- A module whose triad's status is `st`, with a function applied. -/
def onTriad (st : Nat) (f : State → State) : State := on (fun s => f (wf s Reg.MGT_TRIAD F.MGT_TRIAD_STATE st))

/-- An order of an action against scope 0 that is due, and a module that holds it, with a function applied. -/
def demoOrder (action : Nat) : ArmedOrder := ⟨action, 3, 0, 0, 0, 0, 0, false⟩
def onOrder (action : Nat) (f : State → State) : State := onJob (fun s => f { s with mgt := { s.mgt with order := some (demoOrder action) } })

/-- A session of the client 10.0.0.9 port 5000 on management port 0. -/
def demoSession (up cert : Bool) : Session := ⟨0, false, 0x0A000009, 5000, up, cert, 0, 0, 0, 0, none, 0, 0, none, 0, 0⟩
def onSession (up cert : Bool) (f : State → State) : State :=
  onPort (fun s => f { s with sec := { s.sec with sessions := [demoSession up cert] } })

/-! ## Ill-formed commands

One term for each check of `WellFormed`, which the check refuses. -/

/-- An image with nothing in it. -/
def noImage : Image := ⟨0, [], [], []⟩

theorem test_wf_header_read : WellFormed (.imageHeaderRead ⟨true, 2 ^ 2048, 0⟩ ⟨false, 0, 0⟩ true) = false := by decide +kernel
theorem test_wf_image_header : WellFormed (.imageVerifyDone { noImage with header := 2 ^ 2048 }) = false := by decide +kernel
theorem test_wf_image_directory : WellFormed (.imageVerifyDone { noImage with dir := [2 ^ 1024] }) = false := by decide +kernel
theorem test_wf_image_signer : WellFormed (.imageVerifyDone { noImage with sigs := [⟨256, true, 0, true, true⟩] }) = false := by decide +kernel
theorem test_wf_unaligned_write : WellFormed (.registerWrite 2 0) = false := by decide +kernel
theorem test_wf_unaligned_counter : WellFormed (.counterLoRead 1) = false := by decide +kernel
theorem test_wf_submit_too_long : WellFormed (.hostSubmit 0 0 0 (natBe 65 0)) = false := by decide +kernel
theorem test_wf_payload_length : WellFormed (.launch demoCfh [0]) = false := by decide +kernel
theorem test_wf_partition : WellFormed (.resend { demoCfh with part := 4096 } []) = false := by decide +kernel
theorem test_wf_link_header : WellFormed (.fabricPacketIngress 0 ⟨0, none⟩ { LinkHdr.none_ with vc := 4 } none demoCfh []) = false := by decide +kernel
theorem test_wf_carried_credit : WellFormed (.fabricPacketIngress 0 ⟨0, none⟩ LinkHdr.none_ (some ⟨0, 0, 2 ^ 16⟩) demoCfh []) = false := by decide +kernel
theorem test_wf_ethernet_type : WellFormed (.ethernetFrameIngress 0 ⟨0, none⟩ { demoEth with etype := 65536 }) = false := by decide +kernel
theorem test_wf_ethernet_tag : WellFormed (.ethernetFrameIngress 0 ⟨0, none⟩ { demoEth with tags := [(0x9100, 1)] }) = false := by decide +kernel
theorem test_wf_credit_class : WellFormed (.creditReturnRx 0 LinkHdr.none_ ⟨8, 0, 1⟩) = false := by decide +kernel
theorem test_wf_table_record : WellFormed (.refreshRequestRx 0 ⟨1, 0, 0, false, false, 64, 0, 0, 0, 0, 0, 0, 0, 0, 0⟩) = false := by decide +kernel
theorem test_wf_path_direction : WellFormed (.pathReserve { demoAsk with dir := 6 }) = false := by decide +kernel
theorem test_wf_path_nanoseconds : WellFormed (.pathArm { demoAsk with ns := 10 ^ 9 }) = false := by decide +kernel
theorem test_wf_clock_domain : WellFormed (.ptpMessageRx 0 0 ⟨256, 0, .delayReq⟩) = false := by decide +kernel
theorem test_wf_clock_priority : WellFormed (.ptpMessageRx 0 0 ⟨0, 0, .announce 256 0 0 0 0 0 0 0 0⟩) = false := by decide +kernel
theorem test_wf_scrub_key : WellFormed (.scrubPass 0 [⟨0, 0, 2 ^ 128, 0, true⟩]) = false := by decide +kernel
theorem test_wf_reading : WellFormed (.pwrTelemetryUpdate ⟨2 ^ 32, 0, 0, 0, 0, [], [], [], 0⟩) = false := by decide +kernel
theorem test_wf_hello_hall : WellFormed (.hello 0 ⟨0, 0, 65536, true⟩) = false := by decide +kernel
theorem test_wf_seal_cells : WellFormed (.linkSeal 0 ⟨0, 0, 65536, false, true⟩) = false := by decide +kernel
theorem test_wf_margin_engines : WellFormed (.marginDone 0 ⟨[], []⟩) = false := by decide +kernel
theorem test_wf_session_frame : WellFormed (.sessionDatagram 0 false 0 0 (.frame (2 ^ 32) 0 false true [])) = false := by decide +kernel
theorem test_wf_session_hello : WellFormed (.sessionDatagram 0 false 0 0 (.hello ⟨0, 2 ^ 128, 0, true⟩)) = false := by decide +kernel
theorem test_wf_twin_shadow : WellFormed (.twinShadowRx 0 (.shadow 0 65536 0 0 0 0)) = false := by decide +kernel
theorem test_wf_twin_copy : WellFormed (.twinShadowRx 0 (.copy demoCfh [0])) = false := by decide +kernel
theorem test_wf_accepts : WellFormed (.launch { demoCfh with len := 1 } [0]) = true := by decide +kernel

/-! ## Values worked out outside the model -/

/-- CRC-32C of the ASCII digits 1 to 9 (the check value of its definition). -/
theorem test_crc32c : crc32c (natBe 9 0x313233343536373839) = 0xE3069283 := by decide +kernel
/-- CRC-32 of the same digits. -/
theorem test_crc32 : crc32 (natBe 9 0x313233343536373839) = 0xCBF43926 := by decide +kernel
/-- CRC-64/ECMA-182 from 0 of the same digits. -/
theorem test_crc64 : crc64 0 (natBe 9 0x313233343536373839) = 0x6C40DF5F0B497347 := by decide +kernel
/-- The first word of Philox4x32-10 at key and counter 0 (its authors' known answer). -/
theorem test_philox : philox 0 0 0 0 0 = 0x6627E8D5 := by decide +kernel
/-- 1.0 in FP32, BF16 and FP16 is 2^149 units of 2^-149. -/
theorem test_one : [decodeEl 0 0 0x3F800000, decodeEl 1 0 0x3F80, decodeEl 2 0 0x3C00] = [.fin (2 ^ 149), .fin (2 ^ 149), .fin (2 ^ 149)] := by decide +kernel
/-- 1.5 + 2.25 = 3.75 and 1/3 rounded to nearest even, in FP32. -/
theorem test_fp32 : (fpAdd 0x3FC00000 0x40100000, fpDiv 0x3F800000 0x40400000) = (0x40700000, 0x3EAAAAAB) := by decide +kernel
/-- A completion record by Table 4.9: TAG 1234h, status 02h, TIME 5, PHASE 1, ESCALATED 3, SATURATED 4, the digest's halves combined. -/
theorem test_record : recordBytes 5 true ⟨0, demoDesc (natBe 4 0x1234 ++ natBe 28 0), .running, 2, 0x0000000F000000F0, 3, 4, false, false⟩
    = natBe 2 0x1234 ++ natBe 1 2 ++ natBe 6 5 ++ natBe 3 0x803004 ++ natBe 4 0xFF := by decide +kernel

/-! ## Single steps -/

/-- What a command's next state shows. -/
def shows {α : Type} (i : Instr) (s : State) (f : State → α) : Option α :=
  match exec i s with
  | .next t => some (f t)
  | _ => none

/-- The scalar register `d` of engine 0's task. -/
def scalar0 (d : Nat) (s : State) : Option Nat := ((engOf s 0).slot0).map (fun x => (SMap.find x.s d).getD 0)

/-- SADD adds two registers and the sign-extended immediate: 6 + 9 − 16 is −1 in 64 bits (R228). -/
theorem test_sadd_sign : shows (.sadd 0 3 1 2 0xFFFFFFF0) (demoEngine (uwMk 0x0A 3 1 2 0 0 0xFFFFFFF0)) (scalar0 3) = some (some 0xFFFFFFFFFFFFFFFF) := by decide +kernel
/-- SSUB with the source as the destination: 6 − 9 wraps (R228). -/
theorem test_ssub_same : shows (.ssub 0 1 1 2) (demoEngine (uwMk 0x0B 1 1 2 0 0 0)) (scalar0 1) = some (some 0xFFFFFFFFFFFFFFFD) := by decide +kernel
/-- SMUL: 6 times 9 (R228). -/
theorem test_smul : shows (.smul 0 4 1 2) (demoEngine (uwMk 0x0C 4 1 2 0 0 0)) (scalar0 4) = some (some 54) := by decide +kernel
/-- A counter write keeps the 20 bits of VALUE (R95). -/
theorem test_counter_write : shows (.eventCounterWrite 0 9 0xFFF00005) (on id) (fun t => counter t 0 9) = some 5 := by decide +kernel
/-- A wait for 2 is met by 2 and by 80001h, and not by 1 or 80002h (R96). -/
theorem test_wait : [2, 0x80001, 1, 0x80002].map (fun v => waitMet (wf (on id) (Reg.HIF_CNT 0 9) F.HIF_CNT_VALUE v) 0 (9, 2)) = [true, true, false, false] := by
  decide +kernel
/-- A lost auxiliary input stops the platform die (R77). -/
theorem test_aux_loss : shows .auxInputLoss (up id) (fun t => (t.plat.auxOk, t.plat.running)) = some (false, false) := by decide +kernel

theorem witness_SuppliesStartAndStopTheModule : (st id).plat.auxOk = false
    ∧ (st (fun s => { s with plat := { s.plat with auxOk := true } })).plat.auxOk = true
    ∧ (st (fun s => { s with plat := { s.plat with auxOk := true } })).plat.resetHeld = true
    ∧ (st (fun s => { s with plat := { s.plat with auxOk := true } })).plat.seq = none
    ∧ (up id).plat.resetHeld = false ∧ (up id).pins.pgMain = false
    ∧ (st (fun s => { s with plat := { s.plat with booting := true } })).plat.booting = true := by decide

theorem witness_ResetsAndImageLoadRun :
    (∃ (sensor : Fin 208) (s : State), (s.plat.running = true) ∧ (rb s Reg.PLT_RESET_CAUSE F.PLT_RESET_CAUSE_TRIPPED = false) ∧ (sensorFitted s sensor = true) ∧ (s.plat.seq = none) ∧ (s.plat.coldPending = none))
    ∧ (∃ (k : SeqKind) (d : Nat) (e : Nat) (rest : List Nat) (s : State), (s.plat.seq = some ⟨k, d :: e :: rest⟩))
    ∧ (∃ (v : Word) (s : State), (s.plat.running = true) ∧ (keyOk v = true) ∧ (wbit v 0 = true) ∧ (wbit v 1 = false) ∧ (downRuns s = false))
    ∧ (∃ (v : Word) (s : State), (s.plat.running = true) ∧ (keyOk v = true) ∧ (wbit v 1 = true))
    ∧ (∃ (v : Word) (s : State), (s.plat.running = true) ∧ (keyOk v = true) ∧ (wbit v 1 = true))
    ∧ (∃ (v : Word) (s : State), (s.plat.running = true) ∧ (held s = false) ∧ (keyOk v = true) ∧ (wbit v 2 = true) ∧ (rb s Reg.IMG_STATUS F.IMG_STATUS_SEALED = false) ∧ (imgSt s = imgLoaded))
    ∧ (∃ (h0 : HdrRead) (h1 : HdrRead) (hostOk : Bool) (slot : ImgSlot) (s : State), (s.plat.running = true) ∧ (imgSt s = imgFetch) ∧ (nextSlot s h0 h1 = some slot) ∧ (headerCode s.otp.variant (if slot = .host then 2 ^ 28 else (slotRead s h0 h1 hostOk slot).bytes) (slotRead s h0 h1 hostOk slot) = 0))
    ∧ (∃ (img : Image) (s : State), (imgSt s = imgSig) ∧ (img.header = s.img.header) ∧ (sourceHolds s img = true) ∧ (verifyImage s.otp.variant (ownerKey s) s.otp.vendorKey s.rot.minSeq s.rot.imageKeys img = none)) := by
  refine ⟨⟨0, up id, ?_⟩, ⟨.trip, 1, 0, [], up (fun s => { s with plat := { s.plat with seq := some ⟨.trip, [1, 0]⟩ } }), ?_⟩, ⟨0xA5000001#32, up id, ?_⟩, ⟨0xA5000003#32, up id, ?_⟩, ⟨0xA5000002#32, up id, ?_⟩, ⟨0xA5000004#32, up (fun s => wf s Reg.IMG_STATUS F.IMG_STATUS_STATE imgLoaded), ?_⟩, ⟨⟨true, demoHeader, 40960⟩, ⟨false, 0, 0⟩, true, .slot0, up (fun s => wf s Reg.IMG_STATUS F.IMG_STATUS_STATE imgFetch), ?_⟩, ⟨demoImage, on (fun s => wf s Reg.IMG_STATUS F.IMG_STATUS_STATE imgSig), ?_⟩⟩ <;> decide +kernel

theorem witness_DuneDomainsAndUnitsStart :
    (∃ (d : Nat) (s : State), (mayEnable s = true) ∧ (nextDune s = some d))
    ∧ (∃ (d : Fin 8) (s : State), (duneSt s d = 1))
    ∧ (∃ (d : Fin 8) (s : State), (duneSt s d = 1))
    ∧ (∃ (d : Fin 8) (paceOk : Bool) (s : State), (duneSt s d = 2) ∧ (paceOk = true))
    ∧ (∃ (d : Fin 8) (memOk : Bool) (s : State), (duneSt s d = 3) ∧ (memOk = true) ∧ (typeActive s 0x12 d = true) ∧ (typeActive s 0x20 d = true))
    ∧ (∃ (d : Fin 8) (idx : Fin 256) (sec : ImgSection) (e : Nat) (s : State), (s.img.dir[idx.val]? = some e) ∧ (bootType (eType e) = false) ∧ (s.img.accepted = true) ∧ ([2, 3, 4].contains (duneSt s d) = true) ∧ ((entryDunes s e).contains d.val = true) ∧ (s.img.active.contains (idx.val, d.val) = false) ∧ (s.img.discarded.contains idx.val = false) ∧ (sectionHeld s e sec = true) ∧ ((isPreload e && held s) = false) ∧ (awaitsLibrary s e = false) ∧ (bulkCode s idx.val e sec = 0))
    ∧ (∃ (k : Fin 12) (ok : Bool) (s : State), (ok = true) ∧ (duneUp s (stackDune k) = true) ∧ (stackOwned s k = true) ∧ (stackReady s k = false) ∧ (SMap.get (fun _ => 0) s.plat.oasisFails k < 3))
    ∧ (∃ (k : Fin 12) (s : State), (stackReady s k = true))
    ∧ (∃ (g : Fin 4096) (ok : Bool) (s : State), (ok = true) ∧ (duneUp s (g.val / 512) = true) ∧ (engSt s g = engOff) ∧ (s.plat.selfTestFailed.contains g.val = false) ∧ (microcodeLoaded s g = true) ∧ (s.plat.quarantine.contains g.val = false))
    ∧ (∃ (r : PwrReadings) (s : State), (s.plat.running = true))
    ∧ (∃ (s : State), (s.plat.running = true))
    ∧ (∃ (v : Word) (s : State), (s.plat.running = true) ∧ (held s = false) ∧ (rb s Reg.IMG_STATUS F.IMG_STATUS_SEALED = false) ∧ (trimIndexOk s.otp.variant (rf s Reg.PLT_TRIM_SEL F.PLT_TRIM_SEL_PARAM) (rf s Reg.PLT_TRIM_SEL F.PLT_TRIM_SEL_INDEX) = true)) := by
  refine ⟨⟨1, on (fun s => wf s Reg.IMG_STATUS F.IMG_STATUS_STATE imgPower), ?_⟩, ⟨0, on (fun s => wn s Reg.PLT_DUNE_STATE 1), ?_⟩, ⟨0, on (fun s => wn s Reg.PLT_DUNE_STATE 1), ?_⟩, ⟨0, true, on (fun s => wn s Reg.PLT_DUNE_STATE 2), ?_⟩, ⟨0, true, on (fun s => { wn s Reg.PLT_DUNE_STATE 3 with img := { s.img with active := [(5, 0), (6, 0)] } }), ?_⟩, ⟨0, 5, demoSection (demoEntry 5 0x12 1 256) (natBe 256 0), demoEntry 5 0x12 1 256, on id, ?_⟩, ⟨0, true, onJob (fun s => setStackReady s 0 false), ?_⟩, ⟨0, on (fun s => setStackReady s 0 true), ?_⟩, ⟨0, true, on (fun s => { s with img := { s.img with active := [(5, 0), (6, 0)] } }), ?_⟩, ⟨⟨54000, 10, 540, 5000, 1, [], [], [], 0⟩, on id, ?_⟩, ⟨on id, ?_⟩, ⟨5#32, on (fun s => wf s Reg.PLT_TRIM_SEL F.PLT_TRIM_SEL_PARAM 1), ?_⟩⟩ <;> decide +kernel

theorem witness_HostAccessesHaveTheirEffect :
    (∃ (a : BitVec 26) (isRead : Bool) (s : State), (s.plat.running = true))
    ∧ (∃ (a : BitVec 26) (isRead : Bool) (d : Nat) (s : State), (windowDune a.toNat = some d) ∧ (s.plat.running = true) ∧ (duneUp s d = false))
    ∧ (∃ (a : BitVec 26) (s : State), ((match windowDune (regHome a.toNat) with | none => s.plat.running | some d => winOk s d) = true) ∧ (counterLo (regHome a.toNat) = true))
    ∧ (∃ (d : Fin 8) (q : Fin 2048) (off : Fin 64) (bytes : List Byte) (s : State), (s.plat.running = true) ∧ (duneUp s d = true) ∧ (off = 0) ∧ (bytes.length = 64))
    ∧ (∃ (c : Cfh) (payload : List Byte) (s : State), (s.plat.running = true) ∧ (isDoorbell s c = true) ∧ (submitFormOk payload = true))
    ∧ (∃ (c : Cfh) (payload : List Byte) (s : State), (s.plat.running = true) ∧ (isDoorbell s c = true) ∧ (addFormOk payload = true))
    ∧ (∃ (d : Fin 8) (i : Fin 4095) (v : Word) (s : State), (winOk s d = true) ∧ (held s = false)) := by
  refine ⟨⟨3, true, on id, ?_⟩, ⟨0x2400000#26, true, 1, on id, ?_⟩, ⟨BitVec.ofNat 26 Reg.MGT_EXPEL_DROP, on id, ?_⟩, ⟨0, 5, 0, natBe 64 0, on id, ?_⟩, ⟨{ demoCfh with cls := 0, dst := doorbellEp (on id) }, natBe 1 1 ++ natBe 1 1 ++ natBe 2 5 ++ natBe 4 0 ++ natBe 64 0, on id, ?_⟩, ⟨{ demoCfh with cls := 0, dst := doorbellEp (on id) }, natBe 1 2 ++ natBe 1 0 ++ natBe 2 5 ++ natBe 4 7, on id, ?_⟩, ⟨0, 9, 5#32, on id, ?_⟩⟩ <;> decide +kernel

theorem witness_QueuesOfCommandsAndCompletions :
    (∃ (d : Fin 8) (q : Fin 2048) (v : Word) (s : State), (winOk s d = true) ∧ (getF v F.HIF_CQ_CFG_ENABLE = 1) ∧ (held s = false) ∧ (cqState (cqWriteCfg s d q v) d q = 0) ∧ (cqEnableCause (cqWriteCfg s d q v) d q = 0))
    ∧ (∃ (d : Fin 8) (q : Fin 2048) (v : Word) (s : State), (winOk s d = true) ∧ (getF v F.HIF_CQ_CFG_ENABLE = 0) ∧ (held s = false))
    ∧ (∃ (d : Fin 8) (q : Fin 2048) (s : State), (winOk s d = true) ∧ (cqState s d q = 4))
    ∧ (∃ (d : Fin 8) (n : Fin 2048) (v : Word) (s : State), (winOk s d = true) ∧ (getF v F.HIF_CNQ_CFG_ENABLE = 1) ∧ (held s = false) ∧ (cnqOn (cnqWriteNotice s d n v) d n = false))
    ∧ (∃ (d : Fin 8) (n : Fin 2048) (v : Word) (s : State), (winOk s d = true) ∧ (getF v F.HIF_CNQ_CFG_ENABLE = 0) ∧ (held s = false) ∧ (cnqOn s d n = true) ∧ ((cnqOf s d n).typ = 0 → cnqBound s d n = false))
    ∧ (∃ (d : Fin 8) (n : Fin 2048) (v : Word) (s : State), (winOk s d = true) ∧ (cnqOn s d n = true) ∧ ((cnqOf s d n).dest = 0) ∧ ((cnqOf s d n).typ = 0))
    ∧ (∃ (d : Fin 8) (n : Fin 2048) (s : State), (winOk s d = true) ∧ (cnqOn s d n = true) ∧ ((cnqOf s d n).dest = 0) ∧ (0 < cnqFill s d n) ∧ (rf s (Reg.HIF_CNQ_TMO d n) F.HIF_CNQ_TMO_TMO ≠ 0))
    ∧ (∃ (d : Fin 8) (n : Fin 2048) (s : State), (winOk s d = true) ∧ (cnqOn s d n = true) ∧ (rb s (Reg.HIF_CNQ_CTRL d n) F.HIF_CNQ_CTRL_FLUSH_PENDING = false))
    ∧ (∃ (d : Fin 8) (n : Fin 2048) (s : State), (winOk s d = true) ∧ (cnqOn s d n = true) ∧ ((cnqOf s d n).dest = 1) ∧ ((cnqOf s d n).typ = 0) ∧ ((cnqOf s d n).gathered ≠ [])) := by
  refine ⟨⟨0, 5, 0x80000000#32, onJob id, ?_⟩, ⟨0, 5, 0#32, on id, ?_⟩, ⟨0, 5, on (fun s => setCqState s 0 5 4), ?_⟩, ⟨0, 5, 0x80000000#32, on id, ?_⟩, ⟨0, 5, 0#32, on (fun s => wf s (Reg.HIF_CNQ_CFG 0 5) F.HIF_CNQ_CFG_ENABLE 1), ?_⟩, ⟨0, 5, 0#32, on (fun s => wf s (Reg.HIF_CNQ_CFG 0 5) F.HIF_CNQ_CFG_ENABLE 1), ?_⟩, ⟨0, 5, on (fun s => setCnq (wn (wf (wf s (Reg.HIF_CNQ_CFG 0 5) F.HIF_CNQ_CFG_ENABLE 1) (Reg.HIF_CNQ_TMO 0 5) F.HIF_CNQ_TMO_TMO 1) (Reg.HIF_CNQ_TAIL 0 5) 1) 0 5 { cnqOf s 0 5 with typ := 1, log2 := 12 }), ?_⟩, ⟨0, 5, on (fun s => wf s (Reg.HIF_CNQ_CFG 0 5) F.HIF_CNQ_CFG_ENABLE 1), ?_⟩, ⟨0, 5, on (fun s => setCnq (wf s (Reg.HIF_CNQ_CFG 0 5) F.HIF_CNQ_CFG_ENABLE 1) 0 5 { cnqOf s 0 5 with dest := 1, gathered := [[0]], count := 1 }), ?_⟩⟩ <;> decide +kernel

theorem witness_ManagementPortsAnswer :
    (∃ (p : Fin 2) (v6 : Bool) (w : Fin 4) (v : Word) (s : State), (s.plat.running = true) ∧ (held s = false))
    ∧ (∃ (p : Fin 2) (s : State), (s.plat.running = true))
    ∧ (∃ (p : Fin 2) (v6 : Bool) (s : State), (s.plat.running = true) ∧ ((mpOf s p).linkUp = true) ∧ (mpFamily s p v6 = true))
    ∧ (∃ (p : Fin 2) (vid : Fin 4096) (target : BitVec 32) (sender : BitVec 32) (mac : BitVec 48) (s : State), (s.plat.running = true) ∧ ((mpOf s p).linkUp = true) ∧ (mpHears s p vid = true) ∧ (mpFamily s p false = true) ∧ (target.toNat = mpV4 s p))
    ∧ (∃ (p : Fin 2) (vid : Fin 4096) (target : BitVec 128) (sender : BitVec 128) (mac : BitVec 48) (s : State), (s.plat.running = true) ∧ ((mpOf s p).linkUp = true) ∧ (mpHears s p vid = true) ∧ (mpFamily s p true = true) ∧ (mpOwnV6 s p target.toNat = true))
    ∧ (∃ (p : Fin 2) (vid : Fin 4096) (v6 : Bool) (dst : BitVec 128) (src : BitVec 128) (data : List Byte) (s : State), (s.plat.running = true) ∧ ((mpOf s p).linkUp = true) ∧ (mpHears s p vid = true) ∧ (mpFamily s p v6 = true) ∧ ((if v6 then mpOwnV6 s p dst.toNat else dst.toNat == mpV4 s p) = true) ∧ (rb s (Reg.HIF_MP_CFG p) F.HIF_MP_CFG_ICMP_EN = true) ∧ (echoSent s p < 100))
    ∧ (∃ (p : Fin 2) (f : MgmtFrame) (s : State), (s.plat.running = true) ∧ ((mpOf s p).linkUp = true) ∧ (mpAccepts s p f = false))
    ∧ (∃ (p : Fin 2) (v6 : Bool) (ip : BitVec 128) (mac : BitVec 48) (s : State), (s.plat.running = true) ∧ ((mpOf s p).linkUp = true) ∧ (mpFamily s p v6 = true) ∧ (ip.toNat = (if v6 then mpGw6 s p else mpGw4 s p)) ∧ (ip ≠ 0))
    ∧ (∃ (r : I3cReg) (s : State), (s.plat.auxOk = true) ∧ (s.plat.running = true))
    ∧ (∃ (v : Word) (s : State), (s.plat.running = true) ∧ (keyOk v = true) ∧ (wbit v 1 = true)) := by
  refine ⟨⟨0, false, 0, 0x0A000001#32, on id, ?_⟩, ⟨0, on id, ?_⟩, ⟨0, false, onPort id, ?_⟩, ⟨0, 0, 0x0A000001#32, 0x0A000002#32, 7#48, onPort id, ?_⟩, ⟨0, 0, BitVec.ofNat 128 (linkLocal (onPort id) 0), 5#128, 7#48, onPort id, ?_⟩, ⟨0, 0, false, 0x0A000001#128, 0x0A000002#128, [1], onPort id, ?_⟩, ⟨0, .other, onPort id, ?_⟩, ⟨0, false, 0x0A0000FE#128, 7#48, onPort id, ?_⟩, ⟨.pwr 45, on id, ?_⟩, ⟨0xA5000002#32, on id, ?_⟩⟩ <;> decide +kernel

theorem witness_PacketsEnterAndLeaveTheSwitch :
    (∃ (port : Fin 4096) (sub : Fin 8) (h : LinkHdr) (cr : Option CreditRet) (c : Cfh) (payload : List Byte) (err : Option ScrubErr) (lane : Nat) (s : State), (laneOfPort s port.val sub.val = some lane) ∧ (linkCarries s port.val = true) ∧ (portEth s port.val = false) ∧ (c.cls < 6) ∧ (h.cls = c.cls) ∧ (vcPermitted h.vc h.cls = true) ∧ (cr = none) ∧ (h.wadiSel = false) ∧ (fabricCells payload.length ≤ granted s port.val c.cls h.vc) ∧ (c.len ≤ 8192) ∧ (c.len = payload.length))
    ∧ (∃ (port : Fin 4096) (sub : Fin 8) (f g : EthFrame) (err : Option ScrubErr) (lane : Nat) (s : State), (laneOfPort s port.val sub.val = some lane) ∧ (linkCarries s port.val = true) ∧ (portEth s port.val = true) ∧ (frameLen f ≤ 9216) ∧ (parseFrame f = some g) ∧ (rb s Reg.FWD_CFG F.FWD_CFG_LEARN_MAC = false) ∧ (g.etype ≠ rf s Reg.FWD_ETH_CFG F.FWD_ETH_CFG_CFH_ETYPE))
    ∧ (∃ (out : Fin 8) (lane : Fin 2048) (k : SwPkt) (s : State), ((nextAdmit s out.val lane.val).map (·.1) = some k) ∧ (lowerLane s out.val lane.val k = false))
    ∧ (∃ (d : Fin 8) (q : Fin 16384) (bad : Bool) (pg : SpillPage) (rest : List SpillPage) (no : Nat) (k : SwPkt) (more : List (Nat × SwPkt)) (s : State), ((hwq s d.val q.val).pages = pg :: rest) ∧ ((hwq s d.val q.val).pkts = (no, k) :: more) ∧ (pg.requested = true) ∧ (duneUp s d.val = true) ∧ (bad = false))
    ∧ (∃ (port : Fin 4096) (c : Nat) (h : Head) (s : State), ((portRec s port.val).isSome = true) ∧ (portMaySend s port.val = true) ∧ ((pickClass (((List.range 7).map (classHeads (shapeAll (joinPort (dropNofit port.val 4096 s) port.val) (firstLane s port.val)) port.val)).flatten.foldl (noteWait port.val) (shapeAll (joinPort (dropNofit port.val 4096 s) port.val) (firstLane s port.val))) port.val).bind (fun c => (pickHead (((List.range 7).map (classHeads (shapeAll (joinPort (dropNofit port.val 4096 s) port.val) (firstLane s port.val)) port.val)).flatten.foldl (noteWait port.val) (shapeAll (joinPort (dropNofit port.val 4096 s) port.val) (firstLane s port.val))) port.val c).map (fun h => (c, h))) = some (c, h)))
    ∧ (∃ (port : Fin 4096) (h : LinkHdr) (cr : CreditRet) (s : State), (linkCarries s port.val = true) ∧ (portEth s port.val = false) ∧ (h.cls ≠ 7) ∧ (vcPermitted h.vc h.cls = true))
    ∧ (∃ (port : Fin 4096) (cr : CreditRet) (s : State), (portEth s port.val = false) ∧ (portMaySend s port.val = true) ∧ (nextReturn s port.val = some cr)) := by
  refine ⟨⟨0, 0, LinkHdr.none_, none, demoCfh, [], none, 0, onLink 0 1 (fun s => setGranted s 0 0 0 5), ?_⟩, ⟨0, 0, demoEth, demoEth, none, 0, onLink 1 0 (fun s => wn s Reg.FWD_CFG 0), ?_⟩, ⟨0, 0, demoPkt, onLink 0 1 (fun s => { s with swc := { s.swc with mesh := [demoPkt] } }), ?_⟩, ⟨0, 3, false, ⟨0, true, [7]⟩, [], 7, demoPkt, [], on (fun s => setHwq s 0 3 { HwQueue.empty with pkts := [(7, demoPkt)], pages := [⟨0, true, [7]⟩] }), ?_⟩, ⟨0, 4, ⟨egressQ 0 0 4, { demoPkt with cls := 4 }, 0, false⟩, onLink 1 0 (fun s => setHwq s 0 (egressQ 0 0 4) { HwQueue.empty with pkts := [(7, { demoPkt with cls := 4 })], head := [7] }), ?_⟩, ⟨0, LinkHdr.none_, ⟨0, 0, 3⟩, onLink 0 1 id, ?_⟩, ⟨0, ⟨1, 0, 3⟩, onLink 0 1 (fun s => setReturns s 0 1 0 3), ?_⟩⟩ <;> decide +kernel

theorem witness_SwitchUnitsAreProgrammed :
    (∃ (d : Fin 8) (n : BitVec 16) (s : State), (duneUp s d = true))
    ∧ (∃ (d : Fin 8) (r : Fin 32) (pace : BitVec 16) (s : State), (duneUp s d = true))
    ∧ (∃ (d : Fin 8) (p : Fin 16) (c : Fin 8) (v : Word) (s : State), (winOk s d = true) ∧ ((scopeOf s p).isSome = true) ∧ (held s = false) ∧ (sumNat (((List.range 8).filter (fun x => x != c.val)).map (fun i => poolMax s d p i)) + getF v F.SWC_POOL_MAX_MAX ≤ scopeQuota s d p))
    ∧ (∃ (d : Fin 8) (i : Fin 8192) (v : Word) (s : State), (winOk s d = true) ∧ (held s = false) ∧ (wbit v 31 = true))
    ∧ (∃ (d : Fin 8) (m : Fin 64) (v : Word) (s : State), (winOk s d = true) ∧ (held s = false) ∧ ((mirSource (softWrite s (Reg.SWC_MIR0 d m) v) d m).any (fun x => x != mirDest (softWrite s (Reg.SWC_MIR0 d m) v) d m) = false))
    ∧ (∃ (d : Fin 8) (pk : PuntPkt) (rest : List PuntPkt) (s : State), (puntQueue s d = pk :: rest) ∧ (duneUp s d = true) ∧ (rb s (Reg.FWD_PUNT_CFG d) F.FWD_PUNT_CFG_EN = true)) := by
  refine ⟨⟨0, 499, on id, ?_⟩, ⟨0, 3, 1299, on id, ?_⟩, ⟨0, 0, 0, 0#32, on (fun s => { s with img := { s.img with cfg := { s.img.cfg with scopes := [⟨0, 0, 768, 2 ^ 256 - 1, 1, 1⟩], quotas := [] } } }), ?_⟩, ⟨0, 3, 0x80000000#32, on id, ?_⟩, ⟨0, 3, 0x80000000#32, on id, ?_⟩, ⟨0, ⟨1, 1, 0, 64, 0, 0, [], 0, 1⟩, [], on (fun s => setPunt (wf s (Reg.FWD_PUNT_CFG 0) F.FWD_PUNT_CFG_EN 1) 0 [⟨1, 1, 0, 64, 0, 0, [], 0, 1⟩]), ?_⟩⟩ <;> decide +kernel

theorem witness_ForwardingTablesChange :
    (∃ (v : Word) (s : State), (s.plat.running = true) ∧ ((dunesUp s).isEmpty = false) ∧ (wbit v 31 = true) ∧ (held s = false) ∧ ((windowZone s).any (fun z => (shadowOf s z).lost) = false))
    ∧ (∃ (d : Fin 8) (c : SeqChange) (rest : List SeqChange) (s : State), (changeQueue s d = c :: rest) ∧ (duneUp s d = true))
    ∧ (∃ (port : Fin 4096) (c : Cfh) (payload : List Byte) (s : State), (mgtAccepted s port c = true) ∧ (neighbourRole s port = true) ∧ (c.dst = 0xFFFFFE) ∧ (beAt payload 0 1 = 1) ∧ (beAt payload 1 1 ≠ 0) ∧ (beAt payload 1 1 ≤ 21) ∧ (payload.length = 8 + 48 * beAt payload 1 1))
    ∧ (∃ (d : Fin 8) (errs : List ScrubErr) (s : State), (duneUp s d = true) ∧ (zoneDune s (duneZone s d) ≠ some d.val) ∧ (errs = []))
    ∧ (∃ (d : Fin 8) (shadowBad : Bool) (m : Mark) (s : State), (s.fwd.marks.find? (fun m => m.dune == d.val && !markBusy s m) = some m) ∧ (duneUp s d = true) ∧ (held s = false) ∧ ((shadowOf s (duneZone s m.dune)).lost = false) ∧ (shadowBad = false))
    ∧ (∃ (port : Fin 4096) (r : TblRec) (s : State), (linkCarries s port = true) ∧ (portEth s port = false) ∧ (neighbourRole s port = true) ∧ (r.op = 3) ∧ (held s = false) ∧ (recOk r = true) ∧ (recPart r = hallPart s (portScope s port)) ∧ ((refreshAnswer (bump64 s (Reg.FWD_LEARN_RX (portDune s port)) 1) r).isSome = true))
    ∧ (∃ (d : Fin 8) (x : Refresh) (s : State), (s.fwd.refresh.find? (fun x => x.dune == d.val && decide (x.due ≤ s.clock)) = some x) ∧ (held s = false) ∧ ((shadowOf s (duneZone s x.dune)).lost = false))
    ∧ (∃ (z k d : Nat) (s : State), (zones s = [z]) ∧ ((zoneStacks s z).head? = some k) ∧ (zoneDune s z = some d) ∧ ((shadowOf s z).lost = true))
    ∧ (∃ (z : Nat) (s : State), (zones s = [z])) := by
  refine ⟨⟨0x80000000#32, on id, ?_⟩, ⟨0, ⟨1, []⟩, [], on (fun s => { s with fwd := { s.fwd with queues := [(0, [⟨1, []⟩])] } }), ?_⟩, ⟨0, { demoCfh with dst := 0xFFFFFE }, natBe 8 0x0101000000000000 ++ natBe 48 0, onLink 0 1 id, ?_⟩, ⟨1, [], on (fun s => wn s Reg.PLT_DUNE_STATE 0x44), ?_⟩, ⟨0, false, ⟨0, 0, 4, 0, 0⟩, on (fun s => { s with fwd := { s.fwd with marks := [⟨0, 0, 4, 0, 0⟩] } }), ?_⟩, ⟨0, refreshReq (0, demoKey, 0) 1, onLink 0 1 (fun s => setShadow s 0 { Shadow.empty with tables := { Tables.empty with em := [((emPlaces [] demoKey).headD 0, ⟨1, 1, false, false, 0, demoKey, 2 ^ 60⟩)] } }), ?_⟩, ⟨0, ⟨0, 0, 4, [], 0⟩, on (fun s => { s with fwd := { s.fwd with refresh := [⟨0, 0, 4, [], 0⟩] } }), ?_⟩, ⟨0, 0, 0, onJob (fun s => setShadow s 0 { Shadow.empty with lost := true }), ?_⟩, ⟨0, onJob id, ?_⟩⟩ <;> decide +kernel

theorem witness_RoutingMeasuresAndContexts :
    (∃ (s : State), ((dunesUp s).isEmpty = false))
    ∧ (∃ (port : Fin 4096) (cls : Fin 8) (k : SwPkt) (s : State), (headPkt (hwq s (portDune s port) (portQ s port 0 cls)) = some k) ∧ (portRole s port = 1) ∧ (creditClass cls = true) ∧ (portMaySend s port = true) ∧ ((hwq s (portDune s port) (portQ s port 0 cls)).headSince + escTmo s ≤ s.clock) ∧ (hasCredit s port ⟨portQ s port 0 cls, k, 0, false⟩ = false) ∧ (eligible s port ⟨portQ s port 0 cls, k, 1, false⟩ = true))
    ∧ (∃ (port : Fin 4096) (since : Nat) (s : State), (SMap.find s.rte.wadiSel port = some since) ∧ (since + 10 * usUnit ≤ s.clock))
    ∧ (∃ (port : Fin 4096) (since : Nat) (s : State), (SMap.find s.rte.selSent port = some since) ∧ (since + 10 * usUnit ≤ s.clock) ∧ (selAbsent s (SMap.find s.rte.wadiSel port) = false))
    ∧ (∃ (d : Fin 8) (k : Fin 262144) (x : DstCtx) (s : State), (dstAt s d k = some x) ∧ (x.held ≠ []) ∧ (x.heldAt + 50 * usUnit ≤ s.clock))
    ∧ (∃ (d : Fin 8) (ctx : BitVec 16) (x : SrcCtx) (s : State), (SMap.find s.rte.src (d.val * 65536 + ctx.toNat) = some x) ∧ (x.live = true) ∧ (x.last + 2 * lifetime s ≤ s.clock))
    ∧ (∃ (d : Fin 8) (k : Fin 262144) (x : DstCtx) (s : State), (dstAt s d k = some x) ∧ (x.held = []) ∧ (x.last + lifetime s ≤ s.clock))
    ∧ (∃ (s : State), ((dunesUp s).isEmpty = false))
    ∧ (∃ (s : State), ((dunesUp s).isEmpty = false)) := by
  refine ⟨⟨on id, ?_⟩, ⟨0, 1, demoPkt, onLink 0 1 (fun s => setCredHeld (setHwq { s with clock := 2 ^ 60 } 0 (egressQ 0 0 1) { HwQueue.empty with pkts := [(7, demoPkt)], head := [7] }) 0 1 1 9), ?_⟩, ⟨0, 0, on (fun s => { s with clock := 2 ^ 60, rte := { s.rte with wadiSel := [(0, 0)] } }), ?_⟩, ⟨0, 0, on (fun s => { s with clock := 2 ^ 60, rte := { s.rte with selSent := [(0, 0)] } }), ?_⟩, ⟨0, 0, ⟨0, 1, 0, 3, 0, some 0, [demoPkt], 0, 0⟩, on (fun s => { s with clock := 2 ^ 60, rte := { s.rte with dst := [⟨0, 1, 0, 3, 0, some 0, [demoPkt], 0, 0⟩] } }), ?_⟩, ⟨0, 3#16, ⟨true, 0, 1, 0, 0, 0, 0⟩, on (fun s => { s with clock := 2 ^ 60, rte := { s.rte with src := [(3, ⟨true, 0, 1, 0, 0, 0, 0⟩)] } }), ?_⟩, ⟨0, 0, ⟨0, 1, 0, 3, 0, some 0, [], 0, 0⟩, on (fun s => { s with clock := 2 ^ 60, rte := { s.rte with dst := [⟨0, 1, 0, 3, 0, some 0, [], 0, 0⟩] } }), ?_⟩, ⟨on id, ?_⟩, ⟨on id, ?_⟩⟩ <;> decide +kernel

theorem witness_RoutingTablesFlip :
    (∃ (w : Option Word) (x : Word) (s : State), (s.plat.running = true) ∧ ((dunesUp s).isEmpty = false) ∧ (w = some x) ∧ (held s = false) ∧ (rf s Reg.RTE_TBL_SEL F.RTE_TBL_SEL_VER ≠ activeVer s) ∧ (verWritable s (rf s Reg.RTE_TBL_SEL F.RTE_TBL_SEL_VER) = true))
    ∧ (∃ (b : Bool) (s : State), (b2n b ≠ activeVer s) ∧ (s.rte.armed = none) ∧ ((rteTable s (b2n b)).lastActive + lifetime s ≤ s.clock))
    ∧ (∃ (v : Word) (s : State), (s.plat.running = true) ∧ ((dunesUp s).isEmpty = false) ∧ (keyOk v = true) ∧ (wbit v 1 = true) ∧ (flipRefusal s = none))
    ∧ (∃ (v : Word) (i : Nat) (s : State), (s.plat.running = true) ∧ ((dunesUp s).isEmpty = false) ∧ (held s = false) ∧ (s.rte.armed = some i) ∧ (keyOk v = true) ∧ (wbit v 2 = true) ∧ (s.clock + 100 * usUnit ≤ i))
    ∧ (∃ (i : Nat) (s : State), (s.rte.armed = some i) ∧ (i ≤ s.clock)) := by
  refine ⟨⟨some 5#32, 5#32, on (fun s => wf (wf s Reg.RTE_TBL_SEL F.RTE_TBL_SEL_VER 1) Reg.RTE_STATUS F.RTE_STATUS_B_WRITABLE 1), ?_⟩, ⟨true, on (fun s => { s with clock := 2 ^ 60 }), ?_⟩, ⟨0xA5000002#32, on (fun s => wn (wf (wf s Reg.RTE_STATUS F.RTE_STATUS_B_WRITABLE 1) Reg.PLT_READY_SUM F.PLT_READY_SUM_TIM_READY 1) (Reg.RTE_FLIP_SEC 1) 5), ?_⟩, ⟨0xA5000004#32, 2 ^ 60, on (fun s => { s with rte := { s.rte with armed := some (2 ^ 60) } }), ?_⟩, ⟨0, on (fun s => { s with rte := { s.rte with armed := some 0 } }), ?_⟩⟩ <;> decide +kernel

theorem witness_GateListsAndShapers :
    (∃ (pg : Fin 256) (s : State), (duneUp s (pg.val / 32) = true))
    ∧ (∃ (pg : Fin 256) (v : Word) (s : State), (winOk s (pg.val / 32) = true) ∧ (keyOk v = true) ∧ (wbit v 1 = true) ∧ (armRefusal s pg = none))
    ∧ (∃ (pg : Fin 256) (v : Word) (a : GateGeom) (s : State), (winOk s (pg.val / 32) = true) ∧ (held s = false) ∧ ((pgOf s pg).armed = some a) ∧ (keyOk v = true) ∧ (wbit v 2 = true) ∧ (s.clock + 100 * usUnit ≤ a.base))
    ∧ (∃ (pg : Fin 256) (v : Word) (s : State), (winOk s (pg.val / 32) = true) ∧ (held s = false) ∧ (keyOk v = true) ∧ (wbit v 3 = true))
    ∧ (∃ (pg : Fin 256) (a : GateGeom) (s : State), ((pgOf s pg).armed = some a) ∧ (a.base ≤ s.clock) ∧ (pgSt s pg = 1) ∧ (duneUp s (pg.val / 32) = true))
    ∧ (∃ (pg : Fin 256) (k : GateGeom) (s : State), ((pgOf s pg).list = some k) ∧ (pgSt s pg = 4) ∧ (timReady s = true) ∧ (resumeAt s pg k ≤ s.clock) ∧ (duneUp s (pg.val / 32) = true))
    ∧ (∃ (d : Fin 8) (w : Option Word) (x : Word) (s : State), (winOk s d = true) ∧ (w = some x) ∧ (held s = false) ∧ (bankBusy s (glGroup s d) (glBank s d) = false))
    ∧ (∃ (d : Fin 8) (k : Fin 256) (c : Fin 8) (v : Word) (s : State), (winOk s d = true) ∧ (held s = false)) := by
  refine ⟨⟨0, on id, ?_⟩, ⟨0, 0xA5000002#32, onGate id, ?_⟩, ⟨0, 0xA5000004#32, ⟨1, 0, 0, 2 ^ 60⟩, on (fun s => setPg s 0 { PortGroup.empty with armed := some ⟨1, 0, 0, 2 ^ 60⟩ }), ?_⟩, ⟨0, 0xA5000008#32, on id, ?_⟩, ⟨0, ⟨1, 0, 0, 0⟩, on (fun s => setPgSt (setPg s 0 { PortGroup.empty with armed := some ⟨1, 0, 0, 0⟩ }) 0 1), ?_⟩, ⟨0, ⟨1, 1, 1000, 0⟩, on (fun s => setPgSt (setPg (wf { s with clock := 2 ^ 60 } Reg.PLT_READY_SUM F.PLT_READY_SUM_TIM_READY 1) 0 { PortGroup.empty with list := some ⟨1, 1, 1000, 0⟩ }) 0 4), ?_⟩, ⟨0, some 5#32, 5#32, on id, ?_⟩, ⟨0, 0, 0, 5#32, on id, ?_⟩⟩ <;> decide +kernel

theorem witness_QueueHeadsAreDispatched :
    (∃ (d : Fin 8) (q : Fin 2048) (y : Slot) (s : State), (queueRuns s d q = true) ∧ (headSlot s d q = some y) ∧ (descOk y = true) ∧ (namesOk s d q y.desc = true) ∧ (headBlocked s d q y = false) ∧ (waitsUnmet s d q y.desc = false))
    ∧ (∃ (d : Fin 8) (q : Fin 2048) (y : Slot) (s : State), (queueRuns s d q = true) ∧ (headSlot s d q = some y) ∧ (descOk y = false))
    ∧ (∃ (d : Fin 8) (q : Fin 2048) (y : Slot) (s : State), (queueRuns s d q = true) ∧ (headSlot s d q = some y) ∧ (descOk y = true) ∧ (namesOk s d q y.desc = false))
    ∧ (∃ (d : Fin 8) (q : Fin 2048) (y : Slot) (s : State), (queueRuns s d q = true) ∧ (headSlot s d q = some y) ∧ (descOk y = true) ∧ (namesOk s d q y.desc = true) ∧ ((headBlocked s d q y || waitsUnmet s d q y.desc) = true))
    ∧ (∃ (d : Fin 8) (q : Fin 2048) (y : Slot) (s : State), (queueRuns s d q = true) ∧ (headSlot s d q = some y) ∧ (rf s (Reg.HIF_CQ_WAIT_TMO d q) F.HIF_CQ_WAIT_TMO_TMO ≠ 0) ∧ (descOk y = true) ∧ (namesOk s d q y.desc = true) ∧ (waitsUnmet s d q y.desc = true))
    ∧ (∃ (d : Fin 8) (q : Fin 2048) (y : Slot) (s : State), (duneUp s d = true) ∧ (workStopped s = false) ∧ (runningSlot s d q (fun x => x == 0) = some y))
    ∧ (∃ (d : Fin 8) (q : Fin 2048) (y : Slot) (s : State), (duneUp s d = true) ∧ (workStopped s = false) ∧ ((cqOf s d q).slots.find? (fun y => y.st == .running && dOpcode y.desc == 1 && !s.col.groups.any (fun g => g.2.opened.any (fun c => c.abortBy == some (flatQ d q, y.no)))) = some y) ∧ ((cqOf s d (dSrc y.desc / 65536 % 2048)).slots.find? (fun z => dTag z.desc == dSrc y.desc % 65536 && slotOpen z) = none))
    ∧ (∃ (d : Fin 8) (q : Fin 2048) (y z : Slot) (s : State), (duneUp s d = true) ∧ (workStopped s = false) ∧ ((cqOf s d q).slots.find? (fun y => y.st == .running && dOpcode y.desc == 1 && !s.col.groups.any (fun g => g.2.opened.any (fun c => c.abortBy == some (flatQ d q, y.no)))) = some y) ∧ ((cqOf s d (dSrc y.desc / 65536 % 2048)).slots.find? (fun z => dTag z.desc == dSrc y.desc % 65536 && slotOpen z) = some z) ∧ (collOfCmd s (flatQ d (dSrc y.desc / 65536 % 2048)) z.no = none))
    ∧ (∃ (d : Fin 8) (q : Fin 2048) (y z : Slot) (g : Nat) (c : Coll) (s : State), (duneUp s d = true) ∧ (workStopped s = false) ∧ ((cqOf s d q).slots.find? (fun y => y.st == .running && dOpcode y.desc == 1 && !s.col.groups.any (fun g => g.2.opened.any (fun c => c.abortBy == some (flatQ d q, y.no)))) = some y) ∧ ((cqOf s d (dSrc y.desc / 65536 % 2048)).slots.find? (fun z => dTag z.desc == dSrc y.desc % 65536 && slotOpen z) = some z) ∧ (collOfCmd s (flatQ d (dSrc y.desc / 65536 % 2048)) z.no = some (g, c)) ∧ (c.abortBy = none) ∧ (c.decided = none)) := by
  refine ⟨⟨0, 5, ⟨0, demoNop, .waiting, 0, 0, 0, 0, false, false⟩, onQueue demoNop .waiting id, ?_⟩,
    ⟨0, 5, ⟨0, demoDesc (natBe 1 2 ++ natBe 31 0), .waiting, 0, 0, 0, 0, false, false⟩, onQueue (demoDesc (natBe 1 2 ++ natBe 31 0)) .waiting id, ?_⟩,
    ⟨0, 5, ⟨0, demoForeign, .waiting, 0, 0, 0, 0, false, false⟩, onQueue demoForeign .waiting (fun s => { s with img := { s.img with cfg := { s.img.cfg with scopes := [⟨0, 0, 768, 1, 1, 1⟩, ⟨1, 1, 768, 2, 1, 1⟩] } } }), ?_⟩,
    ⟨0, 5, ⟨0, demoWaiting, .waiting, 0, 0, 0, 0, false, false⟩, onQueue demoWaiting .waiting id, ?_⟩,
    ⟨0, 5, ⟨0, demoWaiting, .waiting, 0, 0, 0, 0, false, false⟩, onQueue demoWaiting .waiting (fun s => wf s (Reg.HIF_CQ_WAIT_TMO 0 5) F.HIF_CQ_WAIT_TMO_TMO 3), ?_⟩,
    ⟨0, 5, ⟨0, demoNop, .running, 0, 0, 0, 0, false, false⟩, onQueue demoNop .running id, ?_⟩,
    ⟨0, 5, ⟨0, demoAbort, .running, 0, 0, 0, 0, false, false⟩, onQueue demoAbort .running id, ?_⟩,
    ⟨0, 5, ⟨0, demoAbort, .running, 0, 0, 0, 0, false, false⟩, ⟨1, demoDesc (natBe 2 0 ++ natBe 2 7 ++ natBe 28 0), .waiting, 0, 0, 0, 0, false, false⟩, onQueue demoAbort .running (fun s => setCq s 0 5 ⟨[⟨0, demoAbort, .running, 0, 0, 0, 0, false, false⟩, ⟨1, demoDesc (natBe 2 0 ++ natBe 2 7 ++ natBe 28 0), .waiting, 0, 0, 0, 0, false, false⟩], 2, 6, 0⟩), ?_⟩,
    ⟨0, 5, ⟨0, demoAbort, .running, 0, 0, 0, 0, false, false⟩, ⟨1, demoDesc (natBe 2 0 ++ natBe 2 7 ++ natBe 28 0), .waiting, 0, 0, 0, 0, false, false⟩, 3, { demoColl with no := 1 }, onQueue demoAbort .running (fun s => setGroup (setCq s 0 5 ⟨[⟨0, demoAbort, .running, 0, 0, 0, 0, false, false⟩, ⟨1, demoDesc (natBe 2 0 ++ natBe 2 7 ++ natBe 28 0), .waiting, 0, 0, 0, 0, false, false⟩], 2, 6, 0⟩) 3 (demoGroup [{ demoColl with no := 1 }] [])), ?_⟩⟩ <;> decide +kernel

theorem witness_TheClockFollowsItsSource :
    (∃ (moving : Bool) (s : State), (s.plat.running = true))
    ∧ (∃ (since : Nat) (s : State), (s.tim.fineSince = some since) ∧ (timSt s = timLocked) ∧ (since + secUnit ≤ s.clock))
    ∧ (∃ (x : TimSource) (since : Nat) (s : State), (curSource s = some x) ∧ (x.goodSince = some since) ∧ (x.refused = true) ∧ (since + secUnit ≤ s.clock))
    ∧ (∃ (s : State), (timSt s = timHoldover) ∧ (10 ^ 6 * 65536 ≤ (growBound s).tim.holdBound))
    ∧ (∃ (kind : Fin 5) (port : Fin 4096) (m : PtpMsg) (s : State), (ptpPort s kind (ptpNum kind port) = true) ∧ (m.domain = ptpDomain s))
    ∧ (∃ (kind : Fin 5) (port : Fin 4096) (s : State), (kind ≠ 4) ∧ (s.tim.foreign.any (fun m => foreignAt kind (ptpNum kind port) m && decide (m.heardAt + (if kind.val = 1 then 375000 * usUnit else 3 * secUnit) ≤ s.clock)) = true))
    ∧ (∃ (port : Fin 4096) (sub : Fin 8) (rx : Int) (back : Int) (r : PortRec) (s : State), (portRec s port = some r) ∧ (sub.val < r.width) ∧ (port.val < 2048) ∧ (laneReady s (r.first + sub.val) = true) ∧ (rb s (Reg.TIM_PORT port) F.TIM_PORT_FINE_EN = true))
    ∧ (∃ (v : Word) (x : TimSource) (s : State), (s.plat.running = true) ∧ (held s = false) ∧ (keyOk v = true) ∧ (wbit v 1 = true) ∧ (curSource s = some x) ∧ (x.refused = true))
    ∧ (∃ (v : Word) (s : State), (s.plat.running = true) ∧ (held s = false) ∧ (keyOk v = true) ∧ (wbit v 0 = true))
    ∧ (∃ (v : Word) (s : State), (s.plat.running = true) ∧ (held s = false) ∧ (wbit v 2 = true)) := by
  refine ⟨⟨false, on id, ?_⟩, ⟨0, on (fun s => { wf s Reg.TIM_STATUS F.TIM_STATUS_STATE timLocked with clock := 2 ^ 60, tim := { s.tim with fineSince := some 0 } }), ?_⟩, ⟨demoSource true, 0, onSource true (fun s => { s with clock := 2 ^ 60 }), ?_⟩, ⟨on (fun s => { wf s Reg.TIM_STATUS F.TIM_STATUS_STATE timHoldover with tim := { s.tim with holdBound := 2 ^ 60 } }), ?_⟩, ⟨2, 0, ⟨0, 0, .pdelayReq⟩, onPort (fun s => wf (wf s (Reg.TIM_MPORT 0) F.TIM_MPORT_PTP_EN 1) Reg.TIM_CFG F.TIM_CFG_DOMAIN 0), ?_⟩, ⟨2, 0, onSource false (fun s => { s with clock := 2 ^ 60, tim := { s.tim with foreign := [⟨2, 0, (demoSource false).ds, 0⟩] } }), ?_⟩, ⟨0, 0, 5, 7, ⟨0, 0, 1, 0, 1, 0⟩, onLink 0 1 (fun s => setMapBit (wf s (Reg.TIM_PORT 0) F.TIM_PORT_FINE_EN 1) (Reg.PLT_UR_LANE 0) 0 true), ?_⟩, ⟨0xA5000002#32, demoSource true, onSource true id, ?_⟩, ⟨0xA5000001#32, on id, ?_⟩, ⟨0x00000004#32, on id, ?_⟩⟩ <;> decide +kernel

theorem witness_TheReferenceAndThePulses :
    (∃ (s : State), (s.plat.running = true) ∧ (rb s Reg.TIM_REF_CFG F.TIM_REF_CFG_EN = true))
    ∧ (∃ (s : State), (rb s Reg.TIM_STATUS F.TIM_STATUS_REF_OK = true))
    ∧ (∃ (widthNs : Nat) (s : State), (s.plat.running = true) ∧ (rb s Reg.TIM_PPS_CFG F.TIM_PPS_CFG_IN_EN = true) ∧ (100 ≤ widthNs) ∧ (widthNs ≤ 900000000))
    ∧ (∃ (since : Nat) (s : State), (s.tim.ppsAt = some since) ∧ (since + 3 * (secUnit / 2) ≤ s.clock))
    ∧ (∃ (due : Nat) (s : State), (s.plat.running = true) ∧ (rb s Reg.TIM_PPS_CFG F.TIM_PPS_CFG_OUT_EN = true) ∧ (due = (((s.clock : Int) - psUnits (signedOf 20 (rf s Reg.TIM_PPS_CFG F.TIM_PPS_CFG_OUT_OFS))) / secUnit * secUnit + psUnits (signedOf 20 (rf s Reg.TIM_PPS_CFG F.TIM_PPS_CFG_OUT_OFS))).toNat) ∧ (s.tim.ppsOutAt < due) ∧ (due ≤ s.clock)) := by
  refine ⟨⟨on (fun s => wf s Reg.TIM_REF_CFG F.TIM_REF_CFG_EN 1), ?_⟩, ⟨on (fun s => wf s Reg.TIM_STATUS F.TIM_STATUS_REF_OK 1), ?_⟩, ⟨100, on (fun s => wf s Reg.TIM_PPS_CFG F.TIM_PPS_CFG_IN_EN 1), ?_⟩, ⟨0, on (fun s => { s with clock := 2 ^ 60, tim := { s.tim with ppsAt := some 0 } }), ?_⟩, ⟨secUnit, on (fun s => { wf s Reg.TIM_PPS_CFG F.TIM_PPS_CFG_OUT_EN 1 with clock := secUnit }), ?_⟩⟩ <;> decide +kernel

theorem witness_TheRootOfTrustTakesPackages :
    (∃ (v : Word) (sigOk unwrapOk : Bool) (s : State), (pkgAsked s v = true) ∧ (pkgType s ≠ 3) ∧ (pkgType s ≠ 4) ∧ (keyPkgRefusal s (keyPkg s sigOk unwrapOk) = none))
    ∧ (∃ (v : Word) (proofOk ownerOk : Bool) (s : State), (pkgAsked s v = true) ∧ (pkgType s = 3) ∧ (transferRefusal s (transferOrder s proofOk ownerOk) = none))
    ∧ (∃ (v : Word) (sigOk : Bool) (s : State), (pkgAsked s v = true) ∧ (pkgType s = 4) ∧ (tokenRefusal s (dbgToken s sigOk) = none))
    ∧ (∃ (s : State), (s.rot.token = true))
    ∧ (∃ (v : Word) (s : State), (s.plat.running = true) ∧ (keyOk v = true) ∧ (wbit v 3 = true) ∧ (s.rot.token = true))
    ∧ (∃ (v : Word) (s : State), (s.plat.running = true) ∧ (keyOk v = true) ∧ (wbit v 2 = true)) := by
  refine ⟨⟨0xA5000002#32, true, true, onOwner 6544 (fun s => { s with hostMem := [(0, 1), (23, 3), (27, 5)] }), ?_⟩, ⟨0xA5000002#32, true, true, onOwner 12312 (fun s => { s with hostMem := [(0, 3), (1, 1)] }), ?_⟩, ⟨0xA5000002#32, true, onOwner 4904 (fun s => { s with hostMem := [(0, 4), (1, 1), (23, 60)], img := { s.img with cfg := { s.img.cfg with policyFlags := 1 } } }), ?_⟩, ⟨on (fun s => { s with rot := { s.rot with token := true } }), ?_⟩, ⟨0xA5000008#32, on (fun s => { s with rot := { s.rot with token := true } }), ?_⟩, ⟨0xA5000004#32, on id, ?_⟩⟩ <;> decide +kernel

theorem witness_LinksShakeHandsAndSeal :
    (∃ (port : Fin 4096) (m : HelloMsg) (s : State), (shaking s port = true) ∧ (s.rot.expel.any (fun e => e.kind == 1 && e.subject == m.serial) = false) ∧ (m.wellFormed = true) ∧ (m.hallPart = hallPart s (portScope s port)))
    ∧ (∃ (port : Fin 4096) (m : CertMsg) (s : State), (shaking s port = true) ∧ ((linkOf s port).gotHello = true) ∧ ((linkOf s port).gotCert = false) ∧ (certRefusal s port m = none))
    ∧ (∃ (port : Fin 4096) (sigOk : Bool) (wellFormed : Bool) (s : State), (shaking s port = true) ∧ ((linkOf s port).gotCert = true) ∧ ((linkOf s port).sentFinish = true) ∧ (wellFormed = true) ∧ (sigOk = true))
    ∧ (∃ (port : Fin 4096) (reason : Fin 256) (s : State), (shaking s port = true))
    ∧ (∃ (port : Fin 4096) (s : State), (shaking s port = true) ∧ ((linkOf s port).since + 50000 * usUnit ≤ s.clock))
    ∧ (∃ (port : Fin 4096) (r : PortRec) (s : State), (portRec s port = some r) ∧ (linkSt s port = linkRefused) ∧ ((linkOf s port).since + secUnit ≤ s.clock) ∧ (portLocked s r = true) ∧ (portLit s r = true) ∧ (duneUp s (r.first / 256) = true))
    ∧ (∃ (port : Fin 4096) (x : SecLink) (s : State), ((portRec s port).isSome = true) ∧ (linkOf s port = x) ∧ (x.st = linkUp) ∧ (x.txCells ≠ 0) ∧ (portGuard s port s.clock = false))
    ∧ (∃ (port : Fin 4096) (m : SealMsg) (x : SecLink) (s : State), ((portRec s port).isSome = true) ∧ (linkOf s port = x) ∧ (x.st = linkUp) ∧ (m.tagOk = true) ∧ (m.epoch = x.rxEpoch) ∧ (m.frame = x.rxFrame))
    ∧ (∃ (port : Fin 4096) (s : State), ((portRec s port).isSome = true) ∧ (linkSt s port = linkUp) ∧ ((linkOf s port).rx.isEmpty = false))
    ∧ (∃ (port : Fin 4096) (able : Bool) (x : SecLink) (s : State), ((portRec s port).isSome = true) ∧ (linkOf s port = x) ∧ (x.st = linkUp) ∧ (x.txNext = none) ∧ (x.since + 600 * secUnit ≤ s.clock) ∧ (able = true)) := by
  refine ⟨⟨0, ⟨7, 9, 0, true⟩, onShake SecLink.empty id, ?_⟩, ⟨0, ⟨true, true, 0, 5, false, true⟩, onShake { SecLink.empty with gotHello := true } (fun s => { s with otp := { s.otp with ownerSlots := [some 5] } }), ?_⟩, ⟨0, true, true, onShake { SecLink.empty with gotHello := true, gotCert := true, sentFinish := true } id, ?_⟩, ⟨0, 2, onShake SecLink.empty id, ?_⟩, ⟨0, onShake SecLink.empty (fun s => { s with clock := 2 ^ 60 }), ?_⟩, ⟨0, ⟨0, 0, 1, 0, 1, 0⟩, onLink 0 1 (fun s => { setFibre (setLaneDir (setLaneDir (setLink s 0 { SecLink.empty with st := linkRefused }) 0 false 4) 0 true 4) 0 0 3 with clock := 2 ^ 60 }), ?_⟩, ⟨0, { SecLink.empty with st := linkUp, txCells := 4 }, demoSealed, ?_⟩, ⟨0, ⟨0, 0, 4, false, true⟩, { SecLink.empty with st := linkUp }, onLink 0 1 id, ?_⟩, ⟨0, onLink 0 1 (fun s => setLink s 0 { SecLink.empty with st := linkUp, rx := [⟨0, 0, [], 0⟩] }), ?_⟩, ⟨0, true, { SecLink.empty with st := linkUp }, onLink 0 1 (fun s => { s with clock := 2 ^ 60 }), ?_⟩⟩ <;> decide +kernel

theorem witness_LanesAreTunedAndWatched :
    (∃ (l : Fin 2048) (rx : Bool) (found : Option Nat) (r : Nat) (s : State), (laneDir s l rx = 1) ∧ (laneRuns s l = true) ∧ (rx = true) ∧ (found = some r) ∧ (resExcluded (laneOf (applyTrim (laneTakes s l) 2 (4096 + l.val)) l) true r = false))
    ∧ (∃ (l : Fin 2048) (rx : Bool) (ident : Option (BitVec 8 × BitVec 16)) (chan : BitVec 8) (id_ : BitVec 16) (s : State), (laneDir s l rx = 2) ∧ (laneRuns s l = true) ∧ (rx = false) ∧ (ident = some (chan, id_)) ∧ (txIdentOk l chan id_ = true))
    ∧ (∃ (l : Fin 2048) (rx : Bool) (s : State), (laneDir s l rx = 5) ∧ (laneRuns s l = true) ∧ (rx = true))
    ∧ (∃ (l : Fin 2048) (chan : BitVec 8) (ident : BitVec 16) (s : State), (laneDir s l true = 4) ∧ (laneRuns s l = true) ∧ (rxIdentOk s l chan ident = true) ∧ (SMap.find s.opt.fibreId (laneFibre l) = some (bitsAt ident.toNat 3 8)))
    ∧ (∃ (l : Fin 2048) (rx : Bool) (s : State), (laneDir s l rx = 4))
    ∧ (∃ (l : Fin 2048) (pfar : BitVec 16) (peer : Bool) (s : State), (laneDir s l false = 4) ∧ (laneDir s l true = 4) ∧ (laneRuns s l = true))
    ∧ (∃ (l : Fin 2048) (s : State), (rb s (Reg.OPT_LANE_STATUS (l.val / 32) (l.val % 32)) F.OPT_LANE_STATUS_TELEM_OK = true) ∧ ((laneOf s l).reportAt + 10000 * usUnit ≤ s.clock))
    ∧ (∃ (l : Fin 2048) (s : State), (laneDir s l false = 4) ∧ (laneRuns s l = true) ∧ (spareReady (optEvent (laneLeaves s l false 1) (l.val / 32) F.OPT_EVT_LASER_LOST (optBody (l.val / 32) (l.val % 32) 0xFF)) l = false) ∧ (freeSpare (optEvent (laneLeaves s l false 1) (l.val / 32) F.OPT_EVT_LASER_LOST (optBody (l.val / 32) (l.val % 32) 0xFF)) (l.val / 32) = none)) := by
  refine ⟨⟨0, true, some 100, 100, onLane (fun s => setLaneDir s 0 true 1), ?_⟩, ⟨0, false, some (BitVec.ofNat 8 (laneChan 0), 0), BitVec.ofNat 8 (laneChan 0), 0, onLane (fun s => setLaneDir s 0 false 2), ?_⟩, ⟨0, true, onLane (fun s => setLaneDir s 0 true 5), ?_⟩, ⟨0, BitVec.ofNat 8 (laneChan 0), 0, onLane (fun s => setLaneDir { s with opt := { s.opt with fibreId := [(0, 0)] } } 0 true 4), ?_⟩, ⟨0, true, onLane (fun s => setLaneDir s 0 true 4), ?_⟩, ⟨0, 0, true, onLane (fun s => setLaneDir (setLaneDir s 0 false 4) 0 true 4), ?_⟩, ⟨0, onLane (fun s => { wf s (Reg.OPT_LANE_STATUS 0 0) F.OPT_LANE_STATUS_TELEM_OK 1 with clock := 2 ^ 60 }), ?_⟩, ⟨0, onLane (fun s => setLaneDir (setSpare (setSpare (setSpare (setSpare s 0 0 6 0) 0 1 6 0) 0 2 6 0) 0 3 6 0) 0 false 4), ?_⟩⟩ <;> decide +kernel

theorem witness_SparesTakeOver :
    (∃ (t : Fin 64) (sp : Fin 4) (s : State), (spareIs s t sp 1 = true))
    ∧ (∃ (t : Fin 64) (sp : Fin 4) (s : State), (spareIs s t sp 2 = true))
    ∧ (∃ (t : Fin 64) (sp : Fin 4) (s : State), (spareIs s t sp 3 = true))
    ∧ (∃ (t : Fin 64) (sp : Fin 4) (ok : Bool) (s : State), (spareIs s t sp 4 = true) ∧ (ok = true))
    ∧ (∃ (t : Fin 64) (sp : Fin 4) (s : State), (spareIs s t sp 5 = true))
    ∧ (∃ (l : Fin 2048) (g : Nat) (forced : Bool) (k : Nat) (s : State), ((laneOf s l).swap = some (g, forced)) ∧ ((laneOf s l).spare = some k) ∧ (g ≤ s.clock) ∧ (spareReady s l = true) ∧ (laneRuns s l = true) ∧ (telemetryLost s l = false) ∧ (forced = true ∧ xcAt s l g = false ∨ swapStands s l g = true))
    ∧ (∃ (t : Fin 64) (v : Word) (s : State), (s.plat.running = true) ∧ (tileFitted s.otp.variant t = true) ∧ (held s = false) ∧ (keyOk v = true) ∧ (wbit v 5 = true) ∧ (laneAge s (t.val * 32 + bitsAt v.toNat 0 5) < 2) ∧ (laneRuns s (t.val * 32 + bitsAt v.toNat 0 5) = true)) := by
  refine ⟨⟨0, 1, onLane (fun s => setSpare s 0 1 1 0), ?_⟩, ⟨0, 1, onLane (fun s => setSpare s 0 1 2 0), ?_⟩, ⟨0, 1, onLane (fun s => setSpare s 0 1 3 0), ?_⟩, ⟨0, 1, true, onLane (fun s => setSpare s 0 1 4 0), ?_⟩, ⟨0, 1, onLane (fun s => setSpare s 0 1 5 0), ?_⟩, ⟨0, 0, true, 1, onLane (fun s => setLaneOf (setSpare s 0 1 5 0) 0 { LaneSt.empty with spare := some 1, swap := some (0, true) }), ?_⟩, ⟨0, 0xA5000020#32, onLane id, ?_⟩⟩ <;> decide +kernel

theorem witness_ExpressPathsAreSetUp :
    (∃ (dir : Fin 6) (target : BitVec 24) (width : Fin 256) (p : Path) (s : State), (SMap.find s.rte.bypassAsked dir = some target.toNat) ∧ (width.val = 8) ∧ (held { s with rte := { s.rte with bypassAsked := SMap.del s.rte.bypassAsked dir } } = false) ∧ (held s = false) ∧ (grantPath { s with rte := { s.rte with bypassAsked := SMap.del s.rte.bypassAsked dir } } dir target.toNat width = some p))
    ∧ (∃ (m : PathMsg) (p : Path) (s : State), (s.plat.running = true) ∧ (held s = false) ∧ (p = askedPath s m) ∧ (reserveOk s m = true) ∧ (pathOf s m.origin m.id = none) ∧ (slotsFree s p = true))
    ∧ (∃ (m : PathMsg) (p : Path) (s : State), (pathOf s m.origin m.id = some p) ∧ (p.role = 0) ∧ (p.st = 0) ∧ (held s = false) ∧ (timReady s = true))
    ∧ (∃ (m : PathMsg) (p : Path) (s : State), (pathOf s m.origin m.id = some p) ∧ (p.role = 0) ∧ (p.st < 2))
    ∧ (∃ (m : PathMsg) (p : Path) (s : State), (s.plat.running = true) ∧ (pathOf s m.origin m.id = some p) ∧ (p.role ≠ 0) ∧ (p.st = 0) ∧ (held s = false) ∧ (timReady s = true) ∧ (s.clock + 100 * usUnit ≤ instant m.sec m.ns))
    ∧ (∃ (m : PathMsg) (sender : BitVec 24) (p : Path) (s : State), (pathOf s m.origin m.id = some p) ∧ (p.role = 0) ∧ (p.st = 1) ∧ (p.answered.contains sender.toNat = false) ∧ (s.clock + 200 * usUnit ≤ p.at_))
    ∧ (∃ (pid : BitVec 16) (p : Path) (s : State), (pathOf s (ownCoord s) pid.toNat = some p) ∧ (p.role = 0) ∧ (p.st = 1) ∧ (p.at_ ≤ s.clock + 200 * usUnit))
    ∧ (∃ (m : PathMsg) (p : Path) (s : State), (pathOf s m.origin m.id = some p) ∧ (p.role ≠ 0) ∧ (p.st < 2))
    ∧ (∃ (origin : BitVec 24) (pid : BitVec 16) (p : Path) (s : State), (pathOf s origin.toNat pid.toNat = some p) ∧ (p.st = 0) ∧ (p.expiry ≤ s.clock)) := by
  refine ⟨⟨0, BitVec.ofNat 24 (coordOf 2 0 0), 8, demoGranted, onTorus id, ?_⟩, ⟨demoReserve, askedPath (onTorus id) demoReserve, onTorus id, ?_⟩, ⟨demoAsk, demoPath 0 0, onPath 0 0 id, ?_⟩, ⟨demoAsk, demoPath 0 0, onPath 0 0 id, ?_⟩, ⟨{ demoAsk with sec := 9 }, demoPath 1 0, onPath 1 0 id, ?_⟩, ⟨demoAsk, 5#24, { demoPath 0 1 with at_ := 2 ^ 60 }, on (fun s => { s with opt := { s.opt with paths := [{ demoPath 0 1 with at_ := 2 ^ 60 }] } }), ?_⟩, ⟨7#16, demoPath 0 1, onPath 0 1 id, ?_⟩, ⟨demoAsk, demoPath 1 1, onPath 1 1 id, ?_⟩, ⟨0#24, 7#16, demoPath 1 0, onPath 1 0 id, ?_⟩⟩ <;> decide +kernel

theorem witness_ExpressPathsAreUsedAndReleased :
    (∃ (tile : Fin 64) (slot : Fin 32) (a : XcArm) (s : State), (s.opt.arms.find? (fun a => a.tile == tile.val && a.slot == slot.val) = some a) ∧ (a.at_ ≤ s.clock) ∧ (a.mode = 2))
    ∧ (∃ (origin : BitVec 24) (pid : BitVec 16) (p : Path) (s : State), (pathOf s origin.toNat pid.toNat = some p) ∧ (p.role ≠ 1) ∧ (p.st = 2) ∧ (p.started = false) ∧ (p.at_ + 600 * nsUnit ≤ s.clock) ∧ (s.opt.arms.any (fun a => a.origin == p.origin && a.id == p.id) = false))
    ∧ (∃ (dir : Fin 6) (s : State), (100 ≤ SMap.get (fun _ => 0) s.rte.lowRun dir))
    ∧ (∃ (pid : BitVec 16) (p : Path) (s : State), (pathOf s (ownCoord s) pid.toNat = some p) ∧ (p.role = 0) ∧ (p.st = 3) ∧ (portEmpty s (2048 + pathFirst s p) = true) ∧ (timReady s = true))
    ∧ (∃ (m : PathMsg) (p : Path) (s : State), (pathOf s m.origin m.id = some p) ∧ (p.role ≠ 0) ∧ (p.st = 2) ∧ (mayArm s (instant m.sec m.ns) = true)) := by
  refine ⟨⟨0, 3, ⟨0, 3, 0, 2, 0, 0, 7⟩, on (fun s => { s with opt := { s.opt with arms := [⟨0, 3, 0, 2, 0, 0, 7⟩] } }), ?_⟩, ⟨0#24, 7#16, demoPath 0 2, onPath 0 2 (fun s => { s with clock := 2 ^ 60 }), ?_⟩, ⟨0, on (fun s => { s with rte := { s.rte with lowRun := [(0, 100)] } }), ?_⟩, ⟨7#16, demoPath 0 3, onPath 0 3 id, ?_⟩, ⟨{ demoAsk with sec := 9 }, demoPath 1 2, onPath 1 2 id, ?_⟩⟩ <;> decide +kernel

theorem witness_FibresAndSirocco :
    (∃ (t : Fin 64) (f : Fin 4) (peer : Bool) (s : State), (tilePowered s t = true) ∧ (fibreSt s t f = 0) ∧ (peer = true))
    ∧ (∃ (t : Fin 64) (f : Fin 4) (power : BitVec 16) (s : State), (fibreSt s t f = 1))
    ∧ (∃ (t : Fin 64) (f : Fin 4) (s : State), (fibreSt s t f = 1))
    ∧ (∃ (t : Fin 64) (f : Fin 4) (s : State), (fibreSt s t f = 2))
    ∧ (∃ (t : Fin 64) (f : Fin 4) (power : BitVec 16) (s : State), (fibreSt s t f = 2) ∧ (SMap.find s.opt.fullLevel (t.val * 4 + f.val) = none))
    ∧ (∃ (t : Fin 64) (f : Fin 4) (power : BitVec 16) (s : State), (fibreSt s t f = 3) ∧ (power.toInt < (SMap.find s.opt.fullLevel (t.val * 4 + f.val)).getD 0 - 1000))
    ∧ (∃ (t : Fin 64) (v : Word) (s : State), (s.plat.running = true) ∧ (tileFitted s.otp.variant t = true) ∧ (held s = false) ∧ (keyOk v = true) ∧ (wbit v 0 = true) ∧ (SMap.find s.opt.runs t = none) ∧ (sirStatus s t = none))
    ∧ (∃ (t : Fin 64) (v : Word) (s : State), (s.plat.running = true) ∧ (tileFitted s.otp.variant t = true) ∧ (held s = false) ∧ (keyOk v = true) ∧ (wbit v 1 = true))
    ∧ (∃ (t : Fin 64) (vals : List Word) (r : SirRun) (s : State), (SMap.find s.opt.runs t = some r) ∧ (r.mode = 0)) := by
  refine ⟨⟨0, 1, true, on id, ?_⟩, ⟨0, 1, 5#16, on (fun s => setFibre s 0 1 1), ?_⟩, ⟨0, 1, on (fun s => setFibre s 0 1 1), ?_⟩, ⟨0, 1, on (fun s => setFibre s 0 1 2), ?_⟩, ⟨0, 1, 5#16, on (fun s => setFibre s 0 1 2), ?_⟩, ⟨0, 1, 0x8000#16, on (fun s => setFibre s 0 1 3), ?_⟩, ⟨0, 0xA5000001#32, on (fun s => wf (wf s (Reg.OPT_SIR_RANGE 0) F.OPT_SIR_RANGE_END 9) (Reg.OPT_SIR_CFG 0) F.OPT_SIR_CFG_WAVE 1), ?_⟩, ⟨0, 0xA5000002#32, on id, ?_⟩, ⟨0, [], ⟨0, 0, 0, 0, false, 5, 0, 2⟩, on (fun s => { s with opt := { s.opt with runs := [(0, ⟨0, 0, 0, 0, false, 5, 0, 2⟩)] } }), ?_⟩⟩ <;> decide +kernel

theorem witness_MicrocodeControlAndScalars :
    (∃ (g : Fin 4096) (sl : Bool) (c : TaskCtx) (i : TaskInfo) (s : State), (Issues s g (uwMk 0x00 0 0 0 0 0 0) sl c i))
    ∧ (∃ (g : Fin 4096) (imm : Word) (sl : Bool) (c : TaskCtx) (i : TaskInfo) (s : State), (Issues s g (uwMk 0x01 0 0 0 0 0 imm.toNat) sl c i) ∧ (imm.toNat % 256 = 0))
    ∧ (∃ (g : Fin 4096) (a : Fin 16) (m : Fin 64) (imm : Word) (sl : Bool) (c : TaskCtx) (i : TaskInfo) (s : State), (Issues s g (uwMk 0x02 0 a 0 m 0 imm.toNat) sl c i) ∧ (m = 2) ∧ (sReg c a ≠ 0))
    ∧ (∃ (g : Fin 4096) (d : Fin 16) (imm : Word) (sl : Bool) (c : TaskCtx) (i : TaskInfo) (s : State), (Issues s g (uwMk 0x03 d 0 0 0 0 imm.toNat) sl c i) ∧ (sReg (setS c d (sReg c d + (2 ^ 64 - 1))) d ≠ 0))
    ∧ (∃ (g : Fin 4096) (imm : Word) (sl : Bool) (c : TaskCtx) (i : TaskInfo) (s : State), (Issues s g (uwMk 0x04 0 0 0 0 0 imm.toNat) sl c i) ∧ (c.stack.length < 8))
    ∧ (∃ (g : Fin 4096) (sl : Bool) (c : TaskCtx) (i : TaskInfo) (p : Nat) (rest : List Nat) (s : State), (Issues s g (uwMk 0x05 0 0 0 0 0 0) sl c i) ∧ (c.stack = p :: rest))
    ∧ (∃ (g : Fin 4096) (imm : Word) (sl : Bool) (c : TaskCtx) (i : TaskInfo) (s : State), (Issues s g (uwMk 0x06 0 0 0 0 0 imm.toNat) sl c i))
    ∧ (∃ (g : Fin 4096) (sl : Bool) (c : TaskCtx) (i : TaskInfo) (s : State), (Issues s g (uwMk 0x07 0 0 0 0 0 0) sl c i) ∧ (c.loads = []))
    ∧ (∃ (g : Fin 4096) (d : Fin 16) (sl : Bool) (c : TaskCtx) (i : TaskInfo) (s : State), (Issues s g (uwMk 0x14 d 0 0 0 0 0) sl c i))
    ∧ (∃ (g : Fin 4096) (a : Fin 16) (sl : Bool) (c : TaskCtx) (i : TaskInfo) (s : State), (Issues s g (uwMk 0x17 0 a 0 0 0 0) sl c i))
    ∧ (∃ (g : Fin 4096) (d : Fin 16) (imm : Word) (sl : Bool) (c : TaskCtx) (i : TaskInfo) (s : State), (Issues s g (uwMk 0x08 d 0 0 0 0 imm.toNat) sl c i))
    ∧ (∃ (g : Fin 4096) (d : Fin 16) (imm : Word) (sl : Bool) (c : TaskCtx) (i : TaskInfo) (s : State), (Issues s g (uwMk 0x09 d 0 0 0 0 imm.toNat) sl c i))
    ∧ (∃ (g : Fin 4096) (d : Fin 16) (a : Fin 16) (b : Fin 16) (imm : Word) (sl : Bool) (c : TaskCtx) (i : TaskInfo) (s : State), (Issues s g (uwMk 0x0A d a b 0 0 imm.toNat) sl c i))
    ∧ (∃ (g : Fin 4096) (d : Fin 16) (a : Fin 16) (b : Fin 16) (sl : Bool) (c : TaskCtx) (i : TaskInfo) (s : State), (Issues s g (uwMk 0x0B d a b 0 0 0) sl c i))
    ∧ (∃ (g : Fin 4096) (d : Fin 16) (a : Fin 16) (b : Fin 16) (sl : Bool) (c : TaskCtx) (i : TaskInfo) (s : State), (Issues s g (uwMk 0x0C d a b 0 0 0) sl c i))
    ∧ (∃ (g : Fin 4096) (d : Fin 16) (a : Fin 16) (b : Fin 16) (m : Fin 64) (imm : Word) (sl : Bool) (c : TaskCtx) (i : TaskInfo) (s : State), (Issues s g (uwMk 0x0D d a b m 0 imm.toNat) sl c i) ∧ (m = 3))
    ∧ (∃ (g : Fin 4096) (d : Fin 16) (imm : Word) (sl : Bool) (c : TaskCtx) (i : TaskInfo) (s : State), (Issues s g (uwMk 0x0E d 0 0 0 0 imm.toNat) sl c i))
    ∧ (∃ (g : Fin 4096) (d : Fin 16) (a : Fin 16) (b : Fin 16) (m : Fin 64) (sl : Bool) (c : TaskCtx) (i : TaskInfo) (s : State), (Issues s g (uwMk 0x0F d a b m 0 0) sl c i) ∧ (m = 0)) := by
  refine ⟨⟨0, false, demoCtx, demoInfo, demoEngine (uwMk 0x00 0 0 0 0 0 0), ?_⟩,
    ⟨0, 0#32, false, demoCtx, demoInfo, demoEngine (uwMk 0x01 0 0 0 0 0 0), ?_⟩,
    ⟨0, 1, 2, 5#32, false, demoCtx, demoInfo, demoEngine (uwMk 0x02 0 1 0 2 0 5), ?_⟩,
    ⟨0, 2, 5#32, false, demoCtx, demoInfo, demoEngine (uwMk 0x03 2 0 0 0 0 5), ?_⟩,
    ⟨0, 5#32, false, demoCtx, demoInfo, demoEngine (uwMk 0x04 0 0 0 0 0 5), ?_⟩,
    ⟨0, false, demoCtx, demoInfo, 4, [], demoEngine (uwMk 0x05 0 0 0 0 0 0), ?_⟩,
    ⟨0, 5#32, false, demoCtx, demoInfo, demoEngine (uwMk 0x06 0 0 0 0 0 5), ?_⟩,
    ⟨0, false, demoCtx, demoInfo, demoEngine (uwMk 0x07 0 0 0 0 0 0), ?_⟩,
    ⟨0, 2, false, demoCtx, demoInfo, demoEngine (uwMk 0x14 2 0 0 0 0 0), ?_⟩,
    ⟨0, 1, false, demoCtx, demoInfo, demoEngine (uwMk 0x17 0 1 0 0 0 0), ?_⟩,
    ⟨0, 2, 5#32, false, demoCtx, demoInfo, demoEngine (uwMk 0x08 2 0 0 0 0 5), ?_⟩,
    ⟨0, 2, 5#32, false, demoCtx, demoInfo, demoEngine (uwMk 0x09 2 0 0 0 0 5), ?_⟩,
    ⟨0, 2, 1, 1, 5#32, false, demoCtx, demoInfo, demoEngine (uwMk 0x0A 2 1 1 0 0 5), ?_⟩,
    ⟨0, 2, 1, 1, false, demoCtx, demoInfo, demoEngine (uwMk 0x0B 2 1 1 0 0 0), ?_⟩,
    ⟨0, 2, 1, 1, false, demoCtx, demoInfo, demoEngine (uwMk 0x0C 2 1 1 0 0 0), ?_⟩,
    ⟨0, 2, 1, 1, 3, 4#32, false, demoCtx, demoInfo, demoEngine (uwMk 0x0D 2 1 1 3 0 4), ?_⟩,
    ⟨0, 2, 1#32, false, demoCtx, demoInfo, demoEngine (uwMk 0x0E 2 0 0 0 0 1), ?_⟩,
    ⟨0, 2, 1, 1, 0, false, demoCtx, demoInfo, demoEngine (uwMk 0x0F 2 1 1 0 0 0), ?_⟩⟩ <;> decide +kernel

theorem witness_MicrocodeAccumulatorsAndOutput :
    (∃ (g : Fin 4096) (m : Fin 64) (row : Fin 32) (imm : Word) (ev : AccEvent) (sl : Bool) (c : TaskCtx) (i : TaskInfo) (x : InSrc) (s : State), (Issues s g (uwMk 0x10 0 0 0 m row imm.toNat) sl c i) ∧ (uwSpanOk row imm.toNat = true) ∧ (bitAt imm.toNat 7 = false) ∧ (ev = .fine) ∧ (curInput c 0 = some x))
    ∧ (∃ (g : Fin 4096) (a : Fin 16) (m : Fin 64) (row : Fin 32) (imm : Word) (upset : Bool) (sl : Bool) (c : TaskCtx) (i : TaskInfo) (s : State), (Issues s g (uwMk 0x11 0 a 0 m row imm.toNat) sl c i) ∧ (uwSpanOk row imm.toNat = true) ∧ (upset = false))
    ∧ (∃ (g : Fin 4096) (row : Fin 32) (imm : Word) (sl : Bool) (c : TaskCtx) (i : TaskInfo) (s : State), (Issues s g (uwMk 0x12 0 0 0 0 row imm.toNat) sl c i) ∧ (uwSpanOk row imm.toNat = true))
    ∧ (∃ (g : Fin 4096) (m : Fin 64) (row : Fin 32) (imm : Word) (sl : Bool) (c : TaskCtx) (i : TaskInfo) (s : State), (Issues s g (uwMk 0x13 0 0 0 m row imm.toNat) sl c i) ∧ (uwSpanOk row imm.toNat = true) ∧ (imm.toNat / 32 % 4 ≠ 3))
    ∧ (∃ (g : Fin 4096) (a : Fin 16) (m : Fin 64) (imm : Word) (sl : Bool) (c : TaskCtx) (i : TaskInfo) (s : State), (Issues s g (uwMk 0x16 0 a 0 m 0 imm.toNat) sl c i) ∧ (imm.toNat / 32 % 4 ≠ 3))
    ∧ (∃ (g : Fin 4096) (d : Fin 16) (m : Fin 64) (sl : Bool) (c : TaskCtx) (i : TaskInfo) (x : InSrc) (s : State), (Issues s g (uwMk 0x15 d 0 0 m 0 0) sl c i) ∧ (m = 0) ∧ (curInput c 0 = some x)) := by
  refine ⟨⟨0, 1, 0, 0#32, .fine, false, demoCtx, demoInfo, .packet 1 (natBe 64 0), demoEngine (uwMk 0x10 0 0 0 1 0 0), ?_⟩,
    ⟨0, 1, 0, 0, 0#32, false, false, demoCtx, demoInfo, demoEngine (uwMk 0x11 0 1 0 0 0 0), ?_⟩,
    ⟨0, 0, 0#32, false, demoCtx, demoInfo, demoEngine (uwMk 0x12 0 0 0 0 0 0), ?_⟩,
    ⟨0, 1, 0, 0#32, false, demoCtx, demoInfo, demoEngine (uwMk 0x13 0 0 0 1 0 0), ?_⟩,
    ⟨0, 1, 1, 0#32, false, demoCtx, demoInfo, demoEngine (uwMk 0x16 0 1 0 1 0 0), ?_⟩,
    ⟨0, 2, 0, false, demoCtx, demoInfo, .packet 1 (natBe 64 0), demoEngine (uwMk 0x15 2 0 0 0 0 0), ?_⟩⟩ <;> decide +kernel

theorem witness_MicrocodeVectors :
    (∃ (g : Fin 4096) (d : Fin 16) (a : Fin 16) (b : Fin 16) (m : Fin 64) (sl : Bool) (c : TaskCtx) (i : TaskInfo) (s : State), (Issues s g (uwMk 0x18 d a b m 0 0) sl c i) ∧ (m = 0))
    ∧ (∃ (g : Fin 4096) (d : Fin 16) (a : Fin 16) (b : Fin 16) (m : Fin 64) (sl : Bool) (c : TaskCtx) (i : TaskInfo) (s : State), (Issues s g (uwMk 0x19 d a b m 0 0) sl c i) ∧ (m = 0))
    ∧ (∃ (g : Fin 4096) (d : Fin 16) (a : Fin 16) (b : Fin 16) (m : Fin 64) (sl : Bool) (c : TaskCtx) (i : TaskInfo) (s : State), (Issues s g (uwMk 0x1A d a b m 0 0) sl c i) ∧ (m = 0))
    ∧ (∃ (g : Fin 4096) (d : Fin 16) (a : Fin 16) (b : Fin 16) (m : Fin 64) (sl : Bool) (c : TaskCtx) (i : TaskInfo) (s : State), (Issues s g (uwMk 0x1B d a b m 0 0) sl c i) ∧ (m = 0))
    ∧ (∃ (g : Fin 4096) (d : Fin 16) (a : Fin 16) (b : Fin 16) (sl : Bool) (c : TaskCtx) (i : TaskInfo) (s : State), (Issues s g (uwMk 0x1C d a b 0 0 0) sl c i))
    ∧ (∃ (g : Fin 4096) (d : Fin 16) (a : Fin 16) (sl : Bool) (c : TaskCtx) (i : TaskInfo) (s : State), (Issues s g (uwMk 0x1D d a 0 0 0 0) sl c i))
    ∧ (∃ (g : Fin 4096) (d : Fin 16) (a : Fin 16) (b : Fin 16) (m : Fin 64) (sl : Bool) (c : TaskCtx) (i : TaskInfo) (s : State), (Issues s g (uwMk 0x1E d a b m 0 0) sl c i) ∧ (m = 1))
    ∧ (∃ (g : Fin 4096) (d : Fin 16) (a : Fin 16) (b : Fin 16) (imm : Word) (sl : Bool) (c : TaskCtx) (i : TaskInfo) (s : State), (Issues s g (uwMk 0x1F d a b 0 0 imm.toNat) sl c i))
    ∧ (∃ (g : Fin 4096) (d : Fin 16) (a : Fin 16) (b : Fin 16) (m : Fin 64) (sl : Bool) (c : TaskCtx) (i : TaskInfo) (s : State), (Issues s g (uwMk 0x20 d a b m 0 0) sl c i))
    ∧ (∃ (g : Fin 4096) (d : Fin 16) (a : Fin 16) (m : Fin 64) (sl : Bool) (c : TaskCtx) (i : TaskInfo) (s : State), (Issues s g (uwMk 0x21 d a 0 m 0 0) sl c i))
    ∧ (∃ (g : Fin 4096) (d : Fin 16) (a : Fin 16) (m : Fin 64) (sl : Bool) (c : TaskCtx) (i : TaskInfo) (s : State), (Issues s g (uwMk 0x22 d a 0 m 0 0) sl c i) ∧ (m = 2) ∧ ((vReg c a).any fpNan = false))
    ∧ (∃ (g : Fin 4096) (d : Fin 16) (a : Fin 16) (m : Fin 64) (sl : Bool) (c : TaskCtx) (i : TaskInfo) (s : State), (Issues s g (uwMk 0x23 d a 0 m 0 0) sl c i) ∧ (m = 1))
    ∧ (∃ (g : Fin 4096) (d : Fin 16) (a : Fin 16) (sl : Bool) (c : TaskCtx) (i : TaskInfo) (s : State), (Issues s g (uwMk 0x24 d a 0 0 0 0) sl c i))
    ∧ (∃ (g : Fin 4096) (d : Fin 16) (a : Fin 16) (b : Fin 16) (m : Fin 64) (imm : Word) (sl : Bool) (c : TaskCtx) (i : TaskInfo) (s : State), (Issues s g (uwMk 0x25 d a b m 0 imm.toNat) sl c i) ∧ (m = 2))
    ∧ (∃ (g : Fin 4096) (d : Fin 16) (a : Fin 16) (sl : Bool) (c : TaskCtx) (i : TaskInfo) (s : State), (Issues s g (uwMk 0x26 d a 0 0 0 0) sl c i))
    ∧ (∃ (g : Fin 4096) (d : Fin 16) (a : Fin 16) (b : Fin 16) (sl : Bool) (c : TaskCtx) (i : TaskInfo) (s : State), (Issues s g (uwMk 0x27 d a b 0 0 0) sl c i) ∧ ((vReg c a).any fpNan = false))
    ∧ (∃ (g : Fin 4096) (d : Fin 16) (a : Fin 16) (m : Fin 64) (sl : Bool) (c : TaskCtx) (i : TaskInfo) (s : State), (Issues s g (uwMk 0x2F d a 0 m 0 0) sl c i) ∧ (m = 0)) := by
  refine ⟨⟨0, 2, 1, 1, 0, false, demoCtx, demoInfo, demoEngine (uwMk 0x18 2 1 1 0 0 0), ?_⟩,
    ⟨0, 2, 1, 1, 0, false, demoCtx, demoInfo, demoEngine (uwMk 0x19 2 1 1 0 0 0), ?_⟩,
    ⟨0, 2, 1, 1, 0, false, demoCtx, demoInfo, demoEngine (uwMk 0x1A 2 1 1 0 0 0), ?_⟩,
    ⟨0, 2, 1, 1, 0, false, demoCtx, demoInfo, demoEngine (uwMk 0x1B 2 1 1 0 0 0), ?_⟩,
    ⟨0, 2, 1, 1, false, demoCtx, demoInfo, demoEngine (uwMk 0x1C 2 1 1 0 0 0), ?_⟩,
    ⟨0, 2, 1, false, demoCtx, demoInfo, demoEngine (uwMk 0x1D 2 1 0 0 0 0), ?_⟩,
    ⟨0, 2, 1, 1, 1, false, demoCtx, demoInfo, demoEngine (uwMk 0x1E 2 1 1 1 0 0), ?_⟩,
    ⟨0, 2, 1, 1, 0#32, false, demoCtx, demoInfo, demoEngine (uwMk 0x1F 2 1 1 0 0 0), ?_⟩,
    ⟨0, 2, 1, 1, 0, false, demoCtx, demoInfo, demoEngine (uwMk 0x20 2 1 1 0 0 0), ?_⟩,
    ⟨0, 2, 1, 0, false, demoCtx, demoInfo, demoEngine (uwMk 0x21 2 1 0 0 0 0), ?_⟩,
    ⟨0, 2, 1, 2, false, demoCtx, demoInfo, demoEngine (uwMk 0x22 2 1 0 2 0 0), ?_⟩,
    ⟨0, 2, 1, 1, false, demoCtx, demoInfo, demoEngine (uwMk 0x23 2 1 0 1 0 0), ?_⟩,
    ⟨0, 2, 1, false, demoCtx, demoInfo, demoEngine (uwMk 0x24 2 1 0 0 0 0), ?_⟩,
    ⟨0, 2, 1, 1, 2, 0#32, false, demoCtx, demoInfo, demoEngine (uwMk 0x25 2 1 1 2 0 0), ?_⟩,
    ⟨0, 2, 1, false, demoCtx, demoInfo, demoEngine (uwMk 0x26 2 1 0 0 0 0), ?_⟩,
    ⟨0, 2, 1, 1, false, demoCtx, demoInfo, demoEngine (uwMk 0x27 2 1 1 0 0 0), ?_⟩,
    ⟨0, 2, 1, 0, false, demoCtx, demoInfo, demoEngine (uwMk 0x2F 2 1 0 0 0 0), ?_⟩⟩ <;> decide +kernel

theorem witness_MicrocodeScratchAndOasis :
    (∃ (g : Fin 4096) (d : Fin 16) (a : Fin 16) (imm : Word) (sl : Bool) (c : TaskCtx) (i : TaskInfo) (s : State), (Issues s g (uwMk 0x28 d a 0 0 0 imm.toNat) sl c i) ∧ (scratchOk (sReg c a + imm.toNat) 128 = true))
    ∧ (∃ (g : Fin 4096) (a : Fin 16) (b : Fin 16) (imm : Word) (sl : Bool) (c : TaskCtx) (i : TaskInfo) (s : State), (Issues s g (uwMk 0x29 0 a b 0 0 imm.toNat) sl c i) ∧ (scratchOk (sReg c b + imm.toNat) 128 = true))
    ∧ (∃ (g : Fin 4096) (a : Fin 16) (row : Fin 32) (imm : Word) (sl : Bool) (c : TaskCtx) (i : TaskInfo) (s : State), (Issues s g (uwMk 0x2A 0 a 0 0 row imm.toNat) sl c i) ∧ (uwSpanOk row imm.toNat = true) ∧ (scratchOk (sReg c a) (1280 * (imm.toNat % 32 + 1)) = true))
    ∧ (∃ (g : Fin 4096) (a : Fin 16) (m : Fin 64) (row : Fin 32) (imm : Word) (upset : Bool) (sl : Bool) (c : TaskCtx) (i : TaskInfo) (s : State), (Issues s g (uwMk 0x2B 0 a 0 m row imm.toNat) sl c i) ∧ (uwSpanOk row imm.toNat = true) ∧ (scratchOk (sReg c a) (1280 * (imm.toNat % 32 + 1)) = true) ∧ (m = 0))
    ∧ (∃ (g : Fin 4096) (d : Fin 16) (a : Fin 16) (b : Fin 16) (sl : Bool) (c : TaskCtx) (i : TaskInfo) (s : State), (Issues s g (uwMk 0x2C d a b 0 0 0) sl c i) ∧ (c.loads.length < 8) ∧ (sReg c d ≤ 4096) ∧ (scratchOk (sReg c b) (sReg c d) = true) ∧ (outsideSpace s i.part (sReg c a) (sReg c d) = false))
    ∧ (∃ (g : Fin 4096) (d : Fin 16) (a : Fin 16) (b : Fin 16) (sl : Bool) (c : TaskCtx) (i : TaskInfo) (s : State), (Issues s g (uwMk 0x2D d a b 0 0 0) sl c i) ∧ (c.stores.length < 16) ∧ (sReg c d ≤ 4096) ∧ (scratchOk (sReg c b) (sReg c d) = true) ∧ (outsideSpace s i.part (sReg c a) (sReg c d) = false))
    ∧ (∃ (g : Fin 4096) (a : Fin 16) (b : Fin 16) (sl : Bool) (c : TaskCtx) (i : TaskInfo) (s : State), (Issues s g (uwMk 0x2E 0 a b 0 0 0) sl c i) ∧ ((hstLanes (sReg c b) (vReg c a) c).isSome = true))
    ∧ (∃ (g : Fin 4096) (bad : Bool) (sl : Bool) (c : TaskCtx) (s : State), (workStopped s = false) ∧ (issuingSlot (engOf s g) = some sl) ∧ (slotOf (engOf s g) sl = some c) ∧ (c.loads ≠ []) ∧ (bad = false)) := by
  refine ⟨⟨0, 2, 0, 4#32, false, demoCtx, demoInfo, demoEngine (uwMk 0x28 2 0 0 0 0 4), ?_⟩,
    ⟨0, 1, 0, 4#32, false, demoCtx, demoInfo, demoEngine (uwMk 0x29 0 1 0 0 0 4), ?_⟩,
    ⟨0, 0, 0, 0#32, false, demoCtx, demoInfo, demoEngine (uwMk 0x2A 0 0 0 0 0 0), ?_⟩,
    ⟨0, 0, 0, 0, 0#32, false, false, demoCtx, demoInfo, demoEngine (uwMk 0x2B 0 0 0 0 0 0), ?_⟩,
    ⟨0, 1, 0, 0, false, demoCtx, demoInfo, demoEngine (uwMk 0x2C 1 0 0 0 0 0), ?_⟩,
    ⟨0, 1, 0, 0, false, demoCtx, demoInfo, demoEngine (uwMk 0x2D 1 0 0 0 0 0), ?_⟩,
    ⟨0, 1, 0, false, demoCtx, demoInfo, demoEngine (uwMk 0x2E 0 1 0 0 0 0), ?_⟩,
    ⟨0, false, false, { demoCtx with loads := [(0, 0, 64)] }, setEng (demoEngine 0) 0 ⟨some { demoCtx with loads := [(0, 0, 64)] }, none, false⟩, ?_⟩⟩ <;> decide +kernel

theorem witness_EnginesRunTasks :
    (∃ (d : Fin 8) (q : Fin 2048) (r : KRun) (s : State), (s.brc.runs.find? (fun r => r.fq == flatQ d q && decide (r.next < r.total)) = some r))
    ∧ (∃ (g : Fin 4096) (t : Task) (u s : State), (mayClaim s g = true) ∧ (u = (List.range 32).foldl (fun w k => sweepTq w (g.val / 512 * 32 + k)) s) ∧ (claimOf u g = some (g.val / 16, t)) ∧ (claimedBefore u g (g.val / 16) = false))
    ∧ (∃ (g : Fin 4096) (r : Nat) (t : Task) (u s : State), (mayClaim s g = true) ∧ (u = (List.range 32).foldl (fun w k => sweepTq w (g.val / 512 * 32 + k)) s) ∧ (claimOf u g = some (r, t)) ∧ (claimedBefore u g r = false) ∧ (r ≠ g.val / 16))
    ∧ (∃ (g : Fin 4096) (c : TaskCtx) (fq : Nat) (no : Nat) (r : KRun) (s : State), (workStopped s = false) ∧ ((engOf s g).slot0 = some c) ∧ (c.ending = true) ∧ (c.task.owner = .kernel fq no) ∧ (runOf (bump64 (setEng s g (putSlot (engOf s g) false none)) (Reg.BRC_TASKS (g.val / 512)) 1) fq no = some r))
    ∧ (∃ (d : Fin 8) (v : Word) (s : State), (duneUp s d = true) ∧ (keyOk v = true) ∧ (wbit v 23 = true) ∧ (wbit v 22 = false) ∧ (held s = false) ∧ (SMap.find s.brc.dis d = none) ∧ ((disScope s d v).any (fun g => engSt s g == engQuarantined) = false))
    ∧ (∃ (d : Fin 8) (v : Word) (s : State), (duneUp s d = true) ∧ (keyOk v = true) ∧ (wbit v 23 = false) ∧ (wbit v 22 = true) ∧ (wbit v 21 = false) ∧ (held s = false) ∧ (SMap.find s.brc.dis d = none))
    ∧ (∃ (d : Fin 8) (v : Word) (s : State), (duneUp s d = true) ∧ (keyOk v = true) ∧ (wbit v 23 = false) ∧ (wbit v 22 = true) ∧ (wbit v 21 = true) ∧ (held s = false) ∧ (SMap.find s.brc.dis d = none))
    ∧ (∃ (g : Fin 4096) (s : State), (engSt s g = engQuiesced) ∧ ((engOf s g).heldEnable = false) ∧ (s.plat.quarantine.contains g.val = false)) := by
  refine ⟨⟨0, 5, demoRunOf 0x40, onRun 0x40 id, ?_⟩, ⟨0, { demoTask with inputs := [] }, _, onClaim, ?_, rfl, ?_⟩, ⟨16, 0, { demoTask with inputs := [] }, _, onSteal, ?_, rfl, ?_⟩, ⟨0, { demoCtx with ending := true }, 5, 0, demoRun, setEng (demoEngine 0) 0 ⟨some { demoCtx with ending := true }, none, false⟩, ?_⟩, ⟨0, 0xA5800000#32, on id, ?_⟩, ⟨0, 0xA5400000#32, on id, ?_⟩, ⟨0, 0xA5600000#32, on id, ?_⟩, ⟨0, on (fun s => setEngSt s 0 engQuiesced), ?_⟩⟩ <;> decide +kernel

theorem witness_LibraryKernelsRun :
    (∃ (d : Fin 8) (q : Fin 2048) (r : KRun) (s : State), (wholeRun s d q (fun o => o == 0x40) = some r))
    ∧ (∃ (d : Fin 8) (q : Fin 2048) (r : KRun) (s : State), (wholeRun s d q (fun o => o == 0x41) = some r))
    ∧ (∃ (d : Fin 8) (q : Fin 2048) (r : KRun) (s : State), (wholeRun s d q (fun o => o == 0x42) = some r))
    ∧ (∃ (d : Fin 8) (q : Fin 2048) (r : KRun) (s : State), (wholeRun s d q (fun o => o == 0x43) = some r))
    ∧ (∃ (d : Fin 8) (q : Fin 2048) (r : KRun) (s : State), (wholeRun s d q (fun o => o == 0x4A) = some r))
    ∧ (∃ (d : Fin 8) (q : Fin 2048) (r : KRun) (s : State), (wholeRun s d q (fun o => o == 0x44) = some r) ∧ (sparseFault s r (runInfo s r) = none))
    ∧ (∃ (d : Fin 8) (q : Fin 2048) (r : KRun) (s : State), (wholeRun s d q (fun o => o == 0x45) = some r))
    ∧ (∃ (d : Fin 8) (q : Fin 2048) (r : KRun) (s : State), (wholeRun s d q (fun o => o == 0x46) = some r))
    ∧ (∃ (d : Fin 8) (q : Fin 2048) (r : KRun) (s : State), (wholeRun s d q (fun o => o == 0x47) = some r))
    ∧ (∃ (d : Fin 8) (q : Fin 2048) (r : KRun) (s : State), (wholeRun s d q (fun o => o == 0x48) = some r))
    ∧ (∃ (d : Fin 8) (q : Fin 2048) (r : KRun) (s : State), (wholeRun s d q (fun o => o == 0x49) = some r))
    ∧ (∃ (d : Fin 8) (q : Fin 2048) (r : KRun) (s : State), (wholeRun s d q (fun o => o == 0x4B) = some r))
    ∧ (∃ (d : Fin 8) (q : Fin 2048) (r : KRun) (s : State), (wholeRun s d q (fun o => o == 0x4C) = some r))
    ∧ (∃ (d : Fin 8) (q : Fin 2048) (r : KRun) (s : State), (wholeRun s d q (fun o => o == 0x4D) = some r))
    ∧ (∃ (d : Fin 8) (q : Fin 2048) (r : KRun) (s : State), (wholeRun s d q (fun o => decide (0x60 ≤ o)) = some r) ∧ ((runOwnerSegs (List.range (runSegs r)) s r).map (fun p => p.2.2) = some none)) := by
  refine ⟨⟨0, 5, demoRunOf 0x40, onRun 0x40 id, ?_⟩, ⟨0, 5, demoRunOf 0x41, onRun 0x41 id, ?_⟩, ⟨0, 5, demoRunOf 0x42, onRun 0x42 id, ?_⟩, ⟨0, 5, demoRunOf 0x43, onRun 0x43 id, ?_⟩, ⟨0, 5, demoRunOf 0x4A, onRun 0x4A id, ?_⟩, ⟨0, 5, demoRunOf 0x44, onRun 0x44 id, ?_⟩, ⟨0, 5, demoRunOf 0x45, onRun 0x45 id, ?_⟩, ⟨0, 5, demoRunOf 0x46, onRun 0x46 id, ?_⟩, ⟨0, 5, demoRunOf 0x47, onRun 0x47 id, ?_⟩, ⟨0, 5, demoRunOf 0x48, onRun 0x48 id, ?_⟩, ⟨0, 5, demoRunOf 0x49, onRun 0x49 id, ?_⟩, ⟨0, 5, demoRunOf 0x4B, onRun 0x4B id, ?_⟩, ⟨0, 5, demoRunOf 0x4C, onRun 0x4C id, ?_⟩, ⟨0, 5, demoRunOf 0x4D, onRun 0x4D id, ?_⟩, ⟨0, 5, demoRunOf 0x60, onRun 0x60 id, ?_⟩⟩ <;> decide +kernel

theorem witness_CollectiveCommandsRun :
    (∃ (d : Fin 8) (q : Fin 2048) (y : Slot) (grp : Nat) (c : Coll) (s : State), (runningSlot s d q (fun o => o == 0x10) = some y) ∧ (collOfCmd s (flatQ d q) y.no = some (grp, c)))
    ∧ (∃ (d : Fin 8) (q : Fin 2048) (y : Slot) (grp : Nat) (c : Coll) (s : State), (runningSlot s d q (fun o => o == 0x11) = some y) ∧ (collOfCmd s (flatQ d q) y.no = some (grp, c)))
    ∧ (∃ (d : Fin 8) (q : Fin 2048) (y : Slot) (grp : Nat) (c : Coll) (s : State), (runningSlot s d q (fun o => o == 0x12) = some y) ∧ (collOfCmd s (flatQ d q) y.no = some (grp, c)))
    ∧ (∃ (d : Fin 8) (q : Fin 2048) (y : Slot) (grp : Nat) (c : Coll) (s : State), (runningSlot s d q (fun o => o == 0x13) = some y) ∧ (collOfCmd s (flatQ d q) y.no = some (grp, c)))
    ∧ (∃ (d : Fin 8) (q : Fin 2048) (y : Slot) (grp : Nat) (c : Coll) (s : State), (runningSlot s d q (fun o => o == 0x14) = some y) ∧ (collOfCmd s (flatQ d q) y.no = some (grp, c)))
    ∧ (∃ (d : Fin 8) (q : Fin 2048) (y : Slot) (n : Nat) (l : List Byte) (x : Group) (s : State), (runningSlot s d q (fun o => o == 0x3E) = some y) ∧ (n = beNat (oasisRead s (cqScope s d q) (dSrc y.desc + 12) 4)) ∧ (l = oasisRead s (cqScope s d q) (dSrc y.desc) (64 + 8 * n)) ∧ (x = recordGroup (cqScope s d q) l (groupOf s (dGroup y.desc))) ∧ (n ≤ 131072) ∧ (outsideSpace s (cqScope s d q) (dSrc y.desc) (64 + 8 * n) = false) ∧ (recordOk s y.desc l x = true) ∧ (x.job = cqJob s d q) ∧ (otherEntries s (dGroup y.desc) (fun _ => true) + n ≤ 4194304) ∧ (otherEntries s (dGroup y.desc) (fun m => m.role == 2) + (x.entries.filter (fun m => m.role == 2)).length ≤ 256))
    ∧ (∃ (d : Fin 8) (q : Fin 2048) (y : Slot) (s : State), (runningSlot s d q (fun o => o == 0x3F) = some y))
    ∧ (∃ (d : Fin 8) (q : Fin 2048) (y : Slot) (x : Group) (s : State), (runningSlot s d q (fun o => o == 0x15) = some y) ∧ (groupOf s (dGroup y.desc) = some x) ∧ (x.entries.any (fun m => m.role == 1 && m.ep == dSrc y.desc / 2 ^ 24 % 2 ^ 24) = true) ∧ ((workers x).any (fun m => m.rank == dSrc y.desc % 2 ^ 24) = true) ∧ (x.swap = none))
    ∧ (∃ (grp : BitVec 16) (x : Group) (r : SwapReq) (m : Member) (n : Member) (s : State), (groupOf s grp.toNat = some x) ∧ (x.swap = some r) ∧ (r.ready = true) ∧ ((workers x).find? (fun m => m.rank == r.rank) = some m) ∧ (x.entries.find? (fun m => m.role != 0 && m.ep == r.spare) = some n)) := by
  refine ⟨⟨0, 5, demoSlot 0x10, 3, demoColl, onGroup 0x10 (demoGroup [demoColl] []) id, ?_⟩, ⟨0, 5, demoSlot 0x11, 3, demoColl, onGroup 0x11 (demoGroup [demoColl] []) id, ?_⟩, ⟨0, 5, demoSlot 0x12, 3, demoColl, onGroup 0x12 (demoGroup [demoColl] []) id, ?_⟩, ⟨0, 5, demoSlot 0x13, 3, demoColl, onGroup 0x13 (demoGroup [demoColl] []) id, ?_⟩, ⟨0, 5, demoSlot 0x14, 3, demoColl, onGroup 0x14 (demoGroup [demoColl] []) id, ?_⟩, ⟨0, 5, demoSlot 0x3E, 0, demoRecord, recordGroup 0 demoRecord (some (demoGroup [] [])), onGroup 0x3E (demoGroup [] []) (fun s => oasisWrite s 0 0x0A000000 demoRecord), ?_⟩, ⟨0, 5, demoSlot 0x3F, onGroup 0x3F (demoGroup [] []) id, ?_⟩, ⟨0, 5, demoSlot 0x15, demoGroup [] [], onGroup 0x15 (demoGroup [] []) id, ?_⟩, ⟨3, { demoGroup [] [] with swap := some ⟨none, 0, 10, true⟩ }, ⟨none, 0, 10, true⟩, ⟨0, 9, 0, 0, 0, 0, false⟩, ⟨0xFFFFFF, 10, 1, 0, 0, 0, false⟩, onGroup 0x15 { demoGroup [] [] with swap := some ⟨none, 0, 10, true⟩ } id, ?_⟩⟩ <;> decide +kernel

theorem witness_CollectivePacketsArrive :
    (∃ (c : Cfh) (payload : List Byte) (grp : Nat) (x : Group) (m : ColMsg) (coord : Nat) (s : State), (ctlFor s 0x10 c payload = some (grp, x, m)) ∧ (fromSpine x c = some coord) ∧ ((collIn x m.step).isSome = true))
    ∧ (∃ (c : Cfh) (payload : List Byte) (s : State), (collPkt s c = true))
    ∧ (∃ (c : Cfh) (payload : List Byte) (s : State), (collPkt s c = true))
    ∧ (∃ (c : Cfh) (payload : List Byte) (s : State), (collPkt s c = true))
    ∧ (∃ (c : Cfh) (payload : List Byte) (grp : Nat) (x : Group) (m : ColMsg) (y : Coll) (w : Member) (s : State), (ctlFor s 0x11 c payload = some (grp, x, m)) ∧ (collIn x m.step = some y) ∧ ((receivers x y).find? (fun w => w.rank == m.rank && w.ep == c.src) = some w) ∧ (collChunks y ≤ y.results.length) ∧ (m.digest = resultDigest y))
    ∧ (∃ (c : Cfh) (payload : List Byte) (x : Group) (y : Coll) (s : State), (payload.length = 32) ∧ ((colMsgOf payload).typ = 0x12) ∧ (c.src = collEp (ownCoord s)) ∧ (groupOf s (beAt payload 2 2) = some x) ∧ (collIn x (colMsgOf payload).step = some y) ∧ ((y.receipts.contains (colMsgOf payload).rank && !y.racked.contains (colMsgOf payload).rank && (receivers x y).any (fun w => w.rank == (colMsgOf payload).rank && w.ep == c.dst)) = true))
    ∧ (∃ (c : Cfh) (payload : List Byte) (grp : Nat) (x : Group) (m : ColMsg) (y : Coll) (coord : Nat) (s : State), (ctlFor s 0x13 c payload = some (grp, x, m)) ∧ (fromSpine x c = some coord) ∧ (collIn x m.step = some y) ∧ (isRoot s x = true) ∧ (y.decided = none) ∧ (y.deadline = none) ∧ (y.readies.any (fun r => r.coord == coord) = false))
    ∧ (∃ (c : Cfh) (payload : List Byte) (grp : Nat) (x : Group) (m : ColMsg) (y : Coll) (coord : Nat) (s : State), (ctlFor s 0x15 c payload = some (grp, x, m)) ∧ (fromSpine x c = some coord) ∧ (collIn x m.step = some y) ∧ (isRoot s x = true) ∧ (y.decided = none))
    ∧ (∃ (grp : BitVec 16) (step : Word) (x : Group) (y : Coll) (s : State), (groupOf s grp.toNat = some x) ∧ (collIn x step.toNat = some y) ∧ (isRoot s x = true) ∧ (y.decided = none) ∧ (y.deadline.any (fun t => decide (t ≤ s.clock)) = true))
    ∧ (∃ (c : Cfh) (payload : List Byte) (grp : Nat) (x : Group) (m : ColMsg) (y : Coll) (s : State), (ctlFor s 0x14 c payload = some (grp, x, m)) ∧ (collIn x m.step = some y) ∧ (fromRoot x c = true))
    ∧ (∃ (c : Cfh) (payload : List Byte) (grp : Nat) (x : Group) (m : ColMsg) (y : Coll) (s : State), (ctlFor s 0x16 c payload = some (grp, x, m)) ∧ (collIn x m.step = some y) ∧ (fromRoot x c = true))
    ∧ (∃ (grp : BitVec 16) (step : Word) (x : Group) (y : Coll) (s : State), (groupOf s grp.toNat = some x) ∧ (collIn x step.toNat = some y) ∧ (y.deadline.any (fun t => decide (t + graceUnits s ≤ s.clock)) = true))
    ∧ (∃ (grp : BitVec 16) (step : Word) (x : Group) (y : Coll) (s : State), (groupOf s grp.toNat = some x) ∧ (collIn x step.toNat = some y) ∧ (y.abortAt.any (fun t => decide (t + graceUnits s ≤ s.clock)) = true)) := by
  refine ⟨⟨demoRoot, demoCtl 0x10, 3, demoGroup [demoColl] [], colMsgOf (demoCtl 0x10), 0, onGroup 0x10 (demoGroup [demoColl] []) id, ?_⟩, ⟨{ demoRoot with cls := 4 }, [], on id, ?_⟩, ⟨{ demoRoot with cls := 4 }, [], on id, ?_⟩, ⟨{ demoRoot with cls := 4 }, [], on id, ?_⟩, ⟨{ demoRoot with src := 9 }, demoCtl 0x11, 3, demoGroup [{ demoColl with count := 0 }] [], colMsgOf (demoCtl 0x11), { demoColl with count := 0 }, ⟨0, 9, 0, 0, 0, 0, false⟩, onGroup 0x10 (demoGroup [{ demoColl with count := 0 }] []) id, ?_⟩, ⟨{ demoRoot with dst := 9 }, demoCtl 0x12, demoGroup [{ demoColl with receipts := [0] }] [], { demoColl with receipts := [0] }, onGroup 0x10 (demoGroup [{ demoColl with receipts := [0] }] []) id, ?_⟩, ⟨demoRoot, demoCtl 0x13, 3, demoGroup [demoColl] [], colMsgOf (demoCtl 0x13), demoColl, 0, onGroup 0x10 (demoGroup [demoColl] []) id, ?_⟩, ⟨demoRoot, demoCtl 0x15, 3, demoGroup [demoColl] [], colMsgOf (demoCtl 0x15), demoColl, 0, onGroup 0x10 (demoGroup [demoColl] []) id, ?_⟩, ⟨3, 0, demoGroup [{ demoColl with deadline := some 0 }] [], { demoColl with deadline := some 0 }, onGroup 0x10 (demoGroup [{ demoColl with deadline := some 0 }] []) id, ?_⟩, ⟨demoRoot, demoCtl 0x14, 3, demoGroup [demoColl] [], colMsgOf (demoCtl 0x14), demoColl, onGroup 0x10 (demoGroup [demoColl] []) id, ?_⟩, ⟨demoRoot, demoCtl 0x16, 3, demoGroup [demoColl] [], colMsgOf (demoCtl 0x16), demoColl, onGroup 0x10 (demoGroup [demoColl] []) id, ?_⟩, ⟨3, 0, demoGroup [{ demoColl with deadline := some 0 }] [], { demoColl with deadline := some 0 }, onGroup 0x10 (demoGroup [{ demoColl with deadline := some 0 }] []) (fun s => { s with clock := 2 ^ 60 }), ?_⟩, ⟨3, 0, demoGroup [{ demoColl with abortAt := some 0 }] [], { demoColl with abortAt := some 0 }, onGroup 0x10 (demoGroup [{ demoColl with abortAt := some 0 }] []) (fun s => { s with clock := 2 ^ 60 }), ?_⟩⟩ <;> decide +kernel

theorem witness_CaravansRun :
    (∃ (d : Fin 8) (q : Fin 2048) (y : Slot) (l : List Byte) (x : Caravan) (s : State), (runningSlot s d q (fun o => o == 0x80) = some y) ∧ (l = oasisRead s (cqScope s d q) (dSrc y.desc) (96 + 4 * beAt (oasisRead s (cqScope s d q) (dSrc y.desc) 96) 22 2 + 4 * beAt (oasisRead s (cqScope s d q) (dSrc y.desc) 96) 24 4)) ∧ (x = treeCar s d q y true l) ∧ (s.col.caravans.any (fun x => x.fq == flatQ d q && x.no == y.no) = false) ∧ (beAt (oasisRead s (cqScope s d q) (dSrc y.desc) 96) 22 2 ≤ 64) ∧ (beAt (oasisRead s (cqScope s d q) (dSrc y.desc) 96) 24 4 ≤ 4096) ∧ (outsideSpace s (cqScope s d q) (dSrc y.desc) (96 + 4 * beAt (oasisRead s (cqScope s d q) (dSrc y.desc) 96) 22 2 + 4 * beAt (oasisRead s (cqScope s d q) (dSrc y.desc) 96) 24 4) = false) ∧ (carTreeOk s true l = true) ∧ (outsideSpace s (cqScope s d q) x.cache x.len = false) ∧ (carOf s x.tid = none))
    ∧ (∃ (d : Fin 8) (q : Fin 2048) (y : Slot) (l : List Byte) (x : Caravan) (s : State), (runningSlot s d q (fun o => o == 0x81) = some y) ∧ (l = oasisRead s (cqScope s d q) (dSrc y.desc) (96 + 4 * beAt (oasisRead s (cqScope s d q) (dSrc y.desc) 96) 22 2 + 4 * beAt (oasisRead s (cqScope s d q) (dSrc y.desc) 96) 24 4)) ∧ (x = treeCar s d q y false l) ∧ (s.col.caravans.any (fun x => x.fq == flatQ d q && x.no == y.no) = false) ∧ (beAt (oasisRead s (cqScope s d q) (dSrc y.desc) 96) 22 2 ≤ 64) ∧ (beAt (oasisRead s (cqScope s d q) (dSrc y.desc) 96) 24 4 ≤ 4096) ∧ (outsideSpace s (cqScope s d q) (dSrc y.desc) (96 + 4 * beAt (oasisRead s (cqScope s d q) (dSrc y.desc) 96) 22 2 + 4 * beAt (oasisRead s (cqScope s d q) (dSrc y.desc) 96) 24 4) = false) ∧ (carTreeOk s false l = true) ∧ (outsideSpace s (cqScope s d q) x.cache x.len = false) ∧ (carOf s x.tid = none))
    ∧ (∃ (tid : BitVec 16) (x : Caravan) (s : State), (carOf s tid.toNat = some x) ∧ (x.isRoot = true) ∧ (x.fetch = true) ∧ (x.fetched < x.len) ∧ (carOutstanding x < 4) ∧ ((carOutstanding x + 1) * (carChunk / 4096 * fabricCells 4120) ≤ poolFree s (x.fq / 2048) x.part 2))
    ∧ (∃ (c : Cfh) (payload : List Byte) (x : Caravan) (s : State), (carMsg s 0x21 c payload = some x) ∧ (x.isRoot = true) ∧ (x.fetch = true) ∧ (c.src = x.storage) ∧ (beAt payload 4 6 = x.verified + x.partialBytes) ∧ (beAt payload 4 6 < x.fetched) ∧ (payload.length = 24 + beAt payload 10 2) ∧ (beAt payload 10 2 = 4096) ∧ (beAt payload 4 6 + 4096 = chunkEnd x.len x.verified))
    ∧ (∃ (tid : BitVec 16) (x : Caravan) (s : State), (carOf s tid.toNat = some x))
    ∧ (∃ (c : Cfh) (payload : List Byte) (x : Caravan) (s : State), (carMsg s 0x22 c payload = some x) ∧ (x.isRoot = false) ∧ (c.src = carAbove x))
    ∧ (∃ (c : Cfh) (payload : List Byte) (x : Caravan) (s : State), (carMsg s 0x23 c payload = some x))
    ∧ (∃ (c : Cfh) (payload : List Byte) (x : Caravan) (p : CarPeer) (s : State), (carMsg s 0x25 c payload = some x) ∧ (x.peers.find? (fun p => p.ep == c.src) = some p) ∧ (beAt payload 4 6 % carChunk = 0) ∧ (beAt payload 4 6 < x.verified))
    ∧ (∃ (c : Cfh) (payload : List Byte) (x : Caravan) (s : State), (carMsg s 0x24 c payload = some x) ∧ (beAt payload 4 6 % carChunk = 0) ∧ (beAt payload 4 6 ≤ x.len))
    ∧ (∃ (tid : BitVec 16) (x : Caravan) (s : State), (carOf s tid.toNat = some x) ∧ (x.isRoot = false) ∧ (x.heardAt + 200000 * nsUnit ≤ s.clock) ∧ (x.onBackup = false))
    ∧ (∃ (c : Cfh) (payload : List Byte) (x : Caravan) (p : CarPeer) (s : State), (carMsg s 0x26 c payload = some x) ∧ (bitAt (beAt payload 1 1) 1 = false) ∧ (isCarEp c.src = false) ∧ (x.peers.find? (fun p => p.ep == c.src) = some p) ∧ (p.done = false) ∧ (payload.length = 72) ∧ (x.isRoot = true))
    ∧ (∃ (tid : BitVec 16) (x : Caravan) (s : State), (carOf s tid.toNat = some x) ∧ (x.isRoot = true) ∧ (x.deadline.any (fun t => decide (t ≤ s.clock)) = true)) := by
  refine ⟨⟨0, 5, demoSlot 0x80, demoTree true, treeCar (demoTreeState 0x80 true) 0 5 (demoSlot 0x80) true (demoTree true), demoTreeState 0x80 true, ?_⟩, ⟨0, 5, demoSlot 0x81, demoTree false, treeCar (demoTreeState 0x81 false) 0 5 (demoSlot 0x81) false (demoTree false), demoTreeState 0x81 false, ?_⟩, ⟨7, demoCar true, onCar (demoCar true) (fun s => wn s (Reg.SWC_POOL_MAX 0 0 2) 100000), ?_⟩, ⟨demoCarTo 11, demoCarMsg 0x21 0 4096 ++ natBe 4096 0, { demoCar true with fetched := 4096 }, onCar { demoCar true with fetched := 4096 } id, ?_⟩, ⟨7, demoCar false, onCar (demoCar false) id, ?_⟩, ⟨demoCarTo (carEp 0), demoCarMsg 0x22 0 0, demoCar false, onCar (demoCar false) id, ?_⟩, ⟨demoCarTo 9, demoCarMsg 0x23 0 0, demoCar false, onCar (demoCar false) id, ?_⟩, ⟨demoCarTo 9, demoCarMsg 0x25 0 0, { demoCar false with verified := 4096 }, ⟨9, false, 0, 0, false⟩, onCar { demoCar false with verified := 4096 } id, ?_⟩, ⟨demoCarTo 9, demoCarMsg 0x24 0 0, demoCar false, onCar (demoCar false) id, ?_⟩, ⟨7, demoCar false, onCar (demoCar false) (fun s => { s with clock := 2 ^ 60 }), ?_⟩, ⟨demoCarTo 9, demoCarMsg 0x26 0 0 ++ natBe 48 0, demoCar true, ⟨9, false, 0, 0, false⟩, onCar (demoCar true) id, ?_⟩, ⟨7, demoCar true, onCar (demoCar true) id, ?_⟩⟩ <;> decide +kernel

theorem witness_ChecksResendsAndRetractions :
    (∃ (d : Fin 8) (u : Fin 64) (v : Word) (s : State), (wbit v 31 = true) ∧ (wbit v 23 = false) ∧ (rb s (Reg.CHK_UNIT_CFG d u) F.CHK_UNIT_CFG_BUSY = false) ∧ (duneUp s d = true) ∧ (held s = false) ∧ (rf (softWrite s (Reg.CHK_UNIT_CFG d u) v) (Reg.CHK_UNIT_CFG d u) F.CHK_UNIT_CFG_SRC = 1))
    ∧ (∃ (d : Fin 8) (u : Fin 64) (bad : Bool) (s : State), (rb s (Reg.CHK_UNIT_CFG d u) F.CHK_UNIT_CFG_BUSY = true) ∧ (rf s (Reg.CHK_UNIT_CFG d u) F.CHK_UNIT_CFG_SRC = 0) ∧ (rn s (Reg.CHK_UNIT_LEN d u) ≠ 0) ∧ (bad = false) ∧ (outsideSpace s (rf s (Reg.CHK_UNIT_PART d u) F.CHK_UNIT_PART_PART) (rn64 s (Reg.CHK_UNIT_ADDR d u)) (rn s (Reg.CHK_UNIT_LEN d u)) = false) ∧ (rb s (Reg.CHK_UNIT_CFG d u) F.CHK_UNIT_CFG_CMP_EN = false))
    ∧ (∃ (d : Fin 8) (u : Fin 64) (v : Word) (s : State), (wbit v 23 = true) ∧ (duneUp s d = true) ∧ (held s = false) ∧ (rb s (Reg.CHK_UNIT_CFG d u) F.CHK_UNIT_CFG_BUSY = true) ∧ (rf s (Reg.CHK_UNIT_CFG d u) F.CHK_UNIT_CFG_SRC = 1))
    ∧ (∃ (c : Cfh) (payload : List Byte) (x : Group) (y : Coll) (s : State), (payload.length = 32) ∧ (beAt payload 0 1 = 0x40) ∧ (c.dst = collEp (ownCoord s)) ∧ (platUp s = true) ∧ (collAny s (beAt payload 2 2) (beAt payload 8 4) = some (x, y)) ∧ (x.gen = beAt payload 4 1) ∧ (c.part = hallPart s x.part) ∧ (beAt payload 1 1 = 3))
    ∧ (∃ (grp : BitVec 16) (step : Word) (rank : BitVec 24) (chunk : BitVec 24) (x : Group) (y : Coll) (a : Attempt) (s : State), (groupOf s grp.toNat = some x) ∧ (collIn x step.toNat = some y) ∧ (attemptOf y rank.toNat chunk.toNat = some a) ∧ (chunk.toNat ≠ 0xFFFFFF) ∧ (a.at_ + Nat.max 1 (rf s (Reg.CHK_CFG (chunkDune s x chunk.toNat)) F.CHK_CFG_RESEND_US) * 1000 * nsUnit ≤ s.clock) ∧ (y.abortAt = none))
    ∧ (∃ (grp : BitVec 16) (step : Word) (chunk : BitVec 24) (g2 : Fin 4096) (second : BitVec 64) (third : Option (BitVec 64)) (x : Group) (y : Coll) (r : ResPkt) (s : State), (groupOf s grp.toNat = some x) ∧ (collIn x step.toNat = some y) ∧ ((ownResults s x y).find? (fun r => r.chunk == chunk.toNat) = some r) ∧ (y.audited.contains chunk.toNat = false) ∧ (y.opcode ≠ 0x12) ∧ (g2.val / 512 = chunkDune s x chunk.toNat) ∧ (second.toNat = r.digest) ∧ (collOf s grp.toNat y.step = some y))
    ∧ (∃ (grp : BitVec 16) (step : Word) (x : Group) (y : Coll) (s : State), (groupOf s grp.toNat = some x) ∧ (x.kept.find? (fun y => y.step == step.toNat) = some y) ∧ (y.since + Nat.max 1 (rf s (Reg.CHK_HOLD (y.fq / 2048)) F.CHK_HOLD_HOLD_MS) * 1000000 * nsUnit ≤ s.clock) ∧ (x.opened.any (fun z => stepBefore y.step z.step) = false))
    ∧ (∃ (c : Cfh) (payload : List Byte) (grp : Nat) (x : Group) (m : ColMsg) (s : State), (retractMsg s c payload = some (grp, x, m)) ∧ (x.entries.any (fun w => w.role == 0 && w.ep == c.src) = true))
    ∧ (∃ (c : Cfh) (payload : List Byte) (grp : Nat) (x : Group) (m : ColMsg) (y : Coll) (s : State), (retractMsg s c payload = some (grp, x, m)) ∧ (fromRoot x c = true) ∧ ((x.opened ++ x.kept).find? (fun y => y.step == m.step) = some y))
    ∧ (∃ (grp : BitVec 16) (step : Word) (x : Group) (y : Coll) (s : State), (collOf s grp.toNat step.toNat = some y) ∧ (groupOf s grp.toNat = some x) ∧ (y.waiting = true) ∧ (y.since + graceUnits s ≤ s.clock)) := by
  refine ⟨⟨0, 3, 0x90000000#32, on id, ?_⟩, ⟨0, 3, false, onJob (fun s => wf (wn s (Reg.CHK_UNIT_LEN 0 3) 64) (Reg.CHK_UNIT_CFG 0 3) F.CHK_UNIT_CFG_BUSY 1), ?_⟩, ⟨0, 3, 0x00800000#32, on (fun s => wf (wf s (Reg.CHK_UNIT_CFG 0 3) F.CHK_UNIT_CFG_BUSY 1) (Reg.CHK_UNIT_CFG 0 3) F.CHK_UNIT_CFG_SRC 1), ?_⟩, ⟨demoRoot, natBe 1 0x40 ++ natBe 1 3 ++ natBe 2 3 ++ natBe 28 0, demoGroup [demoColl] [], demoColl, onGroup 0x10 (demoGroup [demoColl] []) id, ?_⟩, ⟨3, 0, 0, 0, demoGroup [{ demoColl with attempts := [⟨0, 0, 1, 0⟩] }] [], { demoColl with attempts := [⟨0, 0, 1, 0⟩] }, ⟨0, 0, 1, 0⟩, onGroup 0x10 (demoGroup [{ demoColl with attempts := [⟨0, 0, 1, 0⟩] }] []) (fun s => { s with clock := 2 ^ 60 }), ?_⟩, ⟨3, 0, 0, 0, 5, none, demoGroup [{ demoColl with results := [⟨0, [], 5, 0, 0, false⟩] }] [], { demoColl with results := [⟨0, [], 5, 0, 0, false⟩] }, ⟨0, [], 5, 0, 0, false⟩, onGroup 0x10 (demoGroup [{ demoColl with results := [⟨0, [], 5, 0, 0, false⟩] }] []) id, ?_⟩, ⟨3, 0, demoGroup [] [demoColl], demoColl, onGroup 0x10 (demoGroup [] [demoColl]) (fun s => { s with clock := 2 ^ 60 }), ?_⟩, ⟨{ demoRoot with src := 9 }, demoCtl 0x18, 3, demoGroup [demoColl] [], colMsgOf (demoCtl 0x18), onGroup 0x10 (demoGroup [demoColl] []) id, ?_⟩, ⟨demoRoot, demoCtl 0x18, 3, demoGroup [demoColl] [], colMsgOf (demoCtl 0x18), demoColl, onGroup 0x10 (demoGroup [demoColl] []) id, ?_⟩, ⟨3, 0, demoGroup [{ demoColl with waiting := true }] [], { demoColl with waiting := true }, onGroup 0x10 (demoGroup [{ demoColl with waiting := true }] []) (fun s => { s with clock := 2 ^ 60 }), ?_⟩⟩ <;> decide +kernel

theorem witness_MarginTestsAndQuarantine :
    (∃ (d : Fin 8) (v : Word) (s : State), (keyOk v = true) ∧ (wbit v 5 = true) ∧ (wbit v 6 = false) ∧ (duneUp s d = true) ∧ (held s = false) ∧ (SMap.find s.chk.margins d.val = none) ∧ (SMap.find s.brc.dis d.val = none) ∧ ((emptiedPools s (disCovers s (marginEngines d (bitsAt v.toNat 0 5)))).isEmpty = true))
    ∧ (∃ (d : Fin 8) (m : Margin) (s : State), (SMap.find s.chk.margins d.val = some m) ∧ (m.running = false) ∧ ((marginEngines d m.ripple).any (fun g => engSt s g == engRunning || engSt s g == engDraining) = false))
    ∧ (∃ (d : Fin 8) (m : Margin) (s : State), (SMap.find s.chk.margins d.val = some m) ∧ (m.running = false))
    ∧ (∃ (d : Fin 8) (r : MarginRes) (m : Margin) (s : State), (SMap.find s.chk.margins d.val = some m) ∧ (m.running = true))
    ∧ (∃ (d : Fin 8) (v : Word) (m : Margin) (s : State), (keyOk v = true) ∧ (wbit v 6 = true) ∧ (wbit v 5 = false) ∧ (duneUp s d = true) ∧ (held s = false) ∧ (SMap.find s.chk.margins d.val = some m))
    ∧ (∃ (d : Fin 8) (v : Word) (s : State), (keyOk v = true) ∧ (wbit v 23 = true) ∧ (duneUp s d = true) ∧ (held s = false) ∧ (engSt s (d.val * 512 + bitsAt v.toNat 0 9) = engQuarantined)) := by
  refine ⟨⟨0, 0xA5000020#32, on (fun s => setEngSt s 16 engIdle), ?_⟩, ⟨0, ⟨0, false⟩, on (fun s => { s with chk := { s.chk with margins := [(0, ⟨0, false⟩)] } }), ?_⟩, ⟨0, ⟨0, false⟩, on (fun s => { s with chk := { s.chk with margins := [(0, ⟨0, false⟩)] } }), ?_⟩, ⟨0, ⟨[], []⟩, ⟨0, true⟩, on (fun s => { s with chk := { s.chk with margins := [(0, ⟨0, true⟩)] } }), ?_⟩, ⟨0, 0xA5000040#32, ⟨0, true⟩, on (fun s => { s with chk := { s.chk with margins := [(0, ⟨0, true⟩)] } }), ?_⟩, ⟨0, 0xA5800000#32, on (fun s => setEngSt s 0 engQuarantined), ?_⟩⟩ <;> decide +kernel

theorem witness_TheTriadAndHeld :
    (∃ (a : Option Word) (b : Option Word) (c : Option Word) (k : Nat) (s : State), (s.plat.running = true) ∧ (rf s Reg.MGT_TRIAD F.MGT_TRIAD_STATE = 0) ∧ (oddCore [a, b, c] = some k))
    ∧ (∃ (selfTestOk : Bool) (s : State), (rf s Reg.MGT_TRIAD F.MGT_TRIAD_STATE = 1) ∧ (s.mgt.probation = none) ∧ (selfTestOk = true))
    ∧ (∃ (s : State), (rf s Reg.MGT_TRIAD F.MGT_TRIAD_STATE = 1) ∧ (s.mgt.probation.isSome = true))
    ∧ (∃ (s : State), (held s = true))
    ∧ (∃ (port : Fin 4096) (payload : List Byte) (s : State), (platUp s = true) ∧ (linkSt s port = linkUp) ∧ (payload.length = 32) ∧ (beAt payload 0 1 = 0x70))
    ∧ (∃ (port : Fin 4096) (since : Nat) (s : State), (SMap.find s.mgt.beacons port.val = some since) ∧ (since + 10000000 * nsUnit ≤ s.clock)) := by
  refine ⟨⟨some 1#32, some 2#32, some 1#32, 1, onTriad 0 id, ?_⟩, ⟨true, onTriad 1 id, ?_⟩, ⟨onTriad 1 (fun s => { s with mgt := { s.mgt with probation := some 2 } }), ?_⟩, ⟨onTriad 3 id, ?_⟩, ⟨0, natBe 1 0x70 ++ natBe 31 0, onLink 0 1 id, ?_⟩, ⟨0, 0, on (fun s => { s with clock := 2 ^ 60, mgt := { s.mgt with beacons := [(0, 0)] } }), ?_⟩⟩ <;> decide +kernel

theorem witness_RequestsAndOrdersRun :
    (∃ (v : Word) (s : State), (getF v F.MGT_FN_CTRL_ENABLE = 1) ∧ (getF v F.MGT_FN_CTRL_DISABLE = 0) ∧ (keyOk v = true) ∧ (platUp s = true) ∧ (held s = false) ∧ (fnIndexOk s (getF v F.MGT_FN_CTRL_KIND) (fnIndex v) = true) ∧ ((fnScopes s (getF v F.MGT_FN_CTRL_KIND) (fnIndex v)).any (fenced s) = false) ∧ (s.mgt.fn = none) ∧ (getF v F.MGT_FN_CTRL_KIND ≠ 1))
    ∧ (∃ (v : Word) (s : State), (getF v F.MGT_FN_CTRL_DISABLE = 1) ∧ (getF v F.MGT_FN_CTRL_ENABLE = 0) ∧ (getF v F.MGT_FN_CTRL_IMMEDIATE = 0) ∧ (keyOk v = true) ∧ (platUp s = true) ∧ (held s = false) ∧ (fnIndexOk s (getF v F.MGT_FN_CTRL_KIND) (fnIndex v) = true) ∧ ((fnScopes s (getF v F.MGT_FN_CTRL_KIND) (fnIndex v)).any (fenced s) = false) ∧ (s.mgt.fn = none))
    ∧ (∃ (v : Word) (s : State), (getF v F.MGT_FN_CTRL_DISABLE = 1) ∧ (getF v F.MGT_FN_CTRL_ENABLE = 0) ∧ (getF v F.MGT_FN_CTRL_IMMEDIATE = 1) ∧ (keyOk v = true) ∧ (platUp s = true) ∧ (held s = false) ∧ (fnIndexOk s (getF v F.MGT_FN_CTRL_KIND) (fnIndex v) = true) ∧ ((fnScopes s (getF v F.MGT_FN_CTRL_KIND) (fnIndex v)).any (fenced s) = false) ∧ (s.mgt.fn = none))
    ∧ (∃ (r : FnReq) (s : State), (s.mgt.fn = some r) ∧ (r.enable = false) ∧ (r.immediate = false) ∧ (r.at_ + Nat.max 1 (rf s Reg.MGT_FN_CFG F.MGT_FN_CFG_DRAIN_TMO_MS) * 1000000 * nsUnit ≤ s.clock))
    ∧ (∃ (v : Word) (verdicts : List (Bool × Bool)) (s : State), (keyOk v = true) ∧ (wbit v 0 = true) ∧ (platUp s = true))
    ∧ (∃ (seg : List Byte) (verdicts : List (Bool × Bool)) (s : State), (platUp s = true) ∧ (8 ≤ seg.length) ∧ (seg.length ≤ 8192) ∧ (beAt seg 0 1 = 0x60) ∧ (beAt seg 1 1 = 0) ∧ (beAt seg 2 1 = 1))
    ∧ (∃ (o : ArmedOrder) (s : State), (orderDue s 1 = some o) ∧ (o.tkind = 3))
    ∧ (∃ (o : ArmedOrder) (s : State), (orderDue s 2 = some o) ∧ (o.target ≠ s.otp.serial))
    ∧ (∃ (o : ArmedOrder) (s : State), (orderDue s 3 = some o))
    ∧ (∃ (o : ArmedOrder) (s : State), (orderDue s 4 = some o) ∧ (fenceSt s o.num = 2))
    ∧ (∃ (o : ArmedOrder) (s : State), (orderDue s 5 = some o))
    ∧ (∃ (port : Fin 4096) (item : TwinItem) (dg : Nat) (g : Nat) (gen : Nat) (step : Nat) (k : Nat) (dst : Nat) (s : State), (isMirageSpine s = true) ∧ (port.val = twinPort s) ∧ (platUp s = true) ∧ (item = .shadow dg g gen step k dst)) := by
  refine ⟨⟨0xA5800000#32, on id, ?_⟩, ⟨0xA5400000#32, on id, ?_⟩, ⟨0xA5600000#32, on id, ?_⟩, ⟨⟨false, false, 0, 0, 0⟩, on (fun s => { s with clock := 2 ^ 60, mgt := { s.mgt with fn := some ⟨false, false, 0, 0, 0⟩ } }), ?_⟩, ⟨0xA5000001#32, [], on id, ?_⟩, ⟨natBe 1 0x60 ++ natBe 1 0 ++ natBe 1 1 ++ natBe 5 0, [], on id, ?_⟩, ⟨demoOrder 1, onOrder 1 id, ?_⟩, ⟨{ demoOrder 2 with target := 5 }, onOrder 2 (fun s => { s with mgt := { s.mgt with order := some { demoOrder 2 with target := 5 } } }), ?_⟩, ⟨demoOrder 3, onOrder 3 id, ?_⟩, ⟨demoOrder 4, onOrder 4 (fun s => setFenceSt s 0 2), ?_⟩, ⟨demoOrder 5, onOrder 5 id, ?_⟩, ⟨0, .shadow 1 2 3 4 5 6, 1, 2, 3, 4, 5, 6, on (fun s => wf s Reg.MGT_TWIN_CFG F.MGT_TWIN_CFG_ROLE 2), ?_⟩⟩ <;> decide +kernel

theorem witness_TheBusAndTheSessions :
    (∃ (a : BitVec 26) (s : State), (s.plat.running = true) ∧ (windowDune a.toNat = none) ∧ ((regRow (regHome a.toNat)).isSome = true))
    ∧ (∃ (a : BitVec 26) (d : Nat) (s : State), (s.plat.running = true) ∧ (windowDune a.toNat = some d) ∧ (duneUp s d = true)
        ∧ (inAperture a.toNat = false) ∧ ((regRow (regHome a.toNat)).isSome = true))
    ∧ (∃ (a : BitVec 26) (s : State), (s.plat.running = true) ∧ ((windowDune a.toNat).all (duneUp s) = true) ∧ (inAperture a.toNat = false)
        ∧ (regRow (regHome a.toNat) = none))
    ∧ (∃ (a : BitVec 26) (d : Nat) (s : State), (s.plat.running = true) ∧ (windowDune a.toNat = some d) ∧ (duneUp s d = true)
        ∧ (inAperture a.toNat = true))
    ∧ (∃ (a : BitVec 26) (d : Nat) (s : State), (s.plat.running = true) ∧ (windowDune a.toNat = some d) ∧ (duneUp s d = false))
    ∧ (∃ (p : Fin 2) (v6 : Bool) (m : HelloMsg) (s : State), (s.plat.running = true) ∧ ((mpOf s p).linkUp = true) ∧ (mpFamily s p v6 = true)
        ∧ (m.wellFormed = true))
    ∧ (∃ (p : Fin 2) (v6 : Bool) (m : HelloMsg) (s : State), (s.plat.running = true) ∧ ((mpOf s p).linkUp = true) ∧ (mpFamily s p v6 = true)
        ∧ (m.wellFormed = false))
    ∧ (∃ (p : Fin 2) (v6 : Bool) (ip : BitVec 128) (sport : BitVec 16) (chainOk reportOk : Bool) (nonce keyHash : Nat) (y : Session) (s : State),
        (s.plat.running = true) ∧ ((mpOf s p).linkUp = true) ∧ (mpFamily s p v6 = true) ∧ (sessionOf s p v6 ip.toNat sport.toNat = some y)
        ∧ (y.up = false) ∧ (y.gotCert = false) ∧ (sessionRefusal s y chainOk reportOk nonce keyHash = none))
    ∧ (∃ (p : Fin 2) (v6 : Bool) (ip : BitVec 128) (sport : BitVec 16) (chainOk reportOk : Bool) (nonce keyHash reason : Nat) (y : Session)
        (s : State),
        (s.plat.running = true) ∧ ((mpOf s p).linkUp = true) ∧ (mpFamily s p v6 = true) ∧ (sessionOf s p v6 ip.toNat sport.toNat = some y)
        ∧ (y.up = false) ∧ (y.gotCert = false) ∧ (sessionRefusal s y chainOk reportOk nonce keyHash = some reason))
    ∧ (∃ (p : Fin 2) (v6 : Bool) (ip : BitVec 128) (sport : BitVec 16) (y : Session) (s : State),
        (s.plat.running = true) ∧ ((mpOf s p).linkUp = true) ∧ (mpFamily s p v6 = true) ∧ (sessionOf s p v6 ip.toNat sport.toNat = some y)
        ∧ (y.up = false) ∧ (y.gotCert = true))
    ∧ (∃ (p : Fin 2) (v6 : Bool) (ip : BitVec 128) (sport : BitVec 16) (epoch no : Nat) (y : Session) (s : State),
        (s.plat.running = true) ∧ ((mpOf s p).linkUp = true) ∧ (mpFamily s p v6 = true) ∧ (sessionOf s p v6 ip.toNat sport.toNat = some y)
        ∧ (y.up = true) ∧ (sessionFresh y epoch no = true))
    ∧ (∃ (p : Fin 2) (v6 : Bool) (ip : BitVec 128) (sport : BitVec 16) (epoch no : Nat) (y : Session) (s : State),
        (sessionOf s p v6 ip.toNat sport.toNat = some y) ∧ ((y.up && sessionFresh y epoch no) = false))
    ∧ (∃ (p : Fin 2) (v6 : Bool) (ip : BitVec 128) (sport : BitVec 16) (g : SessionMsg) (s : State),
        (sessionOf s p v6 ip.toNat sport.toNat = none) ∧ (∀ m, g ≠ .hello m))
    ∧ (∃ (p : Fin 2) (v6 : Bool) (ip : BitVec 128) (sport : BitVec 16) (x : Session) (s : State),
        (sessionOf s p v6 ip.toNat sport.toNat = some x) ∧ (x.heardAt + 30 * secUnit ≤ s.clock)) := by
  refine ⟨⟨BitVec.ofNat 26 Reg.PWR_LIMIT, on id, ?_⟩, ⟨BitVec.ofNat 26 (Reg.BRC_CFG 0), 0, on id, ?_⟩, ⟨BitVec.ofNat 26 0x3C, on id, ?_⟩,
    ⟨0x2340000#26, 0, on id, ?_⟩, ⟨0x2400000#26, 1, on id, ?_⟩, ⟨0, false, ⟨7, 9, 0, true⟩, onPort id, ?_⟩,
    ⟨0, false, ⟨7, 9, 0, false⟩, onPort id, ?_⟩,
    ⟨0, false, 0x0A000009#128, 5000#16, true, true, 0, 5, demoSession false false, onSession false false (fun s => { s with otp := { s.otp with ownerSlots := [some 5] } }), ?_⟩,
    ⟨0, false, 0x0A000009#128, 5000#16, false, true, 0, 5, 1, demoSession false false, onSession false false id, ?_⟩,
    ⟨0, false, 0x0A000009#128, 5000#16, demoSession false true, onSession false true id, ?_⟩,
    ⟨0, false, 0x0A000009#128, 5000#16, 0, 0, demoSession true true, onSession true true id, ?_⟩,
    ⟨0, false, 0x0A000009#128, 5000#16, 7, 0, demoSession true true, onSession true true id, ?_⟩,
    ⟨0, false, 0#128, 0#16, .refuse, onSession true true id, ?_, by intro m h; cases h⟩,
    ⟨0, false, 0x0A000009#128, 5000#16, demoSession true true, onSession true true (fun s => { s with clock := 2 ^ 60 }), ?_⟩⟩ <;> decide +kernel



theorem witness_AnEmptyQueueLetsOneNanosecondPass : (up id).pending = [] ∧ (up id).plat.running = true
    ∧ (up id).tim.freqAcc = 0 ∧ freqNow (up id) = 0
    ∧ (st id).pending = [] ∧ (st id).plat.running = false := by decide



theorem witness_EveryStepKeepsTheMapsCanonical : State.wf (up id) = true ∧ step (up id) = .next (clockTick (up id)) := ⟨by decide, rfl⟩



theorem witness_NoCommandTouchesTheQueueOrReusesAFreeValue : exec .debugTokenExpiry (up id) = .next (up id) := rfl

theorem witness_WhatHasLeftTheModuleStays : exec .debugTokenExpiry (up id) = .next (up id) := rfl

theorem witness_TheFactoryFusesNeverChange : exec .debugTokenExpiry (up id) = .next (up id) := rfl



theorem witness_AWriteChangesItsRegisterOnly : F.PWR_STATUS_VIN48_GOOD.lo ≤ F.PWR_STATUS_VIN48_GOOD.hi ∧ F.PWR_STATUS_VIN48_GOOD.hi < 32
    ∧ (F.PWR_STATUS_VIN48_GOOD.hi < F.PWR_STATUS_VAUX5_OK.lo ∨ F.PWR_STATUS_VAUX5_OK.hi < F.PWR_STATUS_VIN48_GOOD.lo)
    ∧ regHome Reg.PWR_LIMIT ≠ regHome Reg.PWR_STATUS ∧ regHome (Reg.SWC_CLASS7_DROP 1) ≠ regHome (Reg.SWC_CLASS7_DROP 0)
    ∧ regHome (Reg.SWC_CLASS7_DROP 1) ≠ regHome (Reg.SWC_CLASS7_DROP 0 + 4) := by decide

theorem witness_CountersSaturate : regHome (Reg.SWC_CLASS7_DROP 7 + 4) ≠ regHome (Reg.SWC_CLASS7_DROP 7) := by decide

theorem witness_SoftwareWritesObeyTheAccessCodes : (regRow (regHome Reg.PWR_LIMIT)).isSome = true ∧ (regRow (regHome Reg.HIF_ERR)).isSome = true
    ∧ regRow (regHome 0x3FFFC) = none ∧ (up id).plat.running = true ∧ held (up id) = false := by decide +kernel

theorem witness_OasisReadsBackWhatWasWritten : (∀ i < [1#8, 2#8].length, oasisAddr 1 4 ≠ oasisAddr 1 (2 + i))
    ∧ (∀ i < [1#8, 2#8].length, oasisAddr 2 2 ≠ oasisAddr 1 (2 + i)) ∧ [1#8, 2#8].length ≤ 2 ^ 64
    ∧ (∀ i < [1#8, 2#8].length, 1 % 2 ^ 64 ≠ (2 ^ 64 - 1 + i) % 2 ^ 64) ∧ SMap.wf memDefault (up id).oasis = true := by decide

theorem witness_WaitsCompareModuloTwoToTheTwentieth : (7 : Nat) < 8 ∧ (4094 : Nat) < 4095 ∧ ((7, 4094) : Nat × Nat) ≠ (6, 4094)
    ∧ 0xFFFFF < 2 ^ 20 := by decide

theorem witness_TheSignalCounterCountsSuccess : dSignal 0x1000 ≠ 0xFFF ∧ dOpcode (2 ^ 504) = 1 ∧ dSignal (0xFFF * 2 ^ 116) = 0xFFF
    ∧ stAborted ≠ stOk ∧ stAborted ≠ stRangeEscalated ∧ ¬ (dOpcode 0 = 1 ∧ stAborted = stAbortLate)
    ∧ workStopped (up (fun s => setCq s 0 3 (appendDescs [0] ⟨[], 0, 0, 0⟩))) = false
    ∧ ((cqOf (up (fun s => setCq s 0 3 (appendDescs [0] ⟨[], 0, 0, 0⟩))) 0 3).slots.find? (fun y => y.no == 0 && slotOpen y)).isSome = true := by decide +kernel

theorem witness_OneRecordForEachClaim : claimable (up id) 0 3 0 = false
    ∧ ((cqOf (up (fun s => setCq s 0 3 (appendDescs [0, 1] ⟨[], 7, 0, 0⟩))) 0 3).slots.find? (fun y => y.no == 8 && slotOpen y)).isSome = true
    ∧ (cnqOf (up id) 0 0).dest ≠ 1
    ∧ workStopped (up (fun s => setCq s 0 3 (appendDescs [0, 1] ⟨[], 7, 0, 0⟩))) = false
    ∧ workStopped (up (fun s => { s with plat := { s.plat with creditsWithheld := true } })) = true
    ∧ ((cqOf (up (fun s => setCq s 0 3 (appendDescs [0, 1] ⟨[], 7, 0, 0⟩))) 0 3).slots.map Slot.no).Nodup := by decide +kernel

theorem witness_AClass7CellIsDiscarded : (laneOfPort (onLink 0 1 id) 0 0).isSome = true ∧ linkCarries (onLink 0 1 id) 0 = true
    ∧ portEth (onLink 0 1 id) 0 = false ∧ { demoCfh with cls := 7 }.cls = 7 ∧ demoCfh.ver < 2 ∧ 2 ≤ { demoCfh with ver := 2 }.ver := by
  decide +kernel

theorem witness_WithoutAnArmedListOnlySchedIsClosed : pgSt (onLink 0 1 id) 0 = 0 ∧ portGroup (onLink 0 1 id) 0 = 0
    ∧ pgSt (onLink 0 1 (fun s => setPgSt s 0 4)) 0 = 4 ∧ pgSt (onLink 0 1 (fun s => setPgSt s 0 1)) 0 = 1
    ∧ pgSt (onLink 0 1 (fun s => setPgSt (setPg s 0 { PortGroup.empty with list := some ⟨0, 2000, 2, 0⟩ }) 0 2)) 0 = 2
    ∧ (pgOf (onLink 0 1 (fun s => setPgSt (setPg s 0 { PortGroup.empty with list := some ⟨0, 2000, 2, 0⟩ }) 0 3)) 0).list.isSome = true := by decide +kernel

theorem witness_ShapersCountTokensExactly : shapeRate (up id) 0 0 = 0 ∧ shapeRate (up (fun s => wn s (Reg.SCH_SHP_RATE 7 255 6) 5)) 2047 6 = 5
    ∧ ((2047, 6) : Nat × Nat) ≠ (2047, 5) := by decide +kernel

/-- A command of 600 elements. -/
def demoLong : KRun := { demoRunOf 0x40 with desc := demoDesc (natBe 12 (0x40 * 2 ^ 88) ++ natBe 4 600 ++ natBe 16 0) }
theorem witness_PhaseOneTasksCoverEachElementOnce : runSegs demoLong = 2 ∧ dCount demoLong.desc = 600 := by decide +kernel

theorem witness_TheOrderOfContributionsDoesNotMatter : [XVal.fin 3, .pinf, .fin (-5)].Perm [.fin (-5), .fin 3, .pinf]
    ∧ sumNat ([XVal.fin 3, .pinf, .fin (-5)].map (fun x => match x with | .fin n => n.natAbs | _ => 0)) < 2 ^ 315 := by decide

theorem witness_AnInvalidTrimSelectionReadsZeroAndTakesNoWrite : rf (showTrim (up id)) Reg.PLT_TRIM_EFF F.PLT_TRIM_EFF_INVALID = 1
    ∧ held (up id) = false
    ∧ trimIndexOk (up id).otp.variant (rf (up id) Reg.PLT_TRIM_SEL F.PLT_TRIM_SEL_PARAM) (rf (up id) Reg.PLT_TRIM_SEL F.PLT_TRIM_SEL_INDEX) = false := by decide +kernel

theorem witness_SealingRaisesTheMinimumSequenceAtMost255Times : hAdvance (up (fun s => { s with img := { s.img with header := 2 ^ 1953 } })).img.header = true
    ∧ (up id).rot.raises < 255 ∧ hAdvance (up id).img.header = false
    ∧ 255 ≤ (up (fun s => { s with rot := { s.rot with raises := 255 } })).rot.raises := by decide +kernel

theorem witness_ABlocksCommandsChangeNoOtherBlock : exec .refLoss (up id) = .next (up id) := by rfl

end Sys2Proof.Tests
end

section
/-! PROOF. The scope of the model (family 00): what every command keeps, that every command completes, and the registers. -/
namespace Sys2Proof.Machine

/-! ## What every command keeps -/

/-- Whatever command runs, what `Keeps` says is kept: the case of each command is the law of its meaning. -/
theorem exec_keeps {z s : State} (h : Keeps z s) : ∀ c : Instr, KeepsNext z (exec c s)
  | .auxPowerUp => execAuxPowerUp_keeps h
  | .resetRelease _ => execResetRelease_keeps h
  | .resetAssert => execResetAssert_keeps h
  | .auxInputLoss => execAuxInputLoss_keeps h
  | .vin48Good => execVin48Good_keeps h
  | .vin48OutOfRange => execVin48OutOfRange_keeps h
  | .vaux5OutOfRange => execVaux5OutOfRange_keeps h
  | .thermalTrip _ => execThermalTrip_keeps h
  | .sequencedDuneOff => execSequencedDuneOff_keeps h
  | .softwareWarmReset _ => execSoftwareWarmReset_keeps h
  | .softwareColdReset _ => execSoftwareColdReset_keeps h
  | .imageReload _ => execImageReload_keeps h
  | .imageSeal _ => execImageSeal_keeps h
  | .imageHeaderRead _ _ _ => execImageHeaderRead_keeps h
  | .imageVerifyDone _ => execImageVerifyDone_keeps h
  | .duneDomainEnable => execDuneDomainEnable_keeps h
  | .duneRailsRegulated _ => execDuneRailsRegulated_keeps h
  | .duneRampTimeout _ => execDuneRampTimeout_keeps h
  | .duneCalDone _ _ => execDuneCalDone_keeps h
  | .duneTestDone _ _ => execDuneTestDone_keeps h
  | .bulkSectionActivate _ _ _ => execBulkSectionActivate_keeps h
  | .oasisTrainingDone _ _ => execOasisTrainingDone_keeps h
  | .oasisStackFault _ => execOasisStackFault_keeps h
  | .engineSelfTestDone _ _ => execEngineSelfTestDone_keeps h
  | .trimUserWrite _ => execTrimUserWrite_keeps h
  | .registerWrite _ _ => execRegisterWrite_keeps h
  | .badAccess _ _ => execBadAccess_keeps h
  | .offlineDuneAccess _ _ => execOfflineDuneAccess_keeps h
  | .counterLoRead _ => execCounterLoRead_keeps h
  | .hostSubmit _ _ _ _ => execHostSubmit_keeps h
  | .doorbellSubmit _ _ => execDoorbellSubmit_keeps h
  | .doorbellCounterAdd _ _ => execDoorbellCounterAdd_keeps h
  | .cqEnable _ _ _ => execCqEnable_keeps h
  | .cqDisable _ _ _ => execCqDisable_keeps h
  | .cqQuiescedToDisabled _ _ => execCqQuiescedToDisabled_keeps h
  | .eventCounterWrite _ _ _ => execEventCounterWrite_keeps h
  | .commandDispatch _ _ => execCommandDispatch_keeps h
  | .waitTimeout _ _ => execWaitTimeout_keeps h
  | .nop _ _ => execNop_keeps h
  | .abort _ _ => execAbort_keeps h
  | .cnqEnable _ _ _ => execCnqEnable_keeps h
  | .cnqDisable _ _ _ => execCnqDisable_keeps h
  | .cnqHeadWrite _ _ _ => execCnqHeadWrite_keeps h
  | .cnqReadTimeout _ _ => execCnqReadTimeout_keeps h
  | .cnqFlush _ _ => execCnqFlush_keeps h
  | .cnqFabricSend _ _ => execCnqFabricSend_keeps h
  | .mgmtAddrWrite _ _ _ _ => execMgmtAddrWrite_keeps h
  | .mgmtLinkUp _ => execMgmtLinkUp_keeps h
  | .mgmtAddrConflict _ _ => execMgmtAddrConflict_keeps h
  | .mgmtArpRx _ _ _ _ _ => execMgmtArpRx_keeps h
  | .mgmtNdRx _ _ _ _ _ => execMgmtNdRx_keeps h
  | .mgmtEchoRx _ _ _ _ _ _ => execMgmtEchoRx_keeps h
  | .mgmtFrameDiscard _ _ => execMgmtFrameDiscard_keeps h
  | .i3cRead _ => execI3cRead_keeps h
  | .i3cResetCtrlWrite _ => execI3cResetCtrlWrite_keeps h
  | .sessionDatagram _ _ _ _ _ => execSessionDatagram_keeps h
  | .sessionIdleTimeout _ _ _ _ => execSessionIdleTimeout_keeps h
  | .fabricPacketIngress _ _ _ _ _ _ => execFabricPacketIngress_keeps h
  | .ethernetFrameIngress _ _ _ => execEthernetFrameIngress_keeps h
  | .packetAdmit _ _ => execPacketAdmit_keeps h
  | .spillRefillArrive _ _ _ => execSpillRefillArrive_keeps h
  | .portTransmitSelect _ => execPortTransmitSelect_keeps h
  | .creditReturnRx _ _ _ => execCreditReturnRx_keeps h
  | .creditOnlyCellSend _ => execCreditOnlyCellSend_keeps h
  | .paceLow _ => execPaceLow_keeps h
  | .poolMaxWrite _ _ _ _ => execPoolMaxWrite_keeps h
  | .policerEnable _ _ _ => execPolicerEnable_keeps h
  | .mirrorSessionEnable _ _ _ => execMirrorSessionEnable_keeps h
  | .puntDeliver _ => execPuntDeliver_keeps h
  | .fwdUpdateGo _ => execFwdUpdateGo_keeps h
  | .replicaApply _ => execReplicaApply_keeps h
  | .learningMessage _ _ _ => execLearningMessage_keeps h
  | .scrubPass _ _ => execScrubPass_keeps h
  | .tableRebuild _ _ => execTableRebuild_keeps h
  | .refreshRequestRx _ _ => execRefreshRequestRx_keeps h
  | .refreshTimeout _ => execRefreshTimeout_keeps h
  | .shadowRebuild => execShadowRebuild_keeps h
  | .spraySample => execSpraySample_keeps h
  | .escapeToEntry _ _ => execEscapeToEntry_keeps h
  | .wadiAllowanceLapse _ => execWadiAllowanceLapse_keeps h
  | .resequenceTimeout _ _ => execResequenceTimeout_keeps h
  | .sourceContextExpire _ _ => execSourceContextExpire_keeps h
  | .destContextExpire _ _ => execDestContextExpire_keeps h
  | .throttleUpdate => execThrottleUpdate_keeps h
  | .utilisationWindow => execUtilisationWindow_keeps h
  | .routingTableData _ => execRoutingTableData_keeps h
  | .versionWritable _ => execVersionWritable_keeps h
  | .flipArm _ => execFlipArm_keeps h
  | .flipCancel _ => execFlipCancel_keeps h
  | .epochFlip => execEpochFlip_keeps h
  | .servoUpdate _ => execServoUpdate_keeps h
  | .fineQualify => execFineQualify_keeps h
  | .refusedSourceQualify => execRefusedSourceQualify_keeps h
  | .holdoverLimit => execHoldoverLimit_keeps h
  | .ptpMessageRx _ _ _ => execPtpMessageRx_keeps h
  | .ptpSyncSend _ => execPtpSyncSend_keeps h
  | .ptpAnnounceSend _ => execPtpAnnounceSend_keeps h
  | .announceTimeout _ _ => execAnnounceTimeout_keeps h
  | .fineTimeMarker _ _ _ _ => execFineTimeMarker_keeps h
  | .timAccept _ => execTimAccept_keeps h
  | .timAcquire _ => execTimAcquire_keeps h
  | .timCapture _ => execTimCapture_keeps h
  | .refQualify => execRefQualify_keeps h
  | .refLoss => execRefLoss_keeps h
  | .ppsInEdge _ => execPpsInEdge_keeps h
  | .ppsLoss => execPpsLoss_keeps h
  | .ppsOutPulse => execPpsOutPulse_keeps h
  | .gateEntryStart _ => execGateEntryStart_keeps h
  | .gateListArm _ _ => execGateListArm_keeps h
  | .gateListCancel _ _ => execGateListCancel_keeps h
  | .gateListDisable _ _ => execGateListDisable_keeps h
  | .gateBaseReached _ => execGateBaseReached_keeps h
  | .gateListResume _ => execGateListResume_keeps h
  | .gateListDataWrite _ _ => execGateListDataWrite_keeps h
  | .shaperRateWrite _ _ _ _ => execShaperRateWrite_keeps h
  | .taskGenerate _ _ => execTaskGenerate_keeps h
  | .engineClaim _ => execEngineClaim_keeps h
  | .ucodeNop _ => execUcodeNop_keeps h
  | .endTask _ _ => execEndTask_keeps h
  | .br _ _ _ _ => execBr_keeps h
  | .loop _ _ _ => execLoop_keeps h
  | .call _ _ => execCall_keeps h
  | .ret _ => execRet_keeps h
  | .fault _ _ => execFault_keeps h
  | .sync _ => execSync_keeps h
  | .sli _ _ _ => execSli_keeps h
  | .slui _ _ _ => execSlui_keeps h
  | .sadd _ _ _ _ _ => execSadd_keeps h
  | .ssub _ _ _ _ => execSsub_keeps h
  | .smul _ _ _ _ => execSmul_keeps h
  | .slog _ _ _ _ _ _ => execSlog_keeps h
  | .sprm _ _ _ => execSprm_keeps h
  | .scmp _ _ _ _ _ => execScmp_keeps h
  | .acc _ _ _ _ _ => execAcc_keeps h
  | .accv _ _ _ _ _ _ => execAccv_keeps h
  | .aclr _ _ _ => execAclr_keeps h
  | .outr _ _ _ _ => execOutr_keeps h
  | .nxt _ _ => execNxt_keeps h
  | .inld _ _ _ => execInld_keeps h
  | .outv _ _ _ _ => execOutv_keeps h
  | .osel _ _ => execOsel_keeps h
  | .vadd _ _ _ _ _ => execVadd_keeps h
  | .vsub _ _ _ _ _ => execVsub_keeps h
  | .vmul _ _ _ _ _ => execVmul_keeps h
  | .vfma _ _ _ _ _ => execVfma_keeps h
  | .vdiv _ _ _ _ => execVdiv_keeps h
  | .vsqrt _ _ _ => execVsqrt_keeps h
  | .vmxn _ _ _ _ _ => execVmxn_keeps h
  | .vsel _ _ _ _ _ => execVsel_keeps h
  | .vcmp _ _ _ _ _ => execVcmp_keeps h
  | .vbcs _ _ _ _ => execVbcs_keeps h
  | .vred _ _ _ _ => execVred_keeps h
  | .vcvt _ _ _ _ => execVcvt_keeps h
  | .vidx _ _ _ => execVidx_keeps h
  | .vlog _ _ _ _ _ _ => execVlog_keeps h
  | .vrng _ _ _ => execVrng_keeps h
  | .vsrt _ _ _ _ => execVsrt_keeps h
  | .lds _ _ _ _ => execLds_keeps h
  | .sts _ _ _ _ => execSts_keeps h
  | .asv _ _ _ _ => execAsv_keeps h
  | .ars _ _ _ _ _ _ => execArs_keeps h
  | .old _ _ _ _ => execOld_keeps h
  | .oldComplete _ _ => execOldComplete_keeps h
  | .ost _ _ _ _ => execOst_keeps h
  | .hst _ _ _ => execHst_keeps h
  | .vmov _ _ _ _ => execVmov_keeps h
  | .taskCommit _ => execTaskCommit_keeps h
  | .engineEnable _ _ => execEngineEnable_keeps h
  | .engineDisableDrain _ _ => execEngineDisableDrain_keeps h
  | .engineDisableImmediate _ _ => execEngineDisableImmediate_keeps h
  | .engineZeroed _ => execEngineZeroed_keeps h
  | .brcFault2Read _ => execBrcFault2Read_keeps h
  | .sum _ _ => execSum_keeps h
  | .max _ _ => execMax_keeps h
  | .min _ _ => execMin_keeps h
  | .mean _ _ => execMean_keeps h
  | .sparseMerge _ _ => execSparseMerge_keeps h
  | .topk _ _ => execTopk_keeps h
  | .hist _ _ => execHist_keeps h
  | .norm2 _ _ => execNorm2_keeps h
  | .moeDispatch _ _ => execMoeDispatch_keeps h
  | .moeCombine _ _ => execMoeCombine_keeps h
  | .quant _ _ => execQuant_keeps h
  | .sgdMom _ _ => execSgdMom_keeps h
  | .adamF32 _ _ => execAdamF32_keeps h
  | .signUpd _ _ => execSignUpd_keeps h
  | .ownerKernel _ _ => execOwnerKernel_keeps h
  | .allreduce _ _ => execAllreduce_keeps h
  | .reduce _ _ => execReduce_keeps h
  | .broadcast _ _ => execBroadcast_keeps h
  | .shardUpdate _ _ => execShardUpdate_keeps h
  | .barrier _ _ => execBarrier_keeps h
  | .memberSwap _ _ => execMemberSwap_keeps h
  | .groupSet _ _ => execGroupSet_keeps h
  | .groupFree _ _ => execGroupFree_keeps h
  | .caravanRoot _ _ => execCaravanRoot_keeps h
  | .caravanNode _ _ => execCaravanNode_keeps h
  | .launch _ _ => execLaunch_keeps h
  | .contributionRx _ _ => execContributionRx_keeps h
  | .partialRx _ _ => execPartialRx_keeps h
  | .resultRx _ _ => execResultRx_keeps h
  | .receipt _ _ => execReceipt_keeps h
  | .rack _ _ => execRack_keeps h
  | .ready _ _ => execReady_keeps h
  | .commit _ _ => execCommit_keeps h
  | .abortReq _ _ => execAbortReq_keeps h
  | .collAbort _ _ => execCollAbort_keeps h
  | .swap _ => execSwap_keeps h
  | .commitDeadline _ _ => execCommitDeadline_keeps h
  | .commitGraceExpiry _ _ => execCommitGraceExpiry_keeps h
  | .abortReqGraceExpiry _ _ => execAbortReqGraceExpiry_keeps h
  | .caravanFetch _ => execCaravanFetch_keeps h
  | .caravanData _ _ => execCaravanData_keeps h
  | .caravanHeartbeatSend _ => execCaravanHeartbeatSend_keeps h
  | .caravanHeartbeat _ _ => execCaravanHeartbeat_keeps h
  | .caravanAck _ _ => execCaravanAck_keeps h
  | .caravanNack _ _ => execCaravanNack_keeps h
  | .caravanAttach _ _ => execCaravanAttach_keeps h
  | .caravanDone _ _ => execCaravanDone_keeps h
  | .parentSilence _ => execParentSilence_keeps h
  | .caravanDeadline _ => execCaravanDeadline_keeps h
  | .sweepDone _ _ _ => execSweepDone_keeps h
  | .identityVerify _ _ _ => execIdentityVerify_keeps h
  | .laneFailedRetry _ _ => execLaneFailedRetry_keeps h
  | .pilotIdentityRx _ _ _ => execPilotIdentityRx_keeps h
  | .laneLockLost _ _ => execLaneLockLost_keeps h
  | .telemetryReport _ _ => execTelemetryReport_keeps h
  | .telemetryLost _ => execTelemetryLost_keeps h
  | .spareWarmDone _ _ => execSpareWarmDone_keeps h
  | .spareTuneDone _ _ => execSpareTuneDone_keeps h
  | .spareLockDone _ _ => execSpareLockDone_keeps h
  | .spareVerifyDone _ _ _ => execSpareVerifyDone_keeps h
  | .spareDrift _ _ => execSpareDrift_keeps h
  | .swapExecute _ => execSwapExecute_keeps h
  | .laserLost _ => execLaserLost_keeps h
  | .swapRequest _ _ => execSwapRequest_keeps h
  | .bypassRequest _ _ _ => execBypassRequest_keeps h
  | .pathReserve _ => execPathReserve_keeps h
  | .pathReserved _ => execPathReserved_keeps h
  | .pathDeny _ => execPathDeny_keeps h
  | .pathArm _ => execPathArm_keeps h
  | .pathArmed _ _ => execPathArmed_keeps h
  | .pathArmDeadline _ => execPathArmDeadline_keeps h
  | .pathCancel _ => execPathCancel_keeps h
  | .pathReserveExpiry _ _ => execPathReserveExpiry_keeps h
  | .pathRelease _ => execPathRelease_keeps h
  | .pathReleaseStart _ => execPathReleaseStart_keeps h
  | .crossConnectChange _ _ => execCrossConnectChange_keeps h
  | .pathLaneStart _ _ => execPathLaneStart_keeps h
  | .fibreProbe _ _ _ => execFibreProbe_keeps h
  | .peerPilotSeen _ _ _ => execPeerPilotSeen_keeps h
  | .probeTimeout _ _ => execProbeTimeout_keeps h
  | .holdDone _ _ _ => execHoldDone_keeps h
  | .lossOfPilot _ _ _ => execLossOfPilot_keeps h
  | .siroccoStart _ _ => execSiroccoStart_keeps h
  | .siroccoAbort _ _ => execSiroccoAbort_keeps h
  | .siroccoRunDone _ _ => execSiroccoRunDone_keeps h
  | .chkUnitStart _ _ _ => execChkUnitStart_keeps h
  | .chkUnitDone _ _ _ => execChkUnitDone_keeps h
  | .chkUnitStop _ _ _ => execChkUnitStop_keeps h
  | .resend _ _ => execResend_keeps h
  | .resendTimeout _ _ _ _ => execResendTimeout_keeps h
  | .auditDone _ _ _ _ _ _ => execAuditDone_keeps h
  | .holdExpiry _ _ => execHoldExpiry_keeps h
  | .retractRequest _ _ => execRetractRequest_keeps h
  | .retract _ _ => execRetract_keeps h
  | .replayReserveFail _ _ => execReplayReserveFail_keeps h
  | .marginStart _ _ => execMarginStart_keeps h
  | .marginTempReached _ => execMarginTempReached_keeps h
  | .marginColdTimeout _ => execMarginColdTimeout_keeps h
  | .marginDone _ _ => execMarginDone_keeps h
  | .marginStop _ _ => execMarginStop_keeps h
  | .quarantineRelease _ _ => execQuarantineRelease_keeps h
  | .ownershipTransfer _ _ => execOwnershipTransfer_keeps h
  | .keyPackage _ _ => execKeyPackage_keeps h
  | .debugToken _ _ => execDebugToken_keeps h
  | .debugTokenExpiry => execDebugTokenExpiry_keeps h
  | .dbgClose _ => execDbgClose_keeps h
  | .attest _ => execAttest_keeps h
  | .hello _ _ => execHello_keeps h
  | .cert _ _ => execCert_keeps h
  | .finish _ _ _ => execFinish_keeps h
  | .refuse _ _ => execRefuse_keeps h
  | .handshakeTimeout _ => execHandshakeTimeout_keeps h
  | .refusedRetry _ => execRefusedRetry_keeps h
  | .frameClose _ => execFrameClose_keeps h
  | .linkSeal _ _ => execLinkSeal_keeps h
  | .sealMissing _ => execSealMissing_keeps h
  | .rekey _ _ => execRekey_keeps h
  | .triadDisagree _ _ _ => execTriadDisagree_keeps h
  | .triadRejoin _ => execTriadRejoin_keeps h
  | .triadProbationEnd => execTriadProbationEnd_keeps h
  | .heldBeaconSend => execHeldBeaconSend_keeps h
  | .heldBeacon _ _ => execHeldBeacon_keeps h
  | .heldBeaconAbsence _ => execHeldBeaconAbsence_keeps h
  | .fnEnable _ => execFnEnable_keeps h
  | .fnDisableDrain _ => execFnDisableDrain_keeps h
  | .fnDisableImmediate _ => execFnDisableImmediate_keeps h
  | .drainTimeout => execDrainTimeout_keeps h
  | .orderSubmit _ _ => execOrderSubmit_keeps h
  | .orderSegmentRx _ _ => execOrderSegmentRx_keeps h
  | .expel => execExpel_keeps h
  | .unexpel => execUnexpel_keeps h
  | .fence => execFence_keeps h
  | .unfence => execUnfence_keeps h
  | .promote => execPromote_keeps h
  | .twinShadowRx _ _ => execTwinShadowRx_keeps h
  | .pwrTelemetryUpdate _ => execPwrTelemetryUpdate_keeps h
  | .pwrPeakRead => execPwrPeakRead_keeps h
  | .peerPilotLost _ _ => execPeerPilotLost_keeps h
  | .lpmOldSpaceFree => execLpmOldSpaceFree_keeps h
  | .bypassRelease _ => execBypassRelease_keeps h
  | .neighbourAdvertisementRx _ _ _ _ => execNeighbourAdvertisementRx_keeps h
  | .triadInLockStep => execTriadInLockStep_keeps h

/-- Taking the command at the front off the queue leaves the maps as they are, and so does the command; on an empty queue the
clock alone goes on. -/
theorem step_keeps_wf {s t : State} (w : State.wf s = true) (e : step s = .next t) : State.wf t = true := by
  unfold step at e
  split at e
  · injection e with e
    exact e ▸ (clockTick_keeps (Keeps.refl s)).canon w
  · next c rest _ =>
    exact ((exec_keeps (Keeps.refl { s with pending := rest }) c).out t e).canon w

/-- Settles O40: `exec_keeps` and `clockTick_keeps` cover the two cases of a step. -/
theorem everyStepKeepsTheMapsCanonical : Obligations.EveryStepKeepsTheMapsCanonical :=
  fun _ _ w e => step_keeps_wf w e

/-- Settles O44: the fuses are among what every command keeps. -/
theorem theFactoryFusesNeverChange : Obligations.TheFactoryFusesNeverChange :=
  fun c s t e => ((exec_keeps (Keeps.refl s) c).out t e).fuses

/-- Settles O41: the meaning of each command is, by its definition, a next state. -/
theorem everyCommandCompletes : Obligations.EveryCommandCompletes := by
  intro c s
  cases c <;> exact ⟨_, rfl⟩

end Sys2Proof.Machine
end

section
/-! PROOF. Register operations (R13 to R15, R132): what a write sets, what it leaves, and what registers read after reset. -/
namespace Sys2Proof.Machine

/-! ## Frames of the register operations -/

theorem rd_bump32_ne (s : State) {a b : Nat} (n : Nat) (h : regHome a ≠ regHome b) : rd (bump32 s a n) b = rd s b := rd_wn_ne s _ h

/-- A 64-bit counter lies in two registers; every other one reads as before. -/
theorem rd_bump64_ne (s : State) {a b : Nat} (n : Nat) (lo : regHome a ≠ regHome b) (hi : regHome (a + 4) ≠ regHome b) :
    rd (bump64 s a n) b = rd s b :=
  (rd_wn_ne _ _ hi).trans (rd_wn_ne s _ lo)

/-- Settles O46: each operation is one or two writes of `wr`, which sets one key of the register map. -/
theorem aWriteChangesItsRegisterOnly : Obligations.AWriteChangesItsRegisterOnly := by
  refine ⟨fun s a v => ⟨rd_wr_same s a v, fun b h => rd_wr_ne s v h.symm, rfl⟩, fun s a f n hf => ?field,
    fun s a l => ⟨fun b h => rd_wfs_ne s l h.symm, rfl⟩, fun s a n => ⟨fun b h => rd_wn_ne s n h.symm, rfl⟩,
    fun s a n => ⟨fun b h => rd_bump32_ne s n h.symm, rfl⟩,
    fun s a n => ⟨fun b lo hi => rd_bump64_ne s n lo.symm hi.symm, rfl⟩⟩
  case field =>
    exact ⟨rf_wf_same s a f n hf, fun g hg apart => rf_wf_field s a f g n hf hg apart,
      fun b h => rd_wf_ne s f n h.symm, rfl⟩

/-! ## Software writes -/

/-- A software write of a register: its value is what the access codes of its row leave. -/
theorem softWrite_some {s : State} {a : Nat} {r : RegRow} (v : Word) (h : regRow (regHome a) = some r) :
    softWrite s a v = wr s a (writeValue s r (regHome a) (rd s a) v) := by
  simp only [softWrite, h]

/-- Reserved space takes no write (R82). -/
theorem softWrite_none {s : State} {a : Nat} (v : Word) (h : regRow (regHome a) = none) : softWrite s a v = s := by
  simp only [softWrite, h]

/-- The access codes bit by bit (Table 0.4): a W1C bit written 1 is 0, a writable bit takes the value, every other bit stays. -/
theorem writeValue_bit (s : State) (r : RegRow) (a : Nat) (old v : Word) {i : Nat} (hi : i < 32) :
    (writeValue s r a old v).getLsbD i = (if (BitVec.ofNat 32 r.w1c).getLsbD i && v.getLsbD i then false
      else if (BitVec.ofNat 32 (writableMask s r)).getLsbD i && !(BitVec.ofNat 32 (fixedBits r a)).getLsbD i then v.getLsbD i
      else old.getLsbD i) := by
  simp only [writeValue, BitVec.getLsbD_and, BitVec.getLsbD_or, BitVec.getLsbD_not, hi, decide_true, Bool.true_and]
  rw [Bool.and_comm (v.getLsbD i) ((BitVec.ofNat 32 r.w1c).getLsbD i)]
  split
  · next cleared => rw [cleared, Bool.not_true, Bool.and_false]
  · next kept =>
    rw [Bool.eq_false_iff.mpr kept]
    split
    · next writable => simp [writable]
    · next fixed => simp [Bool.eq_false_iff.mpr fixed]

theorem rd_softWrite_ne (s : State) {a b : Nat} (v : Word) (h : regHome a ≠ regHome b) : rd (softWrite s a v) b = rd s b := by
  cases e : regRow (regHome a) with
  | none => rw [softWrite_none v e]
  | some r => rw [softWrite_some v e, rd_wr_ne s _ h]

/-- A software write changes nothing but registers. -/
theorem softWrite_rest (s : State) (a : Nat) (v : Word) : { softWrite s a v with regs := s.regs } = s := by
  cases e : regRow (regHome a) with
  | none => rw [softWrite_none v e]
  | some r => rw [softWrite_some v e]; rfl

/-- PWR_LIMIT has no behaviour of its own: where the triad is not in HELD, a bus write is a software write. -/
theorem busWrite_PWR_LIMIT {s : State} (v : Word) (run : s.plat.running = true) (free : held s = false) :
    busWrite s Reg.PWR_LIMIT v = softWrite s Reg.PWR_LIMIT v := by
  have home : regHome Reg.PWR_LIMIT = Reg.PWR_LIMIT := regHome_low (by decide)
  have erg : windowDune Reg.PWR_LIMIT = none := by decide
  have row : (regRow Reg.PWR_LIMIT).isNone = false := by decide
  have plain : ergWrite s Reg.PWR_LIMIT v = plainWrite s Reg.PWR_LIMIT v := rfl
  simp only [busWrite, home, erg, row, run, plain, plainWrite, free, Bool.not_true, Bool.false_and, Bool.false_eq_true, if_false]

/-- Settles O48: a software write is one register write of `writeValue`, whose bits `writeValue_bit` gives. -/
theorem softwareWritesObeyTheAccessCodes : Obligations.SoftwareWritesObeyTheAccessCodes := by
  refine ⟨fun s a v r i row hi => ?_, fun s a v => ⟨fun b h => rd_softWrite_ne s v h.symm, softWrite_rest s a v⟩,
    fun s a v row => softWrite_none v row, fun s v run free => ?_⟩
  · rw [softWrite_some v row, rd_wr_same]
    exact writeValue_bit s r (regHome a) (rd s a) v hi
  · exact congrArg Host.Outcome.next (busWrite_PWR_LIMIT v run free)

/-! ## Reset values -/

/-- After reset no register is listed, so each reads the reset value of its home. -/
theorem rd_reset (a : Nat) : rd State.reset a = regReset (regHome a) := by
  have unlisted : State.reset.regs = [] := rfl
  rw [rd, unlisted, SMap.get]

/-- Settles O45: the reset values, looked up in the register map. -/
theorem resetGivesTheRegistersTheirResetValues : Obligations.ResetGivesTheRegistersTheirResetValues := by
  simp only [Obligations.ResetGivesTheRegistersTheirResetValues, rd_reset]
  decide +kernel

end Sys2Proof.Machine
end

section
/-! PROOF. Accesses of the host (R82, R88, R92, R95, R132): each command on its accepted path. -/
namespace Sys2Proof.Machine

/-! ## Accesses that do not reach a register -/

/-- What an access in the window of a dune that is not UP adds comes after the malformed access itself. -/
theorem execBadAccess_running (a : BitVec 26) (isRead : Bool) {s : State} (run : s.plat.running = true) :
    execBadAccess a isRead s = .next (windowAccess (if isRead then hifErr (emit s (.readData a.toNat 0xFFFFFFFF)) F.HIF_ERR_BAD_ACCESS
      else if inAperture a.toNat then apertureBad s else hifErr s F.HIF_ERR_BAD_ACCESS) a.toNat) := by
  rw [execBadAccess, run]
  cases isRead
  · cases inAperture a.toNat <;> rfl
  · rfl

theorem execOfflineDuneAccess_offline (a : BitVec 26) (isRead : Bool) {d : Nat} {s : State} (win : windowDune a.toNat = some d)
    (run : s.plat.running = true) (off : duneUp s d = false) :
    execOfflineDuneAccess a isRead s = .next (offlineAccess (if isRead then emit s (.readData a.toNat 0xFFFFFFFF) else s)) := by
  simp [execOfflineDuneAccess, win, run, off]

/-! ## Submissions, doorbells and event counters -/

/-- A write of all 64 bytes of a descriptor offers it to its queue. -/
theorem execHostSubmit_whole (d : Fin 8) (q : Fin 2048) {bytes : List Byte} {s : State} (run : s.plat.running = true)
    (up : duneUp s d = true) (len : bytes.length = 64) : execHostSubmit d q 0 bytes s = .next (cqOffer s d q [beNat bytes]) := by
  simp [execHostSubmit, run, up, len]

/-- A well-formed submit doorbell acts for the ripple of its queue. -/
theorem execDoorbellSubmit_formed {c : Cfh} {payload : List Byte} {s : State} (run : s.plat.running = true)
    (bell : isDoorbell s c = true) (form : submitFormOk payload = true) {d q : Nat} (hd : beAt payload 2 2 / 2 ^ 11 % 8 = d)
    (hq : beAt payload 2 2 % 2 ^ 11 = q) :
    execDoorbellSubmit c payload s = .next (doorbell s c (cqRipple d q)
      (!rb s (Reg.HIF_CQ_CFG d q) F.HIF_CQ_CFG_JOB_CHECK || c.job == rf s (Reg.HIF_CQ_JOB d q) F.HIF_CQ_JOB_JOB)
      (fun u => cqOffer u d q (doorbellDescs payload))) := by
  simp only [execDoorbellSubmit, run, bell, form, hd, hq, Bool.not_true, Bool.false_eq_true, or_self, if_false]

/-- A well-formed counter-add doorbell acts for the ripple of its counter, unless the counter's scope is fenced. -/
theorem execDoorbellCounterAdd_formed {c : Cfh} {payload : List Byte} {s : State} (run : s.plat.running = true)
    (bell : isDoorbell s c = true) (form : addFormOk payload = true) {d i : Nat} (hd : beAt payload 2 2 / 2 ^ 12 % 8 = d)
    (hi : beAt payload 2 2 % 2 ^ 12 = i) :
    execDoorbellCounterAdd c payload s = .next (doorbell s c (d * 32 + i / 128) (!fenced s (counterScope s d i))
      (fun u => addCounter u d i (beAt payload 4 4 % 2 ^ 20))) := by
  simp only [execDoorbellCounterAdd, run, bell, form, hd, hi, Bool.not_true, Bool.false_eq_true, or_self, if_false]

theorem execEventCounterWrite_up (d : Fin 8) (i : Fin 4095) (v : Word) {s : State} (up : winOk s d = true) (free : held s = false) :
    execEventCounterWrite d i v s = .next (wf s (Reg.HIF_CNT d i) F.HIF_CNT_VALUE (getF v F.HIF_CNT_VALUE)) := by
  simp [execEventCounterWrite, up, free]

/-- Settles O4: clause by clause, the meaning of the command on the path that the clause names. -/
theorem hostAccessesHaveTheirEffect : Obligations.HostAccessesHaveTheirEffect := by
  refine ⟨fun a isRead s run => execBadAccess_running a isRead run,
    fun a isRead d s win run off => execOfflineDuneAccess_offline a isRead win run off, fun a s up lo => ?counter,
    fun d q off bytes s run up whole len => ?submit, fun c payload s run bell form => execDoorbellSubmit_formed run bell form rfl rfl,
    fun c payload s run bell form => execDoorbellCounterAdd_formed run bell form rfl rfl,
    fun d i v s up free => execEventCounterWrite_up d i v up free⟩
  case counter => exact congrArg Host.Outcome.next (if_pos (Bool.and_eq_true_iff.mpr ⟨up, lo⟩))
  case submit =>
    subst whole
    exact execHostSubmit_whole d q run up len

end Sys2Proof.Machine
end

section
/-! PROOF. Register writes over the bus (R14, R82) and register sessions (R380): each on the path that its conditions choose. -/
namespace Sys2Proof.Machine

/-! ## Register writes -/

/-- Reserved space ignores a write. -/
theorem busWrite_reserved {s : State} {addr : Nat} (v : Word) (up : (windowDune addr).all (duneUp s) = true) (ap : inAperture addr = false)
    (row : regRow (regHome addr) = none) : busWrite s addr v = s := by
  cases win : windowDune addr with
  | none => simp [busWrite, win, row]
  | some d =>
    have hd : duneUp s d = true := by simpa [win] using up
    simp [busWrite, win, hd, ap, row]

section
variable {s : State} {addr : Nat} (v : Word) (run : s.plat.running = true)
include run

/-- A register outside the dune windows acts as its block says. -/
theorem busWrite_erg (win : windowDune addr = none) (row : (regRow (regHome addr)).isSome = true) :
    busWrite s addr v = ergWrite s (regHome addr) v := by
  simp [busWrite, run, win, Option.isSome_iff_ne_none.mp row]

/-- A register in the window of a dune that is UP acts as its block says. -/
theorem busWrite_dune {d : Nat} (win : windowDune addr = some d) (up : duneUp s d = true) (ap : inAperture addr = false)
    (row : (regRow (regHome addr)).isSome = true) : busWrite s addr v = duneWrite s (Fin.ofNat 8 d) (regHome addr) v := by
  simp [busWrite, run, win, up, ap, Option.isSome_iff_ne_none.mp row]

/-- A register write into a submission aperture is malformed. -/
theorem busWrite_aperture {d : Nat} (win : windowDune addr = some d) (up : duneUp s d = true) (ap : inAperture addr = true) :
    busWrite s addr v = apertureBad s := by
  simp [busWrite, run, win, up, ap]

/-- A write to the window of a dune that is not UP is an offline access. -/
theorem busWrite_offline {d : Nat} (win : windowDune addr = some d) (off : duneUp s d = false) :
    busWrite s addr v = offlineAccess (if inAperture addr then apertureBad s else s) := by
  simp [busWrite, run, win, off]

end

/-! ## Register sessions -/

/-- A management port listens to datagrams of a family while the platform die runs, its link is up and the family is on (R86). -/
def PortListens (s : State) (p : Fin 2) (v6 : Bool) : Prop :=
  s.plat.running = true ∧ (mpOf s p).linkUp = true ∧ mpFamily s p v6 = true

/-- The condition by which SESSION_DATAGRAM drops a datagram does not hold at a port that listens. -/
theorem PortListens.takes {s : State} {p : Fin 2} {v6 : Bool} (h : PortListens s p v6) :
    ¬ (!(s.plat.running && (mpOf s p.val).linkUp && mpFamily s p.val v6)) = true := by
  obtain ⟨run, link, family⟩ := h
  simp [run, link, family]

section
variable {p : Fin 2} {v6 : Bool} {ip : BitVec 128} {sport : BitVec 16} {s : State}

/-! ### HELLO -/

section
variable {m : HelloMsg} (listen : PortListens s p v6)
include listen

/-- A HELLO opens a session, which replaces the client's last one, and is answered with HELLO and CERT. -/
theorem execSessionDatagram_hello (formed : m.wellFormed = true) :
    execSessionDatagram p v6 ip sport (.hello m) s = .next (
      let y := newSession p v6 ip.toNat sport.toNat (Config.free s.free % 2 ^ 256) m.serial s.clock
      let u := putSession { s with free := s.free + 2 } y
      let w := sessionMsg u y 0x50 0 (natBe 32 y.nonce ++ natBe 16 s.otp.serial ++ natBe 2 0 ++ Config.keyShare (s.free + 1))
      sessionMsg w y 0x51 0 (s.otp.cert ++ reportBytes w m.nonce)) :=
  congrArg Host.Outcome.next ((if_neg listen.takes).trans (if_neg (by simp [formed])))

/-- A malformed HELLO is refused. -/
theorem execSessionDatagram_hello_malformed (formed : m.wellFormed = false) :
    execSessionDatagram p v6 ip sport (.hello m) s = .next (
      sessionRefuse s (newSession p v6 ip.toNat sport.toNat (Config.free s.free % 2 ^ 256) m.serial s.clock) 6) :=
  congrArg Host.Outcome.next ((if_neg listen.takes).trans (if_pos (by simp [formed])))

end

/-! ### Messages of a client that has a session -/

section
variable {y : Session} (listen : PortListens s p v6) (known : sessionOf s p v6 ip.toNat sport.toNat = some y)
include listen known

/-- A CERT that nothing refuses is answered with FINISH; the module with the higher serial adds its key share. -/
theorem execSessionDatagram_cert {chainOk reportOk : Bool} {nonce keyHash : Nat} (up : y.up = false) (first : y.gotCert = false)
    (fits : sessionRefusal s y chainOk reportOk nonce keyHash = none) :
    execSessionDatagram p v6 ip sport (.cert chainOk reportOk nonce keyHash) s = .next (
      let share := if y.peerSerial < s.otp.serial then Config.keyShare s.free else []
      sessionMsg (tickFree (putSession s { y with gotCert := true, heardAt := s.clock })) y 0x52 0
        (share ++ Config.dikSign (natBe 48 (freeNat s % 2 ^ 384)))) := by
  simp only [execSessionDatagram, if_neg listen.takes, known, up, first, fits, Bool.false_eq_true, or_self, if_false]

/-- A CERT is refused for the first reason that applies. -/
theorem execSessionDatagram_cert_refused {chainOk reportOk : Bool} {nonce keyHash reason : Nat} (up : y.up = false)
    (first : y.gotCert = false) (bad : sessionRefusal s y chainOk reportOk nonce keyHash = some reason) :
    execSessionDatagram p v6 ip sport (.cert chainOk reportOk nonce keyHash) s = .next (sessionRefuse s y reason) := by
  simp [execSessionDatagram, listen.takes, known, up, first, bad]

/-- After the client's CERT its FINISH brings the session up, or is refused where the signature does not fit. -/
theorem execSessionDatagram_finish {sigOk : Bool} (up : y.up = false) (second : y.gotCert = true) :
    execSessionDatagram p v6 ip sport (.finish sigOk) s = .next (
      if sigOk then putSession s { y with up := true, since := s.clock, heardAt := s.clock } else sessionRefuse s y 2) := by
  cases sigOk <;> simp [execSessionDatagram, listen.takes, known, up, second]

/-- REFUSE ends a session that is not up. -/
theorem execSessionDatagram_refuse (up : y.up = false) :
    execSessionDatagram p v6 ip sport .refuse s = .next (dropSession s y) := by
  simp [execSessionDatagram, listen.takes, known, up]

/-- A frame goes to the session. -/
theorem execSessionDatagram_frame (epoch no : Nat) (next tagOk : Bool) (l : List (BitVec 26 × Option Word)) :
    execSessionDatagram p v6 ip sport (.frame epoch no next tagOk l) s = .next (sessionFrame s y epoch no next tagOk l) := by
  simp [execSessionDatagram, listen.takes, known]

end

/-! ### Frames -/

/-- A fresh frame of a session that is up whose tag fails ends the session. -/
theorem sessionFrame_badTag {y : Session} {epoch no : Nat} {next : Bool} {l : List (BitVec 26 × Option Word)} (up : y.up = true)
    (fresh : sessionFresh y epoch no = true) : sessionFrame s y epoch no next false l = dropSession s y := by
  simp [sessionFrame, up, fresh]

/-- A stale frame, or one before the session is up, changes nothing. -/
theorem sessionFrame_stale {y : Session} {epoch no : Nat} {next tagOk : Bool} {l : List (BitVec 26 × Option Word)}
    (stale : (y.up && sessionFresh y epoch no) = false) : sessionFrame s y epoch no next tagOk l = s := by
  rw [Bool.and_eq_false_iff] at stale
  exact if_pos (by simpa using stale)

/-- A fresh frame with a good tag makes its accesses, and is answered where they leave the client its session. -/
theorem sessionFrame_fresh {y : Session} {epoch no : Nat} {next : Bool} {l : List (BitVec 26 × Option Word)} (up : y.up = true)
    (fresh : sessionFresh y epoch no = true) :
    sessionFrame s y epoch no next true l = (
      let r := sessionAccess (putSession s (sessionTook y epoch no next s.clock)) l
      match sessionOf r.1 y.mp y.v6 y.ip y.sport with
      | none => r.1
      | some z => sessionSend (putSession r.1 (sessionSent z r.1.clock)) z
          (Config.sessionCipher z.txEpoch z.txFrame (r.2 ++ natBe 1 (b2n (z.txNext == some (z.txFrame + 2)))))) :=
  (if_neg (by simp [up, fresh])).trans (if_neg (by simp))

/-- A stale frame changes nothing, whether or not the port listens. -/
theorem execSessionDatagram_frame_stale {y : Session} (known : sessionOf s p v6 ip.toNat sport.toNat = some y) {epoch no : Nat}
    {next tagOk : Bool} {l : List (BitVec 26 × Option Word)} (stale : (y.up && sessionFresh y epoch no) = false) :
    execSessionDatagram p v6 ip sport (.frame epoch no next tagOk l) s = .next s := by
  simp only [execSessionDatagram, known, sessionFrame_stale stale, ite_self]

/-- A client without a session is heard only for HELLO. -/
theorem execSessionDatagram_unknown (unknown : sessionOf s p v6 ip.toNat sport.toNat = none) {g : SessionMsg}
    (notHello : ∀ m, g ≠ .hello m) : execSessionDatagram p v6 ip sport g s = .next s := by
  cases g with
  | hello m => exact absurd rfl (notHello m)
  | cert | finish | refuse | frame => simp only [execSessionDatagram, unknown, ite_self]

/-- 30 s without a datagram end a session. -/
theorem execSessionIdleTimeout_due {x : Session} (known : sessionOf s p v6 ip.toNat sport.toNat = some x)
    (due : x.heardAt + 30 * secUnit ≤ s.clock) : execSessionIdleTimeout p v6 ip sport s = .next (dropSession s x) := by
  simp [execSessionIdleTimeout, known, due]

end

/-- Settles O36: `busWrite` by the place of the address, then the datagrams by message and session. -/
theorem theBusAndTheSessions : Obligations.TheBusAndTheSessions := by
  refine ⟨fun a v s run win row => congrArg Host.Outcome.next (busWrite_erg v run win row),
    fun a v d s run win up ap row => congrArg Host.Outcome.next (busWrite_dune v run win up ap row),
    fun a v s run up ap row => congrArg Host.Outcome.next (busWrite_reserved v up ap row),
    fun a v d s run win up ap => congrArg Host.Outcome.next (busWrite_aperture v run win up ap),
    fun a v d s run win off => congrArg Host.Outcome.next (busWrite_offline v run win off), ?hello, ?malformed, ?cert, ?certRefused,
    ?finish, ?refuse, ?fresh, ?badTag, fun p v6 ip sport epoch no next tagOk l y s known stale => ?stale,
    fun p v6 ip sport g s unknown notHello => execSessionDatagram_unknown unknown notHello,
    fun p v6 ip sport x s known due => execSessionIdleTimeout_due known due⟩
  case hello =>
    intro p v6 ip sport m s run link family formed
    exact execSessionDatagram_hello ⟨run, link, family⟩ formed
  case malformed =>
    intro p v6 ip sport m s run link family formed
    exact execSessionDatagram_hello_malformed ⟨run, link, family⟩ formed
  case cert =>
    intro p v6 ip sport chainOk reportOk nonce keyHash y s run link family known up first fits
    exact execSessionDatagram_cert ⟨run, link, family⟩ known up first fits
  case certRefused =>
    intro p v6 ip sport chainOk reportOk nonce keyHash reason y s run link family known up first bad
    exact execSessionDatagram_cert_refused ⟨run, link, family⟩ known up first bad
  case finish =>
    intro p v6 ip sport sigOk y s run link family known up second
    exact execSessionDatagram_finish ⟨run, link, family⟩ known up second
  case refuse =>
    intro p v6 ip sport y s run link family known up
    exact execSessionDatagram_refuse ⟨run, link, family⟩ known up
  case fresh =>
    intro p v6 ip sport epoch no next l y s run link family known up fresh
    have taken := execSessionDatagram_frame ⟨run, link, family⟩ known epoch no next true l
    rw [sessionFrame_fresh up fresh] at taken
    exact taken
  case badTag =>
    intro p v6 ip sport epoch no next l y s run link family known up fresh
    have taken := execSessionDatagram_frame ⟨run, link, family⟩ known epoch no next false l
    rw [sessionFrame_badTag up fresh] at taken
    exact taken
  case stale => exact execSessionDatagram_frame_stale known stale

end Sys2Proof.Machine
end

section
/-! PROOF. Architecture: what a step runs (R38), what every command keeps (R35, R38, R121), what the memories give back (R23, R32,
R236), and what the commands of a block leave alone (R38, R64, R360, R373). -/
namespace Sys2Proof.Machine

/-! ## The queue of commands and what every command keeps -/

/-- Settles O37: `step` matches on the queue, whose front is `c`. -/
theorem aStepRunsTheCommandAtTheFront : Obligations.AStepRunsTheCommandAtTheFront :=
  fun _ _ _ => rfl

/-- The next state of a command, seen from the state before it. -/
theorem keeps_of_exec {c : Instr} {s t : State} (e : exec c s = .next t) : Keeps s t := (exec_keeps (Keeps.refl s) c).out t e

/-- Settles O42: the queue and the index of free values are among what every command keeps. -/
theorem noCommandTouchesTheQueueOrReusesAFreeValue : Obligations.NoCommandTouchesTheQueueOrReusesAFreeValue :=
  fun _ _ _ e => ⟨(keeps_of_exec e).queue, (keeps_of_exec e).fresh⟩

/-- Settles O43: that the output only grows is among what every command keeps. -/
theorem whatHasLeftTheModuleStays : Obligations.WhatHasLeftTheModuleStays :=
  fun _ _ _ e => (keeps_of_exec e).sent

/-! ## Memories -/

/-- One byte of host memory, at its 64-bit address. -/
theorem hostRead_one (s : State) (a : Nat) : hostRead s a 1 = [SMap.get memDefault s.hostMem (a % 2 ^ 64)] := rfl

/-- Bytes stored in host memory read back, each at its own place. -/
theorem hostRead_hostWrite_same (s : State) (a : Nat) {bs : List Byte} {i : Nat} (len : bs.length ≤ 2 ^ 64) (hi : i < bs.length) :
    hostRead (hostWrite s a bs) (a + i) 1 = bs[i]?.toList := by
  rw [hostRead_one, ← hostMem_hostWrite_same s a bs len hi, Option.toList_some]

/-- A byte of host memory outside the stored ones reads as before. -/
theorem hostRead_hostWrite_ne (s : State) (a : Nat) {bs : List Byte} {b : Nat}
    (apart : ∀ i < bs.length, b % 2 ^ 64 ≠ (a + i) % 2 ^ 64) : hostRead (hostWrite s a bs) b 1 = hostRead s b 1 := by
  rw [hostRead_one, hostRead_one, hostMem_hostWrite_ne s a bs apart]

/-- Settles O49: the laws of the two memories. -/
theorem oasisReadsBackWhatWasWritten : Obligations.OasisReadsBackWhatWasWritten :=
  ⟨fun s p off bs _ hi => oasisByte_oasisWrite_same s p off bs hi,
    fun s p off bs _ _ apart => oasisByte_oasisWrite_ne s p off bs apart,
    fun s p off bs => ⟨oasisWrite_rest s p off bs, oasisWrite_wf s p off bs⟩,
    fun s a _ _ len hi => hostRead_hostWrite_same s a len hi,
    fun s a _ _ apart => hostRead_hostWrite_ne s a apart,
    fun s a bs => ⟨hostWrite_rest s a bs, hostWrite_wf s a bs⟩⟩

/-! ## Frames of blocks -/

/-- Where a command changes no block that the mask `bk` does not name, its next state is the state before it but for registers,
host memory, host queues, output and the named blocks. -/
theorem rest_eq_of_apart (bk : Blocks) {s : State} {o : Host.Outcome State Fault Refusal} (h : Apart bk s s → ApartNext bk s o)
    (t : State) (e : o = .next t) :
    { t with regs := s.regs, hostMem := s.hostMem, hif := s.hif, outbox := s.outbox,
             tim := if bk.tim then s.tim else t.tim, sch := if bk.sch then s.sch else t.sch,
             rte := if bk.rte then s.rte else t.rte, fwd := if bk.fwd then s.fwd else t.fwd,
             mgt := if bk.mgt then s.mgt else t.mgt, col := if bk.col then s.col else t.col,
             swc := if bk.swc then s.swc else t.swc, sec := if bk.sec then s.sec else t.sec,
             rot := if bk.rot then s.rot else t.rot, free := if bk.free then s.free else t.free,
             opt := if bk.opt then s.opt else t.opt } = s :=
  ((h (Apart.refl bk s)).out t e).eq

/-- Settles O60: each command has its law in `Laws/Apart*`; the mask beside it names the blocks that its clause leaves free. -/
theorem aBlocksCommandsChangeNoOtherBlock : Obligations.ABlocksCommandsChangeNoOtherBlock := by
  -- The time base.
  refine ⟨fun _ => rest_eq_of_apart { tim := true } (execRefLoss_apart rfl),
    fun _ _ _ _ => rest_eq_of_apart { tim := true } (execPtpMessageRx_apart rfl),
    fun _ _ _ => rest_eq_of_apart { tim := true } (execAnnounceTimeout_apart rfl),
    fun _ _ _ _ _ => rest_eq_of_apart { tim := true } (execFineTimeMarker_apart rfl),
    fun _ => rest_eq_of_apart { tim := true } (execPpsLoss_apart rfl),
    fun _ _ => rest_eq_of_apart { tim := true } (execTimAccept_apart rfl),
    fun _ _ => rest_eq_of_apart { tim := true } (execPpsInEdge_apart rfl),
    fun _ => rest_eq_of_apart { tim := true } (execFineQualify_apart rfl),
    fun _ => rest_eq_of_apart { free := true, tim := true } (execRefQualify_apart rfl rfl),
    fun _ _ => rest_eq_of_apart { tim := true } execTimCapture_apart,
    fun _ _ => rest_eq_of_apart { tim := true } (execPtpSyncSend_apart rfl),
    fun _ _ => rest_eq_of_apart { tim := true } execPtpAnnounceSend_apart,
    ?_⟩
  -- Gate lists and shapers.
  refine ⟨fun _ _ _ => rest_eq_of_apart { sch := true } (execGateListDataWrite_apart rfl),
    fun _ _ _ => rest_eq_of_apart { sch := true } (execGateListArm_apart rfl),
    fun _ _ _ => rest_eq_of_apart { sch := true } (execGateListDisable_apart rfl),
    fun _ _ _ => rest_eq_of_apart { sch := true } (execGateListCancel_apart rfl),
    fun _ _ _ _ _ => rest_eq_of_apart { sch := true } (execShaperRateWrite_apart rfl),
    fun _ _ => rest_eq_of_apart { sch := true } (execGateEntryStart_apart rfl),
    ?_⟩
  -- Routing, whose throttle messages wait in the switch core.
  refine ⟨fun _ _ => rest_eq_of_apart { rte := true } (execFlipCancel_apart rfl),
    fun _ _ => rest_eq_of_apart { rte := true } (execFlipArm_apart rfl),
    fun _ _ => rest_eq_of_apart { rte := true } (execRoutingTableData_apart rfl),
    fun _ => rest_eq_of_apart { rte := true } (execUtilisationWindow_apart rfl),
    fun _ => rest_eq_of_apart { rte := true } (execEpochFlip_apart rfl),
    fun _ => rest_eq_of_apart { rte := true } (execSpraySample_apart rfl),
    fun _ _ _ => rest_eq_of_apart { rte := true } (execSourceContextExpire_apart rfl),
    fun _ _ _ => rest_eq_of_apart { rte := true } (execDestContextExpire_apart rfl),
    fun _ => rest_eq_of_apart { rte := true, swc := true } (execThrottleUpdate_apart rfl rfl),
    ?_⟩
  -- Forwarding tables: records of their own wait in the switch core, and the end of a replay settles what the tables show.
  refine ⟨fun _ _ => rest_eq_of_apart { fwd := true } (execRefreshTimeout_apart rfl),
    fun _ _ => rest_eq_of_apart { fwd := true, opt := true, rot := true, rte := true, swc := true }
      (execReplicaApply_apart rfl rfl rfl rfl rfl),
    fun _ _ => rest_eq_of_apart { fwd := true, swc := true } (execFwdUpdateGo_apart rfl rfl),
    fun _ _ _ _ => rest_eq_of_apart { fwd := true, swc := true } (execLearningMessage_apart rfl rfl),
    fun _ => rest_eq_of_apart { fwd := true } (execShadowRebuild_apart rfl),
    fun _ => rest_eq_of_apart { fwd := true } (execLpmOldSpaceFree_apart rfl),
    fun _ _ _ => rest_eq_of_apart { fwd := true, swc := true } (execTableRebuild_apart rfl rfl),
    fun _ _ _ => rest_eq_of_apart { fwd := true, swc := true } (execRefreshRequestRx_apart rfl),
    ?_⟩
  -- Orders, fences and the triad.
  refine ⟨fun _ _ _ => rest_eq_of_apart { mgt := true } (execOrderSegmentRx_apart rfl),
    fun _ _ _ => rest_eq_of_apart { mgt := true } (execOrderSubmit_apart rfl),
    fun _ => rest_eq_of_apart { mgt := true } (execUnfence_apart rfl),
    fun _ _ => rest_eq_of_apart { mgt := true } (execTriadRejoin_apart rfl),
    fun _ _ => rest_eq_of_apart { mgt := true } (execHeldBeaconAbsence_apart rfl),
    fun _ => rest_eq_of_apart { mgt := true } (execTriadProbationEnd_apart rfl),
    ?_⟩
  -- Caravan and the members of groups.
  refine ⟨fun _ _ _ => rest_eq_of_apart { col := true } (execCaravanRoot_apart rfl),
    fun _ _ _ => rest_eq_of_apart { col := true } (execCaravanNode_apart rfl),
    fun _ _ => rest_eq_of_apart { col := true } (execParentSilence_apart rfl),
    fun _ _ => rest_eq_of_apart { col := true } (execCaravanDeadline_apart rfl),
    fun _ _ _ => rest_eq_of_apart { col := true } (execCaravanDone_apart rfl),
    fun _ _ _ => rest_eq_of_apart { col := true } (execMemberSwap_apart rfl),
    fun _ _ _ => rest_eq_of_apart { col := true } (execCaravanHeartbeat_apart rfl),
    fun _ _ _ => rest_eq_of_apart { col := true } (execCaravanAck_apart rfl),
    fun _ _ _ => rest_eq_of_apart { col := true } (execCaravanAttach_apart rfl),
    fun _ _ => rest_eq_of_apart { col := true } (execCaravanFetch_apart rfl),
    fun _ _ => rest_eq_of_apart { col := true } execCaravanHeartbeatSend_apart,
    fun _ _ _ => rest_eq_of_apart { col := true } execCaravanNack_apart,
    ?_⟩
  -- The switch core.
  refine ⟨fun _ _ _ _ => rest_eq_of_apart { swc := true } (execPolicerEnable_apart rfl),
    fun _ _ => rest_eq_of_apart { swc := true } (execPuntDeliver_apart rfl),
    fun _ _ _ _ _ => rest_eq_of_apart { swc := true } (execPoolMaxWrite_apart rfl),
    fun _ _ _ _ => rest_eq_of_apart { swc := true } execMirrorSessionEnable_apart,
    fun _ _ => rest_eq_of_apart { swc := true } (execCounterLoRead_apart rfl),
    ?_⟩
  -- Link security: a handshake takes free values and its packets wait in the switch core.
  refine ⟨fun _ _ => rest_eq_of_apart { free := true, sec := true, swc := true } (execHandshakeTimeout_apart rfl rfl rfl),
    fun _ _ _ => rest_eq_of_apart { sec := true } (execRefuse_apart rfl),
    fun _ _ _ => rest_eq_of_apart { free := true, sec := true, swc := true } (execHello_apart rfl rfl rfl),
    fun _ _ _ _ _ => rest_eq_of_apart { sec := true } (execSessionIdleTimeout_apart rfl),
    ?_⟩
  -- The root of trust.
  refine ⟨fun _ _ => rest_eq_of_apart { rot := true } (execDbgClose_apart rfl),
    fun _ => rest_eq_of_apart { rot := true } (execDebugTokenExpiry_apart rfl),
    fun _ _ => rest_eq_of_apart { rot := true } (execImageSeal_apart rfl),
    ?_⟩
  -- The host interface, power, checks and management ports: registers and queues, and the fabric queues of the switch core.
  exact ⟨fun _ _ => rest_eq_of_apart {} execPwrTelemetryUpdate_apart,
    fun _ _ => rest_eq_of_apart {} execPaceLow_apart,
    fun _ _ _ _ => rest_eq_of_apart {} execCnqEnable_apart,
    fun _ _ _ _ => rest_eq_of_apart { swc := true } (execCnqDisable_apart rfl),
    fun _ _ _ _ => rest_eq_of_apart { swc := true } (execCnqHeadWrite_apart rfl),
    fun _ _ _ => rest_eq_of_apart { swc := true } (execCnqFlush_apart rfl),
    fun _ _ _ => rest_eq_of_apart {} execCnqReadTimeout_apart,
    fun _ _ _ _ => rest_eq_of_apart {} execCqEnable_apart,
    fun _ _ _ _ => rest_eq_of_apart {} execCqDisable_apart,
    fun _ => rest_eq_of_apart {} execDrainTimeout_apart,
    fun _ _ _ _ => rest_eq_of_apart {} execChkUnitStart_apart,
    fun _ _ _ _ => rest_eq_of_apart {} execChkUnitStop_apart,
    fun _ _ _ => rest_eq_of_apart {} execWaitTimeout_apart,
    fun _ _ => rest_eq_of_apart {} execTelemetryLost_apart,
    fun _ _ _ _ _ => rest_eq_of_apart {} execMgmtAddrWrite_apart,
    fun _ _ _ => rest_eq_of_apart {} execNop_apart,
    fun _ _ => rest_eq_of_apart {} execAttest_apart,
    fun _ _ _ => rest_eq_of_apart { swc := true } (execCnqFabricSend_apart rfl),
    fun _ _ _ _ => rest_eq_of_apart {} execEventCounterWrite_apart,
    fun _ => rest_eq_of_apart {} execVaux5OutOfRange_apart,
    fun _ _ _ => rest_eq_of_apart {} execDoorbellSubmit_apart,
    fun _ _ _ => rest_eq_of_apart {} execDoorbellCounterAdd_apart,
    fun _ _ _ _ _ => rest_eq_of_apart {} execHostSubmit_apart,
    fun _ _ _ _ _ _ => rest_eq_of_apart {} execMgmtArpRx_apart,
    fun _ _ _ _ _ _ => rest_eq_of_apart {} execMgmtNdRx_apart,
    fun _ _ _ _ _ _ _ => rest_eq_of_apart {} execMgmtEchoRx_apart,
    fun _ _ => rest_eq_of_apart {} execMgmtLinkUp_apart,
    fun _ => rest_eq_of_apart {} execPwrPeakRead_apart,
    fun _ _ _ => rest_eq_of_apart {} execOfflineDuneAccess_apart,
    fun _ _ _ => rest_eq_of_apart {} execBadAccess_apart⟩

end Sys2Proof.Machine
end

section
/-! PROOF. Configuration and image: thermal trip, reset requests and the image load on the paths that their conditions choose (R57,
R58, R61, R63, R77 to R79), and what sealing does to the minimum sequence (R62). -/
namespace Sys2Proof.Machine

/-! ## Thermal trip and power-down sequences (R78) -/

/-- The state in which a trip at a sensor is recorded and reported, with the lasers off and every dune still as it was. -/
def tripReported (s : State) (sensor : Fin 208) : State :=
  let s1 := wfs s Reg.PLT_RESET_CAUSE
    [(F.PLT_RESET_CAUSE_CAUSE, 6), (F.PLT_RESET_CAUSE_TRIPPED, 1), (F.PLT_RESET_CAUSE_TRIP_SENSOR, sensor)]
  let s2 := { s1 with plat := { s1.plat with creditsWithheld := true, coldPending := none }, pins := { s1.pins with thermTripN := false } }
  fsrStore (lasersOff (signal (emit s2 .i3cIbi) 0)) 0x0A (sensorPath sensor) [(5, sensor)] [] 0 [] []

/-- With no sequence running and no cold reset pending, a trip begins a sequence over the dunes that are not OFF. -/
theorem execThermalTrip_idle {sensor : Fin 208} {s : State} (run : s.plat.running = true)
    (first : rb s Reg.PLT_RESET_CAUSE F.PLT_RESET_CAUSE_TRIPPED = false) (fitted : sensorFitted s sensor = true)
    (idle : s.plat.seq = none) (noPending : s.plat.coldPending = none) :
    execThermalTrip sensor s = .next (
      let t := tripReported s sensor
      if (offDunes t).isEmpty then { t with plat := { t.plat with seq := none } }
      else { t with plat := { t.plat with seq := some ⟨.trip, offDunes t⟩ } }) := by
  simp only [execThermalTrip, run, first, fitted, idle, noPending, Bool.not_true, Bool.false_eq_true, or_self, if_false]
  rfl

/-- Where dunes are left after the next one of a sequence, that one goes off and the sequence goes on. -/
theorem execSequencedDuneOff_more {k : SeqKind} {d e : Nat} {rest : List Nat} {s : State} (seq : s.plat.seq = some ⟨k, d :: e :: rest⟩) :
    execSequencedDuneOff s = .next (duneOff { s with plat := { s.plat with seq := some ⟨k, e :: rest⟩ } } d 0) := by
  simp only [execSequencedDuneOff, seq, List.isEmpty_cons, Bool.false_eq_true, if_false]

/-! ## Reset requests (R63, R77, R79) -/

section
variable {v : Word} {s : State} (run : s.plat.running = true) (key : keyOk v = true)
include run key

/-- COLD with the key is a cold reset. -/
theorem resetRequest_cold (cold : wbit v 1 = true) : resetRequest s v = coldStart s 4 := by
  simp [resetRequest, run, key, cold]

/-- WARM without COLD, with the key, is a warm reset unless a trip or a cold reset runs. -/
theorem resetRequest_warm (warm : wbit v 0 = true) (notCold : wbit v 1 = false) (up : downRuns s = false) :
    resetRequest s v = warmReset { s with plat := { s.plat with seq := none } } 5 := by
  simp [resetRequest, run, key, warm, notCold, up]

theorem execSoftwareWarmReset_warm (warm : wbit v 0 = true) (notCold : wbit v 1 = false) (up : downRuns s = false) :
    execSoftwareWarmReset v s = .next (warmReset { s with plat := { s.plat with seq := none } } 5) := by
  rw [execSoftwareWarmReset, if_pos warm, resetRequest_warm run key warm notCold up]

theorem execSoftwareColdReset_cold (cold : wbit v 1 = true) : execSoftwareColdReset v s = .next (coldStart s 4) := by
  rw [execSoftwareColdReset, if_pos cold, resetRequest_cold run key cold]

/-- RELOAD with the key is a cold reset with a cause of its own. -/
theorem execImageReload_reload (reload : wbit v 1 = true) : execImageReload v s = .next (coldStart s 3) := by
  simp [execImageReload, run, key, reload]

/-- SEAL with the key seals a loaded image at once. -/
theorem execImageSeal_loaded (free : held s = false) (asked : wbit v 2 = true)
    (unsealed : rb s Reg.IMG_STATUS F.IMG_STATUS_SEALED = false) (loaded : imgSt s = imgLoaded) :
    execImageSeal v s = .next (sealLogged s) := by
  have notFailed : imgLoaded ≠ imgFailed := by decide
  simp [execImageSeal, run, key, free, asked, unsealed, loaded, notFailed]

end

/-! ## Image load (R57, R58) -/

/-- A header that the checks of step 1 pass is taken, and the load goes on to the signature. -/
theorem execImageHeaderRead_passed {h0 h1 : HdrRead} {hostOk : Bool} {slot : ImgSlot} {s : State} (run : s.plat.running = true)
    (fetch : imgSt s = imgFetch) (next : nextSlot s h0 h1 = some slot)
    (good : headerCode s.otp.variant (if slot = .host then 2 ^ 28 else (slotRead s h0 h1 hostOk slot).bytes)
      (slotRead s h0 h1 hostOk slot) = 0) :
    execImageHeaderRead h0 h1 hostOk s = .next (setImgSt (wfs { s with img := { s.img with
      cur := slot, header := (slotRead s h0 h1 hostOk slot).header } } Reg.IMG_STATUS
        [(F.IMG_STATUS_SLOT, slotCode slot), (F.IMG_STATUS_SECTIONS_DONE, 0)]) imgSig) := by
  simp only [execImageHeaderRead, run, fetch, next, good, Bool.not_true, Bool.false_eq_true, ne_eq, not_true_eq_false, or_self,
    if_false, if_true]

/-- The image of that header, which passes steps 2 to 6, is accepted. -/
theorem execImageVerifyDone_passed {img : Image} {s : State} (sig : imgSt s = imgSig) (same : img.header = s.img.header)
    (atSource : sourceHolds s img = true)
    (passed : verifyImage s.otp.variant (ownerKey s) s.otp.vendorKey s.rot.minSeq s.rot.imageKeys img = none) :
    execImageVerifyDone img s = .next (refreshReady s (imageAccept (setImgSt s imgBootSect) img)) := by
  simp only [execImageVerifyDone, sig, same, atSource, passed, Bool.not_true, Bool.false_eq_true, ne_eq, not_true_eq_false, or_self,
    if_false]

/-- Settles O2: clause by clause, the meaning of the command on the path that the clause names. -/
theorem resetsAndImageLoadRun : Obligations.ResetsAndImageLoadRun :=
  ⟨fun _ _ run first fitted idle pending => execThermalTrip_idle run first fitted idle pending,
    fun _ _ _ _ _ seq => execSequencedDuneOff_more seq,
    fun _ _ run key warm notCold up => execSoftwareWarmReset_warm run key warm notCold up,
    fun _ _ run key cold => execSoftwareColdReset_cold run key cold,
    fun _ _ run key reload => execImageReload_reload run key reload,
    fun _ _ run free key asked unsealed loaded => execImageSeal_loaded run key free asked unsealed loaded,
    fun _ _ _ _ _ run fetch next good => execImageHeaderRead_passed run fetch next good,
    fun _ _ sig same atSource passed => execImageVerifyDone_passed sig same atSource passed⟩

/-! ## Sealing and the minimum sequence (R62) -/

/-- Whether sealing raises the minimum sequence: the image asks for it, a raise is left, and its sequence is higher. -/
def SealRaises (s : State) : Prop :=
  hAdvance s.img.header = true ∧ s.rot.raises < 255 ∧ s.rot.minSeq < hImageSeq s.img.header

/-- A seal that raises the minimum sequence sets it to IMAGE_SEQ and counts the raise. -/
theorem sealNow_rot_raise {s : State} (h : SealRaises s) :
    (sealNow s).rot = { s.rot with minSeq := hImageSeq s.img.header, raises := s.rot.raises + 1 } := by
  obtain ⟨advance, left, higher⟩ := h
  simp only [sealNow, if_pos advance, if_neg (Nat.not_le.mpr left), if_pos higher]
  rfl

/-- Any other seal leaves the root of trust as it is. -/
theorem sealNow_rot_same {s : State} (h : ¬ SealRaises s) : (sealNow s).rot = s.rot := by
  unfold sealNow
  split
  · next advance =>
    split
    · rfl
    · next left =>
      rw [if_neg fun higher => h ⟨advance, Nat.not_le.mp left, higher⟩]
      rfl
  · rfl

/-- A seal that asks for a raise when none is left shows RB_EXHAUSTED. -/
theorem sealNow_RB_EXHAUSTED {s : State} (advance : hAdvance s.img.header = true) (spent : 255 ≤ s.rot.raises) :
    rf (sealNow s) Reg.IMG_STATUS F.IMG_STATUS_RB_EXHAUSTED = 1 := by
  simp only [sealNow, if_pos advance, if_pos spent]
  exact rf_wf_same _ _ _ 1 (by decide)

/-- Settles O59: the four clauses follow from whether the seal raises the minimum sequence. -/
theorem sealingRaisesTheMinimumSequenceAtMost255Times : Obligations.SealingRaisesTheMinimumSequenceAtMost255Times := by
  refine ⟨fun s advance left => ?advances, fun s advance spent => ⟨sealNow_rot_same ?spent, sealNow_RB_EXHAUSTED advance spent⟩,
    fun s without => sealNow_rot_same ?without, fun s => ?bounds⟩
  case advances =>
    by_cases higher : s.rot.minSeq < hImageSeq s.img.header
    · rw [sealNow_rot_raise ⟨advance, left, higher⟩, if_pos higher]
      exact ⟨(Nat.max_eq_right higher.le).symm, rfl⟩
    · rw [sealNow_rot_same fun ⟨_, _, raised⟩ => higher raised, if_neg higher]
      exact ⟨(Nat.max_eq_left (Nat.not_lt.mp higher)).symm, rfl⟩
  case spent => exact fun ⟨_, left, _⟩ => Nat.not_lt.mpr spent left
  case without => exact fun ⟨advance, _⟩ => Bool.false_ne_true (without.symm.trans advance)
  case bounds =>
    by_cases raises : SealRaises s
    · rw [sealNow_rot_raise raises]
      obtain ⟨_, left, higher⟩ := raises
      exact ⟨higher.le, fun _ => left⟩
    · rw [sealNow_rot_same raises]
      exact ⟨le_rfl, id⟩

end Sys2Proof.Machine
end

section
/-! PROOF. Bring-up: the atomic claim of a command and its one completion record (R77, R89, R98 to R101). -/
namespace Sys2Proof.Machine

/-! ## Slots of a command queue -/

/-- A change of one element shows in no view of the list that the change keeps. -/
theorem map_modFirst {α β : Type} {p : α → Bool} {f : α → α} {g : α → β} (keep : ∀ y, p y = true → g (f y) = g y) (l : List α) :
    (modFirst p f l).map g = l.map g := by
  induction l with
  | nil => rfl
  | cons h t ih =>
    cases hp : p h with
    | true => simp [modFirst, hp, keep h hp]
    | false => simp [modFirst, hp, ih]

/-- Marking the head WAITING keeps the number of every slot. -/
theorem headWaiting_no (l : List Slot) : (headWaiting l).map Slot.no = l.map Slot.no :=
  map_modFirst (f := fun x => { x with st := .waiting }) (fun _ _ => rfl) l

/-- The head is open before it is marked WAITING and after it. -/
theorem any_headWaiting_open (no : Nat) (l : List Slot) :
    (headWaiting l).any (fun y => y.no == no && slotOpen y) = l.any (fun y => y.no == no && slotOpen y) := by
  have keep : ∀ y : Slot, slotPending y = true →
      (y.no == no && slotOpen { y with st := .waiting }) = (y.no == no && slotOpen y) := by
    intro y pending
    have isOpen : slotOpen y = true := Bool.or_eq_true_iff.mpr (.inl pending)
    rw [isOpen]
    rfl
  have same := map_modFirst (f := fun x => { x with st := .waiting }) (g := fun y => y.no == no && slotOpen y) keep l
  simpa only [headWaiting, List.any_map, Function.id_comp] using congrArg (List.any · id) same

/-- Where a number is borne once, closing its slot leaves no open slot of that number. -/
theorem any_modFirst_closed {z : Slot} (closed : slotOpen z = false) {no : Nat} {l : List Slot} (nodup : (l.map Slot.no).Nodup) :
    (modFirst (fun y => y.no == no) (fun _ => z) l).any (fun y => y.no == no && slotOpen y) = false := by
  induction l with
  | nil => rfl
  | cons h t ih =>
    obtain ⟨fresh, nodup⟩ := List.nodup_cons.mp nodup
    by_cases found : h.no = no
    · have others : t.any (fun y => y.no == no && slotOpen y) = false := by
        rw [List.any_eq_false]
        intro y hy same
        have bears : y.no = no := by simpa using (Bool.and_eq_true_iff.mp same).1
        exact fresh (List.mem_map.mpr ⟨y, hy, bears.trans found.symm⟩)
      simp [modFirst, found, closed, others]
    · have other : (h.no == no) = false := beq_eq_false_iff_ne.mpr found
      simp only [modFirst, other, Bool.false_eq_true, if_false, List.any_cons, Bool.false_and, Bool.false_or, ih nodup]

/-- The slot of a claimed command (log 64: CLAIMED and DONE are one step). -/
def doneSlot (x : Slot) (status : Nat) : Slot := { x with st := .done, status := status, holds := false }

/-- A queue once the command of a number is claimed. -/
def claimedCq (c : Cq) (no status : Nat) (x : Slot) : Cq :=
  { c with slots := headWaiting (modFirst (fun y => y.no == no) (fun _ => doneSlot x status) c.slots) }

/-- A claim keeps the number of every slot. -/
theorem claimedCq_no {c : Cq} {no : Nat} (status : Nat) {x : Slot} (bears : x.no = no) :
    (claimedCq c no status x).slots.map Slot.no = c.slots.map Slot.no := by
  have keep : ∀ y : Slot, (y.no == no) = true → (doneSlot x status).no = y.no := fun y h => bears.trans (eq_of_beq h).symm
  rw [claimedCq, headWaiting_no, map_modFirst keep]

/-- After a claim no slot of that number is open. -/
theorem claimedCq_closed {c : Cq} (no status : Nat) (x : Slot) (nodup : (c.slots.map Slot.no).Nodup) :
    (claimedCq c no status x).slots.any (fun y => y.no == no && slotOpen y) = false :=
  (any_headWaiting_open no _).trans (any_modFirst_closed rfl nodup)

/-! ## Claims -/

/-- A claim succeeds: the work in flight is not stopped, and `x` is the command's open slot. -/
structure Claims (s : State) (d q no : Nat) (x : Slot) : Prop where
  working : workStopped s = false
  found : (cqOf s d q).slots.find? (fun y => y.no == no && slotOpen y) = some x

/-- Either a command's claim changes nothing, whatever its status, or it succeeds. -/
theorem claim_id_or_claims (s : State) (d q no : Nat) : (∀ status, claim s d q no status = s) ∨ ∃ x, Claims s d q no x := by
  cases stopped : workStopped s with
  | true => exact .inl fun status => claim_stopped s status stopped
  | false =>
    cases isOpen : claimable s d q no with
    | false => exact .inl fun status => claim_none s status isOpen
    | true =>
      obtain ⟨x, found⟩ := Option.isSome_iff_exists.mp ((List.find?_isSome).mpr (List.any_eq_true.mp isOpen))
      exact .inr ⟨x, stopped, found⟩

section
variable {s : State} {d q no : Nat} {x : Slot} (h : Claims s d q no x)
include h

theorem Claims.no_eq : x.no = no := by
  have accepted := List.find?_some h.found
  exact eq_of_beq (Bool.and_eq_true_iff.mp accepted).1

/-- The queue of a claimed command. -/
theorem Claims.cqOf_claim (status : Nat) (hd : d < 8) : cqOf (claim s d q no status) d q = claimedCq (cqOf s d q) no status x :=
  claim_slots s status hd h.working h.found

/-- A command that has been claimed, and whose number no other slot bears, cannot be claimed again. -/
theorem Claims.claimable_claim (status : Nat) (hd : d < 8) (nodup : ((cqOf s d q).slots.map Slot.no).Nodup) :
    claimable (claim s d q no status) d q no = false := by
  rw [claimable, h.cqOf_claim status hd]
  exact claimedCq_closed no status x nodup

end

/-- The claim is atomic: a second one of the same command, with whatever status, changes nothing. -/
theorem claim_claim {s : State} {d q : Nat} (no status status' : Nat) (hd : d < 8) (nodup : ((cqOf s d q).slots.map Slot.no).Nodup) :
    claim (claim s d q no status) d q no status' = claim s d q no status := by
  obtain unchanged | ⟨x, claims⟩ := claim_id_or_claims s d q no
  · rw [unchanged, unchanged]
  · exact claim_none _ status' (claims.claimable_claim status hd nodup)

/-- A claim keeps slot numbers distinct. -/
theorem claim_nodup {s : State} {d q : Nat} (no status : Nat) (hd : d < 8) (nodup : ((cqOf s d q).slots.map Slot.no).Nodup) :
    ((cqOf (claim s d q no status) d q).slots.map Slot.no).Nodup := by
  obtain unchanged | ⟨x, claims⟩ := claim_id_or_claims s d q no
  · rwa [unchanged]
  · rwa [claims.cqOf_claim status hd, claimedCq_no status claims.no_eq]

/-! ## The record of a claim -/

/-- Marking a slot leaves the TAIL of every completion queue alone. -/
theorem rn_setCq_tail (s : State) {d q n : Nat} (c : Cq) (hq : q < 2048) (hn : n < 2048) :
    rn (setCq s d q c) (Reg.HIF_CNQ_TAIL d n) = rn s (Reg.HIF_CNQ_TAIL d n) := by
  have status : regHome (Reg.HIF_CQ_STATUS d q) = Reg.HIF_CQ_STATUS d q :=
    regHome_queues d (by simp only [Reg.HIF_CQ_STATUS]; omega) (by simp only [Reg.HIF_CQ_STATUS]; omega)
  have tail : regHome (Reg.HIF_CNQ_TAIL d n) = Reg.HIF_CNQ_TAIL d n :=
    regHome_queues d (by simp only [Reg.HIF_CNQ_TAIL]; omega) (by simp only [Reg.HIF_CNQ_TAIL]; omega)
  have apart : regHome (Reg.HIF_CQ_STATUS d q) ≠ regHome (Reg.HIF_CNQ_TAIL d n) := by
    rw [status, tail]
    simp only [Reg.HIF_CQ_STATUS, Reg.HIF_CNQ_TAIL]
    omega
  exact congrArg BitVec.toNat (rd_wf_ne { s with hif := { s.hif with cqs := SMap.ins s.hif.cqs (flatQ d q) c } } _ _ apart)

theorem natBe_length (n v : Nat) : (natBe n v).length = n := by
  induction n with
  | zero => rfl
  | succ n ih => rw [natBe, List.length_cons, ih]

theorem recordBytes_length (time : Nat) (phase : Bool) (x : Slot) : (recordBytes time phase x).length = 16 := by
  simp only [recordBytes, List.length_append, natBe_length]

/-- What is stored in host memory reads back. -/
theorem hostRead_hostWrite (s : State) (a : Nat) {bs : List Byte} (len : bs.length ≤ 2 ^ 64) :
    hostRead (hostWrite s a bs) a bs.length = bs := by
  apply List.ext_getElem?
  intro i
  by_cases hi : i < bs.length
  · simp only [hostRead, List.getElem?_map, List.getElem?_range hi, Option.map_some]
    exact hostMem_hostWrite_same s a bs len hi
  · rw [List.getElem?_eq_none (by simpa [hostRead] using hi), List.getElem?_eq_none (by simpa using hi)]

/-- The completion queue that a command queue is bound to. -/
abbrev boundRing (s : State) (d q : Nat) : Cnq := cnqOf s d (cqCnq s d q)

/-- The TAIL of that completion queue. -/
abbrev boundTail (s : State) (d q : Nat) : Nat := rn s (Reg.HIF_CNQ_TAIL d (cqCnq s d q))

/-- The bytes of the record that a claim writes (Table 4.9). -/
abbrev claimRecord (s : State) (d q status : Nat) (x : Slot) : List Byte :=
  recordBytes (time48 s) (boundRing s d q).phase { x with status := status }

section
variable {s : State} {d q no : Nat} {x : Slot} (h : Claims s d q no x) (status : Nat) (hd : d < 8) (hq : q < 2048)
include h hd hq

/-- Everything that a successful claim does to its completion queue and to host memory. -/
theorem Claims.record :
    (cnqOf (claim s d q no status) d (cqCnq s d q)).unread = (boundRing s d q).unread ++ [(flatQ d q, x.no)]
    ∧ rn (claim s d q no status) (Reg.HIF_CNQ_TAIL d (cqCnq s d q)) = (boundTail s d q + 1) % 2 ^ (boundRing s d q).log2 % 2 ^ 32
    ∧ (claim s d q no status).hostMem = if (boundRing s d q).dest = 1 then s.hostMem
      else (hostWrite (setCq s d q (claimedCq (cqOf s d q) no status x)) ((boundRing s d q).base + 16 * boundTail s d q)
        (claimRecord s d q status x)).hostMem := by
  have spec := writeRecord_spec (setCq s d q (claimedCq (cqOf s d q) no status x)) (q := q) (doneSlot x status) hd
  have bound : cqCnq (setCq s d q (claimedCq (cqOf s d q) no status x)) d q = cqCnq s d q := by rw [cqCnq, cqOf_setCq]; rfl
  have ring : ∀ n, cnqOf (setCq s d q (claimedCq (cqOf s d q) no status x)) d n = cnqOf s d n := fun _ => rfl
  rw [bound, ring, rn_setCq_tail s _ hq (cqCnq_lt s d q)] at spec
  obtain ⟨-, unread, tail, stored⟩ := spec
  rw [claim_some s status h.working h.found]
  exact ⟨(congrArg Cnq.unread (cnqOf_hif (signalCounter_hif _ _ _) _ _)).trans unread,
    (rn_signalCounter_tail _ _ hd (cqCnq_lt s d q)).trans tail, (signalCounter_hostMem _ _ _).trans stored⟩

/-- Where the completion queue is in host memory, the record of a successful claim stands at the old TAIL's place. -/
theorem Claims.hostRead_record (inHost : (boundRing s d q).dest ≠ 1) :
    hostRead (claim s d q no status) ((boundRing s d q).base + 16 * boundTail s d q) 16 = claimRecord s d q status x := by
  obtain ⟨-, -, stored⟩ := h.record status hd hq
  rw [if_neg inHost] at stored
  have len : (claimRecord s d q status x).length = 16 := recordBytes_length _ _ _
  have back := hostRead_hostWrite (setCq s d q (claimedCq (cqOf s d q) no status x))
    ((boundRing s d q).base + 16 * boundTail s d q) (len.trans_le (by decide))
  rw [len, hostRead, ← stored] at back
  exact back

end

/-! ## Accepted descriptors -/

/-- The slots of a queue bear distinct numbers, all below the next one. -/
def Cq.Numbered (c : Cq) : Prop := (c.slots.map Slot.no).Nodup ∧ ∀ y ∈ c.slots, y.no < c.nextNo

/-- A slot that takes the next number keeps the numbers distinct and below the next. -/
theorem Cq.Numbered.push {c : Cq} (h : c.Numbered) {x : Slot} (next : x.no = c.nextNo) :
    Cq.Numbered { c with slots := c.slots ++ [x], nextNo := c.nextNo + 1 } := by
  obtain ⟨distinct, below⟩ := h
  refine ⟨?_, fun y hy => ?_⟩
  · rw [List.map_append, List.nodup_append]
    refine ⟨distinct, List.nodup_singleton _, fun a ha b hb => ?_⟩
    obtain ⟨y, hy, rfl⟩ := List.mem_map.mp ha
    rw [List.mem_singleton.mp hb, next]
    exact (below y hy).ne
  · obtain old | new := List.mem_append.mp hy
    · exact (below y old).trans (Nat.lt_succ_self _)
    · rw [List.mem_singleton.mp new, next]
      exact Nat.lt_succ_self _

/-- Accepted descriptors take new numbers, whatever stands in the ring. -/
theorem appendDescs_numbered (descs : List Nat) {c : Cq} (h : c.Numbered) : (appendDescs descs c).Numbered := by
  induction descs generalizing c with
  | nil =>
    obtain ⟨distinct, below⟩ := h
    refine ⟨?_, fun y hy => ?_⟩
    · rwa [appendDescs, headWaiting_no]
    · have listed : y.no ∈ (headWaiting c.slots).map Slot.no := List.mem_map_of_mem hy
      rw [headWaiting_no] at listed
      obtain ⟨z, hz, same⟩ := List.mem_map.mp listed
      exact same ▸ below z hz
  | cons v vs ih => exact ih (h.push rfl)

/-- Settles O52: a claim is the identity or succeeds (`claim_id_or_claims`), and one that succeeds closes its slot and writes one record. -/
theorem oneRecordForEachClaim : Obligations.OneRecordForEachClaim := by
  refine ⟨fun s d q no status isOpen => claim_none s status isOpen, fun s d q no status stopped => claim_stopped s status stopped,
    fun s d q no status x hd hq working found => ?record,
    fun s d q no status status' hd nodup => claim_claim no status status' hd nodup,
    fun s d q no status hd nodup => claim_nodup no status hd nodup,
    fun descs c distinct below => appendDescs_numbered descs ⟨distinct, below⟩⟩
  case record =>
    have claims : Claims s d q no x := ⟨working, found⟩
    obtain ⟨unread, tail, -⟩ := claims.record status hd hq
    exact ⟨unread, tail, fun inHost => claims.hostRead_record status hd hq inHost⟩

end Sys2Proof.Machine
end

section
/-! PROOF. Bring-up: the supplies, the reset pin and the boot (R65, R66, R68, R77, R402, R406, R408), the dune domains and units on
the paths that their conditions choose (R65, R67, R70, R71, R75, R82, R357, R406), and the trim window (R76). -/
namespace Sys2Proof.Machine

/-! ## The trim window (R76) -/

/-- Whether PLT_TRIM_SEL names a trim. -/
abbrev selectsTrim (s : State) : Bool :=
  trimIndexOk s.otp.variant (rf s Reg.PLT_TRIM_SEL F.PLT_TRIM_SEL_PARAM) (rf s Reg.PLT_TRIM_SEL F.PLT_TRIM_SEL_INDEX)

/-- The fields of PLT_TRIM_EFF, in the order in which the trim window sets them. -/
abbrev effFields (clamped pending invalid value : Nat) : List (BitRange × Nat) :=
  [(F.PLT_TRIM_EFF_CLAMPED, clamped), (F.PLT_TRIM_EFF_PENDING, pending), (F.PLT_TRIM_EFF_INVALID, invalid), (F.PLT_TRIM_EFF_VALUE, value)]

theorem rf_wfs_eff_INVALID (s : State) (clamped pending invalid value : Nat) :
    rf (wfs s Reg.PLT_TRIM_EFF (effFields clamped pending invalid value)) Reg.PLT_TRIM_EFF F.PLT_TRIM_EFF_INVALID = invalid % 2 := by
  rw [rf_wfs]
  exact (getF_setF_ne _ F.PLT_TRIM_EFF_VALUE _ value (by decide) (by decide) (by decide)).trans
    (getF_setF_same _ F.PLT_TRIM_EFF_INVALID invalid (by decide))

theorem rf_wfs_eff_VALUE (s : State) (clamped pending invalid value : Nat) :
    rf (wfs s Reg.PLT_TRIM_EFF (effFields clamped pending invalid value)) Reg.PLT_TRIM_EFF F.PLT_TRIM_EFF_VALUE = value % 2 ^ 16 := by
  rw [rf_wfs]
  exact getF_setF_same _ F.PLT_TRIM_EFF_VALUE value (by decide)

/-- INVALID says that the selection names no trim. -/
theorem showTrim_INVALID (s : State) : rf (showTrim s) Reg.PLT_TRIM_EFF F.PLT_TRIM_EFF_INVALID = b2n (!selectsTrim s) := by
  cases sel : selectsTrim s with
  | false => simp only [showTrim, sel, Bool.not_false, if_true, rf_wfs_eff_INVALID]; rfl
  | true => simp only [showTrim, sel, Bool.not_true, Bool.false_eq_true, if_false, rf_wfs_eff_INVALID]; rfl

/-- For a selection that names no trim the factory value reads 0. -/
theorem showTrim_FACTORY {s : State} (sel : selectsTrim s = false) : rn (showTrim s) Reg.PLT_TRIM_FACTORY = 0 := by
  have apart : regHome Reg.PLT_TRIM_EFF ≠ regHome Reg.PLT_TRIM_FACTORY := by decide +kernel
  simp only [showTrim, sel, Bool.not_false, if_true]
  rw [rn, rd_wfs_ne _ _ apart]
  exact rn_wn_same _ _ 0 (by decide)

/-- For a selection that names no trim the effective value reads 0. -/
theorem showTrim_VALUE {s : State} (sel : selectsTrim s = false) : rf (showTrim s) Reg.PLT_TRIM_EFF F.PLT_TRIM_EFF_VALUE = 0 := by
  simp only [showTrim, sel, Bool.not_false, if_true, rf_wfs_eff_VALUE, Nat.zero_mod]

/-- A user write with a selection that names no trim changes nothing, be the image sealed or not. -/
theorem execTrimUserWrite_invalid {s : State} (v : Word) (free : held s = false) (sel : selectsTrim s = false) :
    execTrimUserWrite v s = .next s := by
  simp [execTrimUserWrite, free, sel]

/-- A user write of a valid selection before sealing sets the user value and shows it. -/
theorem execTrimUserWrite_valid {s : State} (v : Word) (run : s.plat.running = true) (free : held s = false)
    (unsealed : rb s Reg.IMG_STATUS F.IMG_STATUS_SEALED = false) (sel : selectsTrim s = true) :
    execTrimUserWrite v s = .next (
      let k := trimKey (rf s Reg.PLT_TRIM_SEL F.PLT_TRIM_SEL_PARAM) (rf s Reg.PLT_TRIM_SEL F.PLT_TRIM_SEL_INDEX)
      showTrim { s with plat := { s.plat with trimUser := SMap.put (fun _ => 0) s.plat.trimUser k (signedOf 16 v.toNat) } }) := by
  simp only [execTrimUserWrite, run, free, unsealed, sel, Bool.not_true, Bool.false_eq_true, or_self, if_false]

/-- Settles O58: the window by whether the selection names a trim. -/
theorem anInvalidTrimSelectionReadsZeroAndTakesNoWrite : Obligations.AnInvalidTrimSelectionReadsZeroAndTakesNoWrite := by
  refine ⟨showTrim_INVALID, fun s invalid => ?_, fun s v free sel => execTrimUserWrite_invalid v free sel⟩
  rw [showTrim_INVALID] at invalid
  have sel : selectsTrim s = false := by
    cases named : selectsTrim s with
    | false => rfl
    | true => rw [named] at invalid; cases invalid
  exact ⟨showTrim_FACTORY sel, showTrim_VALUE sel⟩

/-! ## Supplies and reset (R65, R66, R77, R402, R406, R408) -/

theorem showSupplies_VIN48_GOOD (s : State) : rf (showSupplies s) Reg.PWR_STATUS F.PWR_STATUS_VIN48_GOOD = b2n s.plat.vin48Good := by
  rw [showSupplies, rf_wfs]
  refine (getF_setF_ne _ F.PWR_STATUS_VAUX5_OK _ _ (by decide) (by decide) (by decide)).trans ?_
  refine (getF_setF_same _ F.PWR_STATUS_VIN48_GOOD _ (by decide)).trans ?_
  cases s.plat.vin48Good <;> rfl

theorem showSupplies_VAUX5_OK (s : State) : rf (showSupplies s) Reg.PWR_STATUS F.PWR_STATUS_VAUX5_OK = b2n s.plat.auxOk := by
  rw [showSupplies, rf_wfs]
  refine (getF_setF_same _ F.PWR_STATUS_VAUX5_OK _ (by decide)).trans ?_
  cases s.plat.auxOk <;> rfl

/-- Showing the supplies touches no register but PWR_STATUS. -/
theorem rd_showSupplies_ne (s : State) {a : Nat} (h : regHome a ≠ regHome Reg.PWR_STATUS) : rd (showSupplies s) a = rd s a :=
  rd_wfs_ne s _ h.symm

/-- The auxiliary supply comes up once; the next start is an auxiliary power-on. -/
theorem execAuxPowerUp_off {s : State} (off : s.plat.auxOk = false) :
    execAuxPowerUp s = .next (showSupplies
      { s with plat := { s.plat with auxOk := true, coldPending := some 1 }, pins := { s.pins with pgAux := true, driven := true } }) := by
  simp only [execAuxPowerUp, off, Bool.false_eq_true, if_false]

/-- With no sequence running, releasing the reset pin restarts the die with the cause that waits. -/
theorem execResetRelease_idle {s : State} (straps : Fin 4) (aux : s.plat.auxOk = true) (low : s.plat.resetHeld = true)
    (idle : s.plat.seq = none) :
    execResetRelease straps s = .next (platformRestart
      { s with plat := { s.plat with resetHeld := false, straps := straps }, pins := { s.pins with resetN := true } }
      (s.plat.coldPending.getD 2)) := by
  simp [execResetRelease, aux, low, idle]

/-- Asserting the reset pin is a cold reset of cause 2. -/
theorem execResetAssert_released {s : State} (aux : s.plat.auxOk = true) (high : s.plat.resetHeld = false) :
    execResetAssert s = .next (coldStart { s with plat := { s.plat with resetHeld := true }, pins := { s.pins with resetN := false } } 2) := by
  simp [execResetAssert, aux, high]

theorem execAuxInputLoss_on {s : State} (aux : s.plat.auxOk = true) : execAuxInputLoss s = .next (auxLoss s) := by
  rw [execAuxInputLoss, if_pos aux]

/-- The loss of the auxiliary input keeps four registers of the root of trust's store. -/
theorem rd_auxLoss_kept (s : State) {a : Nat}
    (kept : [Reg.SEC_MIRROR_EPOCH, Reg.MGT_ORD_LAST 0, Reg.MGT_ORD_LAST 1, Reg.MGT_EXPEL].contains (regHome a) = true) :
    rd (auxLoss s) a = rd s a :=
  SMap.get_filter_key regReset _ s.regs kept

theorem execVin48Good_on {s : State} (aux : s.plat.auxOk = true) :
    execVin48Good s = .next (showSupplies { s with plat := { s.plat with vin48Good := true } }) := by
  rw [execVin48Good, if_pos aux]

/-- With PLT_PG_MAIN low, 48 V out of range is shown and raises no event. -/
theorem execVin48OutOfRange_mainLow {s : State} (aux : s.plat.auxOk = true) (low : s.pins.pgMain = false) :
    execVin48OutOfRange s = .next (showSupplies
      { s with plat := { s.plat with vin48Good := false, conditionsLeft := s.plat.conditionsLeft || s.pins.pgMain } }) := by
  simp only [execVin48OutOfRange, aux, low, Bool.not_true, Bool.false_eq_true, if_false]

theorem execVaux5OutOfRange_on {s : State} (aux : s.plat.auxOk = true) :
    execVaux5OutOfRange s = .next (pwrEvent (wf s Reg.PWR_STATUS F.PWR_STATUS_VAUX5_OK 0) F.PWR_EVT_VAUX5_RANGE) := by
  rw [execVaux5OutOfRange, if_pos aux]

/-- The end of the boot sets MGT_READY. -/
theorem execTriadInLockStep_booting {s : State} (boot : s.plat.booting = true) :
    execTriadInLockStep s = .next (refreshReady s (wf { s with plat := { s.plat with booting := false, running := true } }
      Reg.PLT_READY_SUM F.PLT_READY_SUM_MGT_READY 1)) := by
  rw [execTriadInLockStep, if_pos boot]

/-- Settles O1: clause by clause, the meaning of the command on the path that the clause names, and what its next state reads. -/
theorem suppliesStartAndStopTheModule : Obligations.SuppliesStartAndStopTheModule := by
  refine ⟨fun s off => ⟨_, execAuxPowerUp_off off, rfl, rfl, rfl, showSupplies_VAUX5_OK _, rfl, rfl, fun a h => rd_showSupplies_ne _ h⟩,
    fun s straps aux low idle => execResetRelease_idle straps aux low idle, fun s aux high => execResetAssert_released aux high,
    fun s aux => ⟨_, execAuxInputLoss_on aux, rfl, rfl, rfl, rfl, rfl, rfl, rfl, rfl, ?expel, ?epoch⟩,
    fun s aux => ⟨_, execVin48Good_on aux, rfl, showSupplies_VIN48_GOOD _, fun a h => rd_showSupplies_ne _ h⟩,
    fun s aux low => ⟨_, execVin48OutOfRange_mainLow aux low, rfl, showSupplies_VIN48_GOOD _, fun a h => rd_showSupplies_ne _ h⟩,
    fun s aux => execVaux5OutOfRange_on aux, fun s boot => execTriadInLockStep_booting boot⟩
  case expel => exact rd_auxLoss_kept s (by decide +kernel)
  case epoch => exact rd_auxLoss_kept s (by decide +kernel)

/-! ## Dune domains (R65, R67) -/

/-- The next domain is enabled: debug closes, the first domain moves the load to BULK, and the trims apply first. -/
theorem execDuneDomainEnable_next {s : State} {d : Nat} (may : mayEnable s = true) (next : nextDune s = some d) :
    execDuneDomainEnable s = .next (
      let s1 := debugColdEnd s
      setDuneSt (applyDuneTrims (mirrorEpochUp (if imgSt s1 = imgPower then setImgSt s1 imgBulk else s1)) d) d 1) := by
  simp only [execDuneDomainEnable, may, next, Bool.not_true, Bool.false_eq_true, if_false]

section
variable {s : State} {d : Fin 8}

theorem execDuneRailsRegulated_ramp (ramp : duneSt s d = 1) :
    execDuneRailsRegulated d s = .next (refreshReady s (tilesPowered (showPgMain (setDuneSt s d 2)) d)) := by
  rw [execDuneRailsRegulated, if_pos ramp]

theorem execDuneRampTimeout_ramp (ramp : duneSt s d = 1) : execDuneRampTimeout d s = .next (duneFailed s d) := by
  rw [execDuneRampTimeout, if_pos ramp]

theorem execDuneCalDone_passed (cal : duneSt s d = 2) : execDuneCalDone d true s = .next (refreshReady s (setDuneSt s d 3)) := by
  rw [execDuneCalDone, if_pos cal, if_pos rfl]

/-- A dune that passes its memory test with its sections active enters UP. -/
theorem execDuneTestDone_passed (test : duneSt s d = 3) (torus : typeActive s 0x12 d = true) (library : typeActive s 0x20 d = true) :
    execDuneTestDone d true s = .next (unfenceCheck (settle s (duneEnterUp s d)) d) := by
  simp [execDuneTestDone, test, torus, library]

end

/-! ## Bulk sections (R58, R59) -/

/-- A section may be activated in a dune: it is a bulk section of an accepted image, whole at its source, for a powered dune of its
scope in which it is neither active nor discarded, and nothing makes it wait. -/
structure Activatable (s : State) (d : Fin 8) (idx : Fin 256) (sec : ImgSection) (e : Nat) : Prop where
  listed : s.img.dir[idx.val]? = some e
  bulk : bootType (eType e) = false
  accepted : s.img.accepted = true
  powered : [2, 3, 4].contains (duneSt s d) = true
  inScope : (entryDunes s e).contains d.val = true
  fresh : s.img.active.contains (idx.val, d.val) = false
  kept : s.img.discarded.contains idx.val = false
  whole : sectionHeld s e sec = true
  free : (isPreload e && held s) = false
  ready : awaitsLibrary s e = false

/-- A section that passes its checks is activated. -/
theorem execBulkSectionActivate_passed {s : State} {d : Fin 8} {idx : Fin 256} {sec : ImgSection} {e : Nat}
    (h : Activatable s d idx sec e) (passed : bulkCode s idx.val e sec = 0) :
    execBulkSectionActivate d idx sec s = .next (
      let img := { s.img with active := s.img.active ++ [(idx.val, d.val)],
                              bulk := if s.img.bulk.any (fun b => b.1 == idx.val) then s.img.bulk else s.img.bulk ++ [(idx.val, sec.text)] }
      settle s (checkLoaded (showSections
        (bulkApply { s with img := img } d e (!(s.img.active.any (fun a => a.1 == idx.val))) sec.text)))) := by
  obtain ⟨listed, bulk, accepted, powered, inScope, fresh, kept, whole, free, ready⟩ := h
  have notHeld : ¬ (isPreload e = true ∧ held s = true) := fun both => Bool.false_ne_true (free.symm.trans (Bool.and_eq_true_iff.mpr both))
  simp only [execBulkSectionActivate, listed, bulk, accepted, powered, inScope, fresh, kept, whole, notHeld, ready, passed,
    Bool.not_true, Bool.false_eq_true, or_self, if_false, if_true]

/-! ## Stacks and engines (R70, R71, R357) -/

/-- A stack whose training succeeds, after fewer than three failures, goes online. -/
theorem execOasisTrainingDone_passed {s : State} {k : Fin 12} (up : duneUp s (stackDune k) = true) (owned : stackOwned s k = true)
    (offline : stackReady s k = false) (few : SMap.get (fun _ => 0) s.plat.oasisFails k < 3) :
    execOasisTrainingDone k true s = .next (settle s (placeShadows (setStackReady (stackTrims s k) k true))) := by
  have notSpent : ¬ 3 ≤ SMap.get (fun _ => 0) s.plat.oasisFails k := Nat.not_le.mpr few
  simp only [execOasisTrainingDone, up, owned, offline, notSpent, Bool.not_true, Bool.false_eq_true, or_self, if_false]

/-- A stack that fails loses its pages, what resequencers and collectives held on it, and its shadow copy. -/
theorem execOasisStackFault_ready {s : State} {k : Fin 12} (online : stackReady s k = true) :
    execOasisStackFault k s = .next (
      let s1 := setStackReady s k false
      let s2 := (s1.swc.queues.map (·.1)).foldl (losePages k) s1
      settle s (placeShadows (shadowsLose (s2.col.groups.foldl (loseStaged k) ((List.range 8).foldl (loseHeld k) s2))
        (fun j => j == k.val)))) := by
  simp only [execOasisStackFault, online, Bool.not_true, Bool.false_eq_true, if_false]

/-- An engine that passes its self-test and is not quarantined is idle. -/
theorem execEngineSelfTestDone_passed {s : State} {g : Fin 4096} (up : duneUp s (g.val / 512) = true) (off : engSt s g = engOff)
    (first : s.plat.selfTestFailed.contains g.val = false) (loaded : microcodeLoaded s g = true)
    (clean : s.plat.quarantine.contains g.val = false) :
    execEngineSelfTestDone g true s = .next (settle s (enterIdle s g)) := by
  simp only [execEngineSelfTestDone, up, off, first, loaded, clean, Bool.not_true, Bool.false_eq_true, ne_eq, not_true_eq_false,
    or_self, if_false]

/-! ## Power telemetry (R406) -/

/-- A read of the peak returns it and starts it anew. -/
theorem execPwrPeakRead_running {s : State} (run : s.plat.running = true) :
    execPwrPeakRead s = .next (wn (emit s (.readData Reg.PWR_PEAK (rn s Reg.PWR_PEAK))) Reg.PWR_PEAK 0) := by
  rw [execPwrPeakRead, if_pos run]

/-- Settles O3: clause by clause, the meaning of the command on the path that the clause names. -/
theorem duneDomainsAndUnitsStart : Obligations.DuneDomainsAndUnitsStart := by
  refine ⟨fun d s may next => execDuneDomainEnable_next may next, fun d s ramp => execDuneRailsRegulated_ramp ramp,
    fun d s ramp => execDuneRampTimeout_ramp ramp, fun d paceOk s cal passed => ?cal, fun d memOk s test passed torus library => ?test,
    ?bulk, fun k ok s passed up owned offline few => ?training, fun k s online => execOasisStackFault_ready online,
    fun g ok s passed up off first loaded clean => ?selfTest, fun r s run => ⟨_, ?telemetry, rfl⟩,
    fun s run => execPwrPeakRead_running run, fun v s run free unsealed sel => execTrimUserWrite_valid v run free unsealed sel⟩
  case cal =>
    subst passed
    exact execDuneCalDone_passed cal
  case test =>
    subst passed
    exact execDuneTestDone_passed test torus library
  case bulk =>
    intro d idx sec e s listed bulk accepted powered inScope fresh kept whole free ready passed
    exact execBulkSectionActivate_passed ⟨listed, bulk, accepted, powered, inScope, fresh, kept, whole, free, ready⟩ passed
  case training =>
    subst passed
    exact execOasisTrainingDone_passed up owned offline few
  case selfTest =>
    subst passed
    exact execEngineSelfTestDone_passed up off first loaded clean
  case telemetry => exact congrArg Host.Outcome.next (if_neg (by rw [run]; decide))

/-! ## The state after reset (R65, R77, R358) -/

/-- After reset every dune domain is OFF. -/
theorem duneSt_reset (d : Nat) : duneSt State.reset d = 0 := by
  have off : (regReset (regHome Reg.PLT_DUNE_STATE)).toNat = 0 := by decide +kernel
  rw [duneSt, rn, rd_reset, off, bitsAt, Nat.zero_div, Nat.zero_mod]

/-- Settles O39: the reset state's maps and lists are empty, and its registers read their reset values. -/
theorem afterResetNothingIsHeldInAMemoryAndNothingWaits : Obligations.AfterResetNothingIsHeldInAMemoryAndNothingWaits := by
  refine ⟨rfl, rfl, rfl, rfl, rfl, rfl, rfl, rfl, rfl, fun d _ => duneSt_reset d, ?mgt, ?tim⟩
  case mgt => rw [mgtReady, rb, rf, rd_reset]; decide +kernel
  case tim => rw [timReady, rb, rf, rd_reset]; decide +kernel

end Sys2Proof.Machine
end

section
/-! PROOF. Event counters and the waits on them (R95, R96). -/
namespace Sys2Proof.Machine

/-! ## What a counter reads -/

/-- The counter that is added to counts modulo 2^20, the width of VALUE. -/
theorem counter_addCounter_same (s : State) (d i n : Nat) : counter (addCounter s d i n) d i = (counter s d i + n) % 2 ^ 20 :=
  rf_wf_same s (Reg.HIF_CNT d i) F.HIF_CNT_VALUE _ (by decide)

/-- The event counters lie in the window of their dune, each in a register of its own. -/
theorem regHome_counter (d : Nat) {i : Nat} (hi : i < 4095) : regHome (Reg.HIF_CNT d i) = Reg.HIF_CNT d i :=
  regHome_queues d (by simp only [Reg.HIF_CNT]; omega) (by simp only [Reg.HIF_CNT]; omega)

theorem regHome_counter_ne {d i e j : Nat} (hi : i < 4095) (hj : j < 4095) (other : (e, j) ≠ (d, i)) :
    regHome (Reg.HIF_CNT d i) ≠ regHome (Reg.HIF_CNT e j) := by
  rw [regHome_counter d hi, regHome_counter e hj]
  intro same
  simp only [Reg.HIF_CNT] at same
  exact other (Prod.ext (by omega) (by omega))

theorem counter_addCounter_ne (s : State) {d i e j : Nat} (n : Nat) (hi : i < 4095) (hj : j < 4095) (other : (e, j) ≠ (d, i)) :
    counter (addCounter s d i n) e j = counter s e j :=
  rf_wf_ne s _ _ _ (regHome_counter_ne hi hj other)

/-! ## Waits -/

/-- A difference of 20-bit numbers modulo 2^20, taken over the integers: the model adds 2^20 first, so that it stays in the naturals. -/
theorem sub_mod_natCast (c : Nat) {v : Nat} (hv : v < 2 ^ 20) :
    ((c : Int) - (v : Int)) % (2 ^ 20 : Int) = (((c + 2 ^ 20 - v) % 2 ^ 20 : Nat) : Int) := by
  omega

/-- A wait is met where the counter is less than 2^19 ahead of its value, around the 20 bits. -/
theorem waitMet_iff (s : State) (d i : Nat) {v : Nat} (hv : v < 2 ^ 20) :
    waitMet s d (i, v) = true ↔ ((counter s d i : Int) - (v : Int)) % (2 ^ 20 : Int) < 2 ^ 19 := by
  rw [sub_mod_natCast _ hv, waitMet, decide_eq_true_iff]
  norm_cast

/-- Settles O50: a counter is one field of 20 bits in a register of its own, and a wait compares by the difference modulo 2^20. -/
theorem waitsCompareModuloTwoToTheTwentieth : Obligations.WaitsCompareModuloTwoToTheTwentieth :=
  ⟨counter_addCounter_same, fun s _ _ n _ _ _ hi _ hj other => counter_addCounter_ne s n hi hj other,
    fun s d i _ hv => waitMet_iff s d i hv⟩

end Sys2Proof.Machine
end

section
/-! PROOF. Command queues and completion queues (R89, R103 to R107, R384, R386, R420): each command on its accepted path. -/
namespace Sys2Proof.Machine

/-! ## Command queues (Table 4.3) -/

section
variable {d : Fin 8} {q : Fin 2048} {v : Word} {s : State} (up : winOk s d = true)
include up

/-- A DISABLED queue that no cause keeps from it is ENABLED with the geometry of its registers. -/
theorem execCqEnable_granted (on : getF v F.HIF_CQ_CFG_ENABLE = 1) (free : held s = false)
    (disabled : cqState (cqWriteCfg s d q v) d q = 0) (granted : cqEnableCause (cqWriteCfg s d q v) d q = 0) :
    execCqEnable d q v s = .next (setCqState (latchCq
      (wf (cqWriteCfg s d q v) (Reg.HIF_CQ_STATUS d q) F.HIF_CQ_STATUS_ERR_CAUSE 0) d q) d q 1) := by
  have enabled : enableQueue (cqWriteCfg s d q v) d q = setCqState (latchCq
      (wf (cqWriteCfg s d q v) (Reg.HIF_CQ_STATUS d q) F.HIF_CQ_STATUS_ERR_CAUSE 0) d q) d q 1 := by
    rw [enableQueue, granted]
    rfl
  simp [execCqEnable, up, on, free, disabled, enabled]

/-- A queue that is disabled starts to drain. -/
theorem execCqDisable_drains (off : getF v F.HIF_CQ_CFG_ENABLE = 0) (free : held s = false) :
    execCqDisable d q v s = .next (drainCq (cqWriteCfg s d q v) d q) := by
  simp [execCqDisable, up, off, free]

theorem execCqQuiescedToDisabled_quiesced (quiesced : cqState s d q = 4) :
    execCqQuiescedToDisabled d q s = .next (setCqState s d q 0) := by
  simp [execCqQuiescedToDisabled, up, quiesced]

end

/-! ## Completion and notification queues -/

section
variable {d : Fin 8} {n : Fin 2048} {v : Word} {s : State} (up : winOk s d = true)
include up

/-- A queue that is not enabled latches its geometry and starts empty. -/
theorem execCnqEnable_off (on : getF v F.HIF_CNQ_CFG_ENABLE = 1) (free : held s = false)
    (off : cnqOn (cnqWriteNotice s d n v) d n = false) :
    execCnqEnable d n v s = .next (
      let u := wn (wn (wf (cnqWriteGeometry (cnqWriteNotice s d n v) d n v) (Reg.HIF_CNQ_CFG d n) F.HIF_CNQ_CFG_ENABLE 1)
        (Reg.HIF_CNQ_HEAD d n) 0) (Reg.HIF_CNQ_TAIL d n) 0
      setCnq u d n (cnqStart u d n)) := by
  simp only [execCnqEnable, up, on, free, off, Bool.not_true, Bool.false_eq_true, ne_eq, not_true_eq_false, or_self, if_false]

/-- An enabled queue stops: a FIFO always, a completion queue once nothing uses it. -/
theorem execCnqDisable_unbound (off : getF v F.HIF_CNQ_CFG_ENABLE = 0) (free : held s = false) (on : cnqOn s d n = true)
    (unbound : (cnqOf s d n).typ = 0 → cnqBound s d n = false) :
    execCnqDisable d n v s = .next (wf (wf (freePunts (dropStaged (cnqWriteNotice s d n v) d n) d n)
      (Reg.HIF_CNQ_CFG d n) F.HIF_CNQ_CFG_ENABLE 0) (Reg.HIF_CNQ_CTRL d n) F.HIF_CNQ_CTRL_FLUSH_PENDING 0) := by
  have notBusy : ¬ ((cnqOf s d n).typ = 0 ∧ cnqBound s d n = true) :=
    fun ⟨completion, bound⟩ => Bool.false_ne_true ((unbound completion).symm.trans bound)
  simp only [execCnqDisable, up, off, free, on, notBusy, Bool.not_true, Bool.false_eq_true, ne_eq, not_true_eq_false, or_self, if_false]

/-- HEAD of a completion queue in host memory gives back the records up to it, at most those that are unread. -/
theorem execCnqHeadWrite_completion (on : cnqOn s d n = true) (inHost : (cnqOf s d n).dest = 0) (completion : (cnqOf s d n).typ = 0) :
    execCnqHeadWrite d n v s = .next (
      let size := 2 ^ (cnqOf s d n).log2
      let k := min (cnqOf s d n).unread.length ((v.toNat % size + size - rn s (Reg.HIF_CNQ_HEAD d n) % size) % size)
      let u := releaseRecords (wn s (Reg.HIF_CNQ_HEAD d n) ((rn s (Reg.HIF_CNQ_HEAD d n) + k) % size)) d n k
      setCnq u d n { cnqOf u d n with timerAt := s.clock }) := by
  simp only [execCnqHeadWrite, up, on, inHost, completion, Bool.not_true, Bool.false_eq_true, Nat.zero_ne_one, or_self, if_false, if_true]

/-- Records that wait past the read timeout are announced. -/
theorem execCnqReadTimeout_waiting (on : cnqOn s d n = true) (inHost : (cnqOf s d n).dest = 0) (waiting : 0 < cnqFill s d n)
    (timed : rf s (Reg.HIF_CNQ_TMO d n) F.HIF_CNQ_TMO_TMO ≠ 0) :
    execCnqReadTimeout d n s = .next (cnqNotice s d n F.HIF_CNQ_CTRL_TMO_EVT) := by
  simp [execCnqReadTimeout, up, on, inHost, waiting, timed]

/-- A flush that finds none pending writes out what is staged. -/
theorem execCnqFlush_idle (on : cnqOn s d n = true) (idle : rb s (Reg.HIF_CNQ_CTRL d n) F.HIF_CNQ_CTRL_FLUSH_PENDING = false) :
    execCnqFlush d n s = .next (freePunts (drainStaged
      (wf (setCnq s d n { cnqOf s d n with flushLeft := (cnqOf s d n).staged.length })
        (Reg.HIF_CNQ_CTRL d n) F.HIF_CNQ_CTRL_FLUSH_PENDING 1) d n) d n) := by
  simp only [execCnqFlush, up, on, idle, Bool.not_true, Bool.false_eq_true, or_self, if_false]

/-- A completion queue for a fabric endpoint sends up to 64 of the records that it has gathered, and gives their slots back. -/
theorem execCnqFabricSend_completion (on : cnqOn s d n = true) (fabric : (cnqOf s d n).dest = 1) (completion : (cnqOf s d n).typ = 0)
    (gathered : (cnqOf s d n).gathered ≠ []) :
    execCnqFabricSend d n s = .next (
      let q := cnqOf s d n
      let k := min 64 q.gathered.length
      releaseRecords (setCnq (cnqMessage s d n 0x90 true true (q.count - q.gathered.length) k (q.gathered.take k).flatten) d n
        { q with gathered := q.gathered.drop k, gatherAt := s.clock }) d n k) := by
  have sends : min 64 (cnqOf s d n).gathered.length ≠ 0 := by
    have := List.length_pos_iff.mpr gathered
    omega
  simp only [execCnqFabricSend, up, on, fabric, completion, sends, Bool.not_true, Bool.false_eq_true, ne_eq, not_true_eq_false, or_self,
    if_false, if_true]

end

/-- Settles O5: clause by clause, the meaning of the command on the path that the clause names. -/
theorem queuesOfCommandsAndCompletions : Obligations.QueuesOfCommandsAndCompletions :=
  ⟨fun _ _ _ _ up on free disabled granted => execCqEnable_granted up on free disabled granted,
    fun _ _ _ _ up off free => execCqDisable_drains up off free, fun _ _ _ up quiesced => execCqQuiescedToDisabled_quiesced up quiesced,
    fun _ _ _ _ up on free off => execCnqEnable_off up on free off,
    fun _ _ _ _ up off free on unbound => execCnqDisable_unbound up off free on unbound,
    fun _ _ _ _ up on inHost completion => execCnqHeadWrite_completion up on inHost completion,
    fun _ _ _ up on inHost waiting timed => execCnqReadTimeout_waiting up on inHost waiting timed,
    fun _ _ _ up on idle => execCnqFlush_idle up on idle,
    fun _ _ _ up on fabric completion gathered => execCnqFabricSend_completion up on fabric completion gathered⟩

end Sys2Proof.Machine
end

section
/-! PROOF. The head of a command queue, NOP and ABORT (R90, R93, R94, R96, R98, R102, R291): each on the path that its conditions choose. -/
namespace Sys2Proof.Machine

/-! ## Dispatch (R90) -/

/-- Hand a command over that nothing keeps back: to the kernels or to its group by its opcode, else it is RUNNING. -/
def handOver (s : State) (d q : Nat) (y : Slot) : State :=
  if 0x40 ≤ dOpcode y.desc ∧ dOpcode y.desc < 0x80 then dispatchKernel s d q y
  else if 0x10 ≤ dOpcode y.desc ∧ dOpcode y.desc < 0x40 then dispatchGroup s d q y
  else modSlot s d q y.no (fun z => { z with st := .running })

section
variable {d : Fin 8} {q : Fin 2048} {y : Slot} {s : State} (runs : queueRuns s d q = true) (head : headSlot s d q = some y)
include runs head

/-- What the head meets, in order: the rules of its descriptor, the names in it, the commands before it and its waits. -/
theorem execCommandDispatch_head :
    execCommandDispatch d q s = .next (
      if descOk y = false then claim s d q y.no stBadDescriptor
      else if namesOk s d q y.desc = false then claim s d q y.no stDenied
      else if (headBlocked s d q y || waitsUnmet s d q y.desc) = true then s
      else handOver s d q y) := by
  simp only [execCommandDispatch, runs, head, handOver, Bool.not_eq_true', Bool.or_eq_true, if_true]

/-- A head whose waits are still unmet when its time has run out is claimed with TIMEOUT. -/
theorem execWaitTimeout_unmet (timed : rf s (Reg.HIF_CQ_WAIT_TMO d q) F.HIF_CQ_WAIT_TMO_TMO ≠ 0) (formed : descOk y = true)
    (named : namesOk s d q y.desc = true) (unmet : waitsUnmet s d q y.desc = true) :
    execWaitTimeout d q s = .next (claim s d q y.no stTimeout) := by
  simp only [execWaitTimeout, runs, head, timed, formed, named, unmet, Bool.not_true, Bool.false_eq_true, or_self, if_false, if_true]

end

/-! ## NOP and ABORT -/

/-- The oldest running ABORT of a queue that no collective's root has yet been asked for. -/
abbrev pendingAbort (s : State) (d q : Nat) : Option Slot :=
  (cqOf s d q).slots.find? (fun y => y.st == .running && dOpcode y.desc == 1 &&
    !s.col.groups.any (fun g => g.2.opened.any (fun c => c.abortBy == some (flatQ d q, y.no))))

/-- The queue that an ABORT names. -/
abbrev victimQueue (y : Slot) : Nat := dSrc y.desc / 65536 % 2048

/-- The open command there that carries the TAG it names. -/
abbrev abortVictim (s : State) (d : Nat) (y : Slot) : Option Slot :=
  (cqOf s d (victimQueue y)).slots.find? (fun z => dTag z.desc == dSrc y.desc % 65536 && slotOpen z)

section
variable {d : Fin 8} {q : Fin 2048} {y : Slot} {s : State} (up : duneUp s d = true) (working : workStopped s = false)
include up working

theorem execNop_running (running : runningSlot s d q (fun op => op == 0) = some y) :
    execNop d q s = .next (claim s d q y.no stOk) := by
  simp only [execNop, up, working, running, Bool.not_false, Bool.and_self, if_true]

variable (pending : pendingAbort s d q = some y)
include pending

/-- The ABORT of a command that is no longer open is late. -/
theorem execAbort_late (gone : abortVictim s d y = none) : execAbort d q s = .next (claim s d q y.no stAbortLate) := by
  simp only [execAbort, up, working, pending, gone, Bool.not_false, Bool.and_self, if_true]

/-- An open command that is no open collective is claimed ABORTED, and the ABORT succeeds. -/
theorem execAbort_open {z : Slot} (found : abortVictim s d y = some z) (plain : collOfCmd s (flatQ d (victimQueue y)) z.no = none) :
    execAbort d q s = .next (claim (abortTarget s d (victimQueue y) z) d q y.no stOk) := by
  simp only [execAbort, up, working, pending, found, plain, Bool.not_false, Bool.and_self, if_true]

/-- The root of an open collective, neither decided nor asked before, is asked to abort its step. -/
theorem execAbort_collective {z : Slot} {g : Nat} {c : Coll} (found : abortVictim s d y = some z)
    (coll : collOfCmd s (flatQ d (victimQueue y)) z.no = some (g, c)) (first : c.abortBy = none) (undecided : c.decided = none) :
    execAbort d q s = .next (abortRequest s g c.step stAborted (some (flatQ d q, y.no))) := by
  simp only [execAbort, up, working, pending, found, coll, first, undecided, Option.isSome_none, Bool.not_false, Bool.and_self,
    Bool.false_eq_true, or_self, if_false, if_true]

end

/-- Settles O13: the head meets the checks of `execCommandDispatch_head` in order; NOP and ABORT by the paths that their clauses name. -/
theorem queueHeadsAreDispatched : Obligations.QueueHeadsAreDispatched := by
  refine ⟨fun d q y s runs head formed named first met => ?handed, fun d q y s runs head malformed => ?malformed,
    fun d q y s runs head formed foreign => ?foreign, fun d q y s runs head formed named waits => ?waits,
    fun _ _ _ _ runs head timed formed named unmet => execWaitTimeout_unmet runs head timed formed named unmet,
    fun _ _ _ _ up working running => execNop_running up working running,
    fun _ _ _ _ up working pending gone => execAbort_late up working pending gone,
    fun _ _ _ _ _ up working pending found plain => execAbort_open up working pending found plain,
    fun _ _ _ _ _ _ _ up working pending found coll first undecided => execAbort_collective up working pending found coll first undecided⟩
  case handed =>
    refine (execCommandDispatch_head runs head).trans ?_
    simp only [formed, named, first, met, Bool.or_self, Bool.true_eq_false, Bool.false_eq_true, if_false]
    rfl
  case malformed => exact (execCommandDispatch_head runs head).trans (congrArg _ (if_pos malformed))
  case foreign =>
    refine (execCommandDispatch_head runs head).trans ?_
    simp only [formed, foreign, Bool.true_eq_false, if_false, if_true]
  case waits =>
    refine (execCommandDispatch_head runs head).trans ?_
    simp only [formed, named, waits, Bool.true_eq_false, if_false, if_true]

end Sys2Proof.Machine
end

section
/-! PROOF. The management ports and the I3C bus (R81, R84 to R86): each command on its accepted path. -/
namespace Sys2Proof.Machine

/-! ## Addresses of a management port (R86) -/

section
variable {p : Fin 2} {s : State} (run : s.plat.running = true)
include run

/-- An IPv6 word that is written turns the family on again, and the port probes the address. -/
theorem execMgmtAddrWrite_v6 (w : Fin 4) (v : Word) (free : held s = false) :
    execMgmtAddrWrite p true w v s = .next (
      let u := setMp (wr s (Reg.HIF_MP_V6 p w) v) p { mpOf (wr s (Reg.HIF_MP_V6 p w) v) p with v6Off := false }
      probeV6 u p (mpV6 u p)) := by
  simp only [execMgmtAddrWrite, run, free, Bool.not_true, Bool.false_eq_true, if_false, if_true]

/-- The IPv4 address likewise. -/
theorem execMgmtAddrWrite_v4 (w : Fin 4) (v : Word) (free : held s = false) :
    execMgmtAddrWrite p false w v s = .next (
      probeV4 (setMp (wr s (Reg.HIF_MP_V4 p) v) p { mpOf (wr s (Reg.HIF_MP_V4 p) v) p with v4Off := false }) p) := by
  simp only [execMgmtAddrWrite, run, free, Bool.not_true, Bool.false_eq_true, if_false]

/-- A port whose link comes up probes its IPv4 address, its link-local address and its IPv6 address. -/
theorem execMgmtLinkUp_running :
    execMgmtLinkUp p s = .next (
      let u := setMp s p { mpOf s p with linkUp := true }
      probeV6 (probeV6 (probeV4 u p) p (linkLocal u p)) p (mpV6 u p)) := by
  simp only [execMgmtLinkUp, run, Bool.not_true, Bool.false_eq_true, if_false]

end

/-! ## Frames on a management port (R86) -/

section
variable {p : Fin 2} {vid : Fin 4096} {v6 : Bool} {s : State} (run : s.plat.running = true) (link : (mpOf s p).linkUp = true)
include run link

/-- An address family in conflict goes off, and the conflict is recorded. -/
theorem execMgmtAddrConflict_family (family : mpFamily s p v6 = true) :
    execMgmtAddrConflict p v6 s = .next (hifErr
      (setMp s p (if v6 then { mpOf s p with v6Off := true } else { mpOf s p with v4Off := true })) F.HIF_ERR_MP_CONFLICT) := by
  simp only [execMgmtAddrConflict, run, link, family, Bool.and_self, if_true]

/-- An ARP request for the port's address is answered. -/
theorem execMgmtArpRx_own {target : BitVec 32} (sender : BitVec 32) (mac : BitVec 48) (hears : mpHears s p vid = true)
    (family : mpFamily s p false = true) (own : target.toNat = mpV4 s p) :
    execMgmtArpRx p vid target sender mac s = .next (mpEmit s p (.arpReply target.toNat sender.toNat mac.toNat)) := by
  simp [execMgmtArpRx, run, link, hears, family, own]

/-- A neighbour solicitation for one of its IPv6 addresses is answered. -/
theorem execMgmtNdRx_own {target : BitVec 128} (sender : BitVec 128) (mac : BitVec 48) (hears : mpHears s p vid = true)
    (family : mpFamily s p true = true) (own : mpOwnV6 s p target.toNat = true) :
    execMgmtNdRx p vid target sender mac s = .next (mpEmit s p (.ndAdvert target.toNat sender.toNat mac.toNat)) := by
  simp [execMgmtNdRx, run, link, hears, family, own]

/-- An echo request to the port is answered as long as fewer than 100 replies went out in the current second. -/
theorem execMgmtEchoRx_own {dst : BitVec 128} (src : BitVec 128) (data : List Byte) (hears : mpHears s p vid = true)
    (family : mpFamily s p v6 = true) (own : (if v6 then mpOwnV6 s p dst.toNat else dst.toNat == mpV4 s p) = true)
    (icmp : rb s (Reg.HIF_MP_CFG p) F.HIF_MP_CFG_ICMP_EN = true) (few : echoSent s p < 100) :
    execMgmtEchoRx p vid v6 dst src data s = .next (mpSend
      (setMp s p { mpOf s p with echoSec := nowSec s, echoCnt := echoSent s p + 1 }) p v6 src.toNat (.echoReply v6 src.toNat data)) := by
  simp only [execMgmtEchoRx, run, link, hears, family, own, icmp, few, decide_true, Bool.and_self, Bool.not_true, Bool.false_eq_true,
    or_self, if_false, if_true]

/-- A frame that is not accepted traffic is discarded and counted. -/
theorem execMgmtFrameDiscard_refused {f : MgmtFrame} (refused : mpAccepts s p f = false) :
    execMgmtFrameDiscard p f s = .next (mpDiscard s p) := by
  simp only [execMgmtFrameDiscard, run, link, refused, Bool.not_false, Bool.and_self, if_true]

/-- An advertisement of the gateway's address gives its link-layer address. -/
theorem execNeighbourAdvertisementRx_gateway {ip : BitVec 128} (mac : BitVec 48) (family : mpFamily s p v6 = true)
    (gateway : ip.toNat = if v6 then mpGw6 s p else mpGw4 s p) (given : ip ≠ 0) :
    execNeighbourAdvertisementRx p v6 ip mac s = .next (setMp s p
      (if v6 then { mpOf s p with gwMac6 := some mac.toNat } else { mpOf s p with gwMac4 := some mac.toNat })) := by
  have nonzero : ip.toNat ≠ 0 := fun zero => given (BitVec.eq_of_toNat_eq zero)
  simp only [execNeighbourAdvertisementRx, run, link, family, ← gateway, beq_self_eq_true, bne_iff_ne.mpr nonzero, Bool.and_self, if_true]

end

/-! ## I3C (R85) -/

/-- A read returns the value; a sensor's takes a free value, and the peak power starts anew. -/
theorem execI3cRead_running (r : I3cReg) {s : State} (aux : s.plat.auxOk = true) (run : s.plat.running = true) :
    execI3cRead r s = .next (match r with
      | .sensor _ => tickFree (emit s (.i3cData (i3cValue s r)))
      | .pwr off => if off.val = 45 then wn (emit s (.i3cData (i3cValue s r))) Reg.PWR_PEAK 0 else emit s (.i3cData (i3cValue s r))
      | _ => emit s (.i3cData (i3cValue s r))) := by
  rw [execI3cRead, aux, run]
  cases r <;> rfl

/-- COLD with the key over I3C is a cold reset, as in PLT_RESET_CTRL. -/
theorem execI3cResetCtrlWrite_cold {v : Word} {s : State} (run : s.plat.running = true) (key : keyOk v = true) (cold : wbit v 1 = true) :
    execI3cResetCtrlWrite v s = .next (coldStart s 4) := by
  have heard : ¬ (s.plat.auxOk && !s.plat.running) = true := by simp [run]
  rw [execI3cResetCtrlWrite, if_neg heard, resetRequest_cold run key cold]

/-- Settles O6: clause by clause, the meaning of the command on the path that the clause names. -/
theorem managementPortsAnswer : Obligations.ManagementPortsAnswer := by
  refine ⟨fun p v6 w v s run free => ?address, fun _ _ run => execMgmtLinkUp_running run,
    fun _ _ _ run link family => execMgmtAddrConflict_family run link family,
    fun _ _ _ sender mac _ run link hears family own => execMgmtArpRx_own run link sender mac hears family own,
    fun _ _ _ sender mac _ run link hears family own => execMgmtNdRx_own run link sender mac hears family own,
    fun _ _ _ _ src data _ run link hears family own icmp few => execMgmtEchoRx_own run link src data hears family own icmp few,
    fun _ _ _ run link refused => execMgmtFrameDiscard_refused run link refused,
    fun _ _ _ mac _ run link family gateway given => execNeighbourAdvertisementRx_gateway run link mac family gateway given,
    fun r _ aux run => execI3cRead_running r aux run, fun _ _ run key cold => execI3cResetCtrlWrite_cold run key cold⟩
  case address =>
    cases v6 with
    | false => exact execMgmtAddrWrite_v4 run w v free
    | true => exact execMgmtAddrWrite_v6 run w v free

end Sys2Proof.Machine
end

section
/-! PROOF. Switch core: what counters read (R132), and the discard of class 7 at the ingress dune (R113, R134, R164). -/
namespace Sys2Proof.Machine

/-! ## Saturating counters (R132) -/

theorem rn_lt (s : State) (a : Nat) : rn s a < 2 ^ 32 := (rd s a).isLt

theorem rn64_lt (s : State) (a : Nat) : rn64 s a < 2 ^ 64 := by
  have lo := rn_lt s a
  have hi := rn_lt s (a + 4)
  rw [rn64]
  omega

theorem rn_wn_ne (s : State) {a b : Nat} (n : Nat) (h : regHome a ≠ regHome b) : rn (wn s a n) b = rn s b :=
  congrArg BitVec.toNat (rd_wn_ne s n h)

/-- A 64-bit value whose two words are two registers reads back. -/
theorem rn64_wn64 (s : State) {a n : Nat} (h : n < 2 ^ 64) (apart : regHome (a + 4) ≠ regHome a) : rn64 (wn64 s a n) a = n := by
  have lo : rn (wn64 s a n) a = n % 2 ^ 32 := (rn_wn_ne _ _ apart).trans (rn_wn_same s a _ (by omega))
  have hi : rn (wn64 s a n) (a + 4) = n / 2 ^ 32 % 2 ^ 32 := rn_wn_same _ _ _ (by omega)
  rw [rn64, lo, hi]
  omega

theorem satAdd_le (top v n : Nat) : satAdd top v n ≤ top := Nat.min_le_left _ _

/-- A sum that saturates is no smaller than what was added to. -/
theorem le_satAdd {top v : Nat} (n : Nat) (h : v ≤ top) : v ≤ satAdd top v n := Nat.le_min.mpr ⟨h, Nat.le_add_right v n⟩

theorem rn64_bump64 (s : State) {a : Nat} (n : Nat) (apart : regHome (a + 4) ≠ regHome a) :
    rn64 (bump64 s a n) a = satAdd (2 ^ 64 - 1) (rn64 s a) n :=
  rn64_wn64 s (Nat.lt_of_le_pred (by decide) (satAdd_le _ _ _)) apart

theorem rn_bump32 (s : State) (a n : Nat) : rn (bump32 s a n) a = satAdd (2 ^ 32 - 1) (rn s a) n :=
  rn_wn_same s a _ (Nat.lt_of_le_pred (by decide) (satAdd_le _ _ _))

theorem rn64_le_rn64_bump64 (s : State) {a : Nat} (n : Nat) (apart : regHome (a + 4) ≠ regHome a) : rn64 s a ≤ rn64 (bump64 s a n) a := by
  rw [rn64_bump64 s n apart]
  exact le_satAdd n (Nat.le_pred_of_lt (rn64_lt s a))

/-- Settles O47: what is stored is the saturating sum, and both words of it read back. -/
theorem countersSaturate : Obligations.CountersSaturate :=
  ⟨fun s _ n apart => rn64_bump64 s n apart, fun s _ n apart => ⟨rn64_le_rn64_bump64 s n apart, rn64_lt _ _⟩, rn_bump32⟩

/-! ## Class 7 (R113, R134, R164) -/

/-- SWC_CLASS7_DROP lies in the SWC block of its dune, so each of its words is a register of its own. -/
theorem regHome_class7Drop_hi_ne_lo (d : Nat) : regHome (Reg.SWC_CLASS7_DROP d + 4) ≠ regHome (Reg.SWC_CLASS7_DROP d) := by
  rw [regHome_dune (by simp only [Reg.SWC_CLASS7_DROP]; omega), regHome_dune (by simp only [Reg.SWC_CLASS7_DROP]; omega)]
  omega

section
variable {port : Fin 4096} {sub : Fin 8} {h : LinkHdr} {cr : Option CreditRet} {c : Cfh} {payload : List Byte} {err : Option ScrubErr}
  {lane : Nat} {s : State} (live : laneOfPort s port.val sub.val = some lane) (carries : linkCarries s port.val = true)
  (fabric : portEth s port.val = false)
include live carries fabric

/-- Whichever class its link header names, a packet of class 7 is a bad link header and counts once more, after its VER. -/
theorem execFabricPacketIngress_class7 (class7 : c.cls = 7) :
    execFabricPacketIngress port ⟨sub, err⟩ h cr c payload s = .next (
      let u := linkHdrErr s (portDune s port.val) port.val
      if 2 ≤ c.ver then bump64 u (Reg.FWD_BAD_VER (portDune s port.val)) 1
      else bump64 u (Reg.SWC_CLASS7_DROP (portDune s port.val)) 1) := by
  have badHeader : h.cls = 7 ∨ (!vcPermitted h.vc h.cls) = true ∨ h.cls ≠ c.cls := by
    rw [class7]
    exact (em (h.cls = 7)).imp id .inr
  simp only [execFabricPacketIngress, live, carries, fabric, Bool.not_true, Bool.false_eq_true, or_self, if_false, if_pos badHeader,
    not_not_intro class7]

/-- A packet without a credit return whose header and LEN hold takes its credits and is accepted. -/
theorem execFabricPacketIngress_credited (named : h.cls = c.cls) (credited : c.cls < 6) (permitted : vcPermitted h.vc h.cls = true)
    (noReturn : cr = none) (noSel : h.wadiSel = false) (credit : fabricCells payload.length ≤ granted s port.val c.cls h.vc)
    (fits : c.len ≤ 8192) (len : c.len = payload.length) :
    execFabricPacketIngress port ⟨sub, err⟩ h cr c payload s = .next (fabricAccept
      (setGranted s port.val c.cls h.vc (granted s port.val c.cls h.vc - fabricCells payload.length)) port.val lane h c payload err) := by
  have goodHeader : ¬ (h.cls = 7 ∨ (!vcPermitted h.vc h.cls) = true ∨ h.cls ≠ c.cls) := by
    rintro (class7 | forbidden | renamed)
    · omega
    · exact Bool.false_ne_true ((Bool.not_eq_true' _).mp forbidden ▸ permitted)
    · exact renamed named
  have enough : ¬ (c.cls < 6 ∧ granted s port.val c.cls h.vc < fabricCells payload.length) := fun short => by omega
  have whole : ¬ (8192 < c.len ∨ c.len ≠ payload.length) := by omega
  simp only [execFabricPacketIngress, live, carries, fabric, Bool.not_true, Bool.false_eq_true, or_self, if_false, if_neg goodHeader,
    noReturn, noSel, if_neg enough, if_pos credited, if_neg whole]

end

/-- A lookup tests VER before the class, and both before anything else. -/
theorem fabricLookup_badVer (s : State) (d p : Nat) (k : SwPkt) {c : Cfh} (newer : 2 ≤ c.ver) :
    fabricLookup s d p k c = bump64 s (Reg.FWD_BAD_VER d) 1 := if_pos newer

theorem fabricLookup_class7 (s : State) (d p : Nat) (k : SwPkt) {c : Cfh} (known : c.ver < 2) (class7 : c.cls = 7) :
    fabricLookup s d p k c = bump64 s (Reg.SWC_CLASS7_DROP d) 1 :=
  (if_neg (Nat.not_le.mpr known)).trans (if_pos class7)

/-- Settles O53: at the port a packet of class 7 is a bad link header, in a lookup it meets the second test. -/
theorem aClass7CellIsDiscarded : Obligations.AClass7CellIsDiscarded := by
  refine ⟨fun port sub h cr c payload err s lane live carries fabric class7 known => ?known,
    fun port sub h cr c payload err s lane live carries fabric class7 newer => ?newer,
    fun s d => rn64_bump64 s 1 (regHome_class7Drop_hi_ne_lo d), fun s d p k _ known class7 => fabricLookup_class7 s d p k known class7,
    fun s d p k _ newer => fabricLookup_badVer s d p k newer⟩
  case known =>
    refine (execFabricPacketIngress_class7 live carries fabric class7).trans ?_
    rw [if_neg (Nat.not_le.mpr known)]
  case newer =>
    refine (execFabricPacketIngress_class7 live carries fabric class7).trans ?_
    rw [if_pos newer]

end Sys2Proof.Machine
end

section
/-! PROOF. Packets, frames and credits that pass the switch (R116, R118, R127, R135, R164, R205), and the switch units that software
programs (R110, R114, R122, R131, R139): each command on its accepted path. -/
namespace Sys2Proof.Machine

/-! ## Frames, admission and refills -/

/-- A frame that is no fabric packet, at a port that learns no addresses, is mirrored and looked up as it came. -/
theorem execEthernetFrameIngress_plain {port : Fin 4096} {sub : Fin 8} {f g : EthFrame} {err : Option ScrubErr} {lane : Nat} {s : State}
    (live : laneOfPort s port.val sub.val = some lane) (carries : linkCarries s port.val = true) (ethernet : portEth s port.val = true)
    (fits : frameLen f ≤ 9216) (parsed : parseFrame f = some g) (learnsNot : rb s Reg.FWD_CFG F.FWD_CFG_LEARN_MAC = false)
    (plain : g.etype ≠ rf s Reg.FWD_ETH_CFG F.FWD_ETH_CFG_CFH_ETYPE) :
    execEthernetFrameIngress port ⟨sub, err⟩ f s = .next (
      let k := arrival s port.val lane 0 { LinkHdr.none_ with cls := 6 } (some g) none [] (frameCells (frameLen g)) 6 0
      ethPlain (lookupErr (mirrorAll s (portDune s port.val) 0 port.val k.scope k.eth none [] (mirSessions s (portDune s port.val) 0 port.val))
        (portDune s port.val) err) (portDune s port.val) port.val g k) := by
  simp only [execEthernetFrameIngress, live, carries, ethernet, Nat.not_lt.mpr fits, parsed, learnsNot, plain, Bool.not_true,
    Bool.false_and, Bool.false_eq_true, or_self, if_false]

/-- The packet that a lane admits next leaves the mesh, and a fabric packet its landing room. -/
theorem execPacketAdmit_next {out : Fin 8} {lane : Fin 2048} {k : SwPkt} {s s1 : State}
    (next : nextAdmit s out.val lane.val = some (k, s1)) (first : lowerLane s out.val lane.val k = false) :
    execPacketAdmit out lane s = .next (
      let u := { s1 with swc := { s1.swc with mesh := dropFirst (fun x => x == k) s1.swc.mesh } }
      fnProgress (if k.eth.isSome then u else leftSlice u k.inPort k.cls k.inVc k.cells)) := by
  simp only [execPacketAdmit, next, first, Bool.false_eq_true, if_false]

/-- The oldest page of a queue, requested and read without an error, joins the head of the queue. -/
theorem execSpillRefillArrive_good {d : Fin 8} {q : Fin 16384} {pg : SpillPage} {rest : List SpillPage} {no : Nat} {k : SwPkt}
    {more : List (Nat × SwPkt)} {s : State} (pages : (hwq s d.val q.val).pages = pg :: rest)
    (pkts : (hwq s d.val q.val).pkts = (no, k) :: more) (requested : pg.requested = true) (up : duneUp s d.val = true) :
    execSpillRefillArrive d q false s = .next (
      let x := hwq s d.val q.val
      let x0 := { x with head := x.head ++ pg.cells, pages := rest }
      let s1 := setHwq s d.val q.val (if rest.isEmpty then tailToHead x0 else x0)
      let s3 := bump64 (chargePkt (setPagesUsed s1 d.val k.scope (pagesUsed s1 d.val k.scope - 1)) d.val k.scope k.cls pg.cells.length)
        (Reg.SWC_SPILL_IN d.val) 1
      let s4 := if x.head.isEmpty then bump64 s3 (Reg.SWC_SPILL_STARVE d.val) 1 else s3
      spillMark d.val (writePages d.val q.val k.scope k.cls 64 (askPages d.val q.val 4096 (joinTail s4 d.val q.val))) q.val) := by
  simp only [execSpillRefillArrive, pages, pkts, requested, up, Bool.not_true, Bool.false_eq_true, or_self, if_false]

/-! ## Transmission and credits -/

/-- A port that may send serves the head that its classes and their queues choose. -/
theorem execPortTransmitSelect_serves {port : Fin 4096} {c : Nat} {h : Head} {s s1 s2 : State}
    (known : (portRec s port.val).isSome = true) (sends : portMaySend s port.val = true)
    (shaped : s1 = shapeAll (joinPort (dropNofit port.val 4096 s) port.val) (firstLane s port.val))
    (noted : s2 = ((List.range 7).map (classHeads s1 port.val)).flatten.foldl (noteWait port.val) s1)
    (chosen : (pickClass s2 port.val).bind (fun c => (pickHead s2 port.val c).map (fun h => (c, h))) = some (c, h)) :
    execPortTransmitSelect port s = .next (
      let u := serveHead s2 port.val c h
      joinPort (if 2 ≤ h.vc then bump64 u (Reg.RTE_WADI_PKTS (portDune s port.val)) 1 else u) port.val) := by
  subst shaped noted
  simp only [execPortTransmitSelect, Option.isNone_eq_false_iff.mpr known, sends, chosen, Bool.not_true, Bool.false_eq_true, or_self,
    if_false]

section
variable {port : Fin 4096} {cr : CreditRet} {s : State} (fabric : portEth s port.val = false)
include fabric

theorem execCreditReturnRx_permitted {h : LinkHdr} (carries : linkCarries s port.val = true) (notClass7 : h.cls ≠ 7)
    (permitted : vcPermitted h.vc h.cls = true) :
    execCreditReturnRx port h cr s = .next (takeReturn (if h.wadiSel then wadiSelSeen s port.val else s) port.val cr) := by
  simp only [execCreditReturnRx, carries, fabric, notClass7, permitted, Bool.not_true, Bool.false_eq_true, or_self, if_false]

/-- A pending return leaves on a cell that carries nothing else. -/
theorem execCreditOnlyCellSend_pending (sends : portMaySend s port.val = true) (pending : nextReturn s port.val = some cr) :
    execCreditOnlyCellSend port s = .next (
      let h : LinkHdr := { LinkHdr.none_ with cls := cr.cls, wadiSel := sendsSel s port.val }
      fnProgress (emit (txNote (tookReturn s port.val (some cr)) port.val 1)
        (.creditCell port.val h cr (linkCipher s port.val (linkHdrBytes h true true (some cr)))))) := by
  simp only [execCreditOnlyCellSend, fabric, sends, pending, Bool.not_true, Bool.false_eq_true, or_self, if_false]

end

/-- Settles O7: clause by clause, the meaning of the command on the path that the clause names. -/
theorem packetsEnterAndLeaveTheSwitch : Obligations.PacketsEnterAndLeaveTheSwitch := by
  refine ⟨fun port sub h cr c payload err lane s live carries fabric credited named permitted noReturn noSel credit fits len =>
      execFabricPacketIngress_credited live carries fabric named credited permitted noReturn noSel credit fits len,
    fun port sub f g err lane s live carries ethernet fits parsed learnsNot plain =>
      execEthernetFrameIngress_plain live carries ethernet fits parsed learnsNot plain,
    fun out lane k s chosen first => ?entry,
    fun d q bad pg rest no k more s pages pkts requested up good => ?refill,
    fun port c h s known sends chosen => execPortTransmitSelect_serves known sends rfl rfl chosen,
    fun port h cr s carries fabric notClass7 permitted => execCreditReturnRx_permitted fabric carries notClass7 permitted,
    fun port cr s fabric sends pending => execCreditOnlyCellSend_pending fabric sends pending⟩
  case entry =>
    obtain ⟨⟨_, s1⟩, next, rfl⟩ := Option.map_eq_some_iff.mp chosen
    exact ⟨_, execPacketAdmit_next next first, s1, next, rfl⟩
  case refill =>
    subst good
    exact execSpillRefillArrive_good pages pkts requested up

/-! ## Pace signals -/

section
variable {d : Fin 8} {s : State} (up : duneUp s d.val = true)
include up

theorem execPaceLow_bank (n : BitVec 16) :
    execPaceLow (.bank d n) s = .next (if n.toNat < 500 then swcEvent s d F.SWC_EVT_PACE_LOW 0xFF 0xFFFF else s) := by
  simp only [execPaceLow, up, Bool.true_and, decide_eq_true_eq]

theorem execPaceLow_ripple (r : Fin 32) (pace : BitVec 16) :
    execPaceLow (.ripple d r pace) s = .next (
      let u := wfs s (Reg.BRC_PACE d r) [(F.BRC_PACE_PACE, pace.toNat), (F.BRC_PACE_LOW, b2n (decide (pace.toNat < 1300)))]
      if pace.toNat < 1300 then brcEvent u d F.BRC_EVT_PACE_LOW (natBe 1 (partOfRipple s (d * 32 + r)) ++ natBe 2 0xFFFF) else u) := by
  simp only [execPaceLow, up, Bool.not_true, Bool.false_eq_true, if_false, decide_eq_true_eq]

end

/-! ## Pools, policers and mirror sessions -/

section
variable {d : Fin 8} {v : Word} {s : State} (up : winOk s d.val = true) (free : held s = false)
include up free

/-- The eight pools of a scope stay within its quota in the dune. -/
theorem execPoolMaxWrite_withinQuota {p : Fin 16} {c : Fin 8} (scope : (scopeOf s p.val).isSome = true)
    (within : sumNat (((List.range 8).filter (fun x => x != c.val)).map (fun i => poolMax s d.val p.val i)) + getF v F.SWC_POOL_MAX_MAX
      ≤ scopeQuota s d.val p.val) :
    execPoolMaxWrite d p c v s = .next (checkBudget (showPools (softWrite s (Reg.SWC_POOL_MAX d.val p.val c.val) v) p.val c.val)
      d.val p.val 0xFF 0xFFFF) := by
  simp only [execPoolMaxWrite, up, free, Option.isNone_eq_false_iff.mpr scope, if_neg (Nat.not_lt.mpr within), Bool.not_true,
    Bool.false_eq_true, or_self, if_false]

theorem execPolicerEnable_on {i : Fin 8192} (on : wbit v 31 = true) :
    execPolicerEnable d i v s = .next (
      let u := softWrite s (Reg.SWC_POL0 d.val i.val) v
      { u with swc := { u.swc with policers := SMap.ins u.swc.policers (d.val * 8192 + i.val) (polFull u d.val i.val) } }) := by
  simp only [execPolicerEnable, up, free, on, Bool.not_true, Bool.false_eq_true, if_false, if_true]

theorem execMirrorSessionEnable_withinScope {m : Fin 64}
    (within : (mirSource (softWrite s (Reg.SWC_MIR0 d.val m.val) v) d.val m.val).any
      (fun x => x != mirDest (softWrite s (Reg.SWC_MIR0 d.val m.val) v) d.val m.val) = false) :
    execMirrorSessionEnable d m v s = .next (softWrite s (Reg.SWC_MIR0 d.val m.val) v) := by
  simp only [execMirrorSessionEnable, up, free, within, Bool.and_false, Bool.not_true, Bool.false_eq_true, if_false]

end

/-! ## Punts -/

/-- The oldest punted packet goes to the punt FIFO, which drops it, stages it or writes it. -/
theorem execPuntDeliver_enabled {d : Fin 8} {pk : PuntPkt} {rest : List PuntPkt} {s : State} (queue : puntQueue s d.val = pk :: rest)
    (up : duneUp s d.val = true) (on : rb s (Reg.FWD_PUNT_CFG d.val) F.FWD_PUNT_CFG_EN = true) :
    execPuntDeliver d s = .next (
      let cnq := rf s (Reg.FWD_PUNT_CFG d.val) F.FWD_PUNT_CFG_CNQ
      let r := fifoPut (setPunt s d.val rest) d.val cnq ⟨0x11, false, puntPayload s d.val pk⟩
      if r.2 = .dropped then puntDrop (dischargePkt r.1 d.val pk.scope pk.cls pk.cells) d.val
      else if r.2 = .staged then keepPunt r.1 d.val cnq pk
      else dischargePkt r.1 d.val pk.scope pk.cls pk.cells) := by
  simp only [execPuntDeliver, queue, up, on, Bool.not_true, Bool.false_eq_true, if_false]

/-- Settles O8: clause by clause, the meaning of the command on the path that the clause names. -/
theorem switchUnitsAreProgrammed : Obligations.SwitchUnitsAreProgrammed :=
  ⟨fun _ n _ up => execPaceLow_bank up n, fun _ r pace _ up => execPaceLow_ripple up r pace,
    fun _ _ _ _ _ up scope free within => execPoolMaxWrite_withinQuota up free scope within,
    fun _ _ _ _ up free on => execPolicerEnable_on up free on,
    fun _ _ _ _ up free within => execMirrorSessionEnable_withinScope up free within,
    fun _ _ _ _ queue up on => execPuntDeliver_enabled queue up on⟩

end Sys2Proof.Machine
end

section
/-! PROOF. Changes of the forwarding tables (R143, R146 to R148, R151 to R153, R156, R157): each command on the path that changes the
tables. -/
namespace Sys2Proof.Machine

/-! ## The update window and the replicas (R143, R147, R148) -/

/-- GO applies the window's record, shows its RESULT, and relays a record that asks for it once it is applied, in the stash or not
(APPLIED_STASH and APPLIED of Table 6.10). -/
theorem execFwdUpdateGo_free {v : Word} {s : State} (run : s.plat.running = true) (up : (dunesUp s).isEmpty = false)
    (go : wbit v 31 = true) (free : held s = false) (kept : (windowZone s).any (fun z => (shadowOf s z).lost) = false) :
    execFwdUpdateGo v s = .next (
      let r := windowRec s
      let a := applyRecord s .window r
      let u := setUpdResult a.1 a.2
      if a.2 ≤ 1 ∧ r.relay then relayRec u (((scopeByHall s (recPart r)).map (·.num)).getD 0) none r else u) := by
  simp only [execFwdUpdateGo, run, up, go, free, kept, Bool.not_true, Bool.false_eq_true, or_self, if_false]

/-- A dune that is UP takes the oldest change off its queue and applies it; a filling stash is an event, and the end of a replay may
complete the load. -/
theorem execReplicaApply_queued {d : Fin 8} {c : SeqChange} {rest : List SeqChange} {s : State}
    (queue : changeQueue s d.val = c :: rest) (up : duneUp s d.val = true) :
    execReplicaApply d s = .next (
      let u := applyChange { s with fwd := { s.fwd with queues := SMap.ins s.fwd.queues d.val rest } } d.val c
      let w := if 896 ≤ stashOcc u d.val then fwdEvent u d.val F.FWD_EVT_STASH_HIGH 1 0 else u
      if c.writes.any isFill then settle s (checkLoaded (showSections w)) else w) := by
  simp only [execReplicaApply, queue, up, Bool.not_true, Bool.false_eq_true, if_false]

/-! ## Learning messages (R151 to R153) -/

/-- The payload of a learning message: version 1, a count of 1 to 21 records, and as many records of 48 bytes as it counts. -/
def LearningForm (payload : List Byte) : Prop :=
  beAt payload 0 1 = 1 ∧ beAt payload 1 1 ≠ 0 ∧ beAt payload 1 1 ≤ 21 ∧ payload.length = 8 + 48 * beAt payload 1 1

/-- The condition by which LEARNING_MESSAGE discards a payload does not hold of a well-formed one. -/
theorem LearningForm.taken {payload : List Byte} (form : LearningForm payload) :
    ¬ (beAt payload 0 1 ≠ 1 ∨ beAt payload 1 1 = 0 ∨ 21 < beAt payload 1 1 ∨ payload.length ≠ 8 + 48 * beAt payload 1 1) := by
  obtain ⟨version, records, few, length⟩ := form
  rintro (otherVersion | empty | many | otherLength)
  · exact otherVersion version
  · exact records empty
  · exact Nat.not_lt.mpr few many
  · exact otherLength length

/-- Every record of a neighbour's message except the refresh requests is counted and learned, in order. -/
theorem execLearningMessage_wellFormed {port : Fin 4096} {c : Cfh} {payload : List Byte} {s : State}
    (accepted : mgtAccepted s port.val c = true) (neighbour : neighbourRole s port.val = true) (dst : c.dst = 0xFFFFFE)
    (form : LearningForm payload) :
    execLearningMessage port c payload s = .next (
      let l := ((List.range (beAt payload 1 1)).map (fun i => recOf ((payload.drop (8 + 48 * i)).take 48))).filter (fun r => r.op != 3)
      l.foldl (learnOne port.val) (bump64 s (Reg.FWD_LEARN_RX (portDune s port.val)) l.length)) := by
  have addressed : ¬ ((!mgtAccepted s port.val c) = true ∨ (!neighbourRole s port.val) = true ∨ c.dst ≠ 0xFFFFFE) := by
    simp [accepted, neighbour, dst]
  exact congrArg Host.Outcome.next ((if_neg addressed).trans (if_neg form.taken))

/-! ## Scrubbing and rebuilds (R143, R156) -/

/-- A pass without errors ages the tombstones of the replica; a dune by which its shadow copy is not aged changes nothing else. -/
theorem execScrubPass_clean {d : Fin 8} {s : State} (up : duneUp s d.val = true)
    (follower : zoneDune s (duneZone s d.val) ≠ some d.val) :
    execScrubPass d [] s = .next
      { s with fwd := { s.fwd with replicas := SMap.ins s.fwd.replicas d.val (ageTombs (replica s d.val)) } } := by
  have up' : ¬ (!duneUp s d.val) = true := by simp [up]
  exact congrArg Host.Outcome.next ((if_neg up').trans (if_pos (.inl follower)))

/-- The oldest mark of a dune whose rebuild is not on its way is rebuilt from a sound shadow copy, through the sequencer. -/
theorem execTableRebuild_marked {d : Fin 8} {m : Mark} {s : State}
    (oldest : s.fwd.marks.find? (fun m => m.dune == d.val && !markBusy s m) = some m) (up : duneUp s d.val = true)
    (free : held s = false) (kept : (shadowOf s (duneZone s m.dune)).lost = false) :
    execTableRebuild d false s = .next (rebuild s m) := by
  simp only [execTableRebuild, oldest, up, free, kept, Bool.not_true, Bool.false_and, Bool.false_eq_true, or_self, if_false]

/-! ## Refreshes (R157) -/

/-- A neighbour's request for a key that this spine holds counts as a record received and is answered on the port of its arrival. -/
theorem execRefreshRequestRx_answered {port : Fin 4096} {r a : TblRec} {s : State} (carries : linkCarries s port.val = true)
    (fabric : portEth s port.val = false) (neighbour : neighbourRole s port.val = true) (request : r.op = 3) (free : held s = false)
    (formed : recOk r = true) (sameHall : recPart r = hallPart s (portScope s port.val))
    (answer : refreshAnswer (bump64 s (Reg.FWD_LEARN_RX (portDune s port.val)) 1) r = some a) :
    execRefreshRequestRx port r s = .next (
      let u := bump64 s (Reg.FWD_LEARN_RX (portDune s port.val)) 1
      let msg := learnMsg u (portScope s port.val) a
      sendOwn u port.val msg.1 msg.2) := by
  simp only [execRefreshRequestRx, carries, fabric, neighbour, request, free, formed, sameHall, answer, Bool.not_true,
    Bool.false_eq_true, ne_eq, not_true_eq_false, or_self, if_false]

/-- A refresh that is due removes its keys, ends and raises an event. -/
theorem execRefreshTimeout_due {d : Fin 8} {x : Refresh} {s : State}
    (due : s.fwd.refresh.find? (fun x => x.dune == d.val && decide (x.due ≤ s.clock)) = some x) (free : held s = false)
    (kept : (shadowOf s (duneZone s x.dune)).lost = false) :
    execRefreshTimeout d s = .next (
      let u := x.keys.foldl forgetKey { s with fwd := { s.fwd with refresh := dropFirst (fun y => y == x) s.fwd.refresh } }
      fwdEvent (endRefresh u x) d.val F.FWD_EVT_REFRESH_FAIL x.table x.word) := by
  simp only [execRefreshTimeout, due, free, kept, Bool.false_eq_true, or_self, if_false]

/-! ## Shadow copies (R146, R157) -/

/-- A lost shadow copy is rebuilt on the lowest ready stack of its scope from the replica of the lowest dune in UP. -/
theorem rebuildShadow_lost {s : State} {z k d : Nat} (stack : (zoneStacks s z).head? = some k) (dune : zoneDune s z = some d)
    (lost : (shadowOf s z).lost = true) :
    rebuildShadow s z = setShadow s z
      { shadowOf s z with tables := replicaAhead s d, lost := false, stack := some k,
                          stashOrder := ((replicaAhead s d).em.filter (fun e => decide (stashBase ≤ e.1))).map (·.1) } := by
  simp only [rebuildShadow, stack, dune, lost, Bool.not_true, Bool.false_eq_true, if_false]

/-- With one shadow copy, SHADOW_REBUILD is the rebuild of that copy. -/
theorem execShadowRebuild_oneZone {s : State} {z : Nat} (one : zones s = [z]) : execShadowRebuild s = .next (rebuildShadow s z) := by
  rw [execShadowRebuild, one, List.foldl_cons, List.foldl_nil]

/-- With one shadow copy, LPM_OLD_SPACE_FREE keeps of its old trie space what is not due yet. -/
theorem execLpmOldSpaceFree_oneZone {s : State} {z : Nat} (one : zones s = [z]) :
    execLpmOldSpaceFree s = .next (setShadow s z
      { shadowOf s z with pendingFree := (shadowOf s z).pendingFree.filter (fun e => decide (s.clock < e.2.2.2.2)) }) := by
  rw [execLpmOldSpaceFree, one, List.foldl_cons, List.foldl_nil]

/-- Settles O9: clause by clause, the meaning of the command on the path that the clause names. -/
theorem forwardingTablesChange : Obligations.ForwardingTablesChange := by
  refine ⟨fun v s run up go free kept => execFwdUpdateGo_free run up go free kept,
    fun d c rest s queue up => execReplicaApply_queued queue up,
    fun port c payload s accepted neighbour dst version records few length =>
      execLearningMessage_wellFormed accepted neighbour dst ⟨version, records, few, length⟩,
    fun d errs s up follower clean => ?scrub, fun d shadowBad m s oldest up free kept sound => ?rebuild,
    fun port r s carries fabric neighbour request free formed sameHall holds => ?refreshRequest,
    fun d x s due free kept => execRefreshTimeout_due due free kept,
    fun z k d s one stack dune lost => (execShadowRebuild_oneZone one).trans (congrArg _ (rebuildShadow_lost stack dune lost)),
    fun z s one => execLpmOldSpaceFree_oneZone one⟩
  case scrub =>
    subst clean
    exact execScrubPass_clean up follower
  case rebuild =>
    subst sound
    exact execTableRebuild_marked oldest up free kept
  case refreshRequest =>
    obtain ⟨a, answer⟩ := Option.isSome_iff_exists.mp holds
    exact ⟨_, execRefreshRequestRx_answered carries fabric neighbour request free formed sameHall answer, a, answer, rfl⟩

end Sys2Proof.Machine
end

section
/-! PROOF. Routing and flow control: loads, the escape channel, contexts, injection rates and utilisation (R162, R168, R170, R172 to R175,
R177, R178), and the table versions with their flip (R181 to R184): each command on the path that its conditions choose. -/
namespace Sys2Proof.Machine

/-! ## Loads, injection rates and utilisation (R162, R177, R178) -/

section
variable {s : State} (up : (dunesUp s).isEmpty = false)
include up

/-- The six directions are sampled before the three axes show the higher of their two loads. -/
theorem execSpraySample_up : execSpraySample s = .next ((List.range 3).foldl showAxisLoad ((List.range 6).foldl sampleDir s)) := by
  simp only [execSpraySample, up, Bool.false_eq_true, if_false]

/-- The 18 rates are updated; a change, or a silence of 1 ms, sends the rates to every ready rack-facing port. -/
theorem execThrottleUpdate_up :
    execThrottleUpdate s = .next (
      let u := (List.range 18).foldl updateRate { s with rte := { s.rte with rateChanged := false } }
      let m := rateMessage u
      let w := (rackPorts u).foldl
        (fun x p => sendOwn x p (originCfh x 0 (hallPart x (portScope x p)) 0xFFFFFD 0 0 m.length) m) u
      if u.rte.rateChanged ∨ u.rte.rateSentAt + 1000 * usUnit ≤ u.clock then
        { w with rte := { w.rte with rateSeq := (w.rte.rateSeq + 1) % 65536, rateSentAt := w.clock } }
      else u) := by
  simp only [execThrottleUpdate, up, Bool.false_eq_true, if_false]

/-- The axes are judged by the window that ends, not by the state that its directions leave. -/
theorem execUtilisationWindow_up :
    execUtilisationWindow s = .next (
      let u := (List.range 3).foldl (windowAxis s) ((List.range 6).foldl windowDir s)
      let w := { u with rte := { u.rte with sentCells := [], hot := [] } }
      let axes := (List.range 3).filter (fun a => decide (a < torusDims s))
      if axes.any (fun a => axisSaturated s a && axes.any (fun b => b != a && axisIdle s b)) then
        rteEvent w F.RTE_EVT_IMBALANCE 0xFF 0xFFFF
      else w) := by
  simp only [execUtilisationWindow, up, Bool.false_eq_true, if_false]

end

/-! ## The escape channel and the Wadi allowances (R168, R170) -/

/-- A head that has waited ESC_TMO without adaptive credit, and is eligible on ENTRY, leaves on ENTRY and is counted. -/
theorem execEscapeToEntry_waited {port : Fin 4096} {cls : Fin 8} {k : SwPkt} {s : State}
    (first : headPkt (hwq s (portDune s port.val) (portQ s port.val 0 cls.val)) = some k) (torus : portRole s port.val = 1)
    (lossless : creditClass cls.val = true) (sends : portMaySend s port.val = true)
    (waited : (hwq s (portDune s port.val) (portQ s port.val 0 cls.val)).headSince + escTmo s ≤ s.clock)
    (noAdaptive : hasCredit s port.val ⟨portQ s port.val 0 cls.val, k, 0, false⟩ = false)
    (entry : eligible s port.val ⟨portQ s port.val 0 cls.val, k, 1, false⟩ = true) :
    execEscapeToEntry port cls s = .next (joinPort (bump64
      (serveHead (joinPort s port.val) port.val cls.val ⟨portQ s port.val 0 cls.val, k, 1, false⟩)
      (Reg.RTE_ESC_PKTS (portDune s port.val)) 1) port.val) := by
  rw [execEscapeToEntry, first]
  refine congrArg Host.Outcome.next (if_neg ?_)
  simp [torus, lossless, sends, Nat.not_lt.mpr waited, noAdaptive, entry]

/-- The instant since which WADI_SEL has been absent decides a lapse. -/
theorem selAbsent_some_iff {s : State} {since : Nat} : selAbsent s (some since) = true ↔ since + 10 * usUnit ≤ s.clock := by
  rw [selAbsent, Option.any_some, decide_eq_true_eq]

/-- As receiver of the link, this end takes back its grants; as sender it may lose its credits by the same command. -/
theorem execWadiAllowanceLapse_received {port : Fin 4096} {s : State}
    (absent : selAbsent s (SMap.find s.rte.wadiSel port.val) = true) :
    execWadiAllowanceLapse port s = .next (
      if selAbsent s (SMap.find s.rte.selSent port.val) then lapseHeld (lapseGranted s port.val) port.val
      else lapseGranted s port.val) := by
  simp only [execWadiAllowanceLapse, absent, if_true]

/-- As sender alone, this end loses its credits and keeps its grants. -/
theorem execWadiAllowanceLapse_sent {port : Fin 4096} {s : State}
    (present : selAbsent s (SMap.find s.rte.wadiSel port.val) = false)
    (absent : selAbsent s (SMap.find s.rte.selSent port.val) = true) :
    execWadiAllowanceLapse port s = .next (lapseHeld s port.val) := by
  simp only [execWadiAllowanceLapse, present, absent, Bool.false_eq_true, if_false, if_true]

/-! ## Contexts (R172 to R175) -/

section
variable {d : Fin 8} {k : Fin 262144} {x : DstCtx} {s : State} (found : dstAt s d.val k.val = some x)
include found

/-- What a context has held for 50 µs is released from its lowest number on, and the numbers below count as lost. -/
theorem execResequenceTimeout_held (held : x.held ≠ []) (waited : x.heldAt + 50 * usUnit ≤ s.clock) :
    execResequenceTimeout d k s = .next (
      let r := releaseRun x.held.length (lowestHeld x) x.held
      let x1 := { x with expect := some r.2.1, held := r.2.2, heldAt := s.clock, last := s.clock }
      let s1 := { s with rte := { s.rte with dst := modFirst (fun y => y == x) (fun _ => x1) s.rte.dst } }
      let s2 := bump64 s1 (Reg.RTE_RSQ_LOST_PKTS d.val) (missingCount x)
      let s3 := bump64 (linkAll d.val r.1 s2) (Reg.RTE_RSQ_RELEASED d.val) (sumNat (r.1.map (·.cells)))
      rteEvent s3 F.RTE_EVT_RSQ_TIMEOUT 0xFF ((r.1.head?.map (·.outPort)).getD 0xFFFF)) := by
  simp only [execResequenceTimeout, found, List.isEmpty_iff, held, Nat.not_lt.mpr waited, or_self, if_false]

theorem execDestContextExpire_idle (empty : x.held = []) (idle : x.last + lifetime s ≤ s.clock) :
    execDestContextExpire d k s = .next { s with rte := { s.rte with dst := dropFirst (fun y => y == x) s.rte.dst } } := by
  simp only [execDestContextExpire, found, empty, idle, List.isEmpty_nil, and_self, if_true]

end

/-- The context of a number is freed; the number keeps the rest of its record, GEN among it. -/
theorem execSourceContextExpire_idle {d : Fin 8} {ctx : BitVec 16} {x : SrcCtx} {s : State}
    (found : SMap.find s.rte.src (d.val * 65536 + ctx.toNat) = some x) (live : x.live = true)
    (idle : x.last + 2 * lifetime s ≤ s.clock) :
    execSourceContextExpire d ctx s = .next
      { s with rte := { s.rte with src := SMap.ins s.rte.src (d.val * 65536 + ctx.toNat) { x with live := false } } } := by
  simp only [execSourceContextExpire, found, live, idle, and_self, if_true]

/-- Settles O10: clause by clause, the meaning of the command on the path that the clause names. -/
theorem routingMeasuresAndContexts : Obligations.RoutingMeasuresAndContexts :=
  ⟨fun _ up => execSpraySample_up up,
    fun _ _ _ _ first torus lossless sends waited noAdaptive entry =>
      execEscapeToEntry_waited first torus lossless sends waited noAdaptive entry,
    fun _ _ _ received absent => execWadiAllowanceLapse_received (received ▸ selAbsent_some_iff.mpr absent),
    fun _ _ _ sent absent present => execWadiAllowanceLapse_sent present (sent ▸ selAbsent_some_iff.mpr absent),
    fun _ _ _ _ found held waited => execResequenceTimeout_held found held waited,
    fun _ _ _ _ found live idle => execSourceContextExpire_idle found live idle,
    fun _ _ _ _ found empty idle => execDestContextExpire_idle found empty idle,
    fun _ up => ⟨_, execThrottleUpdate_up up, rfl⟩,
    fun _ up => execUtilisationWindow_up up⟩

/-! ## Table versions (R181) -/

section
variable {s : State} (run : s.plat.running = true) (up : (dunesUp s).isEmpty = false)

section
include run up

/-- A write of a word of an inactive, writable version is taken, shown in the digest, and moves the window on. -/
theorem execRoutingTableData_writable {w : Word} (free : held s = false)
    (inactive : rf s Reg.RTE_TBL_SEL F.RTE_TBL_SEL_VER ≠ activeVer s)
    (writable : verWritable s (rf s Reg.RTE_TBL_SEL F.RTE_TBL_SEL_VER) = true) :
    execRoutingTableData (some w) s = .next (nextIndex (showVerDig (setTableWord s w))) := by
  simp only [execRoutingTableData, run, up, free, inactive, writable, Bool.not_true, Bool.false_eq_true, or_self, if_false]

end

theorem execVersionWritable_elapsed {b : Bool} (inactive : b2n b ≠ activeVer s) (notArmed : s.rte.armed = none)
    (elapsed : (rteTable s (b2n b)).lastActive + lifetime s ≤ s.clock) :
    execVersionWritable b s = .next (setVerWritable s (b2n b) true) := by
  simp only [execVersionWritable, inactive, notArmed, Nat.not_lt.mpr elapsed, Option.isSome_none, Bool.false_eq_true, or_self, if_false]

/-! ## The epoch flip (R182, R183) -/

/-- HELD is the first of the reasons of R182: a flip that none refuses finds no triad held. -/
theorem held_of_flipRefusal_none (allowed : flipRefusal s = none) : held s = false := by
  cases isHeld : held s with
  | false => rfl
  | true => simp [flipRefusal, isHeld] at allowed

section
include run up

/-- ARM takes the instant of RTE_FLIP_SEC and RTE_FLIP_NS, and closes the inactive version to writes. -/
theorem execFlipArm_allowed {v : Word} (key : keyOk v = true) (arm : wbit v 1 = true) (allowed : flipRefusal s = none) :
    execFlipArm v s = .next (
      let u := { s with rte := { s.rte with armed := some (flipInstant s) } }
      setFlipResult (setVerWritable (wf u Reg.RTE_STATUS F.RTE_STATUS_ARMED 1) (1 - activeVer u) false) 1) := by
  simp only [execFlipArm, run, up, key, arm, allowed, held_of_flipRefusal_none allowed, Bool.not_true, Bool.false_eq_true, or_self,
    if_false]

/-- CANCEL, at least 100 µs before the instant, disarms the flip and opens the inactive version to writes again. -/
theorem execFlipCancel_early {v : Word} {i : Nat} (free : held s = false) (armed : s.rte.armed = some i) (key : keyOk v = true)
    (cancel : wbit v 2 = true) (early : s.clock + 100 * usUnit ≤ i) :
    execFlipCancel v s = .next (
      let u := { s with rte := { s.rte with armed := none } }
      setFlipResult (setVerWritable (wf u Reg.RTE_STATUS F.RTE_STATUS_ARMED 0) (1 - activeVer u) true) 7) := by
  simp only [execFlipCancel, run, up, free, armed, key, cancel, Nat.not_lt.mpr early, Bool.not_true, Bool.false_eq_true, or_self,
    if_false]

end

/-- At the armed instant the versions change places, and neither is writable. -/
theorem execEpochFlip_due {i : Nat} (armed : s.rte.armed = some i) (due : i ≤ s.clock) :
    execEpochFlip s = .next (
      let old := activeVer s
      let s1 := setRteTable s old { rteTable s old with lastActive := s.clock }
      let s2 := setRteTable s1 (1 - old) { rteTable s1 (1 - old) with ever := true }
      rteEvent (showVerDig (wfs { s2 with rte := { s2.rte with armed := none } } Reg.RTE_STATUS
        [(F.RTE_STATUS_ACTIVE, 1 - old), (F.RTE_STATUS_A_WRITABLE, 0), (F.RTE_STATUS_B_WRITABLE, 0), (F.RTE_STATUS_ARMED, 0),
          (F.RTE_STATUS_FLIP_RESULT, 2)])) F.RTE_EVT_FLIP_DONE 0xFF 0xFFFF) := by
  simp only [execEpochFlip, armed, Nat.not_lt.mpr due, if_false]

end

/-- Settles O11: clause by clause, the meaning of the command on the path that the clause names. -/
theorem routingTablesFlip : Obligations.RoutingTablesFlip := by
  refine ⟨fun w x s run up written free inactive writable => ?write,
    fun b s inactive notArmed elapsed => execVersionWritable_elapsed inactive notArmed elapsed,
    fun v s run up key arm allowed => execFlipArm_allowed run up key arm allowed,
    fun v i s run up free armed key cancel early => execFlipCancel_early run up free armed key cancel early,
    fun i s armed due => execEpochFlip_due armed due⟩
  case write =>
    subst written
    exact execRoutingTableData_writable run up free inactive writable

end Sys2Proof.Machine
end

section
/-! PROOF. Sandglass: the servo, the PTP ports, fine time and what software asks of the clock (R187 to R198), the reference input and
the 1 PPS pins (R199 to R201), and the time that passes on an empty queue (R185, R186): each command on the path that its conditions
choose. -/
namespace Sys2Proof.Machine

/-! ## States of the clock (R193, R196, R198) -/

section
variable {s : State}

/-- What the servo measures is the state whose holdover bound has grown to now, with a pending ACCEPT taken up. -/
theorem execServoUpdate_running (moving : Bool) (run : s.plat.running = true) :
    execServoUpdate moving s = .next (
      let w := { s with tim := { s.tim with moving := moving } }
      let u := if timSt w = timHoldover then growBound w else w
      measure (u.tim.sources.length + 1) u.tim.acceptPending { u with tim := { u.tim with acceptPending := false } }) := by
  simp only [execServoUpdate, run, Bool.not_true, Bool.false_eq_true, if_false]

theorem execFineQualify_qualified {since : Nat} (small : s.tim.fineSince = some since) (locked : timSt s = timLocked)
    (second : since + secUnit ≤ s.clock) : execFineQualify s = .next (setTimFine (setTimSt s timFineSt) true) := by
  simp only [execFineQualify, small, locked, second, and_self, if_true]

/-- A refused source whose offset has stayed within the threshold for 1 s is accepted, at the offset last measured. -/
theorem execRefusedSourceQualify_qualified {x : TimSource} {since : Nat} (cur : curSource s = some x) (good : x.goodSince = some since)
    (refused : x.refused = true) (second : since + secUnit ≤ s.clock) :
    execRefusedSourceQualify s = .next (acceptSource
      (showSource (modSource s x.kind x.port (fun y => { y with refused := false, goodSince := none }))) ((x.theta.getD 0).natAbs)) := by
  simp only [execRefusedSourceQualify, cur, good, refused, Nat.not_lt.mpr second, Bool.not_true, Bool.false_eq_true, or_self, if_false]

theorem execHoldoverLimit_reached (holds : timSt s = timHoldover) (reached : 10 ^ 6 * 65536 ≤ (growBound s).tim.holdBound) :
    execHoldoverLimit s = .next (setTimReady (growBound s) false) :=
  congrArg Host.Outcome.next (if_pos ⟨holds, reached⟩)

end

/-! ## PTP ports (R189) -/

theorem execPtpMessageRx_ownDomain {kind : Fin 5} {port : Fin 4096} {m : PtpMsg} {s : State}
    (carries : ptpPort s kind (ptpNum kind port) = true) (domain : m.domain = ptpDomain s) :
    execPtpMessageRx kind port m s = .next (ptpBodyRx s kind (ptpNum kind port) m.sender m.body) :=
  congrArg Host.Outcome.next (if_pos ⟨carries, domain⟩)

/-- Management ports send Sync in two steps, and ask for no peer's delay. -/
theorem execPtpSyncSend_management (s : State) :
    execPtpSyncSend true s = .next ((masterPorts s true).foldl (fun u e =>
      ptpSend (ptpSend u e.1 e.2 (.sync (txStamp u e.1 e.2) true)) e.1 e.2 (.followUp (txStamp u e.1 e.2))) s) := by
  simp only [execPtpSyncSend, if_true]

/-- Fabric ports send Sync in one step, and then ask for the delay of each peer that is a source. -/
theorem execPtpSyncSend_fabric (s : State) :
    execPtpSyncSend false s = .next (
      let u := (masterPorts s false).foldl (fun u e => ptpSend u e.1 e.2 (.sync (txStamp u e.1 e.2) false)) s
      (u.tim.sources.filter (fun x => x.kind == 1 && ptpPort u 1 x.port)).foldl (fun u x => askPeer u x.port) u) := by
  simp only [execPtpSyncSend, Bool.false_eq_true, if_false]

/-- Whether a foreign master of a port has been silent for three announce intervals: 375 ms of a fabric port, 3 s of a management
port (Table 8.1). -/
def silentAt (s : State) (kind p : Nat) (m : ForeignMaster) : Bool :=
  foreignAt kind p m && decide (m.heardAt + (if kind = 1 then 375000 * usUnit else 3 * secUnit) ≤ s.clock)

/-- Every silent master of the port is forgotten at once, and the port settles on the best of the others. -/
theorem execAnnounceTimeout_silent {kind : Fin 5} {port : Fin 4096} {s : State} (notPps : kind ≠ 4)
    (silent : s.tim.foreign.any (silentAt s kind (ptpNum kind port)) = true) :
    execAnnounceTimeout kind port s = .next (settleForeign
      { s with tim := { s.tim with foreign := s.tim.foreign.filter (fun m => !silentAt s kind (ptpNum kind port) m) } }
      kind (ptpNum kind port)) :=
  have kept : ¬ (kind.val = 4 ∨ (!s.tim.foreign.any (silentAt s kind (ptpNum kind port))) = true) :=
    not_or.mpr ⟨fun pps => notPps (Fin.ext pps), ne_true_of_eq_false (congrArg not silent)⟩
  congrArg Host.Outcome.next (if_neg kept)

/-! ## Fine time (R191) -/

/-- A marker on a ready lane of a fabric port with fine time enabled: the lane's phases are kept and the source's offset settled. -/
theorem execFineTimeMarker_enabled {port : Fin 4096} {sub : Fin 8} {r : PortRec} {s : State} (rx back : Int)
    (rec_ : portRec s port = some r) (lane : sub.val < r.width) (fabric : port.val < 2048)
    (ready : laneReady s (r.first + sub.val) = true) (fine : rb s (Reg.TIM_PORT port) F.TIM_PORT_FINE_EN = true) :
    execFineTimeMarker port sub rx back s = .next (settleTheta
      { s with tim := { s.tim with lanes := SMap.ins s.tim.lanes (r.first + sub.val) (rx, back) } } 1 port) := by
  simp only [execFineTimeMarker, rec_, Nat.not_le.mpr lane, Nat.not_le.mpr fabric, ready, fine, Bool.not_true, Bool.false_eq_true,
    or_self, if_false]

/-! ## Writes of TIM_CTRL (R196, Tables 8.2 and 8.4) -/

section
variable {v : Word} {s : State} (run : s.plat.running = true) (free : held s = false)
include run free

/-- ACCEPT waits for the next update of the servo. -/
theorem execTimAccept_refused {x : TimSource} (key : keyOk v = true) (accept : wbit v 1 = true) (cur : curSource s = some x)
    (refused : x.refused = true) : execTimAccept v s = .next { s with tim := { s.tim with acceptPending := true } } := by
  simp only [execTimAccept, run, free, key, accept, cur, refused, Option.map_some, Option.getD_some, Bool.not_true, Bool.false_eq_true,
    or_self, if_false]

/-- ACQUIRE forgets the refusals and what the clock was ready for, and selects a source from FREE. -/
theorem execTimAcquire_keyed (key : keyOk v = true) (acquire : wbit v 0 = true) :
    execTimAcquire v s = .next (
      let u := setTimReady (setTimFine { s with tim := { s.tim with
        sources := s.tim.sources.map (fun x => { x with refused := false, goodSince := none }), acceptPending := false,
        fineSince := none, badRun := 0 } } false) false
      selectSource (setTimSt (wf u Reg.TIM_STATUS F.TIM_STATUS_EVER_READY 0) timFree)) := by
  simp only [execTimAcquire, run, free, key, acquire, Bool.not_true, Bool.false_eq_true, or_self, if_false]

/-- CAPTURE needs no key. -/
theorem execTimCapture_asked (capture : wbit v 2 = true) :
    execTimCapture v s = .next
      (wn (wn (wnHL s (Reg.TIM_NOW_SEC 0) (nowSec s)) Reg.TIM_NOW_NS (nowNs s)) Reg.TIM_NOW_FRAC (nowFrac s)) := by
  simp only [execTimCapture, run, free, capture, Bool.not_true, Bool.false_eq_true, if_false]

end

/-- Settles O14: clause by clause, the meaning of the command on the path that the clause names; Announce has the one path of its
definition. -/
theorem theClockFollowsItsSource : Obligations.TheClockFollowsItsSource :=
  ⟨fun moving _ run => execServoUpdate_running moving run,
    fun _ _ small locked second => execFineQualify_qualified small locked second,
    fun _ _ _ cur good refused second => execRefusedSourceQualify_qualified cur good refused second,
    fun _ holds reached => execHoldoverLimit_reached holds reached,
    fun _ _ _ _ carries domain => execPtpMessageRx_ownDomain carries domain,
    fun s => execPtpSyncSend_management s,
    fun s => execPtpSyncSend_fabric s,
    fun _ _ => rfl,
    fun _ _ _ notPps silent => execAnnounceTimeout_silent notPps silent,
    fun _ _ rx back _ _ rec_ lane fabric ready fine => execFineTimeMarker_enabled rx back rec_ lane fabric ready fine,
    fun _ _ _ run free key accept cur refused => execTimAccept_refused run free key accept cur refused,
    fun _ _ run free key acquire => execTimAcquire_keyed run free key acquire,
    fun _ _ run free capture => execTimCapture_asked run free capture⟩

/-! ## The reference input (R199) -/

section
variable {s : State}

/-- The bound of a holdover that lasts grows at its old rate up to the instant at which the reference counts. -/
theorem execRefQualify_enabled (run : s.plat.running = true) (enabled : rb s Reg.TIM_REF_CFG F.TIM_REF_CFG_EN = true) :
    execRefQualify s = .next (
      let u := if timSt s = timHoldover then growBound s else s
      wf (tickFree { u with tim := { u.tim with refFreq := Config.refFreq u.free } }) Reg.TIM_STATUS F.TIM_STATUS_REF_OK 1) := by
  simp only [execRefQualify, run, enabled, Bool.not_true, Bool.false_eq_true, or_self, if_false]

theorem execRefLoss_qualified (qualified : rb s Reg.TIM_STATUS F.TIM_STATUS_REF_OK = true) :
    execRefLoss s = .next (timEvent (wf (if timSt s = timHoldover then growBound s else s) Reg.TIM_STATUS F.TIM_STATUS_REF_OK 0)
      F.TIM_EVT_REF_LOSS) := by
  simp only [execRefLoss, qualified, Bool.not_true, Bool.false_eq_true, if_false]

/-! ## The 1 PPS pins (R200, R201) -/

/-- A pulse of a valid width is captured as the start of the second in TIM_PPS_TOD, and makes the input a source of that offset. -/
theorem execPpsInEdge_valid {widthNs : Nat} (run : s.plat.running = true)
    (enabled : rb s Reg.TIM_PPS_CFG F.TIM_PPS_CFG_IN_EN = true) (long : 100 ≤ widthNs) (short : widthNs ≤ 900000000) :
    execPpsInEdge widthNs s = .next (
      let tod := rnHL s (Reg.TIM_PPS_TOD 0)
      let theta : Int := ((tod * secUnit : Nat) : Int) - s.clock
      let captured := wn (wn (wnHL s (Reg.TIM_PPS_IN_SEC 0) (nowSec s)) Reg.TIM_PPS_IN_NS (nowNs s)) Reg.TIM_PPS_IN_FRAC (nowFrac s)
      let u := wf (wnHL captured (Reg.TIM_PPS_TOD 0) ((tod + 1) % 2 ^ 64)) Reg.TIM_STATUS F.TIM_STATUS_PPS_OK 1
      let x := { u with tim := { u.tim with ppsAt := some s.clock } }
      modSource (heardAnnounce x 4 0 { ownDs x with clockClass := rf x Reg.TIM_PPS_CFG F.TIM_PPS_CFG_IN_CLASS }) 4 0
        (fun y => { y with ptp := some theta, theta := some theta })) := by
  simp only [execPpsInEdge, run, enabled, Nat.not_lt.mpr long, Nat.not_lt.mpr short, Bool.not_true, Bool.false_eq_true, or_self,
    if_false]

theorem execPpsLoss_due {since : Nat} (pulsed : s.tim.ppsAt = some since) (due : since + 3 * (secUnit / 2) ≤ s.clock) :
    execPpsLoss s = .next (sourceLost (timEvent (wf { s with tim := { s.tim with ppsAt := none } }
      Reg.TIM_STATUS F.TIM_STATUS_PPS_OK 0) F.TIM_EVT_PPS_LOSS) 4 0) := by
  simp only [execPpsLoss, pulsed, Nat.not_lt.mpr due, if_false]

end

/-- The last instant up to now that is a whole second plus OUT_OFS. -/
def ppsDue (s : State) : Nat :=
  let ofs := psUnits (signedOf 20 (rf s Reg.TIM_PPS_CFG F.TIM_PPS_CFG_OUT_OFS))
  (((s.clock : Int) - ofs) / secUnit * secUnit + ofs).toNat

/-- The output rises for an instant that is due and has not been pulsed, and stays high for what is left of its 100 ms. -/
theorem execPpsOutPulse_due {s : State} (run : s.plat.running = true) (enabled : rb s Reg.TIM_PPS_CFG F.TIM_PPS_CFG_OUT_EN = true)
    (unpulsed : s.tim.ppsOutAt < ppsDue s) (due : ppsDue s ≤ s.clock) :
    execPpsOutPulse s = .next (emit { s with
      tim := { s.tim with ppsOutAt := ppsDue s, ppsFall := ppsDue s + ppsHigh },
      pins := { s.pins with ppsOut := decide (s.clock < ppsDue s + ppsHigh) } } .ppsRise) := by
  have rises : ¬ ((!s.plat.running) = true ∨ (!rb s Reg.TIM_PPS_CFG F.TIM_PPS_CFG_OUT_EN) = true ∨ ppsDue s ≤ s.tim.ppsOutAt
      ∨ s.clock < ppsDue s) := by
    simp [run, enabled, Nat.not_le.mpr unpulsed, Nat.not_lt.mpr due]
  exact congrArg Host.Outcome.next (if_neg rises)

/-- Settles O15: clause by clause, the meaning of the command on the path that the clause names. -/
theorem theReferenceAndThePulses : Obligations.TheReferenceAndThePulses := by
  refine ⟨fun _ run enabled => execRefQualify_enabled run enabled, fun _ qualified => execRefLoss_qualified qualified,
    fun _ _ run enabled long short => execPpsInEdge_valid run enabled long short,
    fun _ _ pulsed since => execPpsLoss_due pulsed since, fun due s run enabled whole unpulsed reached => ?pulse⟩
  case pulse =>
    subst whole
    exact execPpsOutPulse_due run enabled unpulsed reached

/-! ## An empty queue (R185, R186; log 2) -/

section
variable {s : State}

theorem step_of_empty (empty : s.pending = []) : step s = .next (clockTick s) := by
  rw [step, empty]

/-- One nanosecond is 65,536 units, and the correction is kept in millionths of a unit. -/
theorem clockTick_running (run : s.plat.running = true) :
    clockTick s = (
      let added := s.tim.freqAcc + freqNow s
      let now := s.clock + (65536 + added / 1000000).toNat
      { s with clock := now, tim := { s.tim with freqAcc := added % 1000000 },
               pins := { s.pins with ppsOut := s.pins.ppsOut && decide (now < s.tim.ppsFall) } }) :=
  if_pos run

/-- With no correction and none left over from before, neither is any left for later. -/
theorem clockTick_uncorrected (run : s.plat.running = true) (noRest : s.tim.freqAcc = 0) (noCorrection : freqNow s = 0) :
    clockTick s = { s with
      clock := s.clock + 65536
      pins := { s.pins with ppsOut := s.pins.ppsOut && decide (s.clock + 65536 < s.tim.ppsFall) } } := by
  have sameRest : { s.tim with freqAcc := 0 } = s.tim := by rw [← noRest]
  have wholeUnits : (65536 + (0 : Int) / 1000000).toNat = 65536 := rfl
  simp only [clockTick_running run, noRest, noCorrection, add_zero, Int.zero_emod, wholeUnits, sameRest]

theorem clockTick_stopped (stopped : s.plat.running = false) : clockTick s = s :=
  if_neg (ne_true_of_eq_false stopped)

end

/-- Settles O38: a step on an empty queue is a tick of the clock, in each of its three cases. -/
theorem anEmptyQueueLetsOneNanosecondPass : Obligations.AnEmptyQueueLetsOneNanosecondPass := by
  refine ⟨fun s empty run => ?corrected, fun s empty run noRest noCorrection => ?uncorrected, fun s empty stopped => ?stopped⟩
  case corrected => rw [step_of_empty empty, clockTick_running run]
  case uncorrected => rw [step_of_empty empty, clockTick_uncorrected run noRest noCorrection]
  case stopped => rw [step_of_empty empty, clockTick_stopped stopped]

end Sys2Proof.Machine
end

section
/-! PROOF. Scheduled traffic: the gates of a port group in each of its states (R207, R210, R214), the tokens of the shapers (R217), and
the commands of gate lists and shaper rates (R207, R209, R211, R212, R217, R221), each on the path that its conditions choose. -/
namespace Sys2Proof.Machine

/-! ## Groups without an armed list (R210) -/

section
variable {s : State} {g : Nat} (unarmed : ¬ (pgSt s g = 2 ∨ pgSt s g = 3))
include unarmed

theorem gateList_unarmed : gateList s g = none := if_neg unarmed

/-- SCHED is the only class that is closed. -/
theorem gateOpenAt_unarmed (c t : Nat) : gateOpenAt s g c t = decide (c ≠ 5) := by
  rw [gateOpenAt, gateList_unarmed unarmed]
  exact decide_not.symm

theorem guardAt_unarmed (t : Nat) : guardAt s g t = false := by
  rw [guardAt, gateList_unarmed unarmed]

section
variable {p : Nat} (member : portGroup s p = g)
include member

/-- The state that `schedOpen` looks at is that of the port's group. -/
theorem schedOpen_unarmed : schedOpen s p = false := by
  subst member
  obtain ⟨notRunning, notChange⟩ := not_or.mp unarmed
  have closed : (pgSt s (portGroup s p) == 2 || pgSt s (portGroup s p) == 3) = false := by simp [notRunning, notChange]
  exact (congrArg (timReady s && ·) closed).trans (Bool.and_false _)

theorem newCredit_sched_unarmed : newCredit s p 5 = false := by
  simp [newCredit, schedOpen_unarmed unarmed member]

/-- The port is granted no adaptive credits of SCHED. -/
theorem grantClass_sched_unarmed : grantClass s p 5 = s := by
  simp [grantClass, mayGrant, newCredit_sched_unarmed unarmed member]

/-- The port is granted no allowance of SCHED. -/
theorem grantAllowance_sched_unarmed (vc : Nat) : grantAllowance s p vc 5 = s := by
  simp [grantAllowance, newCredit_sched_unarmed unarmed member]

end
end

/-! ## Groups with an armed list (R207, R214) -/

section
variable {s : State} {g : Nat} {k : GateGeom} (armed : pgSt s g = 2 ∨ pgSt s g = 3) (list : (pgOf s g).list = some k)
include armed list

theorem gateList_armed : gateList s g = some k := (if_pos armed).trans list

theorem gateOpenAt_armed (c t : Nat) :
    gateOpenAt s g c t = gOpen c (getAt 0 (geomEntries (pgOf s g) k) (entryAt (pgOf s g) k t).1) := by
  rw [gateOpenAt, gateList_armed armed list]

theorem guardAt_armed (t : Nat) : guardAt s g t = gGuard (getAt 0 (geomEntries (pgOf s g) k) (entryAt (pgOf s g) k t).1) := by
  rw [guardAt, gateList_armed armed list]

end

/-- Settles O54: a group has a list that gates it exactly in RUNNING and CHANGE. -/
theorem withoutAnArmedListOnlySchedIsClosed : Obligations.WithoutAnArmedListOnlySchedIsClosed := by
  refine ⟨fun s g c t state => ?unarmed,
    fun s g c t k armed list => ⟨gateOpenAt_armed armed list c t, guardAt_armed armed list t⟩⟩
  case unarmed =>
    have unarmed : ¬ (pgSt s g = 2 ∨ pgSt s g = 3) := by omega
    exact ⟨gateOpenAt_unarmed unarmed c t, guardAt_unarmed unarmed t, fun p member =>
      ⟨grantClass_sched_unarmed unarmed member, fun vc => grantAllowance_sched_unarmed unarmed member vc⟩⟩

/-! ## Shapers (R217) -/

/-- The shaper of another class, or of another lane, has another key. -/
theorem shapeKey_inj {l k lane c : Nat} (hk : k < 8) (hc : c < 8) : shapeKey l k = shapeKey lane c ↔ (l, k) = (lane, c) := by
  rw [Prod.mk.injEq, shapeKey, shapeKey]
  omega

theorem shapeOk_iff (s : State) (lane c : Nat) : shapeOk s lane c = true ↔ shapeRate s lane c = 0 ∨ 0 ≤ shapeNow s lane c := by
  rw [shapeOk, Bool.or_eq_true, beq_iff_eq, decide_eq_true_iff]

/-- TOKENS are stored at the present instant. -/
@[simp] theorem get_shapers_setTokens_same (d : Nat → Int × Nat) (s : State) (lane c : Nat) (n : Int) :
    SMap.get d (setTokens s lane c n).sch.shapers (shapeKey lane c) = (n, s.clock) :=
  SMap.get_ins_same d _ _ _

theorem get_shapers_setTokens_ne (d : Nat → Int × Nat) (s : State) {lane c l k : Nat} (n : Int) (hk : k < 8) (hc : c < 8)
    (other : (l, k) ≠ (lane, c)) :
    SMap.get d (setTokens s lane c n).sch.shapers (shapeKey l k) = SMap.get d s.sch.shapers (shapeKey l k) :=
  SMap.get_ins_ne d _ _ fun same => other ((shapeKey_inj hk hc).mp same.symm)

/-- A class that is not shaped has no tokens taken. -/
theorem shapeTake_unshaped {s : State} {lane c : Nat} (b : Nat) (unshaped : shapeRate s lane c = 0) : shapeTake s lane c b = s :=
  if_pos unshaped

theorem shapeTake_shaped {s : State} {lane c : Nat} (b : Nat) (shaped : shapeRate s lane c ≠ 0) :
    shapeTake s lane c b = setTokens s lane c (shapeNow s lane c - (b * shapeByte : Nat)) :=
  if_neg shaped

/-- Settles O55: a packet's bytes are taken by one `setTokens`, which writes its own shaper alone. -/
theorem shapersCountTokensExactly : Obligations.ShapersCountTokensExactly := by
  refine ⟨shapeOk_iff, fun s lane c b unshaped => shapeTake_unshaped b unshaped, fun s lane c b shaped => ?taken,
    fun s lane c b l k hk hc other => ?others, get_shapers_setTokens_same _⟩
  case taken =>
    rw [shapeTake_shaped b shaped, get_shapers_setTokens_same]
    rfl
  case others =>
    by_cases shaped : shapeRate s lane c = 0
    · rw [shapeTake_unshaped b shaped]
    · rw [shapeTake_shaped b shaped, get_shapers_setTokens_ne _ s _ hk hc other]

/-! ## Gate lists (R207, R209, R211, R212, R221) -/

/-- HELD is the first of the reasons of R211: a list that none refuses finds no triad held. -/
theorem held_of_armRefusal_none {s : State} {g : Nat} (allowed : armRefusal s g = none) : held s = false := by
  cases isHeld : held s with
  | false => rfl
  | true => simp [armRefusal, isHeld] at allowed

section
variable {pg : Fin 256} {s : State}

theorem execGateEntryStart_up (up : duneUp s (pg.val / 32) = true) : execGateEntryStart pg s = .next (runEntries s pg.val) :=
  congrArg Host.Outcome.next (if_pos up)

section
variable (up : winOk s (pg.val / 32) = true) {v : Word} (key : keyOk v = true)
include up key

/-- The inactive bank is armed: a group that runs a list is in CHANGE until BASE, any other in WAITING. -/
theorem execGateListArm_allowed (arm : wbit v 1 = true) (allowed : armRefusal s pg.val = none) :
    execGateListArm pg v s = .next (
      let u := setPg s pg.val { pgOf s pg.val with armed := some (armGeom s pg.val) }
      setPgResult (setPgSt u pg.val (if pgSt s pg.val = 2 then 3 else 1)) pg.val 1) := by
  simp only [execGateListArm, up, key, arm, allowed, held_of_armRefusal_none allowed, Bool.not_true, Bool.false_eq_true, or_self,
    if_false]

/-- At least 100 µs before BASE the armed bank is given up, and a running list goes on. -/
theorem execGateListCancel_early {a : GateGeom} (free : held s = false) (armed : (pgOf s pg.val).armed = some a)
    (cancel : wbit v 2 = true) (early : s.clock + 100 * usUnit ≤ a.base) :
    execGateListCancel pg v s = .next (
      let u := setPg s pg.val { pgOf s pg.val with armed := none }
      setPgResult (setPgSt u pg.val (if pgSt s pg.val = 3 then 2 else 0)) pg.val 7) := by
  simp only [execGateListCancel, up, free, armed, key, cancel, Nat.not_lt.mpr early, Bool.not_true, Bool.false_eq_true, or_self,
    if_false]

/-- From any state the group goes to NONE with both banks empty. -/
theorem execGateListDisable_free (free : held s = false) (disable : wbit v 3 = true) :
    execGateListDisable pg v s = .next (
      setPgSt (setPg s pg.val { pgOf s pg.val with list := none, armed := none, bank0 := [], bank1 := [], cycles := 0 }) pg.val 0) := by
  simp only [execGateListDisable, up, free, key, disable, Bool.not_true, Bool.false_eq_true, or_self, if_false]

end

section
variable (up : duneUp s (pg.val / 32) = true)
include up

/-- The list takes effect before the credits that it opens are granted. -/
theorem execGateBaseReached_due {a : GateGeom} (armed : (pgOf s pg.val).armed = some a) (due : a.base ≤ s.clock)
    (waits : pgSt s pg.val = 1 ∨ pgSt s pg.val = 3) :
    execGateBaseReached pg s = .next (grantGroup (gateTakeEffect s pg.val) pg.val) := by
  simp [execGateBaseReached, armed, Nat.not_lt.mpr due, waits, up]

/-- From its resumption on the list runs its entries, none of them twice, and the group's credits are granted again. -/
theorem execGateListResume_due {k : GateGeom} (list : (pgOf s pg.val).list = some k) (suspended : pgSt s pg.val = 4)
    (ready : timReady s = true) (due : resumeAt s pg.val k ≤ s.clock) :
    execGateListResume pg s = .next (
      let at_ := resumeAt s pg.val k
      let u := setPg s pg.val { pgOf s pg.val with runsSince := at_, doneTo := max at_ (pgOf s pg.val).doneTo }
      grantGroup (runEntries (setPgSt u pg.val 2) pg.val) pg.val) := by
  simp [execGateListResume, list, suspended, ready, Nat.not_lt.mpr due, up]

end
end

/-! ## The gate list window and shaper rates (R207, R217) -/

section
variable {d : Fin 8} {s : State} (up : winOk s d.val = true) (free : held s = false)
include up free

/-- A word for a bank that no list uses is stored at INDEX, which moves on. -/
theorem execGateListDataWrite_idle {w : Word} (idle : bankBusy s (glGroup s d.val) (glBank s d.val) = false) :
    execGateListDataWrite d (some w) s = .next (
      wf (glStore s d.val w) (Reg.SCH_GL_SEL d.val) F.SCH_GL_SEL_INDEX ((glIndex s d.val + 1) % 4096)) := by
  simp only [execGateListDataWrite, up, free, idle, Bool.not_true, Bool.false_eq_true, if_false]

/-- A write of RATE fills the shaper: TOKENS is BURST. -/
theorem execShaperRateWrite_free (k : Fin 256) (c : Fin 8) (v : Word) :
    execShaperRateWrite d k c v s = .next (
      let lane := d.val * 256 + k.val
      let u := softWrite s (Reg.SCH_SHP_RATE d.val k.val c.val) v
      setTokens u lane c.val (shapeBurst u lane c.val * shapeByte : Nat)) := by
  simp only [execShaperRateWrite, up, free, Bool.not_true, Bool.false_eq_true, if_false]

end

/-- Settles O12: clause by clause, the meaning of the command on the path that the clause names. -/
theorem gateListsAndShapers : Obligations.GateListsAndShapers := by
  refine ⟨fun pg s up => execGateEntryStart_up up,
    fun pg v s up key arm allowed => execGateListArm_allowed up key arm allowed,
    fun pg v a s up free armed key cancel early => execGateListCancel_early up key free armed cancel early,
    fun pg v s up free key disable => execGateListDisable_free up key free disable,
    fun pg a s armed due waiting up => execGateBaseReached_due up armed due (.inl waiting),
    fun pg k s list suspended ready due up => execGateListResume_due up list suspended ready due,
    fun d w x s up written free idle => ?store,
    fun d k c v s up free => execShaperRateWrite_free up free k c v⟩
  case store =>
    subst written
    exact execGateListDataWrite_idle up free idle

end Sys2Proof.Machine
end

section
/-! PROOF. The long accumulator takes its contributions in any order (R227, R250 to R252), and the phase-1 tasks of a kernel command
divide its elements (R224, R231). -/
namespace Sys2Proof.Machine

/-! ## Values that an accumulator holds -/

/-- The magnitude of a finite value, in units of 2^-149; a special value has none. -/
def xMag : XVal → Nat
  | .fin n => n.natAbs
  | _ => 0

/-- The exact sum of two values (R251): a NaN stays, and so does an infinity unless it meets the other one. -/
def xSum : XVal → XVal → XVal
  | .nan, _ => .nan
  | _, .nan => .nan
  | .fin m, .fin n => .fin (m + n)
  | .fin _, y => y
  | y, .fin _ => y
  | y, z => if y = z then y else .nan

/-- What an accumulator that holds `a` combines with `x` to under an operation, as long as no sum leaves the range of VALUE. -/
def xCombine (op : Nat) (a x : XVal) : XVal :=
  if x = .nan ∨ a = .nan then .nan
  else if op = 1 then (if xLe x a then a else x)
  else if op = 2 then (if xLe a x then a else x)
  else xSum a x

@[simp] theorem accVal_accOf (x : XVal) : accVal (accOf x) = x := by cases x <;> rfl
@[simp] theorem empty_accOf (x : XVal) : (accOf x).empty = false := by cases x <;> rfl

theorem accFits_of_natAbs_lt {n : Int} (small : n.natAbs < 2 ^ 315) : accFits n = true := by
  have limit : (2 ^ 315 : Int) = ((2 ^ 315 : Nat) : Int) := (Nat.cast_pow 2 315).symm
  rw [accFits, limit, decide_eq_true_eq]
  generalize 2 ^ 315 = k at small ⊢
  omega

/-! ## The order of two contributions -/

/-- The place of a value in the order of R251, with NaN at a place of its own beyond one end. -/
def xRank (nan : Int) : XVal → Int ×ₗ Int
  | .ninf => toLex (-1, 0)
  | .fin n => toLex (0, n)
  | .pinf => toLex (1, 0)
  | .nan => toLex (nan, 0)

theorem xRank_injective {k : Int} (beyond : 1 < k.natAbs) : Function.Injective (xRank k) := by
  intro a b same
  cases a <;> cases b <;> simp_all [xRank] <;> omega

theorem xLe_iff_xRank_le (k : Int) {a b : XVal} (ha : a ≠ .nan) (hb : b ≠ .nan) : xLe a b = true ↔ xRank k a ≤ xRank k b := by
  cases a <;> cases b <;> simp_all [xLe, xRank, Prod.Lex.toLex_le_toLex]

theorem xRank_le_two (a : XVal) : xRank 2 a ≤ xRank 2 .nan := by
  cases a <;> simp [xRank, Prod.Lex.toLex_le_toLex]

theorem xRank_neg_two_le (a : XVal) : xRank (-2) .nan ≤ xRank (-2) a := by
  cases a <;> simp [xRank, Prod.Lex.toLex_le_toLex]

/-- The maximum keeps the value of the higher place; NaN lies above all. -/
theorem xRank_xCombine_max (a x : XVal) : xRank 2 (xCombine 1 a x) = max (xRank 2 a) (xRank 2 x) := by
  by_cases nan : x = .nan ∨ a = .nan
  · obtain rfl | rfl := nan <;> simp [xCombine, xRank_le_two]
  · obtain ⟨hx, ha⟩ := not_or.mp nan
    by_cases le : xLe x a = true
    · simp [xCombine, hx, ha, le, (xLe_iff_xRank_le 2 hx ha).mp le]
    · have lt := not_le.mp (le ∘ (xLe_iff_xRank_le 2 hx ha).mpr)
      simp [xCombine, hx, ha, le, lt.le]

/-- The minimum keeps the value of the lower place; NaN lies below all. -/
theorem xRank_xCombine_min (a x : XVal) : xRank (-2) (xCombine 2 a x) = min (xRank (-2) a) (xRank (-2) x) := by
  by_cases nan : x = .nan ∨ a = .nan
  · obtain rfl | rfl := nan <;> simp [xCombine, xRank_neg_two_le]
  · obtain ⟨hx, ha⟩ := not_or.mp nan
    by_cases le : xLe a x = true
    · simp [xCombine, hx, ha, le, (xLe_iff_xRank_le (-2) ha hx).mp le]
    · have lt := not_le.mp (le ∘ (xLe_iff_xRank_le (-2) ha hx).mpr)
      simp [xCombine, hx, ha, le, lt.le]

theorem xSum_comm (a b : XVal) : xSum a b = xSum b a := by
  cases a <;> cases b <;> simp [xSum, Int.add_comm]

theorem xSum_right_comm (a x y : XVal) : xSum (xSum a x) y = xSum (xSum a y) x := by
  cases a <;> cases x <;> cases y <;> simp [xSum, Int.add_right_comm]

theorem xCombine_sum {op : Nat} (h1 : op ≠ 1) (h2 : op ≠ 2) (a x : XVal) : xCombine op a x = xSum a x := by
  cases a <;> cases x <;> simp [xCombine, xSum, h1, h2]

/-- Maximum and minimum by the places of the values, the sum by its cases. -/
theorem xCombine_right_comm (op : Nat) (a x y : XVal) : xCombine op (xCombine op a x) y = xCombine op (xCombine op a y) x := by
  by_cases h1 : op = 1
  · subst h1
    apply xRank_injective (k := 2) (by decide)
    simp only [xRank_xCombine_max, max_right_comm]
  by_cases h2 : op = 2
  · subst h2
    apply xRank_injective (k := -2) (by decide)
    simp only [xRank_xCombine_min, min_right_comm]
  · simp only [xCombine_sum h1 h2, xSum_right_comm]

/-- The two orders of two contributions combine alike, by the same cases. -/
theorem xCombine_comm (op : Nat) (a x : XVal) : xCombine op a x = xCombine op x a := by
  by_cases h1 : op = 1
  · subst h1
    apply xRank_injective (k := 2) (by decide)
    simp only [xRank_xCombine_max, max_comm]
  by_cases h2 : op = 2
  · subst h2
    apply xRank_injective (k := -2) (by decide)
    simp only [xRank_xCombine_min, min_comm]
  · simp only [xCombine_sum h1 h2, xSum_comm]

theorem xMag_xSum_le (a x : XVal) : xMag (xSum a x) ≤ xMag a + xMag x := by
  cases a <;> cases x <;> simp [xSum, xMag, Int.natAbs_add_le]

theorem xMag_xCombine_le (op : Nat) (a x : XVal) : xMag (xCombine op a x) ≤ xMag a + xMag x := by
  unfold xCombine
  have sum := xMag_xSum_le a x
  have nan : xMag .nan = 0 := rfl
  split_ifs <;> omega

/-! ## Contributions from EMPTY on -/

/-- An accumulator that is EMPTY or holds a value. -/
def accHeld : Option XVal → Acc
  | none => accEmpty
  | some x => accOf x

/-- What is held after one more contribution: the first is taken as it is. -/
def heldWith (op : Nat) (o : Option XVal) (x : XVal) : Option XVal := some (o.elim x (xCombine op · x))

theorem heldWith_right_comm (op : Nat) (o : Option XVal) (x y : XVal) :
    heldWith op (heldWith op o x) y = heldWith op (heldWith op o y) x := by
  cases o with
  | none => exact congrArg some (xCombine_comm op x y)
  | some a => exact congrArg some (xCombine_right_comm op a x y)

theorem accAdd_accEmpty (op : Nat) {x : XVal} (small : xMag x < 2 ^ 315) : (accAdd op accEmpty x).1 = accOf x := by
  cases x with
  | fin n => simp [accAdd, accEmpty, accVal, accFits_of_natAbs_lt (n := n) small]
  | _ => simp [accAdd, accEmpty, accVal]

/-- What a sum that does not overflow leaves. -/
theorem accAdd_accOf_sum {op : Nat} (h1 : op ≠ 1) (h2 : op ≠ 2) {a x : XVal} (small : xMag a + xMag x < 2 ^ 315) :
    (accAdd op (accOf a) x).1 = accOf (xSum a x) := by
  cases a with
  | fin m => cases x with
    | fin n =>
      have fits : accFits (m + n) = true := accFits_of_natAbs_lt ((Int.natAbs_add_le m n).trans_lt small)
      simp [accAdd, h1, h2, xSum, fits]
    | _ => simp [accAdd, h1, h2, xSum]
  | _ => cases x <;> simp [accAdd, h1, h2, xSum]

/-- Without an overflow the accumulator holds the exact combination. -/
theorem accAdd_accOf (op : Nat) {a x : XVal} (small : xMag a + xMag x < 2 ^ 315) : (accAdd op (accOf a) x).1 = accOf (xCombine op a x) := by
  by_cases h1 : op = 1
  · subst h1
    simp only [accAdd, xCombine, accVal_accOf, empty_accOf, Bool.false_eq_true, if_false, if_true]
    split_ifs <;> rfl
  by_cases h2 : op = 2
  · subst h2
    simp only [accAdd, xCombine, accVal_accOf, empty_accOf, Bool.false_eq_true, if_false, if_true, h1]
    split_ifs <;> rfl
  · rw [xCombine_sum h1 h2, accAdd_accOf_sum h1 h2 small]

/-- One contribution, as long as the magnitudes together stay inside the range of VALUE. -/
theorem accAdd_accHeld (op : Nat) {o : Option XVal} {x : XVal} (small : o.elim 0 xMag + xMag x < 2 ^ 315) :
    (accAdd op (accHeld o) x).1 = accHeld (heldWith op o x) := by
  cases o with
  | none => exact accAdd_accEmpty op ((Nat.le_add_left _ _).trans_lt small)
  | some a => exact accAdd_accOf op small

theorem xMag_heldWith_le (op : Nat) (o : Option XVal) (x : XVal) : (heldWith op o x).elim 0 xMag ≤ o.elim 0 xMag + xMag x := by
  cases o with
  | none => simp [heldWith]
  | some a => exact xMag_xCombine_le op a x

/-- All contributions in their order: the accumulator holds their combination, for no partial one overflows. -/
theorem foldl_accAdd_accHeld (op : Nat) (xs : List XVal) {o : Option XVal} (small : o.elim 0 xMag + (xs.map xMag).sum < 2 ^ 315) :
    xs.foldl (fun a x => (accAdd op a x).1) (accHeld o) = accHeld (xs.foldl (heldWith op) o) := by
  induction xs generalizing o with
  | nil => rfl
  | cons x xs ih =>
    rw [List.map_cons, List.sum_cons, ← Nat.add_assoc] at small
    rw [List.foldl_cons, List.foldl_cons, accAdd_accHeld op ((Nat.le_add_right _ _).trans_lt small)]
    exact ih ((Nat.add_le_add_right (xMag_heldWith_le op o x) _).trans_lt small)

/-- Settles O57: both orders hold the same combination, since contributions commute and none of the sums overflows. -/
theorem theOrderOfContributionsDoesNotMatter : Obligations.TheOrderOfContributionsDoesNotMatter := by
  intro op xs ys perm bound
  have small : (none : Option XVal).elim 0 xMag + (xs.map xMag).sum < 2 ^ 315 := by
    rw [Option.elim_none, Nat.zero_add, List.sum_eq_foldl_nat]
    exact bound
  have small' : (none : Option XVal).elim 0 xMag + (ys.map xMag).sum < 2 ^ 315 := (perm.map xMag).sum_eq ▸ small
  calc xs.foldl (fun a x => (accAdd op a x).1) accEmpty
    _ = accHeld (xs.foldl (heldWith op) none) := foldl_accAdd_accHeld op xs small
    _ = accHeld (ys.foldl (heldWith op) none) :=
      congrArg accHeld (perm.foldl_eq' (fun x _ y _ o => heldWith_right_comm op o x y) none)
    _ = ys.foldl (fun a x => (accAdd op a x).1) accEmpty := (foldl_accAdd_accHeld op ys small').symm

/-! ## Tasks of a kernel command (R224, R231) -/

theorem base_kernelTask (s : State) (r : KRun) (phase i : Nat) : (kernelTask s r phase i).base = 512 * i := rfl

theorem count_kernelTask_one (s : State) (r : KRun) (i : Nat) : (kernelTask s r 1 i).count = min 512 (dCount r.desc - 512 * i) := rfl

/-- An element lies in a phase-1 task of its command exactly where it lies in that task's 512 elements. -/
theorem in_kernelTask_one_iff (s : State) (r : KRun) {e : Nat} (inside : e < dCount r.desc) (i : Nat) :
    (kernelTask s r 1 i).base ≤ e ∧ e < (kernelTask s r 1 i).base + (kernelTask s r 1 i).count ↔ e / 512 = i := by
  rw [base_kernelTask, count_kernelTask_one]
  omega

/-- Settles O56: task `i` takes the elements from `512 * i` on, so that element `e` lies in task `e / 512` alone. -/
theorem phaseOneTasksCoverEachElementOnce : Obligations.PhaseOneTasksCoverEachElementOnce := by
  intro s r
  have inRun_iff (i : Nat) : i < runSegs r ↔ 512 * i < dCount r.desc := by
    unfold runSegs
    omega
  refine ⟨rfl, fun i inRun => ?tasks, fun e inside => ⟨e / 512, ⟨?inRun, (in_kernelTask_one_iff s r inside _).mpr rfl⟩,
    fun j _ first last => ((in_kernelTask_one_iff s r inside j).mp ⟨first, last⟩).symm⟩⟩
  case tasks =>
    have begins := (inRun_iff i).mp inRun
    have asMin : Nat.min (dCount r.desc) (512 * i + 512) = min (dCount r.desc) (512 * i + 512) := rfl
    rw [base_kernelTask, count_kernelTask_one, asMin]
    refine ⟨rfl, ?_, ?_, ?_, rfl⟩ <;> omega
  case inRun =>
    rw [inRun_iff]
    omega

end Sys2Proof.Machine
end

section
/-! PROOF. The instructions of a Barchan engine (spec/10: Table 10.3): each by what it does to the task that issues it. -/
namespace Sys2Proof.Machine

/-! ## Issue (R224, R229) -/

section
variable {s : State} {g w : Nat} {sl : Bool} {c c' : TaskCtx} {i : TaskInfo} {f : TaskInfo → TaskCtx → UStep}

/-- A command that issues an instruction after which the task goes on. -/
theorem next_issue_goes (h : Issues s g w sl c i) (e : f i c = .go c') :
    (.next (issue s g w f) : Host.Outcome State Fault Refusal) = .next (goesOn s g sl c') :=
  congrArg Host.Outcome.next (issue_goes h e)

/-- Without an upset the residue check changes nothing. -/
theorem checkedIssue_fine : checkedIssue s g w false f = issue s g w f := rfl

/-- Where no check finds anything, ACC is an instruction like the others. -/
theorem accIssue_fine {m row imm : Nat} (h : Issues s g (uwMk 0x10 0 0 0 m row imm) sl c i) :
    accIssue s g m row imm .fine = issue s g (uwMk 0x10 0 0 0 m row imm) (fun i => uAcc s i m row imm) := by
  obtain ⟨_, slot, task, _⟩ := h
  simp only [accIssue, slot, task, true_or, if_true]

end

/-! ## Control and scalars -/

section
variable {c : TaskCtx}

theorem uEnd_zero {imm : Nat} (zero : imm % 256 = 0) : uEnd imm c = .go { c with ending := true } := if_pos zero

/-- BR with M = 2 is taken where its register is not 0. -/
theorem uBr_notZero {a imm : Nat} (notZero : sReg c a ≠ 0) : uBr a 2 imm c = .go (branchTo c imm) :=
  congrArg UStep.go (if_pos (bne_iff_ne.mpr notZero))

theorem uLoop_goesOn {d imm : Nat} (left : sReg (setS c d (sReg c d + (2 ^ 64 - 1))) d ≠ 0) :
    uLoop d imm c = .go (branchTo (setS c d (sReg c d + (2 ^ 64 - 1))) imm) :=
  congrArg UStep.go (if_neg left)

theorem uCall_room {imm : Nat} (room : c.stack.length < 8) :
    uCall imm c = .go (branchTo { c with stack := ((c.pc + 1) % 2048) :: c.stack } imm) :=
  if_neg (Nat.not_le.mpr room)

theorem uRet_cons {p : Nat} {rest : List Nat} (stack : c.stack = p :: rest) : uRet c = .go { c with pc := p, stack := rest } := by
  rw [uRet, stack]

theorem uSync_idle (idle : c.loads = []) : uSync c = .go (stepPc c) :=
  if_pos (List.isEmpty_iff.mpr idle)

end

/-- Settles O23: each clause by what its instruction does to the task. -/
theorem microcodeControlAndScalars : Obligations.MicrocodeControlAndScalars := by
  refine ⟨fun _ _ _ _ _ h => next_issue_goes h rfl, fun _ _ _ _ _ _ h zero => next_issue_goes h (uEnd_zero zero), ?br,
    fun _ _ _ _ _ _ _ h left => next_issue_goes h (uLoop_goesOn left),
    fun _ _ _ _ _ _ h room => next_issue_goes h (uCall_room room),
    fun _ _ _ _ _ _ _ h stack => next_issue_goes h (uRet_cons stack),
    fun _ _ _ _ _ _ h => congrArg Host.Outcome.next (issue_faults h rfl),
    fun _ _ _ _ _ h idle => next_issue_goes h (uSync_idle idle),
    fun _ _ _ _ _ _ h => next_issue_goes h rfl, fun _ _ _ _ _ _ h => next_issue_goes h rfl,
    fun _ _ _ _ _ _ _ h => next_issue_goes h rfl, fun _ _ _ _ _ _ _ h => next_issue_goes h rfl,
    fun _ _ _ _ _ _ _ _ _ h => next_issue_goes h rfl, fun _ _ _ _ _ _ _ _ h => next_issue_goes h rfl,
    fun _ _ _ _ _ _ _ _ h => next_issue_goes h rfl, ?slog, fun _ _ _ _ _ _ _ h => next_issue_goes h rfl, ?scmp⟩
  case br =>
    rintro g a _ imm sl c i s h rfl notZero
    exact next_issue_goes h (uBr_notZero notZero)
  case slog =>
    rintro g d a b _ imm sl c i s h rfl
    exact next_issue_goes h rfl
  case scmp =>
    rintro g d a b _ sl c i s h rfl
    exact next_issue_goes h rfl

/-! ## Accumulators, input and output -/

section
variable {s : State} {i : TaskInfo} {c : TaskCtx}

/-- ACC of one input: the rows take its values from the task's place on, a residual record under sum. -/
theorem uAcc_oneInput {m row imm : Nat} {x : InSrc} (span : uwSpanOk row imm = true) (one : bitAt imm 7 = false)
    (input : curInput c 0 = some x) :
    uAcc s i m row imm c = .go (stepPc { (List.range (imm % 32 + 1)).foldl (fun u j =>
      accRow (if isResid x then 0 else accOp c imm) (srcVals s c.task i m x) (u.pos + 32 * j) (row + j) u) c with
      pos := c.pos + 32 * (imm % 32 + 1) }) := by
  simp only [uAcc, span, one, input, Bool.not_true, Bool.false_and, Bool.false_eq_true, if_false]

theorem uAccv_span {a m row imm : Nat} (span : uwSpanOk row imm = true) :
    uAccv a m row imm c = .go (stepPc (accRow (accOp c imm)
      ((vReg c a).map (fun w => accOf (if m % 2 = 1 then .fin (i32 w * 2 ^ 149) else xOfFp w))) 0 row c)) := by
  simp only [uAccv, span, Bool.not_true, Bool.false_eq_true, if_false]

theorem uAclr_span {row imm : Nat} (span : uwSpanOk row imm = true) :
    uAclr row imm c = .go (stepPc { c with
      acc := SMap.drop (fun k => decide (row * 32 ≤ k ∧ k < (row + imm % 32 + 1) * 32)) c.acc }) := by
  simp only [uAclr, span, Bool.not_true, Bool.false_eq_true, if_false]

theorem uOutr_span {m row imm : Nat} (span : uwSpanOk row imm = true) (round : imm / 32 % 4 ≠ 3) :
    uOutr i m row imm c = .go (stepPc (queueRows i false m imm
      ((List.range (imm % 32 + 1)).map (fun j => (List.range 32).map (fun l => accVal (accAt c (row + j) l)))) c)) := by
  simp only [uOutr, span, beq_eq_false_iff_ne.mpr round, Bool.not_true, Bool.or_self, Bool.false_eq_true, if_false]

theorem uOutv_round {a m imm : Nat} (round : imm / 32 % 4 ≠ 3) :
    uOutv i a m imm c = .go (stepPc (queueRows i true m imm [(vReg c a).map xOfFp] c)) := by
  simp only [uOutv, beq_eq_false_iff_ne.mpr round, Bool.false_eq_true, if_false]

/-- INLD with M = 0 reads the input's values as FP32 words. -/
theorem uInld_words {d : Nat} {x : InSrc} (input : curInput c 0 = some x) :
    uInld s i d 0 c = .go (stepPc { setV c d ((List.range 32).map (fun l =>
      (((srcVals s c.task i 63 x).map (fun r => fpOfX (accVal r)))[c.pos + l]?).getD (Config.vecFree 0x15 (c.pos + l) 0))) with
      pos := c.pos + 32 }) := by
  simp only [uInld, input, List.map_id', Nat.zero_mod, Nat.zero_ne_one, false_and, if_false]

end

/-- Settles O24: each clause by what its instruction does to the task. -/
theorem microcodeAccumulatorsAndOutput : Obligations.MicrocodeAccumulatorsAndOutput := by
  refine ⟨?acc, ?accv, fun _ _ _ _ _ _ _ h span => next_issue_goes h (uAclr_span span),
    fun _ _ _ _ _ _ _ _ h span round => next_issue_goes h (uOutr_span span round),
    fun _ _ _ _ _ _ _ _ h round => next_issue_goes h (uOutv_round round), ?inld⟩
  case acc =>
    rintro g m row imm _ sl c i x s h span one rfl input
    exact congrArg (Host.Outcome.next ∘ showGroup) ((accIssue_fine h).trans (issue_goes h (uAcc_oneInput span one input)))
  case accv =>
    rintro g a m row imm _ sl c i s h span rfl
    exact next_issue_goes h (uAccv_span span)
  case inld =>
    rintro g d _ sl c i x s h rfl input
    exact next_issue_goes h (uInld_words input)

/-! ## Vectors -/

section
variable {c : TaskCtx}

/-- A lane-wise operation with M = 0 is the FP32 one. -/
theorem vBin_fp {fp int : Nat → Nat → Nat} {d a b : Nat} :
    vBin 0 fp int d a b c = .go (stepPc (setV c d (List.zipWith fp (vReg c a) (vReg c b)))) := rfl

theorem uVfma_fp {d a b : Nat} : uVfma d a b 0 c =
    .go (stepPc (setV c d (((vReg c a).zip ((vReg c b).zip (vReg c d))).map (fun p => fpFma p.1 p.2.1 p.2.2)))) := by
  simp only [uVfma, Nat.zero_mod, Nat.zero_ne_one, if_false]

theorem uVmxn_intMax {d a b : Nat} : uVmxn d a b 1 c =
    .go (stepPc (setV c d (List.zipWith (fun x y => if (i32 x < i32 y) = false then x else y) (vReg c a) (vReg c b)))) := rfl

/-- VRED with M = 2 gives the lane of the maximum. -/
theorem uVred_maxLane {d a : Nat} (noNan : (vReg c a).any fpNan = false) :
    uVred d a 2 c = .go (stepPc (setS c d (bestLane false (vReg c a)))) := by
  simp [uVred, noNan]

theorem uVsrt_noNan {d a b : Nat} (noNan : (vReg c a).any fpNan = false) :
    uVsrt d a b c =
      .go (stepPc (setV (setV c d ((((vReg c a).zip (vReg c b)).foldl (fun r p => insertDesc p r) []).map (·.1))) ((d + 1) % 16)
        ((((vReg c a).zip (vReg c b)).foldl (fun r p => insertDesc p r) []).map (·.2)))) := by
  simp only [uVsrt, noNan, Bool.false_eq_true, if_false]

end

/-- Settles O25: each clause by what its instruction does to the task. -/
theorem microcodeVectors : Obligations.MicrocodeVectors := by
  refine ⟨?vadd, ?vsub, ?vmul, ?vfma, fun _ _ _ _ _ _ _ _ h => next_issue_goes h rfl, fun _ _ _ _ _ _ _ h => next_issue_goes h rfl,
    ?vmxn, fun _ _ _ _ _ _ _ _ _ h => next_issue_goes h rfl, fun _ _ _ _ _ _ _ _ _ h => next_issue_goes h rfl,
    fun _ _ _ _ _ _ _ _ h => next_issue_goes h rfl, ?vred, ?vcvt, fun _ _ _ _ _ _ _ h => next_issue_goes h rfl, ?vlog,
    fun _ _ _ _ _ _ _ h => next_issue_goes h rfl, fun _ _ _ _ _ _ _ _ h noNan => next_issue_goes h (uVsrt_noNan noNan), ?vmov⟩
  case vred =>
    rintro g d a _ sl c i s h rfl noNan
    exact next_issue_goes h (uVred_maxLane noNan)
  case vadd | vsub | vmul =>
    rintro g d a b _ sl c i s h rfl
    exact next_issue_goes h vBin_fp
  case vfma =>
    rintro g d a b _ sl c i s h rfl
    exact next_issue_goes h uVfma_fp
  case vmxn =>
    rintro g d a b _ sl c i s h rfl
    exact next_issue_goes h uVmxn_intMax
  case vcvt | vmov =>
    rintro g d a _ sl c i s h rfl
    exact next_issue_goes h rfl
  case vlog =>
    rintro g d a b _ imm sl c i s h rfl
    exact next_issue_goes h rfl

/-! ## Scratch and Oasis -/

section
variable {c : TaskCtx}

theorem uLds_inRange {d a imm : Nat} (inRange : scratchOk (sReg c a + imm) 128 = true) :
    uLds d a imm c = .go (stepPc (setV c d ((List.range 32).map (fun l => beNat (scratchRead c (sReg c a + imm + 4 * l) 4))))) := by
  simp only [uLds, inRange, Bool.not_true, Bool.false_eq_true, if_false]

theorem uSts_inRange {a b imm : Nat} (inRange : scratchOk (sReg c b + imm) 128 = true) :
    uSts a b imm c = .go (stepPc (scratchWrite c (sReg c b + imm) ((vReg c a).flatMap (natBe 4)))) := by
  simp only [uSts, inRange, Bool.not_true, Bool.false_eq_true, if_false]

section
variable {a row imm : Nat} (span : uwSpanOk row imm = true) (inRange : scratchOk (sReg c a) (1280 * (imm % 32 + 1)) = true)
include span inRange

theorem uAsv_inRange : uAsv a row imm c = .go (stepPc (scratchWrite c (sReg c a)
    ((List.range (imm % 32 + 1)).flatMap (fun j => (List.range 32).flatMap (fun l => accBytes (accAt c (row + j) l)))))) := by
  simp only [uAsv, span, inRange, Bool.not_true, Bool.false_eq_true, if_false]

/-- ARS with M = 0 replaces the accumulators by those of scratch. -/
theorem uArs_replace : uArs a 0 row imm c = .go (stepPc ((List.range (imm % 32 + 1)).foldl (fun u j =>
    (List.range 32).foldl (fun w l => setAcc w (row + j) l (accOfBytes (scratchRead c (sReg c a + 1280 * j + 40 * l) 40))) u) c)) := by
  simp [uArs, span, inRange]

end

section
variable {s : State} {i : TaskInfo} {d a b : Nat} (short : sReg c d ≤ 4096) (inScratch : scratchOk (sReg c b) (sReg c d) = true)
  (inSpace : outsideSpace s i.part (sReg c a) (sReg c d) = false)
include short inScratch inSpace

theorem uOld_inRange (room : c.loads.length < 8) :
    uOld s i d a b c = .go (stepPc { c with loads := c.loads ++ [(sReg c b, sReg c a, sReg c d)] }) := by
  simp only [uOld, Nat.not_lt.mpr short, Nat.not_le.mpr room, inScratch, inSpace, Bool.not_true, Bool.false_eq_true, if_false]

theorem uOst_inRange (room : c.stores.length < 16) :
    uOst s i d a b c = .go (stepPc { c with stores := c.stores ++ [(sReg c b, sReg c a, sReg c d)] }) := by
  simp only [uOst, Nat.not_lt.mpr short, Nat.not_le.mpr room, inScratch, inSpace, Bool.not_true, Bool.false_eq_true, or_self, if_false]

end

theorem uHst_lanes {a b : Nat} {u : TaskCtx} (lanes : hstLanes (sReg c b) (vReg c a) c = some u) : uHst a b c = .go (stepPc u) := by
  rw [uHst, lanes]

end

/-- An outstanding load that meets no error moves its bytes to scratch (R226). -/
theorem execOldComplete_good {g : Fin 4096} {sl : Bool} {c : TaskCtx} {s : State} (runs : workStopped s = false)
    (slot : issuingSlot (engOf s g) = some sl) (task : slotOf (engOf s g) sl = some c) (outstanding : c.loads ≠ []) :
    execOldComplete g false s = .next (goesOn s g sl (loadDone s (engPart s g) c)) := by
  simp only [execOldComplete, runs, slot, task, List.isEmpty_eq_false_iff.mpr outstanding, Bool.false_and, Bool.false_eq_true, if_false]

/-- Settles O26: each clause by what its instruction does to the task. -/
theorem microcodeScratchAndOasis : Obligations.MicrocodeScratchAndOasis := by
  refine ⟨fun _ _ _ _ _ _ _ _ h inRange => next_issue_goes h (uLds_inRange inRange),
    fun _ _ _ _ _ _ _ _ h inRange => next_issue_goes h (uSts_inRange inRange),
    fun _ _ _ _ _ _ _ _ h span inRange => next_issue_goes h (uAsv_inRange span inRange), ?ars,
    fun _ _ _ _ _ _ _ _ h room short inScratch inSpace => next_issue_goes h (uOld_inRange short inScratch inSpace room),
    fun _ _ _ _ _ _ _ _ h room short inScratch inSpace => next_issue_goes h (uOst_inRange short inScratch inSpace room), ?hst, ?load⟩
  case ars =>
    rintro g a _ row imm upset sl c i s h span inRange rfl
    have unchecked : (upset && (0 : Fin 64).val % 2 == 1) = false := Bool.and_false upset
    change Host.Outcome.next (checkedIssue s g _ (upset && (0 : Fin 64).val % 2 == 1) _) = _
    rw [unchecked, checkedIssue_fine]
    exact next_issue_goes h (uArs_replace span inRange)
  case hst =>
    intro g a b sl c i s h lanes
    obtain ⟨u, lanes⟩ := Option.isSome_iff_exists.mp lanes
    exact ⟨_, next_issue_goes h (uHst_lanes lanes), u, lanes, rfl⟩
  case load =>
    rintro g _ sl c s runs slot task outstanding rfl
    exact execOldComplete_good runs slot task outstanding

end Sys2Proof.Machine
end

section
/-! PROOF. The engine pool (spec/10: R230 to R233, R240 to R244): tasks generated, claimed and committed, and engines enabled, disabled
and zeroed. -/
namespace Sys2Proof.Machine

/-! ## Tasks (R226, R232, R233) -/

/-- The oldest run of the queue with a task left generates it. -/
theorem execTaskGenerate_left {d : Fin 8} {q : Fin 2048} {r : KRun} {s : State}
    (oldest : s.brc.runs.find? (fun r => r.fq == flatQ d q && decide (r.next < r.total)) = some r) :
    execTaskGenerate d q s = .next (generate s r) := by
  simp only [execTaskGenerate, oldest]

section
variable {g : Fin 4096} {t : Task} {u s : State} (may : mayClaim s g = true)
  (swept : u = (List.range 32).foldl (fun w k => sweepTq w (g.val / 512 * 32 + k)) s)
include may swept

/-- A task of the engine's own ripple. -/
theorem execEngineClaim_own (claims : claimOf u g = some (g.val / 16, t)) (first : claimedBefore u g (g.val / 16) = false) :
    execEngineClaim g s = .next (takeTask u g (g.val / 16) t) := by
  simp only [execEngineClaim, may, ← swept, claims, first, if_true, Bool.false_eq_true, if_false]

/-- A task of another ripple is stolen, and counted. -/
theorem execEngineClaim_steal {r : Nat} (claims : claimOf u g = some (r, t)) (first : claimedBefore u g r = false)
    (other : r ≠ g.val / 16) :
    execEngineClaim g s = .next (bump64 (takeTask u g r t) (Reg.BRC_STEALS (g.val / 512)) 1) := by
  simp only [execEngineClaim, may, ← swept, claims, first, other, if_true, Bool.false_eq_true, if_false]

end

/-- The state in which the commit of the first slot's task finds its run: the slot is free and the task counted. -/
def freedSlot0 (s : State) (g : Nat) : State := bump64 (setEng s g (putSlot (engOf s g) false none)) (Reg.BRC_TASKS (g / 512)) 1

/-- A task that has ended in the first slot commits to the run of its kernel command. -/
theorem execTaskCommit_kernel {g : Fin 4096} {c : TaskCtx} {fq no : Nat} {r : KRun} {s : State} (runs : workStopped s = false)
    (slot : (engOf s g).slot0 = some c) (ended : c.ending = true) (owner : c.task.owner = .kernel fq no)
    (run : runOf (freedSlot0 s g) fq no = some r) :
    execTaskCommit g s = .next (showGroup (pumpAll (settleDrains (settleEng (commitKernel (freedSlot0 s g) r c) g)))) := by
  have commits : committing (engOf s g) false = some c := by
    simp [committing, slotOf, slot, ended]
  have committed : commitSlot s g false c = settleEng (commitKernel (freedSlot0 s g) r c) g := by
    unfold freedSlot0 at run ⊢
    simp only [commitSlot, owner, run]
  simp only [execTaskCommit, runs, commits, committed, Bool.false_eq_true, if_false]

/-! ## Enabling and disabling (R240 to R244) -/

section
variable {d : Fin 8} {v : Word} {s : State} (up : duneUp s d = true) (key : keyOk v = true) (free : held s = false)
  (idle : SMap.find s.brc.dis d = none)
include up key free idle

/-- A write that names what it asks for, with no request pending, acts on the engines of its scope. -/
theorem disWrite_idle {enable immediate : Bool} {act : State → List Nat → State} (enables : wbit v 23 = enable)
    (disables : wbit v 22 = !enable) (mode : enable = false → wbit v 21 = immediate) :
    disWrite s d v enable immediate act = act s (disScope s d v) := by
  cases enable with
  | true => simp [disWrite, up, key, free, idle, enables, disables]
  | false => simp [disWrite, up, key, free, idle, enables, disables, mode rfl]

theorem execEngineEnable_idle (enables : wbit v 23 = true) (disables : wbit v 22 = false)
    (sound : (disScope s d v).any (fun g => engSt s g == engQuarantined) = false) :
    execEngineEnable d v s = .next (settle s (settleDrains ((disScope s d v).foldl enableEng (disResult s d 1)))) := by
  rw [execEngineEnable, disWrite_idle up key free idle enables disables (fun h => absurd h.symm Bool.false_ne_true)]
  simp only [sound, Bool.false_eq_true, if_false]

theorem execEngineDisableDrain_idle (enables : wbit v 23 = false) (disables : wbit v 22 = true) (drain : wbit v 21 = false) :
    execEngineDisableDrain d v s = .next (disableEngines (disResult s d 1) d (disScope s d v) false (disScopeCode v)
      (bitsAt v.toNat 0 9)) := by
  rw [execEngineDisableDrain, disWrite_idle up key free idle enables disables (fun _ => drain)]

theorem execEngineDisableImmediate_idle (enables : wbit v 23 = false) (disables : wbit v 22 = true) (now : wbit v 21 = true) :
    execEngineDisableImmediate d v s = .next (disableEngines (disResult s d 1) d (disScope s d v) true (disScopeCode v)
      (bitsAt v.toNat 0 9)) := by
  rw [execEngineDisableImmediate, disWrite_idle up key free idle enables disables (fun _ => now)]

end

/-- A QUIESCED engine that no enable waits for and that is not on the list is DISABLED once it is zeroed. -/
theorem execEngineZeroed_unheld {g : Fin 4096} {s : State} (quiesced : engSt s g = engQuiesced)
    (unheld : (engOf s g).heldEnable = false) (sound : s.plat.quarantine.contains g.val = false) :
    execEngineZeroed g s = .next (settle s (settleDrains (setEngSt (setEng s g ⟨none, none, false⟩) g engDisabled))) := by
  unfold execEngineZeroed
  simp only [quiesced, unheld, sound, if_true, Bool.false_eq_true, false_and, if_false]

/-- Settles O27: clause by clause, the meaning of the command on the path that the clause names. -/
theorem enginesRunTasks : Obligations.EnginesRunTasks :=
  ⟨fun _ _ _ _ oldest => execTaskGenerate_left oldest,
    fun _ _ _ _ may swept claims first => execEngineClaim_own may swept claims first,
    fun _ _ _ _ _ may swept claims first other => execEngineClaim_steal may swept claims first other,
    fun _ _ _ _ _ _ runs slot ended owner run => execTaskCommit_kernel runs slot ended owner run,
    fun _ _ _ up key enables disables free idle sound => execEngineEnable_idle up key free idle enables disables sound,
    fun _ _ _ up key enables disables drain free idle => execEngineDisableDrain_idle up key free idle enables disables drain,
    fun _ _ _ up key enables disables now free idle => execEngineDisableImmediate_idle up key free idle enables disables now,
    fun _ _ quiesced unheld sound => execEngineZeroed_unheld quiesced unheld sound, fun _ _ => rfl⟩

end Sys2Proof.Machine
end

section
/-! PROOF. The kernel commands run whole (spec/10: R232, R236 to R239, Table 10.7). -/
namespace Sys2Proof.Machine

section
variable {s : State} {d q : Nat} {r : KRun}

/-- An elementwise kernel runs its segments in order and completes. -/
theorem runElements_whole {opcode : Nat} (whole : wholeRun s d q (fun o => o == opcode) = some r) :
    runElements s d q opcode = finishWhole ((List.range (runSegs r)).foldl elementSeg (s, r)).1
      ((List.range (runSegs r)).foldl elementSeg (s, r)).2 := by
  rw [runElements, whole]

/-- So does an optimizer. -/
theorem runOptimizer_whole {opcode : Nat} (whole : wholeRun s d q (fun o => o == opcode) = some r) :
    runOptimizer s d q opcode = finishWhole ((List.range (runSegs r)).foldl optimizerSeg (s, r)).1
      ((List.range (runSegs r)).foldl optimizerSeg (s, r)).2 := by
  rw [runOptimizer, whole]

/-- An owner kernel whose tasks all end without a fault completes with what they wrote. -/
theorem execOwnerKernel_ends {d : Fin 8} {q : Fin 2048} {u : State} {r' : KRun}
    (whole : wholeRun s d q (fun o => decide (0x60 ≤ o)) = some r)
    (ends : runOwnerSegs (List.range (runSegs r)) s r = some (u, r', none)) :
    execOwnerKernel d q s = .next (finishWhole u r') := by
  simp only [execOwnerKernel, whole, ends]

end

/-- Settles O28: each kernel by its own run of a whole command. -/
theorem libraryKernelsRun : Obligations.LibraryKernelsRun := by
  refine ⟨?sum, ?max, ?min, ?mean, ?quant, ?sparse,
    fun _ _ _ _ whole => congrArg Host.Outcome.next (by rewrite [runTopk, whole]; rfl),
    fun _ _ _ _ whole => congrArg Host.Outcome.next (by rewrite [runHist, whole]; rfl),
    fun _ _ _ _ whole => congrArg Host.Outcome.next (by rewrite [runNorm, whole]; rfl),
    fun _ _ _ _ whole => congrArg Host.Outcome.next (by rewrite [runMoeDispatch, whole]; rfl),
    fun _ _ _ _ whole => congrArg Host.Outcome.next (by rewrite [runMoeCombine, whole]; rfl),
    ?sgdMom, ?adam, ?signUpd, ?owner⟩
  case sum | max | min | mean | quant =>
    exact fun _ _ _ _ whole => congrArg Host.Outcome.next (runElements_whole whole)
  case sgdMom | adam | signUpd =>
    exact fun _ _ _ _ whole => congrArg Host.Outcome.next (runOptimizer_whole whole)
  case sparse =>
    intro d q r s whole sound
    refine congrArg Host.Outcome.next (a₁ := runSparse s d q) ?_
    rewrite [runSparse, whole]
    dsimp only
    rewrite [sound]
    rfl
  case owner =>
    intro d q r s whole sound
    obtain ⟨⟨u, r', fault⟩, ends, sound⟩ := Option.map_eq_some_iff.mp sound
    obtain rfl : fault = none := sound
    exact ⟨_, execOwnerKernel_ends whole ends, u, r', ends, rfl⟩

end Sys2Proof.Machine
end

section
/-! PROOF. Collective commands, groups and member swaps (spec/12: R272, R276, R277, R288, R292, R295). -/
namespace Sys2Proof.Machine

/-- A dispatched collective whose group holds it runs as far as what has arrived lets it. -/
theorem collRow_opened {d q opcode : Nat} {s : State} {y : Slot} {grp : Nat} {c : Coll}
    (running : runningSlot s d q (fun o => o == opcode) = some y) (opened : collOfCmd s (flatQ d q) y.no = some (grp, c)) :
    collRow d q opcode s = showGroup (pumpAll (settleDrains (runColl grp c.step (6 * collChunks c + 6) s))) := by
  simp only [collRow, running, opened]

section
variable {d : Fin 8} {q : Fin 2048} {y : Slot} {s : State}

/-- A record that keeps every rule and every limit becomes the group; what the old group had open ends. -/
theorem execGroupSet_accepted {n : Nat} {l : List Byte} {x : Group} (running : runningSlot s d q (fun o => o == 0x3E) = some y)
    (count : n = beNat (oasisRead s (cqScope s d q) (dSrc y.desc + 12) 4))
    (bytes : l = oasisRead s (cqScope s d q) (dSrc y.desc) (64 + 8 * n))
    (record : x = recordGroup (cqScope s d q) l (groupOf s (dGroup y.desc))) (short : n ≤ 131072)
    (inSpace : outsideSpace s (cqScope s d q) (dSrc y.desc) (64 + 8 * n) = false) (good : recordOk s y.desc l x = true)
    (job : x.job = cqJob s d q) (entries : otherEntries s (dGroup y.desc) (fun _ => true) + n ≤ 4194304)
    (mirages : otherEntries s (dGroup y.desc) (fun m => m.role == 2) + (x.entries.filter (fun m => m.role == 2)).length ≤ 256) :
    execGroupSet d q s = .next (
      let u := endSwapCmd (endAll s (dGroup y.desc) stRegrouped) ((groupOf s (dGroup y.desc)).bind (·.swap)) stDenied
      let w := if (groupOf s (dGroup y.desc)).any (fun g => !g.opened.isEmpty) then
        colEvent u F.COL_EVT_REGROUPED (colBody (cqScope s d q) (dGroup y.desc) 0xFFFFFF) else u
      showGroup (claim (pumpAll (setGroup w (dGroup y.desc) x)) d q y.no stOk)) := by
  subst count bytes record
  simp only [execGroupSet, running, Nat.not_lt.mpr short, inSpace, good, job, Nat.not_lt.mpr entries, Nat.not_lt.mpr mirages,
    Bool.not_true, Bool.false_eq_true, ne_eq, not_true_eq_false, if_false]

/-- GROUP_FREE ends what the group has open, then the group. -/
theorem execGroupFree_running (running : runningSlot s d q (fun o => o == 0x3F) = some y) :
    execGroupFree d q s = .next (
      let u := endSwapCmd (endAll s (dGroup y.desc) stAborted) ((groupOf s (dGroup y.desc)).bind (·.swap)) stDenied
      showGroup (claim (pumpAll { u with col := { u.col with groups := SMap.del u.col.groups (dGroup y.desc) } }) d q y.no stOk)) := by
  simp only [execGroupFree, running]

/-- A swap of a spare and a working rank is noted where none waits. -/
theorem execMemberSwap_noted {x : Group} (running : runningSlot s d q (fun o => o == 0x15) = some y)
    (group : groupOf s (dGroup y.desc) = some x)
    (spare : x.entries.any (fun m => m.role == 1 && m.ep == dSrc y.desc / 2 ^ 24 % 2 ^ 24) = true)
    (works : (workers x).any (fun m => m.rank == dSrc y.desc % 2 ^ 24) = true) (idle : x.swap = none) :
    execMemberSwap d q s = .next (setGroup s (dGroup y.desc)
      { x with swap := some ⟨some (flatQ d q, y.no), dSrc y.desc % 2 ^ 24, dSrc y.desc / 2 ^ 24 % 2 ^ 24, false⟩ }) := by
  simp only [execMemberSwap, running, group, spare, works, idle, Bool.not_true, Bool.false_eq_true, or_self, Option.isSome_none, if_false]

end

/-- A swap that is ready is executed. -/
theorem execSwap_ready {grp : BitVec 16} {x : Group} {r : SwapReq} {s : State} (group : groupOf s grp.toNat = some x)
    (swap : x.swap = some r) (ready : r.ready = true) : execSwap grp s = .next (swapNow s grp.toNat x r) := by
  simp only [execSwap, swapDue, group, swap, ready, if_true]

/-- Settles O29: clause by clause, the meaning of the command on the path that the clause names. -/
theorem collectiveCommandsRun : Obligations.CollectiveCommandsRun := by
  refine ⟨?allreduce, ?reduce, ?broadcast, ?shardUpdate, ?barrier,
    fun _ _ _ _ _ _ _ running count bytes record short inSpace good job entries mirages =>
      execGroupSet_accepted running count bytes record short inSpace good job entries mirages,
    fun _ _ _ _ running => execGroupFree_running running,
    fun _ _ _ _ _ running group spare works idle => execMemberSwap_noted running group spare works idle, ?swap⟩
  case allreduce | reduce | broadcast | shardUpdate | barrier =>
    exact fun _ _ _ _ _ _ running opened => congrArg Host.Outcome.next (collRow_opened running opened)
  case swap =>
    intro grp x r old new s group swap ready works spare
    refine (execSwap_ready group swap ready).trans (congrArg Host.Outcome.next ?_)
    simp only [swapNow, works, spare, swap]

end Sys2Proof.Machine
end

section
/-! PROOF. The messages and deadlines of a collective (spec/12: R281, R282, R284, R287, R289 to R291). -/
namespace Sys2Proof.Machine

section
variable {c : Cfh} {payload : List Byte} {s : State}

/-! ## LAUNCH and data packets (R281, R282) -/

/-- A LAUNCH of a step that has been dispatched is heard at once. -/
theorem execLaunch_opened {grp coord : Nat} {x : Group} {m : ColMsg} (mine : ctlFor s 0x10 c payload = some (grp, x, m))
    (sender : fromSpine x c = some coord) (opened : (collIn x m.step).isSome = true) :
    execLaunch c payload s = .next (showGroup (hearLaunch (twinCopy s x.part c payload) grp m.step coord m.digest m.order)) := by
  simp only [execLaunch, mine, sender, opened, if_true]

theorem execContributionRx_coll (coll : collPkt s c = true) :
    execContributionRx c payload s = .next (showGroup (contribRx s c payload)) := by
  rw [execContributionRx, if_pos coll]

theorem execPartialRx_coll (coll : collPkt s c = true) : execPartialRx c payload s = .next (showGroup (partialPkt s c payload)) := by
  rw [execPartialRx, if_pos coll]

theorem execResultRx_coll (coll : collPkt s c = true) : execResultRx c payload s = .next (showGroup (resultPkt s c payload)) := by
  rw [execResultRx, if_pos coll]

/-! ## Receipts (R289) -/

/-- A receipt over every result, with the digest that the spine holds, is answered with RACK. -/
theorem execReceipt_matching {grp : Nat} {x : Group} {m : ColMsg} {y : Coll} {w : Member}
    (mine : ctlFor s 0x11 c payload = some (grp, x, m)) (opened : collIn x m.step = some y)
    (member : (receivers x y).find? (fun w => w.rank == m.rank && w.ep == c.src) = some w)
    (whole : collChunks y ≤ y.results.length) (same : m.digest = resultDigest y) :
    execReceipt c payload s = .next (
      let z := attemptDone { y with receipts := if y.receipts.contains m.rank then y.receipts else y.receipts ++ [m.rank] } m.rank 0xFFFFFF
      maybeReady (colSend (setColl (twinCopy s x.part c payload) grp z) grp x w.ep { ColMsg.plain 0x12 0 m.step with rank := m.rank })
        grp m.step) := by
  simp only [execReceipt, mine, opened, member, Nat.not_lt.mpr whole, same, if_false, if_true]

/-- The RACK of a receipt that has had none is noted. -/
theorem execRack_awaited {x : Group} {y : Coll} (len : payload.length = 32) (typ : (colMsgOf payload).typ = 0x12)
    (own : c.src = collEp (ownCoord s)) (group : groupOf s (beAt payload 2 2) = some x)
    (opened : collIn x (colMsgOf payload).step = some y)
    (awaited : (y.receipts.contains (colMsgOf payload).rank && !y.racked.contains (colMsgOf payload).rank
      && (receivers x y).any (fun w => w.rank == (colMsgOf payload).rank && w.ep == c.dst)) = true) :
    execRack c payload s = .next (setColl s (beAt payload 2 2) { y with racked := y.racked ++ [(colMsgOf payload).rank] }) := by
  simp only [execRack, len, typ, own, group, opened, awaited, ne_eq, not_true_eq_false, or_self, if_false, if_true]

/-! ## Decisions (R289 to R291) -/

/-- The root counts the READY of a spine that it has not heard, where no deadline bounds the step. -/
theorem execReady_counted {grp coord : Nat} {x : Group} {m : ColMsg} {y : Coll} (mine : ctlFor s 0x13 c payload = some (grp, x, m))
    (sender : fromSpine x c = some coord) (opened : collIn x m.step = some y) (root : isRoot s x = true) (undecided : y.decided = none)
    (unbounded : y.deadline = none) (first : y.readies.any (fun r => r.coord == coord) = false) :
    execReady c payload s = .next (
      let z := { y with readies := y.readies ++ [⟨coord, m.digest, m.esc, m.sat, m.status % 2 == 1⟩] }
      let g := { x with opened := modFirst (fun z => z.step == y.step) (fun _ => z) x.opened }
      let u := setGroup (twinCopy s x.part c payload) grp g
      if z.readies.length = boxSize x then decideCommit u grp g z else u) := by
  simp only [execReady, mine, sender, opened, root, undecided, unbounded, first, Option.isSome_none, Option.any_none, Bool.not_true,
    Bool.false_eq_true, or_self, if_false]

/-- A root that has not decided answers a request with ABORT. -/
theorem execAbortReq_undecided {grp coord : Nat} {x : Group} {m : ColMsg} {y : Coll} (mine : ctlFor s 0x15 c payload = some (grp, x, m))
    (sender : fromSpine x c = some coord) (opened : collIn x m.step = some y) (root : isRoot s x = true) (undecided : y.decided = none) :
    execAbortReq c payload s = .next (decideAbort (twinCopy s x.part c payload) grp x y
      (if [stBadDescriptor, stDigestFail, stDenied, stPoisoned].contains m.status then m.status else stAborted)) := by
  simp only [execAbortReq, mine, sender, opened, root, undecided, Option.isSome_none, Bool.not_true, Bool.false_eq_true, or_self,
    if_false]

/-- A step commits where the root says so. -/
theorem execCommit_root {grp : Nat} {x : Group} {m : ColMsg} {y : Coll} (mine : ctlFor s 0x14 c payload = some (grp, x, m))
    (opened : collIn x m.step = some y) (root : fromRoot x c = true) :
    execCommit c payload s = .next (showGroup (pumpAll (commitStep (twinCopy s x.part c payload) grp x y m))) := by
  simp only [execCommit, mine, opened, root, if_true]

/-- A step aborts where the root says so, and the members are told. -/
theorem execCollAbort_root {grp : Nat} {x : Group} {m : ColMsg} {y : Coll} (mine : ctlFor s 0x16 c payload = some (grp, x, m))
    (opened : collIn x m.step = some y) (root : fromRoot x c = true) :
    execCollAbort c payload s = .next (showGroup (pumpAll (abortStep
      (tellMembers (twinCopy s x.part c payload) grp x (collWorkers x y) m) grp x y m.status
      (if m.status = stAborted then stOk else stAbortLate)))) := by
  simp only [execCollAbort, mine, opened, root, if_true]

end

/-! ## Deadlines (R290, R291) -/

section
variable {grp : BitVec 16} {step : Word} {x : Group} {y : Coll} {s : State} (group : groupOf s grp.toNat = some x)
  (opened : collIn x step.toNat = some y)
include group opened

/-- At the deadline a root that has not decided aborts with TIMEOUT. -/
theorem execCommitDeadline_due (root : isRoot s x = true) (undecided : y.decided = none)
    (due : y.deadline.any (fun t => decide (t ≤ s.clock)) = true) :
    execCommitDeadline grp step s = .next (colEvent (decideAbort s grp.toNat x y stTimeout) F.COL_EVT_DEADLINE
      (colBody x.part grp.toNat 0xFFFFFF)) := by
  simp only [execCommitDeadline, group, opened, root, undecided, due, Option.isNone_none, Bool.and_self, if_true]

/-- GRACE_US after the deadline a spine ends the step by itself. -/
theorem execCommitGraceExpiry_due (due : y.deadline.any (fun t => decide (t + graceUnits s ≤ s.clock)) = true) :
    execCommitGraceExpiry grp step s = .next (showGroup (pumpAll (colEvent (abortStep s grp.toNat x y stTimeout stAbortLate)
      F.COL_EVT_DEADLINE (colBody x.part grp.toNat 0xFFFFFF)))) := by
  simp only [execCommitGraceExpiry, group, opened, due, if_true]

/-- So it does GRACE_US after a request that has had no answer. -/
theorem execAbortReqGraceExpiry_due (due : y.abortAt.any (fun t => decide (t + graceUnits s ≤ s.clock)) = true) :
    execAbortReqGraceExpiry grp step s = .next (showGroup (pumpAll (abortStep s grp.toNat x y stAborted stOk))) := by
  simp only [execAbortReqGraceExpiry, group, opened, due, if_true]

end

/-- Settles O30: clause by clause, the meaning of the command on the path that the clause names. -/
theorem collectivePacketsArrive : Obligations.CollectivePacketsArrive :=
  ⟨fun _ _ _ _ _ _ _ mine sender opened => execLaunch_opened mine sender opened,
    fun _ _ _ coll => execContributionRx_coll coll, fun _ _ _ coll => execPartialRx_coll coll, fun _ _ _ coll => execResultRx_coll coll,
    fun _ _ _ _ _ _ _ _ mine opened member whole same => execReceipt_matching mine opened member whole same,
    fun _ _ _ _ _ len typ own group opened awaited => execRack_awaited len typ own group opened awaited,
    fun _ _ _ _ _ _ _ _ mine sender opened root undecided unbounded first =>
      execReady_counted mine sender opened root undecided unbounded first,
    fun _ _ _ _ _ _ _ _ mine sender opened root undecided => execAbortReq_undecided mine sender opened root undecided,
    fun _ _ _ _ _ group opened root undecided due => execCommitDeadline_due group opened root undecided due,
    fun _ _ _ _ _ _ _ mine opened root => execCommit_root mine opened root,
    fun _ _ _ _ _ _ _ mine opened root => execCollAbort_root mine opened root,
    fun _ _ _ _ _ group opened due => execCommitGraceExpiry_due group opened due,
    fun _ _ _ _ _ group opened due => execAbortReqGraceExpiry_due group opened due⟩

end Sys2Proof.Machine
end

section
/-! PROOF. Caravan (spec/12: R296 to R300): the transfers that start, what they fetch and are sent, their heartbeats and their end. -/
namespace Sys2Proof.Machine

/-! ## Starting a transfer (R296) -/

/-- The tree record of a queue's command: as long as its own header says. -/
def treeRecord (s : State) (part src : Nat) : List Byte :=
  oasisRead s part src (96 + 4 * beAt (oasisRead s part src 96) 22 2 + 4 * beAt (oasisRead s part src 96) 24 4)

/-- The state in which a transfer has joined those whose commands are open, and has served what it holds. -/
def carJoined (s : State) (x : Caravan) : State :=
  carServe { s with col := { s.col with
    caravans := s.col.caravans.filter (fun x => claimable s (x.fq / 2048) (x.fq % 2048) x.no) ++ [x] } } x

/-- The transfer `x` of a command that runs starts: its tree record keeps the rules, its cache lies in its scope, and neither its
command nor its TID is carried yet. -/
structure CarStarts (s : State) (d q opcode : Nat) (root : Bool) (y : Slot) (x : Caravan) : Prop where
  running : runningSlot s d q (fun o => o == opcode) = some y
  tree : x = treeCar s d q y root (treeRecord s (cqScope s d q) (dSrc y.desc))
  fresh : s.col.caravans.any (fun x => x.fq == flatQ d q && x.no == y.no) = false
  kids : beAt (oasisRead s (cqScope s d q) (dSrc y.desc) 96) 22 2 ≤ 64
  recipients : beAt (oasisRead s (cqScope s d q) (dSrc y.desc) 96) 24 4 ≤ 4096
  inSpace : outsideSpace s (cqScope s d q) (dSrc y.desc) (96 + 4 * beAt (oasisRead s (cqScope s d q) (dSrc y.desc) 96) 22 2
    + 4 * beAt (oasisRead s (cqScope s d q) (dSrc y.desc) 96) 24 4) = false
  good : carTreeOk s root (treeRecord s (cqScope s d q) (dSrc y.desc)) = true
  cacheInSpace : outsideSpace s (cqScope s d q) x.cache x.len = false
  tidFree : carOf s x.tid = none

section
variable {s : State} {d q opcode : Nat} {y : Slot} {x : Caravan}

theorem CarStarts.carStart {root : Bool} (h : CarStarts s d q opcode root y x) :
    carStart s d q opcode root = if root ∧ x.total = 0 then carFinish (carJoined s x) x stOk else carJoined s x := by
  obtain ⟨running, rfl, fresh, kids, recipients, inSpace, good, cacheInSpace, tidFree⟩ := h
  unfold treeRecord at *
  simp only [Machine.carStart, carJoined, running, fresh, Nat.not_lt.mpr kids, Nat.not_lt.mpr recipients, inSpace, good, cacheInSpace,
    tidFree, Option.isSome_none, Bool.not_true, Bool.false_eq_true, or_self, if_false]

/-- A root with no recipient to wait for is complete at once (R300). -/
theorem CarStarts.root (h : CarStarts s d q opcode true y x) :
    Machine.carStart s d q opcode true = if x.total = 0 then carFinish (carJoined s x) x stOk else carJoined s x := by
  simpa only [true_and] using h.carStart

theorem CarStarts.node (h : CarStarts s d q opcode false y x) : Machine.carStart s d q opcode false = carJoined s x := by
  simpa only [Bool.false_eq_true, false_and, if_false] using h.carStart

end

/-! ## Fetching and data (R297, R298) -/

/-- A root that fetches, with fewer than four ranges outstanding and room for the replies, asks for the next range. -/
theorem execCaravanFetch_room {tid : BitVec 16} {x : Caravan} {s : State} (transfer : carOf s tid.toNat = some x)
    (root : x.isRoot = true) (fetches : x.fetch = true) (more : x.fetched < x.len) (few : carOutstanding x < 4)
    (room : (carOutstanding x + 1) * (carChunk / 4096 * fabricCells 4120) ≤ poolFree s (x.fq / 2048) x.part 2) :
    execCaravanFetch tid s = .next (carSend (setCar s { x with fetched := x.fetched + (chunkEnd x.len x.fetched - x.fetched) }) x 0
      x.storage (carHead 0x20 0 x.tid x.fetched 0 (chunkEnd x.len x.fetched - x.fetched) x.object)) := by
  simp only [execCaravanFetch, transfer, root, fetches, more, few, room, and_self, if_true]

section
variable {c : Cfh} {payload : List Byte} {x : Caravan} {s : State}

/-- The last piece of a chunk that a root has fetched verifies the chunk. -/
theorem execCaravanData_chunkEnd (transfer : carMsg s 0x21 c payload = some x) (root : x.isRoot = true) (fetches : x.fetch = true)
    (storage : c.src = x.storage) (next : beAt payload 4 6 = x.verified + x.partialBytes) (asked : beAt payload 4 6 < x.fetched)
    (len : payload.length = 24 + beAt payload 10 2) (full : beAt payload 10 2 = 4096)
    (last : beAt payload 4 6 + 4096 = chunkEnd x.len x.verified) :
    execCaravanData c payload s = .next (carVerified (oasisWrite s x.part (x.cache + beAt payload 4 6) (payload.drop 24)) x
      (chunkEnd x.len x.verified)) := by
  have sender : (x.fetch && c.src == x.storage && decide (beAt payload 4 6 < x.fetched)) = true := by
    simp [fetches, storage, asked]
  have piece : min 4096 (chunkEnd x.len x.verified - (x.verified + x.partialBytes)) = 4096 := by omega
  rw [full] at len
  rw [next] at last sender
  simp only [execCaravanData, transfer, root, next, sender, len, full, last, piece, lt_irrefl, OfNat.ofNat_ne_zero, ne_eq,
    not_true_eq_false, Bool.not_true, Bool.false_eq_true, or_self, true_or, if_false, if_true]

/-! ## Heartbeats and reattachment (R299) -/

/-- A node notes the time of a heartbeat of the node above. -/
theorem execCaravanHeartbeat_above (transfer : carMsg s 0x22 c payload = some x) (node : x.isRoot = false)
    (above : c.src = carAbove x) : execCaravanHeartbeat c payload s = .next (setCar s { x with heardAt := s.clock }) := by
  simp [execCaravanHeartbeat, transfer, node, above]

theorem execCaravanAck_carried (transfer : carMsg s 0x23 c payload = some x) :
    execCaravanAck c payload s = .next (setCar s { x with
      peers := modFirst (fun p => p.ep == c.src) (fun p => { p with acked := beAt payload 4 6 }) x.peers }) := by
  simp only [execCaravanAck, transfer]

/-- A NACK of a chunk that this spine holds has the chunk sent again. -/
theorem execCaravanNack_verified {p : CarPeer} (transfer : carMsg s 0x25 c payload = some x)
    (peer : x.peers.find? (fun p => p.ep == c.src) = some p) (aligned : beAt payload 4 6 % carChunk = 0)
    (holds : beAt payload 4 6 < x.verified) :
    execCaravanNack c payload s = .next (carRange s x p (beAt payload 4 6) (chunkEnd x.len (beAt payload 4 6))) := by
  simp only [execCaravanNack, transfer, peer, aligned, holds, and_self, if_true]

/-- A party that attaches at the start of a chunk replaces what was known of it, and is served from there on. -/
theorem execCaravanAttach_chunkStart (transfer : carMsg s 0x24 c payload = some x) (aligned : beAt payload 4 6 % carChunk = 0)
    (inImage : beAt payload 4 6 ≤ x.len) :
    execCaravanAttach c payload s = .next (
      let z := { x with peers := x.peers.filter (fun y => y.ep != c.src) ++ [⟨c.src, isCarEp c.src, beAt payload 4 6, beAt payload 4 6,
        (x.peers.find? (fun y => y.ep == c.src)).any (·.done)⟩] }
      carServe (setCar s z) z) := by
  simp only [execCaravanAttach, transfer, aligned, inImage, and_self, true_or, if_true]

/-! ## Completion (R300) -/

/-- A root compares and counts the digest of a recipient that it serves itself, once. -/
theorem execCaravanDone_recipient {p : CarPeer} (transfer : carMsg s 0x26 c payload = some x)
    (notFinal : bitAt (beAt payload 1 1) 1 = false) (recipient : isCarEp c.src = false)
    (peer : x.peers.find? (fun p => p.ep == c.src) = some p) (first : p.done = false) (len : payload.length = 72)
    (root : x.isRoot = true) :
    execCaravanDone c payload s = .next (
      let z := { x with
        matched := x.matched + b2n (beAt payload 24 48 == x.expect)
        mismatched := x.mismatched + b2n (!(beAt payload 24 48 == x.expect))
        peers := modFirst (fun y => y.ep == c.src) (fun y => { y with done := true }) x.peers }
      carCheck (setCar s z) z) := by
  simp only [execCaravanDone, transfer, notFinal, recipient, peer, first, len, root, ne_eq, not_true_eq_false, Bool.false_eq_true,
    or_self, if_false, if_true]

end

section
variable {tid : BitVec 16} {x : Caravan} {s : State} (transfer : carOf s tid.toNat = some x)
include transfer

theorem execCaravanHeartbeatSend_carried :
    execCaravanHeartbeatSend tid s = .next (
      let u := x.peers.foldl (fun t p => carSend t x 0 p.ep (carHead 0x22 0 x.tid (x.verified + x.partialBytes) 0 0 0)) s
      if x.isRoot then u else carSend u x 0 (carAbove x) (carHead 0x23 0 x.tid x.verified 0 0 0)) := by
  simp only [execCaravanHeartbeatSend, transfer]

/-- A node whose parent is silent attaches to its backup, and drops what it holds of a chunk. -/
theorem execParentSilence_backup (node : x.isRoot = false) (silent : x.heardAt + 200000 * nsUnit ≤ s.clock)
    (onParent : x.onBackup = false) :
    execParentSilence tid s = .next (
      let z := { x with partialBytes := 0, onBackup := true, heardAt := s.clock }
      colEvent (carSend (setCar s z) z 0 (carEp x.backup) (carHead 0x24 0 x.tid x.verified 0 0 0)) F.COL_EVT_PARENT_LOST
        (colBody x.part x.tid 0xFFFFFF)) := by
  simp only [execParentSilence, transfer, node, Nat.not_lt.mpr silent, onParent, Bool.false_eq_true, or_self, if_false]

theorem execCaravanDeadline_due (root : x.isRoot = true) (due : x.deadline.any (fun t => decide (t ≤ s.clock)) = true) :
    execCaravanDeadline tid s = .next (carFinish s x stTimeout) := by
  simp only [execCaravanDeadline, transfer, root, due, Bool.and_self, if_true]

end

/-- Settles O31: clause by clause, the meaning of the command on the path that the clause names. -/
theorem caravansRun : Obligations.CaravansRun := by
  refine ⟨?root, ?node,
    fun _ _ _ transfer root fetches more few room => execCaravanFetch_room transfer root fetches more few room,
    fun _ _ _ _ transfer root fetches storage next asked len full last =>
      execCaravanData_chunkEnd transfer root fetches storage next asked len full last,
    fun _ _ _ transfer => execCaravanHeartbeatSend_carried transfer,
    fun _ _ _ _ transfer node above => execCaravanHeartbeat_above transfer node above,
    fun _ _ _ _ transfer => execCaravanAck_carried transfer,
    fun _ _ _ _ _ transfer peer aligned holds => execCaravanNack_verified transfer peer aligned holds,
    fun _ _ _ _ transfer aligned inImage => execCaravanAttach_chunkStart transfer aligned inImage,
    fun _ _ _ transfer node silent onParent => execParentSilence_backup transfer node silent onParent,
    fun _ _ _ _ _ transfer notFinal recipient peer first len root =>
      execCaravanDone_recipient transfer notFinal recipient peer first len root,
    fun _ _ _ transfer root due => execCaravanDeadline_due transfer root due⟩
  case root =>
    rintro d q y _ x s running rfl tree fresh kids recipients inSpace good cacheInSpace tidFree
    exact congrArg Host.Outcome.next
      (CarStarts.root ⟨running, tree, fresh, kids, recipients, inSpace, good, cacheInSpace, tidFree⟩)
  case node =>
    rintro d q y _ x s running rfl tree fresh kids recipients inSpace good cacheInSpace tidFree
    exact congrArg Host.Outcome.next
      (CarStarts.node ⟨running, tree, fresh, kids, recipients, inSpace, good, cacheInSpace, tidFree⟩)

end Sys2Proof.Machine
end

section
/-! PROOF. Lanes and lasers (spec/13: R306 to R317): sweeps, identity, lost locks, telemetry, and spares up to the swap. -/
namespace Sys2Proof.Machine

/-! ## Locking (Table 13.5, R307 to R311) -/

section
variable {l : Fin 2048} {s : State}

/-- A receive sweep that finds a resonance not excluded locks to it. -/
theorem execSweepDone_found {r : Nat} (sweeps : laneDir s l true = 1) (runs : laneRuns s l = true)
    (fresh : resExcluded (laneOf (applyTrim (laneTakes s l) 2 (4096 + l.val)) l) true r = false) :
    execSweepDone l true (some r) s = .next (
      let u := applyTrim (laneTakes s l) 2 (4096 + l.val)
      setLaneDir (setLaneOf u l (setDirAt (laneOf u l) true r)) l true 2) := by
  simp only [execSweepDone, sweeps, runs, fresh, ne_eq, not_true_eq_false, Bool.not_true, Bool.false_eq_true, or_self, if_false,
    if_true]

/-- A transmit lane whose own pilot carries its channel, tile and lane is locked. -/
theorem execIdentityVerify_own {chan : BitVec 8} {ident : BitVec 16} (locking : laneDir s l false = 2) (runs : laneRuns s l = true)
    (own : txIdentOk l chan ident = true) : execIdentityVerify l false (some (chan, ident)) s = .next (lockedNow s l false) := by
  simp only [execIdentityVerify, locking, runs, own, ne_eq, not_true_eq_false, Bool.not_true, Bool.false_eq_true, or_self, if_false,
    if_true]

/-- A FAILED receive direction starts again at SWEEP, with no failure and no exclusion. -/
theorem execLaneFailedRetry_rx (failed : laneDir s l true = 5) (runs : laneRuns s l = true) :
    execLaneFailedRetry l true s = .next (settle s
      (setLaneDir (setLaneOf s l (setDirExcl (setDirFails (laneOf s l) true 0) true [])) l true 1)) := by
  simp only [execLaneFailedRetry, failed, runs, ne_eq, not_true_eq_false, Bool.not_true, Bool.false_eq_true, or_self, if_false, if_true]

/-- A received pilot of the far end that is recorded for the fibre is only shown. -/
theorem execPilotIdentityRx_known {chan : BitVec 8} {ident : BitVec 16} (locked : laneDir s l true = 4) (runs : laneRuns s l = true)
    (good : rxIdentOk s l chan ident = true) (known : SMap.find s.opt.fibreId (laneFibre l) = some (bitsAt ident.toNat 3 8)) :
    execPilotIdentityRx l chan ident s = .next (showPilot s l chan ident) := by
  simp only [execPilotIdentityRx, locked, runs, good, known, BEq.rfl, Bool.and_self, ne_eq, not_true_eq_false, Bool.not_true,
    Bool.false_eq_true, or_self, if_false, if_true]

theorem execLaneLockLost_locked {rx : Bool} (locked : laneDir s l rx = 4) :
    execLaneLockLost l rx s = .next (laneLeaves (laneTakes s l) l rx 1) := by
  simp only [execLaneLockLost, locked, ne_eq, not_true_eq_false, if_false]

/-! ## Telemetry (R312, R313) -/

/-- A report moves the bias, ages the lane by its margin, and lets the handshake of its port start. -/
theorem execTelemetryReport_locked {pfar : BitVec 16} {peer : Bool} (tx : laneDir s l false = 4) (rx : laneDir s l true = 4)
    (runs : laneRuns s l = true) :
    execTelemetryReport l ⟨pfar, peer⟩ s = .next (
      let u := wf (wfs s (Reg.OPT_LANE_PWR (l.val / 32) (l.val % 32)) [(F.OPT_LANE_PWR_P_FAR, pfar.toNat),
        (F.OPT_LANE_PWR_MARGIN, encodeSigned 16 (clampInt (-32768, 32767) (pfar.toInt + 1600)))])
        (Reg.OPT_LANE_STATUS (l.val / 32) (l.val % 32)) F.OPT_LANE_STATUS_TELEM_OK 1
      laneHandshake (ageReport (biasStep (setLaneOf u l { laneOf u l with reportAt := s.clock, peerLocked := peer }) l pfar.toInt) l
        (pfar.toInt + 1600)) l) := by
  simp only [execTelemetryReport, tx, rx, runs, ne_eq, not_true_eq_false, Bool.not_true, Bool.false_eq_true, or_self, if_false]

/-- 10 ms after the last report telemetry is lost. -/
theorem execTelemetryLost_silent (ok : rb s (Reg.OPT_LANE_STATUS (l.val / 32) (l.val % 32)) F.OPT_LANE_STATUS_TELEM_OK = true)
    (silent : (laneOf s l).reportAt + 10000 * usUnit ≤ s.clock) :
    execTelemetryLost l s = .next (optEvent (wf s (Reg.OPT_LANE_STATUS (l.val / 32) (l.val % 32)) F.OPT_LANE_STATUS_TELEM_OK 0)
      (l.val / 32) F.OPT_EVT_TELEM_LOST (optBody (l.val / 32) (l.val % 32) 0xFF)) := by
  simp only [execTelemetryLost, ok, Nat.not_lt.mpr silent, Bool.not_true, Bool.false_eq_true, or_self, if_false]

/-! ## Lost lasers (R317) -/

/-- The state in which a lane has left LOCKED for its lost laser, and has said so. -/
def laserLostReported (s : State) (l : Nat) : State :=
  optEvent (laneLeaves s l false 1) (l / 32) F.OPT_EVT_LASER_LOST (optBody (l / 32) (l % 32) 0xFF)

/-- With no spare to take its place the lane is retired. -/
theorem execLaserLost_noSpare (locked : laneDir s l false = 4) (runs : laneRuns s l = true)
    (unready : spareReady (laserLostReported s l) l = false) (noSpare : freeSpare (laserLostReported s l) (l.val / 32) = none) :
    execLaserLost l s = .next (retireLane (laserLostReported s l) l) := by
  unfold laserLostReported at *
  simp only [execLaserLost, locked, runs, unready, noSpare, OfNat.ofNat_ne_zero, Nat.reduceEqDiff, Bool.not_true, Bool.false_eq_true,
    or_self, if_false]

end

/-- Settles O18: clause by clause, the meaning of the command on the path that the clause names. -/
theorem lanesAreTunedAndWatched : Obligations.LanesAreTunedAndWatched := by
  refine ⟨?sweep, ?identity, ?retry, fun _ _ _ _ locked runs good known => execPilotIdentityRx_known locked runs good known,
    fun _ _ _ locked => execLaneLockLost_locked locked, fun _ _ _ _ tx rx runs => execTelemetryReport_locked tx rx runs,
    fun _ _ ok silent => execTelemetryLost_silent ok silent,
    fun _ _ locked runs unready noSpare => execLaserLost_noSpare locked runs unready noSpare⟩
  case sweep =>
    rintro l _ _ r s sweeps runs rfl rfl fresh
    exact execSweepDone_found sweeps runs fresh
  case identity =>
    rintro l _ _ chan ident s locking runs rfl rfl own
    exact execIdentityVerify_own locking runs own
  case retry =>
    rintro l _ s failed runs rfl
    exact execLaneFailedRetry_rx failed runs

/-! ## Spares and swaps (Table 13.7, R314 to R316) -/

section
variable {t : Fin 64} {sp : Fin 4} {s : State}

theorem execSpareWarmDone_warming (warming : spareIs s t sp 1 = true) :
    execSpareWarmDone t sp s = .next (setSpare (applyTrim s 1 (t.val * 36 + 32 + sp.val)) t sp 2 (spareLane s t sp)) := by
  rw [execSpareWarmDone, if_pos warming]

theorem execSpareTuneDone_tuning (tuning : spareIs s t sp 2 = true) :
    execSpareTuneDone t sp s = .next (setSpare s t sp 3 (spareLane s t sp)) := by
  rw [execSpareTuneDone, if_pos tuning]

theorem execSpareLockDone_locking (locking : spareIs s t sp 3 = true) :
    execSpareLockDone t sp s = .next (setSpare s t sp 4 (spareLane s t sp)) := by
  rw [execSpareLockDone, if_pos locking]

/-- A verified spare has the swap of its lane planned; the lane is READY unless it is FORCED. -/
theorem execSpareVerifyDone_verified (locked : spareIs s t sp 4 = true) :
    execSpareVerifyDone t sp true s = .next (
      let l := t.val * 32 + spareLane s t sp
      let u := setLaneOf (setSpare s t sp 5 (l % 32)) l { laneOf s l with spareSince := some s.clock }
      planSwap (if laneAge u l = 4 then u else setLaneAge u l 3) l) := by
  simp only [execSpareVerifyDone, locked, Bool.not_true, Bool.false_eq_true, if_false]

theorem execSpareDrift_verified (verified : spareIs s t sp 5 = true) :
    execSpareDrift t sp s = .next (
      let l := t.val * 32 + spareLane s t sp
      setLaneOf (setSpare s t sp 2 (l % 32)) l { laneOf s l with spareSince := none, swap := none }) := by
  rw [execSpareDrift, if_pos verified]

/-- A request for a running lane that is not yet in PREPARE has it prepare its spare. -/
theorem execSwapRequest_early {v : Word} (run : s.plat.running = true) (fitted : tileFitted s.otp.variant t = true)
    (free : held s = false) (key : keyOk v = true) (asked : wbit v 5 = true)
    (early : laneAge s (t.val * 32 + bitsAt v.toNat 0 5) < 2) (runs : laneRuns s (t.val * 32 + bitsAt v.toNat 0 5) = true) :
    execSwapRequest t v s = .next (prepareLane s (t.val * 32 + bitsAt v.toNat 0 5)) := by
  simp only [execSwapRequest, run, fitted, free, key, asked, Nat.not_le.mpr early, runs, Bool.not_true, Bool.false_eq_true, or_self,
    if_false]

end

/-- A planned swap whose instant has come is executed, a forced one outside any cross-connect change, any other in its guard window. -/
theorem execSwapExecute_due {l : Fin 2048} {g k : Nat} {forced : Bool} {s : State} (planned : (laneOf s l).swap = some (g, forced))
    (spare : (laneOf s l).spare = some k) (due : g ≤ s.clock) (ready : spareReady s l = true) (runs : laneRuns s l = true)
    (heard : telemetryLost s l = false) (stands : forced = true ∧ xcAt s l g = false ∨ swapStands s l g = true) :
    execSwapExecute l s = .next (doSwap s l k forced) := by
  have executes : (forced = true ∧ (!xcAt s l g) = true) ∨ swapStands s l g = true := by
    simpa only [Bool.not_eq_true'] using stands
  simp only [execSwapExecute, planned, spare, Nat.not_lt.mpr due, ready, runs, heard, if_pos executes, Bool.not_true,
    Bool.false_eq_true, or_self, if_false]

/-- Settles O19: clause by clause, the meaning of the command on the path that the clause names. -/
theorem sparesTakeOver : Obligations.SparesTakeOver := by
  refine ⟨fun _ _ _ warming => execSpareWarmDone_warming warming, fun _ _ _ tuning => execSpareTuneDone_tuning tuning,
    fun _ _ _ locking => execSpareLockDone_locking locking, ?verify, fun _ _ _ verified => execSpareDrift_verified verified,
    fun _ _ _ _ _ planned spare due ready runs heard stands => execSwapExecute_due planned spare due ready runs heard stands,
    fun _ _ _ run fitted free key asked early runs => execSwapRequest_early run fitted free key asked early runs⟩
  case verify =>
    rintro t sp _ s locked rfl
    exact execSpareVerifyDone_verified locked

end Sys2Proof.Machine
end

section
/-! PROOF. Express paths (spec/13: R318 to R325): how they are set up, used and released. -/
namespace Sys2Proof.Machine

/-! ## Setting up a path (R322, R323) -/

/-- The state in which a bypass request has been taken up. -/
def bypassTaken (s : State) (dir : Nat) : State := { s with rte := { s.rte with bypassAsked := SMap.del s.rte.bypassAsked dir } }

/-- A request for 8 lanes that slots here allow takes a path number, holds the slots, and asks the next spine. -/
theorem execBypassRequest_granted {dir : Fin 6} {target : BitVec 24} {width : Fin 256} {p : Path} {s : State}
    (asked : SMap.find s.rte.bypassAsked dir = some target.toNat) (wide : width.val = 8) (free : held s = false)
    (granted : grantPath (bypassTaken s dir) dir target.toNat width = some p) :
    execBypassRequest dir target width s = .next (
      let u := { s with
        rte := { s.rte with bypassAsked := SMap.del s.rte.bypassAsked dir }
        opt := { s.opt with nextPath := (s.opt.nextPath + 1) % 65536 } }
      pathSend (holdPath u p) p (alongDir u p.origin p.dir 1) 0x30 0 0) := by
  unfold bypassTaken at granted
  rw [wide] at granted
  simp only [execBypassRequest, asked, wide, free, granted, ne_eq, not_true_eq_false, Bool.false_eq_true, or_self, if_false]

section
variable {m : PathMsg} {p : Path} {s : State}

/-- A RESERVE for slots that are free here holds them; the target answers, a spine between asks the next one. -/
theorem execPathReserve_free (run : s.plat.running = true) (free : held s = false) (good : reserveOk s m = true)
    (new : pathOf s m.origin m.id = none) (slots : slotsFree s (askedPath s m) = true) :
    execPathReserve m s = .next (
      let p := askedPath s m
      if p.role = 2 then pathSend (holdPath s p) p p.origin 0x31 0 0
      else pathSend (holdPath s p) p (alongDir (holdPath s p) (ownCoord (holdPath s p)) p.dir 1) 0x30 0 0) := by
  simp only [execPathReserve, run, free, good, new, slots, Option.isSome_none, Bool.not_true, Bool.false_eq_true, or_self, if_false]

/-- The origin of a path reserved all the way picks the instant, arms its own slots, and sends ARM. -/
theorem execPathReserved_origin (path : pathOf s m.origin m.id = some p) (origin : p.role = 0) (asked : p.st = 0)
    (free : held s = false) (time : timReady s = true) :
    execPathReserved m s = .next (
      let q := { p with st := 1, at_ := pathInstant s }
      pathSendAll (armPath (setPath s q) q (pathInstant s)) q 0x33 (pathInstant s)) := by
  simp only [execPathReserved, path, origin, asked, free, time, ne_eq, not_true_eq_false, Bool.not_true, Bool.false_eq_true, or_self,
    if_false]

theorem execPathDeny_origin (path : pathOf s m.origin m.id = some p) (origin : p.role = 0) (unused : p.st < 2) :
    execPathDeny m s = .next (cancelPath s p) := by
  simp only [execPathDeny, path, origin, unused, and_self, if_true]

/-- A spine of the path arms its slots for an instant at least 100 µs ahead, and answers ARMED. -/
theorem execPathArm_inTime (run : s.plat.running = true) (path : pathOf s m.origin m.id = some p) (notOrigin : p.role ≠ 0)
    (reserved : p.st = 0) (free : held s = false) (time : timReady s = true)
    (ahead : s.clock + 100 * usUnit ≤ instant m.sec m.ns) :
    execPathArm m s = .next (
      let q := { p with st := 1, at_ := instant m.sec m.ns }
      pathSend (armPath (setPath s q) q (instant m.sec m.ns)) q q.origin 0x34 0 (instant m.sec m.ns)) := by
  simp only [execPathArm, run, path, notOrigin, reserved, free, time, Nat.not_lt.mpr ahead, ne_eq, not_true_eq_false, Bool.not_true,
    Bool.false_eq_true, or_self, if_false]

/-- An ARMED of a spine that has not answered counts up to 200 µs before the instant; with the last one the path proceeds. -/
theorem execPathArmed_inTime {sender : BitVec 24} (path : pathOf s m.origin m.id = some p) (origin : p.role = 0) (armed : p.st = 1)
    (first : p.answered.contains sender.toNat = false) (inTime : s.clock + 200 * usUnit ≤ p.at_) :
    execPathArmed m sender s = .next (setPath s { p with
      answered := p.answered ++ [sender.toNat]
      st := if hopsAlong s p.origin p.target p.dir ≤ (p.answered ++ [sender.toNat]).length then 2 else 1 }) := by
  simp only [execPathArmed, path, origin, armed, first, Nat.not_lt.mpr inTime, ne_eq, not_true_eq_false, Bool.false_eq_true, or_self,
    if_false]

theorem execPathCancel_unused (path : pathOf s m.origin m.id = some p) (notOrigin : p.role ≠ 0) (unused : p.st < 2) :
    execPathCancel m s = .next (dropPath s p) := by
  simp only [execPathCancel, path, notOrigin, unused, ne_eq, not_false_eq_true, and_self, if_true]

end

/-- At the deadline a path that is still armed has an answer missing, and is cancelled. -/
theorem execPathArmDeadline_armed {pid : BitVec 16} {p : Path} {s : State} (path : pathOf s (ownCoord s) pid.toNat = some p)
    (origin : p.role = 0) (armed : p.st = 1) (due : p.at_ ≤ s.clock + 200 * usUnit) :
    execPathArmDeadline pid s = .next (cancelPath s p) := by
  simp only [execPathArmDeadline, path, origin, armed, due, and_self, if_true]

/-- A reservation that is never armed expires; its origin cancels the path. -/
theorem execPathReserveExpiry_due {origin : BitVec 24} {pid : BitVec 16} {p : Path} {s : State}
    (path : pathOf s origin.toNat pid.toNat = some p) (reserved : p.st = 0) (due : p.expiry ≤ s.clock) :
    execPathReserveExpiry origin pid s = .next (if p.role = 0 then cancelPath s p else dropPath s p) := by
  simp only [execPathReserveExpiry, path, reserved, Nat.not_lt.mpr due, ne_eq, not_true_eq_false, or_self, if_false]

/-- Settles O20: clause by clause, the meaning of the command on the path that the clause names. -/
theorem expressPathsAreSetUp : Obligations.ExpressPathsAreSetUp := by
  refine ⟨fun _ _ _ _ _ asked wide _ free granted => execBypassRequest_granted asked wide free granted, ?reserve,
    fun _ _ _ path origin asked free time => execPathReserved_origin path origin asked free time,
    fun _ _ _ path origin unused => execPathDeny_origin path origin unused,
    fun _ _ _ run path notOrigin reserved free time ahead => execPathArm_inTime run path notOrigin reserved free time ahead,
    fun _ _ _ _ path origin armed first inTime => execPathArmed_inTime path origin armed first inTime,
    fun _ _ _ path origin armed due => execPathArmDeadline_armed path origin armed due,
    fun _ _ _ path notOrigin unused => execPathCancel_unused path notOrigin unused,
    fun _ _ _ _ path reserved due => execPathReserveExpiry_due path reserved due⟩
  case reserve =>
    rintro m _ s run free rfl good new slots
    exact execPathReserve_free run free good new slots

/-! ## Using and releasing a path (R319, R324, R325) -/

/-- The state in which an armed return of a slot to BLOCK has been executed and its lane is dark. -/
def slotBlocked (s : State) (tile slot : Nat) (a : XcArm) : State :=
  let s1 := { s with opt := { s.opt with arms := dropFirst (fun x => x == a) s.opt.arms } }
  let s2 := wfs (unarmSlot tile s1 slot) (Reg.OPT_XC tile slot)
    [(F.OPT_XC_MODE, 2), (F.OPT_XC_OUT_FIBRE, a.fibre), (F.OPT_XC_PATH_ID, 0)]
  laneDark (optEvent (bump64 s2 (Reg.OPT_XC_CHANGES tile) 1) tile F.OPT_EVT_XC_DONE (optBody tile slot 0xFF)) (tile * 32 + slot)

/-- A swap of a lane that was planned for the instant of a change is planned anew. -/
def swapMoved (s : State) (l g : Nat) : State :=
  if (laneOf s l).swap.any (fun w => w.1 == g) then planSwap (setSwap s l none) l else s

/-- A change to BLOCK at its instant; the path that armed it may end with it. -/
theorem execCrossConnectChange_block {tile : Fin 64} {slot : Fin 32} {a : XcArm} {s : State}
    (armed : s.opt.arms.find? (fun a => a.tile == tile.val && a.slot == slot.val) = some a) (due : a.at_ ≤ s.clock)
    (block : a.mode = 2) :
    execCrossConnectChange tile slot s = .next (
      let u := swapMoved (slotBlocked s tile slot a) (tile.val * 32 + slot.val) a.at_
      match pathOf u a.origin a.id with
      | none => u
      | some p => pathChanged u p 2) := by
  simp only [execCrossConnectChange, armed, Nat.not_lt.mpr due, block, if_false, if_true]
  rfl

/-- 600 ns after the instant an end of a path whose slots have all changed starts its lanes, on a fibre that starts in SAFE. -/
theorem execPathLaneStart_due {origin : BitVec 24} {pid : BitVec 16} {p : Path} {s : State}
    (path : pathOf s origin.toNat pid.toNat = some p) (isEnd : p.role ≠ 1) (inUse : p.st = 2) (first : p.started = false)
    (due : p.at_ + 600 * nsUnit ≤ s.clock) (changed : s.opt.arms.any (fun a => a.origin == p.origin && a.id == p.id) = false) :
    execPathLaneStart origin pid s = .next (
      let u := setPath s { p with started := true }
      let w := { u with
        rte := { u.rte with expressPorts := u.rte.expressPorts ++ [expressPort s p] }
        opt := { u.opt with fullLevel := SMap.del u.opt.fullLevel (pathFirst s p / 8) } }
      (List.range p.w).foldl (fun x i => wf (laneStart (laneStart x (pathFirst s p + i) false) (pathFirst s p + i) true)
        (Reg.OPT_LANE_STATUS (pathFirst s p / 32) ((pathFirst s p + i) % 32)) F.OPT_LANE_STATUS_EXPRESS 1)
        (fibreSafe w (pathFirst s p / 32) (pathFirst s p / 8 % 4) 0)) := by
  simp only [execPathLaneStart, path, isEnd, inUse, first, Nat.not_lt.mpr due, changed, ne_eq, not_true_eq_false, Bool.false_eq_true,
    or_self, if_false]

/-- After 100 low windows every path granted to the direction is to be released. -/
theorem execBypassRelease_low {dir : Fin 6} {s : State} (low : 100 ≤ SMap.get (fun _ => 0) s.rte.lowRun dir) :
    execBypassRelease dir s = .next { s with opt := { s.opt with paths := s.opt.paths.map (fun p =>
      if p.role = 0 ∧ p.dir = dir.val ∧ p.st = 2 ∧ p.started then { p with st := 3 } else p) } } := by
  simp only [execBypassRelease, Nat.not_lt.mpr low, if_false]

/-- With its express port empty the origin arms the return of its slots and sends RELEASE. -/
theorem execPathReleaseStart_empty {pid : BitVec 16} {p : Path} {s : State} (path : pathOf s (ownCoord s) pid.toNat = some p)
    (origin : p.role = 0) (leaving : p.st = 3) (empty : portEmpty s (2048 + pathFirst s p) = true) (time : timReady s = true) :
    execPathReleaseStart pid s = .next (
      let q := { p with st := 4, at_ := pathInstant s }
      pathSendAll (armBlock (setPath s q) q (pathInstant s)) q 0x36 (pathInstant s)) := by
  simp only [execPathReleaseStart, path, origin, leaving, empty, time, ne_eq, not_true_eq_false, Bool.not_true, Bool.false_eq_true,
    or_self, if_false]

/-- The other spines arm the same return at the instant of the RELEASE. -/
theorem execPathRelease_armable {m : PathMsg} {p : Path} {s : State} (path : pathOf s m.origin m.id = some p)
    (notOrigin : p.role ≠ 0) (inUse : p.st = 2) (may : mayArm s (instant m.sec m.ns) = true) :
    execPathRelease m s = .next (
      let q := { p with st := 4, at_ := instant m.sec m.ns }
      pathChanged (armBlock (setPath s q) q (instant m.sec m.ns)) q 2) := by
  simp only [execPathRelease, path, notOrigin, inUse, may, ne_eq, not_true_eq_false, Bool.not_true, Bool.false_eq_true, or_self,
    if_false]

/-- Settles O21: clause by clause, the meaning of the command on the path that the clause names. -/
theorem expressPathsAreUsedAndReleased : Obligations.ExpressPathsAreUsedAndReleased :=
  ⟨fun _ _ _ _ armed due block => ⟨_, execCrossConnectChange_block armed due block, rfl⟩,
    fun _ _ _ _ path isEnd inUse first due changed => execPathLaneStart_due path isEnd inUse first due changed,
    fun _ _ low => execBypassRelease_low low,
    fun _ _ _ path origin leaving empty time => execPathReleaseStart_empty path origin leaving empty time,
    fun _ _ _ path notOrigin inUse may => execPathRelease_armable path notOrigin inUse may⟩

end Sys2Proof.Machine
end

section
/-! PROOF. Eye safety of fibres (spec/13: R326, R327) and Sirocco runs (R330 to R332). -/
namespace Sys2Proof.Machine

/-! ## Fibres (Table 13.10) -/

section
variable {t : Fin 64} {f : Fin 4} {s : State}

/-- A SAFE fibre probes when a peer's probe is seen. -/
theorem execFibreProbe_peer (powered : tilePowered s t = true) (safe : fibreSt s t f = 0) :
    execFibreProbe t f true s = .next (setFibre s t f 1) := by
  simp only [execFibreProbe, powered, safe, true_or, and_self, if_true]

theorem execPeerPilotSeen_probing {power : BitVec 16} (probing : fibreSt s t f = 1) :
    execPeerPilotSeen t f power s = .next (showPower (setFibre s t f 2) t f power) := by
  rw [execPeerPilotSeen, if_pos probing]

theorem execProbeTimeout_probing (probing : fibreSt s t f = 1) : execProbeTimeout t f s = .next (fibreSafe s t f probeWait) := by
  rw [execProbeTimeout, if_pos probing]

theorem execPeerPilotLost_hold (hold : fibreSt s t f = 2) : execPeerPilotLost t f s = .next (fibreSafe s t f probeWait) := by
  rw [execPeerPilotLost, if_pos hold]

/-- At its first FULL a fibre records its level, and the handshakes of its ports may start. -/
theorem execHoldDone_first {power : BitVec 16} (hold : fibreSt s t f = 2)
    (first : SMap.find s.opt.fullLevel (t.val * 4 + f.val) = none) :
    execHoldDone t f power s = .next (
      let u := showPower (setFibre s t f 3) t f power
      fibreLinks { u with opt := { u.opt with fullLevel := SMap.ins u.opt.fullLevel (t.val * 4 + f.val) power.toInt } } t f) := by
  simp only [execHoldDone, hold, first, ne_eq, not_true_eq_false, Option.isSome_none, Bool.false_eq_true, if_false]

/-- More than 10 dB below its level a FULL fibre goes to SAFE with its lanes' links; a bypass tile blocks what steers into it. -/
theorem execLossOfPilot_low {power : BitVec 16} (full : fibreSt s t f = 3)
    (low : power.toInt < (SMap.find s.opt.fullLevel (t.val * 4 + f.val)).getD 0 - 1000) :
    execLossOfPilot t f power s = .next (
      let u := (fibreLanes t f).foldl laneUnready (showPower (fibreSafe s t f probeWait) t f power)
      optEvent (bump64 (if bypassTile u t then eyeBlock u t f else u) (Reg.OPT_EYE_EVENTS t) 1) t F.OPT_EVT_EYE_SAFE
        (optBody t 0xFF 0xFF)) := by
  simp only [execLossOfPilot, full, Int.not_le.mpr low, ne_eq, not_true_eq_false, or_self, if_false]

end

/-! ## Sirocco (R330 to R332) -/

section
variable {t : Fin 64} {v : Word} {s : State} (run : s.plat.running = true) (fitted : tileFitted s.otp.variant t = true)
  (free : held s = false) (key : keyOk v = true)
include run fitted free key

/-- A START that nothing forbids, on a tile without a run, runs. -/
theorem execSiroccoStart_idle (asked : wbit v 0 = true) (idle : SMap.find s.opt.runs t = none) (may : sirStatus s t = none) :
    execSiroccoStart t v s = .next (sirRun s t) := by
  simp only [execSiroccoStart, run, fitted, free, key, asked, idle, may, Option.isSome_none, Bool.not_true, Bool.false_eq_true, or_self,
    if_false]

theorem execSiroccoAbort_asked (asked : wbit v 1 = true) : execSiroccoAbort t v s = .next (sirEnd (sirPartial s t) t 1) := by
  simp only [execSiroccoAbort, run, fitted, free, key, asked, Bool.not_true, Bool.false_eq_true, or_self, if_false]

end

/-- A run of mode 0 stores no baseline: its values are the result. -/
theorem execSiroccoRunDone_mode0 {t : Fin 64} {vals : List Word} {r : SirRun} {s : State} (runs : SMap.find s.opt.runs t = some r)
    (mode : r.mode = 0) :
    execSiroccoRunDone t vals s = .next (sirEnd (wf ((List.range (r.last - r.first)).foldl (fun u i =>
      wn u (Reg.OPT_SIR_RESULT t (4 + i)) (getAt 0 vals i).toNat) s) (Reg.OPT_SIR_STATUS t) F.OPT_SIR_STATUS_SHOTS
      (min 65535 r.shots)) t 0) := by
  have noStore : (decide (r.mode ≠ 0) && !r.cmp) = false := by simp [mode]
  simp only [execSiroccoRunDone, runs, noStore, Bool.false_and, Bool.false_eq_true, if_false]

/-- Settles O22: clause by clause, the meaning of the command on the path that the clause names. -/
theorem fibresAndSirocco : Obligations.FibresAndSirocco := by
  refine ⟨?probe, fun _ _ _ _ probing => execPeerPilotSeen_probing probing, fun _ _ _ probing => execProbeTimeout_probing probing,
    fun _ _ _ hold => execPeerPilotLost_hold hold, fun _ _ _ _ hold first => execHoldDone_first hold first,
    fun _ _ _ _ full low => execLossOfPilot_low full low,
    fun _ _ _ run fitted free key asked idle may => execSiroccoStart_idle run fitted free key asked idle may,
    fun _ _ _ run fitted free key asked => execSiroccoAbort_asked run fitted free key asked,
    fun _ _ _ _ runs mode => execSiroccoRunDone_mode0 runs mode⟩
  case probe =>
    rintro t f _ s powered safe rfl
    exact execFibreProbe_peer powered safe

end Sys2Proof.Machine
end

section
/-! PROOF. Integrity (spec/14): check units (R338), resends (R341), audits (R345), held data and retraction (R347 to R351), margin tests
and quarantine (R355 to R357). -/
namespace Sys2Proof.Machine

/-! ## Check units (R338) -/

section
variable {d : Fin 8} {u : Fin 64} {s : State}

/-- Out of HELD a write to an idle unit of a dune that is UP takes, before it acts. -/
theorem unitWrite_idle {d u : Nat} {v : Word} (act : State → State) (up : duneUp s d = true) (free : held s = false)
    (idle : rb s (Reg.CHK_UNIT_CFG d u) F.CHK_UNIT_CFG_BUSY = false) :
    unitWrite s d u v act = act (softWrite s (Reg.CHK_UNIT_CFG d u) v) := by
  simp only [unitWrite, up, free, idle, Bool.not_true, Bool.false_eq_true, if_false]

/-- A busy unit keeps its parameters. -/
theorem unitWrite_busy {d u : Nat} {v : Word} (act : State → State) (up : duneUp s d = true) (free : held s = false)
    (busy : rb s (Reg.CHK_UNIT_CFG d u) F.CHK_UNIT_CFG_BUSY = true) : unitWrite s d u v act = act s := by
  simp only [unitWrite, up, free, busy, Bool.not_true, Bool.false_eq_true, if_false, if_true]

/-- A START with SRC 1 begins a queue monitor. -/
theorem execChkUnitStart_monitor {v : Word} (start : wbit v 31 = true) (noStop : wbit v 23 = false)
    (idle : rb s (Reg.CHK_UNIT_CFG d u) F.CHK_UNIT_CFG_BUSY = false) (up : duneUp s d = true) (free : held s = false)
    (src : rf (softWrite s (Reg.CHK_UNIT_CFG d u) v) (Reg.CHK_UNIT_CFG d u) F.CHK_UNIT_CFG_SRC = 1) :
    execChkUnitStart d u v s = .next (wf (softWrite s (Reg.CHK_UNIT_CFG d u) v) (Reg.CHK_UNIT_CFG d u) F.CHK_UNIT_CFG_BUSY 1) := by
  simp only [execChkUnitStart, start, noStop, unitWrite_idle _ up free idle, idle, src, Bool.not_true, Bool.false_eq_true, or_self,
    one_ne_zero, if_false, if_true]

/-- An Oasis run over sound bytes of its scope's space, which compares nothing, ends with its value. -/
theorem execChkUnitDone_value (busy : rb s (Reg.CHK_UNIT_CFG d u) F.CHK_UNIT_CFG_BUSY = true)
    (src : rf s (Reg.CHK_UNIT_CFG d u) F.CHK_UNIT_CFG_SRC = 0) (len : rn s (Reg.CHK_UNIT_LEN d u) ≠ 0)
    (inSpace : outsideSpace s (rf s (Reg.CHK_UNIT_PART d u) F.CHK_UNIT_PART_PART) (rn64 s (Reg.CHK_UNIT_ADDR d u))
      (rn s (Reg.CHK_UNIT_LEN d u)) = false)
    (noCompare : rb s (Reg.CHK_UNIT_CFG d u) F.CHK_UNIT_CFG_CMP_EN = false) :
    execChkUnitDone d u false s = .next (wf (wn64 (wf s (Reg.CHK_UNIT_CFG d u) F.CHK_UNIT_CFG_BUSY 0) (Reg.CHK_UNIT_RESULT d u)
      (checkValue (unitCfg s d u) (rn64 s (Reg.CHK_UNIT_FOLD d u)) (oasisRead s (rf s (Reg.CHK_UNIT_PART d u) F.CHK_UNIT_PART_PART)
        (rn64 s (Reg.CHK_UNIT_ADDR d u)) (rn s (Reg.CHK_UNIT_LEN d u))))) (Reg.CHK_UNIT_STATUS d u) F.CHK_UNIT_STATUS_DONE 1) := by
  simp only [execChkUnitDone, busy, src, len, inSpace, noCompare, ne_eq, not_true_eq_false, Bool.not_true, Bool.false_eq_true, or_self,
    false_and, if_false]

/-- STOP ends a queue monitor. -/
theorem execChkUnitStop_monitor {v : Word} (stop : wbit v 23 = true) (up : duneUp s d = true) (free : held s = false)
    (busy : rb s (Reg.CHK_UNIT_CFG d u) F.CHK_UNIT_CFG_BUSY = true) (src : rf s (Reg.CHK_UNIT_CFG d u) F.CHK_UNIT_CFG_SRC = 1) :
    execChkUnitStop d u v s = .next (wf s (Reg.CHK_UNIT_CFG d u) F.CHK_UNIT_CFG_BUSY 0) := by
  simp only [execChkUnitStop, stop, unitWrite_busy _ up free busy, src, Bool.not_true, Bool.false_eq_true, if_false, if_true]

end

/-! ## Resends (R341) -/

/-- A RESEND of KIND 3 for a step that the spine has sends every result that it holds again. -/
theorem execResend_results {c : Cfh} {payload : List Byte} {x : Group} {y : Coll} {s : State} (len : payload.length = 32)
    (typ : beAt payload 0 1 = 0x40) (mine : c.dst = collEp (ownCoord s)) (up : platUp s = true)
    (coll : collAny s (beAt payload 2 2) (beAt payload 8 4) = some (x, y)) (gen : x.gen = beAt payload 4 1)
    (part : c.part = hallPart s x.part) (kind : beAt payload 1 1 = 3) :
    execResend c payload s = .next (bump64 (y.results.foldl (fun t r => resendResult t (beAt payload 2 2) x y c.src r) s)
      Reg.COL_RESULT_TX y.results.length) := by
  have noPartial : (3 : Nat) ≠ 1 := by decide
  simp only [execResend, len, typ, mine, up, coll, gen, part, kind, noPartial, BEq.rfl, Bool.true_or, List.filter_true, ne_eq,
    not_true_eq_false, Bool.not_true, Bool.false_eq_true, or_self, or_true, if_false, if_true]

section
variable {grp : BitVec 16} {step : Word} {x : Group} {s : State} (group : groupOf s grp.toNat = some x)
include group

section
variable {y : Coll} (opened : collIn x step.toNat = some y)
include opened

/-- RESEND_US after its last attempt a packet of a chunk is asked for again. -/
theorem execResendTimeout_chunk {rank chunk : BitVec 24} {a : Attempt} (attempt : attemptOf y rank.toNat chunk.toNat = some a)
    (ofChunk : chunk.toNat ≠ 0xFFFFFF)
    (due : a.at_ + Nat.max 1 (rf s (Reg.CHK_CFG (chunkDune s x chunk.toNat)) F.CHK_CFG_RESEND_US) * 1000 * nsUnit ≤ s.clock)
    (noAbort : y.abortAt = none) :
    execResendTimeout grp step rank chunk s = .next (askResend s grp.toNat x y (awaitedKind s x y rank.toNat chunk.toNat) rank.toNat
      chunk.toNat) := by
  simp only [execResendTimeout, group, opened, attempt, ofChunk, Nat.not_lt.mpr due, noAbort, Option.isSome_none,
    Bool.false_eq_true, or_self, if_false]

/-! ## Audits (R345) -/

/-- A second rounding of an owned chunk that agrees has passed the audit. -/
theorem execAuditDone_agrees {chunk : BitVec 24} {g2 : Fin 4096} {second : BitVec 64} {third : Option (BitVec 64)} {r : ResPkt}
    (own : (ownResults s x y).find? (fun r => r.chunk == chunk.toNat) = some r) (first : y.audited.contains chunk.toNat = false)
    (rounds : y.opcode ≠ 0x12) (sameDune : g2.val / 512 = chunkDune s x chunk.toNat) (agrees : second.toNat = r.digest)
    (current : collOf s grp.toNat y.step = some y) :
    execAuditDone grp step chunk g2 second third s = .next (showGroup (maybeReady
      (setColl s grp.toNat { y with audited := y.audited ++ [chunk.toNat] }) grp.toNat y.step)) := by
  simp only [execAuditDone, group, opened, own, first, rounds, sameDune, agrees, current, ne_eq, not_true_eq_false, Bool.false_eq_true,
    or_self, if_false, if_true]

end

/-! ## Held data and retraction (R347 to R351) -/

/-- HOLD_MS after its COMMIT a step that no later step follows is no longer held. -/
theorem execHoldExpiry_due {y : Coll} (kept : x.kept.find? (fun y => y.step == step.toNat) = some y)
    (due : y.since + Nat.max 1 (rf s (Reg.CHK_HOLD (y.fq / 2048)) F.CHK_HOLD_HOLD_MS) * 1000000 * nsUnit ≤ s.clock)
    (last : x.opened.any (fun z => stepBefore y.step z.step) = false) :
    execHoldExpiry grp step s = .next (setGroup s grp.toNat { x with kept := x.kept.filter (fun z => z.step != y.step) }) := by
  simp only [execHoldExpiry, group, kept, due, last, Bool.not_false, and_self, if_true]

/-- A replay that has waited GRACE_US for its reservation fails. -/
theorem execReplayReserveFail_due {y : Coll} (coll : collOf s grp.toNat step.toNat = some y) (waiting : y.waiting = true)
    (due : y.since + graceUnits s ≤ s.clock) :
    execReplayReserveFail grp step s = .next (showGroup (pumpAll (chkEvent (closeColl s grp.toNat y stDigestFail) (y.fq / 2048)
      F.CHK_EVT_REPLAY_FAIL x.part grp.toNat y.step))) := by
  simp only [execReplayReserveFail, coll, group, waiting, due, and_self, if_true]

end

section
variable {c : Cfh} {payload : List Byte} {grp : Nat} {x : Group} {m : ColMsg} {s : State}
  (mine : retractMsg s c payload = some (grp, x, m))
include mine

/-- A worker's request goes on to the root. -/
theorem execRetractRequest_worker (worker : x.entries.any (fun w => w.role == 0 && w.ep == c.src) = true) :
    execRetractRequest c payload s = .next (retractAsk s grp m.step) := by
  simp only [execRetractRequest, mine, worker, if_true]

/-- The root's RETRACT of a step that the spine still has is counted, and the step is replayed. -/
theorem execRetract_held {y : Coll} (root : fromRoot x c = true)
    (coll : (x.opened ++ x.kept).find? (fun y => y.step == m.step) = some y) :
    execRetract c payload s = .next (showGroup (retractStep (bump64 (twinCopy s x.part c payload) (Reg.CHK_RETRACTS (y.fq / 2048)) 1)
      grp x y m)) := by
  simp only [execRetract, mine, root, coll, Bool.not_true, Bool.false_eq_true, if_false]

end

/-- Settles O32: clause by clause, the meaning of the command on the path that the clause names. -/
theorem checksResendsAndRetractions : Obligations.ChecksResendsAndRetractions := by
  refine ⟨fun _ _ _ _ start noStop idle up free src => execChkUnitStart_monitor start noStop idle up free src, ?done,
    fun _ _ _ _ stop up free busy src => execChkUnitStop_monitor stop up free busy src,
    fun _ _ _ _ _ len typ mine up coll gen part kind => execResend_results len typ mine up coll gen part kind,
    fun _ _ _ _ _ _ _ _ group opened attempt ofChunk due noAbort =>
      execResendTimeout_chunk group opened attempt ofChunk due noAbort,
    fun _ _ _ _ _ _ _ _ _ _ group opened own first rounds sameDune agrees current =>
      execAuditDone_agrees group opened own first rounds sameDune agrees current,
    fun _ _ _ _ _ group kept due last => execHoldExpiry_due group kept due last,
    fun _ _ _ _ _ _ mine worker => execRetractRequest_worker mine worker,
    fun _ _ _ _ _ _ _ mine root coll => execRetract_held mine root coll,
    fun _ _ _ _ _ coll group waiting due => execReplayReserveFail_due group coll waiting due⟩
  case done =>
    rintro d u _ s busy src len rfl inSpace noCompare
    exact execChkUnitDone_value busy src len inSpace noCompare

/-! ## Margin tests (R355, R356) -/

section
variable {d : Fin 8} {s : State}

/-- A start with nothing in its way, which leaves no pool empty, drains the ripple's engines. -/
theorem execMarginStart_idle {v : Word} (key : keyOk v = true) (start : wbit v 5 = true) (noStop : wbit v 6 = false)
    (up : duneUp s d = true) (free : held s = false) (noTest : SMap.find s.chk.margins d.val = none)
    (noRequest : SMap.find s.brc.dis d.val = none)
    (poolsStay : (emptiedPools s (disCovers s (marginEngines d (bitsAt v.toNat 0 5)))).isEmpty = true) :
    execMarginStart d v s = .next (
      let u := { s with chk := { s.chk with margins := SMap.ins s.chk.margins d.val ⟨bitsAt v.toNat 0 5, false⟩ } }
      disableEngines (wfs (marginShow u d 0 (some 1)) (Reg.CHK_MARGIN_STATUS d)
        [(F.CHK_MARGIN_STATUS_STEP, 0), (F.CHK_MARGIN_STATUS_FAILED, 0)]) (32 + d) (marginEngines d (bitsAt v.toNat 0 5)) false 1
        (bitsAt v.toNat 0 5)) := by
  simp only [execMarginStart, key, start, noStop, up, free, noTest, noRequest, poolsStay, Option.isSome_none, Bool.not_true,
    Bool.false_eq_true, or_self, if_false]

/-- A test runs once the ripple's engines have drained. -/
theorem execMarginTempReached_drained {m : Margin} (test : SMap.find s.chk.margins d.val = some m) (waits : m.running = false)
    (drained : (marginEngines d m.ripple).any (fun g => engSt s g == engRunning || engSt s g == engDraining) = false) :
    execMarginTempReached d s = .next (marginShow { s with chk := { s.chk with
      margins := SMap.ins s.chk.margins d.val { m with running := true } } } d 0 (some 2)) := by
  simp only [execMarginTempReached, test, waits, drained, Bool.false_eq_true, or_self, if_false]

theorem execMarginColdTimeout_waiting {m : Margin} (test : SMap.find s.chk.margins d.val = some m) (waits : m.running = false) :
    execMarginColdTimeout d s = .next (marginEnd s d m.ripple 3) := by
  simp only [execMarginColdTimeout, test, waits, Bool.false_eq_true, if_false]

/-- A test that has run shows its results, and quarantines the engines that fail above the guard. -/
theorem execMarginDone_running {r : MarginRes} {m : Margin} (test : SMap.find s.chk.margins d.val = some m)
    (running : m.running = true) :
    execMarginDone d r s = .next (
      let limit := Nat.min 60 (rf s (Reg.CHK_MARGIN_CFG d) F.CHK_MARGIN_CFG_GUARD_MV)
      let u := (List.range 16).foldl (fun t k =>
        wf t (Reg.CHK_MARGIN_RES d k) F.CHK_MARGIN_RES_ENG_MV (marginCode (getAt none r.engines k))) s
      let bad := (List.range 16).filter (fun k => failsAbove limit (getAt none r.engines k)
        || (List.range 4).any (fun l => failsAbove limit (getAt (some 60) r.lines (k * 4 + l))))
      let fresh := (bad.map (fun k => (d.val * 32 + m.ripple) * 16 + k)).filter (fun g => engSt s g != engQuarantined)
      marginEnd (wfs (fresh.foldl quarantine u) (Reg.CHK_MARGIN_STATUS d)
        [(F.CHK_MARGIN_STATUS_STEP, 6), (F.CHK_MARGIN_STATUS_FAILED, fresh.length)]) d m.ripple (if fresh.isEmpty then 1 else 2)) := by
  simp only [execMarginDone, test, running, Bool.not_true, Bool.false_eq_true, if_false]

theorem execMarginStop_testing {v : Word} {m : Margin} (key : keyOk v = true) (stop : wbit v 6 = true) (noStart : wbit v 5 = false)
    (up : duneUp s d = true) (free : held s = false) (test : SMap.find s.chk.margins d.val = some m) :
    execMarginStop d v s = .next (marginEnd s d m.ripple 4) := by
  simp only [execMarginStop, key, stop, noStart, up, free, test, Bool.not_true, Bool.false_eq_true, or_self, if_false]

/-! ## Quarantine (R357) -/

/-- An engine in quarantine leaves the list for DISABLED. -/
theorem execQuarantineRelease_listed {v : Word} (key : keyOk v = true) (asked : wbit v 23 = true) (up : duneUp s d = true)
    (free : held s = false) (listed : engSt s (d.val * 512 + bitsAt v.toNat 0 9) = engQuarantined) :
    execQuarantineRelease d v s = .next (settleDrains (wf (setEngSt { s with plat := { s.plat with
      quarantine := s.plat.quarantine.filter (fun x => x != d.val * 512 + bitsAt v.toNat 0 9) } }
      (d.val * 512 + bitsAt v.toNat 0 9) engDisabled) (Reg.CHK_QUAR_STATUS d) F.CHK_QUAR_STATUS_RESULT 1)) := by
  simp only [execQuarantineRelease, key, asked, up, free, listed, ne_eq, not_true_eq_false, Bool.not_true, Bool.false_eq_true, or_self,
    if_false]

end

/-- Settles O33: clause by clause, the meaning of the command on the path that the clause names. -/
theorem marginTestsAndQuarantine : Obligations.MarginTestsAndQuarantine :=
  ⟨fun _ _ _ key start noStop up free noTest noRequest poolsStay =>
      execMarginStart_idle key start noStop up free noTest noRequest poolsStay,
    fun _ _ _ test waits drained => execMarginTempReached_drained test waits drained,
    fun _ _ _ test waits => execMarginColdTimeout_waiting test waits, fun _ _ _ _ test running => execMarginDone_running test running,
    fun _ _ _ _ key stop noStart up free test => execMarginStop_testing key stop noStart up free test,
    fun _ _ _ key asked up free listed => execQuarantineRelease_listed key asked up free listed⟩

end Sys2Proof.Machine
end

section
/-! PROOF. The root of trust (spec/15): packages, transfers and tokens (R363, R364, R375, R376), attestation (R377), handshakes and link
encryption (R366 to R371). -/
namespace Sys2Proof.Machine

/-! ## Packages, transfers and tokens (R363, R364, R376) -/

@[simp] theorem keyPkg_typ (s : State) (sigOk unwrapOk : Bool) : (keyPkg s sigOk unwrapOk).typ = pkgType s := rfl

section
variable {v : Word} {s : State} (asked : pkgAsked s v = true)
include asked

/-- A key package that no rule refuses stores its key or its mirror root, and its sequence number. -/
theorem execKeyPackage_accepted {chk : PackageCheck} (notOrder : pkgType s ≠ 3) (notToken : pkgType s ≠ 4)
    (good : keyPkgRefusal s (keyPkg s chk.sigOk chk.unwrapOk) = none) :
    execKeyPackage v chk s = .next (
      let p := keyPkg s chk.sigOk chk.unwrapOk
      let rot := if p.typ = 1 then { s.rot with imageKeys := storeImageKey s.rot.imageKeys p.id, pkgSeq := p.seq }
        else { s.rot with
          mirrorRoots := if s.rot.mirrorRoots.contains p.id then s.rot.mirrorRoots else s.rot.mirrorRoots ++ [p.id]
          pkgSeq := p.seq }
      pkgResult (secLog { s with rot := rot } 5 (pkgDigest s 6544)) 1) := by
  simp only [execKeyPackage, asked, keyPkg_typ, notOrder, notToken, good, Bool.not_true, Bool.false_eq_true, or_self, if_false]

/-- A transfer order that no rule refuses programs its slot, erases the key store and the expel list, and resets the module with
cause 3. -/
theorem execOwnershipTransfer_accepted {chk : TransferCheck} (order : pkgType s = 3)
    (good : transferRefusal s (transferOrder s chk.proofOk chk.ownerOk) = none) :
    execOwnershipTransfer v chk s = .next (
      let o := transferOrder s chk.proofOk chk.ownerOk
      let u := secLog { s with
        otp := { s.otp with ownerSlots := setAt s.otp.ownerSlots o.slot (some o.newKeyHash) }
        rot := { s.rot with imageKeys := [], mirrorRoots := [], minSeq := 0, pkgSeq := 0, expel := [] } } 6 (pkgDigest s 12312)
      coldStart (secEvent (pkgResult (showOwner (orderStoreClear (wn u Reg.IMG_MIN_SEQ 0))) 1) F.SEC_EVT_OWNER_CHANGED
        (natBe 1 0 ++ natBe 2 0xFFFF)) 3) := by
  simp only [execOwnershipTransfer, asked, order, good, ne_eq, not_true_eq_false, Bool.not_true, Bool.false_eq_true, or_self, if_false]

/-- A debug token that no rule refuses opens its scopes for its duration. -/
theorem execDebugToken_accepted {sigOk : Bool} (token : pkgType s = 4) (good : tokenRefusal s (dbgToken s sigOk) = none) :
    execDebugToken v sigOk s = .next (
      let u := secLog { s with rot := { s.rot with tokenScopes := (dbgToken s sigOk).scope, token := true } } 3 (pkgDigest s 4904)
      secEvent (pkgResult (newDebugNonce (wn (showDebug u) Reg.SEC_DBG_REMAIN (dbgToken s sigOk).duration)) 1) F.SEC_EVT_DEBUG_OPENED
        (natBe 1 0 ++ natBe 2 0xFFFF)) := by
  simp only [execDebugToken, asked, token, good, ne_eq, not_true_eq_false, Bool.not_true, Bool.false_eq_true, or_self, if_false]

end

/-- A token that is open ends with the scopes that it opened. -/
theorem tokenEnd_open {s : State} (token : s.rot.token = true) :
    tokenEnd s = debugClosed { s with rot := { s.rot with token := false } } := by
  rw [tokenEnd, if_pos token]

theorem execDbgClose_open {v : Word} {s : State} (run : s.plat.running = true) (key : keyOk v = true) (close : wbit v 3 = true)
    (token : s.rot.token = true) : execDbgClose v s = .next (debugClosed { s with rot := { s.rot with token := false } }) := by
  simp only [execDbgClose, run, key, close, tokenEnd_open token, Bool.and_self, if_true]

/-- ATTEST with the key writes the report over the nonce to its window. -/
theorem execAttest_asked {v : Word} {s : State} (run : s.plat.running = true) (key : keyOk v = true) (attest : wbit v 2 = true) :
    execAttest v s = .next (secEvent (showBytes Reg.SEC_REPORT 1294
      (reportBytes s (beNat ((List.range 8).flatMap (fun i => natBe 4 (rn s (Reg.SEC_ATT_NONCE i)))))) s) F.SEC_EVT_REPORT_READY
      (natBe 1 0 ++ natBe 2 0xFFFF)) := by
  simp only [execAttest, run, key, attest, Bool.and_self, Bool.not_true, Bool.false_eq_true, if_false]

/-- Settles O16: clause by clause, the meaning of the command on the path that the clause names. -/
theorem theRootOfTrustTakesPackages : Obligations.TheRootOfTrustTakesPackages :=
  ⟨fun _ _ _ _ asked notOrder notToken good => execKeyPackage_accepted asked notOrder notToken good,
    fun _ _ _ _ asked order good => execOwnershipTransfer_accepted asked order good,
    fun _ _ _ asked token good => execDebugToken_accepted asked token good,
    fun _ token => congrArg Host.Outcome.next (tokenEnd_open token),
    fun _ _ run key close token => execDbgClose_open run key close token,
    fun _ _ run key attest => execAttest_asked run key attest⟩

/-! ## Handshakes (R366, R367) -/

section
variable {port : Fin 4096} {s : State}

section
variable (shakes : shaking s port = true)
include shakes

/-- A HELLO of a peer that is not expelled, with the port's own HALL_PART, is answered with CERT. -/
theorem execHello_accepted {m : HelloMsg} (unlisted : s.rot.expel.any (fun e => e.kind == 1 && e.subject == m.serial) = false)
    (form : m.wellFormed = true) (part : m.hallPart = hallPart s (portScope s port)) :
    execHello port m s = .next (
      let u := setLink s port { linkOf s port with gotHello := true, peerSerial := m.serial, since := s.clock }
      handshakeMsg u port 0x51 0 (s.otp.cert ++ reportBytes u m.nonce)) := by
  simp only [execHello, shakes, unlisted, form, part, ne_eq, not_true_eq_false, Bool.not_true, Bool.false_eq_true, or_self, if_false]

/-- The first CERT after a HELLO that no rule refuses is answered with FINISH. -/
theorem execCert_accepted {m : CertMsg} (greeted : (linkOf s port).gotHello = true) (first : (linkOf s port).gotCert = false)
    (good : certRefusal s port m = none) :
    execCert port m s = .next (
      let u := setLink s port { linkOf s port with gotCert := true, sentFinish := true, since := s.clock }
      let w := if m.debugOpen then secEvent u F.SEC_EVT_PEER_DEBUG (natBe 1 0 ++ natBe 2 port) else u
      tickFree (handshakeMsg w port 0x52 0 ((if (linkOf w port).peerSerial < w.otp.serial then Config.keyShare w.free else [])
        ++ Config.dikSign (natBe 48 (freeNat w % 2 ^ 384))))) := by
  simp only [execCert, shakes, greeted, first, good, Bool.not_true, Bool.false_eq_true, or_self, if_false]

/-- A FINISH that verifies, at an end that has sent its own, brings the link up. -/
theorem execFinish_verified (certified : (linkOf s port).gotCert = true) (sent : (linkOf s port).sentFinish = true) :
    execFinish port true true s = .next (linkNowUp s port) := by
  simp only [execFinish, shakes, certified, sent, Bool.not_true, Bool.false_eq_true, or_self, if_false]

theorem execRefuse_shaking {reason : Fin 256} : execRefuse port reason s = .next (linkRefuse s port reason) := by
  rw [execRefuse, if_pos shakes]

theorem execHandshakeTimeout_silent (silent : (linkOf s port).since + 50000 * usUnit ≤ s.clock) :
    execHandshakeTimeout port s = .next (refusePeer s port 7) := by
  rw [execHandshakeTimeout, if_pos ⟨shakes, silent⟩]

end

/-- 1 s after a refusal a port whose lanes are LOCKED tries again. -/
theorem execRefusedRetry_locked {r : PortRec} (known : portRec s port = some r) (refused : linkSt s port = linkRefused)
    (waited : (linkOf s port).since + secUnit ≤ s.clock) (locked : portLocked s r = true) (lit : portLit s r = true)
    (up : duneUp s (r.first / 256) = true) : execRefusedRetry port s = .next (startHandshake s port) := by
  simp only [execRefusedRetry, known, refused, waited, locked, lit, up, and_self, if_true]

/-! ## Link encryption (R369 to R371) -/

section
variable {x : SecLink} (known : (portRec s port).isSome = true) (link : linkOf s port = x) (up : x.st = linkUp)
include known link up

/-- A frame with cells closes outside a guard window: its seal is sent, and the next frame opens, in the next epoch where that is due. -/
theorem execFrameClose_cells (cells : x.txCells ≠ 0) (noGuard : portGuard s port s.clock = false) :
    execFrameClose port s = .next (
      let b := sealBytes x (x.txNext == some (x.txFrame + 2)) (freeNat s)
      let u := setLink (tickFree (linkMsg s port (originCfh s 0 (hallPart s (portScope s port)) 0xFFFFFA 0 0 b.length) b)) port
        (nextTx x s.clock)
      if (nextTx x s.clock).txEpoch = x.txEpoch then u else bump64 u Reg.SEC_REKEYS 1) := by
  simp only [execFrameClose, Option.isNone_eq_false_iff.mpr known, link, up, cells, noGuard, ne_eq,
    not_true_eq_false, Bool.false_eq_true, or_self, if_false]

/-- The seal of the open receive frame whose tag holds verifies it. -/
theorem execLinkSeal_fits {m : SealMsg} (tag : m.tagOk = true) (epoch : m.epoch = x.rxEpoch) (frame : m.frame = x.rxFrame) :
    execLinkSeal port m s = .next (setLink s port (nextRx x m.next)) := by
  simp only [execLinkSeal, Option.isNone_eq_false_iff.mpr known, link, up, tag, epoch, frame, ne_eq,
    not_true_eq_false, Bool.false_eq_true, or_self, and_self, if_false, if_true]

/-- After 10 minutes in an epoch a sender that can announces the next one. -/
theorem execRekey_able (noNext : x.txNext = none) (due : x.since + 600 * secUnit ≤ s.clock) :
    execRekey port true s = .next (setLink s port { x with txNext := some (x.txFrame + 2) }) := by
  simp only [execRekey, Option.isNone_eq_false_iff.mpr known, link, up, noNext, Nat.not_lt.mpr due, Option.isSome_none,
    ne_eq, not_true_eq_false, Bool.false_eq_true, false_and, or_self, if_false, if_true]

end

/-- Without its seal a frame fails. -/
theorem execSealMissing_frames (known : (portRec s port).isSome = true) (up : linkSt s port = linkUp)
    (frames : (linkOf s port).rx.isEmpty = false) : execSealMissing port s = .next (tagFail s port) := by
  simp only [execSealMissing, known, up, frames, Bool.not_false, and_self, if_true]

end

/-- Settles O17: clause by clause, the meaning of the command on the path that the clause names. -/
theorem linksShakeHandsAndSeal : Obligations.LinksShakeHandsAndSeal := by
  refine ⟨fun _ _ _ shakes unlisted form part => execHello_accepted shakes unlisted form part,
    fun _ _ _ shakes greeted first good => execCert_accepted shakes greeted first good, ?finish,
    fun _ _ _ shakes => execRefuse_shaking shakes, fun _ _ shakes silent => execHandshakeTimeout_silent shakes silent,
    fun _ _ _ known refused waited locked lit up => execRefusedRetry_locked known refused waited locked lit up,
    fun _ _ _ known link up cells noGuard => execFrameClose_cells known link up cells noGuard,
    fun _ _ _ _ known link up tag epoch frame => execLinkSeal_fits known link up tag epoch frame,
    fun _ _ known up frames => execSealMissing_frames known up frames, ?rekey⟩
  case finish =>
    rintro port _ _ s shakes certified sent rfl rfl
    exact execFinish_verified shakes certified sent
  case rekey =>
    rintro port _ x s known link up noNext due rfl
    exact execRekey_able known link up noNext due

end Sys2Proof.Machine
end

section
/-! PROOF. The triad and HELD (spec/16: R382, R383, R392, R393). -/
namespace Sys2Proof.Machine

/-! ## The triad (R382, R383) -/

/-- Three cores of which one is odd do not all agree. -/
theorem not_agreeing_of_oddCore {v : List (Option Word)} {k : Nat} (odd : oddCore v = some k) :
    (agreeing v 0 1 && agreeing v 0 2) = false := by
  cases agree : agreeing v 0 1 && agreeing v 0 2 with
  | false => rfl
  | true =>
    rw [oddCore, if_pos agree] at odd
    cases odd

/-- In lock step one core that disagrees is resynchronised. -/
theorem execTriadDisagree_lockStep {a b c : Option Word} {k : Nat} {s : State} (run : s.plat.running = true)
    (lockStep : rf s Reg.MGT_TRIAD F.MGT_TRIAD_STATE = 0) (odd : oddCore [a, b, c] = some k) :
    execTriadDisagree a b c s = .next (enterResync s k) := by
  simp only [execTriadDisagree, run, lockStep, not_agreeing_of_oddCore odd, odd, Bool.not_true, Bool.false_eq_true, if_false, if_true]

section
variable {s : State} (resync : rf s Reg.MGT_TRIAD F.MGT_TRIAD_STATE = 1)
include resync

/-- The core that is resynchronised and passes its self-test rejoins on probation. -/
theorem execTriadRejoin_passed (waits : s.mgt.probation = none) :
    execTriadRejoin true s = .next (triadTo { s with mgt := { s.mgt with probation := some (resyncCore s) } } 1 [0, 1, 2]) := by
  simp only [execTriadRejoin, resync, waits, ne_eq, not_true_eq_false, Option.isSome_none, Bool.false_eq_true, or_self, if_false, if_true]

/-- The end of its probation is lock step. -/
theorem execTriadProbationEnd_onProbation (probation : s.mgt.probation.isSome = true) :
    execTriadProbationEnd s = .next (triadTo { s with mgt := { s.mgt with proven := [], probation := none } } 0 [0, 1, 2]) := by
  simp only [execTriadProbationEnd, resync, Option.isNone_eq_false_iff.mpr probation, ne_eq, not_true_eq_false, Bool.false_eq_true,
    or_self, if_false]

end

/-! ## HELD beacons (R393) -/

/-- In HELD a beacon goes out on every link that is UP. -/
theorem execHeldBeaconSend_held {s : State} (isHeld : held s = true) :
    execHeldBeaconSend s = .next (((allPorts s).filter (fun r => linkSt s r.num == linkUp)).foldl (fun u r =>
      sendOwn u r.num (originCfh u 0 (hallPart u (portScope u r.num)) 0xFFFFF8 0 0 32) (natBe 1 0x70
        ++ natBe 1 (rf s Reg.MGT_TRIAD F.MGT_TRIAD_HELD_CAUSE) ++ natBe 2 0 ++ natBe 16 s.otp.serial
        ++ natBe 4 (s.mgt.heldAt / secUnit % 2 ^ 32) ++ natBe 4 (s.mgt.heldAt / nsUnit % 1000000000) ++ natBe 4 0)) s) := by
  simp only [execHeldBeaconSend, isHeld, if_true]

section
variable {port : Fin 4096} {s : State}

/-- A beacon on a link that is UP is noted, shown, counted and reported. -/
theorem execHeldBeacon_up {payload : List Byte} (plat : platUp s = true) (up : linkSt s port = linkUp) (len : payload.length = 32)
    (typ : beAt payload 0 1 = 0x70) :
    execHeldBeacon port payload s = .next (
      let u := wfs { s with mgt := { s.mgt with beacons := SMap.ins s.mgt.beacons port.val s.clock } } Reg.MGT_PEER_HELD
        [(F.MGT_PEER_HELD_VALID, 1), (F.MGT_PEER_HELD_PORT, port.val % 2048)]
      let w := (List.range 4).foldl (fun t i => wn t (Reg.MGT_PEER_SERIAL i) (beAt payload (4 + 4 * i) 4)) u
      settle s (mgtEvent (bump64 w Reg.MGT_BEACONS_RX 1) F.MGT_EVT_PEER_HELD (natBe 1 (portScope s port) ++ natBe 2 port))) := by
  simp only [execHeldBeacon, plat, up, len, typ, ne_eq, not_true_eq_false, Bool.not_true, Bool.false_eq_true, or_self, if_false]

/-- 10 ms after a port's last beacon its peer is no longer shown as HELD. -/
theorem execHeldBeaconAbsence_due {since : Nat} (heard : SMap.find s.mgt.beacons port.val = some since)
    (due : since + 10000000 * nsUnit ≤ s.clock) :
    execHeldBeaconAbsence port s = .next (wf { s with mgt := { s.mgt with beacons := SMap.del s.mgt.beacons port.val } }
      Reg.MGT_PEER_HELD F.MGT_PEER_HELD_VALID (b2n (!(SMap.del s.mgt.beacons port.val).isEmpty))) := by
  simp only [execHeldBeaconAbsence, heard, Nat.not_lt.mpr due, if_false]

end

/-- Settles O34: clause by clause, the meaning of the command on the path that the clause names. -/
theorem theTriadAndHeld : Obligations.TheTriadAndHeld := by
  refine ⟨fun _ _ _ _ _ run lockStep odd => execTriadDisagree_lockStep run lockStep odd, ?rejoin,
    fun _ resync probation => execTriadProbationEnd_onProbation resync probation, fun _ isHeld => execHeldBeaconSend_held isHeld,
    fun _ _ _ plat up len typ => execHeldBeacon_up plat up len typ, fun _ _ _ heard due => execHeldBeaconAbsence_due heard due⟩
  case rejoin =>
    rintro _ s resync waits rfl
    exact execTriadRejoin_passed resync waits

end Sys2Proof.Machine
end

section
/-! PROOF. Function requests, quorum orders and Mirage spines (spec/16: R384 to R391, R396). -/
namespace Sys2Proof.Machine

/-! ## Function requests (R384 to R386) -/

/-- A write of MGT_FN_CTRL that no rule refuses, with no request pending. -/
structure FnAsked (s : State) (v : Word) : Prop where
  key : keyOk v = true
  up : platUp s = true
  free : held s = false
  index : fnIndexOk s (getF v F.MGT_FN_CTRL_KIND) (fnIndex v) = true
  unfenced : (fnScopes s (getF v F.MGT_FN_CTRL_KIND) (fnIndex v)).any (fenced s) = false
  idle : s.mgt.fn = none

section
variable {v : Word} {s : State} (asked : FnAsked s v)
include asked

theorem FnAsked.fnWrite (act : State → Nat → Nat → State) (upgrade : FnReq → Bool) :
    fnWrite s v act upgrade = act s (getF v F.MGT_FN_CTRL_KIND) (fnIndex v) := by
  obtain ⟨key, up, free, index, unfenced, idle⟩ := asked
  simp only [Machine.fnWrite, key, up, free, index, unfenced, idle, Bool.not_true, Bool.false_eq_true, or_self, if_false]

/-- A request to enable functions other than a port is done at once: queues, ports, engines, and the report. -/
theorem FnAsked.execFnEnable (enable : getF v F.MGT_FN_CTRL_ENABLE = 1) (notBoth : getF v F.MGT_FN_CTRL_DISABLE = 0)
    (notPort : getF v F.MGT_FN_CTRL_KIND ≠ 1) :
    execFnEnable v s = .next (
      let k := getF v F.MGT_FN_CTRL_KIND
      let i := fnIndex v
      let u := settleDrains ((fnEngines s k i).foldl enableEng ((fnPorts s k i).foldl enablePort
        ((fnQueues s k i).foldl enableCq (fnResult s 1))))
      let w := wfs u Reg.MGT_FN_STATUS [(F.MGT_FN_STATUS_PENDING, 0), (F.MGT_FN_STATUS_STATE, 1), (F.MGT_FN_STATUS_REMAIN, 0)]
      settle s (mgtEvent w F.MGT_EVT_FN_DONE (fnBody w k i))) := by
  simp only [Machine.execFnEnable, enable, notBoth, asked.fnWrite, notPort, ne_eq, not_true_eq_false, zero_ne_one, false_and, or_self,
    if_false]

section
variable (disable : getF v F.MGT_FN_CTRL_DISABLE = 1) (notBoth : getF v F.MGT_FN_CTRL_ENABLE = 0)
include disable notBoth

theorem FnAsked.execFnDisableDrain (drain : getF v F.MGT_FN_CTRL_IMMEDIATE = 0) :
    execFnDisableDrain v s = .next (fnDisable s (getF v F.MGT_FN_CTRL_KIND) (fnIndex v) false) := by
  simp only [Machine.execFnDisableDrain, disable, notBoth, drain, asked.fnWrite, ne_eq, not_true_eq_false, zero_ne_one, or_self, if_false]

theorem FnAsked.execFnDisableImmediate (immediate : getF v F.MGT_FN_CTRL_IMMEDIATE = 1) :
    execFnDisableImmediate v s = .next (fnDisable s (getF v F.MGT_FN_CTRL_KIND) (fnIndex v) true) := by
  simp only [Machine.execFnDisableImmediate, disable, notBoth, immediate, asked.fnWrite, ne_eq, not_true_eq_false, zero_ne_one, or_self,
    if_false]

end

end

/-- A drain that is still pending after its time is reported, and goes on. -/
theorem execDrainTimeout_due {r : FnReq} {s : State} (pending : s.mgt.fn = some r) (disable : r.enable = false)
    (drain : r.immediate = false)
    (due : r.at_ + Nat.max 1 (rf s Reg.MGT_FN_CFG F.MGT_FN_CFG_DRAIN_TMO_MS) * 1000000 * nsUnit ≤ s.clock) :
    execDrainTimeout s = .next (mgtEvent s F.MGT_EVT_DRAIN_TMO (fnBody s r.kind r.index)) := by
  simp only [execDrainTimeout, pending, disable, drain, Nat.not_lt.mpr due, Bool.false_eq_true, or_self, if_false]

/-! ## Orders (R387 to R391) -/

theorem execOrderSubmit_asked {v : Word} {verdicts : List (Bool × Bool)} {s : State} (key : keyOk v = true) (asked : wbit v 0 = true)
    (up : platUp s = true) : execOrderSubmit v verdicts s = .next (checkOrder s (hostOrder s verdicts)) := by
  simp only [execOrderSubmit, key, asked, up, Bool.not_true, Bool.false_eq_true, or_self, if_false]

/-- The only segment of an order is the whole order: what came before it is dropped, and the order is checked. -/
theorem execOrderSegmentRx_single {seg : List Byte} {verdicts : List (Bool × Bool)} {s : State} (up : platUp s = true)
    (long : 8 ≤ seg.length) (short : seg.length ≤ 8192) (typ : beAt seg 0 1 = 0x60) (first : beAt seg 1 1 = 0)
    (single : beAt seg 2 1 = 1) :
    execOrderSegmentRx seg verdicts s = .next (checkOrder { s with mgt := { s.mgt with segs := [] } }
      { orderOf (seg.drop 8) verdicts with length := if (seg.drop 8).length = beAt seg 4 4 then (seg.drop 8).length else 0 }) := by
  have numbered : ([(0, seg.drop 8)] : List (Nat × List Byte)).map (·.1) = List.range 1 := rfl
  simp only [execOrderSegmentRx, up, Nat.not_lt.mpr long, Nat.not_lt.mpr short, typ, first, single, List.nil_append, List.length_singleton,
    numbered, lt_irrefl, List.flatMap_singleton, ne_eq, not_true_eq_false, Bool.not_true, Bool.false_eq_true, or_self, if_false, if_true]

section
variable {o : ArmedOrder} {s : State}

/-- EXPEL of an endpoint only lists it. -/
theorem execExpel_endpoint (due : orderDue s 1 = some o) (endpoint : o.tkind = 3) :
    execExpel s = .next (settle s (orderDone (fnProgress
      (setExpel s (if s.rot.expel.contains (oEntry o) then s.rot.expel else s.rot.expel ++ [oEntry o]))) o)) := by
  have notDevice : (3 : Nat) ≠ 1 := by decide
  have notPort : (3 : Nat) ≠ 2 := by decide
  simp only [execExpel, due, endpoint, notDevice, notPort, if_false]

/-- UNEXPEL of another target only takes its entry off the list. -/
theorem execUnexpel_other (due : orderDue s 2 = some o) (other : o.target ≠ s.otp.serial) :
    execUnexpel s = .next (orderDone (setExpel s (s.rot.expel.filter (fun e => e != oEntry o))) o) := by
  simp only [execUnexpel, due, other, if_false]

theorem execFence_due (due : orderDue s 3 = some o) : execFence s = .next (orderDone (fenceScope s o.num) o) := by
  simp only [execFence, due]

/-- UNFENCE of a FENCED scope starts at once. -/
theorem execUnfence_fenced (due : orderDue s 4 = some o) (fenced : fenceSt s o.num = 2) :
    execUnfence s = .next (orderDone (unfenceStart s o.num) o) := by
  simp only [execUnfence, due, fenced, if_true]

theorem execPromote_due (due : orderDue s 5 = some o) :
    execPromote s = .next (orderDone (settle s ((s.img.cfg.ports.map (·.num)).foldl tryHandshake
      (wf s Reg.MGT_TWIN_CFG F.MGT_TWIN_CFG_ROLE 0))) o) := by
  simp only [execPromote, due]

end

/-! ## Mirage spines (R396) -/

/-- A Mirage spine keeps the shadow record that arrives on its twin port. -/
theorem execTwinShadowRx_shadow {port : Fin 4096} {dg g gen step k dst : Nat} {s : State} (mirage : isMirageSpine s = true)
    (twin : port.val = twinPort s) (up : platUp s = true) :
    execTwinShadowRx port (.shadow dg g gen step k dst) s = .next
      { s with mgt := { s.mgt with shadows := s.mgt.shadows ++ [(dg, g, gen, step, k, dst)] } } := by
  simp only [execTwinShadowRx, mirage, twin, up, ne_eq, not_true_eq_false, Bool.not_true, Bool.false_eq_true, or_self, if_false]

/-- Settles O35: clause by clause, the meaning of the command on the path that the clause names. -/
theorem requestsAndOrdersRun : Obligations.RequestsAndOrdersRun := by
  refine ⟨fun _ _ enable notBoth key up free index unfenced idle notPort =>
      FnAsked.execFnEnable ⟨key, up, free, index, unfenced, idle⟩ enable notBoth notPort,
    fun _ _ disable notBoth drain key up free index unfenced idle =>
      FnAsked.execFnDisableDrain ⟨key, up, free, index, unfenced, idle⟩ disable notBoth drain,
    fun _ _ disable notBoth immediate key up free index unfenced idle =>
      FnAsked.execFnDisableImmediate ⟨key, up, free, index, unfenced, idle⟩ disable notBoth immediate,
    fun _ _ pending disable drain due => execDrainTimeout_due pending disable drain due,
    fun _ _ _ key asked up => execOrderSubmit_asked key asked up,
    fun _ _ _ up long short typ first single => execOrderSegmentRx_single up long short typ first single,
    fun _ _ due endpoint => execExpel_endpoint due endpoint, fun _ _ due other => execUnexpel_other due other,
    fun _ _ due => execFence_due due, fun _ _ due fenced => execUnfence_fenced due fenced, fun _ _ due => execPromote_due due, ?shadow⟩
  case shadow =>
    rintro port _ dg g gen step k dst s mirage twin up rfl
    exact execTwinShadowRx_shadow mirage twin up

end Sys2Proof.Machine
end
